-- ==== Sys2Proof/Word.lean ====
section
/-!
DEFINITION. Words of the C960 (R1, R3, R31): the widths the manual numbers bits in, and the sparse table that
every large register file, memory and control table of the package is held in.
-/
namespace Sys2Proof

/-- A code word, a vector register of one lane, a literal (R18, R31). -/
abbrev Word := BitVec 32

/-- A scalar register, a control register, a mask register (R31, R160). -/
abbrev Dword := BitVec 64

abbrev Byte := BitVec 8

/-- An operand field of a word (R31): 0-191 name v0-v191, 192-255 name s0-s63. -/
abbrev Opnd := BitVec 8

/-- A sparse table: key and value pairs, keys strictly rising, no entry equal to what an unlisted key reads as. -/
abbrev Table (α : Type) := List (Nat × α)

end Sys2Proof
end

