-- ==== Sys2Proof/Syntax.lean ====
section
/-!
DEFINITION. The instruction set as syntax: one constructor for each row of the table of operations and events.
A row that is a word of the code carries its operand fields (R29), with the unit's prefix (R32) where the base may
take one; what the outside world, or the unit that acts, brings to an event is an `Input`.
-/
namespace Sys2Proof

/-- The fields of a prefix word (R32). `aux` is bits 7:0: aux in bits 6:0 and negb in bit 7, or the whole aux8
of LOGIC3 and the atomics. -/
structure Pfx where
  aux  : BitVec 8
  nega : Bool
  sat  : Bool
  cv   : Bool
  c    : Opnd
  rm   : BitVec 3
  z    : Bool
  mask : BitVec 3
deriving DecidableEq, Repr, Inhabited

/-- An Etesian flit (R373). -/
structure Flit where
  typ    : Byte
  dst    : Byte
  src    : Byte
  size   : Byte
  tag    : BitVec 32
  dpa    : BitVec 48
  aop    : Byte
  status : Byte
  data   : List Byte
deriving DecidableEq, Repr, Inhabited

/-- A row of a bank as the controller names it (R300, R302, R434): channel, bank and row, an MA line of the row,
and whether the bank has a spare row left for package repair. -/
structure RowPlace where
  chan    : Nat
  bank    : Nat
  row     : Nat
  line    : Nat
  spare   : Bool
deriving DecidableEq, Repr, Inhabited

/-- A management request of message type 0x7F as it reached the port (R448): the tag, the two header bytes that must
be zero, the data, and whether it came in one packet. -/
structure MgmtRequest where
  tag       : Byte
  zero      : BitVec 16
  data      : List Byte
  onePacket : Bool
deriving DecidableEq, Repr, Inhabited

/-- What the outside world, or the unit that acts, brings to an event: the host function, the things named (a queue, a
group, a gang, a die, a tag, …) and the values and bytes carried. Each event's meaning says which fields it reads. -/
structure Input where
  fn      : Nat := 0
  key     : Nat := 0
  sub     : Nat := 0
  sub2    : Nat := 0
  value   : Dword := 0
  value2  : Dword := 0
  ok      : Bool := false
  data    : List Byte := []
  pairs   : List (Nat × Nat) := []
  flit    : Flit := default
  row     : RowPlace := default
  request : MgmtRequest := default
deriving DecidableEq, Repr, Inhabited

/-- The rows of the table of operations and events. The rows that are words with operand fields stand first, in the
table's order; then the words without a field; then the rows of op 0x3D that S[a] or S[b] tells apart when the word runs
(their operand fields stand in the issuing unit, `State.cur`); then the events, which take what they carry from
`State.input`. -/
inductive Instr where
  /-- WAITLT (R68). Holds the fragment until the named counter reads below the threshold. -/
  | waitlt (d : BitVec 8) (n : BitVec 8)
  /-- SLEEP (R69). Holds the fragment for 64 × n to 64 × n + 64 clocks. -/
  | sleep (n : BitVec 8)
  /-- BRA (R70). Moves every thread of the fragment to the target. -/
  | bra (o : BitVec 24)
  /-- CALL (R71). Pushes the return address on each thread's stack and moves the fragment to the target. -/
  | call (o : BitVec 24)
  /-- BRL (R70). Moves every thread to the target given by a 32-bit literal word offset. -/
  | brl (offset : Word)
  /-- BR_ANY (R73). Takes the branch for the whole fragment when any thread's mask bit is 1. -/
  | brAny (m : BitVec 3) (o : BitVec 16)
  /-- BR_ANY_SPLIT (R73). Each thread takes the branch when its own mask bit is 1. -/
  | brAnySplit (m : BitVec 3) (o : BitVec 16)
  /-- BR_ALL (R73). Takes the branch for the whole fragment when every thread's mask bit is 1. -/
  | brAll (m : BitVec 3) (o : BitVec 16)
  /-- BR_NONE (R73). Takes the branch for the whole fragment when no thread's mask bit is 1. -/
  | brNone (m : BitVec 3) (o : BitVec 16)
  /-- BR_NONE_SPLIT (R73). Each thread takes the branch when its own mask bit is 0. -/
  | brNoneSplit (m : BitVec 3) (o : BitVec 16)
  /-- BR_SZ (R74). Branches when the scalar is zero, or per thread when its vector register is zero. -/
  | brSz (r : BitVec 8) (o : BitVec 16)
  /-- BRX_TABLE (R75). Branches each thread to the table entry chosen by its index. -/
  | brxTable (a : BitVec 8) (b : BitVec 8)
  /-- BRX_ADDRESS (R75). Branches each thread to the 64-bit target held in its register. -/
  | brxAddress (a : BitVec 8)
  /-- CALLX_TABLE (R75). Pushes the return address and branches each thread through a target table. -/
  | callxTable (a : BitVec 8) (b : BitVec 8)
  /-- CALLX_ADDRESS (R75). Pushes the return address and branches each thread to a register-held target. -/
  | callxAddress (a : BitVec 8)
  /-- JOIN (R82). Rendezvous that continues the arrived members as one fragment at the next header. -/
  | join (a : BitVec 8)
  /-- ELECT (R79). Writes 1 in the lowest Active lane of the fragment and 0 elsewhere. -/
  | elect (p : Option Pfx) (d : BitVec 8)
  /-- ELECT_GROUP (R79). Writes 1 in the lowest live lane of the group if it is in the fragment, else 0. -/
  | electGroup (p : Option Pfx) (d : BitVec 8)
  /-- ELECT_TEAM (R79). Writes 1 in the team's lowest-%tid live thread if it is in the fragment, else 0. -/
  | electTeam (p : Option Pfx) (d : BitVec 8)
  /-- RDV (R80). Rendezvous that continues the arrived members together and optionally writes the arrived mask. -/
  | rdv (p : Option Pfx) (d : BitVec 8) (a : BitVec 8)
  /-- VOTE_BALLOT (R81). Rendezvous writing each member's predicate bit to the result mask. -/
  | voteBallot (p : Option Pfx) (r : BitVec 3) (a : BitVec 8) (b : BitVec 8)
  /-- VOTE_ANY (R81). Rendezvous writing 1 everywhere when any member's predicate is 1. -/
  | voteAny (p : Option Pfx) (r : BitVec 3) (a : BitVec 8) (b : BitVec 8)
  /-- VOTE_ALL (R81). Rendezvous writing 1 everywhere when every member's predicate is 1. -/
  | voteAll (p : Option Pfx) (r : BitVec 3) (a : BitVec 8) (b : BitVec 8)
  /-- VOTE_UNI (R81). Rendezvous writing 1 everywhere when all live arrived members' predicates agree. -/
  | voteUni (p : Option Pfx) (r : BitVec 3) (a : BitVec 8) (b : BitVec 8)
  /-- IADD (R119). Integer add, wrapping or saturating. -/
  | iadd (p : Option Pfx) (d : BitVec 8) (a : BitVec 8) (b : BitVec 8)
  /-- ISUB (R119). Integer subtract, wrapping or saturating. -/
  | isub (p : Option Pfx) (d : BitVec 8) (a : BitVec 8) (b : BitVec 8)
  /-- IMIN (R119). Signed 32-bit minimum. -/
  | imin (p : Option Pfx) (d : BitVec 8) (a : BitVec 8) (b : BitVec 8)
  /-- IMAX (R119). Signed 32-bit maximum. -/
  | imax (p : Option Pfx) (d : BitVec 8) (a : BitVec 8) (b : BitVec 8)
  /-- IMIN_N (R119). Unsigned 32-bit minimum. -/
  | iminN (p : Option Pfx) (d : BitVec 8) (a : BitVec 8) (b : BitVec 8)
  /-- IMAX_N (R119). Unsigned 32-bit maximum. -/
  | imaxN (p : Option Pfx) (d : BitVec 8) (a : BitVec 8) (b : BitVec 8)
  /-- IABS (R119). Signed absolute value, wrapping or saturating. -/
  | iabs (p : Option Pfx) (d : BitVec 8) (a : BitVec 8)
  /-- INEG (R119). Signed negation, wrapping or saturating. -/
  | ineg (p : Option Pfx) (d : BitVec 8) (a : BitVec 8)
  /-- IMUL (R120). Low 32 bits of the product, or its saturation. -/
  | imul (p : Option Pfx) (d : BitVec 8) (a : BitVec 8) (b : BitVec 8)
  /-- IMULH (R120). High 32 bits of the signed product. -/
  | imulh (p : Option Pfx) (d : BitVec 8) (a : BitVec 8) (b : BitVec 8)
  /-- IMULH_N (R120). High 32 bits of the unsigned product. -/
  | imulhN (p : Option Pfx) (d : BitVec 8) (a : BitVec 8) (b : BitVec 8)
  /-- IMAD (R120). Multiply-add with the fourth operand, wrapping or saturating. -/
  | imad (p : Option Pfx) (d : BitVec 8) (a : BitVec 8) (b : BitVec 8)
  /-- AND (R121). Bitwise AND. -/
  | and (p : Option Pfx) (d : BitVec 8) (a : BitVec 8) (b : BitVec 8)
  /-- OR (R121). Bitwise OR. -/
  | or (p : Option Pfx) (d : BitVec 8) (a : BitVec 8) (b : BitVec 8)
  /-- XOR (R121). Bitwise XOR. -/
  | xor (p : Option Pfx) (d : BitVec 8) (a : BitVec 8) (b : BitVec 8)
  /-- ANDN (R121). Bitwise a AND NOT b. -/
  | andn (p : Option Pfx) (d : BitVec 8) (a : BitVec 8) (b : BitVec 8)
  /-- SHL (R122). Logical shift left. -/
  | shl (p : Option Pfx) (d : BitVec 8) (a : BitVec 8) (b : BitVec 8)
  /-- SHR (R122). Logical shift right. -/
  | shr (p : Option Pfx) (d : BitVec 8) (a : BitVec 8) (b : BitVec 8)
  /-- SHA (R122). Arithmetic shift right. -/
  | sha (p : Option Pfx) (d : BitVec 8) (a : BitVec 8) (b : BitVec 8)
  /-- ROL (R122). Rotate left by n mod 32. -/
  | rol (p : Option Pfx) (d : BitVec 8) (a : BitVec 8) (b : BitVec 8)
  /-- POPC (R123). Population count. -/
  | popc (p : Option Pfx) (d : BitVec 8) (a : BitVec 8)
  /-- CLZ (R123). Count leading zeros. -/
  | clz (p : Option Pfx) (d : BitVec 8) (a : BitVec 8)
  /-- CTZ (R123). Count trailing zeros. -/
  | ctz (p : Option Pfx) (d : BitVec 8) (a : BitVec 8)
  /-- BREV (R123). Bit reverse. -/
  | brev (p : Option Pfx) (d : BitVec 8) (a : BitVec 8)
  /-- BFX (R124). Signed bit-field extract. -/
  | bfx (p : Option Pfx) (d : BitVec 8) (a : BitVec 8) (b : BitVec 8)
  /-- BFX_N (R124). Unsigned bit-field extract. -/
  | bfxN (p : Option Pfx) (d : BitVec 8) (a : BitVec 8) (b : BitVec 8)
  /-- BFI (R124). Bit-field insert into the fourth operand. -/
  | bfi (p : Option Pfx) (d : BitVec 8) (a : BitVec 8) (b : BitVec 8)
  /-- LOGIC3 (R125). Three-input bitwise function from an 8-bit truth table. -/
  | logic3 (p : Option Pfx) (d : BitVec 8) (a : BitVec 8) (b : BitVec 8)
  /-- ICMP_I32 (R126). Signed 32-bit compare writing a mask. -/
  | icmpI32 (p : Option Pfx) (c : BitVec 3) (m : BitVec 3) (a : BitVec 8) (b : BitVec 8)
  /-- ICMP_N32 (R126). Unsigned 32-bit compare writing a mask. -/
  | icmpN32 (p : Option Pfx) (c : BitVec 3) (m : BitVec 3) (a : BitVec 8) (b : BitVec 8)
  /-- ICMP_I64 (R126). Signed 64-bit compare writing a mask. -/
  | icmpI64 (p : Option Pfx) (c : BitVec 3) (m : BitVec 3) (a : BitVec 8) (b : BitVec 8)
  /-- ICMP_N64 (R126). Unsigned 64-bit compare writing a mask. -/
  | icmpN64 (p : Option Pfx) (c : BitVec 3) (m : BitVec 3) (a : BitVec 8) (b : BitVec 8)
  /-- IADDI (R127). Add a sign-extended 8-bit immediate. -/
  | iaddi (p : Option Pfx) (d : BitVec 8) (a : BitVec 8) (i : BitVec 8)
  /-- ANDI (R127). AND with a sign-extended 8-bit immediate. -/
  | andi (p : Option Pfx) (d : BitVec 8) (a : BitVec 8) (i : BitVec 8)
  /-- ORI (R127). OR with a sign-extended 8-bit immediate. -/
  | ori (p : Option Pfx) (d : BitVec 8) (a : BitVec 8) (i : BitVec 8)
  /-- XORI (R127). XOR with a sign-extended 8-bit immediate. -/
  | xori (p : Option Pfx) (d : BitVec 8) (a : BitVec 8) (i : BitVec 8)
  /-- LEA1 (R128). 64-bit address plus index. -/
  | lea1 (p : Option Pfx) (d : BitVec 8) (a : BitVec 8) (b : BitVec 8)
  /-- LEA4 (R128). 64-bit address plus 4 × index. -/
  | lea4 (p : Option Pfx) (d : BitVec 8) (a : BitVec 8) (b : BitVec 8)
  /-- LEA16 (R128). 64-bit address plus 16 × index. -/
  | lea16 (p : Option Pfx) (d : BitVec 8) (a : BitVec 8) (b : BitVec 8)
  /-- AADD (R128). Adds within the low 56 bits, keeping the top byte. -/
  | aadd (p : Option Pfx) (d : BitVec 8) (a : BitVec 8) (b : BitVec 8)
  /-- IADD64 (R129). 64-bit add, wrapping or saturating. -/
  | iadd64 (p : Option Pfx) (d : BitVec 8) (a : BitVec 8) (b : BitVec 8)
  /-- ISUB64 (R129). 64-bit subtract, wrapping or saturating. -/
  | isub64 (p : Option Pfx) (d : BitVec 8) (a : BitVec 8) (b : BitVec 8)
  /-- IMUL64 (R129). 64-bit multiply, wrapping. -/
  | imul64 (p : Option Pfx) (d : BitVec 8) (a : BitVec 8) (b : BitVec 8)
  /-- SHL64 (R129). 64-bit shift by a signed count, right shifts logical or arithmetic. -/
  | shl64 (p : Option Pfx) (d : BitVec 8) (a : BitVec 8) (b : BitVec 8)
  /-- MOVL (R130). Writes a 32-bit literal to d. -/
  | movl (p : Option Pfx) (d : Opnd) (lit : Word)
  /-- ADDL (R130). Adds a 32-bit literal to a register. -/
  | addl (p : Option Pfx) (d a : Opnd) (lit : Word)
  /-- ANDL (R130). ANDs a register with a 32-bit literal. -/
  | andl (p : Option Pfx) (d a : Opnd) (lit : Word)
  /-- FADD (R132). FP32 add rounded once. -/
  | fadd (p : Option Pfx) (d : BitVec 8) (a : BitVec 8) (b : BitVec 8)
  /-- FSUB (R132). FP32 subtract rounded once. -/
  | fsub (p : Option Pfx) (d : BitVec 8) (a : BitVec 8) (b : BitVec 8)
  /-- FMUL (R132). FP32 multiply rounded once. -/
  | fmul (p : Option Pfx) (d : BitVec 8) (a : BitVec 8) (b : BitVec 8)
  /-- FMA (R132). FP32 fused multiply-add rounded once. -/
  | fma (p : Option Pfx) (d : BitVec 8) (a : BitVec 8) (b : BitVec 8)
  /-- FMIN (R133). FP32 minimum without rounding. -/
  | fmin (p : Option Pfx) (d : BitVec 8) (a : BitVec 8) (b : BitVec 8)
  /-- FMAX (R133). FP32 maximum without rounding. -/
  | fmax (p : Option Pfx) (d : BitVec 8) (a : BitVec 8) (b : BitVec 8)
  /-- FABS (R133). Clears the sign bit. -/
  | fabs (p : Option Pfx) (d : BitVec 8) (a : BitVec 8)
  /-- FNEG (R133). Inverts the sign bit. -/
  | fneg (p : Option Pfx) (d : BitVec 8) (a : BitVec 8)
  /-- FCMP (R134). FP32 compare writing a mask. -/
  | fcmp (p : Option Pfx) (c : BitVec 4) (m : BitVec 3) (a : BitVec 8) (b : BitVec 8)
  /-- FCLASS (R135). Writes a one-hot class of the operand. -/
  | fclass (p : Option Pfx) (d : BitVec 8) (a : BitVec 8)
  /-- FRND (R136). Rounds to a neighbouring integer. -/
  | frnd (p : Option Pfx) (d : BitVec 8) (a : BitVec 8)
  /-- FFRAC (R136). Fractional part x − floor(x), rounded. -/
  | ffrac (p : Option Pfx) (d : BitVec 8) (a : BitVec 8)
  /-- RCP (R137). Correctly rounded reciprocal. -/
  | rcp (p : Option Pfx) (d : BitVec 8) (a : BitVec 8)
  /-- RSQ (R137). Reciprocal square root. -/
  | rsq (p : Option Pfx) (d : BitVec 8) (a : BitVec 8)
  /-- SQRT (R137). Correctly rounded square root. -/
  | sqrt (p : Option Pfx) (d : BitVec 8) (a : BitVec 8)
  /-- TANH (R137). Hyperbolic tangent within 2 ulp. -/
  | tanh (p : Option Pfx) (d : BitVec 8) (a : BitVec 8)
  /-- EX2 (R137). Base-2 exponential. -/
  | ex2 (p : Option Pfx) (d : BitVec 8) (a : BitVec 8)
  /-- LG2 (R137). Base-2 logarithm. -/
  | lg2 (p : Option Pfx) (d : BitVec 8) (a : BitVec 8)
  /-- SIN (R137). Sine of an angle in radians. -/
  | sin (p : Option Pfx) (d : BitVec 8) (a : BitVec 8)
  /-- COS (R137). Cosine of an angle in radians. -/
  | cos (p : Option Pfx) (d : BitVec 8) (a : BitVec 8)
  /-- HADD2 (R139). Packed 16-bit add per half. -/
  | hadd2 (p : Option Pfx) (d : BitVec 8) (a : BitVec 8) (b : BitVec 8)
  /-- HMUL2 (R139). Packed 16-bit multiply per half. -/
  | hmul2 (p : Option Pfx) (d : BitVec 8) (a : BitVec 8) (b : BitVec 8)
  /-- HFMA2 (R139). Packed 16-bit fused multiply-add per half. -/
  | hfma2 (p : Option Pfx) (d : BitVec 8) (a : BitVec 8) (b : BitVec 8)
  /-- HMAX2 (R139). Packed 16-bit maximum per half. -/
  | hmax2 (p : Option Pfx) (d : BitVec 8) (a : BitVec 8) (b : BitVec 8)
  /-- DOT4_I8 (R140). Four-term 8-bit integer dot product with accumulate. -/
  | dot4I8 (p : Option Pfx) (d : BitVec 8) (a : BitVec 8) (b : BitVec 8)
  /-- DOT8_H4 (R141). Eight-term H4 dot product rounded once to FP32. -/
  | dot8H4 (p : Option Pfx) (d : BitVec 8) (a : BitVec 8) (b : BitVec 8)
  /-- DOT2_BF16 (R142). Two-term BF16 dot product rounded once to FP32. -/
  | dot2Bf16 (p : Option Pfx) (d : BitVec 8) (a : BitVec 8) (b : BitVec 8)
  /-- DOT2_F16 (R142). Two-term FP16 dot product rounded once to FP32. -/
  | dot2F16 (p : Option Pfx) (d : BitVec 8) (a : BitVec 8) (b : BitVec 8)
  /-- F2I (R143). Saturating FP32 to integer conversion. -/
  | f2i (p : Option Pfx) (d : BitVec 8) (a : BitVec 8)
  /-- I2F (R144). Integer to FP32 conversion. -/
  | i2f (p : Option Pfx) (d : BitVec 8) (a : BitVec 8)
  /-- F2F (R145). Conversion between floating formats. -/
  | f2f (p : Option Pfx) (d : BitVec 8) (a : BitVec 8)
  /-- F2F_PK (R146). Converts two FP32 values into a field pair of d. -/
  | f2fPk (p : Option Pfx) (d : BitVec 8) (a : BitVec 8) (b : BitVec 8)
  /-- QNT (R149). Quantises one element by a block scale. -/
  | qnt (p : Option Pfx) (d : BitVec 8) (a : BitVec 8) (b : BitVec 8)
  /-- QNT_SCALE (R148). Computes a block scale from an absolute maximum. -/
  | qntScale (p : Option Pfx) (d : BitVec 8) (a : BitVec 8)
  /-- DQNT (R150). Dequantises one element to FP32. -/
  | dqnt (p : Option Pfx) (d : BitVec 8) (a : BitVec 8) (b : BitVec 8)
  /-- PACKN (R151). Packs eight nibbles from the bytes of two registers. -/
  | packn (p : Option Pfx) (d : BitVec 8) (a : BitVec 8) (b : BitVec 8)
  /-- UNPACKN (R151). Spreads four nibbles into bytes, zero- or sign-extended. -/
  | unpackn (p : Option Pfx) (d : BitVec 8) (a : BitVec 8)
  /-- XGET (R172). Rendezvous reading the source value of a lane named per thread. -/
  | xget (p : Option Pfx) (d : BitVec 8) (a : BitVec 8) (b : BitVec 8)
  /-- XPUT (R173). Rendezvous sending each thread's value to a named lane. -/
  | xput (p : Option Pfx) (d : BitVec 8) (a : BitVec 8) (b : BitVec 8)
  /-- XBCAST (R172). Rendezvous broadcasting one lane's value. -/
  | xbcast (p : Option Pfx) (d : BitVec 8) (a : BitVec 8) (b : BitVec 8)
  /-- XQUAD (R172). Rendezvous permuting within each slice. -/
  | xquad (p : Option Pfx) (d : BitVec 8) (a : BitVec 8) (b : BitVec 8)
  /-- XRED (R175). Rendezvous reduction of all contributions. -/
  | xred (p : Option Pfx) (d : BitVec 8) (a : BitVec 8) (o : BitVec 4)
  /-- XSCAN (R175). Rendezvous inclusive scan. -/
  | xscan (p : Option Pfx) (d : BitVec 8) (a : BitVec 8) (o : BitVec 4)
  /-- XSCAN_EXCL (R175). Rendezvous exclusive scan. -/
  | xscanExcl (p : Option Pfx) (d : BitVec 8) (a : BitVec 8) (o : BitVec 4)
  /-- XMINLOC (R176). Rendezvous writing the lane of the smallest contribution. -/
  | xminloc (p : Option Pfx) (d : BitVec 8) (a : BitVec 8) (t : BitVec 2)
  /-- XMAXLOC (R176). Rendezvous writing the lane of the largest contribution. -/
  | xmaxloc (p : Option Pfx) (d : BitVec 8) (a : BitVec 8) (t : BitVec 2)
  /-- MLOP (R168). Two-input logic function on masks. -/
  | mlop (p : Option Pfx) (f : BitVec 4) (m : BitVec 3) (a : BitVec 8) (b : BitVec 8)
  /-- MPOP (R169). Counts the 1 bits of a mask. -/
  | mpop (p : Option Pfx) (d : BitVec 8) (a : BitVec 8)
  /-- MPOP_BELOW (R169). Counts the mask's 1 bits below each lane. -/
  | mpopBelow (p : Option Pfx) (d : BitVec 8) (a : BitVec 8)
  /-- MPOP_BITS (R169). Copies the mask's bits into a scalar. -/
  | mpopBits (p : Option Pfx) (d : BitVec 8) (a : BitVec 8)
  /-- MFIRST (R169). Lowest position of a 1 in the mask. -/
  | mfirst (p : Option Pfx) (d : BitVec 8) (a : BitVec 8)
  /-- MFIRST_LAST (R169). Highest position of a 1 in the mask. -/
  | mfirstLast (p : Option Pfx) (d : BitVec 8) (a : BitVec 8)
  /-- MSET (R170). Sets a whole mask from a scalar's bits. -/
  | mset (p : Option Pfx) (d : BitVec 3) (a : BitVec 8)
  /-- MSET_NZ (R170). Sets mask bits where the register is nonzero. -/
  | msetNz (p : Option Pfx) (d : BitVec 3) (a : BitVec 8)
  /-- BSR (R179). Reads n bits from a stream quad and advances the cursor. -/
  | bsr (p : Option Pfx) (d : BitVec 8) (a : BitVec 8) (b : BitVec 8)
  /-- BSINIT (R180). Initialises the bit-stream cursor. -/
  | bsinit (p : Option Pfx) (b : BitVec 8)
  /-- BSPOS (R180). Writes the stream position, or the NEED bits to a mask. -/
  | bspos (p : Option Pfx) (d : BitVec 8)
  /-- BSREF (R180). Refills F and clears NEED in lanes that need it. -/
  | bsref (p : Option Pfx) (a : BitVec 8) (b : BitVec 8)
  /-- MOV (R165). Copies 32 bits. -/
  | mov (p : Option Pfx) (d : BitVec 8) (a : BitVec 8)
  /-- SEL (R165). Selects a or b per lane by a mask. -/
  | sel (p : Option Pfx) (d : BitVec 8) (a : BitVec 8) (b : BitVec 8)
  /-- MOVS (R165). Copies 64 bits. -/
  | movs (p : Option Pfx) (d : BitVec 8) (a : BitVec 8)
  /-- MOVV (R166). Reads or writes a register chosen by a per-lane index. -/
  | movv (p : Option Pfx) (d : BitVec 8) (a : BitVec 8) (b : BitVec 8)
  /-- MOVI_LO (R167). Writes imm16 into the low 16 bits. -/
  | moviLo (p : Option Pfx) (d : BitVec 8) (i : BitVec 16)
  /-- MOVI_HI (R167). Writes imm16 into bits 31:16. -/
  | moviHi (p : Option Pfx) (d : BitVec 8) (i : BitVec 16)
  /-- MOVI_SX (R167). Writes imm16 sign-extended. -/
  | moviSx (p : Option Pfx) (d : BitVec 8) (i : BitVec 16)
  /-- MOVI_BF (R167). Writes the FP32 value of a BF16 pattern. -/
  | moviBf (p : Option Pfx) (d : BitVec 8) (i : BitVec 16)
  /-- RALLOC_WAIT (R157). Requests n more register blocks and holds until granted. -/
  | rallocWait (p : Option Pfx) (d : BitVec 8) (n : BitVec 8)
  /-- RALLOC_TRY (R157). Takes n more blocks at once if possible, else writes 0. -/
  | rallocTry (p : Option Pfx) (d : BitVec 8) (n : BitVec 8)
  /-- RFREE (R157). Releases the top n register blocks. -/
  | rfree (p : Option Pfx) (d : BitVec 8) (n : BitVec 8)
  /-- RQUERY (R157). Writes the group's held count and pool status. -/
  | rquery (p : Option Pfx) (d : BitVec 8)
  /-- LD_B (R311). Global byte load, zero-extended. -/
  | ldB (p : Option Pfx) (d : BitVec 8) (a : BitVec 8) (b : BitVec 8)
  /-- LD_H (R311). Global halfword load, zero-extended. -/
  | ldH (p : Option Pfx) (d : BitVec 8) (a : BitVec 8) (b : BitVec 8)
  /-- LD_W (R311). Global word load. -/
  | ldW (p : Option Pfx) (d : BitVec 8) (a : BitVec 8) (b : BitVec 8)
  /-- LD_D (R311). Global 8-byte load. -/
  | ldD (p : Option Pfx) (d : BitVec 8) (a : BitVec 8) (b : BitVec 8)
  /-- LD_Q (R311). Global 16-byte load into a quad. -/
  | ldQ (p : Option Pfx) (d : BitVec 8) (a : BitVec 8) (b : BitVec 8)
  /-- LD_BS (R311). Global byte load, sign-extended. -/
  | ldBs (p : Option Pfx) (d : BitVec 8) (a : BitVec 8) (b : BitVec 8)
  /-- LD_HS (R311). Global halfword load, sign-extended. -/
  | ldHs (p : Option Pfx) (d : BitVec 8) (a : BitVec 8) (b : BitVec 8)
  /-- LDU (R314). One uniform load for the fragment into a scalar. -/
  | ldu (p : Option Pfx) (d : BitVec 8) (a : BitVec 8) (b : BitVec 8)
  /-- LDE (R315). Typed element load with its scale, rounded to FP32. -/
  | lde (p : Option Pfx) (d : BitVec 8) (a : BitVec 8)
  /-- PREF (R314). Prefetches lines into the L1 and the LLC. -/
  | pref (p : Option Pfx) (a : BitVec 8) (b : BitVec 8)
  /-- PREF_LLC (R314). Prefetches lines into the LLC alone. -/
  | prefLlc (p : Option Pfx) (a : BitVec 8) (b : BitVec 8)
  /-- LD_ACQ (R357). Load with acquire semantics at its address's scope. -/
  | ldAcq (p : Option Pfx) (d : BitVec 8) (a : BitVec 8) (b : BitVec 8)
  /-- LD_NT (R311). Load under the evict-first policy. -/
  | ldNt (p : Option Pfx) (d : BitVec 8) (a : BitVec 8) (b : BitVec 8)
  /-- ST_B (R312). Global byte store. -/
  | stB (p : Option Pfx) (d : BitVec 8) (a : BitVec 8) (b : BitVec 8)
  /-- ST_H (R312). Global halfword store. -/
  | stH (p : Option Pfx) (d : BitVec 8) (a : BitVec 8) (b : BitVec 8)
  /-- ST_W (R312). Global word store. -/
  | stW (p : Option Pfx) (d : BitVec 8) (a : BitVec 8) (b : BitVec 8)
  /-- ST_D (R312). Global 8-byte store. -/
  | stD (p : Option Pfx) (d : BitVec 8) (a : BitVec 8) (b : BitVec 8)
  /-- ST_Q (R312). Global 16-byte store. -/
  | stQ (p : Option Pfx) (d : BitVec 8) (a : BitVec 8) (b : BitVec 8)
  /-- STN (R313). Word store under a nibble mask, merged at the home slice. -/
  | stn (p : Option Pfx) (d : BitVec 8) (a : BitVec 8) (b : BitVec 8)
  /-- STE (R315). Typed element store rounded by its scale. -/
  | ste (p : Option Pfx) (d : BitVec 8) (a : BitVec 8)
  /-- ST_REL (R358). Store with release semantics at its address's scope. -/
  | stRel (p : Option Pfx) (d : BitVec 8) (a : BitVec 8) (b : BitVec 8)
  /-- ATOM_ADD (R318). Atomic add returning the old value. -/
  | atomAdd (p : Option Pfx) (d : BitVec 8) (a : BitVec 8) (b : BitVec 8)
  /-- ATOM_MIN (R318). Atomic minimum. -/
  | atomMin (p : Option Pfx) (d : BitVec 8) (a : BitVec 8) (b : BitVec 8)
  /-- ATOM_MAX (R318). Atomic maximum. -/
  | atomMax (p : Option Pfx) (d : BitVec 8) (a : BitVec 8) (b : BitVec 8)
  /-- ATOM_EXCH (R318). Atomic exchange. -/
  | atomExch (p : Option Pfx) (d : BitVec 8) (a : BitVec 8) (b : BitVec 8)
  /-- ATOM_AND (R318). Atomic AND. -/
  | atomAnd (p : Option Pfx) (d : BitVec 8) (a : BitVec 8) (b : BitVec 8)
  /-- ATOM_OR (R318). Atomic OR. -/
  | atomOr (p : Option Pfx) (d : BitVec 8) (a : BitVec 8) (b : BitVec 8)
  /-- ATOM_XOR (R318). Atomic XOR. -/
  | atomXor (p : Option Pfx) (d : BitVec 8) (a : BitVec 8) (b : BitVec 8)
  /-- ATOM_CAS (R318). Atomic compare-and-swap. -/
  | atomCas (p : Option Pfx) (d : BitVec 8) (a : BitVec 8) (b : BitVec 8)
  /-- ATOM_FADD (R318). Atomic FP32 add rounded RNE. -/
  | atomFadd (p : Option Pfx) (d : BitVec 8) (a : BitVec 8) (b : BitVec 8)
  /-- ATOM_FADD2 (R318). Atomic packed 16-bit add per half. -/
  | atomFadd2 (p : Option Pfx) (d : BitVec 8) (a : BitVec 8) (b : BitVec 8)
  /-- ATOM_FMIN (R318). Atomic FP32 minimum. -/
  | atomFmin (p : Option Pfx) (d : BitVec 8) (a : BitVec 8) (b : BitVec 8)
  /-- ATOM_FMAX (R318). Atomic FP32 maximum. -/
  | atomFmax (p : Option Pfx) (d : BitVec 8) (a : BitVec 8) (b : BitVec 8)
  /-- LDS_H (R203). Scratchpad halfword load. -/
  | ldsH (p : Option Pfx) (d : BitVec 8) (a : BitVec 8) (b : BitVec 8)
  /-- LDS_W (R203). Scratchpad word load. -/
  | ldsW (p : Option Pfx) (d : BitVec 8) (a : BitVec 8) (b : BitVec 8)
  /-- LDS_D (R203). Scratchpad 8-byte load. -/
  | ldsD (p : Option Pfx) (d : BitVec 8) (a : BitVec 8) (b : BitVec 8)
  /-- LDS_Q (R203). Scratchpad 16-byte load. -/
  | ldsQ (p : Option Pfx) (d : BitVec 8) (a : BitVec 8) (b : BitVec 8)
  /-- STS_H (R203). Scratchpad halfword store. -/
  | stsH (p : Option Pfx) (d : BitVec 8) (a : BitVec 8) (b : BitVec 8)
  /-- STS_W (R203). Scratchpad word store. -/
  | stsW (p : Option Pfx) (d : BitVec 8) (a : BitVec 8) (b : BitVec 8)
  /-- STS_D (R203). Scratchpad 8-byte store. -/
  | stsD (p : Option Pfx) (d : BitVec 8) (a : BitVec 8) (b : BitVec 8)
  /-- STS_Q (R203). Scratchpad 16-byte store. -/
  | stsQ (p : Option Pfx) (d : BitVec 8) (a : BitVec 8) (b : BitVec 8)
  /-- ATOMS_ADD (R205). Scratchpad atomic add. -/
  | atomsAdd (p : Option Pfx) (d : BitVec 8) (a : BitVec 8) (b : BitVec 8)
  /-- ATOMS_EXCH (R205). Scratchpad atomic exchange. -/
  | atomsExch (p : Option Pfx) (d : BitVec 8) (a : BitVec 8) (b : BitVec 8)
  /-- ATOMS_CAS (R205). Scratchpad atomic compare-and-swap. -/
  | atomsCas (p : Option Pfx) (d : BitVec 8) (a : BitVec 8) (b : BitVec 8)
  /-- ATOMS_FADD (R205). Scratchpad atomic floating add. -/
  | atomsFadd (p : Option Pfx) (d : BitVec 8) (a : BitVec 8) (b : BitVec 8)
  /-- SPMAP (R207). Makes n scratchpad pages resident at a named member. -/
  | spmap (p : Option Pfx) (d : BitVec 8) (a : BitVec 8) (h : BitVec 2) (n : BitVec 6)
  /-- SPUNMAP (R208). Discards n unpinned scratchpad pages to zero. -/
  | spunmap (p : Option Pfx) (d : BitVec 8) (a : BitVec 8) (n : BitVec 8)
  /-- SPQUERY (R210). Writes the state of the page holding an SVA. -/
  | spquery (p : Option Pfx) (d : BitVec 8) (a : BitVec 8)
  /-- SPPIN (R209). Makes n pages resident and increments their pin counts. -/
  | sppin (p : Option Pfx) (d : BitVec 8) (a : BitVec 8) (n : BitVec 6)
  /-- SPPIN_UN (R209). Decrements the pin counts of n pages. -/
  | sppinUn (p : Option Pfx) (d : BitVec 8) (a : BitVec 8) (n : BitVec 6)
  /-- MPOST (R240). Posts n task records from the team's ring for acceptance. -/
  | mpost (a : BitVec 8) (b : BitVec 8)
  /-- MCFG (R269). Sets or removes the team's task ring after pending work drains. -/
  | mcfg (a : BitVec 8) (b : BitVec 8)
  /-- MQUERY (R270). Writes a snapshot of a ring slot or of the team. -/
  | mquery (d : BitVec 8) (a : BitVec 8)
  /-- MCANCEL (R271). Cancels waiting, ready, parked and gathering nodes in a slot range. -/
  | mcancel (d : BitVec 8) (a : BitVec 8) (b : BitVec 8)
  /-- AZERO (R274). Writes +0 to a run of atiles. -/
  | azero (a : BitVec 8) (b : BitVec 8)
  /-- ARD (R275). Reads atile elements per lane. -/
  | ard (d : BitVec 8) (a : BitVec 8) (b : BitVec 8)
  /-- AWR (R276). Writes atile elements per lane. -/
  | awr (d : BitVec 8) (a : BitVec 8) (b : BitVec 8)
  /-- ASCALE (R277). Multiplies atile rows by FP32 scales. -/
  | ascale (d : BitVec 8) (a : BitVec 8) (b : BitVec 8)
  /-- ALOAD (R280). Loads rows of an atile from memory. -/
  | aload (d : BitVec 8) (a : BitVec 8) (b : BitVec 8)
  /-- ASTORE (R280). Stores rows of an atile to memory. -/
  | astore (d : BitVec 8) (a : BitVec 8) (b : BitVec 8)
  /-- AGIDX (R278). Writes entries of a team index buffer. -/
  | agidx (a : BitVec 8) (b : BitVec 8)
  /-- CPY (R223). Starts a one-row copy transfer. -/
  | cpy (d : BitVec 8) (a : BitVec 8) (b : BitVec 8)
  /-- CPY2 (R223). Starts a two-dimensional copy transfer. -/
  | cpy2 (d : BitVec 8) (a : BitVec 8) (b : BitVec 8)
  /-- CPYG (R223). Starts an indexed gather copy transfer. -/
  | cpyg (d : BitVec 8) (a : BitVec 8) (b : BitVec 8)
  /-- CPYX (R223). Starts a copy to or from the on-chip map window. -/
  | cpyx (d : BitVec 8) (a : BitVec 8) (b : BitVec 8)
  /-- BARA (R236). Arrives at the team barrier and writes its generation without holding. -/
  | bara (d : BitVec 8)
  /-- BARA_G (R236). Arrives at the gang barrier and writes its generation without holding. -/
  | baraG (d : BitVec 8)
  /-- BARW (R236). Holds until the team barrier passes a generation. -/
  | barw (a : BitVec 8)
  /-- BARW_G (R236). Holds until the gang barrier passes a generation. -/
  | barwG (a : BitVec 8)
  /-- KREAD (R218). Reads a counter and its flag. -/
  | kread (d : BitVec 8) (k : BitVec 4)
  /-- KREAD_CLR (R218). Reads a counter and its flag and clears the flag. -/
  | kreadClr (d : BitVec 8) (k : BitVec 4)
  /-- KADD (R218). Adds a signed amount to a counter. -/
  | kadd (k : BitVec 4) (i : BitVec 8)
  /-- KBIND (R218). Binds a counter for node targets and writes its handle. -/
  | kbind (d : BitVec 8) (k : BitVec 4)
  /-- KBIND_CLOSE (R218). Unbinds a counter once no accepted node targets it. -/
  | kbindClose (k : BitVec 4)
  /-- LAUNCH (R394). Submits a 256-byte launch record and writes its journal sequence. -/
  | launch (d : BitVec 8) (a : BitVec 8)
  /-- QPOST (R395). Copies a packet into a queue's next slot and publishes TAIL. -/
  | qpost (d : BitVec 8) (a : BitVec 8) (b : BitVec 8)
  /-- QSTAT (R396). Writes a snapshot of a queue's HEAD, TAIL and STATE. -/
  | qstat (d : BitVec 8) (a : BitVec 8)
  /-- TRAP (R420). Raises software trap class 26 + n. -/
  | trap (a : BitVec 8) (n : BitVec 8)
  /-- TRET_TO (R421). Ends trap mode, skipping the unit and continuing at a given header. -/
  | tretTo (a : BitVec 8)
  /-- RDTR (R422). Reads a group or gang trap register. -/
  | rdtr (d : BitVec 8) (s : BitVec 8)
  /-- RDSR (R163). Reads a special register. -/
  | rdsr (d : BitVec 8) (n : BitVec 8)
  /-- WRSR (R164). Writes a special register. -/
  | wrsr (a : BitVec 8) (n : BitVec 8)
  /-- BKPT (R465). Makes class 22 pending for the next safe point. -/
  | bkpt (c : BitVec 8)
  /-- TRACE (R465). Writes trace records carrying a register value. -/
  | trace (a : BitVec 8) (t : BitVec 8)
  /-- MARK (R465). Writes one trace record carrying a tag. -/
  | mark (t : BitVec 8)
  /-- TLBINV_PAGE (R334). Mode 0: removes a context's cached translations of one VA on every core. -/
  | tlbinvPage (a : BitVec 8) (b : BitVec 8)
  /-- LPINV_PAGE (R335). Mode 0 invalidation of one VA on the cores of the issuing gang. -/
  | lpinvPage (a : BitVec 8) (b : BitVec 8)
  /-- ITSET (R337). Rewrites an indirection entry after draining accesses to the old place. -/
  | itset (a : BitVec 8) (b : BitVec 8)
  /-- REGEN (R338). Registers or clears a frame's regeneration entry. -/
  | regen (a : BitVec 8) (b : BitVec 8)
  /-- ERRD (R437). Reads one 64-bit word of an error record bank. -/
  | errd (a : BitVec 8) (b : BitVec 8)
  /-- ERRCLR (R437). Clears a bank when its bits 63:0 still equal the expected value. -/
  | errclr (a : BitVec 8) (b : BitVec 8)
  /-- PSET_REQ (R449). Sets the packet-source step request and holds until the step in force settles. -/
  | psetReq (a : BitVec 8) (b : BitVec 8)
  /-- CKGO (R455). Runs a checkpoint from a body in memory and writes a result code. -/
  | ckgo (a : BitVec 8) (b : BitVec 8)
  /-- CTXSAVE (R424). Saves a gang into a free slot and leaves it unplaced. -/
  | ctxsave (a : BitVec 8) (b : BitVec 8)
  /-- CTXLOAD (R428). Restores a saved gang from a slot onto a named or chosen unit. -/
  | ctxload (a : BitVec 8) (b : BitVec 8)
  /-- SPMIG_CLEAN (R200). Writes back every dirty frame of a gang, keeping pages resident. -/
  | spmigClean (a : BitVec 8) (b : BitVec 8)
  /-- QCTL_CREATE (R398). Creates a queue from a QCFG image. -/
  | qctlCreate (a : BitVec 8) (b : BitVec 8)
  /-- UNFREEZE (R405). Releases a frozen queue, context, host function, engine or peer port. -/
  | unfreeze (a : BitVec 8)
  /-- HSTAKE (R429). Starts hot-spare takeover of a logical core. -/
  | hstake (a : BitVec 8) (b : BitVec 8)
  /-- RBLD_CHANNEL (R298). Declares a channel dead and queues its rebuild. -/
  | rbldChannel (a : BitVec 8) (b : BitVec 8)
  /-- SCRUB_PERIOD (R303). Sets the patrol scrub PERIOD. -/
  | scrubPeriod (a : BitVec 8) (b : BitVec 8)
  /-- WPSET (R460). Sets or clears a core or CX data watchpoint from a descriptor. -/
  | wpset (a : BitVec 8) (b : BitVec 8)
  /-- BKSET (R460). Sets or clears a code breakpoint comparator. -/
  | bkset (a : BitVec 8) (b : BitVec 8)
  /-- NOP (R67). No effect. -/
  | nop
  /-- YIELD (R69). Resets the fragment's age and holds it for 16 clocks unless no other fragment is ready. -/
  | yield
  /-- RET (R76). Each thread pops its return stack and continues at the popped address. -/
  | ret
  /-- EXIT (R78). Ends every thread of the fragment. -/
  | exit
  /-- BAR (R236). Arrives at the team barrier and holds until it completes. -/
  | bar
  /-- BAR_G (R236). Arrives at the gang barrier and holds until it completes. -/
  | barG
  /-- SEAL (R231). Moves the thread's open batch into its sealed set. -/
  | seal
  /-- FENCE_PEER (R360). Holds until earlier ordinary and peer-scope accesses are performed. -/
  | fencePeer
  /-- FENCE_HOST (R360). Holds until earlier ordinary and host-scope accesses are performed. -/
  | fenceHost
  /-- FENCE_ASYNC_REL (R361). Holds until the thread's batches have completed and reached their global places. -/
  | fenceAsyncRel
  /-- FENCE_ASYNC_ACQ (R361). Anchors the thread's later engine reads after its earlier accesses. -/
  | fenceAsyncAcq
  /-- FENCE_ASYNC (R361). Performs the release part and then the acquire part of FENCE.async. -/
  | fenceAsync
  /-- FENCE_IO (R362). Holds until all earlier accesses and transfers are done, ordering later posts, interrupts and trace. -/
  | fenceIo
  /-- TRET (R421). Ends trap mode and resumes at the trapped word or header. -/
  | tret
  /-- TRET_SKIP (R421). Ends trap mode, completing the trapped unit with no effect. -/
  | tretSkip
  /-- TRET_ERES (R421). Ends trap mode and resumes the halted transfer or parked node. -/
  | tretEres
  /-- TRET_EABN (R421). Ends trap mode and abandons the halted transfer or parked node. -/
  | tretEabn
  /-- TLBINV_CONTEXT (R334). Mode 1: removes every cached translation of a context on every core. -/
  | tlbinvContext
  /-- TLBINV_PARTITION (R334). Mode 2: removes every cached translation of the issuer's partition on every core. -/
  | tlbinvPartition
  /-- LPINV_CONTEXT (R335). Mode 1 invalidation of a context on the cores of the issuing gang. -/
  | lpinvContext
  /-- LPINV_PARTITION (R335). Mode 2 invalidation of the partition on the cores of the issuing gang. -/
  | lpinvPartition
  /-- PSET (R449). With REQ = 0 reads PWRSTAT without requesting a step. -/
  | pset
  /-- CTXSAVE_REPLACE (R424). Saves a gang and places it again on its die. -/
  | ctxsaveReplace
  /-- SPMIG_EVICT (R200). Cleans a gang's frames and releases every unpinned one. -/
  | spmigEvict
  /-- QCTL_DESTROY (R398). Destroys a queue. -/
  | qctlDestroy
  /-- QCTL_DESTROY_KILL (R398). Destroys a queue and kills its unfinished launches. -/
  | qctlDestroyKill
  /-- RBLD_STACK (R298). Declares all 32 channels of a stack dead. -/
  | rbldStack
  /-- RBLD_RATE (R298). Sets the rebuild RATE. -/
  | rbldRate
  /-- RBLD_PAUSE (R298). Pauses the rebuild engine. -/
  | rbldPause
  /-- RBLD_RESUME (R298). Resumes the rebuild engine. -/
  | rbldResume
  /-- SCRUB_FRAME (R303). Scrubs the 64 KiB DPA frame holding an address. -/
  | scrubFrame
  /-- SCRUB_RETIRE (R303). Retires the row holding a tier H MA line. -/
  | scrubRetire
  /-- SCRUB_THRESH (R303). Sets the row-retirement THRESH. -/
  | scrubThresh
  /-- TRCFG_START (R466). Starts tracing into a ring. -/
  | trcfgStart
  /-- TRCFG_BINS (R466). Loads the lane-cycle bin table. -/
  | trcfgBins
  /-- TRCFG_CLEAR (R466). Clears the partition's lane-cycle counters. -/
  | trcfgClear
  /-- TRCFG_STOP (R466). Stops tracing. -/
  | trcfgStop
  /-- CAPCTL_OFF (R469). Turns capture and replay off for the context. -/
  | capctlOff
  /-- CAPCTL_CAPTURE (R469). Sets the capture area and captures external inputs of CAPTURE launches. -/
  | capctlCapture
  /-- CAPCTL_REPLAY (R470). Replays CAPTURE launches from their captured logs. -/
  | capctlReplay
  /-- COLD_RESET (R285). Cold reset restarts the package: boot firmware verifies its image, lays out the interleave table and writes indirection entries 0 to 12,582,911 one to one into partition 0. -/
  | coldReset
  /-- POWER_STEP_PINS (R16). A rising STROBE edge samples STEP[3:0] as the pin source's power-step request. -/
  | powerStepPins
  /-- POWER_FAIL (R450). A falling edge on PWRFAIL stops issue, fetch and engine work, writes back row buffers and writes the signed drain image to the drain area that does not hold the newer valid image. -/
  | powerFail
  /-- POWER_STEP_SETTLE (R444). The Foehn governor moves the step in force to the highest of the pin, packet and port requests within 1 ms, applying the throttle effects in table order. -/
  | powerStepSettle
  /-- TELEMETRY_PERIOD_END (R295). At the end of each 1 ms telemetry period PWRSTAT and ETSTAT CORR are refreshed and per-period counts restart. -/
  | telemetryPeriodEnd
  /-- HOT_PAGE_MOVE (R308). The tracker copies a frame to its new place, repeats passes for lines written meanwhile, then holds accesses briefly and rewrites FRAME and TIER. -/
  | hotPageMove
  /-- CHANNEL_DEAD (R295). A channel that fails PHY training or exceeds 64 inner-check failures in a telemetry period is declared dead and its positions read ST = 1. -/
  | channelDead
  /-- REBUILD_FRAME (R296). The rebuild engine rebuilds the dead position of one MA frame into a chosen spare region line by line and repoints the interleave entry atomically. -/
  | rebuildFrame
  /-- LINE_WRITEBACK (R294). A home slice writes back a dirty line by the delta or full method, whichever moves fewer symbols. -/
  | lineWriteback
  /-- PATROL_SCRUB_LINE (R301). The patrol scrubber reads a line, writes back a correctable one under the slice lock and poisons an uncorrectable one. -/
  | patrolScrubLine
  /-- ROW_RETIRE (R302). A row whose corrected-error count reaches THRESH in 24 h, or fails three times in a pass, is repaired by soft PPR or moved to spare regions. -/
  | rowRetire
  /-- REFRESH (R300). The controller refreshes rows as JESD270 requires. -/
  | refresh
  /-- TARGETED_REFRESH (R300). A row reaching 8,192 activations in a refresh window has its two neighbouring rows on each side refreshed before its next activation. -/
  | targetedRefresh
  /-- PHY_RECALIBRATION (R300). Every 32 ms a channel's PHY is recalibrated, pausing the channel for at most 2 µs. -/
  | phyRecalibration
  /-- HOST_LINK_REQUEST_FAIL (R287). A host-link request for a tier X line ending in Unsupported Request, Completer Abort or completion timeout poisons every sector of the line. -/
  | hostLinkRequestFail
  /-- LEVANT_SWEEP (R368). Every 64 clocks each writer sends a sweep carrying its latest write number on every link. -/
  | levantSweep
  /-- LEVANT_SWEEP_ARRIVAL (R368). An arriving sweep sets CT[w], raises seen[w] and may release held read requests. -/
  | levantSweepArrival
  /-- LEVANT_WRITE_ARRIVAL (R368). An arriving write packet is applied and sets CT[w] to its number. -/
  | levantWriteArrival
  /-- LEVANT_READ_REQUEST (R370). An arriving read is served when its seen vector is met by CT, else held in the early-packet buffer. -/
  | levantReadRequest
  /-- LEVANT_RESPONSE (R369). A data response raises the receiving die's seen vector to the stamp it carries. -/
  | levantResponse
  /-- DIE_REMOVAL (R371). A compute die is removed: its CT and seen entries freeze, a drain sweep discards its undelivered writes, the entry is treated as infinitely advanced and its gangs are re-dispatched. -/
  | dieRemoval
  /-- LEVANT_RESYNC (R372). A fabric fault stops all writers, advances EPOCH, clears CT and seen, and resends undelivered packets exactly once under the new epoch. -/
  | levantResync
  /-- ETESIAN_READ (R375). An inbound read flit is checked against PEERCFG[SRC] and served as an IO-writer access, or nacked and the port frozen. -/
  | etesianRead
  /-- ETESIAN_WRITE (R375). An inbound write flit is checked against PEERCFG[SRC] and performed, or nacked and the port frozen. -/
  | etesianWrite
  /-- ETESIAN_ATOMIC (R376). An inbound atomic flit is checked and performed at the home slice with the operation and type of its AOP byte. -/
  | etesianAtomic
  /-- ETESIAN_READ_DATA (R374). A read-data reply completes the scoped load that it answers, consuming poison when STATUS is 2. -/
  | etesianReadData
  /-- ETESIAN_COMPLETION (R374). A completion reply tells the sender that its write or atomic has been performed at the peer. -/
  | etesianCompletion
  /-- ETESIAN_NACK (R375). A nack completes the request as a translation trap with cause 11 at the issuing word. -/
  | etesianNack
  /-- WAVELENGTH_OUT_OF_SERVICE (R378). A wavelength with eight uncorrectable replays, lost light or a Foehn sleep is taken out of service after its outstanding replies return. -/
  | wavelengthOutOfService
  /-- PEER_REPLY_TIMEOUT (R378). A request with no reply after PTMO is treated as poison for loads and atomics or as lost for stores, and the peer is marked LOST. -/
  | peerReplyTimeout
  /-- FIBRE_RETRAIN (R377). A fibre retrains, taking on the compatibility mode that its ETSTAT MODE field sets. -/
  | fibreRetrain
  /-- DOORBELL (R381). A write to DBELL sets the queue's TAIL, freezing the queue on overrun. -/
  | doorbell
  /-- QCFG_CREATE (R380). CMD 1 on an off queue with a valid context and aligned RBASE sets HEAD = TAIL = 0 and STATE 1. -/
  | qcfgCreate
  /-- QCFG_DESTROY (R399). CMD 2 stops fetching at a packet boundary and returns the queue to STATE 0 when its started packets complete. -/
  | qcfgDestroy
  /-- QCFG_DESTROY_KILL (R399). CMD 3 destroys the queue and kills every gang of its unfinished launches. -/
  | qcfgDestroyKill
  /-- PACKET_FETCH (R379). The packet processor fetches the slot at HEAD, journals it and advances HEAD. -/
  | packetFetch
  /-- LAUNCH_PACKET (R384). A started launch packet submits its launch record for admission. -/
  | launchPacket
  /-- COPY_PACKET (R383). A started copy packet runs one transfer on a copy engine of the partition. -/
  | copyPacket
  /-- DEPENDENCY_WAIT_GE (R383). A dependency packet with OP 0 waits until ADDR holds at least VALUE. -/
  | dependencyWaitGe
  /-- DEPENDENCY_WAIT_EQ (R383). A dependency packet with OP 1 waits until ADDR equals VALUE. -/
  | dependencyWaitEq
  /-- DEPENDENCY_ATOMIC_ADD (R383). A dependency packet with OP 2 atomically adds VALUE to ADDR. -/
  | dependencyAtomicAdd
  /-- DEPENDENCY_STORE (R383). A dependency packet with OP 3 stores VALUE to ADDR. -/
  | dependencyStore
  /-- DEPENDENCY_WAIT_MET (R383). A load of ADDR returns a satisfying value and the waiting dependency packet completes. -/
  | dependencyWaitMet
  /-- POWER_STEP_PACKET (R444). A power-step packet sets the packet-source request and completes when the step in force equals the highest request held. -/
  | powerStepPacket
  /-- CHECKPOINT_PACKET (R453). A checkpoint packet invalidates its slot's manifest, copies the listed regions into the shard and writes the signed manifest. -/
  | checkpointPacket
  /-- MARKER_PACKET (R383). A marker packet completes at once. -/
  | markerPacket
  /-- CHECKPOINT_COMPLETE (R453). A checkpoint ends when every shard and manifest write has been performed, or ends in error leaving its slot invalid. -/
  | checkpointComplete
  /-- PACKET_COMPLETE (R383). At completion the journal status is written, the sequence stored to DONE and the completion MSI-X message sent when INTR = 1. -/
  | packetComplete
  /-- ADMISSION_ROUND (R387). Each admission round admits launches by PRIO, then queue number and WEIGHT, and splits them into per-die sub-grids. -/
  | admissionRound
  /-- DIE_PLACEMENT (R388). A die's placer tries to place the lowest unplaced gang of the highest-priority admitted launch. -/
  | diePlacement
  /-- GANG_BLOCKING (R388). A gang that has waited 1 ms becomes blocking, so no gang of equal or lower PRIO is placed on its die. -/
  | gangBlocking
  /-- GROUP_RETIRE (R78). A group whose threads have exited, counters read 0 and asynchronous work completed retires and releases its resources. -/
  | groupRetire
  /-- LAUNCH_COMPLETE (R392). A launch completes when every gang has retired or been killed and its engine writes have reached their global places. -/
  | launchComplete
  /-- REGEN_TIMEOUT (R340). A regeneration service not complete within 100 ms fails the frame, freezing held and later accesses at the context rung. -/
  | regenTimeout
  /-- CLAUSE_HEADER (R20). A fragment decodes a clause header, checks it, takes a pending stop at a safe point and evaluates WAIT. -/
  | clauseHeader
  /-- URGENT_RECOMPUTE (R60). Every 256 clocks, and at each barrier generation, the predictor marks the team's urgent group. -/
  | urgentRecompute
  /-- SPIN_LOWER_EXPIRE (R61). A fragment spin-lowered for 4,096 clocks returns to normal and detection restarts. -/
  | spinLowerExpire
  /-- SLEEP_EXPIRE (R69). A SLEEP n hold ends after 64 × n to 64 × n + 64 clocks. -/
  | sleepExpire
  /-- YIELD_EXPIRE (R69). A YIELD hold ends after 16 clocks. -/
  | yieldExpire
  /-- RENDEZVOUS_BUDGET_EXPIRE (R65). After 1,048,576 clocks without progress by awaited members, the rendezvous trap is raised for every waiting fragment. -/
  | rendezvousBudgetExpire
  /-- RALLOC_GRANT (R158). The oldest queued RALLOC.wait is granted and zeroed blocks are added once enough granules are free. -/
  | rallocGrant
  /-- ALLOCATION_DEADLOCK (R159). After 16,384 clocks with every group of a gang waiting ungranted in RALLOC.wait, the allocation-deadlock trap is raised at the gang rung. -/
  | allocationDeadlock
  /-- COUNTED_LOAD_COMPLETE (R25). A counted load or atomic writes its destination registers in every active lane and its SETA counter is decremented. -/
  | countedLoadComplete
  /-- STORE_PERFORMED (R347). A counted store is performed for every active lane and its SETB counter is decremented. -/
  | storePerformed
  /-- SP_FILL_DONE (R186). A scratchpad page becomes resident, pending forwarding entries are applied and faulted instructions resume. -/
  | spFillDone
  /-- SP_WRITEBACK_DONE (R191). A dirty victim page's write-back is performed and its frame may be reused. -/
  | spWritebackDone
  /-- SCRATCHPAD_EXHAUSTION (R192). An access held 16,384 clocks for a frame raises the scratchpad-exhaustion trap at the gang rung. -/
  | scratchpadExhaustion
  /-- COPY_TRANSFER_START (R225). A free copy engine takes the next waiting transfer in round-robin order and moves its units. -/
  | copyTransferStart
  /-- COPY_TRANSFER_COMPLETE (R224). A transfer completes when every unit is read and written, decrementing its counter and setting the flag on error. -/
  | copyTransferComplete
  /-- ENGINE_WRITE_GLOBAL_PLACE (R350). An engine write unit reaches its global place in the access order. -/
  | engineWriteGlobalPlace
  /-- WALKER_ACCEPT (R241). The walker reads and accepts the next posted task record, incrementing its target counter and placing it waiting or ready. -/
  | walkerAccept
  /-- WALKER_ISSUE_NODE (R242). The walker issues a ready node to a free engine of its kind, a compute node starting its gather. -/
  | walkerIssueNode
  /-- NODE_COMMIT (R257). A compute node whose operands are latched takes the claims on its destination atiles and begins accumulating. -/
  | nodeCommit
  /-- NODE_COMPLETE (R242). A node completes: its writes are performed, successors released, target counter decremented and slot emptied. -/
  | nodeComplete
  /-- TILE_TRANSFER_COMPLETE (R280). An ALOAD or ASTORE completes when every unit is moved, releasing its claim and decrementing SETB. -/
  | tileTransferComplete
  /-- HOLD_TIMEOUT (R415). A fragment held 100 µs without change in what its hold tests raises class 24 at the holding word. -/
  | holdTimeout
  /-- SERVICE_TIMEOUT (R414). A rung whose service time runs out raises class 25 at the next rung. -/
  | serviceTimeout
  /-- HOT_SPARE_TAKEOVER (R429). The gangs on a failing core are stopped, its state copied to the die's spare through the on-chip map, and the spare takes its number. -/
  | hotSpareTakeover
  /-- TAKEOVER_STOP_TIMEOUT (R429). A gang not stopped within 1 ms during takeover is killed and relaunched if it may be. -/
  | takeoverStopTimeout
  /-- CTXSAVE_STOP_TIMEOUT (R424). A save whose groups have not all stopped within 1 ms resumes them and returns code 2. -/
  | ctxsaveStopTimeout
  /-- CLONE_REPLAY (R440). A replayed clone runs from the queue within 256 clocks and is compared with the original before its results are released. -/
  | cloneReplay
  /-- WATCH_IMPRECISE_REPORT (R463). A CX comparator match on an engine or inbound write is reported within the 1,024-clock skid. -/
  | watchImpreciseReport
  /-- TRACE_RECORD_WRITE (R467). A trace record is written to the ring within 4,096 clocks of its event, or dropped and counted when 64 are unwritten. -/
  | traceRecordWrite
  /-- TRACE_SAMPLE (R467). Every SAMPLE clocks each core records the position of the fragment that issued last in its lowest quarter. -/
  | traceSample
  /-- ATTESTATION_REPORT_READY (R458). Within 10 ms of a nonce the signed attestation report appears in its window. -/
  | attestationReportReady
  /-- DIESTAT_PARTLO (R13). A write of PARTLO moves half 0 of a die to another partition, or is discarded and sets REJ. -/
  | diestatPartlo
  /-- DIESTAT_PARTHI (R13). A write of PARTHI moves half 1 of a die to another partition, or is discarded and sets REJ. -/
  | diestatParthi
  /-- FRZCMD (R405). A host write to FRZCMD releases the named frozen agent as UNFREEZE does. -/
  | frzcmd
  /-- CTXCMD_KILL_ALL (R412). CMD 1 kills every gang of the context. -/
  | ctxcmdKillAll
  /-- CTXCMD_KILL_HELD (R412). CMD 2 kills the gang held at the context rung. -/
  | ctxcmdKillHeld
  /-- CTXCMD_RELEASE (R412). CMD 3 releases the held gang as UNFREEZE does. -/
  | ctxcmdRelease
  /-- GSAVE (R423). A host write to GSAVE with S[b] = 0 saves the named gang and leaves it unplaced. -/
  | gsave
  /-- GSAVE_REPLACE (R423). A host write to GSAVE with S[b] = 1 saves the named gang and places it again on its die. -/
  | gsaveReplace
  /-- GLOAD (R423). A host write to GLOAD restores a saved gang from its slot as CTXLOAD does. -/
  | gload
  /-- ERRCLRH (R437). A host write to ERRCLRH clears the named bank when its bits 63:0 still equal the expected value. -/
  | errclrh
  /-- ATTNONCE (R458). A write of a 32-byte nonce to ATTNONCE starts, or restarts, the signed attestation report. -/
  | attnonce
  /-- DBGCTL_RESUME_DISCARD (R464). CMD 1 resumes the halted gang and discards the trap. -/
  | dbgctlResumeDiscard
  /-- DBGCTL_RESUME_DELIVER (R464). CMD 2 resumes the halted gang and delivers the trap at the group rung. -/
  | dbgctlResumeDeliver
  /-- CONTROL_REGISTER_WRITE (R403). A write to a control-space register without behaviour of its own sets its RW fields, clears W1C bits, or ends in Unsupported Request for a function outside its set. -/
  | controlRegisterWrite
  /-- SMBUS_ARP_ASSIGN (R448). The SMBus Address Resolution Protocol assigns the management port a new address. -/
  | smbusArpAssign
  /-- SET_ENDPOINT_ID (R448). The bus owner's Set Endpoint ID gives the management port its endpoint ID. -/
  | setEndpointId
  /-- GET_ENDPOINT_ID (R448). Get Endpoint ID returns the port's endpoint ID. -/
  | getEndpointId
  /-- GET_MCTP_VERSION_SUPPORT (R448). Get MCTP Version Support returns the supported MCTP versions. -/
  | getMctpVersionSupport
  /-- GET_MESSAGE_TYPE_SUPPORT (R448). Get Message Type Support reports types 0x00 and 0x7F. -/
  | getMessageTypeSupport
  /-- GET_VENDOR_DEFINED_MESSAGE_SUPPORT (R448). Get Vendor Defined Message Support returns the IANA vendor-ID set with command-set version 1. -/
  | getVendorDefinedMessageSupport
  /-- READ_POWER_STATUS (R448). Vendor command 0x01 returns PWRSTAT. -/
  | readPowerStatus
  /-- SET_PORT_STEP_REQUEST (R448). Vendor command 0x02 sets PORTREQ and returns PWRSTAT. -/
  | setPortStepRequest
  /-- READ_ERROR_BANK (R448). Vendor command 0x03 returns one 64-bit word of an error record bank. -/
  | readErrorBank
  /-- START_ATTESTATION_REPORT (R448). Vendor command 0x04 starts an attestation report with the given nonce. -/
  | startAttestationReport
  /-- READ_ATTESTATION_REPORT (R448). Vendor command 0x05 returns up to 48 bytes of the attestation report. -/
  | readAttestationReport
  /-- READ_IDENTITY_WINDOW (R448). Vendor command 0x06 returns up to 48 bytes of the public key and certificate window. -/
  | readIdentityWindow
  /-- ILLEGAL_ENCODING (R35). A word whose encoding no instruction assigns (an illegal cell, an unassigned major 0x37–0x3C, or an unassigned system sub-op) raises the illegal-instruction trap when it comes to issue. -/
  | illegalEncoding
  /-- HOST_LINK_COMPLETION (R352). A PCI Express completion received on the host link performs a host-scope load or atomic and fills a tier X line. -/
  | hostLinkCompletion
  /-- INBOUND_HOST_WRITE (R462). A host write arriving through the IO ingress is performed at the home slice and is matched by CX comparators with the host KIND. -/
  | inboundHostWrite
  /-- LOSS_OF_CX (R371). Loss of the cache die or of the IO ingress is taken at the device rung, which leads to a warm reset. -/
  | lossOfCx
  /-- FUNCTION_RESET (R492). A reset of a host function clears that function's latches for the wide control-space registers. -/
  | functionReset
  /-- MSIX_ENTRY_UNMASK (R403). Unmasking an MSI-X entry sends the message that the masked entry held pending. -/
  | msixEntryUnmask
deriving DecidableEq, Repr

end Sys2Proof
end

