-- ==== Sys2Proof/Machine/Encoding.lean ====
section
/-!
DEFINITION. What a unit of the code must satisfy before it may run, read from its words alone: the class of each major
opcode (R21, R34), the field checks of R30 and of each instruction's own rule with their cause codes (R491), and the
prefix fields that each base accepts (R32, R114).
-/
namespace Sys2Proof

/-- Bits `lo + n - 1 : lo` of a value, as an unsigned integer (R3). -/
def bits (x lo n : Nat) : Nat := x / 2 ^ lo % 2 ^ n

/-- Bit `i` of a value (R3). -/
def bit (x i : Nat) : Bool := x / 2 ^ i % 2 == 1

/-- The value that `n` low bits stand for in two's complement (R3, R116). -/
def signed (n x : Nat) : Int :=
  let y := x % 2 ^ n
  if 2 * y < 2 ^ n then (y : Int) else (y : Int) - 2 ^ n

/-- y mod 2^n of an exact integer (R116, Wrap). -/
def wrap (n : Nat) (y : Int) : Nat := (y % (2 ^ n : Int)).toNat

/-! ### Words of a clause -/

/-- The major opcode of a word (R29). -/
def majorOf (w : Word) : Nat := bits w.toNat 26 6

def fnOf (w : Word) : Nat := bits w.toNat 24 2

/-- A prefix word, op 0x3E (R32). -/
def isPfxWord (w : Word) : Bool := majorOf w == 0x3E

/-- A literal-major word, op 0x3F (R33). -/
def isLiteralWord (w : Word) : Bool := majorOf w == 0x3F

/-- A control word: any word of majors 0x01, 0x02 and 0x03, EXIT, and BRL (R21). -/
def isControlWord (w : Word) : Bool :=
  let op := majorOf w
  op == 1 || op == 2 || op == 3 || (op == 4 && fnOf w == 0) || (op == 0x3F && fnOf w == 3)

/-- The class that a word other than a prefix or a literal must find in its header: none for a word that may stand in a
clause of any class (R21, R34). -/
def classOfWord (w : Word) : Option Nat :=
  let op := majorOf w
  if isControlWord w then none
  else if op == 0 then (if fnOf w == 0 then none else some 4)
  else if op ≤ 0x1F then some 0
  else if op ≤ 0x27 then some 1
  else if op ≤ 0x2B then some 2
  else if op ≤ 0x2F then some 3
  else if op == 0x3F then some 0
  else if op ≤ 0x36 || op == 0x3D then some 4
  else none

/-! ### The header (R19) -/

def hdrSig (h : Word) : Nat := bits h.toNat 0 3
def hdrYield (h : Word) : Bool := bit h.toNat 3
def hdrStop (h : Word) : Bool := bit h.toNat 4
def hdrSetB (h : Word) : Nat := bits h.toNat 5 4
def hdrSetA (h : Word) : Nat := bits h.toNat 9 4
def hdrWait (h : Word) : Nat := bits h.toNat 13 12
def hdrClass (h : Word) : Nat := bits h.toNat 25 3
def hdrCount (h : Word) : Nat := bits h.toNat 28 4

/-- The check that a header meets when it is decoded (R20). -/
def hdrOk (h : Word) : Bool :=
  hdrSig h == 5 && hdrClass h ≤ 4 && hdrCount h != 0 &&
  !(12 ≤ hdrSetA h && hdrSetA h ≤ 14) && !(12 ≤ hdrSetB h && hdrSetB h ≤ 14)

/-- The check that a branch makes of its target's word (R24). -/
def targetWordOk (h : Word) : Bool := hdrSig h == 5 && hdrClass h ≤ 4 && hdrCount h != 0

/-! ### Cause codes (R491) -/

/-- N + 65,536 × P: the rule that names the failing condition and its place in the rule's list. -/
def causeCode (rule place : Nat) : Nat := rule + 65536 * place

def scalarOp (x : Opnd) : Bool := 192 ≤ x.toNat

/-- Fields that must name scalars, under the rule and place given. -/
def needScalars (rule place : Nat) (xs : List Opnd) : Option Nat :=
  if xs.all scalarOp then none else some (causeCode rule place)

/-- A mask field above 7 (R30). -/
def maskFields (xs : List Byte) : Option Nat :=
  if xs.all (fun x => x.toNat ≤ 7) then none else some 30

/-- A counter field above 11 (R30). -/
def counterField (k : Nat) : Option Nat := if k ≤ 11 then none else some 30

def firstFault (xs : List (Option Nat)) : Option Nat := xs.findSome? id

/-- The cause code that names the place only when the condition fails. -/
def need (ok : Bool) (cause : Nat) : Option Nat := if ok then none else some cause

/-- Bit 0 of aux, with the value that applies when no prefix is present (R32). -/
def auxBit (p : Option Pfx) (i : Nat) : Bool := bit ((p.map (·.aux.toNat)).getD 0) i

/-- The field checks of one word that raise illegal-instruction (R30 and each instruction's own rule), with the cause
code of the first that fails. -/
def wordFault : Instr → Option Nat
  | .waitlt d n => firstFault [counterField d.toNat, need (n != 0) (causeCode 66 0)]
  | .brSz .. => none
  | .brxTable _ b => needScalars 75 0 [b]
  | .callxTable _ b => needScalars 75 0 [b]
  | .join a => maskFields [a]
  | .rdv _ d a => maskFields [d, a]
  | .voteBallot _ _ a b | .voteAny _ _ a b | .voteAll _ _ a b | .voteUni _ _ a b => maskFields [a, b]
  | .icmpI32 _ c _ _ _ | .icmpN32 _ c _ _ _ => need (c.toNat ≤ 5) (causeCode 126 2)
  | .icmpI64 _ c _ _ _ | .icmpN64 _ c _ _ _ => need (c.toNat ≤ 5) (causeCode 126 2)
  | .fcmp _ c _ _ _ => need (c.toNat ≤ 7) (causeCode 134 0)
  | .rallocWait _ d n | .rallocTry _ d n =>
      firstFault [need (scalarOp d) (causeCode 156 1), need (n != 0) (causeCode 156 3), need (n.toNat ≤ 24) (causeCode 156 4)]
  | .rfree _ d n =>
      firstFault [need (scalarOp d) (causeCode 156 1), need (n != 0) (causeCode 156 3), need (n.toNat ≤ 23) (causeCode 156 4)]
  | .rquery _ d => need (scalarOp d) (causeCode 156 1)
  | .mlop _ _ _ a b => maskFields [a, b]
  | .mpop _ _ a | .mpopBelow _ _ a | .mfirst _ _ a | .mfirstLast _ _ a => maskFields [a]
  | .mpopBits _ d a => firstFault [maskFields [a], need (scalarOp d) (causeCode 169 0)]
  | .mset _ _ a => need (scalarOp a) (causeCode 170 0)
  | .xbcast _ _ _ b => need (b.toNat < 64) (causeCode 171 0)
  | .xred _ _ _ o | .xscan _ _ _ o | .xscanExcl _ _ _ o => need (o.toNat ≤ 10) (causeCode 175 0)
  | .xminloc _ _ _ t | .xmaxloc _ _ _ t => need (t.toNat ≤ 2) (causeCode 176 0)
  | .bsr _ _ a _ => need (!scalarOp a) (causeCode 178 0)
  | .bsref _ a _ => need (!scalarOp a) (causeCode 178 0)
  | .bspos p d => need (!auxBit p 0 || d.toNat ≤ 7) 30
  | .movv p d a _ => need (if auxBit p 0 then !scalarOp d else !scalarOp a) (causeCode 166 0)
  | .qnt p _ _ _ => need (!auxBit p 4) 30
  | .ldu _ d a _ => need (scalarOp d && scalarOp a) (causeCode 310 1)
  | .spmap _ d a _ _ => needScalars 206 1 [d, a]
  | .spunmap _ d a _ => needScalars 206 1 [d, a]
  | .sppin _ d a _ | .sppinUn _ d a _ => needScalars 206 1 [d, a]
  | .mpost a b => needScalars 240 0 [a, b]
  | .mcfg a b => needScalars 268 0 [a, b]
  | .mquery _ a => needScalars 268 0 [a]
  | .mcancel d a b => needScalars 268 0 [d, a, b]
  | .azero a b => needScalars 273 0 [a, b]
  | .ard _ a _ => needScalars 273 0 [a]
  | .awr d _ _ => needScalars 273 0 [d]
  | .ascale d _ _ => needScalars 273 0 [d]
  | .aload d a b => needScalars 273 0 [d, a, b]
  | .astore d a b => needScalars 273 0 [d, a, b]
  | .agidx a _ => needScalars 273 0 [a]
  | .kread _ k | .kreadClr _ k => counterField k.toNat
  | .kadd k _ => counterField k.toNat
  | .kbind d k => firstFault [counterField k.toNat, need (scalarOp d) (causeCode 218 0)]
  | .kbindClose k => counterField k.toNat
  | .launch d a => needScalars 393 0 [d, a]
  | .qpost d a b => needScalars 393 0 [d, a, b]
  | .qstat d a => needScalars 393 0 [d, a]
  | .trap _ n => need (n.toNat ≤ 5) (causeCode 419 0)
  | .tretTo a => need (scalarOp a) (causeCode 419 0)
  | .rdtr _ s => need (s.toNat ≤ 15) (causeCode 419 0)
  | .rdsr _ n => need (n.toNat ≤ 0x0D) (causeCode 163 1)
  | .wrsr _ n => firstFault [need (n.toNat ≤ 0x0D) (causeCode 163 1), need (0x0B ≤ n.toNat) (causeCode 163 2)]
  | .tlbinvPage a b => needScalars 333 0 [a, b]
  | .lpinvPage a b => needScalars 333 0 [a, b]
  | .itset a b | .regen a b => needScalars 333 0 [a, b]
  | .errd a b | .errclr a b => needScalars 437 1 [a, b]
  | .psetReq a b => needScalars 449 1 [a, b]
  | .ckgo a b => needScalars 455 0 [a, b]
  | .ctxsave a b | .ctxload a b => needScalars 423 0 [a, b]
  | .hstake a b => needScalars 423 0 [a, b]
  | .spmigClean a b => needScalars 200 5 [a, b]
  | .qctlCreate a b => needScalars 398 0 [a, b]
  | .unfreeze a => needScalars 405 2 [a]
  | .rbldChannel a b => needScalars 298 5 [a, b]
  | .scrubPeriod a b => needScalars 303 4 [a, b]
  | .wpset a b | .bkset a b => needScalars 460 1 [a, b]
  | _ => none

/-- The cause code of a word that no row of the table matches (R491): R35 for an encoding that no instruction assigns; R30 for a
field that the instruction does not use, or a mask field above 7; and the own rule for a form, a mode or bits of a used field
that a rule names. -/
def cellFault (w : Word) : Nat :=
  let op := majorOf w
  let fn := fnOf w
  let d := bits w.toNat 16 8
  let a := bits w.toNat 8 8
  let b := bits w.toNat 0 8
  if 0x37 ≤ op && op ≤ 0x3C then 35
  else if op == 0x3D then
    (if bits w.toNat 16 10 ≥ 0x14 then 35 else if bits w.toNat 16 10 ≥ 0x12 then causeCode 460 1 else 30)
  else if op == 1 && fn ≥ 2 then 35
  else if op == 0x2E && fn == 3 || op == 0x33 && fn == 3 || op == 0x34 && fn == 3 then 35
  else if op == 0x35 && fn ≥ 2 || op == 0x36 && fn == 3 then 35
  else if op == 2 then causeCode 72 0
  else if op == 3 && fn ≤ 1 && 2 ≤ d then causeCode 75 0
  else if op == 0x0C then causeCode 126 (if 6 ≤ d / 8 % 8 then 2 else 3)
  else if op == 0x12 && fn == 0 then causeCode 134 0
  else if op == 0x1A then causeCode 171 0
  else if op == 0x1B && (fn == 1 || fn == 2) then (if 8 ≤ a then 30 else causeCode 169 0)
  else if op == 0x1B && fn == 3 then (if 8 ≤ d then 30 else causeCode 170 0)
  else if op == 0x22 && fn == 1 && 2 ≤ d then causeCode 310 2
  else if op == 0x34 && fn == 1 && d == 0 && 5 ≤ b then causeCode 419 0
  else if op == 0x2B && fn == 3 && bit b 6 then causeCode 206 (if d < 192 || a < 192 then 1 else 2)
  else 30

/-! ### Prefix fields -/

/-- Whether a base takes a fourth operand (R32, keys C and O of R114). -/
inductive FourthOperand where
  | never
  | needed
  | optional
deriving DecidableEq, Repr

/-- The prefix fields that a base instruction accepts (R114). `wide` marks LOGIC3 and the atomics, whose bits 7:0 are
aux8 and which have no negb (R32). -/
structure PfxKeys where
  mask : Bool := true
  z    : Bool := true
  nega : Bool := false
  negb : Bool := false
  sat  : Bool := false
  rm   : Bool := false
  c    : FourthOperand := .never
  wide : Bool := false
deriving DecidableEq, Repr

def keysN : PfxKeys := { nega := true, negb := true }
def keysMaskOnly : PfxKeys := { z := false }

/-- The keys of each base (R77, R118, R131, R155, R165, R170, R171, R178, R202, R204, R206, R310, R317). -/
def pfxKeys : Instr → PfxKeys
  | .iadd .. | .isub .. | .imul .. => { nega := true, negb := true, sat := true }
  | .iabs .. | .ineg .. => { sat := true }
  | .imad .. => { nega := true, negb := true, sat := true, c := .needed }
  | .bfi .. => { c := .needed }
  | .logic3 .. => { c := .needed, wide := true }
  | .iaddi .. | .iadd64 .. | .isub64 .. => { sat := true }
  | .fadd .. | .fsub .. | .fmul .. => { nega := true, negb := true, sat := true, rm := true }
  | .fma .. => { nega := true, negb := true, sat := true, rm := true, c := .needed }
  | .fmin .. | .fmax .. | .fcmp .. | .hmax2 .. => keysN
  | .frnd .. | .ffrac .. => { rm := true }
  | .rcp .. | .sqrt .. => { nega := true, rm := true }
  | .rsq .. | .tanh .. | .ex2 .. | .lg2 .. | .sin .. | .cos .. => { nega := true }
  | .hadd2 .. | .hmul2 .. => { nega := true, negb := true, sat := true, rm := true }
  | .hfma2 .. => { nega := true, negb := true, sat := true, rm := true, c := .needed }
  | .dot4I8 .. => { sat := true, c := .optional }
  | .dot8H4 .. | .dot2Bf16 .. | .dot2F16 .. => { nega := true, negb := true, sat := true, rm := true, c := .optional }
  | .f2i .. | .i2f .. => { rm := true }
  | .f2f .. | .f2fPk .. | .qnt .. | .dqnt .. => { sat := true, rm := true }
  | .packn .. => { sat := true }
  | .xred _ _ _ o | .xscan _ _ _ o | .xscanExcl _ _ _ o => { rm := o == 1 }
  | .mset .. => { mask := false, z := false }
  | .movv p .. => { z := !auxBit p 0 }
  | .bsinit .. | .bsref .. => keysMaskOnly
  | .ldu .. | .pref .. | .prefLlc .. => keysMaskOnly
  | .lde .. => { sat := true, rm := true }
  | .ste .. => { z := false, sat := true, rm := true }
  | .stB .. | .stH .. | .stW .. | .stD .. | .stQ .. | .stn .. | .stRel .. => keysMaskOnly
  | .stsH .. | .stsW .. | .stsD .. | .stsQ .. => keysMaskOnly
  | .atomAdd .. | .atomMin .. | .atomMax .. | .atomExch .. | .atomAnd .. | .atomOr .. | .atomXor .. => { z := false, wide := true }
  | .atomFadd .. | .atomFadd2 .. | .atomFmin .. | .atomFmax .. => { z := false, wide := true }
  | .atomsAdd .. | .atomsExch .. | .atomsFadd .. => { z := false, wide := true }
  | .atomCas .. | .atomsCas .. => { z := false, wide := true, c := .needed }
  | .spmap .. | .spunmap .. | .sppin .. | .sppinUn .. => keysMaskOnly
  | _ => {}

/-- The aux values that each base defines (R32, R114): bits 6:0, or all eight bits for aux8. -/
def auxDefined (aux : Nat) (sat : Bool) : Instr → Bool
  | .iadd .. | .isub .. | .imul .. | .imad .. | .iaddi .. | .iadd64 .. | .isub64 .. => aux == 0 || (aux == 1 && sat)
  | .logic3 .. => true
  | .lea1 .. | .lea4 .. | .lea16 .. | .shl64 .. => aux ≤ 1
  | .hadd2 .. | .hmul2 .. | .hfma2 .. | .hmax2 .. => aux ≤ 1
  | .dot4I8 .. => aux ≤ 3
  | .f2i .. | .i2f .. => aux ≤ 7
  | .f2f .. => aux < 64 && aux % 8 != 7 && aux / 8 != 7
  | .f2fPk .. =>
      let f := aux % 8
      let p := aux / 8
      (f == 1 || f == 2) && p == 0 || (f == 3 || f == 4) && p ≤ 1 || (f == 5 || f == 6) && p ≤ 3
  | .qnt .. => aux < 16 && aux % 8 ≤ 4
  | .qntScale .. => aux / 16 == 1 && aux % 8 ≤ 4
  | .dqnt .. => aux < 16 && aux % 8 ≤ 4
  | .unpackn .. => aux ≤ 3
  | .sel .. => aux ≤ 7
  | .movv .. => aux ≤ 1
  | .xget .. | .xput .. | .xbcast .. | .xquad .. | .xred .. | .xscan .. | .xscanExcl .. | .xminloc .. | .xmaxloc .. => aux ≤ 7
  | .bsr .. => aux ≤ 3
  | .bspos .. => aux ≤ 1
  | .ldsH .. => aux ≤ 1
  | .ldu .. | .lde .. | .ste .. => aux ≤ 1
  | .ldAcq .. | .ldNt .. | .stRel .. => aux ≤ 2
  | .atomAdd .. | .atomExch .. | .atomAnd .. | .atomOr .. | .atomXor .. | .atomCas .. | .atomFadd2 .. => aux ≤ 1
  | .atomMin .. | .atomMax .. => aux ≤ 3
  | .atomsAdd .. | .atomsExch .. | .atomsCas .. => aux ≤ 1
  | .atomsFadd .. => aux ≤ 2
  | _ => aux == 0

/-- The prefix that a unit carries, if its base takes one. -/
def pfxOf : Instr → Option Pfx
  | .elect p .. => p
  | .electGroup p .. => p
  | .electTeam p .. => p
  | .rdv p .. => p
  | .voteBallot p .. => p
  | .voteAny p .. => p
  | .voteAll p .. => p
  | .voteUni p .. => p
  | .iadd p .. => p
  | .isub p .. => p
  | .imin p .. => p
  | .imax p .. => p
  | .iminN p .. => p
  | .imaxN p .. => p
  | .iabs p .. => p
  | .ineg p .. => p
  | .imul p .. => p
  | .imulh p .. => p
  | .imulhN p .. => p
  | .imad p .. => p
  | .and p .. => p
  | .or p .. => p
  | .xor p .. => p
  | .andn p .. => p
  | .shl p .. => p
  | .shr p .. => p
  | .sha p .. => p
  | .rol p .. => p
  | .popc p .. => p
  | .clz p .. => p
  | .ctz p .. => p
  | .brev p .. => p
  | .bfx p .. => p
  | .bfxN p .. => p
  | .bfi p .. => p
  | .logic3 p .. => p
  | .icmpI32 p .. => p
  | .icmpN32 p .. => p
  | .icmpI64 p .. => p
  | .icmpN64 p .. => p
  | .iaddi p .. => p
  | .andi p .. => p
  | .ori p .. => p
  | .xori p .. => p
  | .lea1 p .. => p
  | .lea4 p .. => p
  | .lea16 p .. => p
  | .aadd p .. => p
  | .iadd64 p .. => p
  | .isub64 p .. => p
  | .imul64 p .. => p
  | .shl64 p .. => p
  | .movl p .. => p
  | .addl p .. => p
  | .andl p .. => p
  | .fadd p .. => p
  | .fsub p .. => p
  | .fmul p .. => p
  | .fma p .. => p
  | .fmin p .. => p
  | .fmax p .. => p
  | .fabs p .. => p
  | .fneg p .. => p
  | .fcmp p .. => p
  | .fclass p .. => p
  | .frnd p .. => p
  | .ffrac p .. => p
  | .rcp p .. => p
  | .rsq p .. => p
  | .sqrt p .. => p
  | .tanh p .. => p
  | .ex2 p .. => p
  | .lg2 p .. => p
  | .sin p .. => p
  | .cos p .. => p
  | .hadd2 p .. => p
  | .hmul2 p .. => p
  | .hfma2 p .. => p
  | .hmax2 p .. => p
  | .dot4I8 p .. => p
  | .dot8H4 p .. => p
  | .dot2Bf16 p .. => p
  | .dot2F16 p .. => p
  | .f2i p .. => p
  | .i2f p .. => p
  | .f2f p .. => p
  | .f2fPk p .. => p
  | .qnt p .. => p
  | .qntScale p .. => p
  | .dqnt p .. => p
  | .packn p .. => p
  | .unpackn p .. => p
  | .xget p .. => p
  | .xput p .. => p
  | .xbcast p .. => p
  | .xquad p .. => p
  | .xred p .. => p
  | .xscan p .. => p
  | .xscanExcl p .. => p
  | .xminloc p .. => p
  | .xmaxloc p .. => p
  | .mlop p .. => p
  | .mpop p .. => p
  | .mpopBelow p .. => p
  | .mpopBits p .. => p
  | .mfirst p .. => p
  | .mfirstLast p .. => p
  | .mset p .. => p
  | .msetNz p .. => p
  | .bsr p .. => p
  | .bsinit p .. => p
  | .bspos p .. => p
  | .bsref p .. => p
  | .mov p .. => p
  | .sel p .. => p
  | .movs p .. => p
  | .movv p .. => p
  | .moviLo p .. => p
  | .moviHi p .. => p
  | .moviSx p .. => p
  | .moviBf p .. => p
  | .rallocWait p .. => p
  | .rallocTry p .. => p
  | .rfree p .. => p
  | .rquery p .. => p
  | .ldB p .. => p
  | .ldH p .. => p
  | .ldW p .. => p
  | .ldD p .. => p
  | .ldQ p .. => p
  | .ldBs p .. => p
  | .ldHs p .. => p
  | .ldu p .. => p
  | .lde p .. => p
  | .pref p .. => p
  | .prefLlc p .. => p
  | .ldAcq p .. => p
  | .ldNt p .. => p
  | .stB p .. => p
  | .stH p .. => p
  | .stW p .. => p
  | .stD p .. => p
  | .stQ p .. => p
  | .stn p .. => p
  | .ste p .. => p
  | .stRel p .. => p
  | .atomAdd p .. => p
  | .atomMin p .. => p
  | .atomMax p .. => p
  | .atomExch p .. => p
  | .atomAnd p .. => p
  | .atomOr p .. => p
  | .atomXor p .. => p
  | .atomCas p .. => p
  | .atomFadd p .. => p
  | .atomFadd2 p .. => p
  | .atomFmin p .. => p
  | .atomFmax p .. => p
  | .ldsH p .. => p
  | .ldsW p .. => p
  | .ldsD p .. => p
  | .ldsQ p .. => p
  | .stsH p .. => p
  | .stsW p .. => p
  | .stsD p .. => p
  | .stsQ p .. => p
  | .atomsAdd p .. => p
  | .atomsExch p .. => p
  | .atomsCas p .. => p
  | .atomsFadd p .. => p
  | .spmap p .. => p
  | .spunmap p .. => p
  | .spquery p .. => p
  | .sppin p .. => p
  | .sppinUn p .. => p
  | _ => none

/-- The fields that apply when no prefix is present (R32). -/
def Pfx.plain : Pfx := ⟨0, false, false, false, 0, 0, false, 0⟩

/-- Whether the unit's prefix obeys R32 and R114; where it does not, illegal-prefix is raised. -/
def pfxOk (i : Instr) : Bool :=
  let p := (pfxOf i).getD Pfx.plain
  let k := pfxKeys i
  let low := if k.wide then p.aux.toNat else p.aux.toNat % 128
  let negb := !k.wide && bit p.aux.toNat 7
  (k.mask || p.mask == 0) && (k.z || !p.z) && (k.nega || !p.nega) && (k.negb || !negb) && (k.sat || !p.sat) &&
  p.rm.toNat ≤ 6 && (k.rm || p.rm == 0) && (p.cv || p.c == 0) &&
  (match k.c with
   | .never => !p.cv
   | .needed => p.cv
   | .optional => true) &&
  auxDefined low p.sat i

end Sys2Proof
end

