-- ==== Sys2Proof/WellFormed.lean ====
section
/-!
DEFINITION. Well-formed instructions: a unit that decoding would not turn away with illegal-instruction (R30, R35) and
whose prefix obeys R32 and R114. An event of the table is well formed as it stands.
-/
namespace Sys2Proof

/-- The unit passes its field checks and its prefix rules. -/
def Instr.wellFormed (i : Instr) : Bool := (wordFault i).isNone && pfxOk i

/-- The same, as a proposition that `decide` settles. -/
abbrev Instr.WellFormed (i : Instr) : Prop := i.wellFormed = true

end Sys2Proof
end

