-- ==== Sys2Proof/Decode.lean ====
section
/-!
DEFINITION. Decoding and encoding of the code's words (R29 to R35). Decoding is total: a unit is one base word, a prefix
and its base, or an op 0x3F word and its literal (with or without a prefix), and what no row assigns is rejected by name.
-/
namespace Sys2Proof

/-- Why the words at a position are no unit that may run. The trap of each is R36's. -/
inductive Reject where
  /-- No word is left to read. -/
  | truncated
  /-- An encoding that no row assigns, or a field check that fails (R30, R35), with its cause code. -/
  | illegalInstruction (word : Word) (cause : Nat)
  /-- The next word is not a base that may follow a prefix (R32). -/
  | illegalPrefix (word : Word)
  /-- An op 0x3F word whose literal is missing (R22). -/
  | missingLiteral (word : Word)
deriving DecidableEq, Repr

/-! ### Bytes of a word -/

/-- A word from its four bytes, the major opcode and fn first (R29). -/
def wordOf (op d a b : Byte) : Word := op ++ d ++ a ++ b

def byteOp (w : Word) : Byte := w.extractLsb' 24 8
def byteD (w : Word) : Byte := w.extractLsb' 16 8
def byteA (w : Word) : Byte := w.extractLsb' 8 8
def byteB (w : Word) : Byte := w.extractLsb' 0 8

/-- The fields of a prefix word (R32). -/
def pfxOfWord (w : Word) : Pfx :=
  { aux := w.extractLsb' 0 8, nega := w.getLsbD 8, sat := w.getLsbD 9, cv := w.getLsbD 10,
    c := w.extractLsb' 11 8, rm := w.extractLsb' 19 3, z := w.getLsbD 22, mask := w.extractLsb' 23 3 }

/-- The word of a prefix (R32). -/
def wordOfPfx (p : Pfx) : Word :=
  0x3E#6 ++ p.mask ++ BitVec.ofBool p.z ++ p.rm ++ p.c ++ BitVec.ofBool p.cv ++ BitVec.ofBool p.sat ++
    BitVec.ofBool p.nega ++ p.aux

/-- A unit's words: its prefix, if it has one, before its base. -/
def withPfx (p : Option Pfx) (w : Word) : List Word :=
  match p with
  | none => [w]
  | some q => [wordOfPfx q, w]

/-! ### Decoding -/

/-- QNT with aux[4] = 1 and b = 0 is the scale form (R148). -/
def scaleForm : Instr → Instr
  | .qnt p d a b => if auxBit p 4 && b == 0 then .qntScale p d a else .qnt p d a b
  | i => i

/-- Words of major 0x00 (R34). -/
def decode00 (fn : Nat) (_p : Option Pfx) (d a b : Byte) : Option Instr :=
  match fn with
  | 0 => if (d == 0x00#8) && (a == 0x00#8) && (b == 0x00#8) then some (.nop) else none
  | 1 => if (a == 0x00#8) then some (.waitlt d b) else none
  | 2 => if (d == 0x00#8) && (a == 0x00#8) && (b == 0x00#8) then some (.yield) else none
  | 3 => if (d == 0x00#8) && (a == 0x00#8) then some (.sleep b) else none
  | _ => none

/-- Words of major 0x01 (R34). -/
def decode01 (fn : Nat) (_p : Option Pfx) (d a b : Byte) : Option Instr :=
  match fn with
  | 0 => some (.bra (d ++ a ++ b))
  | 1 => some (.call (d ++ a ++ b))
  | _ => none

/-- Words of major 0x02 (R34). -/
def decode02 (fn : Nat) (_p : Option Pfx) (d a b : Byte) : Option Instr :=
  match fn with
  | 0 => if (d &&& 0xF8#8 == 0x00#8) then some (.brAny (d.extractLsb' 0 3) (a ++ b))
      else if (d &&& 0xF8#8 == 0x08#8) then some (.brAnySplit (d.extractLsb' 0 3) (a ++ b))
      else none
  | 1 => if (d &&& 0xF8#8 == 0x00#8) then some (.brAll (d.extractLsb' 0 3) (a ++ b)) else none
  | 2 => if (d &&& 0xF8#8 == 0x00#8) then some (.brNone (d.extractLsb' 0 3) (a ++ b))
      else if (d &&& 0xF8#8 == 0x08#8) then some (.brNoneSplit (d.extractLsb' 0 3) (a ++ b))
      else none
  | 3 => some (.brSz d (a ++ b))
  | _ => none

/-- Words of major 0x03 (R34). -/
def decode03 (fn : Nat) (_p : Option Pfx) (d a b : Byte) : Option Instr :=
  match fn with
  | 0 => if (d == 0x00#8) then some (.brxTable a b)
      else if (d == 0x01#8) && (b == 0x00#8) then some (.brxAddress a)
      else none
  | 1 => if (d == 0x00#8) then some (.callxTable a b)
      else if (d == 0x01#8) && (b == 0x00#8) then some (.callxAddress a)
      else none
  | 2 => if (d == 0x00#8) && (a == 0x00#8) && (b == 0x00#8) then some (.ret) else none
  | 3 => if (d == 0x00#8) && (b == 0x00#8) then some (.join a) else none
  | _ => none

/-- Words of major 0x04 (R34). -/
def decode04 (fn : Nat) (p : Option Pfx) (d a b : Byte) : Option Instr :=
  match fn with
  | 0 => if (d == 0x00#8) && (a == 0x00#8) && (b == 0x00#8) then some (.exit) else none
  | 1 => if (a == 0x00#8) && (b == 0x00#8) then some (.elect p d)
      else if (a == 0x01#8) && (b == 0x00#8) then some (.electGroup p d)
      else if (a == 0x02#8) && (b == 0x00#8) then some (.electTeam p d)
      else none
  | 2 => if (b == 0x00#8) then some (.rdv p d a) else none
  | 3 => if (d &&& 0xF8#8 == 0x00#8) then some (.voteBallot p (d.extractLsb' 0 3) a b)
      else if (d &&& 0xF8#8 == 0x08#8) then some (.voteAny p (d.extractLsb' 0 3) a b)
      else if (d &&& 0xF8#8 == 0x10#8) then some (.voteAll p (d.extractLsb' 0 3) a b)
      else if (d &&& 0xF8#8 == 0x18#8) then some (.voteUni p (d.extractLsb' 0 3) a b)
      else none
  | _ => none

/-- Words of major 0x05 (R34). -/
def decode05 (fn : Nat) (p : Option Pfx) (d a b : Byte) : Option Instr :=
  match fn with
  | 0 => some (.iadd p d a b)
  | 1 => some (.isub p d a b)
  | 2 => some (.imin p d a b)
  | 3 => some (.imax p d a b)
  | _ => none

/-- Words of major 0x06 (R34). -/
def decode06 (fn : Nat) (p : Option Pfx) (d a b : Byte) : Option Instr :=
  match fn with
  | 0 => some (.iminN p d a b)
  | 1 => some (.imaxN p d a b)
  | 2 => if (b == 0x00#8) then some (.iabs p d a) else none
  | 3 => if (b == 0x00#8) then some (.ineg p d a) else none
  | _ => none

/-- Words of major 0x07 (R34). -/
def decode07 (fn : Nat) (p : Option Pfx) (d a b : Byte) : Option Instr :=
  match fn with
  | 0 => some (.imul p d a b)
  | 1 => some (.imulh p d a b)
  | 2 => some (.imulhN p d a b)
  | 3 => some (.imad p d a b)
  | _ => none

/-- Words of major 0x08 (R34). -/
def decode08 (fn : Nat) (p : Option Pfx) (d a b : Byte) : Option Instr :=
  match fn with
  | 0 => some (.and p d a b)
  | 1 => some (.or p d a b)
  | 2 => some (.xor p d a b)
  | 3 => some (.andn p d a b)
  | _ => none

/-- Words of major 0x09 (R34). -/
def decode09 (fn : Nat) (p : Option Pfx) (d a b : Byte) : Option Instr :=
  match fn with
  | 0 => some (.shl p d a b)
  | 1 => some (.shr p d a b)
  | 2 => some (.sha p d a b)
  | 3 => some (.rol p d a b)
  | _ => none

/-- Words of major 0x0A (R34). -/
def decode0A (fn : Nat) (p : Option Pfx) (d a b : Byte) : Option Instr :=
  match fn with
  | 0 => if (b == 0x00#8) then some (.popc p d a) else none
  | 1 => if (b == 0x00#8) then some (.clz p d a) else none
  | 2 => if (b == 0x00#8) then some (.ctz p d a) else none
  | 3 => if (b == 0x00#8) then some (.brev p d a) else none
  | _ => none

/-- Words of major 0x0B (R34). -/
def decode0B (fn : Nat) (p : Option Pfx) (d a b : Byte) : Option Instr :=
  match fn with
  | 0 => some (.bfx p d a b)
  | 1 => some (.bfxN p d a b)
  | 2 => some (.bfi p d a b)
  | 3 => some (.logic3 p d a b)
  | _ => none

/-- Words of major 0x0C (R34). -/
def decode0C (fn : Nat) (p : Option Pfx) (d a b : Byte) : Option Instr :=
  match fn with
  | 0 => if (d &&& 0xC0#8 == 0x00#8) then some (.icmpI32 p (d.extractLsb' 3 3) (d.extractLsb' 0 3) a b) else none
  | 1 => if (d &&& 0xC0#8 == 0x00#8) then some (.icmpN32 p (d.extractLsb' 3 3) (d.extractLsb' 0 3) a b) else none
  | 2 => if (d &&& 0xC0#8 == 0x00#8) then some (.icmpI64 p (d.extractLsb' 3 3) (d.extractLsb' 0 3) a b) else none
  | 3 => if (d &&& 0xC0#8 == 0x00#8) then some (.icmpN64 p (d.extractLsb' 3 3) (d.extractLsb' 0 3) a b) else none
  | _ => none

/-- Words of major 0x0D (R34). -/
def decode0D (fn : Nat) (p : Option Pfx) (d a b : Byte) : Option Instr :=
  match fn with
  | 0 => some (.iaddi p d a b)
  | 1 => some (.andi p d a b)
  | 2 => some (.ori p d a b)
  | 3 => some (.xori p d a b)
  | _ => none

/-- Words of major 0x0E (R34). -/
def decode0E (fn : Nat) (p : Option Pfx) (d a b : Byte) : Option Instr :=
  match fn with
  | 0 => some (.lea1 p d a b)
  | 1 => some (.lea4 p d a b)
  | 2 => some (.lea16 p d a b)
  | 3 => some (.aadd p d a b)
  | _ => none

/-- Words of major 0x0F (R34). -/
def decode0F (fn : Nat) (p : Option Pfx) (d a b : Byte) : Option Instr :=
  match fn with
  | 0 => some (.iadd64 p d a b)
  | 1 => some (.isub64 p d a b)
  | 2 => some (.imul64 p d a b)
  | 3 => some (.shl64 p d a b)
  | _ => none

/-- Words of major 0x10 (R34). -/
def decode10 (fn : Nat) (p : Option Pfx) (d a b : Byte) : Option Instr :=
  match fn with
  | 0 => some (.fadd p d a b)
  | 1 => some (.fsub p d a b)
  | 2 => some (.fmul p d a b)
  | 3 => some (.fma p d a b)
  | _ => none

/-- Words of major 0x11 (R34). -/
def decode11 (fn : Nat) (p : Option Pfx) (d a b : Byte) : Option Instr :=
  match fn with
  | 0 => some (.fmin p d a b)
  | 1 => some (.fmax p d a b)
  | 2 => if (b == 0x00#8) then some (.fabs p d a) else none
  | 3 => if (b == 0x00#8) then some (.fneg p d a) else none
  | _ => none

/-- Words of major 0x12 (R34). -/
def decode12 (fn : Nat) (p : Option Pfx) (d a b : Byte) : Option Instr :=
  match fn with
  | 0 => if (d &&& 0x80#8 == 0x00#8) then some (.fcmp p (d.extractLsb' 3 4) (d.extractLsb' 0 3) a b) else none
  | 1 => if (b == 0x00#8) then some (.fclass p d a) else none
  | 2 => if (b == 0x00#8) then some (.frnd p d a) else none
  | 3 => if (b == 0x00#8) then some (.ffrac p d a) else none
  | _ => none

/-- Words of major 0x13 (R34). -/
def decode13 (fn : Nat) (p : Option Pfx) (d a b : Byte) : Option Instr :=
  match fn with
  | 0 => if (b == 0x00#8) then some (.rcp p d a) else none
  | 1 => if (b == 0x00#8) then some (.rsq p d a) else none
  | 2 => if (b == 0x00#8) then some (.sqrt p d a) else none
  | 3 => if (b == 0x00#8) then some (.tanh p d a) else none
  | _ => none

/-- Words of major 0x14 (R34). -/
def decode14 (fn : Nat) (p : Option Pfx) (d a b : Byte) : Option Instr :=
  match fn with
  | 0 => if (b == 0x00#8) then some (.ex2 p d a) else none
  | 1 => if (b == 0x00#8) then some (.lg2 p d a) else none
  | 2 => if (b == 0x00#8) then some (.sin p d a) else none
  | 3 => if (b == 0x00#8) then some (.cos p d a) else none
  | _ => none

/-- Words of major 0x15 (R34). -/
def decode15 (fn : Nat) (p : Option Pfx) (d a b : Byte) : Option Instr :=
  match fn with
  | 0 => some (.hadd2 p d a b)
  | 1 => some (.hmul2 p d a b)
  | 2 => some (.hfma2 p d a b)
  | 3 => some (.hmax2 p d a b)
  | _ => none

/-- Words of major 0x16 (R34). -/
def decode16 (fn : Nat) (p : Option Pfx) (d a b : Byte) : Option Instr :=
  match fn with
  | 0 => some (.dot4I8 p d a b)
  | 1 => some (.dot8H4 p d a b)
  | 2 => some (.dot2Bf16 p d a b)
  | 3 => some (.dot2F16 p d a b)
  | _ => none

/-- Words of major 0x17 (R34). -/
def decode17 (fn : Nat) (p : Option Pfx) (d a b : Byte) : Option Instr :=
  match fn with
  | 0 => if (b == 0x00#8) then some (.f2i p d a) else none
  | 1 => if (b == 0x00#8) then some (.i2f p d a) else none
  | 2 => if (b == 0x00#8) then some (.f2f p d a) else none
  | 3 => some (.f2fPk p d a b)
  | _ => none

/-- Words of major 0x18 (R34). -/
def decode18 (fn : Nat) (p : Option Pfx) (d a b : Byte) : Option Instr :=
  match fn with
  | 0 => some (.qnt p d a b)
  | 1 => some (.dqnt p d a b)
  | 2 => some (.packn p d a b)
  | 3 => if (b == 0x00#8) then some (.unpackn p d a) else none
  | _ => none

/-- Words of major 0x19 (R34). -/
def decode19 (fn : Nat) (p : Option Pfx) (d a b : Byte) : Option Instr :=
  match fn with
  | 0 => some (.xget p d a b)
  | 1 => some (.xput p d a b)
  | 2 => some (.xbcast p d a b)
  | 3 => some (.xquad p d a b)
  | _ => none

/-- Words of major 0x1A (R34). -/
def decode1A (fn : Nat) (p : Option Pfx) (d a b : Byte) : Option Instr :=
  match fn with
  | 0 => if (b &&& 0xF0#8 == 0x00#8) then some (.xred p d a (b.extractLsb' 0 4)) else none
  | 1 => if (b &&& 0xF0#8 == 0x00#8) then some (.xscan p d a (b.extractLsb' 0 4))
      else if (b &&& 0xF0#8 == 0x10#8) then some (.xscanExcl p d a (b.extractLsb' 0 4))
      else none
  | 2 => if (b &&& 0xFC#8 == 0x00#8) then some (.xminloc p d a (b.extractLsb' 0 2)) else none
  | 3 => if (b &&& 0xFC#8 == 0x00#8) then some (.xmaxloc p d a (b.extractLsb' 0 2)) else none
  | _ => none

/-- Words of major 0x1B (R34). -/
def decode1B (fn : Nat) (p : Option Pfx) (d a b : Byte) : Option Instr :=
  match fn with
  | 0 => if (d &&& 0x80#8 == 0x00#8) then some (.mlop p (d.extractLsb' 3 4) (d.extractLsb' 0 3) a b) else none
  | 1 => if (b == 0x00#8) then some (.mpop p d a)
      else if (b == 0x01#8) then some (.mpopBelow p d a)
      else if (b == 0x02#8) then some (.mpopBits p d a)
      else none
  | 2 => if (b == 0x00#8) then some (.mfirst p d a) else if (b == 0x01#8) then some (.mfirstLast p d a) else none
  | 3 => if (d &&& 0xF8#8 == 0x00#8) && (b == 0x00#8) then some (.mset p (d.extractLsb' 0 3) a)
      else if (d &&& 0xF8#8 == 0x00#8) && (b == 0x01#8) then some (.msetNz p (d.extractLsb' 0 3) a)
      else none
  | _ => none

/-- Words of major 0x1C (R34). -/
def decode1C (fn : Nat) (p : Option Pfx) (d a b : Byte) : Option Instr :=
  match fn with
  | 0 => some (.bsr p d a b)
  | 1 => if (d == 0x00#8) && (a == 0x00#8) then some (.bsinit p b) else none
  | 2 => if (a == 0x00#8) && (b == 0x00#8) then some (.bspos p d) else none
  | 3 => if (d == 0x00#8) then some (.bsref p a b) else none
  | _ => none

/-- Words of major 0x1D (R34). -/
def decode1D (fn : Nat) (p : Option Pfx) (d a b : Byte) : Option Instr :=
  match fn with
  | 0 => if (b == 0x00#8) then some (.mov p d a) else none
  | 1 => some (.sel p d a b)
  | 2 => if (b == 0x00#8) then some (.movs p d a) else none
  | 3 => some (.movv p d a b)
  | _ => none

/-- Words of major 0x1E (R34). -/
def decode1E (fn : Nat) (p : Option Pfx) (d a b : Byte) : Option Instr :=
  match fn with
  | 0 => some (.moviLo p d (a ++ b))
  | 1 => some (.moviHi p d (a ++ b))
  | 2 => some (.moviSx p d (a ++ b))
  | 3 => some (.moviBf p d (a ++ b))
  | _ => none

/-- Words of major 0x1F (R34). -/
def decode1F (fn : Nat) (p : Option Pfx) (d a b : Byte) : Option Instr :=
  match fn with
  | 0 => if (a == 0x00#8) then some (.rallocWait p d b) else none
  | 1 => if (a == 0x00#8) then some (.rallocTry p d b) else none
  | 2 => if (a == 0x00#8) then some (.rfree p d b) else none
  | 3 => if (a == 0x00#8) && (b == 0x00#8) then some (.rquery p d) else none
  | _ => none

/-- Words of major 0x20 (R34). -/
def decode20 (fn : Nat) (p : Option Pfx) (d a b : Byte) : Option Instr :=
  match fn with
  | 0 => some (.ldB p d a b)
  | 1 => some (.ldH p d a b)
  | 2 => some (.ldW p d a b)
  | 3 => some (.ldD p d a b)
  | _ => none

/-- Words of major 0x21 (R34). -/
def decode21 (fn : Nat) (p : Option Pfx) (d a b : Byte) : Option Instr :=
  match fn with
  | 0 => some (.ldQ p d a b)
  | 1 => some (.ldBs p d a b)
  | 2 => some (.ldHs p d a b)
  | 3 => some (.ldu p d a b)
  | _ => none

/-- Words of major 0x22 (R34). -/
def decode22 (fn : Nat) (p : Option Pfx) (d a b : Byte) : Option Instr :=
  match fn with
  | 0 => if (b == 0x00#8) then some (.lde p d a) else none
  | 1 => if (d == 0x00#8) then some (.pref p a b) else if (d == 0x01#8) then some (.prefLlc p a b) else none
  | 2 => some (.ldAcq p d a b)
  | 3 => some (.ldNt p d a b)
  | _ => none

/-- Words of major 0x23 (R34). -/
def decode23 (fn : Nat) (p : Option Pfx) (d a b : Byte) : Option Instr :=
  match fn with
  | 0 => some (.stB p d a b)
  | 1 => some (.stH p d a b)
  | 2 => some (.stW p d a b)
  | 3 => some (.stD p d a b)
  | _ => none

/-- Words of major 0x24 (R34). -/
def decode24 (fn : Nat) (p : Option Pfx) (d a b : Byte) : Option Instr :=
  match fn with
  | 0 => some (.stQ p d a b)
  | 1 => some (.stn p d a b)
  | 2 => if (b == 0x00#8) then some (.ste p d a) else none
  | 3 => some (.stRel p d a b)
  | _ => none

/-- Words of major 0x25 (R34). -/
def decode25 (fn : Nat) (p : Option Pfx) (d a b : Byte) : Option Instr :=
  match fn with
  | 0 => some (.atomAdd p d a b)
  | 1 => some (.atomMin p d a b)
  | 2 => some (.atomMax p d a b)
  | 3 => some (.atomExch p d a b)
  | _ => none

/-- Words of major 0x26 (R34). -/
def decode26 (fn : Nat) (p : Option Pfx) (d a b : Byte) : Option Instr :=
  match fn with
  | 0 => some (.atomAnd p d a b)
  | 1 => some (.atomOr p d a b)
  | 2 => some (.atomXor p d a b)
  | 3 => some (.atomCas p d a b)
  | _ => none

/-- Words of major 0x27 (R34). -/
def decode27 (fn : Nat) (p : Option Pfx) (d a b : Byte) : Option Instr :=
  match fn with
  | 0 => some (.atomFadd p d a b)
  | 1 => some (.atomFadd2 p d a b)
  | 2 => some (.atomFmin p d a b)
  | 3 => some (.atomFmax p d a b)
  | _ => none

/-- Words of major 0x28 (R34). -/
def decode28 (fn : Nat) (p : Option Pfx) (d a b : Byte) : Option Instr :=
  match fn with
  | 0 => some (.ldsH p d a b)
  | 1 => some (.ldsW p d a b)
  | 2 => some (.ldsD p d a b)
  | 3 => some (.ldsQ p d a b)
  | _ => none

/-- Words of major 0x29 (R34). -/
def decode29 (fn : Nat) (p : Option Pfx) (d a b : Byte) : Option Instr :=
  match fn with
  | 0 => some (.stsH p d a b)
  | 1 => some (.stsW p d a b)
  | 2 => some (.stsD p d a b)
  | 3 => some (.stsQ p d a b)
  | _ => none

/-- Words of major 0x2A (R34). -/
def decode2A (fn : Nat) (p : Option Pfx) (d a b : Byte) : Option Instr :=
  match fn with
  | 0 => some (.atomsAdd p d a b)
  | 1 => some (.atomsExch p d a b)
  | 2 => some (.atomsCas p d a b)
  | 3 => some (.atomsFadd p d a b)
  | _ => none

/-- Words of major 0x2B (R34). -/
def decode2B (fn : Nat) (p : Option Pfx) (d a b : Byte) : Option Instr :=
  match fn with
  | 0 => some (.spmap p d a (b.extractLsb' 6 2) (b.extractLsb' 0 6))
  | 1 => some (.spunmap p d a b)
  | 2 => if (b == 0x00#8) then some (.spquery p d a) else none
  | 3 => if (b &&& 0xC0#8 == 0x00#8) then some (.sppin p d a (b.extractLsb' 0 6))
      else if (b &&& 0xC0#8 == 0x80#8) then some (.sppinUn p d a (b.extractLsb' 0 6))
      else none
  | _ => none

/-- Words of major 0x2C (R34). -/
def decode2C (fn : Nat) (_p : Option Pfx) (d a b : Byte) : Option Instr :=
  match fn with
  | 0 => if (d == 0x00#8) then some (.mpost a b) else none
  | 1 => if (d == 0x00#8) then some (.mcfg a b) else none
  | 2 => if (b == 0x00#8) then some (.mquery d a) else none
  | 3 => some (.mcancel d a b)
  | _ => none

/-- Words of major 0x2D (R34). -/
def decode2D (fn : Nat) (_p : Option Pfx) (d a b : Byte) : Option Instr :=
  match fn with
  | 0 => if (d == 0x00#8) then some (.azero a b) else none
  | 1 => some (.ard d a b)
  | 2 => some (.awr d a b)
  | 3 => some (.ascale d a b)
  | _ => none

/-- Words of major 0x2E (R34). -/
def decode2E (fn : Nat) (_p : Option Pfx) (d a b : Byte) : Option Instr :=
  match fn with
  | 0 => some (.aload d a b)
  | 1 => some (.astore d a b)
  | 2 => if (d == 0x00#8) then some (.agidx a b) else none
  | _ => none

/-- Words of major 0x2F (R34). -/
def decode2F (fn : Nat) (_p : Option Pfx) (d a b : Byte) : Option Instr :=
  match fn with
  | 0 => some (.cpy d a b)
  | 1 => some (.cpy2 d a b)
  | 2 => some (.cpyg d a b)
  | 3 => some (.cpyx d a b)
  | _ => none

/-- Words of major 0x30 (R34). -/
def decode30 (fn : Nat) (_p : Option Pfx) (d a b : Byte) : Option Instr :=
  match fn with
  | 0 => if (d == 0x00#8) && (a == 0x00#8) && (b == 0x00#8) then some (.bar) else none
  | 1 => if (d == 0x00#8) && (a == 0x00#8) && (b == 0x00#8) then some (.barG) else none
  | 2 => if (a == 0x00#8) && (b == 0x00#8) then some (.bara d)
      else if (a == 0x00#8) && (b == 0x01#8) then some (.baraG d)
      else none
  | 3 => if (d == 0x00#8) && (b == 0x00#8) then some (.barw a)
      else if (d == 0x00#8) && (b == 0x01#8) then some (.barwG a)
      else none
  | _ => none

/-- Words of major 0x31 (R34). -/
def decode31 (fn : Nat) (_p : Option Pfx) (d a b : Byte) : Option Instr :=
  match fn with
  | 0 => if (a == 0x00#8) && (b &&& 0xF0#8 == 0x00#8) then some (.kread d (b.extractLsb' 0 4))
      else if (a == 0x00#8) && (b &&& 0xF0#8 == 0x10#8) then some (.kreadClr d (b.extractLsb' 0 4))
      else none
  | 1 => if (d &&& 0xF0#8 == 0x00#8) && (a == 0x00#8) then some (.kadd (d.extractLsb' 0 4) b) else none
  | 2 => if (a == 0x00#8) && (b &&& 0xF0#8 == 0x00#8) then some (.kbind d (b.extractLsb' 0 4))
      else if (d == 0x00#8) && (a == 0x00#8) && (b &&& 0xF0#8 == 0x10#8) then some (.kbindClose (b.extractLsb' 0 4))
      else none
  | 3 => if (d == 0x00#8) && (a == 0x00#8) && (b == 0x00#8) then some (.seal) else none
  | _ => none

/-- Words of major 0x32 (R34). -/
def decode32 (fn : Nat) (_p : Option Pfx) (d a b : Byte) : Option Instr :=
  match fn with
  | 0 => if (d == 0x00#8) && (a == 0x00#8) && (b == 0x00#8) then some (.fencePeer) else none
  | 1 => if (d == 0x00#8) && (a == 0x00#8) && (b == 0x00#8) then some (.fenceHost) else none
  | 2 => if (d == 0x00#8) && (a == 0x00#8) && (b == 0x01#8) then some (.fenceAsyncRel)
      else if (d == 0x00#8) && (a == 0x00#8) && (b == 0x02#8) then some (.fenceAsyncAcq)
      else if (d == 0x00#8) && (a == 0x00#8) && (b == 0x03#8) then some (.fenceAsync)
      else none
  | 3 => if (d == 0x00#8) && (a == 0x00#8) && (b == 0x00#8) then some (.fenceIo) else none
  | _ => none

/-- Words of major 0x33 (R34). -/
def decode33 (fn : Nat) (_p : Option Pfx) (d a b : Byte) : Option Instr :=
  match fn with
  | 0 => if (b == 0x00#8) then some (.launch d a) else none
  | 1 => some (.qpost d a b)
  | 2 => if (b == 0x00#8) then some (.qstat d a) else none
  | _ => none

/-- Words of major 0x34 (R34). -/
def decode34 (fn : Nat) (_p : Option Pfx) (d a b : Byte) : Option Instr :=
  match fn with
  | 0 => if (d == 0x00#8) then some (.trap a b) else none
  | 1 => if (d == 0x00#8) && (a == 0x00#8) && (b == 0x00#8) then some (.tret)
      else if (d == 0x00#8) && (a == 0x00#8) && (b == 0x01#8) then some (.tretSkip)
      else if (d == 0x00#8) && (b == 0x02#8) then some (.tretTo a)
      else if (d == 0x00#8) && (a == 0x00#8) && (b == 0x03#8) then some (.tretEres)
      else if (d == 0x00#8) && (a == 0x00#8) && (b == 0x04#8) then some (.tretEabn)
      else none
  | 2 => if (a == 0x00#8) then some (.rdtr d b) else none
  | _ => none

/-- Words of major 0x35 (R34). -/
def decode35 (fn : Nat) (_p : Option Pfx) (d a b : Byte) : Option Instr :=
  match fn with
  | 0 => if (a == 0x00#8) then some (.rdsr d b) else none
  | 1 => if (d == 0x00#8) then some (.wrsr a b) else none
  | _ => none

/-- Words of major 0x36 (R34). -/
def decode36 (fn : Nat) (_p : Option Pfx) (d a b : Byte) : Option Instr :=
  match fn with
  | 0 => if (d == 0x00#8) && (a == 0x00#8) then some (.bkpt b) else none
  | 1 => if (d == 0x00#8) then some (.trace a b) else none
  | 2 => if (d == 0x00#8) && (a == 0x00#8) then some (.mark b) else none
  | _ => none

/-- System words, by sub-op (R35). The rows that share one word are told apart by S[a] when the word runs (`select`). -/
def decodeSystem (sub : Nat) (a b : Byte) : Option Instr :=
  match sub with
  | 0x000 => some (.tlbinvPage a b)
  | 0x001 => some (.lpinvPage a b)
  | 0x002 => some (.itset a b)
  | 0x003 => some (.regen a b)
  | 0x004 => some (.errd a b)
  | 0x005 => some (.errclr a b)
  | 0x006 => some (.psetReq a b)
  | 0x007 => some (.ckgo a b)
  | 0x008 => some (.ctxsave a b)
  | 0x009 => some (.ctxload a b)
  | 0x00A => some (.spmigClean a b)
  | 0x00B => some (.qctlCreate a b)
  | 0x00C => if (b == 0x00#8) then some (.unfreeze a) else none
  | 0x00D => some (.hstake a b)
  | 0x00E => some (.rbldChannel a b)
  | 0x00F => some (.scrubPeriod a b)
  | 0x010 => some (.wpset a b)
  | 0x011 => some (.bkset a b)
  | 0x012 => if scalarOp a && scalarOp b then some .trcfgStart else none
  | 0x013 => if scalarOp a && scalarOp b then some .capctlOff else none
  | _ => none

/-- The row that a base word names, with the fields of the prefix before it; none where no row of the table matches. -/
def decodeBase (p : Option Pfx) (w : Word) : Option Instr :=
  let fn := fnOf w
  let d := byteD w
  let a := byteA w
  let b := byteB w
  match majorOf w with
  | 0x00 => decode00 fn p d a b
  | 0x01 => decode01 fn p d a b
  | 0x02 => decode02 fn p d a b
  | 0x03 => decode03 fn p d a b
  | 0x04 => decode04 fn p d a b
  | 0x05 => decode05 fn p d a b
  | 0x06 => decode06 fn p d a b
  | 0x07 => decode07 fn p d a b
  | 0x08 => decode08 fn p d a b
  | 0x09 => decode09 fn p d a b
  | 0x0A => decode0A fn p d a b
  | 0x0B => decode0B fn p d a b
  | 0x0C => decode0C fn p d a b
  | 0x0D => decode0D fn p d a b
  | 0x0E => decode0E fn p d a b
  | 0x0F => decode0F fn p d a b
  | 0x10 => decode10 fn p d a b
  | 0x11 => decode11 fn p d a b
  | 0x12 => decode12 fn p d a b
  | 0x13 => decode13 fn p d a b
  | 0x14 => decode14 fn p d a b
  | 0x15 => decode15 fn p d a b
  | 0x16 => decode16 fn p d a b
  | 0x17 => decode17 fn p d a b
  | 0x18 => (decode18 fn p d a b).map scaleForm
  | 0x19 => decode19 fn p d a b
  | 0x1A => decode1A fn p d a b
  | 0x1B => decode1B fn p d a b
  | 0x1C => decode1C fn p d a b
  | 0x1D => decode1D fn p d a b
  | 0x1E => decode1E fn p d a b
  | 0x1F => decode1F fn p d a b
  | 0x20 => decode20 fn p d a b
  | 0x21 => decode21 fn p d a b
  | 0x22 => decode22 fn p d a b
  | 0x23 => decode23 fn p d a b
  | 0x24 => decode24 fn p d a b
  | 0x25 => decode25 fn p d a b
  | 0x26 => decode26 fn p d a b
  | 0x27 => decode27 fn p d a b
  | 0x28 => decode28 fn p d a b
  | 0x29 => decode29 fn p d a b
  | 0x2A => decode2A fn p d a b
  | 0x2B => decode2B fn p d a b
  | 0x2C => decode2C fn p d a b
  | 0x2D => decode2D fn p d a b
  | 0x2E => decode2E fn p d a b
  | 0x2F => decode2F fn p d a b
  | 0x30 => decode30 fn p d a b
  | 0x31 => decode31 fn p d a b
  | 0x32 => decode32 fn p d a b
  | 0x33 => decode33 fn p d a b
  | 0x34 => decode34 fn p d a b
  | 0x35 => decode35 fn p d a b
  | 0x36 => decode36 fn p d a b
  | 0x3D => decodeSystem (bits w.toNat 16 10) a b
  | _ => none


/-- The op 0x3F word and its literal (R33). -/
def decodeLiteral (p : Option Pfx) (w lit : Word) : Except Reject Instr :=
  let bad := Except.error (.illegalInstruction w 30)
  match fnOf w with
  | 0 => if byteA w == 0 && byteB w == 0 then .ok (.movl p (byteD w) lit) else bad
  | 1 => if byteB w == 0 then .ok (.addl p (byteD w) (byteA w) lit) else bad
  | 2 => if byteB w == 0 then .ok (.andl p (byteD w) (byteA w) lit) else bad
  | _ => if byteD w == 0 && byteA w == 0 && byteB w == 0 then
           (match p with
            | none => .ok (.brl lit)
            | some q => .error (.illegalPrefix (wordOfPfx q)))
         else bad

/-- The checks that a decoded base meets: its own fields, then whether it may follow the prefix. -/
def checkBase (p : Option Pfx) (w : Word) : Except Reject Instr :=
  match decodeBase p w with
  | none => .error (.illegalInstruction w (cellFault w))
  | some i =>
    match wordFault i with
    | some c => .error (.illegalInstruction w c)
    | none =>
      match p with
      | none => .ok i
      | some q => if pfxOf i == some q then .ok i else .error (.illegalPrefix (wordOfPfx q))

/-- A base or literal pair after the unit's prefix. -/
def decodeAfter (p : Option Pfx) : List Word → Except Reject (Instr × List Word)
  | [] =>
    match p with
    | none => .error .truncated
    | some q => .error (.illegalPrefix (wordOfPfx q))
  | w :: ws =>
    if isLiteralWord w then
      match ws with
      | [] =>
        (match decodeLiteral p w 0 with
         | .error (.illegalInstruction x n) => .error (.illegalInstruction x n)
         | _ => .error (.missingLiteral w))
      | l :: rest => (decodeLiteral p w l).map (fun i => (i, rest))
    else if isPfxWord w then
      match p with
      | none => .error (.illegalPrefix w)
      | some q => .error (.illegalPrefix (wordOfPfx q))
    else (checkBase p w).map (fun i => (i, ws))

/-- The unit that a list of words opens with, and the words after it. Total: what is no unit is rejected by name. -/
def decode : List Word → Except Reject (Instr × List Word)
  | [] => .error .truncated
  | w :: ws => if isPfxWord w then decodeAfter (some (pfxOfWord w)) ws else decodeAfter none (w :: ws)

/-- How many words a unit takes: a base word, a literal, a prefix. -/
def unitWords (i : Instr) : Nat :=
  (match i with
   | .brl .. | .movl .. | .addl .. | .andl .. => 2
   | _ => 1) + (if (pfxOf i).isSome then 1 else 0)

/-! ### Rows that share one word -/

/-- The row of the table that a system word runs, told by S[a] or S[b] (R200, R298, R303, R334, R398, R424, R449, R466,
R469). A value that names no row stays with the row that the word decodes to, whose meaning says what it raises. -/
def select (sa sb : Dword) : Instr → Instr
  | .tlbinvPage a b =>
      if bits sa.toNat 0 2 == 1 then .tlbinvContext else if bits sa.toNat 0 2 == 2 then .tlbinvPartition else .tlbinvPage a b
  | .lpinvPage a b =>
      if bits sa.toNat 0 2 == 1 then .lpinvContext else if bits sa.toNat 0 2 == 2 then .lpinvPartition else .lpinvPage a b
  | .psetReq a b => if bit sa.toNat 4 then .psetReq a b else .pset
  | .ctxsave a b => if sb == 1 then .ctxsaveReplace else .ctxsave a b
  | .spmigClean a b => if sb == 1 then .spmigEvict else .spmigClean a b
  | .qctlCreate a b =>
      if bits sa.toNat 16 2 == 2 then .qctlDestroy
      else if bits sa.toNat 16 2 == 3 then .qctlDestroyKill else .qctlCreate a b
  | .rbldChannel a b =>
      let m := bits sa.toNat 0 4
      if m == 1 then .rbldStack else if m == 2 then .rbldRate else if m == 3 then .rbldPause
      else if m == 4 then .rbldResume else .rbldChannel a b
  | .scrubPeriod a b =>
      let m := bits sa.toNat 0 2
      if m == 1 then .scrubFrame else if m == 2 then .scrubRetire else if m == 3 then .scrubThresh else .scrubPeriod a b
  | .trcfgStart =>
      let m := bits sa.toNat 0 2
      if m == 1 then .trcfgBins else if m == 2 then .trcfgClear else if m == 3 then .trcfgStop else .trcfgStart
  | .capctlOff =>
      if bits sa.toNat 0 2 == 1 then .capctlCapture else if bits sa.toNat 0 2 == 2 then .capctlReplay else .capctlOff
  | i => i

/-! ### Encoding -/

/-- The words of a unit, from the encoding tables of each chapter. An event has none, and the rows that S[a] or S[b] tells
apart have none of their own: their word decodes to the first row of it (R35), the TRCFG word to `trcfgStart` and the CAPCTL word to `capctlOff`. -/
def encode : Instr → List Word
  | .nop => [wordOf 0x00#8 0x00#8 0x00#8 0x00#8]
  | .waitlt d n => [wordOf 0x01#8 d 0x00#8 n]
  | .yield => [wordOf 0x02#8 0x00#8 0x00#8 0x00#8]
  | .sleep n => [wordOf 0x03#8 0x00#8 0x00#8 n]
  | .bra o => [wordOf 0x04#8 (o.extractLsb' 16 8) (o.extractLsb' 8 8) (o.extractLsb' 0 8)]
  | .call o => [wordOf 0x05#8 (o.extractLsb' 16 8) (o.extractLsb' 8 8) (o.extractLsb' 0 8)]
  | .brAny m o => [wordOf 0x08#8 (0#5 ++ m) (o.extractLsb' 8 8) (o.extractLsb' 0 8)]
  | .brAnySplit m o => [wordOf 0x08#8 (1#5 ++ m) (o.extractLsb' 8 8) (o.extractLsb' 0 8)]
  | .brAll m o => [wordOf 0x09#8 (0#5 ++ m) (o.extractLsb' 8 8) (o.extractLsb' 0 8)]
  | .brNone m o => [wordOf 0x0A#8 (0#5 ++ m) (o.extractLsb' 8 8) (o.extractLsb' 0 8)]
  | .brNoneSplit m o => [wordOf 0x0A#8 (1#5 ++ m) (o.extractLsb' 8 8) (o.extractLsb' 0 8)]
  | .brSz r o => [wordOf 0x0B#8 r (o.extractLsb' 8 8) (o.extractLsb' 0 8)]
  | .brxTable a b => [wordOf 0x0C#8 0x00#8 a b]
  | .brxAddress a => [wordOf 0x0C#8 0x01#8 a 0x00#8]
  | .callxTable a b => [wordOf 0x0D#8 0x00#8 a b]
  | .callxAddress a => [wordOf 0x0D#8 0x01#8 a 0x00#8]
  | .ret => [wordOf 0x0E#8 0x00#8 0x00#8 0x00#8]
  | .join a => [wordOf 0x0F#8 0x00#8 a 0x00#8]
  | .exit => [wordOf 0x10#8 0x00#8 0x00#8 0x00#8]
  | .elect p d => withPfx p (wordOf 0x11#8 d 0x00#8 0x00#8)
  | .electGroup p d => withPfx p (wordOf 0x11#8 d 0x01#8 0x00#8)
  | .electTeam p d => withPfx p (wordOf 0x11#8 d 0x02#8 0x00#8)
  | .rdv p d a => withPfx p (wordOf 0x12#8 d a 0x00#8)
  | .voteBallot p r a b => withPfx p (wordOf 0x13#8 (0#5 ++ r) a b)
  | .voteAny p r a b => withPfx p (wordOf 0x13#8 (1#5 ++ r) a b)
  | .voteAll p r a b => withPfx p (wordOf 0x13#8 (2#5 ++ r) a b)
  | .voteUni p r a b => withPfx p (wordOf 0x13#8 (3#5 ++ r) a b)
  | .iadd p d a b => withPfx p (wordOf 0x14#8 d a b)
  | .isub p d a b => withPfx p (wordOf 0x15#8 d a b)
  | .imin p d a b => withPfx p (wordOf 0x16#8 d a b)
  | .imax p d a b => withPfx p (wordOf 0x17#8 d a b)
  | .iminN p d a b => withPfx p (wordOf 0x18#8 d a b)
  | .imaxN p d a b => withPfx p (wordOf 0x19#8 d a b)
  | .iabs p d a => withPfx p (wordOf 0x1A#8 d a 0x00#8)
  | .ineg p d a => withPfx p (wordOf 0x1B#8 d a 0x00#8)
  | .imul p d a b => withPfx p (wordOf 0x1C#8 d a b)
  | .imulh p d a b => withPfx p (wordOf 0x1D#8 d a b)
  | .imulhN p d a b => withPfx p (wordOf 0x1E#8 d a b)
  | .imad p d a b => withPfx p (wordOf 0x1F#8 d a b)
  | .and p d a b => withPfx p (wordOf 0x20#8 d a b)
  | .or p d a b => withPfx p (wordOf 0x21#8 d a b)
  | .xor p d a b => withPfx p (wordOf 0x22#8 d a b)
  | .andn p d a b => withPfx p (wordOf 0x23#8 d a b)
  | .shl p d a b => withPfx p (wordOf 0x24#8 d a b)
  | .shr p d a b => withPfx p (wordOf 0x25#8 d a b)
  | .sha p d a b => withPfx p (wordOf 0x26#8 d a b)
  | .rol p d a b => withPfx p (wordOf 0x27#8 d a b)
  | .popc p d a => withPfx p (wordOf 0x28#8 d a 0x00#8)
  | .clz p d a => withPfx p (wordOf 0x29#8 d a 0x00#8)
  | .ctz p d a => withPfx p (wordOf 0x2A#8 d a 0x00#8)
  | .brev p d a => withPfx p (wordOf 0x2B#8 d a 0x00#8)
  | .bfx p d a b => withPfx p (wordOf 0x2C#8 d a b)
  | .bfxN p d a b => withPfx p (wordOf 0x2D#8 d a b)
  | .bfi p d a b => withPfx p (wordOf 0x2E#8 d a b)
  | .logic3 p d a b => withPfx p (wordOf 0x2F#8 d a b)
  | .icmpI32 p c m a b => withPfx p (wordOf 0x30#8 (0#2 ++ c ++ m) a b)
  | .icmpN32 p c m a b => withPfx p (wordOf 0x31#8 (0#2 ++ c ++ m) a b)
  | .icmpI64 p c m a b => withPfx p (wordOf 0x32#8 (0#2 ++ c ++ m) a b)
  | .icmpN64 p c m a b => withPfx p (wordOf 0x33#8 (0#2 ++ c ++ m) a b)
  | .iaddi p d a i => withPfx p (wordOf 0x34#8 d a i)
  | .andi p d a i => withPfx p (wordOf 0x35#8 d a i)
  | .ori p d a i => withPfx p (wordOf 0x36#8 d a i)
  | .xori p d a i => withPfx p (wordOf 0x37#8 d a i)
  | .lea1 p d a b => withPfx p (wordOf 0x38#8 d a b)
  | .lea4 p d a b => withPfx p (wordOf 0x39#8 d a b)
  | .lea16 p d a b => withPfx p (wordOf 0x3A#8 d a b)
  | .aadd p d a b => withPfx p (wordOf 0x3B#8 d a b)
  | .iadd64 p d a b => withPfx p (wordOf 0x3C#8 d a b)
  | .isub64 p d a b => withPfx p (wordOf 0x3D#8 d a b)
  | .imul64 p d a b => withPfx p (wordOf 0x3E#8 d a b)
  | .shl64 p d a b => withPfx p (wordOf 0x3F#8 d a b)
  | .fadd p d a b => withPfx p (wordOf 0x40#8 d a b)
  | .fsub p d a b => withPfx p (wordOf 0x41#8 d a b)
  | .fmul p d a b => withPfx p (wordOf 0x42#8 d a b)
  | .fma p d a b => withPfx p (wordOf 0x43#8 d a b)
  | .fmin p d a b => withPfx p (wordOf 0x44#8 d a b)
  | .fmax p d a b => withPfx p (wordOf 0x45#8 d a b)
  | .fabs p d a => withPfx p (wordOf 0x46#8 d a 0x00#8)
  | .fneg p d a => withPfx p (wordOf 0x47#8 d a 0x00#8)
  | .fcmp p c m a b => withPfx p (wordOf 0x48#8 (0#1 ++ c ++ m) a b)
  | .fclass p d a => withPfx p (wordOf 0x49#8 d a 0x00#8)
  | .frnd p d a => withPfx p (wordOf 0x4A#8 d a 0x00#8)
  | .ffrac p d a => withPfx p (wordOf 0x4B#8 d a 0x00#8)
  | .rcp p d a => withPfx p (wordOf 0x4C#8 d a 0x00#8)
  | .rsq p d a => withPfx p (wordOf 0x4D#8 d a 0x00#8)
  | .sqrt p d a => withPfx p (wordOf 0x4E#8 d a 0x00#8)
  | .tanh p d a => withPfx p (wordOf 0x4F#8 d a 0x00#8)
  | .ex2 p d a => withPfx p (wordOf 0x50#8 d a 0x00#8)
  | .lg2 p d a => withPfx p (wordOf 0x51#8 d a 0x00#8)
  | .sin p d a => withPfx p (wordOf 0x52#8 d a 0x00#8)
  | .cos p d a => withPfx p (wordOf 0x53#8 d a 0x00#8)
  | .hadd2 p d a b => withPfx p (wordOf 0x54#8 d a b)
  | .hmul2 p d a b => withPfx p (wordOf 0x55#8 d a b)
  | .hfma2 p d a b => withPfx p (wordOf 0x56#8 d a b)
  | .hmax2 p d a b => withPfx p (wordOf 0x57#8 d a b)
  | .dot4I8 p d a b => withPfx p (wordOf 0x58#8 d a b)
  | .dot8H4 p d a b => withPfx p (wordOf 0x59#8 d a b)
  | .dot2Bf16 p d a b => withPfx p (wordOf 0x5A#8 d a b)
  | .dot2F16 p d a b => withPfx p (wordOf 0x5B#8 d a b)
  | .f2i p d a => withPfx p (wordOf 0x5C#8 d a 0x00#8)
  | .i2f p d a => withPfx p (wordOf 0x5D#8 d a 0x00#8)
  | .f2f p d a => withPfx p (wordOf 0x5E#8 d a 0x00#8)
  | .f2fPk p d a b => withPfx p (wordOf 0x5F#8 d a b)
  | .qnt p d a b => withPfx p (wordOf 0x60#8 d a b)
  | .qntScale p d a => withPfx p (wordOf 0x60#8 d a 0x00#8)
  | .dqnt p d a b => withPfx p (wordOf 0x61#8 d a b)
  | .packn p d a b => withPfx p (wordOf 0x62#8 d a b)
  | .unpackn p d a => withPfx p (wordOf 0x63#8 d a 0x00#8)
  | .xget p d a b => withPfx p (wordOf 0x64#8 d a b)
  | .xput p d a b => withPfx p (wordOf 0x65#8 d a b)
  | .xbcast p d a b => withPfx p (wordOf 0x66#8 d a b)
  | .xquad p d a b => withPfx p (wordOf 0x67#8 d a b)
  | .xred p d a o => withPfx p (wordOf 0x68#8 d a (0#4 ++ o))
  | .xscan p d a o => withPfx p (wordOf 0x69#8 d a (0#4 ++ o))
  | .xscanExcl p d a o => withPfx p (wordOf 0x69#8 d a (1#4 ++ o))
  | .xminloc p d a t => withPfx p (wordOf 0x6A#8 d a (0#6 ++ t))
  | .xmaxloc p d a t => withPfx p (wordOf 0x6B#8 d a (0#6 ++ t))
  | .mlop p f m a b => withPfx p (wordOf 0x6C#8 (0#1 ++ f ++ m) a b)
  | .mpop p d a => withPfx p (wordOf 0x6D#8 d a 0x00#8)
  | .mpopBelow p d a => withPfx p (wordOf 0x6D#8 d a 0x01#8)
  | .mpopBits p d a => withPfx p (wordOf 0x6D#8 d a 0x02#8)
  | .mfirst p d a => withPfx p (wordOf 0x6E#8 d a 0x00#8)
  | .mfirstLast p d a => withPfx p (wordOf 0x6E#8 d a 0x01#8)
  | .mset p d a => withPfx p (wordOf 0x6F#8 (0#5 ++ d) a 0x00#8)
  | .msetNz p d a => withPfx p (wordOf 0x6F#8 (0#5 ++ d) a 0x01#8)
  | .bsr p d a b => withPfx p (wordOf 0x70#8 d a b)
  | .bsinit p b => withPfx p (wordOf 0x71#8 0x00#8 0x00#8 b)
  | .bspos p d => withPfx p (wordOf 0x72#8 d 0x00#8 0x00#8)
  | .bsref p a b => withPfx p (wordOf 0x73#8 0x00#8 a b)
  | .mov p d a => withPfx p (wordOf 0x74#8 d a 0x00#8)
  | .sel p d a b => withPfx p (wordOf 0x75#8 d a b)
  | .movs p d a => withPfx p (wordOf 0x76#8 d a 0x00#8)
  | .movv p d a b => withPfx p (wordOf 0x77#8 d a b)
  | .moviLo p d i => withPfx p (wordOf 0x78#8 d (i.extractLsb' 8 8) (i.extractLsb' 0 8))
  | .moviHi p d i => withPfx p (wordOf 0x79#8 d (i.extractLsb' 8 8) (i.extractLsb' 0 8))
  | .moviSx p d i => withPfx p (wordOf 0x7A#8 d (i.extractLsb' 8 8) (i.extractLsb' 0 8))
  | .moviBf p d i => withPfx p (wordOf 0x7B#8 d (i.extractLsb' 8 8) (i.extractLsb' 0 8))
  | .rallocWait p d n => withPfx p (wordOf 0x7C#8 d 0x00#8 n)
  | .rallocTry p d n => withPfx p (wordOf 0x7D#8 d 0x00#8 n)
  | .rfree p d n => withPfx p (wordOf 0x7E#8 d 0x00#8 n)
  | .rquery p d => withPfx p (wordOf 0x7F#8 d 0x00#8 0x00#8)
  | .ldB p d a b => withPfx p (wordOf 0x80#8 d a b)
  | .ldH p d a b => withPfx p (wordOf 0x81#8 d a b)
  | .ldW p d a b => withPfx p (wordOf 0x82#8 d a b)
  | .ldD p d a b => withPfx p (wordOf 0x83#8 d a b)
  | .ldQ p d a b => withPfx p (wordOf 0x84#8 d a b)
  | .ldBs p d a b => withPfx p (wordOf 0x85#8 d a b)
  | .ldHs p d a b => withPfx p (wordOf 0x86#8 d a b)
  | .ldu p d a b => withPfx p (wordOf 0x87#8 d a b)
  | .lde p d a => withPfx p (wordOf 0x88#8 d a 0x00#8)
  | .pref p a b => withPfx p (wordOf 0x89#8 0x00#8 a b)
  | .prefLlc p a b => withPfx p (wordOf 0x89#8 0x01#8 a b)
  | .ldAcq p d a b => withPfx p (wordOf 0x8A#8 d a b)
  | .ldNt p d a b => withPfx p (wordOf 0x8B#8 d a b)
  | .stB p d a b => withPfx p (wordOf 0x8C#8 d a b)
  | .stH p d a b => withPfx p (wordOf 0x8D#8 d a b)
  | .stW p d a b => withPfx p (wordOf 0x8E#8 d a b)
  | .stD p d a b => withPfx p (wordOf 0x8F#8 d a b)
  | .stQ p d a b => withPfx p (wordOf 0x90#8 d a b)
  | .stn p d a b => withPfx p (wordOf 0x91#8 d a b)
  | .ste p d a => withPfx p (wordOf 0x92#8 d a 0x00#8)
  | .stRel p d a b => withPfx p (wordOf 0x93#8 d a b)
  | .atomAdd p d a b => withPfx p (wordOf 0x94#8 d a b)
  | .atomMin p d a b => withPfx p (wordOf 0x95#8 d a b)
  | .atomMax p d a b => withPfx p (wordOf 0x96#8 d a b)
  | .atomExch p d a b => withPfx p (wordOf 0x97#8 d a b)
  | .atomAnd p d a b => withPfx p (wordOf 0x98#8 d a b)
  | .atomOr p d a b => withPfx p (wordOf 0x99#8 d a b)
  | .atomXor p d a b => withPfx p (wordOf 0x9A#8 d a b)
  | .atomCas p d a b => withPfx p (wordOf 0x9B#8 d a b)
  | .atomFadd p d a b => withPfx p (wordOf 0x9C#8 d a b)
  | .atomFadd2 p d a b => withPfx p (wordOf 0x9D#8 d a b)
  | .atomFmin p d a b => withPfx p (wordOf 0x9E#8 d a b)
  | .atomFmax p d a b => withPfx p (wordOf 0x9F#8 d a b)
  | .ldsH p d a b => withPfx p (wordOf 0xA0#8 d a b)
  | .ldsW p d a b => withPfx p (wordOf 0xA1#8 d a b)
  | .ldsD p d a b => withPfx p (wordOf 0xA2#8 d a b)
  | .ldsQ p d a b => withPfx p (wordOf 0xA3#8 d a b)
  | .stsH p d a b => withPfx p (wordOf 0xA4#8 d a b)
  | .stsW p d a b => withPfx p (wordOf 0xA5#8 d a b)
  | .stsD p d a b => withPfx p (wordOf 0xA6#8 d a b)
  | .stsQ p d a b => withPfx p (wordOf 0xA7#8 d a b)
  | .atomsAdd p d a b => withPfx p (wordOf 0xA8#8 d a b)
  | .atomsExch p d a b => withPfx p (wordOf 0xA9#8 d a b)
  | .atomsCas p d a b => withPfx p (wordOf 0xAA#8 d a b)
  | .atomsFadd p d a b => withPfx p (wordOf 0xAB#8 d a b)
  | .spmap p d a h n => withPfx p (wordOf 0xAC#8 d a (h ++ n))
  | .spunmap p d a n => withPfx p (wordOf 0xAD#8 d a n)
  | .spquery p d a => withPfx p (wordOf 0xAE#8 d a 0x00#8)
  | .sppin p d a n => withPfx p (wordOf 0xAF#8 d a (0#2 ++ n))
  | .sppinUn p d a n => withPfx p (wordOf 0xAF#8 d a (2#2 ++ n))
  | .mpost a b => [wordOf 0xB0#8 0x00#8 a b]
  | .mcfg a b => [wordOf 0xB1#8 0x00#8 a b]
  | .mquery d a => [wordOf 0xB2#8 d a 0x00#8]
  | .mcancel d a b => [wordOf 0xB3#8 d a b]
  | .azero a b => [wordOf 0xB4#8 0x00#8 a b]
  | .ard d a b => [wordOf 0xB5#8 d a b]
  | .awr d a b => [wordOf 0xB6#8 d a b]
  | .ascale d a b => [wordOf 0xB7#8 d a b]
  | .aload d a b => [wordOf 0xB8#8 d a b]
  | .astore d a b => [wordOf 0xB9#8 d a b]
  | .agidx a b => [wordOf 0xBA#8 0x00#8 a b]
  | .cpy d a b => [wordOf 0xBC#8 d a b]
  | .cpy2 d a b => [wordOf 0xBD#8 d a b]
  | .cpyg d a b => [wordOf 0xBE#8 d a b]
  | .cpyx d a b => [wordOf 0xBF#8 d a b]
  | .bar => [wordOf 0xC0#8 0x00#8 0x00#8 0x00#8]
  | .barG => [wordOf 0xC1#8 0x00#8 0x00#8 0x00#8]
  | .bara d => [wordOf 0xC2#8 d 0x00#8 0x00#8]
  | .baraG d => [wordOf 0xC2#8 d 0x00#8 0x01#8]
  | .barw a => [wordOf 0xC3#8 0x00#8 a 0x00#8]
  | .barwG a => [wordOf 0xC3#8 0x00#8 a 0x01#8]
  | .kread d k => [wordOf 0xC4#8 d 0x00#8 (0#4 ++ k)]
  | .kreadClr d k => [wordOf 0xC4#8 d 0x00#8 (1#4 ++ k)]
  | .kadd k i => [wordOf 0xC5#8 (0#4 ++ k) 0x00#8 i]
  | .kbind d k => [wordOf 0xC6#8 d 0x00#8 (0#4 ++ k)]
  | .kbindClose k => [wordOf 0xC6#8 0x00#8 0x00#8 (1#4 ++ k)]
  | .seal => [wordOf 0xC7#8 0x00#8 0x00#8 0x00#8]
  | .fencePeer => [wordOf 0xC8#8 0x00#8 0x00#8 0x00#8]
  | .fenceHost => [wordOf 0xC9#8 0x00#8 0x00#8 0x00#8]
  | .fenceAsyncRel => [wordOf 0xCA#8 0x00#8 0x00#8 0x01#8]
  | .fenceAsyncAcq => [wordOf 0xCA#8 0x00#8 0x00#8 0x02#8]
  | .fenceAsync => [wordOf 0xCA#8 0x00#8 0x00#8 0x03#8]
  | .fenceIo => [wordOf 0xCB#8 0x00#8 0x00#8 0x00#8]
  | .launch d a => [wordOf 0xCC#8 d a 0x00#8]
  | .qpost d a b => [wordOf 0xCD#8 d a b]
  | .qstat d a => [wordOf 0xCE#8 d a 0x00#8]
  | .trap a n => [wordOf 0xD0#8 0x00#8 a n]
  | .tret => [wordOf 0xD1#8 0x00#8 0x00#8 0x00#8]
  | .tretSkip => [wordOf 0xD1#8 0x00#8 0x00#8 0x01#8]
  | .tretTo a => [wordOf 0xD1#8 0x00#8 a 0x02#8]
  | .tretEres => [wordOf 0xD1#8 0x00#8 0x00#8 0x03#8]
  | .tretEabn => [wordOf 0xD1#8 0x00#8 0x00#8 0x04#8]
  | .rdtr d s => [wordOf 0xD2#8 d 0x00#8 s]
  | .rdsr d n => [wordOf 0xD4#8 d 0x00#8 n]
  | .wrsr a n => [wordOf 0xD5#8 0x00#8 a n]
  | .bkpt c => [wordOf 0xD8#8 0x00#8 0x00#8 c]
  | .trace a t => [wordOf 0xD9#8 0x00#8 a t]
  | .mark t => [wordOf 0xDA#8 0x00#8 0x00#8 t]
  | .tlbinvPage a b => [wordOf 0xF4#8 0x00#8 a b]
  | .lpinvPage a b => [wordOf 0xF4#8 0x01#8 a b]
  | .itset a b => [wordOf 0xF4#8 0x02#8 a b]
  | .regen a b => [wordOf 0xF4#8 0x03#8 a b]
  | .errd a b => [wordOf 0xF4#8 0x04#8 a b]
  | .errclr a b => [wordOf 0xF4#8 0x05#8 a b]
  | .psetReq a b => [wordOf 0xF4#8 0x06#8 a b]
  | .ckgo a b => [wordOf 0xF4#8 0x07#8 a b]
  | .ctxsave a b => [wordOf 0xF4#8 0x08#8 a b]
  | .ctxload a b => [wordOf 0xF4#8 0x09#8 a b]
  | .spmigClean a b => [wordOf 0xF4#8 0x0A#8 a b]
  | .qctlCreate a b => [wordOf 0xF4#8 0x0B#8 a b]
  | .unfreeze a => [wordOf 0xF4#8 0x0C#8 a 0x00#8]
  | .hstake a b => [wordOf 0xF4#8 0x0D#8 a b]
  | .rbldChannel a b => [wordOf 0xF4#8 0x0E#8 a b]
  | .scrubPeriod a b => [wordOf 0xF4#8 0x0F#8 a b]
  | .wpset a b => [wordOf 0xF4#8 0x10#8 a b]
  | .bkset a b => [wordOf 0xF4#8 0x11#8 a b]
  | .brl o => [wordOf 0xFF#8 0#8 0#8 0#8, o]
  | .movl p d l => withPfx p (wordOf 0xFC#8 d 0#8 0#8) ++ [l]
  | .addl p d a l => withPfx p (wordOf 0xFD#8 d a 0#8) ++ [l]
  | .andl p d a l => withPfx p (wordOf 0xFE#8 d a 0#8) ++ [l]
  | .coldReset => []
  | .powerStepPins => []
  | .powerFail => []
  | .powerStepSettle => []
  | .telemetryPeriodEnd => []
  | .hotPageMove => []
  | .channelDead => []
  | .rebuildFrame => []
  | .lineWriteback => []
  | .patrolScrubLine => []
  | .rowRetire => []
  | .refresh => []
  | .targetedRefresh => []
  | .phyRecalibration => []
  | .hostLinkRequestFail => []
  | .levantSweep => []
  | .levantSweepArrival => []
  | .levantWriteArrival => []
  | .levantReadRequest => []
  | .levantResponse => []
  | .dieRemoval => []
  | .levantResync => []
  | .etesianRead => []
  | .etesianWrite => []
  | .etesianAtomic => []
  | .etesianReadData => []
  | .etesianCompletion => []
  | .etesianNack => []
  | .wavelengthOutOfService => []
  | .peerReplyTimeout => []
  | .fibreRetrain => []
  | .doorbell => []
  | .qcfgCreate => []
  | .qcfgDestroy => []
  | .qcfgDestroyKill => []
  | .packetFetch => []
  | .launchPacket => []
  | .copyPacket => []
  | .dependencyWaitGe => []
  | .dependencyWaitEq => []
  | .dependencyAtomicAdd => []
  | .dependencyStore => []
  | .dependencyWaitMet => []
  | .powerStepPacket => []
  | .checkpointPacket => []
  | .markerPacket => []
  | .checkpointComplete => []
  | .packetComplete => []
  | .admissionRound => []
  | .diePlacement => []
  | .gangBlocking => []
  | .groupRetire => []
  | .launchComplete => []
  | .regenTimeout => []
  | .clauseHeader => []
  | .urgentRecompute => []
  | .spinLowerExpire => []
  | .sleepExpire => []
  | .yieldExpire => []
  | .rendezvousBudgetExpire => []
  | .rallocGrant => []
  | .allocationDeadlock => []
  | .countedLoadComplete => []
  | .storePerformed => []
  | .spFillDone => []
  | .spWritebackDone => []
  | .scratchpadExhaustion => []
  | .copyTransferStart => []
  | .copyTransferComplete => []
  | .engineWriteGlobalPlace => []
  | .walkerAccept => []
  | .walkerIssueNode => []
  | .nodeCommit => []
  | .nodeComplete => []
  | .tileTransferComplete => []
  | .holdTimeout => []
  | .serviceTimeout => []
  | .hotSpareTakeover => []
  | .takeoverStopTimeout => []
  | .ctxsaveStopTimeout => []
  | .cloneReplay => []
  | .watchImpreciseReport => []
  | .traceRecordWrite => []
  | .traceSample => []
  | .attestationReportReady => []
  | .diestatPartlo => []
  | .diestatParthi => []
  | .frzcmd => []
  | .ctxcmdKillAll => []
  | .ctxcmdKillHeld => []
  | .ctxcmdRelease => []
  | .gsave => []
  | .gsaveReplace => []
  | .gload => []
  | .errclrh => []
  | .attnonce => []
  | .dbgctlResumeDiscard => []
  | .dbgctlResumeDeliver => []
  | .controlRegisterWrite => []
  | .smbusArpAssign => []
  | .setEndpointId => []
  | .getEndpointId => []
  | .getMctpVersionSupport => []
  | .getMessageTypeSupport => []
  | .getVendorDefinedMessageSupport => []
  | .readPowerStatus => []
  | .setPortStepRequest => []
  | .readErrorBank => []
  | .startAttestationReport => []
  | .readAttestationReport => []
  | .readIdentityWindow => []
  | .tlbinvContext => []
  | .tlbinvPartition => []
  | .lpinvContext => []
  | .lpinvPartition => []
  | .pset => []
  | .ctxsaveReplace => []
  | .spmigEvict => []
  | .qctlDestroy => []
  | .qctlDestroyKill => []
  | .rbldStack => []
  | .rbldRate => []
  | .rbldPause => []
  | .rbldResume => []
  | .scrubFrame => []
  | .scrubRetire => []
  | .scrubThresh => []
  | .trcfgStart => []
  | .trcfgBins => []
  | .trcfgClear => []
  | .trcfgStop => []
  | .capctlOff => []
  | .capctlCapture => []
  | .capctlReplay => []
  | .illegalEncoding => []
  | .hostLinkCompletion => []
  | .inboundHostWrite => []
  | .lossOfCx => []
  | .functionReset => []
  | .msixEntryUnmask => []

/-- The bytes of a word as code memory holds it, little-endian (R18). -/
def wordBytes (w : Word) : List Byte := [byteB w, byteA w, byteD w, byteOp w]

/-- Whether a row has words of its own to encode. -/
def Instr.isWord : Instr → Bool
  | .coldReset .. => false
  | .powerStepPins .. => false
  | .powerFail .. => false
  | .powerStepSettle .. => false
  | .telemetryPeriodEnd .. => false
  | .hotPageMove .. => false
  | .channelDead .. => false
  | .rebuildFrame .. => false
  | .lineWriteback .. => false
  | .patrolScrubLine .. => false
  | .rowRetire .. => false
  | .refresh .. => false
  | .targetedRefresh .. => false
  | .phyRecalibration .. => false
  | .hostLinkRequestFail .. => false
  | .levantSweep .. => false
  | .levantSweepArrival .. => false
  | .levantWriteArrival .. => false
  | .levantReadRequest .. => false
  | .levantResponse .. => false
  | .dieRemoval .. => false
  | .levantResync .. => false
  | .etesianRead .. => false
  | .etesianWrite .. => false
  | .etesianAtomic .. => false
  | .etesianReadData .. => false
  | .etesianCompletion .. => false
  | .etesianNack .. => false
  | .wavelengthOutOfService .. => false
  | .peerReplyTimeout .. => false
  | .fibreRetrain .. => false
  | .doorbell .. => false
  | .qcfgCreate .. => false
  | .qcfgDestroy .. => false
  | .qcfgDestroyKill .. => false
  | .packetFetch .. => false
  | .launchPacket .. => false
  | .copyPacket .. => false
  | .dependencyWaitGe .. => false
  | .dependencyWaitEq .. => false
  | .dependencyAtomicAdd .. => false
  | .dependencyStore .. => false
  | .dependencyWaitMet .. => false
  | .powerStepPacket .. => false
  | .checkpointPacket .. => false
  | .markerPacket .. => false
  | .checkpointComplete .. => false
  | .packetComplete .. => false
  | .admissionRound .. => false
  | .diePlacement .. => false
  | .gangBlocking .. => false
  | .groupRetire .. => false
  | .launchComplete .. => false
  | .regenTimeout .. => false
  | .clauseHeader .. => false
  | .urgentRecompute .. => false
  | .spinLowerExpire .. => false
  | .sleepExpire .. => false
  | .yieldExpire .. => false
  | .rendezvousBudgetExpire .. => false
  | .rallocGrant .. => false
  | .allocationDeadlock .. => false
  | .countedLoadComplete .. => false
  | .storePerformed .. => false
  | .spFillDone .. => false
  | .spWritebackDone .. => false
  | .scratchpadExhaustion .. => false
  | .copyTransferStart .. => false
  | .copyTransferComplete .. => false
  | .engineWriteGlobalPlace .. => false
  | .walkerAccept .. => false
  | .walkerIssueNode .. => false
  | .nodeCommit .. => false
  | .nodeComplete .. => false
  | .tileTransferComplete .. => false
  | .holdTimeout .. => false
  | .serviceTimeout .. => false
  | .hotSpareTakeover .. => false
  | .takeoverStopTimeout .. => false
  | .ctxsaveStopTimeout .. => false
  | .cloneReplay .. => false
  | .watchImpreciseReport .. => false
  | .traceRecordWrite .. => false
  | .traceSample .. => false
  | .attestationReportReady .. => false
  | .diestatPartlo .. => false
  | .diestatParthi .. => false
  | .frzcmd .. => false
  | .ctxcmdKillAll .. => false
  | .ctxcmdKillHeld .. => false
  | .ctxcmdRelease .. => false
  | .gsave .. => false
  | .gsaveReplace .. => false
  | .gload .. => false
  | .errclrh .. => false
  | .attnonce .. => false
  | .dbgctlResumeDiscard .. => false
  | .dbgctlResumeDeliver .. => false
  | .controlRegisterWrite .. => false
  | .smbusArpAssign .. => false
  | .setEndpointId .. => false
  | .getEndpointId .. => false
  | .getMctpVersionSupport .. => false
  | .getMessageTypeSupport .. => false
  | .getVendorDefinedMessageSupport .. => false
  | .readPowerStatus .. => false
  | .setPortStepRequest .. => false
  | .readErrorBank .. => false
  | .startAttestationReport .. => false
  | .readAttestationReport .. => false
  | .readIdentityWindow .. => false
  | .tlbinvContext .. => false
  | .tlbinvPartition .. => false
  | .lpinvContext .. => false
  | .lpinvPartition .. => false
  | .pset .. => false
  | .ctxsaveReplace .. => false
  | .spmigEvict .. => false
  | .qctlDestroy .. => false
  | .qctlDestroyKill .. => false
  | .rbldStack .. => false
  | .rbldRate .. => false
  | .rbldPause .. => false
  | .rbldResume .. => false
  | .scrubFrame .. => false
  | .scrubRetire .. => false
  | .scrubThresh .. => false
  | .trcfgStart .. => false
  | .trcfgBins .. => false
  | .trcfgClear .. => false
  | .trcfgStop .. => false
  | .capctlOff .. => false
  | .capctlCapture .. => false
  | .capctlReplay .. => false
  | .illegalEncoding .. => false
  | .hostLinkCompletion .. => false
  | .inboundHostWrite .. => false
  | .lossOfCx .. => false
  | .functionReset .. => false
  | .msixEntryUnmask .. => false
  | _ => true

/-- The code words that a table word of `nbits` bits stands for: bit 0 is the least significant bit of the first word, and
every bit above `nbits` is 0. A unit is at most three words long. -/
def tableWords (nbits w : Nat) : List Word :=
  let v := w % 2 ^ nbits
  [BitVec.ofNat 32 v, BitVec.ofNat 32 (v / 2 ^ 32), BitVec.ofNat 32 (v / 2 ^ 64)]

/-- The instruction that the decoder reads from a table word; none where it refuses. -/
def decodeTableWord (nbits w : Nat) : Option Instr :=
  match decode (tableWords nbits w) with
  | .ok (i, _) => some i
  | .error _ => none

end Sys2Proof
end

