-- ==== Sys2Proof/Config.lean ====
section
/-!
DEFINITION. What the manual leaves to the package or leaves open. Each value here is opaque: nothing can evaluate it, so a
statement that is proved holds whatever it is. A numbered draw takes the model's own counter `State.tick`.
-/
namespace Sys2Proof.Config

/-- Whether something that the manual leaves open happens at this draw (R27, R37, R332, R349). -/
opaque freeBool : Nat → Bool

/-- Which of several allowed choices is taken at this draw, used modulo their count (R37, R325, R332, R349). -/
opaque freeChoice : Nat → Nat

/-- Nominal clocks that the step takes, beyond the one that it always takes (R62, R162). -/
opaque clocksTaken : Nat → Nat

/-- Where firmware places symbol position `pos` of MA frame `frame` at cold reset: channel and region (R288). -/
opaque layout : Nat → Nat → Nat × Nat

/-- The bank and row (bank × 2^24 + row) that hold 16 bytes of a channel, by channel and channel address ÷ 16 (R289, R302). -/
opaque rowOf : Nat → Nat → Nat

/-- The fixed result that the special function unit gives for an FP32 operand where R137 and R138 state only an accuracy; the
model takes it where it lies within that accuracy. -/
opaque rsq : Word → Word
opaque tanh : Word → Word
opaque ex2 : Word → Word
opaque lg2 : Word → Word
opaque sin : Word → Word
opaque cos : Word → Word

/-- The hash of a destination device and a 128-byte line that picks a flit's wavelength (R374). -/
opaque waveHash : Nat → Nat → Nat

/-- The KIND code of a capture entry, by the place of its source in the list of R469. -/
opaque captureKind : Nat → Nat

/-- The SHAKE256 digest of bytes, 64 bytes long in every image of the manual (R451, R453, R458). -/
opaque digest : List Byte → List Byte

/-- The device's Ed448 signature over bytes, 114 bytes long (R453, R458). -/
opaque signature : List Byte → List Byte

/-- The package's serial number, 16 bytes (R458). -/
opaque serial : List Byte

/-- The public key and certificate window at 0x0082_1000 (R458). -/
opaque identityWindow : List Byte

/-- VENDOR of IDCFG, fused at manufacture (R458). -/
opaque vendor : BitVec 32

/-- The bytes of the boot and runtime images in board flash (R457, R458). -/
opaque bootImage : List Byte
opaque runtimeImage : List Byte

end Sys2Proof.Config
end

