-- ==== Sys2Proof/Machine/Table.lean ====
section
/-!
DEFINITION. The sparse table in one canonical form, the bytes and words of a memory built over it, and lists of bytes as
little-endian numbers.
-/
namespace Sys2Proof

/-! ### Sparse tables -/

/-- The entry listed at a key. -/
def tfind {α : Type} : Table α → Nat → Option α
  | [], _ => none
  | (j, v) :: t, k => if j = k then some v else tfind t k

/-- List an entry, in place of one at the same key, keeping keys rising. -/
def tput {α : Type} : Table α → Nat → α → Table α
  | [], k, x => [(k, x)]
  | (j, v) :: t, k, x => if j = k then (k, x) :: t else if k < j then (k, x) :: (j, v) :: t else (j, v) :: tput t k x

/-- Remove the entry at a key. -/
def tdel {α : Type} : Table α → Nat → Table α
  | [], _ => []
  | (j, v) :: t, k => if j = k then tdel t k else (j, v) :: tdel t k

/-- What a key reads as, where an unlisted key reads as `d`. -/
def tget {α : Type} (d : α) (t : Table α) (k : Nat) : α := (tfind t k).getD d

/-- Write a key: the value that an unlisted key reads as is not listed. -/
def tset {α : Type} [DecidableEq α] (d : α) (t : Table α) (k : Nat) (x : α) : Table α :=
  if x = d then tdel t k else tput t k x

/-- Change a listed entry. -/
def tmod {α : Type} (t : Table α) (k : Nat) (f : α → α) : Table α :=
  match tfind t k with
  | none => t
  | some x => tput t k (f x)

/-- Keys strictly rise from above `lo`, and no entry is what an unlisted key reads as. -/
def twfFrom {α : Type} [DecidableEq α] (d : α) (lo : Nat) : Table α → Bool
  | [] => true
  | (k, x) :: t => decide (lo ≤ k) && decide (x ≠ d) && twfFrom d (k + 1) t

/-- The canonical form of a table. -/
def twf {α : Type} [DecidableEq α] (d : α) (t : Table α) : Bool := twfFrom d 0 t

/-- The least key that no entry from `lo` on uses. -/
def tfree {α : Type} (lo : Nat) : Table α → Nat
  | [] => lo
  | (k, _) :: t => if k < lo then tfree lo t else if k = lo then tfree (lo + 1) t else lo

/-! ### Bytes -/

/-- The unsigned integer whose bytes these are, least significant first (R18). -/
def leNat : List Byte → Nat
  | [] => 0
  | b :: bs => b.toNat + 256 * leNat bs

/-- The `n` low bytes of an integer, least significant first. -/
def leBytes : Nat → Nat → List Byte
  | 0, _ => []
  | n + 1, x => BitVec.ofNat 8 x :: leBytes n (x / 256)

/-- The `n` bytes from an address on, of a table of bytes. -/
def readBytes (t : Table Byte) (addr : Nat) : Nat → List Byte
  | 0 => []
  | n + 1 => tget 0 t addr :: readBytes t (addr + 1) n

/-- Store bytes from an address on. -/
def writeBytes (t : Table Byte) (addr : Nat) : List Byte → Table Byte
  | [] => t
  | b :: bs => writeBytes (tset 0 t addr b) (addr + 1) bs

/-- The bytes `lo` to `lo + n - 1` of a list, as an unsigned integer. -/
def field (bs : List Byte) (lo n : Nat) : Nat := leNat ((bs.drop lo).take n)

/-! ### Bits of masks -/

/-- Bit ℓ of a mask of lanes. -/
def lane (m : Dword) (l : Nat) : Bool := m.getLsbD l

/-- The mask with the bits of lanes below `w`. -/
def below (w : Nat) : Dword := BitVec.ofNat 64 (2 ^ w - 1)

/-- The lanes of a mask, rising. -/
def lanesOf (m : Dword) : List Nat := (List.range 64).filter (lane m)

/-- The lowest lane of a mask, 64 for none. -/
def lowest (m : Dword) : Nat := ((lanesOf m).head?).getD 64

/-- The mask of one lane. -/
def laneBit (l : Nat) : Dword := BitVec.ofNat 64 (2 ^ l)

/-- The mask of the lanes at which a predicate holds. -/
def maskOf (p : Nat → Bool) : Dword :=
  (List.range 64).foldl (fun m l => if p l then m ||| laneBit l else m) 0

/-- Insert into a rising list without repeats. -/
def insertNat (x : Nat) : List Nat → List Nat
  | [] => [x]
  | y :: ys => if x = y then y :: ys else if x < y then x :: y :: ys else y :: insertNat x ys

def removeNat (x : Nat) (ys : List Nat) : List Nat := ys.filter (fun y => y != x)

/-- Replace the element at a place. -/
def setAt {α : Type} (xs : List α) (i : Nat) (x : α) : List α := xs.set i x

end Sys2Proof
end

