-- ==== Sys2Proof/Machine/State.lean ====
section
/-!
DEFINITION. The state of the package: everything the manual gives the machine, as plain data, and its value after reset.
Registers and control fields keep the manual's names. Where the manual gives no reset value, the value named here is a
row of the assumption log.
-/
namespace Sys2Proof.Machine

open Sys2Proof

/-! ### Fragments, holds and threads -/

/-- The clause that a fragment stands inside: the address of its header and the header word (R18, R19). -/
structure Clause where
  head : Nat
  word : Word
deriving DecidableEq, Repr, Inhabited

/-- The words of a unit and its operands, as read when it issued (R27): the group's registers, scalars and masks, and %round (R98). -/
structure Operands where
  words : List Word
  v     : Table Word
  s     : Table Dword
  m     : Table Dword
  round : Dword
deriving DecidableEq, Repr, Inhabited

/-- What a fragment waits for before its next word, or its present word, may go on (R58). -/
inductive Hold where
  /-- It waits for nothing. -/
  | ready
  /-- The header's WAIT, for the counters of its mask (R26). -/
  | clauseWait (counters : Nat)
  /-- WAITLT k, n (R68). -/
  | waitlt (k n : Nat)
  /-- SLEEP, until between the two clocks (R69). -/
  | sleep (least most : Nat)
  /-- A rendezvous instance at the address (R65). -/
  | rendezvous (addr : Nat)
  /-- BAR of team or gang scope: arrived at the instance, or waiting to arrive at the next (R236). -/
  | bar (gangScope arrived : Bool)
  /-- BARW for generation `g` (R236). -/
  | barw (gangScope : Bool) (g : Nat)
  /-- RALLOC.wait of `n` blocks, into scalar `d`, by a unit of so many words (R158). -/
  | ralloc (n d words : Nat)
  /-- RFREE of `n` blocks, for counted loads into them (R157). -/
  | rfree (n : Nat)
  /-- KADD, or a counted issue, that would take counter `k` above 255 (R216). -/
  | kadd (k : Nat)
  /-- KBIND.close of counter `k` (R218). -/
  | kbindClose (k : Nat)
  /-- A fence (R359), for accesses of peer scope and of host scope and for condition 1 of R358. -/
  | fence (peer host batches : Bool)
  /-- ST.rel, for the conditions of R358: its Active lanes, and those of peer (true) and host scope. -/
  | release (act : Dword) (scopes : List (Nat × Bool))
  /-- A scratchpad page in service (R193), at the SVA. -/
  | page (sva : Nat)
  /-- A resident page, at the SVA, whose table entry has still to be read (R189), and which SPMAP then counts (R207). -/
  | pageKept (sva : Nat)
  /-- A frame that cannot be taken (R192), for the access at the SVA, since the clock. -/
  | noFrame (sva since : Nat)
  /-- A spill forwarding entry (R196). -/
  | spill
  /-- A regeneration service of a DPA frame (R339). -/
  | regen (frame : Nat)
  /-- A line of host memory that the LLC does not hold (R287). -/
  | hostLine (line : Nat)
  /-- An operation through an aperture that is not counted, or an acquire, or one that a peer may still refuse at its word, of so
  many words, until its replies (R347, R352, R357, R375). -/
  | scoped (op words : Nat)
  /-- A unit that does not accept work: queue room (R220, R225). -/
  | unit
  /-- A word of a system or engine unit that holds its fragment until it is done (R269, R271, R333, R423, R449, R455). -/
  | word
  /-- PSET with REQ = 1, which writes scalar `d` and goes on past a unit of so many words at the first settled moment (R444, R449). -/
  | power (d words : Nat)
  /-- Bytes behind an aperture that the package reads for the fragment itself (R352). -/
  | bytes
  /-- MCFG or MCANCEL, which reached the walker at the value of `State.tick` (R269, R271). -/
  | walker (stamp : Nat)
  /-- The claim of an atile, after so many atiles of the word (R262, R274). -/
  | claim (atiles : Nat)
  /-- The read of the vector of a trap that the fragment, or its gang, has met (R408). -/
  | vector
  /-- Stopped at a safe point (R416). -/
  | stopped
  /-- Stopped at the word by a freeze of its context (R404). -/
  | frozen
  /-- Between two lanes of its word, whose accesses are placed one by one (R344), with %pix as it was before the word and the word and
  its operands as it issued (R27). -/
  | between (pix : Nat) (kept : Operands)
deriving DecidableEq, Repr, Inhabited

/-- A fragment: live threads of one group that share one PC (R55). -/
structure Frag where
  lanes   : Dword
  pc      : Nat
  clause  : Option Clause
  hold    : Hold
  /-- The clock at which the state that the hold tests last changed (R415), and that state. -/
  since   : Nat
  probe   : List Nat
  /-- %pix (R417), and whether the next word resumes from it (R418). -/
  pix     : Nat
  resumed : Bool
  /-- Lowest Active lane at the first issue of the resumed word, or `unperformed` where that issue performed nothing, and the counted
  operation that it belongs to (R418). -/
  first   : Nat
  op      : Option Nat
  /-- The clock of its last issue, or at which it became ready (R59). -/
  age     : Nat
  /-- The clock until which YIELD keeps it from issuing while another fragment of its quarter is ready; 0 for none (R69). -/
  rest    : Nat
deriving DecidableEq, Repr, Inhabited

/-- A rendezvous instance (R64): its row with its word count, its address, the named mask as it stood when the instance
opened, the member set, the arrived set, the arrivals that were Active
with their operands as read (R171), each lane's %round as its word issued (R98), and the clock of the last progress by an awaited
member (R65). -/
structure Rendezvous where
  row      : Instr
  words    : Nat
  addr     : Nat
  named    : Dword
  members  : Dword
  arrived  : Dword
  active   : Dword
  opA      : List (Nat × Dword)
  opB      : List (Nat × Dword)
  rounds   : List (Nat × Dword)
  since    : Nat
deriving DecidableEq, Repr

/-- The spin detection of a fragment, by its lowest lane (R61): the backward branch, its takings in a row, whether nothing has
changed since the last of them (a load that returns another value changes its register), the counters at that taking, the
clock at which the fragment was lowered, the branch's target, whether the fragment has been lowered in this loop and changed
nothing since (R65), and what its loads to scalars last returned, by PC and lane. -/
structure Spin where
  lane     : Nat
  branch   : Nat
  takings  : Nat
  quiet    : Bool
  counters : List Nat
  lowered  : Option Nat
  target   : Nat
  known    : Bool
  seen     : List (Nat × Nat × Dword)
deriving DecidableEq, Repr, Inhabited

/-- A completion counter (R214): its value, error flag and bound mark, and the counted operations on it in issue order with
whether each one's event has happened (R215), and the operations most recently issued on it, newest first. -/
structure Counter where
  val   : Nat
  err   : Bool
  bound : Bool
  queue : List (Nat × Bool)
  recent : List Nat
deriving DecidableEq, Repr, Inhabited

/-- The trap registers of a group or a gang (R422). -/
structure TrapRegs where
  tclass : Dword
  tword  : Dword
  tpos   : Dword
  tpix   : Dword
  tinfo0 : Dword
  tinfo1 : Dword
  tlanes : Dword
  tsrc   : Dword
deriving DecidableEq, Repr, Inhabited

/-- Trap mode at a rung (R409, R411): the class, the handler fragment, where it was taken and how it resumes, whether it was
reported at a header, how many words the trapped unit has, the transfer number or ring slot of an engine fault, the
clock at which the handler was entered (R414), and, for a trap that no word raised, the fragments that became the handler. -/
structure TrapMode where
  cls      : Nat
  lanes    : Dword
  pc       : Nat
  clause   : Option Clause
  pix      : Nat
  first    : Nat
  op       : Option Nat
  atHeader : Bool
  words    : Nat
  engine   : Option Nat
  entered  : Nat
  saved    : List Frag
deriving DecidableEq, Repr, Inhabited

/-- A trap that waits in a pending set, or at the context rung: its class and info, its rung of first delivery, the engine work it
names, and, for a breakpoint, the threads of the fragment that takes it, with the header where it does (R461, R465). -/
structure Pending where
  cls    : Nat
  info0  : Dword
  info1  : Dword
  rung   : Nat
  engine : Option Nat
  place  : Option (Dword × Option Nat)
deriving DecidableEq, Repr, Inhabited

/-- What a trap carries: its class and info, the progress index, whether it is reported at a header, whether it is an async
class taken there, the engine work it names, its rung of first delivery, and whether a word raised it (R411). -/
structure Trap where
  cls      : Nat
  info0    : Dword := 0
  info1    : Dword := 0
  pix      : Nat := 0
  atHeader : Bool := false
  engine   : Option Nat := none
  rung     : Nat := 0
  /-- Taken by a stop at a safe point (R42). -/
  safe     : Bool := false
  byWord   : Bool := true
deriving DecidableEq, Repr, Inhabited

/-- Why an access does not go through. -/
inductive XBad where
  /-- A check of R327 fails, with its cause. -/
  | cause (n : Nat)
  /-- Check 10: a dropped frame, and whether the leaf permits its regeneration. -/
  | dropped (frame : Nat) (rg : Bool)
  /-- A poisoned sector of a table (R293). -/
  | poison (addr : Nat)
  /-- A tier X line that the LLC does not hold yet (R287). -/
  | wait (line : Nat)
  /-- Bytes behind an aperture that have not come back yet: device, or the host, address and count (R352). -/
  | ask (peer : Option Nat) (addr n : Nat)
deriving DecidableEq, Repr, Inhabited

/-- A trap whose vector cannot be read yet (R408): the gang, the group and lanes of the fragment that raised it with the words of its
unit, none for a trap of no word, and why the read at the VA does not go through; none while acquires of the threads that are to run the
handler have not returned (R357). -/
structure Due where
  gang  : Nat
  key   : Option Nat
  lanes : Dword
  words : Nat
  trap  : Trap
  why   : Option XBad
  va    : Nat
deriving DecidableEq, Repr, Inhabited

/-- The batches of a thread (R231, R232): the transfers of its open batch and sealed set, and those covered for it. -/
structure Batch where
  opened  : List Nat
  sealed  : List Nat
  covered : List Nat
deriving DecidableEq, Repr, Inhabited

/-- Where a unit of memory lies: a byte address of device memory's MA space, or of a gang's scratchpad. -/
inductive Loc where
  | ma (addr : Nat)
  /-- A unit of device memory by its DPA: what a frame held before ITSET re-pointed it (R332, R337). -/
  | dpa (addr : Nat)
  | sva (gang addr : Nat)
  | reg (group lane reg : Nat)
  | atile (core addr : Nat)
  | frame (core addr : Nat)
deriving DecidableEq, Repr, Inhabited

/-- Bytes of a 16-byte unit that a thread has loaded, and the place of the last such load (R349). -/
structure Look where
  loc   : Loc
  mask  : BitVec 16
  place : Nat
deriving DecidableEq, Repr, Inhabited

/-- A thread's places in the order of accesses that anchor engine reads (R349): its last write, its last acquire, and its loads since
either. -/
structure Anchor where
  write   : Nat
  acquire : Nat
  looks   : List Look
deriving DecidableEq, Repr, Inhabited

/-- The anchor of an engine's reads (R349): a place that all of them come after, and places that the reads of single bytes come after;
for the walker's reads, which are loads of the posting threads, the transfers that those had waited for (R232, R240, R258). -/
structure Since where
  place  : Nat
  looks  : List Look
  covers : List Nat
deriving DecidableEq, Repr, Inhabited

/-- A store that waits in a spill forwarding entry (R196): the thread's lane, the SVA, the bytes, its place in the access order
and the store operation that counts it. The stores of one thread to one 16-byte unit share an entry. -/
structure Spill where
  lane  : Nat
  sva   : Nat
  bytes : List Byte
  stamp : Nat
  op    : Option Nat
deriving DecidableEq, Repr, Inhabited

/-- A group in a group slot (R52, R55, R160). -/
structure Group where
  gang     : Nat
  team     : Nat
  gid      : Nat
  width    : Nat
  quarter  : Nat
  base     : Nat
  created  : Dword
  exited   : Dword
  frags    : List Frag
  /-- h and REGS (R154, R155). -/
  held     : Nat
  regs     : Nat
  /-- v0-v191 of every lane at `64 × register + lane`, s0-s63, m1-m7 (R31, R160). -/
  v        : Table Word
  s        : Table Dword
  m        : Table Dword
  counters : List Counter
  round    : Dword
  /-- Return stacks, newest first (R71); %bcur (R177); the generator state (R99); %safe (R162), each by lane. -/
  rstack   : Table (List Nat)
  bcur     : Table Dword
  rng      : Table Word
  safe     : Table Word
  arrTeam  : Dword
  arrGang  : Dword
  regsTrap : TrapRegs
  mode     : Option TrapMode
  pending  : List Pending
  rdv      : List Rendezvous
  batches  : Table Batch
  anchors  : Table Anchor
  spills   : List Spill
  spins    : List Spin
  /-- Words issued since the current barrier generation (R60). -/
  issued   : Nat
  /-- Threads whose host-scope stores are sent with ordering set, since a FENCE.host or FENCE.io (R356). -/
  fenced   : Dword
  /-- Whether a stop has been asked for (R416); entries of the capture log that each thread has taken in replay (R470). -/
  stopping : Bool
  capPos   : Table Nat
deriving DecidableEq, Repr, Inhabited

/-! ### Gangs, teams, launches -/

/-- A slot of a task ring as the walker keeps it (R241): state 0 empty, 1 waiting, 2 ready, 3 issued; phase 0 none,
1 gather, 2 accumulate, 3 parked (R270); r, h; the record copy; the error status; the order of acceptance; the group that
posted it and the lanes that posted it; the MPOST's counter; the transfer of a copy node; the copied index entries (R252);
what the gather latched (R257); its anchor, and the places of the last predecessor, and of the last copy predecessor, that completed
before the node was accepted (R258, R349). -/
structure Slot where
  state   : Nat
  phase   : Nat
  r       : Int
  h       : Nat
  record  : List Byte
  err     : Bool
  order   : Nat
  poster  : Nat
  lanes   : Dword
  pending : Nat
  engine  : Option Nat
  trans   : Option Nat
  index   : List Word
  latch   : List Word
  anchor  : Since
  early   : Nat
  copied  : Nat
  /-- Parked by a freeze, with no trap (R260). -/
  thaw    : Bool
  /-- The SVA for which no frame can be taken, with the clock since which it waits for one (R192). -/
  starved : Option (Nat × Nat)
deriving DecidableEq, Repr, Inhabited

/-- An MPOST in progress (R240): operation, next slot, records left, and who issued it. -/
structure Post where
  op     : Option Nat
  slot   : Nat
  left   : Nat
  group  : Nat
  gid    : Nat
  lanes  : Dword
  setb   : Nat
  anchor : Since
  /-- `State.tick` and the place in the access order at its issue. -/
  stamp  : Nat
  place  : Nat
  /-- The SVA for which no frame can be taken, with the clock since which it waits for one (R192). -/
  starved : Option (Nat × Nat) := none
deriving DecidableEq, Repr, Inhabited

/-- A barrier record (R234). -/
structure Barrier where
  gen    : BitVec 32
  acount : Nat
  amask  : Dword
deriving DecidableEq, Repr, Inhabited

/-- A team: its ring (R238, R269), its run of atiles (R246), its index buffers (R278) and its barrier. -/
structure Team where
  ringBase : Nat
  ringLog  : Nat
  slots    : Table Slot
  posts    : List Post
  accepted : Nat
  atiles   : Nat
  acc      : Nat
  index    : Table Word
  barrier  : Barrier
  urgent   : Option Nat
  /-- The clock at which the urgent group was last marked, in steps of 256 from the start of the barrier generation (R60). -/
  marked   : Option Nat
deriving DecidableEq, Repr, Inhabited

/-- A fill of a scratchpad page in service (R193): the page, its home member, the frame taken, or the victim page (its gang and
number) whose write-back it waits for (R191). -/
structure Fill where
  page   : Nat
  home   : Nat
  frame  : Option Nat
  victim : Option (Nat × Nat)
deriving DecidableEq, Repr, Inhabited

/-- A debug halt (R464): the group that met it, none at the gang rung, a lane of the fragment that stopped, the trap, the trap registers
as its delivery would write them, whether every group has stopped and the host been told, and the clock of that. -/
structure Halt where
  key   : Option Nat
  lane  : Nat
  trap  : Pending
  regs  : TrapRegs
  told  : Bool
  since : Nat
deriving DecidableEq, Repr, Inhabited

/-- A resident gang. -/
structure Gang where
  launch   : Nat
  index    : Nat
  cores    : List Nat
  teams    : List Team
  barrier  : Barrier
  /-- Frames reserved on each member (R190). -/
  reserved : List Nat
  /-- Scratchpad table entries as the gang's cores hold them (R187, R189), fills in service, pages that are being written back,
  and pages written since they were zero (R186, R194). -/
  pages    : Table Dword
  fills    : List Fill
  leaving  : List Nat
  written  : List Nat
  /-- Pages whose fill has failed, with the VA that failed (R188); pinned pages that a restored gang has still to be given before any of
  its groups issues (R198). -/
  failed   : Table Nat
  pinning  : List Nat
  regsTrap : TrapRegs
  mode     : Option TrapMode
  /-- The group, as a slot key, that holds the gang's handler fragment. -/
  handler  : Option Nat
  /-- Class, and info, that waits at the context rung (R412). -/
  climbed  : Option Pending
  halted   : Option Halt
  /-- The clock since which every group waits in RALLOC.wait (R159); the entries written to the capture log and whether it is
  full (R469). -/
  deadlock : Option Nat
  capNext  : Nat
  capFull  : Bool
deriving DecidableEq, Repr, Inhabited

/-- An accepted launch (R384): the record as retained, its source, and how far it has come. -/
structure Launch where
  record   : List Byte
  ctx      : Nat
  part     : Nat
  seq      : Nat
  queue    : Nat
  packet   : Nat
  regenOf  : List Nat
  admitted : Bool
  order    : Nat
  /-- Unplaced gang indices with the clock since which each waits, saved gangs with their slots, gangs that are to be taken
  first (R424, R431), relaunch counts. -/
  unplaced : List (Nat × Nat)
  saved    : List (Nat × Nat)
  urgent   : List Nat
  again    : Table Nat
  blocking : List Nat
  dieOf    : List (Nat × Nat × Nat)
  done     : Nat
  killed   : Bool
  destroyed : Bool
  stamp    : Nat
deriving DecidableEq, Repr, Inhabited

/-- A queue (R379). -/
structure Queue where
  state  : Nat
  ctx    : Byte
  log2n  : Nat
  weight : Nat
  privok : Bool
  head   : BitVec 32
  tail   : BitVec 32
  rbase  : BitVec 56
  wait   : Nat
  /-- Destroy was asked for with kill (R399). -/
  kill   : Bool
deriving DecidableEq, Repr, Inhabited

/-- A packet that has been fetched and not completed (R383): its queue, count, journal entry, bytes, whether it has started,
its status, the transfer or launch that it runs, and whether a fault of its own has stopped it until its queue is released. -/
structure Packet where
  queue   : Nat
  count   : BitVec 32
  part    : Nat
  seq     : Nat
  bytes   : List Byte
  started : Bool
  status  : Option Nat
  work    : Option Nat
  stopped : Bool
deriving DecidableEq, Repr, Inhabited

/-- A journal (R401, R402): the next sequence and the entries by slot, 32 bytes each. -/
structure Journal where
  nextSeq : Nat
  entries : Table (List Byte)
deriving DecidableEq, Repr, Inhabited

/-- What the package keeps for a context beside its record in memory (R404, R412, R464, R469). `more` holds, for the traps of other
gangs that wait at its rung behind the one that PEND tells of, class, gang index and gang. -/
structure Ctx where
  frozen   : Bool
  pend     : Bool
  cls      : Nat
  gang     : Nat
  held     : Option Nat
  more     : List (Nat × Nat × Nat)
  attach   : Bool
  halted   : Option Nat
  capMode  : Nat
  capBase  : Nat
  capBytes : Nat
deriving DecidableEq, Repr, Inhabited

/-- A regeneration service in progress (R339): its frame and faulting VA, the queue and count of the slot that its launch was posted in,
and the launch that has been taken from there. -/
structure Regen where
  frame  : Nat
  va     : Nat
  posted : Option (Nat × BitVec 32)
  launch : Option Nat
  since  : Nat
  depth  : Nat
  failed : Bool
deriving DecidableEq, Repr, Inhabited

/-- An access of the device for a gang has met a dropped frame through a leaf with RG = 1 (R339): the frame, the VA, the partition, and the
frames that the agent's launch regenerates. -/
structure RegenAsk where
  frame  : Nat
  va     : Nat
  part   : Nat
  passes : List Nat
deriving DecidableEq, Repr, Inhabited

/-! ### Operations in flight -/

/-- A register write that a counted load still owes (R27): group, lane, register, value, and a lane of the fragment that
issued it (R61). A scalar has lane 64. -/
structure Owed where
  group : Nat
  lane  : Nat
  reg   : Nat
  value : Dword
  who   : Nat
deriving DecidableEq, Repr, Inhabited

/-- A counted operation in flight (R25). -/
structure Op where
  group   : Nat
  counter : Option Nat
  load    : Bool
  owed    : List Owed
  /-- Lanes whose part is still to happen: apertures, spill entries, transfers. -/
  waits   : Nat
  issued  : Bool
  err     : Bool
  /-- Its loads are acquires (R357). -/
  acquire : Bool := false
  /-- Its fragment has gone on before the peers have answered, which none of them refuses (R353). -/
  sure    : Bool := false
deriving DecidableEq, Repr, Inhabited

/-- A copy transfer, copy-node transfer or tile transfer (R220 to R229, R279 to R281, R383). -/
structure Transfer where
  number   : Nat
  /-- 0 copy, 1 tile, 2 packet copy. -/
  kind     : Nat
  core     : Nat
  group    : Option Nat
  gang     : Nat
  ctx      : Nat
  lanes    : Dword
  lane     : Nat
  op       : Option Nat
  /-- The counter that it is counted on. -/
  counter  : Option Nat
  node     : Option (Nat × Nat)
  packet   : Option Nat
  /-- Operands as issued (48 bytes in a saved slot, R427). -/
  operands : List Nat
  engine   : Option Nat
  progress : Nat
  read     : List (Nat × List Byte × Bool)
  halted   : Bool
  freezes  : Bool
  err      : Bool
  complete : Option Nat
  anchor   : Since
  /-- The SVA for which no frame can be taken, with the clock since which it waits for one (R192). -/
  starved  : Option (Nat × Nat) := none
  /-- Halted, saved and restored with its gang, and not yet resumed; the number that it then took, by which it is reported (R229). -/
  restored : Bool := false
  renumbered : Option Nat := none
deriving DecidableEq, Repr, Inhabited

/-- An engine write that has not reached its global place (R350): transfer, unit, where, bytes, poison, the DPA of a unit of
device memory, the engine as watch reports name it (R462), and its writer on Levant (R365). -/
structure Place where
  transfer : Nat
  unit     : Nat
  loc      : Loc
  bytes    : List Byte
  poison   : Bool
  dpa      : Nat
  source   : Nat
  writer   : Nat
deriving DecidableEq, Repr, Inhabited

/-- A request that an aperture or the host link still owes a reply (R352, R374, R287). -/
structure Request where
  tag     : Nat
  /-- 0 load, 1 store, 2 atomic, 3 tier X line fill, 4 a read for `State.buffer`, 5 a write of an engine or agent,
  6 an atomic of the packet processor. -/
  kind    : Nat
  peer    : Option Nat
  addr    : Nat
  size    : Nat
  data    : List Byte
  aop     : Nat
  group   : Nat
  lane    : Nat
  reg     : Nat
  regs    : Nat
  op      : Option Nat
  signed  : Bool
  issuedAt : Nat
  word    : Nat
  va      : Nat
  sent    : Bool
  /-- A host-scope store that is sent with Relaxed Ordering and ID-Based Ordering clear (R356). -/
  ordered : Bool
  /-- The place in the capture log that the reply's value goes to (R469). -/
  log     : Option Nat
  /-- The lowest Active lane at its word's first issue (R418), and whether its peer has refused it (R375). -/
  first   : Nat
  refused : Bool
  /-- A peer's request: its flit, and the wavelength that it has left on (R373, R374). `sent` says whether it has, and `issuedAt` when it
  last did. -/
  flit    : Option Flit
  wave    : Option Nat
deriving DecidableEq, Repr, Inhabited

/-! ### Cores -/

/-- A frame of scratchpad (R190, R201): owner, page, contents by byte, poison marks, and the order of its last access. -/
structure Frame where
  gang  : Nat
  page  : Nat
  bytes : Table Byte
  marks : BitVec 128
  last  : Nat
deriving DecidableEq, Repr, Inhabited

/-- A comparator (R459, R463): the owning partition (7 free), its descriptor and its report state. -/
structure Comparator where
  part : Nat
  en   : Bool
  desc : List Byte
  hits : Nat
  last : Dword
deriving DecidableEq, Repr, Inhabited

/-- A logical core (R10, R153, R192, R244). -/
structure Core where
  b1       : Nat
  b2       : Nat
  b3       : Nat
  empty    : Bool
  switch   : Bool
  frames   : Table Frame
  fetch    : BitVec 16
  /-- RALLOC.wait requests of each quarter in order: quarter, group, lowest lane, blocks (R158). -/
  requests : List (Nat × Nat × Nat × Nat)
  /-- Atile contents, at `1,024 × physical atile + element`, and claims in the order asked for (R262). -/
  atiles   : Table Word
  claims   : List (Nat × Nat)
  engines  : List Bool
  turn     : Nat
  walkTurn : Nat
  code     : Table Comparator
  data     : Table Comparator
  /-- Clones that wait in the replay queues: quarter and group (R440). -/
  replay   : List (Nat × Nat)
  unwritten : List (List Byte)
  lost     : Nat
  lastIssue : Option (Nat × Nat)
  /-- Lane-cycle counters: four states of 64 bins, and five states of four quarters (R468). -/
  bins     : Table Nat
  totals   : Table Nat
  stopBy   : Option Nat
  /-- The clock since which the lane-cycle counters count (R468), and that of the latest sample (R467). -/
  counted  : Nat
  sampled  : Nat
deriving DecidableEq, Repr, Inhabited

/-- An invalidation that has completed (R332, R336): the cores and contexts that it covers, the VA whose page alone it covers, and the
order of the next write then. -/
structure Swept where
  cores : List Nat
  ctxs  : List Nat
  page  : Option Nat
  order : Nat
deriving DecidableEq, Repr, Inhabited

/-- A code word's or a unit's earlier value (R37, R349): address, the bytes that stood there, and the order of the write that ended it;
for a write through the home slice, its writer (R365), and whether the unit's sector was marked and dirty before it. -/
structure Past where
  loc   : Loc
  bytes : List Byte
  upto  : Nat
  writer : Option Nat
  marked : Bool
  dirty  : Bool
deriving DecidableEq, Repr, Inhabited

/-! ### Device memory -/

/-- What is wrong with a stored symbol (R291, R292): the difference of its bytes, and of its stored inner check, from those of the
error-free symbol. -/
structure SymErr where
  diff  : BitVec 128
  check : BitVec 16
deriving DecidableEq, Repr, Inhabited

/-- A word of an interleave entry (R288). -/
structure Inter where
  chan   : Nat
  region : Nat
  st     : Nat
deriving DecidableEq, Repr, Inhabited

/-- A channel's status (R295). -/
structure Chan where
  state   : Nat
  bysw    : Bool
  cecnt   : Nat
  retired : Nat
  /-- Inner-check failures in the present telemetry period. -/
  fails   : Nat
deriving DecidableEq, Repr, Inhabited

/-- A row's counts, and the line at which the latest stood (R300, R302). -/
structure Row where
  acts      : Nat
  corrected : Nat
  failed    : Nat
  line      : Nat
deriving DecidableEq, Repr, Inhabited

/-- The position that the rebuild engine moves (R296, steps 2 to 4): the frame, the position, the channel and region of the spare, and the
line progress. -/
structure RebuildWork where
  frame  : Nat
  pos    : Nat
  chan   : Nat
  region : Nat
  line   : Nat
deriving DecidableEq, Repr, Inhabited

/-- The rebuild engine (R296, R298). -/
structure Rebuild where
  queue    : List Nat
  active   : Option Nat
  paused   : Bool
  nospare  : Bool
  rate     : Nat
  frames   : Nat
  nextFrame : Nat
  work     : Option RebuildWork
deriving DecidableEq, Repr, Inhabited

/-- A partition's hot-page configuration (R307). -/
structure HotCfg where
  maxmove : Nat
  promo   : Nat
  demote  : Nat
  en      : Bool
  xframe  : Nat
  xcount  : Nat
  hframe  : Nat
  hcount  : Nat
deriving DecidableEq, Repr, Inhabited

/-- A frame that the tracker moves (R308): the frame, its new tier and place, and lines still to copy. -/
structure Move where
  frame : Nat
  tierX : Bool
  place : Nat
deriving DecidableEq, Repr, Inhabited

/-- Device memory and its tables. -/
structure Mem where
  /-- Error-free bytes by MA; tier X bytes of lines held in the LLC stand at `2^56 + host address`. -/
  cells    : List Host.Cell
  symErr   : Table SymErr
  /-- Sectors dirty in the LLC, tier X lines present in it, tier X lines whose write-back has been sent and may still fail (R287), poison
  marks by sector (R293, R294). -/
  dirty    : List Nat
  xlines   : List Nat
  posted   : List Nat
  poison   : List Nat
  booted   : Bool
  ind      : Table Dword
  inter    : Table Inter
  regen    : Table (Nat × Nat)
  services : List Regen
  wanted   : List RegenAsk
  chans    : Table Chan
  rows     : Table Row
  rebuild  : Rebuild
  spareUsed : List (Nat × Nat)
  period   : Nat
  thresh   : Nat
  passPos  : Nat
  llcway   : List (BitVec 24)
  hot      : List HotCfg
  counts   : Table Nat
  moves    : List Move
  past     : List Past
  /-- Telemetry periods that have ended (R295). -/
  periods  : Nat
  /-- The order of accesses: how many have been performed. -/
  order    : Nat
deriving DecidableEq, Repr, Inhabited

/-! ### The package around the cores -/

/-- A compute die's status (R13). -/
structure Die where
  live   : BitVec 16
  spused : Bool
  spfor  : Nat
  fenced : Bool
  partlo : Nat
  parthi : Nat
  rej    : Bool
deriving DecidableEq, Repr, Inhabited

/-- An error record bank (R433), 256 bits. -/
abbrev Bank := BitVec 256

/-- A read on Levant (R369, R370): the die that asks, the line, the stamp that its request or its response carries, and that of the
latest write that the bytes read reflect. -/
structure LvRead where
  src   : Nat
  line  : Nat
  stamp : Dword
  bytes : Dword
deriving DecidableEq, Repr, Inhabited

/-- The Levant state of a die, 0 to 2 compute dies and 3 CX (R366 to R372): CT and seen by writer, the next link sequence number of each
writer, the requests held in the early-packet buffer in order of arrival, the responses on the way from it, and the fields of LVSTAT. -/
structure Levant where
  ct      : List Nat
  seen    : List Nat
  seqs    : List Nat
  epoch   : Nat
  early   : List LvRead
  served  : List LvRead
  removed : BitVec 3
  ephigh  : Nat
  resync  : Nat
  lost    : Nat
deriving DecidableEq, Repr, Inhabited

/-- A write-class packet under way on a link, or in its retry buffer (R367, R368, R372): its writer, its destination die, its
number, its epoch, whether it is a sweep, its writer's stamp and its link sequence number; for a write, the unit of memory that it
writes and the order of its place; and whether it has arrived. -/
structure LvPacket where
  writer : Nat
  die    : Nat
  number : Nat
  epoch  : Nat
  sweep  : Bool
  stamp  : Dword
  seq    : Nat
  unit   : Nat
  order  : Nat
  applied : Bool
deriving DecidableEq, Repr, Inhabited

/-- What Levant keeps beside its write-class packets: the read requests on the way to CX, in order for each die; the next link sequence
number from writer `w` to die `d`, by 4 × w + d; the stamps of lines' latest writes, by the writers whose entries are still comparable
(R367); the links that are lost (R372); the place in the order of accesses up to which writes have gone out; the Etesian replies that
wait for a wavelength (R377); and the lines read since the last step, by die and with the stamp of the bytes. -/
structure Fabric where
  requests : List LvRead
  seqs     : Table Nat
  lines    : Table (List (Nat × Nat))
  lost     : List (Nat × Nat)
  mark     : Nat
  replies  : List Flit
  asked    : List (Nat × Nat × Dword)
deriving DecidableEq, Repr, Inhabited

/-- A fragment that waits at a word for a result (R424, R455): its gang, group and lowest lane, and whether a handler of the gang rung has
then set other fragments of the group aside, whose own results it does not take. -/
structure Asker where
  gang  : Nat
  key   : Nat
  lane  : Nat
  aside : Bool
deriving DecidableEq, Repr, Inhabited

/-- A gang's save in progress (R424): the gang, the slot taken, the mode, the clock at which the stop was asked for, who asked
(a word, or a host function), and whether the device itself places it again (takeover, R429). -/
structure Save where
  gang   : Nat
  slot   : Nat
  mode   : Nat
  since  : Nat
  asker  : Option Asker
  fn     : Option Nat
deriving DecidableEq, Repr, Inhabited

/-- What the package holds of a saved gang beside its image (R426, R427): its launch and index, its groups with the slots that
they had, and the operations and halted transfers that their counters still count. -/
structure Kept where
  launch    : Nat
  index     : Nat
  gang      : Gang
  groups    : List (Nat × Group)
  ops       : List (Nat × Op)
  transfers : List (Nat × Transfer)
deriving DecidableEq, Repr, Inhabited

/-- A watch report of a CX comparator that is still within its skid (R463): the comparator, the address, the report word, the
group that is told, the clock of the write. -/
structure Report where
  comp  : Nat
  addr  : Nat
  word  : Dword
  group : Option Nat
  gang  : Option Nat
  since : Nat
deriving DecidableEq, Repr, Inhabited

/-- WRSTAT (R443). -/
structure WarmStatus where
  count : Nat
  cls   : Nat
  ctx   : Nat
  unit  : BitVec 16
deriving DecidableEq, Repr, Inhabited

/-- A fibre's status (R378). -/
structure Fibre where
  up     : BitVec 16
  mode   : Bool
  light  : Bool
  corr   : BitVec 16
  /-- The mode in which the fibre was last trained (R377). -/
  trained : Bool
deriving DecidableEq, Repr, Inhabited

/-- A host function (R403, R492): bound partition, freeze, MSI-X entries masked and pending, and its latches. -/
structure Func where
  part    : Nat
  frozen  : Bool
  msixOn  : Bool
  masked  : List Nat
  waiting : List Nat
  latch   : Table (List (Nat × Byte))
deriving DecidableEq, Repr, Inhabited

/-- What the package sends to the outside, newest last: host memory writes and reads, messages, flits, responses. -/
inductive Sent where
  | msix (fn entry : Nat)
  | hostWrite (addr : Nat) (data : List Byte) (poisoned ordered : Bool)
  | hostRead (tag addr size : Nat)
  | hostAtomic (tag addr aop : Nat) (data : List Byte)
  | flit (f : Flit)
  | unsupported (fn offset : Nat)
  | control (fn offset : Nat) (value : Dword)
  | management (bytes : List Byte)
deriving DecidableEq, Repr, Inhabited

/-- Power and telemetry (R444 to R450). -/
structure Power where
  step      : Nat
  pinreq    : Nat
  pktreq    : Nat
  portreq   : Nat
  moving    : Bool
  watts     : Nat
  temp      : Nat
  failed    : Bool
  smbus     : BitVec 7
  eid       : Byte
deriving DecidableEq, Repr, Inhabited

/-- Flash, drain and images (R450, R451, R457): the two drain areas, generation counts, images with their signature check
and version, the fused minimum, and the drain image that firmware has reported since power-up: whether it is that of area A, and its GEN. -/
structure Flash where
  /-- The sector of a firmware update that is being written, and the sectors of it that are committed (R17). -/
  writing   : Option Nat
  committed : Nat
  areaA   : List Byte
  areaB   : List Byte
  gen     : Nat
  images  : List (Bool × Nat)
  minVer  : Nat
  running : Option Nat
  report  : Option (Bool × Nat)
deriving DecidableEq, Repr, Inhabited

/-- A partition's checkpoint (R452 to R455): CKSTAT STATE, SLOT, DONE and CKID, the body, the context, who waits for it (a
packet, or a held CKGO word), its place in the access order, the shard bytes read so far, and its privilege. -/
structure Checkpoint where
  state  : Nat
  slot   : Nat
  units  : Nat
  ckid   : Nat
  packet : Option Nat
  holder : Option Asker
  body   : List Byte
  ctx    : Nat
  anchor : Since
  shard  : List Byte
  priv   : Bool
deriving DecidableEq, Repr, Inhabited

/-- Identity and attestation (R457, R458). -/
structure Identity where
  devnum  : Nat
  nonce   : List Byte
  report  : List Byte
  ready   : Bool
  since   : Nat
deriving DecidableEq, Repr, Inhabited

/-- A partition's trace (R466, R467) and bin table (R468). -/
structure Trace where
  on     : Bool
  base   : Nat
  log2   : Nat
  sample : Nat
  count  : Nat
  ctx    : Nat
  bins   : List (Nat × Nat)
deriving DecidableEq, Repr, Inhabited

/-- A clock service at a rung (R414): the rung, the group, gang, or gang and context (256 × gang + context) it is for, the clock it
began, the class, and the unit whose record started the climb, 0xFFFF for none (R443). -/
structure Service where
  rung  : Nat
  key   : Nat
  since : Nat
  cls   : Nat
  unit  : Nat
deriving DecidableEq, Repr, Inhabited

/-- A safe-point row (R41): its ordinal, why it stands there, the code offset of its header, and the vector registers, scalars, masks
and counters that are live at it. -/
structure SafeRow where
  ord   : Nat
  why   : Nat
  addr  : Nat
  liveV : Nat
  liveS : Nat
  liveM : Nat
  liveK : Nat
deriving DecidableEq, Repr, Inhabited

/-- A kernel that the loader has placed (R40 to R43): context, code base, and its safe-point rows in ordinal order. -/
structure Kernel where
  ctx   : Nat
  cbase : Nat
  rows  : List SafeRow
deriving DecidableEq, Repr, Inhabited

/-- A word of SRAM that its gang reads (R435): a register of a lane, a scalar, a mask or a counter of a group, an element of a physical
atile of a core, or the operand latch of a node. -/
inductive SramWord where
  | vreg (group reg lane : Nat)
  | sreg (group reg : Nat)
  | mask (group reg : Nat)
  | counter (group k : Nat)
  | atile (core atile element : Nat)
  | latch (gang team slot : Nat)
deriving DecidableEq, Repr, Inhabited

/-- A double-bit error that the next read of its word consumes (R435), with its pool byte offset and its syndrome. -/
structure Latent where
  word   : SramWord
  offset : Nat
  synd   : Nat
deriving DecidableEq, Repr, Inhabited

/-- An error that comes from outside the rules of the package: in a word of a core's SRAM, with its pool byte offset and syndrome (R435),
in a stored symbol of device memory (R291), or inside an engine (R404). -/
inductive Upset where
  /-- A single-bit error. -/
  | single (core offset synd : Nat)
  /-- A double-bit error in a clean L1 line or in a cached translation, which is fetched again. -/
  | cleanLine (core offset synd : Nat)
  /-- One in an L1 line that is dirty: its DPA, and the sectors that the L1 holds dirty. -/
  | dirtyLine (core dpa : Nat) (sectors : BitVec 8)
  /-- One in a unit of a frame. -/
  | frameUnit (core frame unit : Nat)
  /-- One in a word that its gang reads. -/
  | latent (x : Latent)
  /-- A stored symbol that changes, by the differences of its bytes and of its stored inner check. -/
  | symbol (line pos : Nat) (e : SymErr)
  /-- An internal error that a copy or matrix engine reports. -/
  | engine (core engine : Nat)
deriving DecidableEq, Repr, Inhabited

/-- A write of the host to a function's PCI Express configuration, to which MSI-X belongs (R403). -/
inductive PciWrite where
  /-- MSI-X Enable of the function's capability. -/
  | msixEnable (fn : Nat) (on : Bool)
  /-- The mask bit of an entry of its table is set. -/
  | maskEntry (fn entry : Nat)
deriving DecidableEq, Repr, Inhabited

/-- An event of R434, with its clock and, for severity 3, the contexts whose gangs then had a member on its unit (R443). -/
structure Event where
  unit  : Nat
  cause : Nat
  sev   : Nat
  cons  : Bool := false
  addr  : Option Nat := none
  synd  : Nat := 0
  ctx   : Option Nat := none
  gang  : Nat := 0
  clock : Nat := 0
  ctxs  : List Nat := []
deriving DecidableEq, Repr, Inhabited

/-- A host's write to GSAVE or GLOAD that cannot be answered yet (R423): the function, whether it is GLOAD, the two values, and the mode
of a save. -/
structure Call where
  fn    : Nat
  load  : Bool
  value : Nat
  place : Nat
  mode  : Nat
deriving DecidableEq, Repr, Inhabited

/-- What moves next: an event of the table with what it carries, the issue of a fragment by its group's slot key and one of its lanes, such
an issue of which only the lanes below a number are performed (R344), an error that befalls the hardware, a write of the host to a
function's configuration, or a request to the management port, of vendor type or of control, whose command is none of those it serves. -/
inductive Action where
  | event (i : Instr) (x : Input)
  | issue (group lane : Nat)
  | part (group lane upto : Nat)
  | upset (x : Upset)
  | pci (w : PciWrite)
  | message (vendor : Bool) (command : Nat) (r : MgmtRequest)
deriving DecidableEq, Repr

/-- The unit that is being issued: the fragment's group and lanes, the address of its first word, its words, its clause, the
lanes that are live in it, its %pix and what the resumed word carries. -/
structure Cur where
  group  : Nat
  lanes  : Dword
  pc     : Nat
  words  : List Word
  clause : Option Clause
deriving DecidableEq, Repr, Inhabited

/-- Why the machine stops with a fault. No rule of the manual stops the whole package, so `step` ends here only where
the agenda names a word of the code as an event (log entry 4). -/
inductive Fault where
  /-- A row that is a word of the code was executed while no unit is being issued. Raised by every such meaning; safe,
  because `step` executes such a row for the unit that it issues, and nothing is claimed of it elsewhere. -/
  | noIssuingUnit
deriving DecidableEq, Repr

/-- Why the model refuses. -/
inductive Refusal where
  /-- The instruction has no meaning yet. Raised by a refused arm of `exec`; safe, because nothing is claimed of it. -/
  | notModelled (mnemonic : String)
deriving DecidableEq, Repr

/-! ### The whole state -/

/-- The package. -/
structure State where
  /-- %clock, in nominal clocks (R162); the model's own count of free values drawn. -/
  clock    : Nat
  tick     : Nat
  /-- What moves next, what it carries, the unit being issued, and what has been sent outside. -/
  agenda   : List Action
  input    : Input
  cur      : Option Cur
  /-- The lane before which a memory word that issues breaks off (R344). -/
  cut      : Option Nat
  sent     : List Sent
  /-- Groups by 128 × core + slot; gangs and launches by the model's own number, in order of creation. -/
  groups   : Table Group
  gangs    : Table Gang
  launches : Table Launch
  nextUid  : Nat
  kernels  : List Kernel
  queues   : Table Queue
  packets  : Table Packet
  journals : Table Journal
  ctxs     : Table Ctx
  ctxtab   : Dword
  cores    : Table Core
  dies     : List Die
  ops      : Table Op
  nextOp   : Nat
  requests : List Request
  nextTag  : Nat
  /-- Inbound accesses that have passed their checks and wait for memory: flits of peers, and host writes with TYPE 0. -/
  inbound  : List Flit
  /-- Bytes that replies have brought for an agent that waits for them: device + 1, or 0 for the host, address, bytes, and
  the reply's STATUS (0 done, 1 refused, 2 poisoned). -/
  buffer   : List (Nat × Nat × List Byte × Nat)
  transfers : Table Transfer
  nextTransfer : Nat
  places   : List Place
  swept    : List Swept
  mem      : Mem
  banks    : Table Bank
  /-- Events that have been recorded, for the thresholds of R442 and the window of R443, and those of the clock in progress, which are
  recorded in the order of R436 before anything of a later clock. -/
  events   : List Event
  fresh    : List Event
  levant   : List Levant
  packetsLv : List LvPacket
  numbers  : List Nat
  fabric   : Fabric
  peers    : Table Dword
  fibres   : Table Fibre
  funcs    : List Func
  power    : Power
  flash    : Flash
  checkpoints : Table Checkpoint
  identity : Identity
  traces   : Table Trace
  services : List Service
  cxComps  : Table Comparator
  reports  : List Report
  saves    : List Save
  kept     : List Kept
  results  : Table Dword
  warm     : WarmStatus
  /-- Double-bit errors that no read has met yet (R435). -/
  upsets   : List Latent
  due      : List Due
  calls    : List Call
deriving DecidableEq, Repr

/-! ### Reset values -/

def TrapRegs.reset : TrapRegs := ⟨0, 0, 0, 0, 0, 0, 0, 0⟩

def Counter.reset : Counter := ⟨0, false, false, [], []⟩

/-- A task slot at ring configuration (R241). -/
def Slot.reset : Slot := ⟨0, 0, 0, 0, [], false, 0, 0, 0, 15, none, none, [], [], ⟨0, [], []⟩, 0, 0, false, none⟩

def Barrier.reset : Barrier := ⟨0, 0, 0⟩

/-- QCFG of a queue that is off (R379). -/
def Queue.reset : Queue := ⟨0, 0, 4, 1, false, 0, 0, 0, 0, false⟩

/-- JSTAT NEXT reads 1 (R402). -/
def Journal.reset : Journal := ⟨1, []⟩

def Ctx.reset : Ctx := ⟨false, false, 0, 0, none, [], false, none, 0, 0, 0⟩

/-- A comparator that no partition owns (R463). -/
def Comparator.reset : Comparator := ⟨7, false, [], 0, 0⟩

/-- A core with no gang: POOLCFG EMPTY is 1 and every boundary reads 0 (R153). -/
def Core.reset : Core :=
  { b1 := 0, b2 := 0, b3 := 0, empty := true, switch := false, frames := [], fetch := 0, requests := [], atiles := [],
    claims := [], engines := [false, false, false, false, false, false], turn := 0, walkTurn := 0, code := [], data := [],
    replay := [], unwritten := [], lost := 0, lastIssue := none, bins := [], totals := [], stopBy := none, counted := 0, sampled := 0 }

def Chan.reset : Chan := ⟨0, false, 0, 0, 0⟩

def Row.reset : Row := ⟨0, 0, 0, 0⟩

/-- RBSTAT: RATE reads 5 (R298). -/
def Rebuild.reset : Rebuild := ⟨[], none, false, false, 5, 0, 0, none⟩

/-- HPCFG (R307). -/
def HotCfg.reset : HotCfg := ⟨4096, 64, 4, false, 0, 0, 0, 0⟩

/-- Device memory after hardware reset: no indirection entry is valid until boot firmware has run (R285); SCRUBCFG PERIOD 24
and THRESH 16 (R303); LLCWAY all ways (R306). -/
def Mem.reset : Mem :=
  { cells := [], symErr := [], dirty := [], xlines := [], posted := [], poison := [], booted := false, ind := [], inter := [], regen := [],
    services := [], wanted := [], chans := [], rows := [], rebuild := Rebuild.reset, spareUsed := [], period := 24, thresh := 16,
    passPos := 0, llcway := List.replicate 8 0xFFFFFF, hot := List.replicate 6 HotCfg.reset, counts := [], moves := [],
    past := [], periods := 0, order := 0 }

/-- DIESTAT: every logical core live, both halves in partition 0 (R12, R13). -/
def Die.reset : Die := ⟨0xFFFF, false, 0, false, 0, 0, false⟩

def Levant.reset : Levant := ⟨[0, 0, 0, 0], [0, 0, 0, 0], [0, 0, 0, 0], 0, [], [], 0, 0, 0, 0⟩

def Fabric.reset : Fabric := ⟨[], [], [], [], 0, [], []⟩

/-- PEERCFG: PART reads 7 and PTMO 1,000 (R376). -/
def peerReset : Dword := 0x000003E800000700

def Fibre.reset : Fibre := ⟨0, false, false, 0, false⟩

/-- FNBIND PART reads 7 (R403); PCI Express resets every MSI-X entry masked (PRESUMED). -/
def Func.reset (entries : Nat) : Func := ⟨7, false, false, List.range entries, [], []⟩

/-- PWRSTAT reads 0 (R447); the management port answers at 0x4C (R448). -/
def Power.reset : Power := ⟨0, 0, 0, 0, false, 0, 0, false, 0x4C, 0⟩

def Flash.reset : Flash := ⟨none, 0, [], [], 0, [(true, 0)], 0, none, none⟩

def Checkpoint.reset : Checkpoint := ⟨0, 0, 0, 0, none, none, [], 0, ⟨0, [], []⟩, [], false⟩

def Identity.reset : Identity := ⟨0, [], [], false, 0⟩

def Trace.reset : Trace := ⟨false, 0, 12, 0, 0, 0, []⟩

/-- The package right after hardware reset, before its boot firmware has run (R285): nothing resident, every table at its
reset column. -/
def State.reset : State :=
  { clock := 0, tick := 0, agenda := [], input := {}, cur := none, cut := none, sent := [], groups := [], gangs := [], launches := [],
    nextUid := 1, kernels := [], queues := [], packets := [], journals := [], ctxs := [], ctxtab := 0, cores := [],
    dies := [Die.reset, Die.reset, Die.reset], ops := [], nextOp := 1, requests := [], nextTag := 1, inbound := [], buffer := [], transfers := [],
    nextTransfer := 1, places := [], swept := [], mem := Mem.reset, banks := [], events := [], fresh := [],
    levant := List.replicate 4 Levant.reset, packetsLv := [], numbers := [0, 0, 0, 0], fabric := Fabric.reset, peers := [], fibres := [],
    funcs := Func.reset 16 :: List.replicate 6 (Func.reset 2), power := Power.reset, flash := Flash.reset, checkpoints := [],
    identity := Identity.reset, traces := [], services := [], cxComps := [], reports := [], saves := [], kept := [], results := [],
    warm := ⟨0, 0, 0, 0⟩, upsets := [], due := [], calls := [] }

end Sys2Proof.Machine
end

