-- ==== Sys2Proof/Machine/Memory.lean ====
section
/-!
DEFINITION. Device memory below translation: lines and sectors of machine addresses, the interleave table, the Walnut code,
write-back, and the indirection entries (R284 to R303).
-/
namespace Sys2Proof.Machine

open Sys2Proof

/-! ### Indirection entries (R285) -/

def IndV (e : Dword) : Bool := e.getLsbD 0
def IndTierX (e : Dword) : Bool := e.getLsbD 1
def IndRegen (e : Dword) : Bool := e.getLsbD 2
def IndDropped (e : Dword) : Bool := e.getLsbD 3
def IndMoving (e : Dword) : Bool := e.getLsbD 4
def IndPin (e : Dword) : Bool := e.getLsbD 5
def IndPart (e : Dword) : Nat := bits e.toNat 8 3
def IndFrame (e : Dword) : Nat := bits e.toNat 12 40

/-- An indirection entry from its fields. -/
def indEntry (v tierX regen dropped moving pin : Bool) (part frame : Nat) : Dword :=
  BitVec.ofNat 64 (v.toNat + 2 * tierX.toNat + 4 * regen.toNat + 8 * dropped.toNat + 16 * moving.toNat + 32 * pin.toNat +
    256 * (part % 8) + 4096 * (frame % 2 ^ 40))

/-- What firmware writes at cold reset: frames 0 to 12,582,911 one to one into partition 0 (R285). -/
def bootEntry (booted : Bool) (f : Nat) : Dword :=
  if booted && f ≤ 12582911 then indEntry true false false false false false 0 f else 0

/-- The entry of a DPA frame. -/
def Mem.entry (m : Mem) (f : Nat) : Dword := tget (bootEntry m.booted f) m.ind f

def Mem.setEntry (m : Mem) (f : Nat) (e : Dword) : Mem := { m with ind := tset (bootEntry m.booted f) m.ind f e }

/-- Where the bytes of a tier X line held in the LLC stand. -/
def hostBase : Nat := 2 ^ 56

/-- The machine address that an entry gives an offset of its frame: a tier H MA, or a host address above `hostBase`. -/
def entryAddr (e : Dword) (offset : Nat) : Nat :=
  (if IndTierX e then hostBase else 0) + 65536 * IndFrame e + offset

/-! ### The interleave table and channels (R288, R295) -/

def Mem.chan (m : Mem) (c : Nat) : Chan := tget Chan.reset m.chans c

def Mem.dead (m : Mem) (c : Nat) : Bool := (m.chan c).state != 0

/-- Regions of a channel that are spare, and MA frames of the interleave table (R284, R288). -/
def spareLow : Nat := 335692
def spareHigh : Nat := 366210
def interFrames : Nat := 12890572

/-- Whether `p` holds of every number below one. -/
def allBelow : Nat → (Nat → Bool) → Bool
  | 0, _ => true
  | n + 1, p => p n && allBelow n p

/-- Whether a layout keeps to the bounds that every firmware's does (R288): ten distinct stacks for each entry, and symbols only in
regions below the spare, no region holding two. Position `i` of frame `f` has number 10 × f + i. -/
def layoutOk (at' : Nat → Nat × Nat) : Bool :=
  allBelow (10 * interFrames) (fun x =>
    let c := at' x
    decide (c.1 < 384) && decide (c.2 < spareLow) && allBelow x (fun y =>
      let d := at' y
      !(d.1 == c.1 && d.2 == c.2) && !(y / 10 == x / 10 && d.1 / 32 == c.1 / 32)))

/-- One layout that keeps to the bounds. -/
def plainLayout (x : Nat) : Nat × Nat := (32 * (x % 12) + x / 12 % 32, x / 384)

/-- Firmware's layout: any that keeps to the bounds (R288). -/
def firmwareLayout (x : Nat) : Nat × Nat :=
  if layoutOk (fun x => Config.layout (x / 10) (x % 10)) then Config.layout (x / 10) (x % 10) else plainLayout x

/-- Word `pos` of the interleave entry of an MA frame, as the window reads it: a position that names a dead channel reads
ST = 1 (R295). -/
def Mem.interWord (m : Mem) (frame pos : Nat) : Inter :=
  let w := match tfind m.inter (10 * frame + pos) with
    | some w => w
    | none => let c := firmwareLayout (10 * frame + pos); ⟨c.1, c.2, 0⟩
  if m.dead w.chan && w.st == 0 then { w with st := 1 } else w

/-- Whether a position at ST = 2 reads its spare symbol in a line: the line progress has passed it, and the spare's channel is in service
(R295, R297). -/
def Mem.rebuilt (m : Mem) (line pos : Nat) : Bool :=
  match m.rebuild.work with
  | none => false
  | some w => w.frame == line / 512 && w.pos == pos && decide (line % 512 < w.line) && !m.dead w.chan

/-- The channel and region that hold a line's symbol at a position, the spare's once the line has been rebuilt. -/
def Mem.heldAt (m : Mem) (line pos : Nat) : Nat × Nat :=
  let w := m.interWord (line / 512) pos
  match m.rebuild.work with
  | some x => if w.st == 2 && m.rebuilt line pos then (x.chan, x.region) else (w.chan, w.region)
  | none => (w.chan, w.region)

/-- Whether a position of a line is an erasure whatever its symbol is (R292). -/
def Mem.erased (m : Mem) (line pos : Nat) : Bool :=
  if m.chans.isEmpty && m.inter.isEmpty then false
  else
    match (m.interWord (line / 512) pos).st with
    | 0 => false
    | 2 => !m.rebuilt line pos
    | _ => true

/-! ### GF(2^8) (R290) -/

/-- Multiplication by α. -/
def gfDouble (x : Nat) : Nat := if 2 * x < 256 then 2 * x else (2 * x).xor 0x11D

/-- α^i · x. -/
def gfShift : Nat → Nat → Nat
  | 0, x => x
  | i + 1, x => gfDouble (gfShift i x)

/-- The product in GF(2^8). -/
def gfMul (x y : Nat) : Nat :=
  (List.range 8).foldl (fun r i => if bit x i then r.xor (gfShift i y) else r) 0

/-- x^n. -/
def gfPow (x : Nat) : Nat → Nat
  | 0 => 1
  | n + 1 => gfMul x (gfPow x n)

/-- The inverse, x^254. -/
def gfInv (x : Nat) : Nat := gfPow x 254

/-! ### The Walnut decode (R292), on the differences from the error-free symbols -/

/-- The difference of each position of a line, and whether it is an erasure. -/
structure Symbol where
  erased : Bool
  diff   : BitVec 128
deriving DecidableEq, Repr, Inhabited

/-- Byte `b` of a symbol's difference. -/
def symByte (x : BitVec 128) (b : Nat) : Nat := bits x.toNat (8 * b) 8

/-- The two syndromes over sound positions. -/
def syndromes (ds : List (Bool × Nat)) : Nat × Nat :=
  let sound := fun i => let d := (ds[i]?).getD (true, 0); if d.1 then 0 else d.2
  let p := (List.range 8).foldl (fun r i => r.xor (sound i)) (sound 8)
  let q := (List.range 8).foldl (fun r i => r.xor (gfShift i (sound i))) (sound 9)
  (p, q)

/-- What one byte lane decodes to: the differences that remain at the ten positions, and the positions repaired; none where
it is uncorrectable. -/
def decodeLane (ds : List (Bool × Nat)) : Option (List Nat × List Nat) :=
  let (p, q) := syndromes ds
  let holes := (List.range 10).filter (fun i => ((ds[i]?).getD (true, 0)).1)
  let plain := (List.range 10).map (fun i => let d := (ds[i]?).getD (true, 0); if d.1 then 0 else d.2)
  let fix := fun (i x : Nat) => plain.set i (((plain[i]?).getD 0).xor x)
  match holes with
  | [] =>
    if p == 0 && q == 0 then some (plain, [])
    else if q == 0 then some (fix 8 p, [8])
    else if p == 0 then some (fix 9 q, [9])
    else
      match (List.range 8).filter (fun k => gfShift k p == q) with
      | [k] => some (fix k p, [k])
      | _ => none
  | [i] =>
    if i == 8 then (if q == 0 then some (plain, [8]) else none)
    else if i == 9 then (if p == 0 then some (plain, [9]) else none)
    else if gfShift i p == q then some (plain.set i p, [i]) else none
  | [i, j] =>
    if i == 8 then some (plain, [8, 9])
    else if j == 8 then some (plain.set i (gfMul q (gfInv (gfShift i 1))), [i, 8])
    else if j == 9 then some (plain.set i p, [i, 9])
    else
      let y := gfMul (q.xor (gfShift i p)) (gfInv ((gfShift i 1).xor (gfShift j 1)))
      some ((plain.set j y).set i (p.xor y), [i, j])
  | _ => none

/-- The decode of a line, byte lane by byte lane: the differences that remain, and the positions repaired; none where a lane
is uncorrectable. -/
def decodeLine (ss : List Symbol) : Option (List (BitVec 128) × List Nat) :=
  let lanes := (List.range 16).map (fun b => decodeLane (ss.map (fun s => (s.erased, symByte s.diff b))))
  if lanes.all Option.isSome then
    let got := lanes.map (fun l => l.getD ([], []))
    let diffs := (List.range 10).map (fun i =>
      BitVec.ofNat 128 (leNat (got.map (fun l => BitVec.ofNat 8 ((l.1[i]?).getD 0)))))
    some (diffs, (List.range 10).filter (fun i => got.any (fun l => l.2.contains i)))
  else none

/-! ### The inner check (R291) -/

/-- One bit of CRC-16 with polynomial 0x1021. -/
def crcBit (c : BitVec 16) : BitVec 16 := if c.msb then (c <<< 1) ^^^ 0x1021 else c <<< 1

/-- One byte of it. -/
def crcByte (c : BitVec 16) (b : Byte) : BitVec 16 :=
  (List.range 8).foldl (fun c _ => crcBit c) (c ^^^ (b.setWidth 16 <<< 8))

/-- The inner check of 16 symbol bytes, at a position of a line. -/
def innerCheck (bs : List Byte) (line pos : Nat) : BitVec 16 :=
  (bs ++ leBytes 4 line ++ [BitVec.ofNat 8 pos]).foldl crcByte 0xFFFF

/-- The bytes of a symbol. -/
def symBytes (d : BitVec 128) : List Byte := (List.range 16).map (fun b => BitVec.ofNat 8 (symByte d b))

/-- What a difference of the symbol bytes changes in their inner check. The check is linear, so the line, the position and the bytes
that the difference is from do not matter. -/
def checkDiff (d : BitVec 128) : BitVec 16 :=
  if d = 0 then 0 else innerCheck (symBytes d) 0 0 ^^^ innerCheck (symBytes 0) 0 0

/-- A stored symbol fails its inner check: the stored check is not that of the stored bytes. -/
def SymErr.fails (e : SymErr) : Bool := checkDiff e.diff != e.check

/-- A symbol with a difference, and the inner check of its bytes. -/
def SymErr.written (d : BitVec 128) : SymErr := ⟨d, checkDiff d⟩

/-! ### Lines (R289, R292 to R294) -/

/-- What is wrong with a stored symbol of a line. -/
def Mem.symbolErr (m : Mem) (line i : Nat) : SymErr := tget ⟨0, 0⟩ m.symErr (10 * line + i)

/-- The symbols of a tier H line. -/
def Mem.symbols (m : Mem) (line : Nat) : List Symbol :=
  (List.range 10).map (fun i =>
    let e := m.symbolErr line i
    ⟨e.fails || m.erased line i, e.diff⟩)

/-- The line's stored symbols are made error-free, but for erased positions, which are not written (R294). -/
def Mem.cleanSymbols (m : Mem) (line : Nat) : Mem :=
  { m with symErr := (List.range 10).foldl (fun t i => tdel t (10 * line + i)) m.symErr }

/-- The bytes of a data symbol of a line, changed by a difference. -/
def Mem.xorSector (m : Mem) (sector : Nat) (d : BitVec 128) : Mem :=
  if d = 0 then m
  else
    let old := readBytes m.cells (16 * sector) 16
    let new := (List.range 16).map (fun b => (old[b]?).getD 0 ^^^ BitVec.ofNat 8 (symByte d b))
    { m with cells := writeBytes m.cells (16 * sector) new }

/-- Sectors dirty in the LLC, of a line. -/
def Mem.dirtyOf (m : Mem) (line : Nat) : List Nat := (List.range 8).filter (fun i => m.dirty.contains (8 * line + i))

def addPoison (sectors : List Nat) (p : List Nat) : List Nat := sectors.foldl (fun q x => insertNat x q) p

/-- What a decode of a line finds: nothing to repair, a corrected line with its repaired positions, or a poisoned line with its
unsound positions, each as bits of SYND (R434). -/
inductive Decoded where
  | sound
  | corrected (synd : Nat)
  | poisoned (synd : Nat)
deriving DecidableEq, Repr, Inhabited

def syndOf (ps : List Nat) : Nat := ps.foldl (fun x i => x + 2 ^ i) 0

/-- All ten positions are read and decoded; a corrected line is written back whole, an uncorrectable one is poisoned. Sectors
that the LLC holds dirty keep the LLC's bytes. -/
def Mem.decodeAll (m : Mem) (line : Nat) : Mem × Decoded :=
  let ss := m.symbols line
  let held := m.dirtyOf line
  let holes := (List.range 10).filter (fun i => ((ss[i]?).getD ⟨true, 0⟩).erased)
  match decodeLine ss with
  | none => ({ m with poison := addPoison ((List.range 8).map (fun i => 8 * line + i)) m.poison }, .poisoned (syndOf holes))
  | some (diffs, fixed) =>
    if fixed.isEmpty && diffs.all (fun d => d = 0) then (m, .sound)
    else
      let m := (List.range 8).foldl
        (fun m i => if held.contains i then m else m.xorSector (8 * line + i) ((diffs[i]?).getD 0)) m
      (m.cleanSymbols line, if fixed.isEmpty then .sound else .corrected (syndOf fixed))

/-- A read of the data symbols that a grain needs: when each is sound the data is used as read, otherwise the line is decoded
(R292). -/
def Mem.fetchSectors (m : Mem) (line : Nat) (need : List Nat) : Mem × Decoded :=
  if m.symErr.isEmpty && m.chans.isEmpty && m.inter.isEmpty then (m, .sound)
  else
    let need := need.filter (fun i => !m.dirty.contains (8 * line + i))
    let ss := m.symbols line
    if need.all (fun i => !((ss[i]?).getD ⟨true, 0⟩).erased) then (m, .sound) else m.decodeAll line

/-- The difference with which a sound symbol that is not dirty reads. -/
def Mem.readDiff (m : Mem) (sector : Nat) : BitVec 128 :=
  if m.symErr.isEmpty || m.dirty.contains sector then 0
  else (m.symbolErr (sector / 8) (sector % 8)).diff

/-- One byte as an access reads it. -/
def Mem.byte (m : Mem) (addr : Nat) : Byte :=
  let b := tget 0 m.cells addr
  if hostBase ≤ addr then b else b ^^^ BitVec.ofNat 8 (symByte (m.readDiff (addr / 16)) (addr % 16))

/-- The sectors that a run of bytes touches. -/
def sectorsOf (addr n : Nat) : List Nat :=
  if n = 0 then [] else (List.range ((addr + n - 1) / 16 - addr / 16 + 1)).map (fun i => addr / 16 + i)

/-- Whether a run of bytes touches a poison mark (R293). -/
def Mem.marked (m : Mem) (addr n : Nat) : Bool :=
  if m.poison.isEmpty then false else (sectorsOf addr n).any (fun x => m.poison.contains x)

/-- Bytes of device memory as an access that has fetched its sectors reads them. -/
def Mem.bytesAt (m : Mem) (addr n : Nat) : List Byte := (List.range n).map (fun i => m.byte (addr + i))

/-- Fetch every line that a run of bytes touches; what the last of them that was not sound met, with its line. -/
def Mem.fetch (m : Mem) (addr n : Nat) : Mem × List (Nat × Decoded) :=
  if m.symErr.isEmpty && m.chans.isEmpty && m.inter.isEmpty || hostBase ≤ addr then (m, [])
  else
    (sectorsOf addr n).foldl (fun (acc : Mem × List (Nat × Decoded)) x =>
      let r := acc.1.fetchSectors (x / 8) [x % 8]
      (r.1, if r.2 = .sound then acc.2 else acc.2 ++ [(x / 8, r.2)])) (m, [])

/-- Whether the LLC holds what an access to the address needs: every line of tier H, and the tier X lines that it holds
(R287). -/
def Mem.present (m : Mem) (addr : Nat) : Bool := addr < hostBase || m.xlines.contains (addr / 128)

/-- Remember what a 16-byte unit held before a write of a writer, for reads whose place may be earlier (R37, R332, R349) and for the
write's own packet (R367). -/
def Mem.remember (m : Mem) (w addr n : Nat) : Mem :=
  { m with past := m.past ++ (sectorsOf addr n).map (fun x =>
      ⟨.ma (16 * x), readBytes m.cells (16 * x) 16, m.order, some w, m.poison.contains x, m.dirty.contains x⟩) }

/-- A sector that a write leaves partly as it was holds what it read as. -/
def Mem.absorb (m : Mem) (addr n : Nat) : Mem :=
  if m.symErr.isEmpty || hostBase ≤ addr then m
  else (sectorsOf addr n).foldl (fun m x => m.xorSector x (m.readDiff x)) m

/-- A writer's write of bytes through the home slice: whole sectors lose their mark, narrower writes keep it (R293). -/
def Mem.store (m : Mem) (w addr : Nat) (bs : List Byte) : Mem :=
  let m := (m.remember w addr bs.length).absorb addr bs.length
  let ss := sectorsOf addr bs.length
  { m with
    cells := writeBytes m.cells addr bs
    dirty := ss.foldl (fun d x => insertNat x d) m.dirty
    poison := if m.poison.isEmpty then [] else
      m.poison.filter (fun x => !(ss.contains x && addr ≤ 16 * x && 16 * x + 16 ≤ addr + bs.length))
    order := m.order + 1 }

/-! ### Grains (R316) -/

/-- The sectors that one word's requests to a line need: the smallest aligned grain of 1, 2, 4 or 8 sectors that covers those touched,
but the sectors themselves where that would be the line and at most two are touched. -/
def grainOf (touched : List Nat) : List Nat :=
  let lo := touched.foldl min 7
  let hi := touched.foldl max 0
  if touched.isEmpty then []
  else if lo = hi then [lo]
  else if lo / 2 = hi / 2 then [lo / 2 * 2, lo / 2 * 2 + 1]
  else if lo / 4 = hi / 4 then (List.range 4).map (· + lo / 4 * 4)
  else if touched.eraseDups.length ≤ 2 then touched.eraseDups
  else List.range 8

/-- The sectors of a line that runs of bytes, by address and count, touch. -/
def touchedIn (line : Nat) (runs : List (Nat × Nat)) : List Nat :=
  (runs.flatMap (fun r => sectorsOf r.1 r.2)).filterMap (fun x => if x / 8 = line then some (x % 8) else none)

/-! ### Write-back (R294) -/

/-- The delta method: each dirty sector's new bytes are written, and the checks take their change; an error that a symbol read held
without failing its check goes on in them. `free` is the change of a dirty sector whose old symbol is an erasure that no decode has
solved: that symbol is neither read nor written, and its change is in no check. -/
def Mem.deltaWrite (m : Mem) (line : Nat) (held : List Nat) (erased : Nat → Bool) (free : Nat → BitVec 128) : Mem :=
  let err := fun (i : Nat) => if erased i then free i else (m.symbolErr line i).diff
  let carry := held.foldl (fun (c : BitVec 128 × BitVec 128) i =>
    (c.1 ^^^ err i, c.2 ^^^ BitVec.ofNat 128 (leNat ((List.range 16).map
      (fun b => BitVec.ofNat 8 (gfShift i (symByte (err i) b))))))) ((m.symbolErr line 8).diff, (m.symbolErr line 9).diff)
  let t := held.foldl (fun t i => if erased i then t else tdel t (10 * line + i)) m.symErr
  let check := fun (t : Table SymErr) (i : Nat) (d : BitVec 128) =>
    if erased i then t else tset ⟨0, 0⟩ t (10 * line + i) (SymErr.written d)
  { m with symErr := check (check t 8 carry.1) 9 carry.2 }

/-- A line is written back by the method that moves fewer symbols (R294). A decode that it needs and that fails poisons the line; of
the sectors that it then writes whole from clean values, the marks go again (R293). -/
def Mem.writeback (m : Mem) (line : Nat) (free : Nat → BitVec 128) : Mem × Decoded :=
  let held := m.dirtyOf line
  let clear := fun (m : Mem) => { m with dirty := m.dirty.filter (fun x => x / 8 != line) }
  if held.isEmpty then (m, .sound)
  else if hostBase ≤ 128 * line then (clear m, .sound)
  else
    let delta := 2 * (held.length + 2) ≤ 18 - held.length
    let reads := if delta then held ++ [8, 9] else (List.range 8).filter (fun i => !held.contains i)
    let ss := m.symbols line
    let erased := fun (i : Nat) => ((ss[i]?).getD ⟨true, 0⟩).erased
    if reads.any erased then
      let r := m.decodeAll line
      match r.2 with
      | .poisoned _ =>
        let clean := held.filter (fun i => !(delta && erased i) && !m.poison.contains (8 * line + i))
        let n := { r.1 with poison := r.1.poison.filter (fun x => !(x / 8 == line && clean.contains (x % 8))) }
        (clear (if delta then n.deltaWrite line held erased free else n.cleanSymbols line), r.2)
      | _ => (clear (r.1.cleanSymbols line), r.2)
    else if delta then (clear (m.deltaWrite line held erased free), .sound)
    else
      let m := reads.foldl (fun m i => m.xorSector (8 * line + i) (m.symbolErr line i).diff) m
      (clear (m.cleanSymbols line), .sound)

/-- Every machine address listed rises, and no byte listed is what an unlisted one reads as. -/
def Mem.wf (m : Mem) : Bool := twf 0 m.cells

end Sys2Proof.Machine
end

