-- ==== Sys2Proof/Machine/Fabric.lean ====
section
/-!
DEFINITION. What Levant keeps of the package's accesses (R365 to R370): the numbers and stamps of writes, the packets on the way to the
slices that home their lines, which all lie behind CX (R8), the counters that their arrival moves, and the requests and responses of
reads. A write is in memory from its place on; until its packet has arrived it can still be lost with its die (R371), so an access of
another die to its bytes comes after the arrival.
-/
namespace Sys2Proof.Machine

open Sys2Proof

/-! ### Stamps (R366, R367) -/

/-- x ≤ y among the numbers of one writer. -/
def lvLe (x y : Nat) : Bool := decide ((y + 16384 - x % 16384) % 16384 < 8192)

/-- The entry of a writer in a stamp, and the stamp's epoch. -/
def stampEntry (x : Dword) (w : Nat) : Nat := bits x.toNat (14 * w) 14
def stampEpoch (x : Dword) : Nat := bits x.toNat 56 4

/-- A stamp from its entries. -/
def packStamp (epoch : Nat) (xs : List Nat) : Dword :=
  BitVec.ofNat 64 ((List.range 4).foldl (fun n w => n + 2 ^ (14 * w) * ((xs[w]?).getD 0 % 2 ^ 14)) (2 ^ 56 * (epoch % 16)))

def levantOf (s : State) (die : Nat) : Levant := (s.levant[die]?).getD Levant.reset

def setLevant (s : State) (die : Nat) (x : Levant) : State := { s with levant := s.levant.set die x }

def dieRemoved (s : State) (die : Nat) : Bool := die < 3 && (levantOf s 3).removed.getLsbD die

/-- The latest number of a writer: CD0 to CD2, and the IO ingress on CX. -/
def latest (s : State) (w : Nat) : Nat := (s.numbers[w]?).getD 0

/-- The writer that an access belongs to: the core's die, or the IO ingress for the agents that have no core (R365, R375). -/
def writerOf (core : Nat) : Nat := min 3 (core / 16)

/-! ### Read requests (R369, R370) -/

/-- A seen vector is met: an entry of a removed die counts as met (R371). -/
def stampMet (x : Levant) (stamp : Dword) : Bool :=
  (List.range 4).all (fun w => (w < 3 && x.removed.getLsbD w) || lvLe (stampEntry stamp w) ((x.ct[w]?).getD 0))

/-- The entries of the stamp of the latest write that a line's bytes reflect, one that is still under way included. -/
def lineEntries (s : State) (line : Nat) : List (Nat × Nat) :=
  match (s.packetsLv.filter (fun p => !p.applied && !p.sweep && p.unit / 128 == line)).getLast? with
  | some p => (List.range 4).map (fun w => (w, stampEntry p.stamp w))
  | none => tget [] s.fabric.lines line

/-- The stamp of the latest write that a line's bytes reflect, for a die that reads them. An entry that the writer has since
left 8,192 or more behind is no longer comparable (R367): it stands as the die's own. -/
def lineStamp (s : State) (line die : Nat) : Dword :=
  let x := levantOf s die
  let kept := lineEntries s line
  packStamp x.epoch ((List.range 4).map (fun w => (kept.lookup w).getD ((x.seen[w]?).getD 0)))

/-- A request is served: its response, with the stamp of its bytes, is on the way. -/
def answerRead (r : LvRead) : LvRead := { r with stamp := r.bytes }

/-- The requests that a die holds and that are met are served, oldest first. -/
def serveMet (s : State) (die : Nat) : State :=
  let x := levantOf s die
  setLevant s die { x with
    early := x.early.filter (fun r => !stampMet x r.stamp)
    served := x.served ++ (x.early.filter (fun r => stampMet x r.stamp)).map answerRead }

/-- A die reads a line's bytes as they stand: its request goes out before the next step. -/
def noteRead (s : State) (die line : Nat) : State :=
  { s with fabric := { s.fabric with asked := s.fabric.asked ++ [(die, line, lineStamp s line die)] } }

/-- Bytes of device memory are read for an agent of a core. -/
def noteReads (s : State) (core addr n : Nat) : State :=
  ((sectorsOf addr n).map (· / 8)).eraseDups.foldl (fun s line => noteRead s (writerOf core) line) s

/-- A die's read of a line goes out with the die's seen vector, where no cache of the die holds the line. -/
def sendRead (s : State) (die line : Nat) (bytes : Dword) : State :=
  let x := levantOf s die
  { s with
    tick := s.tick + 1
    fabric := if 3 ≤ die || Config.freeBool s.tick then s.fabric
      else { s.fabric with requests := s.fabric.requests ++ [⟨die, line, packStamp x.epoch x.seen, bytes⟩] } }

/-! ### Arrivals (R368) -/

/-- A number of a writer has arrived: CT takes it, and held requests may be served. -/
def setCt (s : State) (die w n : Nat) : State :=
  let x := levantOf s die
  serveMet (setLevant s die { x with ct := x.ct.set w n }) die

/-- A sweep raises seen to the CT that it has set (R369). -/
def raiseSeen (s : State) (die w n : Nat) : State :=
  let x := levantOf s die
  if lvLe ((x.seen[w]?).getD 0) n then setLevant s die { x with seen := x.seen.set w n } else s

/-- Whether two packets are of one link. -/
def LvPacket.sameLink (p q : LvPacket) : Bool := p.writer == q.writer && p.die == q.die

/-- The stamp of a write that has arrived becomes its line's. -/
def stampLine (s : State) (p : LvPacket) : State :=
  { s with fabric := { s.fabric with
      lines := tset [] s.fabric.lines (p.unit / 128) ((List.range 4).map (fun w => (w, stampEntry p.stamp w))) } }

/-- A packet's link sequence number has been applied. -/
def noteSeq (s : State) (p : LvPacket) : State :=
  let x := levantOf s p.die
  setLevant s p.die { x with seqs := x.seqs.set p.writer (max (p.seq + 1) ((x.seqs[p.writer]?).getD 0)) }

/-- A packet is delivered to its die: its link's retry buffer keeps it for as long as it may not be known to have arrived. -/
def deliverCopy (s : State) (p : LvPacket) : State :=
  { s with packetsLv := (s.packetsLv.filter (fun q => !(q.applied && q.sameLink p))).map (fun q => if q = p then { q with applied := true } else q) }

/-- A packet arrives. One of another epoch is dropped, and one whose link sequence number has been applied already, a copy that was
sent again, is applied no second time (R372). A write's stamp becomes its line's. -/
def arrivePacket (s : State) (p : LvPacket) : State :=
  let x := levantOf s p.die
  if p.epoch != x.epoch then { s with packetsLv := s.packetsLv.erase p }
  else
    let again := decide (p.seq < (x.seqs[p.writer]?).getD 0)
    let s := noteSeq (deliverCopy s p) p
    let s := if p.sweep || again then s else stampLine s p
    let s := setCt s p.die p.writer p.number
    if p.sweep then raiseSeen s p.die p.writer p.number else s

/-- The packets on the way from a writer to a die, oldest first. -/
def linkPackets (s : State) (w die : Nat) : List LvPacket :=
  s.packetsLv.filter (fun p => !p.applied && p.writer == w && p.die == die)

/-- A packet arrives after all those before it on its link (R365). -/
def deliverThrough (s : State) (p : LvPacket) : State :=
  ((linkPackets s p.writer p.die).filter (fun q => decide (q.seq ≤ p.seq))).foldl arrivePacket s

/-- Writes of other dies to any of some sectors arrive before a die's access to them is performed (R347, R370). -/
def deliverFor (s : State) (die : Nat) (sectors : Nat → Bool) : State :=
  (s.packetsLv.filter (fun p => !p.applied && !p.sweep && p.writer != die && sectors (p.unit / 16))).foldl deliverThrough s

/-! ### Sending (R367, R368) -/

/-- The next link sequence number from a writer to a die. -/
def linkSeq (s : State) (w die : Nat) : Nat := tget 0 s.fabric.seqs (4 * w + die)

/-- A packet goes out with its link's next sequence number. -/
def sendPacket (s : State) (p : LvPacket) : State :=
  let n := linkSeq s p.writer p.die
  { s with packetsLv := s.packetsLv ++ [{ p with seq := n }]
           fabric := { s.fabric with seqs := tset 0 s.fabric.seqs (4 * p.writer + p.die) (n + 1) } }

/-- The writes of a writer that have still to arrive before its write `n` may be sent: those numbered n − 8,192 or lower. -/
def tooFarBehind (s : State) (w n : Nat) : List LvPacket :=
  s.packetsLv.filter (fun p => !p.applied && !p.sweep && p.writer == w && !lvLe p.number n)

/-- A write goes out under its writer's next number, with the writer's stamp, once it may. The entries of lines' stamps that the number
leaves 8,192 behind are no longer comparable. -/
def sendWrite (s : State) (w unit order : Nat) : State :=
  let n := (latest s w + 1) % 16384
  let s := (tooFarBehind s w n).foldl deliverThrough s
  let x := levantOf s w
  let lines := s.fabric.lines.filterMap (fun l =>
    let kept := l.2.filter (· != (w, (n + 8192) % 16384))
    if kept.isEmpty then none else some (l.1, kept))
  sendPacket { s with numbers := s.numbers.set w n, fabric := { s.fabric with lines := lines } }
    { writer := w, die := 3, number := n, epoch := x.epoch, sweep := false, stamp := packStamp x.epoch (x.seen.set w n), seq := 0,
      unit := unit, order := order, applied := false }

/-- A sweep of a writer to a die carries its latest number. -/
def sendSweep (s : State) (w die : Nat) : State :=
  let x := levantOf s w
  sendPacket s { writer := w, die := die, number := latest s w, epoch := x.epoch, sweep := true,
                 stamp := packStamp x.epoch (x.seen.set w (latest s w)), seq := 0, unit := 0, order := 0, applied := false }

/-- The writes that have been performed since the last step go out, unit by unit in their order. -/
def postWrites (s : State) : State :=
  if s.mem.order = s.fabric.mark then s
  else
    let new := s.mem.past.filter (fun p => decide (s.fabric.mark ≤ p.upto))
    let s := { s with fabric := { s.fabric with mark := s.mem.order } }
    new.foldl (fun s p => match p.writer, p.loc with
      | some w, .ma a => if dieRemoved s w then s else sendWrite s w a p.upto
      | _, _ => s) s

/-- The packets that stand for writes to a frame's place go with the frame. -/
def movePackets (s : State) (src dst : Nat) : State :=
  { s with packetsLv := s.packetsLv.map (fun p =>
      if !p.sweep && decide (src ≤ p.unit) && decide (p.unit < src + 65536) then { p with unit := dst + (p.unit - src) } else p) }

/-! ### Writes that are lost (R347, R371) -/

/-- A write that takes no place: the unit holds what it would without it. -/
def Mem.unwrite (m : Mem) (unit order : Nat) : Mem :=
  match m.past.find? (fun p => p.loc == .ma unit && p.upto == order && p.writer.isSome) with
  | none => m
  | some e =>
    let past := m.past.erase e
    match past.find? (fun p => p.loc == .ma unit && decide (order < p.upto)) with
    | some q => { m with past := past.map (fun p => if p = q then { q with bytes := e.bytes, marked := e.marked } else p) }
    | none =>
      { m with
        past := past
        cells := writeBytes m.cells unit e.bytes
        dirty := if e.dirty then m.dirty else m.dirty.filter (· != unit / 16)
        poison := if e.marked then insertNat (unit / 16) m.poison else m.poison.filter (· != unit / 16) }

end Sys2Proof.Machine
end

