-- ==== Sys2Proof/Machine/Errors.lean ====
section
/-!
DEFINITION. Error record banks, interrupt messages and freezes (R403, R404, R433 to R437, R442).
-/
namespace Sys2Proof.Machine

open Sys2Proof

abbrev Out := Host.Outcome State Fault Refusal

/-! ### Reads of device memory that no agent of the package makes as an access -/

/-- The bytes at a local DPA as its frame holds them, zero where no frame backs it. -/
def peekDpa (s : State) (dpa n : Nat) : List Byte :=
  let e := s.mem.entry (dpa / 65536)
  if IndV e then s.mem.bytesAt (entryAddr e (dpa % 65536)) n else List.replicate n 0

/-- The partition that a context's record names (R322). -/
def ctxPart (s : State) (ctx : Nat) : Nat := field (peekDpa s (s.ctxtab.toNat + 64 * ctx + 0x10) 1) 0 1

def ctxOf (s : State) (ctx : Nat) : Ctx := tget Ctx.reset s.ctxs ctx

def setCtx (s : State) (ctx : Nat) (c : Ctx) : State := { s with ctxs := tset Ctx.reset s.ctxs ctx c }

def queueOf (s : State) (q : Nat) : Queue := tget Queue.reset s.queues q

def setQueue (s : State) (q : Nat) (x : Queue) : State := { s with queues := tset Queue.reset s.queues q x }

def coreOf (s : State) (c : Nat) : Core := tget Core.reset s.cores c

def setCore (s : State) (c : Nat) (x : Core) : State := { s with cores := tset Core.reset s.cores c x }

/-- The partition of a logical core, 7 for none (R12, R13). -/
def corePart (s : State) (core : Nat) : Nat :=
  match s.dies[core / 16]? with
  | none => 7
  | some d => if core % 16 < 8 then d.partlo else d.parthi

/-- Whether a logical core is in service. -/
def coreLive (s : State) (core : Nat) : Bool := ((s.dies[core / 16]?).map (fun d => !d.fenced && d.live.getLsbD (core % 16))).getD false

/-! ### Interrupt messages (R403) -/

/-- Host-scope stores that wait to be transmitted go out in the order of their issue: they are performed, and their operations learn of
it before the next step. -/
def flushHost (s : State) : State :=
  let waiting := fun (r : Request) => r.kind == 1 && r.peer.isNone && !r.sent
  let now := s.requests.filter waiting
  if now.isEmpty then s
  else
    { s with sent := s.sent ++ now.map (fun r => .hostWrite r.addr r.data false r.ordered)
             requests := s.requests.map (fun r => if waiting r then { r with sent := true } else r) }

/-- A function's message, held pending while its entry is masked. It is sent as a store that a release orders: behind every host-scope
store that has been issued (R356, R362). -/
def msixEntry (s : State) (fn entry : Nat) : State :=
  match s.funcs[fn]? with
  | none => s
  | some f =>
    if f.masked.contains entry then { s with funcs := s.funcs.set fn { f with waiting := insertNat entry f.waiting } }
    else
      let s := flushHost s
      { s with sent := s.sent ++ [.msix fn entry] }

/-- A partition's completion (`err` false) or error message, through each bound VF that has MSI-X enabled, or through PF0. -/
def msix (s : State) (part : Nat) (err : Bool) : State :=
  let vfs := (List.range 6).map (· + 1) |>.filter (fun n =>
    match s.funcs[n]? with
    | some f => f.msixOn && f.part == part
    | none => false)
  if vfs.isEmpty then msixEntry s 0 (2 * part + err.toNat) else vfs.foldl (fun s n => msixEntry s n err.toNat) s

/-! ### Banks (R433, R436) -/

def unitSlice (c : Nat) : Nat := 0x1000 + c
def unitChannel (c : Nat) : Nat := 0x2000 + c
def unitLevant (die far : Nat) : Nat := 0x3000 + 4 * die + far
def unitFibre (f : Nat) : Nat := 0x4000 + f
def unitHostPort : Nat := 0x5000
def unitPacket : Nat := 0x6000

/-- The physical core that carries a logical one (R11, R433). -/
def unitCore (s : State) (core : Nat) : Nat :=
  match s.dies[core / 16]? with
  | none => 0
  | some d => 17 * (core / 16) + (if d.spused && d.spfor == core % 16 then 16 else core % 16)

/-- The units that have a bank. -/
def unitExists (u : Nat) : Bool :=
  let k := u / 4096
  let n := u % 4096
  (k == 0 && n < 51) || (k == 1 && n < 384) || (k == 2 && n < 384) ||
  (k == 3 && n < 16 && n / 4 != n % 4) || (k == 4 && n < 128) || (k == 5 && n == 0) || (k == 6 && n == 0)

/-- The fields of a bank (R433). -/
def bankOf (sev : Nat) (ovf av cons ctxv : Bool) (cause ctx ccnt seq addr synd gang time : Nat) : Bank :=
  BitVec.ofNat 256 (sev % 4 + 4 * ovf.toNat + 8 * av.toNat + 16 * cons.toNat + 32 * ctxv.toNat + 2 ^ 8 * (cause % 256) +
    2 ^ 16 * (ctx % 256) + 2 ^ 32 * (ccnt % 65536) + 2 ^ 48 * (seq % 65536) + 2 ^ 64 * (addr % 2 ^ 64) +
    2 ^ 128 * (synd % 2 ^ 64) + 2 ^ 192 * (gang % 2 ^ 24) + 2 ^ 216 * (time % 2 ^ 40))

def bankSev (b : Bank) : Nat := bits b.toNat 0 2
def bankCcnt (b : Bank) : Nat := bits b.toNat 32 16
def bankSeq (b : Bank) : Nat := bits b.toNat 48 16

/-- The bank after an event, and whether a record was written (R436). -/
def recordIn (b : Bank) (e : Event) : Bank × Bool :=
  let ccnt := if e.sev == 1 then min 0xFFFF (bankCcnt b + 1) else bankCcnt b
  let fresh := fun (ovf : Bool) =>
    bankOf e.sev ovf e.addr.isSome e.cons e.ctx.isSome e.cause (e.ctx.getD 0) ccnt (bankSeq b + 1) (e.addr.getD 0) e.synd
      e.gang (e.clock / 1024)
  if bankSev b == 0 then (fresh (b.getLsbD 2), true)
  else if bankSev b < e.sev then (fresh true, true)
  else
    let b := (b &&& ~~~(BitVec.ofNat 256 (0xFFFF * 2 ^ 32))) ||| BitVec.ofNat 256 (ccnt * 2 ^ 32)
    (if e.sev == 1 then b else b ||| 4, false)

/-- The contexts that have a gang with a member on a physical core. -/
def ctxsAt (s : State) (unit : Nat) : List Nat :=
  (s.gangs.filter (fun q => q.2.cores.any (fun c => unitCore s c == unit))).filterMap (fun q => (tfind s.launches q.2.launch).map (·.ctx))

/-- An event happens. Those of one clock are written to their banks together. -/
def recordEvent (s : State) (e : Event) : State :=
  { s with fresh := s.fresh ++ [{ e with clock := s.clock, ctxs := if e.sev = 3 then ctxsAt s e.unit else [] }] }

/-- An event is written into its unit's bank; a record of severity 2 or 3 sends the error message of the partition that owns
CTX, or of every partition. -/
def writeEvent (s : State) (e : Event) : State :=
  let r := recordIn (tget 0 s.banks e.unit) e
  let s := { s with banks := tset 0 s.banks e.unit r.1, events := s.events ++ [e] }
  if r.2 && 2 ≤ e.sev then
    match e.ctx with
    | some c => msix s (ctxPart s c) true
    | none => (List.range 6).foldl (fun s p => msix s p true) s
  else s

/-- Whether an event is written before another of its clock: the higher severity, then the lower CAUSE (R436). -/
def eventBefore (x y : Event) : Bool := decide (y.sev < x.sev) || (x.sev == y.sev && decide (x.cause ≤ y.cause))

/-- The events of the clock that has ended are written. -/
def settleEvents (s : State) : State := (s.fresh.mergeSort eventBefore).foldl writeEvent { s with fresh := [] }

/-- The row of a channel that holds a line's symbol at a position, as the key of its counts. -/
def rowKey (m : Mem) (line pos : Nat) : Nat :=
  let w := m.heldAt line pos
  w.1 * 2 ^ 32 + Config.rowOf w.1 (512 * w.2 + line % 512) % 2 ^ 32

/-- The two rows on each side of a row, whose key is `chan × 2^32 + bank × 2^24 + row`, are refreshed (R300). -/
def refreshNear (rows : Table Row) (key : Nat) : Table Row :=
  let row := key % 2 ^ 24
  let near := (if 2 ≤ row then [key - 2] else []) ++ (if 1 ≤ row then [key - 1] else []) ++
    (if row + 1 < 2 ^ 24 then [key + 1] else []) ++ (if row + 2 < 2 ^ 24 then [key + 2] else [])
  near.foldl (fun t k => tset Row.reset t k { tget Row.reset t k with acts := 0 }) rows

/-- An activation of a row: the one after 8,192 of them in a refresh window finds its neighbours refreshed (R300). -/
def activateRow (rows : Table Row) (key : Nat) : Table Row :=
  let rows := if (tget Row.reset rows key).acts = 8192 then refreshNear rows key else rows
  let r := tget Row.reset rows key
  tset Row.reset rows key { r with acts := r.acts + 1 }

/-- The activation that reading or writing a line may cost each row that holds its symbols (R300). -/
def noteActivations (s : State) (line : Nat) : State :=
  if hostBase ≤ 128 * line then s
  else { s with mem := { s.mem with rows := (List.range 10).foldl (fun t i => activateRow t (rowKey s.mem line i)) s.mem.rows } }

/-- A read of a line's data symbols may find each of their rows in a row buffer, or the line in the LLC, or not (R299, R300). -/
def mayActivate (s : State) (line : Nat) : State :=
  if hostBase ≤ 128 * line then s
  else
    { s with
      tick := s.tick + 8
      mem := { s.mem with rows := (List.range 8).foldl (fun t i =>
        if Config.freeBool (s.tick + i) then activateRow t (rowKey s.mem line i) else t) s.mem.rows } }

/-- The reads since the last step go out to the slices that home their lines (R370). -/
def settleReads (s : State) : State :=
  if s.fabric.asked.isEmpty then s
  else
    s.fabric.asked.eraseDups.foldl (fun s x => mayActivate (sendRead s x.1 x.2.1 x.2.2) x.2.1) { s with fabric := { s.fabric with asked := [] } }

/-- What a decode found at one position counts for its channel and its row: a symbol that failed its inner check, or one that
was corrected, on a channel in service (R295, R302). -/
def noteSymbol (m : Mem) (line pos : Nat) (failed corrected : Bool) : Mem :=
  let chan := (m.heldAt line pos).1
  if m.dead chan || !(failed || corrected) then m
  else
    let c := m.chan chan
    let r := tget Row.reset m.rows (rowKey m line pos)
    { m with
      chans := tset Chan.reset m.chans chan
        { c with fails := c.fails + failed.toNat, cecnt := min 0xFFFF (c.cecnt + corrected.toNat) }
      rows := tset Row.reset m.rows (rowKey m line pos)
        { r with failed := r.failed + failed.toNat, corrected := r.corrected + corrected.toNat, line := line } }

/-- The counts of every position of a line that a decode has found unsound, from what it found there. -/
def noteSymbols (m old : Mem) (line : Nat) (d : Decoded) : Mem :=
  let fixed := match d with
    | .corrected x => x
    | _ => 0
  (List.range 10).foldl (fun m i => noteSymbol m line i (old.symbolErr line i).fails (bit fixed i)) m

/-- What a decode of a line found is counted, and recorded in its slice's bank: the slice of the channel of data symbol 0 (R297,
R434). `old` is memory before the decode. -/
def recordDecoded (s : State) (old : Mem) (line : Nat) (d : Decoded) : State :=
  let event := fun (cause sev synd : Nat) =>
    recordEvent { s with mem := noteSymbols s.mem old line d }
      { unit := unitSlice (s.mem.interWord (line / 512) 0).chan, cause := cause, sev := sev, addr := some (128 * line), synd := synd }
  match d with
  | .sound => s
  | .corrected x => event 0x01 1 x
  | .poisoned x => event 0x10 2 x

/-- What a fetch of a line has decoded is recorded, and costs the rows of its ten symbols an activation. What symbols that are used as read
cost is drawn where the read goes out (`mayActivate`). -/
def recordFetched (s : State) (old : Mem) (line : Nat) (d : Decoded) : State :=
  match d with
  | .sound => s
  | d => noteActivations (recordDecoded s old line d) line

/-- The lines that a die's access needs are fetched and decoded, with what is found recorded (R292), once other dies' writes to its bytes
have arrived. -/
def fetchLines (s : State) (die addr n : Nat) : State :=
  let s := deliverFor s die (sectorsOf addr n).contains
  let r := s.mem.fetch addr n
  r.2.foldl (fun t x => recordFetched t s.mem x.1 x.2) { s with mem := r.1 }

/-- The sectors of one line that a word's grain needs, likewise (R292, R316). -/
def fetchGrain (s : State) (die line : Nat) (need : List Nat) : State :=
  let s := deliverFor s die (need.map (· + 8 * line)).contains
  if hostBase ≤ 128 * line then s
  else
    let r := s.mem.fetchSectors line need
    recordFetched { s with mem := r.1 } s.mem line r.2

/-! ### Takeover triggers (R442) -/

/-- Clocks of a second and of 24 hours at 1.05 GHz. -/
def secondClocks : Nat := 1050000000
def dayClocks : Nat := 86400 * 1050000000

/-- Whether a physical core's events call for its takeover. -/
def takeoverDue (s : State) (unit : Nat) : Bool :=
  let events := s.events ++ s.fresh
  let within := fun (causes : List Nat) (span : Nat) =>
    (events.filter (fun e => e.unit == unit && causes.contains e.cause && s.clock < e.clock + span)).length
  4 ≤ within [0x22] secondClocks || 256 ≤ within [0x02] secondClocks || 2 ≤ within [0x12, 0x24] dayClocks ||
  2 ≤ ((events.filter (fun e => e.unit == unit && e.cause == 0x25)).map (·.synd)).eraseDups.length

/-! ### Freezes (R404) -/

/-- The record of a freeze: class 0 queue, 1 context, 2 host function, 3 engine, 4 peer port (R405, R434). -/
def freezeRecord (s : State) (cls number synd : Nat) (ctx : Option Nat) (gang : Option Nat := none) : State :=
  recordEvent s { unit := if cls == 2 then unitHostPort else unitPacket, cause := 0x13, sev := 2,
                  addr := some (cls * 65536 + number), synd := synd, ctx := ctx, gang := gang.getD 0 }

def freezeQueue (s : State) (q synd : Nat) : State :=
  let x := queueOf s q
  let s := freezeRecord s 0 q synd (some x.ctx.toNat)
  if x.state == 1 then setQueue s q { queueOf s q with state := 2 } else s

/-- A context freezes, by the work of a gang where one is known. -/
def freezeCtx (s : State) (ctx synd : Nat) (gang : Option Nat) : State :=
  let s := freezeRecord s 1 ctx synd (some ctx) gang
  setCtx s ctx { ctxOf s ctx with frozen := true }

def freezeFn (s : State) (fn synd : Nat) : State :=
  let s := freezeRecord s 2 fn synd none
  match s.funcs[fn]? with
  | none => s
  | some f => { s with funcs := s.funcs.set fn { f with frozen := true } }

def freezePort (s : State) (dev synd : Nat) : State :=
  let s := freezeRecord s 4 dev synd none
  { s with peers := tset peerReset s.peers dev (tget peerReset s.peers dev ||| 0x20) }

def freezeEngine (s : State) (core engine : Nat) : State :=
  let s := recordEvent s { unit := unitCore s core, cause := 0x25, sev := 3, synd := engine }
  let c := coreOf s core
  setCore s core { c with engines := c.engines.set engine true }

end Sys2Proof.Machine
end

