-- ==== Sys2Proof/Machine/Optics.lean ====
section
/-!
DEFINITION. The wavelengths that flits leave on (R373, R374, R377, R378): which are in service, which one a flit takes, and which
requests have room to leave.
-/
namespace Sys2Proof.Machine

open Sys2Proof

/-! ### Wavelengths in service -/

def fibreOf (s : State) (f : Nat) : Fibre := tget Fibre.reset s.fibres f

def setFibre (s : State) (f : Nat) (x : Fibre) : State := { s with fibres := tset Fibre.reset s.fibres f x }

/-- The optical die of a wavelength, numbered 16 × fibre + i (R373). -/
def opticalDie (wave : Nat) : Nat := wave / 16 / 32

/-- The wavelengths of a fibre that a power step leaves awake (R445): 16, 8 or 4, the lowest-numbered (log entry 83). -/
def awakeWaves (step : Nat) : BitVec 16 := if step < 9 then 0xFFFF else if step < 10 then 0x00FF else 0x000F

/-- The wavelengths of a fibre that are in service: trained, not failed, and not slept (R378). -/
def upNow (s : State) (f : Nat) : BitVec 16 := (fibreOf s f).up &&& awakeWaves s.power.step

/-- Whether a fibre carries flits for a device: one of the previous generation needs a fibre in compatibility mode (R377). -/
def fibreServes (s : State) (dev f : Nat) : Bool := !(tget peerReset s.peers dev).getLsbD 1 || (fibreOf s f).trained

/-- The wavelengths in service that carry flits for a device, in ascending order. -/
def wavesFor (s : State) (dev : Nat) : List Nat :=
  s.fibres.flatMap (fun x =>
    if fibreServes s dev x.1 then ((List.range 16).filter (upNow s x.1).getLsbD).map (16 * x.1 + ·) else [])

/-! ### The wavelength of a flit (R374) -/

/-- The first number of an ascending list from `base` on, around the end. -/
def cyclicFrom (base : Nat) (ws : List Nat) : Option Nat := (ws.find? (fun w => decide (base ≤ w))).orElse (fun _ => ws.head?)

/-- The place among all wavelengths that the hash of a device and a line gives. -/
def waveBase (dev line : Nat) : Nat := Config.waveHash dev line % 2048

/-- The requests whose flits are outstanding. -/
def flitsOut (s : State) : List Request := s.requests.filter (fun r => r.peer.isSome && r.sent)

/-- The wavelengths out of service that flits are still outstanding on, of fibres that carry flits for a device: their lines stay with them
until the replies have come (R378). -/
def drainingFor (s : State) (dev : Nat) : List Nat :=
  (((flitsOut s).filterMap (·.wave)).filter (fun w => fibreServes s dev (w / 16) && !(upNow s (w / 16)).getLsbD (w % 16))).eraseDups

/-- The wavelength that a flit for a device and a line leaves on now: the first from its hash on, which must be in service, and no other
than that of an outstanding flit to the line. -/
def waveFor (s : State) (dev line : Nat) : Option Nat :=
  let up := wavesFor s dev
  match cyclicFrom (waveBase dev line) ((drainingFor s dev).foldl (fun ws w => insertNat w ws) up) with
  | none => none
  | some w =>
    let elsewhere := (flitsOut s).any (fun r => r.peer == some dev && r.addr / 128 == line && r.wave != some w)
    if up.contains w && !elsewhere then some w else none

/-! ### Room (R374) -/

/-- The core that sent a request. -/
def requestCore (s : State) (r : Request) : Nat :=
  if r.kind ≤ 2 then r.group / 128
  else match r.reg with
    | 0 => ((tfind s.transfers r.word).map (·.core)).getD 48
    | 3 => r.lane
    | _ => 48

/-- Whether a core may have one more request outstanding, of 512, and a wavelength's optical die, of 8,192. -/
def roomFor (s : State) (r : Request) (wave : Nat) : Bool :=
  let core := requestCore s r
  let out := flitsOut s
  (48 ≤ core || decide ((out.filter (fun x => requestCore s x == core)).length < 512)) &&
    decide ((out.filter (fun x => x.wave.map opticalDie == some (opticalDie wave))).length < 8192)

/-- The wavelength that a peer's request leaves on now, behind the earlier ones to its line; none while it waits in its core. -/
def departsOn (s : State) (r : Request) : Option Nat :=
  match r.peer with
  | none => none
  | some dev =>
    if s.requests.any (fun x => x.peer == some dev && x.addr / 128 == r.addr / 128 && !x.sent && decide (x.tag < r.tag)) then none
    else (waveFor s dev (r.addr / 128)).filter (roomFor s r)

/-- A request leaves on a wavelength, whose retry buffer keeps its flit until it is answered. -/
def departed (s : State) (r : Request) (wave : Nat) : Request := { r with sent := true, wave := some wave, issuedAt := s.clock }

/-- The requests that wait in their cores, and the replies that wait for a wavelength, leave when they can. -/
def sendWaiting (s : State) : State :=
  let s := (s.requests.filter (fun r => r.peer.isSome && !r.sent)).foldl (fun s r =>
    match departsOn s r, r.flit with
    | some w, some f =>
      { s with requests := s.requests.map (fun x => if x.tag = r.tag then departed s x w else x), sent := s.sent ++ [.flit f] }
    | _, _ => s) s
  if s.fabric.replies.isEmpty then s
  else
    let ready := fun (f : Flit) => !(wavesFor s f.dst.toNat).isEmpty
    { s with sent := s.sent ++ (s.fabric.replies.filter ready).map .flit
             fabric := { s.fabric with replies := s.fabric.replies.filter (fun f => !ready f) } }

/-- A reply leaves, or waits for a wavelength. -/
def sendReply (s : State) (f : Flit) : State :=
  let ready := !(wavesFor s f.dst.toNat).isEmpty
  { s with sent := if ready then s.sent ++ [.flit f] else s.sent
           fabric := if ready then s.fabric else { s.fabric with replies := s.fabric.replies ++ [f] } }

/-- A wavelength's outstanding flits are sent again (R378). -/
def resendOn (s : State) (waves : Nat → Bool) : State :=
  { s with requests := s.requests.map (fun r => if r.sent && (r.wave.map waves).getD false then { r with issuedAt := s.clock } else r) }

end Sys2Proof.Machine
end

