-- ==== Sys2Proof/Machine/Translate.lean ====
section
/-!
DEFINITION. Translation of virtual addresses: the walk, its checks in order, and the translations that an access may use
until an invalidation covers them (R320 to R332, R334).
-/
namespace Sys2Proof.Machine

open Sys2Proof

/-- Who makes an access: the core whose caches it uses (48 for the packet processor), its context and partition, whether it is
privileged, the dropped frames that it passes (R339), and, for an ordinary load of a thread, its group's key and its lane. -/
structure Who where
  core  : Nat
  ctx   : Nat
  part  : Nat
  priv  : Bool
  regen : List Nat := []
  thread : Option (Nat × Nat) := none
deriving DecidableEq, Repr, Inhabited

/-- The kind of an access, with its code in TINFO1 of class 9 (R406). -/
inductive Kind where
  | load
  | store
  | atomic
  | fetch
deriving DecidableEq, Repr, Inhabited

def Kind.code : Kind → Nat
  | .load => 0
  | .store => 1
  | .atomic => 2
  | .fetch => 3

/-- Where a translated access goes. -/
inductive Dest where
  /-- Aperture 0: the DPA, and the machine address that its indirection entry gives. -/
  | dev (dpa ma : Nat)
  /-- Aperture 1: the DPA on a peer device. -/
  | peer (device dpa : Nat)
  /-- Aperture 2: the host address. -/
  | host (addr : Nat)
deriving DecidableEq, Repr, Inhabited

abbrev XResult (α : Type) := Except XBad α

/-- The causes of R327, with the peer's refusal, that are a translation fault; the others freeze the agent (R328). -/
def translationFault (n : Nat) : Bool := n == 1 || n == 2 || n == 5 || n == 7 || n == 8 || n == 11

/-! ### Draws of free values -/

/-- One of several allowed values, by a draw that nothing constrains; no draw is made where only one is allowed. -/
def draw {α : Type} (s : State) (xs : List α) (x : α) : State × α :=
  match xs with
  | [] => (s, x)
  | _ => ({ s with tick := s.tick + 1 }, ((x :: xs)[Config.freeChoice s.tick % (xs.length + 1)]?).getD x)

/-! ### Entries (R324, R326) -/

def LeafV (e : Dword) : Bool := e.getLsbD 0
def LeafSize (e : Dword) : Nat := bits e.toNat 1 3
def LeafR (e : Dword) : Bool := e.getLsbD 4
def LeafW (e : Dword) : Bool := e.getLsbD 5
def LeafX (e : Dword) : Bool := e.getLsbD 6
def LeafPriv (e : Dword) : Bool := e.getLsbD 7
def LeafApt (e : Dword) : Nat := bits e.toNat 8 2
def LeafFrame (e : Dword) : Nat := bits e.toNat 12 29
def LeafFmt (e : Dword) : Nat := bits e.toNat 44 4
def LeafGeom (e : Dword) : Nat := bits e.toNat 48 2
def LeafSci (e : Dword) : Nat := bits e.toNat 50 8
def LeafRg (e : Dword) : Bool := e.getLsbD 58
def LeafCap (e : Dword) : Bool := e.getLsbD 59
def LeafPeer (e : Dword) : Nat := bits e.toNat 44 8
def LeafHostHi (e : Dword) : Nat := bits e.toNat 44 15
def LeafRap (e : Dword) : Bool := if LeafApt e == 1 then e.getLsbD 52 else e.getLsbD 59

/-- Bytes of a page by its SIZE code (R323). -/
def pageBytes : Nat → Nat
  | 0 => 4096
  | 1 => 16384
  | 2 => 65536
  | 3 => 262144
  | 4 => 2 ^ 21
  | 5 => 2 ^ 25
  | _ => 2 ^ 30

/-- How many entries a leaf of the SIZE fills (R325). -/
def groupEntries : Nat → Nat
  | 1 => 4
  | 2 => 16
  | 3 => 64
  | 5 => 16
  | _ => 1

/-- Leaf sizes of a level (R323). -/
def sizeAllowed (level size : Nat) : Bool :=
  (level == 2 && size == 6) || (level == 1 && (size == 4 || size == 5)) || (level == 0 && size ≤ 3)

/-- A valid entry that is a structure fault in itself (R324, R327 check 3). -/
def leafFault (level : Nat) (e : Dword) : Bool :=
  let size := LeafSize e
  if size == 7 then
    level == 0 || bits e.toNat 4 8 != 0 || bits e.toNat 48 16 != 0 || 2 ^ 41 ≤ 4096 * bits e.toNat 12 36
  else
    !sizeAllowed level size || LeafApt e == 3 || LeafFrame e % (pageBytes size / 4096) != 0 ||
    (if LeafApt e == 1 then bits e.toNat 53 11 != 0 else bits e.toNat 60 4 != 0)

/-! ### Reads of tables (R332) -/

/-- What the `n` bytes at a DPA, which now stands at a machine address, have held: each earlier value, with the order of the write that
ended it. -/
def Mem.earlier (m : Mem) (dpa ma n : Nat) : List (Nat × Nat) :=
  let here := fun (p : Past) => match p.loc with
    | .ma a => decide (a < ma + n) && decide (ma < a + 16)
    | .dpa a => decide (a < dpa + n) && decide (dpa < a + 16)
    | _ => false
  let past := m.past.filter here
  let byteAt := fun (u i : Nat) =>
    ((past.filter (fun p => u ≤ p.upto)).foldl (fun (b : Option Past) p =>
      let covers := match p.loc with
        | .ma a => a == 16 * ((ma + i) / 16)
        | .dpa a => a == 16 * ((dpa + i) / 16)
        | _ => false
      if !covers then b
      else match b with
        | none => some p
        | some q => if p.upto < q.upto then some p else some q) none).map (fun p => (p.bytes[(ma + i) % 16]?).getD 0)
  (past.map (·.upto)).eraseDups.map (fun u => (u, leNat ((List.range n).map (fun i => (byteAt u i).getD (m.byte (ma + i))))))

/-- When an agent's translations that an invalidation of a page, or of everything, takes away were last invalidated. -/
def sweptAt (s : State) (w : Who) (covers : Option Nat → Bool) : Nat :=
  s.swept.foldl (fun n x => if x.cores.contains w.core && x.ctxs.contains w.ctx && covers x.page then max n x.order else n) 0

/-- The earlier values of `n` bytes that an agent may still use: those that have stood there since the last invalidation that covers
them. -/
def stillUsable (s : State) (w : Who) (covers : Nat → Option Nat → Bool) (dpa ma n : Nat) : List Nat :=
  ((s.mem.earlier dpa ma n).filter (fun x => sweptAt s w (covers x.2) ≤ x.1)).map (·.2)

/-- What stopped an access, where poison that a walk or a table read meets is reported at the address of the access (R434). -/
def XBad.seenAt (va : Nat) : XBad → XBad
  | .poison _ => .poison va
  | b => b

/-- A table entry, context word or descriptor as an agent may read it: what stands there, an earlier value that it may still use, or one
of some others. -/
def readTable (s : State) (w : Who) (covers : Nat → Option Nat → Bool) (others : State → Nat → List Nat) (dpa n : Nat) :
    State × XResult Nat :=
  let e := s.mem.entry (dpa / 65536)
  if 2 ^ 41 ≤ dpa || !IndV e then (s, .error (.cause 3))
  else
    let a := entryAddr e (dpa % 65536)
    if !s.mem.present a then (s, .error (.wait (a / 128)))
    else
      let s := noteReads (fetchLines s (writerOf w.core) a n) w.core a n
      if s.mem.marked a n then (s, .error (.poison a))
      else
        let x := leNat (s.mem.bytesAt a n)
        let r := draw s ((stillUsable s w covers dpa a n ++ others s a).filter (· != x)) x
        (r.1, .ok r.2)

/-- A context word, which only an invalidation of its whole context covers (R322), and a descriptor, which every one does (R334). -/
def readCtxWord (s : State) (w : Who) (dpa : Nat) : State × XResult Nat :=
  readTable s w (fun _ page => page.isNone) (fun _ _ => []) dpa 8
def readDescriptorAt (s : State) (w : Who) (dpa : Nat) : State × XResult Nat := readTable s w (fun _ _ => true) (fun _ _ => []) dpa 32

/-- Whether an invalidation covers what stands for the `span` bytes that hold a VA. -/
def pageCovers (span va : Nat) : Option Nat → Bool
  | none => true
  | some p => p / span == va / span

/-- The bytes of virtual memory that a value of an entry at a level stands for. -/
def entrySpan (level x : Nat) : Nat :=
  let e : Dword := BitVec.ofNat 64 x
  if LeafV e && sizeAllowed level (LeafSize e) then pageBytes (LeafSize e) else 4096 * 512 ^ level

/-- The values of the other entries of a group that some entry of it claims as one page, of any of the level's sizes: an access anywhere
in the page may use the value of any of them (R325), as a cache may hold it for the whole page (R330). -/
def groupValues (w : Who) (level va dpa : Nat) (s : State) (ma : Nat) : List Nat :=
  (if level = 0 then [1, 2, 3] else if level = 1 then [5] else []).flatMap (fun size =>
    let n := groupEntries size
    let lo := ma - dpa % (8 * n)
    let off := dpa - dpa % (8 * n)
    let near := (s.mem.cells.filter (fun c => lo ≤ c.1 && c.1 < lo + 8 * n)).map (fun c => (c.1 - lo) / 8)
    let old := s.mem.past.flatMap (fun p => match p.loc with
      | .ma a => if lo ≤ a && a < lo + 8 * n then [(a - lo) / 8, (a - lo) / 8 + 1] else []
      | .dpa a => if off ≤ a && a < off + 8 * n then [(a - off) / 8, (a - off) / 8 + 1] else []
      | _ => [])
    let listed := (near ++ old).eraseDups
    let all := listed.flatMap (fun i =>
      leNat (s.mem.bytesAt (lo + 8 * i) 8) :: stillUsable s w (fun _ => pageCovers (pageBytes size) va) (off + 8 * i) (lo + 8 * i) 8)
    let claims := fun (x : Nat) => let e : Dword := BitVec.ofNat 64 x; LeafV e && LeafSize e == size
    if all.any claims then (if listed.length < n then 0 :: all else all) else [])

/-- The walk from a table down to a leaf, by recursion on the table's level (R323). -/
def walkFrom (w : Who) (va : Nat) : Nat → State → Nat → State × XResult Dword
  | 0, s, _ => (s, .error (.cause 3))
  | level + 1, s, table =>
    let index := if level == 4 then bits va 48 8 else bits va (12 + 9 * level) 9
    let dpa := table + 8 * index
    match readTable s w (fun x => pageCovers (entrySpan level x) va) (groupValues w level va dpa) dpa 8 with
    | (s, .error b) => (s, .error b)
    | (s, .ok x) =>
      let e : Dword := BitVec.ofNat 64 x
      if !LeafV e then (s, .error (.cause 2))
      else if leafFault level e then (s, .error (.cause 3))
      else if LeafSize e == 7 then
        let next := 4096 * bits e.toNat 12 36
        if !IndV (s.mem.entry (next / 65536)) then (s, .error (.cause 3)) else walkFrom w va level s next
      else (s, .ok e)

/-- The context record's address (R322). -/
def ctxRecord (s : State) (ctx : Nat) : Nat := s.ctxtab.toNat + 64 * ctx

/-- The leaf that maps a VA (R323). -/
def walk (s : State) (w : Who) (va : Nat) : State × XResult Dword :=
  match readCtxWord s w (ctxRecord s w.ctx) with
  | (s, .error b) => (s, .error b)
  | (s, .ok root) =>
    if root % 4096 != 0 || 2 ^ 41 ≤ root || !IndV (s.mem.entry (root / 65536)) then (s, .error (.cause 3))
    else walkFrom w va 5 s root

/-- Whether a device is present in the scale-up domain (R376). -/
def peerPresent (s : State) (dev : Nat) : Bool := (tget peerReset s.peers dev).getLsbD 0

/-- The checks on a leaf in order (R327, checks 4 to 8), for an access of a kind; `typed` marks LDE, STE and gathers. -/
def leafChecks (s : State) (w : Who) (k : Kind) (typed : Bool) (e : Dword) : Option Nat :=
  let may := match k with
    | .load => LeafR e
    | .store => LeafW e
    | .atomic => LeafR e && LeafW e
    | .fetch => LeafX e
  if LeafPriv e && !w.priv then some 4
  else if !may then some 5
  else if LeafApt e == 1 && !peerPresent s (LeafPeer e) then some 6
  else if k == .atomic && LeafApt e != 0 && !LeafRap e then some 7
  else if typed && LeafApt e != 0 then some 8
  else none

/-- Whether an agent passes the DROPPED check of a frame: its launch regenerates it, and the frame has not failed (R339, R340). -/
def passesDropped (s : State) (w : Who) (f : Nat) : Bool :=
  w.regen.contains f && !s.mem.services.any (fun r => r.frame == f && r.failed)

/-- A DPA of this device resolved for an agent of a partition (R286, checks 9 and 10). -/
def resolveDpa (s : State) (w : Who) (rg : Bool) (dpa : Nat) : XResult Nat :=
  let f := dpa / 65536
  let e := s.mem.entry f
  if 2 ^ 41 ≤ dpa || !IndV e || IndPart e != w.part then .error (.cause 9)
  else if IndDropped e && !passesDropped s w f then .error (.dropped f rg)
  else .ok (entryAddr e (dpa % 65536))

/-- The leaf that an access of a kind may use (R327, checks 1 to 8). -/
def leafOf (s : State) (w : Who) (k : Kind) (typed : Bool) (va : Nat) : State × XResult Dword :=
  if 2 ^ 56 ≤ va then (s, .error (.cause 1))
  else
    match walk s w va with
    | (s, .error b) => (s, .error (b.seenAt va))
    | (s, .ok e) =>
      match leafChecks s w k typed e with
      | some c => (s, .error (.cause c))
      | none => (s, .ok e)

/-- Where a leaf sends a VA (R326, R327 checks 9 and 10). -/
def destOf (s : State) (w : Who) (e : Dword) (va : Nat) : XResult Dest :=
  let addr := 4096 * LeafFrame e + va % pageBytes (LeafSize e)
  match LeafApt e with
  | 1 => .ok (.peer (LeafPeer e) addr)
  | 2 => .ok (.host (addr + LeafHostHi e * 2 ^ 41))
  | _ =>
    match resolveDpa s w (LeafRg e) addr with
    | .error b => .error b
    | .ok ma => if s.mem.present ma then .ok (.dev addr ma) else .error (.wait (ma / 128))

/-- The leaf and destination of an access (R327). -/
def translate (s : State) (w : Who) (k : Kind) (typed : Bool) (va : Nat) : State × XResult (Dword × Dest) :=
  match leafOf s w k typed va with
  | (s, .error b) => (s, .error b)
  | (s, .ok e) =>
    match destOf s w e va with
    | .error b => (s, .error b)
    | .ok d => (s, .ok (e, d))

/-- An invalidation completes on some cores, for some contexts and one page or everything: from now on their accesses use nothing that
an entry so covered held before (R332, R336). -/
def invalidate (s : State) (cores : Nat → Bool) (covers : Nat → Bool) (page : Option Nat) : State :=
  { s with swept := s.swept ++ [⟨(List.range 49).filter cores, (List.range 256).filter covers, page, s.mem.order⟩] }

end Sys2Proof.Machine
end

