-- ==== Sys2Proof/Machine/Ops.lean ====
section
/-!
DEFINITION. The named operations over groups, fragments, registers and counters, and the one operation that takes a trap,
with its climb from rung to rung, and the one that returns from it.
-/
namespace Sys2Proof.Machine

open Sys2Proof

/-! ### Gangs, launches and who accesses -/

def gangOf (s : State) (uid : Nat) : Option Gang := tfind s.gangs uid

def setGang (s : State) (uid : Nat) (x : Gang) : State := { s with gangs := tput s.gangs uid x }

def groupOf (s : State) (key : Nat) : Option Group := tfind s.groups key

def setGroup (s : State) (key : Nat) (g : Group) : State := { s with groups := tput s.groups key g }

def launchOf (s : State) (uid : Nat) : Option Launch := tfind s.launches uid

def setLaunch (s : State) (uid : Nat) (x : Launch) : State := { s with launches := tput s.launches uid x }

/-- The logical core and the slot of a group's key (R52, R422). -/
def coreOfKey (key : Nat) : Nat := key / 128
def slotOfKey (key : Nat) : Nat := key % 128

/-- Fields of a launch record (R384). -/
def recNat (l : Launch) (off n : Nat) : Nat := field l.record off n
def recWidth (l : Launch) : Nat := recNat l 0x20 1
def recTeam (l : Launch) : Nat := recNat l 0x21 1
def recGteams (l : Launch) : Nat := recNat l 0x22 1
def recShape (l : Launch) : Nat := recNat l 0x23 1
def recRegs (l : Launch) : Nat := recNat l 0x24 1
def recB1 (l : Launch) : Nat := recNat l 0x25 1
def recB2 (l : Launch) : Nat := recNat l 0x26 1
def recB3 (l : Launch) : Nat := recNat l 0x27 1
def recScratch (l : Launch) : Nat := recNat l 0x28 4
def recAcc (l : Launch) : Nat := recNat l 0x2C 2
def recSpmin (l : Launch) : Nat := recNat l 0x2E 2
def recThreads (l : Launch) : Nat := recNat l 0x30 2
def recPrio (l : Launch) : Nat := recNat l 0x32 1
def recFlags (l : Launch) : Nat := recNat l 0x33 1
def recGangs (l : Launch) : Nat := recNat l 0x34 4
def recSpbase (l : Launch) : Nat := recNat l 0x38 8
def recCbase (l : Launch) : Nat := recNat l 0x10 8
def recEntry (l : Launch) : Nat := recNat l 0x18 8
def recCheck (l : Launch) : Bool := bit (recFlags l) 0
def recRestart (l : Launch) : Bool := bit (recFlags l) 1
def recPriv (l : Launch) : Bool := bit (recFlags l) 2
def recCoop (l : Launch) : Bool := bit (recFlags l) 3
def recCapture (l : Launch) : Bool := bit (recFlags l) 4

/-- The launch of a group's gang. -/
def launchOfGroup (s : State) (g : Group) : Option Launch :=
  match gangOf s g.gang with
  | none => none
  | some q => launchOf s q.launch

/-- Who a launch's accesses are made by, on a core. -/
def whoLaunch (core : Nat) (l : Launch) : Who := ⟨core, l.ctx, l.part, recPriv l, l.regenOf, none⟩

/-- Who a group's accesses are made by. -/
def whoGroup (s : State) (key : Nat) (g : Group) : Who :=
  match launchOfGroup s g with
  | none => ⟨coreOfKey key, 0, 7, false, [], none⟩
  | some l => whoLaunch (coreOfKey key) l

/-- Who the packet processor's accesses for a context are made by. -/
def whoCtx (s : State) (ctx : Nat) (priv : Bool) : Who := ⟨48, ctx, ctxPart s ctx, priv, [], none⟩

/-- An access as one of a thread's own. -/
def Who.ofThread (w : Who) (key ln : Nat) : Who := { w with thread := some (key, ln) }

/-! ### Fragments -/

/-- The live lanes of a group. -/
def liveLanes (g : Group) : Dword := g.created &&& ~~~g.exited

/-- The fragment that holds a lane. -/
def fragAt (g : Group) (l : Nat) : Option Frag := g.frags.find? (fun f => lane f.lanes l)

/-- Replace the fragments that hold lanes of a mask by others. -/
def putFrags (g : Group) (m : Dword) (fs : List Frag) : Group :=
  { g with frags := g.frags.filter (fun f => f.lanes &&& m == 0) ++ fs }

/-- Change the fragment of exactly these lanes. -/
def modFrag (g : Group) (m : Dword) (h : Frag → Frag) : Group :=
  { g with frags := g.frags.map (fun f => if f.lanes == m then h f else f) }

/-- A fragment that stands at an address outside a clause. -/
def fragAtHeader (m : Dword) (pc clock : Nat) : Frag :=
  ⟨m, pc, none, .ready, clock, [], 0, false, 0, none, clock, 0⟩

/-- Where a fragment stands after `n` words (R18): inside its clause, or at the next header. -/
def afterWords (c : Option Clause) (pc n : Nat) : Nat × Option Clause :=
  match c with
  | none => (pc + 4 * n, none)
  | some k =>
    let stop := k.head + 4 + 4 * hdrCount k.word
    let next := pc + 4 * n
    if next < stop then (next, some k) else (stop, none)

/-- What stands for the lowest Active lane of a word that has stopped before it performed anything. -/
def unperformed : Nat := 1024

/-- The fragment's word issues for the first time, or as if for the first time: no part of it has been performed (R418). -/
def Frag.fresh (f : Frag) : Bool := !f.resumed || f.first == unperformed

/-- A fragment whose word stops before it performs anything keeps what an earlier stop noted of it. -/
def Frag.stops (f : Frag) : Frag := if f.resumed then f else { f with first := unperformed }

/-- %pix once the fragment's word is done: 0 after a word that was resumed from a stop, else as it was (R417). -/
def Frag.pixAfter (f : Frag) : Nat := match f.hold with
  | .between pix _ => pix
  | _ => if f.resumed then 0 else f.pix

/-- A fragment that has completed `n` words. -/
def Frag.past (f : Frag) (n clock : Nat) : Frag :=
  let p := afterWords f.clause f.pc n
  { f with pc := p.1, clause := p.2, hold := .ready, since := clock, probe := [],
           pix := f.pixAfter, resumed := false, first := 0, op := none, age := clock }

/-- A fragment that has moved to a header. -/
def Frag.moved (f : Frag) (target clock : Nat) : Frag :=
  { f with pc := target, clause := none, hold := .ready, since := clock, probe := [],
           pix := if f.resumed then 0 else f.pix, resumed := false, first := 0, op := none, age := clock }

/-- A fragment that begins, or goes on, to wait. -/
def Frag.holding (f : Frag) (h : Hold) (clock : Nat) : Frag :=
  if f.hold = h then f else { f with hold := h, since := clock, probe := [] }

/-! ### The unit being issued -/

/-- The unit being issued with its group and fragment. -/
structure Issue where
  key    : Nat
  g      : Group
  f      : Frag
  words  : List Word
deriving DecidableEq, Repr, Inhabited

/-- The operands of a word that issues. -/
def operandsOf (g : Group) (words : List Word) : Operands := ⟨words, g.v, g.s, g.m, g.round⟩

/-- The group as a fragment's word reads it: a word that has broken off between its lanes has read its operands (R27). -/
def Frag.view (f : Frag) (g : Group) : Group :=
  match f.hold with
  | .between _ k => { g with v := k.v, s := k.s, m := k.m, round := k.round }
  | _ => g

def issueOf (s : State) : Option Issue :=
  match s.cur with
  | none => none
  | some c =>
    match groupOf s c.group with
    | none => none
    | some g =>
      match g.frags.find? (fun f => f.lanes == c.lanes) with
      | none => none
      | some f => some ⟨c.group, g, f, c.words⟩

/-- The unit as its word reads its operands: as they were when it issued, where it has broken off between its lanes. -/
def Issue.asRead (u : Issue) : Issue := { u with g := u.f.view u.g }

/-- The meaning of a word of the code, over the unit being issued. -/
def withIssue (s : State) (k : Issue → Out) : Out :=
  match issueOf s with
  | none => .fault .noIssuingUnit
  | some u => k u

/-- The unit's fragment passes on to its next word, in the group as it now stands. -/
def finish (s : State) (u : Issue) : State :=
  match groupOf s u.key with
  | none => s
  | some g => setGroup s u.key (modFrag g u.f.lanes (fun f => f.past u.words.length s.clock))

/-- The unit's fragment waits at its word. -/
def holdUnit (s : State) (u : Issue) (h : Hold) : State :=
  match groupOf s u.key with
  | none => s
  | some g => setGroup s u.key (modFrag g u.f.lanes (fun f => f.holding h s.clock))

/-- Change the unit's group. -/
def modGroup (s : State) (key : Nat) (h : Group → Group) : State :=
  match groupOf s key with
  | none => s
  | some g => setGroup s key (h g)

/-! ### Registers (R31, R113, R160) -/

def vreg (g : Group) (r l : Nat) : Word := tget 0 g.v (64 * r + l)

def setVreg (g : Group) (r l : Nat) (x : Word) : Group := { g with v := tset 0 g.v (64 * r + l) x }

def sreg (g : Group) (r : Nat) : Dword := tget 0 g.s r

def setSreg (g : Group) (r : Nat) (x : Dword) : Group := { g with s := tset 0 g.s r x }

/-- A mask register: m0 reads all ones below the width, and positions at or beyond it read 0 (R160). -/
def maskReg (g : Group) (m : Nat) : Dword :=
  if m = 0 then below g.width else tget 0 g.m m &&& below g.width

/-- Write a mask register; writes beyond the width are ignored. -/
def setMask (g : Group) (m : Nat) (x : Dword) : Group := { g with m := tset 0 g.m m (x &&& below g.width) }

/-- Whether an operand field names a scalar, and which. -/
def isScalar (x : Opnd) : Bool := 192 ≤ x.toNat
def scalarNo (x : Opnd) : Nat := x.toNat - 192

/-- The 32-bit value of an operand in a lane. -/
def val32 (g : Group) (x : Opnd) (l : Nat) : Word :=
  if isScalar x then (sreg g (scalarNo x)).setWidth 32 else vreg g x.toNat l

/-- The 64-bit value of an operand in a lane: a scalar, or the pair from an even register (R113). -/
def val64 (g : Group) (x : Opnd) (l : Nat) : Dword :=
  if isScalar x then sreg g (scalarNo x) else vreg g (x.toNat + 1) l ++ vreg g x.toNat l

/-- The first register of a list of positions, each with its count of registers, that R31 does not allow: a vector register
beyond the allocation or not aligned to its count, and a scalar where four registers are meant. -/
def badReg (g : Group) : List (Opnd × Nat) → Option Nat
  | [] => none
  | (x, n) :: xs =>
    let bad := if isScalar x then 4 ≤ n else x.toNat % n != 0 || 8 * g.held < x.toNat + n
    if bad then some x.toNat else badReg g xs

/-! ### Code positions (R42) -/

/-- The code offsets of a kernel's safe points, in ordinal order. -/
def Kernel.safe (k : Kernel) : List Nat := k.rows.map (·.addr)

/-- The ordinal and word offset of a code address in the launch's kernel.

DESIGN CHOICE (log entry 77): a location below every row of its kernel, to which R42 gives no row, is reported as (0, 0). -/
def codePos (s : State) (l : Option Launch) (pc : Nat) : Nat × Nat :=
  match l with
  | none => (0, 0)
  | some l =>
    let base := recCbase l
    let rows := ((s.kernels.find? (fun k => k.ctx == l.ctx && k.cbase == base && k.safe.head? == some (recEntry l))).map (·.safe)).getD [recEntry l]
    let n := (rows.filter (fun a => base + a ≤ pc)).length
    if n = 0 then (0, 0) else (n - 1, (pc - (base + (rows[n - 1]?).getD 0)) / 4)

def posOfGroup (s : State) (g : Group) (pc : Nat) : Nat × Nat := codePos s (launchOfGroup s g) pc

/-! ### Trace records (R467) -/

def traceOf (s : State) (part : Nat) : Trace := tget Trace.reset s.traces part

/-- A trace record waits on its core to be written; beyond 64 unwritten ones it is dropped and counted. The word offset of a safe-point
stop is 0 (R42). -/
def traceRecord (s : State) (key typ ln pc arg : Nat) (data : Dword) (safe : Bool := false) : State :=
  match groupOf s key with
  | none => s
  | some g =>
    match launchOfGroup s g with
    | none => s
    | some l =>
      if !(traceOf s l.part).on then s
      else
        let core := coreOfKey key
        let c := coreOf s core
        let p := codePos s (some l) pc
        let bytes := leBytes 1 typ ++ leBytes 1 core ++ leBytes 1 (slotOfKey key) ++ leBytes 1 ln ++ leBytes 4 p.1 ++
          leBytes 2 (if safe then 0 else min 0xFFFF p.2) ++ leBytes 2 arg ++ leBytes 4 l.seq ++ leBytes 8 s.clock ++ leBytes 8 data.toNat
        setCore s core (if c.unwritten.length < 64 then { c with unwritten := c.unwritten ++ [bytes] }
                        else { c with lost := c.lost + 1 })

/-! ### Requests behind an aperture (R352, R373) -/

/-- log2 of a size of 1, 2, 4, 8 or 16 bytes. -/
def log2Size : Nat → Nat
  | 1 => 0
  | 2 => 1
  | 4 => 2
  | 8 => 3
  | _ => 4

/-- A flit that this device sends (R373). -/
def flitOf (s : State) (typ dev size tag dpa aop status : Nat) (data : List Byte) : Flit :=
  ⟨BitVec.ofNat 8 typ, BitVec.ofNat 8 dev, BitVec.ofNat 8 s.identity.devnum, BitVec.ofNat 8 size, BitVec.ofNat 32 tag,
    BitVec.ofNat 48 dpa, BitVec.ofNat 8 aop, BitVec.ofNat 8 status, data⟩

/-- The flit of a peer's request (R373). -/
def requestFlit (s : State) (r : Request) (mask status : Nat) : Option Flit :=
  r.peer.map (fun dev => match r.kind with
    | 1 | 5 => flitOf s 2 dev (log2Size r.size + 16 * mask) r.tag r.addr 0 status r.data
    | 2 | 6 => flitOf s 3 dev (log2Size r.size) r.tag r.addr r.aop 0 r.data
    | _ => flitOf s 1 dev (log2Size r.size) r.tag r.addr 0 0 [])

/-- What goes out on the host link for a request. -/
def hostSends (r : Request) (status : Nat) : List Sent :=
  match r.kind with
  | 1 => []
  | 5 => [.hostWrite r.addr r.data (status = 2) false]
  | 2 | 6 => [.hostAtomic r.tag r.addr r.aop r.data]
  | _ => [.hostRead r.tag (if r.kind = 3 then r.addr - hostBase else r.addr) r.size]

/-- A request is made: it is outstanding until it is answered. A peer's flit leaves at once where a wavelength and room are there for it,
and waits in its core otherwise (R374); a host-scope store of a thread waits to be transmitted (R352), and the device's own posted writes
to the host are not answered. -/
def sendRequest (s : State) (r : Request) (mask status : Nat) : State :=
  let r := { r with tag := s.nextTag, issuedAt := s.clock, sent := r.peer.isNone && r.kind != 1 }
  let r := { r with flit := requestFlit s r mask status }
  let wave := departsOn s r
  let r := { r with sent := r.sent || wave.isSome, wave := wave }
  { s with requests := if r.peer.isNone && r.kind == 5 then s.requests else s.requests ++ [r]
           sent := s.sent ++ (if r.peer.isNone then hostSends r status else if wave.isSome then r.flit.toList.map .flit else [])
           nextTag := s.nextTag + 1 }

/-- A request that no lane waits for. -/
def plainRequest (kind : Nat) (peer : Option Nat) (addr size : Nat) (data : List Byte) : Request :=
  ⟨0, kind, peer, addr, size, data, 0, 0, 0, 0, 0, none, false, 0, 0, 0, false, false, none, 0, false, none, none⟩

/-- A tier X line is asked for once (R287). -/
def askLine (s : State) (line : Nat) : State :=
  if s.requests.any (fun r => r.kind == 3 && r.addr == 128 * line) then s
  else sendRequest s (plainRequest 3 none (128 * line) 128 []) 0 0

/-- Bytes behind an aperture that the device itself reads for a core are asked for once (R352). -/
def askBytes (s : State) (core : Nat) (peer : Option Nat) (addr n : Nat) : State :=
  if s.requests.any (fun r => r.kind == 4 && r.peer == peer && r.addr == addr && r.size == n) then s
  else sendRequest s { plainRequest 4 peer addr n [] with reg := 3, lane := core } 0 0

/-! ### Places in the access order that anchor engine reads (R349) -/

def anchorOf (g : Group) (l : Nat) : Anchor := tget ⟨0, 0, []⟩ g.anchors l

def setAnchor (g : Group) (l : Nat) (a : Anchor) : Group := { g with anchors := tset ⟨0, 0, []⟩ g.anchors l a }

/-- A lane has written, or acquired, at the present place: what it loaded before comes before that. -/
def noteWrite (s : State) (key l : Nat) : State :=
  modGroup s key (fun g => setAnchor g l { anchorOf g l with write := s.mem.order, looks := [] })
def noteAcquire (s : State) (key l : Nat) : State :=
  modGroup s key (fun g => setAnchor g l { anchorOf g l with acquire := s.mem.order, looks := [] })

/-- Bytes `off` to `off + n − 1` of a unit. -/
def byteMask (off n : Nat) : BitVec 16 := BitVec.ofNat 16 (2 ^ off * (2 ^ n - 1))

/-- A load of bytes of a unit at the present place, over the earlier ones. -/
def addLook (xs : List Look) (x : Look) : List Look :=
  x :: xs.filterMap (fun y =>
    if y.loc != x.loc then some y
    else if y.mask &&& ~~~x.mask = 0 then none else some { y with mask := y.mask &&& ~~~x.mask })

/-- A lane has loaded `n` bytes at `off` in a unit. -/
def noteLoad (s : State) (key l : Nat) (loc : Loc) (off n : Nat) : State :=
  modGroup s key (fun g =>
    let a := anchorOf g l
    setAnchor g l { a with looks := addLook a.looks ⟨loc, byteMask off n, s.mem.order⟩ })

/-- The place that engine work of a thread is anchored after. -/
def anchorPlace (g : Group) (l : Nat) : Nat := max (anchorOf g l).write (anchorOf g l).acquire

/-! ### Memory reads that the device makes for a thread -/

/-- Bytes that a reply has brought, when they come from address `va` (R375, R378). -/
def bufferBytes (va : Nat) (b : Nat × Nat × List Byte × Nat) : XResult (List Byte) :=
  match b.2.2.2 with
  | 0 => .ok b.2.2.1
  | 1 => .error (.cause 11)
  | _ => .error (.poison va)

/-- What the buffer holds again when a read of several pieces does not go through: everything but refusals, which have been
seen. -/
def keptBuffer (s : State) : List (Nat × Nat × List Byte × Nat) := s.buffer.filter (fun b => b.2.2.2 != 1)

/-- The transfers that a thread's conditions wait for: those of its open batch and sealed set. -/
def batchOf (g : Group) (l : Nat) : Batch := tget ⟨[], [], []⟩ g.batches l

/-- Whether an engine write that has not reached its global place is one that a thread's waits cover (R232, R350). -/
def coveredHere (g : Group) (ln : Nat) (loc : Loc) (p : Place) : Bool :=
  p.loc == loc && (batchOf g ln).covered.contains p.transfer

/-- A unit of 16 bytes as a thread reads it where such writes stand there, over what memory holds in it, and whether it is
poisoned. -/
def coveredUnit (s : State) (key ln : Nat) (loc : Loc) (now : List Byte) : Option (List Byte × Bool) :=
  if s.places.isEmpty then none
  else
    match groupOf s key with
    | none => none
    | some g =>
      match s.places.filter (coveredHere g ln loc) with
      | [] => none
      | ps => some (ps.foldl (fun bs p => p.bytes ++ bs.drop p.bytes.length) now, ps.any (·.poison))

/-- A thread's load of bytes of one 16-byte unit of device memory is one of its accesses (R349). -/
def noteThread (s : State) (w : Who) (ma n : Nat) : State :=
  match w.thread with
  | none => s
  | some (key, ln) => noteLoad s key ln (.ma (16 * (ma / 16))) (ma % 16) n

/-- Bytes of an ordinary load: translated, checked, fetched, and never poisoned. A thread's own load of bytes of one 16-byte unit
sees the engine writes that its waits cover (R350). -/
def loadBytes (s : State) (w : Who) (k : Kind) (va n : Nat) : State × XResult (List Byte) :=
  match translate s w k false va with
  | (s, .error b) => (s, .error b)
  | (s, .ok (_, .dev _ ma)) =>
    let s := noteThread (noteReads (fetchLines s (writerOf w.core) ma n) w.core ma n) w ma n
    let unit := 16 * (ma / 16)
    (match w.thread.bind (fun t => coveredUnit s t.1 t.2 (.ma unit) (s.mem.bytesAt unit 16)) with
     | some (bs, poison) => if poison then (s, .error (.poison va)) else (s, .ok ((bs.drop (ma % 16)).take n))
     | none => if s.mem.marked ma n then (s, .error (.poison va)) else (s, .ok (s.mem.bytesAt ma n)))
  | (s, .ok (_, .peer dev dpa)) =>
    (match s.buffer.find? (fun b => b.1 == dev + 1 && b.2.1 == dpa && b.2.2.1.length == n) with
     | some b => ({ s with buffer := s.buffer.erase b }, bufferBytes va b)
     | none => (s, .error (.ask (some dev) dpa n)))
  | (s, .ok (_, .host addr)) =>
    (match s.buffer.find? (fun b => b.1 == 0 && b.2.1 == addr && b.2.2.1.length == n) with
     | some b => ({ s with buffer := s.buffer.erase b }, bufferBytes va b)
     | none => (s, .error (.ask none addr n)))

/-- Bytes of several pieces of at most 16 bytes, by address and count, with the address of the piece that failed. Pieces
that an aperture has brought are kept until every one is there. -/
def loadPieces (s : State) (w : Who) : List (Nat × Nat) → State × Except (XBad × Nat) (List Byte)
  | [] => (s, .ok [])
  | (va, n) :: rest =>
    match loadBytes s w .load va n with
    | (t, .error b) => ({ t with buffer := keptBuffer s }, .error (b, va))
    | (t, .ok bs) =>
      match loadPieces t w rest with
      | (u, .error b) => ({ u with buffer := keptBuffer s }, .error b)
      | (u, .ok more) => (u, .ok (bs ++ more))

/-- `n` bytes from a 16-byte boundary on. -/
def loadMany (s : State) (w : Who) (va n : Nat) : State × Except (XBad × Nat) (List Byte) :=
  loadPieces s w ((List.range ((n + 15) / 16)).map (fun i => (va + 16 * i, min 16 (n - 16 * i))))

/-- One code word: an old value of a word that a store has rewritten since the launch was admitted may come back (R37). -/
def fetchWord (s : State) (w : Who) (stamp va : Nat) : State × XResult Word :=
  match translate s w .fetch false va with
  | (s, .ok (_, .dev _ ma)) =>
    let s := noteReads (fetchLines s (writerOf w.core) ma 4) w.core ma 4
    if s.mem.marked ma 4 then (s, .error (.poison va))
    else
      let x : Word := BitVec.ofNat 32 (leNat (s.mem.bytesAt ma 4))
      let old := (s.mem.past.filter (fun p => p.loc == .ma (16 * (ma / 16)) && stamp ≤ p.upto)).map
        (fun p => (BitVec.ofNat 32 (field p.bytes (ma % 16) 4) : Word))
      let r := draw s (old.filter (· != x)) x
      (r.1, .ok r.2)
  | (s, .ok _) =>
    (match loadBytes s w .fetch va 4 with
     | (s, .error b) => (s, .error b)
     | (s, .ok bs) => (s, .ok (BitVec.ofNat 32 (leNat bs))))
  | (s, .error b) => (s, .error b)

/-! ### Counters (R214 to R217) -/

def counterOf (g : Group) (k : Nat) : Counter := (g.counters[k]?).getD Counter.reset

def setCounter (g : Group) (k : Nat) (c : Counter) : Group := { g with counters := g.counters.set k c }

/-- The counter and flag after a decrement; one below 0 leaves 0 and sets the flag (R216). -/
def Counter.dec (c : Counter) (err : Bool) : Counter :=
  if c.val = 0 then { c with err := true } else { c with val := c.val - 1, err := c.err || err }

/-- The decrements that are due are made in issue order: an operation whose event has happened is decremented once every
earlier one has been (R215). -/
def drainQueue (s : State) (c : Counter) : List (Nat × Bool) → Counter
  | [] => { c with queue := [] }
  | (op, done) :: rest =>
    if done then drainQueue s (c.dec (((tfind s.ops op).map (·.err)).getD false)) rest
    else { c with queue := (op, done) :: rest }

/-- A counted operation begins: the counter is incremented and the operation queued on it (R25). -/
def countOp (s : State) (key : Nat) (k : Option Nat) (load : Bool) (waits : Nat) (owed : List Owed) : State × Nat :=
  let id := s.nextOp
  let s := { s with nextOp := id + 1, ops := tput s.ops id ⟨key, k, load, owed, waits, false, false, false, false⟩ }
  match k with
  | none => (s, id)
  | some k =>
    (modGroup s key (fun g =>
      let c := counterOf g k
      setCounter g k { c with val := c.val + 1, queue := c.queue ++ [(id, false)], recent := (id :: c.recent).take 255 }), id)

/-- Operations that no counter still queues, and the uncounted one named, are forgotten. -/
def pruneOps (s : State) (key id : Nat) : State :=
  let queued := fun (x : Nat) => match groupOf s key with
    | none => false
    | some g => g.counters.any (fun c => c.queue.any (fun q => q.1 == x))
  { s with ops := s.ops.filter (fun o => o.1 != id && (o.2.group != key || o.2.counter.isNone) || queued o.1) }

/-- A counted operation's event has happened: its decrement is made when R215 allows. -/
def opHappened (s : State) (id : Nat) : State :=
  match tfind s.ops id with
  | none => s
  | some o =>
    let s := match o.counter with
      | none => s
      | some k => modGroup s o.group (fun g =>
          let c := counterOf g k
          setCounter g k (drainQueue s c (c.queue.map (fun q => if q.1 == id then (id, true) else q))))
    pruneOps s o.group id

/-! ### Values that loads still owe (R27) -/

/-- Whether a thread of the lanes, or the group, holds another register value than before. -/
def regsChanged (a b : Group) : Bool := !(a.v == b.v && a.s == b.s && a.m == b.m)

/-- A register of a lane, or a scalar (lane 64), takes a value that a load owes; a register that the group no longer holds
takes nothing. -/
def landOwed (s : State) (o : Owed) : State :=
  modGroup s o.group (fun g =>
    if o.lane = 64 then setSreg g o.reg o.value
    else if 8 * g.held ≤ o.reg then g
    else setVreg g o.reg o.lane (o.value.setWidth 32))

/-- A condition of R61 is broken: spinning ends, and detection starts again. -/
def Spin.broken (x : Spin) : Spin := { x with quiet := false, lowered := none, known := false }

/-- The fragment that a lane stands in has changed something. -/
def breakSpin (g : Group) (ln : Nat) : Group :=
  let m := ((fragAt g ln).map (·.lanes)).getD 0
  { g with spins := g.spins.map (fun x => if lane m x.lane then x.broken else x) }

/-- The fragments of a group that a handler of the gang rung has set aside (R411). -/
def fragsAside (s : State) (uid key : Nat) : List Frag :=
  match gangOf s uid with
  | none => []
  | some q => if q.handler == some key then (q.mode.map (·.saved)).getD [] else []

/-- What a fragment's load at a PC has returned, by lane: another value than on the previous pass breaks a condition of R61. -/
def Spin.sees (x : Spin) (pc : Nat) (vs : List (Nat × Dword)) : Spin :=
  let changed := vs.any (fun v => x.seen.any (fun z => z.1 == pc && z.2.1 == v.1 && z.2.2 != v.2))
  let x := { x with seen := x.seen.filter (fun z => !(z.1 == pc && vs.any (fun v => v.1 == z.2.1))) ++ vs.map (fun v => (pc, v.1, v.2)) }
  if changed then x.broken else x

/-- The values that lanes of a fragment have loaded to a scalar, which only one of them keeps. -/
def noteSeen (s : State) (key ln pc : Nat) (vs : List (Nat × Dword)) : State :=
  match groupOf s key with
  | none => s
  | some g =>
    if g.spins.isEmpty || vs.isEmpty then s
    else
      let m := ((fragAt g ln).map (·.lanes)).getD 0
      setGroup s key { g with spins := g.spins.map (fun x => if lane m x.lane then x.sees pc vs else x) }

/-- An owed write that lands after its word: a value that differs ends the spinning of the fragment that loaded it. -/
def landLate (s : State) (o : Owed) : State :=
  let t := landOwed s o
  match groupOf s o.group, groupOf t o.group with
  | some a, some b => if b.spins.isEmpty || !regsChanged a b then t else setGroup t o.group (breakSpin b o.who)
  | _, _ => t

/-- Every write that an operation owes lands. -/
def landAll (s : State) (id : Nat) : State :=
  match tfind s.ops id with
  | none => s
  | some o =>
    let s := o.owed.foldl landLate s
    { s with ops := tmod s.ops id (fun o => { o with owed := [] }) }

/-! ### Trap entry -/

def asyncClass (c : Nat) : Bool := c == 14 || c == 16 || c == 22 || c == 23

/-- What the read of a vector gives: none is there (R408), its address, or an access that does not go through, with its VA. -/
inductive VectorRead where
  | absent
  | found (v : Nat)
  | bad (b : XBad) (va : Nat)
deriving DecidableEq, Repr, Inhabited

/-- A failed access on the way to a vector: a translation fault leaves none there, and any other outcome is the access's own. -/
def VectorRead.failed (b : XBad) (va : Nat) : VectorRead :=
  match b with
  | .cause n => if translationFault n then .absent else .bad b va
  | b => .bad b va

/-- The record of a vector entry that is poisoned, whose read consumes nothing (R293, R434): at its VA, for the lane that loads it. -/
def vectorPoison (s : State) (w : Who) (va : Nat) : State :=
  let uid := w.thread.bind (fun t => (groupOf s t.1).map (·.gang))
  recordEvent s { unit := unitCore s w.core, cause := 0x20, sev := 3, addr := some va, synd := (w.thread.map (·.2)).getD 0,
                  ctx := some w.ctx, gang := ((uid.bind (gangOf s)).map (·.index)).getD 0 }

/-- The header at a vector, which the check of R24 may refuse. -/
def vectorHeader (s : State) (w : Who) (stamp v : Nat) : State × VectorRead :=
  if v = 0 || 2 ^ 56 ≤ v || v % 4 != 0 then (s, .absent)
  else
    match fetchWord s w stamp v with
    | (s, .ok h) => (s, if targetWordOk h then .found v else .absent)
    | (s, .error b) => (s, .failed b v)

/-- The vector of a class at a rung (R408): its entry is loaded as the thread loads it. A walk that meets poison, a dropped frame, and
bytes that have still to come are those of any load.

DESIGN CHOICE (log entry 96): a context word that is poisoned is met as a poisoned entry is, and its record's ADDR, which no VA names, is free. -/
def vectorOf (s : State) (w : Who) (stamp cls rung : Nat) : State × VectorRead :=
  match readCtxWord s w (ctxRecord s w.ctx + 0x20) with
  | (s, .error (.poison _)) => (vectorPoison { s with tick := s.tick + 1 } w (Config.freeChoice s.tick), .absent)
  | (s, .error b) => (s, .failed b 0)
  | (s, .ok tvt) =>
    if tvt = 0 then (s, .absent)
    else
      let va := tvt + 16 * cls
      match loadBytes s w .load va 16 with
      | (s, .ok bs) => vectorHeader s w stamp (field bs (8 * rung) 8)
      | (s, .error (.poison _)) =>
        (match translate s w .load false va with
         | (s, .error b) => (s, .failed b va)
         | (s, .ok _) => (vectorPoison s w va, .absent))
      | (s, .error b) => (s, .failed b va)

/-- The trap registers as a trap writes them (R422). -/
def trapRegs (s : State) (key : Nat) (g : Group) (f : Frag) (t : Trap) (rung : Nat) : TrapRegs :=
  let p := posOfGroup s g f.pc
  { tclass := BitVec.ofNat 64 (t.cls + 32 * rung + 256 * (asyncClass t.cls).toNat)
    tword := BitVec.ofNat 64 f.pc
    tpos := BitVec.ofNat 64 (p.1 % 2 ^ 32 + 2 ^ 32 * (if t.safe then 0 else p.2))
    tpix := BitVec.ofNat 64 t.pix
    tinfo0 := t.info0
    tinfo1 := t.info1
    tlanes := f.lanes
    tsrc := BitVec.ofNat 64 (coreOfKey key + 64 * slotOfKey key) }

/-- Trap mode as a trap enters it. -/
def trapMode (s : State) (f : Frag) (words : Nat) (t : Trap) : TrapMode :=
  ⟨t.cls, f.lanes, f.pc, f.clause, t.pix, f.first, f.op, t.atHeader, words, t.engine, s.clock, []⟩

/-- The trapping fragment continues at a vector as the handler fragment, with %pix as recorded (R409, R417). -/
def toHandler (f : Frag) (vector pix clock : Nat) : Frag :=
  { f with pc := vector, clause := none, hold := .ready, since := clock, probe := [], pix := pix, resumed := false, first := 0,
           op := none, age := clock }

/-- The key of a service at the context rung, for a gang of a context. -/
def ctxServiceKey (uid ctx : Nat) : Nat := 256 * uid + ctx

/-- The unit whose record started the climb of a trap: that of an uncorrected error, and 0xFFFF for any other (R406, R443). -/
def Pending.unit (p : Pending) : Nat := if p.cls = 21 then p.info1.toNat % 65536 else 0xFFFF

/-- The trap waits at the context rung with its gang held as it stands: the context is frozen, a record written and the error
message sent (R412). The manual gives this record no SYND, so it is a free value. Of several gangs of a context that wait there, PEND
tells of the first. -/
def toContext (s : State) (uid : Nat) (ctx index : Nat) (p : Pending) : State :=
  let synd := Config.freeChoice s.tick
  let s := freezeCtx { s with tick := s.tick + 1 } ctx synd (some index)
  let s := match gangOf s uid with
    | none => s
    | some q => setGang s uid { q with climbed := some p }
  let c := ctxOf s ctx
  let c := if c.pend then { c with more := c.more ++ [(p.cls, index, uid)] }
    else { c with pend := true, cls := p.cls, gang := index, held := some uid }
  { setCtx s ctx c with services := s.services ++ [⟨2, ctxServiceKey uid ctx, s.clock, p.cls, p.unit⟩] }

/-- What PEND tells of once the gang that it told of is gone: the next trap that waits at the context's rung. -/
def Ctx.nextHeld (c : Ctx) : Ctx :=
  match c.more with
  | [] => { c with pend := false, cls := 0, gang := 0, held := none }
  | (cls, index, uid) :: rest => { c with pend := true, cls := cls, gang := index, held := some uid, more := rest }

/-- The trap as it waits at the context rung. -/
def Trap.climbed (t : Trap) : Pending := ⟨t.cls, t.info0, t.info1, 2, t.engine, none⟩

/-- The record of a trap that is taken (R467); one of a safe-point stop has word offset 0 (R42). -/
def trapRecord (s : State) (key ln pc : Nat) (t : Trap) : State := traceRecord s key 4 ln pc t.cls t.info0 t.safe

/-- The lowest (team, %gid) group of a gang that has a live thread. -/
def firstLiveGroup (s : State) (uid : Nat) : Option (Nat × Group) :=
  (s.groups.filter (fun x => x.2.gang == uid && liveLanes x.2 != 0)).foldl (fun b x => match b with
    | none => some x
    | some y => if 16 * x.2.team + x.2.gid < 16 * y.2.team + y.2.gid then some x else some y) none

/-- Whether an acquire of a fragment of the group has not returned yet: its threads access nothing before it has (R357). -/
def acquiring (s : State) (g : Group) : Bool :=
  g.frags.any (fun f => match f.hold with
    | .scoped id _ => ((tfind s.ops id).map (·.acquire)).getD false
    | _ => false)

/-- A trap that no word raised is taken at the gang rung by the live threads of the gang's first live group, or climbs to the
context rung (R411).

DESIGN CHOICE (log entry 85): TWORD, the position and what TRET goes back to are those of the first of that group's fragments. -/
def takeGangTrap (s : State) (uid : Nat) (t : Trap) : State :=
  match gangOf s uid with
  | none => s
  | some q =>
    match launchOf s q.launch with
    | none => s
    | some l =>
      let climb := fun (s : State) => toContext s uid l.ctx q.index t.climbed
      let wait := fun (s : State) (why : Option XBad) (va : Nat) => { s with due := s.due ++ [⟨uid, none, 0, 0, t, why, va⟩] }
      match firstLiveGroup s uid with
      | none => climb s
      | some (key, g) =>
        match g.frags with
        | [] => climb s
        | f :: _ =>
          let all := { f with lanes := liveLanes g }
          let record := fun (s : State) => trapRecord s key (lowest all.lanes) f.pc t
          if q.mode.isSome || 2 ≤ t.rung then climb (record s)
          else if acquiring s g then wait s none 0
          else
            match vectorOf s ((whoLaunch (coreOfKey key) l).ofThread key (lowest all.lanes)) l.stamp t.cls 1 with
            | (s, .bad b va) => wait s (some b) va
            | (s, .absent) => climb (record s)
            | (s, .found v) =>
              let s := modGroup (record s) key (fun h => putFrags h all.lanes [toHandler all v 0 s.clock])
              let mode := { trapMode s all 1 { t with atHeader := true } with saved := g.frags }
              let s := setGang s uid { q with regsTrap := trapRegs s key g all t 1, mode := some mode, handler := some key }
              { s with services := s.services ++ [⟨1, uid, s.clock, t.cls, 0xFFFF⟩] }

/-- The fragment waits at its word for the trap that it has met: for its vector, or for a takeover. -/
def deferTrap (s : State) (key : Nat) (m : Dword) (words : Nat) (t : Trap) (why : Option XBad) (va : Nat) : State :=
  match groupOf s key with
  | none => s
  | some g =>
    { setGroup s key (modFrag g m (fun f => f.holding .vector s.clock)) with due := s.due ++ [⟨g.gang, some key, m, words, t, why, va⟩] }

/-- The fragment waits at its word for the vector of the trap that it has met. -/
def awaitVector (s : State) (key : Nat) (m : Dword) (words : Nat) (t : Trap) (b : XBad) (va : Nat) : State :=
  deferTrap s key m words t (some b) va

/-- A trap of a group's fragment is taken: at the group rung, the gang rung or the context rung, by where it is first
delivered, whether the group or gang is already in trap mode, and whether the rung has a vector (R406, R408 to R412). The
fragment is the one of exactly the lanes `m`. -/
def takeTrap (s : State) (key : Nat) (m : Dword) (words : Nat) (t : Trap) : State :=
  match groupOf s key with
  | none => s
  | some g =>
    match g.frags.find? (fun f => f.lanes == m), gangOf s g.gang, launchOfGroup s g with
    | some f, some q, some l =>
      let w := (whoLaunch (coreOfKey key) l).ofThread key (lowest m)
      let record := fun (s : State) => trapRecord s key (lowest m) f.pc t
      let first := t.rung + (g.mode.isSome || q.mode.isSome).toNat
      match (if first = 0 then vectorOf s w l.stamp t.cls 0 else (s, .absent)) with
      | (s, .bad b va) => awaitVector s key m words t b va
      | (s, .found v) =>
        let s := modGroup (record s) key (fun h =>
          { modFrag h m (fun f => toHandler f v t.pix s.clock) with
            regsTrap := trapRegs s key g f t 0
            mode := some (trapMode s f words t) })
        { s with services := s.services ++ [⟨0, key, s.clock, t.cls, 0xFFFF⟩] }
      | (s, .absent) =>
        if !t.byWord then takeGangTrap s g.gang { t with rung := max 1 first }
        else
          match (if q.mode.isNone && first ≤ 1 then vectorOf s w l.stamp t.cls 1 else (s, .absent)) with
          | (s, .bad b va) => awaitVector s key m words t b va
          | (s, .found v) =>
            let s := modGroup (record s) key (fun h => modFrag h m (fun f => toHandler f v t.pix s.clock))
            let s := setGang s g.gang
              { q with regsTrap := trapRegs s key g f t 1, mode := some (trapMode s f words t), handler := some key }
            { s with services := s.services ++ [⟨1, g.gang, s.clock, t.cls, 0xFFFF⟩] }
          | (s, .absent) =>
            let s := modGroup (record s) key (fun h => modFrag h m (fun f =>
              { f with hold := .ready, since := s.clock, probe := [], pix := t.pix, resumed := !t.atHeader }))
            toContext s g.gang l.ctx q.index t.climbed
    | _, _, _ => s

/-- A trap of the unit: a word of which a part was performed before an earlier stop keeps its progress (R417). -/
def Issue.keepPix (u : Issue) (t : Trap) : Trap := { t with pix := if u.f.fresh then t.pix else u.f.pix }

/-- The unit being issued raises a trap: the word has no effect but what its rule states, and the trap is taken at it. -/
def raise (s : State) (u : Issue) (t : Trap) : State :=
  takeTrap (modGroup s u.key (fun g => modFrag g u.f.lanes Frag.stops)) u.key u.f.lanes u.words.length (u.keepPix t)

/-- A trap becomes pending in a group; class 23 is not delivered twice (R410, R463). -/
def addPending (s : State) (key : Nat) (p : Pending) : State :=
  modGroup s key (fun g =>
    if p.cls == 23 && g.pending.any (fun x => x.cls == 23) then g else { g with pending := g.pending ++ [p] })

/-- The pending trap that a safe point takes: the lowest class, and the oldest within it (R410). -/
def nextPending (ps : List Pending) : Option Pending :=
  ps.foldl (fun b p => match b with
    | none => some p
    | some q => if p.cls < q.cls then some p else b) none

/-! ### Return from a trap -/

/-- How the handler's threads go on: at the trapped word or header, past the trapped unit, or at a header. -/
inductive Return where
  | resume
  | skip
  | goto (target : Nat)
deriving DecidableEq, Repr, Inhabited

/-- The handler fragment after its return (R418, R421). -/
def returnFrag (t : TrapMode) (r : Return) (f : Frag) (clock : Nat) : Frag :=
  match r with
  | .resume =>
    { f with pc := t.pc, clause := t.clause, hold := .ready, since := clock, probe := [], pix := t.pix, resumed := !t.atHeader,
             first := t.first, op := t.op, age := clock }
  | .skip =>
    let p := afterWords t.clause t.pc t.words
    { f with pc := p.1, clause := p.2, hold := .ready, since := clock, probe := [], pix := 0, resumed := false, first := 0,
             op := none, age := clock }
  | .goto a => { f with resumed := true }.moved a clock

/-- The skipped or left unit's counted operation is complete with the lanes that it has performed, once what they still wait for has
come (R421). -/
def abandonOp (s : State) (t : TrapMode) (r : Return) : State :=
  match r, t.op with
  | .resume, _ => s
  | _, none => s
  | _, some id =>
    match tfind s.ops id with
    | none => s
    | some o =>
      if o.waits = 0 then opHappened (landAll s id) id else { s with ops := tmod s.ops id (fun o => { o with issued := true }) }

/-- Trap mode at the group rung ends, and its handler fragment goes on. -/
def leaveGroup (s : State) (key : Nat) (m : Dword) (t : TrapMode) (r : Return) : State :=
  let s := modGroup s key (fun g =>
    { modFrag g m (fun f => returnFrag t r f s.clock) with mode := none })
  abandonOp { s with services := s.services.filter (fun v => !(v.rung == 0 && v.key == key)) } t r

/-- A fragment that trap mode set aside goes on past an operation whose replies have all come meanwhile. -/
def unsave (s : State) (f : Frag) : Frag :=
  match f.hold with
  | .scoped id n =>
    (match tfind s.ops id with
     | none => f.past n s.clock
     | some o => if o.waits != 0 then f else if o.issued then f.past n s.clock else f.holding .ready s.clock)
  | _ => f

/-- Trap mode at the gang rung ends, and its handler fragment goes on: the fragments that a trap of no word found are again as
they stood. -/
def leaveGang (s : State) (uid key : Nat) (m : Dword) (t : TrapMode) (r : Return) : State :=
  let s := modGroup s key (fun g =>
    match r with
    | .resume =>
      if t.saved.isEmpty then modFrag g m (fun f => returnFrag t r f s.clock)
      else putFrags g m ((t.saved.map (fun f => { unsave s f with lanes := f.lanes &&& m })).filter (fun f => f.lanes != 0))
    | _ => modFrag g m (fun f => returnFrag t r f s.clock))
  let s := match gangOf s uid with
    | none => s
    | some q => setGang s uid { q with mode := none, handler := none }
  abandonOp { s with services := s.services.filter (fun v => !(v.rung == 1 && v.key == uid)) } t r

/-! ### Debug halts (R464) -/

/-- Whether a trap of the class is turned into a debug halt for a launch. -/
def debugClass (s : State) (l : Launch) (cls : Nat) : Bool := (cls == 22 || cls == 23) && (ctxOf s l.ctx).attach

/-- A gang is to halt for debug: every group stops at its next safe point. Until that is so the host is not told. -/
def haltGang (s : State) (uid : Nat) (l : Launch) (h : Halt) : State :=
  match gangOf s uid with
  | none => s
  | some q => setCtx (setGang s uid { q with halted := some h }) l.ctx { ctxOf s l.ctx with halted := some uid }

/-- Whether a gang is halted for debug. -/
def Gang.isHalted (q : Gang) : Bool := (q.halted.map (·.told)).getD false

/-- A trap of a gang whose group has exited is delivered at the gang rung, or halts the gang; a halt that finds another gang of
the context halted waits pending. -/
def deliverGangTrap (s : State) (uid : Nat) (p : Pending) : State :=
  let plain := fun (s : State) => takeGangTrap s uid { cls := p.cls, info0 := p.info0, info1 := p.info1, engine := p.engine }
  match gangOf s uid with
  | none => s
  | some q =>
    match launchOf s q.launch with
    | none => s
    | some l =>
      if !debugClass s l p.cls || q.mode.isSome then plain s
      else
        match firstLiveGroup s uid with
        | none => plain s
        | some (key, g) =>
          if (ctxOf s l.ctx).halted.isSome then addPending s key p
          else
            let f := fragAtHeader (liveLanes g) (((g.frags.head?).map (·.pc)).getD 0) s.clock
            let t : Trap := { cls := p.cls, info0 := p.info0, info1 := p.info1, atHeader := true, safe := true }
            haltGang s uid l ⟨none, 64, p, trapRegs s key g f t 1, false, s.clock⟩

end Sys2Proof.Machine
end

