-- ==== Sys2Proof/Machine/Fetch.lean ====
section
/-!
DEFINITION. From a fragment to the row that its next unit runs: which fragments may issue (R58), the fetch of the unit's
words (R22, R329), the traps that the unit itself raises in the order of R36, and what comes about between two steps: the
writes of pending loads (R27) and the clocks that holds count (R415).
-/
namespace Sys2Proof.Machine

open Sys2Proof

/-! ### What may issue (R58, R404, R409, R411, R446, R464) -/

/-- Whether a quarter is idled by the step in force (R445). -/
def quarterIdled (step q : Nat) : Bool := (q == 3 && 6 ≤ step) || (q == 2 && 7 ≤ step) || (q == 1 && 8 ≤ step)

/-- Whether trap mode leaves a fragment free to issue: the handler's own fragments, and every fragment outside trap mode. -/
def trapAllows (key : Nat) (g : Group) (q : Gang) (f : Frag) : Bool :=
  match q.mode with
  | some t => q.handler == some key && f.lanes &&& t.lanes == f.lanes
  | none =>
    match g.mode with
    | some t => f.lanes &&& t.lanes == f.lanes
    | none => true

/-- Whether a hold lets the fragment issue its word, or issue it again. -/
def holdAllows (s : State) (l : Launch) (f : Frag) : Bool :=
  match f.hold with
  | .sleep .. | .rendezvous _ | .ralloc .. | .power .. | .scoped .. | .stopped | .vector => false
  | .bar _ arrived => !arrived
  | .frozen => !(ctxOf s l.ctx).frozen
  | _ => true

/-- A hold for a frame, which a pre-emption ends (R195). -/
def awaitsFrame : Hold → Bool
  | .noFrame .. => true
  | _ => false

/-- Whether a fragment is free of every hold but those that its own word tests again. -/
def freeToIssue (s : State) (key : Nat) (g : Group) (f : Frag) : Bool :=
  match gangOf s g.gang with
  | none => false
  | some q =>
    match launchOf s q.launch with
    | none => false
    | some l =>
      !s.power.failed && !quarterIdled s.power.step g.quarter && q.climbed.isNone && trapAllows key g q f &&
      (q.halted.isNone || f.hold != .frozen || f.clause.isSome) &&
      s.due.all (fun d => d.gang != g.gang || (d.key.isSome && d.key != some key)) &&
      holdAllows s l f && !(g.stopping && awaitsFrame f.hold) && q.pinning.isEmpty &&
      (!recCheck l || decide (((coreOf s (coreOfKey key)).replay.filter (fun r => r.1 == g.quarter)).length < 64))

/-- A record's TGT field: the counter, gid and team that it names, when it is valid (R238). -/
def recTarget (bs : List Byte) : Option (Nat × Nat × Nat) :=
  let x := field bs 12 2
  if bit x 15 then some (bits x 0 4, bits x 4 4, bits x 8 2) else none

/-- Whether an accepted node still targets a group's counter. -/
def nodeTargets (q : Gang) (team gid k : Nat) : Bool :=
  q.teams.any (fun t => t.slots.any (fun x => x.2.state != 0 && recTarget x.2.record == some (k, gid, team)))

/-- Whether what a fragment's hold tests is met, so that the fragment is ready (R58); of a unit that may or may not take work, and of a
word that others alone can end, it is not said. -/
def holdMet (s : State) (g : Group) (f : Frag) : Bool :=
  match f.hold with
  | .ready | .frozen | .between .. => true
  | .clauseWait m => (List.range 12).all (fun k => !bit m k || (counterOf g k).val == 0)
  | .waitlt k n => decide ((counterOf g k).val < n)
  | .kadd k => decide ((counterOf g k).val < 128)
  | .kbindClose k => ((gangOf s g.gang).map (fun q => !nodeTargets q g.team g.gid k)).getD false
  | .hostLine l => s.mem.xlines.contains l
  | _ => false

/-- Whether another fragment of the quarter is ready: one that YIELD holds is not (R58). -/
def otherReady (s : State) (key : Nat) (g : Group) (f : Frag) : Bool :=
  s.groups.any (fun x => x.1 / 128 == key / 128 && x.2.quarter == g.quarter && x.2.frags.any (fun y =>
    !(x.1 == key && y.lanes == f.lanes) && decide (y.rest ≤ s.clock) && holdMet s x.2 y && freeToIssue s x.1 x.2 y))

/-- Whether a fragment may issue: for 16 clocks after YIELD it does so only while no other fragment of its quarter is ready (R69). -/
def mayIssue (s : State) (key : Nat) (g : Group) (f : Frag) : Bool :=
  freeToIssue s key g f && (decide (f.rest ≤ s.clock) || !otherReady s key g f)

/-! ### Lane-cycle counters (R63, R468) -/

/-- The Active lanes that a unit's prefix leaves (R111). -/
def activeOf (g : Group) (lanes : Dword) (p : Option Pfx) : Dword :=
  lanes &&& (match p with
    | none => lanes
    | some q => maskReg g q.mask.toNat)

/-- The lanes of the slices that a fragment drives (R55). -/
def slicesOf (m : Dword) : Dword := maskOf (fun l => (List.range 4).any (fun i => lane m (4 * (l / 4) + i)))

/-- A word of a fragment is counted: 0 active, 1 masked by divergence, 2 predicated off, 3 absent, in its quarter's totals
and in the first bin that holds its address. -/
def countLanes (s : State) (key : Nat) (g : Group) (f : Frag) (p : Option Pfx) (part : Nat) : State :=
  let driven := slicesOf f.lanes
  let act := activeOf g f.lanes p
  let live := liveLanes g
  let size := fun (m : Dword) => (lanesOf m).length
  let counts := [size act, size (driven &&& live &&& ~~~f.lanes), size (f.lanes &&& ~~~act), size (driven &&& ~~~live)]
  let c := coreOf s (coreOfKey key)
  let add := fun (t : Table Nat) (base : Nat) =>
    (List.range 4).foldl (fun t i => tset 0 t (base + i) ((tget 0 t (base + i) + (counts[i]?).getD 0) % 2 ^ 48)) t
  let bin := (traceOf s part).bins.findIdx (fun b => b.1 ≤ f.pc && f.pc < b.2)
  let c := { c with totals := add c.totals (4 * g.quarter), lastIssue := (if g.quarter = 0 then some (key, lowest f.lanes) else c.lastIssue),
                    bins := if bin < (traceOf s part).bins.length then add c.bins (4 * bin) else c.bins }
  setCore s (coreOfKey key) c

/-! ### Redundant execution (R439, R440) -/

/-- Whether every slice that a fragment drives has as many lanes free of its threads as it has Active lanes there. -/
def cloneInLane (m act : Dword) : Bool :=
  (List.range 16).all (fun i =>
    let count := fun (x : Dword) => ((List.range 4).filter (fun j => lane x (4 * i + j))).length
    decide (count act + count m ≤ 4))

/-- The clone of a word that does not run in-lane enters its quarter's replay queue. -/
def noteClone (s : State) (key : Nat) (g : Group) (f : Frag) (p : Option Pfx) : State :=
  let check := ((launchOfGroup s g).map recCheck).getD false
  if !check || cloneInLane f.lanes (activeOf g f.lanes p) then s
  else
    let c := coreOf s (coreOfKey key)
    setCore s (coreOfKey key) { c with replay := c.replay ++ [(g.quarter, key)] }

/-! ### The unit's words -/

/-- The words of a unit that stands at an address, fetched one after another: a prefix brings its base, and an op 0x3F word
its literal, but no word beyond the clause. -/
def fetchUnit (s : State) (w : Who) (stamp stop : Nat) : Nat → Nat → State × Except (XBad × Nat) (List Word)
  | 0, _ => (s, .ok [])
  | n + 1, pc =>
    if stop ≤ pc then (s, .ok [])
    else
      match fetchWord s w stamp pc with
      | (s, .error b) => (s, .error (b, pc))
      | (s, .ok x) =>
        let more := if isPfxWord x then n else if isLiteralWord x then min n 1 else 0
        match more with
        | 0 => (s, .ok [x])
        | _ + 1 =>
          match fetchUnit s w stamp stop n (pc + 4) with
          | (s, .error b) => (s, .error b)
          | (s, .ok xs) => (s, .ok (x :: (if isLiteralWord x then xs.take 1 else xs)))

/-- The word of a unit that names its class: its base, or its op 0x3F word. -/
def baseWord (ws : List Word) : Word :=
  match ws with
  | [] => 0
  | [w] => w
  | w :: x :: _ => if isPfxWord w then x else w

/-- Whether a unit may stand where it stands: its class is the header's, and a control word or an op 0x3F word without its
literal does not break R22. -/
def clauseAllows (c : Clause) (pc : Nat) (ws : List Word) : Bool :=
  let base := baseWord ws
  let stop := c.head + 4 + 4 * hdrCount c.word
  (match classOfWord base with
   | none => true
   | some k => k == hdrClass c.word) &&
  (!isControlWord base || pc + 4 * ws.length == stop) &&
  !(isLiteralWord base && (ws.getLast?).getD 0 == base && (if (ws.head?).map isPfxWord == some true then ws.length == 2 else ws.length == 1))

/-- The memory reads that a word's row needs when it is chosen: S[a] and S[b] of a system word. -/
def systemScalars (g : Group) (w : Word) : Dword × Dword :=
  (sreg g (scalarNo (byteA w)), sreg g (scalarNo (byteB w)))

/-- What a failed check means at a word of a fragment (R293, R327 to R329, R404): a translation trap, a freeze, a regeneration
service or a hold. -/
inductive AccessOutcome where
  | trap (t : Trap)
  | freeze (cause : Nat)
  | regen (frame : Nat) (rg : Bool)
  | consume (addr : Nat)
  | wait (line : Nat)
  | ask (peer : Option Nat) (addr n : Nat)
  | hold (h : Hold)
deriving DecidableEq, Repr, Inhabited

/-- The outcome of a failed check, with the VA and the kind of access in its info. -/
def outcomeOf (b : XBad) (va : Nat) (k : Kind) (pix : Nat) : AccessOutcome :=
  match b with
  | .cause n =>
    if translationFault n then
      .trap { cls := 9, info0 := BitVec.ofNat 64 va, info1 := BitVec.ofNat 64 (n + 256 * k.code), pix := pix }
    else .freeze n
  | .dropped f rg => .regen f rg
  | .poison a => .consume a
  | .wait l => .wait l
  | .ask p a n => .ask p a n

end Sys2Proof.Machine
end

