-- ==== Sys2Proof/Machine/Pages.lean ====
section
/-!
DEFINITION. A gang's scratchpad as virtual memory: table entries and the backing area (R187 to R189), frames and who may hold
them (R190 to R192), and the bytes of resident pages with their marks (R201).
-/
namespace Sys2Proof.Machine

open Sys2Proof

/-! ### Table entries (R187) -/

def PageMap (e : Dword) : Bool := e.getLsbD 0
def PageRes (e : Dword) : Bool := e.getLsbD 1
def PageDirty (e : Dword) : Bool := e.getLsbD 2
def PagePois (e : Dword) : Bool := e.getLsbD 3
def PageHome (e : Dword) : Nat := bits e.toNat 4 2
def PageFrame (e : Dword) : Nat := bits e.toNat 8 11
def PagePin (e : Dword) : Nat := bits e.toNat 20 4

def pageEntry (map res dirty pois : Bool) (home frame pin : Nat) : Dword :=
  BitVec.ofNat 64 (map.toNat + 2 * res.toNat + 4 * dirty.toNat + 8 * pois.toNat + 16 * (home % 4) + 256 * (frame % 2048) +
    2 ^ 20 * (pin % 16))

/-- An entry that the pager may not use (R189). -/
def pageBad (e : Dword) (members : Nat) : Bool :=
  bits e.toNat 6 2 != 0 || e.getLsbD 19 || bits e.toNat 24 40 != 0 || members ≤ PageHome e

def Gang.page (q : Gang) (p : Nat) : Dword := tget 0 q.pages p

/-! ### The backing area (R188) -/

def tableBytes (scratch : Nat) : Nat := (8 * (scratch / 2048) + 2047) / 2048 * 2048

def areaStride (scratch : Nat) : Nat := (tableBytes scratch + scratch + 65535) / 65536 * 65536

def areaBase (l : Launch) (index : Nat) : Nat := recSpbase l + index * areaStride (recScratch l)

def entryVa (l : Launch) (index p : Nat) : Nat := areaBase l index + 8 * p

def backingVa (l : Launch) (index p : Nat) : Nat := areaBase l index + tableBytes (recScratch l) + 2048 * p

/-- Who the transfers for a gang of the pager, which is microcode of the device (R193, R326), are made by. -/
def whoPager (q : Gang) (l : Launch) : Who := { whoLaunch ((q.cores.head?).getD 48) l with priv := true }

/-- Bytes of a writer are stored at a machine address; a sector that they do not fill is fetched first. -/
def storeLocal (s : State) (w ma : Nat) (bs : List Byte) : State :=
  let s := if ma % 16 == 0 && bs.length % 16 == 0 then s else fetchLines s w ma bs.length
  { s with mem := s.mem.store w ma bs }

/-- A write by the device through translation: local bytes are stored, with their poison, and bytes for an aperture are sent. -/
def deviceStoreMarked (s : State) (w : Who) (va : Nat) (bs : List Byte) (poison : Bool) : State × XResult (Dword × Dest) :=
  let status := if poison then 2 else 0
  match translate s w .store false va with
  | (s, .error b) => (s, .error b)
  | (s, .ok (e, .dev d ma)) =>
    let s := storeLocal s (writerOf w.core) ma bs
    (if poison then { s with mem := { s.mem with poison := addPoison (sectorsOf ma bs.length) s.mem.poison } } else s, .ok (e, .dev d ma))
  | (s, .ok (e, .peer dev dpa)) =>
      (sendRequest s { plainRequest 5 (some dev) dpa bs.length bs with reg := 3, word := w.ctx, lane := w.core } 0 status, .ok (e, .peer dev dpa))
  | (s, .ok (e, .host a)) => (sendRequest s { plainRequest 5 none a bs.length bs with reg := 3, word := w.ctx, lane := w.core } 0 status, .ok (e, .host a))

def deviceStore (s : State) (w : Who) (va : Nat) (bs : List Byte) : State × XResult (Dword × Dest) :=
  deviceStoreMarked s w va bs false

/-- Store a run of bytes piece by piece, 16 at a time, stopping at the first that fails; the VA that failed. -/
def deviceStoreAll (s : State) (w : Who) (va : Nat) : List (List Byte) → State × Except (XBad × Nat) Unit
  | [] => (s, .ok ())
  | b :: bs =>
    match deviceStore s w va b with
    | (s, .error x) => (s, .error (x, va))
    | (s, .ok _) => deviceStoreAll s w (va + 16) bs

/-- A leaf whose page is not raw cannot back scratchpad (R188). -/
def rawLeaf (e : Dword) : Bool := LeafApt e != 0 || LeafFmt e == 0

/-- Whether the pager may write a VA of the backing area now, once a tier X line has come, or not at all. -/
inductive Area where
  | ready
  | later
  | bad
deriving DecidableEq, Repr, Inhabited

/-! ### Dropped frames that the device meets (R339, R340) -/

def regenOf (m : Mem) (f : Nat) : Option Regen := m.services.find? (fun r => r.frame == f)

/-- The frame fails: it keeps DROPPED, and every access to it freezes. -/
def failRegen (s : State) (f : Nat) : State :=
  let rest := s.mem.services.filter (fun r => r.frame != f)
  { s with mem := { s.mem with services := rest ++ [⟨f, 0, none, none, s.clock, 0, true⟩] } }

/-- An access of the device for a gang meets a dropped frame: it holds for the frame's service, which the next step starts if it is not in
progress, or finds that the frame fails. `true` when it holds. -/
def wantRegen (s : State) (w : Who) (f va : Nat) (rg : Bool) : State × Bool :=
  match regenOf s.mem f with
  | some r => if r.failed then (s, false) else if rg then (s, true) else (failRegen s f, false)
  | none =>
    if rg then ({ s with mem := { s.mem with wanted := s.mem.wanted ++ [⟨f, va, w.part, w.regen⟩] } }, true) else (failRegen s f, false)

/-- A dropped frame that the pager or a save meets. -/
def areaDropped (s : State) (w : Who) (f va : Nat) (rg : Bool) : State × Area :=
  match wantRegen s w f va rg with
  | (s, true) => (s, .later)
  | (s, false) => (s, .bad)

def areaState (s : State) (w : Who) (va : Nat) : State × Area :=
  match leafOf s w .store false va with
  | (s, .error (.wait line)) => (askLine s line, .later)
  | (s, .error _) => (s, .bad)
  | (s, .ok e) =>
    if !rawLeaf e then (s, .bad)
    else
      match destOf s w e va with
      | .ok _ => (s, .ready)
      | .error (.wait line) => (askLine s line, .later)
      | .error (.dropped f rg) => areaDropped s w f va rg
      | .error _ => (s, .bad)

/-- The first of several VAs that is not ready. -/
def areaStates (s : State) (w : Who) : List Nat → State × Area × Nat
  | [] => (s, .ready, 0)
  | va :: rest =>
    match areaState s w va with
    | (s, .ready) => areaStates s w rest
    | (s, a) => (s, a, va)

/-- The VAs of a page's entry and of its backing. -/
def pageVas (l : Launch) (index p : Nat) (backing : Bool) : List Nat :=
  entryVa l index p :: (if backing then (List.range 16).map (fun i => backingVa l index p + 128 * i) else [])

/-- The pager writes a page's entry, in its table and in what the cores hold; none changes when the area is not usable. -/
def writeEntry (s : State) (uid : Nat) (p : Nat) (e : Dword) : State × Bool :=
  match gangOf s uid with
  | none => (s, false)
  | some q =>
    match launchOf s q.launch with
    | none => (s, false)
    | some l =>
      let va := entryVa l q.index p
      match areaState s (whoPager q l) va with
      | (s, .later) | (s, .bad) => (s, false)
      | (s, .ready) =>
        match deviceStore s (whoPager q l) va (leBytes 8 e.toNat) with
        | (s, .error _) => (s, false)
        | (s, .ok _) =>
          (match gangOf s uid with
           | none => s
           | some q => setGang s uid { q with pages := tset 0 q.pages p e }, true)

/-! ### Frames (R190 to R192) -/

/-- Frames of a core. -/
def frameCount (c : Core) : Nat := 32 * (c.b2 - c.b1)

/-- Frames of a core whose pages stay with a gang: not those that are being written back. -/
def framesStaying (c : Core) (uid : Nat) (q : Gang) : Nat :=
  (c.frames.filter (fun f => f.2.gang == uid && !q.leaving.contains f.2.page)).length

/-- The fills of a gang in service on a core. -/
def fillsOn (q : Gang) (core : Nat) : List Fill := q.fills.filter (fun f => q.cores[f.home]? == some core)

/-- A gang's reservation on a core (R190). -/
def reservedOn (q : Gang) (core : Nat) : Nat :=
  (List.range q.cores.length).foldl (fun n i => if q.cores[i]? == some core then n + (q.reserved[i]?).getD 0 else n) 0

/-- What a frame request yields (R191): a frame at once, a dirty victim to write back first, a victim whose area's line must come
first, or nothing. -/
inductive Grant where
  | now (frame : Nat)
  | after (gang page : Nat)
  | later
  | never
deriving DecidableEq, Repr, Inhabited

/-- Victims in the order of R191: clean before dirty, and among those the least recently accessed. -/
def victimOrder (s : State) (xs : List (Nat × Frame)) : List (Nat × Frame) :=
  let dirty := fun (f : Frame) => match gangOf s f.gang with
    | none => false
    | some q => PageDirty (q.page f.page)
  let sort := fun (ys : List (Nat × Frame)) => ys.mergeSort (fun a b => a.2.last ≤ b.2.last)
  sort (xs.filter (fun x => !dirty x.2)) ++ sort (xs.filter (fun x => dirty x.2))

/-- The candidates for a frame of a core, for a page of a gang, in the order of R191. A gang's unfilled reservation is what neither the
frames that stay with it nor its fills in service fill, and a frame that is being written back for another gang is its no longer.

DESIGN CHOICE (log entry 44): of several free frames the one of the lowest number is taken. -/
def frameCandidates (s : State) (core uid : Nat) : List Nat × List (Nat × Frame) :=
  let c := coreOf s core
  let taken := s.gangs.flatMap (fun q => (fillsOn q.2 core).filterMap (·.frame))
  let used := c.frames.map (·.1) ++ taken
  let free := (List.range (frameCount c)).filter (fun f => !used.contains f)
  let owed := s.gangs.foldl (fun n q =>
    if q.1 != uid && q.2.cores.contains core then
      n + (reservedOn q.2 core - (framesStaying c q.1 q.2 + (fillsOn q.2 core).length))
    else n) 0
  let idle := fun (f : Frame) => match gangOf s f.gang with
    | none => false
    | some q => PagePin (q.page f.page) == 0 && !q.leaving.contains f.page
  let beyond := fun (f : Frame) => match gangOf s f.gang with
    | none => false
    | some q => reservedOn q core < framesStaying c f.gang q
  let others := c.frames.filter (fun x => x.2.gang != uid && idle x.2 && beyond x.2)
  let own := c.frames.filter (fun x => x.2.gang == uid && idle x.2)
  (if owed < free.length then free.take 1 else [], victimOrder s others ++ victimOrder s own)

/-- The member index of a core in its gang. -/
def memberOf (q : Gang) (core : Nat) : Nat := q.cores.findIdx (· == core)

/-! ### Resident pages -/

/-- The core and frame of a resident page. -/
def pageFrame (q : Gang) (p : Nat) : Option (Nat × Nat) :=
  let e := q.page p
  if PageRes e && !q.leaving.contains p then (q.cores[PageHome e]?).map (fun c => (c, PageFrame e)) else none

def frameOf (s : State) (core f : Nat) : Option Frame := tfind (coreOf s core).frames f

def setFrame (s : State) (core f : Nat) (x : Frame) : State :=
  let c := coreOf s core
  setCore s core { c with frames := tput c.frames f x }

/-- Whether bytes of a resident page touch a marked unit (R201). -/
def frameMarked (x : Frame) (off n : Nat) : Bool :=
  (List.range n).any (fun i => x.marks.getLsbD ((off + i) / 16))

/-- Bytes stored into a frame: a whole unit loses its mark. -/
def frameStore (x : Frame) (off : Nat) (bs : List Byte) (stamp : Nat) : Frame :=
  let whole := (List.range 128).filter (fun u => off ≤ 16 * u && 16 * u + 16 ≤ off + bs.length)
  { x with bytes := writeBytes x.bytes off bs, last := stamp,
           marks := whole.foldl (fun m u => m &&& ~~~(BitVec.ofNat 128 (2 ^ u))) x.marks }

/-- A unit written with a mark, or without. -/
def frameUnit (x : Frame) (off : Nat) (bs : List Byte) (poison : Bool) (stamp : Nat) : Frame :=
  let y := frameStore x off bs stamp
  if poison then { y with marks := y.marks ||| BitVec.ofNat 128 (2 ^ (off / 16)) } else y

/-- The page is dirty, and marked as its frame is, in its entry (R187, R200). -/
def touchPage (s : State) (uid p : Nat) (marks : BitVec 128) : State :=
  match gangOf s uid with
  | none => s
  | some q =>
    let e := q.page p
    let n := pageEntry true (PageRes e) true (marks != 0) (PageHome e) (PageFrame e) (PagePin e)
    let s := setGang s uid { q with written := insertNat p q.written }
    if n = e then s
    else
      let s := (writeEntry s uid p n).1
      match gangOf s uid with
      | none => s
      | some q => setGang s uid { q with pages := tset 0 q.pages p n }

/-- Remember what a unit of scratchpad held before a write at this place (R349). -/
def rememberUnit (m : Mem) (keep : Bool) (uid sva : Nat) (x : Frame) : Mem :=
  let off := 16 * (sva % 2048 / 16)
  let past := if keep then m.past ++ [⟨.sva uid (16 * (sva / 16)), readBytes x.bytes off 16, m.order, none, frameMarked x off 16, false⟩] else m.past
  { m with past := past, order := m.order + 1 }

/-- Store bytes within a resident page. -/
def svaStore (s : State) (uid sva : Nat) (bs : List Byte) : State :=
  match gangOf s uid with
  | none => s
  | some q =>
    match pageFrame q (sva / 2048) with
    | none => s
    | some (core, f) =>
      match frameOf s core f with
      | none => s
      | some x =>
        let s := { s with mem := rememberUnit s.mem (!s.launches.isEmpty) uid sva x }
        let y := frameStore x (sva % 2048) bs s.clock
        touchPage (setFrame s core f y) uid (sva / 2048) y.marks

/-- Write one 16-byte unit, with its poison, into a resident page. -/
def svaUnit (s : State) (uid sva : Nat) (bs : List Byte) (poison : Bool) : State :=
  match gangOf s uid with
  | none => s
  | some q =>
    match pageFrame q (sva / 2048) with
    | none => s
    | some (core, f) =>
      match frameOf s core f with
      | none => s
      | some x =>
        let s := { s with mem := rememberUnit s.mem (!s.launches.isEmpty) uid sva x }
        let y := frameUnit x (sva % 2048) bs poison s.clock
        touchPage (setFrame s core f y) uid (sva / 2048) y.marks

/-- What a read of bytes of scratchpad finds: they stand in a frame, marked or not, or their page is not resident. -/
inductive SvaRead where
  | bytes (bs : List Byte)
  | marked
  | absent
deriving DecidableEq, Repr, Inhabited

def svaRead (s : State) (uid sva n : Nat) : SvaRead :=
  match gangOf s uid with
  | none => .absent
  | some q =>
    match pageFrame q (sva / 2048) with
    | none => .absent
    | some (core, f) =>
      match frameOf s core f with
      | none => .absent
      | some x => if frameMarked x (sva % 2048) n then .marked else .bytes (readBytes x.bytes (sva % 2048) n)

/-- The access is noted for R191's order. -/
def touchFrame (s : State) (uid sva : Nat) : State :=
  match gangOf s uid with
  | none => s
  | some q =>
    match pageFrame q (sva / 2048) with
    | none => s
    | some (core, f) =>
      match frameOf s core f with
      | none => s
      | some x => setFrame s core f { x with last := s.clock }

/-! ### CX comparators (R459, R462, R463) -/

/-- BYTES of a report: the matching bytes of the 16-byte unit that holds the lowest. -/
def reportBytes (hit : List Nat) : Nat :=
  let lo := hit.foldl min (hit.headD 0)
  (List.range 16).foldl (fun x i => if hit.contains (16 * (lo / 16) + i) then x + 2 ^ i else x) 0

/-- A comparator after a report. -/
def Comparator.reported (c : Comparator) (word : Dword) : Comparator :=
  { c with hits := min 0xFFFFFFFF (c.hits + 1), last := word }

/-- The bytes of a write at the home slice that a CX comparator matches: `kind` is the bit of its KIND. -/
def cxBytes (s : State) (c : Comparator) (kind dpa : Nat) (hit : List Nat) : List Nat :=
  let addr := field c.desc 0 8
  if c.en && bit (field c.desc 13 1) kind && IndPart (s.mem.entry (dpa / 65536)) == ctxPart s (field c.desc 12 1)
  then hit.filter (fun b => addr ≤ b && b < addr + field c.desc 8 2 && bit (field c.desc 10 2) (b % 16))
  else []

/-- The report of a CX comparator that matches a write at its home slice. -/
def cxReport (s : State) (kind source : Nat) (bytes : List Nat) (group gang : Option Nat) (c : Nat × Comparator) : Option Report :=
  let hit := cxBytes s c.2 kind (bytes.headD 0) bytes
  if hit.isEmpty then none
  else some ⟨c.1, hit.foldl min (hit.headD 0),
    BitVec.ofNat 64 (reportBytes hit + 2 ^ 23 * (8 + c.1) + 2 ^ 29 * kind + 2 ^ 32 * source), group, gang, s.clock⟩

/-- A write at its home slice is matched by the CX comparators: a report of each that matches waits within its skid. -/
def watchCx (s : State) (kind source : Nat) (bytes : List Nat) (group gang : Option Nat) : State :=
  { s with reports := s.reports ++ s.cxComps.filterMap (cxReport s kind source bytes group gang) }

/-! ### Global places of engine writes (R350) -/

/-- An engine write reaches its global place: its bytes, and its poison, stand in memory. -/
def applyPlace (s : State) (p : Place) : State :=
  match p.loc with
  | .ma a =>
    let s := storeLocal s p.writer a p.bytes
    if p.poison then { s with mem := { s.mem with poison := addPoison (sectorsOf a p.bytes.length) s.mem.poison } } else s
  | .sva uid a => svaUnit s uid a p.bytes p.poison
  | _ => s

/-- The anchor of a walker's reads once an engine write that its threads' waits cover has reached its place: what it has written is read
after it. -/
def Since.placed (a : Since) (p : Place) (order : Nat) : Since :=
  if a.covers.contains p.transfer then { a with looks := ⟨p.loc, BitVec.ofNat 16 (2 ^ p.bytes.length - 1), order⟩ :: a.looks } else a

/-- The posts and nodes that an engine write at its place is covered for. -/
def noteCovered (s : State) (p : Place) : State :=
  { s with gangs := s.gangs.map (fun q => (q.1, { q.2 with teams := q.2.teams.map (fun t =>
      { t with posts := t.posts.map (fun x => { x with anchor := x.anchor.placed p s.mem.order })
               slots := t.slots.map (fun x => (x.1, { x.2 with anchor := x.2.anchor.placed p s.mem.order })) }) })) }

/-- Every engine write that meets a condition reaches its global place, in the order of its units. -/
def applyPlaces (s : State) (p : Place → Bool) : State :=
  let now := s.places.filter p
  now.foldl (fun s x => noteCovered (applyPlace s x) x) { s with places := s.places.filter (fun x => !p x) }

/-- The engine writes whose global place lies in a run of machine addresses. -/
def placeWithin (base n : Nat) (p : Place) : Bool :=
  match p.loc with
  | .ma a => base ≤ a && a < base + n
  | _ => false

/-! ### Eviction and fill (R186, R191, R193, R194) -/

/-- A page's spill entries and engine writes are applied while it is resident. -/
def settlePage (s : State) (uid p : Nat) : State :=
  applyPlaces s (fun x => match x.loc with
    | .sva g a => g == uid && a / 2048 == p
    | _ => false)

/-- The mark of a unit's line: whether any of its eight units is marked. -/
def lineMarked (x : Frame) (u : Nat) : Bool := (List.range 8).any (fun i => x.marks.getLsbD (8 * (u / 8) + i))

/-- Units of a page are written to its backing, stopping at the first that fails; the VA that failed, if one did. -/
def writeUnits (w : Who) (va : Nat) (x : Frame) : List Nat → State → State × Option Nat
  | [], s => (s, none)
  | u :: us, s =>
    match deviceStoreMarked s w (va + 16 * u) (readBytes x.bytes (16 * u) 16) (lineMarked x u) with
    | (s, .error _) => (s, some (va + 16 * u))
    | (s, .ok _) => writeUnits w va x us s

/-- A dirty page is written back to its backing; a marked unit poisons its line there (R201). The VA that failed, if one did. -/
def writeBack (s : State) (uid p : Nat) : State × Option Nat :=
  match gangOf s uid with
  | none => (s, none)
  | some q =>
    match launchOf s q.launch, q.cores[PageHome (q.page p)]? with
    | some l, some core =>
      match frameOf s core (PageFrame (q.page p)) with
      | none => (s, none)
      | some x =>
        let va := backingVa l q.index p
        match areaState s (whoPager q l) va with
        | (s, .later) | (s, .bad) => (s, some va)
        | (s, .ready) => writeUnits (whoPager q l) va x (List.range 128) s
    | _, _ => (s, none)

/-- The frame of a page that has left it, as its entry named it, is free. -/
def freeFrame (s : State) (q : Gang) (e : Dword) : State :=
  match q.cores[PageHome e]? with
  | none => s
  | some core =>
    let c := coreOf s core
    if PageRes e then setCore s core { c with frames := tdel c.frames (PageFrame e) } else s

/-- A page leaves its frame: it is then backed, or zero when it was never written (R186); its pin count and marks are kept. Its entry is
written first (R189): `false` when that fails, and the page then stays as it is (R188). -/
def releasePage (s : State) (uid p : Nat) (keepHome : Bool) : State × Bool :=
  match gangOf s uid with
  | none => (s, false)
  | some q =>
    let e := q.page p
    let backed := q.written.contains p || PageMap e && PageDirty e
    let n := pageEntry backed false false (backed && PagePois e) (if keepHome then PageHome e else 0) 0 (PagePin e)
    match writeEntry s uid p n with
    | (s, false) => (s, false)
    | (s, true) =>
      let s := freeFrame s q e
      (match gangOf s uid with
       | none => s
       | some q => setGang s uid { q with leaving := q.leaving.filter (· != p) }, true)

/-- The state of a page (R186): 0 zero, 1 backed, 2 resident, 3 in transit. -/
def pageState (q : Gang) (p : Nat) : Nat :=
  let e := q.page p
  if q.leaving.contains p || q.fills.any (fun f => f.page == p) then 3
  else if PageRes e then 2
  else if PageMap e then 1 else 0

/-- A trap of a gang becomes pending in its first live group, once. -/
def pendFirst (s : State) (uid : Nat) (p : Pending) : State :=
  match firstLiveGroup s uid with
  | none => s
  | some (key, g) => if g.pending.contains p then s else addPending s key p

/-- The backing trap of a transfer made for no word of a gang waits in its first live group (R188). -/
def pendBacking (s : State) (uid va cause : Nat) : State := pendFirst s uid ⟨11, BitVec.ofNat 64 va, BitVec.ofNat 64 cause, 1, none, none⟩

/-- Whether a page of a gang can be evicted, and the VA that does not allow it. -/
def evictionState (s : State) (uid p : Nat) : State × Area × Nat :=
  match gangOf s uid with
  | none => (s, .later, 0)
  | some q =>
    match launchOf s q.launch with
    | none => (s, .later, 0)
    | some l => areaStates s (whoPager q l) (pageVas l q.index p (PageDirty (q.page p)))

/-- The VA of a page's entry. -/
def entryVaOf (s : State) (uid p : Nat) : Nat :=
  match gangOf s uid with
  | none => 0
  | some q => ((launchOf s q.launch).map (fun l => entryVa l q.index p)).getD 0

/-- The first candidate that can be evicted: a clean one leaves its frame at once. A candidate whose area is not usable stays, and its
gang is told (R188). -/
def pickVictim : List (Nat × Frame) → State → State × Grant
  | [], s => (s, .never)
  | (f, x) :: rest, s =>
    match evictionState (settlePage s x.gang x.page) x.gang x.page with
    | (s, .bad, va) => pickVictim rest (pendBacking s x.gang va 1)
    | (s, .later, _) => (s, .later)
    | (s, .ready, _) =>
      if ((gangOf s x.gang).map (fun q => PageDirty (q.page x.page))).getD false then (s, .after x.gang x.page)
      else
        match releasePage s x.gang x.page false with
        | (s, true) => (s, .now f)
        | (s, false) => pickVictim rest (pendBacking s x.gang (entryVaOf s x.gang x.page) 1)

/-- The frame that a page of a gang takes on a core (R191). -/
def chooseFrame (s : State) (core uid : Nat) : State × Grant :=
  match frameCandidates s core uid with
  | (f :: _, _) => (s, .now f)
  | ([], xs) => pickVictim xs s

/-- A fill of a page begins at a home member, unless one is in service (R193): a frame is taken, or waits for a victim's
write-back, or is asked for again once a line has come. `false` when no frame can be taken (R192). -/
def startFill (s : State) (uid p home : Nat) : State × Bool :=
  match gangOf s uid with
  | none => (s, false)
  | some q =>
    if q.fills.any (fun f => f.page == p) || q.leaving.contains p then (s, true)
    else
      match q.cores[home]? with
      | none => (s, false)
      | some core =>
        let add := fun (s : State) (x : Fill) => match gangOf s uid with
          | none => s
          | some q => setGang s uid { q with fills := q.fills ++ [x] }
        match chooseFrame s core uid with
        | (s, .now f) => (add s ⟨p, home, some f, none⟩, true)
        | (s, .later) => (s, true)
        | (s, .after g v) =>
          let s := match gangOf s g with
            | none => s
            | some x => setGang s g { x with leaving := x.leaving ++ [v] }
          (add s ⟨p, home, none, some (g, v)⟩, true)
        | (s, .never) => (s, false)

/-! ### Reads of whole units by the device -/

/-- Bytes that a reply has brought, with their poison. -/
def bufferUnit (b : Nat × Nat × List Byte × Nat) : XResult (List Byte × Bool) :=
  if b.2.2.2 = 1 then .error (.cause 11) else .ok (b.2.2.1, b.2.2.2 == 2)

/-- A 16-byte unit, or part of one, with its poison, as an engine or the pager reads it through translation. -/
def unitRead (s : State) (w : Who) (va n : Nat) : State × XResult (List Byte × Bool) :=
  match translate s w .load false va with
  | (s, .error b) => (s, .error b)
  | (s, .ok (_, .dev _ ma)) =>
    let s := noteReads (fetchLines s (writerOf w.core) ma n) w.core ma n
    (s, .ok (s.mem.bytesAt ma n, s.mem.marked ma n))
  | (s, .ok (_, .peer dev dpa)) =>
    (match s.buffer.find? (fun b => b.1 == dev + 1 && b.2.1 == dpa && b.2.2.1.length == n) with
     | some b => ({ s with buffer := s.buffer.erase b }, bufferUnit b)
     | none => (s, .error (.ask (some dev) dpa n)))
  | (s, .ok (_, .host addr)) =>
    (match s.buffer.find? (fun b => b.1 == 0 && b.2.1 == addr && b.2.2.1.length == n) with
     | some b => ({ s with buffer := s.buffer.erase b }, bufferUnit b)
     | none => (s, .error (.ask none addr n)))

/-- The units of a run of memory, each with its poison; what aperture bytes it has is kept until every unit is there. -/
def unitsRead (s : State) (w : Who) : List Nat → State × Except (XBad × Nat) (List (List Byte × Bool))
  | [] => (s, .ok [])
  | va :: rest =>
    match unitRead s w va 16 with
    | (t, .error b) => ({ t with buffer := keptBuffer s }, .error (b, va))
    | (t, .ok x) =>
      match unitsRead t w rest with
      | (u, .error b) => ({ u with buffer := keptBuffer s }, .error b)
      | (u, .ok xs) => (u, .ok (x :: xs))

/-! ### A page that an access needs -/

/-- What an access finds of the page that it needs: it is resident, it will be, no frame can be taken, or the backing trap of
R188 and R189 with its VA and cause. -/
inductive Need where
  | resident
  | wait
  | noFrame
  | bad (va cause : Nat)
deriving DecidableEq, Repr, Inhabited

/-- Whether two entries say the same of a page but for DIRTY and POIS, which a resident page's frame decides. -/
def sameEntry (x e : Dword) : Bool := (x ^^^ e) &&& ~~~0xC == 0

/-- Whether the table in memory holds the entry of a page that the cores hold. -/
def tableHere (s : State) (q : Gang) (l : Launch) (p : Nat) : Bool :=
  match (loadBytes s (whoPager q l) .load (entryVa l q.index p) 8).2 with
  | .ok bs => sameEntry (BitVec.ofNat 64 (leNat bs)) (q.page p)
  | .error _ => false

/-- The entry of a page that an access uses (R189): what an SP-TLB holds, or, after a miss, what the table in memory holds. The one that
the cores hold is always one that the SP-TLB of a resident page may hold; the page of another is read from the table, unless its area
cannot be read. -/
def readEntry (s : State) (q : Gang) (l : Launch) (p : Nat) : State × Except (XBad × Nat) Dword :=
  let va := entryVa l q.index p
  let e := q.page p
  let hit := PageRes e && Config.freeBool s.tick
  match loadBytes { s with tick := s.tick + 1 } (whoPager q l) .load va 8 with
  | (s, .error b) => (s, if hit then .ok e else .error (b, va))
  | (s, .ok bs) =>
    let x : Dword := BitVec.ofNat 64 (leNat bs)
    let r := draw s (if x = e then [] else [x]) e
    (r.1, .ok r.2)

/-- The fill that a page's entry asks for begins, where its area can be used. -/
def beginFill (s : State) (uid p home : Nat) (q : Gang) (l : Launch) : State × Need :=
  match areaStates s (whoPager q l) (pageVas l q.index p (PageMap (q.page p))) with
  | (s, .bad, va) => (s, .bad va 1)
  | (s, .later, _) => (s, .wait)
  | (s, .ready, _) =>
    match startFill s uid p home with
    | (s, true) => (s, .wait)
    | (s, false) => (s, .noFrame)

/-- What follows from the entry that an access uses. -/
def useEntry (uid p home : Nat) (q : Gang) (l : Launch) : State × Except (XBad × Nat) Dword → State × Need
  | (s, .error (.wait line, _)) => (askLine s line, .wait)
  | (s, .error (.ask peer a n, _)) => (askBytes s ((q.cores.head?).getD 48) peer a n, .wait)
  | (s, .error (.dropped f rg, va)) =>
    (match wantRegen s (whoPager q l) f va rg with
     | (s, true) => (s, .wait)
     | (s, false) => (s, .bad va 1))
  | (s, .error (_, va)) => (s, .bad va 1)
  | (s, .ok e) =>
    if pageBad e q.cores.length then (s, .bad (entryVa l q.index p) 2)
    else
      let q := { q with pages := tset 0 q.pages p e }
      let s := setGang s uid q
      if PageRes e then (s, .resident) else beginFill s uid p home q l

/-- A page becomes resident at a home member, as far as the pager can bring it now. A fill that has failed is reported once (R188). -/
def needPage (s : State) (uid p home : Nat) : State × Need :=
  match gangOf s uid with
  | none => (s, .wait)
  | some q =>
    match launchOf s q.launch, tfind q.failed p with
    | none, _ => (s, .wait)
    | some _, some va => (setGang s uid { q with failed := tdel q.failed p }, .bad va 1)
    | some l, none =>
      match pageState q p with
      | 2 => if tableHere s q l p then (s, .resident) else useEntry uid p home q l (readEntry s q l p)
      | 3 => (s, .wait)
      | _ =>
        match areaState s (whoPager q l) (entryVa l q.index p) with
        | (s, .bad) => (s, .bad (entryVa l q.index p) 1)
        | (s, .later) => (s, .wait)
        | (s, .ready) => useEntry uid p home q l (readEntry s q l p)

end Sys2Proof.Machine
end

