-- ==== Sys2Proof/Machine/Contain.lean ====
section
/-!
DEFINITION. Containment: what a gang gives back when it leaves (R78, R152, R430), kills and relaunches (R430, R431),
consumption of poison (R438), regeneration of dropped frames (R307, R308, R339, R340), the posting of a packet by the device
(R382), and what a failed check does to the fragment that met it (R328, R329, R404).
-/
namespace Sys2Proof.Machine

open Sys2Proof

/-! ### What a gang holds -/

/-- The groups of a gang, with their slot keys. -/
def groupsOf (s : State) (uid : Nat) : List (Nat × Group) := s.groups.filter (fun g => g.2.gang == uid)

/-- Members that one team occupies (R390). -/
def teamCores (members gteams : Nat) : Nat :=
  let n := members / gteams
  if 2 ≤ n then 2 else 1

/-- The ring core of a team: the core of its group 0 (R246, R390). -/
def ringCore (s : State) (uid team : Nat) : Nat :=
  match gangOf s uid with
  | none => 48
  | some q => (q.cores[teamCores q.cores.length q.teams.length * team]?).getD 48

/-- The taker numbers of the claims on atiles (R262): a node, a tile transfer, a word of a fragment, a window unit of a transfer. -/
def takerNode (uid team slot : Nat) : Nat := 4 * ((4 * uid + team) * 1024 + slot)
def takerTile (number : Nat) : Nat := 4 * number + 1
def takerWord (key ln : Nat) : Nat := 4 * (64 * key + ln) + 2
def takerWindow (number : Nat) : Nat := 4 * number + 3

/-- A taker asks for the claim of an atile, once. -/
def askClaim (s : State) (core atile taker : Nat) : State :=
  let c := coreOf s core
  if c.claims.contains (atile, taker) then s else setCore s core { c with claims := c.claims ++ [(atile, taker)] }

/-- Whether a taker holds an atile's claim: it asked before every other taker that stands there. -/
def holdsClaim (s : State) (core atile taker : Nat) : Bool :=
  ((coreOf s core).claims.find? (fun x => x.1 == atile)).map (·.2) == some taker

/-- A taker gives up every claim that it holds or has asked for on a core. -/
def dropClaims (s : State) (core taker : Nat) : State :=
  let c := coreOf s core
  if c.claims.all (fun x => x.2 != taker) then s
  else setCore s core { c with claims := c.claims.filter (fun x => x.2 != taker) }

/-- A taker gives up every claim that it holds or has asked for on any core. -/
def dropClaimsEverywhere (s : State) (taker : Nat) : State := s.cores.foldl (fun s c => dropClaims s c.1 taker) s

/-- The claims of a group's words are given up. -/
def dropWordClaims (s : State) (core key : Nat) : State :=
  let c := coreOf s core
  if c.claims.isEmpty then s
  else setCore s core { c with claims := c.claims.filter (fun x => !(x.2 % 4 == 2 && x.2 / 4 / 64 == key)) }

/-- Every claim of a gang's words, nodes and transfers, and every claim on its atiles, goes with it. -/
def dropGangClaims (s : State) (uid : Nat) (keys : List Nat) : State :=
  match gangOf s uid with
  | none => s
  | some q =>
    let mine := (s.transfers.filter (fun t => t.2.gang == uid && t.2.kind != 2)).map (·.1)
    let runs := (List.range q.teams.length).filterMap (fun t => (q.teams[t]?).map (fun x => (ringCore s uid t, x.atiles, x.acc)))
    s.cores.foldl (fun s c =>
      let keep := fun (x : Nat × Nat) =>
        !(x.2 % 4 == 0 && x.2 / 4 / 4096 == uid) && !(x.2 % 4 == 2 && keys.contains (x.2 / 4 / 64)) &&
        !(x.2 % 2 == 1 && mine.contains (x.2 / 4)) &&
        !runs.any (fun r => r.1 == c.1 && decide (r.2.1 ≤ x.1) && decide (x.1 < r.2.1 + r.2.2))
      if c.2.claims.isEmpty then s else setCore s c.1 { coreOf s c.1 with claims := (coreOf s c.1).claims.filter keep }) s

/-- Some gang is resident on the core. -/
def coreInUse (s : State) (core : Nat) : Bool := s.gangs.any (fun q => q.2.cores.contains core)

/-- A core that no gang holds has no boundaries in force (R152, R153). -/
def vacateCore (s : State) (core : Nat) : State :=
  if coreInUse s core then s
  else setCore s core { coreOf s core with b1 := 0, b2 := 0, b3 := 0, empty := true }

/-- The gang and team whose run holds a physical atile of a core. -/
def atileOwner (s : State) (core a : Nat) : Option (Nat × Nat) :=
  s.gangs.findSome? (fun q => (List.range q.2.teams.length).findSome? (fun t =>
    match q.2.teams[t]? with
    | none => none
    | some x => if ringCore s q.1 t = core && x.atiles ≤ a && a < x.atiles + x.acc then some (q.1, t) else none))

/-- The context of a gang. -/
def gangCtx (s : State) (uid : Nat) : Option Nat := ((gangOf s uid).bind (fun q => launchOf s q.launch)).map (·.ctx)

/-- The gang whose word it is, and the core that holds it. -/
def SramWord.home (s : State) : SramWord → Option (Nat × Nat)
  | .vreg g .. | .sreg g _ | .mask g _ | .counter g _ => (groupOf s g).map (fun x => (x.gang, coreOfKey g))
  | .atile core a _ => (atileOwner s core a).map (fun x => (x.1, core))
  | .latch uid t _ => (gangOf s uid).map (fun _ => (uid, ringCore s uid t))

/-- The words of a group in a slot. -/
def SramWord.ofGroup (key : Nat) : SramWord → Bool
  | .vreg g .. | .sreg g _ | .mask g _ | .counter g _ => g == key
  | _ => false

/-- The requests of a group that leaves: its loads are dropped, and its stores and atomics are performed with nothing to wait for them,
those of its stores to the host that had still to be transmitted at once (R430). Lane 64 marks such a request, which names its context and
gang index itself. -/
def leaveRequests (s : State) (key : Nat) : State :=
  let q := (groupOf s key).bind (fun g => gangOf s g.gang)
  let ctx := ((q.bind (fun q => launchOf s q.launch)).map (·.ctx)).getD 0
  let mine := fun (r : Request) => r.group == key && r.kind ≤ 2
  let posted := fun (r : Request) => mine r && r.kind == 1 && r.peer.isNone
  { s with
    sent := s.sent ++ (s.requests.filter (fun r => posted r && !r.sent)).map (fun r => .hostWrite r.addr r.data false r.ordered)
    requests := (s.requests.filter (fun r => !posted r && !(mine r && r.kind == 0))).map (fun r =>
      if mine r then { r with lane := 64, op := none, reg := ctx, regs := 0, log := none, first := (q.map (·.index)).getD 0 } else r) }

/-- A group leaves its slot: its registers, counters, requests and operations in flight go with it. -/
def dropGroup (s : State) (key : Nat) : State :=
  let c := coreOf s (coreOfKey key)
  let s := setCore (leaveRequests s key) (coreOfKey key)
    { c with requests := c.requests.filter (fun r => r.2.1 != key), replay := c.replay.filter (fun r => r.2 != key) }
  { s with
    groups := tdel s.groups key
    ops := s.ops.filter (fun o => o.2.group != key)
    due := s.due.filter (fun d => d.key != some key)
    services := s.services.filter (fun v => !(v.rung == 0 && v.key == key))
    upsets := s.upsets.filter (fun x => !x.word.ofGroup key) }

/-- A trap that waits at the context rung, or a debug halt, goes with the gang that it held (R412, R464). -/
def forgetHeld (s : State) (uid : Nat) : State :=
  (s.ctxs.filter (fun c => c.2.held == some uid || c.2.halted == some uid || c.2.more.any (fun y => y.2.2 == uid))).foldl (fun s c =>
    let x := ctxOf s c.1
    let s := { s with services := s.services.filter (fun v => !(v.rung == 2 && v.key == ctxServiceKey uid c.1)) }
    let x := { x with more := x.more.filter (fun y => y.2.2 != uid), halted := if x.halted == some uid then none else x.halted }
    setCtx s c.1 (if x.held == some uid then x.nextHeld else x)) s

/-- A gang leaves its unit with everything reserved for it; frames are given up with no write-back, and a fill of another gang that
waited for one of them asks again. -/
def dropGang (s : State) (uid : Nat) : State :=
  match gangOf s uid with
  | none => s
  | some q =>
    let s := { s with upsets := s.upsets.filter (fun x => (x.word.home s).map (·.1) != some uid) }
    let s := dropGangClaims (forgetHeld s uid) uid ((groupsOf s uid).map (·.1))
    let s := (groupsOf s uid).foldl (fun s g => dropGroup s g.1) s
    let s := q.cores.foldl (fun s c =>
      let x := coreOf s c
      setCore s c { x with frames := x.frames.filter (fun f => f.2.gang != uid) }) s
    let s := { s with
      gangs := (tdel s.gangs uid).map (fun x => (x.1, if x.2.fills.all (fun f => (f.victim.map (·.1)) != some uid) then x.2
        else { x.2 with fills := x.2.fills.filter (fun f => (f.victim.map (·.1)) != some uid) }))
      transfers := s.transfers.filter (fun t => !(t.2.gang == uid && t.2.kind != 2))
      places := s.places.filter (fun p => match p.loc with
        | .sva g _ => g != uid
        | _ => true)
      services := s.services.filter (fun v => !(v.rung == 1 && v.key == uid))
      due := s.due.filter (fun d => d.gang != uid)
      saves := s.saves.filter (fun v => v.gang != uid) }
    q.cores.foldl vacateCore s

/-- The gang's index is counted as ended in its launch. -/
def launchEnd (s : State) (launch : Nat) (killed : Bool) : State :=
  match launchOf s launch with
  | none => s
  | some l => setLaunch s launch { l with done := l.done + 1, killed := l.killed || killed }

/-- The gang runs again from the retained record: an unplaced gang that its die takes first (R431). -/
def relaunchGang (s : State) (launch index : Nat) : State :=
  match launchOf s launch with
  | none => s
  | some l => setLaunch s launch
      { l with unplaced := l.unplaced ++ [(index, s.clock)], urgent := insertNat index l.urgent,
               again := tset 0 l.again index (tget 0 l.again index + 1) }

/-- A gang is killed (R430). With `again`, a RESTART launch relaunches it while it has been relaunched fewer than 3 times;
`true` when it was relaunched. -/
def killGang (s : State) (uid : Nat) (again : Bool) : State × Bool :=
  match gangOf s uid with
  | none => (s, false)
  | some q =>
    let s := dropGang s uid
    match launchOf s q.launch with
    | none => (s, false)
    | some l =>
      if again && recRestart l && !l.destroyed && tget 0 l.again q.index < 3 then (relaunchGang s q.launch q.index, true)
      else (launchEnd s q.launch true, false)

/-- A gang consumes an uncorrected error: the record is written, the gang killed, and class 21 taken at the context rung when
it is not relaunched (R438, R431). -/
def consume (s : State) (uid : Nat) (e : Event) : State :=
  let s := recordEvent s e
  match gangOf s uid with
  | none => s
  | some q =>
    match launchOf s q.launch with
    | none => s
    | some l =>
      match killGang s uid true with
      | (s, true) => s
      | (s, false) =>
        toContext s uid l.ctx q.index ⟨21, BitVec.ofNat 64 (e.addr.getD 0), BitVec.ofNat 64 e.unit, 2, none, none⟩

/-! ### Double-bit errors of SRAM that a gang reads (R435) -/

/-- The gang that consumes an error of SRAM, with the record. -/
def latentEvent (s : State) (x : Latent) : Option (Nat × Event) :=
  (x.word.home s).map (fun h =>
    (h.1, { unit := unitCore s h.2, cause := 0x24, sev := 3, cons := true, addr := some x.offset, synd := x.synd,
            ctx := gangCtx s h.1, gang := ((gangOf s h.1).map (·.index)).getD 0 }))

/-- Reads have met some errors in the state `was`: the gangs of their words consume them. Each is recorded, and the first of a gang kills
it (R438). -/
def consumeLatents (was s : State) (xs : List Latent) : State :=
  (xs.filterMap (latentEvent was)).foldl (fun s e => consume s e.1 e.2) { s with upsets := s.upsets.filter (fun y => !xs.contains y) }

/-- Every word of a gang is read, as for its image or its move to another core. -/
def readWhole (s : State) (uid : Nat) : State :=
  consumeLatents s s (s.upsets.filter (fun x => (x.word.home s).map (·.1) == some uid))

/-- The context of a request: of its group, or of the transfer, packet, checkpoint or agent that sent it. -/
def requestCtx (s : State) (r : Request) : Option Nat :=
  if r.kind ≤ 2 && r.lane == 64 then some r.reg
  else if r.kind ≤ 2 then
    (match groupOf s r.group with
     | some g => (launchOfGroup s g).map (·.ctx)
     | none => none)
  else if r.kind == 5 || r.kind == 6 then
    (match r.reg with
     | 0 => (tfind s.transfers r.word).map (·.ctx)
     | 1 => (tfind s.packets r.word).map (fun p => (queueOf s p.queue).ctx.toNat)
     | 2 => some (tget Checkpoint.reset s.checkpoints r.word).ctx
     | _ => some r.word)
  else none

/-- The index of the gang that a request was made for, 0 where there is none. -/
def requestGang (s : State) (r : Request) : Nat :=
  let uid := if r.kind ≤ 2 then (groupOf s r.group).map (·.gang)
    else if r.kind == 5 && r.reg == 0 then (tfind s.transfers r.word).map (·.gang)
    else none
  if r.kind ≤ 2 && r.lane == 64 then r.first else ((uid.bind (gangOf s)).map (·.index)).getD 0

/-- The event of a consumption of poison by a group's lane (cause 0x20, R434). -/
def poisonEvent (s : State) (key : Nat) (g : Group) (addr ln : Nat) : Event :=
  { unit := unitCore s (coreOfKey key), cause := 0x20, sev := 3, cons := true, addr := some addr, synd := ln,
    ctx := (launchOfGroup s g).map (·.ctx), gang := ((gangOf s g.gang).map (·.index)).getD 0 }

/-! ### Frames of device memory for the tracker and for regeneration (R307, R308) -/

/-- Whether a valid tier H entry names an MA frame. -/
def maNamed (m : Mem) (f : Nat) : Bool :=
  ((tfind m.ind f).isNone && IndV (bootEntry m.booted f)) ||
  m.ind.any (fun e => IndV e.2 && !IndTierX e.2 && IndFrame e.2 == f)

/-- Whether a valid tier X entry names a host frame. -/
def hostNamed (m : Mem) (f : Nat) : Bool := m.ind.any (fun e => IndV e.2 && IndTierX e.2 && IndFrame e.2 == f)

def hotOf (m : Mem) (part : Nat) : HotCfg := (m.hot[part]?).getD HotCfg.reset

/-- The frames of an HRANGE, which ends with device memory (R307). -/
def HotCfg.range (h : HotCfg) : List Nat := (List.range (min h.hcount (12582912 - h.hframe))).map (· + h.hframe)

/-- A free MA frame of the partition's HRANGE. -/
def freeMa (m : Mem) (part : Nat) : Option Nat :=
  let h := hotOf m part
  h.range.find? (fun f => !maNamed m f)

/-- A free frame of the partition's XPOOL. -/
def freeHost (m : Mem) (part : Nat) : Option Nat :=
  let h := hotOf m part
  ((List.range h.xcount).map (· + h.xframe)).find? (fun f => !hostNamed m f)

/-- The DPA frames of a partition that the tracker may choose as victims, in its order: REGEN frames below DEMOTE first, then
the others, coldest first, lower DPA first on a tie. -/
def victimFrames (m : Mem) (part below : Nat) : List Nat :=
  let all := (List.range (2 ^ 25)).filter (fun f =>
    let e := m.entry f
    IndV e && !IndTierX e && IndPart e == part && !IndPin e && !IndMoving e && !IndDropped e && tget 0 m.counts f < below)
  let cold := fun (xs : List Nat) => xs.mergeSort (fun a b => tget 0 m.counts a ≤ tget 0 m.counts b)
  let first := fun (f : Nat) => IndRegen (m.entry f) && decide (tget 0 m.counts f < (hotOf m part).demote)
  cold (all.filter first) ++ cold (all.filter (fun f => !first f))

/-- Where a unit of a frame that moves stands afterwards. -/
def Loc.moved (src dst : Nat) : Loc → Loc
  | .ma a => if src ≤ a && a < src + 65536 then .ma (dst + (a - src)) else .ma a
  | l => l

def Look.moved (src dst : Nat) (x : Look) : Look := { x with loc := x.loc.moved src dst }
def Since.moved (src dst : Nat) (x : Since) : Since := { x with looks := x.looks.map (Look.moved src dst) }

def Team.moved (src dst : Nat) (t : Team) : Team :=
  { t with slots := t.slots.map (fun x => (x.1, { x.2 with anchor := x.2.anchor.moved src dst }))
           posts := t.posts.map (fun p => { p with anchor := p.anchor.moved src dst }) }

/-- A place of 64 KiB is taken for another frame: engine writes that had still to reach the frame that stood there are lost with it
(R309), and so are its earlier values. -/
def forgetPlace (s : State) (base : Nat) : State :=
  let here := fun (l : Loc) => match l with
    | .ma a => base ≤ a && a < base + 65536
    | _ => false
  { s with
    places := s.places.filter (fun p => !here p.loc)
    mem := { s.mem with past := s.mem.past.filter (fun p => !here p.loc) } }

/-- Engine writes that have still to reach a frame that moves, the earlier values of its units, and what has been loaded from them, go
with it: every access returns and leaves what it would if the frame had not moved (R308). -/
def followMove (s : State) (src dst : Nat) : State :=
  let s := movePackets (forgetPlace s dst) src dst
  { s with
    places := s.places.map (fun p => { p with loc := p.loc.moved src dst })
    mem := { s.mem with past := s.mem.past.map (fun p => { p with loc := p.loc.moved src dst }) }
    groups := s.groups.map (fun g => (g.1, { g.2 with anchors := g.2.anchors.map (fun a =>
      (a.1, { a.2 with looks := a.2.looks.map (Look.moved src dst) })) }))
    gangs := s.gangs.map (fun q => (q.1, { q.2 with teams := q.2.teams.map (Team.moved src dst) }))
    transfers := s.transfers.map (fun t => (t.1, { t.2 with anchor := t.2.anchor.moved src dst }))
    checkpoints := s.checkpoints.map (fun c => (c.1, { c.2 with anchor := c.2.anchor.moved src dst })) }

/-- The lines of a tier H frame are read through their home slices (R308), and what their sound symbols read as is what they hold. -/
def readFrame (s : State) (src : Nat) : State :=
  if hostBase ≤ src then s
  else
    let s := fetchLines s 3 src 65536
    { s with mem := s.mem.absorb src 65536 }

/-- The bytes and marks of a frame go to another place. -/
def copyFrame (m : Mem) (src dst : Nat) : Mem :=
  let bs := m.cells.filter (fun c => src ≤ c.1 && c.1 < src + 65536)
  let clear := m.cells.filter (fun c => !(dst ≤ c.1 && c.1 < dst + 65536))
  let cells := bs.foldl (fun t c => tset 0 t (dst + (c.1 - src)) c.2) clear
  let marks := (m.poison.filter (fun x => src / 16 ≤ x && x < (src + 65536) / 16)).map (fun x => dst / 16 + (x - src / 16))
  let poison := m.poison.filter (fun x => !(dst / 16 ≤ x && x < (dst + 65536) / 16))
  { m with
    cells := cells
    poison := addPoison marks poison
    symErr := m.symErr.filter (fun e => !(dst / 128 ≤ e.1 / 10 && e.1 / 10 < (dst + 65536) / 128))
    dirty := (List.range 4096).foldl (fun d i => insertNat (dst / 16 + i) d) m.dirty
    xlines := if dst < hostBase then m.xlines else (List.range 512).foldl (fun d i => insertNat (dst / 128 + i) d) m.xlines }

/-- Lines of tier X leave the LLC with what it holds of them. -/
def forgetLines (m : Mem) (src : Nat) : Mem :=
  if src < hostBase then m
  else
    { m with
      dirty := m.dirty.filter (fun x => !(src / 16 ≤ x && x < (src + 65536) / 16))
      xlines := m.xlines.filter (fun x => !(src / 128 ≤ x && x < (src + 65536) / 128))
      poison := m.poison.filter (fun x => !(src / 16 ≤ x && x < (src + 65536) / 16))
      cells := m.cells.filter (fun c => !(src ≤ c.1 && c.1 < src + 65536)) }

/-- A frame's data and entry move to a new tier and place at once: no access falls between (R308, step 5). -/
def moveFrame (s : State) (f : Nat) (tierX : Bool) (place : Nat) : State :=
  let e := s.mem.entry f
  let n := indEntry (IndV e) tierX (IndRegen e) (IndDropped e) false (IndPin e) (IndPart e) place
  let src := entryAddr e 0
  let s := readFrame s src
  let m := forgetLines (copyFrame s.mem src (entryAddr n 0)) src
  followMove { s with mem := m.setEntry f n } src (entryAddr n 0)

/-- A tier H frame for a partition by steps 1 and 2 of R307, for a candidate of the given count; the victim that must give it
up is dropped, or moved to the XPOOL. -/
def takeMaFrame (s : State) (part count : Nat) : State × Option Nat :=
  match freeMa s.mem part with
  | some f => (s, some f)
  | none =>
    match victimFrames s.mem part count with
    | [] => (s, none)
    | v :: _ =>
      let e := s.mem.entry v
      if IndRegen e then
        ({ s with mem := s.mem.setEntry v (indEntry true false true true false (IndPin e) (IndPart e) (IndFrame e)) },
          some (IndFrame e))
      else
        match freeHost s.mem part with
        | none => (s, none)
        | some x => (moveFrame s v true x, some (IndFrame e))

/-- The frame reads zero everywhere. -/
def zeroMa (m : Mem) (f : Nat) : Mem :=
  let lo := 65536 * f
  { m with
    cells := m.cells.filter (fun c => !(lo ≤ c.1 && c.1 < lo + 65536))
    poison := m.poison.filter (fun x => !(lo / 16 ≤ x && x < (lo + 65536) / 16))
    symErr := m.symErr.filter (fun e => !(lo / 128 ≤ e.1 / 10 && e.1 / 10 < (lo + 65536) / 128))
    dirty := (List.range 4096).foldl (fun d i => insertNat (lo / 16 + i) d) m.dirty }

/-! ### Posting to a queue (R382, R395) -/

/-- The packet goes into the queue's next slot and TAIL is published; the result is QPOST's code 0 to 2. -/
def ringPost (s : State) (w : Who) (q : Nat) (bytes : List Byte) : State × Except (XBad × Nat) Nat :=
  let x := queueOf s q
  if x.state != 1 then (s, .ok 2)
  else if 2 ^ x.log2n ≤ (x.tail - x.head).toNat then (s, .ok 1)
  else
    let va := x.rbase.toNat + 256 * (x.tail.toNat % 2 ^ x.log2n)
    let pieces := (List.range ((bytes.length + 15) / 16)).map (fun i => (bytes.drop (16 * i)).take 16)
    match deviceStoreAll s w va pieces with
    | (s, .error e) => (s, .error e)
    | (s, .ok _) => (setQueue s q { x with tail := x.tail + 1 }, .ok 0)

/-! ### Regeneration (R339, R340) -/

/-- RQ of a context's record (R322). -/
def regenQueue (s : State) (ctx : Nat) : Nat := field (peekDpa s (ctxRecord s ctx + 0x14) 4) 0 2

/-- How deep a service stands that an access of this agent starts. -/
def regenDepth (s : State) (w : Who) : Nat :=
  (s.mem.services.filter (fun r => w.regen.contains r.frame)).foldl (fun d r => max d r.depth) 0 + 1

/-- The launch record as it is posted: the frame and the faulting VA open the argument area (R339, step 3). -/
def regenRecord (bytes : List Byte) (f va : Nat) : List Byte :=
  bytes.take 0xC0 ++ leBytes 8 (65536 * f) ++ leBytes 8 (va / 65536 * 65536) ++ bytes.drop 0xD0

/-- The launch of a service is posted, once its record can be read and its queue runs and has room (log entry 41). -/
def postRegen (s : State) (f : Nat) : State :=
  match regenOf s.mem f, tfind s.mem.regen f with
  | some r, some (rva, ctx) =>
    if r.posted.isSome || r.failed then s
    else
      let w := whoCtx s ctx true
      let asks := fun (s : State) (b : XBad) => match b with
        | .wait line => askLine s line
        | .ask peer a n => askBytes s 48 peer a n
        | _ => s
      (match loadMany s w rva 256 with
       | (s, .error (b, _)) => asks s b
       | (s, .ok bytes) =>
         let q := regenQueue s ctx
         let slot := (queueOf s q).tail
         match ringPost s w q (regenRecord bytes f r.va) with
         | (s, .ok 0) =>
           { s with mem := { s.mem with services := s.mem.services.map (fun x =>
               if x.frame = f then { x with posted := some (q, slot), since := s.clock } else x) } }
         | (s, .error (b, _)) => asks s b
         | (s, .ok _) => s)
  | _, _ => s

/-- Launches of services that could not be posted yet. -/
def postRegens (s : State) : State :=
  (s.mem.services.filter (fun r => r.posted.isNone && !r.failed)).foldl (fun s r => postRegen s r.frame) s

/-- The launches that services have posted in some slots of a queue are refused: their frames fail (R340). -/
def refuseRegens (s : State) (q : Nat) (slot : BitVec 32 → Bool) : State :=
  (s.mem.services.filter (fun r => !r.failed && r.launch.isNone && (match r.posted with
    | some (x, n) => x == q && slot n
    | none => false))).foldl (fun s r => failRegen s r.frame) s

/-- An access meets a dropped frame: it joins the service of its frame, starts it, or finds that the frame fails. `true`
when the access holds. -/
def startRegen (s : State) (w : Who) (f va : Nat) (rg : Bool) : State × Bool :=
  match regenOf s.mem f with
  | some r => if r.failed then (s, false) else if rg then (s, true) else (failRegen s f, false)
  | none =>
    match tfind s.mem.regen f with
    | none => (failRegen s f, false)
    | some _ =>
      if !rg || 4 < regenDepth s w then (failRegen s f, false)
      else
        match takeMaFrame s w.part (tget 0 s.mem.counts f) with
        | (s, none) => (failRegen s f, false)
        | (s, some x) =>
          let e := s.mem.entry f
          let s := forgetPlace s (65536 * x)
          let s := { s with mem := (zeroMa s.mem x).setEntry f (indEntry true false (IndRegen e) true false (IndPin e) (IndPart e) x) }
          let s := { s with mem := { s.mem with services := s.mem.services ++ [⟨f, va, none, none, s.clock, regenDepth s w, false⟩] } }
          (postRegen s f, true)

/-- The services that accesses of the device for gangs have asked for start. -/
def settleWanted (s : State) : State :=
  s.mem.wanted.foldl (fun s x => (startRegen s ⟨48, 0, x.part, true, x.passes, none⟩ x.frame x.va true).1)
    { s with mem := { s.mem with wanted := [] } }

/-! ### What an access that does not go through does to its fragment -/

/-- The fragment of exactly the lanes `m` stops at its word with a progress index: `pix` lanes below are performed. -/
def stopFrag (s : State) (key : Nat) (m : Dword) (pix : Nat) (first : Nat) (op : Option Nat) (h : Hold) : State :=
  modGroup s key (fun g => modFrag g m (fun f =>
    { f.holding h s.clock with pix := pix, resumed := true, first := if f.fresh then first else f.first, op := f.op <|> op }))

/-- A failed check at a word of a group's fragment takes its outcome, with the progress index and the counted operation that
the resumed word belongs to. `va` is the address, `ln` the lane. -/
def takeOutcome (s : State) (key : Nat) (m : Dword) (words : Nat) (o : AccessOutcome) (va ln pix first : Nat)
    (op : Option Nat) : State :=
  match groupOf s key with
  | none => s
  | some g =>
    match launchOfGroup s g with
    | none => s
    | some l =>
      let w := whoGroup s key g
      match o with
      | .trap t => takeTrap (stopFrag s key m pix first op .ready) key m words { t with pix := pix }
      | .freeze n => freezeCtx (stopFrag s key m pix first op .frozen) l.ctx n ((gangOf s g.gang).map (·.index))
      | .regen f rg =>
        (match startRegen s w f va rg with
         | (s, true) => stopFrag s key m pix first op (.regen f)
         | (s, false) => freezeCtx (stopFrag s key m pix first op .frozen) l.ctx 10 ((gangOf s g.gang).map (·.index)))
      | .consume a => consume s g.gang (poisonEvent s key g a ln)
      | .wait line => askLine (stopFrag s key m pix first op (.hostLine line)) line
      | .ask peer addr n => askBytes (stopFrag s key m pix first op .bytes) (coreOfKey key) peer addr n
      | .hold h => stopFrag s key m pix first op h

end Sys2Proof.Machine
end

