-- ==== Sys2Proof/Machine/Capture.lean ====
section
/-!
DEFINITION. The capture log of a gang (R469, R470): what a captured word writes there, and what it takes from there in replay.
-/
namespace Sys2Proof.Machine

open Sys2Proof

/-- What an entry was captured from, in the order of R469. -/
inductive Captured where
  | atomic | load | clock | rallocTry | spquery | mquery | qstat | rquery | kread
deriving DecidableEq, Repr, Inhabited

def Captured.code (k : Captured) : Nat := Config.captureKind k.ctorIdx % 255

/-- Whether a group's captured words run plainly (0), are captured (1) or replayed (2). -/
def captureMode (s : State) (g : Group) : Nat :=
  match launchOfGroup s g with
  | none => 0
  | some l => if recCapture l then (ctxOf s l.ctx).capMode else 0

/-- The 32 bytes of an entry. -/
def captureBytes (kind thread ln size value : Nat) : List (List Byte) :=
  [leBytes 1 kind ++ leBytes 1 thread ++ leBytes 1 ln ++ leBytes 1 size ++ leBytes 12 0, leBytes 16 value]

/-- Who writes and reads the log for a gang: the device's own microcode. -/
def whoCapture (key : Nat) (l : Launch) : Who := { whoLaunch (coreOfKey key) l with priv := true }

/-- The next place of the gang's log is taken. The last place of the log is kept for KIND 0xFF, which tells once that it is
full. -/
def reserveEntry (s : State) (key : Nat) (g : Group) : State × Option Nat :=
  match gangOf s g.gang, launchOfGroup s g with
  | some q, some l =>
    let c := ctxOf s l.ctx
    let base := c.capBase + q.index * c.capBytes
    if q.capFull then (s, none)
    else if c.capBytes / 32 ≤ q.capNext + 1 then
      let s := if c.capBytes = 0 then s
        else (deviceStoreAll s (whoCapture key l) (base + 32 * q.capNext) (captureBytes 0xFF 0 0 0 0)).1
      (setGang s g.gang { q with capFull := true }, none)
    else (setGang s g.gang { q with capNext := q.capNext + 1 }, some (base + 32 * q.capNext))
  | _, _ => (s, none)

/-- A value is written at a place of the log; an entry that the area does not take is not written. -/
def fillEntry (s : State) (key : Nat) (g : Group) (ln place : Nat) (kind : Captured) (size value : Nat) : State :=
  match launchOfGroup s g with
  | none => s
  | some l =>
    (deviceStoreAll s (whoCapture key l) place (captureBytes kind.code (16 * g.team + g.gid) ln size value)).1

/-- A value is written to the gang's log. -/
def captureEntry (s : State) (key : Nat) (g : Group) (ln : Nat) (kind : Captured) (size value : Nat) : State :=
  match reserveEntry s key g with
  | (s, none) => s
  | (s, some place) => fillEntry s key g ln place kind size value

/-- The next entry of a thread from a place on: its place with its bytes, or none where the log ends. -/
def nextEntry (s : State) (w : Who) (base thread ln : Nat) : Nat → Nat → State × Except (XBad × Nat) (Option (Nat × List Byte))
  | 0, _ => (s, .ok none)
  | n + 1, i =>
    match loadMany s w (base + 32 * i) 32 with
    | (s, .error b) => (s, .error b)
    | (s, .ok bs) =>
      if field bs 0 1 = 0xFF then (s, .ok none)
      else if field bs 1 1 = thread && field bs 2 1 = ln then (s, .ok (some (i, bs)))
      else nextEntry s w base thread ln n (i + 1)

/-- A captured value in replay: the thread's next entry, or the freeze of R470. The manual gives the freeze no SYND, so it is a
free value. -/
def replayEntry (s : State) (key : Nat) (g : Group) (ln : Nat) (kind : Captured) (size : Nat) :
    State × Except (AccessOutcome × Nat) Nat :=
  match gangOf s g.gang, launchOfGroup s g with
  | some q, some l =>
    let c := ctxOf s l.ctx
    let base := c.capBase + q.index * c.capBytes
    let pos := tget 0 g.capPos ln
    let stop := fun (s : State) => ({ s with tick := s.tick + 1 }, Except.error (.freeze (Config.freeChoice s.tick), base))
    (match nextEntry s (whoCapture key l) base (16 * g.team + g.gid) ln (c.capBytes / 32 - pos) pos with
     | (s, .error b) => (s, .error (outcomeOf b.1 b.2 .load ln, b.2))
     | (s, .ok none) => stop s
     | (s, .ok (some (i, bs))) =>
       if field bs 0 1 = kind.code && field bs 3 1 = size then
         (modGroup s key (fun g => { g with capPos := tset 0 g.capPos ln (i + 1) }), .ok (field bs 16 16))
       else stop s)
  | _, _ => (s, .ok 0)

/-- A value that a lane of a word takes from outside the gang: as the word finds it, noted in the log, or read from the log. -/
def captured (s : State) (key ln : Nat) (on : Bool) (kind : Captured) (size : Nat)
    (k : State → State × Except (AccessOutcome × Nat) Nat) : State × Except (AccessOutcome × Nat) Nat :=
  match groupOf s key with
  | none => k s
  | some g =>
    match (if on then captureMode s g else 0) with
    | 0 => k s
    | 2 => replayEntry s key g ln kind size
    | _ =>
      match k s with
      | (s, .error e) => (s, .error e)
      | (s, .ok v) => (captureEntry s key g ln kind size v, .ok v)

/-- Whether the group replays. -/
def replaying (s : State) (key : Nat) : Bool :=
  match groupOf s key with
  | none => false
  | some g => captureMode s g == 2

/-- A value that several lanes of a word take from outside the gang, each for its thread. -/
def capturedLanes (s : State) (key : Nat) (kind : Captured) (size value : Nat) : List Nat →
    State × Except (AccessOutcome × Nat) (List (Nat × Nat))
  | [] => (s, .ok [])
  | l :: ls =>
    match captured s key l true kind size (fun s => (s, .ok value)) with
    | (s, .error e) => (s, .error e)
    | (s, .ok v) =>
      match capturedLanes s key kind size value ls with
      | (s, .error e) => (s, .error e)
      | (s, .ok vs) => (s, .ok ((l, v) :: vs))

/-- A word that takes one value from outside the gang: it goes on with what its threads take, by lane, or meets what the log met, with
none of their entries taken. -/
def capturedWord (s : State) (u : Issue) (kind : Captured) (size value : Nat) (k : State → (Nat → Nat) → Out) : Out :=
  match captureMode s u.g with
  | 0 => k s (fun _ => value)
  | _ =>
    match capturedLanes s u.key kind size value (lanesOf u.f.lanes) with
    | (s, .ok vs) => k s (fun l => (tfind vs l).getD value)
    | (s, .error (o, va)) =>
      let s := modGroup s u.key (fun g => { g with capPos := u.g.capPos })
      .next (takeOutcome s u.key u.f.lanes u.words.length o va (lowest u.f.lanes) 0 (lowest u.f.lanes) none)

end Sys2Proof.Machine
end

