-- ==== Sys2Proof/Machine/Format.lean ====
section
/-!
DEFINITION. Number formats (R84 to R97): exact reals with the special values, what a pattern stands for, and how an exact
result is brought into a format.
-/
namespace Sys2Proof.Machine

open Sys2Proof

/-! ### Exact values -/

/-- An exact real with its zero's sign, an infinity, or NaN. -/
inductive Exact where
  | nan
  | inf (neg : Bool)
  | num (q : Rat) (negZero : Bool)
deriving DecidableEq, Repr, Inhabited

/-- 2^e. -/
def pow2 (e : Int) : Rat := if 0 ≤ e then ((2 ^ e.toNat : Nat) : Rat) else 1 / ((2 ^ (-e).toNat : Nat) : Rat)

/-- The magnitude of a real. -/
def ratAbs (q : Rat) : Rat := if q < 0 then -q else q

/-- ⌊log2 a⌋ of a positive real. -/
def floorLog2 (a : Rat) : Int :=
  let e : Int := (Nat.log2 a.num.natAbs : Int) - (Nat.log2 a.den : Int)
  if a < pow2 e then e - 1 else e

def Exact.isNeg : Exact → Bool
  | .nan => false
  | .inf n => n
  | .num q z => decide (q < 0) || (decide (q = 0) && z)

def Exact.isZero : Exact → Bool
  | .num q _ => q = 0
  | _ => false

def Exact.isInf : Exact → Bool
  | .inf _ => true
  | _ => false

def Exact.isNan : Exact → Bool
  | .nan => true
  | _ => false

/-- The finite value, 0 for the others. -/
def Exact.real : Exact → Rat
  | .num q _ => q
  | _ => 0

def Exact.ofRat (q : Rat) : Exact := .num q false

def Exact.neg : Exact → Exact
  | .nan => .nan
  | .inf n => .inf (!n)
  | .num q z => .num (-q) (!z)

def Exact.negIf (c : Bool) (x : Exact) : Exact := if c then x.neg else x

/-- The product: 0 × ∞ is NaN, and a zero takes the sign of its factors. -/
def Exact.mul (x y : Exact) : Exact :=
  let n := x.isNeg != y.isNeg
  if x.isNan || y.isNan then .nan
  else if x.isInf || y.isInf then (if x.isZero || y.isZero then .nan else .inf n)
  else .num (x.real * y.real) n

/-- The quotient: x ÷ 0 is an infinity for a nonzero x, 0 ÷ 0 and ∞ ÷ ∞ are NaN. -/
def Exact.div (x y : Exact) : Exact :=
  let n := x.isNeg != y.isNeg
  if x.isNan || y.isNan then .nan
  else if x.isInf then (if y.isInf then .nan else .inf n)
  else if y.isInf then .num 0 n
  else if y.isZero then (if x.isZero then .nan else .inf n)
  else .num (x.real / y.real) n

/-- The exact sum of terms. A sum of zeros of one sign keeps it, and any other zero sum is +0, or −0 under RDN (R92). -/
def sumExact (rdn : Bool) (xs : List Exact) : Exact :=
  if xs.any (·.isNan) || (xs.any (· == .inf false) && xs.any (· == .inf true)) then .nan
  else if xs.any (·.isInf) then .inf (xs.any (· == .inf true))
  else
    let q := xs.foldl (fun (t : Rat) x => t + x.real) 0
    if q ≠ 0 then .num q false
    else if xs.all (fun x => x.isZero && x.isNeg) then .num 0 true
    else if xs.all (fun x => x.isZero && !x.isNeg) then .num 0 false
    else .num 0 rdn

/-! ### Formats (R84, R88, R91) -/

/-- The formats that a page or a word may name. -/
inductive Fmt where
  | f32 | bf16 | f16 | e4m3 | e5m2 | e2m1 | h4 | i8 | i32
deriving DecidableEq, Repr, Inhabited

/-- Bits of an element. -/
def Fmt.bits : Fmt → Nat
  | .f32 | .i32 => 32
  | .bf16 | .f16 => 16
  | .e4m3 | .e5m2 | .i8 => 8
  | .e2m1 | .h4 => 4

/-- Mantissa bits of a floating format. -/
def Fmt.mant : Fmt → Nat
  | .f32 => 23
  | .bf16 => 7
  | .f16 => 10
  | .e4m3 => 3
  | .e5m2 => 2
  | .e2m1 => 1
  | _ => 0

def Fmt.bias : Fmt → Nat
  | .f32 | .bf16 => 127
  | .f16 | .e5m2 => 15
  | .e4m3 => 7
  | _ => 1

/-- The pattern of the largest finite magnitude. -/
def Fmt.maxCode : Fmt → Nat
  | .f32 => 0x7F7FFFFF
  | .bf16 => 0x7F7F
  | .f16 => 0x7BFF
  | .e4m3 => 0x7E
  | .e5m2 => 0x7B
  | _ => 7

/-- Whether the format has infinities: one above the largest finite pattern. -/
def Fmt.hasInf : Fmt → Bool
  | .f32 | .bf16 | .f16 | .e5m2 => true
  | _ => false

/-- The canonical NaN (R85), or its substitute (R95, R111). -/
def Fmt.nanCode : Fmt → Nat
  | .f32 => 0x7FC00000
  | .bf16 => 0x7FC0
  | .f16 => 0x7E00
  | .e4m3 => 0x7F
  | .e5m2 => 0x7E
  | _ => 0

def Fmt.signBit (f : Fmt) : Nat := 2 ^ (f.bits - 1)

def Fmt.withSign (f : Fmt) (neg : Bool) (code : Nat) : Nat := if neg then f.signBit + code else code

/-- Decode(fmt, b) (R84 to R91). -/
def decodeFmt (f : Fmt) (b : Nat) : Exact :=
  let b := b % 2 ^ f.bits
  match f with
  | .h4 => .num ((signed 4 b : Rat) + 1 / 2) false
  | .i8 => .num (signed 8 b : Rat) false
  | .i32 => .num (signed 32 b : Rat) false
  | _ =>
    let neg := bit b (f.bits - 1)
    let code := b % f.signBit
    let m := code % 2 ^ f.mant
    let e := code / 2 ^ f.mant
    if f.maxCode < code then (if f.hasInf && code == f.maxCode + 1 then .inf neg else .nan)
    else
      let x : Rat := if e = 0 then (m : Rat) * pow2 (1 - (f.bias : Int) - f.mant)
                     else ((2 ^ f.mant + m : Nat) : Rat) * pow2 ((e : Int) - f.bias - f.mant)
      .num (if neg then -x else x) neg

/-! ### Rounding (R92 to R96) -/

/-- The rounding modes by their code. -/
inductive Round where
  | rne | rtz | rdn | rup | rna | rsr
deriving DecidableEq, Repr, Inhabited

def roundOf : Nat → Round
  | 1 => .rtz
  | 2 => .rdn
  | 3 => .rup
  | 4 => .rna
  | 5 => .rsr
  | _ => .rne

/-- Whether the upper of two neighbours lo < x < hi is chosen: `part` is (x − lo) ÷ (hi − lo), `draw` the draw of RSR. -/
def takesUpper (rm : Round) (draw : Nat) (neg lowEven : Bool) (part : Rat) : Bool :=
  match rm with
  | .rne => decide (1 / 2 < part) || (decide (part = 1 / 2) && !lowEven)
  | .rtz => neg
  | .rdn => false
  | .rup => true
  | .rna => decide (1 / 2 < part) || (decide (part = 1 / 2) && !neg)
  | .rsr => decide ((draw : Int) < (16777216 * part).floor)

/-- The integer chosen from ⌊x⌋ and ⌈x⌉ (R136). -/
def roundInt (rm : Round) (draw : Nat) (x : Rat) : Int :=
  let lo := x.floor
  if (lo : Rat) = x then lo
  else if takesUpper rm draw (decide (x < 0)) (decide (lo % 2 = 0)) (x - lo) then lo + 1 else lo

/-- A finite value in H4 (R88, R96). -/
def roundH4 (rm : Round) (draw : Nat) (x : Rat) (neg : Bool) : Nat :=
  let n := (x - 1 / 2).floor
  let lo : Rat := n + 1 / 2
  let k : Int :=
    if lo = x then n
    else
      let up := match rm with
        | .rne | .rna => if x - lo = 1 / 2 then !neg else decide (1 / 2 < x - lo)
        | .rtz => if n = -1 then !neg else neg
        | r => takesUpper r draw neg false (x - lo)
      if up then n + 1 else n
  wrap 4 (max (-8) (min 7 k))

/-- RoundTo and RoundSat (R92 to R96, R111): the pattern of the format.

DESIGN CHOICE (log entry 88): a nonzero x that rounds to zero gives a zero of its own sign. -/
def roundFmt (f : Fmt) (sat : Bool) (rm : Round) (draw : Nat) (x : Exact) : Nat :=
  let neg := x.isNeg
  let past := fun (toMax : Bool) =>
    if sat || toMax || f == .e2m1 then f.withSign neg f.maxCode
    else if f.hasInf then f.withSign neg (f.maxCode + 1) else f.nanCode
  match f, x with
  | _, .nan => f.nanCode
  | .h4, .inf n => if n then 8 else 7
  | .h4, .num q z => roundH4 rm draw q (decide (q < 0) || (decide (q = 0) && z))
  | .i8, .inf n => if n then 0x80 else 0x7F
  | .i8, .num q _ => wrap 8 (max (-128) (min 127 (roundInt rm draw q)))
  | .i32, .inf n => if n then 0x80000000 else 0x7FFFFFFF
  | .i32, .num q _ => wrap 32 (max (-2147483648) (min 2147483647 (roundInt rm draw q)))
  | _, .inf _ => past false
  | _, .num q _ =>
    if q = 0 then f.withSign neg 0
    else
      let a := ratAbs q
      let emin : Int := 1 - (f.bias : Int)
      let e := max (floorLog2 a) emin
      let t := a / pow2 (e - f.mant)
      let k := t.floor.toNat
      let exact : Bool := decide ((k : Rat) = t)
      -- The upper neighbour in value is the lower one in magnitude for a negative x.
      let out := if exact then false
                 else if neg then !(takesUpper rm draw true (k % 2 == 1) (1 - (t - k)))
                 else takesUpper rm draw false (k % 2 == 0) (t - k)
      let code := ((e - emin).toNat) * 2 ^ f.mant + (if out then k + 1 else k)
      let beyond := f.maxCode < ((e - emin).toNat) * 2 ^ f.mant + (if exact then k else k + 1)
      let inward := rm == .rtz || (rm == .rdn && !neg) || (rm == .rup && neg)
      if f.hasInf && beyond && inward then past true
      else if f.maxCode < code then past false
      else f.withSign neg code

/-- √ of a positive rational as a rational that every rounding of FP32 treats as it treats the root itself. -/
def sqrtApprox (q : Rat) : Rat :=
  let n := (q * ((4 ^ 170 : Nat) : Rat)).floor.toNat
  let r := (List.range 300).foldl (fun r i => let t := r + 2 ^ (299 - i); if t * t ≤ n then t else r) 0
  let exact : Bool := decide (((r * r : Nat) : Rat) = q * ((4 ^ 170 : Nat) : Rat))
  ((2 * r + (if exact then 0 else 1) : Nat) : Rat) / ((2 ^ 171 : Nat) : Rat)

/-! ### Scales (R90) -/

/-- ScaleOf (R111): type 0 FP32, type 1 E8M0. -/
def scaleOf (e8m0 : Bool) (b : Nat) : Exact :=
  if e8m0 then (if b % 256 = 255 then .nan else .num (pow2 ((b % 256 : Nat) - 127)) false) else decodeFmt .f32 b

/-- A value over a scale that has no quotient to round (R106, R149): a zero or NaN scale, or an infinite quotient of a finite value. -/
def noQuotient (x scale : Exact) : Bool := scale.isZero || scale.isNan || ((x.div scale).isInf && !x.isInf)

end Sys2Proof.Machine
end

