-- ==== Sys2Proof/Machine/Flags.lean ====
section
/-!
DEFINITION. The conditions that compares write to masks, and classes (R126, R133, R134, R135).
-/
namespace Sys2Proof.Machine

open Sys2Proof

/-- The condition of ICMP (R126). -/
def intCondition (c : Nat) (a b : Int) : Bool :=
  match c with
  | 0 => a = b
  | 1 => a ≠ b
  | 2 => a < b
  | 3 => a ≤ b
  | 4 => b < a
  | _ => b ≤ a

/-- A < B of two values that are no NaN, −0 equal to +0. -/
def exactLt (x y : Exact) : Bool :=
  match x, y with
  | .inf n, .inf m => n && !m
  | .inf n, _ => n
  | _, .inf m => !m
  | _, _ => x.real < y.real

def exactEq (x y : Exact) : Bool :=
  match x, y with
  | .inf n, .inf m => n == m
  | .num p _, .num q _ => p = q
  | _, _ => false

/-- The condition of FCMP (R134). -/
def floatCondition (c : Nat) (x y : Exact) : Bool :=
  let ord := !x.isNan && !y.isNan
  match c with
  | 0 => ord && exactEq x y
  | 1 => !ord || !exactEq x y
  | 2 => ord && exactLt x y
  | 3 => ord && (exactLt x y || exactEq x y)
  | 4 => ord && exactLt y x
  | 5 => ord && (exactLt y x || exactEq x y)
  | 6 => !ord
  | _ => ord

/-- The order of FMIN and FMAX, in which −0 is less than +0 (R133). -/
def minLt (x y : Exact) : Bool := exactLt x y || (exactEq x y && x.isNeg && !y.isNeg)

/-- The bit of FCLASS that an FP32 pattern sets (R135). -/
def classBit (b : Nat) : Nat :=
  let neg := bit b 31
  let e := bits b 23 8
  let m := bits b 0 23
  if e = 255 then (if m ≠ 0 then 8 else if neg then 0 else 7)
  else if e = 0 then (if m = 0 then (if neg then 3 else 4) else if neg then 2 else 5)
  else if neg then 1 else 6

end Sys2Proof.Machine
end

