-- ==== Sys2Proof/Machine/Operands.lean ====
section
/-!
DEFINITION. Operand forms of lane words: the prefix fields (R32), which lanes are Active (R111, R418), reading before
writing, the merge and zero rules of inactive lanes (R112), scalar destinations (R31), masks (R126), and the stochastic
generator (R99, R100).
-/
namespace Sys2Proof.Machine

open Sys2Proof

/-! ### Prefix fields (R32) -/

def pfxGet (p : Option Pfx) : Pfx := p.getD Pfx.plain
def negA (p : Option Pfx) : Bool := (pfxGet p).nega
def negB (p : Option Pfx) : Bool := bit (pfxGet p).aux.toNat 7
def satOf (p : Option Pfx) : Bool := (pfxGet p).sat
def zOf (p : Option Pfx) : Bool := (pfxGet p).z
def auxOf (p : Option Pfx) : Nat := (pfxGet p).aux.toNat % 128
def aux8Of (p : Option Pfx) : Nat := (pfxGet p).aux.toNat
def hasC (p : Option Pfx) : Bool := (pfxGet p).cv
def cOf (p : Option Pfx) : Opnd := (pfxGet p).c

/-- The fourth operand's register, when the prefix names one. -/
def cReg (p : Option Pfx) : List (Opnd × Nat) := if hasC p then [(cOf p, 1)] else []

/-- The rounding mode of a word: rm, or %round under rm = 6 (R92, R98). -/
def modeOf (g : Group) (p : Option Pfx) : Round :=
  let r := (pfxGet p).rm.toNat
  roundOf (if r = 6 then g.round.toNat % 8 else r)

/-! ### The stochastic generator (R99, R100) -/

/-- g[ℓ] as a seed leaves it. -/
def seedRng (seed : Word) (l : Nat) : Word :=
  let x := seed ^^^ (BitVec.ofNat 32 l * 0x9E3779B9)
  if x = 0 then 0x6D2B79F5 else x

def rngOf (g : Group) (l : Nat) : Word := tget (seedRng 0 l) g.rng l

def setRng (g : Group) (l : Nat) (x : Word) : Group := { g with rng := tset (seedRng 0 l) g.rng l x }

/-- One advance of the state. -/
def nextRng (x : Word) : Word :=
  let x := x ^^^ (x <<< 13)
  let x := x ^^^ (x >>> 17)
  x ^^^ (x <<< 5)

/-- The draw of one rounding step, made under RSR alone: the draw and the state after it. -/
def drawRng (rm : Round) (x : Word) : Nat × Word :=
  if rm = .rsr then (bits (nextRng x).toNat 8 24, nextRng x) else (0, x)

/-! ### Active lanes -/

/-- The lanes that a word executes: those Active under its prefix, at or above %pix when it is resumed (R418). -/
def execLanes (u : Issue) (p : Option Pfx) : Dword :=
  let act := activeOf u.g u.f.lanes p
  if u.f.resumed then act &&& ~~~(below u.f.pix) else act

/-! ### Destinations -/

/-- A register of a lane, or a pair, takes a value. -/
def putReg (g : Group) (d : Opnd) (n l : Nat) (x : Dword) : Group :=
  let g := setVreg g d.toNat l (x.setWidth 32)
  if n = 2 then setVreg g (d.toNat + 1) l ((x >>> 32).setWidth 32) else g

/-- The results of a word are written: Active lanes take theirs, other lanes of the fragment keep their value or are zeroed;
a scalar takes the lowest Active lane's (R31, R112). -/
def writeVec (g : Group) (d : Opnd) (n : Nat) (lanes act : Dword) (z : Bool) (val : Nat → Dword) : Group :=
  if isScalar d then
    (match lanesOf act with
     | [] => g
     | l :: _ => setSreg g (scalarNo d) (val l))
  else (lanesOf lanes).foldl (fun h l => if lane act l then putReg h d n l (val l) else if z then putReg h d n l 0 else h) g

/-- The bits of a mask are written in the same way. -/
def writeMask (g : Group) (m : Nat) (lanes act : Dword) (z : Bool) (val : Nat → Bool) : Group :=
  let hit := maskOf (fun l => lane act l && val l)
  let keep := if z then maskReg g m &&& ~~~lanes else maskReg g m &&& ~~~act
  setMask g m (keep ||| hit)

/-- The Active lanes of the unit, under its own prefix (R4). -/
def unitActive (u : Issue) : Dword :=
  activeOf u.g u.f.lanes (match u.words with
    | w :: _ :: _ => if isPfxWord w then some (pfxOfWord w) else none
    | _ => none)

/-- The trap of a register that a position may not name (R31), carried with the lowest Active lane, or with the lowest lane of
the fragment when none is Active. -/
def registerTrap (u : Issue) (r : Nat) : Trap :=
  let act := unitActive u
  { cls := 3, info0 := BitVec.ofNat 64 r, info1 := BitVec.ofNat 64 (lowest (if act = 0 then u.f.lanes else act)) }

/-- The illegal-instruction trap of a word (class 0), with its cause code. -/
def illegalTrap (u : Issue) (cause : Nat) : Trap :=
  { cls := 0, info0 := (baseWord u.words).setWidth 64, info1 := BitVec.ofNat 64 cause }

/-- The group after a word has run, with the fragment past it. -/
def done (s : State) (u : Issue) (g : Group) : Out := .next (finish (setGroup s u.key g) u)

/-- A word whose registers are checked first (R31). -/
def withRegs (s : State) (regs : List (Opnd × Nat)) (k : Issue → Out) : Out :=
  withIssue s (fun u => match badReg u.g regs with
    | some r => .next (raise s u (registerTrap u r))
    | none => k u)

/-- A lane word: each Active lane computes one result from the group as it was read at issue and its generator state. -/
def laneOp (s : State) (p : Option Pfx) (d : Opnd) (n : Nat) (srcs : List (Opnd × Nat))
    (val : Group → Nat → Word → Dword × Word) : Out :=
  withRegs s ((d, n) :: srcs) (fun u =>
    let act := execLanes u p
    let g := writeVec u.g d n u.f.lanes act (zOf p) (fun l => (val u.g l (rngOf u.g l)).1)
    done s u ((lanesOf act).foldl (fun h l => setRng h l (val u.g l (rngOf u.g l)).2) g))

/-- A lane word whose result needs no draw. -/
def pureOp (s : State) (p : Option Pfx) (d : Opnd) (n : Nat) (srcs : List (Opnd × Nat)) (val : Group → Nat → Nat) : Out :=
  laneOp s p d n srcs (fun g l x => (BitVec.ofNat 64 (val g l), x))

/-- A word that writes one bit of a mask for each Active lane; m0 may not be written (R31). -/
def maskOp (s : State) (p : Option Pfx) (m : BitVec 3) (srcs : List (Opnd × Nat)) (val : Group → Nat → Bool) : Out :=
  withIssue s (fun u =>
    if m = 0 then .next (raise s u (registerTrap u 0))
    else match badReg u.g srcs with
      | some r => .next (raise s u (registerTrap u r))
      | none => done s u (writeMask u.g m.toNat u.f.lanes (execLanes u p) (zOf p) (val u.g)))

/-! ### Values of operands -/

def nat32 (g : Group) (x : Opnd) (l : Nat) : Nat := (val32 g x l).toNat
def int32 (g : Group) (x : Opnd) (l : Nat) : Int := (val32 g x l).toInt
def nat64 (g : Group) (x : Opnd) (l : Nat) : Nat := (val64 g x l).toNat
def int64 (g : Group) (x : Opnd) (l : Nat) : Int := (val64 g x l).toInt
def float32 (g : Group) (x : Opnd) (l : Nat) : Exact := decodeFmt .f32 (nat32 g x l)

end Sys2Proof.Machine
end

