-- ==== Sys2Proof/Machine/Series.lean ====
section
/-!
DEFINITION. The special functions whose results R137 bounds and does not fix: the exact value, computed in 160-bit fixed point far
below the bound, and the choice of any FP32 value within the bound.
-/
namespace Sys2Proof.Machine

open Sys2Proof

/-! ### Fixed point with 160 bits below the point -/

def fixOne : Int := 2 ^ 160
def fixMul (a b : Int) : Int := a * b / fixOne
def toFix (q : Rat) : Int := (q * (fixOne : Rat)).floor
def ofFix (x : Int) : Rat := (x : Rat) / (fixOne : Rat)

/-- ln 2 in fixed point, and 2π with 320 bits below the point. -/
def fixLn2 : Int := 1013035739299659071135698605846798551586536899366
def twoPi : Rat := (13420802360424337830311681948440006481608388178854297901454212848703426437343610760199000777828079 : Rat) / ((2 ^ 320 : Nat) : Rat)

/-- 1 + x/k × (1 + x/(k + 1) × …), so many terms: e^x from k = 1. -/
def expTerms (x : Int) : Nat → Int → Int
  | 0, _ => fixOne
  | n + 1, k => fixOne + fixMul x (expTerms x n (k + 1)) / k

/-- 1/k + z × (1/(k + 2) + …), so many terms: artanh from k = 1, over the square of its operand. -/
def artanhTerms (z : Int) : Nat → Int → Int
  | 0, _ => 0
  | n + 1, k => fixOne / k + fixMul z (artanhTerms z n (k + 2))

/-- 1 − z/(k(k + 1)) × (1 − …), so many terms: cos from k = 1, sin over its operand from k = 2, over the operand's square. -/
def waveTerms (z : Int) : Nat → Int → Int
  | 0, _ => fixOne
  | n + 1, k => fixOne - fixMul z (waveTerms z n (k + 2)) / (k * (k + 1))

/-- 2^q. -/
def exp2Value (q : Rat) : Rat := ofFix (expTerms (fixMul (toFix (q - q.floor)) fixLn2) 48 1) * pow2 q.floor

/-- log2 q, for q above 0. -/
def log2Value (q : Rat) : Rat :=
  let e := floorLog2 q
  let m := q / pow2 e
  let z := toFix ((m - 1) / (m + 1))
  (e : Rat) + ofFix (2 * fixMul z (artanhTerms (fixMul z z) 64 1) * fixOne / fixLn2)

/-- sin q and cos q, with the argument reduced by 2π. -/
def sinValue (q : Rat) : Rat :=
  let r := toFix (q - (q / twoPi).floor * twoPi)
  ofFix (fixMul r (waveTerms (fixMul r r) 40 2))

def cosValue (q : Rat) : Rat :=
  let r := toFix (q - (q / twoPi).floor * twoPi)
  ofFix (waveTerms (fixMul r r) 40 1)

/-- tanh q, from e^(2|q|). -/
def tanhValue (q : Rat) : Rat :=
  let t := exp2Value (2 * ratAbs q / ofFix fixLn2)
  let y := (t - 1) / (t + 1)
  if q < 0 then -y else y

/-! ### Results within a bound (R137) -/

/-- An ulp of an exact result. -/
def ulpOf (y : Rat) : Rat := pow2 (max (floorLog2 (ratAbs y)) (-126) - 23)

/-- Whether an FP32 pattern lies within a bound of every value that is no further than `err` from another, and within a magnitude. -/
def withinOf (x : Word) (y err bound most : Rat) : Bool :=
  match decodeFmt .f32 x.toNat with
  | .num q _ => decide (ratAbs (q - y) + err ≤ bound) && decide (ratAbs q ≤ most)
  | _ => false

/-- How far a computed value of magnitude about 1, or less, lies from the exact one at most. -/
def fixErr : Rat := pow2 (-150)

/-- The free value where the bound admits it, else the value rounded to nearest. `y` is the exact value as computed, with an error of
`err` at most. -/
def boundedResult (x : Word) (y err bound most : Rat) : Nat :=
  if withinOf x y err bound most then x.toNat else roundFmt .f32 false .rne 0 (.ofRat y)

end Sys2Proof.Machine
end

