-- ==== Sys2Proof/Machine/Float.lean ====
section
/-!
DEFINITION. Floating words: FP32 arithmetic, compares and classes, the special functions, the packed 16-bit forms and the dot
products (R117, R131 to R142).
-/
namespace Sys2Proof.Machine

open Sys2Proof

/-- A result brought into FP32 under the word's mode and saturation, with one draw under RSR (R99, R117). -/
def roundOp (s : State) (p : Option Pfx) (d : Opnd) (srcs : List (Opnd × Nat)) (val : Group → Nat → Exact) : Out :=
  laneOp s p d 1 srcs (fun g l x =>
    let r := drawRng (modeOf g p) x
    (BitVec.ofNat 64 (roundFmt .f32 (satOf p) (modeOf g p) r.1 (val g l)), r.2))

def rdnOf (g : Group) (p : Option Pfx) : Bool := modeOf g p == .rdn

/-- A and B after negation. -/
def fltA (g : Group) (p : Option Pfx) (a : Opnd) (l : Nat) : Exact := (float32 g a l).negIf (negA p)
def fltB (g : Group) (p : Option Pfx) (b : Opnd) (l : Nat) : Exact := (float32 g b l).negIf (negB p)

/-! ### Arithmetic (R132, R133) -/

def execFadd (p : Option Pfx) (d a b : Opnd) (s : State) : Out :=
  roundOp s p d [(a, 1), (b, 1)] (fun g l => sumExact (rdnOf g p) [fltA g p a l, fltB g p b l])

def execFsub (p : Option Pfx) (d a b : Opnd) (s : State) : Out :=
  roundOp s p d [(a, 1), (b, 1)] (fun g l => sumExact (rdnOf g p) [fltA g p a l, (fltB g p b l).neg])

def execFmul (p : Option Pfx) (d a b : Opnd) (s : State) : Out :=
  roundOp s p d [(a, 1), (b, 1)] (fun g l => (fltA g p a l).mul (fltB g p b l))

def execFma (p : Option Pfx) (d a b : Opnd) (s : State) : Out :=
  roundOp s p d ([(a, 1), (b, 1)] ++ cReg p)
    (fun g l => sumExact (rdnOf g p) [(fltA g p a l).mul (fltB g p b l), float32 g (cOf p) l])

/-- The operand that FMIN (or FMAX, HMAX2) returns, as a pattern (R133). -/
def pickFloat (f : Fmt) (max : Bool) (a b : Nat) : Nat :=
  let x := decodeFmt f a
  let y := decodeFmt f b
  if x.isNan then (if y.isNan then f.nanCode else b)
  else if y.isNan then a
  else if max then (if minLt x y then b else a)
  else (if minLt y x then b else a)

/-- A pattern with its sign reversed by nega or negb. -/
def flipSign (f : Fmt) (neg : Bool) (x : Nat) : Nat :=
  let x := x % 2 ^ f.bits
  if neg then (if bit x (f.bits - 1) then x - f.signBit else x + f.signBit) else x

def execFmin (p : Option Pfx) (d a b : Opnd) (s : State) : Out :=
  pureOp s p d 1 [(a, 1), (b, 1)] (fun g l =>
    pickFloat .f32 false (flipSign .f32 (negA p) (nat32 g a l)) (flipSign .f32 (negB p) (nat32 g b l)))

def execFmax (p : Option Pfx) (d a b : Opnd) (s : State) : Out :=
  pureOp s p d 1 [(a, 1), (b, 1)] (fun g l =>
    pickFloat .f32 true (flipSign .f32 (negA p) (nat32 g a l)) (flipSign .f32 (negB p) (nat32 g b l)))

/-- The canonical NaN for a NaN, else the pattern changed. -/
def signOp (f : Nat → Nat) (x : Nat) : Nat := if (decodeFmt .f32 x).isNan then 0x7FC00000 else f x

def execFabs (p : Option Pfx) (d a : Opnd) (s : State) : Out :=
  pureOp s p d 1 [(a, 1)] (fun g l => signOp (fun x => x % 2 ^ 31) (nat32 g a l))

def execFneg (p : Option Pfx) (d a : Opnd) (s : State) : Out :=
  pureOp s p d 1 [(a, 1)] (fun g l => signOp (flipSign .f32 true) (nat32 g a l))

/-! ### Compares, classes, integer parts (R134 to R136) -/

def execFcmp (p : Option Pfx) (c : BitVec 4) (m : BitVec 3) (a b : Opnd) (s : State) : Out :=
  maskOp s p m [(a, 1), (b, 1)] (fun g l => floatCondition c.toNat (fltA g p a l) (fltB g p b l))

def execFclass (p : Option Pfx) (d a : Opnd) (s : State) : Out :=
  pureOp s p d 1 [(a, 1)] (fun g l => 2 ^ classBit (nat32 g a l))

def execFrnd (p : Option Pfx) (d a : Opnd) (s : State) : Out :=
  laneOp s p d 1 [(a, 1)] (fun g l x =>
    let v := nat32 g a l
    match decodeFmt .f32 v with
    | .nan => (0x7FC00000, x)
    | .inf _ => (BitVec.ofNat 64 v, x)
    | .num q _ =>
      -- An integer is returned unchanged, with no rounding step (log entry 14).
      let r := if (q.floor : Rat) = q then (0, x) else drawRng (modeOf g p) x
      let n := roundInt (modeOf g p) r.1 q
      (BitVec.ofNat 64 (if n = 0 then v / 2 ^ 31 * 2 ^ 31 else roundFmt .f32 false .rne 0 (.num n false)), r.2))

def execFfrac (p : Option Pfx) (d a : Opnd) (s : State) : Out :=
  laneOp s p d 1 [(a, 1)] (fun g l x =>
    match float32 g a l with
    | .num q z =>
      -- −0 gives +0 outright; any other x ends in a difference, whose exact zero is −0 under RDN (R92, R117).
      if q = 0 && z then (0, x)
      else
        let r := drawRng (modeOf g p) x
        (BitVec.ofNat 64 (roundFmt .f32 false (modeOf g p) r.1 (.num (q - q.floor) (rdnOf g p))), r.2)
    | _ => (0x7FC00000, x))

/-! ### Special functions (R137, R138) -/

/-- A correctly rounded special function. An operand whose result the table of R137 names takes no rounding step, and so no
draw (R99). -/
def rootOp (s : State) (p : Option Pfx) (d a : Opnd) (named : Exact → Bool) (val : Exact → Exact) : Out :=
  laneOp s p d 1 [(a, 1)] (fun g l x =>
    let y := fltA g p a l
    let r := if named y then (0, x) else drawRng (modeOf g p) x
    (BitVec.ofNat 64 (roundFmt .f32 (satOf p) (modeOf g p) r.1 (val y)), r.2))

def execRcp (p : Option Pfx) (d a : Opnd) (s : State) : Out :=
  rootOp s p d a (fun y => y.isNan || y.isInf || y.isZero) (fun y => (Exact.ofRat 1).div y)

/-- √x as an exact value, with its special values. -/
def sqrtExact (x : Exact) : Exact :=
  match x with
  | .nan => .nan
  | .inf n => if n then .nan else .inf false
  | .num q z => if q < 0 then .nan else if q = 0 then .num 0 z else .num (sqrtApprox q) false

def execSqrt (p : Option Pfx) (d a : Opnd) (s : State) : Out :=
  rootOp s p d a (fun y => y.isInf || (y.isZero && y.isNeg) || (sqrtExact y).isNan) sqrtExact

/-- A special function of the operand after nega. -/
def specialOp (s : State) (p : Option Pfx) (d a : Opnd) (f : Word → Nat) : Out :=
  pureOp s p d 1 [(a, 1)] (fun g l => f (BitVec.ofNat 32 (flipSign .f32 (negA p) (nat32 g a l))))

/-- RSQ: the exact result, or one of its two neighbours, chosen by a fixed function of the operand. -/
def rsqOf (w : Word) : Nat :=
  match decodeFmt .f32 w.toNat with
  | .nan => 0x7FC00000
  | .inf n => if n then 0x7FC00000 else 0
  | .num q z =>
    if q = 0 then (if z then 0xFF800000 else 0x7F800000)
    else if q < 0 then 0x7FC00000
    else
      let y := Exact.ofRat (sqrtApprox (1 / q))
      let lo := roundFmt .f32 false .rdn 0 y
      if (Config.rsq w).getLsbD 0 then roundFmt .f32 false .rup 0 y else lo

def execRsq (p : Option Pfx) (d a : Opnd) (s : State) : Out := specialOp s p d a rsqOf

def tanhOf (w : Word) : Nat :=
  match decodeFmt .f32 w.toNat with
  | .nan => 0x7FC00000
  | .inf n => Fmt.withSign .f32 n 0x3F800000
  | .num q _ =>
    if ratAbs q < 1 / 4096 then w.toNat
    else if 19 / 2 ≤ ratAbs q then Fmt.withSign .f32 (decide (q < 0)) 0x3F800000
    else boundedResult (Config.tanh w) (tanhValue q) fixErr (2 * ulpOf (tanhValue q)) 1

def execTanh (p : Option Pfx) (d a : Opnd) (s : State) : Out := specialOp s p d a tanhOf

def ex2Of (w : Word) : Nat :=
  match decodeFmt .f32 w.toNat with
  | .nan => 0x7FC00000
  | .inf n => if n then 0 else 0x7F800000
  | .num q _ =>
    if 128 ≤ q then 0x7F800000
    else if q ≤ -150 then 0
    else if (q.floor : Rat) = q ∧ -149 ≤ q then roundFmt .f32 false .rne 0 (.ofRat (pow2 q.floor))
    else boundedResult (Config.ex2 w) (exp2Value q) (pow2 (q.floor - 154)) (2 * ulpOf (exp2Value q)) (pow2 128)

def execEx2 (p : Option Pfx) (d a : Opnd) (s : State) : Out := specialOp s p d a ex2Of

def lg2Of (w : Word) : Nat :=
  match decodeFmt .f32 w.toNat with
  | .nan => 0x7FC00000
  | .inf n => if n then 0x7FC00000 else 0x7F800000
  | .num q _ =>
    if q = 0 then 0xFF800000
    else if q < 0 then 0x7FC00000
    else if pow2 (floorLog2 q) = q then roundFmt .f32 false .rne 0 (.ofRat (floorLog2 q))
    else boundedResult (Config.lg2 w) (log2Value q) fixErr
      (if 1 / 2 ≤ q && q ≤ 2 then pow2 (-22) else 2 * ulpOf (log2Value q)) (pow2 128)

def execLg2 (p : Option Pfx) (d a : Opnd) (s : State) : Out := specialOp s p d a lg2Of

def sinOf (w : Word) : Nat :=
  match decodeFmt .f32 w.toNat with
  | .num q _ => if ratAbs q < 1 / 4096 then w.toNat else boundedResult (Config.sin w) (sinValue q) fixErr (pow2 (-22)) 1
  | _ => 0x7FC00000

def execSin (p : Option Pfx) (d a : Opnd) (s : State) : Out := specialOp s p d a sinOf

def cosOf (w : Word) : Nat :=
  match decodeFmt .f32 w.toNat with
  | .num q _ => if q = 0 then 0x3F800000 else boundedResult (Config.cos w) (cosValue q) fixErr (pow2 (-22)) 1
  | _ => 0x7FC00000

def execCos (p : Option Pfx) (d a : Opnd) (s : State) : Out := specialOp s p d a cosOf

/-! ### Packed halves (R139) -/

/-- The format that aux[0] selects. -/
def halfFmt (p : Option Pfx) : Fmt := if bit (auxOf p) 0 then .bf16 else .f16

/-- Half h of a register. -/
def half (x h : Nat) : Nat := bits x (16 * h) 16

/-- Two halves, each brought into the format on its own, the low half drawing first. -/
def packedOp (s : State) (p : Option Pfx) (d : Opnd) (srcs : List (Opnd × Nat)) (val : Group → Nat → Nat → Exact) : Out :=
  laneOp s p d 1 srcs (fun g l x =>
    let f := halfFmt p
    let m := modeOf g p
    let r0 := drawRng m x
    let r1 := drawRng m r0.2
    (BitVec.ofNat 64 (roundFmt f (satOf p) m r0.1 (val g l 0) + 65536 * roundFmt f (satOf p) m r1.1 (val g l 1)), r1.2))

def halfA (g : Group) (p : Option Pfx) (a : Opnd) (l h : Nat) : Exact :=
  (decodeFmt (halfFmt p) (half (nat32 g a l) h)).negIf (negA p)
def halfB (g : Group) (p : Option Pfx) (b : Opnd) (l h : Nat) : Exact :=
  (decodeFmt (halfFmt p) (half (nat32 g b l) h)).negIf (negB p)

def execHadd2 (p : Option Pfx) (d a b : Opnd) (s : State) : Out :=
  packedOp s p d [(a, 1), (b, 1)] (fun g l h => sumExact (rdnOf g p) [halfA g p a l h, halfB g p b l h])

def execHmul2 (p : Option Pfx) (d a b : Opnd) (s : State) : Out :=
  packedOp s p d [(a, 1), (b, 1)] (fun g l h => (halfA g p a l h).mul (halfB g p b l h))

def execHfma2 (p : Option Pfx) (d a b : Opnd) (s : State) : Out :=
  packedOp s p d ([(a, 1), (b, 1)] ++ cReg p) (fun g l h =>
    sumExact (rdnOf g p) [(halfA g p a l h).mul (halfB g p b l h), decodeFmt (halfFmt p) (half (nat32 g (cOf p) l) h)])

def execHmax2 (p : Option Pfx) (d a b : Opnd) (s : State) : Out :=
  pureOp s p d 1 [(a, 1), (b, 1)] (fun g l =>
    let f := halfFmt p
    let pick := fun (h : Nat) =>
      pickFloat f true (flipSign f (negA p) (half (nat32 g a l) h)) (flipSign f (negB p) (half (nat32 g b l) h))
    pick 0 + 65536 * pick 1)

/-! ### Dot products (R140 to R142) -/

def execDot4I8 (p : Option Pfx) (d a b : Opnd) (s : State) : Out :=
  pureOp s p d 1 ([(a, 1), (b, 1)] ++ cReg p) (fun g l =>
    let byte := fun (u : Bool) (x j : Nat) => if u then (bits x (8 * j) 8 : Int) else signed 8 (bits x (8 * j) 8)
    let y := (List.range 4).foldl (fun (t : Int) j =>
      t + byte (bit (auxOf p) 0) (nat32 g a l) j * byte (bit (auxOf p) 1) (nat32 g b l) j)
      (if hasC p then int32 g (cOf p) l else 0)
    let t := if satOf p then max (-2147483648) (min 2147483647 y) else y
    wrap 32 t)

/-- C of a dot product: +0 without a fourth operand. -/
def dotC (g : Group) (p : Option Pfx) (l : Nat) : Exact := if hasC p then float32 g (cOf p) l else .num 0 false

def execDot8H4 (p : Option Pfx) (d a b : Opnd) (s : State) : Out :=
  roundOp s p d ([(a, 1), (b, 1)] ++ cReg p) (fun g l =>
    sumExact (rdnOf g p) (dotC g p l :: (List.range 8).map (fun j =>
      ((decodeFmt .h4 (bits (nat32 g a l) (4 * j) 4)).negIf (negA p)).mul
        ((decodeFmt .h4 (bits (nat32 g b l) (4 * j) 4)).negIf (negB p)))))

/-- DOT2 in a 16-bit format. -/
def dot2Op (s : State) (f : Fmt) (p : Option Pfx) (d a b : Opnd) : Out :=
  roundOp s p d ([(a, 1), (b, 1)] ++ cReg p) (fun g l =>
    sumExact (rdnOf g p) (dotC g p l :: (List.range 2).map (fun h =>
      ((decodeFmt f (half (nat32 g a l) h)).negIf (negA p)).mul ((decodeFmt f (half (nat32 g b l) h)).negIf (negB p)))))

def execDot2Bf16 (p : Option Pfx) (d a b : Opnd) (s : State) : Out := dot2Op s .bf16 p d a b
def execDot2F16 (p : Option Pfx) (d a b : Opnd) (s : State) : Out := dot2Op s .f16 p d a b

end Sys2Proof.Machine
end

