-- ==== Sys2Proof/Machine/Integer.lean ====
section
/-!
DEFINITION. Integer words: arithmetic, logic, shifts, bit counts, bit fields, compares, addresses, the 64-bit forms and the
literal forms (R116 to R130).
-/
namespace Sys2Proof.Machine

open Sys2Proof

/-! ### Narrowing (R116) -/

/-- Sat(t, y) for a type of n bits. -/
def satInt (n : Nat) (unsig : Bool) (y : Int) : Int :=
  if unsig then max 0 (min (2 ^ n - 1) y) else max (-(2 ^ (n - 1))) (min (2 ^ (n - 1) - 1) y)

/-- The n bits of an exact integer, narrowed by Sat or by Wrap. -/
def narrow (n : Nat) (sat unsig : Bool) (y : Int) : Nat := wrap n (if sat then satInt n unsig y else y)

/-- aux[0]: the saturating type is unsigned. -/
def unsigned (p : Option Pfx) : Bool := bit (auxOf p) 0

/-- Val(t, x) of a 32-bit operand, t by aux[0]. -/
def typed32 (g : Group) (p : Option Pfx) (x : Opnd) (l : Nat) : Int :=
  if unsigned p then (nat32 g x l : Int) else int32 g x l

def negIf (c : Bool) (y : Int) : Int := if c then -y else y

def opA (g : Group) (p : Option Pfx) (a : Opnd) (l : Nat) : Int := negIf (negA p) (typed32 g p a l)
def opB (g : Group) (p : Option Pfx) (b : Opnd) (l : Nat) : Int := negIf (negB p) (typed32 g p b l)

/-- A 32-bit result narrowed under the prefix. -/
def result32 (p : Option Pfx) (y : Int) : Nat := narrow 32 (satOf p) (unsigned p) y

/-- A word over two 32-bit sources. -/
def binary32 (s : State) (p : Option Pfx) (d a b : Opnd) (val : Group → Nat → Nat) : Out :=
  pureOp s p d 1 [(a, 1), (b, 1)] val

/-- A word over one 32-bit source. -/
def unary32 (s : State) (p : Option Pfx) (d a : Opnd) (val : Nat → Nat) : Out :=
  pureOp s p d 1 [(a, 1)] (fun g l => val (nat32 g a l))

/-! ### Arithmetic (R119, R120) -/

def execIadd (p : Option Pfx) (d a b : Opnd) (s : State) : Out :=
  binary32 s p d a b (fun g l => result32 p (opA g p a l + opB g p b l))

def execIsub (p : Option Pfx) (d a b : Opnd) (s : State) : Out :=
  binary32 s p d a b (fun g l => result32 p (opA g p a l - opB g p b l))

def execImin (p : Option Pfx) (d a b : Opnd) (s : State) : Out :=
  binary32 s p d a b (fun g l => wrap 32 (min (int32 g a l) (int32 g b l)))

def execImax (p : Option Pfx) (d a b : Opnd) (s : State) : Out :=
  binary32 s p d a b (fun g l => wrap 32 (max (int32 g a l) (int32 g b l)))

def execIminN (p : Option Pfx) (d a b : Opnd) (s : State) : Out :=
  binary32 s p d a b (fun g l => min (nat32 g a l) (nat32 g b l))

def execImaxN (p : Option Pfx) (d a b : Opnd) (s : State) : Out :=
  binary32 s p d a b (fun g l => max (nat32 g a l) (nat32 g b l))

def execIabs (p : Option Pfx) (d a : Opnd) (s : State) : Out :=
  unary32 s p d a (fun x => narrow 32 (satOf p) false ((signed 32 x).natAbs : Int))

def execIneg (p : Option Pfx) (d a : Opnd) (s : State) : Out :=
  unary32 s p d a (fun x => narrow 32 (satOf p) false (-signed 32 x))

def execImul (p : Option Pfx) (d a b : Opnd) (s : State) : Out :=
  binary32 s p d a b (fun g l => result32 p (opA g p a l * opB g p b l))

def execImulh (p : Option Pfx) (d a b : Opnd) (s : State) : Out :=
  binary32 s p d a b (fun g l => wrap 32 (int32 g a l * int32 g b l / 4294967296))

def execImulhN (p : Option Pfx) (d a b : Opnd) (s : State) : Out :=
  binary32 s p d a b (fun g l => nat32 g a l * nat32 g b l / 4294967296)

def execImad (p : Option Pfx) (d a b : Opnd) (s : State) : Out :=
  pureOp s p d 1 ([(a, 1), (b, 1)] ++ cReg p)
    (fun g l => result32 p (opA g p a l * opB g p b l + typed32 g p (cOf p) l))

/-! ### Logic and shifts (R121, R122, R125) -/

/-- A bitwise word. -/
def logic32 (s : State) (p : Option Pfx) (d a b : Opnd) (f : Word → Word → Word) : Out :=
  binary32 s p d a b (fun g l => (f (val32 g a l) (val32 g b l)).toNat)

def execAnd (p : Option Pfx) (d a b : Opnd) (s : State) : Out := logic32 s p d a b (· &&& ·)
def execOr (p : Option Pfx) (d a b : Opnd) (s : State) : Out := logic32 s p d a b (· ||| ·)
def execXor (p : Option Pfx) (d a b : Opnd) (s : State) : Out := logic32 s p d a b (· ^^^ ·)
def execAndn (p : Option Pfx) (d a b : Opnd) (s : State) : Out := logic32 s p d a b (fun x y => x &&& ~~~y)

/-- x · 2^n in w bits, 0 for n ≥ w. -/
def shiftLeft (w x n : Nat) : Nat := if w ≤ n then 0 else x * 2 ^ n % 2 ^ w

/-- ⌊x ÷ 2^n⌋, 0 for n ≥ w. -/
def shiftRight (w x n : Nat) : Nat := if w ≤ n then 0 else x / 2 ^ n

/-- ⌊x ÷ 2^n⌋ of a signed value, filled with its sign for n ≥ w. -/
def shiftArith (w x n : Nat) : Nat := wrap w (signed w x / 2 ^ (min n w))

def execShl (p : Option Pfx) (d a b : Opnd) (s : State) : Out :=
  binary32 s p d a b (fun g l => shiftLeft 32 (nat32 g a l) (nat32 g b l))

def execShr (p : Option Pfx) (d a b : Opnd) (s : State) : Out :=
  binary32 s p d a b (fun g l => shiftRight 32 (nat32 g a l) (nat32 g b l))

def execSha (p : Option Pfx) (d a b : Opnd) (s : State) : Out :=
  binary32 s p d a b (fun g l => shiftArith 32 (nat32 g a l) (nat32 g b l))

def execRol (p : Option Pfx) (d a b : Opnd) (s : State) : Out :=
  binary32 s p d a b (fun g l => ((val32 g a l).rotateLeft (nat32 g b l % 32)).toNat)

/-- LOGIC3: bit i of d is bit 4a + 2b + c of the table. -/
def logic3 (table a b c : Nat) : Nat :=
  (List.range 32).foldl (fun r i => if bit table (4 * bits a i 1 + 2 * bits b i 1 + bits c i 1) then r + 2 ^ i else r) 0

def execLogic3 (p : Option Pfx) (d a b : Opnd) (s : State) : Out :=
  pureOp s p d 1 ([(a, 1), (b, 1)] ++ cReg p)
    (fun g l => logic3 (aux8Of p) (nat32 g a l) (nat32 g b l) (nat32 g (cOf p) l))

/-! ### Bit counts and fields (R123, R124) -/

/-- How many of the 32 bits are 1. -/
def popCount (x : Nat) : Nat := ((List.range 32).filter (bit x)).length

/-- Bits above the highest 1. -/
def leadingZeros (x : Nat) : Nat := (((List.range 32).reverse).findIdx? (bit x)).getD 32

/-- Bits below the lowest 1. -/
def trailingZeros (x : Nat) : Nat := ((List.range 32).findIdx? (bit x)).getD 32

/-- Bit i goes to bit 31 − i. -/
def reverseBits (x : Nat) : Nat := (List.range 32).foldl (fun r i => if bit x i then r + 2 ^ (31 - i) else r) 0

def execPopc (p : Option Pfx) (d a : Opnd) (s : State) : Out := unary32 s p d a popCount
def execClz (p : Option Pfx) (d a : Opnd) (s : State) : Out := unary32 s p d a leadingZeros
def execCtz (p : Option Pfx) (d a : Opnd) (s : State) : Out := unary32 s p d a trailingZeros
def execBrev (p : Option Pfx) (d a : Opnd) (s : State) : Out := unary32 s p d a reverseBits

/-- pos and the length, cut at 32. -/
def fieldPos (b : Nat) : Nat := bits b 0 8
def fieldLen (b : Nat) : Nat := min (bits b 8 8) 32

/-- The zero-filled field. -/
def fieldOf (a b : Nat) : Nat := (if 32 ≤ fieldPos b then 0 else a / 2 ^ fieldPos b) % 2 ^ fieldLen b

def execBfxN (p : Option Pfx) (d a b : Opnd) (s : State) : Out :=
  binary32 s p d a b (fun g l => fieldOf (nat32 g a l) (nat32 g b l))

def execBfx (p : Option Pfx) (d a b : Opnd) (s : State) : Out :=
  binary32 s p d a b (fun g l =>
    let n := fieldLen (nat32 g b l)
    if n = 0 then 0 else wrap 32 (signed n (fieldOf (nat32 g a l) (nat32 g b l))))

/-- BFI. -/
def insertField (a b c : Nat) : Nat :=
  let pos := fieldPos b
  let m : Word := if 32 ≤ pos then 0 else BitVec.ofNat 32 ((2 ^ fieldLen b - 1) * 2 ^ pos)
  ((BitVec.ofNat 32 c &&& ~~~m) ||| (BitVec.ofNat 32 (a * 2 ^ pos) &&& m)).toNat

def execBfi (p : Option Pfx) (d a b : Opnd) (s : State) : Out :=
  pureOp s p d 1 ([(a, 1), (b, 1)] ++ cReg p) (fun g l => insertField (nat32 g a l) (nat32 g b l) (nat32 g (cOf p) l))

/-! ### Compares (R126) -/

def execIcmpI32 (p : Option Pfx) (c m : BitVec 3) (a b : Opnd) (s : State) : Out :=
  maskOp s p m [(a, 1), (b, 1)] (fun g l => intCondition c.toNat (int32 g a l) (int32 g b l))

def execIcmpN32 (p : Option Pfx) (c m : BitVec 3) (a b : Opnd) (s : State) : Out :=
  maskOp s p m [(a, 1), (b, 1)] (fun g l => intCondition c.toNat (nat32 g a l) (nat32 g b l))

def execIcmpI64 (p : Option Pfx) (c m : BitVec 3) (a b : Opnd) (s : State) : Out :=
  maskOp s p m [(a, 2), (b, 2)] (fun g l => intCondition c.toNat (int64 g a l) (int64 g b l))

def execIcmpN64 (p : Option Pfx) (c m : BitVec 3) (a b : Opnd) (s : State) : Out :=
  maskOp s p m [(a, 2), (b, 2)] (fun g l => intCondition c.toNat (nat64 g a l) (nat64 g b l))

/-! ### Immediates and literals (R127, R130) -/

/-- The sign-extended immediate. -/
def imm32 (i : Byte) : Word := i.signExtend 32

def execIaddi (p : Option Pfx) (d a : Opnd) (i : Byte) (s : State) : Out :=
  pureOp s p d 1 [(a, 1)] (fun g l =>
    result32 p (typed32 g p a l + (if unsigned p then ((imm32 i).toNat : Int) else (imm32 i).toInt)))

/-- A bitwise word with an immediate or a literal. -/
def logicImm (s : State) (p : Option Pfx) (d a : Opnd) (x : Word) (f : Word → Word → Word) : Out :=
  pureOp s p d 1 [(a, 1)] (fun g l => (f (val32 g a l) x).toNat)

def execAndi (p : Option Pfx) (d a : Opnd) (i : Byte) (s : State) : Out := logicImm s p d a (imm32 i) (· &&& ·)
def execOri (p : Option Pfx) (d a : Opnd) (i : Byte) (s : State) : Out := logicImm s p d a (imm32 i) (· ||| ·)
def execXori (p : Option Pfx) (d a : Opnd) (i : Byte) (s : State) : Out := logicImm s p d a (imm32 i) (· ^^^ ·)

def execMovl (p : Option Pfx) (d : Opnd) (lit : Word) (s : State) : Out := pureOp s p d 1 [] (fun _ _ => lit.toNat)

def execAddl (p : Option Pfx) (d a : Opnd) (lit : Word) (s : State) : Out := logicImm s p d a lit (· + ·)

def execAndl (p : Option Pfx) (d a : Opnd) (lit : Word) (s : State) : Out := logicImm s p d a lit (· &&& ·)

/-! ### Addresses and 64-bit forms (R128, R129) -/

/-- LEA: a 64-bit base and a scaled 32-bit index. -/
def leaOp (s : State) (p : Option Pfx) (d a b : Opnd) (k : Nat) : Out :=
  pureOp s p d 2 [(a, 2), (b, 1)] (fun g l =>
    wrap 64 (nat64 g a l + (if unsigned p then (nat32 g b l : Int) else int32 g b l) * k))

def execLea1 (p : Option Pfx) (d a b : Opnd) (s : State) : Out := leaOp s p d a b 1
def execLea4 (p : Option Pfx) (d a b : Opnd) (s : State) : Out := leaOp s p d a b 4
def execLea16 (p : Option Pfx) (d a b : Opnd) (s : State) : Out := leaOp s p d a b 16

def execAadd (p : Option Pfx) (d a b : Opnd) (s : State) : Out :=
  pureOp s p d 2 [(a, 2), (b, 1)] (fun g l =>
    nat64 g a l / 2 ^ 56 * 2 ^ 56 + wrap 56 (nat64 g a l % 2 ^ 56 + int32 g b l))

/-- A 64-bit sum narrowed under the prefix. -/
def sum64 (s : State) (p : Option Pfx) (d a b : Opnd) (f : Int → Int → Int) : Out :=
  pureOp s p d 2 [(a, 2), (b, 2)] (fun g l =>
    let v := fun (x : Opnd) => if unsigned p then (nat64 g x l : Int) else int64 g x l
    narrow 64 (satOf p) (unsigned p) (f (v a) (v b)))

def execIadd64 (p : Option Pfx) (d a b : Opnd) (s : State) : Out := sum64 s p d a b (· + ·)
def execIsub64 (p : Option Pfx) (d a b : Opnd) (s : State) : Out := sum64 s p d a b (· - ·)

def execImul64 (p : Option Pfx) (d a b : Opnd) (s : State) : Out :=
  pureOp s p d 2 [(a, 2), (b, 2)] (fun g l => nat64 g a l * nat64 g b l % 2 ^ 64)

/-- SHL64 by a signed count. -/
def shift64 (arith : Bool) (a : Nat) (n : Int) : Nat :=
  if 0 ≤ n then shiftLeft 64 a n.toNat
  else if arith then shiftArith 64 a (-n).toNat
  else shiftRight 64 a (-n).toNat

def execShl64 (p : Option Pfx) (d a b : Opnd) (s : State) : Out :=
  pureOp s p d 2 [(a, 2), (b, 1)] (fun g l => shift64 (unsigned p) (nat64 g a l) (int32 g b l))

end Sys2Proof.Machine
end

