-- ==== Sys2Proof/Machine/Issue.lean ====
section
/-!
DEFINITION. One step of the package around the row that it runs: the clock (R162), the register writes that pending loads owe
(R27), the clocks that holds count (R415), the issue of a fragment with the traps of its words in the order of R36, and what
a word changes for spin detection (R61). `Step.lean` only calls these.
-/
namespace Sys2Proof.Machine

open Sys2Proof

/-! ### Pending loads (R27) -/

/-- Some of the writes that an operation owes land, each by a draw. -/
def landSome (s : State) (id : Nat) : List Owed → State × List Owed
  | [] => (s, [])
  | o :: rest =>
    let now := Config.freeBool s.tick
    let r := landSome (if now then landLate { s with tick := s.tick + 1 } o else { s with tick := s.tick + 1 }) id rest
    (r.1, if now then r.2 else o :: r.2)

/-- Before every step, any of the writes that loads still owe may land; none does while a peer may still refuse the load (R328). -/
def settleLoads (s : State) : State :=
  s.ops.foldl (fun s x =>
    if s.requests.any (fun r => r.op == some x.1 && r.peer.isSome) then s
    else
    let r := landSome s x.1 x.2.owed
    { r.1 with ops := tmod r.1.ops x.1 (fun o => { o with owed := r.2 }) }) s

/-! ### Holds (R415) -/

/-- The barrier record that a hold tests. -/
def barrierOf (s : State) (g : Group) (gangScope : Bool) : Barrier :=
  match gangOf s g.gang with
  | none => Barrier.reset
  | some q => if gangScope then q.barrier else ((q.teams[g.team]?).map (·.barrier)).getD Barrier.reset

/-- Granules of a quarter's share that no group holds (R154). -/
def freeGranules (s : State) (core quarter : Nat) : Nat :=
  let used := (s.groups.filter (fun x => coreOfKey x.1 == core && x.2.quarter == quarter)).foldl
    (fun n x => n + x.2.held * (x.2.width / 16)) 0
  32 * (coreOf s core).b1 - used

/-- What a barrier's hold tests: its record (R237, R415). -/
def barrierProbe (s : State) (g : Group) (gs : Bool) : List Nat :=
  let b := barrierOf s g gs
  [b.gen.toNat, b.acount, b.amask.toNat]

/-- The accesses of a lane mask that a hold waits for, by scope: peer (true) or host. -/
def openTags (s : State) (key : Nat) (m : Dword) (peer : Bool) : List Nat :=
  (s.requests.filter (fun r => r.group == key && lane m r.lane && r.peer.isSome == peer && r.kind ≤ 2)).map (·.tag)

/-- The transfers of a lane mask's batches, as far as they have come. -/
def openTransfers (s : State) (g : Group) (m : Dword) : List Nat :=
  let mine := (lanesOf m).flatMap (fun l => (batchOf g l).opened ++ (batchOf g l).sealed)
  (s.transfers.filter (fun t => mine.contains t.1)).flatMap (fun t => [t.1, t.2.progress, t.2.complete.getD 0])

/-- The counters on which loads into a group's registers from one on are counted (R157). -/
def owingCounters (s : State) (key lo : Nat) : List Nat :=
  (List.range 12).filter (fun k => s.ops.any (fun o => o.2.group == key && o.2.counter == some k && o.2.load &&
    (o.2.owed.any (fun w => w.lane != 64 && decide (lo ≤ w.reg)) ||
      s.requests.any (fun r => r.op == some o.1 && r.reg < 192 && decide (lo < r.reg + r.regs)))))

/-- What a hold of R415 tests, as numbers; empty for the holds that never raise class 24. -/
def holdProbe (s : State) (key : Nat) (g : Group) (f : Frag) : List Nat :=
  match f.hold with
  | .clauseWait m => ((List.range 12).filter (bit m)).map (fun k => (counterOf g k).val)
  | .waitlt k _ => [(counterOf g k).val]
  | .kadd k => [(counterOf g k).val]
  | .kbindClose k => [(counterOf g k).val]
  | .rfree n => (owingCounters s key (8 * (g.held - n))).map (fun k => (counterOf g k).val)
  | .bar gs _ => barrierProbe s g gs
  | .barw gs _ => barrierProbe s g gs
  | .ralloc .. =>
    let rs := (coreOf s (coreOfKey key)).requests.filter (fun r => r.1 == g.quarter)
    freeGranules s (coreOfKey key) g.quarter :: rs.flatMap (fun r => [r.2.1, r.2.2.1, r.2.2.2])
  | .fence peer host batches =>
    (if peer then openTags s key f.lanes true else []) ++ (if host then openTags s key f.lanes false else []) ++
      (if batches then openTransfers s g f.lanes else [])
  | .release act scopes => scopes.flatMap (fun x => openTags s key (laneBit x.1) x.2) ++ openTransfers s g act
  | _ => []

/-- SLEEP n holds its fragment for 64 × n + 64 clocks at most (R69). -/
def Frag.awake (f : Frag) (clock : Nat) : Frag :=
  match f.hold with
  | .sleep _ most => if most ≤ clock then { f.holding .ready clock with age := clock } else f
  | _ => f

/-- Every held fragment notes what its hold tests, and the clock at which that last changed. -/
def settleHolds (s : State) : State :=
  { s with groups := s.groups.map (fun x => (x.1, { x.2 with frags := x.2.frags.map (fun f =>
      let f := f.awake s.clock
      let now := holdProbe s x.1 x.2 f
      if f.probe = now then f else { f with probe := now, since := s.clock }) })) }

/-- Engine writes whose transfer completed 65,536 clocks ago are at their global place (R350). -/
def settlePlaces (s : State) : State :=
  if s.places.isEmpty then s
  else applyPlaces s (fun p => match tfind s.transfers p.transfer with
    | none => true
    | some t => match t.complete with
      | none => false
      | some c => c + 65536 ≤ s.clock)

/-- What comes about between two steps. -/
def settle (s : State) : State := settleHolds (settlePlaces (settleLoads s))

/-- The clock goes on by one count at least (R162). -/
def tickClock (s : State) : State :=
  { s with clock := s.clock + 1 + Config.clocksTaken s.tick, tick := s.tick + 1 }

/-! ### The unit of a fragment -/

/-- What a fragment does when it comes to issue: run a row of the table for its unit, or only change the state (a fetch that
fails, a trap of R36). -/
inductive Begin where
  | run (i : Instr)
  | stop
deriving DecidableEq, Repr

/-- The row that the words of a unit run, or the trap of R36 that they raise before any register is named. -/
def chooseRow (priv : Bool) (g : Group) (c : Clause) (pc : Nat) (ws : List Word) : Except Trap Instr :=
  let first := (ws.head?).getD 0
  let base := baseWord ws
  let badClause : Trap := { cls := 1, info0 := c.word.setWidth 64, info1 := BitVec.ofNat 64 ((pc - c.head) / 4) }
  let badPfx : Trap := { cls := 2, info0 := first.setWidth 64 }
  if majorOf base == 0x3D && !priv then .ok .illegalEncoding
  else
    match decode ws with
    | .error (.illegalInstruction ..) => .ok .illegalEncoding
    | .error .truncated | .error (.missingLiteral _) => .error badClause
    | .error (.illegalPrefix _) => if clauseAllows c pc ws then .error badPfx else .error badClause
    | .ok (i, _) =>
      if !clauseAllows c pc ws then .error badClause
      else if !pfxOk i then .error badPfx
      else
        let x := systemScalars g base
        .ok (select x.1 x.2 i)

/-- Whether a word at a pc lies in a loop in which its fragment is spin-lowered, or was and has changed nothing since: words of
that loop never restart the rendezvous budget, although spin-lowering lapses (R61, R65). -/
def inSpinLoop (g : Group) (m : Dword) (pc : Nat) : Bool :=
  g.spins.any (fun x => lane m x.lane && x.known && decide (x.target ≤ pc && pc ≤ x.branch))

/-- A hold of a word that has not issued: the unit that it needs takes no work, or its counter is full (R58, R216). -/
def unissued : Hold → Bool
  | .unit | .kadd _ => true
  | _ => false

/-- Whether a fragment's word has still to be fetched, after a fetch that had to wait. -/
def Frag.fetching (f : Frag) : Bool :=
  f.resumed && f.first == unperformed && (match f.hold with
    | .hostLine _ | .regen _ | .bytes | .frozen => true
    | _ => false)

/-- Whether a fragment's word issued in the step that has left the fragment as `after`. A word that waits has issued once, at its
first step; a word tested again drives no slice (R58, R63). -/
def issuedNow (f : Frag) (after : Option Frag) : Bool :=
  (f.hold == .ready || unissued f.hold || f.fetching) &&
    !(after.map (fun y => y.pc == f.pc && y.clause == f.clause && (unissued y.hold || y.fetching))).getD false

/-! ### Where fragments join (R57) -/

/-- A fragment stands in a clause of which it has issued no word: the unit of its first word took no work, its counter was full, or the
word has still to be fetched. -/
def Frag.unbegun (f : Frag) : Bool :=
  match f.clause with
  | none => false
  | some c => f.pc == c.head + 4 && ((!f.resumed && (f.hold == .ready || unissued f.hold)) || f.fetching)

/-- A fragment stands at a header, of whose clause it has issued no word: it is to decode it, is held by its WAIT or stopped there,
or has decoded it. One that SLEEP or YIELD still holds has not reached the header (log entry 80). -/
def joinsAt (pc clock : Nat) (f : Frag) : Bool :=
  let asleep := match f.hold with
    | .sleep .. => true
    | _ => false
  !asleep && decide (f.rest ≤ clock) && (match f.clause with
    | none => f.pc == pc
    | some c => c.head == pc && f.unbegun)

/-- A fragment that may issue, and that has issued no word of its clause, stands at its header again once another has reached that, to
decode it with the other. -/
def backToHeader (s : State) (key ln : Nat) : State :=
  match groupOf s key with
  | none => s
  | some g =>
    match fragAt g ln, gangOf s g.gang with
    | some f, some q =>
      match f.clause with
      | none => s
      | some c =>
        if f.unbegun && mayIssue s key g f &&
            g.frags.any (fun y => y.lanes != f.lanes && y.clause.isNone && joinsAt c.head s.clock y && trapAllows key g q y) then
          setGroup s key (modFrag g f.lanes (fun f =>
            { f with pc := c.head, clause := none, hold := .ready, since := s.clock, probe := [], resumed := false, first := 0 }))
        else s
    | _, _ => s

/-- A word of a fragment that has issued is counted: for its lanes (R63), as progress of an awaited member (R65), and for its group
in the barrier generation of its team in which it issued (R60). `old` is the state in which the row ran, `s` the one it left. -/
def countWord (old : State) (i : Instr) (s : State) : State :=
  match old.cur with
  | none => s
  | some c =>
    match groupOf old c.group with
    | none => s
    | some g =>
      match fragAt g (lowest c.lanes), launchOfGroup old g with
      | some f, some l =>
        if c.clause.isNone || !issuedNow f ((groupOf s c.group).bind (fun g => fragAt g (lowest c.lanes))) then s
        else
          let awaits := (g.rdv.filter (fun r => r.members &&& ~~~r.arrived &&& f.lanes != 0)).map (·.addr)
          let s := noteClone (countLanes s c.group g f (pfxOf i) l.part) c.group g f (pfxOf i)
          let s := if inSpinLoop g f.lanes f.pc then s else
            modGroup s c.group (fun h => { h with rdv := h.rdv.map (fun r =>
              if awaits.contains r.addr then { r with since := s.clock } else r) })
          if (barrierOf old g false).gen = (barrierOf s g false).gen
          then modGroup s c.group (fun h => { h with issued := h.issued + 1 })
          else s
      | _, _ => s

/-- The words of the unit at a fragment: a word that has broken off between its lanes has been fetched. -/
def unitWords (s : State) (w : Who) (stamp : Nat) (c : Clause) (f : Frag) : State × Except (XBad × Nat) (List Word) :=
  match f.hold with
  | .between _ k => (s, .ok k.words)
  | _ => fetchUnit s w stamp (c.head + 4 + 4 * hdrCount c.word) 3 f.pc

/-- A fragment that may issue fetches its header, or its unit, and the row that it runs is chosen. -/
def beginIssue (s : State) (key ln : Nat) : State × Begin :=
  match groupOf s key with
  | none => (s, .stop)
  | some g =>
    match fragAt g ln, launchOfGroup s g with
    | some f, some l =>
      if !mayIssue s key g f then (s, .stop)
      else
        let w := whoGroup s key g
        match f.clause with
        | none =>
          (match fetchWord s w l.stamp f.pc with
           | (s, .error b) =>
             let o := match outcomeOf b f.pc .fetch 0 with
               | .trap t => .trap { t with atHeader := true }
               | o => o
             (takeOutcome s key f.lanes 1 o f.pc (lowest f.lanes) 0 unperformed none, .stop)
           | (s, .ok h) => ({ s with cur := some ⟨key, f.lanes, f.pc, [h], none⟩ }, .run .clauseHeader))
        | some c =>
          (match unitWords s w l.stamp c f with
           | (s, .error b) =>
             (takeOutcome s key f.lanes ((b.2 - f.pc) / 4 + 1) (outcomeOf b.1 b.2 .fetch f.pix) b.2 (lowest f.lanes)
               (if f.resumed then f.pix else 0) unperformed none, .stop)
           | (s, .ok ws) =>
             let s := { s with cur := some ⟨key, f.lanes, f.pc, ws, some c⟩ }
             match chooseRow (recPriv l) g c f.pc ws with
             | .error t => (raise s ⟨key, g, f, ws⟩ t, .stop)
             | .ok i => (s, .run i))
    | _, _ => (s, .stop)

/-! ### Spin detection (R61) -/

/-- Stores, atomics, copies and posts, which end a fragment's spinning. -/
def endsSpin : Instr → Bool
  | .stB .. | .stH .. | .stW .. | .stD .. | .stQ .. | .stn .. | .ste .. | .stRel .. | .stsH .. | .stsW .. | .stsD .. | .stsQ ..
  | .atomAdd .. | .atomMin .. | .atomMax .. | .atomExch .. | .atomAnd .. | .atomOr .. | .atomXor .. | .atomCas .. | .atomFadd ..
  | .atomFadd2 .. | .atomFmin .. | .atomFmax .. | .atomsAdd .. | .atomsExch .. | .atomsCas .. | .atomsFadd .. | .cpy .. | .cpy2 ..
  | .cpyg .. | .cpyx .. | .mpost .. | .qpost .. | .launch .. | .aload .. | .astore .. => true
  | _ => false

/-- What a word changes for the spin detection of its fragment. -/
def noteWord (old : State) (i : Instr) (new : State) : State :=
  match old.cur with
  | none => new
  | some c =>
    match groupOf old c.group, groupOf new c.group with
    | some a, some b =>
      if a.spins.isEmpty then new
      else if endsSpin i || regsChanged a b then
        setGroup new c.group { b with spins := b.spins.map (fun x =>
          if lane c.lanes x.lane then x.broken else x) }
      else new
    | _, _ => new

/-- A fragment takes a branch: backward ones are counted, and a branch taken 8 times in a row without a change lowers the
fragment. -/
def noteBranch (s : State) (key : Nat) (m : Dword) (pc target : Nat) : State :=
  modGroup s key (fun g =>
    let ln := lowest m
    let rest := g.spins.filter (fun x => x.lane != ln)
    if !(target < pc && pc ≤ target + 256) then g
    else
      let counts := g.counters.map (·.val)
      match g.spins.find? (fun x => x.lane == ln && x.branch == pc && x.target == target) with
      | some x =>
        if x.quiet && x.counters = counts then
          let low := if x.lowered.isNone && 8 ≤ x.takings + 1 then some s.clock else x.lowered
          { g with spins := rest ++ [{ x with takings := x.takings + 1, lowered := low, known := x.known || low.isSome }] }
        else { g with spins := rest ++ [⟨ln, pc, 1, true, counts, none, target, false, x.seen⟩] }
      | none => { g with spins := rest ++ [⟨ln, pc, 1, true, counts, none, target, false, []⟩] })

/-! ### What a word asks of Levant (R365, R370) -/

/-- Rows that own a line while they read and write it (R318). -/
def ownsLine : Instr → Bool
  | .atomAdd .. | .atomMin .. | .atomMax .. | .atomExch .. | .atomAnd .. | .atomOr .. | .atomXor .. | .atomCas .. | .atomFadd ..
  | .atomFadd2 .. | .atomFmin .. | .atomFmax .. => true
  | _ => false

/-- The lines of device memory that a word has loaded or owned. -/
def linesRead (old : State) (i : Instr) (new : State) : List Nat :=
  let lineOf := fun (l : Loc) => match l with
    | .ma a => some (a / 128)
    | _ => none
  let looks := fun (s : State) => ((old.cur.bind (fun c => groupOf s c.group)).map (fun g => g.anchors.flatMap (·.2.looks))).getD []
  (((looks new).filter (fun x => !(looks old).contains x)).filterMap (fun x => lineOf x.loc) ++
    (if ownsLine i then (new.mem.past.filter (fun p => decide (old.mem.order ≤ p.upto))).filterMap (fun p => lineOf p.loc)
     else [])).eraseDups

/-- A word's reads are to go out to the slices that home their lines. -/
def askLines (old : State) (i : Instr) (new : State) : State :=
  (linesRead old i new).foldl (fun s line => noteRead s ((old.cur.map (fun c => writerOf (c.group / 128))).getD 3) line) new

/-! ### What a word leaves, and the words of one clock -/

/-- What a row that has run leaves to be counted (R60, R63, R65), for spin detection (R61) and on Levant. -/
def afterWord (old : State) (i : Instr) : Out → Out
  | .next s => .next (askLines old i (countWord old i (noteWord old i s)))
  | .fault r => .fault r
  | .refused r => .refused r

/-- A fragment issues its unit, or stops before it, by the meanings `run` of the rows. -/
def issueUnit (run : Instr → State → Out) (s : State) (key ln : Nat) : Out :=
  match beginIssue s key ln with
  | (s, .stop) => .next s
  | (s, .run i) => afterWord s i (run i s)

/-- Whether a step has brought the fragment of a lane past a header into its clause. -/
def entersClause (s : State) (key ln pc : Nat) : Bool :=
  match (groupOf s key).bind (fun g => fragAt g ln) with
  | none => false
  | some f => f.hold == .ready && f.pc == pc + 4 && (f.clause.map (·.head)) == some pc

/-- A fragment issues: a header that it decodes is decoded in the clock in which its clause's first word issues (R58). -/
def issueOnce (run : Instr → State → Out) (s : State) (key ln : Nat) : Out :=
  let s := backToHeader s key ln
  let at0 := ((groupOf s key).bind (fun g => fragAt g ln)).map (fun f => (f.clause.isNone, f.pc))
  match issueUnit run s key ln with
  | .next t =>
    (match at0 with
     | some (true, pc) => if entersClause t key ln pc then issueUnit run { t with cur := none } key ln else .next t
     | _ => .next t)
  | o => o

/-- A fragment issues by `run` a word that may break off between two of its lanes (R344); the rest of it is issued again. -/
def issuePart (run : State → Nat → Nat → Out) (s : State) (key ln : Nat) : Out :=
  match run s key ln with
  | .next t => .next { t with cut := none }
  | o => o

end Sys2Proof.Machine
end

