-- ==== Sys2Proof/Machine/Rendezvous.lean ====
section
/-!
DEFINITION. Rendezvous instances: arrival, completion with the effect of each row, and the deadlock trap (R64, R65, R80 to
R82, R171 to R176).
-/
namespace Sys2Proof.Machine

open Sys2Proof

/-! ### What a completed instance gives -/

def opdA (r : Rendezvous) (l : Nat) : Dword := ((r.opA.find? (fun x => x.1 == l)).map (·.2)).getD 0
def opdB (r : Rendezvous) (l : Nat) : Dword := ((r.opB.find? (fun x => x.1 == l)).map (·.2)).getD 0

/-- The members that exited while the instance was open. -/
def exitedMembers (r : Rendezvous) : Dword := r.members &&& ~~~r.arrived

/-- The value that a lane supplies to XGET, XBCAST and XQUAD (R172). An exited member's register is read at completion; the model
tells what it reads once other threads have released or written it since (log entry 15). -/
def sourceValue (g : Group) (r : Rendezvous) (a : Opnd) (t : Nat) : Dword :=
  if 64 ≤ t then 0
  else if lane r.arrived t then opdA r t
  else if lane g.exited t && lane r.named t then (val32 g a t).setWidth 64
  else 0

/-- The value that XPUT delivers to a lane: that of the highest sender that names it (R173). -/
def putValue (r : Rendezvous) (t : Nat) : Option Dword :=
  (((lanesOf r.active).filter (fun x => (opdB r x).toNat % 2 ^ 32 == t)).getLast?).map (opdA r)

/-- The contributions in ascending lane (R174). -/
def contributions (r : Rendezvous) : List (Nat × Nat) :=
  (lanesOf (r.active ||| exitedMembers r)).map (fun l => (l, if lane r.active l then (opdA r l).toNat % 2 ^ 32 else 0))

/-- The combination of values, and the identity of an empty set (R175). -/
def combine (o : Nat) (rm : Round) (draw : Nat) (xs : List Nat) : Nat :=
  let fold := fun (f : Nat → Nat → Nat) (e : Nat) => match xs with
    | [] => e
    | y :: ys => ys.foldl f y
  let sint := fun (f : Int → Int → Int) (x y : Nat) => wrap 32 (f (signed 32 x) (signed 32 y))
  let bw := fun (f : Word → Word → Word) (x y : Nat) => (f (BitVec.ofNat 32 x) (BitVec.ofNat 32 y)).toNat
  match o with
  | 0 => fold (fun x y => (x + y) % 2 ^ 32) 0
  | 1 => if xs.isEmpty then 0 else roundFmt .f32 false rm draw (sumExact (rm == .rdn) (xs.map (decodeFmt .f32)))
  | 2 => fold (sint min) 0x7FFFFFFF
  | 3 => fold (sint max) 0x80000000
  | 4 => fold min 0xFFFFFFFF
  | 5 => fold max 0
  | 6 => signOp id (fold (pickFloat .f32 false) 0x7F800000)
  | 7 => signOp id (fold (pickFloat .f32 true) 0xFF800000)
  | 8 => fold (bw (· &&& ·)) 0xFFFFFFFF
  | 9 => fold (bw (· ||| ·)) 0
  | _ => fold (bw (· ^^^ ·)) 0

/-- Whether one contribution comes before another for XMINLOC (or after, for XMAXLOC) (R176). -/
def locBefore (t : Nat) (max : Bool) (x y : Nat) : Bool :=
  let lt := fun (x y : Nat) => match t with
    | 0 => decide (signed 32 x < signed 32 y)
    | 1 => decide (x < y)
    | _ => minLt (decodeFmt .f32 x) (decodeFmt .f32 y)
  if max then lt y x else lt x y

/-- The lane of the smallest or largest contribution, the lowest on a tie. -/
def locate (t : Nat) (max : Bool) (xs : List (Nat × Nat)) : Nat :=
  let real := if t = 2 then xs.filter (fun x => !(decodeFmt .f32 x.2).isNan) else xs
  match real with
  | [] => ((xs.head?).map (·.1)).getD 0xFFFFFFFF
  | y :: ys => (ys.foldl (fun b x => if locBefore t max x.2 b.2 then x else b) y).1

/-- The bits that VOTE writes (R81). -/
def voteBits (mode : Nat) (g : Group) (r : Rendezvous) : Dword :=
  let yes := maskOf (fun l => lane r.active l && (opdA r l).getLsbD 0)
  let all := fun (b : Bool) => if b then below g.width else 0
  match mode with
  | 0 => yes
  | 1 => all (yes != 0)
  | 2 => all (yes &&& r.members == r.members)
  | _ => all (yes == 0 || yes &&& r.arrived == r.arrived)

/-- Results are written to the Active arrived threads, and other arrived threads follow R112; a draw is made for each whose
result is rounded under RSR. -/
def spread (g : Group) (p : Option Pfx) (d : Opnd) (r : Rendezvous) (rm : Nat → Round) (val : Nat → Nat → Nat) : Group :=
  let h := writeVec g d 1 r.arrived r.active (zOf p) (fun l => BitVec.ofNat 64 (val l (drawRng (rm l) (rngOf g l)).1))
  (lanesOf r.active).foldl (fun h l => setRng h l (drawRng (rm l) (rngOf g l)).2) h

/-- %round as it stood when a lane's word issued (R98). -/
def roundAt (r : Rendezvous) (l : Nat) : Dword := ((r.rounds.find? (fun x => x.1 == l)).map (·.2)).getD 0

/-- The mode in which a lane's combination is rounded, of the operation that rounds; an empty set gives the identity, with no sum to
round (R99, R175, log entry 14). -/
def redMode (g : Group) (r : Rendezvous) (p : Option Pfx) (o : BitVec 4) (l : Nat) (xs : List Nat) : Round :=
  if o = 1 && !xs.isEmpty then modeOf { g with round := roundAt r l } p else .rne

/-- The effect of a completed instance on its group. -/
def rendezvousEffect (g : Group) (r : Rendezvous) : Group :=
  let noRound := fun (_ : Nat) => Round.rne
  let reduce := fun (p : Option Pfx) (d : Opnd) (o : BitVec 4) (keep : Nat → Nat → Bool) =>
    let xs := fun (l : Nat) => ((contributions r).filter (fun x => keep x.1 l)).map (·.2)
    let rm := fun (l : Nat) => redMode g r p o l (xs l)
    spread g p d r rm (fun l draw => combine o.toNat (rm l) draw (xs l))
  match r.row with
  | .rdv _ d _ => if d = 0 then g else setMask g d.toNat r.arrived
  | .voteBallot _ m _ _ => setMask g m.toNat (voteBits 0 g r)
  | .voteAny _ m _ _ => setMask g m.toNat (voteBits 1 g r)
  | .voteAll _ m _ _ => setMask g m.toNat (voteBits 2 g r)
  | .voteUni _ m _ _ => setMask g m.toNat (voteBits 3 g r)
  | .xget p d a _ => spread g p d r noRound (fun l _ => (sourceValue g r a ((opdB r l).toNat % 2 ^ 32)).toNat)
  | .xbcast p d a b => spread g p d r noRound (fun _ _ => (sourceValue g r a b.toNat).toNat)
  | .xquad p d a b =>
      spread g p d r noRound (fun l _ => (sourceValue g r a (l / 4 * 4 + bits b.toNat (2 * (l % 4)) 2)).toNat)
  | .xput p d _ _ =>
      let hit := maskOf (fun l => lane r.active l && (putValue r l).isSome)
      -- A scalar takes what the lowest Active thread receives (R31).
      let hit := if isScalar d then hit &&& laneBit (lowest r.active) else hit
      let g := if zOf p && !isScalar d then writeVec g d 1 (r.arrived &&& ~~~r.active) 0 true (fun _ => 0) else g
      writeVec g d 1 hit hit false (fun l => (putValue r l).getD 0)
  | .xred p d _ o => reduce p d o (fun _ _ => true)
  | .xscan p d _ o => reduce p d o (fun x l => x ≤ l)
  | .xscanExcl p d _ o => reduce p d o (fun x l => x < l)
  | .xminloc p d _ t => spread g p d r noRound (fun _ _ => locate t.toNat false (contributions r))
  | .xmaxloc p d _ t => spread g p d r noRound (fun _ _ => locate t.toNat true (contributions r))
  | _ => g

/-! ### Completion and deadlock -/

/-- The fragments that wait at an instance. -/
def waitersOf (g : Group) (r : Rendezvous) : List Frag := g.frags.filter (fun f => f.hold == .rendezvous r.addr)

/-- The waiting fragments as one. -/
def fuseWaiters (g : Group) (r : Rendezvous) : Group :=
  match waitersOf g r with
  | [] => g
  | f :: _ => putFrags g r.arrived [{ f with lanes := r.arrived }]

/-- Every member has arrived or exited. -/
def rendezvousMet (g : Group) (r : Rendezvous) : Bool := r.members &&& ~~~r.arrived &&& ~~~g.exited == 0

/-- Every awaited member waits at a rendezvous word of another address (R65). -/
def rendezvousStuck (g : Group) (r : Rendezvous) : Bool :=
  let awaited := r.members &&& ~~~r.arrived &&& ~~~g.exited
  awaited != 0 && (lanesOf awaited).all (fun l => match fragAt g l with
    | some f => (match f.hold with
      | .rendezvous a => a != r.addr
      | _ => false)
    | none => false)

/-- Whether a counted load of an exited thread still waits for its reply, for an instance that reads registers of exited threads
(R78, R172). -/
def exitedOwed (s : State) (key : Nat) (g : Group) (r : Rendezvous) : Bool :=
  (match r.row with
   | .xget .. | .xbcast .. | .xquad .. => true
   | _ => false) &&
  s.requests.any (fun q => q.group == key && (q.kind == 0 || q.kind == 2) && q.op.isSome && lane (g.exited &&& r.named) q.lane)

/-- The register writes that loads owe to exited threads of a group land: their registers read as after them (R78). -/
def landExited (s : State) (key : Nat) : State :=
  match groupOf s key with
  | none => s
  | some g =>
    if g.exited = 0 then s
    else
      let mine := fun (o : Owed) => o.group == key && lane g.exited o.lane
      s.ops.foldl (fun s x =>
        let s := (x.2.owed.filter mine).foldl landOwed s
        { s with ops := tmod s.ops x.1 (fun o => { o with owed := o.owed.filter (fun w => !mine w) }) }) s

/-- The instance completes: its row takes effect, and the arrived threads leave as one fragment. -/
def completeRendezvous (s : State) (key : Nat) (r : Rendezvous) : State :=
  modGroup (landExited s key) key (fun g =>
    let h := rendezvousEffect g r
    let h := fuseWaiters { h with rdv := h.rdv.filter (fun x => x.addr != r.addr) } r
    modFrag h r.arrived (fun f => f.past r.words s.clock))

/-- The instance is closed with no effect, and its waiting fragments take the trap together (R65). -/
def breakRendezvous (s : State) (key : Nat) (r : Rendezvous) : State :=
  let s := modGroup s key (fun g =>
    let h := fuseWaiters { g with rdv := g.rdv.filter (fun x => x.addr != r.addr) } r
    modFrag h r.arrived (fun f => { f with hold := .ready, since := s.clock, resumed := true, pix := 0 }))
  takeTrap s key r.arrived r.words { cls := 7, info0 := BitVec.ofNat 64 r.addr, info1 := r.arrived }

/-- Instances of a group that have come to completion complete; of those that are stuck, the one whose handler fragment holds
the lowest lane takes its trap, unless trap mode of its group or gang keeps it open (R410). -/
def checkRendezvous (s : State) (key : Nat) : State :=
  match groupOf s key with
  | none => s
  | some g =>
    let s := (g.rdv.filter (fun r => rendezvousMet g r && !exitedOwed s key g r)).foldl (fun s r => completeRendezvous s key r) s
    match groupOf s key with
    | none => s
    | some g =>
      if g.mode.isSome || ((gangOf s g.gang).bind (·.mode)).isSome then s
      else
        let stuck := g.rdv.filter (rendezvousStuck g)
        match stuck.foldl (fun (b : Option Rendezvous) r => match b with
          | none => some r
          | some x => if lowest r.arrived < lowest x.arrived then some r else some x) none with
        | none => s
        | some r => breakRendezvous s key r

/-- A fragment issues a rendezvous word: it opens the instance at the word's address or joins it, and waits there. A live
thread that is no member raises the trap (R64). -/
def arrive (s : State) (u : Issue) (row : Instr) (member : Nat) (p : Option Pfx) (a b : Nat → Dword) : State :=
  let addr := u.f.pc
  let open' := u.g.rdv.find? (fun r => r.addr == addr)
  let r := match open' with
    | some r => r
    | none =>
      let named := maskReg u.g member
      ⟨row, u.words.length, addr, named, named &&& liveLanes u.g, 0, 0, [], [], [], s.clock⟩
  if u.f.lanes &&& ~~~r.members != 0 then
    raise s u { cls := 7, info0 := BitVec.ofNat 64 addr, info1 := r.arrived }
  else
    let ls := lanesOf u.f.lanes
    let r := { r with
      arrived := r.arrived ||| u.f.lanes
      active := r.active ||| activeOf u.g u.f.lanes p
      opA := r.opA ++ ls.map (fun l => (l, a l))
      opB := r.opB ++ ls.map (fun l => (l, b l))
      rounds := r.rounds ++ ls.map (fun l => (l, u.g.round))
      since := if open'.isSome then r.since else s.clock }
    let g := { u.g with rdv := (u.g.rdv.filter (fun x => x.addr != addr)) ++ [r] }
    let g := modFrag g u.f.lanes (fun f => { f.holding (.rendezvous addr) s.clock with pix := 0, resumed := false })
    checkRendezvous (setGroup s u.key g) u.key

/-! ### The rows -/

def execJoin (a : Opnd) (s : State) : Out :=
  withIssue s (fun u => .next (arrive s u (.join a) a.toNat none (fun _ => 0) (fun _ => 0)))

/-- A prefix mask on RDV has no effect (R80). -/
def execRdv (p : Option Pfx) (d a : Opnd) (s : State) : Out :=
  withIssue s (fun u => .next (arrive s u (.rdv p d a) a.toNat none (fun _ => 0) (fun _ => 0)))

/-- VOTE in any mode: the predicate bit of each thread is read at its arrival. -/
def voteOp (s : State) (row : Instr) (p : Option Pfx) (m : BitVec 3) (a b : Opnd) : Out :=
  withIssue s (fun u =>
    if m = 0 then .next (raise s u (registerTrap u 0))
    else .next (arrive s u row b.toNat p (fun l => BitVec.ofNat 64 (lane (maskReg u.g a.toNat) l).toNat) (fun _ => 0)))

def execVoteBallot (p : Option Pfx) (r : BitVec 3) (a b : Opnd) (s : State) : Out := voteOp s (.voteBallot p r a b) p r a b
def execVoteAny (p : Option Pfx) (r : BitVec 3) (a b : Opnd) (s : State) : Out := voteOp s (.voteAny p r a b) p r a b
def execVoteAll (p : Option Pfx) (r : BitVec 3) (a b : Opnd) (s : State) : Out := voteOp s (.voteAll p r a b) p r a b
def execVoteUni (p : Option Pfx) (r : BitVec 3) (a b : Opnd) (s : State) : Out := voteOp s (.voteUni p r a b) p r a b

/-- A cross-lane word: member mask aux[2:0], operands read at arrival. -/
def crossOp (s : State) (row : Instr) (p : Option Pfx) (regs : List (Opnd × Nat)) (a : Opnd) (b : Option Opnd) : Out :=
  withRegs s regs (fun u =>
    .next (arrive s u row (auxOf p % 8) p (fun l => (val32 u.g a l).setWidth 64)
      (fun l => match b with
        | some x => (val32 u.g x l).setWidth 64
        | none => 0)))

def execXget (p : Option Pfx) (d a b : Opnd) (s : State) : Out :=
  crossOp s (.xget p d a b) p [(d, 1), (a, 1), (b, 1)] a (some b)
def execXput (p : Option Pfx) (d a b : Opnd) (s : State) : Out :=
  crossOp s (.xput p d a b) p [(d, 1), (a, 1), (b, 1)] a (some b)
def execXbcast (p : Option Pfx) (d a b : Opnd) (s : State) : Out := crossOp s (.xbcast p d a b) p [(d, 1), (a, 1)] a none
def execXquad (p : Option Pfx) (d a b : Opnd) (s : State) : Out := crossOp s (.xquad p d a b) p [(d, 1), (a, 1)] a none
def execXred (p : Option Pfx) (d a : Opnd) (o : BitVec 4) (s : State) : Out :=
  crossOp s (.xred p d a o) p [(d, 1), (a, 1)] a none
def execXscan (p : Option Pfx) (d a : Opnd) (o : BitVec 4) (s : State) : Out :=
  crossOp s (.xscan p d a o) p [(d, 1), (a, 1)] a none
def execXscanExcl (p : Option Pfx) (d a : Opnd) (o : BitVec 4) (s : State) : Out :=
  crossOp s (.xscanExcl p d a o) p [(d, 1), (a, 1)] a none
def execXminloc (p : Option Pfx) (d a : Opnd) (t : BitVec 2) (s : State) : Out :=
  crossOp s (.xminloc p d a t) p [(d, 1), (a, 1)] a none
def execXmaxloc (p : Option Pfx) (d a : Opnd) (t : BitVec 2) (s : State) : Out :=
  crossOp s (.xmaxloc p d a t) p [(d, 1), (a, 1)] a none

end Sys2Proof.Machine
end

