-- ==== Sys2Proof/Machine/Control.lean ====
section
/-!
DEFINITION. Control flow: the check of a branch target (R24), splitting (R56), direct, conditional and indirect branches, calls
and returns (R70 to R76), ELECT (R79), and the words that only wait or do nothing (R67, R69).
-/
namespace Sys2Proof.Machine

open Sys2Proof

/-! ### Targets -/

/-- The lanes of a fragment that go to a target, the lowest of them, for each distinct target in order of lanes. -/
def distinctTargets (ts : List (Nat × Int)) : List (Nat × Int) :=
  ts.foldl (fun acc x => if acc.any (fun y => y.2 == x.2) then acc else acc ++ [x]) []

/-- What is wrong with a branch: a target that fails R24, with its lane, or a fetch that does not go through. -/
inductive BadTarget where
  | illegal (lane : Nat) (target : Int)
  | fetch (b : XBad) (lane : Nat) (target : Nat)
deriving DecidableEq, Repr, Inhabited

/-- The check of R24 over the targets that threads take. No code word stands at an address that is not a multiple of 4. -/
def checkTargets (w : Who) (stamp : Nat) : State → List (Nat × Int) → State × Option BadTarget
  | s, [] => (s, none)
  | s, (l, t) :: rest =>
    if t < 0 || 2 ^ 56 ≤ t || t % 4 != 0 then (s, some (.illegal l t))
    else
      match fetchWord s w stamp t.toNat with
      | (s, .error b) => (s, some (.fetch b l t.toNat))
      | (s, .ok h) => if targetWordOk h then checkTargets w stamp s rest else (s, some (.illegal l t))

/-- The trap or the outcome of a branch that does not go through, at the branch word. -/
def branchFails (s : State) (u : Issue) (b : BadTarget) : State :=
  match b with
  | .illegal l t => raise s u { cls := 4, info0 := BitVec.ofInt 64 t, info1 := BitVec.ofNat 64 l }
  | .fetch b l t => takeOutcome s u.key u.f.lanes u.words.length (outcomeOf b t .fetch 0) t l 0 (lowest u.f.lanes) none

/-- The stamp of a group's launch, from which its fetches may find older code words (R37). -/
def stampOf (s : State) (g : Group) : Nat := ((launchOfGroup s g).map (·.stamp)).getD 0

/-- The fragment's threads go where each is sent: one fragment for each distinct next PC (R56). -/
def sendThreads (s : State) (u : Issue) (next : Nat → Option Nat) : State :=
  let stay := (afterWords u.f.clause u.f.pc u.words.length).1
  let place := fun (l : Nat) => (next l).getD stay
  let ts := distinctTargets ((lanesOf u.f.lanes).map (fun l => (l, (place l : Int))))
  let frag := fun (t : Int) =>
    let m := maskOf (fun l => lane u.f.lanes l && (place l : Int) == t)
    { u.f.moved t.toNat s.clock with lanes := m }
  let s := modGroup s u.key (fun g => putFrags g u.f.lanes (ts.map (fun x => frag x.2)))
  ts.foldl (fun s x =>
    if (next x.1).isSome then noteBranch s u.key (frag x.2).lanes u.f.pc x.2.toNat else s) s

/-- A branch whose targets have passed: `pre` acts, and the threads go. -/
def takeBranch (pre : Group → Group) (s : State) (u : Issue) (next : Nat → Option Int) : State :=
  sendThreads (modGroup s u.key pre) u (fun l => (next l).map Int.toNat)

/-- A branch taken by the lanes that `next` sends somewhere: the targets are checked, `pre` acts, and the threads go. -/
def branchOp (s : State) (u : Issue) (next : Nat → Option Int) (pre : Group → Group) : State :=
  let ts := (lanesOf u.f.lanes).filterMap (fun l => (next l).map (fun t => (l, t)))
  match checkTargets (whoGroup s u.key u.g) (stampOf s u.g) s (distinctTargets ts) with
  | (s, some b) => branchFails s u b
  | (s, none) => takeBranch pre s u next

/-- The target of a word offset (R23). -/
def offsetTarget (u : Issue) (n o : Nat) : Int := (u.f.pc : Int) + 4 * signed n o

/-! ### Return stacks (R71) -/

def stackOf (g : Group) (l : Nat) : List Nat := tget [] g.rstack l
def setStack (g : Group) (l : Nat) (x : List Nat) : Group := { g with rstack := tset [] g.rstack l x }

/-- The lowest thread whose stack is full. -/
def fullStack (u : Issue) : Option Nat := (lanesOf u.f.lanes).find? (fun l => 16 ≤ (stackOf u.g l).length)

/-- Every thread pushes the address after the call. -/
def pushAll (u : Issue) (g : Group) : Group :=
  (lanesOf u.f.lanes).foldl (fun h l => setStack h l ((u.f.pc + 4 * u.words.length) :: stackOf h l)) g

/-- A call whose targets have passed: the stacks are checked, every thread pushes, and the threads go. -/
def takeCall (s : State) (u : Issue) (next : Nat → Option Int) : State :=
  match fullStack u with
  | some l => raise s u { cls := 6, info0 := 0, info1 := BitVec.ofNat 64 l }
  | none => takeBranch (pushAll u) s u next

/-- A call: targets are checked, then the stacks. -/
def callOp (s : State) (u : Issue) (next : Nat → Option Int) : State :=
  let ts := (lanesOf u.f.lanes).filterMap (fun l => (next l).map (fun t => (l, t)))
  match checkTargets (whoGroup s u.key u.g) (stampOf s u.g) s (distinctTargets ts) with
  | (s, some b) => branchFails s u b
  | (s, none) => takeCall s u next

/-! ### Direct branches (R70) -/

def execBra (o : BitVec 24) (s : State) : Out :=
  withIssue s (fun u => .next (branchOp s u (fun _ => some (offsetTarget u 24 o.toNat)) id))

def execBrl (offset : Word) (s : State) : Out :=
  withIssue s (fun u => .next (branchOp s u (fun _ => some (offsetTarget u 32 offset.toNat)) id))

def execCall (o : BitVec 24) (s : State) : Out :=
  withIssue s (fun u => .next (callOp s u (fun _ => some (offsetTarget u 24 o.toNat))))

/-! ### Conditional branches (R72 to R74) -/

/-- A branch on a mask for the whole fragment or none of it. -/
def maskBranch (s : State) (o : BitVec 16) (take : Issue → Bool) : Out :=
  withIssue s (fun u => .next (branchOp s u (fun _ => if take u then some (offsetTarget u 16 o.toNat) else none) id))

/-- A branch that each thread decides for itself. -/
def splitBranch (s : State) (o : BitVec 16) (take : Issue → Nat → Bool) : Out :=
  withIssue s (fun u => .next (branchOp s u (fun l => if take u l then some (offsetTarget u 16 o.toNat) else none) id))

def execBrAny (m : BitVec 3) (o : BitVec 16) (s : State) : Out :=
  maskBranch s o (fun u => u.f.lanes &&& maskReg u.g m.toNat != 0)

def execBrAll (m : BitVec 3) (o : BitVec 16) (s : State) : Out :=
  maskBranch s o (fun u => u.f.lanes &&& maskReg u.g m.toNat == u.f.lanes)

def execBrNone (m : BitVec 3) (o : BitVec 16) (s : State) : Out :=
  maskBranch s o (fun u => u.f.lanes &&& maskReg u.g m.toNat == 0)

def execBrAnySplit (m : BitVec 3) (o : BitVec 16) (s : State) : Out :=
  splitBranch s o (fun u l => lane (maskReg u.g m.toNat) l)

def execBrNoneSplit (m : BitVec 3) (o : BitVec 16) (s : State) : Out :=
  splitBranch s o (fun u l => !lane (maskReg u.g m.toNat) l)

def execBrSz (r : Opnd) (o : BitVec 16) (s : State) : Out :=
  withRegs s [(r, 1)] (fun u => .next (branchOp s u (fun l =>
    if (if isScalar r then sreg u.g (scalarNo r) == 0 else vreg u.g r.toNat l == 0)
    then some (offsetTarget u 16 o.toNat) else none) id))

/-! ### Indirect branches (R75, R76) -/

/-- What a lane's read of a branch table gives. -/
inductive TableRead where
  | target (t : Int)
  | range
  | failed (b : XBad) (va : Nat)
deriving DecidableEq, Repr, Inhabited

/-- A lane's read of a branch table: its count, then the entry of the index, above CBASE. -/
def readBranchTable (s : State) (w : Who) (cbase table i : Nat) : State × TableRead :=
  match loadBytes s w .load table 4 with
  | (s, .error b) => (s, .failed b table)
  | (s, .ok bs) =>
    if leNat bs ≤ i then (s, .range)
    else
      match loadBytes s w .load (table + 8 + 8 * i) 8 with
      | (s, .error b) => (s, .failed b (table + 8 + 8 * i))
      | (s, .ok es) => (s, .target (cbase + leNat es : Nat))

/-- Why a branch through a table does not go through: a lane's index beyond the count, its read, or its target. -/
inductive TableStop where
  | range (lane : Nat)
  | read (lane : Nat) (b : XBad) (va : Nat)
  | target (b : BadTarget)
deriving DecidableEq, Repr, Inhabited

/-- Every lane in turn reads its target, which is checked at once under R24, each target of the word once; or the first failure. -/
def tableTargets (w : Who) (key stamp cbase table : Nat) (index : Nat → Nat) :
    State → List Int → List Nat → State × Except TableStop (List (Nat × Int))
  | s, _, [] => (s, .ok [])
  | s, seen, l :: ls =>
    match readBranchTable s (w.ofThread key l) cbase table (index l) with
    | (s, .range) => (s, .error (.range l))
    | (s, .failed b va) => (s, .error (.read l b va))
    | (s, .target t) =>
      match checkTargets w stamp s (if seen.contains t then [] else [(l, t)]) with
      | (s, some b) => (s, .error (.target b))
      | (s, none) =>
        match tableTargets w key stamp cbase table index s (t :: seen) ls with
        | (s, .error e) => (s, .error e)
        | (s, .ok ts) => (s, .ok ((l, t) :: ts))

/-- BRX and CALLX in table mode. -/
def tableBranch (s : State) (a b : Opnd) (go : State → Issue → (Nat → Option Int) → State) : Out :=
  withRegs s [(a, 1)] (fun u =>
    let table := (sreg u.g (scalarNo b)).toNat
    let bad := fun (s : State) (l : Nat) => raise s u { cls := 4, info0 := BitVec.ofNat 64 table, info1 := BitVec.ofNat 64 l }
    if table % 8 != 0 then .next (bad s (lowest u.f.lanes))
    else
      let cbase := ((launchOfGroup s u.g).map recCbase).getD 0
      match tableTargets (whoGroup s u.key u.g) u.key (stampOf s u.g) cbase table (nat32 u.g a) s [] (lanesOf u.f.lanes) with
      | (s, .error (.read l x va)) =>
          .next (takeOutcome s u.key u.f.lanes u.words.length (outcomeOf x va .load 0) va l 0 (lowest u.f.lanes) none)
      | (s, .error (.range l)) => .next (bad s l)
      | (s, .error (.target b)) => .next (branchFails s u b)
      | (s, .ok ts) => .next (go s u (fun l => ((ts.find? (fun x => x.1 == l)).map (·.2)))))

/-- BRX and CALLX in address mode. -/
def addressBranch (s : State) (a : Opnd) (go : State → Issue → (Nat → Option Int) → State) : Out :=
  withRegs s [(a, 2)] (fun u => .next (go s u (fun l => some (nat64 u.g a l : Int))))

def execBrxTable (a b : Opnd) (s : State) : Out := tableBranch s a b (takeBranch id)
def execBrxAddress (a : Opnd) (s : State) : Out := addressBranch s a (fun s u next => branchOp s u next id)
def execCallxTable (a b : Opnd) (s : State) : Out := tableBranch s a b takeCall
def execCallxAddress (a : Opnd) (s : State) : Out := addressBranch s a callOp

def execRet (s : State) : Out :=
  withIssue s (fun u =>
    match (lanesOf u.f.lanes).find? (fun l => (stackOf u.g l).isEmpty) with
    | some l => .next (raise s u { cls := 6, info0 := 1, info1 := BitVec.ofNat 64 l })
    | none =>
      .next (branchOp s u (fun l => (stackOf u.g l).head?.map (fun (x : Nat) => (x : Int)))
        (fun g => (lanesOf u.f.lanes).foldl (fun h l => setStack h l (stackOf h l).tail) g)))

/-! ### ELECT (R79) -/

/-- 1 in the elected thread and 0 elsewhere. -/
def electOp (s : State) (p : Option Pfx) (d : Opnd) (who : Issue → Nat → Bool) : Out :=
  withRegs s [(d, 1)] (fun u =>
    done s u (writeVec u.g d 1 u.f.lanes (execLanes u p) (zOf p) (fun l => if who u l then 1 else 0)))

def execElect (p : Option Pfx) (d : Opnd) (s : State) : Out :=
  electOp s p d (fun u l => l == lowest (activeOf u.g u.f.lanes p))

def execElectGroup (p : Option Pfx) (d : Opnd) (s : State) : Out :=
  electOp s p d (fun u l => l == lowest (liveLanes u.g))

/-- The lowest %gid of a team that holds a live thread. -/
def lowestGroup (s : State) (uid team : Nat) : Option Nat :=
  ((groupsOf s uid).filter (fun x => x.2.team == team && liveLanes x.2 != 0)).foldl (fun b x => match b with
    | none => some x.2.gid
    | some n => some (min n x.2.gid)) none

def execElectTeam (p : Option Pfx) (d : Opnd) (s : State) : Out :=
  electOp s p d (fun u l => lowestGroup s u.g.gang u.g.team == some u.g.gid && l == lowest (liveLanes u.g))

/-! ### Words that wait or do nothing (R67, R69) -/

def execNop (s : State) : Out := withIssue s (fun u => .next (finish s u))

/-- The unit's fragment passes on and then waits. -/
def finishHolding (s : State) (u : Issue) (h : Hold) : State :=
  modGroup (finish s u) u.key (fun g => modFrag g u.f.lanes (fun f => { f with hold := h }))

def execYield (s : State) : Out :=
  withIssue s (fun u => .next (modGroup (finish s u) u.key (fun g => modFrag g u.f.lanes (fun f => { f with rest := s.clock + 16 }))))

def execSleep (n : Byte) (s : State) : Out :=
  withIssue s (fun u =>
    .next (if n = 0 then finish s u
           else finishHolding s u (.sleep (s.clock + 64 * n.toNat) (s.clock + 64 * n.toNat + 64))))

/-- SLEEP ends once its least time has run (R69): the fragment of the input's group and lane. -/
def execSleepExpire (s : State) : Out :=
  match groupOf s s.input.key with
  | none => .next s
  | some g =>
    match fragAt g s.input.sub with
    | none => .next s
    | some f =>
      match f.hold with
      | .sleep least _ =>
        .next (if s.clock < least then s
               else setGroup s s.input.key (modFrag g f.lanes (fun f => { f.holding .ready s.clock with age := s.clock })))
      | _ => .next s

/-- YIELD ends once its 16 clocks have run (R69). -/
def execYieldExpire (s : State) : Out :=
  match groupOf s s.input.key with
  | none => .next s
  | some g =>
    match fragAt g s.input.sub with
    | none => .next s
    | some f =>
      .next (if f.rest = 0 || s.clock < f.rest then s
             else setGroup s s.input.key (modFrag g f.lanes (fun f => { f with rest := 0, age := s.clock })))

end Sys2Proof.Machine
end

