-- ==== Sys2Proof/Machine/Barrier.lean ====
section
/-!
DEFINITION. Counters' words and waits (R68, R214 to R218, R231, R232), barriers with their publication and deadlock (R233 to
R237), and EXIT (R78).
-/
namespace Sys2Proof.Machine

open Sys2Proof

/-! ### What a wait covers (R232) -/

/-- The transfers of a group counted on k that a wait for Count(k) < n shows to be complete: all but those of the n − 1
operations most recently issued; none on a bound counter. -/
def shownComplete (s : State) (key : Nat) (g : Group) (k n : Nat) : List Nat :=
  let c := counterOf g k
  if c.bound then []
  else
    let late := c.recent.take (n - 1) ++ c.queue.map (·.1)
    (s.transfers.filter (fun t => t.2.group == some key && t.2.complete.isSome && t.2.node.isNone &&
      (match t.2.op with
       | none => false
       | some o => t.2.counter == some k && !late.contains o))).map (·.1)

def setBatch (g : Group) (l : Nat) (b : Batch) : Group := { g with batches := tset ⟨[], [], []⟩ g.batches l b }

/-- Transfers are covered for the threads of a mask. -/
def coverFor (g : Group) (m : Dword) (ts : List Nat) : Group :=
  if ts.isEmpty then g
  else (lanesOf m).foldl (fun h l =>
    let b := batchOf h l
    setBatch h l { b with covered := ts.foldl (fun c t => insertNat t c) b.covered }) g

/-- A wait of a fragment that ends because Count(k) < n covers transfers for its threads. -/
def coverWait (s : State) (key : Nat) (m : Dword) (k n : Nat) : State :=
  modGroup s key (fun g => coverFor g m (shownComplete s key g k n))

/-! ### Counters' words -/

def execWaitlt (d n : Byte) (s : State) : Out :=
  withIssue s (fun u =>
    if (counterOf u.g d.toNat).val < n.toNat then .next (finish (coverWait s u.key u.f.lanes d.toNat n.toNat) u)
    else .next (holdUnit s u (.waitlt d.toNat n.toNat)))

/-- KREAD, and with `clear` the flag's clear (R217, R218). -/
def kreadOp (s : State) (d : Opnd) (k : Nat) (clear : Bool) : Out :=
  withRegs s [(d, 1)] (fun u =>
    let c := counterOf u.g k
    capturedWord s u .kread 4 (c.val + 256 * c.err.toNat) (fun s v =>
      .next (finish (modGroup s u.key (fun g =>
        let g := writeVec g d 1 u.f.lanes u.f.lanes false (fun l => BitVec.ofNat 64 (v l))
        if clear then setCounter g k { c with err := false } else g)) u)))

def execKread (d : Opnd) (k : BitVec 4) (s : State) : Out := kreadOp s d k.toNat false
def execKreadClr (d : Opnd) (k : BitVec 4) (s : State) : Out := kreadOp s d k.toNat true

/-- KADD: a sum above 255 holds the fragment, and one below 0 leaves 0 and sets the flag (R216). -/
def execKadd (k : BitVec 4) (i : Byte) (s : State) : Out :=
  withIssue s (fun u =>
    let c := counterOf u.g k.toNat
    let v : Int := c.val + i.toInt
    if 255 < v then .next (holdUnit s u (.kadd k.toNat))
    else if v < 0 then done s u (setCounter u.g k.toNat { c with val := 0, err := true })
    else done s u (setCounter u.g k.toNat { c with val := v.toNat }))

def execKbind (d : Opnd) (k : BitVec 4) (s : State) : Out :=
  withIssue s (fun u =>
    let g := setCounter u.g k.toNat { counterOf u.g k.toNat with bound := true }
    done s u (setSreg g (scalarNo d) (BitVec.ofNat 64 (k.toNat + 16 * u.g.gid + 256 * u.g.team))))

def execKbindClose (k : BitVec 4) (s : State) : Out :=
  withIssue s (fun u =>
    match gangOf s u.g.gang with
    | none => .next s
    | some q =>
      if nodeTargets q u.g.team u.g.gid k.toNat then .next (holdUnit s u (.kbindClose k.toNat))
      else done s u (setCounter u.g k.toNat { counterOf u.g k.toNat with bound := false }))

/-- SEAL moves each thread's open batch into its sealed set (R231). -/
def sealLanes (g : Group) (m : Dword) : Group :=
  (lanesOf m).foldl (fun h l =>
    let b := batchOf h l
    setBatch h l { b with opened := [], sealed := b.opened.foldl (fun c t => insertNat t c) b.sealed }) g

def execSeal (s : State) : Out := withIssue s (fun u => done s u (sealLanes u.g u.f.lanes))

/-! ### Barriers (R234 to R236) -/

/-- Whether a gang-scope word acts on the gang barrier: a gang of one team has only its team barrier (R235). -/
def gangBarrier (s : State) (g : Group) (gs : Bool) : Bool :=
  gs && (match gangOf s g.gang with
    | none => false
    | some q => 1 < q.teams.length)

/-- The groups of a barrier's scope. -/
def scopeGroups (s : State) (uid team : Nat) (gs : Bool) : List (Nat × Group) :=
  (groupsOf s uid).filter (fun x => gs || x.2.team == team)

def arrivedBits (g : Group) (gs : Bool) : Dword := if gs then g.arrGang else g.arrTeam

def setArrived (g : Group) (gs : Bool) (m : Dword) : Group := if gs then { g with arrGang := m } else { g with arrTeam := m }

/-- Every live thread of the group has arrived; a group without a live thread counts as arrived. -/
def groupArrived (g : Group) (gs : Bool) : Bool := liveLanes g &&& ~~~(arrivedBits g gs) == 0

def setBarrier (s : State) (uid team : Nat) (gs : Bool) (b : Barrier) : State :=
  match gangOf s uid with
  | none => s
  | some q =>
    if gs then setGang s uid { q with barrier := b }
    else match q.teams[team]? with
      | none => s
      | some t => setGang s uid { q with teams := q.teams.set team { t with barrier := b } }

/-- AMASK and ACOUNT follow a group's arrival, or its withdrawal. -/
def countArrival (s : State) (g : Group) (gs : Bool) : State :=
  let b := barrierOf s g gs
  let here := laneBit (16 * g.team + g.gid)
  let m := if groupArrived g gs then b.amask ||| here else b.amask &&& ~~~here
  setBarrier s g.gang g.team gs { b with amask := m, acount := (lanesOf m).length }

/-- The group of a team with the fewest words issued among those that have not arrived at the team barrier, the lowest %gid on a
tie (R60). -/
def urgentGroup (s : State) (uid team : Nat) : Option Nat :=
  (((groupsOf s uid).filter (fun x => x.2.team == team && !groupArrived x.2 false)).foldl (fun b x => match b with
    | none => some x
    | some y =>
      if x.2.issued < y.2.issued || (x.2.issued = y.2.issued && x.2.gid < y.2.gid) then some x else some y) none).map (·.2.gid)

def teamOf (s : State) (uid team : Nat) : Option Team := (gangOf s uid).bind (fun q => q.teams[team]?)

def setTeam (s : State) (uid team : Nat) (x : Team) : State :=
  match gangOf s uid with
  | none => s
  | some q => setGang s uid { q with teams := q.teams.set team x }

def modTeam (s : State) (uid team : Nat) (f : Team → Team) : State :=
  match teamOf s uid team with
  | none => s
  | some x => setTeam s uid team (f x)

/-- The urgent group of a team is marked, at the start of a generation or 256 clocks, or a multiple, after it was last (R60). -/
def markUrgent (s : State) (uid team : Nat) (fresh : Bool) : State :=
  modTeam s uid team (fun t =>
    { t with urgent := urgentGroup s uid team
             marked := some (match fresh, t.marked with
               | false, some c => c + 256 * ((s.clock - c) / 256)
               | _, _ => s.clock) })

/-- Whether a team's urgent group is to be marked now. -/
def urgentDue (s : State) (t : Team) : Bool := t.marked.all (fun c => decide (c + 256 ≤ s.clock))

/-- Whether a transfer has completed. -/
def transferDone (s : State) (n : Nat) : Bool :=
  match tfind s.transfers n with
  | none => true
  | some t => t.complete.isSome

/-- The threads of a scope that have arrived, each with its batch. -/
def arrivedBatches (s : State) (uid team : Nat) (gs : Bool) : List Batch :=
  (scopeGroups s uid team gs).flatMap (fun x => (lanesOf (arrivedBits x.2 gs)).map (batchOf x.2))

/-- Whether an instance may complete: every group has arrived, some thread waits or has arrived, and the transfers in the
arriving threads' sealed sets have completed (R233, R236). -/
def barrierMet (s : State) (uid team : Nat) (gs : Bool) : Bool :=
  let gsx := scopeGroups s uid team gs
  gsx.all (fun x => groupArrived x.2 gs) && gsx.any (fun x => arrivedBits x.2 gs != 0) &&
  (arrivedBatches s uid team gs).all (fun b => b.sealed.all (transferDone s))

/-- A barrier's record. -/
def recordOf (s : State) (uid team : Nat) (gs : Bool) : Barrier :=
  match gangOf s uid with
  | none => Barrier.reset
  | some q => if gs then q.barrier else ((q.teams[team]?).map (·.barrier)).getD Barrier.reset

/-- A group of the scope as the instance leaves it: its arrived threads' sealed sets and covered transfers are published, and its
threads held in BAR go on. A generation of the team's barrier begins the count of its words again (R60). -/
def leaveBarrier (gs : Bool) (clock : Nat) (g : Group) : Group :=
  let h := (lanesOf (arrivedBits g gs)).foldl (fun h l => setBatch h l ⟨(batchOf h l).opened, [], []⟩) g
  let h := setArrived (if gs then h else { h with issued := 0 }) gs 0
  { h with frags := h.frags.map (fun f =>
      if f.hold = .bar gs true then f.past 1 clock
      else if f.hold = .bar gs false then f.holding .ready clock else f) }

/-- The instance completes: publication, GEN, the arrived bits, and the threads held in BAR (R236).

DESIGN CHOICE (log entry 89): a group whose threads had all exited before the instance opened counts as arrived and shows neither in AMASK
nor in ACOUNT. -/
def completeBarrier (s : State) (uid team : Nat) (gs : Bool) : State :=
  let out := (arrivedBatches s uid team gs).flatMap (fun b => b.sealed ++ b.covered)
  let b := recordOf s uid team gs
  let s := applyPlaces s (fun p => out.contains p.transfer)
  let s := { s with groups := s.groups.map (fun x =>
    (x.1, if x.2.gang == uid && (gs || x.2.team == team) then leaveBarrier gs s.clock x.2 else x.2)) }
  let s := setBarrier s uid team gs ⟨b.gen + 1, 0, 0⟩
  if gs then s else markUrgent s uid team true

/-- Whether a fragment is held in BAR or BARW of a scope. -/
def heldAt (f : Frag) (gs : Bool) : Bool :=
  match f.hold with
  | .bar x _ => x == gs
  | .barw x _ => x == gs
  | _ => false

/-- An open instance is deadlocked when every member that has not arrived is held at the barrier of the other scope (R237). -/
def barrierStuck (s : State) (uid team : Nat) (gs : Bool) : Bool :=
  let gsx := scopeGroups s uid team gs
  let late := gsx.flatMap (fun x => (lanesOf (liveLanes x.2 &&& ~~~(arrivedBits x.2 gs))).map (fun l => (x.2, l)))
  gsx.any (fun x => arrivedBits x.2 gs != 0) && !late.isEmpty &&
  late.all (fun x => match fragAt x.1 x.2 with
    | some f => heldAt f (!gs)
    | none => false)

/-- A fragment that is held at a barrier: its group's key, the group, the fragment, and the barrier's scope. -/
abbrev HeldFrag := Nat × Group × Frag × Bool

/-- The fragments held at a barrier. -/
def heldFrags (s : State) (uid team : Nat) (gs : Bool) : List HeldFrag :=
  (scopeGroups s uid team gs).flatMap (fun x => (x.2.frags.filter (fun f => heldAt f gs)).map (fun f => (x.1, x.2, f, gs)))

/-- The order of R237: by team and %gid, and within a group by the lowest lane. -/
def HeldFrag.rank (x : HeldFrag) : Nat := 64 * (16 * x.2.1.team + x.2.1.gid) + lowest x.2.2.1.lanes

/-- The trap of the deadlocked barriers, at the BAR or BARW of the first of the fragments held at them, whose arrival is withdrawn
(R237).

DESIGN CHOICE (log entry 90): a fragment held in a repeated BARA is treated as one held in BAR. -/
def barrierTrap (s : State) (held : List HeldFrag) : State :=
  match held.foldl (fun (b : Option HeldFrag) x => match b with
    | none => some x
    | some y => if x.rank < y.rank then some x else some y) none with
  | none => s
  | some (key, g, f, gs) =>
    let b := barrierOf s g gs
    let arrived := match f.hold with
      | .bar .. => true
      | _ => false
    let g := if arrived then setArrived g gs (arrivedBits g gs &&& ~~~f.lanes) else g
    let s := countArrival (setGroup s key (modFrag g f.lanes (fun f => f.holding .ready s.clock))) g gs
    takeTrap s key f.lanes 1
      { cls := 19, info0 := b.gen.setWidth 64, info1 := BitVec.ofNat 64 gs.toNat, rung := 1 }

/-- The barriers of a gang, by team and scope: one a team, and the gang's own when it has several teams (R234, R235). -/
def barrierScopes (q : Gang) : List (Nat × Bool) :=
  (List.range q.teams.length).map (fun t => (t, false)) ++ (if 1 < q.teams.length then [(0, true)] else [])

/-- The barriers of a gang that have come to completion complete, and deadlocked ones raise one trap. -/
def checkBarriers (s : State) (uid : Nat) : State :=
  match gangOf s uid with
  | none => s
  | some q =>
    let s := (barrierScopes q).foldl (fun s x => if barrierMet s uid x.1 x.2 then completeBarrier s uid x.1 x.2 else s) s
    if ((gangOf s uid).map (·.mode.isSome)).getD true || q.teams.length ≤ 1 then s
    else barrierTrap s (((barrierScopes q).filter (fun x => barrierStuck s uid x.1 x.2)).flatMap (fun x => heldFrags s uid x.1 x.2))

/-- The threads of a unit that have already arrived at the open instance hold at the word for the next one; the others act by
`k` on a unit of their own (R236). -/
def splitArrived (s : State) (u : Issue) (gs : Bool) (k : State → Issue → State) : State :=
  let old := u.f.lanes &&& arrivedBits u.g gs
  if old = 0 then k s u
  else if old = u.f.lanes then holdUnit s u (.bar gs false)
  else
    let fresh := { u.f with lanes := u.f.lanes &&& ~~~old }
    let g := putFrags u.g u.f.lanes [{ u.f.holding (.bar gs false) s.clock with lanes := old }, fresh]
    k (setGroup s u.key g) { u with g := g, f := fresh }

/-- BAR: the threads arrive and hold until the instance completes. -/
def barOp (s : State) (scope : Bool) : Out :=
  withIssue s (fun u =>
    let gs := gangBarrier s u.g scope
    .next (splitArrived s u gs (fun s u =>
      let g := setArrived u.g gs (arrivedBits u.g gs ||| u.f.lanes)
      let s := countArrival (setGroup s u.key g) g gs
      checkBarriers (holdUnit s u (.bar gs true)) u.g.gang)))

def execBar (s : State) : Out := barOp s false
def execBarG (s : State) : Out := barOp s true

/-- BARA: the threads arrive, take GEN and continue. -/
def baraOp (s : State) (d : Opnd) (scope : Bool) : Out :=
  withRegs s [(d, 1)] (fun u =>
    let gs := gangBarrier s u.g scope
    .next (splitArrived s u gs (fun s u =>
      let gen := (barrierOf s u.g gs).gen
      let g := setArrived u.g gs (arrivedBits u.g gs ||| u.f.lanes)
      let g := writeVec g d 1 u.f.lanes u.f.lanes false (fun _ => gen.setWidth 64)
      let s := countArrival (setGroup s u.key g) g gs
      checkBarriers (finish s u) u.g.gang)))

def execBara (d : Opnd) (s : State) : Out := baraOp s d false
def execBaraG (d : Opnd) (s : State) : Out := baraOp s d true

/-- BARW: the fragment holds until the generation of every thread has completed. -/
def barwOp (s : State) (a : Opnd) (scope : Bool) : Out :=
  withRegs s [(a, 1)] (fun u =>
    let gs := gangBarrier s u.g scope
    let gen := (barrierOf s u.g gs).gen
    let met := (lanesOf u.f.lanes).all (fun l =>
      let x := (gen - val32 u.g a l).toNat
      1 ≤ x && x ≤ 2 ^ 31)
    if met then .next (finish s u)
    else .next (checkBarriers (holdUnit s u (.barw gs (val32 u.g a (lowest u.f.lanes)).toNat)) u.g.gang))

def execBarw (a : Opnd) (s : State) : Out := barwOp s a false
def execBarwG (a : Opnd) (s : State) : Out := barwOp s a true

/-! ### EXIT (R78) -/

/-- A group whose last threads that had not arrived have exited arrives at a barrier (R236). -/
def exitArrival (s : State) (g : Group) (gs : Bool) : State := if groupArrived g gs then countArrival s g gs else s

/-- The pending async traps of a group whose threads have all exited are delivered at the gang rung (R410). -/
def flushPending (s : State) (key : Nat) : State :=
  match groupOf s key with
  | none => s
  | some g =>
    if liveLanes g != 0 then s
    else
      let s := setGroup s key { g with pending := [] }
      g.pending.foldl (fun s p => deliverGangTrap s g.gang p) s

def execExit (s : State) : Out :=
  withIssue s (fun u =>
    let g := putFrags { u.g with exited := u.g.exited ||| u.f.lanes } u.f.lanes []
    let s := setGroup s u.key g
    let s := exitArrival s g false
    let s := if gangBarrier s g true then exitArrival s g true else s
    .next (flushPending (checkBarriers (checkRendezvous s u.key) g.gang) u.key))

end Sys2Proof.Machine
end

