-- ==== Sys2Proof/Machine/Access.lean ====
section
/-!
DEFINITION. Lane accesses to memory (R25, R310 to R316, R328): the lanes of a word in ascending order up to the first that
fails, the operation that counts them, what they owe to registers, requests through apertures (R352, R353), and the reports
of core watchpoints (R462, R463).
-/
namespace Sys2Proof.Machine

open Sys2Proof

/-! ### What a lane's access did -/

/-- A performed lane: the value that it brings, whether it waits for a reply from beyond an aperture or for a spill entry, and
the bytes that it touched. -/
structure LaneRes where
  value : Option Nat
  sent  : Bool
  bytes : List Nat
deriving DecidableEq, Repr, Inhabited

abbrev LaneOut := State × Except (AccessOutcome × Nat) LaneRes

/-- The lanes of a word, in order, up to the first that fails with its outcome and address. -/
def runLanes (f : State → Nat → LaneOut) : State → List Nat → State × List (Nat × LaneRes) × Option (Nat × AccessOutcome × Nat)
  | s, [] => (s, [], none)
  | s, l :: ls =>
    match f s l with
    | (s, .error (o, va)) => (s, [], some (l, o, va))
    | (s, .ok r) =>
      let rest := runLanes f s ls
      (rest.1, (l, r) :: rest.2.1, rest.2.2)

/-! ### Counters of the clause (R19, R25) -/

def clauseSetA (f : Frag) : Option Nat :=
  match f.clause with
  | none => none
  | some c => if hdrSetA c.word ≤ 11 then some (hdrSetA c.word) else none

def clauseSetB (f : Frag) : Option Nat :=
  match f.clause with
  | none => none
  | some c => if hdrSetB c.word ≤ 11 then some (hdrSetB c.word) else none

/-- A counter that an issue would take above 255 (R216). -/
def counterFull (g : Group) (k : Option Nat) : Option Nat :=
  match k with
  | none => none
  | some k => if 255 ≤ (counterOf g k).val then some k else none

/-! ### Register writes that an operation owes (R27, R31) -/

/-- What a lane's value writes: the registers of its lane, or the scalar for the lowest Active lane of the word. -/
def owedOf (key : Nat) (d : Opnd) (n first ln value : Nat) : List Owed :=
  if isScalar d then (if ln = first then [⟨key, 64, scalarNo d, BitVec.ofNat 64 value, ln⟩] else [])
  else (List.range n).map (fun i => ⟨key, ln, d.toNat + i, BitVec.ofNat 64 (bits value (32 * i) 32), ln⟩)

/-- Register writes of an operation: owed until its end when it is counted, or when a peer may still refuse a lower lane; made at
once otherwise. -/
def giveOwed (s : State) (id : Nat) (counted : Bool) (xs : List Owed) : State :=
  if counted then { s with ops := tmod s.ops id (fun o => { o with owed := o.owed ++ xs }) } else xs.foldl landOwed s

/-- Register writes of an operation at a reply that comes after its word: owed, or made at once. -/
def giveLate (s : State) (id : Nat) (counted : Bool) (xs : List Owed) : State :=
  if counted then giveOwed s id true xs else xs.foldl landLate s

/-! ### Parts of an operation that are still to happen -/

/-- A peer has not answered every request of an operation. -/
def peerOpen (s : State) (id : Nat) : Bool := s.requests.any (fun r => r.op == some id && r.peer.isSome)

/-- The fragments that hold for an operation pass on, and what it still owes is written when no counter counts it. -/
def passScoped (s : State) (id : Nat) : State :=
  match tfind s.ops id with
  | none => s
  | some o =>
    let s := modGroup s o.group (fun g => { g with frags := g.frags.map (fun f => match f.hold with
      | .scoped x n => if x = id then f.past n s.clock else f
      | _ => f) })
    if o.counter.isNone then opHappened (landAll s id) id else s

/-- The fragments that hold for the lower lanes of an operation, of which a higher one has failed, issue its word again. -/
def wakeScoped (s : State) (id : Nat) : State :=
  match tfind s.ops id with
  | none => s
  | some o => modGroup s o.group (fun g => { g with frags := g.frags.map (fun f => match f.hold with
      | .scoped x _ => if x = id then f.holding .ready s.clock else f
      | _ => f) })

/-- One part of an operation has happened, with error status or without: the last one lets its fragment go on. -/
def partHappened (s : State) (id : Nat) (err : Bool) : State :=
  let s := { s with ops := tmod s.ops id (fun o => { o with waits := o.waits - 1, err := o.err || err }) }
  match tfind s.ops id with
  | none => s
  | some o => if o.waits != 0 then s else if o.issued then passScoped s id else wakeScoped s id

/-- The parts of an operation that its lanes have begun. -/
def addWaits (s : State) (id n : Nat) : State := { s with ops := tmod s.ops id (fun o => { o with waits := o.waits + n }) }

/-! ### Requests through apertures (R352, R353, R356) -/

/-- Host-scope stores that wait to be transmitted are, in the order of their issue. -/
def transmit (s : State) (p : Request → Bool) : State :=
  let now := s.requests.filter (fun r => r.kind == 1 && r.peer.isNone && !r.sent && p r)
  let s := { s with requests := s.requests.filter (fun r => !(r.kind == 1 && r.peer.isNone && !r.sent && p r)),
                    sent := s.sent ++ now.map (fun r => .hostWrite r.addr r.data false r.ordered) }
  now.foldl (fun s r => match r.op with
    | none => s
    | some id => partHappened s id false) s

/-- Stores to the host that have gone out before a message have happened. -/
def settleTransmitted (s : State) : State :=
  let out := fun (r : Request) => r.kind == 1 && r.peer.isNone && r.sent
  let now := s.requests.filter out
  if now.isEmpty then s
  else
    now.foldl (fun s r => match r.op with
      | none => s
      | some id => partHappened s id false) { s with requests := s.requests.filter (fun r => !out r) }

/-- A request of a lane: it is sent after the lane's earlier stores to the host. -/
def laneRequest (s : State) (u : Issue) (r : Request) (mask : Nat) : State :=
  let s := if r.peer.isNone && r.kind != 1 then transmit s (fun x => x.group == u.key && x.lane == r.lane) else s
  sendRequest s { r with group := u.key, word := u.f.pc } mask 0

/-! ### Local accesses -/

/-- The tracker counts an access that reaches a slice (R307); a load may end in the L1 cache. -/
def noteFrame (s : State) (part dpa : Nat) (sure : Bool) : State :=
  if (hotOf s.mem part).en then
    let n := tget 0 s.mem.counts (dpa / 65536)
    let s := { s with tick := s.tick + 1 }
    if sure || Config.freeBool s.tick then
      { s with mem := { s.mem with counts := tset 0 s.mem.counts (dpa / 65536) (min 65535 (n + 1)) } }
    else s
  else s

/-! ### Engine writes that a wait has ordered for a thread (R232, R350) -/

/-- The bytes that memory holds in a unit. -/
def unitNow (s : State) : Loc → List Byte
  | .ma a => s.mem.bytesAt a 16
  | .sva uid a =>
    (match svaRead s uid a 16 with
     | .bytes bs => bs
     | _ => List.replicate 16 0)
  | _ => List.replicate 16 0

/-- The bytes that a load of a unit by the thread returns where such writes stand there, and whether they are poisoned. -/
def coveredBytes (s : State) (key ln : Nat) (loc : Loc) (off n : Nat) : Option (List Byte × Bool) :=
  (coveredUnit s key ln loc (unitNow s loc)).map (fun x => ((x.1.drop off).take n, x.2))

/-- Before a thread writes a unit, the engine writes there that its waits cover reach their global places. -/
def placeCovered (s : State) (key ln : Nat) (loc : Loc) : State :=
  if s.places.isEmpty then s
  else
    match groupOf s key with
    | none => s
    | some g => applyPlaces s (coveredHere g ln loc)

/-- The addresses of a run of bytes. -/
def bytesFrom (va n : Nat) : List Nat := (List.range n).map (fun i => va + i)

/-- A load's value: zero-extended, or sign-extended to 32 bits (R311). -/
def loadValue (sgn : Bool) (n x : Nat) : Nat := if sgn then wrap 32 (signed (8 * n) x) else x

/-! ### Watchpoints (R462, R463) -/

/-- The bytes of an access that a comparator matches: `kind` is the bit of KIND. -/
def watchedBytes (c : Comparator) (ctx seq kind : Nat) (bytes : List Nat) : List Nat :=
  let addr := field c.desc 0 8
  let len := field c.desc 8 2
  if c.en && field c.desc 12 1 == ctx && bit (field c.desc 13 1) kind &&
      (field c.desc 16 8 == 0 || field c.desc 16 8 == seq)
  then bytes.filter (fun b => addr ≤ b && b < addr + len && bit (field c.desc 10 2) (b % 16))
  else []

/-- The precise report of a word whose lanes have been performed: KIND 0 store, 1 atomic, 2 load. -/
def watch (s : State) (u : Issue) (kind : Nat) (rs : List (Nat × LaneRes)) : State :=
  let core := coreOfKey u.key
  let cs := (coreOf s core).data.filter (fun c => c.2.en)
  if cs.isEmpty || u.g.mode.isSome || ((gangOf s u.g.gang).bind (·.mode)).isSome then s
  else
    match launchOfGroup s u.g with
    | none => s
    | some l =>
      match rs.findSome? (fun r => cs.findSome? (fun c =>
          let hit := watchedBytes c.2 l.ctx l.seq kind r.2.bytes
          if hit.isEmpty then none else some (r.1, c.1, c.2, hit))) with
      | none => s
      | some (ln, i, c, hit) =>
        let p := codePos s (some l) u.f.pc
        let lo := hit.foldl min (hit.headD 0)
        let word : Dword := BitVec.ofNat 64 (reportBytes hit + 2 ^ 16 * ln + 2 ^ 22 + 2 ^ 23 * i + 2 ^ 29 * kind +
          2 ^ 32 * min 4095 p.2 + 2 ^ 44 * (p.1 % 2 ^ 20))
        let x := coreOf s core
        let s := setCore s core { x with data := tput x.data i (c.reported word) }
        let s := addPending s u.key ⟨23, BitVec.ofNat 64 lo, word, 0, none, none⟩
        traceRecord s u.key 5 ln u.f.pc 0 word

/-! ### The word -/

/-- What a memory word is: its prefix, the counter of its clause, whether it is a load, KIND for watchpoints, its destination
and how many registers that has, whether other lanes are zeroed, whether it acquires, whether only its lowest Active lane
accesses, and whether its lanes are no accesses that others may stand between. -/
structure LaneWord where
  p       : Option Pfx
  counter : Option Nat
  load    : Bool
  kind    : Nat
  d       : Opnd
  n       : Nat
  z       : Bool := false
  acquire : Bool := false
  single  : Bool := false
  whole   : Bool := false
deriving DecidableEq, Repr, Inhabited

/-- The lanes that a word accesses for. -/
def accessLanes (u : Issue) (k : LaneWord) : Dword :=
  let act := execLanes u k.p
  if k.single then (if act = 0 then 0 else laneBit (lowest act)) else act

/-- The zeros that lanes of the fragment that are not Active take under z (R112), on the word's first issue. -/
def zeroedLanes (u : Issue) (k : LaneWord) : List Owed :=
  if !k.load || !k.z || isScalar k.d || !u.f.fresh then []
  else (lanesOf (u.f.lanes &&& ~~~(execLanes u k.p))).flatMap (fun l => owedOf u.key k.d k.n 64 l 0)

/-- The lane whose value a scalar destination takes: the lowest that the word executes, unless the lowest Active lane at its first issue
has been performed (R418). -/
def scalarLane (u : Issue) (p : Option Pfx) : Nat :=
  if u.f.fresh || u.f.pix ≤ u.f.first then lowest (execLanes u p) else 64

/-- Whether an operation's lanes below one that fails have still to be answered, where they acquire or a peer may refuse them: the lane's
outcome comes after theirs (R328, R357). -/
def lowerOpen (s : State) (k : LaneWord) (id : Nat) : Bool :=
  ((tfind s.ops id).map (·.waits)).getD 0 != 0 && (k.acquire || peerOpen s id)

/-- Whether a counted word goes on before peers have answered it. It may where none of them will refuse it, since a refusal is a trap at
the issuing word (R375) and nothing else orders its accesses against later ones (R353): which it is, is a draw (log entry 33). -/
def goesOn (s : State) (k : LaneWord) (id : Nat) : State × Bool :=
  if k.counter.isSome && !k.acquire && peerOpen s id && !s.requests.any (fun r => r.op == some id && r.refused) then
    let sure := Config.freeBool s.tick
    ({ s with tick := s.tick + 1, ops := tmod s.ops id (fun o => { o with sure := sure }) }, sure)
  else (s, k.counter.isSome && !k.acquire && !peerOpen s id)

/-- The word is done, or waits for its parts when it is not counted, acquires, or may be refused by a peer. -/
def endLanes (s : State) (u : Issue) (k : LaneWord) (id : Nat) : State :=
  let s := { s with ops := tmod s.ops id (fun o => { o with issued := true }) }
  let waits := ((tfind s.ops id).map (·.waits)).getD 0
  let r := goesOn s k id
  let s := r.1
  if waits != 0 && !r.2 then holdUnit s u (.scoped id u.words.length)
  else
    let s := finish s u
    if k.counter.isNone then opHappened s id else s

/-- The lanes that a word performs now, and the lane that it then breaks off before, if accesses of others are to stand there (R344). -/
def splitLanes (s : State) (k : LaneWord) (ls : List Nat) : List Nat × Option Nat :=
  match s.cut with
  | none => (ls, none)
  | some c => if k.whole || ls.all (c ≤ ·) then (ls, none) else (ls.filter (· < c), ls.find? (c ≤ ·))

/-- A memory word: its lanes are performed in ascending order, counted as one operation (R25, R311, R328, R344). -/
def laneWord (s : State) (u : Issue) (k : LaneWord) (f : Nat → Nat → State → Nat → LaneOut) : Out :=
  if execLanes u k.p = 0 then
    let s := (zeroedLanes u k).foldl landOwed s
    .next (match u.f.op with
      | some id => endLanes s u k id
      | none => finish s u)
  else
    match u.f.op, counterFull u.g k.counter with
    | none, some _ => .next (holdUnit s u .unit)
    | _, _ =>
      let r0 : State × Nat := match u.f.op with
        | some id => (s, id)
        | none => countOp s u.key k.counter k.load 0 []
      let id := r0.2
      let first := scalarLane u k.p
      let ls := splitLanes s k (lanesOf (accessLanes u k))
      let r := runLanes (f id first) r0.1 ls.1
      let s := watch r.1 u k.kind r.2.1
      let owed := if k.load then r.2.1.flatMap (fun x => match x.2.value with
        | none => []
        | some v => owedOf u.key k.d k.n first x.1 v) else []
      let s := if k.load && isScalar k.d then noteSeen s u.key (lowest u.f.lanes) u.f.pc
        (r.2.1.filterMap (fun x => x.2.value.map (fun v => (x.1, BitVec.ofNat 64 v)))) else s
      let s := giveOwed s id (k.counter.isSome || peerOpen s id) (zeroedLanes u k ++ owed)
      let s := addWaits s id (r.2.1.filter (fun x => x.2.sent)).length
      let s := if k.acquire then { s with ops := tmod s.ops id (fun o => { o with acquire := true }) } else s
      match r.2.2, ls.2 with
      | some (l, o, va), _ =>
        if lowerOpen s k id then .next (stopFrag s u.key u.f.lanes l first (some id) (.scoped id u.words.length))
        else .next (takeOutcome s u.key u.f.lanes u.words.length o va l l first (some id))
      | none, some l => .next (stopFrag s u.key u.f.lanes l first (some id) (.between u.f.pixAfter (operandsOf u.g u.words)))
      | none, none => .next (endLanes s u k id)

/-! ### Addresses (R311) -/

/-- The address of a lane: the base plus the offset in units of the size, exact. -/
def laneAddr (g : Group) (a b : Opnd) (size l : Nat) : Nat := (val64 g a l).toNat + size * b.toNat

/-- The misaligned-access trap of the lowest Active lane whose address is not a multiple of the size. -/
def alignTrap (u : Issue) (p : Option Pfx) (size : Nat) (addr : Nat → Nat) : Option Trap :=
  ((lanesOf (execLanes u p)).find? (fun l => addr l % size != 0)).map (fun l =>
    { cls := 8, info0 := BitVec.ofNat 64 (addr l), info1 := BitVec.ofNat 64 l, pix := if u.f.resumed then u.f.pix else 0 })

/-- A memory word whose registers are checked, over the unit as it reads its operands. -/
def withReads (s : State) (rs : List (Opnd × Nat)) (k : Issue → Out) : Out := withRegs s rs (fun u => k u.asRead)

/-- A word whose registers and then whose alignment are checked before any lane is performed. -/
def alignedWord (s : State) (p : Option Pfx) (regs : List (Opnd × Nat)) (size : Nat) (addr : Group → Nat → Nat)
    (k : Issue → Out) : Out :=
  withReads s regs (fun u => match alignTrap u p size (addr u.g) with
    | some t => .next (raise s u t)
    | none => k u)

/-! ### One lane of a load and of a store -/

/-- The outcome of a lane's failed check, at its address. -/
def laneBad (s : State) (b : XBad) (va : Nat) (k : Kind) (ln : Nat) : LaneOut := (s, .error (outcomeOf b va k ln, va))

/-- The runs of bytes that a word's Active lanes touch, for its grains (R316). -/
def wordRuns (u : Issue) (p : Option Pfx) (n : Nat) (addr : Nat → Nat) : List (Nat × Nat) :=
  (lanesOf (execLanes u p)).map (fun l => (addr l, n))

/-- The grain of a word that holds an access at `va` is fetched from the line of memory that the address translates to. -/
def fetchFor (s : State) (die va ma : Nat) (runs : List (Nat × Nat)) : State :=
  fetchGrain s die (ma / 128) (grainOf (touchedIn (va / 128) runs))

/-- What a store's word needs of the line of one of its lanes is fetched before the first of its lanes there writes. -/
def fetchOnce (s : State) (u : Issue) (p : Option Pfx) (die va ma n : Nat) (addr : Nat → Nat) (ln : Nat) : State :=
  if (lanesOf (execLanes u p)).any (fun l => decide (l < ln) && addr l / 128 == va / 128) then s
  else fetchFor s die va ma (wordRuns u p n addr)

/-- One lane of a load of `n` bytes, of a word that touches `runs`. -/
def loadLane (u : Issue) (w : Who) (d : Opnd) (regs n : Nat) (sgn acq : Bool) (runs : List (Nat × Nat)) (va : Nat) (id first : Nat)
    (s : State) (ln : Nat) : LaneOut :=
  match translate s w .load false va with
  | (s, .error b) => laneBad s b va .load ln
  | (s, .ok (e, .dev dpa ma)) =>
    let s := noteLoad (if acq then noteAcquire s u.key ln else s) u.key ln (.ma (16 * (ma / 16))) (ma % 16) n
    (match captured s u.key ln (LeafCap e) .load n (fun s =>
        let s := fetchFor (noteFrame s w.part dpa false) (writerOf w.core) va ma runs
        match coveredBytes s u.key ln (.ma (16 * (ma / 16))) (ma % 16) n with
        | some (bs, poison) => (s, if poison then .error (.consume va, va) else .ok (leNat bs))
        | none => if s.mem.marked ma n then (s, .error (.consume va, va)) else (s, .ok (leNat (s.mem.bytesAt ma n)))) with
     | (s, .error x) => (s, .error x)
     | (s, .ok x) => (s, .ok ⟨some (loadValue sgn n x), false, bytesFrom va n⟩))
  | (s, .ok (_, .peer dev dpa)) =>
    let lands := if isScalar d && ln != first then 0 else regs
    (laneRequest s u { plainRequest 0 (some dev) dpa n [] with
        lane := ln, reg := d.toNat, regs := lands, op := some id, signed := sgn, va := va, first := first } 0,
      .ok ⟨none, true, bytesFrom va n⟩)
  | (s, .ok (_, .host addr)) =>
    let lands := if isScalar d && ln != first then 0 else regs
    (laneRequest s u { plainRequest 0 none addr n [] with
        lane := ln, reg := d.toNat, regs := lands, op := some id, signed := sgn, va := va, first := first } 0,
      .ok ⟨none, true, bytesFrom va n⟩)

/-- Bytes merged under a nibble mask (R313). -/
def mergeNibbles (mask : Nat) (new old : List Byte) : List Byte :=
  (List.range new.length).map (fun i =>
    let n := (new[i]?).getD 0
    let o := (old[i]?).getD 0
    (if bit mask (2 * i) then n &&& 0x0F else o &&& 0x0F) ||| (if bit mask (2 * i + 1) then n &&& 0xF0 else o &&& 0xF0))

/-- The parts of a word that a nibble mask leaves to be sent to a peer: a flit carries the mask of four nibbles (R373), so each
half of the word is a request of its own. -/
def nibbleHalves (mask : Nat) (bs : List Byte) : List (Nat × Nat × List Byte) :=
  [(0, mask % 16, bs.take 2), (2, mask / 16 % 16, bs.drop 2)].filter (fun x => x.2.1 != 0)

/-- The bytes of a word that a nibble mask sends to the host, by offset. A byte of which one nibble is kept cannot be written in
part on the host link; the manual states no way, so the kept nibble that is written is a free value. -/
def nibbleBytes (tick mask : Nat) (bs : List Byte) : List (Nat × List Byte) :=
  (List.range 4).filterMap (fun i =>
    let m := bits mask (2 * i) 2
    if m = 0 then none else some (i, mergeNibbles m [(bs[i]?).getD 0] [BitVec.ofNat 8 (Config.freeChoice (tick + i))]))

/-- One lane of a store at its address; `nib` is the nibble mask of STN. -/
def storeLane (u : Issue) (p : Option Pfx) (w : Who) (bs : List Byte) (nib : Option Nat) (rel : Bool) (addr : Nat → Nat) (id : Nat)
    (s : State) (ln : Nat) : LaneOut :=
  let va := addr ln
  let touched := match nib with
    | none => bytesFrom va bs.length
    | some m => (List.range 4).filterMap (fun i => if bits m (2 * i) 2 = 0 then none else some (va + i))
  match translate s w .store false va with
  | (s, .error b) => laneBad s b va .store ln
  | (s, .ok (_, .dev dpa ma)) =>
    let s := fetchOnce (placeCovered (noteFrame s w.part dpa true) u.key ln (.ma (16 * (ma / 16)))) u p (writerOf w.core) va ma bs.length addr ln
    let s := match nib with
      | none => storeLocal s (writerOf w.core) ma bs
      | some m =>
        let s := fetchLines s (writerOf w.core) ma 4
        if m % 256 = 0 then s else storeLocal s (writerOf w.core) ma (mergeNibbles m bs (s.mem.bytesAt ma 4))
    (noteWrite s u.key ln, .ok ⟨none, false, touched⟩)
  | (s, .ok (_, .peer dev dpa)) =>
    let reqs := match nib with
      | none => [(0, 0, bs)]
      | some m => nibbleHalves m bs
    let s := reqs.foldl (fun s x => laneRequest s u { plainRequest 1 (some dev) (dpa + x.1) x.2.2.length x.2.2 with
      lane := ln, op := some id, va := va } x.2.1) s
    -- The lane's parts beyond the first, which `laneWord` counts, are counted here.
    (addWaits (noteWrite s u.key ln) id (reqs.length - 1), .ok ⟨none, !reqs.isEmpty, touched⟩)
  | (s, .ok (_, .host addr)) =>
    let reqs := match nib with
      | none => [(0, bs)]
      | some m => nibbleBytes s.tick m bs
    let ordered := rel || lane u.g.fenced ln
    let s := reqs.foldl (fun s x => laneRequest s u { plainRequest 1 none (addr + x.1) x.2.length x.2 with
      lane := ln, op := some id, va := va, ordered := ordered } 0) { s with tick := s.tick + 4 }
    (addWaits (noteWrite s u.key ln) id (reqs.length - 1), .ok ⟨none, !reqs.isEmpty, touched⟩)

/-! ### Replies -/

/-- The reply to a lane's load or atomic: its registers take the value, which an acquire orders later engine reads after (R357), and one
part of its operation has happened. -/
def replied (s : State) (r : Request) (bs : List Byte) : State :=
  let s := { s with requests := s.requests.filter (fun x => x.tag != r.tag) }
  match r.op with
  | none => s
  | some id =>
    let v := loadValue r.signed r.size (leNat (bs.take r.size))
    let s := match r.log, groupOf s r.group with
      | some place, some g => fillEntry s r.group g r.lane place .atomic r.size v
      | _, _ => s
    let d : Opnd := BitVec.ofNat 8 r.reg
    let xs := if r.regs = 0 then [] else owedOf r.group d r.regs r.lane r.lane v
    let counted := ((tfind s.ops id).map (·.counter.isSome)).getD false
    let s := if ((tfind s.ops id).map (·.acquire)).getD false then noteAcquire s r.group r.lane else s
    let s := if isScalar d then noteSeen s r.group r.lane r.word [(r.lane, BitVec.ofNat 64 v)] else s
    partHappened (giveLate s id (counted || r.peer.isSome) xs) id false

end Sys2Proof.Machine
end

