-- ==== Sys2Proof/Machine/Typed.lean ====
section
/-!
DEFINITION. Typed access to memory (R103 to R107, R315): the format, geometry and scale of one element, and its load and store.
-/
namespace Sys2Proof.Machine

open Sys2Proof

/-- The format of a leaf's FMT code; none for raw and the codes that no format has (R103). -/
def fmtOfCode : Nat → Option Fmt
  | 1 => some .f32
  | 2 => some .bf16
  | 3 => some .f16
  | 4 => some .e4m3
  | 5 => some .e5m2
  | 6 => some .e2m1
  | 7 => some .h4
  | 8 => some .i8
  | 9 => some .i32
  | _ => none

/-- Rows and columns of a block geometry (R102, R103). -/
def geomShape : Nat → Nat × Nat
  | 1 => (1, 32)
  | 2 => (1, 128)
  | 3 => (128, 128)
  | _ => (1, 1)

/-- The 32 bytes of a scale companion descriptor as an access may read them: one whole value (R104, R107). -/
def readDescriptor (s : State) (w : Who) (sci : Nat) : State × XResult Nat :=
  match readCtxWord s w (ctxRecord s w.ctx + 8) with
  | (s, .error b) => (s, .error b)
  | (s, .ok table) => if table % 8192 != 0 then (s, .error (.cause 3)) else readDescriptorAt s w (table + 32 * sci)

/-- Whether a descriptor serves an access at a byte address (R105). -/
def descriptorOk (x addr : Nat) : Bool :=
  let fp32 := bits x 192 8 == 0
  bits x 200 8 == 1 && bits x 192 8 ≤ 1 && bits x 128 32 != 0 && bits x 208 48 == 0 && bits x 64 64 ≤ addr &&
  (!fp32 || (bits x 0 64 % 4 == 0 && bits x 160 32 % 4 == 0))

/-- The address of an element's scale and whether it is E8M0 (R105). -/
def scaleAddr (x geom : Nat) (f : Fmt) (addr h : Nat) : Nat × Bool :=
  let e := ((addr - bits x 64 64) * 8 + 4 * h) / f.bits
  let row := e / bits x 128 32
  let col := e % bits x 128 32
  let shape := geomShape geom
  let e8m0 := bits x 192 8 == 1
  (bits x 0 64 + row / shape.1 * bits x 160 32 + col / shape.2 * (if e8m0 then 1 else 4), e8m0)

/-- An element that an access may use: its format, byte address, nibble, machine address, frame, capture mark and scale. -/
structure Element where
  fmt   : Fmt
  va    : Nat
  h     : Nat
  dpa   : Nat
  ma    : Nat
  cap   : Bool
  scale : Exact
deriving DecidableEq, Repr, Inhabited

/-- Bytes that an element takes in memory. -/
def Element.size (x : Element) : Nat := (x.fmt.bits + 7) / 8

/-- Why a typed access fails, with the address and the kind of the access that failed. -/
abbrev TypedResult (α : Type) := Except (XBad × Nat × Kind) α

/-- The scale of an element (R105): 1 where the page has no geometry. It is read by an ordinary load (R107), and its faults are
reported against the typed access. -/
def elementScale (s : State) (w : Who) (k : Kind) (e : Dword) (f : Fmt) (va h desc : Nat) : State × TypedResult Exact :=
  if LeafGeom e = 0 then (s, .ok (.ofRat 1))
  else
    let p := scaleAddr desc (LeafGeom e) f va h
    match loadBytes s w .load p.1 (if p.2 then 1 else 4) with
    | (s, .error b) => (s, .error (b, va, k))
    | (s, .ok bs) => (s, .ok (scaleOf p.2 (leNat bs)))

/-- The element at a byte address, or at a nibble address when `nib`, with every check of R327 and R315 in order. -/
def elementAt (s : State) (w : Who) (k : Kind) (nib : Bool) (addr : Nat) : State × TypedResult Element :=
  let va := if nib then addr / 2 else addr
  let h := if nib then addr % 2 else 0
  match leafOf s w k true va with
  | (s, .error b) => (s, .error (b, va, k))
  | (s, .ok e) =>
    match fmtOfCode (LeafFmt e) with
    | none => (s, .error (.cause 8, va, k))
    | some f =>
      if (f.bits == 4) != nib || va % ((f.bits + 7) / 8) != 0 then (s, .error (.cause 8, va, k))
      else
        match (if LeafGeom e = 0 then (s, Except.ok 0) else readDescriptor s w (LeafSci e)) with
        | (s, .error b) => (s, .error (b.seenAt va, va, k))
        | (s, .ok desc) =>
          if LeafGeom e != 0 && !descriptorOk desc va then (s, .error (.cause 8, va, k))
          else
            match destOf s w e va with
            | .error b => (s, .error (b, va, k))
            | .ok (.dev dpa ma) =>
              (match elementScale s w k e f va h desc with
               | (s, .error b) => (s, .error b)
               | (s, .ok scale) => (s, .ok ⟨f, va, h, dpa, ma, LeafCap e, scale⟩))
            | .ok _ => (s, .error (.cause 8, va, k))

/-- The runs of bytes that some lanes of a typed word touch (R316). -/
def elementRuns (s : State) (u : Issue) (k : Kind) (p : Option Pfx) (a : Opnd) (ls : List Nat) : List (Nat × Nat) :=
  ls.filterMap (fun l =>
    match (elementAt s ((whoGroup s u.key u.g).ofThread u.key l) k (bit (auxOf p) 0) (val64 u.g a l).toNat).2 with
    | .ok x => some (x.va, x.size)
    | .error _ => none)

/-- The pattern of an element in its bytes. -/
def Element.pattern (x : Element) (v : Nat) : Nat := if x.fmt.bits = 4 then bits v (4 * x.h) 4 else v

/-- The pattern that a typed store writes for an exact value (R106). -/
def storedPattern (f : Fmt) (sat : Bool) (rm : Round) (draw : Nat) (x scale : Exact) : Nat :=
  if noQuotient x scale then f.nanCode else roundFmt f sat rm draw (x.div scale)

/-- An element's pattern is stored by a writer; a 4-bit one is merged with the other nibble of its byte (R346). -/
def storeElement (s : State) (w : Nat) (x : Element) (pattern : Nat) : State :=
  if x.fmt.bits = 4 then
    let s := fetchLines s w x.ma 1
    let b := leNat (s.mem.bytesAt x.ma 1)
    storeLocal s w x.ma (leBytes 1 (b - bits b (4 * x.h) 4 * 2 ^ (4 * x.h) + pattern * 2 ^ (4 * x.h)))
  else storeLocal s w x.ma (leBytes x.size pattern)

end Sys2Proof.Machine
end

