-- ==== Sys2Proof/Machine/Atomic.lean ====
section
/-!
DEFINITION. Global atomics (R317, R318), with the requests that they are behind an aperture (R376).
-/
namespace Sys2Proof.Machine

open Sys2Proof

/-! ### What an atomic computes (R318) -/

/-- Bytes of an atomic's operand by its operation, in the code of AOP (R373), and its aux8 type. -/
def atomBytes (op ty : Nat) : Nat :=
  match op with
  | 1 | 2 => if ty % 2 = 1 then 8 else 4
  | 8 | 9 | 10 | 11 => 4
  | _ => if ty = 1 then 8 else 4

/-- Whether R317 lists the type for the operation. -/
def atomTypeOk (op ty : Nat) : Bool :=
  match op with
  | 1 | 2 => ty ≤ 3
  | 8 | 10 | 11 => ty == 0
  | _ => op ≤ 11 && ty ≤ 1

/-- The sum of two patterns, rounded to nearest even. -/
def addPatterns (f : Fmt) (x y : Nat) : Nat := roundFmt f false .rne 0 (sumExact false [decodeFmt f x, decodeFmt f y])

/-- The new value of an atomic, from the old value, the operand and the fourth operand. -/
def atomNew (op ty old b c : Nat) : Nat :=
  let n := 8 * atomBytes op ty
  let lt := fun (x y : Nat) => if ty < 2 then decide (signed n x < signed n y) else decide (x < y)
  match op with
  | 0 => (old + b) % 2 ^ n
  | 1 => if lt b old then b else old
  | 2 => if lt old b then b else old
  | 3 => b
  | 4 => old.land b
  | 5 => old.lor b
  | 6 => old.xor b
  | 7 => if old = c then b else old
  | 8 => addPatterns .f32 old b
  | 9 =>
    let f : Fmt := if ty = 0 then .bf16 else .f16
    addPatterns f (old % 65536) (b % 65536) + 65536 * addPatterns f (old / 65536) (b / 65536)
  | 10 => pickFloat .f32 false old b
  | _ => pickFloat .f32 true old b

/-! ### One lane -/

/-- An operand of an atomic. -/
def atomOperand (g : Group) (x : Opnd) (n l : Nat) : Nat := if n = 8 then (val64 g x l).toNat else (val32 g x l).toNat

/-- What an atomic request carries: the operand, and the expected value from byte 16 on. -/
def atomData (op n b c : Nat) : List Byte :=
  if op = 7 then leBytes n b ++ leBytes (16 - n) 0 ++ leBytes n c else leBytes n b

/-- An atomic request of a lane. Its old value takes its place in the capture log now, and in replay it comes from there. -/
def atomRequest (s : State) (u : Issue) (r : Request) (ln n va : Nat) : LaneOut :=
  if replaying s u.key then
    match captured s u.key ln true .atomic n (fun s => (s, .ok 0)) with
    | (s, .error e) => (s, .error e)
    | (s, .ok old) => (s, .ok ⟨some old, false, bytesFrom va n⟩)
  else
    let t : State × Option Nat := match groupOf s u.key with
      | none => (s, none)
      | some g => if captureMode s g = 1 then reserveEntry s u.key g else (s, none)
    (laneRequest (noteWrite t.1 u.key ln) u { r with lane := ln, va := va, log := t.2 } 0, .ok ⟨none, true, bytesFrom va n⟩)

/-- One lane of an atomic: one indivisible read and write. -/
def atomLane (u : Issue) (op ty : Nat) (d b c : Opnd) (runs : List (Nat × Nat)) (va : Nat) (id first : Nat) (s : State) (ln : Nat) : LaneOut :=
  let w := whoGroup s u.key u.g
  let n := atomBytes op ty
  let x := atomOperand u.g b n ln
  let y := atomOperand u.g c n ln
  let lands := if isScalar d && ln != first then 0 else n / 4
  let request := fun (peer : Option Nat) (addr : Nat) =>
    { plainRequest 2 peer addr n (atomData op n x y) with aop := op + 16 * ty, reg := d.toNat, regs := lands, op := some id, first := first }
  match translate s w .atomic false va with
  | (s, .error e) => laneBad s e va .atomic ln
  | (s, .ok (_, .dev dpa ma)) =>
    (match captured s u.key ln true .atomic n (fun s =>
        let s := fetchFor (placeCovered (noteFrame s w.part dpa true) u.key ln (.ma (16 * (ma / 16)))) (writerOf w.core) va ma runs
        if s.mem.marked ma n then (s, .error (.consume va, va)) else (s, .ok (leNat (s.mem.bytesAt ma n)))) with
     | (s, .error e) => (s, .error e)
     | (s, .ok old) =>
       let s := if replaying s u.key then s else storeLocal s (writerOf w.core) ma (leBytes n (atomNew op ty old x y))
       (noteWrite s u.key ln, .ok ⟨some old, false, bytesFrom va n⟩))
  | (s, .ok (_, .peer dev dpa)) => atomRequest s u (request (some dev) dpa) ln n va
  | (s, .ok (_, .host addr)) =>
    if op = 0 || op = 3 || op = 7 then atomRequest s u (request none addr) ln n va
    else laneBad s (.cause 7) va .atomic ln

/-! ### The words -/

/-- An atomic of an operation: its type is aux8. -/
def atomWord (s : State) (p : Option Pfx) (d a b : Opnd) (op : Nat) : Out :=
  let ty := aux8Of p
  let n := atomBytes op ty
  let regs := n / 4
  let cs := if hasC p then [(cOf p, regs)] else []
  alignedWord s p ([(d, regs), (a, 2), (b, regs)] ++ cs) n (fun g l => laneAddr g a 0 n l) (fun u =>
    laneWord s u { p := p, counter := clauseSetA u.f, load := true, kind := 1, d := d, n := regs }
      (fun id first s l => atomLane u op ty d b (cOf p) (wordRuns u p n (laneAddr u.g a 0 n)) (laneAddr u.g a 0 n l) id first s l))

def execAtomAdd (p : Option Pfx) (d a b : Opnd) (s : State) : Out := atomWord s p d a b 0
def execAtomMin (p : Option Pfx) (d a b : Opnd) (s : State) : Out := atomWord s p d a b 1
def execAtomMax (p : Option Pfx) (d a b : Opnd) (s : State) : Out := atomWord s p d a b 2
def execAtomExch (p : Option Pfx) (d a b : Opnd) (s : State) : Out := atomWord s p d a b 3
def execAtomAnd (p : Option Pfx) (d a b : Opnd) (s : State) : Out := atomWord s p d a b 4
def execAtomOr (p : Option Pfx) (d a b : Opnd) (s : State) : Out := atomWord s p d a b 5
def execAtomXor (p : Option Pfx) (d a b : Opnd) (s : State) : Out := atomWord s p d a b 6
def execAtomCas (p : Option Pfx) (d a b : Opnd) (s : State) : Out := atomWord s p d a b 7
def execAtomFadd (p : Option Pfx) (d a b : Opnd) (s : State) : Out := atomWord s p d a b 8
def execAtomFadd2 (p : Option Pfx) (d a b : Opnd) (s : State) : Out := atomWord s p d a b 9
def execAtomFmin (p : Option Pfx) (d a b : Opnd) (s : State) : Out := atomWord s p d a b 10
def execAtomFmax (p : Option Pfx) (d a b : Opnd) (s : State) : Out := atomWord s p d a b 11

end Sys2Proof.Machine
end

