-- ==== Sys2Proof/Machine/Scratch.lean ====
section
/-!
DEFINITION. Scratchpad access and mapping words (R193 to R197, R202 to R211): LDS, STS, ATOMS, SPMAP, SPUNMAP, SPPIN and SPQUERY.
-/
namespace Sys2Proof.Machine

open Sys2Proof

/-! ### Addresses (R203) -/

def svaOf (g : Group) (a b : Opnd) (size l : Nat) : Nat :=
  (if isScalar a then (sreg g (scalarNo a)).toNat else (vreg g a.toNat l).toNat) + size * b.toNat

/-- SCRATCH of a group's launch. -/
def scratchOf (s : State) (g : Group) : Nat := ((launchOfGroup s g).map recScratch).getD 0

/-- A scratchpad word, its registers checked, then the SVA of every Active lane. -/
def scratchWord (s : State) (p : Option Pfx) (regs : List (Opnd × Nat)) (size : Nat) (addr : Group → Nat → Nat) (k : Issue → Out) :
    Out :=
  withReads s regs (fun u =>
    match (lanesOf (execLanes u p)).find? (fun l => scratchOf s u.g ≤ addr u.g l || addr u.g l % size != 0) with
    | some l => .next (raise s u { cls := 10, info0 := BitVec.ofNat 64 (addr u.g l), info1 := BitVec.ofNat 64 l,
                                   pix := if u.f.resumed then u.f.pix else 0 })
    | none => k u)

/-! ### Pages that lanes need (R193, R196) -/

/-- The member index of the issuing core. -/
def homeHere (s : State) (u : Issue) : Nat :=
  match gangOf s u.g.gang with
  | none => 0
  | some q => memberOf q (coreOfKey u.key)

/-- What a lane at an SVA does while its page is not there: it waits for the page or a frame, or meets the backing trap. -/
def pageOutcome (s : State) (u : Issue) (sva : Nat) : Need → AccessOutcome
  | .bad va cause => .trap { cls := 11, info0 := BitVec.ofNat 64 va, info1 := BitVec.ofNat 64 cause, rung := 1 }
  | .noFrame =>
    (match u.f.hold with
     | .noFrame x since => .hold (.noFrame sva (if x = sva then since else s.clock))
     | _ => .hold (.noFrame sva s.clock))
  | _ => .hold (.page sva)

/-- A lane that needs its page: `k` once it is resident. -/
def withPage (s : State) (u : Issue) (sva : Nat) (k : State → LaneOut) : LaneOut :=
  match needPage s u.g.gang (sva / 2048) (homeHere s u) with
  | (s, .resident) => k s
  | (s, n) => (s, .error (pageOutcome s u sva n, sva))

/-! ### Spill forwarding (R196, R197) -/

/-- The unit that a waiting store's bytes lie in. -/
def Spill.unit (x : Spill) : Nat := x.sva / 16

/-- Entries of a quarter's table: one for each thread and unit. -/
def spillEntries (s : State) (core quarter : Nat) : Nat :=
  (s.groups.filter (fun x => coreOfKey x.1 == core && x.2.quarter == quarter)).foldl
    (fun n x => n + ((x.2.spills.map (fun y => (y.lane, y.unit))).eraseDups).length) 0

/-- The bytes of a thread's own waiting stores at addresses, newest last; none unless they cover all of them. -/
def ownBytes (g : Group) (ln sva n : Nat) : Option (List Byte) :=
  let at0 := fun (a : Nat) => (g.spills.filter (fun x => x.lane == ln && x.sva ≤ a && a < x.sva + x.bytes.length)).getLast?.map
    (fun x => (x.bytes[a - x.sva]?).getD 0)
  let got := (List.range n).map (fun i => at0 (sva + i))
  if got.all Option.isSome then some (got.map (·.getD 0)) else none

/-- A store enters its thread's entry: `false` when it needs an entry and none is free. -/
def spillStore (s : State) (key ln sva : Nat) (bs : List Byte) (op : Option Nat) : State × Bool :=
  match groupOf s key with
  | none => (s, false)
  | some g =>
    let held := g.spills.any (fun x => x.lane == ln && x.unit == sva / 16)
    if !held && 32 ≤ spillEntries s (coreOfKey key) g.quarter then (s, false)
    else
      let s := { s with mem := { s.mem with order := s.mem.order + 1 } }
      (setGroup s key { g with spills := g.spills ++ [⟨ln, sva, bs, s.mem.order, op⟩] }, true)

/-! ### LDS and STS -/

def ldsLane (u : Issue) (n : Nat) (sgn : Bool) (sva : Nat) (s : State) (ln : Nat) : LaneOut :=
  let give := fun (bs : List Byte) => Except.ok (ε := AccessOutcome × Nat) ⟨some (loadValue sgn n (leNat bs)), false, []⟩
  let look := fun (s : State) => noteLoad s u.key ln (.sva u.g.gang (16 * (sva / 16))) (sva % 16) n
  match (match groupOf s u.key with
    | none => none
    | some g => ownBytes g ln sva n) with
  | some bs => (s, give bs)
  | none =>
    withPage s u sva (fun s =>
      match coveredBytes s u.key ln (.sva u.g.gang (16 * (sva / 16))) (sva % 16) n with
      | some (bs, poison) => (look s, if poison then .error (.consume sva, sva) else give bs)
      | none =>
        match svaRead s u.g.gang sva n with
        | .bytes bs => (look (touchFrame s u.g.gang sva), give bs)
        | .marked => (s, .error (.consume sva, sva))
        | .absent => (s, .error (.hold (.page sva), sva)))

def ldsWord (s : State) (p : Option Pfx) (d a b : Opnd) (n regs : Nat) (sgn : Bool) : Out :=
  scratchWord s p [(d, regs), (a, 1)] n (fun g l => svaOf g a b n l) (fun u =>
    laneWord s u { p := p, counter := clauseSetA u.f, load := true, kind := 9, d := d, n := regs, z := zOf p }
      (fun _ _ s l => ldsLane u n sgn (svaOf u.g a b n l) s l))

def execLdsH (p : Option Pfx) (d a b : Opnd) (s : State) : Out := ldsWord s p d a b 2 1 (bit (auxOf p) 0)
def execLdsW (p : Option Pfx) (d a b : Opnd) (s : State) : Out := ldsWord s p d a b 4 1 false
def execLdsD (p : Option Pfx) (d a b : Opnd) (s : State) : Out := ldsWord s p d a b 8 2 false
def execLdsQ (p : Option Pfx) (d a b : Opnd) (s : State) : Out := ldsWord s p d a b 16 4 false

/-- One lane of a store: at once where its page is resident, else into a forwarding entry, which `settleSpills` asks a fill for while it
stands (R196). -/
def stsLane (u : Issue) (counted : Bool) (bs : List Byte) (sva : Nat) (id : Nat) (s : State) (ln : Nat) : LaneOut :=
  let uid := u.g.gang
  match needPage s uid (sva / 2048) (homeHere s u) with
  | (s, .resident) =>
    let s := placeCovered s u.key ln (.sva uid (16 * (sva / 16)))
    (noteWrite (svaStore s uid sva bs) u.key ln, .ok ⟨none, false, []⟩)
  | (s, .bad va cause) => (s, .error (pageOutcome s u sva (.bad va cause), sva))
  | (s, _) =>
    (match spillStore s u.key ln sva bs (if counted then some id else none) with
     | (s, true) => (noteWrite s u.key ln, .ok ⟨none, counted, []⟩)
     | (s, false) => (s, .error (.hold .spill, sva)))

def stsWord (s : State) (p : Option Pfx) (d a b : Opnd) (n regs : Nat) : Out :=
  scratchWord s p [(d, regs), (a, 1)] n (fun g l => svaOf g a b n l) (fun u =>
    laneWord s u { p := p, counter := clauseSetB u.f, load := false, kind := 9, d := d, n := regs }
      (fun id _ s l => stsLane u (clauseSetB u.f).isSome
        (if n ≤ 4 then leBytes n (val32 u.g d l).toNat
         else if n = 8 then leBytes 8 (val64 u.g d l).toNat
         else (List.range 4).flatMap (fun i => leBytes 4 (vreg u.g (d.toNat + i) l).toNat)) (svaOf u.g a b n l) id s l))

def execStsH (p : Option Pfx) (d a b : Opnd) (s : State) : Out := stsWord s p d a b 2 1
def execStsW (p : Option Pfx) (d a b : Opnd) (s : State) : Out := stsWord s p d a b 4 1
def execStsD (p : Option Pfx) (d a b : Opnd) (s : State) : Out := stsWord s p d a b 8 2
def execStsQ (p : Option Pfx) (d a b : Opnd) (s : State) : Out := stsWord s p d a b 16 4

/-! ### ATOMS (R204, R205) -/

/-- One lane of an atomic at its home frame. -/
def atomsLane (u : Issue) (op ty : Nat) (b c : Opnd) (sva : Nat) (s : State) (ln : Nat) : LaneOut :=
  let n := atomBytes op ty
  let uid := u.g.gang
  if replaying s u.key then
    match captured s u.key ln true .atomic n (fun s => (s, .ok 0)) with
    | (s, .error e) => (s, .error e)
    | (s, .ok old) => (s, .ok ⟨some old, false, []⟩)
  else
    withPage s u sva (fun s =>
      let s := placeCovered s u.key ln (.sva uid (16 * (sva / 16)))
      match svaRead s uid sva n with
      | .marked => (s, .error (.consume sva, sva))
      | .absent => (s, .error (.hold (.page sva), sva))
      | .bytes bs =>
        match captured s u.key ln true .atomic n (fun s => (s, .ok (leNat bs))) with
        | (s, .error e) => (s, .error e)
        | (s, .ok old) =>
          let s := svaStore s uid sva (leBytes n (atomNew op ty old (atomOperand u.g b n ln) (atomOperand u.g c n ln)))
          (noteWrite s u.key ln, .ok ⟨some old, false, []⟩))

/-- A scratchpad atomic, as the operation and type that it has among the global ones. -/
def atomsWord (s : State) (p : Option Pfx) (d a b : Opnd) (op ty : Nat) : Out :=
  let n := atomBytes op ty
  let regs := n / 4
  let cs := if hasC p then [(cOf p, regs)] else []
  scratchWord s p ([(d, regs), (a, 1), (b, regs)] ++ cs) n (fun g l => svaOf g a 0 n l) (fun u =>
    laneWord s u { p := p, counter := clauseSetA u.f, load := true, kind := 9, d := d, n := regs }
      (fun _ _ s l => atomsLane u op ty b (cOf p) (svaOf u.g a 0 n l) s l))

def execAtomsAdd (p : Option Pfx) (d a b : Opnd) (s : State) : Out := atomsWord s p d a b 0 (aux8Of p)
def execAtomsExch (p : Option Pfx) (d a b : Opnd) (s : State) : Out := atomsWord s p d a b 3 (aux8Of p)
def execAtomsCas (p : Option Pfx) (d a b : Opnd) (s : State) : Out := atomsWord s p d a b 7 (aux8Of p)
def execAtomsFadd (p : Option Pfx) (d a b : Opnd) (s : State) : Out :=
  if aux8Of p = 0 then atomsWord s p d a b 8 0 else atomsWord s p d a b 9 (aux8Of p - 1)

/-! ### Pages made resident, and released -/

/-- The stores that wait for a page, of every thread of its gang, in the order in which they were issued. -/
def spillsFor (s : State) (uid p : Nat) : List (Nat × Spill) :=
  ((groupsOf s uid).flatMap (fun x => (x.2.spills.filter (fun y => y.sva / 2048 == p)).map (fun y => (x.1, y)))).mergeSort
    (fun a b => a.2.stamp ≤ b.2.stamp)

/-- The stores that wait for a page leave their entries: written into its frame, or dropped with it. -/
def emptySpills (s : State) (uid p : Nat) (write : Bool) : State :=
  let xs := spillsFor s uid p
  let s := (groupsOf s uid).foldl (fun s x =>
    modGroup s x.1 (fun g => { g with spills := g.spills.filter (fun y => y.sva / 2048 != p) })) s
  xs.foldl (fun s x =>
    let s := if write then svaStore s uid x.2.sva x.2.bytes else s
    match x.2.op with
    | none => s
    | some id => partHappened s id false) s

/-- A fill in service leaves the gang's list. -/
def dropFill (s : State) (uid p : Nat) : State :=
  match gangOf s uid with
  | none => s
  | some q => setGang s uid { q with fills := q.fills.filter (fun f => f.page != p) }

/-- What stops a word that must write the entry of a page: the backing trap, or a wait for the entry's line. -/
def entryStop (va p : Nat) : Area → AccessOutcome
  | .bad => .trap { cls := 11, info0 := BitVec.ofNat 64 va, info1 := 1, rung := 1 }
  | _ => .hold (.page (2048 * p))

/-- A page is discarded: zero, with no frame, no waiting store and no engine write (R208), or the word stops. Its entry is written
first (R189). -/
def discardPage (s : State) (uid p : Nat) : State × Except AccessOutcome Unit :=
  match gangOf s uid with
  | none => (s, .ok ())
  | some q =>
    match launchOf s q.launch with
    | none => (s, .ok ())
    | some l =>
      let va := entryVa l q.index p
      let e := q.page p
      match (if e = 0 then (s, Area.ready) else areaState s (whoPager q l) va) with
      | (s, .later) => (s, .error (entryStop va p .later))
      | (s, .bad) => (s, .error (entryStop va p .bad))
      | (s, .ready) =>
        match (if e = 0 then (s, true) else writeEntry s uid p 0) with
        | (s, false) => (s, .error (entryStop va p .bad))
        | (s, true) =>
          let s := freeFrame { s with places := s.places.filter (fun x => match x.loc with
            | .sva g a => !(g == uid && a / 2048 == p)
            | _ => true) } q e
          let s := dropFill (emptySpills s uid p false) uid p
          (match gangOf s uid with
           | none => s
           | some q => setGang s uid { q with written := q.written.filter (· != p) }, .ok ())

/-! ### SPMAP, SPUNMAP, SPPIN -/

/-- How a page of a mapping word was treated: with the count of the pages that S[d] reports, or stopped. -/
inductive Treated where
  | done (counted : Bool)
  | stop (o : AccessOutcome)
deriving DecidableEq, Repr, Inhabited

/-- The pages of a mapping word from a place on, with the count so far. -/
def treatPages (f : State → Nat → State × Treated) : Nat → Nat → Nat → State → State × Nat × Nat × Option AccessOutcome
  | 0, i, n, s => (s, i, n, none)
  | k + 1, i, n, s =>
    match f s i with
    | (s, .done c) => treatPages f k (i + 1) (if c then n + 1 else n) s
    | (s, .stop o) => (s, i, n, some o)

/-- A mapping word over n pages from S[a] on: it acts once for the group when a lane is Active, its checks come before any page
is touched, and its progress index counts the pages treated (R206, R417). -/
def mapWord (s : State) (p : Option Pfx) (d a : Opnd) (n : Nat) (bad : Issue → Option Trap)
    (f : Issue → State → Nat → State × Treated) : Out :=
  withIssue s (fun u =>
    let act := activeOf u.g u.f.lanes p
    match bad u with
    | some t => .next (raise s u t)
    | none =>
      if act = 0 then .next (finish s u)
      else
        let start := (sreg u.g (scalarNo a)).toNat
        if start % 2048 != 0 || scratchOf s u.g < start + 2048 * n then
          .next (raise s u { cls := 10, info0 := BitVec.ofNat 64 start, info1 := BitVec.ofNat 64 (lowest act) })
        else
          let i := if u.f.fresh then 0 else u.f.pix
          let c := if u.f.fresh then 0 else u.f.first
          match treatPages (fun s i => f u s (start / 2048 + i)) (n - i) i c s with
          | (s, _, c, none) => .next (finish (modGroup s u.key (fun g => setSreg g (scalarNo d) (BitVec.ofNat 64 c))) u)
          | (s, i, c, some o) =>
            let s := modGroup s u.key (fun g => modFrag g u.f.lanes (fun f => { f with resumed := true, first := c }))
            .next (takeOutcome s u.key u.f.lanes u.words.length o (start + 2048 * i) (lowest act) i c none))

/-- Whether a mapping word that came to a page earlier found it not resident, and waits for it. -/
def awaitsPage (u : Issue) (p : Nat) : Bool :=
  u.f.resumed && (match u.f.hold with
    | .page sva => sva / 2048 == p
    | .noFrame sva _ => sva / 2048 == p
    | _ => false)

/-- A page that must be resident at a home: `k` with whether it was so when the word came to it. -/
def residentPage (s : State) (u : Issue) (p home : Nat) (k : State → Bool → State × Treated) : State × Treated :=
  match needPage s u.g.gang p home with
  | (s, .resident) => k s (!awaitsPage u p)
  | (s, .wait) =>
    let kept := !awaitsPage u p && ((gangOf s u.g.gang).map (fun q => pageState q p == 2)).getD false
    (s, .stop (.hold (if kept then .pageKept (2048 * p) else .page (2048 * p))))
  | (s, n) => (s, .stop (pageOutcome s u (2048 * p) n))

def execSpmap (p : Option Pfx) (d a : Opnd) (h : BitVec 2) (n : BitVec 6) (s : State) : Out :=
  mapWord s p d a (n.toNat + 1)
    (fun u => if ((gangOf s u.g.gang).map (·.cores.length)).getD 1 ≤ h.toNat then some (illegalTrap u (causeCode 206 4)) else none)
    (fun u s i => residentPage s u i h.toNat (fun s there => (s, .done there)))

/-- The state of a page for the words that leave pages where they are. -/
def pageNow (s : State) (u : Issue) (p : Nat) : Dword := ((gangOf s u.g.gang).map (·.page p)).getD 0

def execSpunmap (p : Option Pfx) (d a : Opnd) (n : Byte) (s : State) : Out :=
  mapWord s p d a (n.toNat + 1) (fun _ => none) (fun u s i =>
    if PagePin (pageNow s u i) != 0 then (s, .done true)
    else if ((gangOf s u.g.gang).map (·.leaving.contains i)).getD false then (s, .stop (.hold (.page (2048 * i))))
    else match discardPage s u.g.gang i with
      | (s, .ok _) => (s, .done false)
      | (s, .error o) => (s, .stop o))

/-- Frames of a core that hold pages with PIN > 0 (R192). -/
def pinnedFrames (s : State) (core : Nat) : Nat :=
  ((coreOf s core).frames.filter (fun f => match gangOf s f.2.gang with
    | none => false
    | some q => PagePin (q.page f.2.page) != 0)).length

/-- A page's pin count is written in its entry. -/
def setPin (s : State) (u : Issue) (p pin : Nat) : State × Treated :=
  let e := pageNow s u p
  match gangOf s u.g.gang, launchOfGroup s u.g with
  | some q, some l =>
    let va := entryVa l q.index p
    (match areaState s (whoPager q l) va with
     | (s, .ready) =>
       (match writeEntry s u.g.gang p
          (pageEntry (PageMap e) (PageRes e) (PageDirty e) (PagePois e) (PageHome e) (PageFrame e) pin) with
        | (s, true) => (s, .done false)
        | (s, false) => (s, .stop (entryStop va p .bad)))
     | (s, a) => (s, .stop (entryStop va p a)))
  | _, _ => (s, .done true)

def execSppin (p : Option Pfx) (d a : Opnd) (n : BitVec 6) (s : State) : Out :=
  mapWord s p d a (n.toNat + 1) (fun _ => none) (fun u s i =>
    residentPage s u i (homeHere s u) (fun s _ =>
      let e := pageNow s u i
      let core := ((gangOf s u.g.gang).bind (fun q => q.cores[PageHome e]?)).getD 0
      let full := PagePin e == 0 && frameCount (coreOf s core) < pinnedFrames s core + 1 + 16
      if PagePin e == 15 || full then (s, .done true) else setPin s u i (PagePin e + 1)))

def execSppinUn (p : Option Pfx) (d a : Opnd) (n : BitVec 6) (s : State) : Out :=
  mapWord s p d a (n.toNat + 1) (fun _ => none) (fun u s i =>
    let e := pageNow s u i
    if PagePin e == 0 then (s, .done true) else setPin s u i (PagePin e - 1))

/-! ### SPQUERY (R210) -/

/-- The value of a page, as SPQUERY writes it. -/
def pageValue (q : Gang) (p : Nat) : Nat :=
  let e := q.page p
  bits e.toNat 0 24 + (if PageRes e then 2 ^ 24 * (q.cores[PageHome e]?).getD 0 else 0) + 2 ^ 30 * pageState q p

def execSpquery (p : Option Pfx) (d a : Opnd) (s : State) : Out :=
  withReads s [(d, 1), (a, 1)] (fun u =>
    laneWord s u { p := p, counter := none, load := true, kind := 9, d := d, n := 1, z := zOf p, whole := true } (fun _ _ s l =>
      let sva := nat32 u.g a l
      let v := if scratchOf s u.g ≤ sva then 0xFFFFFFFF else ((gangOf s u.g.gang).map (fun q => pageValue q (sva / 2048))).getD 0
      match captured s u.key l true .spquery 4 (fun s => (s, .ok v)) with
      | (s, .error e) => (s, .error e)
      | (s, .ok v) => (s, .ok ⟨some v, false, []⟩)))

/-! ### The pager's own events -/

/-- A fill that cannot be made is given up: what asks for the page next is told, and the page stays as it is (R188). -/
def failFill (s : State) (uid p va : Nat) : State :=
  match gangOf (dropFill s uid p) uid with
  | none => s
  | some q => setGang s uid { q with failed := tput q.failed p va }

/-- The marks of units that have been read: the eight of a line of which one is uncorrectable (R201). -/
def marksRead (xs : List (List Byte × Bool)) : BitVec 128 :=
  let bad := fun (i : Nat) => ((xs[i]?).map (·.2)).getD false
  (List.range 16).foldl (fun (m : BitVec 128) j =>
    if (List.range 8).any (fun i => bad (8 * j + i)) then m ||| BitVec.ofNat 128 (255 * 2 ^ (8 * j)) else m) 0

/-- A fill that has its frame is done (R186, R196): a page of a gang becomes resident with zeros or with its backing, and the stores that
waited are applied. -/
def fillDone (s : State) (uid p : Nat) : State :=
  match gangOf s uid with
  | none => s
  | some q =>
    match launchOf s q.launch, q.fills.find? (fun f => f.page == p) with
    | some l, some ⟨_, home, some f, _⟩ =>
      let e := q.page p
      let core := (q.cores[home]?).getD 0
      let units := (List.range 128).map (fun i => backingVa l q.index p + 16 * i)
      match (if PageMap e then unitsRead s (whoPager q l) units else (s, .ok [])) with
      | (s, .error (.wait line, _)) => askLine s line
      | (s, .error (.ask peer a n, _)) => askBytes s ((q.cores.head?).getD 48) peer a n
      | (s, .error (.dropped f rg, va)) =>
        (match wantRegen s (whoPager q l) f va rg with
         | (s, true) => s
         | (s, false) => failFill s uid p va)
      | (s, .error (_, va)) => failFill s uid p va
      | (s, .ok xs) =>
        let bytes := writeBytes [] 0 (xs.flatMap (·.1))
        let marks := marksRead xs
        match areaState s (whoPager q l) (entryVa l q.index p) with
        | (s, .later) => s
        | (s, .bad) => failFill s uid p (entryVa l q.index p)
        | (s, .ready) =>
        match writeEntry s uid p (pageEntry true true false (marks != 0) home f (PagePin e)) with
        | (s, false) => failFill s uid p (entryVa l q.index p)
        | (s, true) =>
          let s := setFrame (dropFill s uid p) core f ⟨uid, p, bytes, marks, s.clock⟩
          let c := coreOf s core
          let s := if PageMap e then setCore s core { c with fetch := c.fetch + 1 } else s
          let s := match gangOf s uid with
            | none => s
            | some q => setGang s uid { q with written := if PageMap e then insertNat p q.written else q.written.filter (· != p) }
          (emptySpills s uid p true)
    | _, _ => s

def execSpFillDone (s : State) : Out := .next (fillDone s s.input.key s.input.sub)

/-- A victim that could not leave its frame stays resident: the stores that waited are applied (R196), its gang is told, and the fills that
waited for the frame ask again. -/
def keepVictim (s : State) (uid p va : Nat) : State :=
  let s := match gangOf s uid with
    | none => s
    | some q => setGang s uid { q with leaving := q.leaving.filter (· != p) }
  let s := pendBacking (emptySpills s uid p true) uid va 1
  { s with gangs := s.gangs.map (fun x => (x.1, { x.2 with fills := x.2.fills.filter (fun f => f.victim != some (uid, p)) })) }

/-- A victim's write-back is done (R191): its frame goes to the fill that waits for it. A write-back, or a write of its entry, that fails
leaves the victim resident (R188). -/
def writebackDone (s : State) (uid p : Nat) : State :=
  match gangOf s uid with
  | none => s
  | some q =>
    if !q.leaving.contains p then s
    else
      let frame := PageFrame (q.page p)
      let waits := fun (f : Fill) => f.victim == some (uid, p)
      match evictionState s uid p with
      | (s, .later, _) => s
      | (s, _, _) =>
      match writeBack s uid p with
      | (s, some va) => keepVictim s uid p va
      | (s, none) =>
        match releasePage s uid p false with
        | (s, false) => keepVictim s uid p (entryVaOf s uid p)
        | (s, true) =>
          { s with gangs := s.gangs.map (fun x => (x.1, { x.2 with fills := x.2.fills.map (fun f =>
              if waits f then { f with frame := some frame, victim := none } else f) })) }

def execSpWritebackDone (s : State) : Out := .next (writebackDone s s.input.key s.input.sub)

end Sys2Proof.Machine
end

