-- ==== Sys2Proof/Machine/Copy.lean ====
section
/-!
DEFINITION. Copies (R219 to R229): the checks at issue, the transfers and their queue, the units in their order with what is
poisoned, refused or faults, and the global places of engine writes (R350).
-/
namespace Sys2Proof.Machine

open Sys2Proof

/-! ### The operands of a transfer (R219, R221) -/

/-- Destination, source, control word, rows, pitches, index address, and the form: 0 CPY and CPY2, 1 CPYG, 2 CPYX. -/
structure CopyOps where
  dst  : Nat
  src  : Nat
  cw   : Nat
  rows : Nat
  sp   : Nat
  dp   : Nat
  idx  : Nat
  form : Nat
deriving DecidableEq, Repr, Inhabited

def CopyOps.list (o : CopyOps) : List Nat := [o.dst, o.src, o.cw, o.rows, o.sp, o.dp, o.idx, o.form]

def CopyOps.ofList (xs : List Nat) : CopyOps :=
  let at0 := fun (i : Nat) => (xs[i]?).getD 0
  ⟨at0 0, at0 1, at0 2, at0 3, at0 4, at0 5, at0 6, at0 7⟩

def CopyOps.len (o : CopyOps) : Nat := bits o.cw 0 20
def CopyOps.ssp (o : CopyOps) : Nat := bits o.cw 20 2
def CopyOps.dsp (o : CopyOps) : Nat := bits o.cw 22 2
def CopyOps.isp (o : CopyOps) : Nat := bits o.cw 24 1
def CopyOps.total (o : CopyOps) : Nat := o.rows * o.len

/-- Word `i` of a descriptor: of a vector quad, or of a scalar pair. -/
def descriptorWord (g : Group) (b : Opnd) (l i : Nat) : Nat :=
  if isScalar b then bits (sreg g (scalarNo b + i / 2)).toNat (32 * (i % 2)) 32 else (vreg g (b.toNat + i) l).toNat

/-- The operands that a lane's transfer takes. -/
def copyOpsOf (g : Group) (form : Nat) (desc : Bool) (d a b : Opnd) (l : Nat) : CopyOps :=
  let dst := (val64 g d l).toNat
  let src := (val64 g a l).toNat
  if !desc then ⟨dst, src, (val32 g b l).toNat, 1, 0, 0, 0, form⟩
  else
    let w := descriptorWord g b l
    if form = 1 then ⟨dst, src, w 0, w 1, 0, 0, w 2 + 2 ^ 32 * w 3, 1⟩ else ⟨dst, src, w 0, w 1, w 2, w 3, 0, form⟩

/-! ### The checks at issue (R222) -/

/-- The first case of the copy-descriptor list that an operand set meets. -/
def copyCase (o : CopyOps) (wide : Bool) : Option Nat :=
  let far := fun (space a : Nat) => space != 0 && decide (2 ^ 32 ≤ a)
  if bits o.cw 25 7 != 0 then some 1
  else if o.ssp = 3 || o.dsp = 3 then some 2
  else if o.form != 2 && (o.ssp = 2 || o.dsp = 2) then some 3
  else if o.form = 2 && o.ssp != 2 && o.dsp != 2 then some 4
  else if o.isp = 1 && o.form != 1 then some 5
  else if o.src % 16 != 0 || o.dst % 16 != 0 || o.sp % 16 != 0 || o.dp % 16 != 0 then some 6
  else if o.idx % 4 != 0 then some 7
  else if wide && 65535 < o.rows then some 8
  else if far o.ssp o.src || far o.dsp o.dst || far o.isp o.idx then some 9
  else none

/-- The first unit of a run of rows that lies at or beyond a bound. -/
def firstBeyond (base pitch rows len bound : Nat) : Option Nat :=
  if rows = 0 || len = 0 then none
  else
    let last := base + 16 * (len - 1)
    let row := if bound ≤ last then 0 else if pitch = 0 then rows else (bound - last + pitch - 1) / pitch
    if rows ≤ row then none else some (max (base + pitch * row) ((bound + 15) / 16 * 16))

/-- The SVA for which a transfer raises the scratchpad-address trap, one of CPYX among them (log entry 46). -/
def copyBeyond (o : CopyOps) (scratch : Nat) : Option Nat :=
  let used := [(o.ssp, o.src), (o.dsp, o.dst), (o.isp, o.idx)].find? (fun x => x.1 == 1)
  if scratch = 0 && used.isSome then used.map (·.2)
  else
    let src := if o.ssp = 1 && o.form != 1 then firstBeyond o.src o.sp o.rows o.len scratch else none
    let pitch := if o.form = 1 then 16 * o.len else o.dp
    match src, (if o.dsp = 1 then firstBeyond o.dst pitch o.rows o.len scratch else none) with
    | some x, _ => some x
    | none, y => y

/-- The trap of a lane's transfer; the copy-descriptor list goes first (log entry 46). -/
def copyTrap (scratch : Nat) (x : Nat × CopyOps) : Option Trap :=
  match copyCase x.2 true with
  | some n => some { cls := 13, info0 := BitVec.ofNat 64 (causeCode 222 n), info1 := BitVec.ofNat 64 x.1 }
  | none => (copyBeyond x.2 scratch).map (fun a => { cls := 10, info0 := BitVec.ofNat 64 a, info1 := BitVec.ofNat 64 x.1 })

/-! ### Transfers in the queue (R220, R225, R229) -/

/-- The running count of transfer numbers: 1, 2, … modulo 2^32 with 0 skipped. -/
def nextNumber (n : Nat) : Nat := if (n + 1) % 2 ^ 32 = 0 then 1 else (n + 1) % 2 ^ 32

/-- A transfer enters its queue under the next number. -/
def enterTransfer (s : State) (t : Transfer) : State × Nat :=
  let n := s.nextTransfer
  ({ s with transfers := tput s.transfers n { t with number := n }, nextTransfer := nextNumber n }, n)

def modTransfer (s : State) (n : Nat) (f : Transfer → Transfer) : State := { s with transfers := tmod s.transfers n f }

/-- Entries of a core's copy queue in use. -/
def copyEntries (s : State) (core : Nat) : Nat :=
  (s.transfers.filter (fun t => t.2.core == core && t.2.kind != 1 && t.2.complete.isNone)).length

/-- A transfer is forgotten once it has completed, everything that it wrote has reached its global place, and neither a node nor
a packet still looks for its end. -/
def pruneTransfer (s : State) (n : Nat) : State :=
  match tfind s.transfers n with
  | none => s
  | some t =>
    if t.complete.isSome && t.node.isNone && t.packet.isNone && s.places.all (fun p => p.transfer != n) then
      { s with transfers := tdel s.transfers n }
    else s

/-- Transfers of an instruction that no counter counts are ordered for the threads of its fragment when it is done: the next word
reads what they wrote (R25). -/
def coverUncounted (s : State) (key id : Nat) (m : Dword) : State :=
  modGroup s key (fun g => coverFor g m ((s.transfers.filter (fun t => t.2.op == some id)).map (·.1)))

/-- A part of an engine instruction has happened; with its last one the instruction is done (R25). -/
def enginePart (s : State) (id : Nat) (err : Bool) : State :=
  let s := match tfind s.ops id with
    | none => s
    | some o =>
      if o.counter.isSome then s
      else
        let held := ((groupOf s o.group).map (fun g => (g.frags.filter (fun f => match f.hold with
          | .scoped x _ => x == id
          | _ => false)).foldl (fun m f => m ||| f.lanes) 0)).getD 0
        coverUncounted s o.group id held
  let s := partHappened s id err
  match tfind s.ops id with
  | none => s
  | some o => if o.issued && o.waits == 0 then opHappened s id else s

/-- An issued instruction of an engine is done when a counter counts it; else it holds its fragment until it completes (R25). -/
def endEngineWord (s : State) (u : Issue) (id : Nat) : State :=
  let open' := ((tfind s.ops id).map (fun o => o.counter.isNone && o.waits != 0)).getD false
  if open' then holdUnit s u (.scoped id u.words.length)
  else finish (if (clauseSetB u.f).isNone then coverUncounted s u.key id u.f.lanes else s) u

/-- An engine instruction that a trap interrupted while it held goes on with its operation; else it issues. -/
def engineWord (s : State) (u : Issue) (issue : Out) : Out :=
  match u.f.op with
  | none => issue
  | some id => .next (endEngineWord s u id)

/-- The transfer completes, with error status or without (R224): its instruction completes with its last transfer. -/
def completeTransfer (s : State) (n : Nat) (err : Bool) : State :=
  match tfind s.transfers n with
  | none => s
  | some t =>
    if t.complete.isSome then s
    else
      let s := if t.kind = 1 then dropClaims s t.core (takerTile n) else dropClaimsEverywhere s (takerWindow n)
      let s := modTransfer s n (fun t =>
        { t with complete := some s.clock, err := t.err || err, engine := none, halted := false, freezes := false })
      let s := match t.op with
        | none => s
        | some id => enginePart s id (t.err || err)
      pruneTransfer s n

/-! ### Issue -/

/-- A transfer belongs to the open batches of the threads that it was issued for (R231). -/
def openBatch (g : Group) (m : Dword) (n : Nat) : Group :=
  (lanesOf m).foldl (fun h l => let b := batchOf h l; setBatch h l { b with opened := insertNat n b.opened }) g

/-- What engine reads for some threads are anchored after (R349). -/
def anchorLanes (g : Group) (m : Dword) : Since :=
  ⟨(lanesOf m).foldl (fun n l => max n (anchorPlace g l)) 0, (lanesOf m).flatMap (fun l => (anchorOf g l).looks), []⟩

/-- The anchor of a read of `n` bytes at `off` in a unit. -/
def Since.upTo (a : Since) (loc : Loc) (off n : Nat) : Nat :=
  a.looks.foldl (fun p x => if x.loc == loc && x.mask &&& byteMask off n != 0 then max p x.place else p) a.place

/-- The anchor of reads that come after one place. -/
def sincePlace (n : Nat) : Since := ⟨n, [], []⟩

/-- What a read of `n` bytes at `off` of a unit gives the walker, over what it finds there: the engine writes that have not reached their
global places and that the posting threads' waits cover (R232, R350). -/
def Since.overlay (a : Since) (ps : List Place) (loc : Loc) (off n : Nat) (x : List Byte × Bool) : List Byte × Bool :=
  (ps.filter (fun p => p.loc == loc && a.covers.contains p.transfer)).foldl (fun (y : List Byte × Bool) p =>
    ((p.bytes.drop off).take n ++ y.1.drop (p.bytes.length - off),
      (decide (off < p.bytes.length) && p.poison) || (decide (p.bytes.length < off + n) && y.2))) x

/-- One transfer of a copy instruction, for the threads of a mask. -/
def issueTransfer (s : State) (u : Issue) (id : Nat) (m : Dword) (o : CopyOps) : State × Nat :=
  let g := (groupOf s u.key).getD u.g
  let ctx := ((launchOfGroup s g).map (·.ctx)).getD 0
  let r := enterTransfer s
    { number := 0, kind := 0, core := coreOfKey u.key, group := some u.key, gang := g.gang, ctx := ctx, lanes := m,
      lane := lowest m, op := some id, counter := clauseSetB u.f, node := none, packet := none, operands := o.list, engine := none, progress := 0,
      read := [], halted := false, freezes := false, err := false, complete := none, anchor := anchorLanes g m }
  (modGroup r.1 u.key (fun g => openBatch g m r.2), r.2)

/-- The transfers of an instruction, in ascending lane order. -/
def issueTransfers (u : Issue) (id : Nat) : State → List (Dword × CopyOps) → State × List (Nat × CopyOps)
  | s, [] => (s, [])
  | s, (m, o) :: rest =>
    let r := issueTransfer s u id m o
    let x := issueTransfers u id r.1 rest
    (x.1, (r.2, o) :: x.2)

/-- A copy word: its registers, then the checks of every transfer, then room for all of them, and then they are issued. -/
def copyWord (s : State) (form : Nat) (desc : Bool) (d a b : Opnd) : Out :=
  withRegs s ([(d, 2), (a, 2)] ++ (if desc then (if isScalar b then [] else [(b, 4)]) else [(b, 1)])) (fun u =>
    if desc && b == 255 then .next (raise s u (registerTrap u 255))
    else engineWord s u (
      let each := !(isScalar d && isScalar a && isScalar b)
      let lanes := if each then lanesOf u.f.lanes else [lowest u.f.lanes]
      let ops := lanes.map (fun l => (l, copyOpsOf u.g form desc d a b l))
      match ops.findSome? (copyTrap (scratchOf s u.g)) with
      | some t => .next (raise s u t)
      | none =>
        if (counterFull u.g (clauseSetB u.f)).isSome || 128 < copyEntries s (coreOfKey u.key) + ops.length then
          .next (holdUnit s u .unit)
        else
          let r := countOp s u.key (clauseSetB u.f) false ops.length []
          let x := issueTransfers u r.2 r.1 (ops.map (fun o => (if each then laneBit o.1 else u.f.lanes, o.2)))
          let s := { x.1 with ops := tmod x.1.ops r.2 (fun o => { o with issued := true }) }
          let s := (x.2.filter (fun t => t.2.total = 0)).foldl (fun s t => completeTransfer s t.1 false) s
          .next (endEngineWord s u r.2)))

def execCpy (d a b : Opnd) (s : State) : Out := copyWord s 0 false d a b
def execCpy2 (d a b : Opnd) (s : State) : Out := copyWord s 0 true d a b
def execCpyg (d a b : Opnd) (s : State) : Out := copyWord s 1 true d a b
def execCpyx (d a b : Opnd) (s : State) : Out := copyWord s 2 false d a b

/-! ### What stops engine work -/

/-- Why a unit of engine work does not go through: it is tried again later, or once a frame for an SVA frees, a translation fault, a freeze, a backing area that
cannot be used, poison that its gang consumes, or poison bound for a window of registers or atiles. -/
inductive EngineStop where
  | wait
  | noFrame (sva : Nat)
  | fault (va cause : Nat)
  | freeze (cause : Nat)
  | backing (va cause : Nat)
  | consume (addr : Nat)
  | window (src win : Nat)
deriving DecidableEq, Repr, Inhabited

/-- What a failed check of an engine's access means. -/
def engineStop (s : State) (w : Who) (b : XBad) (va : Nat) : State × EngineStop :=
  match b, outcomeOf b va .load 0 with
  | .cause n, .trap _ => (s, .fault va n)
  | _, .trap _ => (s, .wait)
  | _, .freeze n => (s, .freeze n)
  | _, .regen f rg =>
    (match startRegen s w f va rg with
     | (s, true) => (s, .wait)
     | (s, false) => (s, .freeze 10))
  | _, .consume a => (s, .consume a)
  | _, .wait line => (askLine s line, .wait)
  | _, .ask peer a n => (askBytes s w.core peer a n, .wait)
  | _, .hold _ => (s, .wait)

/-- What an engine finds of the page of an SVA that it needs. -/
def pageStop (sva : Nat) : Need → EngineStop
  | .bad va cause => .backing va cause
  | .noFrame => .noFrame sva
  | _ => .wait

/-- Earlier values of `n` bytes at `off` of a unit that stood at or after an anchor, with their mark (R227, R349). -/
def pastUnits (s : State) (loc : Loc) (anchor : Since) (off n : Nat) : List (List Byte × Bool) :=
  (s.mem.past.filter (fun p => p.loc == loc && anchor.upTo loc off n ≤ p.upto)).map (fun p => ((p.bytes.drop off).take n, p.marked))

/-- `n` bytes of one unit of local memory, with their poison, at some place at or after an anchor. -/
def readPlaced (s : State) (w : Who) (anchor : Since) (dpa ma n : Nat) : State × List Byte × Bool :=
  let s := noteReads (fetchLines (noteFrame s w.part dpa false) (writerOf w.core) ma n) w.core ma n
  let now := (s.mem.bytesAt ma n, s.mem.marked ma n)
  let loc : Loc := .ma (16 * (ma / 16))
  let r := draw s ((pastUnits s loc anchor (ma % 16) n).filter (· != now)) now
  (r.1, anchor.overlay s.places loc (ma % 16) n r.2)

/-- `n` bytes of one unit of global memory as an engine reads them. -/
def engineRead (s : State) (w : Who) (anchor : Since) (va n : Nat) : State × Except EngineStop (List Byte × Bool) :=
  let fail := fun (s : State) (b : XBad) =>
    let r := engineStop s w b va
    (r.1, (Except.error r.2 : Except EngineStop (List Byte × Bool)))
  match translate s w .load false va with
  | (s, .error b) => fail s b
  | (s, .ok (_, .dev dpa ma)) =>
    let r := readPlaced s w anchor dpa ma n
    (r.1, .ok r.2)
  | (s, .ok _) =>
    match unitRead s w va n with
    | (s, .ok x) => (s, .ok x)
    | (s, .error b) => fail s b

/-- Since when engine work waits for a frame for an SVA (R192). -/
def starvedAt (clock sva : Nat) (x : Option (Nat × Nat)) : Option (Nat × Nat) :=
  match x with
  | some (a, c) => if a = sva then some (a, c) else some (sva, clock)
  | none => some (sva, clock)

/-- The same of scratchpad, whose page must be resident. -/
def engineSvaRead (s : State) (uid core : Nat) (anchor : Since) (sva n : Nat) : State × Except EngineStop (List Byte × Bool) :=
  match needPage s uid (sva / 2048) (((gangOf s uid).map (fun q => memberOf q core)).getD 0) with
  | (s, .resident) =>
    (match (match gangOf s uid with
      | none => none
      | some q => (pageFrame q (sva / 2048)).bind (fun x => frameOf s x.1 x.2)) with
     | none => (s, .error .wait)
     | some x =>
       let s := touchFrame s uid sva
       let now := (readBytes x.bytes (sva % 2048) n, frameMarked x (sva % 2048) n)
       let loc : Loc := .sva uid (16 * (sva / 16))
       let r := draw s ((pastUnits s loc anchor (sva % 16) n).filter (· != now)) now
       (r.1, .ok (anchor.overlay s.places loc (sva % 16) n r.2)))
  | (s, need) => (s, .error (pageStop sva need))

/-! ### The on-chip map window (R181 to R183, R212, R248) -/

/-- Where a window address of a copy of a context leads from a core, or that it is refused. -/
def windowLoc (s : State) (ctx core addr : Nat) : Option Loc :=
  let on := bits addr 24 6
  if 48 ≤ on || on / 16 != core / 16 then none
  else
    match bits addr 30 2 with
    | 0 =>
      let key := 128 * on + bits addr 16 7
      let reg := bits addr 8 8
      let slice := bits addr 4 4
      (match groupOf s key with
       | none => none
       | some g =>
         if bit addr 23 || gangCtx s g.gang != some ctx then none
         else if reg < 192 then (if reg < 8 * g.held && slice < g.width / 4 then some (.reg key slice reg) else none)
         else if slice = 0 then some (.reg key 0 reg) else none)
    | 1 =>
      let f := bits addr 11 11
      if bits addr 22 2 != 0 || frameCount (coreOf s on) ≤ f then none
      else
        match frameOf s on f with
        | none => none
        | some x => if gangCtx s x.gang = some ctx then some (.frame on (bits addr 0 22)) else none
    | 2 =>
      let a := bits addr 12 10
      if bits addr 22 2 != 0 || 16 * ((coreOf s on).b3 - (coreOf s on).b2) ≤ a then none
      else
        match atileOwner s on a with
        | none => none
        | some x => if gangCtx s x.1 = some ctx then some (.atile on (bits addr 0 22)) else none
    | _ => none

/-- A window unit as it stands, with its mark. -/
def windowRead (s : State) : Loc → List Byte × Bool
  | .reg key slice reg =>
    (match groupOf s key with
     | none => (List.replicate 16 0, false)
     | some g =>
       if reg < 192 then ((List.range 4).flatMap (fun p => leBytes 4 (vreg g reg (4 * slice + p)).toNat), false)
       else (leBytes 8 (sreg g (reg - 192)).toNat ++ List.replicate 8 0, false))
  | .frame core addr =>
    (match frameOf s core (addr / 2048) with
     | none => (List.replicate 16 0, false)
     | some x => (readBytes x.bytes (addr % 2048) 16, frameMarked x (addr % 2048) 16))
  | .atile core addr => ((List.range 4).flatMap (fun i => leBytes 4 (tget 0 (coreOf s core).atiles (addr / 4 + i)).toNat), false)
  | _ => (List.replicate 16 0, false)

/-- The words of SRAM with uncorrectable errors that a window unit holds (R435). -/
def windowUpsets (s : State) (loc : Loc) : List Latent :=
  s.upsets.filter (fun x => match loc, x.word with
    | .reg key slice reg, .vreg g r l => g == key && r == reg && l / 4 == slice
    | .reg key _ reg, .sreg g r => g == key && r + 192 == reg
    | .atile core addr, .atile c a e => c == core && a == addr / 4096 && e / 4 == addr % 4096 / 16
    | _, _ => false)

/-- Write a window unit, whose words hold no error any longer. -/
def windowWrite (s : State) (bs : List Byte) (poison : Bool) (loc : Loc) : State :=
  let bad := windowUpsets s loc
  let s := { s with upsets := s.upsets.filter (fun x => !bad.contains x) }
  match loc with
  | .reg key slice reg =>
    modGroup s key (fun g =>
      if reg < 192 then (List.range 4).foldl (fun g p => setVreg g reg (4 * slice + p) (BitVec.ofNat 32 (field bs (4 * p) 4))) g
      else setSreg g (reg - 192) (BitVec.ofNat 64 (field bs 0 8)))
  | .frame core addr =>
    (match frameOf s core (addr / 2048) with
     | none => s
     | some x => svaUnit s x.gang (2048 * x.page + addr % 2048) bs poison)
  | .atile core addr =>
    let c := coreOf s core
    let put := fun (t : Table Word) (i : Nat) => tset 0 t (addr / 4 + i) (BitVec.ofNat 32 (field bs (4 * i) 4))
    setCore s core { c with atiles := (List.range 4).foldl put c.atiles }
  | _ => s

/-- A window unit of an atile takes the atile's claim for its access: the state with the claim taken, or asked for. A frame whose
page is being written back is not written until it is free. -/
def windowReady (s : State) (n : Nat) : Loc → State × Bool
  | .atile core addr =>
    let s := askClaim s core (addr / 4096) (takerWindow n)
    if holdsClaim s core (addr / 4096) (takerWindow n) then (dropClaims s core (takerWindow n), true) else (s, false)
  | .frame core addr =>
    (s, match frameOf s core (addr / 2048) with
      | none => true
      | some x => ((gangOf s x.gang).map (fun q => !q.leaving.contains x.page)).getD true)
  | _ => (s, true)

/-! ### One unit of a transfer (R223, R226 to R229) -/

/-- Who a transfer's accesses are made by. -/
def whoTransfer (s : State) (t : Transfer) : Who :=
  match (gangOf s t.gang).bind (fun q => launchOf s q.launch) with
  | some l => if t.kind = 2 then ⟨t.core, t.ctx, ctxPart s t.ctx, false, [], none⟩ else whoLaunch t.core l
  | none => ⟨t.core, t.ctx, ctxPart s t.ctx, false, [], none⟩

def scratchOfGang (s : State) (uid : Nat) : Nat :=
  (((gangOf s uid).bind (fun q => launchOf s q.launch)).map recScratch).getD 0

/-- What a source of a unit or of a row gives: bytes with their poison, or nothing because it is refused. -/
abbrev Source := Except EngineStop (Option (List Byte × Bool))

/-- The index entry of a row of CPYG, read once. -/
def rowIndex (s : State) (t : Transfer) (o : CopyOps) (i : Nat) : State × Except EngineStop (Option Nat) :=
  match t.read.find? (fun r => r.1 == i) with
  | some (_, bs, there) => (s, .ok (if there then some (leNat bs) else none))
  | none =>
    let keep := fun (s : State) (bs : List Byte) (there : Bool) => modTransfer s t.number (fun t => { t with read := [(i, bs, there)] })
    let a := o.idx + 4 * i
    let got : State × Source :=
      if o.isp = 1 then
        (if scratchOfGang s t.gang ≤ a then (s, .ok none)
         else match engineSvaRead s t.gang t.core t.anchor a 4 with
          | (s, .error e) => (s, .error e)
          | (s, .ok x) => (s, .ok (some x)))
      else match engineRead s (whoTransfer s t) t.anchor a 4 with
        | (s, .error e) => (s, .error e)
        | (s, .ok x) => (s, .ok (some x))
    match got with
    | (s, .error e) => (s, .error e)
    | (s, .ok none) => (keep s [] false, .ok none)
    | (s, .ok (some (_, true))) => (s, .error (.consume a))
    | (s, .ok (some (bs, false))) => (keep s bs true, .ok (some (leNat bs)))

/-- The address of a source unit, `none` when its row is refused. -/
def sourceAddr (s : State) (t : Transfer) (o : CopyOps) (i j : Nat) : State × Except EngineStop (Option Nat) :=
  if o.form = 1 then
    match rowIndex s t o i with
    | (s, .error e) => (s, .error e)
    | (s, .ok none) => (s, .ok none)
    | (s, .ok (some x)) => (s, .ok (some (o.src + 16 * o.len * x + 16 * j)))
  else (s, .ok (some (o.src + o.sp * i + 16 * j)))

def destAddr (o : CopyOps) (i j : Nat) : Nat := o.dst + (if o.form = 1 then 16 * o.len else o.dp) * i + 16 * j

/-- A source unit. One of a window with an error of SRAM is consumed by the gang of its words, and read as of no one (R435). -/
def sourceUnit (s : State) (t : Transfer) (o : CopyOps) (a : Nat) : State × Source :=
  match o.ssp with
  | 0 =>
    (match engineRead s (whoTransfer s t) t.anchor a 16 with
     | (s, .error e) => (s, .error e)
     | (s, .ok x) => (s, .ok (some x)))
  | 1 =>
    if scratchOfGang s t.gang ≤ a then (s, .ok none)
    else
      (match engineSvaRead s t.gang t.core t.anchor a 16 with
       | (s, .error e) => (s, .error e)
       | (s, .ok x) => (s, .ok (some x)))
  | _ =>
    if 2 ^ 32 ≤ a then (s, .ok none)
    else
      match windowLoc s t.ctx t.core a with
      | none => (s, .ok none)
      | some loc =>
        match windowReady s t.number loc with
        | (s, false) => (s, .error .wait)
        | (s, true) =>
          match windowUpsets s loc with
          | [] => (s, .ok (some (windowRead s loc)))
          | x :: xs =>
            let s := consumeLatents s s (x :: xs)
            (s, if (tfind s.transfers t.number).isSome then .ok none else .error .wait)

/-- An engine write waits for its global place. One of device memory is matched by the CX comparators as it is written (R463). -/
def addPlace (s : State) (n u : Nat) (loc : Loc) (bs : List Byte) (poison : Bool) (dpa : Nat) : State :=
  let source := match tfind s.transfers n with
    | none => 0
    | some t => 8 * t.core + (if t.kind = 1 then 6 else 4 + t.engine.getD 0)
  let writer := ((tfind s.transfers n).map (fun t => writerOf t.core)).getD 3
  let s : State := { s with places := s.places ++ [⟨n, u, loc, bs, poison, dpa, source, writer⟩] }
  match loc with
  | .ma _ =>
    let t := (tfind s.transfers n).filter (fun t => t.kind != 2)
    watchCx s 3 source ((List.range bs.length).map (· + dpa)) (t.bind (·.group)) (t.map (·.gang))
  | _ => s

/-- Part of a unit is written to global memory by a transfer: it waits for its place, or goes out through an aperture. -/
def engineWrite (s : State) (w : Who) (n u va : Nat) (bs : List Byte) (poison : Bool) : State × Except EngineStop Unit :=
  match translate s w .store false va with
  | (s, .error b) =>
    let r := engineStop s w b va
    (r.1, .error r.2)
  | (s, .ok (_, .dev dpa ma)) => (addPlace (noteFrame s w.part dpa true) n u (.ma ma) bs poison dpa, .ok ())
  | (s, .ok (_, .peer dev dpa)) =>
    (sendRequest s { plainRequest 5 (some dev) dpa bs.length bs with word := n, lane := u, va := va } 0 (if poison then 2 else 0), .ok ())
  | (s, .ok (_, .host a)) =>
    (sendRequest s { plainRequest 5 none a bs.length bs with word := n, lane := u, va := va } 0 (if poison then 2 else 0), .ok ())

/-- The same to scratchpad, whose page must be resident. -/
def engineSvaWrite (s : State) (uid core n u sva : Nat) (bs : List Byte) (poison : Bool) : State × Except EngineStop Unit :=
  match needPage s uid (sva / 2048) (((gangOf s uid).map (fun q => memberOf q core)).getD 0) with
  | (s, .resident) => (addPlace (touchFrame s uid sva) n u (.sva uid sva) bs poison 0, .ok ())
  | (s, need) => (s, .error (pageStop sva need))

/-- A destination unit is written, from a source address; `false` when it is refused. -/
def destUnit (s : State) (t : Transfer) (o : CopyOps) (u src a : Nat) (bs : List Byte) (poison : Bool) :
    State × Except EngineStop Bool :=
  match o.dsp with
  | 0 =>
    (match engineWrite s (whoTransfer s t) t.number u a bs poison with
     | (s, .error e) => (s, .error e)
     | (s, .ok _) => (s, .ok true))
  | 1 =>
    if scratchOfGang s t.gang ≤ a then (s, .ok false)
    else
      (match engineSvaWrite s t.gang t.core t.number u a bs poison with
       | (s, .error e) => (s, .error e)
       | (s, .ok _) => (s, .ok true))
  | _ =>
    if 2 ^ 32 ≤ a then (s, .ok false)
    else
      match windowLoc s t.ctx t.core a with
      | none => (s, .ok false)
      | some loc =>
        match loc, poison with
        | .reg .., true | .atile .., true => (s, .error (.window src a))
        | _, _ =>
          match windowReady s t.number loc with
          | (s, false) => (s, .error .wait)
          | (s, true) => (windowWrite s bs poison loc, .ok true)

/-- A trap of engine work waits in the group that it was issued or posted for, or is taken at the gang rung when that group has
exited. -/
def engineTrap (s : State) (key uid : Nat) (p : Pending) : State :=
  match groupOf s key with
  | none => takeGangTrap s uid { cls := p.cls, info0 := p.info0, info1 := p.info1, engine := p.engine }
  | some g =>
    if g.gang = uid && liveLanes g != 0 then addPending s key p
    else takeGangTrap s uid { cls := p.cls, info0 := p.info0, info1 := p.info1, engine := p.engine }

/-- A trap of scratchpad paging that engine work meets waits in its group, or in the gang's first live group (R188). -/
def enginePend (s : State) (key uid : Nat) (p : Pending) : State :=
  match groupOf s key with
  | none => pendFirst s uid p
  | some g => if g.gang = uid && liveLanes g != 0 then addPending s key p else pendFirst s uid p

/-- The backing trap of engine work. -/
def engineBacking (s : State) (key uid va cause : Nat) : State :=
  enginePend s key uid ⟨11, BitVec.ofNat 64 va, BitVec.ofNat 64 cause, 1, none, none⟩

/-- A gang consumes poison that its engine work met (R227, R261). -/
def engineConsume (s : State) (uid core cause addr synd : Nat) : State :=
  consume s uid
    { unit := unitCore s core, cause := cause, sev := 3, cons := true, addr := some addr, synd := synd, ctx := gangCtx s uid,
      gang := ((gangOf s uid).map (·.index)).getD 0 }

/-- Engine work stops at its present unit, and asks no longer for the claim of a window unit (R262). -/
def stopTransfer (s : State) (t : Transfer) (e : EngineStop) : State :=
  let key := t.group.getD 6144
  let halt := fun (s : State) (f : Bool) =>
    modTransfer (dropClaimsEverywhere s (takerWindow t.number)) t.number (fun t => { t with halted := true, freezes := f, engine := none, starved := none })
  match e with
  | .wait => if t.starved.isNone then s else modTransfer s t.number (fun t => { t with starved := none })
  | .noFrame sva => modTransfer s t.number (fun t => { t with starved := starvedAt s.clock sva t.starved })
  | .fault va cause =>
    if t.kind = 2 then
      (match t.packet.bind (tfind s.packets) with
       | none => s
       | some p => freezeQueue (halt s true) p.queue cause)
    else
      engineTrap (halt s false) key t.gang
        ⟨14, BitVec.ofNat 64 va, BitVec.ofNat 64 (t.renumbered.getD t.number + 2 ^ 32 * t.progress), 0, some t.number, none⟩
  | .freeze n =>
    if t.kind = 2 then
      (match t.packet.bind (tfind s.packets) with
       | none => s
       | some p => freezeQueue (freezeCtx (halt s true) t.ctx n none) p.queue n)
    else freezeCtx (halt s true) t.ctx n ((gangOf s t.gang).map (·.index))
  | .backing va cause => engineBacking (completeTransfer s t.number true) key t.gang va cause
  | .consume a =>
    if t.kind = 2 then completeTransfer s t.number true else engineConsume s t.gang t.core 0x20 a t.lane
  | .window src win => engineConsume s t.gang t.core 0x21 src win

/-- The next unit of a transfer is moved; `false` when it stops there, or when none is left. -/
def moveUnit (s : State) (n : Nat) : State × Bool :=
  match tfind s.transfers n with
  | none => (s, false)
  | some t =>
    let o := CopyOps.ofList t.operands
    if t.complete.isSome || t.halted || o.total ≤ t.progress then (s, false)
    else
      let u := t.progress
      let i := u / o.len
      let j := u % o.len
      let stop := fun (s : State) (e : EngineStop) => (stopTransfer s ((tfind s.transfers n).getD t) e, false)
      let put := fun (s : State) (a : Nat) (x : Option (List Byte × Bool)) =>
        let bs := (x.map (·.1)).getD (List.replicate 16 0)
        let poison := (x.map (·.2)).getD false
        match destUnit s t o u a (destAddr o i j) bs poison with
        | (s, .error e) => stop s e
        | (s, .ok there) =>
          (modTransfer s n (fun t => { t with progress := u + 1, err := t.err || x.isNone || poison || !there, starved := none }), true)
      match sourceAddr s t o i j with
      | (s, .error e) => stop s e
      | (s, .ok none) => put s 0 none
      | (s, .ok (some a)) =>
        match sourceUnit s t o a with
        | (s, .error e) => stop s e
        | (s, .ok x) => put s a x

/-- Up to so many units. -/
def moveUnits (n : Nat) : Nat → State → State
  | 0, s => s
  | k + 1, s =>
    match moveUnit s n with
    | (s, true) => moveUnits n k s
    | (s, false) => s

/-! ### The engines (R225) -/

/-- The transfer that a copy engine runs. -/
def engineWork (s : State) (core engine : Nat) : Option Nat :=
  (s.transfers.find? (fun t => t.2.core == core && t.2.kind != 1 && t.2.engine == some engine && t.2.complete.isNone)).map (·.1)

/-- Whether an engine takes work (R404): CE0 and CE1 are 4 and 5. -/
def engineTakes (s : State) (core engine : Nat) : Bool := corePart s core != 7 && !((coreOf s core).engines[engine]?).getD true

/-- The group slot by which the engines go round; packets' transfers stand after every group. -/
def turnSlot (t : Transfer) : Nat := (t.group.map slotOfKey).getD 128

/-- Instruction and packet transfers of a core that wait for an engine, and the one that the round-robin takes next. -/
def nextTransfer (s : State) (core : Nat) : Option (Nat × Transfer) :=
  let last := (coreOf s core).turn / 2
  let far := fun (t : Transfer) => (turnSlot t + 128 - last) % 129
  let xs := s.transfers.filter (fun t => t.2.core == core && t.2.kind != 1 && t.2.node.isNone && t.2.engine.isNone &&
    t.2.complete.isNone && !t.2.halted)
  xs.foldl (fun b x => match b with
    | none => some x
    | some y => if far x.2 < far y.2 then some x else some y) none

/-- Whether a copy node of a team on the core is ready, and may enter the queue: its gang is not being saved (R230), and an entry is free. -/
def copyNodeReady (s : State) (core : Nat) : Bool :=
  decide (copyEntries s core < 128) && s.gangs.any (fun q => s.saves.all (fun v => v.gang != q.1) && (List.range q.2.teams.length).any (fun t => ringCore s q.1 t == core &&
    ((q.2.teams[t]?).map (fun x => x.slots.any (fun y => y.2.state == 2 && y.2.phase != 3 && field y.2.record 0 1 % 4 == 1))).getD
      false))

/-- A copy engine of a core, by its place 0 or 1, goes on with its transfer, or takes the next that waits, and moves up to the
units that the event carries. The engines of a core whose half-die is in no partition are clock-gated (R13).

DESIGN CHOICE (log entry 86): a packet's transfer that is queued on a core that is then fenced without a replacement stays there, and that
core's engines still move it. -/
def execCopyTransferStart (s : State) : Out :=
  let core := s.input.key
  let e := s.input.sub % 2
  match engineWork s core e with
  | some n => .next (if corePart s core = 7 then s else moveUnits n s.input.value.toNat s)
  | none =>
    if !engineTakes s core (4 + e) || (copyNodeReady s core && (coreOf s core).turn % 2 == 0) then .next s
    else
      match nextTransfer s core with
      | none => .next s
      | some (n, t) =>
        let s := setCore s core { coreOf s core with turn := 2 * turnSlot t }
        .next (moveUnits n s.input.value.toNat (modTransfer s n (fun t => { t with engine := some e })))

/-- Whether every unit of a transfer has been read and every write has been performed: a peer has acknowledged its own. -/
def transferMoved (s : State) (t : Transfer) : Bool :=
  decide ((CopyOps.ofList t.operands).total ≤ t.progress) && s.requests.all (fun r => !(r.kind == 5 && r.reg == 0 && r.word == t.number))

def execCopyTransferComplete (s : State) : Out :=
  match tfind s.transfers s.input.key with
  | none => .next s
  | some t =>
    if t.kind != 1 && t.complete.isNone && !t.halted && transferMoved s t then .next (completeTransfer s s.input.key false)
    else .next s

/-- A unit of an engine write reaches its global place; an earlier unit of its transfer on the same bytes goes first (R350). -/
def execEngineWriteGlobalPlace (s : State) : Out :=
  let n := s.input.key
  let u := s.input.sub
  match s.places.find? (fun p => p.transfer == n && p.unit == u) with
  | none => .next s
  | some p =>
    if s.places.any (fun x => x.transfer == n && x.loc == p.loc && x.unit < u) then .next s
    else .next (pruneTransfer (applyPlaces s (fun x => x.transfer == n && x.unit == u)) n)

/-! ### Halted transfers go on, or are given up (R229, R405, R421) -/

/-- A halted transfer goes on at its progress; one that has been saved and restored takes a new number (R229). -/
def resumeTransfer (s : State) (n : Nat) : State :=
  let on := fun (t : Transfer) => { t with halted := false, freezes := false }
  match tfind s.transfers n with
  | none => s
  | some t =>
    if t.restored then
      { s with transfers := tput s.transfers n { on t with restored := false, renumbered := some s.nextTransfer }
               nextTransfer := nextNumber s.nextTransfer }
    else { s with transfers := tput s.transfers n (on t) }

/-- Every transfer that a freeze halted goes on when its context or queue is released. -/
def resumeFrozen (s : State) (p : Transfer → Bool) : State :=
  (s.transfers.filter (fun t => t.2.halted && t.2.freezes && p t.2)).foldl (fun s t => resumeTransfer s t.1) s

end Sys2Proof.Machine
end

