-- ==== Sys2Proof/Machine/Acc.lean ====
section
/-!
DEFINITION. Accumulator memory for threads (R246, R247, R262, R272 to R281): AZERO, ARD, AWR, ASCALE, AGIDX, and the tile
transfers ALOAD and ASTORE.
-/
namespace Sys2Proof.Machine

open Sys2Proof

/-! ### Teams and atiles -/

/-- The team of a unit's group. -/
def teamHere (s : State) (u : Issue) : Team :=
  (teamOf s u.g.gang u.g.team).getD ⟨0, 0, [], [], 0, 0, 0, [], Barrier.reset, none, none⟩

/-- Element `e` (32 × row + column) of a physical atile. -/
def atileGet (s : State) (core a e : Nat) : Word := tget 0 (coreOf s core).atiles (1024 * a + e)

def atileSet (s : State) (core a e : Nat) (x : Word) : State :=
  let c := coreOf s core
  setCore s core { c with atiles := tset 0 c.atiles (1024 * a + e) x }

/-! ### Words that take a claim (R262, R273) -/

def accTrap (cause ln : Nat) : Trap := { cls := 17, info0 := BitVec.ofNat 64 cause, info1 := BitVec.ofNat 64 ln }

/-- The checks of R273 on an atile scalar, of which bits from `hi` on are zero. -/
def atileTrap (s : State) (u : Issue) (x : Dword) : Option Trap :=
  if (teamHere s u).acc ≤ bits x.toNat 0 16 then some (accTrap (causeCode 273 1) (lowest u.f.lanes))
  else if bits x.toNat 16 48 != 0 then some (accTrap (causeCode 273 2) (lowest u.f.lanes))
  else none

/-- The lowest lane whose value lies at or beyond 2^n. -/
def wideTrap (u : Issue) (x : Opnd) (n place : Nat) : Option Trap :=
  ((lanesOf u.f.lanes).find? (fun l => 2 ^ n ≤ (val32 u.g x l).toNat)).map (fun l => accTrap (causeCode 273 place) l)

/-- A word acts on an atile under its claim, and waits its turn for it. -/
def withClaim (s : State) (u : Issue) (x : Dword) (k : State → Nat → Nat → State) : Out :=
  let core := ringCore s u.g.gang u.g.team
  let a := (teamHere s u).atiles + bits x.toNat 0 16
  let taker := takerWord u.key (lowest u.f.lanes)
  let s := askClaim s core a taker
  if holdsClaim s core a taker then .next (finish (dropClaims (k s core a) core taker) u)
  else .next (holdUnit s u (.claim 0))

/-- AZERO: the atiles of a run in turn, each under its claim. -/
def zeroRun (s : State) (u : Issue) (core base : Nat) : Nat → Nat → State
  | 0, _ => finish s u
  | k + 1, i =>
    let taker := takerWord u.key (lowest u.f.lanes)
    let s := askClaim s core (base + i) taker
    if holdsClaim s core (base + i) taker then
      let c := coreOf s core
      let s := setCore s core { c with atiles := c.atiles.filter (fun e => e.1 / 1024 != base + i) }
      zeroRun (dropClaims s core taker) u core base k (i + 1)
    else holdUnit s u (.claim i)

def execAzero (a b : Opnd) (s : State) : Out :=
  withIssue s (fun u =>
    let x := sreg u.g (scalarNo a)
    let n := (sreg u.g (scalarNo b)).toNat
    match atileTrap s u x with
    | some t => .next (raise s u t)
    | none =>
      if (teamHere s u).acc < x.toNat + n then .next (raise s u (accTrap (causeCode 274 0) (lowest u.f.lanes)))
      else
        let i := match u.f.hold with
          | .claim i => i
          | _ => 0
        .next (zeroRun s u (ringCore s u.g.gang u.g.team) ((teamHere s u).atiles + x.toNat) (n - i) i))

/-- An element's place from a coordinate: bits 4:0 the column, bits 9:5 the row. -/
def coordOf (g : Group) (x : Opnd) (l : Nat) : Nat := (val32 g x l).toNat % 1024

def execArd (d a b : Opnd) (s : State) : Out :=
  withRegs s [(d, 1), (b, 1)] (fun u =>
    let x := sreg u.g (scalarNo a)
    match (atileTrap s u x).orElse (fun _ => wideTrap u b 10 3) with
    | some t => .next (raise s u t)
    | none => withClaim s u x (fun s core i =>
        modGroup s u.key (fun g => writeVec g d 1 u.f.lanes u.f.lanes false (fun l =>
          (atileGet s core i (coordOf u.g b l)).setWidth 64))))

def execAwr (d a b : Opnd) (s : State) : Out :=
  withRegs s [(a, 1), (b, 1)] (fun u =>
    let x := sreg u.g (scalarNo d)
    match (atileTrap s u x).orElse (fun _ => wideTrap u a 10 3) with
    | some t => .next (raise s u t)
    | none => withClaim s u x (fun s core i =>
        (lanesOf u.f.lanes).foldl (fun s l => atileSet s core i (coordOf u.g a l) (val32 u.g b l)) s))

/-- An element times a scale, rounded (R277). -/
def scaled (e scale : Word) : Word :=
  BitVec.ofNat 32 (roundFmt .f32 false .rne 0 ((decodeFmt .f32 e.toNat).mul (decodeFmt .f32 scale.toNat)))

def execAscale (d a b : Opnd) (s : State) : Out :=
  withRegs s [(a, 1), (b, 1)] (fun u =>
    let x := sreg u.g (scalarNo d)
    match (atileTrap s u x).orElse (fun _ => wideTrap u a 5 4) with
    | some t => .next (raise s u t)
    | none => withClaim s u x (fun s core i =>
        (lanesOf u.f.lanes).foldl (fun s l => (List.range 32).foldl (fun s c =>
          let e := 32 * ((val32 u.g a l).toNat % 32) + c
          atileSet s core i e (scaled (atileGet s core i e) (val32 u.g b l))) s) s))

/-- AGIDX writes entries of an index buffer (R278). -/
def execAgidx (a b : Opnd) (s : State) : Out :=
  withRegs s [(b, 1)] (fun u =>
    let x := (sreg u.g (scalarNo a)).toNat
    let bad := if 512 ≤ x then some (lowest u.f.lanes) else (lanesOf u.f.lanes).find? (fun l => 256 ≤ x % 256 + l)
    if (teamHere s u).acc = 0 then .next (raise s u (accTrap (causeCode 273 1) (lowest u.f.lanes)))
    else match bad with
    | some l => .next (raise s u (accTrap (causeCode 278 0) l))
    | none => .next (finish (modTeam s u.g.gang u.g.team (fun t =>
        { t with index := (lanesOf u.f.lanes).foldl (fun i l => tset 0 i (x + l) (val32 u.g b l)) t.index })) u))

/-! ### Tile transfers (R279 to R281) -/

/-- A tile transfer's operands: 1 for ASTORE, the address, the atile scalar, the control word and the team. -/
structure TileOps where
  store : Nat
  addr  : Nat
  atile : Nat
  ctl   : Nat
  team  : Nat
deriving DecidableEq, Repr, Inhabited

def TileOps.list (o : TileOps) : List Nat := [o.store, o.addr, o.atile, o.ctl, o.team]

def TileOps.ofList (xs : List Nat) : TileOps :=
  ⟨(xs[0]?).getD 0, (xs[1]?).getD 0, (xs[2]?).getD 0, (xs[3]?).getD 0, (xs[4]?).getD 0⟩

def TileOps.rows (o : TileOps) : Nat := bits o.ctl 0 6
def TileOps.cols (o : TileOps) : Nat := bits o.ctl 6 6
def TileOps.code (o : TileOps) : Nat := bits o.ctl 12 2
def TileOps.sva (o : TileOps) : Bool := bit o.ctl 14
def TileOps.pitch (o : TileOps) : Nat := 16 * bits o.ctl 16 16
def TileOps.row (o : TileOps) : Nat := bits o.atile 16 5
def TileOps.size (o : TileOps) : Nat := if o.code = 0 then 4 else 2
def TileOps.fmt (o : TileOps) : Fmt :=
  match o.code with
  | 0 => .f32
  | 1 => .bf16
  | _ => .f16
/-- Bytes of a row, and its units or parts of units. -/
def TileOps.rowBytes (o : TileOps) : Nat := o.cols * o.size
def TileOps.rowUnits (o : TileOps) : Nat := (o.rowBytes + 15) / 16
def TileOps.total (o : TileOps) : Nat := o.rows * o.rowUnits

/-- The trap of a tile transfer (R273, R279). -/
def tileTrap (s : State) (u : Issue) (o : TileOps) : Option Trap :=
  let bad := fun (place : Nat) => some (accTrap (causeCode 279 place) (lowest u.f.lanes))
  let last := o.addr + o.pitch * (o.rows - 1) + o.rowBytes
  if (teamHere s u).acc ≤ o.atile % 65536 then some (accTrap (causeCode 273 1) (lowest u.f.lanes))
  else if 32 < o.rows || 32 < o.cols then bad 1
  else if 32 < o.row + o.rows then bad 2
  else if o.code = 3 then bad 3
  else if bit o.ctl 15 || bits o.ctl 32 32 != 0 || 2 ^ 21 ≤ o.atile then bad 4
  else if o.addr % 16 != 0 then bad 5
  else if 1 < o.rows && o.pitch < o.rowBytes then bad 6
  else if o.sva && (2 ^ 32 ≤ o.addr || (o.total != 0 && scratchOf s u.g < last)) then bad 7
  else none

/-- ALOAD and ASTORE issue: counted on SETB, in the open batches of the fragment's threads, and in line for the claim. -/
def tileWord (s : State) (store : Nat) (addr atile ctl : Opnd) : Out :=
  withIssue s (fun u =>
    engineWord s u (
    let get := fun (x : Opnd) => (sreg u.g (scalarNo x)).toNat
    let o : TileOps := ⟨store, get addr, get atile, get ctl, u.g.team⟩
    match tileTrap s u o with
    | some t => .next (raise s u t)
    | none =>
      if (counterFull u.g (clauseSetB u.f)).isSome then .next (holdUnit s u .unit)
      else
        let r := countOp s u.key (clauseSetB u.f) false 1 []
        let core := ringCore s u.g.gang u.g.team
        let x := enterTransfer r.1
          { number := 0, kind := 1, core := core, group := some u.key, gang := u.g.gang,
            ctx := ((launchOfGroup s u.g).map (·.ctx)).getD 0, lanes := u.f.lanes, lane := lowest u.f.lanes, op := some r.2,
            counter := clauseSetB u.f, node := none, packet := none, operands := o.list, engine := none, progress := 0, read := [], halted := false,
            freezes := false, err := false, complete := none, anchor := anchorLanes u.g u.f.lanes }
        let s := modGroup x.1 u.key (fun g => openBatch g u.f.lanes x.2)
        let s := { s with ops := tmod s.ops r.2 (fun o => { o with issued := true }) }
        .next (endEngineWord (askClaim s core ((teamHere s u).atiles + o.atile % 65536) (takerTile x.2)) u r.2)))

def execAload (d a b : Opnd) (s : State) : Out := tileWord s 0 a d b
def execAstore (d a b : Opnd) (s : State) : Out := tileWord s 1 d a b

/-- The pattern that ASTORE writes for an element, and the element that ALOAD writes for a pattern. -/
def toTile (f : Fmt) (e : Word) : Nat := if f = .f32 then e.toNat else roundFmt f false .rne 0 (decodeFmt .f32 e.toNat)
def fromTile (f : Fmt) (x : Nat) : Word :=
  BitVec.ofNat 32 (if f = .f32 then x else roundFmt .f32 false .rne 0 (decodeFmt f x))

/-- The next unit, or part of one, of a tile transfer; `false` when it stops there or none is left. -/
def moveTile (s : State) (n : Nat) : State × Bool :=
  match tfind s.transfers n with
  | none => (s, false)
  | some t =>
    let o := TileOps.ofList t.operands
    match teamOf s t.gang o.team with
    | none => (s, false)
    | some team =>
      let a := team.atiles + o.atile % 65536
      if t.complete.isSome || t.halted || o.total ≤ t.progress || !holdsClaim s t.core a (takerTile n) then (s, false)
      else
        let i := t.progress / o.rowUnits
        let lo := 16 * (t.progress % o.rowUnits)
        let len := min 16 (o.rowBytes - lo)
        let addr := o.addr + o.pitch * i + lo
        let e := 32 * (o.row + i) + lo / o.size
        let stop := fun (s : State) (x : EngineStop) => (stopTransfer s ((tfind s.transfers n).getD t) x, false)
        let on := fun (s : State) => (modTransfer s n (fun t => { t with progress := t.progress + 1, starved := none }), true)
        if o.store = 1 then
          let bs := (List.range (len / o.size)).flatMap (fun k => leBytes o.size (toTile o.fmt (atileGet s t.core a (e + k))))
          match (if o.sva then engineSvaWrite s t.gang t.core n t.progress addr bs false
                 else engineWrite s (whoTransfer s t) n t.progress addr bs false) with
          | (s, .error x) => stop s x
          | (s, .ok _) => on s
        else
          match (if o.sva then engineSvaRead s t.gang t.core t.anchor addr len
                 else engineRead s (whoTransfer s t) t.anchor addr len) with
          | (s, .error x) => stop s x
          | (s, .ok (_, true)) => stop s (.window addr (2 ^ 31 + 2 ^ 24 * t.core + 4096 * a + 4 * e))
          | (s, .ok (bs, false)) =>
            on ((List.range (len / o.size)).foldl
              (fun s k => atileSet s t.core a (e + k) (fromTile o.fmt (field bs (o.size * k) o.size))) s)

def moveTiles (n : Nat) : Nat → State → State
  | 0, s => s
  | k + 1, s =>
    match moveTile s n with
    | (s, true) => moveTiles n k s
    | (s, false) => s

/-- A tile transfer that holds its claim moves up to the units that the event carries, and completes when none is left. -/
def execTileTransferComplete (s : State) : Out :=
  let n := s.input.key
  match tfind s.transfers n with
  | none => .next s
  | some t =>
    if t.kind != 1 || t.complete.isSome || t.halted then .next s
    else
      let o := TileOps.ofList t.operands
      let s := moveTiles n s.input.value.toNat s
      match tfind s.transfers n with
      | none => .next s
      | some t =>
        if o.total ≤ t.progress && s.requests.all (fun r => !(r.kind == 5 && r.reg == 0 && r.word == n)) && !t.halted then
          .next (completeTransfer s n false)
        else .next s

end Sys2Proof.Machine
end

