-- ==== Sys2Proof/Machine/Walker.lean ====
section
/-!
DEFINITION. Task rings and the walker (R238 to R242, R255, R268 to R271): MPOST and acceptance, MCFG, MQUERY and MCANCEL, and
the completion of a node.
-/
namespace Sys2Proof.Machine

open Sys2Proof

/-! ### Task records (R238, R249) -/

def rkind (bs : List Byte) : Nat := field bs 0 1 % 4
def rmode (bs : List Byte) : Bool := bit (field bs 0 1) 2
def rgather (bs : List Byte) : Bool := bit (field bs 0 1) 3
def rpred (bs : List Byte) : Nat := field bs 1 1
def rtag (bs : List Byte) : Nat := field bs 2 2
/-- The valid SUCC entries. -/
def rsucc (bs : List Byte) : List Nat :=
  ((List.range 4).map (fun i => field bs (4 + 2 * i) 2)).filterMap (fun e => if bit e 15 then some (e % 1024) else none)

/-- A copy node's transfer. -/
def nodeCopy (bs : List Byte) : CopyOps :=
  ⟨field bs 0x10 8, field bs 0x18 8, field bs 0x20 4, field bs 0x24 4, field bs 0x28 4, field bs 0x2C 4, field bs 0x30 8,
    if rgather bs then 1 else 0⟩

/-- A compute node's body. -/
structure Node where
  m      : Nat
  n      : Nat
  k      : Nat
  fa     : Nat
  fb     : Nat
  aSva   : Bool
  bSva   : Bool
  ct     : Nat
  ga     : Nat
  gb     : Nat
  sca    : Nat
  scb    : Nat
  idxf   : Nat
  abase  : Nat
  bbase  : Nat
  apitch : Nat
  bpitch : Nat
  idx    : Nat
  acc    : Bool
deriving DecidableEq, Repr, Inhabited

def nodeBody (bs : List Byte) : Node :=
  let f := fun (a n : Nat) => field bs a n
  { m := f 0x10 2, n := f 0x12 2, k := f 0x14 2, fa := f 0x16 1 % 16, fb := f 0x17 1 % 16, aSva := bit (f 0x16 1) 4,
    bSva := bit (f 0x17 1) 4, ct := f 0x18 2, ga := f 0x1A 1 % 4, gb := f 0x1A 1 / 4 % 4, sca := f 0x1B 1, scb := f 0x1C 1,
    idxf := f 0x1D 1 % 4, abase := f 0x20 8, bbase := f 0x28 8, apitch := f 0x30 4, bpitch := f 0x34 4, idx := f 0x38 8,
    acc := rmode bs }

/-- The width of an operand format, and the depth that a pair takes in a clock (R244); 0 where the pair is refused (R250). -/
def opWidth (f : Nat) : Nat := if f = 6 || f = 7 then 4 else if f = 4 || f = 5 then 8 else if f = 2 || f = 3 then 16 else 0
def pairDepth (fa fb : Nat) : Nat :=
  match opWidth fa, opWidth fb with
  | 4, 4 => 64
  | 16, 16 => 16
  | 4, 8 | 8, 4 | 8, 8 => 32
  | _, _ => 0

/-- The latch need (R255). -/
def Node.latchNeed (x : Node) : Nat :=
  (x.m * x.k * opWidth x.fa + 7) / 8 + (x.n * x.k * opWidth x.fb + 7) / 8 + 4 * ((x.k + 31) / 32) * (x.m + x.n)

/-- Columns of destination atiles, and the destination atiles, team-local (R254). -/
def Node.across (x : Node) : Nat := (x.n + 31) / 32
def Node.atiles (x : Node) : List Nat :=
  if x.m = 0 || x.n = 0 then [] else (List.range ((x.m + 31) / 32 * x.across)).map (fun i => x.ct + i)

/-- A compute record is refused (R249, R255). -/
def computeRefused (bs : List Byte) (scratch acc : Nat) : Bool :=
  let x := nodeBody bs
  let kd := pairDepth x.fa x.fb
  let far := fun (sva : Bool) (a : Nat) => sva && decide (2 ^ 32 ≤ a)
  256 < x.m || 256 < x.n || kd = 0 ||
  (!x.aSva && (x.ga != 0 || x.sca != 0)) || (!x.bSva && (x.gb != 0 || x.scb != 0)) ||
  (x.ga = 0 && x.sca != 0) || (x.gb = 0 && x.scb != 0) ||
  (x.idxf = 3 && 1 < x.idx) || (x.idxf = 0 && x.idx != 0) || ((x.idxf = 1 || x.idxf = 2) && x.idx % 4 != 0) ||
  x.abase % 16 != 0 || x.bbase % 16 != 0 || x.apitch % 16 != 0 || x.bpitch % 16 != 0 ||
  far x.aSva x.abase || far x.bSva x.bbase || far (x.idxf == 2) x.idx ||
  ((x.aSva || x.bSva || x.idxf = 2) && scratch = 0) ||
  x.atiles.any (fun a => acc ≤ a) || 262144 < x.latchNeed ||
  2048 < (x.m + 31) / 32 * x.across * ((x.k + kd - 1) / kd) ||
  field bs 0x16 1 / 32 != 0 || field bs 0x17 1 / 32 != 0 || field bs 0x1A 1 / 16 != 0 || field bs 0x1D 1 / 4 != 0 ||
  field bs 0x1E 2 != 0 || rgather bs

/-- A copy record is refused: the fields of its body, and the checks that a transfer of its form meets at issue (R222, R239). -/
def copyRefused (bs : List Byte) : Bool :=
  let o := nodeCopy bs
  rmode bs || field bs 0x38 8 != 0 || (rgather bs && (o.sp != 0 || o.dp != 0)) || (!rgather bs && o.idx != 0) ||
  1 < o.ssp || 1 < o.dsp || (copyCase o true).isSome

/-- A record is refused (R241), in a ring of `n` slots. -/
def recordRefused (bs : List Byte) (n scratch acc : Nat) : Bool :=
  field bs 0 1 / 16 != 0 || field bs 14 2 != 0 || bits (field bs 12 2) 10 5 != 0 ||
  (List.range 4).any (fun i => bits (field bs (4 + 2 * i) 2) 10 5 != 0) || (rsucc bs).any (fun x => n ≤ x) ||
  (match rkind bs with
   | 1 => copyRefused bs
   | 2 => computeRefused bs scratch acc
   | _ => true)

/-! ### Slots -/

/-- Slots of a team's ring, 0 for none. -/
def ringSize (t : Team) : Nat := if t.ringLog = 0 then 0 else 2 ^ t.ringLog

def slotOf (t : Team) (j : Nat) : Slot := tget Slot.reset t.slots j

def setSlot (s : State) (uid team j : Nat) (x : Slot) : State :=
  modTeam s uid team (fun t => { t with slots := tset Slot.reset t.slots j x })

/-- The group of a gang by team and %gid. -/
def groupAt (s : State) (uid team gid : Nat) : Option (Nat × Group) :=
  (groupsOf s uid).find? (fun x => x.2.team == team && x.2.gid == gid)

/-- The error flag of a counter of a group is set. -/
def flagCounter (s : State) (key k : Nat) : State :=
  modGroup s key (fun g => setCounter g k { counterOf g k with err := true })

/-! ### Completion of a node (R242) -/

/-- A predecessor of the slot's node has completed: the count falls, or the decrement is held for a later node. A copy node's reads come
after the writes of its copy predecessors (R349), and a gather after every predecessor (R258). -/
def releaseSucc (s : State) (uid team : Nat) (copied : Bool) (j : Nat) : State :=
  match teamOf s uid team with
  | none => s
  | some t =>
    if ringSize t ≤ j then s
    else
      let x := slotOf t j
      if x.state = 1 && 0 < x.r then
        setSlot s uid team j
          { x with r := x.r - 1, state := if x.r = 1 then 2 else 1,
                   anchor := if copied || rkind x.record == 2 then { x.anchor with place := s.mem.order } else x.anchor }
      else setSlot s uid team j { x with h := min (x.h + 1) 255, early := s.mem.order, copied := if copied then s.mem.order else x.copied }

/-- The node's target counter is decremented, with its flag. -/
def releaseTarget (s : State) (uid : Nat) (bs : List Byte) (err : Bool) : State :=
  match recTarget bs with
  | none => s
  | some (k, gid, team) =>
    match groupAt s uid team gid with
    | none => s
    | some (key, _) => modGroup s key (fun g => setCounter g k ((counterOf g k).dec err))

/-- The node of a slot completes, its own writes having been performed. -/
def finishNode (s : State) (uid team j : Nat) (err : Bool) : State :=
  match teamOf s uid team with
  | none => s
  | some t =>
    let x := slotOf t j
    let s := dropClaims s (ringCore s uid team) (takerNode uid team j)
    let s := match x.trans with
      | none => s
      | some n =>
        let s := applyPlaces s (fun p => p.transfer == n)
        { s with transfers := tdel s.transfers n }
    let s := (rsucc x.record).foldl (fun s i => releaseSucc s uid team (rkind x.record == 1) i) s
    let s := releaseTarget s uid x.record (err || x.err)
    let left := ((teamOf s uid team).map (fun t => slotOf t j)).getD Slot.reset
    setSlot s uid team j { Slot.reset with h := left.h, early := left.early, copied := left.copied }

/-! ### MPOST and acceptance (R240, R241) -/

def taskTrap (cause : Nat) : Trap := { cls := 15, info0 := BitVec.ofNat 64 cause }

/-- The checks that MPOST and MCANCEL make of a run of slots. -/
def ringTrap (t : Team) (rule : Nat → Nat) (a b : Nat) : Option Trap :=
  if ringSize t = 0 then some (taskTrap (rule 1))
  else if ringSize t ≤ a then some (taskTrap (rule 2))
  else if ringSize t < b then some (taskTrap (rule 3)) else none

/-- What the walker's reads for the threads of an MPOST are anchored after. -/
def anchorPost (g : Group) (m : Dword) : Since :=
  { anchorLanes g m with covers := ((lanesOf m).flatMap (fun l => (batchOf g l).covered)).eraseDups }

def execMpost (a b : Opnd) (s : State) : Out :=
  withIssue s (fun u => engineWord s u (
    let first := (sreg u.g (scalarNo a)).toNat
    let n := (sreg u.g (scalarNo b)).toNat
    match ringTrap (teamHere s u) (causeCode 240) first n with
    | some t => .next (raise s u t)
    | none =>
      if (counterFull u.g (clauseSetB u.f)).isSome then .next (holdUnit s u .unit)
      else
        let r := countOp s u.key (clauseSetB u.f) false 1 []
        let s := { r.1 with ops := tmod r.1.ops r.2 (fun o => { o with issued := true }) }
        if n = 0 then .next (finish (opHappened s r.2) u)
        else
          let p : Post := { op := some r.2, slot := first, left := n, group := u.key, gid := u.g.gid, lanes := u.f.lanes,
                            setb := (clauseSetB u.f).getD 15, anchor := anchorPost u.g u.f.lanes, stamp := s.tick,
                            place := s.mem.order }
          .next (endEngineWord (modTeam s u.g.gang u.g.team (fun t => { t with posts := t.posts ++ [p] })) u r.2)))

/-- The 64 bytes of a record of a post, each 16-byte unit as it stood at some moment since the post, with the engine writes that the
posting threads' waits covered. -/
def readRecord (s : State) (uid core : Nat) (p : Post) (sva : Nat) : State × Except EngineStop (List Byte) :=
  (List.range 4).foldl (fun (acc : State × Except EngineStop (List Byte)) i =>
    match acc with
    | (s, .error e) => (s, .error e)
    | (s, .ok bs) =>
      match engineSvaRead s uid core { p.anchor with place := p.place } (sva + 16 * i) 16 with
      | (s, .error e) => (s, .error e)
      | (s, .ok x) =>
        if x.2 then (s, .error (.consume (sva + 16 * i))) else (s, .ok (bs ++ x.1))) (s, .ok [])

/-- The record's target: none, a group's counter that it may touch, or one that it may not. -/
inductive Target where
  | none
  | counter (key k : Nat)
  | bad
deriving DecidableEq, Repr, Inhabited

def targetOf (s : State) (uid : Nat) (bs : List Byte) : Target :=
  match recTarget bs with
  | none => .none
  | some (k, gid, team) =>
    match groupAt s uid team gid with
    | none => .bad
    | some (key, g) => if k ≤ 11 && (counterOf g k).bound then .counter key k else .bad

/-- One record of a post has been accepted. -/
def stepPost (s : State) (uid team : Nat) (p : Post) (n : Nat) : State :=
  let rest := { p with slot := (p.slot + 1) % n, left := p.left - 1, starved := none }
  let s := modTeam s uid team (fun t => { t with posts := if rest.left = 0 then t.posts.drop 1 else rest :: t.posts.drop 1 })
  match p.op with
  | none => s
  | some id => if rest.left = 0 then enginePart s id false else s

/-- The walker accepts the next record of a team's posts. -/
def acceptRecord (s : State) (uid team : Nat) (t : Team) (p : Post) (bs : List Byte) : State :=
  let n := ringSize t
  let tgt := targetOf s uid bs
  let full : Bool := match tgt with
    | .counter key k => ((groupOf s key).map (fun g => decide (255 ≤ (counterOf g k).val))).getD false
    | _ => false
  if full then s
  else
    let refused := recordRefused bs n (scratchOfGang s uid) t.acc
    let flag := (refused || tgt = .bad) && p.setb ≤ 11
    let s := if flag then flagCounter s p.group p.setb else s
    let s := match tgt with
      | .counter key k => modGroup s key (fun g => setCounter g k { counterOf g k with val := (counterOf g k).val + 1 })
      | _ => s
    -- A target that may not be touched is no target of the walker's copy.
    let copy := if tgt = .bad then bs.take 12 ++ leBytes 2 0 ++ bs.drop 14 else bs
    let old := slotOf t p.slot
    let r : Int := rpred bs - old.h
    let x := nodeBody bs
    let index := if rkind bs = 2 && x.idxf = 3 then (List.range x.m).map (fun i => tget 0 t.index (256 * x.idx + i)) else []
    let slot : Slot := { Slot.reset with
      state := if 0 < r then 1 else 2, r := r, record := copy, err := r < 0, order := t.accepted + 1,
      poster := p.group, lanes := p.lanes, pending := p.setb, index := index,
      anchor := if rkind bs = 2 then { p.anchor with place := max p.place old.early }
        else { p.anchor with place := max p.anchor.place old.copied, covers := [] } }
    let s := modTeam s uid team (fun t => { t with accepted := t.accepted + 1 })
    let s := setSlot s uid team p.slot slot
    let s := if refused then finishNode s uid team p.slot true else s
    stepPost s uid team p n

/-- The first of a team's posts waits for a frame for its record, or no longer does. -/
def starvePost (s : State) (uid team : Nat) (x : Option (Nat × Nat)) : State :=
  modTeam s uid team (fun t => { t with posts := match t.posts with
    | [] => []
    | p :: ps => { p with starved := x } :: ps })

def execWalkerAccept (s : State) : Out :=
  let uid := s.input.key
  let team := s.input.sub
  match teamOf s uid team with
  | none => .next s
  | some t =>
    match t.posts with
    | [] => .next s
    | p :: _ =>
      if ringSize t = 0 || (slotOf t p.slot).state != 0 || s.saves.any (fun v => v.gang == uid) then .next s
      else
        let core := ringCore s uid team
        match readRecord s uid core p (t.ringBase + 64 * p.slot) with
        | (s, .error (.consume a)) => .next (engineConsume s uid core 0x20 a (lowest p.lanes))
        | (s, .error (.backing va cause)) => .next (pendBacking s uid va cause)
        | (s, .error (.noFrame sva)) => .next (starvePost s uid team (starvedAt s.clock sva p.starved))
        | (s, .error _) => .next (if p.starved.isNone then s else starvePost s uid team none)
        | (s, .ok bs) => .next (acceptRecord s uid team t p bs)

/-! ### MCFG, MQUERY, MCANCEL (R269 to R271) -/

/-- Whether a word of the walker may act: every MPOST of the team issued before it has been accepted, and no other such word of
the team came first. -/
def walkerTurn (s : State) (u : Issue) (since : Nat) : Bool :=
  (teamHere s u).posts.all (fun p => since ≤ p.stamp) &&
  (groupsOf s u.g.gang).all (fun x => x.2.team != u.g.team || x.2.frags.all (fun f => match f.hold with
    | .walker t => since ≤ t
    | _ => true))

/-- When the word reached the walker. -/
def walkerSince (s : State) (u : Issue) : Nat :=
  match u.f.hold with
  | .walker t => t
  | _ => s.tick

def execMcfg (a b : Opnd) (s : State) : Out :=
  withIssue s (fun u =>
    let base := (sreg u.g (scalarNo a)).toNat
    let log := (sreg u.g (scalarNo b)).toNat
    if log = 1 || log = 2 || log = 3 || 10 < log ||
        (log != 0 && (base % 64 != 0 || scratchOf s u.g < base + 64 * 2 ^ log)) then
      .next (raise s u (taskTrap (causeCode 269 0)))
    else
      let since := walkerSince s u
      if walkerTurn s u since && (teamHere s u).slots.all (fun x => x.2.state == 0) then
        .next (finish (modTeam s u.g.gang u.g.team (fun t =>
          { t with ringBase := if log = 0 then 0 else base, ringLog := log, slots := [] })) u)
      else .next (holdUnit s u (.walker since)))

/-- Whether a node will complete with error status, as far as it has come: its own, or its transfer's (R270). -/
def nodeErr (s : State) (x : Slot) : Bool := x.err || ((x.trans.bind (tfind s.transfers)).map (·.err)).getD false

/-- MQUERY of a slot (R270).

DESIGN CHOICE (log entry 91): an r below 0 reads mod 256. -/
def querySlot (s : State) (x : Slot) : Nat :=
  x.state + 4 * x.phase + 2 ^ 8 * (x.r % 256).toNat + 2 ^ 16 * x.h + 2 ^ 24 * rtag x.record + 2 ^ 40 * (nodeErr s x).toNat +
    2 ^ 41 * rkind x.record

/-- MQUERY of the team. -/
def queryTeam (t : Team) : Nat :=
  t.atiles + 2 ^ 10 * t.acc + 2 ^ 20 * (t.ringBase % 2 ^ 24) + 2 ^ 44 * t.ringLog +
    2 ^ 48 * ((t.slots.filter (fun x => x.2.state != 0)).length)

def execMquery (d a : Opnd) (s : State) : Out :=
  withRegs s [(d, 2)] (fun u =>
    let x := (sreg u.g (scalarNo a)).toNat
    let t := teamHere s u
    if 2 ^ 17 ≤ x || (!bit x 16 && ringSize t ≤ x) then .next (raise s u (taskTrap (causeCode 270 0)))
    else
      capturedWord s u .mquery 8 (if bit x 16 then queryTeam t else querySlot s (slotOf t x)) (fun s v =>
        .next (finish (modGroup s u.key (fun g => writeVec g d 2 u.f.lanes u.f.lanes false (fun l => BitVec.ofNat 64 (v l)))) u)))

/-- The slots of a run, in order. -/
def slotRun (n first count : Nat) : List Nat := (List.range count).map (fun i => (first + i) % n)

/-- Whether MCANCEL cancels a node: waiting, ready, parked or in gather. -/
def cancels (x : Slot) : Bool := x.state == 1 || x.state == 2 || x.phase == 1 || x.phase == 3

def execMcancel (d a b : Opnd) (s : State) : Out :=
  withIssue s (fun u =>
    let first := (sreg u.g (scalarNo a)).toNat
    let n := (sreg u.g (scalarNo b)).toNat
    let t := teamHere s u
    match ringTrap t (fun _ => causeCode 271 0) first n with
    | some t => .next (raise s u t)
    | none =>
      let since := walkerSince s u
      if walkerTurn s u since then
        let hit := (slotRun (ringSize t) first n).filter (fun j => cancels (slotOf t j))
        let s := hit.foldl (fun s j => finishNode s u.g.gang u.g.team j true) s
        .next (finish (modGroup s u.key (fun g => setSreg g (scalarNo d) (BitVec.ofNat 64 hit.length))) u)
      else .next (holdUnit s u (.walker since)))

end Sys2Proof.Machine
end

