-- ==== Sys2Proof/Machine/Matrix.lean ====
section
/-!
DEFINITION. The life of a compute node (R244, R245, R251 to R263, R266) with the summation of the matrix engines (R108 to R110),
and the walker's issue and completion of nodes of both kinds (R242).
-/
namespace Sys2Proof.Machine

open Sys2Proof

/-! ### The gather (R251 to R253, R258 to R261) -/

/-- What stops a gather: it goes on later; a page is not resident, and the node is aborted, or no frame can be taken for it; it is parked, with the operand, the
address and the cause; its context freezes; a backing area fails; poison is consumed. -/
inductive GatherStop where
  | later
  | page
  | starve (sva : Nat)
  | park (operand va cause : Nat)
  | freeze (cause : Nat)
  | backing (va cause : Nat)
  | consume (addr : Nat)
deriving DecidableEq, Repr, Inhabited

def gatherStop (operand : Nat) (sva : Bool) : EngineStop → GatherStop
  | .wait => if sva then .page else .later
  | .noFrame a => .starve a
  | .fault va cause => .park operand va cause
  | .freeze n => .freeze n
  | .backing va cause => .backing va cause
  | .consume a => .consume a
  | .window a _ => .consume a

/-- Who gathers: for whom, in which gang and on which core, after which anchor, with how much scratchpad. -/
structure Gatherer where
  w       : Who
  uid     : Nat
  core    : Nat
  anchor  : Since
  scratch : Nat
deriving DecidableEq, Repr, Inhabited

/-- An operand: its code in the node-fault info, its format, and, in scratchpad, its geometry and descriptor. -/
structure GatherOperand where
  op   : Nat
  code : Nat
  sva  : Bool
  geom : Nat
  sci  : Nat
deriving DecidableEq, Repr, Inhabited

/-- An element that has been read: its bits, the geometry and descriptor that its scale comes from. -/
structure Gathered where
  bits : Nat
  geom : Nat
  sci  : Nat
  desc : Nat
deriving DecidableEq, Repr, Inhabited

abbrev GatherResult (α : Type) := State × Except GatherStop α

def gatherFmt (o : GatherOperand) : Fmt := (fmtOfCode o.code).getD .f32

/-- The descriptor of an element whose geometry is not none (R105).

DESIGN CHOICE (log entry 92): a companion descriptor that cannot be read, or is bad, is a fault of the element, with its operand code and VA
(R260). -/
def gatherDescriptor (s : State) (c : Gatherer) (o : GatherOperand) (geom sci va : Nat) : GatherResult Nat :=
  if geom = 0 then (s, .ok 0)
  else
    match readDescriptor s c.w sci with
    | (s, .error b) =>
      let r := engineStop s c.w (b.seenAt va) va
      (r.1, .error (gatherStop o.op false r.2))
    | (s, .ok x) => if descriptorOk x va then (s, .ok x) else (s, .error (.park o.op va 8))

/-- The element in nibble `h` of the byte, or in the bytes, at an address. -/
def gatherElement (s : State) (c : Gatherer) (o : GatherOperand) (va h : Nat) : GatherResult Gathered :=
  let n := if (gatherFmt o).bits = 16 then 2 else 1
  let value := fun (bs : List Byte) => if (gatherFmt o).bits = 4 then bits (leNat bs) (4 * h) 4 else leNat bs
  if o.sva then
    if c.scratch ≤ va then (s, .error (.park o.op va 12))
    else
      match engineSvaRead s c.uid c.core c.anchor va n with
      | (s, .error e) => (s, .error (gatherStop o.op true e))
      | (s, .ok (_, true)) => (s, .error (.consume va))
      | (s, .ok (bs, false)) =>
        match gatherDescriptor s c o o.geom o.sci va with
        | (s, .error e) => (s, .error e)
        | (s, .ok x) => (s, .ok ⟨value bs, o.geom, o.sci, x⟩)
  else
    let fail := fun (s : State) (b : XBad) =>
      let r := engineStop s c.w b va
      (r.1, (Except.error (gatherStop o.op false r.2) : Except GatherStop Gathered))
    match leafOf s c.w .load true va with
    | (s, .error b) => fail s b
    | (s, .ok e) =>
      if LeafFmt e != o.code then (s, .error (.park o.op va 8))
      else
        match gatherDescriptor s c o (LeafGeom e) (LeafSci e) va with
        | (s, .error x) => (s, .error x)
        | (s, .ok desc) =>
          match destOf s c.w e va with
          | .error b => fail s b
          | .ok (.dev dpa ma) =>
            (match readPlaced s c.w c.anchor dpa ma n with
             | (s, _, true) => (s, .error (.consume va))
             | (s, bs, false) => (s, .ok ⟨value bs, LeafGeom e, LeafSci e, desc⟩))
          | .ok _ => (s, .error (.park o.op va 8))

/-- The scale of an element, as an FP32 word.

DESIGN CHOICE (log entry 92): a fault of its read has operand code 3 and the scale's own VA. -/
def gatherScale (s : State) (c : Gatherer) (o : GatherOperand) (x : Gathered) (va h : Nat) : GatherResult Word :=
  if x.geom = 0 then (s, .ok 0x3F800000)
  else
    let p := scaleAddr x.desc x.geom (gatherFmt o) va h
    match engineRead s c.w c.anchor p.1 (if p.2 then 1 else 4) with
    | (s, .error e) => (s, .error (gatherStop 3 false e))
    | (s, .ok (_, true)) => (s, .error (.consume p.1))
    | (s, .ok (bs, false)) =>
      (s, .ok (if p.2 then BitVec.ofNat 32 (roundFmt .f32 false .rne 0 (scaleOf true (leNat bs))) else BitVec.ofNat 32 (leNat bs)))

/-- The tensor column of an element (R105). -/
def gatherColumn (x : Gathered) (f : Fmt) (va h : Nat) : Nat := ((va - bits x.desc 64 64) * 8 + 4 * h) / f.bits % bits x.desc 128 32

/-- The elements of a stored row from depth `k` on, each with its scale, as FP32 words; `first` is the K-group's first element with
its scale (R108, R253). -/
def gatherDepths (c : Gatherer) (o : GatherOperand) (row : Nat) : Nat → Nat → Option (Gathered × Word) → State → List Word →
    GatherResult (List Word)
  | 0, _, _, s, out => (s, .ok out)
  | n + 1, k, first, s, out =>
    let f := gatherFmt o
    let va := row + k * f.bits / 8
    let h := k * f.bits % 8 / 4
    match gatherElement s c o va h with
    | (s, .error e) => (s, .error e)
    | (s, .ok x) =>
      let word := BitVec.ofNat 32 (roundFmt .f32 false .rne 0 (decodeFmt f x.bits))
      let fresh := f.bits = 16 || k % 32 = 0
      match fresh, first with
      | false, some (y, scale) =>
        if y.geom = x.geom && (x.geom = 0 || y.sci = x.sci && y.desc = x.desc) then
          gatherDepths c o row n (k + 1) first s (scale :: word :: out)
        else (s, .error (.park o.op va 8))
      | _, _ =>
        if f.bits != 16 && k = 0 && x.geom != 0 && gatherColumn x f va h % (geomShape x.geom).2 != 0 then
          (s, .error (.park o.op va 8))
        else
          match gatherScale s c o x va h with
          | (s, .error e) => (s, .error e)
          | (s, .ok scale) => gatherDepths c o row n (k + 1) (some (x, scale)) s (scale :: word :: out)

/-- The rows of an operand in order; a null row has elements +0 and scales 1 (R252). What is latched is built up newest first. -/
def gatherRows (c : Gatherer) (o : GatherOperand) (k : Nat) : List (Option Nat) → State → List Word → GatherResult (List Word)
  | [], s, out => (s, .ok out)
  | none :: rest, s, out => gatherRows c o k rest s ((List.range k).flatMap (fun _ => [0x3F800000, 0]) ++ out)
  | some row :: rest, s, out =>
    match gatherDepths c o row k 0 none s out with
    | (s, .error e) => (s, .error e)
    | (s, .ok out) => gatherRows c o k rest s out

/-- The index entries of a node's rows (R252). -/
def gatherIndex (c : Gatherer) (x : Node) : Nat → Nat → State → List Nat → GatherResult (List Nat)
  | 0, _, s, out => (s, .ok out.reverse)
  | n + 1, i, s, out =>
    let a := x.idx + 4 * i
    let sva := x.idxf == 2
    if sva && decide (c.scratch ≤ a) then (s, .error (.park 2 a 12))
    else
      match (if sva then engineSvaRead s c.uid c.core c.anchor a 4 else engineRead s c.w c.anchor a 4) with
      | (s, .error e) => (s, .error (gatherStop 2 sva e))
      | (s, .ok (_, true)) => (s, .error (.consume a))
      | (s, .ok (bs, false)) => gatherIndex c x n (i + 1) s (leNat bs :: out)

/-- The addresses of A's rows (R251). -/
def rowsOfA (x : Node) (src : List Nat) : List (Option Nat) :=
  src.map (fun i => if x.idxf != 0 && i = 0xFFFFFFFF then none else some (x.abase + i * x.apitch))

/-- A node's whole gather: A's elements and scales by row and depth, then B's. -/
def gatherNode (s : State) (c : Gatherer) (x : Node) (copied : List Word) : GatherResult (List Word) :=
  if x.k = 0 then (s, .ok [])
  else
    let src : GatherResult (List Nat) := match x.idxf with
      | 0 => (s, .ok (List.range x.m))
      | 3 => (s, .ok (copied.map (·.toNat)))
      | _ => gatherIndex c x x.m 0 s []
    match src with
    | (s, .error e) => (s, .error e)
    | (s, .ok src) =>
      match gatherRows c ⟨0, x.fa, x.aSva, x.ga, x.sca⟩ x.k (rowsOfA x src) s [] with
      | (s, .error e) => (s, .error e)
      | (s, .ok out) =>
        match gatherRows c ⟨1, x.fb, x.bSva, x.gb, x.scb⟩ x.k ((List.range x.n).map (fun j => some (x.bbase + j * x.bpitch))) s out with
        | (s, .error e) => (s, .error e)
        | (s, .ok out) => (s, .ok out.reverse)

/-! ### Summation (R108 to R110) -/

def f32Of (x : Exact) : Exact := decodeFmt .f32 (roundFmt .f32 false .rne 0 x)

/-- The exact terms of an output element at depths `lo` to `hi − 1`: element and scale of A times element and scale of B. They are
also what R110 tests for infinities in a chunk of R108, which scales the sum of a K-group: with an infinite scale the model takes the
terms depth by depth (log entry 47). -/
def nodeTerms (latch : List Word) (x : Node) (i j lo hi : Nat) : List Exact :=
  let word := fun (p : Nat) => decodeFmt .f32 ((latch[p]?).getD 0).toNat
  (List.range (hi - lo)).map (fun q =>
    let a := 2 * (i * x.k + lo + q)
    let b := 2 * (x.m * x.k + j * x.k + lo + q)
    (((word a).mul (word b)).mul (word (a + 1))).mul (word (b + 1)))

/-- The exact sum of a chunk of 128 depths (R108). -/
def chunkSum (ps : List Exact) : Exact := sumExact false (.num 0 false :: ps)

/-- The sum of a group of 16 depths, of which the bits below the window are dropped (R109). -/
def windowSum (ps : List Exact) : Exact :=
  if ps.any (fun p => p.isNan || p.isInf) then sumExact false ps
  else
    match (ps.filter (fun p => !p.isZero)).map (fun p => floorLog2 (ratAbs p.real)) with
    | [] => .num 0 false
    | e :: es =>
      let q := pow2 (es.foldl max e - 47)
      let g := ps.foldl (fun (t : Rat) p =>
        let n : Rat := ((ratAbs p.real / q).floor : Rat) * q
        if p.real < 0 then t - n else t + n) 0
      .num g false

/-- An output element from the element that it starts at. -/
def nodeElement (latch : List Word) (x : Node) (i j : Nat) (start : Word) : Word :=
  let wide := opWidth x.fa = 16
  let depth := if wide then 16 else 128
  let acc := (List.range ((x.k + depth - 1) / depth)).foldl (fun (acc : Exact) c =>
    let ps := nodeTerms latch x i j (depth * c) (min x.k (depth * c + depth))
    f32Of (sumExact false [acc, f32Of (if wide then windowSum ps else chunkSum ps)])) (decodeFmt .f32 start.toNat)
  if x.k = 0 then start else BitVec.ofNat 32 (roundFmt .f32 false .rne 0 acc)

/-- A node writes its M × N block (R254). -/
def nodeWrite (s : State) (core base : Nat) (x : Node) (latch : List Word) : State :=
  (List.range x.m).foldl (fun s i => (List.range x.n).foldl (fun s j =>
    let a := base + x.ct + i / 32 * x.across + j / 32
    let e := 32 * (i % 32) + j % 32
    atileSet s core a e (nodeElement latch x i j (if x.acc then atileGet s core a e else 0))) s) s

/-! ### The walker's issue (R242, R245) -/

/-- A slot's node with its place: gang, team, slot. -/
abbrev NodeAt := Nat × Nat × Nat × Slot

/-- The nodes of the teams whose ring core is a core. -/
def nodesOf (s : State) (core : Nat) : List NodeAt :=
  s.gangs.flatMap (fun q => (List.range q.2.teams.length).flatMap (fun t =>
    if ringCore s q.1 t = core then
      match q.2.teams[t]? with
      | none => []
      | some x => x.slots.map (fun y => (q.1, t, y.1, y.2))
    else []))

/-- A matrix engine that may gather: none gathers on it, and what accumulates on it leaves half of its latch. -/
def matrixFree (s : State) (core : Nat) : Option Nat :=
  (List.range 4).find? (fun e =>
    engineTakes s core e &&
    (nodesOf s core).all (fun x => x.2.2.2.engine != some e || (x.2.2.2.phase == 2 && (nodeBody x.2.2.2.record).latchNeed ≤ 131072)))

/-- A copy engine that is free. -/
def copyFree (s : State) (core : Nat) : Option Nat :=
  (List.range 2).find? (fun e => engineTakes s core (4 + e) && (engineWork s core e).isNone)

/-- Whether the walker may issue a node now. -/
def nodeReady (s : State) (core : Nat) (x : NodeAt) : Bool :=
  let n := x.2.2.2
  n.state == 2 && n.phase != 3 && s.saves.all (fun v => v.gang != x.1) &&
  (if rkind n.record = 2 then (matrixFree s core).isSome
   else (copyFree s core).isSome && decide (copyEntries s core < 128) &&
     ((nextTransfer s core).isNone || (coreOf s core).turn % 2 == 0))

/-- The ready node that is next: the next team in turn, and within it the node accepted first. -/
def nextNode (s : State) (core : Nat) : Option NodeAt :=
  let last := (coreOf s core).walkTurn
  let team := fun (x : NodeAt) => 4 * x.1 + x.2.1
  let before := fun (x y : NodeAt) =>
    if team x = team y then decide (x.2.2.2.order < y.2.2.2.order)
    else if (decide (last < team x)) = decide (last < team y) then decide (team x < team y) else decide (last < team x)
  ((nodesOf s core).filter (nodeReady s core)).foldl (fun b x => match b with
    | none => some x
    | some y => if before x y then some x else some y) none

/-- Who gathers for a node. -/
def gathererOf (s : State) (uid core : Nat) (x : Slot) : Option Gatherer :=
  match gangOf s uid with
  | none => none
  | some q => (launchOf s q.launch).map (fun l => ⟨whoLaunch core l, uid, core, x.anchor, recScratch l⟩)

/-- How a node fault names its node: by team, slot and order of acceptance, so that a later node of the slot is not taken for it. -/
def nodeName (team j : Nat) (x : Slot) : Nat := 1024 * team + j + 4096 * x.order

/-- A node that cannot go on: tried later, ready again, parked with a trap or a freeze, or completed with error status. -/
def stopNode (s : State) (uid team j core : Nat) (x : Slot) (e : GatherStop) : State :=
  let back : Slot := { x with state := 2, phase := 0, engine := none, latch := [], starved := none }
  match e with
  | .later => if x.starved.isNone then s else setSlot s uid team j { x with starved := none }
  | .page => setSlot s uid team j back
  | .starve sva => setSlot s uid team j { back with starved := starvedAt s.clock sva x.starved }
  | .park operand va cause =>
    engineTrap (setSlot s uid team j { back with phase := 3 }) x.poster uid
      ⟨16, BitVec.ofNat 64 va, BitVec.ofNat 64 (j + 2 ^ 16 * rtag x.record + 2 ^ 32 * operand + 2 ^ 40 * cause), 0,
        some (nodeName team j x), none⟩
  | .freeze n => freezeCtx (setSlot s uid team j { back with phase := 3, thaw := true }) ((gangCtx s uid).getD 0) n ((gangOf s uid).map (·.index))
  | .backing va cause => engineBacking (finishNode s uid team j true) x.poster uid va cause
  | .consume a => engineConsume s uid core 0x20 a (lowest x.lanes)

/-- Whether a node has latched everything. -/
def latched (x : Slot) : Bool :=
  let b := nodeBody x.record
  x.latch.length == 2 * b.k * (b.m + b.n)

/-- A node in gather reads its operands. -/
def gatherSlot (s : State) (uid team j core : Nat) (x : Slot) : State :=
  match gathererOf s uid core x with
  | none => s
  | some c =>
    match gatherNode s c (nodeBody x.record) x.index with
    | (s, .error e) => stopNode s uid team j core x e
    | (s, .ok out) => setSlot s uid team j { x with latch := out, starved := none }

/-- A node goes to an engine: an empty one completes (R256), a compute node gathers, and a copy node becomes a transfer. -/
def issueNode (s : State) (core : Nat) (at0 : NodeAt) : State :=
  let (uid, team, j, x) := at0
  let s := setCore s core { coreOf s core with walkTurn := 4 * uid + team }
  if rkind x.record = 2 then
    let b := nodeBody x.record
    if b.m = 0 || b.n = 0 || (b.k = 0 && b.acc) then finishNode s uid team j false
    else
      let x := { x with state := 3, phase := 1, engine := matrixFree s core }
      gatherSlot (setSlot s uid team j x) uid team j core x
  else
    let e := copyFree s core
    let r := enterTransfer s
      { number := 0, kind := 0, core := core, group := some x.poster, gang := uid, ctx := (gangCtx s uid).getD 0, lanes := x.lanes,
        lane := lowest x.lanes, op := none, counter := none, node := some (team, j), packet := none, operands := (nodeCopy x.record).list,
        engine := e, progress := 0, read := [], halted := false, freezes := false, err := false, complete := none,
        anchor := x.anchor }
    let s := setCore r.1 core { coreOf r.1 core with turn := (coreOf r.1 core).turn / 2 * 2 + 1 }
    setSlot s uid team j { x with state := 3, trans := some r.2, engine := e.map (· + 4) }

def execWalkerIssueNode (s : State) : Out :=
  match nextNode s s.input.key with
  | none => .next s
  | some x => .next (issueNode s s.input.key x)

/-! ### Commit and completion (R257, R262, R263) -/

/-- Whether an earlier node of the team that is not complete names one of a node's atiles. -/
def earlierNode (t : Team) (x : Slot) : Bool :=
  let mine := (nodeBody x.record).atiles
  t.slots.any (fun y => y.2.state != 0 && rkind y.2.record == 2 && decide (y.2.order < x.order) &&
    (nodeBody y.2.record).atiles.any (fun a => mine.contains a))

def execNodeCommit (s : State) : Out :=
  let uid := s.input.key
  let team := s.input.sub
  let j := s.input.sub2
  match teamOf s uid team with
  | none => .next s
  | some t =>
    let x := slotOf t j
    let core := ringCore s uid team
    if x.state != 3 || x.phase != 1 then .next s
    else if !latched x then .next (gatherSlot s uid team j core x)
    else if earlierNode t x then .next s
    else
      let taker := takerNode uid team j
      let mine := (nodeBody x.record).atiles.map (fun a => t.atiles + a)
      let s := mine.foldl (fun s a => askClaim s core a taker) s
      if mine.all (fun a => holdsClaim s core a taker) then .next (setSlot s uid team j { x with phase := 2 }) else .next s

/-- A node's engine is done with it: a copy node once its transfer has completed, a compute node once it has written its atiles;
a residue mismatch writes none, and its gang has consumed an error (R266). -/
def execNodeComplete (s : State) : Out :=
  let uid := s.input.key
  let team := s.input.sub
  let j := s.input.sub2
  match teamOf s uid team with
  | none => .next s
  | some t =>
    let x := slotOf t j
    let core := ringCore s uid team
    match x.trans.bind (tfind s.transfers) with
    | some w => if x.state = 3 && w.complete.isSome then .next (finishNode s uid team j w.err) else .next s
    | none =>
      if x.state != 3 || x.phase != 2 then .next s
      else if s.input.ok then .next (engineConsume (finishNode s uid team j true) uid core 0x23 0 (j + 2 ^ 16 * rtag x.record))
      else .next (finishNode (nodeWrite s core t.atiles (nodeBody x.record) x.latch) uid team j false)

/-! ### Parked nodes (R260) -/

/-- The team and slot of the parked node that a node fault names, while it is still there. -/
def parkedNode (s : State) (uid n : Nat) : Option (Nat × Nat) :=
  let team := n / 1024 % 4
  let j := n % 1024
  match teamOf s uid team with
  | none => none
  | some t => if (slotOf t j).phase = 3 && (slotOf t j).order == n / 4096 then some (team, j) else none

/-- A parked node is ready again, or completes with error status. -/
def resumeNode (s : State) (uid n : Nat) : State :=
  match parkedNode s uid n with
  | none => s
  | some (team, j) => modTeam s uid team (fun t =>
      { t with slots := tset Slot.reset t.slots j { slotOf t j with phase := 0, thaw := false } })

def abandonNode (s : State) (uid n : Nat) : State :=
  match parkedNode s uid n with
  | none => s
  | some (team, j) => finishNode s uid team j true

/-- The nodes of a context that a freeze parked are ready again. -/
def thawNodes (s : State) (ctx : Nat) : State :=
  s.gangs.foldl (fun s q =>
    if gangCtx s q.1 = some ctx then
      setGang s q.1 { (gangOf s q.1).getD q.2 with teams := q.2.teams.map (fun t =>
        { t with slots := t.slots.map (fun x => (x.1, if x.2.thaw then { x.2 with phase := 0, thaw := false } else x.2)) }) }
    else s) s

end Sys2Proof.Machine
end

