-- ==== Sys2Proof/Machine/Start.lean ====
section
/-!
DEFINITION. What a group, a team and a gang hold when they are created (R54, R160, R234, R246, R386), and the placing of one
unit of code so that the next step issues it.
-/
namespace Sys2Proof.Machine

open Sys2Proof

/-- The lanes that a group of a launch creates: those whose %tid lies below THREADS (R54). -/
def createdLanes (l : Launch) (gid : Nat) : Dword :=
  let width := recWidth l
  let n := if recThreads l = 0 then recTeam l * width else recThreads l
  below (min width (n - gid * width))

/-- A group at its creation: every register, mask and counter reads 0 but for the argument scalars (R155, R160, R386). -/
def newGroup (l : Launch) (uid team gid quarter base clock : Nat) : Group :=
  let lanes := createdLanes l gid
  { gang := uid, team := team, gid := gid, width := recWidth l, quarter := quarter, base := base, created := lanes, exited := 0,
    frags := if lanes = 0 then [] else [fragAtHeader lanes (recCbase l + recEntry l) clock],
    held := recRegs l, regs := recRegs l, v := [],
    s := (List.range 8).foldl (fun t i => tset 0 t i (BitVec.ofNat 64 (recNat l (0xC0 + 8 * i) 8))) [],
    m := [], counters := List.replicate 12 Counter.reset, round := 0, rstack := [], bcur := [], rng := [], safe := [],
    arrTeam := 0, arrGang := 0, regsTrap := TrapRegs.reset, mode := none, pending := [], rdv := [], batches := [], anchors := [],
    spills := [], spins := [], issued := 0, fenced := 0, stopping := false, capPos := [] }

/-- A team at its creation: no ring, a run of atiles from a base on, and a barrier record of zeros. -/
def newTeam (run : Nat × Nat) : Team :=
  { ringBase := 0, ringLog := 0, slots := [], posts := [], accepted := 0, atiles := run.1, acc := run.2, index := [],
    barrier := Barrier.reset, urgent := none, marked := none }

/-- A gang at its placement, on its member cores, with the atile run of each team. -/
def newGang (launch index : Nat) (l : Launch) (cores : List Nat) (runs : List (Nat × Nat)) : Gang :=
  { launch := launch, index := index, cores := cores, teams := runs.map newTeam, barrier := Barrier.reset,
    reserved := cores.map (fun _ => recSpmin l), pages := [], fills := [], leaving := [], written := [], failed := [], pinning := [],
    regsTrap := TrapRegs.reset, mode := none, handler := none, climbed := none, halted := none, deadlock := none,
    capNext := 0, capFull := false }

/-- A launch at its acceptance. -/
def newLaunch (record : List Byte) (ctx part seq queue packet clock : Nat) : Launch :=
  { record := record, ctx := ctx, part := part, seq := seq, queue := queue, packet := packet, regenOf := [], admitted := false,
    order := 0, unplaced := [], saved := [], urgent := [], again := [], blocking := [], dieOf := [], done := 0, killed := false,
    destroyed := false, stamp := clock }

/-! ### One unit of code at the next fetch -/

/-- The launch record of the placed unit: one privileged group of 16 threads with 24 register blocks. -/
def wordRecord : List Byte :=
  leBytes 4 0x01000001 ++ leBytes 12 0 ++ leBytes 8 0x8000 ++ leBytes 8 0 ++ leBytes 8 0x0404041800010110 ++ leBytes 4 0 ++
  leBytes 4 0 ++ leBytes 4 0x04000000 ++ leBytes 4 1 ++ leBytes 8 0 ++ leBytes 8 0x0000000100000000 ++ leBytes 184 0

/-- How many of the words one unit takes: a prefix with its base, an op 0x3F word with its literal (R32, R33). -/
def spanOfWords : List Word → Nat
  | [] => 0
  | w :: ws => if isPfxWord w then 1 + (if isLiteralWord ((ws.head?).getD 0) then 2 else 1) else if isLiteralWord w then 2 else 1

/-- The header over a unit of words: no counter, the class of its base, COUNT as long as the unit. -/
def wordHeader (ws : List Word) : Word :=
  let n := spanOfWords ws
  let cls := (classOfWord (baseWord (ws.take n))).getD 0
  BitVec.ofNat 32 (5 + 0x1FE0 + 2 ^ 25 * cls + 2 ^ 28 * n)

/-- A page table at DPA 0x1000 that maps the first GiB to the first GiB of DPA, the context record that names it at DPA 0, and
a clause of the words at 0x8000. -/
def wordBytesAt (ws : List Word) (m : Table Byte) : Table Byte :=
  let put := fun (m : Table Byte) (a n x : Nat) => writeBytes m a (leBytes n x)
  let m := put (put m 0 64 0x1000) 0x1000 8 0x200F
  let m := put (put m 0x2000 8 0x300F) 0x3000 8 0x7D
  put m 0x8000 16 ((wordHeader ws).toNat + 2 ^ 32 * ((ws[0]?).getD 0).toNat + 2 ^ 64 * ((ws[1]?).getD 0).toNat +
    2 ^ 96 * ((ws[2]?).getD 0).toNat)

/-- The package with one unit of code placed so that the very next step issues it: a launch of context 0 in partition 0, its
gang on core 0, its group in slot 0, and a fragment inside the clause that holds the unit. -/
def placeWord (s : State) (nbits w : Nat) : State :=
  let ws := tableWords nbits w
  let uid := s.nextUid
  let l := { newLaunch wordRecord 0 0 1 0 0 s.clock with admitted := true }
  let q := newGang uid 0 l [0] [(0, recAcc l)]
  let g := newGroup l (uid + 1) 0 0 0 0 s.clock
  let f := { fragAtHeader (below 16) 0x8004 s.clock with clause := some ⟨0x8000, wordHeader ws⟩ }
  let mem := { s.mem with
    symErr := [], poison := [], inter := [], chans := [], past := [], cells := wordBytesAt ws s.mem.cells }
  { s with
    mem := mem.setEntry 0 (indEntry true false false false false false 0 0)
    ctxtab := 0
    ctxs := tdel s.ctxs 0
    swept := []
    ops := []
    power := { s.power with failed := false, step := 0 }
    launches := tput s.launches uid l
    gangs := tput s.gangs (uid + 1) q
    nextUid := uid + 2
    groups := [(0, { g with frags := [f] })]
    cores := tput s.cores 0 { Core.reset with b1 := 4, b2 := 4, b3 := 4, empty := false }
    agenda := [.issue 0 0], cut := none }

end Sys2Proof.Machine
end

