-- ==== Sys2Proof/Machine/Place.lean ====
section
/-!
DEFINITION. Placement: units and what a gang reserves on them (R10, R152, R154, R190, R234, R246, R389), teams onto cores and
groups onto quarters (R390, R391), and the zeroing of a new gang's scratchpad table (R188).
-/
namespace Sys2Proof.Machine

open Sys2Proof

/-! ### Units -/

/-- The units of a shape on a die, by member 0 (R10, R389). -/
def unitsOf (die shape : Nat) : List (List Nat) :=
  let on := fun (xs : List Nat) => xs.map (fun i => 16 * die + i)
  match shape with
  | 0 => (List.range 16).map (fun i => on [i])
  | 1 => (List.range 8).map (fun j => on [2 * j, 2 * j + 1])
  | _ => [on [0, 1, 4, 5], on [2, 3, 6, 7], on [8, 9, 12, 13], on [10, 11, 14, 15]]

/-- The boundaries of a launch agree with those in force on a core (R152). -/
def boundsAgree (c : Core) (l : Launch) : Bool := c.empty || (c.b1 == recB1 l && c.b2 == recB2 l && c.b3 == recB3 l)

/-- Barrier records in use on a core: a team's on its ring core, a gang's on member 0 when it has several teams (R234). -/
def barrierRecords (s : State) (core : Nat) : Nat :=
  s.gangs.foldl (fun n q => n + ((List.range q.2.teams.length).filter (fun t => ringCore s q.1 t == core)).length +
    (if 1 < q.2.teams.length && q.2.cores.head? == some core then 1 else 0)) 0

/-- Frames reserved on a core. -/
def reservedFrames (s : State) (core : Nat) : Nat := s.gangs.foldl (fun n q => n + reservedOn q.2 core) 0

/-- Bases at which a run of atiles fits on a core (R246). -/
def atileBases (s : State) (core size acc : Nat) : List Nat :=
  let runs := s.gangs.flatMap (fun q => (List.range q.2.teams.length).filterMap (fun t =>
    if ringCore s q.1 t = core then ((q.2.teams[t]?).filter (fun x => x.acc != 0)).map (fun x => (x.atiles, x.acc)) else none))
  if acc = 0 then [0]
  else (List.range (size + 1 - acc)).filter (fun b => runs.all (fun r => decide (b + acc ≤ r.1) || decide (r.1 + r.2 ≤ b)))

/-! ### Groups onto quarters (R391) -/

def groupsIn (s : State) (core quarter : Nat) : List (Nat × Group) :=
  s.groups.filter (fun x => coreOfKey x.1 == core && x.2.quarter == quarter)

/-- The quarter that a group takes: the most free group slots among those that can grant its blocks. -/
def chooseQuarter (s : State) (core need : Nat) : Option Nat :=
  ((List.range 4).filter (fun q => (groupsIn s core q).length < 32 && need ≤ freeGranules s core q)).foldl (fun b q => match b with
    | none => some q
    | some x => if (groupsIn s core q).length < (groupsIn s core x).length then some q else some x) none

/-- The base whose slices host the fewest groups. -/
def chooseBase (s : State) (core quarter width : Nat) : Nat :=
  let n := width / 4
  let load := fun (b : Nat) => ((groupsIn s core quarter).filter (fun x => b < x.2.base + x.2.width / 4 && x.2.base < b + n)).length
  ((List.range (16 / n)).map (· * n)).foldl (fun best b => if load b < load best then b else best) 0

/-- A group takes a quarter, a base and a group slot of that quarter. -/
def placeGroup (s : State) (uid : Nat) (l : Launch) (core team gid held : Nat) : Option State :=
  match chooseQuarter s core (held * (recWidth l / 16)) with
  | none => none
  | some q =>
    match ((List.range 32).map (fun i => 128 * core + 4 * i + q)).filter (fun k => (groupOf s k).isNone) with
    | [] => none
    | k :: ks =>
      let r := draw s ks k
      let g := newGroup l uid team gid q (chooseBase s core q (recWidth l)) s.clock
      some (setGroup r.1 r.2 { g with held := held })

/-- Every group of a gang, in ascending (team, %gid), with its held count. -/
def placeGroups (uid : Nat) (l : Launch) (cores : List Nat) : List (Nat × Nat × Nat) → State → Option State
  | [], s => some s
  | (team, gid, held) :: rest, s =>
    let c := teamCores cores.length (recGteams l)
    match placeGroup s uid l ((cores[c * team + gid % c]?).getD 48) team gid held with
    | none => none
    | some s => placeGroups uid l cores rest s

/-- The groups of a gang that has never been placed. -/
def freshGroups (l : Launch) : List (Nat × Nat × Nat) :=
  (List.range (recGteams l)).flatMap (fun t => (List.range (recTeam l)).map (fun g => (t, g, recRegs l)))

/-! ### A gang onto a unit (R389, R390) -/

/-- The frames that each member reserves (R190), with the pinned pages at home there. -/
def frameNeeds (l : Launch) (cores pins : List Nat) : List Nat :=
  (List.range cores.length).map (fun i => if recScratch l = 0 then 0 else max (max (recSpmin l) 1) ((pins[i]?).getD 0))

/-- The atile run of each team: any base at which ACC atiles fit, and an empty run for a team that has retired (R246). -/
def chooseAtiles (s : State) (l : Launch) (cores : List Nat) (live : Nat → Bool) : List Nat → Option (State × List (Nat × Nat))
  | [] => some (s, [])
  | t :: ts =>
    let core := (cores[teamCores cores.length (recGteams l) * t]?).getD 48
    let acc := if live t then recAcc l else 0
    match atileBases s core (16 * (recB3 l - recB2 l)) acc with
    | [] => none
    | b :: bs =>
      let r := draw s bs b
      match chooseAtiles r.1 l cores live ts with
      | none => none
      | some x => some (x.1, (r.2, acc) :: x.2)

/-- The boundaries of a launch take effect on an empty core, whose frames and atiles then read 0 (R152). -/
def openCore (s : State) (l : Launch) (core : Nat) : State :=
  let c := coreOf s core
  if c.empty then
    setCore s core { c with b1 := recB1 l, b2 := recB2 l, b3 := recB3 l, empty := false, frames := [], atiles := [] }
  else s

/-- A granted run of atiles reads +0 (R246). -/
def zeroRunOf (s : State) (core base n : Nat) : State :=
  let c := coreOf s core
  setCore s core { c with atiles := c.atiles.filter (fun e => !(base ≤ e.1 / 1024 && e.1 / 1024 < base + n)) }

/-- A gang takes a unit when everything that it needs can be reserved there at once. The gang's number is the state's next. -/
def placeOn (s : State) (lid : Nat) (l : Launch) (index : Nat) (groups : List (Nat × Nat × Nat)) (pins cores : List Nat) :
    Option State :=
  let needs := frameNeeds l cores pins
  let frames := 32 * (recB2 l - recB1 l)
  let rings := (List.range (recGteams l)).map (fun t => (cores[teamCores cores.length (recGteams l) * t]?).getD 48)
  let records := fun (c : Nat) => (rings.filter (· == c)).length + (if 1 < recGteams l && cores.head? == some c then 1 else 0)
  if !cores.all (fun c => coreLive s c && corePart s c == l.part && boundsAgree (coreOf s c) l &&
      (coreOf s c).stopBy.isNone && decide (barrierRecords s c + records c ≤ 32)) then none
  else if !(List.range cores.length).all (fun i =>
      decide (reservedFrames s ((cores[i]?).getD 48) + (needs[i]?).getD 0 ≤ frames) || (needs[i]?).getD 0 == 0) then none
  else
    match chooseAtiles s l cores (fun t => groups.any (fun g => g.1 == t)) (List.range (recGteams l)) with
    | none => none
    | some (s, runs) =>
      let s := cores.foldl (fun s c => openCore s l c) s
      let uid := s.nextUid
      let q := { newGang lid index l cores runs with reserved := needs }
      let s := setGang { s with nextUid := uid + 1 } uid q
      let s := (rings.zip runs).foldl (fun s x => zeroRunOf s x.1 x.2.1 x.2.2) s
      placeGroups uid l cores groups s

/-- The first unit on which a gang fits. -/
def placeFirst (s : State) (lid : Nat) (l : Launch) (index : Nat) (groups : List (Nat × Nat × Nat)) (pins : List Nat) :
    List (List Nat) → Option State
  | [] => none
  | u :: us =>
    match placeOn s lid l index groups pins u with
    | some s => some s
    | none => placeFirst s lid l index groups pins us

/-- The package with nothing resident, for the checks of R385. -/
def emptied (s : State) : State := { s with groups := [], gangs := [], cores := [] }

/-! ### A gang that has never been placed (R188, R388) -/

/-- The entries of a gang's scratchpad table. -/
def tableVas (l : Launch) (index : Nat) : List Nat := (List.range (recScratch l / 2048)).map (entryVa l index)

/-- Every entry of the table is written with 0. -/
def zeroTable (s : State) (w : Who) (l : Launch) (index : Nat) : State :=
  let pages := recScratch l / 2048
  let zeros := List.replicate (pages / 2) (List.replicate 16 (0 : Byte)) ++ (if pages % 2 = 1 then [List.replicate 8 0] else [])
  (deviceStoreAll s w (areaBase l index) zeros).1

/-- The gang leaves the launch's list of unplaced gangs. -/
def markPlaced (s : State) (lid index : Nat) : State :=
  match launchOf s lid with
  | none => s
  | some l => setLaunch s lid { l with
      unplaced := l.unplaced.filter (fun x => x.1 != index), urgent := removeNat index l.urgent,
      saved := l.saved.filter (fun x => x.1 != index), blocking := removeNat index l.blocking }

/-- A gang that has never been placed is placed on the first of some units that fits; `false` when none does, or when its table
cannot be reached yet. -/
def placeNew (s : State) (lid : Nat) (l : Launch) (index : Nat) (units : List (List Nat)) : State × Bool :=
  match placeFirst s lid l index (freshGroups l) [] units with
  | none => (s, false)
  | some t =>
    let uid := t.nextUid - 1
    let w := { whoLaunch ((((gangOf t uid).map (·.cores)).getD []).headD 48) l with priv := true }
    match areaStates t w (tableVas l index) with
    | (x, .later, _) => ({ s with requests := x.requests, sent := x.sent, nextTag := x.nextTag, tick := x.tick }, false)
    | (t, .ready, _) => (markPlaced (zeroTable t w l index) lid index, true)
    | (t, .bad, va) =>
      let t := markPlaced t lid index
      (match firstLiveGroup t uid with
       | none => t
       | some (key, g) => match g.frags with
         | [] => t
         | f :: _ => takeTrap t key f.lanes 1
             { cls := 11, info0 := BitVec.ofNat 64 va, info1 := 1, atHeader := true, rung := 1, safe := true }, true)

end Sys2Proof.Machine
end

