-- ==== Sys2Proof/Machine/Accept.lean ====
section
/-!
DEFINITION. Acceptance of launches (R153, R190, R322, R385), the journal (R401, R402), admission (R387), and the end of groups,
gangs and launches (R78, R392).
-/
namespace Sys2Proof.Machine

open Sys2Proof

/-! ### The context's record (R322, R407) -/

/-- A launch of the context is not refused for its record. -/
def ctxOk (s : State) (ctx part : Nat) : Bool :=
  let r := peekDpa s (ctxRecord s ctx) 64
  field r 0x11 1 == 1 && field r 0x12 2 == 0 && decide (field r 0x14 4 < 65536) && field r 0x18 8 == 0 &&
  field r 0 8 % 4096 == 0 && decide (field r 0 8 < 2 ^ 48) && field r 8 8 % 8192 == 0 && field r 0x10 1 == part &&
  decide (part ≤ 5) && field r 0x35 11 == 0 && decide (field r 0x30 4 < 65536) &&
  (field r 0x30 4 == 0 || (decide (16 ≤ field r 0x34 1) && decide (field r 0x34 1 ≤ 30)))

/-! ### The launch record (R385) -/

/-- The die ranges with COUNT > 0: first, count, die. -/
def drtOf (bs : List Byte) : List (Nat × Nat × Nat) :=
  ((List.range 3).map (fun d => (field bs (0x40 + 8 * d) 4, field bs (0x44 + 8 * d) 4, d))).filter (fun r => r.2.1 != 0)

/-- The ranges cover every gang index exactly once. -/
def drtCovers (rs : List (Nat × Nat × Nat)) (gangs : Nat) : Bool :=
  let sorted := rs.mergeSort (fun a b => a.1 ≤ b.1)
  sorted.foldl (fun (n : Option Nat) r => if n = some r.1 then some (r.1 + r.2.1) else none) (some 0) == some gangs

/-- Whether a die has a half-die in a partition. -/
def dieInPart (s : State) (die part : Nat) : Bool := ((s.dies[die]?).map (fun d => d.partlo == part || d.parthi == part)).getD false

/-- The first reserved byte of a record that is not zero. -/
def reservedByte (bs : List Byte) : Option Nat :=
  ([4, 5, 6, 7] ++ (List.range 104).map (· + 0x58)).find? (fun i => field bs i 1 != 0)

/-- Several new gangs are placed one after another; none where one does not fit. -/
def placeAll (lid : Nat) (l : Launch) (units : List (List Nat)) : List Nat → State → Option State
  | [], s => some s
  | i :: is, s =>
    match placeFirst s lid l i (freshGroups l) [] units with
    | none => none
    | some s => placeAll lid l units is s

/-- The gangs of each die of a COOP launch fit together on its empty units. -/
def coopFits (s : State) (l : Launch) : Bool :=
  (drtOf l.record).all (fun r => r.2.1 ≤ 2048 &&
    (placeAll 0 l (unitsOf r.2.2 (recShape l)) ((List.range r.2.1).map (· + r.1)) (emptied s)).isSome)

/-- Why a launch record is refused: the offset of the byte that failed, or none that the manual names. -/
inductive Refused where
  | byte (offset : Nat)
  | other
deriving DecidableEq, Repr, Inhabited

/-- The refusal of a launch record for a context of a partition, in the order of R385. -/
def launchRefused (s : State) (bs : List Byte) (ctx part : Nat) : Option Refused :=
  let l := newLaunch bs ctx part 0 0 0 0
  let w := recWidth l
  let shape := recShape l
  let frames := 32 * (recB2 l - recB1 l)
  let bad := fun (b : Bool) (offset : Nat) => if b then some (Refused.byte offset) else none
  let first := [
    bad (field bs 0 1 != 1) 0, bad (field bs 2 2 != 256) 2,
    bad (w != 16 && w != 32 && w != 64) 0x20,
    bad (recTeam l = 0 || 16 < recTeam l || 1024 < recTeam l * w) 0x21,
    bad (2 < shape) 0x23, bad (recGteams l = 0 || 2 ^ shape < recGteams l) 0x22,
    bad (recRegs l = 0 || 24 < recRegs l) 0x24,
    bad (recB1 l < 4) 0x25, bad (recB2 l < recB1 l) 0x26, bad (recB3 l < recB2 l || 46 < recB3 l) 0x27,
    bad (32 * recB1 l < recRegs l * (w / 16)) 0x24, bad (16 * (recB3 l - recB2 l) < recAcc l) 0x2C,
    bad (recScratch l % 2048 != 0 || 2 ^ 24 < recScratch l) 0x28,
    bad (recScratch l != 0 && recB2 l = recB1 l) 0x28,
    bad (recScratch l != 0 && (frames : Int) - 16 < recSpmin l) 0x2E, bad (recScratch l = 0 && recSpmin l != 0) 0x2E,
    bad (recTeam l * w < recThreads l) 0x30, bad (recGangs l = 0 || 2 ^ 24 ≤ recGangs l) 0x34,
    bad (recEntry l % 4 != 0) 0x18, bad (recCbase l % 4 != 0) 0x10,
    bad (recSpbase l % 65536 != 0 || (recScratch l = 0 && recSpbase l != 0)) 0x38,
    bad (4 ≤ field bs 1 1) 1, bad (8 ≤ field bs 0x32 1) 0x32, bad (32 ≤ field bs 0x33 1) 0x33,
    (reservedByte bs).map Refused.byte, bad (field bs 8 8 % 8 != 0) 8]
  match first.findSome? id with
  | some r => some r
  | none =>
    let drt := drtOf bs
    if !ctxOk s ctx part then some .other
    else if !drtCovers drt (recGangs l) || !drt.all (fun r => dieInPart s r.2.2 part) then some (.byte 0x40)
    else if (placeFirst (emptied s) 0 l 0 (freshGroups l) [] ((List.range 3).flatMap (fun d => unitsOf d shape))).isNone then some .other
    else if recCoop l && !coopFits s l then some .other
    else none

/-- SYND of the record of a refusal: 256 and the offset of the byte that failed, or a free value where the manual names no byte. -/
def refusedSynd (s : State) : Refused → State × Nat
  | .byte n => (s, 256 + n)
  | .other => ({ s with tick := s.tick + 1 }, Config.freeChoice s.tick)

/-! ### The journal (R401, R402) -/

def journalOf (s : State) (part : Nat) : Journal := tget Journal.reset s.journals part

def setJournal (s : State) (part : Nat) (j : Journal) : State := { s with journals := tset Journal.reset s.journals part j }

/-- An entry under the next sequence. SRC names a queue, or 65,536 for a LAUNCH word. -/
def journalAdd (s : State) (part src ctx pidx typ status : Nat) : State × Nat :=
  let j := journalOf s part
  let e := leBytes 8 j.nextSeq ++ leBytes 4 (src + 2 ^ 17 * ctx) ++ leBytes 4 pidx ++ leBytes 1 typ ++ leBytes 1 status ++
    leBytes 6 0 ++ leBytes 8 s.clock
  (setJournal s part { nextSeq := j.nextSeq + 1, entries := tput j.entries ((j.nextSeq - 1) % 32768) e }, j.nextSeq)

/-- STATUS is rewritten, unless the slot holds a newer entry. -/
def journalStatus (s : State) (part seq status : Nat) : State :=
  let j := journalOf s part
  setJournal s part { j with entries := tmod j.entries ((seq - 1) % 32768) (fun e =>
    if field e 0 8 = seq then e.take 0x11 ++ leBytes 1 status ++ e.drop 0x12 else e) }

/-! ### Launches (R386, R387, R392) -/

/-- An accepted launch waits in its partition's admission list; the one that a regeneration service has posted may pass its
frame's check (R339). -/
def addLaunch (s : State) (bs : List Byte) (ctx part seq queue packet : Nat) : State × Nat :=
  let uid := s.nextUid
  let l := { newLaunch bs ctx part seq queue packet s.mem.order with dieOf := drtOf bs }
  let mine := fun (r : Regen) => r.launch.isNone && !r.failed && r.posted.isSome &&
    r.posted == (tfind s.packets packet).map (fun p => (p.queue, p.count))
  let l := { l with regenOf := (s.mem.services.filter mine).map (·.frame) }
  let services := s.mem.services.map (fun r => if mine r then { r with launch := some uid } else r)
  ({ s with launches := tput s.launches uid l, nextUid := uid + 1, mem := { s.mem with services := services } }, uid)

/-- The launches of a partition that wait for admission, in the order of a round. -/
def admissionOrder (s : State) (part : Nat) : List (Nat × Launch) :=
  (s.launches.filter (fun x => x.2.part == part && !x.2.admitted && !x.2.destroyed)).mergeSort (fun a b =>
    if recPrio a.2 = recPrio b.2 then
      (if a.2.queue = b.2.queue then decide (a.2.seq ≤ b.2.seq) else decide (a.2.queue < b.2.queue))
    else decide (recPrio b.2 < recPrio a.2))

/-- WEIGHT of a queue; LAUNCH words count as one more queue, of weight 1. -/
def weightOf (s : State) (queue : Nat) : Nat := if queue = 65536 then 1 else (queueOf s queue).weight

/-- The launches that a round admits: of each queue, as many as its WEIGHT. -/
def admitted (s : State) : List (Nat × Launch) → List (Nat × Nat) → List Nat
  | [], _ => []
  | (uid, l) :: rest, used =>
    let n := ((used.find? (fun x => x.1 == l.queue)).map (·.2)).getD 0
    if n < weightOf s l.queue then
      uid :: admitted s rest ((l.queue, n + 1) :: used.filter (fun x => x.1 != l.queue))
    else admitted s rest used

/-- The next place in the order of admission. -/
def nextOrder (s : State) : Nat := s.launches.foldl (fun n x => max n x.2.order) 0 + 1

/-- The die whose range holds a gang index. -/
def gangDie (l : Launch) (index : Nat) : Option Nat :=
  (l.dieOf.find? (fun r => r.1 ≤ index && index < r.1 + r.2.1)).map (·.2.2)

/-- The gangs of a launch that admission leaves to be placed: not those that the removal of their die has already counted (R432). -/
def unplacedAt (s : State) (l : Launch) : List (Nat × Nat) :=
  let counted := fun (i : Nat) => l.killed && (((gangDie l i).bind (fun d => s.dies[d]?)).map (·.fenced)).getD false
  ((List.range (recGangs l)).filter (fun i => !counted i)).map (fun i => (i, s.clock))

def execAdmissionRound (s : State) : Out :=
  .next ((admitted s (admissionOrder s s.input.key) []).foldl (fun s uid =>
    match launchOf s uid with
    | none => s
    | some l => setLaunch s uid
        { l with admitted := true, order := nextOrder s, stamp := s.mem.order,
                 unplaced := unplacedAt s l }) s)

/-! ### Retirement (R78, R392) -/

/-- Whether a group may retire: its threads have exited, its counters read 0, and its copies, posts and tile transfers have
completed. -/
def groupDone (s : State) (key : Nat) (g : Group) : Bool :=
  liveLanes g == 0 && g.pending.isEmpty && g.counters.all (fun c => c.val == 0) &&
  s.ops.all (fun o => o.2.group != key) &&
  s.transfers.all (fun t => t.2.group != some key || t.2.kind == 2 || t.2.complete.isSome) &&
  s.requests.all (fun r => r.group != key || 2 < r.kind) && g.spills.isEmpty &&
  ((gangOf s g.gang).map (fun q => q.teams.all (fun t => t.posts.all (fun p => p.group != key) &&
    t.slots.all (fun x => x.2.state == 0 || x.2.poster != key)))).getD true

/-- The run of a team that has retired is released. -/
def releaseTeam (s : State) (uid team : Nat) : State :=
  if (groupsOf s uid).any (fun x => x.2.team == team) then s
  else modTeam s uid team (fun t => { t with acc := 0, slots := [], posts := [] })

def execGroupRetire (s : State) : Out :=
  let key := s.input.key
  match groupOf s key with
  | none => .next s
  | some g =>
    if !groupDone s key g || s.saves.any (fun v => v.gang == g.gang) then .next s
    else
      let s := releaseTeam (dropGroup s key) g.gang g.team
      if !(groupsOf s g.gang).isEmpty then .next s
      else
        match gangOf s g.gang with
        | none => .next s
        | some q => .next (launchEnd (dropGang s g.gang) q.launch false)

/-- The end of a regeneration launch ends the service of its frame (R339, R340). -/
def endRegen (s : State) (uid : Nat) (ok : Bool) : State :=
  (s.mem.services.filter (fun r => r.launch == some uid)).foldl (fun s r =>
    if ok then
      let e := s.mem.entry r.frame
      let m := s.mem.setEntry r.frame
        (indEntry (IndV e) (IndTierX e) (IndRegen e) false (IndMoving e) (IndPin e) (IndPart e) (IndFrame e))
      { s with mem := { m with services := m.services.filter (fun x => x.frame != r.frame) } }
    else failRegen s r.frame) s

/-- A launch completes: its journal status is 2, 3 when a gang was killed and not relaunched, or 4 after a destroy with kill.

DESIGN CHOICE (log entry 97): DONE and INTR in the header of a record that LAUNCH submitted do not act. -/
def execLaunchComplete (s : State) : Out :=
  let uid := s.input.key
  match launchOf s uid with
  | none => .next s
  | some l =>
    if (!l.admitted && !l.destroyed) || (l.done < recGangs l && !l.destroyed) || s.gangs.any (fun q => q.2.launch == uid) then .next s
    else
      let status := if l.destroyed then 4 else if l.killed then 3 else 2
      let s := endRegen { s with launches := tdel s.launches uid } uid (status = 2)
      if l.queue = 65536 then .next (journalStatus s l.part l.seq status)
      else .next { s with packets := tmod s.packets l.packet (fun p => { p with status := some status }) }

/-- A gang that has waited 1 ms becomes blocking, and with a gang of a COOP launch every gang of it (R388). -/
def execGangBlocking (s : State) : Out :=
  match launchOf s s.input.key with
  | none => .next s
  | some l =>
    if l.unplaced.any (fun x => x.1 == s.input.sub && x.2 + 1050000 ≤ s.clock) then
      .next (setLaunch s s.input.key { l with
        blocking := if recCoop l then l.unplaced.map (·.1) else insertNat s.input.sub l.blocking })
    else .next s

end Sys2Proof.Machine
end

