-- ==== Sys2Proof/Machine/Post.lean ====
section
/-!
DEFINITION. Work that a kernel posts: LAUNCH, QPOST and QSTAT (R393 to R397).
-/
namespace Sys2Proof.Machine

open Sys2Proof

/-- Bytes that a word reads as ordinary loads by its lowest Active lane's thread; a fault on them is taken at the word (R393). -/
def wordLoad (s : State) (u : Issue) (va n : Nat) (k : State → List Byte → Out) : Out :=
  match loadMany s ((whoGroup s u.key u.g).ofThread u.key (lowest u.f.lanes)) va n with
  | (s, .error e) =>
    .next (takeOutcome s u.key u.f.lanes u.words.length (outcomeOf e.1 e.2 .load 0) e.2 (lowest u.f.lanes) 0 (lowest u.f.lanes) none)
  | (s, .ok bs) => k s bs

/-- The word meets a freeze outcome: it has no effect, its context is frozen with the SYND given, and its fragment stops at it
(R404). -/
def breach (s : State) (u : Issue) (synd : Nat) : Out :=
  .next (takeOutcome s u.key u.f.lanes u.words.length (.freeze synd) 0 (lowest u.f.lanes) 0 (lowest u.f.lanes) none)

/-- The illegal-instruction trap of a word with a cause code (R406, R491). -/
def illegalWord (s : State) (u : Issue) (cause : Nat) : Out :=
  .next (raise s u (illegalTrap u cause))

/-- The misaligned-access trap of a word for the address that its lowest lane's thread would use. -/
def misalignedWord (s : State) (u : Issue) (addr : Nat) : Out :=
  .next (raise s u { cls := 8, info0 := BitVec.ofNat 64 addr, info1 := BitVec.ofNat 64 (lowest u.f.lanes) })

/-- The word completes and writes a scalar. -/
def finishScalar (s : State) (u : Issue) (d : Opnd) (v : Nat) : Out :=
  .next (finish (modGroup s u.key (fun g => setSreg g (scalarNo d) (BitVec.ofNat 64 v))) u)

/-- A scalar operand of the unit. -/
def scalarOf (u : Issue) (x : Opnd) : Nat := (sreg u.g (scalarNo x)).toNat

/-! ### LAUNCH (R394) -/

/-- The offset of FLAGS, the byte that a privilege breach names. -/
def flagsOffset : Nat := 0x33

def execLaunch (d a : Opnd) (s : State) : Out :=
  withIssue s (fun u =>
    let addr := scalarOf u a
    if addr % 256 != 0 then misalignedWord s u addr
    else
      wordLoad s u addr 256 (fun s bs =>
        match launchOfGroup s u.g with
        | none => .next s
        | some l =>
          let refuse := fun (s : State) (synd : Nat) => breach (journalAdd s l.part 65536 l.ctx 0 1 1).1 u synd
          match launchRefused s bs l.ctx l.part with
          | some r => let x := refusedSynd s r; refuse x.1 x.2
          | none =>
            if bit (field bs flagsOffset 1) 2 && !recPriv l then refuse s (256 + flagsOffset)
            else
              let j := journalAdd s l.part 65536 l.ctx 0 1 0
              finishScalar (addLaunch j.1 bs l.ctx l.part j.2 65536 0).1 u d j.2))

/-! ### QPOST and QSTAT (R395, R396) -/

/-- Whose queue it is (R379), whatever its STATE: another partition's, another context's of the partition, or the context's own. -/
inductive Owner where
  | foreign
  | other
  | own
deriving DecidableEq, Repr, Inhabited

def queueOwner (s : State) (ctx part q : Nat) : Owner :=
  let x := queueOf s q
  if x.ctx.toNat = ctx then .own
  else if ctxPart s x.ctx.toNat = part then .other
  else .foreign

def execQpost (d a b : Opnd) (s : State) : Out :=
  withIssue s (fun u =>
    match launchOfGroup s u.g with
    | none => .next s
    | some l =>
      let q := scalarOf u a
      let addr := scalarOf u b
      if 65536 ≤ q then illegalWord s u (causeCode 395 0)
      else if addr % 16 != 0 then misalignedWord s u addr
      else
        match queueOwner s l.ctx l.part q, recPriv l with
        | .foreign, _ => breach s u 9
        | .other, false => finishScalar s u d 3
        | _, _ =>
          wordLoad s u addr 16 (fun s head =>
            let size := field head 2 2
            if size < 16 || 256 < size || size % 16 != 0 then finishScalar s u d 4
            else
              wordLoad s u addr size (fun s bs =>
                let w := { whoCtx s (queueOf s q).ctx.toNat (recPriv l) with core := coreOfKey u.key }
                match ringPost s w q bs with
                | (s, .ok code) => finishScalar s u d code
                | (s, .error e) =>
                  .next (takeOutcome s u.key u.f.lanes u.words.length (outcomeOf e.1 e.2 .store 0) e.2 (lowest u.f.lanes) 0
                    (lowest u.f.lanes) none))))

def execQstat (d a : Opnd) (s : State) : Out :=
  withIssue s (fun u =>
    match launchOfGroup s u.g with
    | none => .next s
    | some l =>
      let q := scalarOf u a
      if 65536 ≤ q then illegalWord s u (causeCode 395 0)
      else
        let x := queueOf s q
        let snapshot := x.head.toNat % 2 ^ 24 + 2 ^ 24 * (x.tail.toNat % 2 ^ 24) + 2 ^ 48 * x.state
        let v := match queueOwner s l.ctx l.part q, recPriv l with
          | .foreign, _ => 2 ^ 64 - 1
          | .other, false => 2 ^ 64 - 1
          | _, _ => snapshot
        capturedWord s u .qstat 8 v (fun s v => finishScalar s u d (v (lowest u.f.lanes))))

end Sys2Proof.Machine
end

