-- ==== Sys2Proof/Machine/Held.lean ====
section
/-!
DEFINITION. Holds that end in a trap: the fault of engine work taken at a held word (R363, R416), hold-timeout (R415) and
scratchpad-exhaustion (R192).
-/
namespace Sys2Proof.Machine

open Sys2Proof

/-- The holds of R415. -/
def timedHold : Hold → Bool
  | .clauseWait _ | .waitlt .. | .bar .. | .barw .. | .ralloc .. | .kadd _ | .kbindClose _ | .fence .. | .release .. | .rfree _ => true
  | _ => false

/-- The held word has no effect: its arrival at a barrier, or its request for blocks, is withdrawn, and it is to issue again. -/
def withdrawHold (s : State) (key : Nat) (f : Frag) : State :=
  let ready := fun (s : State) => modGroup s key (fun g => modFrag g f.lanes (fun f => f.holding .ready s.clock))
  match f.hold with
  | .bar gs true =>
    (match groupOf s key with
     | none => s
     | some g =>
       let g := setArrived g gs (arrivedBits g gs &&& ~~~f.lanes)
       ready (countArrival (setGroup s key g) g gs))
  | .ralloc .. =>
    let c := coreOf s (coreOfKey key)
    ready (setCore s (coreOfKey key) { c with requests := c.requests.filter (fun r => !(r.2.1 == key && lane f.lanes r.2.2.1)) })
  | _ => ready s

/-- The words of the unit that a fragment stands at: its header, outside a clause. Words that do not come are 0. -/
def heldWords (s : State) (key : Nat) (g : Group) (f : Frag) : State × List Word :=
  match launchOfGroup s g with
  | none => (s, [0])
  | some l =>
    let w := whoGroup s key g
    match f.clause with
    | none =>
      (match fetchWord s w l.stamp f.pc with
       | (s, .error _) => (s, [0])
       | (s, .ok h) => (s, [h]))
    | some c =>
      match fetchUnit s w l.stamp (c.head + 4 + 4 * hdrCount c.word) 3 f.pc with
      | (s, .error _) => (s, [0])
      | (s, .ok ws) => (s, ws)

/-- The operation of a word that no counter counts, which the word goes on with after a trap. -/
def heldOp (f : Frag) : Option Nat :=
  match f.hold with
  | .scoped id _ => some id
  | _ => f.op

/-- A held fragment stops at its word, or its header, for a trap there. -/
def stopHeld (s : State) (key : Nat) (f : Frag) (take : State → Trap → State) (t : Trap) : State :=
  let s := withdrawHold s key f
  let s := modGroup s key (fun g => modFrag g f.lanes (fun f' => if f.resumed then f' else { f'.stops with op := heldOp f }))
  take s { t with pix := if f.resumed then f.pix else 0, atHeader := f.clause.isNone }

/-- A held fragment takes a trap at its word, or its header. -/
def trapHeld (s : State) (key : Nat) (f : Frag) (words : Nat) (t : Trap) : State :=
  stopHeld s key f (fun s t => takeTrap s key f.lanes words t) t

/-! ### Copy-fault and node-fault at a held word (R416) -/

/-- Whether a fragment's hold waits for a transfer that a fault has halted, at a word that no counter counts (R25). -/
def haltedHold (s : State) (f : Frag) : Bool :=
  match f.hold with
  | .scoped id _ => s.transfers.any (fun t => t.2.op == some id && t.2.halted)
  | _ => false

/-- The fragments of a group that are held in a hold of R415, or for a halted transfer (log entry 46), and that trap mode does not
keep from going on, and the one of them that holds the lowest lane. -/
def heldFrag (s : State) (key : Nat) (g : Group) : Option Frag :=
  match gangOf s g.gang with
  | none => none
  | some q =>
    (g.frags.filter (fun f => (timedHold f.hold || haltedHold s f) && trapAllows key g q f)).foldl (fun b f => match b with
      | none => some f
      | some y => if lowest f.lanes < lowest y.lanes then some f else some y) none

/-- A group whose pending set holds a fault of engine work takes it at a held word. -/
def settleHeld (s : State) : State :=
  s.groups.foldl (fun s x =>
    match groupOf s x.1 with
    | none => s
    | some g =>
      match nextPending (g.pending.filter (fun p => p.cls == 14 || p.cls == 16)), heldFrag s x.1 g with
      | some p, some f =>
        let s := setGroup s x.1 { g with pending := g.pending.erase p }
        trapHeld s x.1 f 1 { cls := p.cls, info0 := p.info0, info1 := p.info1, engine := p.engine, byWord := false }
      | _, _ => s) s

/-! ### Traps whose vector cannot be read yet (R408) -/

/-- What the read that a trap waits for has met is acted on, as for any access of its gang. -/
def actDue (s : State) (d : Due) (w : Who) (index : Nat) : State :=
  match d.why with
  | none => s
  | some (.wait line) => askLine s line
  | some (.ask peer a n) => askBytes s w.core peer a n
  | some (.cause n) => freezeCtx s w.ctx n (some index)
  | some (.dropped f rg) =>
    (match startRegen s w f d.va rg with
     | (s, true) => s
     | (s, false) => freezeCtx s w.ctx 10 (some index))
  | some (.poison a) =>
    consume s d.gang { unit := unitCore s w.core, cause := 0x20, sev := 3, cons := true, addr := some a, synd := lowest d.lanes,
                       ctx := some w.ctx, gang := index }

/-- The trap is taken where its vector can be read now, and waits on where it cannot. -/
def retryDue (s : State) (d : Due) : State :=
  let s := { s with due := s.due.erase d }
  match d.key with
  | none => takeGangTrap s d.gang d.trap
  | some key => takeTrap (modGroup s key (fun g => modFrag g d.lanes (fun f => f.holding .ready s.clock))) key d.lanes d.words d.trap

/-- Every trap that waits for its vector is tried again, but those of frozen contexts, and those of gangs that a takeover is to move,
which take them on the spare (R442); what its read meets is acted on. -/
def settleDue (s : State) : State :=
  s.due.foldl (fun s d =>
    match gangOf s d.gang with
    | none => s
    | some q =>
      match launchOf s q.launch with
      | none => s
      | some l =>
        let moving := (q.cores.any (fun c => (coreOf s c).stopBy.isSome && coreLive s c))
        if (ctxOf s l.ctx).frozen || moving || !s.due.contains d then s
        else
          let s := retryDue s d
          match s.due.find? (fun x => x.gang == d.gang && x.key == d.key && x.lanes == d.lanes) with
          | none => s
          | some x => actDue s x (whoLaunch ((d.key.map coreOfKey).getD (q.cores.headD 48)) l) q.index) s

/-! ### Hold-timeout -/

/-- 100 µs in nominal clocks (R1, R415). -/
def holdLimit : Nat := 105000

/-- The fragment of the input's group that holds its lane. -/
def inputFrag (s : State) : Option (Group × Frag) :=
  match groupOf s s.input.key with
  | none => none
  | some g => (fragAt g s.input.sub).map (fun f => (g, f))

def execHoldTimeout (s : State) : Out :=
  match inputFrag s with
  | none => .next s
  | some (g, f) =>
    let allowed := ((gangOf s g.gang).map (fun q => trapAllows s.input.key g q f && !q.isHalted && q.climbed.isNone)).getD false
    if !timedHold f.hold || !allowed || s.clock < f.since + holdLimit then .next s
    else
      let r := heldWords s s.input.key g f
      let info := if f.clause.isSome then baseWord r.2 else (r.2.head?).getD 0
      .next (trapHeld r.1 s.input.key f r.2.length { cls := 24, info0 := info.setWidth 64 })

/-! ### Scratchpad-exhaustion (R192) -/

/-- The lane that R192 and R406 name at a word held for a frame: the lowest that has not committed, or, of a mapping word, whose %pix
counts pages, the lowest Active one. -/
def exhaustedLane (g : Group) (f : Frag) (ws : List Word) : Nat :=
  match decode ws with
  | .ok (.spmap p .., _) | .ok (.sppin p .., _) => lowest (activeOf g f.lanes p)
  | _ => if f.resumed then f.pix else lowest f.lanes

def execScratchpadExhaustion (s : State) : Out :=
  match inputFrag s with
  | none => .next s
  | some (g, f) =>
    match f.hold with
    | .noFrame sva since =>
      if s.clock < since + 16384 || g.stopping then .next s
      else
        let r := heldWords s s.input.key g f
        let ln := exhaustedLane g f r.2
        .next (trapHeld r.1 s.input.key f r.2.length
          { cls := 12, info0 := BitVec.ofNat 64 sva, info1 := BitVec.ofNat 64 ln, rung := 1 })
    | _ => .next s

end Sys2Proof.Machine
end

