-- ==== Sys2Proof/Machine/Move.lean ====
section
/-!
DEFINITION. Moves and immediates (R165 to R167), masks (R168 to R170), and bit streams (R177 to R180).
-/
namespace Sys2Proof.Machine

open Sys2Proof

/-! ### Moves -/

def execMov (p : Option Pfx) (d a : Opnd) (s : State) : Out := unary32 s p d a id

def execSel (p : Option Pfx) (d a b : Opnd) (s : State) : Out :=
  pureOp s p d 1 [(a, 1), (b, 1)] (fun g l =>
    if lane (maskReg g (auxOf p % 8)) l then nat32 g a l else nat32 g b l)

def execMovs (p : Option Pfx) (d a : Opnd) (s : State) : Out :=
  pureOp s p d 2 [(a, 2)] (fun g l => nat64 g a l)

/-- The first register that an indexed base reaches beyond the allocation, with its lane (R166). -/
def indexBad (u : Issue) (base b : Opnd) (act : Dword) : Option (Nat × Nat) :=
  (lanesOf act).findSome? (fun l =>
    let r := base.toNat + nat32 u.g b l
    if 8 * u.g.held ≤ r || 191 < r then some (r, l) else none)

/-- MOVV: the read form, and with aux[0] the write form. -/
def execMovv (p : Option Pfx) (d a b : Opnd) (s : State) : Out :=
  let st := bit (auxOf p) 0
  withRegs s [(d, 1), (a, 1), (b, 1)] (fun u =>
    let act := execLanes u p
    match indexBad u (if st then d else a) b act with
    | some (r, l) => .next (raise s u { cls := 3, info0 := BitVec.ofNat 64 r, info1 := BitVec.ofNat 64 l })
    | none =>
      if st then
        done s u ((lanesOf act).foldl (fun h l => setVreg h (d.toNat + nat32 u.g b l) l (val32 u.g a l)) u.g)
      else
        done s u (writeVec u.g d 1 u.f.lanes act (zOf p) (fun l => (vreg u.g (a.toNat + nat32 u.g b l) l).setWidth 64)))

/-- MOVI.lo and MOVI.hi: 16 bits of the destination, a vector register of each Active lane or a scalar. -/
def moviHalf (s : State) (p : Option Pfx) (d : Opnd) (i : BitVec 16) (lo : Nat) : Out :=
  pureOp s p d 1 [] (fun g l =>
    let old := if isScalar d then (sreg g (scalarNo d)).toNat else nat32 g d l
    old - bits old lo 16 * 2 ^ lo + i.toNat * 2 ^ lo)

def execMoviLo (p : Option Pfx) (d : Opnd) (i : BitVec 16) (s : State) : Out := moviHalf s p d i 0
def execMoviHi (p : Option Pfx) (d : Opnd) (i : BitVec 16) (s : State) : Out := moviHalf s p d i 16

def execMoviSx (p : Option Pfx) (d : Opnd) (i : BitVec 16) (s : State) : Out :=
  pureOp s p d 1 [] (fun _ _ => if isScalar d then wrap 64 i.toInt else wrap 32 i.toInt)

def execMoviBf (p : Option Pfx) (d : Opnd) (i : BitVec 16) (s : State) : Out :=
  pureOp s p d 1 [] (fun _ _ => i.toNat * 65536)

/-! ### Masks -/

def execMlop (p : Option Pfx) (f : BitVec 4) (m : BitVec 3) (a b : Opnd) (s : State) : Out :=
  maskOp s p m [] (fun g l =>
    bit f.toNat (2 * (lane (maskReg g a.toNat) l).toNat + (lane (maskReg g b.toNat) l).toNat))

/-- How many of a mask's bits below a lane are 1. -/
def popBelow (m : Dword) (l : Nat) : Nat := ((lanesOf m).filter (· < l)).length

def execMpop (p : Option Pfx) (d a : Opnd) (s : State) : Out :=
  pureOp s p d 1 [] (fun g _ => popBelow (maskReg g a.toNat) 64)

def execMpopBelow (p : Option Pfx) (d a : Opnd) (s : State) : Out :=
  pureOp s p d 1 [] (fun g l => popBelow (maskReg g a.toNat) l)

def execMpopBits (p : Option Pfx) (d a : Opnd) (s : State) : Out :=
  pureOp s p d 1 [] (fun g _ => (maskReg g a.toNat).toNat)

def execMfirst (p : Option Pfx) (d a : Opnd) (s : State) : Out :=
  pureOp s p d 1 [] (fun g _ => ((lanesOf (maskReg g a.toNat)).head?).getD 0xFFFFFFFF)

def execMfirstLast (p : Option Pfx) (d a : Opnd) (s : State) : Out :=
  pureOp s p d 1 [] (fun g _ => ((lanesOf (maskReg g a.toNat)).getLast?).getD 0xFFFFFFFF)

/-- MSET mode 0: every bit below the width, from a scalar. -/
def execMset (_p : Option Pfx) (d : BitVec 3) (a : Opnd) (s : State) : Out :=
  withIssue s (fun u =>
    if d = 0 then .next (raise s u (registerTrap u 0))
    else done s u (setMask u.g d.toNat (sreg u.g (scalarNo a))))

def execMsetNz (p : Option Pfx) (d : BitVec 3) (a : Opnd) (s : State) : Out :=
  maskOp s p d [(a, 1)] (fun g l => nat32 g a l ≠ 0)

/-! ### Bit streams -/

def curOf (c : Dword) : Nat := bits c.toNat 0 6
def needOf (c : Dword) : Bool := c.getLsbD 6
def wordsOf (c : Dword) : Nat := bits c.toNat 8 24

/-- %bcur from its fields (R177). -/
def bcurOf (cur : Nat) (need : Bool) (words : Nat) : Dword :=
  BitVec.ofNat 64 (cur % 64 + 64 * need.toNat + 256 * (words % 2 ^ 24))

def bcur (g : Group) (l : Nat) : Dword := tget 0 g.bcur l
def setBcur (g : Group) (l : Nat) (c : Dword) : Group := { g with bcur := tset 0 g.bcur l c }

/-- The stream quad as one number. -/
def quad (g : Group) (q l : Nat) : Nat :=
  (vreg g q l).toNat + 2 ^ 32 * (vreg g (q + 1) l).toNat + 2 ^ 64 * (vreg g (q + 2) l).toNat + 2 ^ 96 * (vreg g (q + 3) l).toNat

/-- The field that BSR reads (R179). -/
def streamField (sx : Bool) (x cur n : Nat) : Nat :=
  let f := x / 2 ^ cur % 2 ^ n
  if sx && 1 ≤ n && n ≤ 32 then wrap 32 (signed n f) else f % 2 ^ 32

/-- The stream of a lane moves on by n bits. -/
def advanceStream (g : Group) (q l n : Nat) : Group :=
  let c := bcur g l
  let t := curOf c + n
  if t < 64 then setBcur g l (bcurOf t (needOf c) (wordsOf c))
  else
    let h := setVreg (setVreg g q l (vreg g (q + 2) l)) (q + 1) l (vreg g (q + 3) l)
    setBcur h l (bcurOf (t - 64) true (wordsOf c + 1))

/-- A destination inside the quad (R178). -/
def inQuad (d q : Opnd) : Bool := !isScalar d && q.toNat ≤ d.toNat && d.toNat < q.toNat + 4

def execBsr (p : Option Pfx) (d a b : Opnd) (s : State) : Out :=
  withRegs s [(d, 1), (a, 4), (b, 1)] (fun u =>
    if inQuad d a then .next (raise s u (registerTrap u d.toNat))
    else
      let act := execLanes u p
      let len := fun (l : Nat) => nat32 u.g b l % 64
      let g := writeVec u.g d 1 u.f.lanes act (zOf p) (fun l =>
        BitVec.ofNat 64 (streamField (bit (auxOf p) 0) (quad u.g a.toNat l) (curOf (bcur u.g l)) (len l)))
      done s u (if bit (auxOf p) 1 then g else (lanesOf act).foldl (fun h l => advanceStream h a.toNat l (len l)) g))

def execBsinit (p : Option Pfx) (b : Opnd) (s : State) : Out :=
  withRegs s [(b, 1)] (fun u =>
    done s u ((lanesOf (execLanes u p)).foldl (fun h l => setBcur h l (bcurOf (nat32 u.g b l) false 0)) u.g))

def execBspos (p : Option Pfx) (d : Opnd) (s : State) : Out :=
  if bit (auxOf p) 0 then maskOp s p (d.setWidth 3) [] (fun g l => needOf (bcur g l))
  else pureOp s p d 1 [] (fun g l => (64 * wordsOf (bcur g l) + curOf (bcur g l)) % 2 ^ 32)

def execBsref (p : Option Pfx) (a b : Opnd) (s : State) : Out :=
  withRegs s [(a, 4), (b, 2)] (fun u =>
    done s u ((lanesOf (execLanes u p)).foldl (fun h l =>
      let c := bcur u.g l
      if needOf c then
        setBcur (putReg h (a + 2) 2 l (val64 u.g b l)) l (bcurOf (curOf c) false (wordsOf c))
      else h) u.g))

end Sys2Proof.Machine
end

