-- ==== Sys2Proof/Machine/Special.lean ====
section
/-!
DEFINITION. Special registers (R53, R98, R100, R162 to R164), the register pool (R154 to R159), and the trap registers (R422).
-/
namespace Sys2Proof.Machine

open Sys2Proof

/-! ### RDSR and WRSR -/

/-- Whether a special register has 64 bits. -/
def wideSpecial (n : Nat) : Bool := n == 7 || n == 8 || 11 ≤ n

/-- The value of a special register in a lane (R162). -/
def specialValue (s : State) (u : Issue) (n l : Nat) : Dword :=
  let q := gangOf s u.g.gang
  match n with
  | 0 => BitVec.ofNat 64 l
  | 1 => BitVec.ofNat 64 (u.g.gid * u.g.width + l)
  | 2 => BitVec.ofNat 64 u.g.gid
  | 3 => BitVec.ofNat 64 u.g.team
  | 4 => BitVec.ofNat 64 ((q.map (·.index)).getD 0)
  | 5 => BitVec.ofNat 64 (coreOfKey u.key)
  | 6 => BitVec.ofNat 64 (coreOfKey u.key / 16)
  | 7 => BitVec.ofNat 64 (((launchOfGroup s u.g).map (·.seq)).getD 0)
  | 8 => BitVec.ofNat 64 s.clock
  | 9 => (tget 0 u.g.safe l).setWidth 64
  | 10 => BitVec.ofNat 64 u.f.pix
  | 11 => u.g.round
  | 12 => 0
  | _ => bcur u.g l

def execRdsr (d n : Opnd) (s : State) : Out :=
  let w := if wideSpecial n.toNat then 2 else 1
  withRegs s [(d, w)] (fun u =>
    if n = 8 then
      capturedWord s u .clock 8 s.clock (fun s v =>
        .next (finish (modGroup s u.key (fun g => writeVec g d w u.f.lanes u.f.lanes false (fun l => BitVec.ofNat 64 (v l)))) u))
    else done s u (writeVec u.g d w u.f.lanes u.f.lanes false (specialValue s u n.toNat)))

/-- %round keeps RMODE alone, and a write of 6 or 7 stores 0 (R98). -/
def roundValue (x : Nat) : Dword := if 6 ≤ x % 8 then 0 else BitVec.ofNat 64 (x % 8)

def execWrsr (a n : Opnd) (s : State) : Out :=
  withRegs s [(a, 1)] (fun u =>
    let ls := lanesOf u.f.lanes
    done s u (match n.toNat with
      | 11 => { u.g with round := roundValue (nat32 u.g a (lowest u.f.lanes)) }
      | 12 => ls.foldl (fun h l => setRng h l (seedRng (val32 u.g a l) l)) u.g
      | _ => ls.foldl (fun h l => setBcur h l (BitVec.ofNat 64 (nat32 u.g a l) &&& ~~~(128 : Dword))) u.g))

/-! ### The register pool -/

/-- Granules of n blocks of a group. -/
def granules (g : Group) (n : Nat) : Nat := n * (g.width / 16)

/-- The requests that wait in a group's quarter. -/
def quarterQueue (s : State) (key : Nat) (g : Group) : List (Nat × Nat × Nat × Nat) :=
  (coreOf s (coreOfKey key)).requests.filter (fun r => r.1 == g.quarter)

/-- Blocks are granted to a group: its held count rises, the new registers read 0, and S[d] takes the count. -/
def grantBlocks (g : Group) (n d : Nat) : Group :=
  let h := g.held + n
  setSreg { g with held := h, v := g.v.filter (fun x => x.1 < 64 * (8 * g.held)) } d (BitVec.ofNat 64 h)

/-- A register-pool word acts once for the group, when a lane is Active (R156). -/
def poolOp (s : State) (p : Option Pfx) (k : Issue → Out) : Out :=
  withIssue s (fun u => if execLanes u p = 0 then .next (finish s u) else k u)

def execRallocWait (p : Option Pfx) (d n : Opnd) (s : State) : Out :=
  poolOp s p (fun u =>
    if 24 < u.g.held + n.toNat then
      .next (raise s u { cls := 18, info0 := BitVec.ofNat 64 n.toNat, info1 := BitVec.ofNat 64 u.g.held })
    else
      let c := coreOf s (coreOfKey u.key)
      let s := setCore s (coreOfKey u.key)
        { c with requests := c.requests ++ [(u.g.quarter, u.key, lowest u.f.lanes, n.toNat)] }
      .next (holdUnit s u (.ralloc n.toNat (scalarNo d) u.words.length)))

def execRallocTry (p : Option Pfx) (d n : Opnd) (s : State) : Out :=
  poolOp s p (fun u =>
    let can := u.g.held + n.toNat ≤ 24 && (quarterQueue s u.key u.g).isEmpty &&
        granules u.g n.toNat ≤ freeGranules s (coreOfKey u.key) u.g.quarter
    capturedWord s u .rallocTry 8 (if can then u.g.held + n.toNat else 0) (fun s v =>
      .next (finish (modGroup s u.key (fun g => if v (lowest u.f.lanes) = 0 then setSreg g (scalarNo d) 0 else grantBlocks g n.toNat (scalarNo d))) u)))

/-- The oldest request of a quarter is granted once enough granules are free (R158): the input's core and quarter. One that the group,
having grown meanwhile, could no longer be granted (R154) leaves the queue, and its word issues again (log entry 81). -/
def execRallocGrant (s : State) : Out :=
  let core := s.input.key
  let c := coreOf s core
  match c.requests.find? (fun r => r.1 == s.input.sub) with
  | none => .next s
  | some r =>
    match groupOf s r.2.1 with
    | none => .next (setCore s core { c with requests := c.requests.erase r })
    | some g =>
      if g.held + r.2.2.2 ≤ 24 && freeGranules s core r.1 < granules g r.2.2.2 then .next s
      else
        match fragAt g r.2.2.1 with
        | none => .next (setCore s core { c with requests := c.requests.erase r })
        | some f =>
          match f.hold with
          | .ralloc n d words =>
            let s := setCore s core { c with requests := c.requests.erase r }
            if 24 < g.held + n then .next (setGroup s r.2.1 (modFrag g f.lanes (fun f => f.stops.holding .ready s.clock)))
            else
              let x := modFrag (grantBlocks g n d) f.lanes (fun f => f.past words s.clock)
              .next (setGroup s r.2.1 (if sreg x d == sreg g d then x else breakSpin x r.2.2.1))
          -- A request that trap mode has set aside keeps its place.
          | _ => if ((gangOf s g.gang).bind (·.mode)).isSome then .next s else .next (setCore s core { c with requests := c.requests.erase r })

/-- Whether a counted load still owes a register from `lo` on to a group. -/
def loadOwes (s : State) (key lo : Nat) : Bool :=
  s.ops.any (fun o => o.2.owed.any (fun w => w.group == key && w.lane != 64 && lo ≤ w.reg)) ||
  s.requests.any (fun r => r.group == key && (r.kind == 0 || r.kind == 2) && r.reg < 192 && lo < r.reg + r.regs)

/-- RFREE, held for loads, issues again (R157).

DESIGN CHOICE (log entry 87): n is then tested against h, and its Active lanes are taken, anew. -/
def execRfree (p : Option Pfx) (d n : Opnd) (s : State) : Out :=
  poolOp s p (fun u =>
    if u.g.held ≤ n.toNat then .next (raise s u (registerTrap u 0))
    else
      let h := u.g.held - n.toNat
      if loadOwes s u.key (8 * h) then .next (holdUnit s u (.rfree n.toNat))
      else
        let g := { u.g with held := h, v := u.g.v.filter (fun x => x.1 < 64 * (8 * h)) }
        done s u (setSreg g (scalarNo d) (BitVec.ofNat 64 h)))

def execRquery (p : Option Pfx) (d : Opnd) (s : State) : Out :=
  poolOp s p (fun u =>
    let c := coreOf s (coreOfKey u.key)
    let free := freeGranules s (coreOfKey u.key) u.g.quarter / (u.g.width / 16)
    let v := u.g.held + 2 ^ 8 * u.g.regs + 2 ^ 16 * min 65535 free + 2 ^ 32 * min 255 (quarterQueue s u.key u.g).length +
      2 ^ 40 * c.b1 + 2 ^ 48 * c.b2 + 2 ^ 56 * c.b3
    capturedWord s u .rquery 8 v (fun s v =>
      .next (finish (modGroup s u.key (fun g => setSreg g (scalarNo d) (BitVec.ofNat 64 (v (lowest u.f.lanes))))) u)))

/-- Whether every group of a gang with a live thread waits in RALLOC.wait with all its threads (R159). -/
def gangStarved (s : State) (uid : Nat) : Bool :=
  let live := (groupsOf s uid).filter (fun x => liveLanes x.2 != 0)
  !live.isEmpty && live.all (fun x => x.2.frags.all (fun f => match f.hold with
    | .ralloc .. => true
    | _ => false))

/-- 16,384 clocks of such a wait raise allocation-deadlock at the gang rung; every waiting request of the gang is withdrawn, and
each word issues again when its group goes on (R159). The gang's number is the input's; its first waiting fragment is the one
that is reported. -/
def execAllocationDeadlock (s : State) : Out :=
  let uid := s.input.key
  match gangOf s uid with
  | none => .next s
  | some q =>
    if !gangStarved s uid then .next (setGang s uid { q with deadlock := none })
    else match q.deadlock with
      | none => .next (setGang s uid { q with deadlock := some s.clock })
      | some since =>
        if s.clock < since + 16384 then .next s
        else
          let keys := (groupsOf s uid).map (·.1)
          let waiting := (groupsOf s uid).flatMap (fun x => (x.2.frags.filterMap (fun f => match f.hold with
            | .ralloc n _ words => some (x.1, f.lanes, words, n, x.2.held)
            | _ => none)))
          let s := q.cores.foldl (fun s c =>
            let x := coreOf s c
            setCore s c { x with requests := x.requests.filter (fun r => !keys.contains r.2.1) }) s
          let s := setGang s uid { q with deadlock := none }
          let s := keys.foldl (fun s k => modGroup s k (fun g =>
            { g with frags := g.frags.map (fun f => f.holding .ready s.clock) })) s
          match waiting with
          | [] => .next s
          | (key, m, words, n, h) :: _ =>
            .next (takeTrap s key m words { cls := 18, info0 := BitVec.ofNat 64 n, info1 := BitVec.ofNat 64 h, rung := 1 })

/-! ### RDTR (R422) -/

/-- Trap register `i` of a set. -/
def TrapRegs.get (t : TrapRegs) (i : Nat) : Dword :=
  match i with
  | 0 => t.tclass
  | 1 => t.tword
  | 2 => t.tpos
  | 3 => t.tpix
  | 4 => t.tinfo0
  | 5 => t.tinfo1
  | 6 => t.tlanes
  | _ => t.tsrc

def execRdtr (d sel : Opnd) (s : State) : Out :=
  withRegs s [(d, 2)] (fun u =>
    let set := if sel.toNat < 8 then u.g.regsTrap else ((gangOf s u.g.gang).map (·.regsTrap)).getD TrapRegs.reset
    done s u (writeVec u.g d 2 u.f.lanes u.f.lanes false (fun _ => set.get (sel.toNat % 8))))

end Sys2Proof.Machine
end

