-- ==== Sys2Proof/Machine/Traps.lean ====
section
/-!
DEFINITION. TRAP and TRET (R420, R421), the encodings that no instruction assigns (R35, R36), and the clause header: merging,
breakpoints, stops, pending traps and WAIT (R20, R26, R57, R410, R461, R464).
-/
namespace Sys2Proof.Machine

open Sys2Proof

/-! ### TRAP -/

def execTrap (a : Opnd) (n : Byte) (s : State) : Out :=
  withRegs s [(a, 1)] (fun u =>
    let act := execLanes u none
    if act = 0 then .next (finish s u)
    else
      let v := if isScalar a then sreg u.g (scalarNo a) else (vreg u.g a.toNat (lowest act)).setWidth 64
      .next (raise s u { cls := 26 + n.toNat, info0 := v }))

/-! ### TRET -/

/-- The innermost rung whose handler fragment a fragment belongs to, with its trap mode. -/
def handlerOf (s : State) (u : Issue) : Option (Bool × TrapMode) :=
  let mine := fun (t : TrapMode) => u.f.lanes &&& t.lanes != 0
  match gangOf s u.g.gang with
  | none => none
  | some q =>
    match q.mode, u.g.mode with
    | some t, _ => if q.handler == some u.key && mine t then some (true, t) else none
    | none, some t => if mine t then some (false, t) else none
    | none, none => none

/-- Whether a mode of TRET suits a trap. -/
def modeSuits (mode : Nat) (t : TrapMode) : Bool :=
  let engine := t.cls == 14 || t.cls == 16
  match mode with
  | 0 => !engine
  | 1 => !asyncClass t.cls && !t.atHeader
  | 2 => !engine
  | _ => engine

/-- Trap mode at a rung ends, and what waited for that is tested again. -/
def leaveMode (s : State) (u : Issue) (gang : Bool) (t : TrapMode) (r : Return) : State :=
  if gang then
    let s := leaveGang s u.g.gang u.key u.f.lanes t r
    checkBarriers ((groupsOf s u.g.gang).foldl (fun s g => checkRendezvous s g.1) s) u.g.gang
  else checkRendezvous (leaveGroup s u.key u.f.lanes t r) u.key

/-- The engine work of a trap resumes, or is abandoned with error status. -/
def settleEngine (s : State) (u : Issue) (t : TrapMode) (resume : Bool) : State :=
  match t.engine with
  | none => s
  | some n =>
    if t.cls = 14 then (if resume then resumeTransfer s n else completeTransfer s n true)
    else if resume then resumeNode s u.g.gang n
    else abandonNode s u.g.gang n

/-- TRET: the checks of R421, then the return. -/
def tretOp (s : State) (mode : Nat) (k : State → Issue → Bool → TrapMode → Out) : Out :=
  withIssue s (fun u =>
    match handlerOf s u with
    | none => .next (raise s u (illegalTrap u (causeCode 421 1)))
    | some (gang, t) =>
      if t.lanes &&& liveLanes u.g &&& ~~~u.f.lanes != 0 then .next (raise s u (illegalTrap u (causeCode 421 2)))
      else if !modeSuits mode t then .next (raise s u (illegalTrap u (causeCode 421 3)))
      else k s u gang t)

def execTret (s : State) : Out := tretOp s 0 (fun s u gang t => .next (leaveMode s u gang t .resume))

def execTretSkip (s : State) : Out := tretOp s 1 (fun s u gang t => .next (leaveMode s u gang t .skip))

def execTretTo (a : Opnd) (s : State) : Out :=
  tretOp s 2 (fun s u gang t =>
    let target := (sreg u.g (scalarNo a)).toNat
    match checkTargets (whoGroup s u.key u.g) (stampOf s u.g) s [(lowest u.f.lanes, (target : Int))] with
    | (s, some b) => .next (branchFails s u b)
    | (s, none) => .next (leaveMode s u gang t (.goto target)))

def execTretEres (s : State) : Out :=
  tretOp s 3 (fun s u gang t => .next (settleEngine (leaveMode s u gang t .resume) u t true))

def execTretEabn (s : State) : Out :=
  tretOp s 4 (fun s u gang t => .next (settleEngine (leaveMode s u gang t .resume) u t false))

/-! ### Encodings that no instruction assigns -/

def execIllegalEncoding (s : State) : Out :=
  withIssue s (fun u =>
    let base := baseWord u.words
    let priv := ((launchOfGroup s u.g).map recPriv).getD false
    if majorOf base == 0x3D && !priv then .next (raise s u { cls := 5, info0 := base.setWidth 64 })
    else
      match decode u.words with
      | .error (.illegalInstruction w c) =>
        .next (raise s u { cls := 0, info0 := w.setWidth 64, info1 := BitVec.ofNat 64 c })
      | _ => .next (raise s u (illegalTrap u 35)))

/-! ### Merging at a header (R57) -/

/-- The fragments of the group that stand at the fragment's header join it. -/
def mergeAt (s : State) (u : Issue) : State :=
  match gangOf s u.g.gang with
  | none => s
  | some q =>
    let others := u.g.frags.filter (fun f => joinsAt u.f.pc s.clock f && trapAllows u.key u.g q f)
    let all := others.foldl (fun m f => m ||| f.lanes) u.f.lanes
    setGroup s u.key (putFrags u.g all [{ u.f with lanes := all }])

/-! ### Code breakpoints (R461) -/

/-- A relation of a code breakpoint descriptor between a register and IMM, as `w`-bit values. -/
def breakRelation (rel w x y : Nat) : Bool :=
  match rel with
  | 0 => true
  | 1 => x == y
  | 2 => x != y
  | 3 => decide (signed w x < signed w y)
  | 4 => decide (signed w y ≤ signed w x)
  | 5 => decide (x < y)
  | _ => decide (y ≤ x)

/-- Whether a code comparator's descriptor hits for a fragment at the header of an ordinal. -/
def breakHits (l : Launch) (g : Group) (f : Frag) (ord : Nat) (c : Comparator) : Bool :=
  let launch := field c.desc 0 8
  let reg := field c.desc 12 1
  let rel := field c.desc 13 1 % 8
  let all := bit (field c.desc 13 1) 3
  let imm := field c.desc 16 8
  c.en && field c.desc 8 4 == ord && field c.desc 14 1 == l.ctx && (launch == 0 || launch == l.seq) &&
  (if rel = 0 then true
   else if 192 ≤ reg then breakRelation rel 64 (sreg g (reg - 192)).toNat imm
   else if 8 * g.held ≤ reg then false
   else
     let test := fun (x : Nat) => breakRelation rel 32 (vreg g reg x).toNat imm
     if all then (lanesOf f.lanes).all test else (lanesOf f.lanes).any test)

/-- The lowest comparator of a core that hits. -/
def breakIndex (s : State) (key : Nat) (l : Launch) (g : Group) (f : Frag) (ord : Nat) : Option Nat :=
  let table := (coreOf s (coreOfKey key)).code
  (List.range 16).find? (fun i => breakHits l g f ord (tget Comparator.reset table i))

/-- Whether a pending breakpoint is one that a fragment of these threads has hit at the header, by the comparator. -/
def sameBreak (m : Dword) (pc i : Nat) (p : Pending) : Bool :=
  p.cls == 22 && p.info1.toNat == i &&
  (match p.place with
   | some (x, some a) => x &&& m != 0 && a == pc
   | _ => false)

/-- A hit makes class 22 pending, to be taken at that same header; a fragment that decodes the header again before it has taken it, and
what joins it there, has it pending once. -/
def noteBreak (s : State) (u : Issue) (l : Launch) (ord : Nat) : State :=
  match breakIndex s u.key l u.g u.f ord with
  | none => s
  | some i =>
    let mine := sameBreak u.f.lanes u.f.pc i
    if u.g.pending.any mine then
      modGroup s u.key (fun g => { g with pending := g.pending.map (fun p =>
        if mine p then { p with place := p.place.map (fun x => (x.1 ||| u.f.lanes, x.2)) } else p) })
    else addPending s u.key ⟨22, BitVec.ofNat 64 ord, BitVec.ofNat 64 i, 0, none, some (u.f.lanes, some u.f.pc)⟩

/-! ### What a safe point takes (R20, R65, R410, R416, R464) -/

/-- Whether the fragment is awaited at an open rendezvous, which keeps stops and pending traps from it. -/
def awaited (g : Group) (f : Frag) : Bool := g.rdv.any (fun r => r.members &&& ~~~r.arrived &&& f.lanes != 0)

/-- What the fragment does at the safe point: stop, be held by a freeze or a debug halt, take a trap, or go on. -/
inductive SafePoint where
  | stop
  | freeze
  | take (p : Pending)
  | go
deriving DecidableEq, Repr, Inhabited

/-- A class 22 trap of BKPT carries the ordinal of the safe point where it is taken (R465). -/
def atOrdinal (ord : Nat) (p : Pending) : Pending :=
  if p.cls == 22 && 256 ≤ p.info1.toNat then { p with info0 := BitVec.ofNat 64 ord } else p

/-- Whether a pending trap is one that the fragment takes at this header: any, but a code breakpoint only where its own threads have hit
it, and that of BKPT only by the threads that issued it (R461, R465). -/
def takenHere (f : Frag) (p : Pending) : Bool :=
  match p.place with
  | none => true
  | some (m, none) => m &&& f.lanes != 0
  | some (m, some pc) => m &&& f.lanes != 0 && pc == f.pc

/-- The pending traps that may be delivered here: none in trap mode, none of an async class at an awaited fragment, and no
debug halt while another gang of the context is halted. -/
def deliverable (s : State) (l : Launch) (g : Group) (q : Gang) (f : Frag) : List Pending :=
  if g.mode.isSome || q.mode.isSome then []
  else g.pending.filter (fun p =>
    takenHere f p && !(awaited g f && asyncClass p.cls) && !(debugClass s l p.cls && (ctxOf s l.ctx).halted.isSome))

def safePoint (s : State) (l : Launch) (g : Group) (q : Gang) (f : Frag) (ord : Nat) : SafePoint :=
  if !awaited g f && g.stopping then .stop
  else if !awaited g f && ((ctxOf s l.ctx).frozen || q.halted.isSome) then .freeze
  else
    match nextPending (deliverable s l g q f) with
    | none => .go
    | some p => .take (if p.cls == 22 then atOrdinal ord p else p)

/-- A pending trap is taken at the header, or halts the gang for debug. -/
def takePending (s : State) (u : Issue) (l : Launch) (p : Pending) : State :=
  let s := modGroup s u.key (fun g =>
    { g with pending := match g.pending.find? (fun x => x.cls == p.cls && x.info1 == p.info1 && x.engine == p.engine && x.place == p.place) with
        | none => g.pending
        | some x => g.pending.erase x })
  let t : Trap := { cls := p.cls, info0 := p.info0, info1 := p.info1, atHeader := true, engine := p.engine, rung := p.rung, safe := true,
                    byWord := false }
  if debugClass s l p.cls then
    haltGang (holdUnit s u .frozen) u.g.gang l ⟨some u.key, lowest u.f.lanes, p, trapRegs s u.key u.g u.f t 0, false, s.clock⟩
  else takeTrap s u.key u.f.lanes 1 t

/-! ### The header -/

/-- The counters that WAIT selects. -/
def waitSet (h : Word) : List Nat := (List.range 12).filter (bit (hdrWait h))

/-- WAIT is evaluated, and the clause entered when every selected counter reads 0. -/
def enterClause (s : State) (u : Issue) (h : Word) : State :=
  match groupOf s u.key with
  | none => s
  | some g =>
    let s := if hdrYield h then modGroup s u.key (fun g => modFrag g u.f.lanes (fun f => { f with age := s.clock })) else s
    if (waitSet h).any (fun k => (counterOf g k).val != 0) then holdUnit s u (.clauseWait (hdrWait h))
    else
      let s := (waitSet h).foldl (fun s k => coverWait s u.key u.f.lanes k 1) s
      modGroup s u.key (fun g => modFrag g u.f.lanes (fun f =>
        { f with pc := f.pc + 4, clause := some ⟨f.pc, h⟩, hold := .ready, since := s.clock, probe := [] }))

/-- A fragment at a header with S = 1: %safe, breakpoints, the stop, and pending traps, before WAIT. One that its WAIT holds has been
tested for breakpoints, but for threads that have joined it. -/
def safeHeader (s : State) (u : Issue) (h : Word) (grew : Bool) : State :=
  match launchOfGroup s u.g, gangOf s u.g.gang with
  | some l, some q =>
    let ord := (codePos s (some l) u.f.pc).1
    let s := modGroup s u.key (fun g => { g with safe := (lanesOf u.f.lanes).foldl (fun t x => tset 0 t x (BitVec.ofNat 32 ord)) g.safe })
    let trapped := u.g.mode.isSome || q.mode.isSome
    let waits := match u.f.hold with
      | .clauseWait _ => true
      | _ => false
    let s := if (waits && !grew) || trapped then s else noteBreak s u l ord
    (match groupOf s u.key with
     | none => s
     | some g =>
       match safePoint s l g q u.f ord with
       | .stop => holdUnit s u .stopped
       | .freeze => holdUnit s u .frozen
       | .take p => takePending s u l p
       | .go => enterClause s u h)
  | _, _ => s

def execClauseHeader (s : State) : Out :=
  withIssue s (fun u =>
    let h := (u.words.head?).getD 0
    let s := mergeAt s u
    match groupOf s u.key with
    | none => .next s
    | some g =>
      match g.frags.find? (fun f => f.lanes &&& u.f.lanes != 0) with
      | none => .next s
      | some f =>
        let grew := f.lanes != u.f.lanes
        let u : Issue := { u with g := g, f := f }
        if !hdrOk h then .next (raise s u { cls := 1, info0 := h.setWidth 64, atHeader := true })
        else if hdrStop h then .next (safeHeader s u h grew)
        else .next (enterClause s u h))

end Sys2Proof.Machine
end

