-- ==== Sys2Proof/Machine/Debug.lean ====
section
/-!
DEFINITION. The debugger's windows: BKPT, TRACE and MARK (R465), the comparators (R460 to R463), the trace ring and the
lane-cycle bins (R466 to R468), capture control (R469), and the clones of redundant execution (R439 to R441).
-/
namespace Sys2Proof.Machine

open Sys2Proof

/-! ### BKPT, TRACE and MARK -/

def execBkpt (i : Byte) (s : State) : Out :=
  withIssue s (fun u => .next (finish (addPending s u.key ⟨22, 0, BitVec.ofNat 64 (256 + i.toNat), 0, none, some (u.f.lanes, none)⟩) u))

def execTrace (a : Opnd) (i : Byte) (s : State) : Out :=
  withRegs s [(a, 1)] (fun u =>
    let one := fun (s : State) (l : Nat) (x : Dword) => traceRecord s u.key 2 l u.f.pc i.toNat x
    .next (finish (if isScalar a then one s (lowest u.f.lanes) (sreg u.g (scalarNo a))
                   else (lanesOf u.f.lanes).foldl (fun s l => one s l ((vreg u.g a.toNat l).setWidth 64)) s) u))

def execMark (i : Byte) (s : State) : Out :=
  withIssue s (fun u => .next (finish (traceRecord s u.key 1 (lowest u.f.lanes) u.f.pc i.toNat 0) u))

/-! ### System words -/

/-- The operand fields of the system word being issued. -/
def systemFields (s : State) : Opnd × Opnd :=
  let w := baseWord ((s.cur.map (·.words)).getD [])
  (byteA w, byteB w)

/-- A system word: S[a], S[b], the launch of its group. -/
def systemOp (s : State) (a b : Opnd) (k : Issue → Launch → Nat → Nat → Out) : Out :=
  withIssue s (fun u =>
    match launchOfGroup s u.g with
    | none => .next s
    | some l => k u l (scalarOf u a) (scalarOf u b))

/-- A system word of op 0x3D whose row S[a] or S[b] tells apart. -/
def systemRow (s : State) (k : Opnd → Issue → Launch → Nat → Nat → Out) : Out :=
  let f := systemFields s
  systemOp s f.1 f.2 (k f.2)

/-- A descriptor of the size at an address that must be a multiple of it. -/
def wordDescriptor (s : State) (u : Issue) (va n : Nat) (k : State → List Byte → Out) : Out :=
  if va % n != 0 then misalignedWord s u va else wordLoad s u va n k

/-! ### Comparators (R460) -/

/-- The bytes from one place up to another are zero. -/
def zeroBytes (bs : List Byte) (lo hi : Nat) : Bool := ((bs.drop lo).take (hi - lo)).all (fun b => b == 0)

/-- A code breakpoint descriptor that is not refused. -/
def codeDescOk (d : List Byte) : Bool :=
  let cond := field d 13 1
  decide (cond % 8 ≤ 6) && decide (cond < 16) && zeroBytes d 15 16 && zeroBytes d 24 32 &&
  (decide (192 ≤ field d 12 1) || decide (field d 16 8 < 2 ^ 32))

/-- A data watchpoint descriptor that is not refused, of a core comparator or of CX. -/
def dataDescOk (cx : Bool) (d : List Byte) : Bool :=
  let kind := field d 13 1
  decide (field d 0 8 < (if cx then 2 ^ 41 else 2 ^ 56)) && decide (1 ≤ field d 8 2) && decide (field d 8 2 ≤ 4096) &&
  (if cx then kind % 8 == 0 && decide (kind < 64) else decide (kind < 8)) && zeroBytes d 14 16 && zeroBytes d 24 32 &&
  (!cx || field d 16 8 == 0)

/-- A comparator that takes a descriptor, or is cleared by the address 0: the comparator and the result code. -/
def setComparator (c : Comparator) (part : Nat) (clear ok : Bool) (d : List Byte) : Comparator × Nat :=
  if c.part != 7 && c.part != part then (c, 1)
  else if clear then (Comparator.reset, 0)
  else if !ok then (Comparator.reset, 2)
  else (⟨part, true, d, 0, 0⟩, 0)

/-- BKSET and WPSET: the descriptor is read, and the comparator set where it stands. -/
def comparatorWord (s : State) (u : Issue) (l : Launch) (b : Opnd) (va : Nat) (ok : List Byte → Bool)
    (read : State → Comparator) (write : State → Comparator → State) : Out :=
  let act := fun (s : State) (d : List Byte) =>
    let r := setComparator (read s) l.part (va = 0) (ok d) d
    finishScalar (write s r.1) u b r.2
  if va = 0 then act s [] else wordDescriptor s u va 32 act

def execBkset (a b : Opnd) (s : State) : Out :=
  systemOp s a b (fun u l sa sb =>
    let core := bits sa 4 6
    let i := bits sa 0 4
    if 1024 ≤ sa then .next (raise s u (illegalTrap u (causeCode 460 2)))
    else if 48 ≤ core || corePart s core != l.part then breach s u 9
    else comparatorWord s u l b sb codeDescOk (fun s => tget Comparator.reset (coreOf s core).code i)
      (fun s c => setCore s core { coreOf s core with code := tset Comparator.reset (coreOf s core).code i c }))

def execWpset (a b : Opnd) (s : State) : Out :=
  systemOp s a b (fun u l sa sb =>
    let i := bits sa 0 6
    let core := bits sa 6 6
    if 4096 ≤ sa || (8 ≤ i && i ≤ 39 && core != 0) then .next (raise s u (illegalTrap u (causeCode 460 2)))
    else if 39 < i then .next (raise s u (illegalTrap u (causeCode 460 3)))
    else if 8 ≤ i then
      comparatorWord s u l b sb (dataDescOk true) (fun s => tget Comparator.reset s.cxComps (i - 8))
        (fun s c => { s with cxComps := tset Comparator.reset s.cxComps (i - 8) c })
    else if 48 ≤ core || corePart s core != l.part then breach s u 9
    else comparatorWord s u l b sb (dataDescOk false) (fun s => tget Comparator.reset (coreOf s core).data i)
      (fun s c => setCore s core { coreOf s core with data := tset Comparator.reset (coreOf s core).data i c }))

/-! ### Imprecise watch reports (R463) -/

/-- A record of something that no fragment did: it waits on a core of its partition. -/
def plainRecord (s : State) (part core typ arg seq : Nat) (data : Dword) : State :=
  if !(traceOf s part).on then s
  else
    let c := coreOf s core
    let bytes := leBytes 1 typ ++ leBytes 1 core ++ leBytes 8 0 ++ leBytes 2 arg ++ leBytes 4 seq ++ leBytes 8 s.clock ++
      leBytes 8 data.toNat
    setCore s core (if c.unwritten.length < 64 then { c with unwritten := c.unwritten ++ [bytes] }
                    else { c with lost := c.lost + 1 })

/-- The first core of a partition. -/
def firstCore (s : State) (part : Nat) : Nat := ((List.range 48).find? (fun c => corePart s c == part)).getD 0

/-- A report is made: WPSTAT, the trace ring, and the group that is told. -/
def makeReport (s : State) (r : Report) : State :=
  let c := tget Comparator.reset s.cxComps r.comp
  let s := if c.en then { s with cxComps := tput s.cxComps r.comp (c.reported r.word) } else s
  let source := bits r.word.toNat 32 12
  let engine := bits r.word.toNat 29 3 == 3
  let seq := ((r.gang.bind (gangOf s)).bind (fun q => launchOf s q.launch)).map (·.seq)
  let s := plainRecord s c.part (if engine then source / 8 else firstCore s c.part) 5 0 (seq.getD 0) r.word
  let p : Pending := ⟨23, BitVec.ofNat 64 r.addr, r.word, 0, none, none⟩
  match r.gang with
  | none => s
  | some uid =>
    match r.group.bind (groupOf s) with
    | some g => if g.gang = uid && liveLanes g != 0 then addPending s (r.group.getD 0) p else deliverGangTrap s uid p
    | none => deliverGangTrap s uid p

def execWatchImpreciseReport (s : State) : Out :=
  match s.reports with
  | [] => .next s
  | r :: rest => .next (makeReport { s with reports := rest } r)

/-- The skid of a report. -/
def skidClocks : Nat := 1024

/-- Reports are made at the end of their skid at the latest. -/
def settleReports (s : State) : State :=
  let due := fun (r : Report) => decide (r.since + skidClocks ≤ s.clock)
  (s.reports.filter due).foldl makeReport { s with reports := s.reports.filter (fun r => !due r) }

/-! ### The trace ring (R466, R467) -/

def setTrace (s : State) (part : Nat) (t : Trace) : State := { s with traces := tset Trace.reset s.traces part t }

/-- A TRCFG word: the reserved bits of S[a]. -/
def trcfgOp (s : State) (k : Opnd → Issue → Launch → Nat → Out) : Out :=
  systemRow s (fun b u l sa sb => if 4 ≤ sa then .next (raise s u (illegalTrap u (causeCode 460 2))) else k b u l sb)

/-- The intervals of a partition's samples begin. -/
def restartSamples (s : State) (part : Nat) : State :=
  ((List.range 48).filter (fun c => corePart s c == part)).foldl (fun s c => setCore s c { coreOf s c with sampled := s.clock }) s

def execTrcfgStart (s : State) : Out :=
  trcfgOp s (fun b u l va =>
    wordDescriptor s u va 16 (fun s d =>
      let t := traceOf s l.part
      let log2 := field d 8 1
      if field d 0 8 % 4096 != 0 || log2 < 12 || 30 < log2 || !zeroBytes d 13 16 then
        finishScalar (setTrace s l.part { t with on := false }) u b 2
      else
        let s := setTrace s l.part { t with on := true, base := field d 0 8, log2 := log2, sample := field d 9 4, count := 0, ctx := l.ctx }
        finishScalar (restartSamples s l.part) u b 0))

def execTrcfgBins (s : State) : Out :=
  trcfgOp s (fun b u l va =>
    if va % 16 != 0 then misalignedWord s u va
    else
      wordLoad s u va 1024 (fun s d =>
        let t := traceOf s l.part
        finishScalar (setTrace s l.part
          { t with bins := (List.range 64).map (fun i => (field d (16 * i) 8, field d (16 * i + 8) 8)) }) u b 0))

/-- The lane-cycle counters of a partition's cores are cleared. -/
def clearCycles (s : State) (part : Nat) : State :=
  ((List.range 48).filter (fun c => corePart s c == part)).foldl (fun s c =>
    setCore s c { coreOf s c with bins := [], totals := [], counted := s.clock }) s

def execTrcfgClear (s : State) : Out :=
  trcfgOp s (fun b u l sb =>
    if sb != 0 then .next (raise s u (illegalTrap u (causeCode 466 3))) else finishScalar (clearCycles s l.part) u b 0)

def execTrcfgStop (s : State) : Out :=
  trcfgOp s (fun b u l sb =>
    if sb != 0 then .next (raise s u (illegalTrap u (causeCode 466 4)))
    else finishScalar (setTrace s l.part { traceOf s l.part with on := false }) u b 0)

/-- A record goes to the next place of its partition's ring. A store of it that does not go through is lost: the manual gives it
no outcome. -/
def ringRecord (s : State) (core part : Nat) (bytes : List Byte) : State :=
  let t := traceOf s part
  let va := t.base + 32 * (t.count % (2 ^ t.log2 / 32))
  let w := { whoCtx s t.ctx true with core := core }
  let r := deviceStoreAll s w va [bytes.take 16, bytes.drop 16]
  setTrace r.1 part { traceOf r.1 part with count := (t.count + 1) % 2 ^ 48 }

/-- A core writes its oldest record to the ring, or the one that counts the records it has dropped. -/
def execTraceRecordWrite (s : State) : Out :=
  let core := s.input.key
  let c := coreOf s core
  let part := corePart s core
  match c.unwritten with
  | b :: rest => .next (ringRecord (setCore s core { c with unwritten := rest }) core part b)
  | [] =>
    if c.lost = 0 then .next s
    else
      let bytes := leBytes 1 6 ++ leBytes 1 core ++ leBytes 8 0 ++ leBytes 2 (min 0xFFFF c.lost) ++ leBytes 4 0 ++
        leBytes 8 s.clock ++ leBytes 8 0
      .next (ringRecord (setCore s core { c with lost := 0 }) core part bytes)

/-- A sample of a core: the position of the fragment that issued last in its lowest quarter. -/
def sampleCore (s : State) (core : Nat) : State :=
  let s := setCore s core { coreOf s core with sampled := s.clock }
  match (coreOf s core).lastIssue with
  | none => s
  | some (key, ln) =>
    match groupOf s key with
    | none => s
    | some g => match fragAt g ln with
      | none => s
      | some f => traceRecord s key 3 ln f.pc 0 0

/-- The clocks between a core's samples, where its partition is traced and has them. -/
def samplePeriod (s : State) (core : Nat) : Option Nat :=
  let t := traceOf s (corePart s core)
  if t.on && t.sample != 0 then some t.sample else none

/-- Whether a core's next sample is due. -/
def sampleDue (s : State) (core : Nat) : Bool :=
  match samplePeriod s core with
  | none => false
  | some n => decide ((coreOf s core).sampled + n ≤ s.clock)

def execTraceSample (s : State) : Out := .next (if sampleDue s s.input.key then sampleCore s s.input.key else s)

/-- The samples of a core that have come due since the last, each at its clock. -/
def settleSample (s : State) (core : Nat) : State :=
  match samplePeriod s core with
  | none => s
  | some n =>
    let start := (coreOf s core).sampled
    let now := s.clock
    { (List.range ((now - start) / n)).foldl (fun s i => sampleCore { s with clock := start + (i + 1) * n } core) s with clock := now }

/-- Samples are taken when they are due. -/
def settleSamples (s : State) : State :=
  if s.traces.all (fun t => !t.2.on || t.2.sample == 0) then s else (List.range 48).foldl settleSample s

/-! ### Capture control (R469) -/

/-- A CAPCTL word: the reserved bits of S[a], and the descriptor of the area, or 0 for none. -/
def capctlOp (s : State) (mode : Nat) : Out :=
  systemRow s (fun b u l sa va =>
    let put := fun (s : State) (m base bytes : Nat) =>
      setCtx s l.ctx { ctxOf s l.ctx with capMode := m, capBase := base, capBytes := bytes }
    if 4 ≤ sa then .next (raise s u (illegalTrap u (causeCode 460 2)))
    else if sa = 3 then .next (raise s u (illegalTrap u (causeCode 469 0)))
    else if va = 0 then finishScalar (put s 0 0 0) u b 0
    else
      wordDescriptor s u va 16 (fun s d =>
        if field d 0 8 % 65536 != 0 || field d 8 8 % 4096 != 0 then finishScalar (put s 0 0 0) u b 2
        else finishScalar (put s mode (field d 0 8) (field d 8 8)) u b 0))

def execCapctlOff (s : State) : Out := capctlOp s 0
def execCapctlCapture (s : State) : Out := capctlOp s 1
def execCapctlReplay (s : State) : Out := capctlOp s 2

/-! ### Clones (R440, R441) -/

/-- What the clone of a word recomputes and compares (R439, R441): 0 the register results, 1 the signature of a store, an atomic, a post
or a system word, 2 the next PC of a branch, 3 a copy descriptor; a word that has none of these has nothing to compare. -/
def comparedKind : Instr → Option Nat
  | .stB .. | .stH .. | .stW .. | .stD .. | .stQ .. | .stn .. | .ste .. | .stRel .. | .stsH .. | .stsW .. | .stsD .. | .stsQ ..
  | .atomAdd .. | .atomMin .. | .atomMax .. | .atomExch .. | .atomAnd .. | .atomOr .. | .atomXor .. | .atomCas .. | .atomFadd ..
  | .atomFadd2 .. | .atomFmin .. | .atomFmax .. | .atomsAdd .. | .atomsExch .. | .atomsCas .. | .atomsFadd .. | .mpost .. | .qpost ..
  | .launch .. | .tlbinvPage .. | .lpinvPage .. | .itset .. | .regen .. | .errd .. | .errclr .. | .psetReq .. | .ckgo .. | .ctxsave ..
  | .ctxload .. | .spmigClean .. | .qctlCreate .. | .unfreeze .. | .hstake .. | .rbldChannel .. | .scrubPeriod .. | .wpset ..
  | .bkset .. | .tlbinvContext | .tlbinvPartition | .lpinvContext | .lpinvPartition | .pset | .ctxsaveReplace | .spmigEvict
  | .qctlDestroy | .qctlDestroyKill | .rbldStack | .rbldRate | .rbldPause | .rbldResume | .scrubFrame | .scrubRetire | .scrubThresh
  | .trcfgStart | .trcfgBins | .trcfgClear | .trcfgStop | .capctlOff | .capctlCapture | .capctlReplay => some 1
  | .bra .. | .call .. | .brl .. | .brAny .. | .brAnySplit .. | .brAll .. | .brNone .. | .brNoneSplit .. | .brSz .. | .brxTable ..
  | .brxAddress .. | .callxTable .. | .callxAddress .. | .ret => some 2
  | .cpy .. | .cpy2 .. | .cpyg .. | .cpyx .. => some 3
  | .nop | .yield | .sleep .. | .waitlt .. | .exit | .bar | .barG | .barw .. | .barwG .. | .join .. | .seal | .fencePeer | .fenceHost
  | .fenceAsyncRel | .fenceAsyncAcq | .fenceAsync | .fenceIo | .tret | .tretSkip | .tretEres | .tretEabn | .tretTo .. | .trap ..
  | .bkpt .. | .trace .. | .mark .. | .pref .. | .prefLlc .. | .mcfg .. | .mcancel .. | .azero .. | .agidx .. | .aload .. | .astore ..
  | .kadd .. | .kbindClose .. | .clauseHeader => none
  | _ => some 0

/-- The row of the word at which a fragment that may issue stands, with the number of its words. -/
def standsAt (s : State) (key : Nat) (g : Group) (f : Frag) (l : Launch) : State × Option (Instr × Nat) :=
  match f.clause, f.hold with
  | none, _ | _, .between .. => (s, none)
  | some c, _ =>
    match fetchUnit s (whoGroup s key g) l.stamp (c.head + 4 + 4 * hdrCount c.word) 3 f.pc with
    | (s, .error _) => (s, none)
    | (s, .ok ws) => (s, (chooseRow (recPriv l) g c f.pc ws).toOption.map (fun i => (i, ws.length)))

/-- The clone of a group's oldest replayed word compares equal and leaves the replay queue; or the clone of the word at which the
fragment of a lane stands differs, in what the word's kind compares, from an Active lane on, or from a thread for a branch: the word has
no effect, and silent-error is raised at it, on the spare where its record calls for a takeover (R442). -/
def execCloneReplay (s : State) : Out :=
  let key := s.input.key
  match groupOf s key with
  | none => .next s
  | some g =>
    let core := coreOfKey key
    if s.input.ok then
      let c := coreOf s core
      match c.replay.find? (fun r => r.2 == key) with
      | none => .next s
      | some r => .next (setCore s core { c with replay := c.replay.erase r })
    else
      let ln := s.input.sub
      match fragAt g ln, launchOfGroup s g with
      | some f, some l =>
        if !recCheck l || !mayIssue s key g f then .next s
        else
          (match standsAt s key g f l with
           | (s, none) => .next s
           | (s, some (i, n)) =>
             match comparedKind i with
             | none => .next s
             | some kind =>
               if !lane (if kind = 2 then f.lanes else activeOf g f.lanes (pfxOf i)) ln then .next s
               else
                 let info := kind + 256 * ln
                 let s := recordEvent s { unit := unitCore s core, cause := 0x22, sev := 3, addr := some f.pc, synd := info,
                                          ctx := some l.ctx, gang := ((gangOf s g.gang).map (·.index)).getD 0 }
                 let t : Trap := { cls := 20, info0 := BitVec.ofNat 64 f.pc, info1 := BitVec.ofNat 64 info, rung := 1 }
                 .next (if takeoverDue s (unitCore s core) then stopHeld s key f (fun s t => deferTrap s key f.lanes n t none 0) t
                   else trapHeld s key f n t))
      | _, _ => .next s

end Sys2Proof.Machine
end

