-- ==== Sys2Proof/Machine/Ras.lean ====
section
/-!
DEFINITION. The work of the memory system on its own: write-back (R294), the patrol scrub (R301), dead channels and their rebuild
(R295 to R298), rows (R300, R302, R303), hot pages (R307 to R309), telemetry periods (R295), and the words RBLD and SCRUB.
-/
namespace Sys2Proof.Machine

open Sys2Proof

/-! ### Write-back -/

/-- The dirty sectors of a tier X line go to the host, poisoned ones marked so, and the LLC drops the line (R287). Engine writes that
have still to reach the line do so first (R350). -/
def dropHostLine (s : State) (line : Nat) : State :=
  let s := applyPlaces s (placeWithin (128 * line) 128)
  let out := (s.mem.dirtyOf line).map (fun i =>
    Sent.hostWrite (128 * line + 16 * i - hostBase) (readBytes s.mem.cells (128 * line + 16 * i) 16)
      (s.mem.poison.contains (8 * line + i)) false)
  { s with
    sent := s.sent ++ out
    mem := { s.mem with
      cells := s.mem.cells.filter (fun c => c.1 / 128 != line), dirty := s.mem.dirty.filter (fun x => x / 8 != line),
      xlines := removeNat line s.mem.xlines
      posted := if (s.mem.dirtyOf line).isEmpty then s.mem.posted else insertNat line s.mem.posted } }

/-- A home slice writes back a line; a tier X line leaves the LLC. -/
def writebackLine (s : State) (line : Nat) : State :=
  if hostBase ≤ 128 * line then (if s.mem.xlines.contains line then dropHostLine s line else s)
  else
    let r := s.mem.writeback line (fun i => BitVec.ofNat 128 (Config.freeChoice (s.tick + i)))
    let tick := match r.2 with
      | .poisoned _ => s.tick + 8
      | _ => s.tick
    recordDecoded { s with mem := r.1, tick := tick } s.mem line r.2

def execLineWriteback (s : State) : Out := .next (writebackLine (noteActivations s s.input.key) s.input.key)

/-- Every line of the LLC that lies in a place of 64 KiB is written back, with the engine writes that have still to reach it. -/
def writebackPlace (s : State) (base : Nat) : State :=
  let s := applyPlaces s (placeWithin base 65536)
  let lines := (s.mem.dirty.map (· / 8) ++ s.mem.xlines).filter (fun x => base ≤ 128 * x && 128 * x < base + 65536)
  lines.eraseDups.foldl writebackLine s

/-! ### The patrol scrub -/

/-- A line is read and decoded; a correctable one is written back whole. -/
def scrubLine (s : State) (line : Nat) : State :=
  let s := noteActivations s line
  let r := s.mem.decodeAll line
  recordDecoded { s with mem := r.1 } s.mem line r.2

def execPatrolScrubLine (s : State) : Out :=
  let line := s.input.key
  if 512 * 12890572 ≤ line then .next s
  else
    let s := scrubLine s line
    -- A new pass counts the failures of its reads afresh (R302).
    let rows := if line = 0 then
        (s.mem.rows.map (fun r => (r.1, { r.2 with failed := 0 }))).filter (fun r => r.2 != Row.reset) else s.mem.rows
    .next { s with mem := { s.mem with passPos := line / 512, rows := rows } }

/-! ### Dead channels -/

/-- A channel is declared dead once, and queued for its rebuild: SYND 0 PHY, 1 inner checks, 2 RBLD. -/
def declareDead (s : State) (chan why : Nat) : State :=
  if s.mem.dead chan || 384 ≤ chan then s
  else
    let c := { s.mem.chan chan with state := 1, bysw := why == 2 }
    let rb := { s.mem.rebuild with queue := s.mem.rebuild.queue ++ [chan] }
    recordEvent { s with mem := { s.mem with chans := tset Chan.reset s.mem.chans chan c, rebuild := rb } }
      { unit := unitChannel chan, cause := 0x04, sev := 1, synd := why }

/-- PHY training fails at reset or recalibration, or more than 64 symbols fail in one telemetry period. -/
def execChannelDead (s : State) : Out :=
  let chan := s.input.key
  if s.input.sub = 0 then .next (declareDead s chan 0)
  else if 64 < (s.mem.chan chan).fails then .next (declareDead s chan 1)
  else .next s

def execPhyRecalibration (s : State) : Out := if s.input.ok then .next s else .next (declareDead s s.input.key 0)

/-! ### The rebuild engine -/

/-- Spare regions of a channel that no symbol has taken; none where the channel is dead. -/
def spareFree (m : Mem) (chan : Nat) : Nat :=
  if m.dead chan then 0 else spareHigh - spareLow - (m.spareUsed.filter (fun x => x.1 == chan)).length

/-- The lowest free spare region of a channel. -/
def spareRegion (m : Mem) (chan : Nat) : Option Nat :=
  let used := (m.spareUsed.filter (fun x => x.1 == chan)).map (·.2)
  ((List.range (used.length + 1)).map (· + spareLow)).find? (fun r => !used.contains r && decide (r < spareHigh))

/-- The best of several by a count, the first on a tie. -/
def bestBy (count : Nat → Nat) (xs : List Nat) : Option Nat :=
  xs.foldl (fun b x => match b with
    | none => some x
    | some y => if count y < count x then some x else some y) none

/-- The spare region that a frame's position moves to (R296, step 1). -/
def chooseSpare (m : Mem) (frame : Nat) : Option (Nat × Nat) :=
  let held := (List.range 10).map (fun i => (m.interWord frame i).chan / 32) ++
    ((m.rebuild.work.filter (fun w => w.frame == frame)).map (fun w => w.chan / 32)).toList
  let onStack := fun (k : Nat) => (List.range 32).map (fun c => 32 * k + c)
  let stackFree := fun (k : Nat) => (onStack k).foldl (fun n c => n + spareFree m c) 0
  match bestBy stackFree ((List.range 12).filter (fun k => !held.contains k)) with
  | none => none
  | some k =>
    match bestBy (spareFree m) (onStack k) with
    | none => none
    | some c => if spareFree m c = 0 then none else (spareRegion m c).map (fun r => (c, r))

/-- A line is decoded for its rebuild: an uncorrectable one is poisoned, and its new symbol fails its inner check. -/
def rebuildLine (s : State) (pos line : Nat) : State :=
  let s := noteActivations s line
  let r := s.mem.decodeAll line
  let t := recordDecoded { s with mem := r.1 } s.mem line r.2
  { t with mem := { t.mem with symErr := match r.2 with
      | .poisoned _ => tset ⟨0, 0⟩ t.mem.symErr (10 * line + pos) ⟨0, 1⟩
      | _ => tdel t.mem.symErr (10 * line + pos) } }

/-- No spare region is left for a position. -/
def setNospare (s : State) : State := { s with mem := { s.mem with rebuild := { s.mem.rebuild with nospare := true } } }

/-- A position of a frame moves whole to a spare region, line by line, and the entry names it (R296, R302). DESIGN CHOICE, log entry 94: no
step stands between the lines of a region that a retired row gives up, and the region that it gives up is never taken as a spare again. -/
def moveSymbols (s : State) (frame pos : Nat) : State :=
  match chooseSpare s.mem frame with
  | none => setNospare s
  | some (c, r) =>
    let s := ((List.range 512).map (· + 512 * frame)).foldl (fun s l => rebuildLine s pos l) s
    { s with mem := { s.mem with
        inter := tput s.mem.inter (10 * frame + pos) ⟨c, r, 0⟩, spareUsed := s.mem.spareUsed ++ [(c, r)] } }

/-- The next MA frame from one on whose entry names a channel, with the position. -/
def nextNamed (m : Mem) (chan : Nat) : Nat → Nat → Option (Nat × Nat)
  | 0, _ => none
  | n + 1, frame =>
    match (List.range 10).find? (fun i => (m.interWord frame i).chan == chan) with
    | some i => some (frame, i)
    | none => nextNamed m chan n (frame + 1)

/-- The engine takes a channel of its queue. -/
def takeChannel (s : State) (c : Nat) (rest : List Nat) : State :=
  { s with mem := { s.mem with
    chans := tset Chan.reset s.mem.chans c { s.mem.chan c with state := 2 }
    rebuild := { s.mem.rebuild with queue := rest, active := some c, frames := 0, nextFrame := 0 } } }

/-- Every frame that named a channel has been served. -/
def endChannel (s : State) (c : Nat) : State :=
  { s with mem := { s.mem with
    chans := tset Chan.reset s.mem.chans c { s.mem.chan c with state := 3 }, rebuild := { s.mem.rebuild with active := none } } }

/-- The engine begins with a position of a frame: it chooses the spare region and sets the position's ST to 2 (R296, steps 1 and 2), or
skips the frame. -/
def beginFrame (s : State) (frame pos : Nat) : State :=
  let s : State := { s with mem := { s.mem with rebuild := { s.mem.rebuild with nextFrame := frame + 1 } } }
  match chooseSpare s.mem frame with
  | none => setNospare s
  | some (c, r) =>
    let w := s.mem.interWord frame pos
    { s with mem := { s.mem with
        inter := tput s.mem.inter (10 * frame + pos) { w with st := 2 }, spareUsed := s.mem.spareUsed ++ [(c, r)]
        rebuild := { s.mem.rebuild with work := some ⟨frame, pos, c, r, 0⟩ } } }

/-- The next line of the position is rebuilt, and the line progress passes it (step 3). -/
def advanceLine (s : State) (w : RebuildWork) : State :=
  let s := rebuildLine s w.pos (512 * w.frame + w.line)
  { s with mem := { s.mem with rebuild := { s.mem.rebuild with work := some { w with line := w.line + 1 } } } }

/-- The entry names the spare region once every line has been rebuilt (steps 4 and 5). -/
def endFrame (s : State) (w : RebuildWork) : State :=
  { s with mem := { s.mem with
    inter := tput s.mem.inter (10 * w.frame + w.pos) ⟨w.chan, w.region, 0⟩
    rebuild := { s.mem.rebuild with work := none, frames := s.mem.rebuild.frames + 1 } } }

/-- Up to `n` lines of the position that the engine moves are rebuilt, and then the entry names the spare region. -/
def rebuildLines : Nat → State → State
  | 0, s => s
  | n + 1, s =>
    match s.mem.rebuild.work with
    | none => s
    | some w => if w.line < 512 then rebuildLines n (advanceLine s w) else endFrame s w

/-- The engine goes on: it takes the next channel of its queue, begins with the next frame that the channel holds a position of, rebuilds
as many lines of it as the event says, or ends with the channel. -/
def execRebuildFrame (s : State) : Out :=
  let rb := s.mem.rebuild
  if rb.paused then .next s
  else
    match rb.active, rb.work with
    | none, _ =>
      (match rb.queue with
       | [] => .next s
       | c :: rest => .next (takeChannel s c rest))
    | some _, some _ => .next (rebuildLines s.input.value.toNat s)
    | some c, none =>
      match nextNamed s.mem c (interFrames - rb.nextFrame) rb.nextFrame with
      | none => .next (endChannel s c)
      | some (frame, pos) => .next (beginFrame s frame pos)

/-- RBLD: the operation of S[a] is checked first (R298). -/
def rbldOp (s : State) (a b : Opnd) (k : Issue → Nat → Nat → Out) : Out :=
  systemOp s a b (fun u _ sa sb =>
    if 4 < bits sa 0 4 then .next (raise s u (illegalTrap u (causeCode 298 1))) else k u sa sb)

/-- RATE takes a rate, or keeps with 0. -/
def setRate (s : State) (rate : Nat) : State :=
  if rate = 0 then s else { s with mem := { s.mem with rebuild := { s.mem.rebuild with rate := rate } } }

def setPaused (s : State) (p : Bool) : State := { s with mem := { s.mem with rebuild := { s.mem.rebuild with paused := p } } }

def execRbldChannel (a b : Opnd) (s : State) : Out :=
  rbldOp s a b (fun u sa sb =>
    let chan := bits sa 4 9
    if 383 < chan then .next (raise s u (illegalTrap u (causeCode 298 2)))
    else if 2 ^ 13 ≤ sa then .next (raise s u (illegalTrap u (causeCode 298 3)))
    else if 25 < sb then .next (raise s u (illegalTrap u (causeCode 298 4)))
    else .next (finish (setRate (declareDead s chan 2) sb) u))

def execRbldStack (s : State) : Out :=
  rbldOp s (systemFields s).1 (systemFields s).2 (fun u sa sb =>
    let stack := bits sa 4 4
    if 11 < stack then .next (raise s u (illegalTrap u (causeCode 298 2)))
    else if 256 ≤ sa then .next (raise s u (illegalTrap u (causeCode 298 3)))
    else if 25 < sb then .next (raise s u (illegalTrap u (causeCode 298 4)))
    else .next (finish (setRate ((List.range 32).foldl (fun s i => declareDead s (32 * stack + i) 2) s) sb) u))

def execRbldRate (s : State) : Out :=
  rbldOp s (systemFields s).1 (systemFields s).2 (fun u sa sb =>
    if 16 ≤ sa then .next (raise s u (illegalTrap u (causeCode 298 3)))
    else if sb = 0 || 25 < sb then .next (raise s u (illegalTrap u (causeCode 298 4)))
    else .next (finish (setRate s sb) u))

/-- RBLD operations 3 and 4. -/
def pauseOp (s : State) (p : Bool) : Out :=
  rbldOp s (systemFields s).1 (systemFields s).2 (fun u sa sb =>
    if 16 ≤ sa then .next (raise s u (illegalTrap u (causeCode 298 3)))
    else if sb != 0 then .next (raise s u (illegalTrap u (causeCode 298 4)))
    else .next (finish (setPaused s p) u))

def execRbldPause (s : State) : Out := pauseOp s true
def execRbldResume (s : State) : Out := pauseOp s false

/-! ### Rows -/

/-- The key of the counts of a row. -/
def placeKey (r : RowPlace) : Nat := r.chan * 2 ^ 32 + r.bank * 2 ^ 24 + r.row

/-- The counts of one row of a bank, by the key of its counts. -/
def setRow (s : State) (key : Nat) (f : Row → Row) : State :=
  { s with mem := { s.mem with rows := tset Row.reset s.mem.rows key (f (tget Row.reset s.mem.rows key)) } }

/-- A refresh opens a new window of activations for its row. -/
def execRefresh (s : State) : Out := .next (setRow s (placeKey s.input.row) (fun r => { r with acts := 0 }))

/-- A row that has reached 8,192 activations has the two rows on each side refreshed. -/
def execTargetedRefresh (s : State) : Out :=
  let key := placeKey s.input.row
  if (tget Row.reset s.mem.rows key).acts < 8192 then .next s
  else .next { s with mem := { s.mem with rows := refreshNear s.mem.rows key } }

/-- The regions of a channel that hold a part of a row. -/
def rowRegions (key : Nat) : List Nat :=
  let chan := key / 2 ^ 32
  (List.range spareHigh).filter (fun r => (List.range 512).any (fun l => Config.rowOf chan (512 * r + l) % 2 ^ 32 == key % 2 ^ 32))

/-- The symbols, by frame and position, that some regions of a channel hold, but one that the rebuild engine is moving away. -/
def symbolsIn (m : Mem) (chan : Nat) (regions : List Nat) : List (Nat × Nat) :=
  ((List.range (10 * interFrames)).map (fun x => (x / 10, x % 10))).filter (fun x =>
    (m.interWord x.1 x.2).chan == chan && regions.contains (m.interWord x.1 x.2).region && (m.interWord x.1 x.2).st != 2)

/-- A row is retired: into a spare row of its bank, or every region that holds it moves to a spare region. -/
def retireRow (s : State) (p : RowPlace) : State :=
  let c := s.mem.chan p.chan
  let s := { s with mem := { s.mem with chans := tset Chan.reset s.mem.chans p.chan { c with retired := min 255 (c.retired + 1) } } }
  let s := setRow s (placeKey p) (fun r => { r with corrected := 0, failed := 0, line := 0 })
  let s := recordEvent s { unit := unitChannel p.chan, cause := 0x03, sev := 1, addr := some (128 * p.line),
                           synd := p.bank % 256 + 256 * (p.row % 2 ^ 24) }
  if p.spare then s
  else (symbolsIn s.mem p.chan (rowRegions (placeKey p))).foldl (fun s x => moveSymbols s x.1 x.2) s

/-- Whether a row's corrected errors have reached THRESH, or its read has failed three times in a pass. -/
def rowDue (m : Mem) (r : Row) : Bool := decide (m.thresh ≤ r.corrected) || decide (3 ≤ r.failed)

/-- A row that is due is retired. -/
def execRowRetire (s : State) : Out :=
  if rowDue s.mem (tget Row.reset s.mem.rows (placeKey s.input.row)) then .next (retireRow s s.input.row) else .next s

/-- Every row that is due is retired, and every channel whose symbols have failed too often in this period is declared dead, at once (R295,
R302). Whether a row's bank has a spare row left is drawn. -/
def settleMemory (s : State) : State :=
  let s := (s.mem.rows.filter (fun r => rowDue s.mem r.2)).foldl (fun (s : State) (r : Nat × Row) =>
    retireRow { s with tick := s.tick + 1 } ⟨r.1 / 2 ^ 32, bits r.1 24 8, bits r.1 0 24, r.2.line, Config.freeBool s.tick⟩) s
  (s.mem.chans.filter (fun c => decide (64 < c.2.fails))).foldl (fun (s : State) (c : Nat × Chan) => declareDead s c.1 1) s

/-! ### SCRUB (R303) -/

/-- SCRUB: the fields that every mode shares. -/
def scrubOp (s : State) (a b : Opnd) (k : Issue → Launch → Nat → Out) : Out :=
  systemOp s a b (fun u l sa sb => if 4 ≤ sa then .next (raise s u (illegalTrap u (causeCode 303 1))) else k u l sb)

def execScrubPeriod (a b : Opnd) (s : State) : Out :=
  scrubOp s a b (fun u _ sb =>
    if sb = 0 || 168 < sb then .next (raise s u (illegalTrap u (causeCode 303 2)))
    else .next (finish { s with mem := { s.mem with period := sb } } u))

/-- Every line of the frame is scrubbed; a tier X frame has no symbols. -/
def scrubFrame (s : State) (base : Nat) : State :=
  if hostBase ≤ base then s else ((List.range 512).map (· + base / 128)).foldl scrubLine s

/-- SCRUB of a frame. DESIGN CHOICE, log entry 95: a dropped frame has no lines to scrub, and the word is done. -/
def execScrubFrame (s : State) : Out :=
  scrubOp s (systemFields s).1 (systemFields s).2 (fun u l sb =>
    let w := { whoLaunch (coreOfKey u.key) l with regen := [] }
    match resolveDpa s w false (sb / 65536 * 65536) with
    | .ok base => .next (finish (scrubFrame s base) u)
    | .error (.dropped ..) => .next (finish s u)
    | .error b => .next (takeOutcome s u.key u.f.lanes u.words.length (outcomeOf b sb .load 0) sb (lowest u.f.lanes) 0
        (lowest u.f.lanes) none))

/-- The row that mode 2 retires is the one that holds symbol 0 of its line: the manual names no position. -/
def execScrubRetire (s : State) : Out :=
  scrubOp s (systemFields s).1 (systemFields s).2 (fun u _ sb =>
    let line := sb / 128
    if 12582911 < line / 512 then .next (raise s u (illegalTrap u (causeCode 303 3)))
    else
      let w := s.mem.interWord (line / 512) 0
      let key := rowKey s.mem line 0
      let p : RowPlace := ⟨w.chan, bits key 24 8, bits key 0 24, line, Config.freeBool s.tick⟩
      .next (finish (retireRow { s with tick := s.tick + 1 } p) u))

def execScrubThresh (s : State) : Out :=
  scrubOp s (systemFields s).1 (systemFields s).2 (fun u _ sb =>
    if sb = 0 || 65535 < sb then .next (raise s u (illegalTrap u (causeCode 303 2)))
    else .next (finish { s with mem := { s.mem with thresh := sb } } u))

/-! ### Hot pages -/

/-- The tier X frames of a partition that are candidates, highest count first, lower DPA first on a tie (R307). -/
def hotCandidates (m : Mem) (part : Nat) : List Nat :=
  let h := hotOf m part
  let xs := (m.ind.filter (fun e => IndV e.2 && IndTierX e.2 && IndPart e.2 == part && !IndPin e.2 && !IndMoving e.2 &&
    !IndDropped e.2 && decide (h.promo ≤ tget 0 m.counts e.1))).map (·.1)
  (xs.mergeSort (fun a b => tget 0 m.counts b < tget 0 m.counts a ||
    (tget 0 m.counts a == tget 0 m.counts b && a ≤ b))).take h.maxmove

def setMoving (m : Mem) (f : Nat) (b : Bool) : Mem :=
  let e := m.entry f
  m.setEntry f (indEntry (IndV e) (IndTierX e) (IndRegen e) (IndDropped e) b (IndPin e) (IndPart e) (IndFrame e))

/-- A move is begun. -/
def startMove (m : Mem) (f : Nat) (tierX : Bool) (place : Nat) : Mem :=
  { setMoving m f true with moves := m.moves ++ [⟨f, tierX, place⟩] }

/-- Free MA frames that no move has taken. -/
def hotFree (m : Mem) (part : Nat) : Option Nat :=
  let h := hotOf m part
  h.range.find? (fun f => !maNamed m f && !m.moves.any (fun x => !x.tierX && x.place == f))

def hotFreeHost (m : Mem) (part : Nat) : Option Nat :=
  let h := hotOf m part
  ((List.range h.xcount).map (· + h.xframe)).find? (fun f => !hostNamed m f && !m.moves.any (fun x => x.tierX && x.place == f))

/-- What the tracker does for one candidate. -/
def chooseMove (m : Mem) (part f : Nat) : Mem :=
  match hotFree m part with
  | some x => startMove m f false x
  | none =>
    match victimFrames m part (tget 0 m.counts f) with
    | [] => m
    | v :: _ =>
      let e := m.entry v
      if IndRegen e then
        startMove (m.setEntry v (indEntry true false true true false (IndPin e) (IndPart e) (IndFrame e))) f false (IndFrame e)
      else
        match hotFreeHost m part with
        | none => m
        | some x => startMove (startMove m v true x) f false (IndFrame e)

/-- The tracker chooses the moves of a partition at the end of a period. -/
def trackerChoose (m : Mem) (part : Nat) : Mem :=
  if (hotOf m part).en then (hotCandidates m part).foldl (fun m f => chooseMove m part f) m else m

/-- A chosen move is made once its place is free and, out of tier X, every line of the frame is in the LLC (R308). The values are
those that the passes of the copy leave. -/
def execHotPageMove (s : State) : Out :=
  let f := s.input.key
  match s.mem.moves.find? (fun x => x.frame == f) with
  | none => .next s
  | some x =>
    let e := s.mem.entry f
    let taken := s.mem.ind.any (fun y => y.1 != f && IndV y.2 && IndTierX y.2 == x.tierX && IndFrame y.2 == x.place && !IndDropped y.2)
    let lines := if IndTierX e then ((List.range 512).map (· + entryAddr e 0 / 128)).filter (fun l => !s.mem.xlines.contains l) else []
    if taken then .next s
    else if !lines.isEmpty then .next (lines.foldl askLine s)
    else
      let s := moveFrame s f x.tierX x.place
      .next { s with mem := { s.mem with moves := s.mem.moves.filter (fun y => y.frame != f) } }

/-! ### Telemetry periods (R295, R302, R307, R378, R447) -/

/-- Clocks of a telemetry period (R295). -/
def periodClocks : Nat := 1050000

/-- Whether the present telemetry period has ended and its end has still to come about. -/
def periodDue (s : State) : Bool := decide (periodClocks * (s.mem.periods + 1) ≤ s.clock)

/-- What the end of a telemetry period does to device memory: moves are chosen from its counts, and counts start afresh, those of a row
with a new window of 24 h. DESIGN CHOICE, log entry 93: the windows follow each other from cold reset on. -/
def endPeriod (m : Mem) : Mem :=
  let m := (List.range 6).foldl trackerChoose m
  let m := { m with
    counts := [], periods := m.periods + 1
    chans := (m.chans.map (fun c => (c.1, { c.2 with fails := 0 }))).filter (fun c => c.2 != Chan.reset) }
  if periodClocks * m.periods / dayClocks != periodClocks * (m.periods - 1) / dayClocks then
    { m with rows := (m.rows.map (fun r => (r.1, { r.2 with corrected := 0 }))).filter (fun r => r.2 != Row.reset) }
  else m

/-- Whether the ends of several periods have nothing to choose and nothing to restart, so that only their count goes on. -/
def memQuiet (m : Mem) : Bool :=
  m.counts.isEmpty && m.chans.all (fun c => c.2.fails == 0) && m.rows.all (fun r => r.2.corrected == 0) && m.hot.all (fun h => !h.en)

/-- `n` periods end. -/
def endPeriods : Nat → Mem → Mem
  | 0, m => m
  | n + 1, m => endPeriods n (endPeriod m)

/-- The sensors and the corrected bits of each fibre as the end of a period reads them. -/
def readSensors (s : State) (watts temp : Nat) (corr : Nat → Nat) : State :=
  { s with
    fibres := (List.range 128).foldl (fun t n =>
      let f := tget Fibre.reset t n
      if corr n = 0 && f.corr = 0 then t else tset Fibre.reset t n { f with corr := BitVec.ofNat 16 (min 0xFFFF (corr n)) }) s.fibres
    power := { s.power with watts := watts % 65536, temp := temp % 256 } }

/-- Every period that has ended by now ends with readings that nothing constrains. -/
def endDuePeriods (s : State) : State :=
  let n := if s.power.failed then 0 else s.clock / periodClocks - s.mem.periods
  let free := fun (i : Nat) => Config.freeChoice (s.tick + i)
  let corr := fun (x : Nat × Fibre) => if n = 0 then x else (x.1, { x.2 with corr := BitVec.ofNat 16 (min 0xFFFF (free (2 + x.1))) })
  { s with
    tick := s.tick + 130
    mem := if memQuiet s.mem then { s.mem with periods := s.mem.periods + n } else endPeriods n s.mem
    fibres := s.fibres.map corr
    power := { s.power with
      watts := if n = 0 then s.power.watts else free 0 % 65536
      temp := if n = 0 then s.power.temp else free 1 % 256 } }

/-- The end of a period, with what the sensors read; before the period has ended nothing comes about. -/
def execTelemetryPeriodEnd (s : State) : Out :=
  if !periodDue s then .next s
  else
    let corr := fun (n : Nat) => ((s.input.pairs.find? (fun x => x.1 == n)).map (·.2)).getD 0
    let t := readSensors { s with mem := endPeriod s.mem } s.input.value.toNat s.input.value2.toNat corr
    .next t

end Sys2Proof.Machine
end

