-- ==== Sys2Proof/Machine/System.lean ====
section
/-!
DEFINITION. The system words of translation and of error banks: TLBINV and LPINV (R334 to R336), ITSET (R337), REGEN (R338), ERRD
and ERRCLR (R437).
-/
namespace Sys2Proof.Machine

open Sys2Proof

/-! ### TLBINV and LPINV -/

/-- A canonical VA (R320). -/
def canonicalVa (va : Nat) : Bool := va < 2 ^ 56

/-- An access through an aperture that used a covered translation has not been performed. -/
def coveredOpen (s : State) (cores covers : Nat → Bool) : Bool :=
  s.requests.any (fun r => match requestCtx s r with
    | none => false
    | some c => covers c && cores (requestCore s r))

/-- A covered transfer's engine writes are performed. -/
def settleCovered (s : State) (cores covers : Nat → Bool) : State :=
  let mine := fun (n : Nat) => match tfind s.transfers n with
    | none => false
    | some t => covers t.ctx && cores t.core
  applyPlaces s (fun p => mine p.transfer)

/-- The engine writes that the waits of the word's threads cover reach their global places, so that a walk, which is a load of a thread, finds
what they have written to a table (R341, R350). -/
def placeWaited (s : State) (u : Issue) : State :=
  applyPlaces s (fun p => (lanesOf u.f.lanes).any (fun l => (batchOf u.g l).covered.contains p.transfer))

/-- The invalidation completes once no covered access is open, and holds its fragment until then (R336). -/
def invalidateWord (s : State) (u : Issue) (cores covers : Nat → Bool) (page : Option Nat) : Out :=
  if coveredOpen s cores covers then .next (holdUnit s u .word)
  else .next (finish (invalidate (placeWaited (settleCovered s cores covers) u) cores covers page) u)

/-- The cores that a word acts on: every core, or those of the issuing gang (R335). -/
def invCores (s : State) (u : Issue) (all : Bool) (core : Nat) : Bool :=
  all || ((gangOf s u.g.gang).map (fun q => q.cores.contains core)).getD false

/-- MODE 0, and the fields of every word that names no mode. -/
def invPageOp (s : State) (a b : Opnd) (rule : Nat) (all : Bool) : Out :=
  systemOp s a b (fun u l sa sb =>
    let ctx := bits sa 8 8
    if sa % 256 != 0 || 2 ^ 16 ≤ sa || !canonicalVa sb then .next (raise s u (illegalTrap u (causeCode rule 0)))
    else if ctxPart s ctx != l.part then breach s u 9
    else invalidateWord s u (invCores s u all) (· == ctx) (some sb))

/-- MODE 1. -/
def invContextOp (s : State) (rule : Nat) (all : Bool) : Out :=
  systemRow s (fun _ u l sa sb =>
    let ctx := bits sa 8 8
    if sa % 256 != 1 || 2 ^ 16 ≤ sa || sb != 0 then .next (raise s u (illegalTrap u (causeCode rule 0)))
    else if ctxPart s ctx != l.part then breach s u 9
    else invalidateWord s u (invCores s u all) (· == ctx) none)

/-- MODE 2. -/
def invPartitionOp (s : State) (rule : Nat) (all : Bool) : Out :=
  systemRow s (fun _ u l sa sb =>
    if sa != 2 || sb != 0 then .next (raise s u (illegalTrap u (causeCode rule 0)))
    else invalidateWord s u (invCores s u all) (fun c => ctxPart s c == l.part) none)

def execTlbinvPage (a b : Opnd) (s : State) : Out := invPageOp s a b 334 true
def execTlbinvContext (s : State) : Out := invContextOp s 334 true
def execTlbinvPartition (s : State) : Out := invPartitionOp s 334 true
def execLpinvPage (a b : Opnd) (s : State) : Out := invPageOp s a b 334 false
def execLpinvContext (s : State) : Out := invContextOp s 334 false
def execLpinvPartition (s : State) : Out := invPartitionOp s 334 false

/-! ### ITSET -/

/-- Whether another valid tier H entry names an MA frame. -/
def namedElsewhere (m : Mem) (f frame : Nat) : Bool :=
  (frame != f && (tfind m.ind frame).isNone && IndV (bootEntry m.booted frame)) ||
  m.ind.any (fun e => e.1 != f && IndV e.2 && !IndTierX e.2 && IndFrame e.2 == frame)

/-- The place in R337's list of what is illegal in a new entry. -/
def itsetFault (m : Mem) (f : Nat) (e : Dword) : Option Nat :=
  let x := e.toNat
  if bits x 6 2 != 0 || bits x 11 1 != 0 || bits x 52 12 != 0 then some 1
  else if IndMoving e then some 2
  else if IndPart e == 6 then some 3
  else if !IndTierX e && decide (12582911 < IndFrame e) then some 4
  else if IndV e && !IndTierX e && namedElsewhere m f (IndFrame e) then some 5
  else none

/-- What the units of a frame have held at the place that it leaves, where an agent may still use an entry that stood there (R332). -/
def Mem.leavePlace (m : Mem) (f src dst : Nat) : Mem :=
  let within := fun (base a : Nat) => decide (base ≤ a) && decide (a < base + 65536)
  let old := m.past.filterMap (fun p => match p.loc with
    | .ma a => if within src a then some { p with loc := .dpa (65536 * f + (a - src)) } else none
    | _ => none)
  let units := (((m.cells.filter (fun c => within src c.1)).map (fun c => (c.1 - src) / 16)) ++
    ((m.cells.filter (fun c => within dst c.1)).map (fun c => (c.1 - dst) / 16))).eraseDups
  let now := units.map (fun x => (⟨.dpa (65536 * f + 16 * x), readBytes m.cells (src + 16 * x) 16, m.order, none, false, false⟩ : Past))
  { m with past := m.past ++ old ++ now, order := m.order + 1 }

/-- The old place of a frame is written back and leaves the LLC, and the entry is written. -/
def writeIndirection (s : State) (f : Nat) (e : Dword) : State :=
  let old := s.mem.entry f
  let moves := IndTierX old != IndTierX e || IndFrame old != IndFrame e
  let s := if moves && IndV old then
      let s := writebackPlace s (entryAddr old 0)
      { s with mem := s.mem.leavePlace f (entryAddr old 0) (entryAddr e 0) }
    else s
  { s with mem := { s.mem.setEntry f e with services := s.mem.services.filter (fun r => !(r.frame == f && r.failed)) } }

def execItset (a b : Opnd) (s : State) : Out :=
  systemOp s a b (fun u l sa sb =>
    let f := sa / 65536
    let e : Dword := BitVec.ofNat 64 sb
    let mine := fun (p : Nat) => p == l.part || p == 7
    if sa % 65536 != 0 || 2 ^ 41 ≤ sa then .next (raise s u (illegalTrap u (causeCode 337 0)))
    else match itsetFault s.mem f e with
      | some n => .next (raise s u (illegalTrap u (causeCode 337 n)))
      | none =>
        if !mine (IndPart (s.mem.entry f)) || !mine (IndPart e) then breach s u 9
        else if IndMoving (s.mem.entry f) then .next (holdUnit s u .word)
        else .next (finish (writeIndirection s f e) u))

/-! ### REGEN -/

/-- The REGEN bit of a frame's entry follows its regeneration entry. -/
def setRegen (s : State) (f : Nat) (r : Option (Nat × Nat)) : State :=
  let e := s.mem.entry f
  let m := s.mem.setEntry f
    (indEntry (IndV e) (IndTierX e) r.isSome (IndDropped e) (IndMoving e) (IndPin e) (IndPart e) (IndFrame e))
  { s with mem := { m with regen := match r with
      | none => tdel m.regen f
      | some x => tput m.regen f x } }

def execRegen (a b : Opnd) (s : State) : Out :=
  systemOp s a b (fun u l sa sb =>
    let f := sa / 65536
    if sa % 65536 != 0 || 2 ^ 41 ≤ sa || sb % 256 != 0 || !canonicalVa sb then .next (raise s u (illegalTrap u (causeCode 338 0)))
    else if IndPart (s.mem.entry f) != l.part then breach s u 9
    else if IndMoving (s.mem.entry f) then .next (holdUnit s u .word)
    else .next (finish (setRegen s f (if sb = 0 then none else some (sb, l.ctx))) u))

/-! ### Error banks (R437) -/

def bank (s : State) (unit : Nat) : Bank := tget 0 s.banks unit

/-- The partition of a physical core: of the half-die of its grid place, or of the core that the spare carries. -/
def unitPart (s : State) (unit : Nat) : Nat :=
  let die := unit / 17
  let p := unit % 17
  match s.dies[die]? with
  | none => 7
  | some d =>
    let index := if p = 16 then (if d.spused then some d.spfor else none) else some p
    match index with
    | none => 7
    | some i => if i < 8 then d.partlo else d.parthi

/-- Whether a unit is a core whose bank a partition may read and clear. -/
def ownCore (s : State) (unit part : Nat) : Bool := decide (unit < 51) && unitPart s unit == part

/-- A 64-bit word of a bank. -/
def bankWord (b : Bank) (w : Nat) : Nat := bits b.toNat (64 * w) 64

/-- The bank is cleared when its bits 63:0 still read as expected; SEQ stays. -/
def clearBank (s : State) (unit expected : Nat) : State × Bool :=
  let b := bank s unit
  if bankWord b 0 = expected then
    ({ s with banks := tset 0 s.banks unit (BitVec.ofNat 256 (2 ^ 48 * bankSeq b)) }, true)
  else (s, false)

def execErrd (a b : Opnd) (s : State) : Out :=
  systemOp s a b (fun u l sa _ =>
    let unit := bits sa 0 16
    if !unitExists unit then .next (raise s u (illegalTrap u (causeCode 437 2)))
    else if 2 ^ 18 ≤ sa then .next (raise s u (illegalTrap u (causeCode 437 3)))
    else if decide (unit < 4096) && !ownCore s unit l.part then breach s u 9
    else finishScalar s u b (bankWord (bank s unit) (bits sa 16 2)))

def execErrclr (a b : Opnd) (s : State) : Out :=
  systemOp s a b (fun u l sa sb =>
    let unit := bits sa 0 16
    if !unitExists unit then .next (raise s u (illegalTrap u (causeCode 437 2)))
    else if 2 ^ 16 ≤ sa then .next (raise s u (illegalTrap u (causeCode 437 4)))
    else if !ownCore s unit l.part then breach s u 9
    else
      let r := clearBank s unit sb
      finishScalar r.1 u b (if r.2 then 0 else 1))

end Sys2Proof.Machine
end

