-- ==== Sys2Proof/Machine/HostPort.lean ====
section
/-!
DEFINITION. What a host function reaches of the device control space (R403, R404), and the order in which an agent's free
values are drawn for records to which the manual gives no syndrome.
-/
namespace Sys2Proof.Machine

open Sys2Proof

/-- What happens to a host function's access to the control space. -/
inductive Reach where
  | allowed
  /-- Unsupported Request, with no freeze: the function is frozen, is bound to no partition, or is none of the device's. -/
  | unsupported
  /-- Unsupported Request, and the function freezes; one that is frozen already has only its record added. -/
  | violation
deriving DecidableEq, Repr, Inhabited

/-- The reach of a function to a register of a partition, or, for `none`, to one that is writable only through PF0. -/
def reach (s : State) (fn : Nat) (part : Option Nat) : Reach :=
  match s.funcs[fn]? with
  | none => .unsupported
  | some f =>
    let within : Reach := if f.frozen then .unsupported else .allowed
    if fn = 0 then within
    else if f.part = 7 then .unsupported
    else if part == some f.part then within
    else .violation

/-- A host function's access at an offset: it acts, or ends in Unsupported Request. -/
def hostAct (s : State) (offset : Nat) (part : Option Nat) (k : State → Out) : Out :=
  let fn := s.input.fn
  let refuse := fun (s : State) => { s with sent := s.sent ++ [.unsupported fn offset] }
  match reach s fn part with
  | .allowed => k s
  | .unsupported => .next (refuse s)
  | .violation => .next (refuse (freezeFn s fn 9))

/-! ### Latches (R492) -/

def latchOf (s : State) (fn key : Nat) : List (Nat × Byte) := ((s.funcs[fn]?).map (fun f => tget [] f.latch key)).getD []

def setLatch (s : State) (fn key : Nat) (xs : List (Nat × Byte)) : State :=
  match s.funcs[fn]? with
  | none => s
  | some f => { s with funcs := s.funcs.set fn { f with latch := tset [] f.latch key xs } }

/-- A host function's access to a register of 128 bits that acts: what its latch held is used up. -/
def latchedAct (s : State) (key : Nat) (part : Option Nat) (k : State → Out) : Out :=
  hostAct s key part (fun s => k (setLatch s s.input.fn key []))

/-- A SHAKE256 digest of 512 bits, and an Ed448 signature, as the images hold them. -/
def digest64 (bs : List Byte) : List Byte := (Config.digest bs ++ List.replicate 64 0).take 64
def signature114 (bs : List Byte) : List Byte := (Config.signature bs ++ List.replicate 114 0).take 114

/-- A syndrome that the manual does not give. -/
def freeSynd (s : State) : State × Nat := ({ s with tick := s.tick + 1 }, Config.freeChoice s.tick)

/-- A queue freezes for a cause to which the manual gives no syndrome. -/
def freezeQueueFree (s : State) (q : Nat) : State :=
  let r := freeSynd s
  freezeQueue r.1 q r.2

/-- What an access of the packet processor does when it does not go through: it is tried again, or fails with a cause of R327
where one is named. -/
inductive Missed where
  | wait
  | fault (cause : Nat)
  | poison
deriving DecidableEq, Repr, Inhabited

/-- The outcome of a failed check of an access that the packet processor makes; one that R327 makes a freeze freezes the context. -/
def missed (s : State) (w : Who) (b : XBad) (va : Nat) : State × Missed :=
  match engineStop s w b va with
  | (s, .freeze n) => (freezeCtx s w.ctx n none, .fault n)
  | (s, .fault _ n) | (s, .backing _ n) => (s, .fault n)
  | (s, .consume _) | (s, .window ..) => (s, .poison)
  | (s, .wait) | (s, .noFrame _) => (s, .wait)

end Sys2Proof.Machine
end

