-- ==== Sys2Proof/Machine/Power.lean ====
section
/-!
DEFINITION. Power: the three sources of the step (R16, R444), PWRSTAT (R447), PSET (R449), and the drain at a power failure
(R450, R451).
-/
namespace Sys2Proof.Machine

open Sys2Proof

/-! ### The step in force -/

/-- The highest of the three requests. -/
def stepAsked (p : Power) : Nat := max p.pinreq (max p.pktreq p.portreq)

/-- A source replaces its request; a transition is under way until the step in force is the highest of the three. -/
def askStep (s : State) (p : Power) : State := { s with power := { p with moving := p.step != stepAsked p } }

/-- Whether the step in force has settled. -/
def stepSettled (s : State) : Bool := s.power.step == stepAsked s.power


/-- PWRSTAT. -/
def pwrstat (s : State) : Nat :=
  let p := s.power
  p.step % 16 + 2 ^ 4 * (p.pinreq % 16) + 2 ^ 8 * (p.pktreq % 16) + 2 ^ 12 * (p.portreq % 16) + 2 ^ 16 * p.moving.toNat +
    2 ^ 32 * (p.watts % 65536) + 2 ^ 48 * (p.temp % 256)

/-- Power-step packets, whose requests their fetch has recorded, come to their end. -/
def settlePackets (s : State) : State :=
  { s with packets := s.packets.map (fun p =>
      (p.1, if field p.2.bytes 0 1 == 4 && p.2.status.isNone then { p.2 with status := some 2 } else p.2)) }

/-- A fragment that PSET holds goes on past its unit. -/
def Frag.afterPset (f : Frag) (clock : Nat) : Frag :=
  match f.hold with
  | .power _ words => f.past words clock
  | _ => f

/-- A fragment's scalar that PSET writes. -/
def givePset (v : Dword) (g : Group) (f : Frag) : Group :=
  match f.hold with
  | .power d _ => let x := setSreg g d v; if sreg g d == v then x else breakSpin x (lowest f.lanes)
  | _ => g

/-- Words of PSET that hold their fragments end, in whatever quarter, also those that a handler has set aside. -/
def settlePsets (s : State) : State :=
  let v := BitVec.ofNat 64 (pwrstat s)
  let on := fun (f : Frag) => f.afterPset s.clock
  { s with
    groups := s.groups.map (fun x =>
      let g := (x.2.frags ++ fragsAside s x.2.gang x.1).foldl (givePset v) x.2
      (x.1, { g with frags := g.frags.map on }))
    gangs := s.gangs.map (fun x => (x.1, { x.2 with mode := x.2.mode.map (fun t => { t with saved := t.saved.map on }) })) }

/-- What waits for the first moment at which the step in force is the highest of the three requests ends there (R444). -/
def settlePower (s : State) : State := if stepSettled s then settlePsets (settlePackets s) else s

/-- The packet source holds the STEP of the packet fetched last, or of PSET's latest request. -/
def askPacketStep (s : State) (step : Nat) : State := settlePower (askStep s { s.power with pktreq := step % 16 })

/-- STROBE samples STEP[3:0]. -/
def execPowerStepPins (s : State) : Out :=
  .next (settlePower (askStep s { s.power with pinreq := s.input.value.toNat % 16 }))

/-- The governor reaches the step that is asked for. -/
def execPowerStepSettle (s : State) : Out :=
  .next (settlePower { s with power := { s.power with step := stepAsked s.power, moving := false } })

/-- PSET: a request is recorded when the word issues, and the word holds until the step settles. -/
def psetOp (s : State) (a b : Opnd) : Out :=
  systemOp s a b (fun u _ sa _ =>
    if 32 ≤ sa then .next (raise s u (illegalTrap u (causeCode 449 2)))
    else if !bit sa 4 then
      (if sa != 0 then .next (raise s u (illegalTrap u (causeCode 449 3))) else finishScalar s u b (pwrstat s))
    else
      let s := askPacketStep s sa
      if stepSettled s then finishScalar s u b (pwrstat s) else .next (holdUnit s u (.power (scalarNo b) u.words.length)))

def execPsetReq (a b : Opnd) (s : State) : Out := psetOp s a b

/-- PSET with REQ = 0. -/
def execPset (s : State) : Out := psetOp s (systemFields s).1 (systemFields s).2

/-! ### The drain image (R451) -/

/-- Whether a drain area holds a valid image, and its GEN. -/
def drainValid (area : List Byte) : Bool :=
  decide (128 ≤ area.length) && area.drop (area.length - 64) == digest64 (area.take (area.length - 64)) &&
  field area 0 4 == 0x4E494144

def drainGen (area : List Byte) : Nat := field area 4 4

/-- The area that holds the valid image with the greater GEN: A, B or neither. -/
def newerArea (f : Flash) : Option Bool :=
  match drainValid f.areaA, drainValid f.areaB with
  | true, true => some (decide (drainGen f.areaB ≤ drainGen f.areaA))
  | true, false => some true
  | false, true => some false
  | false, false => none

/-- CKSTAT of a partition (R455), 16 bytes. -/
def ckstat (c : Checkpoint) : Nat :=
  c.state % 4 + 4 * (c.slot % 2) + 2 ^ 8 * (c.units % 2 ^ 40) + 2 ^ 64 * (c.ckid % 2 ^ 64)

def checkpointOf (s : State) (part : Nat) : Checkpoint := tget Checkpoint.reset s.checkpoints part

/-- Sixteen bytes of a queue. -/
def drainQueueEntry (q : Nat) (x : Queue) : List Byte :=
  leBytes 2 q ++ leBytes 1 x.state ++ leBytes 1 0 ++ leBytes 4 x.head.toNat ++ leBytes 4 x.tail.toNat ++ leBytes 1 x.ctx.toNat ++
    leBytes 3 0

/-- The last 256 places of a partition's journal, oldest first; a place that no entry has taken reads zero. -/
def drainJournal (j : Journal) : List Byte :=
  (List.range 256).flatMap (fun i =>
    (tfind j.entries ((j.nextSeq + 32768 - 1 - 256 + i) % 32768)).getD (List.replicate 32 0))

/-- The units that have a bank, in ascending number. -/
def bankUnits : List Nat := (List.range 0x6001).filter unitExists

/-- The drain image of the package at the PWRFAIL edge. -/
def drainImage (s : State) (gen : Nat) : List Byte :=
  let queues := s.queues.filter (fun q => q.2.state != 0)
  let records := (s.launches.filter (·.2.admitted)).map (fun l => l.2.record)
  let saved := records.drop (records.length - 1024)
  let trunc := if 1024 < records.length then 2 ^ 31 else 0
  let body := leBytes 4 0x4E494144 ++ leBytes 4 gen ++ leBytes 8 s.clock ++ leBytes 4 queues.length ++
    leBytes 4 (saved.length + trunc) ++ leBytes 40 0 ++ queues.flatMap (fun q => drainQueueEntry q.1 q.2) ++
    (List.range 6).flatMap (fun p => drainJournal (journalOf s p)) ++ saved.flatten ++
    (List.range 6).flatMap (fun p => leBytes 16 (ckstat (checkpointOf s p))) ++
    bankUnits.flatMap (fun u => leBytes 32 (bank s u).toNat)
  body ++ digest64 body

/-- Power with no step in force, none asked for and none under way (R17). -/
def Power.noStep (p : Power) : Power := { p with step := 0, pinreq := 0, pktreq := 0, portreq := 0, moving := false }

/-- The sector from which a firmware update goes on after its last committed one (R17). -/
def Flash.resumeSector (f : Flash) : Nat := f.committed

/-- A falling edge on PWRFAIL: everything stops as at a kill, a checkpoint that runs ends in error, a power step and a write of board
flash end (R17), and the image goes to the area that does not hold the newer valid one; where the supply gives out first, only so many of
its bytes as the event says, and so no digest. A rising edge changes nothing: the device waits for a cold reset. -/
def execPowerFail (s : State) : Out :=
  if !s.input.ok || s.power.failed then .next s
  else
    let s := { s with
      checkpoints := s.checkpoints.map (fun c => (c.1, if c.2.state = 1 || c.2.state = 2 then { c.2 with state := 3 } else c.2)) }
    let gen := (s.flash.gen + 1) % 2 ^ 32
    let whole := drainImage s gen
    let image := if s.input.sub = 1 then whole.take (min s.input.key (whole.length - 1)) else whole
    let flash := match newerArea s.flash with
      | some true => { s.flash with areaB := image, gen := gen, writing := none }
      | _ => { s.flash with areaA := image, gen := gen, writing := none }
    .next { s with power := { s.power.noStep with failed := true }, flash := flash }

end Sys2Proof.Machine
end

