-- ==== Sys2Proof/Machine/Queue.lean ====
section
/-!
DEFINITION. Queues: their creation and destruction (R379, R380, R398, R399), doorbells (R381), the fetch and checks of packets
(R379, R383, R400), and what each packet does (R383).
-/
namespace Sys2Proof.Machine

open Sys2Proof

/-! ### Creation (R379, R380, R398) -/

/-- VALID of a context's record (R322). -/
def ctxValid (s : State) (ctx : Nat) : Bool := bit (field (peekDpa s (ctxRecord s ctx + 0x11) 1) 0 1) 0

/-- LOG2N and WEIGHT as a write stores them. -/
def storedLog (n : Nat) : Nat := if 4 ≤ n && n ≤ 16 then n else 4
def storedWeight (n : Nat) : Nat := if n = 0 then 1 else min n 16

/-- The fields of a QCFG image on an off queue. -/
def queueImage (x : Queue) (image : Nat) : Queue :=
  { x with ctx := BitVec.ofNat 8 (bits image 8 8), log2n := storedLog (bits image 16 5), weight := storedWeight (bits image 24 5),
           privok := bit image 29, rbase := BitVec.ofNat 56 (bits image 64 56) }

/-- The byte of QCFG for which CMD 1 is rejected on an off queue. -/
def createFault (s : State) (x : Queue) : Option Nat :=
  if !ctxValid s x.ctx.toNat then some 1
  else if x.rbase.toNat % 256 != 0 then some 8
  else none

/-- The rejection of CMD 1 in the host port's bank: the manual gives it neither cause nor severity. -/
def recordRejection (s : State) : State :=
  let draw := fun (i : Nat) => Config.freeChoice (s.tick + i)
  recordEvent { s with tick := s.tick + 4 }
    { unit := unitHostPort, cause := draw 0 % 256, sev := 1 + draw 1 % 3,
      addr := if Config.freeBool (s.tick + 2) then some (draw 2) else none, synd := draw 3 }

/-- CMD 1: an off queue runs, or stays off with its rejection recorded. -/
def createQueue (s : State) (q : Nat) : State × Option Nat :=
  let x := queueOf s q
  if x.state != 0 then (s, none)
  else
    match createFault s x with
    | some n => (recordRejection s, some n)
    | none => (setQueue s q { x with state := 1, head := 0, tail := 0, kill := false }, none)

/-! ### Destruction (R399) -/

/-- The packets of a queue that have been fetched and not completed. -/
def packetsOf (s : State) (q : Nat) : List (Nat × Packet) := s.packets.filter (fun p => p.2.queue == q)

/-- A queue that is being destroyed is off once its last packet has completed. -/
def settleQueue (s : State) (q : Nat) : State :=
  let x := queueOf s q
  if x.state = 3 && (packetsOf s q).isEmpty then setQueue s q { x with state := 0 } else s

/-- Every gang of a launch is killed with no relaunch, and its unplaced and saved gangs are dropped. -/
def killLaunch (s : State) (uid : Nat) : State :=
  let s := (s.gangs.filter (fun q => q.2.launch == uid)).foldl (fun s q => (killGang s q.1 false).1) s
  match launchOf s uid with
  | none => s
  | some l =>
    setLaunch { s with kept := s.kept.filter (fun k => k.launch != uid) } uid
      { l with unplaced := [], saved := [], urgent := [], blocking := [], destroyed := true }

/-- CMD 2 and 3: packets that have not started are abandoned, a dependency wait in progress completes with status 5, and with
`kill` the queue's unfinished launches are killed. -/
def destroyQueue (s : State) (q : Nat) (kill : Bool) : State :=
  let x := queueOf s q
  if x.state != 1 && x.state != 2 then s
  else
    let s := refuseRegens (setQueue s q { x with state := 3, kill := kill }) q (fun _ => true)
    let idle := (packetsOf s q).filter (fun p => !p.2.started)
    let s := idle.foldl (fun s p => journalStatus s p.2.part p.2.seq 5) s
    let s := { s with packets := (s.packets.filter (fun p => p.2.queue != q || p.2.started)).map (fun p =>
      (p.1, if p.2.queue = q && field p.2.bytes 0 1 == 3 && p.2.status.isNone && field p.2.bytes 0x20 1 < 2
            then { p.2 with status := some 5 } else p.2)) }
    let s := if kill then (s.launches.filter (fun l => l.2.queue == q)).foldl (fun s l => killLaunch s l.1) s else s
    settleQueue s q

/-! ### QCTL (R398) -/

/-- QCTL: the fields of S[a], and whose queue it names. -/
def qctlOp (s : State) (a b : Opnd) (k : Issue → Launch → Nat → Nat → Out) : Out :=
  systemOp s a b (fun u l sa sb =>
    let q := bits sa 0 16
    if 2 ^ 18 ≤ sa then .next (raise s u (illegalTrap u (causeCode 398 0)))
    else if queueOwner s l.ctx l.part q = .foreign then breach s u 9
    else k u l q sb)

/-- QCTL with command 1, or with none, which has no effect. -/
def execQctlCreate (a b : Opnd) (s : State) : Out :=
  qctlOp s a b (fun u l q sb =>
    if !bit (scalarOf u a) 16 then .next (finish s u)
    else
      wordDescriptor s u sb 16 (fun s image =>
        if field image 1 1 != l.ctx then .next (raise s u (illegalTrap u (causeCode 398 0)))
        else
          let x := queueOf s q
          match createQueue (if x.state = 0 then setQueue s q (queueImage x (leNat image)) else s) q with
          | (s, none) => .next (finish s u)
          -- A refused create is a breach, and the word leaves QCFG as it was (R404).
          | (_, some n) => breach (recordRejection s) u (256 + n)))

/-- QCTL with command 2 or 3. -/
def qctlDestroyOp (s : State) (kill : Bool) : Out :=
  qctlOp s (systemFields s).1 (systemFields s).2 (fun u _ q sb =>
    if sb != 0 then .next (raise s u (illegalTrap u (causeCode 398 0)))
    else .next (finish (destroyQueue s q kill) u))

def execQctlDestroy (s : State) : Out := qctlDestroyOp s false
def execQctlDestroyKill (s : State) : Out := qctlDestroyOp s true

/-! ### Host access (R379, R381, R403) -/

/-- A host access to a queue's registers: to its context's partition. -/
def queueAct (s : State) (offset : Nat) (k : State → Nat → Out) : Out :=
  let q := s.input.key
  if 65536 ≤ q then .next s
  else hostAct s offset (some (ctxPart s (queueOf s q).ctx.toNat)) (fun s => k s q)

def execQcfgCreate (s : State) : Out :=
  queueAct s (0x500000 + 16 * s.input.key) (fun s q => .next (createQueue s q).1)

def execQcfgDestroy (s : State) : Out :=
  queueAct s (0x500000 + 16 * s.input.key) (fun s q => .next (destroyQueue s q false))

def execQcfgDestroyKill (s : State) : Out :=
  queueAct s (0x500000 + 16 * s.input.key) (fun s q => .next (destroyQueue s q true))

/-- TAIL is further ahead than the ring is long. -/
def overrun (x : Queue) : Bool := 2 ^ x.log2n < (x.tail - x.head).toNat

def execDoorbell (s : State) : Out :=
  queueAct s (0x600000 + 8 * s.input.key) (fun s q =>
    let x := queueOf s q
    if x.state != 1 then .next s
    else
      let y := { x with tail := s.input.value.setWidth 32 }
      let s := setQueue s q y
      .next (if overrun y then freezeQueueFree s q else s))

/-! ### The checks of a packet (R383, R384, R444, R452) -/

/-- The first byte of a run that is not zero. -/
def firstNonzero (bs : List Byte) (lo hi : Nat) : Option Nat := ((List.range (hi - lo)).map (· + lo)).find? (fun i => field bs i 1 != 0)

/-- The byte of a copy packet's body that fails: the body is a copy node's, with SSP, DSP and GATHER 0. -/
def copyPacketBad (bs : List Byte) : Option Nat :=
  let cw := field bs 0x20 4
  let far := fun (o : Nat) => field bs o 4 % 16 != 0
  if bits cw 20 2 != 0 || bits cw 22 2 != 0 then some 0x22
  else if bits cw 24 8 != 0 then some 0x23
  else if 65535 < field bs 0x24 4 then some 0x26
  else if far 0x10 then some 0x10
  else if far 0x18 then some 0x18
  else if far 0x28 then some 0x28
  else if far 0x2C then some 0x2C
  else firstNonzero bs 0x30 0x40

/-- The byte of a checkpoint body that breaks its limits (R452). -/
def checkpointBad (bs : List Byte) : Option Nat :=
  if field bs 0x10 8 % 64 != 0 then some 0x10
  else if field bs 0x18 4 = 0 || 1024 < field bs 0x18 4 then some 0x18
  else if 1 < field bs 0x1C 1 then some 0x1C
  else if field bs 0x1D 1 != 0 then some 0x1D
  else if field bs 0x1E 2 = 0 || 256 < field bs 0x1E 2 then some 0x1E
  else if field bs 0x20 8 % 4096 != 0 then some 0x20
  else if field bs 0x28 8 % 4096 != 0 then some 0x28
  else if field bs 0x30 8 % 4096 != 0 then some 0x30
  else none

/-- The byte for which a packet is malformed; a launch's record is checked for itself. -/
def packetBad (bs : List Byte) (privok : Bool) : Option Nat :=
  let size := field bs 2 2
  if field bs 0 1 = 0 || 6 < field bs 0 1 then some 0
  else if 4 ≤ field bs 1 1 then some 1
  else if size < 16 || 256 < size || size % 16 != 0 then some 2
  else if field bs 4 4 != 0 then firstNonzero bs 4 8
  else if field bs 8 8 % 8 != 0 then some 8
  else
    match field bs 0 1 with
    | 1 => if size != 256 then some 2 else none
    | 2 => if size < 64 then some 2 else copyPacketBad bs
    | 3 =>
      if size < 48 then some 2
      else if field bs 0x10 8 % 8 != 0 then some 0x10
      else if 3 < field bs 0x20 1 then some 0x20
      else firstNonzero bs 0x21 size
    | 4 =>
      if !privok then some 0
      else if size < 32 then some 2
      else if 15 < field bs 0x10 1 then some 0x10
      else firstNonzero bs 0x11 size
    | 5 => if size != 64 then some 2 else checkpointBad bs
    | _ => if size != 16 then some 2 else none

/-! ### The fetch (R379, R381, R400, R402) -/

/-- HEAD passes a packet. -/
def passHead (s : State) (q : Nat) : State := let x := queueOf s q; setQueue s q { x with head := x.head + 1 }

/-- A fetched packet is journalled and kept, refused with status 1, or found malformed. -/
def takePacket (s : State) (q : Nat) (bs : List Byte) : State :=
  let x := queueOf s q
  let ctx := x.ctx.toNat
  let part := ctxPart s ctx
  match packetBad bs x.privok with
  | some n => freezeQueue (refuseRegens s q (· == x.head)) q (256 + n)
  | none =>
    let typ := field bs 0 1
    let refuse := fun (s : State) (synd : Nat) =>
      freezeQueue (passHead (journalAdd (refuseRegens s q (· == x.head)) part q ctx x.head.toNat typ 1).1 q) q synd
    let refused := if typ = 1 then launchRefused s bs ctx part else none
    match refused with
    | some r => let y := refusedSynd s r; refuse y.1 y.2
    | none =>
      if typ = 1 && bit (field bs flagsOffset 1) 2 && !x.privok then refuse s (256 + flagsOffset)
      else
        let j := journalAdd s part q ctx x.head.toNat typ 0
        let s := passHead j.1 q
        let p : Packet := ⟨q, x.head, part, j.2, bs, false, none, none, false⟩
        let s : State := { s with packets := tput s.packets s.nextUid p, nextUid := s.nextUid + 1 }
        if typ = 4 then askPacketStep s (field bs 0x10 1) else s

/-- Whether a queue may fetch its packet HEAD. -/
def mayFetch (s : State) (q : Nat) : Bool :=
  let x := queueOf s q
  x.state == 1 && x.head != x.tail && !(ctxOf s x.ctx.toNat).frozen

def execPacketFetch (s : State) : Out :=
  let q := s.input.key
  let x := queueOf s q
  if !mayFetch s q then .next s
  else if overrun x then .next (freezeQueueFree s q)
  else
    let w := whoCtx s x.ctx.toNat false
    let va := x.rbase.toNat + 256 * (x.head.toNat % 2 ^ x.log2n)
    match loadMany s w va 256 with
    | (s, .ok bs) => .next (takePacket s q bs)
    | (s, .error (b, a)) =>
      match missed s w b a with
      | (s, .wait) => .next s
      | (s, .fault n) => .next (freezeQueue s q n)
      | (s, .poison) => .next (freezeQueueFree s q)

/-! ### Starting packets (R383, R453) -/

def packetType (p : Packet) : Nat := field p.bytes 0 1

/-- Whether a packet may start: in HEAD order, behind a dependency or checkpoint packet only once that has completed, and, with
BARRIER or as such a packet itself, once every earlier packet has. A freeze of the queue stops its fetching alone (R404). -/
def canStart (s : State) (id : Nat) (p : Packet) : Bool :=
  let x := queueOf s p.queue
  let earlier := (packetsOf s p.queue).filter (fun y => y.1 < id)
  let alone := bit (field p.bytes 1 1) 0 || packetType p == 3 || packetType p == 5
  !p.started && !p.stopped && (x.state == 1 || x.state == 2) && earlier.all (fun y => y.2.started) &&
  earlier.all (fun y => packetType y.2 != 3 && packetType y.2 != 5) && (!alone || earlier.isEmpty)

def modPacket (s : State) (id : Nat) (f : Packet → Packet) : State := { s with packets := tmod s.packets id f }

/-- A packet of the type that the input names starts, if it may. -/
def startPacket (s : State) (typ : Nat) (k : Nat → Packet → State → Out) : Out :=
  match tfind s.packets s.input.key with
  | none => .next s
  | some p =>
    if packetType p != typ || !canStart s s.input.key p then .next s
    else k s.input.key p s

/-- A packet that has started. -/
def Packet.begun (p : Packet) (work : Option Nat) (status : Option Nat) : Packet :=
  { p with started := true, work := work, status := status }

/-- The context of a packet's queue. -/
def packetCtx (s : State) (p : Packet) : Nat := (queueOf s p.queue).ctx.toNat

def execLaunchPacket (s : State) : Out :=
  startPacket s 1 (fun id p s =>
    let r := addLaunch s p.bytes (packetCtx s p) p.part p.seq p.queue id
    .next (modPacket r.1 id (fun p => p.begun (some r.2) none)))

/-- The copy-node record that a copy packet's body stands in. -/
def packetCopy (bs : List Byte) : CopyOps := nodeCopy (leBytes 1 1 ++ leBytes 15 0 ++ (bs.drop 0x10).take 48)

/-- The copy of a packet enters the copy queue of the core that the input names. -/
def execCopyPacket (s : State) : Out :=
  startPacket s 2 (fun id p s =>
    let core := s.input.sub
    if !coreLive s core || corePart s core != p.part || 128 ≤ copyEntries s core then .next s
    else
      let o := packetCopy p.bytes
      let r := enterTransfer s
        { number := 0, kind := 2, core := core, group := none, gang := 0, ctx := packetCtx s p, lanes := 0, lane := 0, op := none, counter := none,
          node := none, packet := some id, operands := o.list, engine := none, progress := 0, read := [], halted := false,
          freezes := false, err := false, complete := none, anchor := sincePlace s.mem.order }
      let s := modPacket r.1 id (fun p => p.begun (some r.2) none)
      .next (if o.total = 0 then completeTransfer s r.2 false else s))

def execMarkerPacket (s : State) : Out := startPacket s 6 (fun id _ s => .next (modPacket s id (fun p => p.begun none (some 2))))

/-- A power-step packet starts. Its request stands since its fetch, and its end may have come meanwhile (R444). -/
def execPowerStepPacket (s : State) : Out :=
  startPacket s 4 (fun id p s => .next (modPacket s id (fun q => q.begun none p.status)))

/-! ### Dependency packets -/

/-- A dependency packet of an operation. -/
def dependency (s : State) (op : Nat) (k : Nat → Packet → State → Out) : Out :=
  startPacket s 3 (fun id p s => if field p.bytes 0x20 1 = op then k id p s else .next s)

/-- A packet stops at a fault of its own, to be tried again once its queue is released. -/
def stopPacket (s : State) (id : Nat) : State := modPacket s id (fun p => { p with stopped := true })

/-- What a failed access of a packet does: a fault freezes its queue, and the packet stays to be tried again (R404). -/
def packetMissed (s : State) (w : Who) (id q : Nat) (b : XBad) (va : Nat) : Out :=
  match missed s w b va with
  | (s, .wait) => .next s
  | (s, .fault n) => .next (freezeQueue (stopPacket s id) q n)
  | (s, .poison) => .next (freezeQueueFree (stopPacket s id) q)

def execDependencyWaitGe (s : State) : Out := dependency s 0 (fun id _ s => .next (modPacket s id (fun p => p.begun none none)))
def execDependencyWaitEq (s : State) : Out := dependency s 1 (fun id _ s => .next (modPacket s id (fun p => p.begun none none)))

/-- A request of a packet goes out through an aperture: the packet has started, and completes with its reply. -/
def packetRequest (s : State) (id : Nat) (r : Request) : State :=
  sendRequest (modPacket s id (fun p => p.begun none none)) { r with reg := 1, word := id } 0 0

def execDependencyAtomicAdd (s : State) : Out :=
  dependency s 2 (fun id p s =>
    let w := whoCtx s (packetCtx s p) false
    let va := field p.bytes 0x10 8
    let value := field p.bytes 0x18 8
    match translate s w .atomic false va with
    | (s, .error b) => packetMissed s w id p.queue b va
    | (s, .ok (_, .dev dpa ma)) =>
      let s := noteReads (fetchLines (noteFrame s w.part dpa true) 3 ma 8) 48 ma 8
      if s.mem.marked ma 8 then packetMissed s w id p.queue (.poison va) va
      else
        let s := storeLocal s 3 ma (leBytes 8 (atomNew 0 1 (leNat (s.mem.bytesAt ma 8)) value 0))
        .next (modPacket s id (fun p => p.begun none (some 2)))
    | (s, .ok (_, .peer dev dpa)) => .next (packetRequest s id { plainRequest 6 (some dev) dpa 8 (leBytes 8 value) with aop := 16 })
    | (s, .ok (_, .host addr)) => .next (packetRequest s id { plainRequest 6 none addr 8 (leBytes 8 value) with aop := 16 }))

def execDependencyStore (s : State) : Out :=
  dependency s 3 (fun id p s =>
    let w := whoCtx s (packetCtx s p) false
    let va := field p.bytes 0x10 8
    let bs := leBytes 8 (field p.bytes 0x18 8)
    match translate s w .store false va with
    | (s, .error b) => packetMissed s w id p.queue b va
    | (s, .ok (_, .dev dpa ma)) =>
      .next (modPacket (storeLocal (noteFrame s w.part dpa true) 3 ma bs) id (fun p => p.begun none (some 2)))
    | (s, .ok (_, .peer dev dpa)) => .next (packetRequest s id (plainRequest 5 (some dev) dpa 8 bs))
    | (s, .ok (_, .host addr)) =>
      -- A host-scope store is performed when it has been transmitted (R352).
      .next (modPacket (packetRequest s id (plainRequest 5 none addr 8 bs)) id (fun p => { p with status := some 2 })))

/-- Whether a value satisfies a dependency wait. -/
def waitSatisfied (p : Packet) (x : Nat) : Bool :=
  if field p.bytes 0x20 1 = 0 then decide (field p.bytes 0x18 8 ≤ x) else x == field p.bytes 0x18 8

def execDependencyWaitMet (s : State) : Out :=
  let id := s.input.key
  match tfind s.packets id with
  | none => .next s
  | some p =>
    let x := queueOf s p.queue
    if packetType p != 3 || !p.started || p.status.isSome || 1 < field p.bytes 0x20 1 || p.stopped then .next s
    else
      let w := whoCtx s x.ctx.toNat false
      let va := field p.bytes 0x10 8
      match loadBytes s w .load va 8 with
      | (s, .error b) => packetMissed s w id p.queue b va
      | (s, .ok bs) =>
        .next (if waitSatisfied p (leNat bs) then modPacket s id (fun p => { p with status := some 2 }) else s)

/-! ### Completion (R383, R400) -/

/-- The status of a packet that has come to its end: as its launch, its wait or its signal left it, or as its transfer
completed. A power step that has not started is not at its end. -/
def packetStatus (s : State) (p : Packet) : Option Nat :=
  match p.status with
  | some n => if packetType p = 4 && !p.started then none else some n
  | none =>
    if packetType p = 2 && p.started then
      match p.work.bind (tfind s.transfers) with
      | none => none
      | some t => if t.complete.isSome then some (if t.err then 3 else 2) else none
    else none

/-- A completed packet leaves, and its copy's transfer with it. -/
def dropPacket (s : State) (id : Nat) (p : Packet) : State :=
  let s := { s with packets := tdel s.packets id }
  let s := match packetType p, p.work with
    | 2, some n => pruneTransfer (modTransfer s n (fun t => { t with packet := none })) n
    | _, _ => s
  settleQueue s p.queue

/-- The journal status is written, then the sequence stored to DONE, and then the completion message sent. A DONE store that
faults freezes the queue, and the message is not sent. -/
def execPacketComplete (s : State) : Out :=
  let id := s.input.key
  match tfind s.packets id with
  | none => .next s
  | some p =>
    match packetStatus s p with
    | none => .next s
    | some status =>
      let s := journalStatus s p.part p.seq status
      let done := field p.bytes 8 8
      let close := fun (s : State) =>
        let s := if bit (field p.bytes 1 1) 1 then msix s p.part false else s
        dropPacket s id p
      if done = 0 then .next (close s)
      else
        let w := whoCtx s (packetCtx s p) false
        match deviceStore s w done (leBytes 8 p.seq) with
        | (s, .ok _) => .next (close s)
        | (s, .error b) =>
          match missed s w b done with
          | (s, .wait) => .next s
          | (s, .fault n) => .next (freezeQueue (dropPacket s id p) p.queue n)
          | (s, .poison) => .next (freezeQueueFree (dropPacket s id p) p.queue)

end Sys2Proof.Machine
end

