-- ==== Sys2Proof/Machine/Checkpoint.lean ====
section
/-!
DEFINITION. Checkpoints: the region list and its limits (R452), the shard and the manifest (R453), CHECKPOINT packets and CKGO
(R455).
-/
namespace Sys2Proof.Machine

open Sys2Proof

/-! ### Regions (R452) -/

/-- Extents of a region entry below its RANK. -/
def regionExtents (e : List Byte) : List Nat := (List.range (field e 0x12 1)).map (fun i => field e (0x28 + 4 * i) 4)

def regionBytes (e : List Byte) : Nat := field e 0x10 2 * (regionExtents e).foldl (· * ·) 1

/-- An entry that breaks the limits. -/
def regionBad (e : List Byte) : Bool :=
  let rank := field e 0x12 1
  let above := (List.range 4).filter (fun i => rank ≤ i)
  field e 0 8 % 16 != 0 || !([1, 2, 4, 8, 16].contains (field e 0x10 2)) || rank = 0 || 4 < rank || field e 0x13 5 != 0 ||
  above.any (fun i => field e (0x18 + 4 * i) 4 != 0 || field e (0x28 + 4 * i) 4 != 0) ||
  (regionExtents e).any (· == 0) || field e 0x38 8 != 0 || regionBytes e % 16 != 0

/-- The 64-byte entries of a region list. -/
def regionEntries (n : Nat) (bs : List Byte) : List (List Byte) := (List.range n).map (fun i => (bs.drop (64 * i)).take 64)

/-- A checkpoint's body: 64 bytes as a packet has them, and then the region entries as listed. -/
def ckRegions (c : Checkpoint) : List (List Byte) := regionEntries (field c.body 0x18 4) (c.body.drop 64)

def ckTotal (c : Checkpoint) : Nat := (ckRegions c).foldl (fun n e => n + regionBytes e) 0 / 16

/-- The VA of a 16-byte unit of the shard among the regions. -/
def regionUnit : List (List Byte) → Nat → Nat
  | [], _ => 0
  | e :: es, n => if 16 * n < regionBytes e then field e 0 8 + 16 * n else regionUnit es (n - regionBytes e / 16)

def ckSlot (c : Checkpoint) : Nat := field c.body 0x1C 1
def ckShard (c : Checkpoint) : Nat := field c.body 0x20 8 + ckSlot c * field c.body 0x28 8
def ckManifest (c : Checkpoint) : Nat := field c.body 0x30 8 + 131072 * ckSlot c

def setCheckpoint (s : State) (part : Nat) (c : Checkpoint) : State :=
  { s with checkpoints := tset Checkpoint.reset s.checkpoints part c }

/-! ### Writes and the end -/

/-- A checkpoint's write: performed at once, or sent to a peer that still has to answer. -/
def ckStore (s : State) (w : Who) (part va : Nat) (bs : List Byte) : State × XResult Unit :=
  match translate s w .store false va with
  | (s, .error b) => (s, .error b)
  | (s, .ok (_, .dev dpa ma)) => (storeLocal (noteFrame s w.part dpa true) (writerOf w.core) ma bs, .ok ())
  | (s, .ok (_, .peer dev dpa)) => (sendRequest s { plainRequest 5 (some dev) dpa bs.length bs with reg := 2, word := part } 0 0, .ok ())
  | (s, .ok (_, .host a)) => (sendRequest s { plainRequest 5 none a bs.length bs with reg := 2, word := part } 0 0, .ok ())

def ckStores (s : State) (w : Who) (part va : Nat) : List (List Byte) → State × Except (XBad × Nat) Unit
  | [] => (s, .ok ())
  | b :: bs =>
    match ckStore s w part va b with
    | (s, .error x) => (s, .error (x, va))
    | (s, .ok _) => ckStores s w part (va + b.length) bs

/-- Every write of a partition's checkpoint has been performed (R352). -/
def ckPerformed (s : State) (part : Nat) : Bool :=
  s.requests.all (fun r => !(r.kind == 5 && r.reg == 2 && r.word == part))

def ckWho (s : State) (c : Checkpoint) : Who := whoCtx s c.ctx c.priv

/-- Who waits at a unit's word. -/
def askerOf (s : State) (u : Issue) : Asker :=
  ⟨u.g.gang, u.key, lowest u.f.lanes, !(fragsAside s u.g.gang u.key).isEmpty⟩

/-- The key of the result that a word waits for. -/
def resultKey (a : Asker) : Nat := 2 ^ 64 + ((a.gang * 8192 + a.key) * 64 + a.lane) * 2 + a.aside.toNat

/-- A result is left for the word that waits for it, if its fragment still stands there, or has been set aside there. -/
def postResult (s : State) (a : Asker) (code : Nat) : State :=
  match groupOf s a.key with
  | none => s
  | some g =>
    let aside := fragsAside s a.gang a.key
    let frags := if a.aside == !aside.isEmpty then g.frags else aside
    if g.gang == a.gang && frags.any (fun f => lane f.lanes a.lane && f.hold == Hold.word) then
      { s with results := tput s.results (resultKey a) (BitVec.ofNat 64 code) }
    else s

/-- The result that has been left for a unit's word. -/
def takeResult (s : State) (u : Issue) : State × Option Nat :=
  let k := resultKey (askerOf s u)
  match tfind s.results k with
  | none => (s, none)
  | some x => ({ s with results := tdel s.results k }, some x.toNat)

/-- A checkpoint ends, done or in error; a fault also freezes its packet's queue. Writes that are still to be performed belong to none. -/
def endCheckpoint (s : State) (part : Nat) (ok : Bool) (fault : Option Nat) : State :=
  let c := checkpointOf s part
  let s := { s with requests := s.requests.map (fun r =>
    if r.kind == 5 && r.reg == 2 && r.word == part then { r with reg := 3, word := c.ctx } else r) }
  let s := setCheckpoint s part { c with state := if ok then 0 else 3, packet := none, holder := none, body := [], shard := [] }
  match c.packet, c.holder with
  | some id, _ =>
    let queue := ((tfind s.packets id).map (·.queue)).getD 0
    let s := modPacket s id (fun p => { p with status := some (if ok then 2 else 3) })
    (match fault with
     | none => s
     | some n => freezeQueue s queue n)
  | none, some a => postResult s a (if ok then 0 else 3)
  | none, none => s

/-- A failed access of a checkpoint: tried again, or its end. -/
def ckMissed (s : State) (part : Nat) (w : Who) (b : XBad) (va : Nat) : State :=
  match missed s w b va with
  | (s, .wait) => s
  | (s, .fault n) => endCheckpoint s part false (some n)
  | (s, .poison) => endCheckpoint s part false none

/-! ### The start -/

/-- What a request to start a checkpoint meets. -/
inductive CkStart where
  | started
  | refused
  | waits
  | failed (cause : Option Nat)
deriving DecidableEq, Repr, Inhabited

/-- A checkpoint of a body that keeps its limits: the region list is read and checked, and the MAGIC of its slot's manifest
written with 0. -/
def startCheckpoint (s : State) (part : Nat) (c : Checkpoint) : State × CkStart :=
  let n := field c.body 0x18 4
  let w := ckWho s c
  let fail := fun (s : State) (b : XBad) (va : Nat) => match missed s w b va with
    | (s, .wait) => (s, CkStart.waits)
    | (s, .fault k) => (s, .failed (some k))
    | (s, .poison) => (s, .failed none)
  match loadMany s w (field c.body 0x10 8) (64 * n) with
  | (s, .error (b, va)) => fail s b va
  | (s, .ok bs) =>
    let es := regionEntries n bs
    if es.any regionBad || field c.body 0x28 8 < es.foldl (fun n e => n + regionBytes e) 0 then (s, .refused)
    else
      let c := { c with body := c.body ++ bs, state := 1, slot := ckSlot c, units := 0, ckid := field c.body 0x38 8,
                        anchor := sincePlace s.mem.order, shard := [] }
      match ckStore s w part (ckManifest c) (leBytes 4 0) with
      | (s, .error b) => fail s b (ckManifest c)
      | (s, .ok _) => (setCheckpoint s part c, .started)

/-- One checkpoint runs per partition at a time. -/
def ckRunning (s : State) (part : Nat) : Bool := let c := checkpointOf s part; c.state == 1 || c.state == 2

/-- A checkpoint that could not start has ended in error. -/
def ckFailed (s : State) (part : Nat) (c : Checkpoint) : State :=
  setCheckpoint s part { checkpointOf s part with state := 3, slot := ckSlot c, units := 0, ckid := field c.body 0x38 8 }

def execCheckpointPacket (s : State) : Out :=
  startPacket s 5 (fun id p s =>
    if ckRunning s p.part then .next s
    else
      let c := { Checkpoint.reset with packet := some id, body := p.bytes.take 64, ctx := packetCtx s p }
      match startCheckpoint s p.part c with
      | (s, .waits) => .next s
      | (s, .started) => .next (modPacket s id (fun p => p.begun none none))
      | (s, .refused) =>
        .next (freezeQueueFree (dropPacket (journalStatus s p.part p.seq 1) id p) p.queue)
      | (s, .failed cause) =>
        let s := modPacket (ckFailed s p.part c) id (fun p => p.begun none (some 3))
        .next (match cause with
          | none => s
          | some n => freezeQueue s p.queue n))

def execCkgo (a b : Opnd) (s : State) : Out :=
  systemOp s a b (fun u l va _ =>
    match takeResult s u with
    | (s, some code) => finishScalar s u b code
    | (s, none) =>
      let me := askerOf s u
      if (checkpointOf s l.part).holder == some me then .next (holdUnit s u .word)
      else if va % 16 != 0 then misalignedWord s u va
      else
        wordLoad s u va 48 (fun s bs =>
          let body := leBytes 16 0 ++ bs
          if ckRunning s l.part then finishScalar s u b 2
          else if (checkpointBad body).isSome then finishScalar s u b 1
          else
            let c := { Checkpoint.reset with holder := some me, body := body, ctx := l.ctx, priv := true }
            match startCheckpoint s l.part c with
            | (s, .waits) | (s, .started) => .next (holdUnit s u .word)
            | (s, .refused) => finishScalar s u b 1
            | (s, .failed _) => finishScalar (ckFailed s l.part c) u b 3))

/-! ### The shard and the manifest -/

/-- The next units of the shard, as many as `n`; `false` when one must wait, or has ended the checkpoint. -/
def moveShard (part : Nat) : Nat → State → State × Bool
  | 0, s => (s, true)
  | n + 1, s =>
    let c := checkpointOf s part
    let w := ckWho s c
    let va := regionUnit (ckRegions c) c.units
    match engineRead s w c.anchor va 16 with
    | (s, .error .wait) | (s, .error (.noFrame _)) => (s, false)
    | (s, .error (.fault _ k)) | (s, .error (.freeze k)) | (s, .error (.backing _ k)) => (endCheckpoint s part false (some k), false)
    | (s, .error (.consume _)) | (s, .error (.window ..)) => (endCheckpoint s part false none, false)
    | (s, .ok (_, true)) => (endCheckpoint s part false none, false)
    | (s, .ok (bs, false)) =>
      let dst := ckShard c + 16 * c.units
      match ckStore s w part dst bs with
      | (s, .error b) => (ckMissed s part w b dst, false)
      | (s, .ok _) => moveShard part n (setCheckpoint s part { c with units := c.units + 1, shard := c.shard ++ bs })

/-- The manifest of a checkpoint whose shard has been written. -/
def manifestBytes (s : State) (c : Checkpoint) : List Byte :=
  let n := field c.body 0x18 4
  let head := leBytes 4 0x4D4B4357 ++ leBytes 2 1 ++ leBytes 1 (ckSlot c) ++ leBytes 1 s.identity.devnum ++ leBytes 8 c.ckid ++
    leBytes 4 n ++ leBytes 2 (field c.body 0x1E 2) ++ leBytes 2 0 ++ leBytes 8 (ckShard c) ++ leBytes 8 (16 * c.units) ++
    leBytes 8 s.clock ++ digest64 c.shard ++ leBytes 144 0 ++ (c.body.drop 64).take (64 * n)
  head ++ signature114 head

/-- Bytes in pieces of 16. -/
def pieces16 (bs : List Byte) : List (List Byte) := (List.range ((bs.length + 15) / 16)).map (fun i => (bs.drop (16 * i)).take 16)

/-- A partition's checkpoint goes on: its MAGIC write and then its shard are performed, the manifest is written, and, once that is
performed, it ends. -/
def execCheckpointComplete (s : State) : Out :=
  let part := s.input.key
  let c := checkpointOf s part
  if !ckPerformed s part then .next s
  else if c.state = 1 then
    match moveShard part (ckTotal c - c.units) s with
    | (s, false) => .next s
    | (s, true) =>
      if !ckPerformed s part then .next s
      else
        let c := checkpointOf s part
        let s := setCheckpoint s part { c with state := 2 }
        match ckStores s (ckWho s c) part (ckManifest c) (pieces16 (manifestBytes s c)) with
        | (s, .error (b, va)) => .next (ckMissed (setCheckpoint s part { checkpointOf s part with state := 1 }) part (ckWho s c) b va)
        | (s, .ok _) => .next (if ckPerformed s part then endCheckpoint s part true none else s)
  else if c.state = 2 then .next (endCheckpoint s part true none)
  else .next s

end Sys2Proof.Machine
end

