-- ==== Sys2Proof/Machine/Convert.lean ====
section
/-!
DEFINITION. Conversions and block quantisation (R143 to R151).
-/
namespace Sys2Proof.Machine

open Sys2Proof

/-! ### Integers (R143, R144) -/

/-- Width and signedness of an integer type code: true for unsigned. -/
def intType (t : Nat) : Nat × Bool :=
  (if t < 2 then 32 else if t < 4 then 16 else if t < 6 then 8 else 64, t % 2 == 1)

/-- Registers that a type's value takes. -/
def intRegs (t : Nat) : Nat := if 6 ≤ t then 2 else 1

def execF2i (p : Option Pfx) (d a : Opnd) (s : State) : Out :=
  let t := auxOf p
  let n := (intType t).1
  let u := (intType t).2
  laneOp s p d (intRegs t) [(a, 1)] (fun g l x =>
    let put := fun (y : Int) => BitVec.ofNat 64 (wrap (max n 32) y)
    match float32 g a l with
    | .nan => (0, x)
    | .inf neg => (put (satInt n u (if neg then -(2 ^ 64) else 2 ^ 64)), x)
    | .num q _ =>
      let r := drawRng (modeOf g p) x
      (put (satInt n u (roundInt (modeOf g p) r.1 q)), r.2))

def execI2f (p : Option Pfx) (d a : Opnd) (s : State) : Out :=
  let t := auxOf p
  let n := (intType t).1
  roundOp s p d [(a, intRegs t)] (fun g l =>
    let x := if 6 ≤ t then nat64 g a l else nat32 g a l
    .num (if (intType t).2 then ((x % 2 ^ n : Nat) : Rat) else (signed n x : Rat)) false)

/-! ### Floating formats (R145, R146) -/

/-- The formats of F2F by code. -/
def floatType : Nat → Fmt
  | 0 => .f32
  | 1 => .bf16
  | 2 => .f16
  | 3 => .e4m3
  | 4 => .e5m2
  | 5 => .e2m1
  | _ => .h4

def execF2f (p : Option Pfx) (d a : Opnd) (s : State) : Out :=
  laneOp s p d 1 [(a, 1)] (fun g l x =>
    let r := drawRng (modeOf g p) x
    let y := decodeFmt (floatType (auxOf p / 8)) (nat32 g a l)
    (BitVec.ofNat 64 (roundFmt (floatType (auxOf p % 8)) (satOf p) (modeOf g p) r.1 y), r.2))

def execF2fPk (p : Option Pfx) (d a b : Opnd) (s : State) : Out :=
  laneOp s p d 1 [(a, 1), (b, 1)] (fun g l x =>
    let f := floatType (auxOf p % 8)
    let w := f.bits
    let lo := 2 * (auxOf p / 8) * w
    let m := modeOf g p
    let r0 := drawRng m x
    let r1 := drawRng m r0.2
    let pair := roundFmt f (satOf p) m r0.1 (float32 g a l) + 2 ^ w * roundFmt f (satOf p) m r1.1 (float32 g b l)
    let old := nat32 g d l
    let kept := old - bits old lo (2 * w) * 2 ^ lo
    (BitVec.ofNat 64 (kept + pair * 2 ^ lo), r1.2))

/-! ### Block quantisation (R147 to R150) -/

/-- The element formats of QNT and DQNT. -/
def blockFmt : Nat → Fmt
  | 0 => .e4m3
  | 1 => .e5m2
  | 2 => .e2m1
  | 3 => .h4
  | _ => .i8

/-- Mx, the largest magnitude of a format (R147). -/
def blockMax : Fmt → Rat
  | .e4m3 => 448
  | .e5m2 => 57344
  | .e2m1 => 6
  | .h4 => 15 / 2
  | _ => 127

/-- aux[3]: the scale is FP32; otherwise E8M0. -/
def scaleE8m0 (p : Option Pfx) : Bool := !bit (auxOf p) 3

/-- The scale of a block from its absolute maximum (R148). -/
def blockScale (f : Fmt) (e8m0 : Bool) (a : Exact) : Nat :=
  match a with
  | .nan => if e8m0 then 0xFF else 0x7FC00000
  | .inf _ => if e8m0 then 0xFE else 0x7F800000
  | .num q _ =>
    let u := ratAbs q
    if e8m0 then ((List.range 255).find? (fun (e : Nat) => decide (u ≤ blockMax f * pow2 ((e : Int) - 127)))).getD 0xFE
    else if u = 0 then 0x3F800000
    else roundFmt .f32 false .rup 0 (.ofRat (u / blockMax f))

def execQntScale (p : Option Pfx) (d a : Opnd) (s : State) : Out :=
  pureOp s p d 1 [(a, 1)] (fun g l => blockScale (blockFmt (auxOf p % 8)) (scaleE8m0 p) (float32 g a l))

/-- Whether QNT takes a rounding step, and so draws (R99, R149): INT8 rounds finite quotients alone. -/
def quantRounds (f : Fmt) (x scale : Exact) : Bool :=
  !noQuotient x scale && (f != .i8 || !((x.div scale).isNan || (x.div scale).isInf))

/-- One quantised element (R149): the 32 bits that d receives. -/
def quantise (f : Fmt) (sat : Bool) (rm : Round) (draw : Nat) (x scale : Exact) : Nat :=
  let y := x.div scale
  let bad := noQuotient x scale
  match f with
  | .i8 =>
    if bad then 0
    else match y with
      | .nan => 0
      | .inf n => wrap 32 (if n then -127 else 127)
      | .num q _ => wrap 32 (max (-127) (min 127 (roundInt rm draw q)))
  | _ => if bad then f.nanCode else roundFmt f sat rm draw y

def execQnt (p : Option Pfx) (d a b : Opnd) (s : State) : Out :=
  laneOp s p d 1 [(a, 1), (b, 1)] (fun g l x =>
    let f := blockFmt (auxOf p % 8)
    let sc := scaleOf (scaleE8m0 p) (nat32 g b l)
    let r := if quantRounds f (float32 g a l) sc then drawRng (modeOf g p) x else (0, x)
    (BitVec.ofNat 64 (quantise f (satOf p) (modeOf g p) r.1 (float32 g a l) sc), r.2))

def execDqnt (p : Option Pfx) (d a b : Opnd) (s : State) : Out :=
  roundOp s p d [(a, 1), (b, 1)] (fun g l =>
    (decodeFmt (blockFmt (auxOf p % 8)) (nat32 g a l)).mul (scaleOf (scaleE8m0 p) (nat32 g b l)))

/-! ### Nibbles (R151) -/

def execPackn (p : Option Pfx) (d a b : Opnd) (s : State) : Out :=
  pureOp s p d 1 [(a, 1), (b, 1)] (fun g l =>
    let nib := fun (y : Nat) => if satOf p then wrap 4 (max (-8) (min 7 (signed 8 y))) else y % 16
    (List.range 4).foldl (fun r j =>
      r + nib (bits (nat32 g a l) (8 * j) 8) * 2 ^ (4 * j) + nib (bits (nat32 g b l) (8 * j) 8) * 2 ^ (4 * j + 16)) 0)

def execUnpackn (p : Option Pfx) (d a : Opnd) (s : State) : Out :=
  pureOp s p d 1 [(a, 1)] (fun g l =>
    (List.range 4).foldl (fun r j =>
      let n := bits (nat32 g a l) (4 * (4 * bits (auxOf p) 0 1 + j)) 4
      r + (if bit (auxOf p) 1 then wrap 8 (signed 4 n) else n) * 2 ^ (8 * j)) 0)

end Sys2Proof.Machine
end

