-- ==== Sys2Proof/Machine/Release.lean ====
section
/-!
DEFINITION. The release of frozen agents by UNFREEZE and FRZCMD (R404, R405), the host's service of a trap at the context rung
(R412), and the end of a debug halt (R464).
-/
namespace Sys2Proof.Machine

open Sys2Proof

/-! ### Release (R405) -/

/-- A gang held at the context rung goes on as TRET mode 0 would let it, and the engine work that its trap names goes on. -/
def releaseGang (s : State) (uid : Nat) : State :=
  match gangOf s uid with
  | none => s
  | some q =>
    match q.climbed with
    | none => s
    | some p =>
      let s := setGang s uid { q with climbed := none }
      match p.engine with
      | none => s
      | some n => if p.cls = 14 then resumeTransfer s n else if p.cls = 16 then resumeNode s uid n else s

/-- Every trap at a context's rung has been served. -/
def served (s : State) (ctx : Nat) : State :=
  let s := { s with services := s.services.filter (fun v => !(v.rung == 2 && v.key % 256 == ctx)) }
  setCtx s ctx { ctxOf s ctx with pend := false, cls := 0, gang := 0, held := none, more := [] }

/-- A frozen context goes on: its held gangs, its halted transfers and its parked nodes with it. -/
def releaseCtx (s : State) (ctx : Nat) : State :=
  if !(ctxOf s ctx).frozen then s
  else
    let s := served s ctx
    let s := setCtx s ctx { ctxOf s ctx with frozen := false }
    let s := (s.gangs.filter (fun q => gangCtx s q.1 == some ctx)).foldl (fun s q => releaseGang s q.1) s
    thawNodes (resumeFrozen s (fun t => t.ctx == ctx && (t.kind != 2 ||
      ((t.packet.bind (tfind s.packets)).map (fun p => (queueOf s p.queue).state != 2)).getD true))) ctx

/-- A frozen queue runs again, with the transfer that a fault of its packet halted. -/
def releaseQueue (s : State) (q : Nat) : State :=
  let x := queueOf s q
  if x.state != 2 then s
  else
    let mine := fun (t : Transfer) => t.kind == 2 && ((t.packet.bind (tfind s.packets)).map (·.queue)) == some q &&
      !(ctxOf s t.ctx).frozen
    let s : State := { s with packets := s.packets.map (fun p => if p.2.queue == q then (p.1, { p.2 with stopped := false }) else p) }
    resumeFrozen (setQueue s q { x with state := 1 }) mine

def releaseFn (s : State) (fn : Nat) : State :=
  match s.funcs[fn]? with
  | none => s
  | some f => { s with funcs := s.funcs.set fn { f with frozen := false } }

def releaseEngine (s : State) (n : Nat) : State :=
  let c := coreOf s (n / 8)
  if c.engines[n % 8]? == some true then setCore s (n / 8) { c with engines := c.engines.set (n % 8) false } else s

def releasePort (s : State) (dev : Nat) : State :=
  { s with peers := tset peerReset s.peers dev (tget peerReset s.peers dev &&& ~~~0x20) }

/-- Class and number of the agent that a value names, when its fields are in range: 0 queue, 1 context, 2 host function, 3 engine, 4
peer port. -/
def agentOf (x : Nat) : Option (Nat × Nat) :=
  let cls := bits x 0 4
  let n := bits x 16 16
  let ok := match cls with
    | 0 => true
    | 1 => decide (n < 256)
    | 2 => decide (n ≤ 6)
    | 3 => decide (n / 8 < 48) && decide (n % 8 < 6)
    | 4 => decide (n < 256)
    | _ => false
  if ok && bits x 4 12 = 0 && x < 2 ^ 32 then some (cls, n) else none

/-- PEERCFG PART (R376). -/
def peerPart (x : Dword) : Nat := bits x.toNat 8 3

/-- Whether an agent is another partition's. -/
def agentForeign (s : State) (ctx part : Nat) : Nat × Nat → Bool
  | (0, q) => queueOwner s ctx part q == .foreign
  | (1, c) => ctxPart s c != part
  | (2, fn) => ((s.funcs[fn]?).map (·.part)).getD 7 != part
  | (3, n) => corePart s (n / 8) != part
  | (_, dev) => peerPart (tget peerReset s.peers dev) != part

def releaseAgent (s : State) : Nat × Nat → State
  | (0, q) => releaseQueue s q
  | (1, c) => releaseCtx s c
  | (2, fn) => releaseFn s fn
  | (3, n) => releaseEngine s n
  | (_, dev) => releasePort s dev

def execUnfreeze (a : Opnd) (s : State) : Out :=
  systemOp s a a (fun u l sa _ =>
    match agentOf sa with
    | none => .next (raise s u (illegalTrap u (causeCode 405 0)))
    | some x => if agentForeign s l.ctx l.part x then breach s u 9 else .next (finish (releaseAgent s x) u))

/-- FRZCMD: a value with a bad field releases nothing. -/
def execFrzcmd (s : State) : Out :=
  hostAct s 0x470000 none (fun s =>
    match agentOf s.input.value.toNat with
    | none => .next s
    | some x => .next (releaseAgent s x))

/-! ### CTXCMD (R412) -/

/-- A host access to a context's register of a block at a base. -/
def ctxAct (s : State) (base : Nat) (k : State → Nat → Out) : Out :=
  let ctx := s.input.key
  if 256 ≤ ctx then .next s else hostAct s (base + 8 * ctx) (some (ctxPart s ctx)) (fun s => k s ctx)

/-- The trap that PEND tells of has been served by the kill of its gang: PEND tells of the next one that waits. -/
def servedHeld (s : State) (ctx : Nat) (held : Option Nat) : State :=
  let s := { s with services := s.services.filter (fun v => !(v.rung == 2 && some v.key == held.map (fun uid => ctxServiceKey uid ctx))) }
  if (ctxOf s ctx).held == held then setCtx s ctx (ctxOf s ctx).nextHeld else s

/-- Every gang of a context is killed, with no relaunch. -/
def killCtx (s : State) (ctx : Nat) : State :=
  (s.gangs.filter (fun q => gangCtx s q.1 == some ctx)).foldl (fun s q => (killGang s q.1 false).1) s

def execCtxcmdKillAll (s : State) : Out :=
  ctxAct s 0x480000 (fun s ctx => .next (let s := killCtx s ctx; if (ctxOf s ctx).pend then served s ctx else s))

def execCtxcmdKillHeld (s : State) : Out :=
  ctxAct s 0x480000 (fun s ctx =>
    let c := ctxOf s ctx
    if !c.pend then .next s
    else
      let s := match c.held with
        | none => s
        | some uid => (killGang s uid false).1
      .next (servedHeld s ctx c.held))

def execCtxcmdRelease (s : State) : Out :=
  ctxAct s 0x480000 (fun s ctx => .next (if (ctxOf s ctx).pend then releaseCtx s ctx else s))

/-! ### DBGCTL (R464) -/

/-- The clocks for which a gang has been halted, since `from'`, do not count for its services and rendezvous (R65, R414). -/
def skipClocks (s : State) (uid from' : Nat) : State :=
  let keys := (groupsOf s uid).map (·.1)
  let later := fun (since : Nat) => since + (s.clock - max since from')
  let s := keys.foldl (fun s key => modGroup s key (fun g => { g with rdv := g.rdv.map (fun r => { r with since := later r.since }) })) s
  { s with services := s.services.map (fun v =>
      if (v.rung = 0 && keys.contains v.key) || (v.rung = 1 && v.key = uid) || (v.rung = 2 && v.key / 256 = uid) then
        { v with since := later v.since } else v) }

/-- The halted gang of a context goes on; the trap that halted it is delivered, or not. -/
def resumeHalted (s : State) (ctx : Nat) (deliver : Bool) : State :=
  match (ctxOf s ctx).halted with
  | none => s
  | some uid =>
    match gangOf s uid with
    | none => s
    | some q =>
      match q.halted.filter (·.told) with
      | none => s
      | some h =>
        let s := setCtx s ctx { ctxOf s ctx with halted := none }
        let s := skipClocks (setGang s uid { q with halted := none }) uid h.since
        let t : Trap := { cls := h.trap.cls, info0 := h.trap.info0, info1 := h.trap.info1, atHeader := true, engine := h.trap.engine, safe := true,
                          byWord := false }
        if !deliver then s
        else
          match h.key with
          | none => takeGangTrap s uid t
          | some key =>
            match (groupOf s key).bind (fun g => fragAt g h.lane) with
            | none => s
            | some f => takeTrap s key f.lanes 1 t

def execDbgctlResumeDiscard (s : State) : Out := ctxAct s 0x900000 (fun s ctx => .next (resumeHalted s ctx false))
def execDbgctlResumeDeliver (s : State) : Out := ctxAct s 0x900000 (fun s ctx => .next (resumeHalted s ctx true))

end Sys2Proof.Machine
end

