-- ==== Sys2Proof/Machine/Timers.lean ====
section
/-!
DEFINITION. What comes about by itself for groups and their operations: counted loads and stores that complete (R25, R347), the
predictor (R60), the end of spin-lowering (R61), the rendezvous budget (R65), and the time of a regeneration service (R340).
-/
namespace Sys2Proof.Machine

open Sys2Proof

/-! ### Counted operations (R25, R347) -/

/-- Every lane of a load or an atomic has its value: its registers are written and its counter decremented. -/
def execCountedLoadComplete (s : State) : Out :=
  let id := s.input.key
  match tfind s.ops id with
  | none => .next s
  | some o => if o.load && o.issued && o.waits == 0 && o.counter.isSome then .next (opHappened (landAll s id) id) else .next s

/-- The stores of an operation to the host are transmitted, behind the earlier ones of its group; once every lane's store has been
performed its counter is decremented. -/
def execStorePerformed (s : State) : Out :=
  let id := s.input.key
  match tfind s.ops id with
  | none => .next s
  | some o =>
    if o.load || !o.issued then .next s
    else
      let last := (s.requests.filter (fun r => r.op == some id)).foldl (fun n r => max n r.tag) 0
      let s := transmit s (fun r => r.group == o.group && decide (r.tag ≤ last))
      match tfind s.ops id with
      | none => .next s
      | some o => if o.waits == 0 && o.counter.isSome then .next (opHappened s id) else .next s

/-! ### The predictor and spin detection (R60, R61) -/

def execUrgentRecompute (s : State) : Out :=
  .next (match (gangOf s s.input.key).bind (fun q => q.teams[s.input.sub]?) with
    | none => s
    | some t => if urgentDue s t then markUrgent s s.input.key s.input.sub false else s)

/-- Clocks for which a fragment stays spin-lowered. -/
def spinClocks : Nat := 4096

/-- Detection starts again from zero takings; the loop stays known until a condition of R61 is broken. -/
def execSpinLowerExpire (s : State) : Out :=
  .next (modGroup s s.input.key (fun g => { g with spins := g.spins.map (fun x =>
    if x.lane == s.input.sub && (match x.lowered with
      | none => false
      | some c => decide (c + spinClocks ≤ s.clock))
    then { x with takings := 0, lowered := none } else x) }))

/-! ### The rendezvous budget (R65) -/

def rendezvousBudget : Nat := 1048576

/-- The instance at an address traps when no awaited member has made progress for the whole budget; in trap mode it is tested again
when that ends (R410). -/
def execRendezvousBudgetExpire (s : State) : Out :=
  match groupOf s s.input.key with
  | none => .next s
  | some g =>
    let free := ((gangOf s g.gang).map (fun q => q.mode.isNone && !q.isHalted && q.climbed.isNone)).getD false
    match g.rdv.find? (fun r => r.addr == s.input.sub) with
    | none => .next s
    | some r =>
      if g.mode.isSome || !free || s.clock < r.since + rendezvousBudget then .next s
      else .next (breakRendezvous s s.input.key r)

/-! ### Regeneration (R340) -/

/-- 100 ms in nominal clocks. -/
def regenLimit : Nat := 105000000

def execRegenTimeout (s : State) : Out :=
  let f := s.input.key
  match regenOf s.mem f with
  | none => .next s
  | some r => if r.failed || r.posted.isNone || s.clock < r.since + regenLimit then .next s else .next (failRegen s f)

end Sys2Proof.Machine
end

