-- ==== Sys2Proof/Machine/Warm.lean ====
section
/-!
DEFINITION. Service times (R414) and the rungs above the context: the partition rung (R413), the device rung's warm reset (R443),
the loss of the cache die (R371), and cold reset (R285, R457).
-/
namespace Sys2Proof.Machine

open Sys2Proof

/-! ### Launches that end with status 3 -/

/-- A launch has no gang left to run. -/
def exhaustLaunch (s : State) (uid : Nat) : State :=
  match launchOf s uid with
  | none => s
  | some l =>
    setLaunch { s with kept := s.kept.filter (fun k => k.launch != uid) } uid
      { l with unplaced := [], saved := [], urgent := [], blocking := [], killed := true, done := recGangs l, admitted := true }

/-! ### The partition rung (R413) -/

def partitionRung (s : State) (part : Nat) : State :=
  let gangs := s.gangs.filter (fun q => ((gangCtx s q.1).map (ctxPart s)) == some part)
  let s : State := gangs.foldl (fun s q => (killGang s q.1 false).1) s
  let s : State := { s with queues := s.queues.map (fun q =>
    (q.1, if q.2.state = 1 && ctxPart s q.2.ctx.toNat = part then { q.2 with state := 2 } else q.2)) }
  let running := s.launches.filter (fun l => l.2.part == part && l.2.admitted)
  let s := running.foldl (fun s l => exhaustLaunch (journalStatus s part l.2.seq 3) l.1) s
  msix s part true

/-! ### Requests that are never answered (R378) -/

/-- The Etesian port that a request's loss is recorded at: its flit's fibre, or one that the manual does not choose. -/
def requestPort (s : State) (r : Request) : Nat :=
  unitFibre (match r.wave with
    | some w => w / 16
    | none => Config.freeChoice s.tick % 128)

/-- A request is lost: a store's operation completes with error status and the loss is recorded, a packet's signal completes with
error, a checkpoint ends (R453), and nothing else waits for it. -/
def loseRequest (s : State) (r : Request) : State :=
  let s := { s with requests := s.requests.filter (fun x => x.tag != r.tag) }
  let record := fun (s : State) =>
    let unit := if r.peer.isSome then requestPort s r else unitHostPort
    recordEvent { s with tick := s.tick + 1 }
      { unit := unit, cause := 0x31, sev := 3, addr := some r.addr, synd := r.tag, ctx := requestCtx s r, gang := requestGang s r }
  match r.kind with
  | 1 => match r.op with
    | none => record s
    | some id => partHappened (record s) id true
  | 5 =>
    let s := record s
    if r.reg = 1 then modPacket s r.word (fun p => { p with status := some 3 })
    else if r.reg = 0 then modTransfer s r.word (fun t => { t with err := true })
    else if r.reg = 2 && ckRunning s r.word then endCheckpoint s r.word false none else s
  | 6 => modPacket s r.word (fun p => { p with status := some 3 })
  | _ => s

/-! ### The warm reset (R443) -/

/-- Ten milliseconds in nominal clocks. -/
def touchClocks : Nat := 10500000

/-- Contexts that a warm reset touches: the one whose trap climbed, and those of gangs with a member on a unit that has recorded a
severity 3 event, then or now. -/
def touchedCtxs (s : State) (ctx : Option Nat) : List Nat :=
  let late := (s.events ++ s.fresh).filter (fun e => e.sev == 3 && decide (s.clock < e.clock + touchClocks))
  ctx.toList ++ late.flatMap (fun e => e.ctxs ++ ctxsAt s e.unit)

/-- Every resident gang is lost: those of RESTART launches of contexts that are not touched run again, and the other launches are at
an end. -/
def loseGangs (s : State) (touched : List Nat) : State :=
  let again := fun (l : Launch) => recRestart l && !touched.contains l.ctx && !l.destroyed
  let s := s.gangs.foldl (fun s q =>
    let s := dropGang s q.1
    match launchOf s q.2.launch with
    | none => s
    | some l => if again l then relaunchGang s q.2.launch q.2.index else s) s
  (s.launches.filter (fun l => !again l.2 && !l.2.destroyed)).foldl (fun s l => exhaustLaunch s l.1) s

/-- Every dirty line of the LLC is written back. -/
def writebackAll (s : State) : State := ((s.mem.dirty.map (· / 8)).eraseDups).foldl writebackLine s

/-- The Levant state of a die under a new epoch. -/
def Levant.fresh (l : Levant) (epoch : Nat) : Levant :=
  { l with ct := [0, 0, 0, 0], seen := [0, 0, 0, 0], seqs := [0, 0, 0, 0], epoch := epoch % 16, early := [], served := [] }

def warmReset (s : State) (cls ctx : Nat) (climbed : Option Nat) (unit : BitVec 16) : State :=
  let touched := touchedCtxs s climbed
  let s := loseGangs s touched
  let s := (s.checkpoints.filter (fun c => ckRunning s c.1)).foldl (fun s c => endCheckpoint s c.1 false none) s
  let s := s.requests.foldl (fun s r => if r.peer.isSome then loseRequest s r else s) s
  let s := writebackAll s
  let m := { s.mem with
    ind := s.mem.ind.map (fun e => (e.1, if IndMoving e.2 then e.2 &&& ~~~0x10 else e.2))
    period := 24, thresh := 16, passPos := 0, llcway := List.replicate 8 0xFFFFFF, hot := List.replicate 6 HotCfg.reset,
    counts := [], moves := [], xlines := [], past := [], cells := s.mem.cells.filter (fun c => c.1 < hostBase) }
  { s with
    mem := m
    queues := s.queues.map (fun q =>
      (q.1, if q.2.state = 1 && touched.contains q.2.ctx.toNat then { q.2 with state := 2 } else q.2))
    ctxs := [], cores := [], swept := [], buffer := []
    requests := s.requests.filter (fun r => r.peer.isNone && r.kind == 1)
    transfers := s.transfers.map (fun t => (t.1, { t.2 with engine := none }))
    levant := s.levant.map (fun l => l.fresh (l.epoch + 1))
    packetsLv := [], numbers := [0, 0, 0, 0], fabric := { Fabric.reset with lost := s.fabric.lost, mark := s.mem.order, replies := s.fabric.replies }
    traces := [], cxComps := [], reports := [], saves := [], services := [], results := []
    warm := ⟨min 255 (s.warm.count + 1), cls % 32, ctx % 256, unit⟩ }

/-! ### Service times (R414) -/

/-- The limit of a rung in nominal clocks. -/
def serviceLimit : Nat → Nat
  | 0 => 105000
  | 1 => 1050000
  | 2 => 10500000
  | _ => 21000000

/-- The action of firmware at the partition rung is performed at any clock after it has begun (R413, R414). -/
def settleFirmware (s : State) : State :=
  (s.services.filter (fun v => v.rung == 3)).foldl (fun s v =>
    let done := Config.freeBool s.tick
    let s := { s with tick := s.tick + 1 }
    if done then partitionRung { s with services := s.services.filter (· != v) } (ctxPart s (v.key % 256)) else s) s

/-- The service of a rung, for a group, gang, context or partition, has run out: class 25 is raised at the next rung, where firmware
begins its action, or the package takes a warm reset, in which the context whose trap has climbed is touched. -/
def execServiceTimeout (s : State) : Out :=
  let rung := s.input.key
  let key := s.input.sub
  match s.services.find? (fun v => v.rung == rung && v.key == key) with
  | none => .next s
  | some v =>
    let halted := fun (uid : Nat) => ((gangOf s uid).map Gang.isHalted).getD false
    if s.clock < v.since + serviceLimit rung then .next s
    else
      let gone := { s with services := s.services.filter (fun x => !(x.rung == rung && x.key == key)) }
      let info0 := BitVec.ofNat 64 v.cls
      let info1 := BitVec.ofNat 64 rung
      match rung with
      | 0 =>
        (match groupOf s key with
         | none => .next gone
         | some g => if halted g.gang then .next s else .next (takeGangTrap gone g.gang { cls := 25, info0 := info0, info1 := info1 }))
      | 1 =>
        (match gangOf s key, gangCtx s key with
         | some q, some ctx => if q.isHalted then .next s else .next (toContext gone key ctx q.index ⟨25, info0, info1, 2, none, none⟩)
         | _, _ => .next gone)
      | 2 =>
        if halted (key / 256) then .next s
        else .next { gone with services := gone.services ++ [{ v with rung := 3, since := s.clock, cls := 25 }] }
      | _ => .next (warmReset gone 25 (key % 256) (some (key % 256)) (BitVec.ofNat 16 v.unit))

/-- The cache die or its IO ingress is lost: a warm reset that no trap of a context has caused. The class and context that WRSTAT
then names are not given. -/
def execLossOfCx (s : State) : Out :=
  .next (warmReset { s with tick := s.tick + 2 } (Config.freeChoice s.tick) (Config.freeChoice (s.tick + 1)) none 0xFFFF)

/-! ### Cold reset (R285, R451, R457) -/

/-- The image that boots: the first in board flash whose signature verifies and whose version is not below the fused minimum. -/
def bootChoice (f : Flash) : Option Nat :=
  (List.range f.images.length).find? (fun i => match f.images[i]? with
    | none => false
    | some x => x.1 && decide (f.minVer ≤ x.2))

/-- Firmware erases the stale drain areas and reports the valid image with the greater GEN (R451). -/
def eraseStale (f : Flash) : Flash :=
  match newerArea f with
  | some true => { f with areaB := [], report := some (true, drainGen f.areaA) }
  | some false => { f with areaA := [], report := some (false, drainGen f.areaB) }
  | none => { f with areaA := [], areaB := [], report := none }

/-- Cold reset: every table takes its reset column, and the image that boots writes the indirection entries. Board flash, what is
fused, and what has gone to the outside stay. -/
def execColdReset (s : State) : Out :=
  let flash := eraseStale { s.flash with running := bootChoice s.flash }
  .next { State.reset with
    mem := { Mem.reset with booted := flash.running.isSome }
    flash := flash, tick := s.tick, nextTag := s.nextTag, nextUid := s.nextUid, agenda := s.agenda, sent := s.sent }

end Sys2Proof.Machine
end

