-- ==== Sys2Proof/Machine/Image.lean ====
section
/-!
DEFINITION. The image of a saved gang (R425 to R427): its bytes as the device writes them, and the gang as it reads them back,
with the first byte that the checks of R428 find bad. Where in the image a record stands is the device's choice.
-/
namespace Sys2Proof.Machine

open Sys2Proof

def zeros (n : Nat) : List Byte := List.replicate n 0

/-! ### Writing (R425 to R427) -/

def trapBytes (t : TrapRegs) : List Byte :=
  [t.tclass, t.tword, t.tpos, t.tpix, t.tinfo0, t.tinfo1, t.tlanes, t.tsrc].flatMap (fun x => leBytes 8 x.toNat)

/-- A thread: the return stack stands oldest address first. -/
def threadBytes (g : Group) (l : Nat) : List Byte :=
  let i := g.frags.findIdx (fun f => lane f.lanes l)
  let f := g.frags[i]?
  let stack := (tget [] g.rstack l).reverse
  let fl := (lane (liveLanes g) l).toNat + 2 * (lane g.exited l).toNat + 4 * (lane g.arrTeam l).toNat +
    8 * (lane g.arrGang l).toNat + 16 * stack.length + 512 * (if f.isSome then i else 0)
  leBytes 8 ((f.map (·.pc)).getD 0) ++ leBytes 4 ((f.map (·.pix)).getD 0) ++ leBytes 4 fl ++ leBytes 8 (tget 0 g.bcur l).toNat ++
    leBytes 4 (rngOf g l).toNat ++ zeros 4 ++ (List.range 16).flatMap (fun k => leBytes 8 ((stack[k]?).getD 0))

/-- Bytes of a group record. -/
def groupSize (w h : Nat) : Nat := (0x300 + 160 * w + 32 * w * h + 255) / 256 * 256

def padTo (n : Nat) (bs : List Byte) : List Byte := bs ++ zeros (n - bs.length)

def groupRecord (g : Group) (gangTrap : TrapRegs) : List Byte :=
  let counter := fun (k : Nat) => counterOf g k
  padTo (groupSize g.width g.held)
    ((List.range 64).flatMap (fun i => leBytes 8 (sreg g i).toNat) ++
     (List.range 8).flatMap (fun i => leBytes 8 (maskReg g i).toNat) ++
     (List.range 12).flatMap (fun k => leBytes 1 (counter k).val) ++
     leBytes 2 ((List.range 12).foldl (fun x k => x + 2 ^ k * (counter k).err.toNat) 0) ++ zeros 2 ++
     leBytes 8 g.round.toNat ++
     leBytes 8 ((List.range 32).foldl (fun x c => x + 2 ^ c * (g.pending.any (fun p => p.cls == c)).toNat) 0) ++
     trapBytes g.regsTrap ++ trapBytes gangTrap ++ zeros 32 ++
     (List.range g.width).flatMap (threadBytes g) ++
     (List.range (8 * g.held)).flatMap (fun i => (List.range g.width).flatMap (fun l => leBytes 4 (vreg g i l).toNat)))

/-- A walker slot: the pending-trap byte is 1 for a node that a trap has parked. -/
def slotBytes (x : Slot) : List Byte :=
  leBytes 1 x.state ++ leBytes 1 (x.r % 256).toNat ++ leBytes 1 x.h ++ leBytes 1 x.phase ++
    leBytes 1 (x.phase == 3 && !x.thaw).toNat ++ zeros 11 ++ padTo 64 (x.record.take 64)

def postBytes (p : Post) : List Byte :=
  leBytes 2 p.slot ++ leBytes 2 p.left ++ leBytes 1 p.setb ++ leBytes 1 p.gid ++ zeros 2

/-- An atile of a core. -/
def atileBytes (c : Core) (n : Nat) : List Byte := (List.range 1024).flatMap (fun i => leBytes 4 (tget 0 c.atiles (1024 * n + i)).toNat)

/-- A team's record; the atiles of a team that has retired, whose run is released, are written as zeros (log entry 58). -/
def teamRecord (t : Team) (acc : Nat) (c : Core) : List Byte :=
  padTo 0x1000 (leBytes 8 t.ringBase ++ leBytes 1 t.ringLog ++ zeros 7 ++
    (List.range 512).flatMap (fun i => leBytes 4 (tget 0 t.index i).toNat)) ++
  (List.range acc).flatMap (fun i => if i < t.acc then atileBytes c (t.atiles + i) else zeros 4096) ++
  (List.range (ringSize t)).flatMap (fun j => slotBytes (slotOf t j)) ++
  leBytes 4 t.posts.length ++ t.posts.flatMap postBytes

/-- A transfer's operands in 48 bytes. -/
def operandBytes (t : Transfer) : List Byte :=
  if t.kind = 1 then t.operands.flatMap (leBytes 8)
  else
    let o := CopyOps.ofList t.operands
    leBytes 8 o.dst ++ leBytes 8 o.src ++ leBytes 4 o.cw ++ leBytes 4 o.rows ++ leBytes 4 o.sp ++ leBytes 4 o.dp ++ leBytes 8 o.idx ++
      leBytes 8 o.form

def transferBytes (s : State) (t : Transfer) : List Byte :=
  let g := t.group.bind (groupOf s)
  let setb := ((t.op.bind (tfind s.ops)).bind (·.counter)).getD 15
  leBytes 1 ((g.map (·.team)).getD 0) ++ leBytes 1 ((g.map (·.gid)).getD 0) ++ leBytes 1 t.lane ++ leBytes 1 setb ++
    leBytes 1 t.kind ++ zeros 3 ++ leBytes 8 t.progress ++ padTo 48 (operandBytes t)

/-- A barrier record as R234 lays it out, of a team or, with scope 1, of the gang. -/
def barrierBytes (scope team : Nat) (b : Barrier) : List Byte :=
  leBytes 4 b.gen.toNat ++ leBytes 4 (b.acount + 128 * scope + 256 * team) ++ leBytes 8 b.amask.toNat

/-- How a group stopped: 3 held at R195 or R339, 1 at a word, 2 in BAR or BARW, 0 at safe points. -/
def stopCode (g : Group) : Nat :=
  let any := fun (p : Hold → Bool) => g.frags.any (fun f => p f.hold)
  if any (fun h => match h with
    | .noFrame .. | .regen _ => true
    | _ => false) then 3
  else if any (fun h => match h with
    | .bar .. | .barw .. => true
    | _ => false) then 2
  else if g.frags.any (fun f => f.clause.isSome) then 1 else 0

/-- The places of some records, one after another. -/
def placesFrom (start : Nat) : List (List Byte) → List Nat
  | [] => []
  | b :: bs => start :: placesFrom (start + (b.length + 255) / 256 * 256) bs

/-- The transfers of a gang that are saved: the halted ones. -/
def haltedOf (s : State) (uid : Nat) : List (Nat × Transfer) :=
  s.transfers.filter (fun t => t.2.gang == uid && t.2.kind != 2 && t.2.halted)

/-- The image of a gang, its slot header first. -/
def gangImage (s : State) (uid : Nat) (q : Gang) (l : Launch) (state : Nat) : List Byte :=
  let groups := (groupsOf s uid).map (·.2)
  let records := groups.map (fun g => groupRecord g q.regsTrap)
  let teams := (List.range q.teams.length).filterMap (fun t => (q.teams[t]?).map (fun x => teamRecord x (recAcc l) (coreOf s (ringCore s uid t))))
  let halted := (haltedOf s uid).map (·.2)
  let list := halted.flatMap (transferBytes s)
  let places := placesFrom 0x400 (records ++ teams ++ [list])
  let size := ((places.getLast?).getD 0x400) + list.length
  let dirOf := fun (i : Nat) =>
    let k := groups.findIdx (fun g => 16 * g.team + g.gid == i)
    match groups[k]? with
    | none => zeros 8
    | some g => leBytes 4 ((places[k]?).getD 0) ++ leBytes 1 g.held ++ leBytes 1 (stopCode g) ++ zeros 2
  let teamDir := fun (t : Nat) => if t < teams.length then leBytes 4 ((places[groups.length + t]?).getD 0) ++ zeros 4 else zeros 8
  let bars := (List.range 4).flatMap (fun t => barrierBytes 0 t (((q.teams[t]?).map (·.barrier)).getD Barrier.reset)) ++
    barrierBytes 1 0 q.barrier
  let header := leBytes 4 state ++ leBytes 4 q.index ++ leBytes 8 l.seq ++ leBytes 1 ((q.cores.headD 0) / 16) ++
    leBytes 1 (recShape l) ++ leBytes 1 (recGteams l) ++ leBytes 1 (recTeam l) ++ leBytes 1 (recWidth l) ++ leBytes 1 (recRegs l) ++
    leBytes 1 (recB1 l) ++ leBytes 1 (recB2 l) ++ leBytes 1 (recB3 l) ++ leBytes 1 (recFlags l) ++ zeros 6 ++
    leBytes 8 (recCbase l) ++ leBytes 4 (recScratch l) ++ leBytes 2 (recAcc l) ++ leBytes 2 (recSpmin l) ++ leBytes 8 (recSpbase l) ++
    leBytes 4 size ++ leBytes 4 halted.length ++ bars ++ zeros 112 ++
    (List.range 64).flatMap dirOf ++ (List.range 4).flatMap teamDir ++ leBytes 4 ((places.getLast?).getD 0) ++ zeros 220
  (records ++ teams ++ [list]).zip places |>.foldl (fun bs x => padTo x.2 bs ++ x.1) header

/-! ### The checks of a restore (R428) -/

/-- A group of an image: its team and %gid, where its record stands and its held count. -/
structure ImgGroup where
  team : Nat
  gid  : Nat
  at0  : Nat
  held : Nat
deriving DecidableEq, Repr, Inhabited

def imageGroups (bs : List Byte) : List ImgGroup :=
  (List.range 64).filterMap (fun i =>
    let o := field bs (0x100 + 8 * i) 4
    if o = 0 then none else some ⟨i / 16, i % 16, o, field bs (0x104 + 8 * i) 1⟩)

def heldOk (h : Nat) : Bool := decide (1 ≤ h) && decide (h ≤ 24)

/-- FL of a thread of a record. -/
def threadAt (o l : Nat) : Nat := o + 0x300 + 160 * l
def threadFl (bs : List Byte) (o l : Nat) : Nat := field bs (threadAt o l + 12) 4

/-- The reserved bytes of an image, as runs of place and length. -/
def reservedRuns (bs : List Byte) (width : Nat) : List (Nat × Nat) :=
  [(0x1A, 6), (0x90, 112), (0x324, 220)] ++ (List.range 5).map (fun i => (0x46 + 16 * i, 2)) ++ (List.range 64).map (fun i => (0x106 + 8 * i, 2)) ++
  (List.range 4).map (fun i => (0x304 + 8 * i, 4)) ++
  (imageGroups bs).flatMap (fun g =>
    [(g.at0 + 0x24E, 2), (g.at0 + 0x25C, 4), (g.at0 + 0x2E0, 32)] ++
    (List.range width).flatMap (fun l => [(threadAt g.at0 l + 14, 2), (threadAt g.at0 l + 28, 4)])) ++
  (List.range 4).flatMap (fun t =>
    let o := field bs (0x300 + 8 * t) 4
    if o = 0 then [] else
      let acc := field bs 0x2C 2
      let log := field bs (o + 8) 1
      let n := if log = 0 || 10 < log then 0 else 2 ^ log
      let slots := o + 0x1000 + 4096 * acc
      (o + 9, 7) :: (List.range n).map (fun j => (slots + 80 * j + 5, 11)) ++
        (List.range (field bs (slots + 80 * n) 4 % 65536)).map (fun k => (slots + 80 * n + 4 + 8 * k + 6, 2))) ++
  (List.range (field bs 0x3C 4 % 65536)).map (fun k => (field bs 0x320 4 + 64 * k + 5, 3))

/-- The places of bytes that are out of range: a held count, or a fragment number of a live thread. -/
def rangeFaults (bs : List Byte) (width : Nat) : List Nat :=
  (List.range 64).filterMap (fun i =>
    if field bs (0x100 + 8 * i) 4 != 0 && !heldOk (field bs (0x104 + 8 * i) 1) then some (0x104 + 8 * i) else none) ++
  (imageGroups bs).flatMap (fun g => (List.range width).filterMap (fun l =>
    if width ≤ bits (threadFl bs g.at0 l) 9 6 then some (threadAt g.at0 l + 13) else none))

/-- The lowest byte of an image that the checks find bad. -/
def imageBad (bs : List Byte) (width : Nat) : Option Nat :=
  let zero := (reservedRuns bs width).flatMap (fun r => ((List.range r.2).map (· + r.1)).filter (fun i => field bs i 1 != 0))
  (zero ++ rangeFaults bs width).foldl (fun b i => match b with
    | none => some i
    | some j => some (min i j)) none

/-! ### Reading -/

/-- Words of a run as a table of what is not zero. -/
def tableOf {α : Type} [DecidableEq α] (d : α) (n : Nat) (f : Nat → α) : Table α :=
  (List.range n).filterMap (fun i => if f i = d then none else some (i, f i))

def dwordAt (bs : List Byte) (o : Nat) : Dword := BitVec.ofNat 64 (field bs o 8)

def trapAt (bs : List Byte) (o : Nat) : TrapRegs :=
  ⟨dwordAt bs o, dwordAt bs (o + 8), dwordAt bs (o + 16), dwordAt bs (o + 24), dwordAt bs (o + 32), dwordAt bs (o + 40),
    dwordAt bs (o + 48), dwordAt bs (o + 56)⟩

/-- A fragment as it goes on: a fragment at the same word as the one that was saved under its number keeps what the image does not
hold, and waits at a barrier as it did; any other stands at a header. -/
def restoredFrag (saved : Option Frag) (m : Dword) (pc pix clock : Nat) : Frag :=
  match saved with
  | none => { fragAtHeader m pc clock with pix := pix }
  | some f =>
    if f.pc != pc then { fragAtHeader m pc clock with pix := pix }
    else
      let hold := match f.hold with
        | .bar g a => Hold.bar g a
        | .barw g n => .barw g n
        | .frozen => .frozen
        | _ => .ready
      { f with lanes := m, pix := pix, hold := hold, since := clock, probe := [], age := clock }

/-- The fragments of a record: threads of one number form one. -/
def restoredFrags (bs : List Byte) (o width : Nat) (saved : List Frag) (clock : Nat) : List Frag :=
  (List.range 64).filterMap (fun n =>
    let m := maskOf (fun l => decide (l < width) && bits (threadFl bs o l) 0 2 == 1 && bits (threadFl bs o l) 9 6 == n)
    if m = 0 then none
    else
      let t := threadAt o (lowest m)
      some (restoredFrag (saved[n]?) m (field bs t 8) (field bs (t + 8) 4) clock))

/-- A group as its record gives it, over what the package kept of it, in the slot, quarter and base that it has now. -/
def restoredGroup (bs : List Byte) (o : Nat) (kept now : Group) (clock : Nat) : Group :=
  let w := now.width
  let h := now.held
  let regs := o + 0x300 + 160 * w
  let flag := fun (i : Nat) => maskOf (fun l => decide (l < w) && bit (threadFl bs o l) i)
  let pend := field bs (o + 0x258) 4
  let pending := kept.pending.filter (fun p => bit pend p.cls) ++
    ((List.range 32).filter (fun c => bit pend c && kept.pending.all (fun p => p.cls != c))).map (fun c => ⟨c, 0, 0, 0, none, none⟩)
  { kept with
    gang := now.gang, quarter := now.quarter, base := now.base, width := w, held := h,
    created := flag 0 ||| flag 1, exited := flag 1
    frags := restoredFrags bs o w kept.frags clock
    s := tableOf 0 64 (fun i => dwordAt bs (o + 8 * i))
    m := tableOf 0 8 (fun i => if i = 0 then 0 else dwordAt bs (o + 0x200 + 8 * i) &&& below w)
    counters := (List.range 12).map (fun k =>
      { counterOf kept k with val := field bs (o + 0x240 + k) 1, err := bit (field bs (o + 0x24C) 2) k })
    round := dwordAt bs (o + 0x250)
    pending := pending
    regsTrap := trapAt bs (o + 0x260)
    arrTeam := flag 2, arrGang := flag 3
    bcur := tableOf 0 w (fun l => dwordAt bs (threadAt o l + 16))
    rng := tableOf 0 w (fun l => BitVec.ofNat 32 (field bs (threadAt o l + 24) 4))
    rstack := tableOf [] w (fun l =>
      ((List.range (min 16 (bits (threadFl bs o l) 4 5))).map (fun k => field bs (threadAt o l + 32 + 8 * k) 8)).reverse)
    v := (List.range (8 * h)).flatMap (fun i => (List.range w).filterMap (fun l =>
      let x : Word := BitVec.ofNat 32 (field bs (regs + 4 * (w * i + l)) 4)
      if x = 0 then none else some (64 * i + l, x)))
    stopping := false }

def barrierAt (bs : List Byte) (o : Nat) : Barrier := ⟨BitVec.ofNat 32 (field bs o 4), field bs (o + 4) 1 % 128, dwordAt bs (o + 8)⟩

/-- An unfinished MPOST of an image for which the package has kept none: no counter counts it, and its poster is its group's live
threads. -/
def freshPost (key : Nat) (lanes : Dword) : Post := ⟨none, 0, 0, key, 0, lanes, 15, ⟨0, [], []⟩, 0, 0, none⟩

/-- r of a slot's byte, which holds it mod 256: as it was kept, where that agrees, else as a signed byte. -/
def slotR (kept : Int) (byte : Nat) : Int := if (kept % 256).toNat = byte then kept else signed 8 byte

/-- A team as its record gives it, with the run of atiles that it has now; posters take their new keys. -/
def restoredTeam (bs : List Byte) (t : Nat) (kept now : Team) (key : Nat → Nat) (byGid : Nat → Nat × Dword) : Team :=
  let o := field bs (0x300 + 8 * t) 4
  let log := field bs (o + 8) 1
  let n := if log = 0 || 10 < log then 0 else 2 ^ log
  let slots := o + 0x1000 + 4096 * field bs 0x2C 2
  let slot := fun (j : Nat) =>
    let x := slotOf kept j
    let p := slots + 80 * j
    { x with state := field bs p 1, r := slotR x.r (field bs (p + 1) 1), h := field bs (p + 2) 1, phase := field bs (p + 3) 1,
             thaw := field bs (p + 3) 1 == 3 && field bs (p + 4) 1 == 0
             record := if field bs p 1 = 0 && x.record.isEmpty then [] else (bs.drop (p + 16)).take 64, poster := key x.poster }
  let posts := (List.range (min 1024 (field bs (slots + 80 * n) 4))).map (fun k =>
    let e := slots + 80 * n + 4 + 8 * k
    let who := byGid (field bs (e + 5) 1)
    let p := match kept.posts[k]? with
      | some p => { p with group := key p.group }
      | none => freshPost who.1 who.2
    { p with slot := field bs e 2, left := field bs (e + 2) 2, setb := field bs (e + 4) 1, gid := field bs (e + 5) 1 })
  { kept with
    ringBase := field bs o 8, ringLog := log, slots := tableOf Slot.reset n slot,
    posts := posts, atiles := now.atiles, acc := now.acc
    index := tableOf 0 512 (fun i => BitVec.ofNat 32 (field bs (o + 16 + 4 * i) 4))
    barrier := barrierAt bs (0x40 + 16 * t) }

/-! ### Halted transfers of an image (R427) -/

/-- A halted transfer as its 64 bytes give it. -/
structure ImgTransfer where
  team     : Nat
  gid      : Nat
  lane     : Nat
  setb     : Nat
  kind     : Nat
  progress : Nat
  operands : List Nat
deriving DecidableEq, Repr, Inhabited

def imageTransfer (bs : List Byte) (o : Nat) : ImgTransfer :=
  let kind := field bs (o + 4) 1
  let p := o + 16
  ⟨field bs o 1, field bs (o + 1) 1, field bs (o + 2) 1, field bs (o + 3) 1, kind, field bs (o + 8) 8,
    if kind = 1 then (List.range 5).map (fun i => field bs (p + 8 * i) 8)
    else [field bs p 8, field bs (p + 8) 8, field bs (p + 16) 4, field bs (p + 20) 4, field bs (p + 24) 4, field bs (p + 28) 4,
      field bs (p + 32) 8, field bs (p + 40) 8]⟩

/-- The list at XOFF, as far as the image reaches. -/
def imageTransfers (bs : List Byte) : List ImgTransfer :=
  let o := field bs 0x320 4
  (List.range (min (field bs 0x3C 4) ((bs.length - o) / 64))).map (fun k => imageTransfer bs (o + 64 * k))

/-- A transfer of an image for which the package has kept none: it takes a new number. -/
def freshTransfer (number gang ctx lane : Nat) : Transfer :=
  { number := number, kind := 0, core := 0, group := none, gang := gang, ctx := ctx, lanes := laneBit lane, lane := lane, op := none,
    counter := none, node := none, packet := none, operands := [], engine := none, progress := 0, read := [], halted := true,
    freezes := false, err := false, complete := none, anchor := ⟨0, [], []⟩ }

/-! ### The launch of an image (R425) -/

/-- A launch record with the fields that a slot header holds taken from it. -/
def headerRecord (head base : List Byte) : List Byte :=
  let from' := fun (o n : Nat) => (head.drop o).take n
  let of := fun (o n : Nat) => (padTo 256 base |>.drop o).take n
  of 0 0x10 ++ from' 0x20 8 ++ of 0x18 8 ++ from' 0x14 1 ++ from' 0x13 1 ++ from' 0x12 1 ++ from' 0x11 1 ++ from' 0x15 4 ++
    from' 0x28 8 ++ of 0x30 3 ++ from' 0x19 1 ++ of 0x34 4 ++ from' 0x30 8 ++ of 0x40 0xC0

/-- The atiles of a team's record are written to the run that it has now. -/
def restoreAtiles (s : State) (bs : List Byte) (t core : Nat) (now : Team) : State :=
  let o := field bs (0x300 + 8 * t) 4
  let c := coreOf s core
  let words := (List.range (1024 * now.acc)).map (fun i =>
    (1024 * now.atiles + i, (BitVec.ofNat 32 (field bs (o + 0x1000 + 4 * i) 4) : Word)))
  setCore s core { c with atiles := words.foldl (fun a x => tset 0 a x.1 x.2) c.atiles }

end Sys2Proof.Machine
end

