-- ==== Sys2Proof/Machine/Save.lean ====
section
/-!
DEFINITION. Saving and restoring gangs: SPMIG (R200), CTXSAVE and CTXLOAD with their host registers (R198, R423 to R428), and the
placer of a die (R388, R389).
-/
namespace Sys2Proof.Machine

open Sys2Proof

/-! ### Which gang a value names (R200) -/

/-- The resident gang of the group in the slot that bits 12:0 name. -/
def namedGang (s : State) (v : Nat) : Option (Nat × Gang × Launch) :=
  match groupOf s (128 * bits v 0 6 + bits v 6 7) with
  | none => none
  | some g =>
    match gangOf s g.gang with
    | none => none
    | some q => (launchOf s q.launch).map (fun l => (g.gang, q, l))

/-! ### SPMIG -/

/-- A page's entry in its gang. -/
def pageOf (s : State) (uid p : Nat) : Dword := ((gangOf s uid).map (·.page p)).getD 0

/-- A page's frame is written back and is no longer dirty; a page whose area is not usable stays as it is, with the trap of R188
pending; `false` when a line, or the end of the page's write-back for another fill, must come first. -/
def cleanPage (s : State) (uid p : Nat) : State × Bool :=
  match gangOf s uid with
  | none => (s, true)
  | some q =>
    if q.leaving.contains p then (s, false)
    else if pageState q p != 2 then (s, true)
    else
      let s := settlePage s uid p
      if !PageDirty (pageOf s uid p) then (s, true)
      else
        match evictionState s uid p with
        | (s, .later, _) => (s, false)
        | (s, .bad, va) => (pendBacking s uid va 1, true)
        | (s, .ready, _) =>
          match writeBack s uid p with
          | (s, some va) => (pendBacking s uid va 1, true)
          | (s, none) =>
            let e := pageOf s uid p
            match writeEntry s uid p (pageEntry (PageMap e) (PageRes e) false (PagePois e) (PageHome e) (PageFrame e) (PagePin e)) with
            | (s, true) => (s, true)
            | (s, false) => (pendBacking s uid (entryVaOf s uid p) 1, true)

def cleanPages (uid : Nat) : List Nat → State → State × Bool
  | [], s => (s, true)
  | p :: ps, s =>
    match cleanPage s uid p with
    | (s, false) => (s, false)
    | (s, true) => cleanPages uid ps s

/-- The pages of a gang that have an entry. -/
def pagesOf (s : State) (uid : Nat) : List Nat := ((gangOf s uid).map (fun q => q.pages.map (·.1))).getD []

/-- Every resident page that is clean and not pinned leaves its frame; one whose entry cannot be written stays, with the trap of R188
pending. The pages have been cleaned just before, so that a dirty one is one that could not be. -/
def evictPages (s : State) (uid : Nat) : State :=
  (pagesOf s uid).foldl (fun s p =>
    match gangOf s uid with
    | none => s
    | some q =>
      let e := q.page p
      if pageState q p = 2 && !PageDirty e && PagePin e = 0 then
        (match releasePage s uid p false with
         | (s, true) => s
         | (s, false) => pendBacking s uid (entryVaOf s uid p) 1)
      else s) s

/-- SPMIG: every dirty frame of the gang is written back, and in mode 1 every unpinned frame released. -/
def spmigWord (s : State) (u : Issue) (l : Launch) (sa sb : Nat) : Out :=
  match namedGang s sa with
  | none => if u.f.hold = .word then .next (finish s u) else illegalWord s u (causeCode 200 1)
  | some (uid, _, x) =>
    if x.part != l.part then illegalWord s u (causeCode 200 2)
    else if 2 ^ 13 ≤ sa then illegalWord s u (causeCode 200 3)
    else if 1 < sb then illegalWord s u (causeCode 200 4)
    else
      match cleanPages uid (pagesOf s uid) s with
      | (s, false) => .next (holdUnit s u .word)
      | (s, true) => .next (finish (if sb = 1 then evictPages s uid else s) u)

def execSpmigClean (a b : Opnd) (s : State) : Out := systemOp s a b (fun u l sa sb => spmigWord s u l sa sb)
def execSpmigEvict (s : State) : Out := systemRow s (fun _ u l sa sb => spmigWord s u l sa sb)

/-! ### The save area of a context (R407) -/

/-- SAVEBASE, SAVEN and SLOTLOG of a context. -/
structure SaveArea where
  base : Nat
  n    : Nat
  log  : Nat
deriving DecidableEq, Repr, Inhabited

def saveArea (s : State) (ctx : Nat) : SaveArea :=
  let r := peekDpa s (ctxRecord s ctx) 64
  ⟨field r 0x28 8, field r 0x30 4, field r 0x34 1⟩

def SaveArea.slot (a : SaveArea) (j : Nat) : Nat := a.base + j * 2 ^ a.log

/-- What the search for a free slot finds. -/
inductive SlotFound where
  | slot (j : Nat)
  | none
  | later
  | bad (va : Nat)
deriving DecidableEq, Repr, Inhabited

/-- Bytes that the device reads: they are there, must be waited for, or cannot be read. -/
def deviceRead (s : State) (w : Who) (va n : Nat) : State × Except (Option Nat) (List Byte) :=
  match loadMany s w va n with
  | (s, .ok bs) => (s, .ok bs)
  | (s, .error (b, va)) =>
    match engineStop s w b va with
    | (s, .wait) | (s, .noFrame _) => (s, .error none)
    | (s, _) => (s, .error (some va))

/-- The lowest slot whose STATE is 0 and that no save in progress has taken. -/
def freeSlot (s : State) (w : Who) (a : SaveArea) (taken : List Nat) : List Nat → State × SlotFound
  | [] => (s, .none)
  | j :: js =>
    if taken.contains j then freeSlot s w a taken js
    else
      match deviceRead s w (a.slot j) 4 with
      | (s, .error none) => (s, .later)
      | (s, .error (some va)) => (s, .bad va)
      | (s, .ok bs) => if leNat bs = 0 then (s, .slot j) else freeSlot s w a taken js

/-! ### The stop (R416, R424) -/

/-- The fragments of a gang's groups go on where they were stopped. -/
def resumeGang (s : State) (uid : Nat) : State :=
  (groupsOf s uid).foldl (fun s x => modGroup s x.1 (fun g =>
    { g with stopping := false, frags := g.frags.map (fun f => if f.hold = .stopped then f.holding .ready s.clock else f) })) s

/-- Whether a fragment stands stopped: at a safe point, in BAR or BARW, held under R192 or R339, or at the word at which its
frozen context stopped it (R404). -/
def fragStopped (frozen : Bool) (f : Frag) : Bool :=
  match f.hold with
  | .stopped | .bar .. | .barw .. | .noFrame .. | .regen _ => true
  | .frozen => f.clause.isNone || frozen
  | _ => false

def gangStopped (s : State) (uid : Nat) : Bool :=
  let frozen := ((gangCtx s uid).map (fun c => (ctxOf s c).frozen)).getD false
  (groupsOf s uid).all (fun x => x.2.frags.all (fragStopped frozen) && x.2.rdv.isEmpty)

/-- Whether a fragment has stopped, at a trap that it has met among others (R416), or cannot go on before a trap that has been taken is
over: takeover carries trap modes with it, and a debug halt finds it as it is (R429, R464). -/
def fragAtRest (frozen : Bool) (key : Nat) (g : Group) (q : Gang) (f : Frag) : Bool :=
  q.climbed.isSome || !trapAllows key g q f || f.hold == .vector || fragStopped frozen f

def gangAtRest (s : State) (uid : Nat) : Bool :=
  let frozen := ((gangCtx s uid).map (fun c => (ctxOf s c).frozen)).getD false
  match gangOf s uid with
  | none => true
  | some q => (groupsOf s uid).all (fun x => x.2.frags.all (fragAtRest frozen x.1 x.2 q) &&
      (x.2.rdv.isEmpty || x.2.mode.isSome || q.mode.isSome || q.climbed.isSome))

/-- A gang that is to halt for debug, once every group has stopped, is halted: the trap registers are written as for delivery, HALTED
is set and the error message sent (R464). -/
def settleHalts (s : State) : State :=
  s.gangs.foldl (fun s x =>
    match gangOf s x.1, gangCtx s x.1 with
    | some q, some ctx =>
      (match q.halted with
       | none => s
       | some h =>
         if h.told || !gangAtRest s x.1 then s
         else
           let q := { q with halted := some { h with told := true, since := s.clock } }
           msix (match h.key with
             | none => setGang s x.1 { q with regsTrap := h.regs }
             | some key => modGroup (setGang s x.1 q) key (fun g => { g with regsTrap := h.regs })) (ctxPart s ctx) true)
    | _, _ => s) s

/-- A gang whose trap mode, at any rung, keeps it from being saved. -/
def inTrapMode (s : State) (uid : Nat) (q : Gang) : Bool :=
  q.mode.isSome || q.climbed.isSome || (groupsOf s uid).any (fun x => x.2.mode.isSome)

/-- What a request for a save meets. -/
inductive SaveStart where
  | begun
  | later
  | code (n : Nat)
deriving DecidableEq, Repr, Inhabited

/-- A save is asked for: it takes a slot and asks every group to stop. -/
def beginSave (s : State) (uid : Nat) (q : Gang) (l : Launch) (mode : Nat) (asker : Option Asker) (fn : Option Nat) :
    State × SaveStart :=
  if s.saves.any (fun v => v.gang == uid) then (s, .later)
  else if inTrapMode s uid q then (s, .code 4)
  else
    let a := saveArea s l.ctx
    let taken := (s.saves.filter (fun v => gangCtx s v.gang == some l.ctx)).map (·.slot)
    if a.base = 0 then (s, .code 1)
    else
      match freeSlot s (whoCtx s l.ctx true) a taken (List.range a.n) with
      | (s, .none) => (s, .code 1)
      | (s, .later) => (s, .later)
      | (s, .bad va) => (pendBacking s uid va 1, .code 5)
      | (s, .slot j) =>
        let s := (groupsOf s uid).foldl (fun s x => modGroup s x.1 (fun g => { g with stopping := true })) s
        ({ s with saves := s.saves ++ [⟨uid, j, mode, s.clock, asker, fn⟩] }, .begun)

/-! ### The end of a save -/

/-- A gang that takeover cannot save is killed and relaunched, or its context told (R429, R431). -/
def killForTakeover (s : State) (uid : Nat) : State :=
  match gangOf s uid, gangCtx s uid with
  | some q, some ctx =>
    let unit := unitCore s (q.cores.headD 0)
    match killGang s uid true with
    | (s, true) => s
    | (s, false) => toContext s uid ctx q.index ⟨21, 0, BitVec.ofNat 64 unit, 2, none, none⟩
  | _, _ => s

/-- GSAVE and GLOAD, whose result reads back under the offset. -/
def GSAVE_AT : Nat := 0x490000
def GLOAD_AT : Nat := 0x490010

/-- A save's result goes to who asked for it. -/
def answerSave (s : State) (v : Save) (code : Nat) : State :=
  let s := { s with saves := s.saves.filter (fun x => x.gang != v.gang) }
  let result := if code = 0 then 2 ^ 16 * v.slot else code
  match v.asker, v.fn with
  | some a, _ => postResult s a result
  | none, some _ => { s with results := tput s.results GSAVE_AT (BitVec.ofNat 64 result) }
  | none, none => if code = 0 then s else killForTakeover s v.gang

/-- A save is given up, and the gang resumes in place. -/
def abandonSave (s : State) (v : Save) (code : Nat) : State := answerSave (resumeGang s v.gang) v code

/-- Whether an operation is one that a saved counter may still count: a halted transfer's, an unfinished post's, or a word's that
stopped half way. -/
def opKept (s : State) (uid id : Nat) (o : Op) : Bool :=
  (haltedOf s uid).any (fun t => t.2.op == some id) ||
  ((gangOf s uid).map (fun q => q.teams.any (fun t => t.posts.any (fun p => p.op == some id)))).getD false ||
  (!o.issued && o.waits == 0)

/-- Whether a stopped gang has drained (R28, R197, R230, R243, R267). -/
def gangDrained (s : State) (uid : Nat) (q : Gang) : Bool :=
  let keys := (groupsOf s uid).map (·.1)
  (groupsOf s uid).all (fun x => x.2.spills.isEmpty) &&
  s.ops.all (fun o => !keys.contains o.2.group || opKept s uid o.1 o.2) &&
  s.requests.all (fun r => 2 < r.kind || !keys.contains r.group) &&
  s.transfers.all (fun t => t.2.gang != uid || t.2.kind == 2 || t.2.halted || t.2.complete.isSome) &&
  q.fills.isEmpty && q.leaving.isEmpty &&
  q.teams.all (fun t => t.slots.all (fun x => x.2.phase != 2 && (x.2.trans.bind (tfind s.transfers)).all (·.complete.isNone)))

/-- Nodes in gather are ready again, with no claim, loads have landed, and engine writes have reached their global places. -/
def drainGang (s : State) (uid : Nat) : State :=
  let keys := (groupsOf s uid).map (·.1)
  let s := match gangOf s uid with
    | none => s
    | some q => (List.range q.teams.length).foldl (fun (s : State) (t : Nat) => match q.teams[t]? with
      | none => s
      | some x => (x.slots.filter (fun (y : Nat × Slot) => y.2.phase == 1)).foldl (fun (s : State) (y : Nat × Slot) => dropClaimsEverywhere s (takerNode uid t y.1)) s) s
  let s := (s.ops.filter (fun (o : Nat × Op) => keys.contains o.2.group)).foldl (fun s o => landAll s o.1) s
  let s := applyPlaces s (fun p => ((tfind s.transfers p.transfer).map (fun t => t.gang == uid && t.kind != 2)).getD false)
  match gangOf s uid with
  | none => s
  | some q => setGang s uid { q with teams := q.teams.map (fun t => { t with slots := t.slots.map (fun x =>
      (x.1, if x.2.phase = 1 then { x.2 with state := 2, phase := 0, engine := none, latch := [] } else x.2)) }) }

/-- The stopped trap of a debug halt waits in its group again (R464). -/
def pendHalt (s : State) (uid : Nat) (q : Gang) : State :=
  match q.halted with
  | none => s
  | some h =>
    let key := h.key.orElse (fun _ => (firstLiveGroup s uid).map (·.1))
    match key with
    | none => s
    | some k => addPending s k h.trap

/-- The places of the lines that a store of a run of bytes touches. -/
def linesFrom (va n : Nat) : List Nat := (List.range ((n + 127) / 128)).map (fun i => va + 128 * i)

/-- Whether the device may store to every one of some places now. -/
def storeStates (s : State) (w : Who) : List Nat → State × Area × Nat
  | [] => (s, .ready, 0)
  | va :: rest =>
    match leafOf s w .store false va with
    | (s, .error (.wait line)) => (askLine s line, .later, va)
    | (s, .error _) => (s, .bad, va)
    | (s, .ok e) =>
      match destOf s w e va with
      | .ok _ => storeStates s w rest
      | .error (.wait line) => (askLine s line, .later, va)
      | .error (.dropped f rg) =>
        let r := areaDropped s w f va rg
        (r.1, r.2, va)
      | .error _ => (s, .bad, va)

/-- The pages of a gang that hold a frame, for their write-back and their entries. -/
def residentPages (q : Gang) : List Nat := (q.pages.filter (fun x => PageRes x.2)).map (·.1)

/-- Some pages leave their frames, keeping their homes where they are pinned (R198); the page whose entry cannot be written, if one
cannot. -/
def releasePages (uid : Nat) : List Nat → State → State × Option Nat
  | [], s => (s, none)
  | p :: ps, s =>
    if !PageRes (pageOf s uid p) then releasePages uid ps s
    else
      match releasePage s uid p (PagePin (pageOf s uid p) != 0) with
      | (s, true) => releasePages uid ps s
      | (s, false) => (s, some p)

/-- A save that a backing area has stopped: the gang resumes in place, its pinned pages made resident again first. -/
def failSave (s : State) (v : Save) (va : Nat) : State :=
  let s := abandonSave (pendBacking s v.gang va 1) v 5
  match gangOf s v.gang with
  | none => s
  | some q => setGang s v.gang { q with pinning := (q.pages.filter (fun e => PagePin e.2 != 0 && !PageRes e.2)).map (·.1) }

/-- What the package keeps of a gang beside its image. -/
def keepGang (s : State) (uid : Nat) (q : Gang) : Kept :=
  let groups := groupsOf s uid
  let keys := groups.map (·.1)
  ⟨q.launch, q.index, q, groups, s.ops.filter (fun o => keys.contains o.2.group), haltedOf s uid⟩

/-- A drained gang is written to its slot and leaves its unit, or resumes in place. -/
def writeSave (s : State) (v : Save) (q : Gang) (l : Launch) : State :=
  let uid := v.gang
  let s := drainGang s uid
  let q := (gangOf s uid).getD q
  let a := saveArea s l.ctx
  let w := whoCtx s l.ctx true
  let image := gangImage s uid q l 2
  if 2 ^ a.log < image.length then abandonSave s v 3
  else
    let backings := (residentPages q).flatMap (fun p => pageVas l q.index p (PageDirty (q.page p)))
    match areaStates s (whoPager q l) backings with
    | (s, .later, _) => s
    | (s, .bad, va) => abandonSave (pendBacking s uid va 1) v 5
    | (s, .ready, _) =>
      match storeStates s w (linesFrom (a.slot v.slot) image.length) with
      | (s, .later, _) => s
      | (s, .bad, va) => abandonSave (pendBacking s uid va 1) v 5
      | (s, .ready, _) =>
      match cleanPages uid (residentPages q) s with
      | (s, false) => s
      | (s, true) =>
      match (residentPages q).find? (fun p => PageDirty (pageOf s uid p)) with
      | some p => failSave s v (backingVa l q.index p)
      | none =>
      match releasePages uid (residentPages q) s with
      | (s, some p) => failSave s v (entryVa l q.index p)
      | (s, none) =>
        let s := pendHalt s uid q
        let q := { (gangOf s uid).getD q with halted := none }
        let s := (deviceStoreAll s w (a.slot v.slot) (pieces16 (gangImage s uid q l 2))).1
        let kept := s.kept.filter (fun k => !(k.launch == q.launch && k.index == q.index)) ++ [keepGang s uid q]
        let s := { dropGang s uid with kept := kept }
        let s := match launchOf s q.launch with
          | none => s
          | some l => setLaunch s q.launch { l with
              saved := l.saved ++ [(q.index, v.slot)], urgent := if v.mode = 1 then insertNat q.index l.urgent else l.urgent }
        answerSave s v 0

/-! ### Pages that no word asks for (R196 to R198) -/

/-- Whether something of a gang may still ask for a page whose fill has failed. -/
def pageWanted (s : State) (uid : Nat) (q : Gang) (p : Nat) : Bool :=
  q.pinning.contains p || s.transfers.any (fun t => t.2.gang == uid && t.2.complete.isNone) || q.teams.any (fun t => !t.slots.isEmpty || !t.posts.isEmpty) ||
  (groupsOf s uid).any (fun x => x.2.spills.any (fun y => y.sva / 2048 == p) || x.2.frags.any (fun f => match f.hold with
    | .page sva => sva / 2048 == p
    | .pageKept sva => sva / 2048 == p
    | _ => false))

/-- The trap of R188 for the fill of a page that waiting stores name: it waits in the group of the first of them, and stops a save. -/
def spillBacking (s : State) (uid key va cause : Nat) : State :=
  match s.saves.find? (fun v => v.gang == uid) with
  | some v => abandonSave (pendBacking s uid va cause) v 5
  | none =>
    let p : Pending := ⟨11, BitVec.ofNat 64 va, BitVec.ofNat 64 cause, 1, none, none⟩
    modGroup s key (fun g => if g.pending.contains p then g else { g with pending := g.pending ++ [p] })

/-- A page that waiting stores name gets a fill, at home on the core of the first of them; stores of a page that is resident are applied.
In trap mode a failure of the fill is not told, and is met again when that ends. -/
def settleSpill (s : State) (uid p : Nat) : State :=
  match spillsFor s uid p, gangOf s uid with
  | (key, _) :: _, some q =>
    let trapped := q.mode.isSome || ((groupOf s key).bind (·.mode)).isSome
    match needPage s uid p (memberOf q (coreOfKey key)) with
    | (s, .resident) => emptySpills s uid p true
    | (s, .bad va cause) => if trapped then s else spillBacking s uid key va cause
    | (s, _) => s
  | _, _ => s

/-- A pinned page of a restored gang becomes resident at its home, or the backing trap is taken before any group issues. -/
def settlePinned (s : State) (uid p : Nat) : State :=
  match gangOf s uid with
  | none => s
  | some q =>
    if !q.pinning.contains p then s
    else
      let drop := fun (s : State) (keep : Nat → Bool) => match gangOf s uid with
        | none => s
        | some q => setGang s uid { q with pinning := q.pinning.filter keep }
      match needPage s uid p (PageHome (q.page p)) with
      | (s, .resident) => drop s (· != p)
      | (s, .bad va cause) =>
        takeGangTrap (drop s (fun _ => false)) uid { cls := 11, info0 := BitVec.ofNat 64 va, info1 := BitVec.ofNat 64 cause }
      | (s, _) => s

/-- What the pager does between steps for waiting stores and for restored gangs. -/
def settlePages (s : State) : State :=
  s.gangs.foldl (fun s x =>
    let pages := ((groupsOf s x.1).flatMap (fun g => g.2.spills.map (fun y => y.sva / 2048))).eraseDups
    let s := pages.foldl (fun s p => settleSpill s x.1 p) s
    let s := x.2.pinning.foldl (fun s p => settlePinned s x.1 p) s
    if x.2.failed.isEmpty then s
    else match gangOf s x.1 with
      | none => s
      | some q => setGang s x.1 { q with failed := q.failed.filter (fun y => pageWanted s x.1 q y.1) }) s

/-- The saves whose gangs have stopped and drained go on, between steps. -/
def settleSaves (s : State) : State :=
  s.saves.foldl (fun s v =>
    match gangOf s v.gang with
    | none => s
    | some q =>
      match launchOf s q.launch with
      | none => s
      | some l =>
        if inTrapMode s v.gang q then abandonSave s v 4
        else if gangStopped s v.gang && gangDrained s v.gang q then
          (let t := readWhole s v.gang
           if (gangOf t v.gang).isSome then writeSave t v q l else t)
        else s) s

/-- The clocks that a save waits for groups to stop: 1 ms. -/
def saveClocks : Nat := 1050000

/-- A gang that still runs 1 ms after its save asked it to stop resumes. -/
def execCtxsaveStopTimeout (s : State) : Out :=
  match s.saves.find? (fun v => v.gang == s.input.key) with
  | none => .next s
  | some v => if s.clock < v.since + saveClocks || gangStopped s v.gang then .next s else .next (abandonSave s v 2)

/-! ### CTXSAVE (R424) -/

def ctxsaveWord (s : State) (u : Issue) (l : Launch) (b : Opnd) (sa sb : Nat) : Out :=
  let me := askerOf s u
  match takeResult s u with
  | (s, some code) => finishScalar s u b code
  | (s, none) =>
    if s.saves.any (fun v => v.asker == some me) then .next (holdUnit s u .word)
    else
      match namedGang s sa with
      | none => if u.f.hold = .word then finishScalar s u b 4 else illegalWord s u (causeCode 200 1)
      | some (uid, q, x) =>
        if 2 ^ 13 ≤ sa then illegalWord s u (causeCode 200 3)
        else if 1 < sb then illegalWord s u (causeCode 424 0)
        else if x.part != l.part then breach s u 9
        else
          match beginSave s uid q x sb (some me) none with
          | (s, .code n) => finishScalar s u b n
          | (s, _) => .next (holdUnit s u .word)

def execCtxsave (a b : Opnd) (s : State) : Out := systemOp s a b (fun u l sa sb => ctxsaveWord s u l b sa sb)
def execCtxsaveReplace (s : State) : Out := systemRow s (fun b u l sa sb => ctxsaveWord s u l b sa sb)

/-- The partition that a host function is bound to; PF0 is bound to none. -/
def fnPart (s : State) (fn : Nat) : Option Nat := if fn = 0 then none else (s.funcs[fn]?).map (·.part)

def ownPart (s : State) : Option Nat := fnPart s s.input.fn

/-- A result of GSAVE or GLOAD, which the host reads back. -/
def giveResult (s : State) (at0 n : Nat) : State := { s with results := tput s.results at0 (BitVec.ofNat 64 n) }

/-- A save that a host function has asked for begins, waits with its answer until it can, or has its answer; a gang that has gone
meanwhile is in no state that can be saved. -/
def hostSave (s : State) (fn value mode : Nat) : State :=
  match namedGang s value with
  | none => giveResult s GSAVE_AT 4
  | some (uid, q, l) =>
    match beginSave s uid q l mode none (some fn) with
    | (s, .code n) => giveResult s GSAVE_AT n
    | (s, .begun) => s
    | (s, .later) => { s with calls := s.calls ++ [⟨fn, false, value, 0, mode⟩] }

/-- GSAVE: the word acts for a privileged group of the named gang's partition. A value that the word would trap on has no effect. -/
def gsaveOp (s : State) (mode : Nat) : Out :=
  let value := s.input.value.toNat
  match namedGang s value with
  | none => latchedAct s GSAVE_AT (ownPart s) (fun s => .next s)
  | some (_, _, l) =>
    latchedAct s GSAVE_AT (some l.part) (fun s => .next (if 2 ^ 13 ≤ value then s else hostSave s s.input.fn value mode))

def execGsave (s : State) : Out := gsaveOp s 0
def execGsaveReplace (s : State) : Out := gsaveOp s 1

/-! ### Restore (R428) -/

inductive Restored where
  | done
  | unfit
  | later
deriving DecidableEq, Repr, Inhabited

/-- What is wrong with what a restore has read: the backing trap's cause and the VA. -/
abbrev RestoreBad := Option (Nat × Nat)

/-- The image of a slot as it stands, or the VA that cannot be read. -/
def readImage (s : State) (w : Who) (a : SaveArea) (slot : Nat) : State × Except (Option Nat) (List Byte) :=
  match deviceRead s w (a.slot slot) 0x400 with
  | (s, .error e) => (s, .error e)
  | (s, .ok head) =>
    let size := field head 0x38 4
    if size < 0x400 || 2 ^ a.log < size then (s, .error (some (a.slot slot + 0x38)))
    else deviceRead s w (a.slot slot) size

/-- The entries of a gang's table as memory holds them (R189). -/
def readEntries (s : State) (w : Who) (l : Launch) (index members : Nat) : List Nat → State × Except (Option (Nat × Nat)) (Table Dword)
  | [] => (s, .ok [])
  | p :: ps =>
    let va := entryVa l index p
    match deviceRead s w va 8 with
    | (s, .error none) => (s, .error none)
    | (s, .error (some va)) => (s, .error (some (1, va)))
    | (s, .ok bs) =>
      let e : Dword := BitVec.ofNat 64 (leNat bs)
      if pageBad e members || PageRes e then (s, .error (some (2, va)))
      else
        match readEntries s w l index members ps with
        | (s, .error x) => (s, .error x)
        | (s, .ok t) => (s, .ok (if e = 0 then t else (p, e) :: t))

/-- A restored halted tile transfer asks again for the claim of its atile, which it keeps while it is halted (R281). -/
def reclaim (s : State) (uid : Nat) (x : Nat × Transfer) : State :=
  if x.2.kind != 1 then s
  else
    let o := TileOps.ofList x.2.operands
    match teamOf s uid o.team with
    | none => s
    | some t => askClaim s x.2.core (t.atiles + o.atile % 65536) (takerTile x.1)

/-- The operation that counts a restored halted transfer on a counter of its group, which already counts it: the one that is kept, or a
new one where the image names another counter. -/
def restoredOp (s : State) (key setb : Nat) (op : Option Nat) : State × Option Nat :=
  let kept := (op.bind (tfind s.ops)).bind (·.counter)
  if kept = (if setb ≤ 11 then some setb else none) then (s, op)
  else if 11 < setb then (s, none)
  else
    let id := s.nextOp
    let s := { s with nextOp := id + 1, ops := tput s.ops id ⟨key, some setb, false, [], 1, true, false, false, false⟩ }
    (modGroup s key (fun g =>
      let c := counterOf g setb
      setCounter g setb { c with queue := c.queue ++ [(id, false)], recent := (id :: c.recent).take 255 }), some id)

/-- The halted transfers of an image, one after another: each over the one that the package has kept in its place. -/
def restoreTransfers (uid ctx : Nat) (core : Transfer → Nat) : List (Option (Nat × Transfer) × ImgTransfer) → State → State
  | [], s => s
  | (k, x) :: rest, s =>
    let number := (k.map Prod.fst).getD s.nextTransfer
    let who := groupAt s uid x.team x.gid
    let t := ((k.map Prod.snd).getD (freshTransfer number uid ctx x.lane))
    let r := restoredOp s ((who.map Prod.fst).getD 6144) x.setb t.op
    let t := { t with gang := uid, group := who.map Prod.fst, lane := x.lane, kind := x.kind, progress := x.progress, operands := x.operands,
                      op := r.2, counter := if x.setb ≤ 11 then some x.setb else none, engine := none, read := [], restored := true }
    restoreTransfers uid ctx core rest { r.1 with
      nextTransfer := max r.1.nextTransfer (number + 1), transfers := tput r.1.transfers number { t with core := core t } }

/-- A restored gang's own record, its groups, teams, operations and transfers, over the gang as it has been placed. A row of CPYG that was
halted half way reads its index entry again (log entry 46). What a freeze halted goes on where the context has been released meanwhile
(R230, R405). -/
def overlayGang (s : State) (uid : Nat) (k : Kept) (bs : List Byte) : State :=
  match gangOf s uid with
  | none => s
  | some q =>
    let key := fun (old : Nat) =>
      (((tfind k.groups old).bind (fun g => groupAt s uid g.team g.gid)).map (·.1)).getD 6144
    let here := groupsOf s uid
    let core := fun (t : Transfer) =>
      if t.kind = 1 then ringCore s uid (TileOps.ofList t.operands).team
      else match t.node with
        | some n => ringCore s uid n.1
        | none => (t.group.map coreOfKey).getD ((q.cores.head?).getD 0)
    let s := here.foldl (fun s x =>
      match (imageGroups bs).find? (fun i => i.team == x.2.team && i.gid == x.2.gid) with
      | none => s
      | some i =>
        let kept := ((k.groups.find? (fun g => g.2.team == x.2.team && g.2.gid == x.2.gid)).map (·.2)).getD x.2
        setGroup s x.1 (restoredGroup bs i.at0 kept x.2 s.clock)) s
    let s := (List.range q.teams.length).foldl (fun s t => match q.teams[t]? with
      | none => s
      | some now => restoreAtiles s bs t (ringCore s uid t) now) s
    let teams := (List.range q.teams.length).map (fun t =>
      let now := (q.teams[t]?).getD default
      restoredTeam bs t ((k.gang.teams[t]?).getD now) now key (fun gid => match groupAt s uid t gid with
        | some x => (x.1, liveLanes x.2)
        | none => (6144, 0)))
    let first := ((imageGroups bs).head?).map (·.at0)
    let s := setGang s uid { k.gang with
      launch := q.launch, index := q.index, cores := q.cores, reserved := q.reserved, teams := teams
      barrier := barrierAt bs 0x80, pages := [], fills := [], leaving := [], failed := [], pinning := [], halted := none, climbed := none, deadlock := none
      regsTrap := match first with
        | none => k.gang.regsTrap
        | some o => trapAt bs (o + 0x2A0) }
    let ops := k.ops.map (fun o => (o.1, { o.2 with group := key o.2.group }))
    let s := { s with ops := ops.foldl (fun t o => tput t o.1 o.2) s.ops }
    let ctx := (gangCtx s uid).getD 256
    let listed := imageTransfers bs
    let s := restoreTransfers uid ctx core ((List.range listed.length).filterMap (fun i => (listed[i]?).map (fun x => (k.transfers[i]?, x)))) s
    let s := (haltedOf s uid).foldl (fun s x => reclaim s uid x) s
    if (ctxOf s ctx).frozen then s
    else thawNodes (resumeFrozen s (fun t => t.kind != 2 && t.gang == uid)) ctx

/-- The groups of an image with their held counts, as placement takes them; what the package kept where the image cannot be used. -/
def savedGroups (k : Kept) (bs : Option (List Byte)) : List (Nat × Nat × Nat) :=
  match bs with
  | none => k.groups.map (fun g => (g.2.team, g.2.gid, g.2.held))
  | some bs => (imageGroups bs).map (fun g =>
      (g.team, g.gid, if heldOk g.held then g.held else
        ((k.groups.find? (fun x => x.2.team == g.team && x.2.gid == g.gid)).map (·.2.held)).getD 1))

/-- The pinned pages at home on each member. -/
def pinsOf (pages : Table Dword) (members : Nat) : List Nat :=
  (List.range members).map (fun m => (pages.filter (fun e => PagePin e.2 != 0 && PageHome e.2 == m)).length)

/-- STATE of a slot is set to 0. -/
def clearSlot (s : State) (w : Who) (a : SaveArea) (slot : Nat) : State :=
  (deviceStore s w (a.slot slot) (leBytes 4 0)).1

/-- The placed gang is restored: its state is written, its pinned pages are to be made resident before any of its groups issues, and its
slot freed; a bad record or entry raises the backing trap before any group issues. -/
def finishRestore (s : State) (w : Who) (a : SaveArea) (slot lid index uid : Nat) (k : Kept) (img : Except Nat (List Byte)) (width : Nat)
    (entries : Except (Nat × Nat) (Table Dword)) : State :=
  let put := fun (s : State) (t : Table Dword) => match gangOf s uid with
    | none => s
    | some q => setGang s uid { q with pages := t, pinning := (t.filter (fun e => PagePin e.2 != 0)).map (·.1) }
  let (s, bad) : State × RestoreBad := match img with
    | .error va => (s, some (3, va))
    | .ok bs =>
      let s := overlayGang s uid k bs
      match imageBad bs width, entries with
      | some o, _ => (s, some (3, a.slot slot + o))
      | none, .error b => (s, some b)
      | none, .ok t => (put s t, none)
  let s := markPlaced (clearSlot s w a slot) lid index
  let s := { s with kept := s.kept.filter (fun x => !(x.launch == lid && x.index == index)) }
  match bad with
  | none => s
  | some (cause, va) => takeGangTrap s uid { cls := 11, info0 := BitVec.ofNat 64 va, info1 := BitVec.ofNat 64 cause }

/-- What the package has kept of a saved gang, or, of one that it has not saved itself, what a gang on such units begins with. -/
def keptOf (s : State) (lid index : Nat) (units : List (List Nat)) : Kept :=
  (s.kept.find? (fun k => k.launch == lid && k.index == index)).getD
    ⟨lid, index, { (default : Gang) with launch := lid, index := index, cores := units.headD [] }, [], [], []⟩

/-- A saved gang is restored on the first of some units that fits. -/
def restoreGang (s : State) (lid : Nat) (l : Launch) (index slot : Nat) (units : List (List Nat)) : State × Restored :=
  let k := keptOf s lid index units
  let a := saveArea s l.ctx
  let w := whoCtx s l.ctx true
  let members := (units.headD []).length
  match readImage s w a slot with
  | (s, .error none) => (s, .later)
  | (s, img) =>
    match readEntries s w l index members (List.range (recScratch l / 2048)) with
    | (s, .error none) => (s, .later)
    | (s, entries) =>
      match storeStates s w [a.slot slot] with
      | (s, .later, _) => (s, .later)
      | (s, _, _) =>
        let table : Table Dword := match entries with
          | .ok t => t
          | .error _ => k.gang.pages
        match areaStates s (whoPager k.gang l) ((table.filter (fun e => PagePin e.2 != 0)).flatMap (fun e => pageVas l index e.1 (PageMap e.2))) with
        | (s, .later, _) => (s, .later)
        | (s, _, _) =>
          let bytes := match img with
            | .ok bs => some bs
            | .error _ => none
          match placeFirst s lid l index (savedGroups k bytes) (pinsOf table members) units with
          | none => (s, .unfit)
          | some t =>
            let img : Except Nat (List Byte) := match img with
              | .ok bs => .ok bs
              | .error va => .error (va.getD 0)
            let entries : Except (Nat × Nat) (Table Dword) := match entries with
              | .ok t => .ok t
              | .error b => .error (b.getD (1, 0))
            (finishRestore t w a slot lid index (t.nextUid - 1) k img (recWidth l) entries, .done)

/-! ### CTXLOAD -/

/-- What a request to restore a slot of a context meets. -/
inductive LoadStart where
  | illegal (place : Nat)
  | later
  | code (n : Nat)
deriving DecidableEq, Repr, Inhabited

/-- The launch that a slot header names: one of the context with its LAUNCH and its other fields, which has saved the gang there if any
has, or, where software has altered the header, one of that gang alone (log entry 58). -/
def imageLaunch (s : State) (ctx part slot : Nat) (head : List Byte) : State × Nat × Launch :=
  let index := field head 4 4
  let named := s.launches.filter (fun x => x.2.ctx == ctx && x.2.seq == field head 8 8)
  let same := fun (x : Nat × Launch) => headerRecord head x.2.record == x.2.record
  match (named.find? (fun (x : Nat × Launch) => same x && x.2.saved.contains (index, slot))).orElse (fun _ => named.find? same) with
  | some x => (s, x)
  | none =>
    let old := named.find? (fun x => x.2.saved.contains (index, slot))
    let record := headerRecord head ((old.orElse (fun _ => named.head?)).map (·.2.record) |>.getD [])
    let record := record.take 0x34 ++ leBytes 4 (index + 1) ++ record.drop 0x38
    let l := { newLaunch record ctx part (field head 8 8) 65536 0 s.mem.order with admitted := true, done := index }
    let s := match old with
      | none => s
      | some (lid, x) => setLaunch s lid { x with saved := x.saved.filter (· != (index, slot)), done := x.done + 1 }
    ({ s with launches := tput s.launches s.nextUid l, nextUid := s.nextUid + 1 }, s.nextUid, l)

/-- A slot of a context is restored on the unit that bits 6:0 of `where0` name. -/
def loadSlot (s : State) (ctx part slot where0 : Nat) : State × LoadStart :=
  let a := saveArea s ctx
  if a.n ≤ slot then (s, .illegal 1)
  else
    match deviceRead s (whoCtx s ctx true) (a.slot slot) 0x400 with
    | (s, .error none) => (s, .later)
    | (s, .error (some _)) => (s, .illegal 2)
    | (s, .ok head) =>
      if field head 0 4 != 2 then (s, .illegal 2)
      else
        let units := unitsOf (field head 0x10 1) (field head 0x11 1)
        let core := bits where0 0 6
        let chosen := if bit where0 6 then units else units.filter (fun u => u.head? == some core)
        if chosen.isEmpty then (s, .illegal 3)
        else if !bit where0 6 && chosen.any (fun u => u.any (fun c => corePart s c != part)) then (s, .illegal 4)
        else if 2 ^ 7 ≤ where0 then (s, .illegal 5)
        else
          let r := imageLaunch s ctx part slot head
          match restoreGang r.1 r.2.1 r.2.2 (field head 4 4) slot chosen with
          | (t, .later) => ({ t with launches := s.launches, nextUid := s.nextUid }, .later)
          | (t, .unfit) => ({ t with launches := s.launches, nextUid := s.nextUid }, .code 1)
          | (s, .done) => (s, .code 0)

def execCtxload (a b : Opnd) (s : State) : Out :=
  systemOp s a b (fun u l sa sb =>
    if 2 ^ 16 ≤ sa then illegalWord s u (causeCode 428 0)
    else
      match loadSlot s l.ctx l.part sa sb with
      | (s, .illegal n) => illegalWord s u (causeCode 428 n)
      | (s, .later) => .next (holdUnit s u .word)
      | (s, .code n) => finishScalar s u b (if n = 0 then 2 ^ 16 * sa else n))

/-- A restore that a host function has asked for is done, waits with its answer until it can be, or has its answer. No field of the
call names a context, so the context is one of the partition's contexts whose slot is valid. -/
def hostLoad (s : State) (fn slot place : Nat) : State :=
  let part := fnPart s fn
  let valid := (List.range 256).filter (fun c =>
    (part.isNone || part == some (ctxPart s c)) && s.launches.any (fun l => l.2.ctx == c && l.2.saved.any (fun x => x.2 == slot)))
  match valid with
  | [] => s
  | c :: cs =>
    let r := draw s cs c
    match loadSlot r.1 r.2 (ctxPart r.1 r.2) slot place with
    | (s, .illegal _) => s
    | (s, .later) => { s with calls := s.calls ++ [⟨fn, true, slot, place, 0⟩] }
    | (s, .code n) => giveResult s GLOAD_AT (if n = 0 then 2 ^ 16 * slot else n)

def execGload (s : State) : Out :=
  let slot := s.input.value.toNat
  latchedAct s GLOAD_AT (ownPart s) (fun s => .next (if 2 ^ 16 ≤ slot then s else hostLoad s s.input.fn slot s.input.value2.toNat))

/-- The calls of the host that could not be answered yet, between steps. -/
def settleCalls (s : State) : State :=
  s.calls.foldl (fun s c => if c.load then hostLoad s c.fn c.value c.place else hostSave s c.fn c.value c.mode) { s with calls := [] }

/-! ### The placer of a die (R388) -/

/-- Gangs of a launch that a die may place now, lowest index first: those never placed, and the saved ones that it takes again. -/
def waitingOn (s : State) (lid : Nat) (l : Launch) (die : Nat) : List Nat :=
  let keptDie := fun (i : Nat) => ((s.kept.find? (fun k => k.launch == lid && k.index == i)).bind (fun k => k.gang.cores.head?)).map (· / 16)
  ((l.unplaced.map (·.1)).filter (fun i => gangDie l i == some die) ++
    (l.saved.map (·.1)).filter (fun i => l.urgent.contains i && keptDie i == some die)).mergeSort (fun a b => a ≤ b)

/-- Whether a gang is one that its die takes ahead of every gang of equal or lower PRIO. -/
def urgentOn (s : State) (lid : Nat) (l : Launch) (die : Nat) : Option Nat :=
  (waitingOn s lid l die).find? (fun i => l.urgent.contains i)

/-- The order of the placer: PRIO, the gangs that are taken first, and admission. -/
def placerOrder (s : State) (die : Nat) : List (Nat × Launch) :=
  (s.launches.filter (fun x => x.2.admitted && !x.2.destroyed && !(ctxOf s x.2.ctx).frozen && !(waitingOn s x.1 x.2 die).isEmpty)).mergeSort
    (fun a b =>
      let ua := (urgentOn s a.1 a.2 die).isSome
      let ub := (urgentOn s b.1 b.2 die).isSome
      if recPrio a.2 = recPrio b.2 then
        (if ua = ub then decide (a.2.order ≤ b.2.order) else ua)
      else decide (recPrio b.2 < recPrio a.2))

/-- Whether the launch has never placed a gang: a COOP launch is then placed whole. -/
def wholeCoop (l : Launch) : Bool := recCoop l && l.urgent.isEmpty && l.unplaced.length == recGangs l

/-- Whether another gang that has become blocking on a die keeps a gang from being placed there: one of greater PRIO, or one of equal
PRIO, unless the gang is blocking itself and comes before it. -/
def blockedBy (s : State) (die : Nat) (lid : Nat) (l : Launch) (index : Nat) : Bool :=
  s.launches.any (fun x => x.2.admitted && !x.2.destroyed && recPrio l ≤ recPrio x.2 &&
    (waitingOn s x.1 x.2 die).any (fun i => x.2.blocking.contains i && !(x.1 == lid && (i == index || wholeCoop l)) &&
      !(l.blocking.contains index && recPrio l == recPrio x.2 &&
        (decide (l.order < x.2.order) || (x.1 == lid && decide (index < i))))))

/-- Whether a blocking gang keeps some gang of a COOP launch from its own die. -/
def coopBlocked (s : State) (lid : Nat) (l : Launch) : Bool :=
  l.unplaced.any (fun x => ((gangDie l x.1).map (fun d => blockedBy s d lid l x.1)).getD false)

/-- Every gang of a COOP launch is placed on its die, or none. -/
def placeCoop (lid : Nat) : List Nat → State → Option State
  | [], s => some s
  | i :: is, s =>
    match launchOf s lid with
    | none => none
    | some l =>
      match gangDie l i with
      | none => none
      | some d =>
        match placeNew s lid l i (unitsOf d (recShape l)) with
        | (_, false) => none
        | (s, true) => placeCoop lid is s

/-- One gang of a launch is placed on a die. -/
def placeGang (s : State) (lid : Nat) (l : Launch) (die index : Nat) : State × Bool :=
  let units := unitsOf die (recShape l)
  match l.saved.find? (fun x => x.1 == index) with
  | none => placeNew s lid l index units
  | some (_, slot) =>
    match restoreGang s lid l index slot units with
    | (s, .done) => (s, true)
    | (s, _) => (s, false)

/-- The launches of the placer's order are tried in turn until a gang is placed. -/
def placeSome (die : Nat) : List (Nat × Launch) → State → State
  | [], s => s
  | (lid, l) :: rest, s =>
    match (urgentOn s lid l die).orElse (fun _ => (waitingOn s lid l die).head?) with
    | none => placeSome die rest s
    | some i =>
      if blockedBy s die lid l i || (wholeCoop l && coopBlocked s lid l) then placeSome die rest s
      else if wholeCoop l then
        (match placeCoop lid (l.unplaced.map (·.1)) s with
         | some s => s
         | none => placeSome die rest s)
      else
        match placeGang s lid l die i with
        | (s, true) => s
        | (s, false) => placeSome die rest s

def execDiePlacement (s : State) : Out := .next (placeSome s.input.key (placerOrder s s.input.key) s)

end Sys2Proof.Machine
end

