-- ==== Sys2Proof/Machine/Levant.lean ====
section
/-!
DEFINITION. Levant (R365 to R372): the arrival of writes, sweeps, read requests and responses, the removal of a compute die with the
relaunch of its gangs (R371, R432), and resynchronisation.
-/
namespace Sys2Proof.Machine

open Sys2Proof

/-! ### Read requests and responses (R369, R370) -/

/-- A read request arrives: the oldest that a die has on the way to CX, where every line's home slice is (R8). It is served when it is
met, held while the early-packet buffer has room, and otherwise not taken, since its sender has no credit for it; one of another epoch is
dropped. -/
def execLevantReadRequest (s : State) : Out :=
  let die := s.input.key
  let x := levantOf s die
  match s.fabric.requests.find? (fun r => r.src == s.input.sub) with
  | none => .next s
  | some r =>
    let taken := { s with fabric := { s.fabric with requests := s.fabric.requests.erase r } }
    if die != 3 then .next s
    else if stampEpoch r.stamp != x.epoch then .next taken
    else if stampMet x r.stamp then .next (setLevant taken die { x with served := x.served ++ [answerRead r] })
    else if 96 ≤ x.early.length then .next s
    else .next (setLevant taken die { x with early := x.early ++ [r], ephigh := max x.ephigh (x.early.length + 1) })

/-- A response arrives at a die: the oldest on the way there from another. It raises the seen entries that its stamp exceeds; the
entries of a removed die are frozen. One of another epoch is dropped. -/
def execLevantResponse (s : State) : Out :=
  let die := s.input.key
  let home := levantOf s s.input.sub
  match home.served.find? (fun r => r.src == die) with
  | none => .next s
  | some r =>
    let s := setLevant s s.input.sub { home with served := home.served.erase r }
    let x := levantOf s die
    if stampEpoch r.stamp != x.epoch then .next s
    else
      let seen := (List.range 4).map (fun w =>
        let old := (x.seen[w]?).getD 0
        let new := stampEntry r.stamp w
        if (w < 3 && x.removed.getLsbD w) || !lvLe old new then old else new)
      .next (setLevant s die { x with seen := seen })

/-! ### Writes and sweeps (R367, R368) -/

/-- The oldest packet on the way from a writer to a die. -/
def firstPacket (s : State) (w die : Nat) : Option LvPacket := (linkPackets s w die).head?

/-- The dies in service. -/
def diesUp (s : State) : List Nat := (List.range 4).filter (fun d => !dieRemoved s d)

/-- A sweep of a writer goes out to every die in service. -/
def execLevantSweep (s : State) : Out :=
  let w := s.input.key
  if 4 ≤ w || dieRemoved s w then .next s else .next ((diesUp s).foldl (fun s d => sendSweep s w d) s)

/-- The oldest packet of a link arrives if it is of the kind that the event brings. -/
def arriveOldest (s : State) (sweep : Bool) : Out :=
  match firstPacket s s.input.sub s.input.key with
  | none => .next s
  | some p => if p.sweep == sweep then .next (arrivePacket s p) else .next s

def execLevantSweepArrival (s : State) : Out := arriveOldest s true
def execLevantWriteArrival (s : State) : Out := arriveOldest s false

/-! ### Removal of a compute die (R371, R432) -/

/-- CX and the surviving compute dies exchange a drain sweep: on every link between two of them, everything that was on the way arrives,
and then the sweep. -/
def drainSweeps (s : State) (d : Nat) : State :=
  let up := (diesUp s).filter (· != d)
  up.foldl (fun s w => up.foldl (fun s e =>
    let s := sendSweep s w e
    (linkPackets s w e).foldl arrivePacket s) s) s

/-- The writes of a die that have not been delivered, newest first. -/
def undelivered (s : State) (d : Nat) : List LvPacket := (s.packetsLv.filter (fun p => !p.applied && !p.sweep && p.writer == d)).reverse

/-- The units that a die's engines have written and that have not reached their global places. -/
def stray (s : State) (d : Nat) : List Place := s.places.filter (fun p => p.writer == d && (match p.loc with
  | .ma _ => true
  | _ => false))

/-- A die's writes that have not been delivered take no place (R347), and the die that they were for counts them. What was on the way from
or to the removed die is discarded, every survivor treats its entry as infinitely advanced, and the requests that waited for it are
served. -/
def discardPackets (s : State) (d : Nat) : State :=
  let gone := undelivered s d
  let lost := fun (die : Nat) => (gone.filter (fun p => p.die == die)).length + (if die = 3 then (stray s d).length else 0)
  let s : State := { s with
    places := s.places.filter (fun p => !(stray s d).contains p)
    mem := gone.foldl (fun m p => m.unwrite p.unit p.order) s.mem
    levant := (List.range s.levant.length).map (fun i =>
      let x := levantOf s i
      { x with
        removed := x.removed ||| BitVec.ofNat 3 (2 ^ d), lost := min (2 ^ 32 - 1) (x.lost + (if i = d then 0 else lost i))
        early := x.early.filter (fun r => r.src != d), served := x.served.filter (fun r => r.src != d) })
    packetsLv := s.packetsLv.filter (fun p => p.writer != d && p.die != d)
    fabric := { s.fabric with requests := s.fabric.requests.filter (fun r => r.src != d) } }
  (diesUp s).foldl serveMet s

/-- The ports of a die's links, at both ends. -/
def portsOf (d : Nat) : List Nat :=
  ((List.range 4).filter (· != d)).flatMap (fun f => [unitLevant d f, unitLevant f d])

/-- The contexts with a gang on a die. -/
def ctxsOn (s : State) (d : Nat) : List Nat :=
  ((s.gangs.filter (fun q => q.2.cores.any (fun c => c / 16 == d))).filterMap (fun q => gangCtx s q.1)).eraseDups

/-- A context learns of the writes that it has lost. -/
def tellLoss (s : State) (d lost : Nat) (ctx : Nat) : State :=
  (portsOf d).foldl (fun s u => recordEvent s { unit := u, cause := 0x30, sev := 3, synd := lost, ctx := some ctx }) s

/-- The surviving die of a launch's partition with the fewest unplaced gangs of the launch. -/
def heir (s : State) (l : Launch) (d : Nat) : Option Nat :=
  let count := fun (x : Nat) => (l.unplaced.filter (fun u => gangDie l u.1 == some x)).length
  ((List.range 3).filter (fun x => x != d && !dieRemoved s x && dieInPart s x l.part)).foldl (fun b x => match b with
    | none => some x
    | some y => if count x < count y then some x else some y) none

/-- The gangs of a launch that go with a die: its resident ones, those that wait for it, and those saved from it. -/
structure Gone where
  resident : List Nat
  waiting  : List Nat
  saved    : List (Nat × Nat)
deriving DecidableEq, Repr, Inhabited

def goneOf (s : State) (lid : Nat) (l : Launch) (d : Nat) : Gone :=
  let onDie := fun (q : Gang) => q.cores.any (fun c => c / 16 == d)
  { resident := (s.gangs.filter (fun q => q.2.launch == lid && onDie q.2)).map (·.2.index)
    waiting := (if l.admitted then l.unplaced.map (·.1) else List.range (recGangs l)).filter (fun i => gangDie l i == some d)
    saved := l.saved.filter (fun x => (s.kept.find? (fun k => k.launch == lid && k.index == x.1)).any (fun k => onDie k.gang)) }

/-- The launch's gangs of a removed die run again on the die that takes its range, or are counted as killed. -/
def moveLaunch (s : State) (lid : Nat) (gone : Gone) (d : Nat) : State :=
  match launchOf s lid with
  | none => s
  | some l =>
    let lost := gone.resident ++ gone.saved.map (·.1)
    let s := gone.saved.foldl (fun s x => clearSlot s (whoCtx s l.ctx true) (saveArea s l.ctx) x.2) s
    let s := { s with kept := s.kept.filter (fun k => !(k.launch == lid && lost.contains k.index)) }
    let l := { l with saved := l.saved.filter (fun x => !gone.saved.contains x) }
    match (if recRestart l then heir s l d else none) with
    | some e =>
      setLaunch s lid { l with
        dieOf := l.dieOf.map (fun r => if r.2.2 = d then (r.1, r.2.1, e) else r)
        unplaced := l.unplaced ++ lost.map (fun i => (i, s.clock))
        urgent := lost.foldl (fun u i => if recCoop l then insertNat i u else removeNat i u) l.urgent }
    | none =>
      let ended := lost.length + gone.waiting.length
      if ended = 0 then setLaunch s lid l
      else
        let s := setLaunch s lid { l with
          unplaced := l.unplaced.filter (fun u => !gone.waiting.contains u.1), done := l.done + ended, killed := true,
          urgent := l.urgent.filter (fun i => !(lost ++ gone.waiting).contains i)
          blocking := l.blocking.filter (fun i => !gone.waiting.contains i) }
        s

/-- The launches that lose gangs for good with a die. -/
def losers (s : State) (d : Nat) (gone : List (Nat × Gone)) : List Nat :=
  (gone.filterMap (fun g => match launchOf s g.1 with
    | none => none
    | some l =>
      if (recRestart l && (heir s l d).isSome) || (g.2.resident ++ g.2.waiting ++ g.2.saved.map (·.1)).isEmpty then none
      else some l.ctx)).eraseDups

/-- Class 21 reaches the context rung, once for a context, with no gang left to hold. -/
def tellGone (s : State) (ctx : Nat) : State := toContext s 0 ctx 0 ⟨21, 0, 0, 2, none, none⟩

def removeDie (s : State) (d : Nat) : State :=
  let ctxs := ctxsOn s d
  let s := drainSweeps s d
  let lost := (undelivered s d).length + (stray s d).length
  let s := discardPackets s d
  let s := ctxs.foldl (fun s c => tellLoss s d lost c) s
  let s := { s with dies := s.dies.set d { (s.dies[d]?).getD Die.reset with fenced := true, live := 0 } }
  let gone := s.launches.map (fun l => (l.1, goneOf s l.1 l.2 d))
  let told := losers s d gone
  let s := (s.gangs.filter (fun q => q.2.cores.any (fun c => c / 16 == d))).foldl (fun s q => dropGang s q.1) s
  let s := gone.foldl (fun s g => moveLaunch s g.1 g.2 d) s
  told.foldl tellGone s

def execDieRemoval (s : State) : Out :=
  let d := s.input.key
  if 3 ≤ d || dieRemoved s d then .next s else .next (removeDie s d)

/-! ### Resynchronisation (R372) -/

/-- The packets of the retry buffers, sent again under a new epoch and with new numbers from 0 for each writer: a sweep carries its
writer's latest. Their link sequence numbers stay. -/
def renumber (epoch : Nat) : List LvPacket → List Nat → List LvPacket × List Nat
  | [], counts => ([], counts)
  | p :: ps, counts =>
    let n := (counts[p.writer]?).getD 0
    let number := if p.sweep then (n - 1) % 16384 else n % 16384
    let p := { p with epoch := epoch, number := number, stamp := packStamp epoch (([0, 0, 0, 0] : List Nat).set p.writer number), applied := false }
    let r := renumber epoch ps (if p.sweep then counts else counts.set p.writer (n + 1))
    (p :: r.1, r.2)

/-- What a retry buffer holds undelivered: what has not arrived, and what has, while its sender does not know that it has. -/
def retryBuffers (s : State) : List LvPacket :=
  s.packetsLv.filter (fun p => !p.applied || Config.freeBool (s.tick + 4 * p.writer + p.die))

/-- Requests that were held, or on the way, are met by the new entries; responses go out again under the new epoch. -/
def refreshReads (epoch : Nat) (r : LvRead) : LvRead := { r with stamp := packStamp epoch [], bytes := packStamp epoch [] }

/-- Every die takes the next epoch with its entries at 0, and what had not been delivered is sent again. -/
def resync (s : State) : State :=
  let epoch := ((levantOf s 3).epoch + 1) % 16
  let r := renumber epoch (retryBuffers s) [0, 0, 0, 0]
  { s with
    tick := s.tick + 16
    levant := s.levant.map (fun x => { x with
      ct := [0, 0, 0, 0], seen := [0, 0, 0, 0], epoch := epoch, early := []
      served := (x.served ++ x.early).map (refreshReads epoch), resync := min 255 (x.resync + 1) })
    packetsLv := r.1
    numbers := r.2.map (fun n => (n - 1) % 16384)
    fabric := { s.fabric with lines := [], requests := s.fabric.requests.map (refreshReads epoch) } }

/-- The dies that have a route to CX over the links that are left, by way of at most two others. -/
def routed (s : State) : List Nat :=
  let joined := fun (a b : Nat) => a != b && !s.fabric.lost.contains (min a b, max a b)
  let grow := fun (xs : List Nat) => (diesUp s).filter (fun d => xs.contains d || xs.any (joined d))
  grow (grow (grow [3]))

/-- A link that does not retrain is lost, and the compute dies that no route is left to are removed. -/
def loseLink (s : State) (a b : Nat) : State :=
  let s := { s with fabric := { s.fabric with lost := (min a b, max a b) :: s.fabric.lost.filter (· != (min a b, max a b)) } }
  ((diesUp s).filter (fun d => !(routed s).contains d)).foldl removeDie s

/-- A fabric fault of a link between two dies, which retrains or does not. -/
def execLevantResync (s : State) : Out :=
  let die := s.input.key
  let far := s.input.sub
  if 4 ≤ die || 4 ≤ far || die = far then .next s
  else
    let s := resync s
    let record := fun (s : State) (u : Nat) => recordEvent s { unit := u, cause := 0x05, sev := 1, synd := (levantOf s 3).epoch }
    let s := record (record s (unitLevant die far)) (unitLevant far die)
    .next (if s.input.ok then s else loseLink s die far)

end Sys2Proof.Machine
end

