-- ==== Sys2Proof/Machine/Takeover.lean ====
section
/-!
DEFINITION. Hot-spare takeover of a logical core (R11, R199, R429, R442). Groups, frames, atiles and rings stand under the logical
core's number, so that what moves is the number itself.
-/
namespace Sys2Proof.Machine

open Sys2Proof

def dieOfCore (s : State) (core : Nat) : Die := (s.dies[core / 16]?).getD Die.reset

def setDie (s : State) (d : Nat) (x : Die) : State := { s with dies := s.dies.set d x }

/-- The gangs with a member on a core. -/
def gangsOn (s : State) (core : Nat) : List (Nat × Gang) := s.gangs.filter (fun q => q.2.cores.contains core)

/-- Every group of a gang is asked to stop. -/
def askStop (s : State) (uid : Nat) : State :=
  (groupsOf s uid).foldl (fun s x => modGroup s x.1 (fun g => { g with stopping := true })) s

def setStopBy (s : State) (core : Nat) (x : Option Nat) : State := setCore s core { coreOf s core with stopBy := x }

/-- What a request for a takeover meets: the result codes of R429. -/
inductive TakeStart where
  | begun
  | used
  | dead
deriving DecidableEq, Repr, Inhabited

/-- With its die's spare in use, a core is fenced with no replacement: it leaves LIVE, and its gangs are to leave it (R11). -/
def fenceCore (s : State) (core : Nat) : State :=
  let d := dieOfCore s core
  let s := setDie s (core / 16) { d with live := d.live &&& ~~~(BitVec.ofNat 16 (2 ^ (core % 16))) }
  setStopBy s core (if (gangsOn s core).isEmpty then none else some s.clock)

/-- A takeover begins: the gangs of the core are asked to stop, or, with the spare in use, the core is fenced. -/
def startTakeover (s : State) (core : Nat) : State × TakeStart :=
  if 48 ≤ core || !coreLive s core then (s, .dead)
  else
    if (dieOfCore s core).spused then (fenceCore s core, .used)
    else
      let s := (gangsOn s core).foldl (fun s q => askStop s q.1) s
      (setStopBy s core (some s.clock), .begun)

/-- The spare takes the core's number, with nothing cached and no engine frozen, and the gangs go on. Where another takeover of the
die has ended meanwhile, its spare is in use and the core is fenced (R11). What the core holds of its gangs is read for its copy to the spare (R435). -/
def finishTakeover (s : State) (core : Nat) : State :=
  if (dieOfCore s core).spused then fenceCore s core
  else
  let s := (gangsOn s core).foldl (fun s q => readWhole s q.1) s
  let s := setDie s (core / 16) { dieOfCore s core with spused := true, spfor := core % 16 }
  let s := setCore s core { coreOf s core with stopBy := none, engines := Core.reset.engines }
  (gangsOn s core).foldl (fun s q => if s.saves.any (fun v => v.gang == q.1) then s else resumeGang s q.1) s

/-- The gangs of a fenced core are saved to be placed again, or killed where a save is declined. -/
def clearFenced (s : State) (core : Nat) : State :=
  let s := (gangsOn s core).foldl (fun s q =>
    if s.saves.any (fun v => v.gang == q.1) then s
    else
      match launchOf s q.2.launch with
      | none => s
      | some l =>
        match beginSave s q.1 q.2 l 1 none none with
        | (s, .code _) => killForTakeover s q.1
        | (s, _) => s) s
  if (gangsOn s core).isEmpty then setStopBy s core none else s

/-- The takeovers in progress go on, between steps. -/
def settleTakeovers (s : State) : State :=
  (s.cores.filter (fun c => c.2.stopBy.isSome)).foldl (fun s c =>
    if !coreLive s c.1 then clearFenced s c.1
    else if (gangsOn s c.1).all (fun q => gangAtRest s q.1) then finishTakeover s c.1 else s) s

/-- A record that reaches a threshold calls for the takeover of its core at once (R442). -/
def settleThresholds (s : State) : State :=
  if s.events.isEmpty then s
  else ((List.range 48).filter (fun c => coreLive s c && (coreOf s c).stopBy.isNone && takeoverDue s (unitCore s c))).foldl
    (fun s c => (startTakeover s c).1) s

/-- Events have called for a core's takeover. -/
def execHotSpareTakeover (s : State) : Out :=
  let core := s.input.key
  if 48 ≤ core || (coreOf s core).stopBy.isSome || !takeoverDue s (unitCore s core) then .next s
  else .next (settleTakeovers (startTakeover s core).1)

/-- A gang that has not stopped 1 ms after the request is killed, and relaunched if it may be. -/
def execTakeoverStopTimeout (s : State) : Out :=
  let core := s.input.key
  match (coreOf s core).stopBy with
  | none => .next s
  | some since =>
    if s.clock < since + saveClocks || !coreLive s core then .next s
    else .next (settleTakeovers ((gangsOn s core).foldl (fun s q => if gangAtRest s q.1 then s else killForTakeover s q.1) s))

def execHstake (a b : Opnd) (s : State) : Out :=
  systemOp s a b (fun u l sa _ =>
    let core := bits sa 0 6
    let running := (coreOf s core).stopBy.isSome
    if u.f.hold = .word then
      if running then .next (holdUnit s u .word) else finishScalar s u b (if coreLive s core then 0 else 1)
    else if 2 ^ 6 ≤ sa then illegalWord s u (causeCode 429 0)
    else if core < 48 && corePart s core != l.part then breach s u 9
    else if running then .next (holdUnit s u .word)
    else
      match startTakeover s core with
      | (s, .dead) => finishScalar s u b 2
      | (s, .used) => finishScalar s u b 1
      | (s, .begun) => .next (holdUnit s u .word))

end Sys2Proof.Machine
end

