-- ==== Sys2Proof/Machine/Etesian.lean ====
section
/-!
DEFINITION. Etesian (R373 to R378): inbound flits with their checks and service, inbound host writes (R462), replies to this device's
own requests, refusals and timeouts, and the wavelengths.
-/
namespace Sys2Proof.Machine

open Sys2Proof

/-! ### Flits that this device sends in reply -/

/-- A reply to a flit: TAG is returned, and the fields that the manual does not give a reply are free values. -/
def replyFlit (s : State) (f : Flit) (typ status : Nat) (data : List Byte) : State :=
  let x := fun (i : Nat) => Config.freeChoice (s.tick + i)
  sendReply { s with tick := s.tick + 3 } (flitOf s typ f.src.toNat (x 0) f.tag.toNat (x 1) (x 2) status data)

/-- The refusal of a flit by a check: the inbound port of its sender freezes (R375, R404). -/
def refuseFlit (s : State) (f : Flit) (synd : Nat) : State := replyFlit (freezePort s f.src.toNat synd) f 6 1 []

/-! ### Inbound accesses that wait for memory -/

/-- Where an inbound access lands: at a machine address, later, or nowhere with the SYND of its check. -/
inductive Landing where
  | here (ma : Nat)
  | later
  | refused (synd : Nat)
deriving DecidableEq, Repr, Inhabited

/-- The DPA's indirection entry, V first and then PART where a port has one (R375); a dropped frame holds the access while it is in
service. -/
def landing (s : State) (part : Option Nat) (dpa : Nat) : State × Landing :=
  let f := dpa / 65536
  let e := s.mem.entry f
  if 2 ^ 41 ≤ dpa || !IndV e || (match part with
      | none => false
      | some p => p == 7 || p != IndPart e) then (s, .refused 9)
  else if IndDropped e then
    (s, match regenOf s.mem f with
        | some r => if r.failed then .refused 10 else .later
        | none => .refused 10)
  else
    let ma := entryAddr e (dpa % 65536)
    if s.mem.present ma then (s, .here ma) else (askLine s (ma / 128), .later)

/-- The partition that a flit's accesses are made for; a host write has none. -/
def portOf (s : State) (f : Flit) : Option Nat :=
  if f.typ = 0 then none else some (peerPart (tget peerReset s.peers f.src.toNat))

/-- Bytes that a flit names. -/
def flitBytes (f : Flit) : Nat := if f.typ = 0 then f.data.length else 2 ^ (f.size.toNat % 16)

/-- The offsets that a write's nibble mask leaves to be written: every byte without a mask (R373). -/
def maskedBytes (mask n : Nat) : List Nat := (List.range n).filter (fun i => mask = 0 || bits mask (2 * i) 2 != 0)

/-- A write of a flit's bytes at the home slice, with a mark when its data is poisoned. -/
def inboundWrite (s : State) (f : Flit) (ma : Nat) : State :=
  let n := flitBytes f
  let mask := if f.typ = 0 then 0 else f.size.toNat / 16
  let bs := (f.data ++ List.replicate n 0).take n
  let s := if mask = 0 then storeLocal s 3 ma bs
    else
      let s := fetchLines s 3 ma n
      storeLocal s 3 ma (mergeNibbles mask bs (s.mem.bytesAt ma n))
  let s : State := if f.typ = 2 && f.status = 2 then { s with mem := { s.mem with poison := addPoison (sectorsOf ma n) s.mem.poison } } else s
  let hit := (maskedBytes mask n).map (· + f.dpa.toNat)
  if f.typ = 0 then watchCx s 5 0x100 hit none none else watchCx s 4 f.src.toNat hit none none

/-- An inbound access is performed at its home slice (R376, R462). -/
def performInbound (s : State) (f : Flit) (ma : Nat) : State :=
  let n := flitBytes f
  let s := noteFrame s (IndPart (s.mem.entry (f.dpa.toNat / 65536))) f.dpa.toNat true
  match f.typ.toNat with
  | 1 =>
    let s := noteReads (fetchLines s 3 ma n) 48 ma n
    if s.mem.marked ma n then replyFlit s f 4 2 [] else replyFlit s f 4 0 (s.mem.bytesAt ma n)
  | 2 => replyFlit (inboundWrite s f ma) f 5 0 []
  | 3 =>
    let s := noteReads (fetchLines s 3 ma n) 48 ma n
    if s.mem.marked ma n then replyFlit s f 5 2 []
    else
      let old := leNat (s.mem.bytesAt ma n)
      let new := atomNew (f.aop.toNat % 16) (f.aop.toNat / 16) old (field f.data 0 n) (field f.data 16 n)
      let s := watchCx (storeLocal s 3 ma (leBytes n new)) 4 f.src.toNat ((List.range n).map (· + f.dpa.toNat)) none none
      replyFlit s f 5 0 (leBytes n old)
  | _ => inboundWrite s f ma

/-- The waiting accesses in order: each that can be is performed, but none before an earlier one to its line. -/
def serveFrom : List Flit → List Nat → State → State × List Flit
  | [], _, s => (s, [])
  | f :: rest, held, s =>
    let line := f.dpa.toNat / 128
    if held.contains line then
      let r := serveFrom rest held s
      (r.1, f :: r.2)
    else
      match landing s (portOf s f) f.dpa.toNat with
      | (s, .later) =>
        let r := serveFrom rest (line :: held) s
        (r.1, f :: r.2)
      | (s, .refused n) => serveFrom rest held (if f.typ = 0 then s else refuseFlit s f n)
      | (s, .here ma) => serveFrom rest held (performInbound s f ma)

/-- Every inbound access whose memory has come is performed. -/
def serveInbound (s : State) : State :=
  if s.inbound.isEmpty then s
  else
    let r := serveFrom s.inbound [] s
    { r.1 with inbound := r.2 }

/-! ### Inbound flits (R375, R376) -/

/-- The first check of R375 that a flit fails before its DPA is looked at, as its SYND. -/
def flitFault (s : State) (f : Flit) : Option Nat :=
  let cfg := tget peerReset s.peers f.src.toNat
  let op := f.aop.toNat % 16
  let ty := f.aop.toNat / 16
  if !cfg.getLsbD 0 then some 6
  else if !cfg.getLsbD (1 + f.typ.toNat) then some 5
  else if f.typ = 3 && !atomTypeOk op ty then some (256 + 14)
  else if f.typ = 3 && f.size.toNat != log2Size (atomBytes op ty) then some (256 + 3)
  else none

/-- A flit of a type arrives. A size beyond 16 bytes is no size of R373, and such a flit is not taken. -/
def arriveFlit (s : State) (typ : Nat) : Out :=
  let f := s.input.flit
  if f.typ.toNat != typ then .next s
  else if (tget peerReset s.peers f.src.toNat).getLsbD 5 then .next (replyFlit s f 6 1 [])
  else
    match flitFault s f with
    | some n => .next (refuseFlit s f n)
    | none =>
      match landing s (portOf s f) f.dpa.toNat with
      | (s, .refused n) => .next (refuseFlit s f n)
      | (s, _) => if 4 < f.size.toNat % 16 then .next s else .next (serveInbound { s with inbound := s.inbound ++ [f] })

def execEtesianRead (s : State) : Out := arriveFlit s 1
def execEtesianWrite (s : State) : Out := arriveFlit s 2
def execEtesianAtomic (s : State) : Out := arriveFlit s 3

/-- A host write through the IO ingress, line by line; where no frame backs the address it has no effect. -/
def execInboundHostWrite (s : State) : Out :=
  let dpa := s.input.key
  let bs := s.input.data
  let first := 128 - dpa % 128
  let pieces := (0, bs.take first) ::
    (List.range ((bs.length - first + 127) / 128)).map (fun i => (first + 128 * i, (bs.drop (first + 128 * i)).take 128))
  let flits := (pieces.filter (fun p => !p.2.isEmpty && decide (dpa + p.1 < 2 ^ 41))).map (fun p =>
    ({ typ := 0, dst := 0, src := 0, size := 0, tag := 0, dpa := BitVec.ofNat 48 (dpa + p.1), aop := 0, status := 0, data := p.2 } : Flit))
  .next (serveInbound { s with inbound := s.inbound ++ flits })

/-! ### Replies (R374, R376) -/

/-- The request that a flit answers, of this device to the flit's sender, by the 32 bits of its tag; a late reply answers none (R378). -/
def answered (s : State) (f : Flit) : Option Request :=
  s.requests.find? (fun r => r.tag % 2 ^ 32 == f.tag.toNat && r.peer == some f.src.toNat && r.sent && !r.refused)

def dropRequest (s : State) (r : Request) : State := { s with requests := s.requests.filter (fun x => x.tag != r.tag) }

/-- The agent that a reply for `State.buffer` is for. -/
def bufferKey (r : Request) : Nat := match r.peer with
  | none => 0
  | some dev => dev + 1

/-- A reply brings bytes that the device waits for. -/
def toBuffer (s : State) (r : Request) (bs : List Byte) (status : Nat) : State :=
  { dropRequest s r with
    buffer := s.buffer ++ [(bufferKey r, r.addr, (bs ++ List.replicate r.size 0).take r.size, status)] }

/-- A load or atomic that meets poison behind an aperture: its gang consumes it (R375, R293), and a packet's atomic fails. -/
def poisonedReply (s : State) (r : Request) : State :=
  let s := dropRequest s r
  match r.kind with
  | 0 | 2 =>
    (match (if r.lane = 64 then none else groupOf s r.group) with
     | none => s
     | some g => consume s g.gang (poisonEvent s r.group g r.va r.lane))
  | 6 => modPacket s r.word (fun p => { p with status := some 3 })
  | _ => s

/-- A write of an engine, a packet or a checkpoint has been performed. -/
def writeAnswered (s : State) (r : Request) : State :=
  let s := dropRequest s r
  if r.kind = 6 || r.reg = 1 then modPacket s r.word (fun p => { p with status := some 2 }) else s

def execEtesianReadData (s : State) : Out :=
  let f := s.input.flit
  match answered s f with
  | none => .next s
  | some r =>
    if f.typ != 4 || !(r.kind = 0 || r.kind = 4) then .next s
    else if r.kind = 4 then .next (toBuffer s r f.data f.status.toNat)
    else if f.status = 2 then .next (poisonedReply s r)
    else .next (replied s r f.data)

def execEtesianCompletion (s : State) : Out :=
  let f := s.input.flit
  match answered s f with
  | none => .next s
  | some r =>
    if f.typ != 5 then .next s
    else
      match r.kind with
      | 1 =>
        (match r.op with
         | none => .next (dropRequest s r)
         | some id => .next (partHappened (dropRequest s r) id false))
      | 2 => if f.status = 2 then .next (poisonedReply s r) else .next (replied s r f.data)
      | 5 => .next (writeAnswered s r)
      | 6 => if f.status = 2 then .next (poisonedReply s r) else .next (writeAnswered s r)
      | _ => .next s

/-! ### Refusals (R375) -/

/-- The lanes of an operation from `ln` on are taken back: they are neither performed nor written (R328). -/
def withdrawLanes (s : State) (id ln : Nat) : State :=
  let mine := fun (r : Request) => r.op == some id && decide (ln ≤ r.lane)
  let n := (s.requests.filter mine).length
  { s with
    requests := s.requests.filter (fun r => !mine r)
    ops := tmod s.ops id (fun o => { o with
      waits := o.waits - n, issued := false, owed := o.owed.filter (fun w => w.lane = 64 || decide (w.lane < ln)) }) }

/-- The kind of access that a lane's request makes. -/
def requestKind (r : Request) : Kind := if r.kind = 0 then .load else if r.kind = 1 then .store else .atomic

/-- A request that a fragment holds its word for. -/
def heldFor (id : Nat) (f : Frag) : Bool := match f.hold with
  | .scoped x _ => x == id
  | _ => false

/-- A refused lane, with no lower one still open at a peer: its word, which its fragment still holds, is taken back to that lane and
traps with cause 11. A trap mode that keeps the fragment from issuing, or a halt, comes first. -/
def nackLane (s : State) (r : Request) : State :=
  match r.op, groupOf s r.group with
  | some id, some g =>
    (match gangOf s g.gang, g.frags.find? (heldFor id) with
     | some q, some f =>
       if !trapAllows r.group g q f || q.climbed.isSome || q.halted.isSome then s
       else
         let words := match f.hold with
           | .scoped _ n => n
           | _ => 1
         let s := modGroup (withdrawLanes s id r.lane) r.group (fun g => modFrag g f.lanes (fun f =>
           { f.holding .ready s.clock with
             pix := r.lane, resumed := true, first := (if f.fresh then r.first else f.first), op := some id }))
         match outcomeOf (.cause 11) r.va (requestKind r) r.lane with
         | .trap t => takeTrap s r.group f.lanes words t
         | _ => s
     | _, _ => s)
  | _, _ => dropRequest s r

/-- Refused lanes trap at their words once the lower lanes have been answered (R328). -/
def settleRefused (s : State) : State :=
  (s.requests.filter (·.refused)).foldl (fun s r =>
    if !s.requests.contains r || s.requests.any (fun x => x.op == r.op && x.peer.isSome && decide (x.lane < r.lane)) then s
    else nackLane s r) s

/-- A unit of a transfer is refused: the transfer halts there, with cause 11 (R329). -/
def nackTransfer (s : State) (r : Request) : State :=
  match tfind s.transfers r.word with
  | none => dropRequest s r
  | some t =>
    let at0 := min t.progress r.lane
    let mine := fun (x : Request) => x.kind == 5 && x.reg == 0 && x.word == r.word && decide (r.lane ≤ x.lane)
    let s : State := { s with requests := s.requests.filter (fun x => !mine x) }
    let s := modTransfer s t.number (fun t => { t with progress := at0 })
    if t.complete.isSome || t.halted then s else stopTransfer s { t with progress := at0 } (.fault r.va 11)

/-- A packet's request is refused: its queue freezes, and the packet is tried again after its release. -/
def nackPacket (s : State) (r : Request) : State :=
  let s := dropRequest s r
  match tfind s.packets r.word with
  | none => s
  | some p => freezeQueue (modPacket s r.word (fun p => { p with started := false, work := none, status := none, stopped := true })) p.queue 11

/-- A lane's request of a word that has gone on: its peer does not refuse it (log entry 33). -/
def goneOn (s : State) (r : Request) : Bool :=
  decide (r.kind ≤ 2) && ((r.op.bind (tfind s.ops)).map (·.sure)).getD false

def execEtesianNack (s : State) : Out :=
  let f := s.input.flit
  match answered s f with
  | none => .next s
  | some r =>
    if f.typ != 6 || goneOn s r then .next s
    else
      match r.kind with
      | 0 | 1 | 2 =>
        .next (settleRefused { s with requests := s.requests.map (fun x => if x.tag = r.tag then { x with refused := true } else x) })
      | 4 => .next (toBuffer s r [] 1)
      | 5 =>
        if r.reg = 0 then .next (nackTransfer s r)
        else if r.reg = 1 then .next (nackPacket s r)
        else if r.reg = 2 then .next (endCheckpoint (dropRequest s r) r.word false (some 11))
        else .next (dropRequest s r)
      | 6 => .next (nackPacket s r)
      | _ => .next s

/-! ### Timeouts (R378) -/

/-- A load or atomic whose reply never comes: its gang consumes an uncorrectable error, recorded in its Etesian port's bank; of a gang that
is gone, the record alone is made. -/
def timedOutLoad (s : State) (r : Request) (dev : Nat) : State :=
  let e : Event := { unit := requestPort s r, cause := 0x32, sev := 3, cons := true, addr := some r.addr, synd := dev,
                     ctx := requestCtx s r, gang := requestGang s r }
  let s := dropRequest { s with tick := s.tick + 1 } r
  match (if r.lane = 64 then none else groupOf s r.group) with
  | none => recordEvent s { e with cons := false }
  | some g => consume s g.gang e

/-- PTMO of a device in nominal clocks. -/
def replyClocks (s : State) (dev : Nat) : Nat := 1050 * bits (tget peerReset s.peers dev).toNat 32 16

/-- Whether PTMO runs for a request: it has left, or no wavelength that is in service carries flits for its peer (R377). -/
def timeRuns (s : State) (r : Request) (dev : Nat) : Bool := r.sent || (wavesFor s dev).isEmpty

/-- A request has had no reply for PTMO from its last transmission: it is poison or lost, and the device is marked LOST and no longer
PRESENT. -/
def execPeerReplyTimeout (s : State) : Out :=
  match s.requests.find? (fun r => r.tag == s.input.key && r.peer.isSome && !r.refused) with
  | none => .next s
  | some r =>
    let dev := r.peer.getD 0
    if !timeRuns s r dev || s.clock < r.issuedAt + replyClocks s dev then .next s
    else
      let s := match r.kind with
        | 0 | 2 => timedOutLoad s r dev
        | 4 => toBuffer s r [] 2
        | _ => loseRequest s r
      .next { s with peers := tset peerReset s.peers dev ((tget peerReset s.peers dev &&& ~~~1) ||| 0x40) }

/-! ### Fibres (R373, R377, R378) -/

/-- Wavelength `sub` of a fibre sends what is outstanding there again, where the replays end well, or goes out of service after them, or, where the event's value is not 0, the fibre loses light and
every wavelength of it does. What is outstanding there has been sent again by then, and its lines stay with it until it is answered. -/
def execWavelengthOutOfService (s : State) : Out :=
  let f := s.input.key
  let i := s.input.sub
  let x := fibreOf s f
  if 128 ≤ f || 16 ≤ i then .next s
  else if s.input.ok then .next (resendOn s (· == 16 * f + i))
  else if s.input.value != 0 then .next (setFibre (resendOn s (fun w => w / 16 == f)) f { x with up := 0, light := false })
  else .next (setFibre (resendOn s (· == 16 * f + i)) f { x with up := x.up &&& ~~~(BitVec.ofNat 16 (2 ^ i)) })

/-- A fibre retrains with the wavelengths and the light that it then has, none without light; its mode is what MODE asks for. -/
def execFibreRetrain (s : State) : Out :=
  let f := s.input.key
  if 128 ≤ f then .next s
  else .next (setFibre s f { fibreOf s f with
    up := if s.input.ok then s.input.value.setWidth 16 else 0, light := s.input.ok, trained := (fibreOf s f).mode })

end Sys2Proof.Machine
end

