-- ==== Sys2Proof/Machine/GlobalStore.lean ====
section
/-!
DEFINITION. Global stores: ST in every form, STN, STE and ST.rel (R310 to R315, R358), and what a release waits for, which the
fences share (R359 to R362).
-/
namespace Sys2Proof.Machine

open Sys2Proof

/-! ### What releases and fences wait for (R358) -/

/-- The transfers of the open batches and sealed sets of some lanes. -/
def batchTransfers (g : Group) (m : Dword) : List Nat := (lanesOf m).flatMap (fun l => (batchOf g l).opened ++ (batchOf g l).sealed)

/-- Condition 1: every such transfer has completed. -/
def batchesDone (s : State) (g : Group) (m : Dword) : Bool := (batchTransfers g m).all (transferDone s)

/-- The units of those transfers reach their global places. -/
def releasePlaces (s : State) (g : Group) (m : Dword) : State :=
  applyPlaces s (fun p => (batchTransfers g m).contains p.transfer)

/-- Whether a lane of a mask has an access of a scope that is still to be performed. An ordinary access is performed when its
word issues (R196, R347), so nothing waits for one. -/
def scopeOpen (s : State) (key : Nat) (m : Dword) (peer : Bool) : Bool :=
  s.requests.any (fun r => r.group == key && lane m r.lane && r.peer.isSome == peer && r.kind ≤ 2)

/-- The scopes of the addresses of a release, by its Active lanes: peer and host. A lane whose address fails a check has
none. -/
def releaseScopes (w : Who) (addr : Nat → Nat) : State → List Nat → State × List (Nat × Bool)
  | s, [] => (s, [])
  | s, l :: ls =>
    let r := translate s w .store false (addr l)
    let rest := releaseScopes w addr r.1 ls
    (rest.1, match r.2 with
      | .ok (_, .peer _ _) => (l, true) :: rest.2
      | .ok (_, .host _) => (l, false) :: rest.2
      | _ => rest.2)

/-! ### ST -/

/-- The bytes that a store takes from its data register. -/
def storeData (g : Group) (d : Opnd) (n l : Nat) : List Byte :=
  if n ≤ 4 then leBytes n (val32 g d l).toNat
  else if n = 8 then leBytes 8 (val64 g d l).toNat
  else (List.range 4).flatMap (fun i => leBytes 4 (vreg g (d.toNat + i) l).toNat)

/-- A store of `n` bytes from `regs` registers per lane. -/
def stWord (s : State) (p : Option Pfx) (d a b : Opnd) (n regs : Nat) : Out :=
  alignedWord s p [(d, regs), (a, 2)] n (fun g l => laneAddr g a b n l) (fun u =>
    laneWord s u { p := p, counter := clauseSetB u.f, load := false, kind := 0, d := d, n := regs }
      (fun id _ s l => storeLane u p (whoGroup s u.key u.g) (storeData u.g d n l) none false (laneAddr u.g a b n) id s l))

def execStB (p : Option Pfx) (d a b : Opnd) (s : State) : Out := stWord s p d a b 1 1
def execStH (p : Option Pfx) (d a b : Opnd) (s : State) : Out := stWord s p d a b 2 1
def execStW (p : Option Pfx) (d a b : Opnd) (s : State) : Out := stWord s p d a b 4 1
def execStD (p : Option Pfx) (d a b : Opnd) (s : State) : Out := stWord s p d a b 8 2
def execStQ (p : Option Pfx) (d a b : Opnd) (s : State) : Out := stWord s p d a b 16 4

/-- STN: data in d, the nibble mask in the low byte of d + 1, or of the scalar's upper half (R313). -/
def execStn (p : Option Pfx) (d a b : Opnd) (s : State) : Out :=
  alignedWord s p [(d, 2), (a, 2)] 4 (fun g l => laneAddr g a b 4 l) (fun u =>
    laneWord s u { p := p, counter := clauseSetB u.f, load := false, kind := 0, d := d, n := 2 }
      (fun id _ s l => storeLane u p (whoGroup s u.key u.g) (leBytes 4 (val64 u.g d l).toNat) (some (bits (val64 u.g d l).toNat 32 8))
        false (laneAddr u.g a b 4) id s l))

/-- One lane of STE. -/
def steLane (u : Issue) (p : Option Pfx) (d a : Opnd) (s : State) (l : Nat) : LaneOut :=
  let w := (whoGroup s u.key u.g).ofThread u.key l
  match elementAt s w .store (bit (auxOf p) 0) (val64 u.g a l).toNat with
  | (s, .error (b, va, k)) => laneBad s b va k l
  | (s, .ok x) =>
    let rm := modeOf u.g p
    let dr := if noQuotient (float32 u.g d l) x.scale then (0, rngOf u.g l) else drawRng rm (rngOf u.g l)
    let s := placeCovered (noteFrame s w.part x.dpa true) u.key l (.ma (16 * (x.ma / 16)))
    let ls := lanesOf (execLanes u p)
    let s := if (elementRuns s u .store p a (ls.filter (· < l))).any (fun r => r.1 / 128 == x.va / 128) then s
      else fetchFor s (writerOf w.core) x.va x.ma (elementRuns s u .store p a ls)
    let s := storeElement s (writerOf w.core) x (storedPattern x.fmt (satOf p) rm dr.1 (float32 u.g d l) x.scale)
    (modGroup (noteWrite s u.key l) u.key (fun g => setRng g l dr.2), .ok ⟨none, false, bytesFrom x.va x.size⟩)

def execSte (p : Option Pfx) (d a : Opnd) (s : State) : Out :=
  withReads s [(d, 1), (a, 2)] (fun u =>
    laneWord s u { p := p, counter := clauseSetB u.f, load := false, kind := 0, d := d, n := 1 }
      (fun _ _ s l => steLane u p d a s l))

/-! ### ST.rel -/

/-- Whether the conditions of R358 hold for the Active lanes of a release. -/
def releaseMet (s : State) (u : Issue) (m : Dword) (scopes : List (Nat × Bool)) : Bool :=
  batchesDone s u.g m &&
  scopes.all (fun x => !scopeOpen s u.key (laneBit x.1) x.2)

def execStRel (p : Option Pfx) (d a b : Opnd) (s : State) : Out :=
  let regs := 2 ^ (auxOf p % 4)
  let n := 4 * regs
  alignedWord s p [(d, regs), (a, 2)] n (fun g l => laneAddr g a b n l) (fun u =>
    let act := execLanes u p
    match releaseScopes (whoGroup s u.key u.g) (laneAddr u.g a b n) s (lanesOf act) with
    | (s, scopes) =>
      if releaseMet s u act scopes then
        laneWord (releasePlaces s u.g act) u
          { p := p, counter := clauseSetB u.f, load := false, kind := 0, d := d, n := regs }
          (fun id _ s l => storeLane u p (whoGroup s u.key u.g) (storeData u.g d n l) none true (laneAddr u.g a b n) id s l)
      else .next (holdUnit s u (.release act scopes)))

end Sys2Proof.Machine
end

