-- ==== Sys2Proof/Machine/Fence.lean ====
section
/-!
DEFINITION. Fences (R359 to R363).
-/
namespace Sys2Proof.Machine

open Sys2Proof

/-- A fence holds its fragment until, for every live thread, its accesses of the scopes that the fence names have been performed and
its batches are done where condition 1 of R358 is asked for; then it acts. -/
def fenceOp (s : State) (peer host batches : Bool) (act : State → Issue → State) : Out :=
  withIssue s (fun u =>
    if (peer && scopeOpen s u.key u.f.lanes true) || (host && scopeOpen s u.key u.f.lanes false) ||
        (batches && !batchesDone s u.g u.f.lanes)
    then .next (holdUnit s u (.fence peer host batches))
    else .next (finish (act s u) u))

/-- Host-scope stores that the threads issue from now on are sent in order (R356). -/
def markFenced (s : State) (u : Issue) : State := modGroup s u.key (fun g => { g with fenced := g.fenced ||| u.f.lanes })

/-- Later engine reads of the threads are anchored here (R349). -/
def acquireHere (s : State) (u : Issue) : State := (lanesOf u.f.lanes).foldl (fun s l => noteAcquire s u.key l) s

def execFencePeer (s : State) : Out :=
  fenceOp s true false false (fun s _ => s)

def execFenceHost (s : State) : Out :=
  fenceOp s false true false markFenced

def execFenceAsyncRel (s : State) : Out :=
  fenceOp s false false true (fun s u => releasePlaces s u.g u.f.lanes)

def execFenceAsyncAcq (s : State) : Out := fenceOp s false false false acquireHere

def execFenceAsync (s : State) : Out :=
  fenceOp s false false true (fun s u => acquireHere (releasePlaces s u.g u.f.lanes) u)

def execFenceIo (s : State) : Out :=
  fenceOp s true true true (fun s u => markFenced (releasePlaces s u.g u.f.lanes) u)

end Sys2Proof.Machine
end

