-- ==== Sys2Proof/Machine/GlobalLoad.lean ====
section
/-!
DEFINITION. Global loads: LD in every form, LDU, LDE, PREF, LD.acq and LD.nt (R310, R311, R314, R315, R357).
-/
namespace Sys2Proof.Machine

open Sys2Proof

/-- A load of `n` bytes into `regs` registers per lane. -/
def ldWord (s : State) (p : Option Pfx) (d a b : Opnd) (n regs : Nat) (sgn acq : Bool) : Out :=
  alignedWord s p [(d, regs), (a, 2)] n (fun g l => laneAddr g a b n l) (fun u =>
    laneWord s u { p := p, counter := clauseSetA u.f, load := true, kind := 2, d := d, n := regs, z := zOf p, acquire := acq }
      (fun id first s l => loadLane u (whoGroup s u.key u.g) d regs n sgn acq (wordRuns u p n (laneAddr u.g a b n))
        (laneAddr u.g a b n l) id first s l))

def execLdB (p : Option Pfx) (d a b : Opnd) (s : State) : Out := ldWord s p d a b 1 1 false false
def execLdH (p : Option Pfx) (d a b : Opnd) (s : State) : Out := ldWord s p d a b 2 1 false false
def execLdW (p : Option Pfx) (d a b : Opnd) (s : State) : Out := ldWord s p d a b 4 1 false false
def execLdD (p : Option Pfx) (d a b : Opnd) (s : State) : Out := ldWord s p d a b 8 2 false false
def execLdQ (p : Option Pfx) (d a b : Opnd) (s : State) : Out := ldWord s p d a b 16 4 false false
def execLdBs (p : Option Pfx) (d a b : Opnd) (s : State) : Out := ldWord s p d a b 1 1 true false
def execLdHs (p : Option Pfx) (d a b : Opnd) (s : State) : Out := ldWord s p d a b 2 1 true false

/-- Registers that the size of an aux form takes: 4, 8 or 16 bytes. -/
def auxRegs (p : Option Pfx) : Nat := 2 ^ (auxOf p % 4)

def execLdAcq (p : Option Pfx) (d a b : Opnd) (s : State) : Out := ldWord s p d a b (4 * auxRegs p) (auxRegs p) false true
def execLdNt (p : Option Pfx) (d a b : Opnd) (s : State) : Out := ldWord s p d a b (4 * auxRegs p) (auxRegs p) false false

/-- LDU: one access, of the lowest Active lane's thread. -/
def execLdu (p : Option Pfx) (d a b : Opnd) (s : State) : Out :=
  let n := 4 * 2 ^ (auxOf p % 2)
  alignedWord s p [(d, 1), (a, 1)] n (fun g l => laneAddr g a b n l) (fun u =>
    laneWord s u { p := p, counter := clauseSetA u.f, load := true, kind := 2, d := d, n := 1, single := true }
      (fun id first s l => loadLane u (whoGroup s u.key u.g) d 1 n false false [(laneAddr u.g a b n l, n)]
        (laneAddr u.g a b n l) id first s l))

/-- One lane of LDE. -/
def ldeLane (u : Issue) (p : Option Pfx) (a : Opnd) (s : State) (l : Nat) : LaneOut :=
  let w := (whoGroup s u.key u.g).ofThread u.key l
  match elementAt s w .load (bit (auxOf p) 0) (val64 u.g a l).toNat with
  | (s, .error (b, va, k)) => laneBad s b va k l
  | (s, .ok x) =>
    let rm := modeOf u.g p
    let dr := drawRng rm (rngOf u.g l)
    let s := noteLoad s u.key l (.ma (16 * (x.ma / 16))) (x.ma % 16) x.size
    match captured s u.key l x.cap .load 4 (fun s =>
        let s := fetchFor (noteFrame s w.part x.dpa false) (writerOf w.core) x.va x.ma (elementRuns s u .load p a (lanesOf (execLanes u p)))
        let give := fun (v : Nat) => roundFmt .f32 (satOf p) rm dr.1 ((decodeFmt x.fmt v).mul x.scale)
        match coveredBytes s u.key l (.ma (16 * (x.ma / 16))) (x.ma % 16) x.size with
        | some (bs, poison) => (s, if poison then .error (.consume x.va, x.va) else .ok (give (x.pattern (leNat bs))))
        | none =>
          if s.mem.marked x.ma x.size then (s, .error (.consume x.va, x.va))
          else (s, .ok (give (x.pattern (leNat (s.mem.bytesAt x.ma x.size)))))) with
    | (s, .error e) => (s, .error e)
    | (s, .ok v) => (modGroup s u.key (fun g => setRng g l dr.2), .ok ⟨some v, false, bytesFrom x.va x.size⟩)

def execLde (p : Option Pfx) (d a : Opnd) (s : State) : Out :=
  withReads s [(d, 1), (a, 2)] (fun u =>
    laneWord s u { p := p, counter := clauseSetA u.f, load := true, kind := 2, d := d, n := 1, z := zOf p }
      (fun _ _ s l => ldeLane u p a s l))

/-- One lane of a prefetch: a line that an access would find is brought in, and any other does nothing. -/
def prefetch (s : State) (w : Who) (va : Nat) : State :=
  match translate s w .load false va with
  | (s, .ok (_, .dev dpa ma)) =>
    let line := 128 * (ma / 128)
    if s.mem.marked line 128 then s else noteReads (fetchLines (noteFrame s w.part dpa false) (writerOf w.core) line 128) w.core line 128
  | (s, .error (.wait line)) => askLine s line
  | (s, _) => s

def prefWord (s : State) (p : Option Pfx) (a b : Opnd) : Out :=
  withRegs s [(a, 2)] (fun u =>
    .next (finish ((lanesOf (execLanes u p)).foldl
      (fun s l => prefetch s (whoGroup s u.key u.g) (laneAddr u.g a b 128 l)) s) u))

def execPref (p : Option Pfx) (a b : Opnd) (s : State) : Out := prefWord s p a b
def execPrefLlc (p : Option Pfx) (a b : Opnd) (s : State) : Out := prefWord s p a b

end Sys2Proof.Machine
end

