-- ==== Sys2Proof/Machine/HostLink.lean ====
section
/-!
DEFINITION. The host link (R287, R352): completions and failures of this device's own requests, and what happens to a host function
itself (R403, R492).
-/
namespace Sys2Proof.Machine

open Sys2Proof

/-! ### Completions -/

/-- The request of this device to the host that a completion names. -/
def hostRequest (s : State) (tag : Nat) : Option Request := s.requests.find? (fun r => r.tag == tag && r.peer.isNone && r.kind != 1)

/-- A tier X line comes into the LLC, whole or poisoned; marks that it bears stay (R293). A write-back of it that was sent before has then
been performed: PCI Express keeps a read behind the writes before it (PRESUMED, log entry 42). -/
def fillHostLine (s : State) (r : Request) (bs : List Byte) (poisoned : Bool) : State :=
  let s := dropRequest s r
  let sectors := sectorsOf r.addr 128
  { s with mem := { s.mem with
      cells := if poisoned then s.mem.cells else writeBytes s.mem.cells r.addr ((bs ++ List.replicate 128 0).take 128)
      xlines := insertNat (r.addr / 128) s.mem.xlines
      posted := removeNat (r.addr / 128) s.mem.posted
      poison := if poisoned then addPoison sectors s.mem.poison else s.mem.poison } }

/-- A write-back of a tier X line fails: its store is lost, and its line is poisoned (R287). -/
def losePosted (s : State) (line : Nat) : State :=
  let addr := some (128 * line - hostBase)
  let s := recordEvent s { unit := unitHostPort, cause := 0x31, sev := 3, addr := addr }
  let s := recordEvent s { unit := unitHostPort, cause := 0x11, sev := 2, addr := addr, synd := s.input.value.toNat }
  { s with mem := { s.mem with
      posted := removeNat line s.mem.posted
      poison := addPoison ((List.range 8).map (fun i => 8 * line + i)) s.mem.poison } }

/-- A completion performs a load or an atomic, fills a line, or brings bytes that the device waits for. -/
def execHostLinkCompletion (s : State) : Out :=
  match hostRequest s s.input.key with
  | none => .next s
  | some r =>
    let bs := s.input.data
    match r.kind with
    | 0 | 2 => .next (replied s r bs)
    | 3 => .next (serveInbound (fillHostLine s r bs false))
    | 4 => .next (toBuffer s r bs 0)
    | 6 => .next (writeAnswered s r)
    | _ => .next s

/-- A request that ends in Unsupported Request, Completer Abort or a completion timeout: a line of tier X comes poisoned, and a load
or atomic consumes poison. With 1 in `sub` the write-back of the line named fails. -/
def execHostLinkRequestFail (s : State) : Out :=
  if s.input.sub = 1 then .next (if s.mem.posted.contains s.input.key then losePosted s s.input.key else s)
  else
  match hostRequest s s.input.key with
  | none => .next s
  | some r =>
    match r.kind with
    | 3 =>
      let s := recordEvent s { unit := unitHostPort, cause := 0x11, sev := 2, addr := some (r.addr - hostBase), synd := s.input.value.toNat }
      .next (serveInbound (fillHostLine s r [] true))
    | 4 => .next (toBuffer s r [] 2)
    | _ => .next (poisonedReply s r)

/-! ### A function's own reset and MSI-X table -/

/-- The reset of a function clears its latches (R492). -/
def execFunctionReset (s : State) : Out :=
  match s.funcs[s.input.fn]? with
  | none => .next s
  | some f => .next { s with funcs := s.funcs.set s.input.fn { f with latch := [] } }

/-- A write of the host to a function's MSI-X Enable, or one that masks an entry of its table (R403). -/
def execPci (s : State) : PciWrite → State
  | .msixEnable fn on => { s with funcs := s.funcs.modify fn (fun f => { f with msixOn := on }) }
  | .maskEntry fn e => { s with funcs := s.funcs.modify fn (fun f => { f with masked := insertNat e f.masked }) }

/-- An entry of a function's MSI-X table is unmasked: the message that it held goes out (R403). -/
def execMsixEntryUnmask (s : State) : Out :=
  let fn := s.input.fn
  let e := s.input.key
  match s.funcs[fn]? with
  | none => .next s
  | some f =>
    let held := f.waiting.contains e && f.masked.contains e
    let s := if held then flushHost s else s
    .next { s with
      funcs := s.funcs.set fn { f with masked := f.masked.filter (· != e), waiting := f.waiting.filter (· != e) }
      sent := s.sent ++ (if held then [.msix fn e] else []) }

end Sys2Proof.Machine
end

