-- ==== Sys2Proof/Machine/Register.lean ====
section
/-!
DEFINITION. Host writes to the control space (R403, R492), register by register, with the registers whose writes have an effect of their
own: DIESTAT (R13), ERRCLRH (R437), ATTNONCE and the attestation report (R458).
-/
namespace Sys2Proof.Machine

open Sys2Proof

/-! ### DIESTAT (R13) -/

/-- A launch that is admitted to a half-die of its partition: it has gangs still to be placed that may go to the die. -/
def admittedTo (part die : Nat) (l : Launch) : Bool :=
  l.part == part && l.admitted && !l.destroyed &&
  (l.unplaced ++ l.saved).any (fun x => match gangDie l x.1 with
    | none => true
    | some d => d == die)

/-- A gang is resident on the half-die, or a launch of its partition is admitted to it. -/
def halfBusy (s : State) (die half part : Nat) : Bool :=
  s.gangs.any (fun q => q.2.cores.any (fun c => c / 8 == 2 * die + half)) || s.launches.any (fun l => admittedTo part die l.2)

/-- A write of PARTLO (half 0) or PARTHI (half 1). -/
def movePart (s : State) (die half v : Nat) : State :=
  match s.dies[die]? with
  | none => s
  | some d =>
    let old := if half = 0 then d.partlo else d.parthi
    let rejected := setDie s die { d with rej := true }
    if d.fenced || v = 6 then rejected
    else if v = old then s
    else if halfBusy s die half old then rejected
    else setDie s die (if half = 0 then { d with partlo := v } else { d with parthi := v })

def diestatOp (s : State) (half : Nat) : Out :=
  let die := s.input.key
  if 3 ≤ die then .next s
  else hostAct s (0x100000 + 0x100 * die) none (fun s => .next (movePart s die half (s.input.value.toNat % 8)))

def execDiestatPartlo (s : State) : Out := diestatOp s 0
def execDiestatParthi (s : State) : Out := diestatOp s 1

/-! ### ERRCLRH (R437) -/

/-- The offset of ERRCLRH, and the key of its result. -/
def ERRCLRH_AT : Nat := 0x7F0000

def execErrclrh (s : State) : Out :=
  latchedAct s ERRCLRH_AT none (fun s =>
    let unit := s.input.value.toNat % 65536
    let r := if unitExists unit then clearBank s unit s.input.value2.toNat else (s, false)
    .next { r.1 with results := tput r.1.results ERRCLRH_AT (BitVec.ofNat 64 (!r.2).toNat) })

/-! ### Attestation (R458) -/

/-- DIESTAT of a die (R13). -/
def diestat (d : Die) : Nat :=
  (if d.fenced then 0 else d.live.toNat) + 2 ^ 16 * d.spused.toNat + 2 ^ 17 * (d.spfor % 16) + 2 ^ 21 * d.fenced.toNat +
    2 ^ 22 * (d.partlo % 8) + 2 ^ 25 * (d.parthi % 8) + 2 ^ 28 * d.rej.toNat

/-- A nonce starts a report, or starts again one that is being signed. -/
def startReport (s : State) (nonce : List Byte) : State :=
  { s with identity := { s.identity with nonce := nonce, report := [], ready := false, since := s.clock } }

/-- What a report signs, in the order of R458. -/
def reportBody (s : State) : List Byte :=
  let version := match s.flash.running.bind (fun i => s.flash.images[i]?) with
    | none => 0
    | some x => x.2
  s.identity.nonce ++ (Config.serial ++ List.replicate 16 0).take 16 ++ digest64 Config.bootImage ++ digest64 Config.runtimeImage ++
    leBytes 4 version ++ s.dies.flatMap (fun d => leBytes 4 (diestat d)) ++ leBytes 8 s.ctxtab.toNat

def execAttnonce (s : State) : Out :=
  hostAct s 0x820100 none (fun s => if s.input.data.length = 32 then .next (startReport s s.input.data) else .next s)

/-- The signed report stands in its window. -/
def execAttestationReportReady (s : State) : Out :=
  if s.identity.nonce.isEmpty || s.identity.ready then .next s
  else
    let body := reportBody s
    .next { s with identity := { s.identity with report := body ++ signature114 body, ready := true } }

/-! ### Control-space registers -/

/-- The registers that a host write can act on. -/
inductive Reg where
  | diestat (die : Nat)
  | rbstat
  | llcway
  | hpcfg (part : Nat)
  | ctxtab
  | lvstat (die : Nat)
  | peercfg (dev : Nat)
  | etstat (fibre : Nat)
  | frzcmd
  | fnbind (fn : Nat)
  | ctxcmd (ctx : Nat)
  | gsave
  | gload
  | qcfg (q : Nat)
  | dbell (q : Nat)
  | errclrh
  | idcfg
  | dbgctl (ctx : Nat)
deriving DecidableEq, Repr, Inhabited

/-- A run of registers: its base, how many, how far apart and how many bytes wide, and the register of each place. -/
structure RegBlock where
  base   : Nat
  count  : Nat
  stride : Nat
  width  : Nat
  reg    : Nat → Reg

def regBlocks : List RegBlock :=
  [⟨0x100000, 3, 0x100, 4, .diestat⟩, ⟨0x410000, 1, 8, 8, fun _ => .rbstat⟩, ⟨0x410100, 1, 24, 24, fun _ => .llcway⟩,
   ⟨0x410200, 6, 0x20, 24, .hpcfg⟩, ⟨0x420000, 1, 8, 8, fun _ => .ctxtab⟩, ⟨0x430000, 4, 0x100, 8, .lvstat⟩,
   ⟨0x440000, 256, 8, 8, .peercfg⟩, ⟨0x450000, 128, 8, 8, .etstat⟩, ⟨0x470000, 1, 8, 8, fun _ => .frzcmd⟩,
   ⟨0x470100, 6, 8, 8, fun i => .fnbind (i + 1)⟩, ⟨0x480000, 256, 8, 8, .ctxcmd⟩, ⟨0x490000, 1, 16, 16, fun _ => .gsave⟩,
   ⟨0x490010, 1, 16, 16, fun _ => .gload⟩, ⟨0x500000, 65536, 16, 16, .qcfg⟩, ⟨0x600000, 65536, 8, 8, .dbell⟩,
   ⟨0x7F0000, 1, 16, 16, fun _ => .errclrh⟩, ⟨0x820000, 1, 8, 8, fun _ => .idcfg⟩, ⟨0x900000, 256, 8, 8, .dbgctl⟩]

/-- The register that holds an offset, with the place of the offset in it and its width. -/
def regAt (o : Nat) : Option (Reg × Nat × Nat) :=
  regBlocks.findSome? (fun b =>
    if b.base ≤ o && o < b.base + b.count * b.stride && (o - b.base) % b.stride < b.width
    then some (b.reg ((o - b.base) / b.stride), (o - b.base) % b.stride, b.width) else none)

/-- The place of an offset in a block of registers. -/
def placeIn (o base count stride : Nat) : Option Nat :=
  if base ≤ o && o < base + count * stride then some ((o - base) / stride) else none

/-- The partition that owns a comparator (R459). -/
def comparatorPart (c : Comparator) : Option Nat := if c.part = 7 then none else some c.part

/-- The partition whose register or window stands at an offset, for the sets of R403; none for what only PF0 may write. -/
def regPart (s : State) (o : Nat) : Option Nat :=
  match regAt o with
  | some (.hpcfg p, _) => some p
  | some (.ctxcmd c, _) | some (.dbgctl c, _) => some (ctxPart s c)
  | some (.qcfg q, _) | some (.dbell q, _) => some (ctxPart s (queueOf s q).ctx.toNat)
  | some (.gsave, _) | some (.gload, _) => ownPart s
  | some _ => none
  | none =>
    match placeIn o 0x460000 6 0x100, placeIn o 0x810000 6 0x20, placeIn o 0x930000 6 8, placeIn o 0xA00000000 6 0x100000 with
    | some p, _, _, _ | none, some p, _, _ | none, none, some p, _ | none, none, none, some p => some p
    | none, none, none, none =>
      match placeIn o 0x910000 768 16, placeIn o 0x914000 32 16 with
      | some n, _ => if n % 16 < 8 then comparatorPart (tget Comparator.reset (coreOf s (n / 16)).data (n % 16)) else none
      | none, some j => comparatorPart (tget Comparator.reset s.cxComps j)
      | none, none => none

/-! ### Bytes of a write -/

/-- The bytes of a write, from a place in its register on. -/
structure RegWrite where
  off : Nat
  bs  : List Byte
deriving DecidableEq, Repr, Inhabited

/-- The byte that a write brings to a place of the register. -/
def RegWrite.byte (w : RegWrite) (i : Nat) : Option Byte := if w.off ≤ i then w.bs[i - w.off]? else none

/-- The register's bytes with those of a write in place. -/
def RegWrite.merged (w : RegWrite) (n old : Nat) : Nat :=
  leNat ((List.range n).map (fun i => (w.byte i).getD (BitVec.ofNat 8 (bits old (8 * i) 8))))

/-- The register's bytes as the write gives them, with 0 where it brings none. -/
def RegWrite.value (w : RegWrite) (n : Nat) : Nat := w.merged n 0

/-! ### Latches (R492) -/

/-- The latest byte that a latch holds for a place. -/
def latchByte (xs : List (Nat × Byte)) (i : Nat) : Option Byte := (xs.find? (fun x => x.1 == i)).map (·.2)

/-- The bytes that a write brings to places, as a latch keeps them. -/
def RegWrite.places (w : RegWrite) (is : List Nat) : List (Nat × Byte) := is.filterMap (fun i => (w.byte i).map (fun b => (i, b)))

/-- A write to a register of 128 bits that acts at its highest byte: the whole value, once it acts. -/
def latchWrite (s : State) (fn key : Nat) (w : RegWrite) : State × Option Nat :=
  let held := latchOf s fn key
  if (w.byte 15).isSome then
    (setLatch s fn key [], some (leNat ((List.range 16).map (fun i => ((w.byte i).getD ((latchByte held i).getD 0))))))
  else (setLatch s fn key (w.places (List.range 16) ++ held.filter (fun x => (w.byte x.1).isNone)), none)

/-! ### LLCWAY (R306, R492) -/

def LLCWAY_AT : Nat := 0x410100

/-- One mask after a write: a mask that lies in two words changes only with its highest byte, and takes what was latchByte. -/
def maskAfter (w : RegWrite) (held : List (Nat × Byte)) (i old : Nat) : Nat :=
  let straddles := i == 2 || i == 5
  let byteAt := fun (k : Nat) =>
    (w.byte (3 * i + k)).getD ((if straddles then latchByte held (3 * i + k) else none).getD (BitVec.ofNat 8 (bits old (8 * k) 8)))
  let touched := (List.range 3).any (fun k => (w.byte (3 * i + k)).isSome)
  if !touched || (straddles && (w.byte (3 * i + 2)).isNone) then old
  else
    let x := leNat ((List.range 3).map byteAt)
    if x = 0 then 0xFFFFFF else x

def writeLlcway (s : State) (fn : Nat) (w : RegWrite) : State :=
  let held := latchOf s fn LLCWAY_AT
  let masks := (List.range 8).map (fun i => BitVec.ofNat 24 (maskAfter w held i ((s.mem.llcway[i]?).getD 0).toNat))
  let low := [6, 7].filter (fun _ => (w.byte 8).isNone) ++ [15, 16].filter (fun _ => (w.byte 17).isNone)
  let keep := held.filter (fun x => low.contains x.1 && (w.byte x.1).isNone)
  setLatch { s with mem := { s.mem with llcway := masks } } fn LLCWAY_AT (w.places low ++ keep)

/-! ### The other registers -/

/-- HPCFG as 192 bits, and from them (R307). -/
def HotCfg.toNat (h : HotCfg) : Nat :=
  h.maxmove % 8192 + 2 ^ 16 * (h.promo % 65536) + 2 ^ 32 * (h.demote % 65536) + 2 ^ 63 * h.en.toNat + 2 ^ 64 * (h.xframe % 2 ^ 40) +
    2 ^ 104 * (h.xcount % 2 ^ 24) + 2 ^ 128 * (h.hframe % 2 ^ 24) + 2 ^ 152 * (h.hcount % 2 ^ 24)

def HotCfg.ofNat (x : Nat) : HotCfg :=
  { maxmove := min 4096 (bits x 0 13), promo := bits x 16 16, demote := bits x 32 16, en := bit x 63, xframe := bits x 64 40,
    xcount := bits x 104 24, hframe := bits x 128 24, hcount := bits x 152 24 }

/-- PEERCFG after a write: LOST is cleared by a 1, FROZEN stays. -/
def peerAfter (old : Dword) (w : RegWrite) : Dword :=
  let x := w.merged 8 old.toNat
  let part := if bits x 8 3 = 6 then 7 else bits x 8 3
  let ptmo := if bits x 32 16 < 10 then 10 else bits x 32 16
  let lost := old.getLsbD 6 && !bit (w.value 8) 6
  BitVec.ofNat 64 (bits x 0 5 + 32 * (old.getLsbD 5).toNat + 64 * lost.toNat + 256 * part + 2 ^ 32 * ptmo)

/-- DIESTAT: the two partitions, and REJ, which a 1 clears before either write sets it. -/
def writeDiestat (s : State) (die : Nat) (w : RegWrite) : State :=
  if (w.byte 3).isNone then s
  else
    let d := (s.dies[die]?).getD Die.reset
    let x := w.merged 4 (diestat d)
    let s := if bit (w.value 4) 28 then setDie s die { d with rej := false } else s
    movePart (movePart s die 0 (bits x 22 3)) die 1 (bits x 25 3)

/-- QCFG as 128 bits, but CMD (R379). -/
def qcfgImage (x : Queue) : Nat :=
  x.state % 4 + 2 ^ 8 * x.ctx.toNat + 2 ^ 16 * (x.log2n % 32) + 2 ^ 24 * (x.weight % 32) + 2 ^ 29 * x.privok.toNat +
    2 ^ 32 * x.head.toNat + 2 ^ 64 * x.rbase.toNat

/-- QCFG: its fields while the queue is off, and then CMD. -/
def writeQcfg (s : State) (q : Nat) (w : RegWrite) : State :=
  let x := queueOf s q
  let s := if x.state = 0 then setQueue s q (queueImage x (w.merged 16 (qcfgImage x))) else s
  match bits (w.value 16) 2 2 with
  | 1 => (createQueue s q).1
  | 2 => destroyQueue s q false
  | 3 => destroyQueue s q true
  | _ => s

/-- An event of the table with what a write brings to it. -/
def asEvent (s : State) (key value value2 : Nat) : State :=
  { s with input := { s.input with key := key, value := BitVec.ofNat 64 value, value2 := BitVec.ofNat 64 value2 } }

/-- A write that the function may make acts on its register. Reserved and read-only bits take no write, and a register of which no byte is
writable takes none at all. -/
def writeReg (s : State) (fn : Nat) (r : Reg) (w : RegWrite) : Out :=
  match r with
  | .diestat die => .next (writeDiestat s die w)
  | .rbstat =>
    .next (if bit (w.value 8) 11 then { s with mem := { s.mem with rebuild := { s.mem.rebuild with nospare := false } } } else s)
  | .llcway => .next (writeLlcway s fn w)
  | .hpcfg p => .next { s with mem := { s.mem with hot := s.mem.hot.set p (HotCfg.ofNat (w.merged 24 (hotOf s.mem p).toNat)) } }
  | .ctxtab => .next { s with ctxtab := BitVec.ofNat 64 (bits (w.merged 8 s.ctxtab.toNat) 14 34 * 2 ^ 14) }
  | .lvstat die =>
    .next (if bits (w.value 8) 8 7 = 0 then s else setLevant s die { levantOf s die with ephigh := 0 })
  | .peercfg dev => .next { s with peers := tset peerReset s.peers dev (peerAfter (tget peerReset s.peers dev) w) }
  | .etstat f => match w.byte 2 with
    | none => .next s
    | some b => .next (setFibre s f { fibreOf s f with mode := b.getLsbD 0 })
  | .frzcmd => if (w.byte 0).isNone then .next s else execFrzcmd (asEvent s 0 (w.value 8) 0)
  | .fnbind n => match w.byte 0, s.funcs[n]? with
    | some b, some f =>
      let part := b.toNat % 8
      .next { s with funcs := s.funcs.set n { f with part := if part = 6 then 7 else part } }
    | _, _ => .next s
  | .ctxcmd c => match bits (w.value 8) 0 2 with
    | 1 => execCtxcmdKillAll (asEvent s c 0 0)
    | 2 => execCtxcmdKillHeld (asEvent s c 0 0)
    | 3 => execCtxcmdRelease (asEvent s c 0 0)
    | _ => .next s
  | .gsave => match latchWrite s fn GSAVE_AT w with
    | (s, none) => .next s
    | (s, some x) => match x / 2 ^ 64 with
      | 0 => execGsave (asEvent s 0 x 0)
      | 1 => execGsaveReplace (asEvent s 0 x 0)
      | _ => .next s
  | .gload => match latchWrite s fn GLOAD_AT w with
    | (s, none) => .next s
    | (s, some x) => execGload (asEvent s 0 x (x / 2 ^ 64))
  | .qcfg q => .next (writeQcfg s q w)
  | .dbell q => if (w.byte 0).isNone then .next s else execDoorbell (asEvent s q (w.value 4) 0)
  | .errclrh => match latchWrite s fn ERRCLRH_AT w with
    | (s, none) => .next s
    | (s, some x) => execErrclrh (asEvent s 0 x (x / 2 ^ 64))
  | .idcfg => match w.byte 0 with
    | none => .next s
    | some b => .next { s with identity := { s.identity with devnum := b.toNat } }
  | .dbgctl c => match w.byte 0 with
    | none => .next s
    | some b =>
      let s := setCtx s c { ctxOf s c with attach := b.getLsbD 0 }
      match bits b.toNat 2 2 with
      | 1 => execDbgctlResumeDiscard (asEvent s c 0 0)
      | 2 => execDbgctlResumeDeliver (asEvent s c 0 0)
      | _ => .next s

/-- The sizes of an access: 32 or 64 bits, naturally aligned, or the full width of a register (R492). -/
def accessSize (o n : Nat) : Bool :=
  ((n == 4 || n == 8) && o % n == 0) || (match regAt o with
    | some (_, 0, width) => n == width
    | _ => false)

/-- A host write of so many bytes at an offset; what goes beyond 64 bits comes as the event's data. -/
def execControlRegisterWrite (s : State) : Out :=
  let o := s.input.key
  let n := s.input.sub
  let bs := (leBytes 8 s.input.value.toNat ++ s.input.data ++ List.replicate 24 0).take n
  hostAct s o (regPart s o) (fun s =>
    if !accessSize o n then .next s
    else
      match regAt o with
      | none => .next s
      | some (r, off, _) => writeReg s s.input.fn r ⟨off, bs⟩)

end Sys2Proof.Machine
end

