-- ==== Sys2Proof/Machine/Mgmt.lean ====
section
/-!
DEFINITION. The management port (R447, R448): its addresses, the MCTP control commands, and the commands of message type 0x7F. The
bodies of the control responses follow DMTF DSP0236, to which the manual refers (PRESUMED).
-/
namespace Sys2Proof.Machine

open Sys2Proof

/-- A response goes out. -/
def respond (s : State) (bytes : List Byte) : State := { s with sent := s.sent ++ [.management bytes] }

/-! ### MCTP control -/

/-- A control response: message type 0x00, the command, completion code and data. -/
def controlResponse (s : State) (command code : Nat) (data : List Byte) : State :=
  respond s (leBytes 1 0 ++ leBytes 1 command ++ leBytes 1 code ++ data)

def execSmbusArpAssign (s : State) : Out := .next { s with power := { s.power with smbus := s.input.value.setWidth 7 } }

/-- Set Endpoint ID: accepted, with no pool. -/
def execSetEndpointId (s : State) : Out :=
  let eid : Byte := s.input.value.setWidth 8
  .next (controlResponse { s with power := { s.power with eid := eid } } 1 0 [0, eid, 0])

/-- Get Endpoint ID: a simple endpoint with a dynamic ID. -/
def execGetEndpointId (s : State) : Out := .next (controlResponse s 2 0 [s.power.eid, 0, 0])

/-- Get MCTP Version Support: one version entry, which the manual does not state. -/
def execGetMctpVersionSupport (s : State) : Out :=
  let x := BitVec.ofNat 32 (Config.freeChoice s.tick)
  .next (controlResponse { s with tick := s.tick + 1 } 4 0 (leBytes 1 1 ++ leBytes 4 x.toNat))

/-- Get Message Type Support: control, and vendor defined with an IANA number. -/
def execGetMessageTypeSupport (s : State) : Out := .next (controlResponse s 5 0 (leBytes 1 2 ++ leBytes 1 0 ++ leBytes 1 0x7F))

/-- Get Vendor Defined Message Support: the one vendor-ID set, IANA format, most significant byte first as DSP0236 has it, and
command-set version 1. -/
def execGetVendorDefinedMessageSupport (s : State) : Out :=
  if s.input.value.toNat % 256 = 0 then
    .next (controlResponse s 6 0 (leBytes 1 0xFF ++ leBytes 1 1 ++ (leBytes 4 Config.vendor.toNat).reverse ++ (leBytes 2 1).reverse))
  else .next (controlResponse s 6 2 [])

/-! ### Commands of type 0x7F -/

/-- A response: the enterprise number, COMMAND and TAG, the completion code, and data on success. -/
def vendorResponse (s : State) (command : Nat) (tag : Byte) (code : Nat) (data : List Byte) : State :=
  respond s (leBytes 1 0x7F ++ leBytes 4 Config.vendor.toNat ++ leBytes 1 command ++ [tag] ++ leBytes 1 code ++
    (if code = 0 then data else []))

/-- A command with a request of so many data bytes: its effect, completion code and response data. -/
def vendorCommand (s : State) (command len : Nat) (k : State → List Byte → State × Nat × List Byte) : Out :=
  let r := s.input.request
  if !r.onePacket || r.zero != 0 || r.data.length != len then .next (vendorResponse s command r.tag 1 [])
  else
    let x := k s r.data
    .next (vendorResponse x.1 command r.tag x.2.1 x.2.2)

/-- A request whose command the port does not serve: completion code 0x05, unless it is malformed or its command is one of those served. -/
def answerUnserved (s : State) (vendor : Bool) (command : Nat) (r : MgmtRequest) : State :=
  if vendor then
    if 1 ≤ command && command ≤ 6 then s
    else vendorResponse s command r.tag (if !r.onePacket || r.zero != 0 then 1 else 5) []
  else if [1, 2, 4, 5, 6].contains command then s
  else controlResponse s command 5 []

def execReadPowerStatus (s : State) : Out := vendorCommand s 1 0 (fun s _ => (s, 0, leBytes 8 (pwrstat s)))

/-- PORTREQ is recorded, and the governor turns to the highest request (R16, R444). -/
def execSetPortStepRequest (s : State) : Out :=
  vendorCommand s 2 1 (fun s d =>
    if 15 < field d 0 1 then (s, 2, [])
    else
      let s := settlePower (askStep s { s.power with portreq := field d 0 1 })
      (s, 0, leBytes 8 (pwrstat s)))

def execReadErrorBank (s : State) : Out :=
  vendorCommand s 3 3 (fun s d =>
    if !unitExists (field d 0 2) || 3 < field d 2 1 then (s, 2, [])
    else (s, 0, leBytes 8 (bankWord (bank s (field d 0 2)) (field d 2 1))))

def execStartAttestationReport (s : State) : Out := vendorCommand s 4 32 (fun s d => (startReport s d, 0, []))

/-- Up to 48 bytes of a window. -/
def readWindow (window : List Byte) (offset length : Nat) : Nat × List Byte :=
  if length = 0 || 48 < length || window.length ≤ offset then (2, []) else (0, (window.drop offset).take length)

def execReadAttestationReport (s : State) : Out :=
  vendorCommand s 5 3 (fun s d =>
    if field d 2 1 = 0 || 48 < field d 2 1 then (s, 2, [])
    else if !s.identity.nonce.isEmpty && !s.identity.ready then (s, 3, [])
    else
      let r := readWindow s.identity.report (field d 0 2) (field d 2 1)
      (s, r.1, r.2))

def execReadIdentityWindow (s : State) : Out :=
  vendorCommand s 6 5 (fun s d =>
    let r := readWindow Config.identityWindow (field d 0 4) (field d 4 1)
    (s, r.1, r.2))

end Sys2Proof.Machine
end

