-- ==== Sys2Proof/Machine/Dispatch.lean ====
section
/-!
DEFINITION. The meaning of every row of the table: one arm for each constructor of `Instr`.
-/
namespace Sys2Proof.Machine

open Sys2Proof

def exec (i : Instr) (s : State) : Host.Outcome State Fault Refusal :=
  match i with
  | .waitlt d n => Sys2Proof.Machine.execWaitlt d n s
  | .sleep n => Sys2Proof.Machine.execSleep n s
  | .bra o => Sys2Proof.Machine.execBra o s
  | .call o => Sys2Proof.Machine.execCall o s
  | .brl offset => Sys2Proof.Machine.execBrl offset s
  | .brAny m o => Sys2Proof.Machine.execBrAny m o s
  | .brAnySplit m o => Sys2Proof.Machine.execBrAnySplit m o s
  | .brAll m o => Sys2Proof.Machine.execBrAll m o s
  | .brNone m o => Sys2Proof.Machine.execBrNone m o s
  | .brNoneSplit m o => Sys2Proof.Machine.execBrNoneSplit m o s
  | .brSz r o => Sys2Proof.Machine.execBrSz r o s
  | .brxTable a b => Sys2Proof.Machine.execBrxTable a b s
  | .brxAddress a => Sys2Proof.Machine.execBrxAddress a s
  | .callxTable a b => Sys2Proof.Machine.execCallxTable a b s
  | .callxAddress a => Sys2Proof.Machine.execCallxAddress a s
  | .join a => Sys2Proof.Machine.execJoin a s
  | .elect p d => Sys2Proof.Machine.execElect p d s
  | .electGroup p d => Sys2Proof.Machine.execElectGroup p d s
  | .electTeam p d => Sys2Proof.Machine.execElectTeam p d s
  | .rdv p d a => Sys2Proof.Machine.execRdv p d a s
  | .voteBallot p r a b => Sys2Proof.Machine.execVoteBallot p r a b s
  | .voteAny p r a b => Sys2Proof.Machine.execVoteAny p r a b s
  | .voteAll p r a b => Sys2Proof.Machine.execVoteAll p r a b s
  | .voteUni p r a b => Sys2Proof.Machine.execVoteUni p r a b s
  | .iadd p d a b => Sys2Proof.Machine.execIadd p d a b s
  | .isub p d a b => Sys2Proof.Machine.execIsub p d a b s
  | .imin p d a b => Sys2Proof.Machine.execImin p d a b s
  | .imax p d a b => Sys2Proof.Machine.execImax p d a b s
  | .iminN p d a b => Sys2Proof.Machine.execIminN p d a b s
  | .imaxN p d a b => Sys2Proof.Machine.execImaxN p d a b s
  | .iabs p d a => Sys2Proof.Machine.execIabs p d a s
  | .ineg p d a => Sys2Proof.Machine.execIneg p d a s
  | .imul p d a b => Sys2Proof.Machine.execImul p d a b s
  | .imulh p d a b => Sys2Proof.Machine.execImulh p d a b s
  | .imulhN p d a b => Sys2Proof.Machine.execImulhN p d a b s
  | .imad p d a b => Sys2Proof.Machine.execImad p d a b s
  | .and p d a b => Sys2Proof.Machine.execAnd p d a b s
  | .or p d a b => Sys2Proof.Machine.execOr p d a b s
  | .xor p d a b => Sys2Proof.Machine.execXor p d a b s
  | .andn p d a b => Sys2Proof.Machine.execAndn p d a b s
  | .shl p d a b => Sys2Proof.Machine.execShl p d a b s
  | .shr p d a b => Sys2Proof.Machine.execShr p d a b s
  | .sha p d a b => Sys2Proof.Machine.execSha p d a b s
  | .rol p d a b => Sys2Proof.Machine.execRol p d a b s
  | .popc p d a => Sys2Proof.Machine.execPopc p d a s
  | .clz p d a => Sys2Proof.Machine.execClz p d a s
  | .ctz p d a => Sys2Proof.Machine.execCtz p d a s
  | .brev p d a => Sys2Proof.Machine.execBrev p d a s
  | .bfx p d a b => Sys2Proof.Machine.execBfx p d a b s
  | .bfxN p d a b => Sys2Proof.Machine.execBfxN p d a b s
  | .bfi p d a b => Sys2Proof.Machine.execBfi p d a b s
  | .logic3 p d a b => Sys2Proof.Machine.execLogic3 p d a b s
  | .icmpI32 p c m a b => Sys2Proof.Machine.execIcmpI32 p c m a b s
  | .icmpN32 p c m a b => Sys2Proof.Machine.execIcmpN32 p c m a b s
  | .icmpI64 p c m a b => Sys2Proof.Machine.execIcmpI64 p c m a b s
  | .icmpN64 p c m a b => Sys2Proof.Machine.execIcmpN64 p c m a b s
  | .iaddi p d a imm => Sys2Proof.Machine.execIaddi p d a imm s
  | .andi p d a imm => Sys2Proof.Machine.execAndi p d a imm s
  | .ori p d a imm => Sys2Proof.Machine.execOri p d a imm s
  | .xori p d a imm => Sys2Proof.Machine.execXori p d a imm s
  | .lea1 p d a b => Sys2Proof.Machine.execLea1 p d a b s
  | .lea4 p d a b => Sys2Proof.Machine.execLea4 p d a b s
  | .lea16 p d a b => Sys2Proof.Machine.execLea16 p d a b s
  | .aadd p d a b => Sys2Proof.Machine.execAadd p d a b s
  | .iadd64 p d a b => Sys2Proof.Machine.execIadd64 p d a b s
  | .isub64 p d a b => Sys2Proof.Machine.execIsub64 p d a b s
  | .imul64 p d a b => Sys2Proof.Machine.execImul64 p d a b s
  | .shl64 p d a b => Sys2Proof.Machine.execShl64 p d a b s
  | .movl p d lit => Sys2Proof.Machine.execMovl p d lit s
  | .addl p d a lit => Sys2Proof.Machine.execAddl p d a lit s
  | .andl p d a lit => Sys2Proof.Machine.execAndl p d a lit s
  | .fadd p d a b => Sys2Proof.Machine.execFadd p d a b s
  | .fsub p d a b => Sys2Proof.Machine.execFsub p d a b s
  | .fmul p d a b => Sys2Proof.Machine.execFmul p d a b s
  | .fma p d a b => Sys2Proof.Machine.execFma p d a b s
  | .fmin p d a b => Sys2Proof.Machine.execFmin p d a b s
  | .fmax p d a b => Sys2Proof.Machine.execFmax p d a b s
  | .fabs p d a => Sys2Proof.Machine.execFabs p d a s
  | .fneg p d a => Sys2Proof.Machine.execFneg p d a s
  | .fcmp p c m a b => Sys2Proof.Machine.execFcmp p c m a b s
  | .fclass p d a => Sys2Proof.Machine.execFclass p d a s
  | .frnd p d a => Sys2Proof.Machine.execFrnd p d a s
  | .ffrac p d a => Sys2Proof.Machine.execFfrac p d a s
  | .rcp p d a => Sys2Proof.Machine.execRcp p d a s
  | .rsq p d a => Sys2Proof.Machine.execRsq p d a s
  | .sqrt p d a => Sys2Proof.Machine.execSqrt p d a s
  | .tanh p d a => Sys2Proof.Machine.execTanh p d a s
  | .ex2 p d a => Sys2Proof.Machine.execEx2 p d a s
  | .lg2 p d a => Sys2Proof.Machine.execLg2 p d a s
  | .sin p d a => Sys2Proof.Machine.execSin p d a s
  | .cos p d a => Sys2Proof.Machine.execCos p d a s
  | .hadd2 p d a b => Sys2Proof.Machine.execHadd2 p d a b s
  | .hmul2 p d a b => Sys2Proof.Machine.execHmul2 p d a b s
  | .hfma2 p d a b => Sys2Proof.Machine.execHfma2 p d a b s
  | .hmax2 p d a b => Sys2Proof.Machine.execHmax2 p d a b s
  | .dot4I8 p d a b => Sys2Proof.Machine.execDot4I8 p d a b s
  | .dot8H4 p d a b => Sys2Proof.Machine.execDot8H4 p d a b s
  | .dot2Bf16 p d a b => Sys2Proof.Machine.execDot2Bf16 p d a b s
  | .dot2F16 p d a b => Sys2Proof.Machine.execDot2F16 p d a b s
  | .f2i p d a => Sys2Proof.Machine.execF2i p d a s
  | .i2f p d a => Sys2Proof.Machine.execI2f p d a s
  | .f2f p d a => Sys2Proof.Machine.execF2f p d a s
  | .f2fPk p d a b => Sys2Proof.Machine.execF2fPk p d a b s
  | .qnt p d a b => Sys2Proof.Machine.execQnt p d a b s
  | .qntScale p d a => Sys2Proof.Machine.execQntScale p d a s
  | .dqnt p d a b => Sys2Proof.Machine.execDqnt p d a b s
  | .packn p d a b => Sys2Proof.Machine.execPackn p d a b s
  | .unpackn p d a => Sys2Proof.Machine.execUnpackn p d a s
  | .xget p d a b => Sys2Proof.Machine.execXget p d a b s
  | .xput p d a b => Sys2Proof.Machine.execXput p d a b s
  | .xbcast p d a b => Sys2Proof.Machine.execXbcast p d a b s
  | .xquad p d a b => Sys2Proof.Machine.execXquad p d a b s
  | .xred p d a o => Sys2Proof.Machine.execXred p d a o s
  | .xscan p d a o => Sys2Proof.Machine.execXscan p d a o s
  | .xscanExcl p d a o => Sys2Proof.Machine.execXscanExcl p d a o s
  | .xminloc p d a t => Sys2Proof.Machine.execXminloc p d a t s
  | .xmaxloc p d a t => Sys2Proof.Machine.execXmaxloc p d a t s
  | .mlop p f m a b => Sys2Proof.Machine.execMlop p f m a b s
  | .mpop p d a => Sys2Proof.Machine.execMpop p d a s
  | .mpopBelow p d a => Sys2Proof.Machine.execMpopBelow p d a s
  | .mpopBits p d a => Sys2Proof.Machine.execMpopBits p d a s
  | .mfirst p d a => Sys2Proof.Machine.execMfirst p d a s
  | .mfirstLast p d a => Sys2Proof.Machine.execMfirstLast p d a s
  | .mset p d a => Sys2Proof.Machine.execMset p d a s
  | .msetNz p d a => Sys2Proof.Machine.execMsetNz p d a s
  | .bsr p d a b => Sys2Proof.Machine.execBsr p d a b s
  | .bsinit p b => Sys2Proof.Machine.execBsinit p b s
  | .bspos p d => Sys2Proof.Machine.execBspos p d s
  | .bsref p a b => Sys2Proof.Machine.execBsref p a b s
  | .mov p d a => Sys2Proof.Machine.execMov p d a s
  | .sel p d a b => Sys2Proof.Machine.execSel p d a b s
  | .movs p d a => Sys2Proof.Machine.execMovs p d a s
  | .movv p d a b => Sys2Proof.Machine.execMovv p d a b s
  | .moviLo p d imm => Sys2Proof.Machine.execMoviLo p d imm s
  | .moviHi p d imm => Sys2Proof.Machine.execMoviHi p d imm s
  | .moviSx p d imm => Sys2Proof.Machine.execMoviSx p d imm s
  | .moviBf p d imm => Sys2Proof.Machine.execMoviBf p d imm s
  | .rallocWait p d n => Sys2Proof.Machine.execRallocWait p d n s
  | .rallocTry p d n => Sys2Proof.Machine.execRallocTry p d n s
  | .rfree p d n => Sys2Proof.Machine.execRfree p d n s
  | .rquery p d => Sys2Proof.Machine.execRquery p d s
  | .ldB p d a b => Sys2Proof.Machine.execLdB p d a b s
  | .ldH p d a b => Sys2Proof.Machine.execLdH p d a b s
  | .ldW p d a b => Sys2Proof.Machine.execLdW p d a b s
  | .ldD p d a b => Sys2Proof.Machine.execLdD p d a b s
  | .ldQ p d a b => Sys2Proof.Machine.execLdQ p d a b s
  | .ldBs p d a b => Sys2Proof.Machine.execLdBs p d a b s
  | .ldHs p d a b => Sys2Proof.Machine.execLdHs p d a b s
  | .ldu p d a b => Sys2Proof.Machine.execLdu p d a b s
  | .lde p d a => Sys2Proof.Machine.execLde p d a s
  | .pref p a b => Sys2Proof.Machine.execPref p a b s
  | .prefLlc p a b => Sys2Proof.Machine.execPrefLlc p a b s
  | .ldAcq p d a b => Sys2Proof.Machine.execLdAcq p d a b s
  | .ldNt p d a b => Sys2Proof.Machine.execLdNt p d a b s
  | .stB p d a b => Sys2Proof.Machine.execStB p d a b s
  | .stH p d a b => Sys2Proof.Machine.execStH p d a b s
  | .stW p d a b => Sys2Proof.Machine.execStW p d a b s
  | .stD p d a b => Sys2Proof.Machine.execStD p d a b s
  | .stQ p d a b => Sys2Proof.Machine.execStQ p d a b s
  | .stn p d a b => Sys2Proof.Machine.execStn p d a b s
  | .ste p d a => Sys2Proof.Machine.execSte p d a s
  | .stRel p d a b => Sys2Proof.Machine.execStRel p d a b s
  | .atomAdd p d a b => Sys2Proof.Machine.execAtomAdd p d a b s
  | .atomMin p d a b => Sys2Proof.Machine.execAtomMin p d a b s
  | .atomMax p d a b => Sys2Proof.Machine.execAtomMax p d a b s
  | .atomExch p d a b => Sys2Proof.Machine.execAtomExch p d a b s
  | .atomAnd p d a b => Sys2Proof.Machine.execAtomAnd p d a b s
  | .atomOr p d a b => Sys2Proof.Machine.execAtomOr p d a b s
  | .atomXor p d a b => Sys2Proof.Machine.execAtomXor p d a b s
  | .atomCas p d a b => Sys2Proof.Machine.execAtomCas p d a b s
  | .atomFadd p d a b => Sys2Proof.Machine.execAtomFadd p d a b s
  | .atomFadd2 p d a b => Sys2Proof.Machine.execAtomFadd2 p d a b s
  | .atomFmin p d a b => Sys2Proof.Machine.execAtomFmin p d a b s
  | .atomFmax p d a b => Sys2Proof.Machine.execAtomFmax p d a b s
  | .ldsH p d a b => Sys2Proof.Machine.execLdsH p d a b s
  | .ldsW p d a b => Sys2Proof.Machine.execLdsW p d a b s
  | .ldsD p d a b => Sys2Proof.Machine.execLdsD p d a b s
  | .ldsQ p d a b => Sys2Proof.Machine.execLdsQ p d a b s
  | .stsH p d a b => Sys2Proof.Machine.execStsH p d a b s
  | .stsW p d a b => Sys2Proof.Machine.execStsW p d a b s
  | .stsD p d a b => Sys2Proof.Machine.execStsD p d a b s
  | .stsQ p d a b => Sys2Proof.Machine.execStsQ p d a b s
  | .atomsAdd p d a b => Sys2Proof.Machine.execAtomsAdd p d a b s
  | .atomsExch p d a b => Sys2Proof.Machine.execAtomsExch p d a b s
  | .atomsCas p d a b => Sys2Proof.Machine.execAtomsCas p d a b s
  | .atomsFadd p d a b => Sys2Proof.Machine.execAtomsFadd p d a b s
  | .spmap p d a h n => Sys2Proof.Machine.execSpmap p d a h n s
  | .spunmap p d a n => Sys2Proof.Machine.execSpunmap p d a n s
  | .spquery p d a => Sys2Proof.Machine.execSpquery p d a s
  | .sppin p d a n => Sys2Proof.Machine.execSppin p d a n s
  | .sppinUn p d a n => Sys2Proof.Machine.execSppinUn p d a n s
  | .mpost a b => Sys2Proof.Machine.execMpost a b s
  | .mcfg a b => Sys2Proof.Machine.execMcfg a b s
  | .mquery d a => Sys2Proof.Machine.execMquery d a s
  | .mcancel d a b => Sys2Proof.Machine.execMcancel d a b s
  | .azero a b => Sys2Proof.Machine.execAzero a b s
  | .ard d a b => Sys2Proof.Machine.execArd d a b s
  | .awr d a b => Sys2Proof.Machine.execAwr d a b s
  | .ascale d a b => Sys2Proof.Machine.execAscale d a b s
  | .aload d a b => Sys2Proof.Machine.execAload d a b s
  | .astore d a b => Sys2Proof.Machine.execAstore d a b s
  | .agidx a b => Sys2Proof.Machine.execAgidx a b s
  | .cpy d a b => Sys2Proof.Machine.execCpy d a b s
  | .cpy2 d a b => Sys2Proof.Machine.execCpy2 d a b s
  | .cpyg d a b => Sys2Proof.Machine.execCpyg d a b s
  | .cpyx d a b => Sys2Proof.Machine.execCpyx d a b s
  | .bara d => Sys2Proof.Machine.execBara d s
  | .baraG d => Sys2Proof.Machine.execBaraG d s
  | .barw a => Sys2Proof.Machine.execBarw a s
  | .barwG a => Sys2Proof.Machine.execBarwG a s
  | .kread d k => Sys2Proof.Machine.execKread d k s
  | .kreadClr d k => Sys2Proof.Machine.execKreadClr d k s
  | .kadd k imm => Sys2Proof.Machine.execKadd k imm s
  | .kbind d k => Sys2Proof.Machine.execKbind d k s
  | .kbindClose k => Sys2Proof.Machine.execKbindClose k s
  | .launch d a => Sys2Proof.Machine.execLaunch d a s
  | .qpost d a b => Sys2Proof.Machine.execQpost d a b s
  | .qstat d a => Sys2Proof.Machine.execQstat d a s
  | .trap a n => Sys2Proof.Machine.execTrap a n s
  | .tretTo a => Sys2Proof.Machine.execTretTo a s
  | .rdtr d sl => Sys2Proof.Machine.execRdtr d sl s
  | .rdsr d n => Sys2Proof.Machine.execRdsr d n s
  | .wrsr a n => Sys2Proof.Machine.execWrsr a n s
  | .bkpt c => Sys2Proof.Machine.execBkpt c s
  | .trace a t => Sys2Proof.Machine.execTrace a t s
  | .mark t => Sys2Proof.Machine.execMark t s
  | .tlbinvPage a b => Sys2Proof.Machine.execTlbinvPage a b s
  | .lpinvPage a b => Sys2Proof.Machine.execLpinvPage a b s
  | .itset a b => Sys2Proof.Machine.execItset a b s
  | .regen a b => Sys2Proof.Machine.execRegen a b s
  | .errd a b => Sys2Proof.Machine.execErrd a b s
  | .errclr a b => Sys2Proof.Machine.execErrclr a b s
  | .psetReq a b => Sys2Proof.Machine.execPsetReq a b s
  | .ckgo a b => Sys2Proof.Machine.execCkgo a b s
  | .ctxsave a b => Sys2Proof.Machine.execCtxsave a b s
  | .ctxload a b => Sys2Proof.Machine.execCtxload a b s
  | .spmigClean a b => Sys2Proof.Machine.execSpmigClean a b s
  | .qctlCreate a b => Sys2Proof.Machine.execQctlCreate a b s
  | .unfreeze a => Sys2Proof.Machine.execUnfreeze a s
  | .hstake a b => Sys2Proof.Machine.execHstake a b s
  | .rbldChannel a b => Sys2Proof.Machine.execRbldChannel a b s
  | .scrubPeriod a b => Sys2Proof.Machine.execScrubPeriod a b s
  | .wpset a b => Sys2Proof.Machine.execWpset a b s
  | .bkset a b => Sys2Proof.Machine.execBkset a b s
  | .nop => Sys2Proof.Machine.execNop s
  | .yield => Sys2Proof.Machine.execYield s
  | .ret => Sys2Proof.Machine.execRet s
  | .exit => Sys2Proof.Machine.execExit s
  | .bar => Sys2Proof.Machine.execBar s
  | .barG => Sys2Proof.Machine.execBarG s
  | .seal => Sys2Proof.Machine.execSeal s
  | .fencePeer => Sys2Proof.Machine.execFencePeer s
  | .fenceHost => Sys2Proof.Machine.execFenceHost s
  | .fenceAsyncRel => Sys2Proof.Machine.execFenceAsyncRel s
  | .fenceAsyncAcq => Sys2Proof.Machine.execFenceAsyncAcq s
  | .fenceAsync => Sys2Proof.Machine.execFenceAsync s
  | .fenceIo => Sys2Proof.Machine.execFenceIo s
  | .tret => Sys2Proof.Machine.execTret s
  | .tretSkip => Sys2Proof.Machine.execTretSkip s
  | .tretEres => Sys2Proof.Machine.execTretEres s
  | .tretEabn => Sys2Proof.Machine.execTretEabn s
  | .tlbinvContext => Sys2Proof.Machine.execTlbinvContext s
  | .tlbinvPartition => Sys2Proof.Machine.execTlbinvPartition s
  | .lpinvContext => Sys2Proof.Machine.execLpinvContext s
  | .lpinvPartition => Sys2Proof.Machine.execLpinvPartition s
  | .pset => Sys2Proof.Machine.execPset s
  | .ctxsaveReplace => Sys2Proof.Machine.execCtxsaveReplace s
  | .spmigEvict => Sys2Proof.Machine.execSpmigEvict s
  | .qctlDestroy => Sys2Proof.Machine.execQctlDestroy s
  | .qctlDestroyKill => Sys2Proof.Machine.execQctlDestroyKill s
  | .rbldStack => Sys2Proof.Machine.execRbldStack s
  | .rbldRate => Sys2Proof.Machine.execRbldRate s
  | .rbldPause => Sys2Proof.Machine.execRbldPause s
  | .rbldResume => Sys2Proof.Machine.execRbldResume s
  | .scrubFrame => Sys2Proof.Machine.execScrubFrame s
  | .scrubRetire => Sys2Proof.Machine.execScrubRetire s
  | .scrubThresh => Sys2Proof.Machine.execScrubThresh s
  | .trcfgStart => Sys2Proof.Machine.execTrcfgStart s
  | .trcfgBins => Sys2Proof.Machine.execTrcfgBins s
  | .trcfgClear => Sys2Proof.Machine.execTrcfgClear s
  | .trcfgStop => Sys2Proof.Machine.execTrcfgStop s
  | .capctlOff => Sys2Proof.Machine.execCapctlOff s
  | .capctlCapture => Sys2Proof.Machine.execCapctlCapture s
  | .capctlReplay => Sys2Proof.Machine.execCapctlReplay s
  | .coldReset => Sys2Proof.Machine.execColdReset s
  | .powerStepPins => Sys2Proof.Machine.execPowerStepPins s
  | .powerFail => Sys2Proof.Machine.execPowerFail s
  | .powerStepSettle => Sys2Proof.Machine.execPowerStepSettle s
  | .telemetryPeriodEnd => Sys2Proof.Machine.execTelemetryPeriodEnd s
  | .hotPageMove => Sys2Proof.Machine.execHotPageMove s
  | .channelDead => Sys2Proof.Machine.execChannelDead s
  | .rebuildFrame => Sys2Proof.Machine.execRebuildFrame s
  | .lineWriteback => Sys2Proof.Machine.execLineWriteback s
  | .patrolScrubLine => Sys2Proof.Machine.execPatrolScrubLine s
  | .rowRetire => Sys2Proof.Machine.execRowRetire s
  | .refresh => Sys2Proof.Machine.execRefresh s
  | .targetedRefresh => Sys2Proof.Machine.execTargetedRefresh s
  | .phyRecalibration => Sys2Proof.Machine.execPhyRecalibration s
  | .hostLinkRequestFail => Sys2Proof.Machine.execHostLinkRequestFail s
  | .levantSweep => Sys2Proof.Machine.execLevantSweep s
  | .levantSweepArrival => Sys2Proof.Machine.execLevantSweepArrival s
  | .levantWriteArrival => Sys2Proof.Machine.execLevantWriteArrival s
  | .levantReadRequest => Sys2Proof.Machine.execLevantReadRequest s
  | .levantResponse => Sys2Proof.Machine.execLevantResponse s
  | .dieRemoval => Sys2Proof.Machine.execDieRemoval s
  | .levantResync => Sys2Proof.Machine.execLevantResync s
  | .etesianRead => Sys2Proof.Machine.execEtesianRead s
  | .etesianWrite => Sys2Proof.Machine.execEtesianWrite s
  | .etesianAtomic => Sys2Proof.Machine.execEtesianAtomic s
  | .etesianReadData => Sys2Proof.Machine.execEtesianReadData s
  | .etesianCompletion => Sys2Proof.Machine.execEtesianCompletion s
  | .etesianNack => Sys2Proof.Machine.execEtesianNack s
  | .wavelengthOutOfService => Sys2Proof.Machine.execWavelengthOutOfService s
  | .peerReplyTimeout => Sys2Proof.Machine.execPeerReplyTimeout s
  | .fibreRetrain => Sys2Proof.Machine.execFibreRetrain s
  | .doorbell => Sys2Proof.Machine.execDoorbell s
  | .qcfgCreate => Sys2Proof.Machine.execQcfgCreate s
  | .qcfgDestroy => Sys2Proof.Machine.execQcfgDestroy s
  | .qcfgDestroyKill => Sys2Proof.Machine.execQcfgDestroyKill s
  | .packetFetch => Sys2Proof.Machine.execPacketFetch s
  | .launchPacket => Sys2Proof.Machine.execLaunchPacket s
  | .copyPacket => Sys2Proof.Machine.execCopyPacket s
  | .dependencyWaitGe => Sys2Proof.Machine.execDependencyWaitGe s
  | .dependencyWaitEq => Sys2Proof.Machine.execDependencyWaitEq s
  | .dependencyAtomicAdd => Sys2Proof.Machine.execDependencyAtomicAdd s
  | .dependencyStore => Sys2Proof.Machine.execDependencyStore s
  | .dependencyWaitMet => Sys2Proof.Machine.execDependencyWaitMet s
  | .powerStepPacket => Sys2Proof.Machine.execPowerStepPacket s
  | .checkpointPacket => Sys2Proof.Machine.execCheckpointPacket s
  | .markerPacket => Sys2Proof.Machine.execMarkerPacket s
  | .checkpointComplete => Sys2Proof.Machine.execCheckpointComplete s
  | .packetComplete => Sys2Proof.Machine.execPacketComplete s
  | .admissionRound => Sys2Proof.Machine.execAdmissionRound s
  | .diePlacement => Sys2Proof.Machine.execDiePlacement s
  | .gangBlocking => Sys2Proof.Machine.execGangBlocking s
  | .groupRetire => Sys2Proof.Machine.execGroupRetire s
  | .launchComplete => Sys2Proof.Machine.execLaunchComplete s
  | .regenTimeout => Sys2Proof.Machine.execRegenTimeout s
  | .clauseHeader => Sys2Proof.Machine.execClauseHeader s
  | .urgentRecompute => Sys2Proof.Machine.execUrgentRecompute s
  | .spinLowerExpire => Sys2Proof.Machine.execSpinLowerExpire s
  | .sleepExpire => Sys2Proof.Machine.execSleepExpire s
  | .yieldExpire => Sys2Proof.Machine.execYieldExpire s
  | .rendezvousBudgetExpire => Sys2Proof.Machine.execRendezvousBudgetExpire s
  | .rallocGrant => Sys2Proof.Machine.execRallocGrant s
  | .allocationDeadlock => Sys2Proof.Machine.execAllocationDeadlock s
  | .countedLoadComplete => Sys2Proof.Machine.execCountedLoadComplete s
  | .storePerformed => Sys2Proof.Machine.execStorePerformed s
  | .spFillDone => Sys2Proof.Machine.execSpFillDone s
  | .spWritebackDone => Sys2Proof.Machine.execSpWritebackDone s
  | .scratchpadExhaustion => Sys2Proof.Machine.execScratchpadExhaustion s
  | .copyTransferStart => Sys2Proof.Machine.execCopyTransferStart s
  | .copyTransferComplete => Sys2Proof.Machine.execCopyTransferComplete s
  | .engineWriteGlobalPlace => Sys2Proof.Machine.execEngineWriteGlobalPlace s
  | .walkerAccept => Sys2Proof.Machine.execWalkerAccept s
  | .walkerIssueNode => Sys2Proof.Machine.execWalkerIssueNode s
  | .nodeCommit => Sys2Proof.Machine.execNodeCommit s
  | .nodeComplete => Sys2Proof.Machine.execNodeComplete s
  | .tileTransferComplete => Sys2Proof.Machine.execTileTransferComplete s
  | .holdTimeout => Sys2Proof.Machine.execHoldTimeout s
  | .serviceTimeout => Sys2Proof.Machine.execServiceTimeout s
  | .hotSpareTakeover => Sys2Proof.Machine.execHotSpareTakeover s
  | .takeoverStopTimeout => Sys2Proof.Machine.execTakeoverStopTimeout s
  | .ctxsaveStopTimeout => Sys2Proof.Machine.execCtxsaveStopTimeout s
  | .cloneReplay => Sys2Proof.Machine.execCloneReplay s
  | .watchImpreciseReport => Sys2Proof.Machine.execWatchImpreciseReport s
  | .traceRecordWrite => Sys2Proof.Machine.execTraceRecordWrite s
  | .traceSample => Sys2Proof.Machine.execTraceSample s
  | .attestationReportReady => Sys2Proof.Machine.execAttestationReportReady s
  | .diestatPartlo => Sys2Proof.Machine.execDiestatPartlo s
  | .diestatParthi => Sys2Proof.Machine.execDiestatParthi s
  | .frzcmd => Sys2Proof.Machine.execFrzcmd s
  | .ctxcmdKillAll => Sys2Proof.Machine.execCtxcmdKillAll s
  | .ctxcmdKillHeld => Sys2Proof.Machine.execCtxcmdKillHeld s
  | .ctxcmdRelease => Sys2Proof.Machine.execCtxcmdRelease s
  | .gsave => Sys2Proof.Machine.execGsave s
  | .gsaveReplace => Sys2Proof.Machine.execGsaveReplace s
  | .gload => Sys2Proof.Machine.execGload s
  | .errclrh => Sys2Proof.Machine.execErrclrh s
  | .attnonce => Sys2Proof.Machine.execAttnonce s
  | .dbgctlResumeDiscard => Sys2Proof.Machine.execDbgctlResumeDiscard s
  | .dbgctlResumeDeliver => Sys2Proof.Machine.execDbgctlResumeDeliver s
  | .controlRegisterWrite => Sys2Proof.Machine.execControlRegisterWrite s
  | .smbusArpAssign => Sys2Proof.Machine.execSmbusArpAssign s
  | .setEndpointId => Sys2Proof.Machine.execSetEndpointId s
  | .getEndpointId => Sys2Proof.Machine.execGetEndpointId s
  | .getMctpVersionSupport => Sys2Proof.Machine.execGetMctpVersionSupport s
  | .getMessageTypeSupport => Sys2Proof.Machine.execGetMessageTypeSupport s
  | .getVendorDefinedMessageSupport => Sys2Proof.Machine.execGetVendorDefinedMessageSupport s
  | .readPowerStatus => Sys2Proof.Machine.execReadPowerStatus s
  | .setPortStepRequest => Sys2Proof.Machine.execSetPortStepRequest s
  | .readErrorBank => Sys2Proof.Machine.execReadErrorBank s
  | .startAttestationReport => Sys2Proof.Machine.execStartAttestationReport s
  | .readAttestationReport => Sys2Proof.Machine.execReadAttestationReport s
  | .readIdentityWindow => Sys2Proof.Machine.execReadIdentityWindow s
  | .illegalEncoding => Sys2Proof.Machine.execIllegalEncoding s
  | .hostLinkCompletion => Sys2Proof.Machine.execHostLinkCompletion s
  | .inboundHostWrite => Sys2Proof.Machine.execInboundHostWrite s
  | .lossOfCx => Sys2Proof.Machine.execLossOfCx s
  | .functionReset => Sys2Proof.Machine.execFunctionReset s
  | .msixEntryUnmask => Sys2Proof.Machine.execMsixEntryUnmask s

end Sys2Proof.Machine
end

