-- ==== Sys2Proof/Machine/Between.lean ====
section
/-!
DEFINITION. What comes about between two steps: the clock, with the clocks that an idled quarter does not count (R446), and everything
that a condition alone brings about.
-/
namespace Sys2Proof.Machine

open Sys2Proof

/-- The clocks of a step do not count for the rendezvous instances of the quarters that are idled, nor for the services whose handler is
there (R65, R414). -/
def idleClocks (old s : State) : State :=
  if s.power.step < 6 then s
  else
    let d := s.clock - old.clock
    let idle := fun (key : Nat) => ((groupOf s key).map (fun g => quarterIdled s.power.step g.quarter)).getD false
    { s with
      groups := s.groups.map (fun x => (x.1,
        if quarterIdled s.power.step x.2.quarter then { x.2 with rdv := x.2.rdv.map (fun r => { r with since := r.since + d }) } else x.2))
      services := s.services.map (fun v => if (v.rung == 0 && idle v.key) || (v.rung == 1 && (((gangOf s v.key).bind (·.handler)).map idle).getD false) then { v with since := v.since + d } else v) }

/-- Instances that waited for loads of exited threads complete once those have been answered (R78). -/
def settleRendezvous (s : State) : State :=
  (s.groups.filter (fun x => x.2.exited != 0 && !x.2.rdv.isEmpty)).foldl (fun s x => checkRendezvous s x.1) s

/-- Barrier instances that waited for the sealed transfers of their threads complete once those have completed (R233, R236). -/
def settleBarriers (s : State) : State :=
  s.gangs.foldl (fun s q =>
    if (groupsOf s q.1).any (fun x => x.2.arrTeam ||| x.2.arrGang != 0) then checkBarriers s q.1 else s) s

/-- A gang notes since when every one of its groups has waited in RALLOC.wait; a grant, or a group that runs, ends that (R159). -/
def settleStarved (s : State) : State :=
  { s with gangs := s.gangs.map (fun q => (q.1,
      if !gangStarved s q.1 then { q.2 with deadlock := none }
      else if q.2.deadlock.isNone then { q.2 with deadlock := some s.clock } else q.2)) }

/-- The urgent groups whose time it is are marked (R60). -/
def settleUrgent (s : State) : State :=
  s.gangs.foldl (fun s q => (List.range q.2.teams.length).foldl (fun s i => match q.2.teams[i]? with
    | some t => if urgentDue s t then markUrgent s q.1 i false else s
    | none => s) s) s

/-! ### Engine work that waits for a frame (R192) -/

/-- Whether a wait for a frame has lasted 16,384 clocks. -/
def starvedLong (clock : Nat) (x : Option (Nat × Nat)) : Bool := (x.map (fun y => decide (y.2 + 16384 ≤ clock))).getD false

/-- The scratchpad-exhaustion trap of engine work, for a lane that it was issued for. -/
def exhaustedTrap (x : Option (Nat × Nat)) (ln : Nat) : Pending :=
  ⟨12, BitVec.ofNat 64 ((x.map (·.1)).getD 0), BitVec.ofNat 64 ln, 1, none, none⟩

/-- Every engine access that has waited 16,384 clocks for a frame makes the trap pending, where R188 has that of its backing, and goes
on waiting (log entry 46). -/
def settleExhausted (s : State) : State :=
  let late := s.transfers.filter (fun t => starvedLong s.clock t.2.starved)
  let s := late.foldl (fun s t =>
    modTransfer (enginePend s (t.2.group.getD 6144) t.2.gang (exhaustedTrap t.2.starved t.2.lane)) t.1
      (fun t => { t with starved := t.starved.map (fun x => (x.1, s.clock)) })) s
  s.gangs.foldl (fun s q => (List.range q.2.teams.length).foldl (fun s i =>
    match q.2.teams[i]? with
    | none => s
    | some t =>
      let s := (t.slots.filter (fun x => starvedLong s.clock x.2.starved)).foldl (fun s x =>
        setSlot (enginePend s x.2.poster q.1 (exhaustedTrap x.2.starved (lowest x.2.lanes))) q.1 i x.1
          { x.2 with starved := x.2.starved.map (fun y => (y.1, s.clock)) }) s
      match t.posts with
      | [] => s
      | p :: _ =>
        if starvedLong s.clock p.starved then
          starvePost (enginePend s p.group q.1 (exhaustedTrap p.starved (lowest p.lanes))) q.1 i (p.starved.map (fun y => (y.1, s.clock)))
        else s) s) s

/-- Between two steps. While the package waits for a cold reset after a power failure nothing moves (R450). -/
def between (s : State) : State :=
  if s.power.failed then tickClock s
  else
    let s := settleMemory (settleReads s)
    let s := settleThresholds (settleEvents s)
    let s := settlePages (settle (sendWaiting (postWrites (idleClocks s (tickClock s)))))
    let s := settleSamples (settleReports s)
    let s := settleHalts (settleDue (settleHeld (settleTakeovers (settleCalls (settleSaves s)))))
    let s := settleBarriers (settleRendezvous (settleRefused (settleTransmitted (settleFirmware s))))
    settleUrgent (settleExhausted (postRegens (settleWanted (settleStarved (serveInbound s)))))

/-- What a step does before the row of an event: the ends of telemetry periods that are due, but before the row that brings what the
sensors read at such an end (R295). -/
def beforeEvent (i : Instr) (s : State) : State :=
  match i with
  | .telemetryPeriodEnd => between s
  | _ => endDuePeriods (between s)

end Sys2Proof.Machine
end

