-- ==== Sys2Proof/Machine/Schedule.lean ====
section
/-!
DEFINITION. What moves next: the head of the agenda, or, when the agenda is empty, one of the agents of the package that may have
something to do, chosen by a draw that nothing constrains. What comes from outside the package comes by the agenda alone.
-/
namespace Sys2Proof.Machine

open Sys2Proof

/-- Fragments that may issue, as group key and lowest lane, in ascending key. -/
def ready (s : State) : List (Nat × Nat) :=
  s.groups.flatMap (fun x => (x.2.frags.filter (mayIssue s x.1 x.2)).map (fun f => (x.1, lowest f.lanes)))

/-- An event of the package's own. -/
def own (i : Instr) (key : Nat) (sub : Nat := 0) (sub2 : Nat := 0) : Action := .event i { key := key, sub := sub, sub2 := sub2 }

/-- An event that moves so many units, one at a time. -/
def moving (i : Instr) (key : Nat) (sub : Nat := 0) : Action := .event i { key := key, sub := sub, value := 1 }

/-- What the groups and their fragments wait for. -/
def groupEvents (s : State) : List Action :=
  s.groups.flatMap (fun x =>
    let ln := fun (f : Frag) => lowest f.lanes
    x.2.frags.flatMap (fun f => match f.hold with
      | .sleep .. => [own .sleepExpire x.1 (ln f)]
      | .noFrame .. => [own .scratchpadExhaustion x.1 (ln f)]
      | h => if timedHold h then [own .holdTimeout x.1 (ln f)] else []) ++
    (x.2.frags.filter (fun f => f.rest != 0)).map (fun f => own .yieldExpire x.1 (ln f)) ++
    x.2.rdv.map (fun r => own .rendezvousBudgetExpire x.1 r.addr) ++
    x.2.spins.map (fun p => own .spinLowerExpire x.1 p.lane) ++
    (if liveLanes x.2 = 0 then [own .groupRetire x.1] else []))

/-- What the gangs wait for. -/
def gangEvents (s : State) : List Action :=
  s.gangs.flatMap (fun q =>
    q.2.fills.map (fun f => own .spFillDone q.1 f.page) ++ q.2.leaving.map (fun p => own .spWritebackDone q.1 p) ++
    [own .allocationDeadlock q.1] ++
    (List.range q.2.teams.length).flatMap (fun t =>
      let x := (q.2.teams[t]?).map (fun x => (x.posts.isEmpty, x.slots.filter (fun y => y.2.state == 3)))
      [own .urgentRecompute q.1 t] ++ (if (x.map (·.1)).getD true then [] else [own .walkerAccept q.1 t]) ++
      ((x.map (·.2)).getD []).flatMap (fun y => [own .nodeCommit q.1 t y.1, own .nodeComplete q.1 t y.1])))

/-- What the cores do: grants, engines, walkers, clones and trace records. -/
def coreEvents (s : State) : List Action :=
  s.cores.flatMap (fun c =>
    c.2.requests.map (fun r => own .rallocGrant c.1 r.1) ++
    [moving .copyTransferStart c.1 0, moving .copyTransferStart c.1 1, own .walkerIssueNode c.1, own .traceSample c.1] ++
    (if c.2.unwritten.isEmpty then [] else [own .traceRecordWrite c.1]) ++
    (if c.2.stopBy.isSome then [own .takeoverStopTimeout c.1] else []) ++
    c.2.replay.map (fun r => .event .cloneReplay { key := r.2, ok := true }))

/-- What operations, transfers and requests in flight wait for. -/
def flightEvents (s : State) : List Action :=
  s.ops.map (fun o => own (if o.2.load then .countedLoadComplete else .storePerformed) o.1) ++
  s.transfers.map (fun t => if t.2.kind = 1 then moving .tileTransferComplete t.1 else own .copyTransferComplete t.1) ++
  s.places.map (fun p => own .engineWriteGlobalPlace p.transfer p.unit) ++
  s.requests.filterMap (fun r => if r.peer.isSome then some (own .peerReplyTimeout r.tag) else none) ++
  s.mem.moves.map (fun m => own .hotPageMove m.frame) ++ s.mem.services.map (fun r => own .regenTimeout r.frame) ++
  s.services.map (fun v => own .serviceTimeout v.rung v.key) ++ s.saves.map (fun v => own .ctxsaveStopTimeout v.gang) ++
  (if s.reports.isEmpty then [] else [.event .watchImpreciseReport {}])

/-- The event by which a packet goes on: it starts, by its type, or its wait is met. -/
def packetEvent (id : Nat) (p : Packet) : List Action :=
  if p.status.isSome && p.started then [own .packetComplete id]
  else if p.started then
    (if packetType p = 3 then [own .dependencyWaitMet id] else if packetType p = 2 then [own .packetComplete id] else [])
  else
    match packetType p, field p.bytes 0x20 1 with
    | 1, _ => [own .launchPacket id]
    | 2, _ => (List.range 48).map (fun c => own .copyPacket id c)
    | 3, 0 => [own .dependencyWaitGe id]
    | 3, 1 => [own .dependencyWaitEq id]
    | 3, 2 => [own .dependencyAtomicAdd id]
    | 3, _ => [own .dependencyStore id]
    | 4, _ => [own .powerStepPacket id]
    | 5, _ => [own .checkpointPacket id]
    | _, _ => [own .markerPacket id]

/-- What the packet processor, the placers and the other units of the package do. -/
def workEvents (s : State) : List Action :=
  (s.queues.filter (fun q => q.2.state == 1)).map (fun q => own .packetFetch q.1) ++ s.packets.flatMap (fun p => packetEvent p.1 p.2) ++
  (if s.launches.isEmpty then [] else (List.range 6).map (fun p => own .admissionRound p) ++ (List.range 3).map (fun d => own .diePlacement d)) ++
  s.launches.flatMap (fun l => own .launchComplete l.1 :: l.2.unplaced.map (fun x => own .gangBlocking l.1 x.1)) ++
  s.checkpoints.map (fun c => own .checkpointComplete c.1) ++
  (if s.mem.rebuild.active.isSome || !s.mem.rebuild.queue.isEmpty then [moving .rebuildFrame 0] else []) ++
  (if s.power.moving then [own .powerStepSettle 0] else []) ++
  (if s.identity.nonce.isEmpty || s.identity.ready then [] else [own .attestationReportReady 0])

/-- What Levant does: the oldest packet of each link, requests and responses arrive, and writers whose latest number has not been
completed everywhere sweep. -/
def fabricEvents (s : State) : List Action :=
  (diesUp s).flatMap (fun d => (diesUp s).flatMap (fun w =>
    match firstPacket s w d with
    | none => if (((levantOf s d).ct[w]?).getD 0) == latest s w then [] else [own .levantSweep w]
    | some p => [own (if p.sweep then .levantSweepArrival else .levantWriteArrival) d w])) ++
  s.fabric.requests.map (fun r => own .levantReadRequest 3 r.src) ++ (levantOf s 3).served.map (fun r => own .levantResponse r.src 3)

/-- Everything that may move. -/
def candidates (s : State) : List Action :=
  (ready s).map (fun x => .issue x.1 x.2) ++ (ready s).map (fun x => .part x.1 x.2 (Config.freeChoice (s.tick + 1) % 64)) ++ groupEvents s ++ gangEvents s ++ coreEvents s ++ flightEvents s ++ fabricEvents s ++
    workEvents s

/-- What the model lets move when nothing outside has said so. -/
def defaultAction (s : State) : Option Action :=
  if !s.mem.booted then some (.event .coldReset {})
  else
    match candidates s with
    | [] => none
    | a :: rest => ((a :: rest)[Config.freeChoice s.tick % (rest.length + 1)]?)

/-- After a power failure only a cold reset acts (R450). -/
def actsNow (s : State) (a : Action) : Bool :=
  !s.power.failed || (match a with
    | .event .coldReset _ => true
    | _ => false)

/-- What moves next, and the state with it taken off the agenda. -/
def nextAction (s : State) : State × Option Action :=
  match s.agenda with
  | [] => ({ s with tick := s.tick + 2 }, (defaultAction s).filter (actsNow s))
  | a :: rest => ({ s with agenda := rest }, if actsNow s a then some a else none)

end Sys2Proof.Machine
end

