-- ==== Sys2Proof/Machine/Upset.lean ====
section
/-!
DEFINITION. Errors that befall the hardware (R291, R404, R435): what each does when it comes, and the reads at which a gang consumes a
double-bit error of a register, an atile, a latch, a scalar, a mask or a counter. `State.agenda` brings them, as no row of the table does.
-/
namespace Sys2Proof.Machine

open Sys2Proof

/-! ### What an error does when it comes -/

/-- A word of SRAM has been corrected, or fetched again. -/
def noteCorrected (s : State) (core offset synd : Nat) : State :=
  recordEvent s { unit := unitCore s core, cause := 0x02, sev := 1, addr := some offset, synd := synd }

/-- Sectors of a line of device memory, by DPA, are poisoned in a core's L1. -/
def poisonLine (s : State) (core dpa : Nat) (sectors : BitVec 8) : State :=
  let e := s.mem.entry (dpa / 65536)
  let line := entryAddr e (dpa % 65536) / 128
  let hit := ((List.range 8).filter (fun i => bit sectors.toNat i)).map (fun i => 8 * line + i)
  if 2 ^ 41 ≤ dpa || !IndV e || hit.isEmpty then s
  else
    recordEvent { s with mem := { s.mem with poison := addPoison hit s.mem.poison } }
      { unit := unitCore s core, cause := 0x12, sev := 2, addr := some (dpa / 128 * 128), synd := 0 }

/-- A unit of a frame is poisoned. -/
def poisonFrame (s : State) (core frame unit : Nat) : State :=
  match frameOf s core frame with
  | none => s
  | some x =>
    if 128 ≤ unit then s
    else
      recordEvent (setFrame s core frame { x with marks := x.marks ||| BitVec.ofNat 128 (2 ^ unit) })
        { unit := unitCore s core, cause := 0x12, sev := 2, addr := some (2048 * x.page + 16 * unit), synd := 1, ctx := gangCtx s x.gang,
          gang := ((gangOf s x.gang).map (·.index)).getD 0 }

/-- A stored symbol changes; its channel's ECC bits hold its inner check. -/
def changeSymbol (m : Mem) (line pos : Nat) (e : SymErr) : Mem :=
  if 512 * interFrames ≤ line || 10 ≤ pos then m
  else
    let old := m.symbolErr line pos
    { m with symErr := tset ⟨0, 0⟩ m.symErr (10 * line + pos) ⟨old.diff ^^^ e.diff, old.check ^^^ e.check⟩ }

def execUpset (s : State) : Upset → State
  | .single core offset synd | .cleanLine core offset synd => noteCorrected s core offset synd
  | .dirtyLine core dpa sectors => poisonLine s core dpa sectors
  | .frameUnit core frame unit => poisonFrame s core frame unit
  | .latent x => if (x.word.home s).isSome then { s with upsets := s.upsets ++ [x] } else s
  | .symbol line pos e => { s with mem := changeSymbol s.mem line pos e }
  | .engine core engine => if engine < 6 then freezeEngine s core engine else s

/-! ### What a word reads -/

/-- The register operands that a word reads, with how many registers each has. -/
def readOpnds : Instr → List (Opnd × Nat)
  | .brSz r _ => [(r, 1)]
  | .brxTable a b | .callxTable a b => [(a, 2), (b, 1)]
  | .brxAddress a | .callxAddress a => [(a, 2)]
  | .iadd p _ a b | .isub p _ a b | .imin p _ a b | .imax p _ a b | .iminN p _ a b | .imaxN p _ a b | .imul p _ a b | .imulh p _ a b
  | .imulhN p _ a b | .imad p _ a b | .and p _ a b | .or p _ a b | .xor p _ a b | .andn p _ a b | .shl p _ a b | .shr p _ a b
  | .sha p _ a b | .rol p _ a b | .bfx p _ a b | .bfxN p _ a b | .bfi p _ a b | .logic3 p _ a b | .fadd p _ a b | .fsub p _ a b
  | .fmul p _ a b | .fma p _ a b | .fmin p _ a b | .fmax p _ a b | .hadd2 p _ a b | .hmul2 p _ a b | .hfma2 p _ a b | .hmax2 p _ a b
  | .dot4I8 p _ a b | .dot8H4 p _ a b | .dot2Bf16 p _ a b | .dot2F16 p _ a b | .qnt p _ a b | .dqnt p _ a b
  | .packn p _ a b | .xget p _ a b | .xput p _ a b | .sel p _ a b | .fcmp p _ _ a b | .icmpI32 p _ _ a b | .icmpN32 p _ _ a b =>
    [(a, 1), (b, 1)] ++ cReg p
  | .iabs _ _ a | .ineg _ _ a | .popc _ _ a | .clz _ _ a | .ctz _ _ a | .brev _ _ a | .fabs _ _ a | .fneg _ _ a | .fclass _ _ a
  | .frnd _ _ a | .ffrac _ _ a | .rcp _ _ a | .rsq _ _ a | .sqrt _ _ a | .tanh _ _ a | .ex2 _ _ a | .lg2 _ _ a | .sin _ _ a
  | .cos _ _ a | .f2i _ _ a | .f2f _ _ a | .qntScale _ _ a | .unpackn _ _ a | .mov _ _ a | .mset _ _ a | .msetNz _ _ a
  | .iaddi _ _ a _ | .andi _ _ a _ | .ori _ _ a _ | .xori _ _ a _ | .addl _ _ a _ | .andl _ _ a _ | .xbcast _ _ a _ | .xquad _ _ a _
  | .xred _ _ a _ | .xscan _ _ a _ | .xscanExcl _ _ a _ | .xminloc _ _ a _ | .xmaxloc _ _ a _ | .spquery _ _ a | .spmap _ _ a _ _
  | .spunmap _ _ a _ | .sppin _ _ a _ | .sppinUn _ _ a _ | .ldsH _ _ a _ | .ldsW _ _ a _ | .ldsD _ _ a _ | .ldsQ _ _ a _
  | .trace a _ | .trap a _ | .wrsr a _ | .barw a | .barwG a | .tretTo a | .unfreeze a | .launch _ a | .qstat _ a | .mquery _ a => [(a, 1)]
  | .f2fPk _ d a b => [(a, 1), (b, 1), (d, 1)]
  | .i2f p _ a => [(a, intRegs (auxOf p))]
  | .movs _ _ a | .lde _ _ a => [(a, 2)]
  | .ste _ d a => [(d, 1), (a, 2)]
  | .bsinit _ b => [(b, 1)]
  | .bsr _ _ a b => [(a, 4), (b, 1)]
  | .bsref _ _ b => [(b, 2)]
  | .moviLo _ d _ | .moviHi _ d _ => [(d, 1)]
  | .lea1 _ _ a b | .lea4 _ _ a b | .lea16 _ _ a b | .aadd _ _ a b | .shl64 _ _ a b => [(a, 2), (b, 1)]
  | .iadd64 _ _ a b | .isub64 _ _ a b | .imul64 _ _ a b | .icmpI64 _ _ _ a b | .icmpN64 _ _ _ a b => [(a, 2), (b, 2)]
  | .movv p _ a b => if bit (auxOf p) 0 then [(a, 1), (b, 1)] else [(b, 1)]
  | .ldB _ _ a _ | .ldH _ _ a _ | .ldW _ _ a _ | .ldD _ _ a _ | .ldQ _ _ a _ | .ldBs _ _ a _ | .ldHs _ _ a _ | .ldu _ _ a _
  | .ldAcq _ _ a _ | .ldNt _ _ a _ | .pref _ a _ | .prefLlc _ a _ => [(a, 2)]
  | .stB _ d a _ | .stH _ d a _ | .stW _ d a _ => [(d, 1), (a, 2)]
  | .stD _ d a _ | .stn _ d a _ => [(d, 2), (a, 2)]
  | .stQ _ d a _ => [(d, 4), (a, 2)]
  | .stRel p d a _ => [(d, 2 ^ (auxOf p % 4)), (a, 2)]
  | .stsH _ d a _ | .stsW _ d a _ => [(d, 1), (a, 1)]
  | .stsD _ d a _ => [(d, 2), (a, 1)]
  | .stsQ _ d a _ => [(d, 4), (a, 1)]
  | .atomMin p _ a b | .atomMax p _ a b => [(a, 2), (b, atomBytes 1 (aux8Of p) / 4)]
  | .atomAdd p _ a b | .atomExch p _ a b | .atomAnd p _ a b | .atomOr p _ a b | .atomXor p _ a b => [(a, 2), (b, atomBytes 0 (aux8Of p) / 4)]
  | .atomCas p _ a b => let n := atomBytes 7 (aux8Of p) / 4; [(a, 2), (b, n), (cOf p, n)]
  | .atomFadd _ _ a b | .atomFadd2 _ _ a b | .atomFmin _ _ a b | .atomFmax _ _ a b => [(a, 2), (b, 1)]
  | .atomsAdd p _ a b | .atomsExch p _ a b => [(a, 1), (b, atomBytes 0 (aux8Of p) / 4)]
  | .atomsCas p _ a b => let n := atomBytes 7 (aux8Of p) / 4; [(a, 1), (b, n), (cOf p, n)]
  | .atomsFadd _ _ a b => [(a, 1), (b, 1)]
  | .cpy d a b => [(d, 2), (a, 2), (b, 1)]
  | .cpy2 d a b | .cpyg d a b => [(d, 2), (a, 2), (b, if isScalar b then 1 else 4)]
  | .cpyx d a b => [(d, 2), (a, 2), (b, 1)]
  | .ard _ a b => [(a, 1), (b, 1)]
  | .awr d a b | .ascale d a b | .astore d a b | .aload d a b | .mcancel d a b => [(d, 1), (a, 1), (b, 1)]
  | .qpost _ a b | .mpost a b | .mcfg a b | .azero a b | .agidx a b | .tlbinvPage a b | .lpinvPage a b | .itset a b | .regen a b
  | .errd a b | .errclr a b | .psetReq a b | .ckgo a b | .ctxsave a b | .ctxload a b | .spmigClean a b | .qctlCreate a b | .hstake a b
  | .rbldChannel a b | .scrubPeriod a b | .wpset a b | .bkset a b => [(a, 1), (b, 1)]
  | _ => []

/-- Rows of op 0x3D whose operand fields stand in the issuing unit. -/
def systemReads (s : State) : Instr → List (Opnd × Nat)
  | .tlbinvContext | .tlbinvPartition | .lpinvContext | .lpinvPartition | .pset | .ctxsaveReplace | .spmigEvict | .qctlDestroy
  | .qctlDestroyKill | .rbldStack | .rbldRate | .rbldPause | .rbldResume | .scrubFrame | .scrubRetire | .scrubThresh | .trcfgStart
  | .trcfgBins | .trcfgClear | .trcfgStop | .capctlOff | .capctlCapture | .capctlReplay =>
    [((systemFields s).1, 1), ((systemFields s).2, 1)]
  | _ => []

/-- The masks that a word reads beside that of its prefix. -/
def readMasks : Instr → List Nat
  | .brAny m _ | .brAnySplit m _ | .brAll m _ | .brNone m _ | .brNoneSplit m _ => [m.toNat]
  | .mpop _ _ a | .mpopBelow _ _ a | .mpopBits _ _ a | .mfirst _ _ a | .mfirstLast _ _ a => [a.toNat]
  | .mlop _ _ _ a b | .voteBallot _ _ a b | .voteAny _ _ a b | .voteAll _ _ a b | .voteUni _ _ a b => [a.toNat, b.toNat]
  | .join a | .rdv _ _ a => [a.toNat]
  | .sel p .. | .xget p .. | .xput p .. | .xbcast p .. | .xquad p .. | .xred p .. | .xscan p .. | .xscanExcl p .. | .xminloc p ..
  | .xmaxloc p .. => [auxOf p % 8]
  | _ => []

/-- The counters that a word, or the header that is decoded, reads. -/
def readCounters (u : Issue) : Instr → List Nat
  | .waitlt d _ => [d.toNat]
  | .kread _ k | .kreadClr _ k | .kadd k _ | .kbind _ k | .kbindClose k => [k.toNat]
  | .clauseHeader => (List.range 12).filter (fun k => bit (hdrWait ((u.words.head?).getD 0)) k)
  | _ => []

/-- The registers that a word writes whole, with how many registers each operand has. -/
def writtenOpnds : Instr → List (Opnd × Nat)
  | .iadd _ d _ _ | .isub _ d _ _ | .imin _ d _ _ | .imax _ d _ _ | .iminN _ d _ _ | .imaxN _ d _ _ | .imul _ d _ _ | .imulh _ d _ _
  | .imulhN _ d _ _ | .imad _ d _ _ | .and _ d _ _ | .or _ d _ _ | .xor _ d _ _ | .andn _ d _ _ | .shl _ d _ _ | .shr _ d _ _
  | .sha _ d _ _ | .rol _ d _ _ | .bfx _ d _ _ | .bfxN _ d _ _ | .bfi _ d _ _ | .logic3 _ d _ _ | .fadd _ d _ _ | .fsub _ d _ _
  | .fmul _ d _ _ | .fma _ d _ _ | .fmin _ d _ _ | .fmax _ d _ _ | .hadd2 _ d _ _ | .hmul2 _ d _ _ | .hfma2 _ d _ _ | .hmax2 _ d _ _
  | .dot4I8 _ d _ _ | .dot8H4 _ d _ _ | .dot2Bf16 _ d _ _ | .dot2F16 _ d _ _ | .f2fPk _ d _ _ | .qnt _ d _ _ | .dqnt _ d _ _
  | .packn _ d _ _ | .sel _ d _ _ | .bsr _ d _ _ | .ldB _ d _ _ | .ldH _ d _ _ | .ldW _ d _ _ | .ldBs _ d _ _ | .ldHs _ d _ _
  | .ldu _ d _ _ | .ldsH _ d _ _ | .ldsW _ d _ _ => [(d, 1)]
  | .iabs _ d _ | .ineg _ d _ | .popc _ d _ | .clz _ d _ | .ctz _ d _ | .brev _ d _ | .fabs _ d _ | .fneg _ d _ | .fclass _ d _
  | .frnd _ d _ | .ffrac _ d _ | .rcp _ d _ | .rsq _ d _ | .sqrt _ d _ | .tanh _ d _ | .ex2 _ d _ | .lg2 _ d _ | .sin _ d _ | .cos _ d _
  | .i2f _ d _ | .f2f _ d _ | .qntScale _ d _ | .unpackn _ d _ | .mov _ d _ | .mpop _ d _ | .mpopBelow _ d _ | .mpopBits _ d _
  | .mfirst _ d _ | .mfirstLast _ d _ | .lde _ d _ | .movl _ d _ | .moviSx _ d _ | .moviBf _ d _ | .addl _ d _ _ | .andl _ d _ _
  | .iaddi _ d _ _ | .andi _ d _ _ | .ori _ d _ _ | .xori _ d _ _ | .elect _ d | .electGroup _ d | .electTeam _ d | .rdsr d _
  | .kread d _ | .kreadClr d _ | .ard d _ _ => [(d, 1)]
  | .f2i p d _ => [(d, intRegs (auxOf p))]
  | .lea1 _ d _ _ | .lea4 _ d _ _ | .lea16 _ d _ _ | .aadd _ d _ _ | .iadd64 _ d _ _ | .isub64 _ d _ _ | .imul64 _ d _ _
  | .shl64 _ d _ _ | .movs _ d _ | .ldD _ d _ _ | .ldsD _ d _ _ => [(d, 2)]
  | .ldQ _ d _ _ | .ldsQ _ d _ _ => [(d, 4)]
  | .ldAcq p d _ _ | .ldNt p d _ _ => [(d, auxRegs p)]
  | _ => []

/-- Whether an operand of some registers names a register, or the scalar. -/
def opndHits (xs : List (Opnd × Nat)) (reg : Nat) : Bool :=
  xs.any (fun x => !isScalar x.1 && decide (x.1.toNat ≤ reg) && decide (reg < x.1.toNat + x.2))
def scalarHits (xs : List (Opnd × Nat)) (reg : Nat) : Bool := xs.any (fun x => isScalar x.1 && scalarNo x.1 == reg)

/-- Whether a lane's MOVV reads a register, the one that its index gives from a on. -/
def indexHits (u : Issue) (i : Instr) (reg l : Nat) : Bool :=
  match i with
  | .movv p _ a b => !bit (auxOf p) 0 && reg == a.toNat + nat32 u.g b l
  | _ => false

/-- The lane of a unit that reads a word of SRAM: for a scalar, a mask or a counter, the lowest that it executes for. -/
def readLane (s : State) (u : Issue) (i : Instr) (x : SramWord) : Option Nat :=
  let act := execLanes u (pfxOf i)
  let regs := readOpnds i ++ systemReads s i
  let low := if act = 0 then lowest u.f.lanes else lowest act
  let tile := fun (a : Nat) => (teamHere s u).atiles + a % 65536
  match x with
  | .vreg g r l => if g == u.key && lane act l && (opndHits regs r || indexHits u i r l) then some l else none
  | .sreg g r => if g == u.key && act != 0 && scalarHits regs r then some low else none
  | .mask g r => if g == u.key && ((pfxOf i).any (fun p => p.mask.toNat == r) || (readMasks i).contains r) then some low else none
  | .counter g k => if g == u.key && (readCounters u i).contains k then some low else none
  | .atile core a e =>
    if core != ringCore s u.g.gang u.g.team then none
    else
      match i with
      | .ard _ c b =>
        if tile (sreg u.g (scalarNo c)).toNat == a then (lanesOf u.f.lanes).find? (fun l => coordOf u.g b l == e) else none
      | .ascale d c _ =>
        if tile (sreg u.g (scalarNo d)).toNat == a then (lanesOf u.f.lanes).find? (fun l => (val32 u.g c l).toNat % 32 == e / 32)
        else none
      | _ => none
  | .latch .. => none

/-- The lane of a unit that consumes errors of SRAM, the lowest that reads one, with the errors that it reads. -/
def unitReads (s : State) (i : Instr) : Option (List Latent × Nat) :=
  match issueOf s with
  | none => none
  | some u =>
    let xs := s.upsets.filterMap (fun x => (readLane s u i x.word).map (fun l => (x, l)))
    match xs.map (·.2) with
    | [] => none
    | l :: ls =>
      let low := ls.foldl min l
      some ((xs.filter (fun x => x.2 == low)).map (·.1), low)

/-- The errors that the engine's part of an event reads: a node that writes its atiles reads its latch, and what it accumulates onto; a
store of a tile reads its elements. -/
def engineReads (s : State) (i : Instr) : List Latent :=
  match i with
  | .nodeComplete =>
    let uid := s.input.key
    let team := s.input.sub
    (match teamOf s uid team with
     | none => []
     | some t =>
       let x := slotOf t s.input.sub2
       if x.state != 3 || x.phase != 2 then []
       else
         let b := nodeBody x.record
         s.upsets.filter (fun y => match y.word with
           | .latch g m j => g == uid && m == team && j == s.input.sub2
           | .atile core a _ => b.acc && core == ringCore s uid team && (b.atiles.map (fun k => t.atiles + k)).contains a
           | _ => false))
  | .tileTransferComplete =>
    (match tfind s.transfers s.input.key with
     | none => []
     | some t =>
       let o := TileOps.ofList t.operands
       match teamOf s t.gang o.team with
       | none => []
       | some team =>
         if o.store != 1 || t.complete.isSome || t.halted then []
         else
           let rows := o.total / o.rowUnits
           s.upsets.filter (fun y => match y.word with
             | .atile core a e => core == t.core && a == team.atiles + o.atile % 65536 && decide (o.row ≤ e / 32) && decide (e / 32 < o.row + rows)
             | _ => false))
  | _ => []

/-! ### A row that may read an error -/

/-- The lanes of the issuing unit below one go on alone. -/
def onlyBelow (s : State) (l : Nat) : State :=
  match s.cur with
  | none => s
  | some c =>
    let m := c.lanes &&& below l
    { modGroup s c.group (fun g => modFrag g c.lanes (fun f => { f with lanes := m })) with cur := some { c with lanes := m } }

/-- The words that a unit has written whole hold no error any longer. -/
def clearWritten (s : State) (i : Instr) (t : State) : State :=
  match issueOf s with
  | none => t
  | some u =>
    let act := execLanes u (pfxOf i)
    let regs := writtenOpnds i
    { t with upsets := t.upsets.filter (fun x => match x.word with
        | .vreg g r l => !(g == u.key && lane act l && opndHits regs r)
        | .sreg g r => !(g == u.key && act != 0 && scalarHits regs r)
        | _ => true) }

/-- A row of the table is run. Errors that it reads are consumed by their gang: the lanes below the one that reads it are performed, and
that one and every lane above it are not (R438). -/
def runRow (run : Instr → State → Out) (i : Instr) (s : State) : Out :=
  if s.upsets.isEmpty then run i s
  else
    match unitReads s i, engineReads s i with
    | some (xs, l), _ =>
      let t := onlyBelow s l
      if ((t.cur.map (·.lanes)).getD 0) = 0 then .next (consumeLatents s { s with cur := none } xs)
      else
        (match run i t with
         | .next t => .next (consumeLatents s t xs)
         | o => o)
    | none, x :: xs => .next (consumeLatents s s (x :: xs))
    | none, [] =>
      match run i s with
      | .next t => .next (clearWritten s i t)
      | o => o

end Sys2Proof.Machine
end

