-- ==== Sys2Proof/Machine/Step.lean ====
section
/-!
DEFINITION. One step of the package: what moves next (the agenda, or the model's own schedule when the agenda is empty), the
clock and the writes that pending loads owe, and then the row of the table that it runs.
-/
namespace Sys2Proof.Machine

open Sys2Proof

/-- One step: an event with what it carries, or the issue of a fragment's next unit with its clause's header before it; the clock
alone where nothing moves. -/
def step (s : State) : Host.Outcome State Fault Refusal :=
  match nextAction s with
  | (s, none) => .next { endDuePeriods (between s) with cur := none }
  | (s, some (.event i x)) => runRow exec i { beforeEvent i s with cur := none, input := x }
  | (s, some (.issue key ln)) => issueOnce (runRow exec) { endDuePeriods (between s) with cur := none } key ln
  | (s, some (.part key ln upto)) => issuePart (issueOnce (runRow exec)) { endDuePeriods (between { s with cut := some upto }) with cur := none } key ln
  | (s, some (.upset x)) => .next (execUpset { endDuePeriods (between s) with cur := none } x)
  | (s, some (.pci w)) => .next (execPci { endDuePeriods (between s) with cur := none } w)
  | (s, some (.message v n r)) => .next (answerUnserved { endDuePeriods (between s) with cur := none } v n r)

/-- The package with an instruction of the table placed where the next step fetches it. -/
def State.withFetchWord (s : State) (nbits w : Nat) : State := placeWord s nbits w

end Sys2Proof.Machine
end

