-- ==== Sys2Proof/Safety.lean ====
section
/-!
DEFINITION. The terms that the statements use: what counts as a safe run, the canonical form of the package's tables, which
registers a word may name (R31), and what a word of the code leaves of its group.
-/
namespace Sys2Proof

open Sys2Proof.Machine

/-- The step answers a next state. -/
def Runs (o : Machine.Out) : Prop := ∃ s, o = .next s

/-- Device memory lists its bytes in rising order and no byte that an unlisted address reads as. -/
def MemoryWf (s : Machine.State) : Prop := s.mem.wf = true

/-! ### Words of the code -/

/-- The rows that run as the unit of a fragment: the words of the code, a clause's header, what a system word does by its selector, and the
encodings that no instruction assigns. -/
def ofCode (i : Instr) : Bool :=
  i.isWord || match i with
  | .clauseHeader | .illegalEncoding | .tlbinvContext | .tlbinvPartition | .lpinvContext | .lpinvPartition | .pset | .ctxsaveReplace
  | .spmigEvict | .qctlDestroy | .qctlDestroyKill | .rbldStack | .rbldRate | .rbldPause | .rbldResume | .scrubFrame | .scrubRetire
  | .scrubThresh | .trcfgStart | .trcfgBins | .trcfgClear | .trcfgStop | .capctlOff | .capctlCapture | .capctlReplay => true
  | _ => false

/-- The registers that a word names, each with its count of registers, are ones that R31 allows its group: a vector register
within the allocation and aligned to its count, or a scalar where fewer than four registers are meant. -/
def RegsOk (g : Group) (rs : List (Opnd × Nat)) : Prop :=
  ∀ r ∈ rs, if 192 ≤ r.1.toNat then r.2 < 4 else r.1.toNat % r.2 = 0 ∧ r.1.toNat + r.2 ≤ 8 * g.held

/-- A word has run: its group is `g'`, and its fragment stands at the next word or header. -/
def Machine.Issue.passed (u : Issue) (s : Machine.State) (g' : Group) : Machine.State := finish (setGroup s u.key g') u

/-- The destination of a lane word of `n` registers takes `f` in Active lanes; other lanes of the fragment keep their value, or
are zeroed under z; a scalar takes the lowest Active lane's value; every other register is as before (R31, R111, R112). -/
def Writes (u : Issue) (p : Option Pfx) (d : Opnd) (n : Nat) (f : Nat → Dword) (g' : Group) : Prop :=
  (∀ r l, l < 64 → vreg g' r l =
    if 192 ≤ d.toNat ∨ lane u.f.lanes l = false ∨ r < d.toNat ∨ d.toNat + n ≤ r then vreg u.g r l
    else if lane (execLanes u p) l then (f l >>> (32 * (r - d.toNat))).setWidth 32
    else if zOf p then 0 else vreg u.g r l) ∧
  (∀ r, sreg g' r =
    if 192 ≤ d.toNat ∧ r = d.toNat - 192 ∧ execLanes u p ≠ 0 then f (lowest (execLanes u p)) else sreg u.g r)

/-- The generator of each Active lane moves on as `adv` says, and every other stays (R99). -/
def Draws (u : Issue) (p : Option Pfx) (adv : Nat → Word → Word) (g' : Group) : Prop :=
  ∀ l, l < 64 → rngOf g' l = if lane (execLanes u p) l then adv l (rngOf u.g l) else rngOf u.g l

/-- Nothing of the group but its vector and scalar registers and its generators is other than before. -/
def OnlyRegs (g g' : Group) : Prop := { g' with v := g.v, s := g.s, rng := g.rng } = g

/-- A lane word runs to its result: the registers as `Writes` says, the generators as `Draws` says, and nothing else of the
package but its fragment's place is other than before. -/
def LaneRuns (i : Instr) (s : Machine.State) (u : Issue) (p : Option Pfx) (d : Opnd) (n : Nat) (f : Nat → Dword)
    (adv : Nat → Word → Word) : Prop :=
  ∃ g', exec i s = .next (u.passed s g') ∧ Writes u p d n f g' ∧ Draws u p adv g' ∧ OnlyRegs u.g g'

/-- A mask word runs to its result: bits of Active lanes take `b`, bits of other lanes of the fragment are kept, or cleared under
z, as are the bits of the group's other lanes; the positions from the width on read 0 (R112, R126, R160). -/
def MaskRuns (i : Instr) (s : Machine.State) (u : Issue) (p : Option Pfx) (m : Nat) (b : Nat → Bool) : Prop :=
  ∃ g', exec i s = .next (u.passed s g') ∧ { g' with m := u.g.m } = u.g ∧
    (∀ k, k ≠ m → maskReg g' k = maskReg u.g k) ∧
    ∀ l, l < 64 → lane (maskReg g' m) l =
      (decide (l < u.g.width) && (if lane (execLanes u p) l then b l
        else if zOf p && lane u.f.lanes l then false else lane (maskReg u.g m) l))

end Sys2Proof
end

