-- ==== Sys2Proof/Safety/LaneRows.lean ====
section
/-!
DEFINITION. What the manual says each lane word computes, as tables that the statements use: the destination, the registers
named, the value of each lane, and how the lane's generator moves. Integer values are written with machine words and exact
integers, apart from the functions that the meanings use; floating values use the model's number formats, which other statements
characterise.
-/
namespace Sys2Proof

open Sys2Proof.Machine

/-- A lane word: its prefix, its destination of `n` registers, the registers it reads with their counts, the value of each lane
from the group as it stood at issue, and what becomes of the lane's generator. -/
structure LaneRow where
  i    : Instr
  p    : Option Pfx
  d    : Opnd
  n    : Nat
  srcs : List (Opnd × Nat)
  val  : Group → Nat → Dword
  adv  : Group → Nat → Word → Word := fun _ _ x => x

/-- A lane word that writes a bit of a mask for each lane. -/
structure MaskRow where
  i    : Instr
  p    : Option Pfx
  m    : BitVec 3
  srcs : List (Opnd × Nat)
  bit  : Group → Nat → Bool

/-- Rows of a 32-bit result, which a scalar destination zero-extends, of a 64-bit result, and of a mask. -/
def row32 (i : Instr) (p : Option Pfx) (d : Opnd) (srcs : List (Opnd × Nat)) (val : Group → Nat → Word) : LaneRow :=
  { i := i, p := p, d := d, n := 1, srcs := srcs, val := fun g l => (val g l).setWidth 64 }
def row64 (i : Instr) (p : Option Pfx) (d : Opnd) (srcs : List (Opnd × Nat)) (val : Group → Nat → Dword) : LaneRow :=
  { i := i, p := p, d := d, n := 2, srcs := srcs, val := val }
def rowMask (i : Instr) (p : Option Pfx) (m : BitVec 3) (srcs : List (Opnd × Nat)) (bit : Group → Nat → Bool) : MaskRow :=
  { i := i, p := p, m := m, srcs := srcs, bit := bit }

/-- A lane word runs to the result that its row gives, where its registers are ones that R31 allows. -/
def LaneRow.Runs (r : LaneRow) : Prop :=
  ∀ s u, issueOf s = some u → RegsOk u.g ((r.d, r.n) :: r.srcs) →
    LaneRuns r.i s u r.p r.d r.n (r.val u.g) (r.adv u.g)

/-- A mask word runs to the result that its row gives, where its mask is not m0. -/
def MaskRow.Runs (r : MaskRow) : Prop :=
  ∀ s u, issueOf s = some u → r.m ≠ 0 → RegsOk u.g r.srcs → MaskRuns r.i s u r.p r.m.toNat (r.bit u.g)

/-! ### Integers (R116 to R130) -/

/-- aux[0], which selects the unsigned type. -/
def unsignedSel (p : Option Pfx) : Bool := (pfxGet p).aux.getLsbD 0

/-- Val of a 32-bit operand. -/
def valOf (p : Option Pfx) (x : Word) : Int := if unsignedSel p then (x.toNat : Int) else x.toInt

/-- Val of a 64-bit operand. -/
def valOf64 (p : Option Pfx) (x : Dword) : Int := if unsignedSel p then (x.toNat : Int) else x.toInt

/-- A and B of R119, after nega and negb. -/
def signedA (g : Group) (p : Option Pfx) (a : Opnd) (l : Nat) : Int :=
  if (pfxGet p).nega then -valOf p (val32 g a l) else valOf p (val32 g a l)
def signedB (g : Group) (p : Option Pfx) (b : Opnd) (l : Nat) : Int :=
  if (pfxGet p).aux.getLsbD 7 then -valOf p (val32 g b l) else valOf p (val32 g b l)

/-- An exact integer clamped to w bits of the type, and narrowed by Wrap. -/
def clampTo (w : Nat) (unsig : Bool) (y : Int) : Int :=
  if unsig then (if y < 0 then 0 else if 2 ^ w ≤ y then 2 ^ w - 1 else y)
  else if y < -(2 ^ (w - 1)) then -(2 ^ (w - 1)) else if 2 ^ (w - 1) ≤ y then 2 ^ (w - 1) - 1 else y

def narrowTo (w : Nat) (sat unsig : Bool) (y : Int) : BitVec w := BitVec.ofInt w (if sat then clampTo w unsig y else y)

/-- A 32-bit result under the prefix's sat and type. -/
def sum32 (p : Option Pfx) (y : Int) : Word := narrowTo 32 (pfxGet p).sat (unsignedSel p) y

def arithRows (p : Option Pfx) (d a b : Opnd) (i : Byte) (x : Word) : List LaneRow := [
  row32 (.iadd p d a b) p d [(a, 1), (b, 1)] fun g l => sum32 p (signedA g p a l + signedB g p b l),
  row32 (.isub p d a b) p d [(a, 1), (b, 1)] fun g l => sum32 p (signedA g p a l - signedB g p b l),
  row32 (.imul p d a b) p d [(a, 1), (b, 1)] fun g l => sum32 p (signedA g p a l * signedB g p b l),
  row32 (.imad p d a b) p d ([(a, 1), (b, 1)] ++ cReg p) fun g l =>
      sum32 p (signedA g p a l * signedB g p b l + valOf p (val32 g (cOf p) l)),
  row32 (.imin p d a b) p d [(a, 1), (b, 1)] fun g l =>
      (if (val32 g a l).slt (val32 g b l) then val32 g a l else val32 g b l),
  row32 (.imax p d a b) p d [(a, 1), (b, 1)] fun g l =>
      (if (val32 g a l).slt (val32 g b l) then val32 g b l else val32 g a l),
  row32 (.iminN p d a b) p d [(a, 1), (b, 1)] fun g l =>
      (if (val32 g a l).ult (val32 g b l) then val32 g a l else val32 g b l),
  row32 (.imaxN p d a b) p d [(a, 1), (b, 1)] fun g l =>
      (if (val32 g a l).ult (val32 g b l) then val32 g b l else val32 g a l),
  row32 (.iabs p d a) p d [(a, 1)] fun g l =>
      (narrowTo 32 (pfxGet p).sat false ((val32 g a l).toInt.natAbs : Int)),
  row32 (.ineg p d a) p d [(a, 1)] fun g l =>
      (narrowTo 32 (pfxGet p).sat false (-(val32 g a l).toInt)),
  row32 (.imulh p d a b) p d [(a, 1), (b, 1)] fun g l =>
      (((val32 g a l).signExtend 64 * (val32 g b l).signExtend 64).extractLsb' 32 32),
  row32 (.imulhN p d a b) p d [(a, 1), (b, 1)] fun g l =>
      (((val32 g a l).setWidth 64 * (val32 g b l).setWidth 64).extractLsb' 32 32),
  row32 (.iaddi p d a i) p d [(a, 1)] fun g l =>
      sum32 p (valOf p (val32 g a l) + valOf p (i.signExtend 32)),
  row32 (.movl p d x) p d [] fun _ _ => x,
  row32 (.addl p d a x) p d [(a, 1)] fun g l => (val32 g a l + x)]

/-- One truth-table entry of LOGIC3: the lanes of bits at which a, b and c are as the index says. -/
def minterm (table : BitVec 8) (k : Nat) (a b c : Word) : Word :=
  if table.getLsbD k then (if k.testBit 2 then a else ~~~a) &&& (if k.testBit 1 then b else ~~~b) &&& (if k.testBit 0 then c else ~~~c)
  else 0

/-- The position and the cut length of a bit field (R124). -/
def posOf (b : Word) : Nat := (b.extractLsb' 0 8).toNat
def lenOf (b : Word) : Nat := if 32 < (b.extractLsb' 8 8).toNat then 32 else (b.extractLsb' 8 8).toNat

/-- Ones in the low n bits. -/
def ones (n : Nat) : Word := BitVec.ofNat 32 (2 ^ n - 1)

def bitsRows (p : Option Pfx) (d a b : Opnd) (i : Byte) (x : Word) : List LaneRow := [
  row32 (.and p d a b) p d [(a, 1), (b, 1)] fun g l => (val32 g a l &&& val32 g b l),
  row32 (.or p d a b) p d [(a, 1), (b, 1)] fun g l => (val32 g a l ||| val32 g b l),
  row32 (.xor p d a b) p d [(a, 1), (b, 1)] fun g l => (val32 g a l ^^^ val32 g b l),
  row32 (.andn p d a b) p d [(a, 1), (b, 1)] fun g l => (val32 g a l &&& ~~~(val32 g b l)),
  row32 (.andi p d a i) p d [(a, 1)] fun g l => (val32 g a l &&& i.signExtend 32),
  row32 (.ori p d a i) p d [(a, 1)] fun g l => (val32 g a l ||| i.signExtend 32),
  row32 (.xori p d a i) p d [(a, 1)] fun g l => (val32 g a l ^^^ i.signExtend 32),
  row32 (.andl p d a x) p d [(a, 1)] fun g l => (val32 g a l &&& x),
  row32 (.shl p d a b) p d [(a, 1), (b, 1)] fun g l => (val32 g a l <<< (val32 g b l).toNat),
  row32 (.shr p d a b) p d [(a, 1), (b, 1)] fun g l => (val32 g a l >>> (val32 g b l).toNat),
  row32 (.sha p d a b) p d [(a, 1), (b, 1)] fun g l => ((val32 g a l).sshiftRight (val32 g b l).toNat),
  row32 (.rol p d a b) p d [(a, 1), (b, 1)] fun g l => ((val32 g a l).rotateLeft (val32 g b l).toNat),
  row32 (.popc p d a) p d [(a, 1)] fun g l =>
      BitVec.ofNat 32 ((List.range 32).countP (fun i => (val32 g a l).getLsbD i)),
  row32 (.clz p d a) p d [(a, 1)] fun g l => (val32 g a l).clz,
  row32 (.ctz p d a) p d [(a, 1)] fun g l => (val32 g a l).reverse.clz,
  row32 (.brev p d a) p d [(a, 1)] fun g l => (val32 g a l).reverse,
  row32 (.bfxN p d a b) p d [(a, 1), (b, 1)] fun g l =>
      ((val32 g a l >>> posOf (val32 g b l)) &&& ones (lenOf (val32 g b l))),
  row32 (.bfx p d a b) p d [(a, 1), (b, 1)] fun g l =>
      (((val32 g a l >>> posOf (val32 g b l)).setWidth (lenOf (val32 g b l))).signExtend 32),
  row32 (.bfi p d a b) p d ([(a, 1), (b, 1)] ++ cReg p) fun g l =>
      let m := ones (lenOf (val32 g b l)) <<< posOf (val32 g b l)
      ((val32 g (cOf p) l &&& ~~~m) ||| (val32 g a l <<< posOf (val32 g b l) &&& m)),
  row32 (.logic3 p d a b) p d ([(a, 1), (b, 1)] ++ cReg p) fun g l =>
      ((List.range 8).foldl (fun x k => x ||| minterm (pfxGet p).aux k (val32 g a l) (val32 g b l) (val32 g (cOf p) l)) 0)]

def wideRows (p : Option Pfx) (d a b : Opnd) : List LaneRow := [
  row64 (.lea1 p d a b) p d [(a, 2), (b, 1)] fun g l =>
      val64 g a l + BitVec.ofInt 64 (valOf p (val32 g b l)),
  row64 (.lea4 p d a b) p d [(a, 2), (b, 1)] fun g l =>
      val64 g a l + BitVec.ofInt 64 (4 * valOf p (val32 g b l)),
  row64 (.lea16 p d a b) p d [(a, 2), (b, 1)] fun g l =>
      val64 g a l + BitVec.ofInt 64 (16 * valOf p (val32 g b l)),
  row64 (.aadd p d a b) p d [(a, 2), (b, 1)] fun g l =>
      (val64 g a l).extractLsb' 56 8 ++ ((val64 g a l).setWidth 56 + (val32 g b l).signExtend 56),
  row64 (.iadd64 p d a b) p d [(a, 2), (b, 2)] fun g l =>
      narrowTo 64 (pfxGet p).sat (unsignedSel p) (valOf64 p (val64 g a l) + valOf64 p (val64 g b l)),
  row64 (.isub64 p d a b) p d [(a, 2), (b, 2)] fun g l =>
      narrowTo 64 (pfxGet p).sat (unsignedSel p) (valOf64 p (val64 g a l) - valOf64 p (val64 g b l)),
  row64 (.imul64 p d a b) p d [(a, 2), (b, 2)] fun g l => val64 g a l * val64 g b l,
  row64 (.shl64 p d a b) p d [(a, 2), (b, 1)] fun g l =>
      let c := (val32 g b l).toInt
      if 0 ≤ c then val64 g a l <<< c.toNat
      else if unsignedSel p then (val64 g a l).sshiftRight (-c).toNat
      else val64 g a l >>> (-c).toNat]

/-- The condition of an integer compare on words or pairs (R126). -/
def intCompare {w : Nat} (unsig : Bool) (c : BitVec 3) (a b : BitVec w) : Bool :=
  let lt := fun (x y : BitVec w) => if unsig then x.ult y else x.slt y
  match c with
  | 0 => a == b
  | 1 => a != b
  | 2 => lt a b
  | 3 => !lt b a
  | 4 => lt b a
  | _ => !lt a b

def compareRows (p : Option Pfx) (c m : BitVec 3) (f : BitVec 4) (a b : Opnd) : List MaskRow := [
  rowMask (.icmpI32 p c m a b) p m [(a, 1), (b, 1)] fun g l => intCompare false c (val32 g a l) (val32 g b l),
  rowMask (.icmpN32 p c m a b) p m [(a, 1), (b, 1)] fun g l => intCompare true c (val32 g a l) (val32 g b l),
  rowMask (.icmpI64 p c m a b) p m [(a, 2), (b, 2)] fun g l => intCompare false c (val64 g a l) (val64 g b l),
  rowMask (.icmpN64 p c m a b) p m [(a, 2), (b, 2)] fun g l => intCompare true c (val64 g a l) (val64 g b l),
  rowMask (.fcmp p f m a b) p m [(a, 1), (b, 1)] fun g l =>
      let x := fltA g p a l
      let y := fltB g p b l
      let un := x.isNan || y.isNan
      match f with
      | 0 => !un && exactEq x y
      | 1 => un || !exactEq x y
      | 2 => !un && exactLt x y
      | 3 => !un && !exactLt y x
      | 4 => !un && exactLt y x
      | 5 => !un && !exactLt x y
      | 6 => un
      | _ => !un,
  rowMask (.mlop p f m a b) p m [] fun g l =>
      f.getLsbD ((if lane (maskReg g a.toNat) l then 2 else 0) + (if lane (maskReg g b.toNat) l then 1 else 0)),
  rowMask (.msetNz p m a) p m [(a, 1)] fun g l => val32 g a l != 0]

/-! ### Floating words (R117, R131 to R151) -/

/-- The exact sum of two values: NaN for a NaN or opposed infinities, and the zero signs of R92. -/
def addExact (rdn : Bool) (x y : Exact) : Exact :=
  match x, y with
  | .nan, _ => .nan
  | _, .nan => .nan
  | .inf a, .inf b => if a = b then .inf a else .nan
  | .inf a, .num _ _ => .inf a
  | .num _ _, .inf b => .inf b
  | .num p z, .num q w => if p + q ≠ 0 then .num (p + q) false else if p = 0 ∧ z = w then .num 0 z else .num 0 rdn

/-- The bits of an operand with nega or negb. -/
def signFlip (c : Bool) (x : Word) : Word := if c then x ^^^ 0x80000000 else x

/-- A row whose exact result is rounded once to FP32 under the word's mode, with a draw under RSR alone. -/
def rowRound (i : Instr) (p : Option Pfx) (d : Opnd) (srcs : List (Opnd × Nat)) (val : Group → Nat → Exact) : LaneRow :=
  { i := i, p := p, d := d, n := 1, srcs := srcs,
    val := fun g l => BitVec.ofNat 64
      (roundFmt .f32 (pfxGet p).sat (modeOf g p) (drawRng (modeOf g p) (rngOf g l)).1 (val g l)),
    adv := fun g _ x => if modeOf g p = .rsr then nextRng x else x }

/-- A row of packed halves, the low half rounded and drawing first. -/
def rowHalves (i : Instr) (p : Option Pfx) (d : Opnd) (srcs : List (Opnd × Nat)) (val : Group → Nat → Nat → Exact) : LaneRow :=
  { i := i, p := p, d := d, n := 1, srcs := srcs,
    val := fun g l =>
      let m := modeOf g p
      let x := rngOf g l
      let lo := roundFmt (halfFmt p) (pfxGet p).sat m (drawRng m x).1 (val g l 0)
      let hi := roundFmt (halfFmt p) (pfxGet p).sat m (drawRng m (nextRng x)).1 (val g l 1)
      (BitVec.ofNat 48 hi ++ BitVec.ofNat 16 lo),
    adv := fun g _ x => if modeOf g p = .rsr then nextRng (nextRng x) else x }

/-- Half h of a register, as its exact value in the word's format. -/
def halfOf (p : Option Pfx) (x : Word) (h : Nat) : Exact := decodeFmt (halfFmt p) (x.extractLsb' (16 * h) 16).toNat

/-- The class of a pattern (R135), from the value it stands for. -/
def classOf (x : Word) : Nat :=
  match decodeFmt .f32 x.toNat with
  | .nan => 8
  | .inf n => if n then 0 else 7
  | .num q z =>
    if q = 0 then (if z then 3 else 4)
    else if ratAbs q < 1 / 2 ^ 126 then (if q < 0 then 2 else 5)
    else if q < 0 then 1 else 6

def floatRows (p : Option Pfx) (d a b : Opnd) : List LaneRow := [
  rowRound (.fadd p d a b) p d [(a, 1), (b, 1)] fun g l => addExact (rdnOf g p) (fltA g p a l) (fltB g p b l),
  rowRound (.fsub p d a b) p d [(a, 1), (b, 1)] fun g l => addExact (rdnOf g p) (fltA g p a l) (fltB g p b l).neg,
  rowRound (.fmul p d a b) p d [(a, 1), (b, 1)] fun g l => (fltA g p a l).mul (fltB g p b l),
  rowRound (.fma p d a b) p d ([(a, 1), (b, 1)] ++ cReg p) fun g l =>
    addExact (rdnOf g p) ((fltA g p a l).mul (fltB g p b l)) (float32 g (cOf p) l),
  row32 (.fmin p d a b) p d [(a, 1), (b, 1)] fun g l => BitVec.ofNat 32
    (pickFloat .f32 false (signFlip (negA p) (val32 g a l)).toNat (signFlip (negB p) (val32 g b l)).toNat),
  row32 (.fmax p d a b) p d [(a, 1), (b, 1)] fun g l => BitVec.ofNat 32
    (pickFloat .f32 true (signFlip (negA p) (val32 g a l)).toNat (signFlip (negB p) (val32 g b l)).toNat),
  row32 (.fabs p d a) p d [(a, 1)] fun g l => if (float32 g a l).isNan then 0x7FC00000 else val32 g a l &&& 0x7FFFFFFF,
  row32 (.fneg p d a) p d [(a, 1)] fun g l => if (float32 g a l).isNan then 0x7FC00000 else val32 g a l ^^^ 0x80000000,
  row32 (.fclass p d a) p d [(a, 1)] fun g l => 1 <<< classOf (val32 g a l),
  { i := .frnd p d a, p := p, d := d, n := 1, srcs := [(a, 1)],
    val := fun g l => match float32 g a l with
      | .nan => 0x7FC00000
      | .inf n => if n then 0xFF800000 else 0x7F800000
      | .num q z =>
        let k := roundInt (modeOf g p) (drawRng (modeOf g p) (rngOf g l)).1 q
        if k = 0 then (if z then 0x80000000 else 0) else BitVec.ofNat 64 (roundFmt .f32 false .rne 0 (.ofRat k)),
    adv := fun g l x => match float32 g a l with
      | .num q _ => if modeOf g p = .rsr ∧ (q.floor : Rat) ≠ q then nextRng x else x
      | _ => x },
  { i := .ffrac p d a, p := p, d := d, n := 1, srcs := [(a, 1)],
    val := fun g l => match float32 g a l with
      | .num q z => if q = 0 ∧ z = true then 0 else BitVec.ofNat 64
          (roundFmt .f32 false (modeOf g p) (drawRng (modeOf g p) (rngOf g l)).1 (.num (q - q.floor) (rdnOf g p)))
      | _ => 0x7FC00000,
    adv := fun g l x => match float32 g a l with
      | .num q z => if modeOf g p = .rsr ∧ (q ≠ 0 ∨ z = false) then nextRng x else x
      | _ => x }]

/-- The exact operand of a special function, after nega. -/
def flipped (g : Group) (p : Option Pfx) (a : Opnd) (l : Nat) : Word := signFlip (negA p) (val32 g a l)

/-- A row of RCP or SQRT: correctly rounded, and without a draw where R137 names the result. -/
def rowRoot (i : Instr) (p : Option Pfx) (d a : Opnd) (named : Exact → Bool) (f : Exact → Exact) : LaneRow :=
  let x := fun (g : Group) (l : Nat) => fltA g p a l
  { i := i, p := p, d := d, n := 1, srcs := [(a, 1)],
    val := fun g l => BitVec.ofNat 64 (roundFmt .f32 (satOf p) (modeOf g p)
      (if named (x g l) then 0 else (drawRng (modeOf g p) (rngOf g l)).1) (f (x g l))),
    adv := fun g l y => if modeOf g p = .rsr ∧ named (x g l) = false then nextRng y else y }

def specialRows (p : Option Pfx) (d a : Opnd) : List LaneRow := [
  rowRoot (.rcp p d a) p d a (fun x => match x with
    | .num q _ => q = 0
    | _ => true) (fun x => (Exact.num 1 false).div x),
  rowRoot (.sqrt p d a) p d a (fun x => match x with
    | .num q z => q < 0 || (q = 0 && z)
    | _ => true) sqrtExact,
  row32 (.rsq p d a) p d [(a, 1)] fun g l => BitVec.ofNat 32 (rsqOf (flipped g p a l)),
  row32 (.tanh p d a) p d [(a, 1)] fun g l => BitVec.ofNat 32 (tanhOf (flipped g p a l)),
  row32 (.ex2 p d a) p d [(a, 1)] fun g l => BitVec.ofNat 32 (ex2Of (flipped g p a l)),
  row32 (.lg2 p d a) p d [(a, 1)] fun g l => BitVec.ofNat 32 (lg2Of (flipped g p a l)),
  row32 (.sin p d a) p d [(a, 1)] fun g l => BitVec.ofNat 32 (sinOf (flipped g p a l)),
  row32 (.cos p d a) p d [(a, 1)] fun g l => BitVec.ofNat 32 (cosOf (flipped g p a l))]

/-- A and B of a packed or dot-product word, after nega and negb. -/
def halfSgnA (g : Group) (p : Option Pfx) (a : Opnd) (l h : Nat) : Exact :=
  if (pfxGet p).nega then (halfOf p (val32 g a l) h).neg else halfOf p (val32 g a l) h
def halfSgnB (g : Group) (p : Option Pfx) (b : Opnd) (l h : Nat) : Exact :=
  if (pfxGet p).aux.getLsbD 7 then (halfOf p (val32 g b l) h).neg else halfOf p (val32 g b l) h

/-- One byte of a register as a signed or an unsigned integer. -/
def byteOf (unsig : Bool) (x : Word) (j : Nat) : Int :=
  if unsig then ((x.extractLsb' (8 * j) 8).toNat : Int) else (x.extractLsb' (8 * j) 8).toInt

/-- C of a dot product: a fourth operand, or +0. -/
def addend (g : Group) (p : Option Pfx) (l : Nat) : Exact := if (pfxGet p).cv then float32 g (cOf p) l else .num 0 false

/-- The product of one element of a and one of b, both of a format, after nega and negb. -/
def elemProduct (f : Fmt) (p : Option Pfx) (x y : Nat) : Exact :=
  ((decodeFmt f x).negIf (pfxGet p).nega).mul ((decodeFmt f y).negIf ((pfxGet p).aux.getLsbD 7))

def packedRows (p : Option Pfx) (d a b : Opnd) : List LaneRow := [
  rowHalves (.hadd2 p d a b) p d [(a, 1), (b, 1)] fun g l h => addExact (rdnOf g p) (halfSgnA g p a l h) (halfSgnB g p b l h),
  rowHalves (.hmul2 p d a b) p d [(a, 1), (b, 1)] fun g l h => (halfSgnA g p a l h).mul (halfSgnB g p b l h),
  rowHalves (.hfma2 p d a b) p d ([(a, 1), (b, 1)] ++ cReg p) fun g l h =>
    addExact (rdnOf g p) ((halfSgnA g p a l h).mul (halfSgnB g p b l h)) (halfOf p (val32 g (cOf p) l) h),
  row32 (.hmax2 p d a b) p d [(a, 1), (b, 1)] fun g l =>
    let sgn : BitVec 16 := 0x8000
    let x := fun h => (val32 g a l).extractLsb' (16 * h) 16 ^^^ (if (pfxGet p).nega then sgn else 0)
    let y := fun h => (val32 g b l).extractLsb' (16 * h) 16 ^^^ (if (pfxGet p).aux.getLsbD 7 then sgn else 0)
    let pick := fun h => BitVec.ofNat 16 (pickFloat (halfFmt p) true (x h).toNat (y h).toNat)
    pick 1 ++ pick 0,
  row32 (.dot4I8 p d a b) p d ([(a, 1), (b, 1)] ++ cReg p) fun g l =>
    let term := fun j => byteOf ((pfxGet p).aux.getLsbD 0) (val32 g a l) j * byteOf ((pfxGet p).aux.getLsbD 1) (val32 g b l) j
    let c : Int := if (pfxGet p).cv then (val32 g (cOf p) l).toInt else 0
    narrowTo 32 (pfxGet p).sat false (c + term 0 + term 1 + term 2 + term 3),
  rowRound (.dot8H4 p d a b) p d ([(a, 1), (b, 1)] ++ cReg p) fun g l =>
    let nib := fun (x : Word) (j : Nat) => (x.extractLsb' (4 * j) 4).toNat
    let term := fun j => elemProduct .h4 p (nib (val32 g a l) j) (nib (val32 g b l) j)
    sumExact (rdnOf g p) [addend g p l, term 0, term 1, term 2, term 3, term 4, term 5, term 6, term 7],
  rowRound (.dot2Bf16 p d a b) p d ([(a, 1), (b, 1)] ++ cReg p) fun g l =>
    let term := fun h => elemProduct .bf16 p ((val32 g a l).extractLsb' (16 * h) 16).toNat ((val32 g b l).extractLsb' (16 * h) 16).toNat
    sumExact (rdnOf g p) [addend g p l, term 0, term 1],
  rowRound (.dot2F16 p d a b) p d ([(a, 1), (b, 1)] ++ cReg p) fun g l =>
    let term := fun h => elemProduct .f16 p ((val32 g a l).extractLsb' (16 * h) 16).toNat ((val32 g b l).extractLsb' (16 * h) 16).toNat
    sumExact (rdnOf g p) [addend g p l, term 0, term 1]]

/-! ### Conversions and quantisation (R143 to R151) -/

/-- aux[6:0]. -/
def auxBits (p : Option Pfx) : BitVec 7 := (pfxGet p).aux.setWidth 7

/-- Width and unsignedness of the integer type that a code selects (R143). -/
def typeWidth (t : Nat) : Nat := if t = 0 ∨ t = 1 then 32 else if t = 2 ∨ t = 3 then 16 else if t = 4 ∨ t = 5 then 8 else 64

/-- An integer of the type in its register or pair, sign-extended or zero-extended. -/
def extended (t : Nat) (y : Int) : Dword :=
  if typeWidth t = 64 then BitVec.ofInt 64 y else (BitVec.ofInt 32 y).setWidth 64

/-- Val of an operand in the type. -/
def valType (t : Nat) (g : Group) (a : Opnd) (l : Nat) : Int :=
  let x : Dword := if typeWidth t = 64 then val64 g a l else (val32 g a l).setWidth 64
  let y := x.setWidth (typeWidth t)
  if t % 2 = 1 then (y.toNat : Int) else y.toInt

/-- The scale of a block element (R90, R147). -/
def blockScaleOf (p : Option Pfx) (b : Word) : Exact :=
  if (auxBits p).getLsbD 3 then decodeFmt .f32 b.toNat
  else if b.extractLsb' 0 8 = 0xFF then .nan else .num (pow2 ((b.extractLsb' 0 8).toNat - 127 : Int)) false

/-- The element format of QNT and DQNT (R147). -/
def blockFmtOf (p : Option Pfx) : Fmt := blockFmt ((auxBits p).extractLsb' 0 3).toNat

/-- Whether a quotient is finite, so that INT8 rounds it (R149). -/
def finite (x : Exact) : Bool := !x.isNan && !x.isInf

def convertRows (p : Option Pfx) (d a b : Opnd) : List LaneRow := [
  { i := .f2i p d a, p := p, d := d, n := if 6 ≤ (auxBits p).toNat then 2 else 1, srcs := [(a, 1)],
    val := fun g l =>
      let t := (auxBits p).toNat
      match float32 g a l with
      | .nan => 0
      | .inf n => extended t (clampTo (typeWidth t) (t % 2 = 1) (if n then -(2 ^ 200) else 2 ^ 200))
      | .num q _ => extended t (clampTo (typeWidth t) (t % 2 = 1)
          (roundInt (modeOf g p) (drawRng (modeOf g p) (rngOf g l)).1 q)),
    adv := fun g l x => if modeOf g p = .rsr ∧ finite (float32 g a l) then nextRng x else x },
  rowRound (.i2f p d a) p d [(a, if 6 ≤ (auxBits p).toNat then 2 else 1)] fun g l =>
    .num (valType (auxBits p).toNat g a l) false,
  { i := .f2f p d a, p := p, d := d, n := 1, srcs := [(a, 1)],
    val := fun g l => BitVec.ofNat 64 (roundFmt (floatType ((auxBits p).extractLsb' 0 3).toNat) (satOf p) (modeOf g p)
      (drawRng (modeOf g p) (rngOf g l)).1 (decodeFmt (floatType ((auxBits p).extractLsb' 3 4).toNat) (val32 g a l).toNat)),
    adv := fun g _ x => if modeOf g p = .rsr then nextRng x else x },
  { i := .qnt p d a b, p := p, d := d, n := 1, srcs := [(a, 1), (b, 1)],
    val := fun g l =>
      let m := modeOf g p
      let f := blockFmtOf p
      let x := float32 g a l
      let sc := blockScaleOf p (val32 g b l)
      let y := x.div sc
      if noQuotient x sc then (if f = .i8 then 0 else BitVec.ofNat 64 f.nanCode)
      else if f = .i8 then
        (match y with
         | .nan => 0
         | .inf n => if n then 0xFFFFFF81 else 0x7F
         | .num q _ => (BitVec.ofInt 32 (max (-127) (min 127 (roundInt m (drawRng m (rngOf g l)).1 q)))).setWidth 64)
      else BitVec.ofNat 64 (roundFmt f (satOf p) m (drawRng m (rngOf g l)).1 y),
    adv := fun g l x =>
      let sc := blockScaleOf p (val32 g b l)
      if modeOf g p = .rsr ∧ noQuotient (float32 g a l) sc = false ∧ (blockFmtOf p = .i8 → finite ((float32 g a l).div sc)) then nextRng x
      else x },
  row32 (.qntScale p d a) p d [(a, 1)] fun g l =>
    BitVec.ofNat 32 (blockScale (blockFmtOf p) (!(auxBits p).getLsbD 3) (float32 g a l)),
  rowRound (.dqnt p d a b) p d [(a, 1), (b, 1)] fun g l =>
    (decodeFmt (blockFmtOf p) (val32 g a l).toNat).mul (blockScaleOf p (val32 g b l)),
  row32 (.packn p d a b) p d [(a, 1), (b, 1)] fun g l =>
    let nib := fun (x : Word) (j : Nat) =>
      let y := x.extractLsb' (8 * j) 8
      if (pfxGet p).sat then BitVec.ofInt 4 (max (-8) (min 7 y.toInt)) else y.setWidth 4
    let x := val32 g a l
    let y := val32 g b l
    nib y 3 ++ nib y 2 ++ nib y 1 ++ nib y 0 ++ nib x 3 ++ nib x 2 ++ nib x 1 ++ nib x 0,
  row32 (.unpackn p d a) p d [(a, 1)] fun g l =>
    let k := fun j => (val32 g a l).extractLsb' (4 * (4 * ((auxBits p).extractLsb' 0 1).toNat + j)) 4
    let byte := fun j => if (auxBits p).getLsbD 1 then (k j).signExtend 8 else (k j).setWidth 8
    byte 3 ++ byte 2 ++ byte 1 ++ byte 0]

/-- F2F.pk puts a pair of fields into its destination and leaves the other bits of it (R146). The pair at place k of a format of
w bits stands from bit 2 k w. -/
def pairRow (p : Option Pfx) (d a b : Opnd) : LaneRow :=
  let f := floatType ((auxBits p).extractLsb' 0 3).toNat
  let lo := 2 * ((auxBits p).extractLsb' 3 4).toNat * f.bits
  { i := .f2fPk p d a b, p := p, d := d, n := 1, srcs := [(a, 1), (b, 1)],
    val := fun g l =>
      let m := modeOf g p
      let x := rngOf g l
      let u := roundFmt f (satOf p) m (drawRng m x).1 (float32 g a l)
      let v := roundFmt f (satOf p) m (drawRng m (nextRng x)).1 (float32 g b l)
      let hole : Word := ones (2 * f.bits) <<< lo
      ((val32 g d l &&& ~~~hole) ||| (BitVec.ofNat 32 (u + v * 2 ^ f.bits) <<< lo)).setWidth 64,
    adv := fun g _ x => if modeOf g p = .rsr then nextRng (nextRng x) else x }

/-! ### Moves and masks (R165 to R170), election (R79), bit positions (R177) -/

def moveRows (p : Option Pfx) (d a b : Opnd) (i : BitVec 16) : List LaneRow := [
  row32 (.mov p d a) p d [(a, 1)] fun g l => val32 g a l,
  row32 (.sel p d a b) p d [(a, 1), (b, 1)] fun g l =>
    if lane (maskReg g ((pfxGet p).aux.extractLsb' 0 3).toNat) l then val32 g a l else val32 g b l,
  row64 (.movs p d a) p d [(a, 2)] fun g l => val64 g a l,
  { i := .moviLo p d i, p := p, d := d, n := 1, srcs := [],
    val := fun g l =>
      let old : Dword := if 192 ≤ d.toNat then sreg g (d.toNat - 192) else (vreg g d.toNat l).setWidth 64
      old.extractLsb' 16 48 ++ i },
  { i := .moviHi p d i, p := p, d := d, n := 1, srcs := [],
    val := fun g l =>
      let old : Dword := if 192 ≤ d.toNat then sreg g (d.toNat - 192) else (vreg g d.toNat l).setWidth 64
      old.extractLsb' 32 32 ++ i ++ old.extractLsb' 0 16 },
  { i := .moviSx p d i, p := p, d := d, n := 1, srcs := [],
    val := fun _ _ => if 192 ≤ d.toNat then i.signExtend 64 else (i.signExtend 32).setWidth 64 },
  row32 (.moviBf p d i) p d [] fun _ _ => i ++ (0 : BitVec 16),
  { i := .mpop p d a, p := p, d := d, n := 1, srcs := [],
    val := fun g _ => BitVec.ofNat 64 ((List.range 64).countP (lane (maskReg g a.toNat))) },
  { i := .mpopBelow p d a, p := p, d := d, n := 1, srcs := [],
    val := fun g l => BitVec.ofNat 64 ((List.range (min l 64)).countP (lane (maskReg g a.toNat))) },
  { i := .mpopBits p d a, p := p, d := d, n := 1, srcs := [], val := fun g _ => maskReg g a.toNat },
  { i := .mfirst p d a, p := p, d := d, n := 1, srcs := [],
    val := fun g _ => ((List.range 64).find? (lane (maskReg g a.toNat))).elim 0xFFFFFFFF (BitVec.ofNat 64) },
  { i := .mfirstLast p d a, p := p, d := d, n := 1, srcs := [],
    val := fun g _ => ((List.range 64).reverse.find? (lane (maskReg g a.toNat))).elim 0xFFFFFFFF (BitVec.ofNat 64) }]

end Sys2Proof
end

