-- ==== Sys2Proof/Safety/ControlTerms.lean ====
section
/-!
DEFINITION. Terms of the statements about control flow: targets that pass R24, where the threads of a fragment go, what a branch
leaves of its group, and instances of rendezvous that one fragment completes.
-/
namespace Sys2Proof

open Sys2Proof.Machine

/-! ### Branches (R24, R56, R70 to R76) -/

/-- Every target of a list may be branched to: it is a canonical multiple of 4, its word can be fetched, and that word is a header
that a branch may reach. `s'` is the package once the words have been fetched. -/
def TargetsPass (w : Who) (stamp : Nat) : Machine.State → List Int → Machine.State → Prop
  | s, [], s' => s' = s
  | s, t :: ts, s' =>
    0 ≤ t ∧ t < 2 ^ 56 ∧ t % 4 = 0 ∧
      ∃ h s₁, fetchWord s w stamp t.toNat = (s₁, .ok h) ∧ targetWordOk h = true ∧ TargetsPass w stamp s₁ ts s'

/-- The targets that the threads of a unit's fragment take, each once, by rising lane. -/
def targetsTaken (u : Issue) (next : Nat → Option Int) : List Int := ((lanesOf u.f.lanes).filterMap next).eraseDups

/-- Where a thread is after a branch: at its target, or at the address after the word. -/
def placeAfter (u : Issue) (next : Nat → Option Int) (l : Nat) : Nat :=
  match next l with
  | some t => t.toNat
  | none => (afterWords u.f.clause u.f.pc u.words.length).1

/-- The unit's fragment has become `f'`, and fragments of other threads are as they were. -/
def FragBecomes (u : Issue) (f' : Frag) (g' : Group) : Prop :=
  ∃ F : Frag → Frag, F u.f = f' ∧ g'.frags = u.g.frags.map (fun f => if f.lanes = u.f.lanes then F f else f)

/-- The threads of the unit's fragment stand at headers, in one fragment for each place, and the group's other fragments are as
they were (R56). -/
def Sends (u : Issue) (place : Nat → Nat) (g' : Group) : Prop :=
  (∀ l, lane u.f.lanes l = true → ∃ f', fragAt g' l = some f' ∧ f'.pc = place l ∧ f'.clause = none ∧ f'.hold = .ready ∧
    ∀ k, lane f'.lanes k = (lane u.f.lanes k && decide (place k = place l))) ∧
  (∀ f, f.lanes &&& u.f.lanes = 0 → (f ∈ g'.frags ↔ f ∈ u.g.frags)) ∧
  (∀ f ∈ g'.frags, f.lanes &&& u.f.lanes = 0 ∨ f.lanes &&& ~~~u.f.lanes = 0)

/-- A branch goes through: its threads stand where `next` sends them, their return stacks are as `stack` says, and nothing else of
the group but its spin detection and the loads of branch tables that its threads have made, and nothing else of the package but what the
reads of the targets have left, is other than before. -/
def BranchRuns (i : Instr) (s s₁ : Machine.State) (u : Issue) (next : Nat → Option Int) (stack : Nat → List Nat → List Nat) : Prop :=
  ∃ g', exec i s = .next (setGroup s₁ u.key g') ∧ Sends u (placeAfter u next) g' ∧
    (∀ l, l < 64 → stackOf g' l = if lane u.f.lanes l then stack l (stackOf u.g l) else stackOf u.g l) ∧
    ∃ g₀, groupOf s₁ u.key = some g₀ ∧ { g₀ with anchors := u.g.anchors } = u.g ∧
      { g' with frags := g₀.frags, spins := g₀.spins, rstack := g₀.rstack } = g₀

/-- The branches whose targets stand in the word or in registers, with where each thread goes. -/
def branchRows (u : Issue) (m : BitVec 3) (r a : Opnd) (o : BitVec 16) (o24 : BitVec 24) (x : Word) :
    List (Instr × (Nat → Option Int)) :=
  let pc : Int := u.f.pc
  let near := some (pc + 4 * o.toInt)
  let held := u.f.lanes &&& maskReg u.g m.toNat
  [(.bra o24, fun _ => some (pc + 4 * o24.toInt)),
   (.brl x, fun _ => some (pc + 4 * x.toInt)),
   (.brAny m o, fun _ => if held = 0 then none else near),
   (.brAll m o, fun _ => if held = u.f.lanes then near else none),
   (.brNone m o, fun _ => if held = 0 then near else none),
   (.brAnySplit m o, fun l => if lane (maskReg u.g m.toNat) l then near else none),
   (.brNoneSplit m o, fun l => if lane (maskReg u.g m.toNat) l then none else near),
   (.brSz r o, fun l =>
     if (if 192 ≤ r.toNat then sreg u.g (r.toNat - 192) = 0 else vreg u.g r.toNat l = 0) then near else none),
   (.brxAddress a, fun l => some ((val64 u.g a l).toNat : Int))]

/-- The calls with a target in the word or in registers. -/
def callRows (u : Issue) (a : Opnd) (o : BitVec 24) : List (Instr × (Nat → Option Int)) :=
  [(.call o, fun _ => some ((u.f.pc : Int) + 4 * o.toInt)),
   (.callxAddress a, fun l => some ((val64 u.g a l).toNat : Int))]

/-- The return address of a call. -/
def returnAddress (u : Issue) : Nat := u.f.pc + 4 * u.words.length

/-- The registers that a branch names. -/
def branchRegs : Instr → List (Opnd × Nat)
  | .brSz r _ => [(r, 1)]
  | .brxAddress a => [(a, 2)]
  | .callxAddress a => [(a, 2)]
  | .brxTable a _ => [(a, 1)]
  | .callxTable a _ => [(a, 1)]
  | _ => []

/-- The lanes of a list read their targets from a branch table (R75): its count, then the entry of each lane's index above
CBASE, which may be branched to where no lane before had it (`seen`). -/
def TableGives (w : Who) (key stamp cbase table : Nat) (index : Nat → Nat) :
    Machine.State → List Int → List Nat → Machine.State → List (Nat × Int) → Prop
  | s, _, [], s', ts => s' = s ∧ ts = []
  | s, seen, l :: ls, s', ts => ∃ s₁ s₂ s₃ count entry more,
      let t : Int := ((cbase + leNat entry : Nat) : Int)
      loadBytes s (w.ofThread key l) .load table 4 = (s₁, .ok count) ∧ index l < leNat count ∧
      loadBytes s₁ (w.ofThread key l) .load (table + 8 + 8 * index l) 8 = (s₂, .ok entry) ∧
      TargetsPass w stamp s₂ (if t ∈ seen then [] else [t]) s₃ ∧
      TableGives w key stamp cbase table index s₃ (t :: seen) ls s' more ∧ ts = (l, t) :: more

/-! ### Rendezvous (R64, R80 to R82, R171 to R176) -/

/-- A unit's fragment is all that an instance at its word waits for: no instance is open in the group, no thread has exited, and
the fragment's threads are the live threads that the member mask names. -/
def Alone (u : Issue) (member : Nat) : Prop :=
  u.g.rdv = [] ∧ u.g.exited = 0 ∧ u.f.lanes ≠ 0 ∧ maskReg u.g member &&& u.g.created = u.f.lanes ∧
  ∀ f ∈ u.g.frags, f.hold ≠ .rendezvous u.f.pc

/-- A rendezvous word completes at once: its fragment has passed the word in the group `g'`. -/
def MeetRuns (i : Instr) (s : Machine.State) (u : Issue) (ok : Group → Prop) : Prop :=
  ∃ g', exec i s = .next (setGroup s u.key (modFrag { g' with frags := u.g.frags.filter (fun f => f.lanes &&& u.f.lanes == 0) ++
      [{ u.f with hold := .ready, pix := 0, resumed := false }] } u.f.lanes (fun f => f.past u.words.length s.clock))) ∧ ok g'

/-- The lane that VOTE, XRED and the others take contributions from: Active lanes of the fragment. -/
def actives (u : Issue) (p : Option Pfx) : Dword := activeOf u.g u.f.lanes p

/-- The bits that a vote writes in an instance of one fragment (R81): `a` is the mask of predicates. -/
def voteRows (u : Issue) (p : Option Pfx) (r : BitVec 3) (a b : Opnd) : List (Instr × Dword) :=
  let yes := actives u p &&& maskReg u.g a.toNat
  let every := fun (c : Bool) => if c then below u.g.width else 0
  [(.voteBallot p r a b, yes),
   (.voteAny p r a b, every (yes != 0)),
   (.voteAll p r a b, every (yes == u.f.lanes)),
   (.voteUni p r a b, every (yes == 0 || yes == u.f.lanes))]

/-- The values of Active lanes of a set, by rising lane. -/
def valuesIn (u : Issue) (p : Option Pfx) (a : Opnd) (keep : Nat → Bool) : List Nat :=
  ((lanesOf (actives u p)).filter keep).map (fun l => (val32 u.g a l).toNat)

/-- The value that lane `t` of the fragment supplies, 0 for a lane outside it (R172). -/
def supplied (u : Issue) (a : Opnd) (t : Nat) : Word := if lane u.f.lanes t then val32 u.g a t else 0

/-- The cross-lane words that write one 32-bit value to each Active lane, in an instance of one fragment, with the mode in which
each lane's value is rounded, RNE where none is. An empty set gives the identity, with no sum to round. -/
def crossRows (u : Issue) (p : Option Pfx) (d a b : Opnd) (o : BitVec 4) (t : BitVec 2) :
    List (Instr × List (Opnd × Nat) × (Nat → Round) × (Nat → Nat → Nat)) :=
  let rm := if o = 1 then modeOf u.g p else .rne
  let plain := fun (_ : Nat) => Round.rne
  let below := fun (l : Nat) => valuesIn u p a (fun k => k < l)
  let all := valuesIn u p a
  let who := (lanesOf (actives u p)).map (fun l => (l, (val32 u.g a l).toNat))
  [(.xget p d a b, [(d, 1), (a, 1), (b, 1)], plain, fun l _ => (supplied u a (val32 u.g b l).toNat).toNat),
   (.xbcast p d a b, [(d, 1), (a, 1)], plain, fun _ _ => (supplied u a b.toNat).toNat),
   (.xquad p d a b, [(d, 1), (a, 1)], plain, fun l _ =>
     (supplied u a (4 * (l / 4) + ((b >>> (2 * (l % 4))).setWidth 2).toNat)).toNat),
   (.xred p d a o, [(d, 1), (a, 1)], fun _ => rm, fun _ x => combine o.toNat rm x (all (fun _ => true))),
   (.xscan p d a o, [(d, 1), (a, 1)], fun _ => rm, fun l x => combine o.toNat rm x (all (fun k => k ≤ l))),
   (.xscanExcl p d a o, [(d, 1), (a, 1)], fun l => if below l = [] then .rne else rm, fun l x => combine o.toNat rm x (below l)),
   (.xminloc p d a t, [(d, 1), (a, 1)], plain, fun _ _ => locate t.toNat false who),
   (.xmaxloc p d a t, [(d, 1), (a, 1)], plain, fun _ _ => locate t.toNat true who)]

/-! ### Instances of several fragments (R64, R65, R171 to R176) -/

/-- A rendezvous word of a unit: its member mask, the prefix under which its threads are Active, the registers that it names, the operands
of a thread as it arrives, and what the completed instance leaves of its group. -/
structure MeetWord where
  i      : Instr
  member : Nat
  p      : Option Pfx
  regs   : List (Opnd × Nat)
  a      : Nat → Dword
  b      : Nat → Dword
  gives  : Rendezvous → Group → Prop

/-- The instance that a word meets: the one open at its address, or one that opens now, whose members are the live threads that the mask
names. -/
def instanceMet (s : Machine.State) (u : Issue) (w : MeetWord) : Rendezvous :=
  (u.g.rdv.find? (fun r => r.addr = u.f.pc)).getD
    { row := w.i, words := u.words.length, addr := u.f.pc, named := maskReg u.g w.member,
      members := maskReg u.g w.member &&& liveLanes u.g, arrived := 0, active := 0, opA := [], opB := [], rounds := [], since := s.clock }

/-- That instance once the unit's threads have arrived. -/
def afterArrival (s : Machine.State) (u : Issue) (w : MeetWord) : Rendezvous :=
  let r := instanceMet s u w
  let each := fun (x : Nat → Dword) => (lanesOf u.f.lanes).map (fun l => (l, x l))
  { r with
    arrived := r.arrived ||| u.f.lanes
    active := r.active ||| activeOf u.g u.f.lanes w.p
    opA := r.opA ++ each w.a
    opB := r.opB ++ each w.b
    rounds := r.rounds ++ each (fun _ => u.g.round) }

/-- The members that an instance awaits. -/
def awaitedBy (g : Group) (r : Rendezvous) : Dword := r.members &&& ~~~r.arrived &&& ~~~g.exited

/-- The instances of the group at other addresses. -/
def otherInstances (u : Issue) : List Rendezvous := u.g.rdv.filter (fun r => r.addr != u.f.pc)

/-- An instance awaits a member that stands in no rendezvous, and is not at one now. -/
def StillOpen (u : Issue) (r : Rendezvous) : Prop :=
  ∃ l, lane (awaitedBy u.g r) l = true ∧ lane u.f.lanes l = false ∧ ∀ f ∈ u.g.frags, ∀ a, f.hold = .rendezvous a → lane f.lanes l = false

/-- The group while the unit's fragment waits in an instance. -/
def waitingIn (s : Machine.State) (u : Issue) (r : Rendezvous) : Group :=
  modFrag { u.g with rdv := otherInstances u ++ [r] } u.f.lanes
    (fun f => { f.holding (.rendezvous u.f.pc) s.clock with pix := 0, resumed := false })

/-- What is open at the unit's address is an instance of its word, at which other fragments of its clause wait, whose Active threads have
arrived and have brought 32-bit operands. -/
def SameWord (u : Issue) (i : Instr) : Prop :=
  (∀ r ∈ u.g.rdv, r.addr = u.f.pc → r.row = i ∧ r.words = u.words.length ∧ r.active &&& ~~~r.arrived = 0 ∧
    ∀ x ∈ r.opA, x.2.toNat < 2 ^ 32) ∧
  ∀ f ∈ u.g.frags, f.hold = .rendezvous u.f.pc → f.pc = u.f.pc ∧ f.clause = u.f.clause

/-- No load owes a register of a thread of the group that has exited, in a package that lists its operations by rising number. -/
def ExitedHaveLoaded (s : Machine.State) (u : Issue) : Prop :=
  (s.ops.map (fun o => o.1)).Pairwise (fun x y => x < y) ∧
  (∀ o ∈ s.ops, ∀ w ∈ o.2.owed, w.group = u.key → lane u.g.exited w.lane = false) ∧
  ∀ q ∈ s.requests, q.group = u.key → lane u.g.exited q.lane = false

/-- The instance is closed, and its arrived threads are one fragment past its word; fragments of other threads are as they were. -/
def LeavesTogether (u : Issue) (r : Rendezvous) (g' : Group) : Prop :=
  g'.rdv = otherInstances u ∧
  ∃ f', f'.lanes = r.arrived ∧ (f'.pc, f'.clause) = afterWords u.f.clause u.f.pc u.words.length ∧ f'.hold = .ready ∧ f'.resumed = false ∧
    ∀ f, f ∈ g'.frags ↔ f = f' ∨ (f ∈ u.g.frags ∧ f.lanes &&& r.arrived = 0)

/-- The group but for where its fragments stand and the instances that are open is `g`. -/
def ButPlaces (g' g : Group) : Prop := { g' with frags := g.frags, rdv := g.rdv } = g

/-- What a rendezvous word of the unit does: a fragment with a thread that is no member traps with nothing arrived; one whose instance
still awaits others waits there; and the arrival of the last member completes the instance, with its effect. -/
def MeetWord.Runs (w : MeetWord) (s : Machine.State) (u : Issue) : Prop :=
  let r := afterArrival s u w
  (u.f.lanes &&& ~~~(instanceMet s u w).members ≠ 0 →
    exec w.i s = .next (raise s u { cls := 7, info0 := BitVec.ofNat 64 u.f.pc, info1 := (instanceMet s u w).arrived })) ∧
  (u.f.lanes &&& ~~~(instanceMet s u w).members = 0 → (∀ x ∈ otherInstances u, StillOpen u x) →
    (StillOpen u r → exec w.i s = .next (setGroup s u.key (waitingIn s u r))) ∧
    (u.f.lanes ≠ 0 → awaitedBy u.g r = 0 → SameWord u w.i → ExitedHaveLoaded s u →
      ∃ g', exec w.i s = .next (setGroup s u.key g') ∧ LeavesTogether u r g' ∧ w.gives r g'))

/-- The operand of a thread of an instance as it arrived. -/
def arrivedA (r : Rendezvous) (l : Nat) : Word := BitVec.setWidth 32 (((r.opA.find? (fun x => x.1 = l)).map (fun x => x.2)).getD 0)
def arrivedB (r : Rendezvous) (l : Nat) : Word := BitVec.setWidth 32 (((r.opB.find? (fun x => x.1 = l)).map (fun x => x.2)).getD 0)

/-- The source value at a lane (R172). -/
def sourceAt (u : Issue) (r : Rendezvous) (a : Opnd) (t : Nat) : Word :=
  if 64 ≤ t then 0 else if lane r.arrived t then arrivedA r t
  else if lane u.g.exited t ∧ lane r.named t then val32 u.g a t else 0

/-- The contributions of the lanes that a predicate keeps, by rising lane (R174). -/
def contributed (r : Rendezvous) (keep : Nat → Bool) : List (Nat × Nat) :=
  ((lanesOf (r.active ||| (r.members &&& ~~~r.arrived))).filter keep).map
    (fun l => (l, if lane r.active l then (arrivedA r l).toNat else 0))

/-- The mode in which a lane's combination is rounded: the word's, with %round as the lane's word issued; none rounds an empty set. -/
def meetMode (u : Issue) (p : Option Pfx) (o : BitVec 4) (r : Rendezvous) (l : Nat) (xs : List (Nat × Nat)) : Round :=
  if o = 1 ∧ xs ≠ [] then modeOf { u.g with round := ((r.rounds.find? (fun x => x.1 = l)).map (·.2)).getD 0 } p else .rne

/-- The Active arrived threads take the values `f` and draw for them, other arrived threads follow R112, a scalar takes the lowest Active
thread's, and nothing else of the group changes. -/
def SpreadTo (u : Issue) (p : Option Pfx) (d : Opnd) (rm : Rendezvous → Nat → Round) (f : Rendezvous → Nat → Nat → Nat)
    (r : Rendezvous) (g' : Group) : Prop :=
  let val := fun (l : Nat) => f r l (drawRng (rm r l) (rngOf u.g l)).1
  (∀ k l, l < 64 → vreg g' k l =
    if 192 ≤ d.toNat ∨ k ≠ d.toNat ∨ lane r.arrived l = false then vreg u.g k l
    else if lane r.active l then BitVec.ofNat 32 (val l)
    else if zOf p then 0 else vreg u.g k l) ∧
  (∀ k, sreg g' k =
    if 192 ≤ d.toNat ∧ k = d.toNat - 192 ∧ r.active ≠ 0 then BitVec.ofNat 64 (val (lowest r.active)) else sreg u.g k) ∧
  (∀ l, l < 64 → rngOf g' l = if lane r.active l then (drawRng (rm r l) (rngOf u.g l)).2 else rngOf u.g l) ∧
  ButPlaces { g' with v := u.g.v, s := u.g.s, rng := u.g.rng } u.g

/-- One mask of the group takes a value, and nothing else of it changes. -/
def MaskTakes (u : Issue) (k : Nat) (x : Dword) (g' : Group) : Prop :=
  ButPlaces { g' with m := u.g.m } u.g ∧ (∀ j, j ≠ k → maskReg g' j = maskReg u.g j) ∧ maskReg g' k = x &&& below u.g.width

/-- The value that XPUT sends to a lane: that of the highest Active arrived thread that names it (R173). -/
def sentTo (r : Rendezvous) (t : Nat) : Option Word :=
  ((lanesOf r.active).filter (fun k => (arrivedB r k).toNat = t)).getLast?.map (arrivedA r)

/-- XPUT has been completed: Active arrived threads that are sent a value take it; a scalar takes what the lowest of them is sent. -/
def PutTo (u : Issue) (p : Option Pfx) (d : Opnd) (r : Rendezvous) (g' : Group) : Prop :=
  (∀ k l, l < 64 → vreg g' k l =
    if 192 ≤ d.toNat ∨ k ≠ d.toNat ∨ lane r.arrived l = false then vreg u.g k l
    else if lane r.active l then (sentTo r l).getD (vreg u.g k l)
    else if zOf p then 0 else vreg u.g k l) ∧
  (∀ k, sreg g' k =
    if 192 ≤ d.toNat ∧ k = d.toNat - 192 ∧ r.active ≠ 0 then
      ((sentTo r (lowest r.active)).map (fun x => x.setWidth 64)).getD (sreg u.g k)
    else sreg u.g k) ∧
  ButPlaces { g' with v := u.g.v, s := u.g.s } u.g

/-- The rendezvous words of a unit (R80 to R82, R171 to R176). -/
def meetWords (u : Issue) (p : Option Pfx) (d a b : Opnd) (m : BitVec 3) (o : BitVec 4) (t : BitVec 2) : List MeetWord :=
  let none32 := fun (_ : Nat) => (0 : Dword)
  let group := ((pfxGet p).aux.extractLsb' 0 3).toNat
  let bit := fun (l : Nat) => if lane (maskReg u.g a.toNat) l then (1 : Dword) else 0
  let va := fun (l : Nat) => (val32 u.g a l).setWidth 64
  let vb := fun (l : Nat) => (val32 u.g b l).setWidth 64
  let every := fun (c : Bool) => if c then below u.g.width else 0
  let yes := fun (r : Rendezvous) (l : Nat) => lane r.active l && (arrivedA r l).getLsbD 0
  let vote := fun (i : Instr) (x : Rendezvous → Dword) =>
    ({ i := i, member := b.toNat, p := p, regs := [], a := bit, b := none32, gives := fun r => MaskTakes u m.toNat (x r) } : MeetWord)
  let cross := fun (i : Instr) (regs : List (Opnd × Nat)) (y : Nat → Dword) (rm : Rendezvous → Nat → Round)
      (f : Rendezvous → Nat → Nat → Nat) =>
    ({ i := i, member := group, p := p, regs := regs, a := va, b := y, gives := SpreadTo u p d rm f } : MeetWord)
  let plain := fun (_ : Rendezvous) (_ : Nat) => Round.rne
  let reduce := fun (i : Instr) (keep : Nat → Nat → Bool) =>
    let rm := fun (r : Rendezvous) (l : Nat) => meetMode u p o r l (contributed r (keep l))
    cross i [(d, 1), (a, 1)] none32 rm
      (fun r l x => combine o.toNat (rm r l) x ((contributed r (keep l)).map (·.2)))
  let place := fun (i : Instr) (most : Bool) =>
    cross i [(d, 1), (a, 1)] none32 plain (fun r _ _ => locate t.toNat most (contributed r (fun _ => true)))
  let from' := fun (i : Instr) (regs : List (Opnd × Nat)) (y : Nat → Dword) (at' : Rendezvous → Nat → Nat) =>
    cross i regs y plain (fun r l _ => (sourceAt u r a (at' r l)).toNat)
  [{ i := .join a, member := a.toNat, p := none, regs := [], a := none32, b := none32, gives := fun _ g' => ButPlaces g' u.g },
   { i := .rdv p d a, member := a.toNat, p := none, regs := [], a := none32, b := none32,
     gives := fun r g' => if d = 0 then ButPlaces g' u.g else MaskTakes u d.toNat r.arrived g' },
   vote (.voteBallot p m a b) (fun r => maskOf (yes r)),
   vote (.voteAny p m a b) (fun r => every ((List.range 64).any (yes r))),
   vote (.voteAll p m a b) (fun r => every ((List.range 64).all (fun l => !lane r.members l || yes r l))),
   vote (.voteUni p m a b) (fun r => every ((List.range 64).all (fun l => !yes r l) ||
     (List.range 64).all (fun l => !lane r.arrived l || yes r l))),
   from' (.xget p d a b) [(d, 1), (a, 1), (b, 1)] vb (fun r l => (arrivedB r l).toNat),
   from' (.xbcast p d a b) [(d, 1), (a, 1)] none32 (fun _ _ => b.toNat),
   from' (.xquad p d a b) [(d, 1), (a, 1)] none32 (fun _ l => 4 * (l / 4) + ((b >>> (2 * (l % 4))).setWidth 2).toNat),
   { i := .xput p d a b, member := group, p := p, regs := [(d, 1), (a, 1), (b, 1)], a := va, b := vb, gives := PutTo u p d },
   reduce (.xred p d a o) (fun _ _ => true),
   reduce (.xscan p d a o) (fun l k => decide (k ≤ l)),
   reduce (.xscanExcl p d a o) (fun l k => decide (k < l)),
   place (.xminloc p d a t) false,
   place (.xmaxloc p d a t) true]

end Sys2Proof
end

