-- ==== Sys2Proof/Safety/WordTerms.lean ====
section
/-!
DEFINITION. Terms of the statements about bit streams, indexed moves, special registers and the register pool.
-/
namespace Sys2Proof

open Sys2Proof.Machine

/-! ### Bit streams (R177 to R180) -/

/-- The fields of a lane's %bcur. -/
def Cur.bits (c : Dword) : Nat := (c.extractLsb' 0 6).toNat
def Cur.need (c : Dword) : Bool := c.getLsbD 6
def Cur.words (c : Dword) : BitVec 24 := c.extractLsb' 8 24

/-- %bcur with its fields. -/
def Cur.mk (words : BitVec 24) (need : Bool) (cur : BitVec 6) : Dword :=
  (0 : BitVec 32) ++ words ++ (0 : BitVec 1) ++ BitVec.ofBool need ++ cur

/-- A lane's stream quad, the window in its low half. -/
def streamOf (g : Group) (q : Opnd) (l : Nat) : BitVec 128 :=
  vreg g (q.toNat + 3) l ++ vreg g (q.toNat + 2) l ++ vreg g (q.toNat + 1) l ++ vreg g q.toNat l

/-- The n bits of a stream from bit `cur` on, sign-extended or zero-extended to 32 bits. -/
def streamBits (x : BitVec 128) (cur n : Nat) (sx : Bool) : Word :=
  if sx ∧ n ≤ 32 then ((x >>> cur).setWidth n).signExtend 32 else ((x >>> cur).setWidth n).setWidth 32

/-- BSR leaves the group so: the field in the destination, and, unless it peeks, the stream of each Active lane moved on by its
length, with the refill moved into the window when 64 bits are used up. -/
def StreamRead (u : Issue) (p : Option Pfx) (d a b : Opnd) (g' : Group) : Prop :=
  let act := execLanes u p
  let n := fun l => ((val32 u.g b l).extractLsb' 0 6).toNat
  let cur := fun l => Cur.bits (bcur u.g l)
  let field := fun l => streamBits (streamOf u.g a l) (cur l) (n l) ((pfxGet p).aux.getLsbD 0)
  let moves := fun l => lane act l && !(pfxGet p).aux.getLsbD 1
  let wraps := fun l => moves l && decide (64 ≤ cur l + n l)
  (∀ r l, l < 64 → vreg g' r l =
    if 192 > d.toNat ∧ r = d.toNat ∧ lane u.f.lanes l = true then
      (if lane act l then field l else if zOf p then 0 else vreg u.g r l)
    else if wraps l ∧ (r = a.toNat ∨ r = a.toNat + 1) then vreg u.g (r + 2) l
    else vreg u.g r l) ∧
  (∀ r, sreg g' r = if 192 ≤ d.toNat ∧ r = d.toNat - 192 ∧ act ≠ 0 then (field (lowest act)).setWidth 64 else sreg u.g r) ∧
  (∀ l, l < 64 → bcur g' l =
    if moves l then
      (if wraps l then Cur.mk (Cur.words (bcur u.g l) + 1) true (BitVec.ofNat 6 (cur l + n l - 64))
       else Cur.mk (Cur.words (bcur u.g l)) (Cur.need (bcur u.g l)) (BitVec.ofNat 6 (cur l + n l)))
    else bcur u.g l) ∧
  { g' with v := u.g.v, s := u.g.s, bcur := u.g.bcur } = u.g

/-- BSINIT and BSREF leave the group so. -/
def StreamStart (u : Issue) (p : Option Pfx) (b : Opnd) (g' : Group) : Prop :=
  (∀ l, l < 64 → bcur g' l =
    if lane (execLanes u p) l then Cur.mk 0 false ((val32 u.g b l).extractLsb' 0 6) else bcur u.g l) ∧
  { g' with bcur := u.g.bcur } = u.g

def StreamRefill (u : Issue) (p : Option Pfx) (a b : Opnd) (g' : Group) : Prop :=
  let fills := fun l => lane (execLanes u p) l && Cur.need (bcur u.g l)
  (∀ r l, l < 64 → vreg g' r l =
    if fills l ∧ r = a.toNat + 2 then (val64 u.g b l).extractLsb' 0 32
    else if fills l ∧ r = a.toNat + 3 then (val64 u.g b l).extractLsb' 32 32
    else vreg u.g r l) ∧
  (∀ l, l < 64 → bcur g' l =
    if fills l then Cur.mk (Cur.words (bcur u.g l)) false ((bcur u.g l).extractLsb' 0 6) else bcur u.g l) ∧
  { g' with v := u.g.v, bcur := u.g.bcur } = u.g

/-! ### Indexed moves (R166) -/

/-- The register that a lane's index reaches. -/
def indexed (u : Issue) (base b : Opnd) (l : Nat) : Nat := base.toNat + (val32 u.g b l).toNat

/-- Every Active lane's index stays within the allocation. -/
def IndexOk (u : Issue) (p : Option Pfx) (base b : Opnd) : Prop :=
  ∀ l, lane (execLanes u p) l = true → indexed u base b l < 8 * u.g.held ∧ indexed u base b l ≤ 191

/-! ### Special registers (R53, R98, R162 to R164) -/

/-- The value of a special register in a lane of a unit (R162). -/
def specialRead (s : Machine.State) (u : Issue) (n : Byte) (l : Nat) : Dword :=
  let q := gangOf s u.g.gang
  match n with
  | 0x00 => BitVec.ofNat 64 l
  | 0x01 => BitVec.ofNat 64 (u.g.gid * u.g.width + l)
  | 0x02 => BitVec.ofNat 64 u.g.gid
  | 0x03 => BitVec.ofNat 64 u.g.team
  | 0x04 => BitVec.ofNat 64 ((q.map (·.index)).getD 0)
  | 0x05 => BitVec.ofNat 64 (u.key / 128)
  | 0x06 => BitVec.ofNat 64 (u.key / 128 / 16)
  | 0x07 => BitVec.ofNat 64 (((launchOfGroup s u.g).map (·.seq)).getD 0)
  | 0x08 => BitVec.ofNat 64 s.clock
  | 0x09 => (tget 0 u.g.safe l).setWidth 64
  | 0x0A => BitVec.ofNat 64 u.f.pix
  | 0x0B => u.g.round
  | 0x0C => 0
  | _ => bcur u.g l

/-- %launch, %clock and the registers from %round on have 64 bits. -/
def specialRegs (n : Byte) : Nat := if n = 7 ∨ n = 8 ∨ 11 ≤ n.toNat then 2 else 1

/-- A word writes the same kind of value to every live thread of its fragment: a vector register or pair in each lane, or a scalar
with the lowest lane's. -/
def WritesAll (u : Issue) (d : Opnd) (n : Nat) (f : Nat → Dword) (g' : Group) : Prop :=
  (∀ r l, l < 64 → vreg g' r l =
    if 192 ≤ d.toNat ∨ lane u.f.lanes l = false ∨ r < d.toNat ∨ d.toNat + n ≤ r then vreg u.g r l
    else (f l >>> (32 * (r - d.toNat))).setWidth 32) ∧
  (∀ r, sreg g' r = if 192 ≤ d.toNat ∧ r = d.toNat - 192 ∧ u.f.lanes ≠ 0 then f (lowest u.f.lanes) else sreg u.g r) ∧
  { g' with v := u.g.v, s := u.g.s } = u.g

/-- The state of a generator after a seed (R99). -/
def seeded (x : Word) (l : Nat) : Word :=
  let y := x ^^^ (BitVec.ofNat 32 l * 0x9E3779B9)
  if y = 0 then 0x6D2B79F5 else y

/-- A group after a scalar has taken a value. -/
def withScalar (g : Group) (d : Opnd) (x : Nat) : Group := setSreg g (d.toNat - 192) (BitVec.ofNat 64 x)

/-! ### Words whose value is neither captured nor replayed -/

/-- The unit's group neither captures nor replays (R469, R470). -/
def Plain (s : Machine.State) (u : Issue) : Prop := captureMode s u.g = 0

/-- Free blocks of a group's quarter: its share of pool granules less those that its groups hold (R154). -/
def freeBlocks (s : Machine.State) (u : Issue) : Nat := freeGranules s (u.key / 128) u.g.quarter / (u.g.width / 16)

/-- Requests that wait in the quarter. -/
def waitingRequests (s : Machine.State) (u : Issue) : List (Nat × Nat × Nat × Nat) :=
  (coreOf s (u.key / 128)).requests.filter (fun r => r.1 = u.g.quarter)

end Sys2Proof
end

