-- ==== Sys2Proof/Safety/MemoryTerms.lean ====
section
/-!
DEFINITION. Terms of the statements about memory words: accesses that go through to device memory lane by lane, what a load writes,
what an atomic computes, and the parts of the package that a word leaves alone.
-/
namespace Sys2Proof

open Sys2Proof.Machine

/-- Every write has arrived at the slice that homes its line: none can still be lost with its die (R371). -/
abbrev Arrived (s : Machine.State) : Prop := ∀ p ∈ s.packetsLv, p.sweep = true ∨ p.applied = true

/-- Device memory that holds no symbol error, no dead channel, no moved frame and no poison, of a partition that tracks no hot
pages, while no write and no engine write is on its way, no comparator of the group's core is enabled, the group neither captures nor replays,
no request waits for the operation that is numbered next, and the word does not break off between two of its lanes. -/
def Calm (s : Machine.State) (u : Issue) : Prop :=
  s.mem.symErr = [] ∧ s.mem.chans = [] ∧ s.mem.inter = [] ∧ s.mem.poison = [] ∧ Arrived s ∧
  (hotOf s.mem (whoGroup s u.key u.g).part).en = false ∧ s.places = [] ∧
  ((coreOf s (u.key / 128)).data.filter (fun c => c.2.en)) = [] ∧ Plain s u ∧
  (∀ r ∈ s.requests, r.op ≠ some s.nextOp) ∧ s.cut = none

/-- The unit issues for the first time: it is not resumed, belongs to no counted operation yet, and has not broken off between its lanes,
so that it reads its operands now. -/
def Fresh (u : Issue) : Prop := u.f.resumed = false ∧ u.f.op = none ∧ u.asRead = u

/-- Nothing of the package but its groups and the operations that counters track differs. -/
def OnlyGroupsAndOps (s t : Machine.State) : Prop := { t with groups := s.groups, ops := s.ops } = s

/-- The package after the word has been counted on its counter, if its clause names one. -/
def counted (s : Machine.State) (u : Issue) (k : Option Nat) (load : Bool) : Machine.State := (countOp s u.key k load 0 []).1

/-- The lanes of a list, in order, load `n` bytes of device memory each, at the addresses `va`: `x` is what each finds, and `s'` the
package afterwards. -/
def LoadsFind (u : Issue) (w : Who) (n : Nat) (acquire : Bool) (va : Nat → Nat) (x : Nat → Nat) :
    Machine.State → List Nat → Machine.State → Prop
  | s, [], s' => s' = s
  | s, l :: ls, s' => ∃ s₁ e dpa ma,
      translate s w .load false (va l) = (s₁, .ok (e, .dev dpa ma)) ∧
      x l = leNat ((List.range n).map (fun i => s₁.mem.byte (ma + i))) ∧
      LoadsFind u w n acquire va x (noteLoad (if acquire then noteAcquire s₁ u.key l else s₁) u.key l (.ma (16 * (ma / 16))) (ma % 16) n) ls s'

/-- No thread of the group has written or acquired since. -/
def NoWriteNoted (g g' : Group) : Prop :=
  ∀ l, (anchorOf g' l).write = (anchorOf g l).write ∧ (anchorOf g' l).acquire = (anchorOf g l).acquire

/-- The lanes of a list, in order, store bytes to device memory, at the machine addresses `ma` that their addresses `va` are
translated to; the bytes may depend on what stands there, and a lane with no byte to store leaves memory as it is. -/
def StoresGo (u : Issue) (w : Who) (va ma : Nat → Nat) (bs : Machine.State → Nat → List Byte) :
    Machine.State → List Nat → Machine.State → Prop
  | s, [], s' => s' = s
  | s, l :: ls, s' => ∃ s₁ e dpa,
      translate s w .store false (va l) = (s₁, .ok (e, .dev dpa (ma l))) ∧
      let s₂ : Machine.State :=
        if bs s₁ l = [] then s₁ else { s₁ with mem := s₁.mem.store (writerOf w.core) (ma l) (bs s₁ l) }
      StoresGo u w va ma bs (noteWrite s₂ u.key l) ls s'

/-- The lanes of a list, in order, read device memory and write what `new` makes of it, each in one step. -/
def AtomicsGo (u : Issue) (w : Who) (n : Nat) (va ma : Nat → Nat) (old : Nat → Nat) (new : Nat → Nat → Nat) :
    Machine.State → List Nat → Machine.State → Prop
  | s, [], s' => s' = s
  | s, l :: ls, s' => ∃ s₁ e dpa,
      translate s w .atomic false (va l) = (s₁, .ok (e, .dev dpa (ma l))) ∧
      old l = leNat ((List.range n).map (fun i => s₁.mem.byte (ma l + i))) ∧
      AtomicsGo u w n va ma old new
        (noteWrite { s₁ with mem := s₁.mem.store (writerOf w.core) (ma l) (leBytes n (new l (old l))) } u.key l) ls s'

/-- What a load writes: each Active lane's registers take its value, lanes of the fragment that are not Active are zeroed under z
or keep theirs, and a scalar takes the lowest Active lane's value. -/
def LoadWrites (u : Issue) (p : Option Pfx) (z : Bool) (d : Opnd) (n : Nat) (x : Nat → Nat) (g' : Group) : Prop :=
  (∀ r l, l < 64 → vreg g' r l =
    if 192 ≤ d.toNat ∨ lane u.f.lanes l = false ∨ r < d.toNat ∨ d.toNat + n ≤ r then vreg u.g r l
    else if lane (execLanes u p) l then BitVec.ofNat 32 (x l / 2 ^ (32 * (r - d.toNat)))
    else if z then 0 else vreg u.g r l) ∧
  (∀ r, sreg g' r =
    if 192 ≤ d.toNat ∧ r = d.toNat - 192 ∧ execLanes u p ≠ 0 then BitVec.ofNat 64 (x (lowest (execLanes u p))) else sreg u.g r) ∧
  (d.toNat < 192 → g'.spins = u.g.spins) ∧
  { g' with v := u.g.v, s := u.g.s, anchors := u.g.anchors, spins := u.g.spins } = u.g

/-- The package where a load has told the spin detection of its group what a scalar is to take (R61); a load to other registers tells it
nothing. -/
def Told (u : Issue) (d : Opnd) (s s' : Machine.State) : Prop :=
  ∃ xs, s' = (if 192 ≤ d.toNat then modGroup s u.key (fun g => { g with spins := xs }) else s)

/-- A lane's address: base plus offset in units of the size (R311). -/
def addrOf (u : Issue) (a b : Opnd) (size l : Nat) : Nat := (val64 u.g a l).toNat + size * b.toNat

/-- Every Active lane's address is a multiple of the size. -/
def Aligned (u : Issue) (p : Option Pfx) (size : Nat) (va : Nat → Nat) : Prop :=
  ∀ l, lane (execLanes u p) l = true → va l % size = 0

/-- The misaligned-access trap of a lane's address. -/
def misaligned (u : Issue) (va l : Nat) : Trap :=
  { cls := 8, info0 := BitVec.ofNat 64 va, info1 := BitVec.ofNat 64 l, pix := if u.f.resumed then u.f.pix else 0 }

/-- The registers that aux[1:0] selects: 1, 2 or 4. -/
def sizeSel (p : Option Pfx) : Nat := 2 ^ ((pfxGet p).aux.extractLsb' 0 2).toNat

/-- Loads with a base pair and an offset: bytes, registers, sign extension, whether they acquire. -/
def loadForms (p : Option Pfx) (d a b : Opnd) : List (Instr × Nat × Nat × Bool × Bool) :=
  [(.ldB p d a b, 1, 1, false, false), (.ldH p d a b, 2, 1, false, false), (.ldW p d a b, 4, 1, false, false),
   (.ldD p d a b, 8, 2, false, false), (.ldQ p d a b, 16, 4, false, false), (.ldBs p d a b, 1, 1, true, false),
   (.ldHs p d a b, 2, 1, true, false), (.ldNt p d a b, 4 * sizeSel p, sizeSel p, false, false),
   (.ldAcq p d a b, 4 * sizeSel p, sizeSel p, false, true)]

/-- A loaded value as the register takes it (R311). -/
def extendLoad (sgn : Bool) (n x : Nat) : Nat := if sgn then ((BitVec.ofNat (8 * n) x).signExtend 32).toNat else x

/-- Stores with a base pair and an offset: bytes and registers. -/
def storeForms (p : Option Pfx) (d a b : Opnd) : List (Instr × Nat × Nat) :=
  [(.stB p d a b, 1, 1), (.stH p d a b, 2, 1), (.stW p d a b, 4, 1), (.stD p d a b, 8, 2), (.stQ p d a b, 16, 4)]

/-- The bytes that a lane of a store takes from its data registers, least significant first. -/
def storedBytes (u : Issue) (d : Opnd) (n l : Nat) : List Byte :=
  if n = 16 then leBytes 16 (streamOf u.g d l).toNat
  else if n = 8 then leBytes 8 (val64 u.g d l).toNat
  else leBytes n (val32 u.g d l).toNat

/-- Memory after a word that stores `n` bytes for each lane of a list reads as before outside the stored bytes, and holds each
lane's bytes where no later lane stores. -/
def StoresOnly (s t : Machine.State) (ls : List Nat) (n : Nat) (ma : Nat → Nat) (bs : Nat → List Byte) : Prop :=
  (∀ x, (∀ l ∈ ls, x < ma l ∨ ma l + n ≤ x) → t.mem.byte x = s.mem.byte x) ∧
  (∀ l ∈ ls, (∀ k ∈ ls, l < k → ma k + n ≤ ma l ∨ ma l + n ≤ ma k) → ∀ i < n, t.mem.byte (ma l + i) = ((bs l)[i]?).getD 0)

/-- The register writes that a counted load owes: zeros for lanes of the fragment that are not Active under z, and each Active lane's
value. -/
def loadOwed (u : Issue) (p : Option Pfx) (z : Bool) (d : Opnd) (n : Nat) (x : Nat → Nat) : List Owed :=
  (if z ∧ d.toNat < 192 then (lanesOf (u.f.lanes &&& ~~~(execLanes u p))).flatMap (fun l => owedOf u.key d n 64 l 0) else []) ++
  (lanesOf (execLanes u p)).flatMap (fun l => owedOf u.key d n (lowest (execLanes u p)) l (x l))

/-- A word of data merged nibble by nibble into what stands at an address (R313): data in the low half of the pair, the mask in the
low byte of its high half; nothing under a mask of 0. -/
def nibbleWord (u : Issue) (d : Opnd) (ma : Nat → Nat) (s : Machine.State) (l : Nat) : List Byte :=
  let new := val64 u.g d l
  if new.extractLsb' 32 8 = 0 then [] else
  (List.range 4).map (fun i =>
    let old := s.mem.byte (ma l + i)
    let take := fun (j : Nat) => new.getLsbD (32 + 2 * i + j)
    (if take 1 then new.extractLsb' (8 * i + 4) 4 else old.extractLsb' 4 4) ++
    (if take 0 then new.extractLsb' (8 * i) 4 else old.extractLsb' 0 4))

/-- The lanes of a list, in order, find the elements of typed pages at the addresses `va` (R315). -/
def ElementsFound (u : Issue) (w : Who) (k : Kind) (nib : Bool) (va : Nat → Nat) (x : Nat → Element)
    (after : Machine.State → Nat → Machine.State) : Machine.State → List Nat → Machine.State → Prop
  | s, [], s' => s' = s
  | s, l :: ls, s' => ∃ s₁, elementAt s (w.ofThread u.key l) k nib (va l) = (s₁, .ok (x l)) ∧
      ElementsFound u w k nib va x after (after s₁ l) ls s'

/-- The elements of two lanes share no bit of memory. -/
def elementsApart (x y : Element) : Prop :=
  x.ma + x.size ≤ y.ma ∨ y.ma + y.size ≤ x.ma ∨ (x.fmt.bits = 4 ∧ y.fmt.bits = 4 ∧ x.ma = y.ma ∧ x.h ≠ y.h)

/-- The pattern of an element as memory holds it. -/
def elementNow (s : Machine.State) (x : Element) : Nat :=
  let v := leNat ((List.range x.size).map (fun i => s.mem.byte (x.ma + i)))
  if x.fmt.bits = 4 then v / 16 ^ x.h % 16 else v

/-- What an element's load leaves of the package: its thread has loaded the bytes, and its generator has drawn. -/
def elementLoaded (u : Issue) (p : Option Pfx) (x : Nat → Element) (s : Machine.State) (l : Nat) : Machine.State :=
  modGroup (noteLoad s u.key l (.ma (16 * ((x l).ma / 16))) ((x l).ma % 16) (x l).size) u.key
    (fun g => setRng g l (drawRng (modeOf u.g p) (rngOf u.g l)).2)

/-- What LDE gives for an element: its value times its scale, rounded once to FP32. -/
def elementValue (s : Machine.State) (u : Issue) (p : Option Pfx) (x : Nat → Element) (l : Nat) : Nat :=
  roundFmt .f32 (satOf p) (modeOf u.g p) (drawRng (modeOf u.g p) (rngOf u.g l)).1
    ((decodeFmt (x l).fmt (elementNow s (x l))).mul (x l).scale)

/-- Atomics by their operation (R318). -/
def atomicForms (p : Option Pfx) (d a b : Opnd) : List (Instr × Nat) :=
  [(.atomAdd p d a b, 0), (.atomMin p d a b, 1), (.atomMax p d a b, 2), (.atomExch p d a b, 3), (.atomAnd p d a b, 4),
   (.atomOr p d a b, 5), (.atomXor p d a b, 6), (.atomCas p d a b, 7), (.atomFadd p d a b, 8), (.atomFadd2 p d a b, 9),
   (.atomFmin p d a b, 10), (.atomFmax p d a b, 11)]

/-- The bytes that an atomic acts on: 4, or 8 for the 64-bit types. -/
def atomicBytes (op : Nat) (ty : BitVec 8) : Nat :=
  if 8 ≤ op then 4 else if op = 1 ∨ op = 2 then (if ty.getLsbD 0 then 8 else 4) else if ty = 1 then 8 else 4

/-- What an atomic stores, from the old value, the operand and the fourth operand (R318). -/
def atomicStores {w : Nat} (op : Nat) (ty : BitVec 8) (old b c : BitVec w) : BitVec w :=
  let less := fun (x y : BitVec w) => if ty.toNat < 2 then x.slt y else x.ult y
  let add := fun (f : Fmt) (x y : Nat) => roundFmt f false .rne 0 (addExact false (decodeFmt f x) (decodeFmt f y))
  match op with
  | 0 => old + b
  | 1 => if less b old then b else old
  | 2 => if less old b then b else old
  | 3 => b
  | 4 => old &&& b
  | 5 => old ||| b
  | 6 => old ^^^ b
  | 7 => if old = c then b else old
  | 8 => BitVec.ofNat w (add .f32 old.toNat b.toNat)
  | 9 =>
    let f : Fmt := if ty = 0 then .bf16 else .f16
    let part := fun (h : Nat) => BitVec.ofNat 16 (add f (old.extractLsb' (16 * h) 16).toNat (b.extractLsb' (16 * h) 16).toNat)
    (part 1 ++ part 0).setWidth w
  | 10 => BitVec.ofNat w (pickFloat .f32 false old.toNat b.toNat)
  | _ => BitVec.ofNat w (pickFloat .f32 true old.toNat b.toNat)

/-- An operand of an atomic of `n` bytes. -/
def atomicOperand (u : Issue) (x : Opnd) (n l : Nat) : Nat := if n = 8 then (val64 u.g x l).toNat else (val32 u.g x l).toNat

/-- The registers of an atomic. -/
def atomicRegs (p : Option Pfx) (d a b : Opnd) (n : Nat) : List (Opnd × Nat) :=
  [(d, n / 4), (a, 2), (b, n / 4)] ++ (if (pfxGet p).cv then [(cOf p, n / 4)] else [])

/-! ### Requests through apertures (R352, R353, R356, R373, R376) -/

/-- The flit of a request to a peer: read, write or atomic, with the mask of a nibble store. -/
def flitFor (s : Machine.State) (q : Request) (dev mask : Nat) : Flit :=
  ⟨BitVec.ofNat 8 (q.kind + 1), BitVec.ofNat 8 dev, BitVec.ofNat 8 s.identity.devnum, BitVec.ofNat 8 (Nat.log2 q.size + 16 * mask),
    BitVec.ofNat 32 q.tag, BitVec.ofNat 48 q.addr, BitVec.ofNat 8 q.aop, 0, q.data⟩

/-- A lane of the unit makes a request, with a nibble mask: it is outstanding with the next tag. A peer's flit leaves where a wavelength
takes it; a read or an atomic of the host goes out at once, and a store to the host waits to be transmitted. -/
def asked (s : Machine.State) (u : Issue) (x : Request × Nat) : Machine.State :=
  let q := { x.1 with tag := s.nextTag, group := u.key, word := u.f.pc, issuedAt := s.clock }
  match q.peer with
  | some dev =>
    let q := { q with flit := some (flitFor s q dev x.2) }
    let w := departsOn s q
    { s with requests := s.requests ++ [{ q with sent := w.isSome, wave := w }], nextTag := s.nextTag + 1,
             sent := s.sent ++ (if w.isSome then [.flit (flitFor s q dev x.2)] else []) }
  | none =>
    { s with requests := s.requests ++ [{ q with sent := decide (q.kind ≠ 1) }], nextTag := s.nextTag + 1,
             sent := s.sent ++ (if q.kind = 0 then [.hostRead s.nextTag q.addr q.size]
               else if q.kind = 2 then [.hostAtomic s.nextTag q.addr q.aop q.data] else []) }

/-- A store of the lane to the host that has not been transmitted. -/
def unsentBy (u : Issue) (l : Nat) (q : Request) : Bool :=
  decide (q.kind = 1 ∧ q.peer = none ∧ q.sent = false ∧ q.group = u.key ∧ q.lane = l)

/-- A memory word whose lanes reach peers or the host: its registers, the multiple that its addresses are, the kind of its accesses, their
lanes, its counter, what it is, and what a lane asks for at its destination; `pre` and `post` are the lane's other effects. -/
structure AskRow where
  i       : Instr
  regs    : List (Opnd × Nat)
  size    : Nat
  kind    : Kind
  va      : Nat → Nat
  lanes   : List Nat
  counter : Option Nat
  load    : Bool
  acquire : Bool
  z       : Bool
  d       : Opnd
  n       : Nat
  asks    : Nat → Machine.State → Nat → Dest → List (Request × Nat)
  pre     : Machine.State → Nat → Dest → Machine.State := fun s _ _ => s
  post    : Machine.State → Nat → Machine.State := fun s _ => s
  ready   : Machine.State → Machine.State → Prop := fun s s₀ => s₀ = s

/-- The lanes of a list, in order, find that their addresses lie behind an aperture, and make their requests there. A read or an atomic of
the host comes with no store of its thread to the host left to transmit; one that aperture 2 cannot carry is not made. -/
def AskRow.Goes (r : AskRow) (u : Issue) (w : Who) (id : Nat) : Machine.State → List Nat → Machine.State → Prop
  | s, [], s' => s' = s
  | s, l :: ls, s' => ∃ s₁ e x,
      translate s w r.kind false (r.va l) = (s₁, .ok (e, x)) ∧
      (∀ dpa ma, x ≠ .dev dpa ma) ∧
      (∀ h, x = .host h → r.kind = .store ∨ s₁.requests.any (unsentBy u l) = false) ∧
      (r.kind = .atomic → ∀ h, x = .host h → r.asks id s₁ l x ≠ []) ∧
      r.Goes u w id (r.post ((r.asks id s₁ l x).foldl (fun s q => asked s u q) (r.pre s₁ l x)) l) ls s'

/-- A load's request. -/
def loadAsks (u : Issue) (p : Option Pfx) (d : Opnd) (n regs : Nat) (sgn : Bool) (va : Nat → Nat) (id : Nat) (_ : Machine.State) (l : Nat)
    (x : Dest) : List (Request × Nat) :=
  let first := lowest (execLanes u p)
  let asks := fun (peer : Option Nat) (addr : Nat) =>
    [({ plainRequest 0 peer addr n [] with
        lane := l, reg := d.toNat, regs := (if 192 ≤ d.toNat ∧ l ≠ first then 0 else regs), op := some id, signed := sgn,
        va := va l, first := first }, 0)]
  match x with
  | .peer dev dpa => asks (some dev) dpa
  | .host addr => asks none addr
  | .dev _ _ => []

/-- A store's request, sent in order behind a release or a fence of the host's scope (R356). -/
def storeAsks (bs : Nat → List Byte) (n : Nat) (ordered : Nat → Bool) (va : Nat → Nat) (id : Nat) (_ : Machine.State) (l : Nat) (x : Dest) :
    List (Request × Nat) :=
  match x with
  | .peer dev dpa => [({ plainRequest 1 (some dev) dpa n (bs l) with lane := l, op := some id, va := va l }, 0)]
  | .host addr => [({ plainRequest 1 none addr n (bs l) with lane := l, op := some id, va := va l, ordered := ordered l }, 0)]
  | .dev _ _ => []

/-- The requests of a nibble store: to a peer, each half of the word with its mask, where that names a nibble; to the host, each byte of
which a nibble is stored, where a nibble that is kept is a free value (log entry 75). -/
def nibbleAsks (u : Issue) (d : Opnd) (va : Nat → Nat) (id : Nat) (s : Machine.State) (l : Nat) (x : Dest) : List (Request × Nat) :=
  let new := val64 u.g d l
  let take := fun (j : Nat) => new.getLsbD (32 + j)
  let byte := fun (i : Nat) => new.extractLsb' (8 * i) 8
  match x with
  | .peer dev dpa =>
    [0, 1].filterMap (fun h =>
      let mask := (new.extractLsb' (32 + 4 * h) 4).toNat
      if mask = 0 then none
      else some ({ plainRequest 1 (some dev) (dpa + 2 * h) 2 [byte (2 * h), byte (2 * h + 1)] with lane := l, op := some id, va := va l }, mask))
  | .host addr =>
    [0, 1, 2, 3].filterMap (fun i =>
      let kept : Byte := BitVec.ofNat 8 (Config.freeChoice (s.tick + i))
      let b : Byte := (if take (2 * i + 1) then (byte i).extractLsb' 4 4 else kept.extractLsb' 4 4) ++
        (if take (2 * i) then (byte i).extractLsb' 0 4 else kept.extractLsb' 0 4)
      if !take (2 * i) && !take (2 * i + 1) then none
      else some ({ plainRequest 1 none (addr + i) 1 [b] with lane := l, op := some id, va := va l, ordered := lane u.g.fenced l }, 0))
  | .dev _ _ => []

/-- An atomic's request: its operand, and for a compare and swap the expected value from byte 16 on; aperture 2 carries add, exchange and
compare and swap. -/
def atomicAsks (u : Issue) (p : Option Pfx) (d b : Opnd) (op n : Nat) (va : Nat → Nat) (id : Nat) (_ : Machine.State) (l : Nat) (x : Dest) :
    List (Request × Nat) :=
  let first := lowest (execLanes u p)
  let data := leBytes n (atomicOperand u b n l) ++
    (if op = 7 then leBytes (16 - n) 0 ++ leBytes n (atomicOperand u (cOf p) n l) else [])
  let asks := fun (peer : Option Nat) (addr : Nat) =>
    [({ plainRequest 2 peer addr n data with
        aop := op + 16 * (pfxGet p).aux.toNat, lane := l, reg := d.toNat, regs := (if 192 ≤ d.toNat ∧ l ≠ first then 0 else n / 4),
        op := some id, first := first, va := va l }, 0)]
  match x with
  | .peer dev dpa => asks (some dev) dpa
  | .host addr => if op = 0 ∨ op = 3 ∨ op = 7 then asks none addr else []
  | .dev _ _ => []

/-- Loads through apertures. -/
def loadAskRows (u : Issue) (p : Option Pfx) (d a b : Opnd) : List AskRow :=
  let act := execLanes u p
  let wide := if (pfxGet p).aux.getLsbD 0 then 8 else 4
  (loadForms p d a b).map (fun f =>
    ({ i := f.1, regs := [(d, f.2.2.1), (a, 2)], size := f.2.1, kind := .load, va := addrOf u a b f.2.1, lanes := lanesOf act,
       counter := clauseSetA u.f, load := true, acquire := f.2.2.2.2, z := zOf p, d := d, n := f.2.2.1,
       asks := loadAsks u p d f.2.1 f.2.2.1 f.2.2.2.1 (addrOf u a b f.2.1) } : AskRow)) ++
  [{ i := .ldu p d a b, regs := [(d, 1), (a, 1)], size := wide, kind := .load, va := addrOf u a b wide, lanes := [lowest act],
     counter := clauseSetA u.f, load := true, acquire := false, z := false, d := d, n := 1,
     asks := loadAsks u p d wide 1 false (addrOf u a b wide) }]

/-- What a lane's store leaves beside its requests, and the draws that a host's takes. -/
def storeBefore (s : Machine.State) (_ : Nat) (x : Dest) : Machine.State :=
  match x with
  | .host _ => { s with tick := s.tick + 4 }
  | _ => s

/-- Stores through apertures. -/
def storeAskRows (u : Issue) (p : Option Pfx) (d a b : Opnd) : List AskRow :=
  let act := execLanes u p
  let row := fun (i : Instr) (n regs : Nat) (ordered : Nat → Bool) (ready : Machine.State → Machine.State → Prop) =>
    ({ i := i, regs := [(d, regs), (a, 2)], size := n, kind := .store, va := addrOf u a b n, lanes := lanesOf act,
       counter := clauseSetB u.f, load := false, acquire := false, z := false, d := d, n := regs,
       asks := storeAsks (storedBytes u d n) n ordered (addrOf u a b n), pre := storeBefore,
       post := fun s l => noteWrite s u.key l, ready := ready } : AskRow)
  (storeForms p d a b).map (fun f => row f.1 f.2.1 f.2.2 (lane u.g.fenced) (fun s s₀ => s₀ = s)) ++
  [row (.stRel p d a b) (4 * sizeSel p) (sizeSel p) (fun _ => true) (fun s s₀ => ∃ scopes,
    releaseScopes (whoGroup s u.key u.g) (addrOf u a b (4 * sizeSel p)) s (lanesOf act) = (s₀, scopes) ∧
      batchesDone s₀ u.g act = true ∧ ∀ x ∈ scopes, scopeOpen s₀ u.key (laneBit x.1) x.2 = false)]

/-- A nibble store through apertures. -/
def nibbleAskRow (u : Issue) (p : Option Pfx) (d a b : Opnd) : AskRow :=
  { i := .stn p d a b, regs := [(d, 2), (a, 2)], size := 4, kind := .store, va := addrOf u a b 4, lanes := lanesOf (execLanes u p),
    counter := clauseSetB u.f, load := false, acquire := false, z := false, d := d, n := 2, asks := nibbleAsks u d (addrOf u a b 4),
    pre := storeBefore, post := fun s l => noteWrite s u.key l }

/-- Atomics through apertures. -/
def atomicAskRows (u : Issue) (p : Option Pfx) (d a b : Opnd) : List AskRow :=
  (atomicForms p d a b).map (fun f =>
    let n := atomicBytes f.2 (pfxGet p).aux
    ({ i := f.1, regs := atomicRegs p d a b n, size := n, kind := .atomic, va := addrOf u a 0 n, lanes := lanesOf (execLanes u p),
       counter := clauseSetA u.f, load := true, acquire := false, z := false, d := d, n := n / 4,
       asks := atomicAsks u p d b f.2 n (addrOf u a 0 n), pre := fun s l _ => noteWrite s u.key l } : AskRow))

/-- The unit's group as a package holds it. -/
def groupNow (s : Machine.State) (u : Issue) : Group := (groupOf s u.key).getD u.g

/-- The word makes its requests as one operation. Counted, it passes on where no peer is asked, and where one is, it may, if none refuses
it; uncounted, or with an acquire, it holds for the replies. Lanes that are not Active are zeroed under z, at once where nothing can
still refuse the word. -/
def AskRow.Runs (r : AskRow) (p : Option Pfx) (s : Machine.State) (u : Issue) : Prop :=
  ∀ s₀ s', issueOf s = some u → Fresh u → Calm s u → RegsOk u.g r.regs → Aligned u p r.size r.va → execLanes u p ≠ 0 →
    (∀ k, r.counter = some k → (counterOf u.g k).val < 255) → r.ready s s₀ →
    r.Goes u (whoGroup s u.key u.g) s₀.nextOp (counted s₀ u r.counter r.load) r.lanes s' →
    let mine := s'.requests.filter (fun q => q.op = some s₀.nextOp)
    mine ≠ [] →
    ∃ t g' o, exec r.i s = .next t ∧ { t with groups := s'.groups, ops := s'.ops, tick := s'.tick } = s' ∧
      tfind t.ops s₀.nextOp = some o ∧ o.group = u.key ∧ o.counter = r.counter ∧ o.waits = mine.length ∧ o.issued = true ∧
      o.err = false ∧ o.acquire = r.acquire ∧
      (let now := r.z && r.counter.isNone && mine.all (fun q => q.peer.isNone)
       (∀ v l, l < 64 → vreg g' v l =
          if now = true ∧ r.d.toNat < 192 ∧ lane u.f.lanes l = true ∧ lane (execLanes u p) l = false ∧ r.d.toNat ≤ v ∧ v < r.d.toNat + r.n
          then 0 else vreg (groupNow s' u) v l) ∧
       { g' with v := (groupNow s' u).v } = groupNow s' u) ∧
      (r.counter = none ∨ r.acquire = true →
        t.groups = (holdUnit (setGroup s' u.key g') u (.scoped s₀.nextOp u.words.length)).groups) ∧
      (r.counter ≠ none → r.acquire = false →
        t.groups = (finish s' u).groups ∨
        (∃ q ∈ mine, q.peer ≠ none) ∧ t.groups = (holdUnit s' u (.scoped s₀.nextOp u.words.length)).groups)

end Sys2Proof
end

