-- ==== Sys2Proof/Safety/ScratchTerms.lean ====
section
/-!
DEFINITION. Terms of the statements about scratchpad words: the frame that holds an address, what a word leaves of the frames, and the
lanes of an atomic.
-/
namespace Sys2Proof

open Sys2Proof.Machine

/-- A lane's scratchpad address: base plus offset in units of the size (R203). -/
def svaAt (u : Issue) (a b : Opnd) (size l : Nat) : Nat := (val32 u.g a l).toNat + size * b.toNat

/-- Every Active lane's address lies below SCRATCH and is a multiple of the size. -/
def SvaOk (s : Machine.State) (u : Issue) (p : Option Pfx) (size : Nat) (va : Nat → Nat) : Prop :=
  ∀ l, lane (execLanes u p) l = true → va l < ((launchOfGroup s u.g).map recScratch).getD 0 ∧ va l % size = 0

/-- The page of an address of the unit's gang is resident, and stands in a frame of a core, as the table in memory says, too; no fill of
it has failed. -/
def HereAt (s : Machine.State) (u : Issue) (sva core f : Nat) (x : Frame) : Prop :=
  ∃ q l, gangOf s u.g.gang = some q ∧ launchOf s q.launch = some l ∧ pageState q (sva / 2048) = 2 ∧
    tfind q.failed (sva / 2048) = none ∧ tableHere s q l (sva / 2048) = true ∧ pageFrame q (sva / 2048) = some (core, f) ∧ frameOf s core f = some x

/-- No unit of some bytes of a frame is marked (R201). -/
def Unmarked (x : Frame) (off n : Nat) : Prop := ∀ i < n, x.marks.getLsbD ((off + i) / 16) = false

/-- No engine write is on its way, no store of the group waits for a page, no comparator of the core is enabled, no request waits for
the operation that is numbered next, the group neither captures nor replays, and the word does not break off between two of its lanes. -/
def ScratchCalm (s : Machine.State) (u : Issue) : Prop :=
  s.places = [] ∧ u.g.spills = [] ∧ ((coreOf s (u.key / 128)).data.filter (fun c => c.2.en)) = [] ∧ Plain s u ∧
  (∀ r ∈ s.requests, r.op ≠ some s.nextOp) ∧ s.cut = none

/-- Nothing of the package differs but groups, operations, and when frames were last used; every frame holds the same bytes. -/
def FramesSame (s t : Machine.State) : Prop :=
  { t with groups := s.groups, ops := s.ops, nextOp := s.nextOp, cores := s.cores } = s ∧
  ∀ c, { coreOf t c with frames := (coreOf s c).frames } = coreOf s c ∧
    ∀ f, (frameOf t c f).map (fun x => { x with last := 0 }) = (frameOf s c f).map (fun x => { x with last := 0 })

/-- Scratchpad loads: bytes, registers, sign extension. -/
def ldsForms (p : Option Pfx) (d a b : Opnd) : List (Instr × Nat × Nat × Bool) :=
  [(.ldsH p d a b, 2, 1, (pfxGet p).aux.getLsbD 0), (.ldsW p d a b, 4, 1, false), (.ldsD p d a b, 8, 2, false),
   (.ldsQ p d a b, 16, 4, false)]

/-- Scratchpad stores: bytes and registers. -/
def stsForms (p : Option Pfx) (d a b : Opnd) : List (Instr × Nat × Nat) :=
  [(.stsH p d a b, 2, 1), (.stsW p d a b, 4, 1), (.stsD p d a b, 8, 2), (.stsQ p d a b, 16, 4)]

/-- Scratchpad atomics: their operation and type among the global ones (R204). -/
def atomsForms (p : Option Pfx) (d a b : Opnd) : List (Instr × Nat × BitVec 8) :=
  let ty := (pfxGet p).aux
  [(.atomsAdd p d a b, 0, ty), (.atomsExch p d a b, 3, ty), (.atomsCas p d a b, 7, ty),
   (.atomsFadd p d a b, if ty = 0 then 8 else 9, if ty = 0 then 0 else ty - 1)]

/-- The package once the lanes of a list have loaded `n` scratchpad bytes each at the present place. -/
def ScratchLooked (u : Issue) (n : Nat) (va : Nat → Nat) (s : Machine.State) (ls : List Nat) : Machine.State :=
  ls.foldl (fun s l => noteLoad s u.key l (.sva u.g.gang (16 * (va l / 16))) (va l % 16) n) s

/-- The lanes of a list, in order, find their pages resident, and store bytes there. -/
def ScratchStoresGo (u : Issue) (va : Nat → Nat) (bs : Nat → List Byte) : Machine.State → List Nat → Prop
  | _, [] => True
  | s, l :: ls => (∃ core f x, HereAt s u (va l) core f x) ∧ ScratchStoresGo u va bs (noteWrite (svaStore s u.g.gang (va l) (bs l)) u.key l) ls

/-- The lanes of a list, in order, read scratchpad bytes and write what `new` makes of them, each in one step. -/
def ScratchAtomicsGo (u : Issue) (n : Nat) (va : Nat → Nat) (old : Nat → Nat) (new : Nat → Nat → Nat) :
    Machine.State → List Nat → Machine.State → Prop
  | s, [], s' => s' = s
  | s, l :: ls, s' => ∃ core f x, HereAt s u (va l) core f x ∧ Unmarked x (va l % 2048) n ∧
      old l = leNat (readBytes x.bytes (va l % 2048) n) ∧
      ScratchAtomicsGo u n va old new (noteWrite (svaStore s u.g.gang (va l) (leBytes n (new l (old l)))) u.key l) ls s'

/-- What SPQUERY writes for an address (R210): entry bits 23:0, the home core of a resident page, and the page's state. -/
def queryValue (s : Machine.State) (u : Issue) (sva : Nat) : Nat :=
  if ((launchOfGroup s u.g).map recScratch).getD 0 ≤ sva then 0xFFFFFFFF
  else match gangOf s u.g.gang with
    | none => 0
    | some q =>
      let e := q.page (sva / 2048)
      (e.extractLsb' 0 24).toNat + (if e.getLsbD 1 then 2 ^ 24 * (q.cores[(e.extractLsb' 4 2).toNat]?).getD 0 else 0) +
        2 ^ 30 * pageState q (sva / 2048)

/-- The pages that a mapping word treats, from S[a] on, when they lie below SCRATCH. -/
def PagesOk (s : Machine.State) (u : Issue) (a : Opnd) (first n : Nat) : Prop :=
  (sreg u.g (a.toNat - 192)).toNat = 2048 * first ∧ 2048 * (first + n) ≤ ((launchOfGroup s u.g).map recScratch).getD 0

/-- A page of the unit's gang, as its entry stands. -/
def entryOf (s : Machine.State) (u : Issue) (p : Nat) : Dword := ((gangOf s u.g.gang).map (fun q => q.page p)).getD 0

end Sys2Proof
end

