-- ==== Sys2Proof/Safety/EngineTerms.lean ====
section
/-!
DEFINITION. Terms of the statements about accumulator memory, copies, task rings, barriers and counters.
-/
namespace Sys2Proof

open Sys2Proof.Machine

/-! ### Teams and atiles (R246, R247, R262) -/

/-- The team of a unit's group, and the core that holds its atiles and its ring. -/
def TeamAt (s : Machine.State) (u : Issue) (team : Team) (core : Nat) : Prop :=
  ∃ q, gangOf s u.g.gang = some q ∧ q.teams[u.g.team]? = some team ∧ core = ringCore s u.g.gang u.g.team

/-- A scalar names an atile of the team. -/
def AtileOk (team : Team) (x : Dword) : Prop := x.toNat < team.acc ∧ x.toNat < 65536

/-- An element of a physical atile: 32 × row + column. -/
def element (s : Machine.State) (core atile e : Nat) : Word := tget 0 (coreOf s core).atiles (1024 * atile + e)

/-- A unit's scalar operand. -/
def scalar (u : Issue) (x : Opnd) : Nat := (sreg u.g (x.toNat - 192)).toNat

/-- The fragment passes its word, and nothing else of the package but its own group's registers and atiles of a core differs. -/
def AtilesOnly (s t : Machine.State) (core : Nat) : Prop :=
  { t with groups := s.groups, cores := s.cores } = s ∧ (∀ c, c ≠ core → coreOf t c = coreOf s c) ∧
  { coreOf t core with atiles := (coreOf s core).atiles } = coreOf s core

/-- A unit's team after a change. -/
def withTeam (s : Machine.State) (u : Issue) (x : Team) : Machine.State :=
  match gangOf s u.g.gang with
  | none => s
  | some q => setGang s u.g.gang { q with teams := q.teams.set u.g.team x }

/-! ### Transfers (R220 to R222, R279) -/

/-- The number after `n` in the running count of transfers: 0 is skipped. -/
def numberAfter (n : Nat) : Nat := if (n + 1) % 2 ^ 32 = 0 then 1 else (n + 1) % 2 ^ 32

/-- The number of the i-th transfer from `n` on. -/
def numberFrom (n : Nat) : Nat → Nat
  | 0 => n
  | i + 1 => numberAfter (numberFrom n i)

/-- The word's counted operation finds its counter, if its clause names one, below 255. -/
def RoomOnB (u : Issue) : Prop := ∀ k, clauseSetB u.f = some k → (counterOf u.g k).val < 255

/-- The unit's group keeps every register, mask and fragment but its own, and its SETB counter counts one more. -/
def CountedOnB (u : Issue) (g' : Group) : Prop :=
  g'.v = u.g.v ∧ g'.s = u.g.s ∧ g'.m = u.g.m ∧ g'.held = u.g.held ∧ g'.rng = u.g.rng ∧
  ∀ k, k < u.g.counters.length →
    (counterOf g' k).val = (counterOf u.g k).val + (if clauseSetB u.f = some k then 1 else 0)

/-- A transfer as it is issued. -/
def Issued (s : Machine.State) (u : Issue) (w : Transfer) (kind core : Nat) (lanes : Dword) (operands : List Nat) : Prop :=
  w.kind = kind ∧ w.core = core ∧ w.group = some u.key ∧ w.gang = u.g.gang ∧ w.lanes = lanes ∧ w.operands = operands ∧
  w.progress = 0 ∧ w.complete = none ∧ w.halted = false ∧ w.err = false ∧ w.op = some s.nextOp

/-- The operands of a tile transfer pass the checks of R279. -/
def TileOk (s : Machine.State) (u : Issue) (team : Team) (addr atile ctl : Nat) : Prop :=
  let c : Dword := BitVec.ofNat 64 ctl
  let rows := (c.extractLsb' 0 6).toNat
  let cols := (c.extractLsb' 6 6).toNat
  let bytes := cols * (if c.extractLsb' 12 2 = 0 then 4 else 2)
  let pitch := 16 * (c.extractLsb' 16 16).toNat
  atile % 65536 < team.acc ∧ rows ≤ 32 ∧ cols ≤ 32 ∧ atile / 65536 + rows ≤ 32 ∧ c.extractLsb' 12 2 ≠ 3 ∧
  c.getLsbD 15 = false ∧ c.extractLsb' 32 32 = 0 ∧ atile < 2 ^ 21 ∧ addr % 16 = 0 ∧ (1 < rows → bytes ≤ pitch) ∧
  (c.getLsbD 14 = true → addr < 2 ^ 32 ∧
    (rows = 0 ∨ cols = 0 ∨ addr + pitch * (rows - 1) + bytes ≤ ((launchOfGroup s u.g).map recScratch).getD 0))

/-- The operands that a lane's copy takes (R219, R221): destination, source, control word, rows, pitches, index address, form. -/
def copyOperands (u : Issue) (form : Nat) (desc : Bool) (d a b : Opnd) (l : Nat) : List Nat :=
  let dst := (val64 u.g d l).toNat
  let src := (val64 u.g a l).toNat
  let w := fun (i : Nat) =>
    if 192 ≤ b.toNat then ((sreg u.g (b.toNat - 192 + i / 2)) >>> (32 * (i % 2))).toNat % 2 ^ 32
    else (vreg u.g (b.toNat + i) l).toNat
  if !desc then [dst, src, (val32 u.g b l).toNat, 1, 0, 0, 0, form]
  else if form = 1 then [dst, src, w 0, w 1, 0, 0, w 2 + 2 ^ 32 * w 3, 1]
  else [dst, src, w 0, w 1, w 2, w 3, 0, form]

/-- The copy words: their form, and whether `b` is a descriptor. -/
def copyForms (d a b : Opnd) : List (Instr × Nat × Bool) :=
  [(.cpy d a b, 0, false), (.cpy2 d a b, 0, true), (.cpyg d a b, 1, true), (.cpyx d a b, 2, false)]

/-- The registers of a copy word. -/
def copyRegs (d a b : Opnd) (desc : Bool) : List (Opnd × Nat) :=
  [(d, 2), (a, 2)] ++ (if desc then (if 192 ≤ b.toNat then [] else [(b, 4)]) else [(b, 1)])

/-- The threads that a copy word makes transfers for: each of them, or the lowest where every operand is a scalar. -/
def copyLanes (u : Issue) (d a b : Opnd) : List Nat :=
  if 192 ≤ d.toNat ∧ 192 ≤ a.toNat ∧ 192 ≤ b.toNat then [lowest u.f.lanes] else lanesOf u.f.lanes

/-! ### Task rings (R238 to R242) -/

/-- Slots of a team's ring. -/
def slotsOf (team : Team) : Nat := if team.ringLog = 0 then 0 else 2 ^ team.ringLog

/-- No post of the team waits, and no other word waits for its walker. -/
def WalkerFree (s : Machine.State) (u : Issue) (team : Team) : Prop :=
  team.posts = [] ∧ ∀ x ∈ s.groups, x.2.gang = u.g.gang → x.2.team = u.g.team → ∀ f ∈ x.2.frags, ∀ t, f.hold ≠ .walker t

/-- What MQUERY gives for a slot (R270). -/
def slotReport (s : Machine.State) (x : Slot) : Nat :=
  let err := x.err || ((x.trans.bind (tfind s.transfers)).map (·.err)).getD false
  x.state + 2 ^ 2 * x.phase + 2 ^ 8 * (x.r % 256).toNat + 2 ^ 16 * x.h + 2 ^ 24 * field x.record 2 2 + 2 ^ 40 * err.toNat +
    2 ^ 41 * (field x.record 0 1 % 4)

/-- What MQUERY gives for the team (R270). -/
def teamReport (t : Team) : Nat :=
  t.atiles + 2 ^ 10 * t.acc + 2 ^ 20 * (t.ringBase % 2 ^ 24) + 2 ^ 44 * t.ringLog +
    2 ^ 48 * (t.slots.filter (fun x => x.2.state ≠ 0)).length

/-- A task-ring trap (R240, R269 to R271, R406). -/
def ringFault (rule place : Nat) : Trap := { cls := 15, info0 := BitVec.ofNat 64 (causeCode rule place) }

/-- An accumulator-address trap of a lane (R273). -/
def tileFault (rule place l : Nat) : Trap :=
  { cls := 17, info0 := BitVec.ofNat 64 (causeCode rule place), info1 := BitVec.ofNat 64 l }

/-! ### Barriers (R234 to R236) -/

/-- Whether a word of a scope acts on the gang barrier: a gang of one team has only its team barrier (R235). -/
def onGang (s : Machine.State) (u : Issue) (gangScope : Bool) : Bool :=
  gangScope && ((gangOf s u.g.gang).map (fun q => decide (1 < q.teams.length))).getD false

/-- The threads of a group that have arrived at a barrier of its gang, or of its team. -/
def arrivals (g : Group) (gs : Bool) : Dword := if gs then g.arrGang else g.arrTeam

/-- A group with other arrivals. -/
def withArrivals (g : Group) (gs : Bool) (m : Dword) : Group := if gs then { g with arrGang := m } else { g with arrTeam := m }

/-- AMASK and ACOUNT of a barrier's record once a group's threads have arrived as they have. -/
def countedAt (s : Machine.State) (u : Issue) (gs : Bool) (g' : Group) : Machine.State :=
  let b := barrierOf s u.g gs
  let here := laneBit (16 * g'.team + g'.gid)
  let m := if liveLanes g' &&& ~~~(arrivals g' gs) = 0 then b.amask ||| here else b.amask &&& ~~~here
  setBarrier s u.g.gang u.g.team gs { b with amask := m, acount := (lanesOf m).length }

/-- The package once a group's threads have arrived: the group, and AMASK and ACOUNT of the record. -/
def arrivedAt (s : Machine.State) (u : Issue) (gs : Bool) (g' : Group) : Machine.State := countedAt (setGroup s u.key g') u gs g'

/-- No barrier of a gang is complete, and none is deadlocked. -/
def BarriersQuiet (s : Machine.State) (uid : Nat) (q : Gang) : Prop :=
  ∀ x ∈ barrierScopes q, barrierMet s uid x.1 x.2 = false ∧ barrierStuck s uid x.1 x.2 = false

/-- The generation that a thread waits for has completed (R236): the barrier is 1 to 2^31 beyond it. -/
def generationDone (gen waited : BitVec 32) : Prop := 1 ≤ (gen - waited).toNat ∧ (gen - waited).toNat ≤ 2 ^ 31

end Sys2Proof
end

