-- ==== Sys2Proof/Safety/SystemTerms.lean ====
section
/-!
DEFINITION. Terms of the statements about traps and system words: their operands, what they read, and the tables that they set.
-/
namespace Sys2Proof

open Sys2Proof.Machine

/-- A system word is being issued: the unit's launch is `l`, and its base word holds the fields `a` and `b`. -/
def SystemAt (s : Machine.State) (u : Issue) (l : Launch) (a b : Opnd) : Prop :=
  issueOf s = some u ∧ launchOfGroup s u.g = some l ∧ systemFields s = (a, b)

/-- The illegal-instruction trap of the unit's word, for a place of a rule (R406, R491). -/
def illegal (s : Machine.State) (u : Issue) (rule place : Nat) : Machine.Out := .next (raise s u (illegalTrap u (rule + 65536 * place)))

/-- The word completes and its scalar takes a value. -/
def gives (s : Machine.State) (u : Issue) (d : Opnd) (v : Nat) : Machine.Out := .next (u.passed s (withScalar (groupNow s u) d v))

/-- Between two states the threads of a group have read, and nothing else has come about: draws have been made, the lines that are asked
for on Levant (R365) and the loads that the group's threads have made (R349) are noted. -/
def OnlyRead (s s' : Machine.State) (key : Nat) : Prop :=
  { s' with tick := s.tick, fabric := { s'.fabric with asked := s.fabric.asked }, groups := s.groups } = s ∧
  ∃ looked, s'.groups = (modGroup s key (fun g => { g with anchors := looked })).groups

/-- A read of `n` bytes at an address for the unit's group finds `bs`, and changes nothing else. -/
def Reads (s : Machine.State) (u : Issue) (va n : Nat) (bs : List Byte) (s' : Machine.State) : Prop :=
  loadMany s ((whoGroup s u.key u.g).ofThread u.key (lowest u.f.lanes)) va n = (s', .ok bs) ∧ OnlyRead s s' u.key

/-- A word has completed, and its group and every other group are as before but for its place. -/
def OnlyPasses (s : Machine.State) (u : Issue) (t : Machine.State) : Prop := t.groups = (finish s u).groups

/-! ### Invalidation (R334 to R336) -/

/-- The words that invalidate, whether they act on every core, and their MODE. -/
def invForms (a b : Opnd) : List (Instr × Bool × Nat) :=
  [(.tlbinvPage a b, true, 0), (.tlbinvContext, true, 1), (.tlbinvPartition, true, 2), (.lpinvPage a b, false, 0),
   (.lpinvContext, false, 1), (.lpinvPartition, false, 2)]

/-- The operands that a MODE takes. -/
def InvOk (mode sa sb : Nat) : Prop :=
  match mode with
  | 0 => sa % 256 = 0 ∧ sa < 65536 ∧ sb < 2 ^ 56
  | 1 => sa % 256 = 1 ∧ sa < 65536 ∧ sb = 0
  | _ => sa = 2 ∧ sb = 0

/-- The contexts that an invalidation covers: the one named, or every one of the partition. -/
def invCovers (s : Machine.State) (l : Launch) (mode sa ctx : Nat) : Prop :=
  if mode = 2 then ctxPart s ctx = l.part else ctx = sa / 256 % 256

/-- The cores that it acts on. -/
def invOn (s : Machine.State) (u : Issue) (all : Bool) (core : Nat) : Prop :=
  all = true ∨ ∃ q, gangOf s u.g.gang = some q ∧ core ∈ q.cores

/-! ### ITSET (R337) -/

/-- The places of R337's list that a new entry meets. -/
def itsetBad (m : Mem) (f : Nat) (e : Dword) (place : Nat) : Prop :=
  match place with
  | 1 => e.toNat / 64 % 4 ≠ 0 ∨ e.toNat / 2048 % 2 ≠ 0 ∨ e.toNat / 2 ^ 52 ≠ 0
  | 2 => IndMoving e = true
  | 3 => IndPart e = 6
  | 4 => IndTierX e = false ∧ 12582911 < IndFrame e
  | 5 => IndV e = true ∧ IndTierX e = false ∧ namedElsewhere m f (IndFrame e) = true
  | _ => False

/-! ### Device memory's own tables (R295 to R303) -/

/-- A channel as its being declared dead leaves it. -/
def deadNow (s t : Machine.State) (chans : List Nat) (byWord : Bool) : Prop :=
  (∀ c ∈ chans, s.mem.dead c = false → (t.mem.chan c).state = 1 ∧ (t.mem.chan c).bysw = byWord) ∧
  (∀ c, (c ∉ chans ∨ s.mem.dead c = true) → t.mem.chan c = s.mem.chan c) ∧
  t.mem.rebuild.queue = s.mem.rebuild.queue ++ chans.filter (fun c => !s.mem.dead c)

/-- Device memory with another rebuild engine. -/
def withRebuild (s : Machine.State) (x : Rebuild) : Machine.State := { s with mem := { s.mem with rebuild := x } }

/-! ### PSET (R444, R449) -/

/-- No fragment holds for a power step, nor does one that a handler has set aside. -/
def NoPset (s : Machine.State) : Prop :=
  (∀ x ∈ s.groups, ∀ f ∈ x.2.frags, ∀ d w, f.hold ≠ .power d w) ∧
  ∀ q ∈ s.gangs, ∀ m, q.2.mode = some m → ∀ f ∈ m.saved, ∀ d w, f.hold ≠ .power d w

/-- The fragments that held for a power step have taken PWRSTAT and stand past their units. -/
def PsetsEnd (s s' : Machine.State) : Prop :=
  ∀ k g f d w, groupOf s k = some g → f ∈ g.frags → f.hold = .power d w →
    ∃ g', groupOf s' k = some g' ∧ sreg g' d = BitVec.ofNat 64 (pwrstat s') ∧
      ∃ f' ∈ g'.frags, f'.lanes = f.lanes ∧ f'.hold = .ready ∧ (f'.pc, f'.clause) = afterWords f.clause f.pc w

/-- The power source's request leaves the package, whose power is then `p`: where the step in force has settled, packets that ask for a step
end, and so does what PSET holds; nothing else comes about. -/
def StepAsked (s t : Machine.State) (p : Power) : Prop :=
  t.power = p ∧ { t with power := s.power, packets := s.packets, groups := s.groups, gangs := s.gangs } = s ∧
  (p.moving = true → t.packets = s.packets ∧ t.groups = s.groups ∧ t.gangs = s.gangs) ∧
  (p.moving = false → PsetsEnd s t ∧ (NoPset s → t.groups = s.groups ∧ t.gangs = s.gangs) ∧
    ∀ k x, tfind s.packets k = some x → tfind t.packets k =
      some (if field x.bytes 0 1 = 4 ∧ x.status = none then { x with status := some 2 } else x))

/-! ### Comparators, traces and captures (R459 to R469) -/

/-- Where a comparator word puts its comparator: code comparators of a core, its watchpoints, or those of CX. -/
def codeAt (s : Machine.State) (core i : Nat) : Comparator := tget Comparator.reset (coreOf s core).code i
def watchAt (s : Machine.State) (core i : Nat) : Comparator := tget Comparator.reset (coreOf s core).data i

/-- The result of BKSET and WPSET, and the comparator that they leave: another partition's stays, address 0 clears, a refused
descriptor clears, and one that is taken enables. -/
def comparatorAfter (c : Comparator) (part va : Nat) (ok : Bool) (d : List Byte) : Comparator × Nat :=
  if c.part ≠ 7 ∧ c.part ≠ part then (c, 1)
  else if va = 0 then (Comparator.reset, 0)
  else if ok then (⟨part, true, d, 0, 0⟩, 0) else (Comparator.reset, 2)

/-- The package with a partition's trace. -/
def withTrace (s : Machine.State) (part : Nat) (x : Trace) : Machine.State := { s with traces := tset Trace.reset s.traces part x }

/-- The package with a context's capture settings. -/
def withCapture (s : Machine.State) (ctx mode base bytes : Nat) : Machine.State :=
  setCtx s ctx { ctxOf s ctx with capMode := mode, capBase := base, capBytes := bytes }

/-! ### Traps (R405 to R421) -/

/-- The fragment of the unit as a raised trap finds it, and its package. -/
def atTrap (s : Machine.State) (u : Issue) : Machine.State :=
  setGroup s u.key (modFrag u.g u.f.lanes (fun f => if f.resumed then f else { f with first := unperformed }))

/-- The context's vector for a class at a rung is `v`, read as the trapping thread loads it, with no other change. -/
def VectorIs (s : Machine.State) (u : Issue) (l : Launch) (cls rung : Nat) (v : Nat) (s' : Machine.State) : Prop :=
  vectorOf s ((whoLaunch (u.key / 128) l).ofThread u.key (lowest u.f.lanes)) l.stamp cls rung = (s', .found v) ∧ OnlyRead s s' u.key

/-- The handler fragment: the trapping fragment's threads, at the vector, outside any clause. -/
def HandlerAt (f : Frag) (vector pix : Nat) (f' : Frag) : Prop :=
  f'.lanes = f.lanes ∧ f'.pc = vector ∧ f'.clause = none ∧ f'.hold = .ready ∧ f'.pix = pix ∧ f'.resumed = false

/-- The trap registers as a trap of the unit writes them at a rung (R422). -/
def trapRegsNow (s : Machine.State) (u : Issue) (t : Trap) (rung : Nat) : TrapRegs :=
  let place := codePos s (launchOfGroup s u.g) u.f.pc
  { tclass := BitVec.ofNat 64 (t.cls + 32 * rung + (if t.cls = 14 ∨ t.cls = 16 ∨ t.cls = 22 ∨ t.cls = 23 then 256 else 0))
    tword := BitVec.ofNat 64 u.f.pc
    tpos := BitVec.ofNat 64 (place.1 % 2 ^ 32 + 2 ^ 32 * (if t.safe then 0 else place.2))
    tpix := BitVec.ofNat 64 t.pix
    tinfo0 := t.info0
    tinfo1 := t.info1
    tlanes := u.f.lanes
    tsrc := BitVec.ofNat 64 (u.key / 128 + 64 * (u.key % 128)) }

/-- A trap of a word is taken (R407 to R412): `s` is the package as it finds it, with the unit's group and fragment in it, and `after` what it
leaves. It goes to the group rung where its class has a vector there, else, or where the group is in trap mode, to the gang rung, and to the
context rung where the gang is in trap mode. -/
def TrapTaken (s : Machine.State) (u : Issue) (l : Launch) (q : Gang) (t : Trap) (after : Machine.State) : Prop :=
  let handled := fun (g' : Group) (v : Nat) => ∃ f', HandlerAt u.f v t.pix f' ∧ FragBecomes u f' g'
  let entered := fun (m : TrapMode) => m.cls = t.cls ∧ m.lanes = u.f.lanes ∧ m.pc = u.f.pc ∧ m.clause = u.f.clause ∧ m.pix = t.pix ∧
    m.first = u.f.first ∧ m.op = u.f.op ∧ m.words = u.words.length ∧ m.atHeader = t.atHeader ∧ m.engine = t.engine
  (∀ v s', q.mode = none → u.g.mode = none → VectorIs s u l t.cls 0 v s' →
    ∃ g' m, groupOf after u.key = some g' ∧ handled g' v ∧ g'.regsTrap = trapRegsNow s u t 0 ∧ g'.mode = some m ∧ entered m ∧
      { g' with frags := u.g.frags, regsTrap := u.g.regsTrap, mode := u.g.mode, anchors := u.g.anchors } = u.g ∧
      (∀ k, k ≠ u.key → groupOf after k = groupOf s k) ∧ after.gangs = s.gangs ∧ after.mem = s.mem ∧ after.ctxs = s.ctxs) ∧
  (∀ v s₁ s', q.mode = none →
    (u.g.mode ≠ none ∧ s₁ = s ∨
      u.g.mode = none ∧ OnlyRead s s₁ u.key ∧
        vectorOf s ((whoLaunch (u.key / 128) l).ofThread u.key (lowest u.f.lanes)) l.stamp t.cls 0 = (s₁, .absent)) →
    VectorIs s₁ u l t.cls 1 v s' →
    ∃ g' m, groupOf after u.key = some g' ∧ handled g' v ∧ { g' with frags := u.g.frags, anchors := u.g.anchors } = u.g ∧
      gangOf after u.g.gang = some { q with regsTrap := trapRegsNow s u t 1, mode := some m, handler := some u.key } ∧ entered m ∧
      (∀ k, k ≠ u.key → groupOf after k = groupOf s k) ∧ after.mem = s.mem ∧ after.ctxs = s.ctxs) ∧
  (q.mode ≠ none →
    ∃ g', groupOf after u.key = some g' ∧ { g' with frags := u.g.frags } = u.g ∧ (ctxOf after l.ctx).frozen = true ∧
      (ctxOf after l.ctx).pend = true ∧ gangOf after u.g.gang = some { q with climbed := some ⟨t.cls, t.info0, t.info1, 2, t.engine, none⟩ } ∧
      ((ctxOf s l.ctx).pend = false → (ctxOf after l.ctx).cls = t.cls ∧ (ctxOf after l.ctx).gang = q.index) ∧ after.mem = s.mem)

/-- The 32 bytes of a trace record of the unit's group (R467). -/
def traceBytes (s : Machine.State) (u : Issue) (l : Launch) (typ ln arg value : Nat) : List Byte :=
  let place := codePos s (some l) u.f.pc
  leBytes 1 typ ++ leBytes 1 (u.key / 128) ++ leBytes 1 (u.key % 128) ++ leBytes 1 ln ++ leBytes 4 place.1 ++
    leBytes 2 (min 65535 place.2) ++ leBytes 2 arg ++ leBytes 4 l.seq ++ leBytes 8 s.clock ++ leBytes 8 value

/-! ### Failed accesses (R327 to R329, R339, R438) -/

/-- A memory word as its lanes' checks meet it: its destination with its registers, the registers named, the multiple that each lane's
address is, whether its counter is that of loads and whether lanes that are not Active are zeroed, how a lane fails (the package
afterwards, why, the address and the kind of the access that failed), and what the word looks at before its lanes. -/
structure FailRow where
  i     : Instr
  d     : Opnd
  n     : Nat
  regs  : List (Opnd × Nat)
  size  : Nat
  load  : Bool
  z     : Bool
  va    : Nat → Nat
  fails : Machine.State → Nat → Machine.State → XBad → Nat → Kind → Prop
  ready : Machine.State → Machine.State → Prop := fun s s₀ => s₀ = s

/-- A lane's check fails, or, where the access cannot be made beyond aperture 2, it would be made there (R356). -/
def checkFails (w : Who) (k : Kind) (noHost : Bool) (va : Nat → Nat) (s : Machine.State) (l : Nat) (s₁ : Machine.State) (bad : XBad)
    (x : Nat) (kind : Kind) : Prop :=
  x = va l ∧ kind = k ∧ (translate s w k false (va l) = (s₁, .error bad) ∨
    noHost = true ∧ bad = .cause 7 ∧ ∃ e h, translate s w k false (va l) = (s₁, .ok (e, .host h)))

/-- A lane's element of a typed page cannot be accessed. -/
def elementFails (u : Issue) (w : Who) (k : Kind) (nib : Bool) (va : Nat → Nat) (s : Machine.State) (l : Nat) (s₁ : Machine.State)
    (bad : XBad) (x : Nat) (kind : Kind) : Prop :=
  elementAt s (w.ofThread u.key l) k nib (va l) = (s₁, .error (bad, x, kind))

/-- The loads, stores, atomics and typed accesses of device memory and the apertures. -/
def failRows (s : Machine.State) (u : Issue) (p : Option Pfx) (d a b : Opnd) : List FailRow :=
  let w := whoGroup s u.key u.g
  let nib := (pfxGet p).aux.getLsbD 0
  let wide := if nib then 8 else 4
  let word := 4 * sizeSel p
  (loadForms p d a b).map (fun f => ⟨f.1, d, f.2.2.1, [(d, f.2.2.1), (a, 2)], f.2.1, true, zOf p, addrOf u a b f.2.1,
    checkFails w .load false (addrOf u a b f.2.1), fun s s₀ => s₀ = s⟩) ++
  (storeForms p d a b).map (fun f => ⟨f.1, d, f.2.2, [(d, f.2.2), (a, 2)], f.2.1, false, false, addrOf u a b f.2.1,
    checkFails w .store false (addrOf u a b f.2.1), fun s s₀ => s₀ = s⟩) ++
  (atomicForms p d a b).map (fun f =>
    let n := atomicBytes f.2 (pfxGet p).aux
    ⟨f.1, d, n / 4, atomicRegs p d a b n, n, true, false, addrOf u a 0 n,
      checkFails w .atomic (f.2 ≠ 0 ∧ f.2 ≠ 3 ∧ f.2 ≠ 7) (addrOf u a 0 n), fun s s₀ => s₀ = s⟩) ++
  [⟨.ldu p d a b, d, 1, [(d, 1), (a, 1)], wide, true, false, addrOf u a b wide, checkFails w .load false (addrOf u a b wide),
     fun s s₀ => s₀ = s⟩,
   ⟨.stn p d a b, d, 2, [(d, 2), (a, 2)], 4, false, false, addrOf u a b 4, checkFails w .store false (addrOf u a b 4),
     fun s s₀ => s₀ = s⟩,
   ⟨.stRel p d a b, d, sizeSel p, [(d, sizeSel p), (a, 2)], word, false, false, addrOf u a b word,
     checkFails w .store false (addrOf u a b word), fun s s₀ => s.places = [] ∧ batchesDone s₀ u.g (execLanes u p) = true ∧
       releaseScopes w (addrOf u a b word) s (lanesOf (execLanes u p)) = (s₀, [])⟩,
   ⟨.lde p d a, d, 1, [(d, 1), (a, 2)], 1, true, zOf p, addrOf u a 0 1, elementFails u w .load nib (addrOf u a 0 1), fun s s₀ => s₀ = s⟩,
   ⟨.ste p d a, d, 1, [(d, 1), (a, 2)], 1, false, false, addrOf u a 0 1, elementFails u w .store nib (addrOf u a 0 1), fun s s₀ => s₀ = s⟩]

/-- What an access has written of its registers where it stops at a lane: the lanes below it their values, and lanes of the fragment that
are not Active zeros under z. -/
def WritesBelow (u : Issue) (p : Option Pfx) (z : Bool) (d : Opnd) (n : Nat) (x : Nat → Nat) (l : Nat) (g g' : Group) : Prop :=
  (∀ r k, k < 64 → vreg g' r k =
    if 192 ≤ d.toNat ∨ lane u.f.lanes k = false ∨ r < d.toNat ∨ d.toNat + n ≤ r then vreg g r k
    else if lane (execLanes u p) k then (if k < l then BitVec.ofNat 32 (x k / 2 ^ (32 * (r - d.toNat))) else vreg g r k)
    else if z then 0 else vreg g r k) ∧
  (∀ r, sreg g' r = if 192 ≤ d.toNat ∧ r = d.toNat - 192 ∧ lowest (execLanes u p) < l then BitVec.ofNat 64 (x (lowest (execLanes u p)))
    else sreg g r) ∧
  (d.toNat < 192 → g'.spins = g.spins) ∧ { g' with v := g.v, s := g.s, spins := g.spins } = g

/-- The unit's fragment where its word stops at a lane: %pix is the lane, and the word is resumed from there. -/
def stoppedAt (s : Machine.State) (u : Issue) (l first id : Nat) (h : Hold) : Frag :=
  { u.f.holding h s.clock with pix := l, resumed := true, first := first, op := some id }

/-- What a lane's failed check does (R328, R339, R438): `s` is the package as the check has left it, `g` the unit's group by then, and
`t` the package after the word. Causes 1, 2, 5, 7, 8 and 11 are the page-fault trap at the word, with the address, the kind and the cause;
other causes freeze the context; a dropped frame holds the fragment for its service, or freezes; poison of a table is consumed; and what has
not come yet is asked for, and waited for. -/
def FailsAs (s : Machine.State) (u : Issue) (L : Launch) (l first id : Nat) (bad : XBad) (x : Nat) (kind : Kind) (g : Group)
    (t : Machine.State) : Prop :=
  let fragment := stoppedAt s u l first id
  let stands := fun (h : Hold) => ∃ g', groupOf t u.key = some g' ∧ FragBecomes u (fragment h) g' ∧ { g' with frags := g.frags } = g
  let freezes := fun (n : Nat) => stands .frozen ∧ (ctxOf t L.ctx).frozen = true ∧
    ∃ e ∈ t.fresh, e.cause = 0x13 ∧ e.addr = some (0x10000 + L.ctx) ∧ e.synd = n
  match bad with
  | .cause n =>
    if n = 1 ∨ n = 2 ∨ n = 5 ∨ n = 7 ∨ n = 8 ∨ n = 11 then
      ∀ q, gangOf s u.g.gang = some q → (traceOf s L.part).on = false →
        ∃ g' ops, FragBecomes u (fragment .ready) g' ∧ { g' with frags := g.frags } = g ∧
          TrapTaken { setGroup s u.key g' with ops := ops } { u with g := g', f := fragment .ready } L q
            { cls := 9, info0 := BitVec.ofNat 64 x, info1 := BitVec.ofNat 64 (n + 256 * kind.code), pix := l } t
    else freezes n
  | .dropped f rg =>
    let registered := (tfind s.mem.regen f).isSome
    let shallow := regenDepth s (whoGroup s u.key u.g) ≤ 4
    match regenOf s.mem f with
    | some r => if rg = true ∧ r.failed = false then stands (.regen f) else freezes 10
    | none =>
      (rg = false ∨ registered = false ∨ ¬ shallow → freezes 10) ∧
      (rg = true → registered = true → shallow → (freeMa s.mem L.part).isSome = true →
        (∃ g', groupOf t u.key = some g' ∧ FragBecomes u (fragment (.regen f)) g' ∧ { g' with frags := g.frags } = g) ∧
        ∃ r ∈ t.mem.services, r.frame = f)
  | .poison y => gangOf t u.g.gang = none ∧ ∃ e ∈ t.fresh, e.cause = 0x20 ∧ e.sev = 3 ∧ e.addr = some y ∧ e.synd = l
  | .wait line => stands (.hostLine line) ∧ ∃ r ∈ t.requests, r.kind = 3 ∧ r.addr = 128 * line
  | .ask peer y n => stands .bytes ∧ ∃ r ∈ t.requests, r.kind = 4 ∧ r.peer = peer ∧ r.addr = y ∧ r.size = n

/-- The group is in trap mode, and the unit's fragment is its handler; no thread is in the gang's trap mode. -/
def InGroupHandler (s : Machine.State) (u : Issue) (q : Gang) (t : TrapMode) : Prop :=
  gangOf s u.g.gang = some q ∧ q.mode = none ∧ u.g.mode = some t ∧ u.f.lanes &&& t.lanes ≠ 0 ∧
  t.lanes &&& liveLanes u.g &&& ~~~u.f.lanes = 0

/-- The group after its handler has gone on with a fragment in place of its own: out of trap mode, with no other register or
fragment changed. -/
def LeftTo (s t : Machine.State) (u : Issue) (f' : Frag) : Prop :=
  ∃ g', groupOf t u.key = some g' ∧ g'.mode = none ∧
    FragBecomes u f' g' ∧
    { g' with mode := u.g.mode, frags := u.g.frags } = u.g ∧
    (∀ k, k ≠ u.key → groupOf t k = groupOf s k) ∧ t.gangs = s.gangs ∧ t.mem = s.mem

/-! ### Queues and launches (R379, R394 to R399) -/

/-- HEAD, TAIL and STATE as QSTAT reads them. -/
def queueSnapshot (x : Queue) : Nat := x.head.toNat % 2 ^ 24 + 2 ^ 24 * (x.tail.toNat % 2 ^ 24) + 2 ^ 48 * x.state

/-- The issuing group may reach a queue: it is its own context's, or the launch is privileged and the queue is its partition's. -/
def QueueReached (s : Machine.State) (l : Launch) (q : Nat) : Prop :=
  (queueOf s q).ctx.toNat = l.ctx ∨ (ctxPart s (queueOf s q).ctx.toNat = l.part ∧ recPriv l = true)

/-- A queue is another partition's, whatever its STATE. -/
def QueueForeign (s : Machine.State) (l : Launch) (q : Nat) : Prop :=
  (queueOf s q).ctx.toNat ≠ l.ctx ∧ ctxPart s (queueOf s q).ctx.toNat ≠ l.part

/-- QCFG of an off queue as QCTL takes it from a descriptor (R379, R398). -/
def queueTaken (d : List Byte) : Queue :=
  let log := field d 2 1 % 32
  let weight := field d 3 1 % 32
  { state := 1, ctx := BitVec.ofNat 8 (field d 1 1), log2n := if 4 ≤ log ∧ log ≤ 16 then log else 4,
    weight := if weight = 0 then 1 else min weight 16, privok := (field d 3 1).testBit 5, head := 0, tail := 0,
    rbase := BitVec.ofNat 56 (field d 8 8), wait := 0, kill := false }

/-- Every gang of a launch is gone, and it has nothing more to place. -/
def LaunchStopped (t : Machine.State) (id : Nat) : Prop :=
  (∀ q ∈ t.gangs, q.2.launch ≠ id) ∧
  ∀ x, launchOf t id = some x → x.destroyed = true ∧ x.unplaced = [] ∧ x.saved = []

/-- A queue has been told to go, at once where none of its packets has started (R399). -/
def QueueGoing (s t : Machine.State) (q : Nat) (kill : Bool) : Prop :=
  (queueOf t q).state = (if ∃ p ∈ s.packets, p.2.queue = q ∧ p.2.started = true then 3 else 0) ∧
  (∀ p ∈ t.packets, p.2.queue = q → p.2.started = true) ∧
  (kill = true → ∀ x ∈ s.launches, x.2.queue = q → LaunchStopped t x.1)

/-! ### Agents and their release (R404, R405) -/

/-- Class and number of an agent, as UNFREEZE and FRZCMD take them. -/
def AgentOk (x : Nat) : Prop :=
  let n := x / 65536
  x < 2 ^ 32 ∧ x / 16 % 4096 = 0 ∧
  match x % 16 with
  | 0 => True
  | 1 => n < 256
  | 2 => n ≤ 6
  | 3 => n / 8 < 48 ∧ n % 8 < 6
  | 4 => n < 256
  | _ => False

/-- An agent is another partition's. -/
def AgentForeign (s : Machine.State) (l : Launch) (x : Nat) : Prop :=
  let n := x / 65536
  match x % 16 with
  | 0 => QueueForeign s l n
  | 1 => ctxPart s n ≠ l.part
  | 2 => ((s.funcs[n]?).map (·.part)).getD 7 ≠ l.part
  | 3 => corePart s (n / 8) ≠ l.part
  | _ => (tget peerReset s.peers n).toNat / 256 % 8 ≠ l.part

/-- The agent that a value names is no longer frozen, and no other agent of its class has changed. -/
def AgentReleased (s t : Machine.State) (x : Nat) : Prop :=
  let n := x / 65536
  match x % 16 with
  | 0 => (queueOf t n).state = (if (queueOf s n).state = 2 then 1 else (queueOf s n).state) ∧ ∀ k, k ≠ n → queueOf t k = queueOf s k
  | 1 => (ctxOf t n).frozen = false ∧ ((ctxOf s n).frozen = true → (ctxOf t n).pend = false ∧
      ∀ k q, gangOf t k = some q → gangCtx t k = some n → q.climbed = none) ∧ ∀ k, k ≠ n → ctxOf t k = ctxOf s k
  | 2 => (∀ f, t.funcs[n]? = some f → f.frozen = false) ∧ ∀ k, k ≠ n → t.funcs[k]? = s.funcs[k]?
  | 3 => (coreOf t (n / 8)).engines[n % 8]? ≠ some true ∧ ∀ k, k ≠ n / 8 → coreOf t k = coreOf s k
  | _ => tget peerReset t.peers n = tget peerReset s.peers n &&& ~~~0x20 ∧ ∀ k, k ≠ n → tget peerReset t.peers k = tget peerReset s.peers k

/-! ### Gangs that a value names (R200, R423 to R429) -/

/-- Every group of a gang has been asked to stop, and no other group has changed. -/
def AskedToStop (s t : Machine.State) (uid : Nat) : Prop :=
  (∀ k g, groupOf s k = some g → g.gang = uid → groupOf t k = some { g with stopping := true }) ∧
  ∀ k, (∀ x ∈ s.groups, x.1 = k → x.2.gang ≠ uid) → groupOf t k = groupOf s k

/-- The result that a held word of the unit waits for. -/
def resultOf (s : Machine.State) (u : Issue) : Option Dword := tfind s.results (resultKey (askerOf s u))

/-- The package once the unit's word has taken its result. -/
def withoutResult (s : Machine.State) (u : Issue) : Machine.State :=
  { s with results := tdel s.results (resultKey (askerOf s u)) }

/-- `o` is the outcome of issuing, in the state `s`, the unit of the fragment that a lane stands in, where its words can be fetched,
decode to a well-formed instruction and may stand where they stand. -/
def UnitRuns (s : Machine.State) (key ln : Nat) (o : Out) : Prop :=
  ∀ g f l c s₁ ws i r, groupOf s key = some g → fragAt g ln = some f → launchOfGroup s g = some l → mayIssue s key g f = true →
    f.clause = some c →
    Machine.unitWords s (whoGroup s key g) l.stamp c f = (s₁, .ok ws) →
    decode ws = .ok (i, r) → i.WellFormed → clauseAllows c f.pc ws = true →
    (majorOf (baseWord ws) = 0x3D → recPriv l = true) →
    let x := systemScalars g (baseWord ws)
    let j := select x.1 x.2 i
    let s₂ := { s₁ with cur := some ⟨key, f.lanes, f.pc, ws, some c⟩ }
    s₂.upsets = [] → o = afterWord s₂ j (exec j s₂)

end Sys2Proof
end

