-- ==== Sys2Proof/Safety/EventTerms.lean ====
section
/-!
DEFINITION. Terms of the statements about what comes about by itself: the clocks of groups and traps, headers, the host and management
ports, packets and launches, engines, device memory and the links.
-/
namespace Sys2Proof

open Sys2Proof.Machine

/-! ### Groups, their holds and their clocks -/

/-- A fragment goes on after its hold (R59, R69). -/
def readied (s : Machine.State) (key : Nat) (g : Group) (f : Frag) : Machine.State :=
  setGroup s key (modFrag g f.lanes (fun f => { f.holding .ready s.clock with age := s.clock }))

/-- The fragment takes the pending trap at its header (R461, R465): any, but a code breakpoint where its own threads have hit it, and that
of BKPT where they have issued it. -/
def TakenAt (f : Frag) (p : Pending) : Prop :=
  ∀ m at', p.place = some (m, at') → m &&& f.lanes ≠ 0 ∧ ∀ pc, at' = some pc → pc = f.pc

/-- The gang is halted for debug, and the host has been told (R464). -/
abbrev DebugHalted (q : Gang) : Prop := q.halted.any (fun h => h.told) = true

/-- The holds that raise hold-timeout (R415). -/
def TimedHold (h : Hold) : Prop :=
  (∃ m, h = .clauseWait m) ∨ (∃ k n, h = .waitlt k n) ∨ (∃ x y, h = .bar x y) ∨ (∃ x n, h = .barw x n) ∨ (∃ n d w, h = .ralloc n d w) ∨
  (∃ k, h = .kadd k) ∨ (∃ k, h = .kbindClose k) ∨ (∃ p q b, h = .fence p q b) ∨ (∃ m x, h = .release m x) ∨ ∃ n, h = .rfree n

/-- No trap mode of the group or the gang, halt or trap at the context rung keeps the fragment from going on. -/
def FreeToGo (s : Machine.State) (key : Nat) (g : Group) (f : Frag) : Prop :=
  ∃ q, gangOf s g.gang = some q ∧ trapAllows key g q f = true ∧ q.halted = none ∧ q.climbed = none

/-- The service of a rung for a key, and the package once it has been answered for. -/
def serviceAt (s : Machine.State) (rung key : Nat) : Option Service := s.services.find? (fun v => v.rung == rung && v.key == key)
def withoutService (s : Machine.State) (rung key : Nat) : Machine.State :=
  { s with services := s.services.filter (fun x => !(x.rung == rung && x.key == key)) }

/-- The clocks that a rung has for its service (R414): 100 µs, 1 ms, 10 ms and 20 ms. -/
def rungClocks (rung : Nat) : Nat := if rung = 0 then 105000 else if rung = 1 then 1050000 else if rung = 2 then 10500000 else 21000000

/-- The partition of a gang. -/
def gangPart (s : Machine.State) (uid : Nat) : Option Nat := (gangCtx s uid).map (ctxPart s)

/-! ### Headers (R20, R26, R57) -/

/-- A header is being issued by a fragment that no other fragment of its group stands beside. -/
def HeaderAt (s : Machine.State) (u : Issue) (l : Launch) (q : Gang) (h : Word) : Prop :=
  issueOf s = some u ∧ u.words = [h] ∧ launchOfGroup s u.g = some l ∧ gangOf s u.g.gang = some q ∧ u.f.lanes ≠ 0 ∧
  (∀ f ∈ u.g.frags, f.lanes &&& u.f.lanes ≠ 0 → f = u.f) ∧ (∀ f ∈ u.g.frags, joinsAt u.f.pc s.clock f = true → f = u.f)

/-- The counters that a header's WAIT selects all read 0. -/
def WaitMet (g : Group) (h : Word) : Prop := ∀ k < 12, h.getLsbD (13 + k) = true → (counterOf g k).val = 0

/-! ### Host functions (R403, R404) -/

/-- The input's function reaches a register of the partition, or, for `none`, one that only PF0 writes. -/
def PortOpen (s : Machine.State) (part : Option Nat) : Prop :=
  ∃ f, s.funcs[s.input.fn]? = some f ∧ f.frozen = false ∧ (s.input.fn = 0 ∨ f.part ≠ 7 ∧ part = some f.part)

/-- The function is none of the device's, is bound to no partition, or is frozen and would reach the register of the partition: its access
is refused and nothing freezes. -/
def PortShut (s : Machine.State) (part : Option Nat) : Prop :=
  ∀ f, s.funcs[s.input.fn]? = some f →
    (s.input.fn ≠ 0 ∧ f.part = 7) ∨ (f.frozen = true ∧ (s.input.fn = 0 ∨ part = some f.part))

/-- The register is outside the function's set. -/
def PortBreach (s : Machine.State) (part : Option Nat) : Prop :=
  s.input.fn ≠ 0 ∧ ∃ f, s.funcs[s.input.fn]? = some f ∧ f.part ≠ 7 ∧ part ≠ some f.part

/-- The host's register events with their offsets and the partition whose register it is. -/
def hostForms (s : Machine.State) : List (Instr × Nat × Option Nat) :=
  let k := s.input.key
  let queue := some (ctxPart s (queueOf s k).ctx.toNat)
  (if k < 65536 then [(.qcfgCreate, 0x500000 + 16 * k, queue), (.qcfgDestroy, 0x500000 + 16 * k, queue),
    (.qcfgDestroyKill, 0x500000 + 16 * k, queue), (.doorbell, 0x600000 + 8 * k, queue)] else []) ++
  (if k < 256 then [(.ctxcmdKillAll, 0x480000 + 8 * k, some (ctxPart s k)), (.ctxcmdKillHeld, 0x480000 + 8 * k, some (ctxPart s k)),
    (.ctxcmdRelease, 0x480000 + 8 * k, some (ctxPart s k)), (.dbgctlResumeDiscard, 0x900000 + 8 * k, some (ctxPart s k)),
    (.dbgctlResumeDeliver, 0x900000 + 8 * k, some (ctxPart s k))] else []) ++
  (if k < 3 then [(.diestatPartlo, 0x100000 + 256 * k, none), (.diestatParthi, 0x100000 + 256 * k, none)] else []) ++
  [(.frzcmd, 0x470000, none), (.errclrh, 0x7F0000, none), (.attnonce, 0x820100, none), (.gload, 0x490010, ownPart s),
   (.controlRegisterWrite, k, regPart s k)]

/-- The answer of a request that does not go through. -/
def unsupported (s : Machine.State) (offset : Nat) : Sent := .unsupported s.input.fn offset

/-- A half-die that may not change partition: a gang is resident on it, or an admitted launch of its partition may yet place one
there (R13). -/
def HalfBusy (s : Machine.State) (die half part : Nat) : Prop :=
  (∃ q ∈ s.gangs, ∃ c ∈ q.2.cores, c / 8 = 2 * die + half) ∨ ∃ l ∈ s.launches, admittedTo part die l.2 = true

/-! ### The management port (R448) -/

/-- A response to a command of message type 0x7F. -/
def vendorAnswer (command : Nat) (tag : Byte) (code : Nat) (data : List Byte) : Sent :=
  .management (leBytes 1 0x7F ++ leBytes 4 Config.vendor.toNat ++ leBytes 1 command ++ [tag] ++ leBytes 1 code ++
    (if code = 0 then data else []))

/-- A request of one packet, with its reserved byte 0, and with `n` bytes of data. -/
def RequestOk (s : Machine.State) (n : Nat) : Prop :=
  s.input.request.onePacket = true ∧ s.input.request.zero = 0 ∧ s.input.request.data.length = n

/-- The package with one more thing sent. -/
def sends (s : Machine.State) (x : Sent) : Machine.Out := .next { s with sent := s.sent ++ [x] }

/-! ### Queues and packets (R379, R383, R401) -/

/-- The next packet of a queue may be fetched. -/
def Fetches (s : Machine.State) (k : Nat) : Prop :=
  let x := queueOf s k
  x.state = 1 ∧ x.head ≠ x.tail ∧ (ctxOf s x.ctx.toNat).frozen = false

/-- A packet stands as told, and no other has changed. -/
def PacketIs (s t : Machine.State) (id : Nat) (p : Packet) : Prop :=
  tfind t.packets id = some p ∧ ∀ j, j ≠ id → tfind t.packets j = tfind s.packets j

/-- The type of a packet, 1 launch to 6 marker. -/
def typeOf (p : Packet) : Nat := field p.bytes 0 1

/-- A packet may start: the packets before it in its queue have started, none of them is a dependency or a checkpoint, and there is
none where its BARRIER bit is set or it is a dependency or a checkpoint itself. -/
def PacketMay (s : Machine.State) (id : Nat) (p : Packet) : Prop :=
  p.started = false ∧ p.stopped = false ∧ ((queueOf s p.queue).state = 1 ∨ (queueOf s p.queue).state = 2) ∧
  ∀ y ∈ s.packets, y.2.queue = p.queue → y.1 < id → y.2.started = true ∧ typeOf y.2 ≠ 3 ∧ typeOf y.2 ≠ 5 ∧
    bit (field p.bytes 1 1) 0 = false ∧ typeOf p ≠ 3 ∧ typeOf p ≠ 5

/-- A packet that has started. -/
def begun (p : Packet) (work status : Option Nat) : Packet := { p with started := true, work := work, status := status }

/-- The 32 bytes of a journal entry. -/
def entryBytes (seq src ctx pidx typ status clock : Nat) : List Byte :=
  leBytes 8 seq ++ leBytes 4 (src + 2 ^ 17 * ctx) ++ leBytes 4 pidx ++ leBytes 1 typ ++ leBytes 1 status ++ leBytes 6 0 ++ leBytes 8 clock

/-- A partition's journal has one more entry, for a packet of a queue at HEAD, under the partition's next sequence. -/
def Journalled (s t : Machine.State) (part queue ctx head typ status : Nat) : Prop :=
  let j := journalOf s part
  journalOf t part = ⟨j.nextSeq + 1, tput j.entries ((j.nextSeq - 1) % 32768) (entryBytes j.nextSeq queue ctx head typ status s.clock)⟩

/-- The status with which a packet may complete. -/
def StatusIs (s : Machine.State) (p : Packet) (n : Nat) : Prop :=
  (p.status = some n ∧ (typeOf p = 4 → p.started = true)) ∨ (p.status = none ∧ typeOf p = 2 ∧ p.started = true ∧
    ∃ id x, p.work = some id ∧ tfind s.transfers id = some x ∧ x.complete ≠ none ∧ n = if x.err then 3 else 2)

/-- A packet whose end has not come. -/
def StatusNone (s : Machine.State) (p : Packet) : Prop := ∀ n, ¬ StatusIs s p n

/-- Memory without symbol errors, dead channels, moved symbols or poison, of a partition that tracks no hot pages. -/
def Sound (s : Machine.State) (part : Nat) : Prop :=
  s.mem.symErr = [] ∧ s.mem.chans = [] ∧ s.mem.inter = [] ∧ s.mem.poison = [] ∧ (hotOf s.mem part).en = false

/-- The bytes at a machine address are these, and every other byte is as before. -/
def BytesPut (s t : Machine.State) (ma : Nat) (bs : List Byte) : Prop :=
  ∀ x, t.mem.byte x = if ma ≤ x ∧ x < ma + bs.length then (bs[x - ma]?).getD 0 else s.mem.byte x

/-! ### Launches, gangs and groups (R78, R387 to R392) -/

/-- A launch of a partition that waits for admission. -/
def Waits (part : Nat) (l : Launch) : Prop := l.part = part ∧ l.admitted = false ∧ l.destroyed = false

/-- The gang of a launch that a die's placer takes next: one that is to be taken first, or the lowest. -/
def Chosen (s : Machine.State) (die lid : Nat) (l : Launch) (i : Nat) : Prop :=
  urgentOn s lid l die = some i ∨ (urgentOn s lid l die = none ∧ (waitingOn s lid l die).head? = some i)

/-- The gang of a launch with an index, newly placed under a number on a unit of a die whose cores are in service and of the launch's
partition, with every group of it. -/
def PlacedAs (s t : Machine.State) (die lid : Nat) (l : Launch) (i uid : Nat) : Prop :=
  ∃ q, gangOf t uid = some q ∧ q.launch = lid ∧ q.index = i ∧ q.cores ∈ unitsOf die (recShape l) ∧
    (∀ c ∈ q.cores, coreLive s c = true ∧ corePart s c = l.part) ∧
    ∀ team < recGteams l, ∀ gid < recTeam l, ∃ key g,
      let n := teamCores q.cores.length (recGteams l)
      groupOf s key = none ∧ groupOf t key = some g ∧ key / 128 = (q.cores[n * team + gid % n]?).getD 48 ∧
      g.gang = uid ∧ g.team = team ∧ g.gid = gid ∧ g.held = recRegs l ∧ g.created = createdLanes l gid ∧
      (∀ f ∈ g.frags, f.lanes = createdLanes l gid ∧ f.pc = recCbase l + recEntry l ∧ f.clause = none ∧ f.hold = .ready) ∧
      ∀ j < 8, sreg g j = BitVec.ofNat 64 (recNat l (0xC0 + 8 * j) 8)

/-- A group may retire: its threads have exited, and nothing of it is still to come. -/
def GroupOver (s : Machine.State) (key : Nat) (g : Group) : Prop :=
  liveLanes g = 0 ∧ g.pending = [] ∧ (∀ c ∈ g.counters, c.val = 0) ∧ (∀ o ∈ s.ops, o.2.group ≠ key) ∧
  (∀ x ∈ s.transfers, x.2.group = some key → x.2.kind ≠ 2 → x.2.complete ≠ none) ∧ (∀ r ∈ s.requests, r.group = key → 2 < r.kind) ∧
  g.spills = [] ∧ ∀ q, gangOf s g.gang = some q → ∀ x ∈ q.teams, (∀ p ∈ x.posts, p.group ≠ key) ∧
    ∀ y ∈ x.slots, y.2.state ≠ 0 → y.2.poster ≠ key

/-- A group whose stopped fragments go on, and that is no longer asked to stop. -/
def goingOn (s : Machine.State) (g : Group) : Group :=
  { g with stopping := false, frags := g.frags.map (fun f => if f.hold = .stopped then f.holding .ready s.clock else f) }

/-- No other core than one is being taken over. -/
def OnlyTaken (s : Machine.State) (core : Nat) : Prop := ∀ c ∈ s.cores, c.1 ≠ core → c.2.stopBy = none

/-! ### Levant and Etesian (R365 to R378) -/

/-- A die's Levant state after a number of a writer has arrived: its CT entry takes it, and the requests whose stamps are then met are
served in their order. -/
def NumberTaken (x y : Levant) (w n : Nat) : Prop :=
  y.ct = x.ct.set w n ∧ y.epoch = x.epoch ∧ y.removed = x.removed ∧ y.early = x.early.filter (fun r => !stampMet y r.stamp) ∧
  ∃ answers, y.served = x.served ++ answers ∧
    answers.map (fun r => (r.src, r.line)) = (x.early.filter (fun r => stampMet y r.stamp)).map (fun r => (r.src, r.line))

/-- Nothing differs but what Levant keeps. -/
def LevantOnly (s t : Machine.State) : Prop :=
  { t with levant := s.levant, packetsLv := s.packetsLv, fabric := s.fabric } = s

/-- What the arrival of a link's oldest packet leaves: the packet is no longer on the way, its number is taken, its link sequence number
has been applied, and a write that had not been applied before gives its line its stamp. -/
def PacketTaken (s t : Machine.State) (p : LvPacket) (x y : Levant) : Prop :=
  LevantOnly s t ∧ NumberTaken x y p.writer p.number ∧
  linkPackets t p.writer p.die = (linkPackets s p.writer p.die).filter (· ≠ p) ∧
  y.seqs = x.seqs.set p.writer (max (p.seq + 1) ((x.seqs[p.writer]?).getD 0)) ∧
  (∀ j, j ≠ p.die → t.levant[j]? = s.levant[j]?) ∧
  tget [] t.fabric.lines (p.unit / 128) =
    if p.sweep = false ∧ (x.seqs[p.writer]?).getD 0 ≤ p.seq then (List.range 4).map (fun w => (w, stampEntry p.stamp w))
    else tget [] s.fabric.lines (p.unit / 128)

/-- The port of a flit's sender is frozen. -/
def portFrozen (s : Machine.State) (f : Flit) : Bool := (tget peerReset s.peers f.src.toNat).getLsbD 5

/-- A reply to a flit has gone out: of a type, with a status and data, under the flit's tag. -/
def Replied (s t : Machine.State) (f : Flit) (typ status : Nat) (data : List Byte) : Prop :=
  ∃ xs r, t.sent = s.sent ++ xs ++ [.flit r] ∧ r.typ = BitVec.ofNat 8 typ ∧ r.dst = f.src ∧ r.tag = f.tag ∧
    r.status = BitVec.ofNat 8 status ∧ r.data = data

/-- An inbound flit is refused with a syndrome, by a check of its fields or of the frame that it names. -/
def FlitRefused (s : Machine.State) (f : Flit) (synd : Nat) : Prop :=
  flitFault s f = some synd ∨ (flitFault s f = none ∧ landing s (portOf s f) f.dpa.toNat = (s, .refused synd))

/-- An inbound flit lands at a machine address of sound memory, with no access before it. -/
def FlitLands (s : Machine.State) (f : Flit) (ma : Nat) : Prop :=
  portFrozen s f = false ∧ flitFault s f = none ∧ f.size.toNat % 16 ≤ 4 ∧ s.inbound = [] ∧
  landing s (portOf s f) f.dpa.toNat = (s, .here ma) ∧ Sound s (IndPart (s.mem.entry (f.dpa.toNat / 65536)))

/-- The requests that are left when one has been answered. -/
def others (s : Machine.State) (r : Request) : List Request := s.requests.filter (·.tag ≠ r.tag)

/-- The package with bytes of a request, and its reply's status, for the agent that waits for them. -/
def buffered (s : Machine.State) (r : Request) (bs : List Byte) (status : Nat) : Machine.State :=
  { s with requests := others s r, buffer := s.buffer ++ [(bufferKey r, r.addr, (bs ++ List.replicate r.size 0).take r.size, status)] }

/-! ### Engines (R223 to R230, R241 to R279) -/

/-- The operation of a transfer, its last part having happened, has been counted down. -/
def CountedDown (s t : Machine.State) (id : Nat) : Prop :=
  ∀ o g k, tfind s.ops id = some o → groupOf s o.group = some g → o.counter = some k → o.issued = true → o.waits = 1 →
    k < g.counters.length → (counterOf g k).queue = [(id, false)] → 0 < (counterOf g k).val →
    ∃ g', groupOf t o.group = some g' ∧ (counterOf g' k).val = (counterOf g k).val - 1

/-- A transfer that has completed without a fault now. -/
def ended (s : Machine.State) (x : Transfer) : Transfer :=
  { x with complete := some s.clock, engine := none, halted := false, freezes := false }

/-- No write of a transfer is still unanswered. -/
def NoneOpen (s : Machine.State) (n : Nat) : Prop := ∀ r ∈ s.requests, ¬ (r.kind = 5 ∧ r.reg = 0 ∧ r.word = n)

/-- A compute node's atiles, as physical atiles of the team's run. -/
def nodeAtiles (x : Team) (y : Slot) : List Nat := (nodeBody y.record).atiles.map (fun a => x.atiles + a)

/-- An earlier node of the team that has not completed names an atile of the node's. -/
def Earlier (x : Team) (y : Slot) : Prop :=
  ∃ z ∈ x.slots, z.2.state ≠ 0 ∧ field z.2.record 0 1 % 4 = 2 ∧ z.2.order < y.order ∧
    ∃ a ∈ (nodeBody z.2.record).atiles, a ∈ (nodeBody y.record).atiles

end Sys2Proof
end

