-- ==== Sys2Proof/Safety/FloatTerms.lean ====
section
/-!
DEFINITION. What R137 says of the special functions whose results it bounds: the results that it names, and how far any other may lie from
the exact value, over the reals.
-/
namespace Sys2Proof

open Sys2Proof.Machine

/-- RSQ, TANH, EX2, LG2, SIN and COS as functions of the operand's bits. -/
def boundedFunctions : List (Word → Nat) := [rsqOf, tanhOf, ex2Of, lg2Of, sinOf, cosOf]

/-- The results that R137 names for operands that are no finite number: NaN, +∞ and −∞. -/
def SpecialOfNonFinite : Prop :=
  (∀ w : Word, decodeFmt .f32 w.toNat = .nan → ∀ f ∈ boundedFunctions, f w = 0x7FC00000) ∧
  boundedFunctions.map (fun f => f 0x7F800000) = [0, 0x3F800000, 0x7F800000, 0x7F800000, 0x7FC00000, 0x7FC00000] ∧
  boundedFunctions.map (fun f => f 0xFF800000) = [0x7FC00000, 0xBF800000, 0, 0x7FC00000, 0x7FC00000, 0x7FC00000]

/-- The results that R137 names for finite operands. -/
def SpecialOfFinite : Prop :=
  boundedFunctions.map (fun f => f 0) = [0x7F800000, 0, 0x3F800000, 0xFF800000, 0, 0x3F800000] ∧
  boundedFunctions.map (fun f => f 0x80000000) = [0xFF800000, 0x80000000, 0x3F800000, 0xFF800000, 0x80000000, 0x3F800000] ∧
  ∀ (w : Word) (q : Rat) (z : Bool), decodeFmt .f32 w.toNat = .num q z →
    (q < 0 → rsqOf w = 0x7FC00000 ∧ lg2Of w = 0x7FC00000) ∧
    (-1 / 4096 < q → q < 1 / 4096 → tanhOf w = w.toNat ∧ sinOf w = w.toNat) ∧
    (19 / 2 ≤ q → tanhOf w = 0x3F800000) ∧ (q ≤ -19 / 2 → tanhOf w = 0xBF800000) ∧
    (128 ≤ q → ex2Of w = 0x7F800000) ∧ (q ≤ -150 → ex2Of w = 0) ∧
    (∀ n : Int, q = n → -149 ≤ n → n ≤ 127 → decodeFmt .f32 (ex2Of w) = .num ((2 : Rat) ^ n) false) ∧
    (∀ n : Int, q = (2 : Rat) ^ n → ∃ y, decodeFmt .f32 (lg2Of w) = .num n y ∧ (n = 0 → y = false)) ∧
    (∀ f ∈ [tanhOf, sinOf, cosOf], ∃ x y, decodeFmt .f32 (f w) = .num x y ∧ -1 ≤ x ∧ x ≤ 1)

/-- RSQ gives 1 ÷ √q itself or one of the two FP32 values next to it: no FP32 value lies between its result and the exact one. -/
def RootsAreAdjacent : Prop :=
  ∀ (w : Word) (q : Rat) (z : Bool), decodeFmt .f32 w.toNat = .num q z → 0 < q →
    ∃ x y, decodeFmt .f32 (rsqOf w) = .num x y ∧ 0 < x ∧
      ∀ (v : Word) (x' : Rat) (y' : Bool), decodeFmt .f32 v.toNat = .num x' y' →
        (x < x' → 1 < x' * x' * q) ∧ (0 ≤ x' → x' < x → x' * x' * q < 1)

/-- An FP32 pattern is a number within a bound of an exact value. -/
def LiesWithin (v : Nat) (y bound : ℝ) : Prop := ∃ x z, decodeFmt .f32 v = .num x z ∧ |(x : ℝ) - y| ≤ bound

/-- An FP32 pattern is a number within 2 ulp of an exact value: an ulp of y is 2^(max(⌊log2 |y|⌋, −126) − 23). -/
def LiesWithinTwoUlp (v : Nat) (y : ℝ) : Prop := LiesWithin v y (2 * (2 : ℝ) ^ (max ⌊Real.logb 2 |y|⌋ (-126) - 23))

end Sys2Proof
end

