-- ==== Sys2Proof/Certificates/Slice0/Obligations.lean ====
section
/-!
DEFINITION. The statements about the package, family by family of the table, and about its steps as a whole.
-/

open Sys2Proof
open Sys2Proof.Machine

/-! ### Lane words -/

/-- R119, R120: the integer adds, subtracts, minima, maxima, absolute values, negations and products; with them IADDI (R127),
MOVL and ADDL (R130). Each Active lane takes the value, other lanes of the fragment keep theirs or are zeroed, a scalar takes the
lowest Active lane's value, and nothing else of the package but the fragment's place changes.

R121 to R125: the bitwise words, shifts, bit counts, bit fields and LOGIC3; with them ANDI, ORI, XORI (R127) and ANDL (R130).

R128, R129: the address words and the 64-bit words. -/
def Obligations.IntegerWordsGiveTheirResults : Prop :=
  (
  ∀ p d a b i x, ∀ r ∈ arithRows p d a b i x, r.Runs) ∧
  (
  ∀ p d a b i x, ∀ r ∈ bitsRows p d a b i x, r.Runs) ∧
  (
  ∀ p d a b, ∀ r ∈ wideRows p d a b, r.Runs)

/-- R126, R134, R168, R170: the words that write a bit of a mask for each Active lane.

R165, R167, R169: moves, immediates, and the words that read a mask.

R166, R170: MOVV reads or writes the register that each lane's index reaches, an index beyond the allocation takes the
illegal-register trap with no lane written, and MSET sets a whole mask from a scalar.

R79: ELECT writes 1 in the lowest Active lane of the fragment, ELECT.group in the group's lowest live lane, and ELECT.team in
the lowest live lane of the team's lowest live group, and 0 in the other Active lanes.

R178 to R180: BSR reads and moves its stream, BSINIT starts one, BSPOS writes the position or the NEED bits, and BSREF refills
the lanes whose NEED is 1; a BSR destination inside its own quad takes the illegal-register trap.

Where the manual leaves something open, the clauses take the model's choice: log entry 16. -/
def Obligations.MoveAndMaskWordsRun : Prop :=
  (
  ∀ p c m f a b, ∀ r ∈ compareRows p c m f a b, r.Runs) ∧
  (
  ∀ p d a b i, ∀ r ∈ moveRows p d a b i, r.Runs) ∧
  (
  (∀ p d a b s u, issueOf s = some u → RegsOk u.g [(d, 1), (a, 1), (b, 1)] → (pfxGet p).aux.getLsbD 0 = false →
    IndexOk u p a b →
    LaneRuns (.movv p d a b) s u p d 1 (fun l => (vreg u.g (indexed u a b l) l).setWidth 64) (fun _ x => x)) ∧
  (∀ p d a b s u, issueOf s = some u → RegsOk u.g [(d, 1), (a, 1), (b, 1)] → (pfxGet p).aux.getLsbD 0 = true →
    IndexOk u p d b →
    ∃ g', exec (.movv p d a b) s = .next (u.passed s g') ∧
      (∀ r l, l < 64 → vreg g' r l =
        if lane (execLanes u p) l = true ∧ r = indexed u d b l then val32 u.g a l else vreg u.g r l) ∧
      { g' with v := u.g.v } = u.g) ∧
  (∀ p d a b s u, issueOf s = some u → RegsOk u.g [(d, 1), (a, 1), (b, 1)] →
    ¬ IndexOk u p (if (pfxGet p).aux.getLsbD 0 then d else a) b →
    ∃ l, lane (execLanes u p) l = true ∧ exec (.movv p d a b) s = .next (raise s u
      { cls := 3, info0 := BitVec.ofNat 64 (indexed u (if (pfxGet p).aux.getLsbD 0 then d else a) b l), info1 := BitVec.ofNat 64 l })) ∧
  (∀ p d a s u, issueOf s = some u → d ≠ 0 →
    ∃ g', exec (.mset p d a) s = .next (u.passed s g') ∧ { g' with m := u.g.m } = u.g ∧
      maskReg g' d.toNat = sreg u.g (a.toNat - 192) &&& below u.g.width ∧
      ∀ k, k ≠ d.toNat → maskReg g' k = maskReg u.g k)) ∧
  (
  ∀ p d s u, issueOf s = some u → RegsOk u.g [(d, 1)] →
    LaneRuns (.elect p d) s u p d 1 (fun l => if l = lowest (activeOf u.g u.f.lanes p) then 1 else 0) (fun _ x => x) ∧
    LaneRuns (.electGroup p d) s u p d 1 (fun l => if l = lowest (liveLanes u.g) then 1 else 0) (fun _ x => x) ∧
    LaneRuns (.electTeam p d) s u p d 1 (fun l =>
      if l = lowest (liveLanes u.g) ∧ (∃ x ∈ s.groups, x.2.gang = u.g.gang ∧ x.2.team = u.g.team ∧ x.2.gid = u.g.gid ∧ liveLanes x.2 ≠ 0) ∧
        (∀ x ∈ s.groups, x.2.gang = u.g.gang → x.2.team = u.g.team → liveLanes x.2 ≠ 0 → u.g.gid ≤ x.2.gid)
      then 1 else 0) (fun _ x => x)) ∧
  (
  (∀ p d a b s u, issueOf s = some u → RegsOk u.g [(d, 1), (a, 4), (b, 1)] →
    (192 ≤ d.toNat ∨ d.toNat < a.toNat ∨ a.toNat + 4 ≤ d.toNat →
      ∃ g', exec (.bsr p d a b) s = .next (u.passed s g') ∧ StreamRead u p d a b g') ∧
    (d.toNat < 192 ∧ a.toNat ≤ d.toNat ∧ d.toNat < a.toNat + 4 →
      exec (.bsr p d a b) s = .next (raise s u (registerTrap u d.toNat)))) ∧
  (∀ p b s u, issueOf s = some u → RegsOk u.g [(b, 1)] →
    ∃ g', exec (.bsinit p b) s = .next (u.passed s g') ∧ StreamStart u p b g') ∧
  (∀ p a b s u, issueOf s = some u → RegsOk u.g [(a, 4), (b, 2)] →
    ∃ g', exec (.bsref p a b) s = .next (u.passed s g') ∧ StreamRefill u p a b g') ∧
  (∀ p d s u, issueOf s = some u → (pfxGet p).aux.getLsbD 0 = false → RegsOk u.g [(d, 1)] →
    LaneRuns (.bspos p d) s u p d 1
      (fun l => (Cur.words (bcur u.g l) ++ (bcur u.g l).extractLsb' 0 6 : BitVec 30).setWidth 64) (fun _ x => x)) ∧
  (∀ p d s u, issueOf s = some u → (pfxGet p).aux.getLsbD 0 = true → d.setWidth 3 ≠ (0 : BitVec 3) →
    MaskRuns (.bspos p d) s u p (d.setWidth 3).toNat (fun l => Cur.need (bcur u.g l))))

/-- R132, R133, R135, R136: FP32 arithmetic, minima and maxima, signs, classes and integer parts.

R137, R138: the special functions; each is one fixed function of the operand's bits, with the results that R137 names. RSQ gives a value next
to the exact one.

R139 to R142: the packed 16-bit words and the dot products.

R143 to R151: conversions, block quantisation and nibbles. F2F.pk is stated for the prefixes that R146 accepts.

Where the manual leaves something open, the clauses take the model's choice: log entries 13 and 14. -/
def Obligations.FloatAndConversionWordsGiveTheirResults : Prop :=
  (
  ∀ p d a b, ∀ r ∈ floatRows p d a b, r.Runs) ∧
  (
  (∀ p d a, ∀ r ∈ specialRows p d a, r.Runs) ∧ SpecialOfNonFinite ∧ SpecialOfFinite ∧ RootsAreAdjacent) ∧
  (
  ∀ p d a b, ∀ r ∈ packedRows p d a b, r.Runs) ∧
  (
  (∀ p d a b, ∀ r ∈ convertRows p d a b, r.Runs) ∧
  (∀ p d a b, (Instr.f2fPk p d a b).WellFormed → (pairRow p d a b).Runs))

/-- R31: a lane word that names a register its group may not name takes the illegal-register trap at the word with that number,
and changes nothing besides; so does a mask word that would write m0.

Where the manual leaves something open, the clauses take the model's choice: log entry 16. -/
def Obligations.ForbiddenRegistersTrapAtTheWord : Prop :=
  (∀ p d a b i x j, ∀ r ∈ arithRows p d a b i x ++ bitsRows p d a b i x ++ wideRows p d a b ++ floatRows p d a b ++
      specialRows p d a ++ packedRows p d a b ++ convertRows p d a b ++ moveRows p d a b j ++ [pairRow p d a b],
    ∀ s u, issueOf s = some u → ¬ RegsOk u.g ((r.d, r.n) :: r.srcs) →
      ∃ y ∈ (r.d, r.n) :: r.srcs, ¬ RegsOk u.g [y] ∧ exec r.i s = .next (raise s u (registerTrap u y.1.toNat))) ∧
  (∀ p c m f a b, ∀ r ∈ compareRows p c m f a b, ∀ s u, issueOf s = some u → r.m = 0 →
      exec r.i s = .next (raise s u (registerTrap u 0)))

/-- R162 to R164: RDSR gives every live thread of the fragment the special register's value, WRSR writes %round, the generator or
%bcur, and both leave everything else as it was. Unassigned numbers do not decode.

R422: RDTR gives every live thread of the fragment a trap register: the group's for selectors below 8, the gang's for others.

Where the manual leaves something open, the clauses take the model's choice: log entries 8 and 77. -/
def Obligations.SpecialAndTrapRegistersReadAndWrite : Prop :=
  (
  (∀ d n s u, issueOf s = some u → n.toNat < 14 → (n = 8 → Plain s u) → RegsOk u.g [(d, specialRegs n)] →
    ∃ g', exec (.rdsr d n) s = .next (u.passed s g') ∧ WritesAll u d (specialRegs n) (specialRead s u n) g') ∧
  (∀ a s u, issueOf s = some u → RegsOk u.g [(a, 1)] →
    let x := (val32 u.g a (lowest u.f.lanes)).extractLsb' 0 3
    exec (.wrsr a 0x0B) s = .next (u.passed s { u.g with round := if x = 6 ∨ x = 7 then 0 else x.setWidth 64 })) ∧
  (∀ a s u, issueOf s = some u → RegsOk u.g [(a, 1)] →
    ∃ g', exec (.wrsr a 0x0C) s = .next (u.passed s g') ∧ { g' with rng := u.g.rng } = u.g ∧
      ∀ l, l < 64 → rngOf g' l = if lane u.f.lanes l then seeded (val32 u.g a l) l else rngOf u.g l) ∧
  (∀ a s u, issueOf s = some u → RegsOk u.g [(a, 1)] →
    ∃ g', exec (.wrsr a 0x0D) s = .next (u.passed s g') ∧ { g' with bcur := u.g.bcur } = u.g ∧
      ∀ l, l < 64 → bcur g' l = if lane u.f.lanes l then
        (val32 u.g a l).setWidth 64 &&& 0xFFFFFF7F else bcur u.g l)) ∧
  (
  ∀ d sel s u, issueOf s = some u → RegsOk u.g [(d, 2)] →
    ∃ g', exec (.rdtr d sel) s = .next (u.passed s g') ∧
      WritesAll u d 2 (fun _ =>
        let t := if sel.toNat < 8 then u.g.regsTrap else ((gangOf s u.g.gang).map (·.regsTrap)).getD TrapRegs.reset
        match sel.setWidth 3 with
        | (0 : BitVec 3) => t.tclass
        | 1 => t.tword
        | 2 => t.tpos
        | 3 => t.tpix
        | 4 => t.tinfo0
        | 5 => t.tinfo1
        | 6 => t.tlanes
        | _ => t.tsrc) g')

/-- R156 to R158: RALLOC.wait joins its quarter's queue and holds, RALLOC.try takes blocks only when the queue is empty and enough
granules are free, RFREE releases blocks, RQUERY reports, and a request that no grant could meet traps; with no Active lane none
of them does anything.

R61, R158: the oldest request of a quarter is granted once enough granules are free: the group's held count rises, the new registers
read 0, the scalar takes the count, which ends the spinning of its fragment where it is another than the scalar held, and the fragment
passes its word; while they are not free nothing changes. R154: where the group would come to hold more than 24 blocks, the request
leaves its queue and the word issues again.

Where the manual leaves something open, the clauses take the model's choice: log entries 20, 29, 81 and 87. -/
def Obligations.RegisterPoolWordsRunAndAreGranted : Prop :=
  (
  (∀ p d n s u, issueOf s = some u → execLanes u p = 0 →
    ∀ i ∈ [Instr.rallocWait p d n, .rallocTry p d n, .rfree p d n, .rquery p d], exec i s = .next (finish s u)) ∧
  (∀ p d n s u, issueOf s = some u → execLanes u p ≠ 0 → u.g.held + n.toNat ≤ 24 →
    let c := coreOf s (u.key / 128)
    exec (.rallocWait p d n) s = .next (holdUnit (setCore s (u.key / 128)
      { c with requests := c.requests ++ [(u.g.quarter, u.key, lowest u.f.lanes, n.toNat)] }) u
        (.ralloc n.toNat (d.toNat - 192) u.words.length))) ∧
  (∀ p d n s u, issueOf s = some u → execLanes u p ≠ 0 → 24 < u.g.held + n.toNat →
    exec (.rallocWait p d n) s = .next (raise s u
      { cls := 18, info0 := n.setWidth 64, info1 := BitVec.ofNat 64 u.g.held })) ∧
  (∀ p d n s u, issueOf s = some u → execLanes u p ≠ 0 → Plain s u →
    (u.g.held + n.toNat ≤ 24 ∧ waitingRequests s u = [] ∧
        n.toNat * (u.g.width / 16) ≤ freeGranules s (u.key / 128) u.g.quarter ∧ 0 < n.toNat →
      ∃ g', exec (.rallocTry p d n) s = .next (u.passed s g') ∧ g'.held = u.g.held + n.toNat ∧
        sreg g' (d.toNat - 192) = BitVec.ofNat 64 (u.g.held + n.toNat) ∧
        (∀ r, r ≠ d.toNat - 192 → sreg g' r = sreg u.g r) ∧
        (∀ r l, l < 64 → vreg g' r l = if r < 8 * u.g.held then vreg u.g r l else 0) ∧
        { g' with held := u.g.held, s := u.g.s, v := u.g.v } = u.g) ∧
    (¬ (u.g.held + n.toNat ≤ 24 ∧ waitingRequests s u = [] ∧
        n.toNat * (u.g.width / 16) ≤ freeGranules s (u.key / 128) u.g.quarter) →
      exec (.rallocTry p d n) s = .next (u.passed s (withScalar u.g d 0)))) ∧
  (∀ p d n s u, issueOf s = some u → execLanes u p ≠ 0 →
    (n.toNat < u.g.held → loadOwes s u.key (8 * (u.g.held - n.toNat)) = false →
      ∃ g', exec (.rfree p d n) s = .next (u.passed s g') ∧ g'.held = u.g.held - n.toNat ∧
        sreg g' (d.toNat - 192) = BitVec.ofNat 64 (u.g.held - n.toNat) ∧
        (∀ r, r ≠ d.toNat - 192 → sreg g' r = sreg u.g r) ∧
        (∀ r l, l < 64 → vreg g' r l = if r < 8 * (u.g.held - n.toNat) then vreg u.g r l else 0) ∧
        { g' with held := u.g.held, s := u.g.s, v := u.g.v } = u.g) ∧
    (n.toNat < u.g.held → loadOwes s u.key (8 * (u.g.held - n.toNat)) = true →
      exec (.rfree p d n) s = .next (holdUnit s u (.rfree n.toNat))) ∧
    (u.g.held ≤ n.toNat → exec (.rfree p d n) s = .next (raise s u (registerTrap u 0)))) ∧
  (∀ p d s u, issueOf s = some u → execLanes u p ≠ 0 → Plain s u →
    let c := coreOf s (u.key / 128)
    exec (.rquery p d) s = .next (u.passed s (withScalar u.g d
      (u.g.held + 2 ^ 8 * u.g.regs + 2 ^ 16 * min 65535 (freeBlocks s u) + 2 ^ 32 * min 255 (waitingRequests s u).length +
        2 ^ 40 * c.b1 + 2 ^ 48 * c.b2 + 2 ^ 56 * c.b3))))) ∧
  (
  ∀ s r g f n d words, ((coreOf s s.input.key).requests.filter (fun x => x.1 = s.input.sub)).head? = some r →
    groupOf s r.2.1 = some g → fragAt g r.2.2.1 = some f → f.hold = .ralloc n d words →
    let without := setCore s s.input.key { coreOf s s.input.key with requests := (coreOf s s.input.key).requests.erase r }
    (g.held + r.2.2.2 ≤ 24 → freeGranules s s.input.key r.1 < r.2.2.2 * (g.width / 16) → exec .rallocGrant s = .next s) ∧
    (24 < g.held + r.2.2.2 → 24 < g.held + n →
      exec .rallocGrant s = .next (setGroup without r.2.1 (modFrag g f.lanes (fun f => f.stops.holding .ready s.clock)))) ∧
    (r.2.2.2 * (g.width / 16) ≤ freeGranules s s.input.key r.1 → 0 < n → g.held + n ≤ 24 →
      ∃ g', exec .rallocGrant s = .next (setGroup without r.2.1
          (modFrag g' f.lanes (fun f => f.past words s.clock))) ∧
        g'.held = g.held + n ∧ (∀ k, sreg g' k = if k = d then BitVec.ofNat 64 (g.held + n) else sreg g k) ∧
        (∀ r l, l < 64 → vreg g' r l = if r < 8 * g.held then vreg g r l else 0) ∧
        (sreg g d ≠ BitVec.ofNat 64 (g.held + n) → ∀ x ∈ g'.spins, lane f.lanes x.lane = true → x.quiet = false ∧ x.lowered = none) ∧
        { g' with held := g.held, s := g.s, v := g.v, spins := g.spins } = g))

/-! ### Control -/

/-- R18: a word that has been completed leaves its fragment ready at the next word of its clause, or, after the clause's last word,
at the address after the clause, outside any clause; other fragments of the group, other groups and everything else stay.

R67 to R69: NOP and SLEEP 0 pass; YIELD passes and lets others issue first for 16 clocks; SLEEP n passes and then waits its clocks; WAITLT passes when the counter is below its
number, and then covers transfers for its threads, and otherwise holds its fragment at the word.

Where the manual leaves something open, the clauses take the model's choice: log entry 8. -/
def Obligations.WordsPassOrWait : Prop :=
  (
  ∀ s u, issueOf s = some u →
    let stop := fun (c : Clause) => c.head + 4 + 4 * hdrCount c.word
    let next := u.f.pc + 4 * u.words.length
    ∃ g' f', finish s u = setGroup s u.key g' ∧ { g' with frags := u.g.frags } = u.g ∧
      (∀ f, f.lanes ≠ u.f.lanes → (f ∈ g'.frags ↔ f ∈ u.g.frags)) ∧
      f' ∈ g'.frags ∧ f'.lanes = u.f.lanes ∧ f'.hold = .ready ∧ f'.resumed = false ∧
      f'.pix = (match u.f.hold with
        | .between pix _ => pix
        | _ => if u.f.resumed then 0 else u.f.pix) ∧
      match u.f.clause with
      | none => f'.pc = next ∧ f'.clause = none
      | some c => if next < stop c then f'.pc = next ∧ f'.clause = some c else f'.pc = stop c ∧ f'.clause = none) ∧
  (
  ∀ s u, issueOf s = some u →
    let passedThen := fun h => setGroup s u.key
      (modFrag (modFrag u.g u.f.lanes (fun f => f.past u.words.length s.clock)) u.f.lanes (fun f => { f with hold := h }))
    exec .nop s = .next (finish s u) ∧
    exec .yield s = .next (setGroup s u.key
      (modFrag (modFrag u.g u.f.lanes (fun f => f.past u.words.length s.clock)) u.f.lanes (fun f => { f with rest := s.clock + 16 }))) ∧
    exec (.sleep 0) s = .next (finish s u) ∧
    (∀ n : Byte, n ≠ 0 →
      exec (.sleep n) s = .next (passedThen (.sleep (s.clock + 64 * n.toNat) (s.clock + 64 * n.toNat + 64)))) ∧
    ∀ k n : Byte,
      ((counterOf u.g k.toNat).val < n.toNat →
        ∃ g', exec (.waitlt k n) s = .next (u.passed s g') ∧ { g' with batches := u.g.batches } = u.g ∧
          ∀ l, l < 64 → (batchOf g' l).opened = (batchOf u.g l).opened ∧ (batchOf g' l).sealed = (batchOf u.g l).sealed ∧
            ∀ t, t ∈ (batchOf g' l).covered ↔ t ∈ (batchOf u.g l).covered ∨
              (lane u.f.lanes l = true ∧ t ∈ shownComplete s u.key u.g k.toNat n.toNat)) ∧
      (n.toNat ≤ (counterOf u.g k.toNat).val → exec (.waitlt k n) s = .next (holdUnit s u (.waitlt k.toNat n.toNat))))

/-- R23, R24, R56, R70 to R76: a branch whose targets pass the check of R24 sends each thread to its target, or on to the next
clause, with one fragment for each place; BRX in table mode reads each lane's target from its table.

R24, R75: a branch or call whose first target is not a canonical multiple of 4, or whose target's word is no header that a branch
may reach, takes the illegal-target trap with that target and the lowest lane that takes it, and moves no thread; so does one through a
table that is not 8-aligned, or with an index beyond the table's count.

Where the manual leaves something open, the clauses take the model's choice: log entry 21. -/
def Obligations.BranchesSendTheirThreads : Prop :=
  (
  (∀ m r a o o24 x s u s₁, issueOf s = some u → ∀ b ∈ branchRows u m r a o o24 x, RegsOk u.g (branchRegs b.1) →
    TargetsPass (whoGroup s u.key u.g) (stampOf s u.g) s (targetsTaken u b.2) s₁ →
    BranchRuns b.1 s s₁ u b.2 (fun _ x => x)) ∧
  (∀ a b s u s₁ ts, issueOf s = some u → RegsOk u.g [(a, 1)] →
    let table := (sreg u.g (b.toNat - 192)).toNat
    let next := fun l => (ts.find? (fun x => x.1 = l)).map (·.2)
    table % 8 = 0 →
    TableGives (whoGroup s u.key u.g) u.key (stampOf s u.g) (((launchOfGroup s u.g).map recCbase).getD 0) table
      (fun l => (val32 u.g a l).toNat) s [] (lanesOf u.f.lanes) s₁ ts →
    BranchRuns (.brxTable a b) s s₁ u next (fun _ x => x))) ∧
  (
  (∀ m r a o o24 x s u t l, issueOf s = some u → ∀ b ∈ branchRows u m r a o o24 x ++ callRows u a o24, RegsOk u.g (branchRegs b.1) →
    lane u.f.lanes l = true → b.2 l = some t → (∀ k < l, lane u.f.lanes k = true → b.2 k = none) →
    ((t < 0 ∨ 2 ^ 56 ≤ t ∨ t % 4 ≠ 0) →
      exec b.1 s = .next (raise s u { cls := 4, info0 := BitVec.ofInt 64 t, info1 := BitVec.ofNat 64 l })) ∧
    ∀ h s₁, 0 ≤ t → t < 2 ^ 56 → t % 4 = 0 →
      fetchWord s (whoGroup s u.key u.g) (stampOf s u.g) t.toNat = (s₁, .ok h) → targetWordOk h = false →
      exec b.1 s = .next (raise s₁ u { cls := 4, info0 := BitVec.ofInt 64 t, info1 := BitVec.ofNat 64 l })) ∧
  (∀ a b s u, issueOf s = some u → RegsOk u.g [(a, 1)] → u.f.lanes ≠ 0 →
    let table := (sreg u.g (b.toNat - 192)).toNat
    let bad := fun (s : State) => raise s u
      { cls := 4, info0 := BitVec.ofNat 64 table, info1 := BitVec.ofNat 64 (lowest u.f.lanes) }
    (table % 8 ≠ 0 → ∀ i ∈ [Instr.brxTable a b, .callxTable a b], exec i s = .next (bad s)) ∧
    ∀ s₁ count, table % 8 = 0 → 
      loadBytes s ((whoGroup s u.key u.g).ofThread u.key (lowest u.f.lanes)) .load table 4 = (s₁, .ok count) →
      leNat count ≤ (val32 u.g a (lowest u.f.lanes)).toNat →
      ∀ i ∈ [Instr.brxTable a b, .callxTable a b], exec i s = .next (bad s₁)))

/-- R71, R76: a call pushes the address after it on each thread's return stack and branches; a thread whose stack holds 16 addresses
makes it trap. RET pops each thread's newest address and goes there; an empty stack makes it trap.

Where the manual leaves something open, the clauses take the model's choice: log entry 21. -/
def Obligations.CallsPushAndReturnsPop : Prop :=
  (∀ a o s u s₁, issueOf s = some u → ∀ b ∈ callRows u a o, RegsOk u.g (branchRegs b.1) →
    TargetsPass (whoGroup s u.key u.g) (stampOf s u.g) s (targetsTaken u b.2) s₁ →
    ((∀ l, lane u.f.lanes l = true → (stackOf u.g l).length < 16) →
      BranchRuns b.1 s s₁ u b.2 (fun _ x => returnAddress u :: x)) ∧
    ∀ l, lane u.f.lanes l = true → 16 ≤ (stackOf u.g l).length →
      (∀ k < l, lane u.f.lanes k = true → (stackOf u.g k).length < 16) →
      exec b.1 s = .next (raise s₁ u { cls := 6, info0 := 0, info1 := BitVec.ofNat 64 l })) ∧
  (∀ a b s u s₁ ts, issueOf s = some u → RegsOk u.g [(a, 1)] →
    let table := (sreg u.g (b.toNat - 192)).toNat
    let next := fun l => (ts.find? (fun x => x.1 = l)).map (·.2)
    table % 8 = 0 →
    TableGives (whoGroup s u.key u.g) u.key (stampOf s u.g) (((launchOfGroup s u.g).map recCbase).getD 0) table
      (fun l => (val32 u.g a l).toNat) s [] (lanesOf u.f.lanes) s₁ ts →
    (∀ l, lane u.f.lanes l = true → (stackOf u.g l).length < 16) →
    BranchRuns (.callxTable a b) s s₁ u next (fun _ x => returnAddress u :: x)) ∧
  (∀ s u s₁, issueOf s = some u →
    let next := fun l => (stackOf u.g l).head?.map (fun (x : Nat) => (x : Int))
    ((∀ l, lane u.f.lanes l = true → stackOf u.g l ≠ []) →
      TargetsPass (whoGroup s u.key u.g) (stampOf s u.g) s (targetsTaken u next) s₁ →
      BranchRuns .ret s s₁ u next (fun _ x => x.tail)) ∧
    ∀ l, lane u.f.lanes l = true → stackOf u.g l = [] → (∀ k < l, lane u.f.lanes k = true → stackOf u.g k ≠ []) →
      exec .ret s = .next (raise s u { cls := 6, info0 := 1, info1 := BitVec.ofNat 64 l }))

/-- R64, R80 to R82, R171 to R176: a rendezvous word whose fragment is all the live members completes at once: JOIN changes nothing
more, RDV writes the arrived set, VOTE its bits, and the cross-lane words their values in Active lanes.

R64, R65: a rendezvous word at which live members are still awaited holds its fragment there, arrived; one that a thread outside
the members issues takes the rendezvous trap, with the arrived threads of the instance in its info. The arrival of the last member
completes an instance of one or several fragments: its threads leave as one fragment, exited members contribute false or zero, and the
word's result is written, XPUT's and the others' scalars included.

Where the manual leaves something open, the clauses take the model's choice: log entries 14, 15, 18, 19 and 24. -/
def Obligations.RendezvousWordsMeetOrWait : Prop :=
  (
  (∀ a s u, issueOf s = some u → Alone u a.toNat → MeetRuns (.join a) s u (fun g' => g' = u.g)) ∧
  (∀ p d a s u, issueOf s = some u → Alone u a.toNat →
    MeetRuns (.rdv p d a) s u (fun g' => { g' with m := u.g.m } = u.g ∧ (∀ k, k ≠ d.toNat → maskReg g' k = maskReg u.g k) ∧
      (d ≠ 0 → maskReg g' d.toNat = u.f.lanes &&& below u.g.width))) ∧
  (∀ p r a b s u, issueOf s = some u → Alone u b.toNat → r ≠ 0 → ∀ x ∈ voteRows u p r a b,
    MeetRuns x.1 s u (fun g' => { g' with m := u.g.m } = u.g ∧ (∀ k, k ≠ r.toNat → maskReg g' k = maskReg u.g k) ∧
      maskReg g' r.toNat = x.2 &&& below u.g.width)) ∧
  (∀ p d a b o t s u, issueOf s = some u → Alone u ((pfxGet p).aux.extractLsb' 0 3).toNat → ∀ x ∈ crossRows u p d a b o t,
    RegsOk u.g x.2.1 →
    MeetRuns x.1 s u (fun g' => OnlyRegs u.g g' ∧
      Writes u p d 1 (fun l => BitVec.ofNat 64 (x.2.2.2 l (drawRng (x.2.2.1 l) (rngOf u.g l)).1)) g' ∧
      Draws u p (fun l y => (drawRng (x.2.2.1 l) y).2) g')) ∧
  (∀ p d a b s u, issueOf s = some u → Alone u ((pfxGet p).aux.extractLsb' 0 3).toNat → d.toNat < 192 →
    RegsOk u.g [(d, 1), (a, 1), (b, 1)] →
    MeetRuns (.xput p d a b) s u (fun g' => { g' with v := u.g.v } = u.g ∧ ∀ r l, l < 64 → vreg g' r l =
      if r ≠ d.toNat ∨ lane u.f.lanes l = false then vreg u.g r l
      else if lane (actives u p) l then
        (match ((lanesOf (actives u p)).filter (fun k => (val32 u.g b k).toNat = l)).getLast? with
         | some k => val32 u.g a k
         | none => vreg u.g r l)
      else if zOf p then 0 else vreg u.g r l))) ∧
  (
  ∀ a : Opnd, ∀ s u, issueOf s = some u → u.g.rdv = [] →
    let members := maskReg u.g a.toNat &&& liveLanes u.g
    (u.f.lanes &&& ~~~members ≠ 0 →
      exec (.join a) s = .next (raise s u { cls := 7, info0 := BitVec.ofNat 64 u.f.pc, info1 := 0 })) ∧
    (u.f.lanes &&& ~~~members = 0 →
      (∃ l, lane members l = true ∧ lane u.f.lanes l = false ∧ ∀ f ∈ u.g.frags, ∀ x, f.hold = .rendezvous x → lane f.lanes l = false) →
      ∃ g', exec (.join a) s = .next (setGroup s u.key g') ∧ { g' with frags := u.g.frags, rdv := [] } = u.g ∧
        (∃ r, g'.rdv = [r] ∧ r.addr = u.f.pc ∧ r.members = members ∧ r.arrived = u.f.lanes ∧ r.since = s.clock) ∧
        (∀ f, f.lanes ≠ u.f.lanes → (f ∈ g'.frags ↔ f ∈ u.g.frags)) ∧
        ∃ f' ∈ g'.frags, f'.lanes = u.f.lanes ∧ f'.pc = u.f.pc ∧ f'.hold = .rendezvous u.f.pc)) ∧
  (
  ∀ p d a b m o t s u, issueOf s = some u → m ≠ 0 → ∀ w ∈ meetWords u p d a b m o t, RegsOk u.g w.regs → w.Runs s u)

/-- R78: EXIT ends the fragment's threads: they are exited and in no fragment, and nothing else changes where no rendezvous is open, no
barrier of the gang has been arrived at, and live threads remain.

R236: where no live thread remains and no trap is pending, the group counts as arrived in the records of its barriers as well.

Where the manual leaves something open, the clauses take the model's choice: log entry 24. -/
def Obligations.ExitEndsTheThreads : Prop :=
  ∀ s u, issueOf s = some u → u.g.rdv = [] → (∀ x ∈ s.groups, x.2.gang = u.g.gang → x.2.arrTeam = 0 ∧ x.2.arrGang = 0) →
    ∃ g', { g' with frags := u.g.frags, exited := u.g.exited } = u.g ∧ g'.exited = u.g.exited ||| u.f.lanes ∧
      (∀ f, f ∈ g'.frags ↔ f ∈ u.g.frags ∧ f.lanes &&& u.f.lanes = 0) ∧
      (liveLanes u.g &&& ~~~u.f.lanes ≠ 0 → exec .exit s = .next (setGroup s u.key g')) ∧
      (liveLanes u.g &&& ~~~u.f.lanes = 0 → u.g.pending = [] →
        let t := arrivedAt s u false g'
        exec .exit s = .next (if onGang s u true then countedAt t u true g' else t))

/-! ### Memory words -/

/-- R310, R311: a load of any form, not counted, whose lanes all reach device memory: every Active lane's registers take its bytes,
zero-extended or sign-extended, the fragment passes the word, and no byte of memory changes. With no Active lane nothing is
accessed.

R314: LDU accesses memory once, for the lowest Active lane, and writes its scalar.

R352, R353, R356, R373: a load, counted or not, whose lanes reach peers or the host asks there for what each lane loads, and waits for the
replies unless its clause counts it; a read of the host goes out behind the stores to the host that its thread has still to transmit.

Where the manual leaves something open, the clauses take the model's choice: log entry 1. -/
def Obligations.LoadsWriteTheirRegisters : Prop :=
  (
  ∀ p d a b, ∀ f ∈ loadForms p d a b, ∀ s u s' x, issueOf s = some u → Fresh u → Calm s u → clauseSetA u.f = none →
    RegsOk u.g [(d, f.2.2.1), (a, 2)] → Aligned u p f.2.1 (addrOf u a b f.2.1) →
    LoadsFind u (whoGroup s u.key u.g) f.2.1 f.2.2.2.2 (addrOf u a b f.2.1) x
      (if execLanes u p = 0 then s else counted s u none true) (lanesOf (execLanes u p)) s' →
    ∃ t g', exec f.1 s = .next t ∧ t.groups = (finish (setGroup s' u.key g') u).groups ∧
      LoadWrites u p (zOf p) d f.2.2.1 (fun l => extendLoad f.2.2.2.1 f.2.1 (x l)) g' ∧
      (f.2.2.2.2 = false → NoWriteNoted u.g g') ∧ OnlyGroupsAndOps s' t ∧ ∀ y, t.mem.byte y = s.mem.byte y) ∧
  (
  ∀ p d a b s u s' x, issueOf s = some u → Fresh u → Calm s u → clauseSetA u.f = none → 192 ≤ d.toNat → 192 ≤ a.toNat →
    execLanes u p ≠ 0 →
    let n := if (pfxGet p).aux.getLsbD 0 then 8 else 4
    Aligned u p n (addrOf u a b n) →
    LoadsFind u (whoGroup s u.key u.g) n false (addrOf u a b n) x (counted s u none true) [lowest (execLanes u p)] s' →
    ∃ t g', exec (.ldu p d a b) s = .next t ∧
      t.groups = (finish (setGroup s' u.key (withScalar g' d (x (lowest (execLanes u p))))) u).groups ∧
      { g' with anchors := u.g.anchors, spins := u.g.spins } = u.g ∧ NoWriteNoted u.g g' ∧ OnlyGroupsAndOps s' t ∧
      ∀ y, t.mem.byte y = s.mem.byte y) ∧
  (∀ p d a b s u, ∀ r ∈ loadAskRows u p d a b, r.Runs p s u) ∧
  (
  ∀ p d a b, ∀ f ∈ loadForms p d a b, ∀ s u s₁ e h l, issueOf s = some u → Fresh u → Calm s u → clauseSetA u.f = none →
    RegsOk u.g [(d, f.2.2.1), (a, 2)] → Aligned u p f.2.1 (addrOf u a b f.2.1) → lanesOf (execLanes u p) = [l] →
    translate (counted s u none true) (whoGroup s u.key u.g) .load false (addrOf u a b f.2.1 l) = (s₁, .ok (e, .host h)) →
    ∃ t, exec f.1 s = .next t ∧ t.sent = s₁.sent ++ (s₁.requests.filter (unsentBy u l)).map (fun q =>
      .hostWrite q.addr q.data false q.ordered) ++ [.hostRead s₁.nextTag h f.2.1] ∧
      ∀ q ∈ t.requests, unsentBy u l q = false)

/-- R25, R27, R311, R314, R315: a load, LDU or LDE whose clause names a counter is counted, passes the word at once, and owes its registers
until it completes; a counter at 255 holds the fragment at the word instead.

Where the manual leaves something open, the clauses take the model's choice: log entry 25. -/
def Obligations.CountedLoadsOweTheirRegisters : Prop :=
  ∀ p d a b s u s' x k, issueOf s = some u → Fresh u → Calm s u → clauseSetA u.f = some k →
    k < u.g.counters.length → execLanes u p ≠ 0 →
    let owes := fun (i : Instr) (s' : Machine.State) (acquire : Bool) (owed : List Owed) =>
      ∃ t s'', exec i s = .next t ∧ Told u d s' s'' ∧ t.groups = (finish s'' u).groups ∧ OnlyGroupsAndOps s' t ∧
        (∃ g', groupOf t u.key = some g' ∧ (counterOf g' k).val = (counterOf u.g k).val + 1 ∧ g'.v = u.g.v ∧ g'.s = u.g.s) ∧
        tfind t.ops s.nextOp = some ⟨u.key, some k, true, owed, 0, true, false, acquire, false⟩
    let full := fun (i : Instr) => 255 ≤ (counterOf u.g k).val → exec i s = .next (holdUnit s u .unit)
    (∀ f ∈ loadForms p d a b, RegsOk u.g [(d, f.2.2.1), (a, 2)] → Aligned u p f.2.1 (addrOf u a b f.2.1) →
      ((counterOf u.g k).val < 255 →
        LoadsFind u (whoGroup s u.key u.g) f.2.1 f.2.2.2.2 (addrOf u a b f.2.1) x (counted s u (some k) true)
          (lanesOf (execLanes u p)) s' →
        owes f.1 s' f.2.2.2.2 (loadOwed u p (zOf p) d f.2.2.1 (fun l => extendLoad f.2.2.2.1 f.2.1 (x l)))) ∧ full f.1) ∧
    (192 ≤ d.toNat → 192 ≤ a.toNat →
      let n := if (pfxGet p).aux.getLsbD 0 then 8 else 4
      let l := lowest (execLanes u p)
      Aligned u p n (addrOf u a b n) →
      ((counterOf u.g k).val < 255 →
        LoadsFind u (whoGroup s u.key u.g) n false (addrOf u a b n) x (counted s u (some k) true) [l] s' →
        owes (.ldu p d a b) s' false [⟨u.key, 64, d.toNat - 192, BitVec.ofNat 64 (x l), l⟩]) ∧ full (.ldu p d a b)) ∧
    ∀ e, RegsOk u.g [(d, 1), (a, 2)] →
      ((counterOf u.g k).val < 255 →
        ElementsFound u (whoGroup s u.key u.g) .load ((pfxGet p).aux.getLsbD 0) (addrOf u a 0 1) e (elementLoaded u p e)
          (counted s u (some k) true) (lanesOf (execLanes u p)) s' →
        owes (.lde p d a) s' false (loadOwed u p (zOf p) d 1 (elementValue s u p e))) ∧ full (.lde p d a)

/-- R315, R103 to R105: LDE decodes the element of a typed page, multiplies it by its scale and rounds once to FP32; STE divides by
the scale, rounds into the page's format and stores the element alone: memory then holds each lane's pattern where no later lane stores its
bits, and a 4-bit element keeps the other nibble of its byte (R346).

Where the manual leaves something open, the clauses take the model's choice: log entries 14 and 37. -/
def Obligations.TypedElementsLoadAndStore : Prop :=
  (∀ p d a s u s' x, issueOf s = some u → Fresh u → Calm s u → clauseSetA u.f = none → RegsOk u.g [(d, 1), (a, 2)] →
    execLanes u p ≠ 0 →
    ElementsFound u (whoGroup s u.key u.g) .load ((pfxGet p).aux.getLsbD 0) (addrOf u a 0 1) x
      (elementLoaded u p x) (counted s u none true) (lanesOf (execLanes u p)) s' →
    ∃ t g', exec (.lde p d a) s = .next t ∧ t.groups = (finish (setGroup s' u.key g') u).groups ∧ OnlyGroupsAndOps s' t ∧
      LoadWrites u p (zOf p) d 1 (elementValue s u p x) { g' with rng := u.g.rng } ∧
      (∀ l, l < 64 → rngOf g' l = if lane (execLanes u p) l then (drawRng (modeOf u.g p) (rngOf u.g l)).2 else rngOf u.g l) ∧
      ∀ y, t.mem.byte y = s.mem.byte y) ∧
  (∀ p d a s u s' x, issueOf s = some u → Fresh u → Calm s u → (∀ k, clauseSetB u.f = some k → (counterOf u.g k).val < 255) →
    RegsOk u.g [(d, 1), (a, 2)] → execLanes u p ≠ 0 →
    let value := fun l => val32 u.g d l
    let named := fun l => noQuotient (decodeFmt .f32 (value l).toNat) (x l).scale
    let dr := fun l => if named l then (0, rngOf u.g l) else drawRng (modeOf u.g p) (rngOf u.g l)
    let pattern := fun l => if named l then (x l).fmt.nanCode
      else roundFmt (x l).fmt (satOf p) (modeOf u.g p) (dr l).1 ((decodeFmt .f32 (value l).toNat).div (x l).scale)
    ElementsFound u (whoGroup s u.key u.g) .store ((pfxGet p).aux.getLsbD 0) (addrOf u a 0 1) x
      (fun s l => modGroup (noteWrite (storeElement s (writerOf (u.key / 128)) (x l) (pattern l)) u.key l) u.key (fun g => setRng g l (dr l).2))
      (counted s u (clauseSetB u.f) false) (lanesOf (execLanes u p)) s' →
    ∃ t, exec (.ste p d a) s = .next t ∧ t.groups = (finish s' u).groups ∧ OnlyGroupsAndOps s' t ∧
      (∀ y, (∀ l, lane (execLanes u p) l = true → y < (x l).ma ∨ (x l).ma + (x l).size ≤ y) → t.mem.byte y = s.mem.byte y) ∧
      ∀ l, lane (execLanes u p) l = true →
        ((∀ k, lane (execLanes u p) k = true → l < k → elementsApart (x l) (x k)) →
          elementNow t (x l) = pattern l % 2 ^ (x l).fmt.bits) ∧
        ((x l).fmt.bits = 4 → ∀ h < 2, (∀ k, lane (execLanes u p) k = true → elementsApart { x l with h := h } (x k)) →
          elementNow t { x l with h := h } = elementNow s { x l with h := h }))

/-- R310, R311, R358: a store of any form whose lanes all reach device memory, counted or not: in ascending lanes each stores its
bytes at its translated address and nowhere else, and the fragment passes the word with no register changed. ST.rel does so once
its conditions hold, and holds the fragment until then. R344: where accesses of others are to stand before a lane, the lanes below it
are stored, and the fragment stays at its word with the rest.

R352, R356, R373: a store whose lanes reach peers or the host sends each lane's bytes there, those to the host in order behind a release
or a fence of its scope, and waits until they have been performed unless its clause counts it.

Where the manual leaves something open, the clauses take the model's choice: log entries 1 and 31. -/
def Obligations.StoresWriteTheirBytesOnly : Prop :=
  (∀ p d a b, ∀ f ∈ storeForms p d a b, ∀ s u s' ma, issueOf s = some u → Fresh u → Calm s u →
    (∀ k, clauseSetB u.f = some k → (counterOf u.g k).val < 255) → RegsOk u.g [(d, f.2.2), (a, 2)] →
    Aligned u p f.2.1 (addrOf u a b f.2.1) → execLanes u p ≠ 0 →
    StoresGo u (whoGroup s u.key u.g) (addrOf u a b f.2.1) ma (fun _ l => storedBytes u d f.2.1 l)
      (counted s u (clauseSetB u.f) false) (lanesOf (execLanes u p)) s' →
    ∃ t, exec f.1 s = .next t ∧ t.groups = (finish s' u).groups ∧ OnlyGroupsAndOps s' t ∧
      StoresOnly s t (lanesOf (execLanes u p)) f.2.1 ma (fun l => storedBytes u d f.2.1 l)) ∧
  (∀ p d a b s u s₀ s' ma scopes, issueOf s = some u → Fresh u → Calm s u →
    (∀ k, clauseSetB u.f = some k → (counterOf u.g k).val < 255) → RegsOk u.g [(d, sizeSel p), (a, 2)] →
    Aligned u p (4 * sizeSel p) (addrOf u a b (4 * sizeSel p)) → execLanes u p ≠ 0 →
    releaseScopes (whoGroup s u.key u.g) (addrOf u a b (4 * sizeSel p)) s (lanesOf (execLanes u p)) = (s₀, scopes) →
    (batchesDone s₀ u.g (execLanes u p) = true ∧ scopes = [] →
      StoresGo u (whoGroup s u.key u.g) (addrOf u a b (4 * sizeSel p)) ma (fun _ l => storedBytes u d (4 * sizeSel p) l)
        (counted s₀ u (clauseSetB u.f) false) (lanesOf (execLanes u p)) s' →
      ∃ t, exec (.stRel p d a b) s = .next t ∧ t.groups = (finish s' u).groups ∧ OnlyGroupsAndOps s' t ∧
        StoresOnly s t (lanesOf (execLanes u p)) (4 * sizeSel p) ma (fun l => storedBytes u d (4 * sizeSel p) l)) ∧
    (batchesDone s₀ u.g (execLanes u p) = false → exec (.stRel p d a b) s = .next (holdUnit s₀ u (.release (execLanes u p) scopes)))) ∧
  (∀ p d a b, ∀ f ∈ storeForms p d a b, ∀ s u s' ma c l, issueOf s = some u → Fresh u → Calm { s with cut := none } u → s.cut = some c →
    (∀ k, clauseSetB u.f = some k → (counterOf u.g k).val < 255) → RegsOk u.g [(d, f.2.2), (a, 2)] →
    Aligned u p f.2.1 (addrOf u a b f.2.1) → (∃ j, lane (execLanes u p) j = true ∧ j < c) →
    lane (execLanes u p) l = true → c ≤ l → (∀ j, lane (execLanes u p) j = true → c ≤ j → l ≤ j) →
    StoresGo u (whoGroup s u.key u.g) (addrOf u a b f.2.1) ma (fun _ l => storedBytes u d f.2.1 l)
      (counted s u (clauseSetB u.f) false) ((lanesOf (execLanes u p)).filter (· < c)) s' →
    ∃ t, exec f.1 s = .next t ∧ OnlyGroupsAndOps s' t ∧
      t.groups = (stopFrag s' u.key u.f.lanes l (lowest (execLanes u p)) (some s.nextOp)
        (.between u.f.pixAfter (operandsOf u.g u.words))).groups ∧
      StoresOnly s t ((lanesOf (execLanes u p)).filter (· < c)) f.2.1 ma (fun l => storedBytes u d f.2.1 l)) ∧
  (∀ p d a b s u, ∀ r ∈ storeAskRows u p d a b, r.Runs p s u)

/-- R313: STN stores the nibbles that its mask selects and leaves every other nibble of memory as it was.

R352, R373: through an aperture it sends each half of its word with the mask of its nibbles to a peer, and to the host the bytes of which it
stores a nibble.

Where the manual leaves something open, the clauses take the model's choice: log entries 1, 31 and 75. -/
def Obligations.NibbleStoresMerge : Prop :=
  (∀ p d a b s u s' ma, issueOf s = some u → Fresh u → Calm s u →
    (∀ k, clauseSetB u.f = some k → (counterOf u.g k).val < 255) → RegsOk u.g [(d, 2), (a, 2)] →
    Aligned u p 4 (addrOf u a b 4) → execLanes u p ≠ 0 →
    StoresGo u (whoGroup s u.key u.g) (addrOf u a b 4) ma (nibbleWord u d ma)
      (counted s u (clauseSetB u.f) false) (lanesOf (execLanes u p)) s' →
    ∃ t, exec (.stn p d a b) s = .next t ∧ t.groups = (finish s' u).groups ∧ OnlyGroupsAndOps s' t ∧
      ∀ y, (∀ l, lane (execLanes u p) l = true → y < ma l ∨ ma l + 4 ≤ y) → t.mem.byte y = s.mem.byte y) ∧
  (∀ p d a b s u, (nibbleAskRow u p d a b).Runs p s u)

/-- R317, R318: a global atomic reads and writes device memory in one step for each Active lane in ascending order, its registers
take the old values, or, where its clause counts it, are owed them, and no other byte of memory changes.

R352, R373, R376: through an aperture each lane sends its operation and operands to the peer or, for add, exchange and compare and swap, to
the host, and its registers take what comes back.

Where the manual leaves something open, the clauses take the model's choice: log entry 1. -/
def Obligations.AtomicsReadAndWriteOnce : Prop :=
  (∀ p d a b, ∀ f ∈ atomicForms p d a b, ∀ s u s' ma old, issueOf s = some u → Fresh u → Calm s u →
    (∀ k, clauseSetA u.f = some k → (counterOf u.g k).val < 255) →
    let ty := (pfxGet p).aux
    let n := atomicBytes f.2 ty
    RegsOk u.g (atomicRegs p d a b n) → Aligned u p n (addrOf u a 0 n) → execLanes u p ≠ 0 →
    AtomicsGo u (whoGroup s u.key u.g) n (addrOf u a 0 n) ma old
      (fun l x => (atomicStores (w := 8 * n) f.2 ty (BitVec.ofNat _ x) (BitVec.ofNat _ (atomicOperand u b n l))
        (BitVec.ofNat _ (atomicOperand u (cOf p) n l))).toNat)
      (counted s u (clauseSetA u.f) true) (lanesOf (execLanes u p)) s' →
    ∃ t, exec f.1 s = .next t ∧ OnlyGroupsAndOps s' t ∧
      (clauseSetA u.f = none → ∃ g', t.groups = (finish (setGroup s' u.key g') u).groups ∧ LoadWrites u p false d (n / 4) old g') ∧
      (∀ k, clauseSetA u.f = some k → ∃ s'', Told u d s' s'' ∧ t.groups = (finish s'' u).groups ∧
        tfind t.ops s.nextOp = some ⟨u.key, some k, true, loadOwed u p false d (n / 4) old, 0, true, false, false, false⟩) ∧
      ∀ y, (∀ l, lane (execLanes u p) l = true → y < ma l ∨ ma l + n ≤ y) → t.mem.byte y = s.mem.byte y) ∧
  (∀ p d a b s u, ∀ r ∈ atomicAskRows u p d a b, r.Runs p s u)

/-- R315, R316: a prefetch whose lanes reach device memory changes no register and no byte of memory, and passes its word; one whose
address cannot be translated does nothing either.

Where the manual leaves something open, the clauses take the model's choice: log entry 38. -/
def Obligations.PrefetchesChangeNothingVisible : Prop :=
  ∀ p a b s u, issueOf s = some u → Calm s u → RegsOk u.g [(a, 2)] →
    ∀ i ∈ [Instr.pref p a b, .prefLlc p a b], ∃ t, exec i s = .next t ∧ t.groups = (finish s u).groups ∧
      (∀ y, t.mem.byte y = s.mem.byte y) ∧
      { t with groups := s.groups, tick := s.tick, requests := s.requests, sent := s.sent, nextTag := s.nextTag,
               fabric := { t.fabric with asked := s.fabric.asked } } = s

/-- R311, R317: a load, store or atomic whose lowest Active lane with a misaligned address is `l` takes the misaligned-access trap
there, with nothing accessed.

R25, R112, R327 to R329: where the lowest Active lane of a load, store, atomic or typed access fails its check, the word stops there,
counted where its clause names a counter, and with lanes that are not Active zeroed where it asks for it and is not counted: a translation
fault takes the page-fault trap with the lane in %pix, and any other check its own outcome. Where a higher lane of a load or store fails, the
lanes below it are performed first.

Where the manual leaves something open, the clauses take the model's choice: log entries 1, 16 and 36. -/
def Obligations.FailedAccessesStopTheWord : Prop :=
  (
  ∀ p d a b s u l, issueOf s = some u → u.asRead = u → lane (execLanes u p) l = true → ∀ r ∈ failRows s u p d a b,
    RegsOk u.g r.regs → r.va l % r.size ≠ 0 → (∀ k < l, lane (execLanes u p) k = true → r.va k % r.size = 0) →
    exec r.i s = .next (raise s u (misaligned u (r.va l) l))) ∧
  (
  ∀ p d a b s s₀ s₁ u L bad x kind, issueOf s = some u → Fresh u → execLanes u p ≠ 0 → launchOfGroup s u.g = some L →
    ∀ r ∈ failRows s u p d a b, RegsOk u.g r.regs → Aligned u p r.size r.va → r.ready s s₀ →
    let counter := if r.load then clauseSetA u.f else clauseSetB u.f
    (∀ k, counter = some k → (counterOf u.g k).val < 255) →
    let l := lowest (execLanes u p)
    r.fails (counted s₀ u counter r.load) l s₁ bad x kind → (∀ y ∈ s₁.requests, y.op ≠ some s₀.nextOp) →
    ∃ t g₁ g₂, exec r.i s = .next t ∧ groupOf s₁ u.key = some g₁ ∧ g₁.frags = u.g.frags ∧
      WritesBelow u p (r.z && counter.isNone) r.d r.n (fun _ => 0) l g₁ g₂ ∧
      FailsAs s₁ u L l l s₀.nextOp bad x kind g₂ t) ∧
  (
  ∀ p d a b s s' s₁ u L bad v l, issueOf s = some u → Fresh u → Calm s u → launchOfGroup s u.g = some L → lane (execLanes u p) l = true →
    let below := (lanesOf (execLanes u p)).filter (· < l)
    let w := whoGroup s u.key u.g
    (∀ f ∈ loadForms p d a b, clauseSetA u.f = none → RegsOk u.g [(d, f.2.2.1), (a, 2)] → Aligned u p f.2.1 (addrOf u a b f.2.1) →
      LoadsFind u w f.2.1 f.2.2.2.2 (addrOf u a b f.2.1) v (counted s u none true) below s' →
      translate s' w .load false (addrOf u a b f.2.1 l) = (s₁, .error bad) → (∀ y ∈ s₁.requests, y.op ≠ some s.nextOp) →
      ∃ t g₁ g₂, exec f.1 s = .next t ∧ groupOf s₁ u.key = some g₁ ∧ g₁.frags = u.g.frags ∧
        WritesBelow u p (zOf p) d f.2.2.1 (fun k => extendLoad f.2.2.2.1 f.2.1 (v k)) l g₁ g₂ ∧
        FailsAs s₁ u L l (lowest (execLanes u p)) s.nextOp bad (addrOf u a b f.2.1 l) .load g₂ t) ∧
    (∀ f ∈ storeForms p d a b, (∀ k, clauseSetB u.f = some k → (counterOf u.g k).val < 255) → RegsOk u.g [(d, f.2.2), (a, 2)] →
      Aligned u p f.2.1 (addrOf u a b f.2.1) →
      StoresGo u w (addrOf u a b f.2.1) v (fun _ k => storedBytes u d f.2.1 k) (counted s u (clauseSetB u.f) false) below s' →
      translate s' w .store false (addrOf u a b f.2.1 l) = (s₁, .error bad) → (∀ y ∈ s₁.requests, y.op ≠ some s.nextOp) →
      ∃ t g₁, exec f.1 s = .next t ∧ groupOf s₁ u.key = some g₁ ∧ g₁.frags = u.g.frags ∧
        FailsAs s₁ u L l (lowest (execLanes u p)) s.nextOp bad (addrOf u a b f.2.1 l) .store g₁ t))

/-- R359 to R363: a fence whose threads have nothing of its scopes outstanding passes; one that has holds its fragment.

Where the manual leaves something open, the clauses take the model's choice: log entry 31. -/
def Obligations.FencesWaitForTheirScopes : Prop :=
  ∀ s u, issueOf s = some u → s.places = [] →
    (scopeOpen s u.key u.f.lanes true = false → exec .fencePeer s = .next (finish s u)) ∧
    (scopeOpen s u.key u.f.lanes true = true → exec .fencePeer s = .next (holdUnit s u (.fence true false false)) ∧
      exec .fenceIo s = .next (holdUnit s u (.fence true true true))) ∧
    (scopeOpen s u.key u.f.lanes false = false →
      exec .fenceHost s = .next (u.passed s { u.g with fenced := u.g.fenced ||| u.f.lanes })) ∧
    (scopeOpen s u.key u.f.lanes false = true → exec .fenceHost s = .next (holdUnit s u (.fence false true false)) ∧
      exec .fenceIo s = .next (holdUnit s u (.fence true true true))) ∧
    (batchesDone s u.g u.f.lanes = true → exec .fenceAsyncRel s = .next (finish s u)) ∧
    (batchesDone s u.g u.f.lanes = false →
      exec .fenceIo s = .next (holdUnit s u (.fence true true true)) ∧
      ∀ i ∈ [Instr.fenceAsyncRel, .fenceAsync], exec i s = .next (holdUnit s u (.fence false false true))) ∧
    (∃ g', exec .fenceAsyncAcq s = .next (u.passed s g') ∧ { g' with anchors := u.g.anchors } = u.g ∧
      (∀ l, lane u.f.lanes l = true → (anchorOf g' l).acquire = s.mem.order ∧ (anchorOf g' l).write = (anchorOf u.g l).write) ∧
      (batchesDone s u.g u.f.lanes = true → exec .fenceAsync s = .next (u.passed s g'))) ∧
    (scopeOpen s u.key u.f.lanes true = false → scopeOpen s u.key u.f.lanes false = false → batchesDone s u.g u.f.lanes = true →
      exec .fenceIo s = .next (u.passed s { u.g with fenced := u.g.fenced ||| u.f.lanes }))

/-! ### Scratchpad -/

/-- R193, R201, R203, R204: a scratchpad load whose lanes' pages are resident, with no marked unit, gives every Active lane the bytes of
its frame; counted, it owes them. No frame's bytes change.

Where the manual leaves something open, the clauses take the model's choice: log entries 1 and 44. -/
def Obligations.ScratchpadLoadsReadTheirFrames : Prop :=
  ∀ p d a b, ∀ f ∈ ldsForms p d a b, ∀ s u (x : Nat → Nat), issueOf s = some u → Fresh u → ScratchCalm s u →
    RegsOk u.g [(d, f.2.2.1), (a, 1)] → execLanes u p ≠ 0 → SvaOk s u p f.2.1 (svaAt u a b f.2.1) →
    (∀ l, lane (execLanes u p) l = true → ∃ core k y, HereAt s u (svaAt u a b f.2.1 l) core k y ∧
      Unmarked y (svaAt u a b f.2.1 l % 2048) f.2.1 ∧ x l = leNat (readBytes y.bytes (svaAt u a b f.2.1 l % 2048) f.2.1)) →
    (clauseSetA u.f = none →
      ∃ t g', exec f.1 s = .next t ∧ t.groups = (finish (setGroup s u.key g') u).groups ∧ FramesSame s t ∧
        LoadWrites u p (zOf p) d f.2.2.1 (fun l => extendLoad f.2.2.2 f.2.1 (x l)) g' ∧ NoWriteNoted u.g g') ∧
    (∀ k, clauseSetA u.f = some k → (counterOf u.g k).val < 255 →
      ∃ t s'', exec f.1 s = .next t ∧
        Told u d (ScratchLooked u f.2.1 (svaAt u a b f.2.1) (counted s u (some k) true) (lanesOf (execLanes u p))) s'' ∧
        t.groups = (finish s'' u).groups ∧
        FramesSame s t ∧
        tfind t.ops s.nextOp = some ⟨u.key, some k, true,
          loadOwed u p (zOf p) d f.2.2.1 (fun l => extendLoad f.2.2.2 f.2.1 (x l)), 0, true, false, false, false⟩)

/-- R193, R201, R203, R204: a scratchpad store whose lanes' pages are resident writes each lane's bytes into its frame, in ascending
lanes, and no other byte of any frame; where the pages' entries already say that they are written, no byte of device memory changes.

Where the manual leaves something open, the clauses take the model's choice: log entries 1 and 44. -/
def Obligations.ScratchpadStoresWriteTheirFrames : Prop :=
  ∀ p d a b, ∀ f ∈ stsForms p d a b, ∀ s u (core k : Nat → Nat) (y : Nat → Frame), issueOf s = some u → Fresh u → ScratchCalm s u →
    (∀ c, clauseSetB u.f = some c → (counterOf u.g c).val < 255) → RegsOk u.g [(d, f.2.2), (a, 1)] → execLanes u p ≠ 0 →
    let va := svaAt u a b f.2.1
    let n := f.2.1
    SvaOk s u p n va →
    (∀ l, lane (execLanes u p) l = true → HereAt s u (va l) (core l) (k l) (y l)) →
    ScratchStoresGo u va (storedBytes u d n) (counted s u (clauseSetB u.f) false) (lanesOf (execLanes u p)) →
    ∃ t g', exec f.1 s = .next t ∧
      t.groups = (finish (setGroup s u.key g') u).groups ∧
      { g' with anchors := u.g.anchors, counters := u.g.counters } = u.g ∧
      (∀ c j o, (∀ l, lane (execLanes u p) l = true → c = core l → j = k l → o < va l % 2048 ∨ va l % 2048 + n ≤ o) →
        (frameOf t c j).map (fun x => tget 0 x.bytes o) = (frameOf s c j).map (fun x => tget 0 x.bytes o)) ∧
      (∀ l, lane (execLanes u p) l = true →
        (∀ m, lane (execLanes u p) m = true → l < m → core m = core l → k m = k l →
          va m % 2048 + n ≤ va l % 2048 ∨ va l % 2048 + n ≤ va m % 2048) →
        (frameOf t (core l) (k l)).map (fun x => readBytes x.bytes (va l % 2048) n) = some (storedBytes u d n l)) ∧
      ((∀ l, lane (execLanes u p) l = true → (y l).marks = 0 ∧ ∃ home frame pin, home < 4 ∧ frame < 2048 ∧ pin < 16 ∧
          entryOf s u (va l / 2048) = pageEntry true true true false home frame pin) → ∀ z, t.mem.byte z = s.mem.byte z)

/-- R204, R205: a scratchpad atomic reads and writes each Active lane's frame in one step, in ascending lanes, and its registers take the
old values.

Where the manual leaves something open, the clauses take the model's choice: log entries 1 and 44. -/
def Obligations.ScratchpadAtomicsReadAndWriteOnce : Prop :=
  ∀ p d a b, ∀ f ∈ atomsForms p d a b, ∀ s u s' old, issueOf s = some u → Fresh u → ScratchCalm s u → clauseSetA u.f = none →
    let n := atomicBytes f.2.1 f.2.2
    let va := svaAt u a 0 n
    RegsOk u.g ([(d, n / 4), (a, 1), (b, n / 4)] ++ (if (pfxGet p).cv then [(cOf p, n / 4)] else [])) → execLanes u p ≠ 0 →
    SvaOk s u p n va →
    ScratchAtomicsGo u n va old
      (fun l x => (atomicStores (w := 8 * n) f.2.1 f.2.2 (BitVec.ofNat _ x) (BitVec.ofNat _ (atomicOperand u b n l))
        (BitVec.ofNat _ (atomicOperand u (cOf p) n l))).toNat)
      (counted s u none true) (lanesOf (execLanes u p)) s' →
    ∃ t g', exec f.1 s = .next t ∧ t.groups = (finish (setGroup s' u.key g') u).groups ∧ OnlyGroupsAndOps s' t ∧
      LoadWrites u p false d (n / 4) old g'

/-- R203: a scratchpad access whose lowest Active lane at or above SCRATCH, or misaligned, is `l` takes the scratchpad trap there, with
nothing accessed.

Where the manual leaves something open, the clauses take the model's choice: log entry 16. -/
def Obligations.ScratchpadAddressesAreChecked : Prop :=
  ∀ p d a b s u l, issueOf s = some u → u.asRead = u → lane (execLanes u p) l = true →
    ∀ f ∈ (ldsForms p d a b).map (fun f => (f.1, f.2.1, [(d, f.2.2.1), (a, 1)], b)) ++
        (stsForms p d a b).map (fun f => (f.1, f.2.1, [(d, f.2.2), (a, 1)], b)) ++
        (atomsForms p d a b).map (fun f => (f.1, atomicBytes f.2.1 f.2.2, [(d, atomicBytes f.2.1 f.2.2 / 4), (a, 1),
          (b, atomicBytes f.2.1 f.2.2 / 4)] ++ (if (pfxGet p).cv then [(cOf p, atomicBytes f.2.1 f.2.2 / 4)] else []), (0 : Opnd))),
      RegsOk u.g f.2.2.1 →
      let va := svaAt u a f.2.2.2 f.2.1
      let ok := fun k => va k < ((launchOfGroup s u.g).map recScratch).getD 0 ∧ va k % f.2.1 = 0
      ¬ ok l → (∀ k < l, lane (execLanes u p) k = true → ok k) →
      exec f.1 s = .next (raise s u { misaligned u (va l) l with cls := 10 })

/-- R206 to R211: the mapping words act once for the group. SPMAP of resident pages counts them; SPUNMAP leaves pinned pages, which it
counts, and makes others zero with no frame; SPPIN and SPPIN.un move a page's PIN count in its entry; SPQUERY writes each lane's page
status. With no Active lane a mapping word does nothing, and pages that do not lie below SCRATCH make it trap.

Where the manual leaves something open, the clauses take the model's choice: log entry 44. -/
def Obligations.MappingWordsMapPagesAndReport : Prop :=
  (∀ p d a h n m s u, issueOf s = some u → execLanes u p = 0 → h.toNat < ((gangOf s u.g.gang).map (·.cores.length)).getD 1 →
    ∀ i ∈ [Instr.spmap p d a h n, .spunmap p d a m, .sppin p d a n, .sppinUn p d a n], u.f.resumed = false →
      exec i s = .next (finish s u)) ∧
  (∀ p d a h n s u first, issueOf s = some u → u.f.resumed = false → execLanes u p ≠ 0 → PagesOk s u a first (n.toNat + 1) →
    h.toNat < ((gangOf s u.g.gang).map (·.cores.length)).getD 1 →
    (∀ i ≤ n.toNat, ∃ core f x, HereAt s u (2048 * (first + i)) core f x) →
    exec (.spmap p d a h n) s = .next (u.passed s (withScalar u.g d (n.toNat + 1)))) ∧
  (∀ p d a n s u first, issueOf s = some u → u.f.resumed = false → execLanes u p ≠ 0 → PagesOk s u a first (n.toNat + 1) →
    (∀ i ≤ n.toNat, (entryOf s u (first + i)).extractLsb' 20 4 ≠ 0) →
    exec (.spunmap p d a n) s = .next (u.passed s (withScalar u.g d (n.toNat + 1)))) ∧
  (∀ p d a s u first core f x s₁ s₂, issueOf s = some u → u.f.resumed = false → execLanes u p ≠ 0 → PagesOk s u a first 1 →
    HereAt s u (2048 * first) core f x → (entryOf s u first).extractLsb' 20 4 = 0 → (∀ y ∈ s.groups, y.2.spills = []) →
    (∀ q l, gangOf s u.g.gang = some q → launchOf s q.launch = some l →
      areaState s (whoPager q l) (entryVa l q.index first) = (s₁, .ready)) → writeEntry s₁ u.g.gang first 0 = (s₂, true) →
    ∃ t g', exec (.spunmap p d a 0) s = .next t ∧ groupOf t u.key = some g' ∧ sreg g' (d.toNat - 192) = 0 ∧
      entryOf t u first = 0 ∧ frameOf t core f = none ∧ g'.v = u.g.v) ∧
  (∀ p d a s u first s₁ s₂ q l, issueOf s = some u → u.f.resumed = false → execLanes u p ≠ 0 → PagesOk s u a first 1 →
    gangOf s u.g.gang = some q → launchOfGroup s u.g = some l →
    let e := entryOf s u first
    let pin := (e.extractLsb' 20 4).toNat
    let with' := fun (n : Nat) => pageEntry (e.getLsbD 0) (e.getLsbD 1) (e.getLsbD 2) (e.getLsbD 3) (e.extractLsb' 4 2).toNat
      (e.extractLsb' 8 11).toNat n
    areaState s (whoPager q l) (entryVa l q.index first) = (s₁, .ready) →
    (pageState q first = 2 → tfind q.failed first = none → tableHere s q l first = true → (0 < pin ∨ pinnedFrames s ((q.cores[(e.extractLsb' 4 2).toNat]?).getD 0) + 17 ≤
        frameCount (coreOf s ((q.cores[(e.extractLsb' 4 2).toNat]?).getD 0))) → pin < 15 →
      writeEntry s₁ u.g.gang first (with' (pin + 1)) = (s₂, true) →
      exec (.sppin p d a 0) s = .next (finish (modGroup s₂ u.key (fun g => withScalar g d 0)) u) ∧
      entryOf s₂ u first = with' (pin + 1)) ∧
    (0 < pin → writeEntry s₁ u.g.gang first (with' (pin - 1)) = (s₂, true) →
      exec (.sppinUn p d a 0) s = .next (finish (modGroup s₂ u.key (fun g => withScalar g d 0)) u) ∧
      entryOf s₂ u first = with' (pin - 1)) ∧
    (pin = 0 → exec (.sppinUn p d a 0) s = .next (u.passed s (withScalar u.g d 1)))) ∧
  (∀ p d a s u, issueOf s = some u → Fresh u → ScratchCalm s u → RegsOk u.g [(d, 1), (a, 1)] → execLanes u p ≠ 0 →
    ∃ t g', exec (.spquery p d a) s = .next t ∧ t.groups = (finish (setGroup s u.key g') u).groups ∧
      OnlyGroupsAndOps (counted s u none true) t ∧
      LoadWrites u p (zOf p) d 1 (fun l => queryValue s u (val32 u.g a l).toNat) g' ∧ g'.anchors = u.g.anchors) ∧
  (∀ p d a h n m s u start, issueOf s = some u → execLanes u p ≠ 0 → u.f.resumed = false →
    start = (sreg u.g (a.toNat - 192)).toNat →
    let trap := raise s u { cls := 10, info0 := BitVec.ofNat 64 start, info1 := BitVec.ofNat 64 (lowest (actives u p)) }
    let size := ((launchOfGroup s u.g).map recScratch).getD 0
    ((start % 2048 ≠ 0 ∨ size < start + 2048 * (n.toNat + 1)) → h.toNat < ((gangOf s u.g.gang).map (·.cores.length)).getD 1 →
      ∀ i ∈ [Instr.spmap p d a h n, .sppin p d a n, .sppinUn p d a n], exec i s = .next trap) ∧
    ((start % 2048 ≠ 0 ∨ size < start + 2048 * (m.toNat + 1)) → exec (.spunmap p d a m) s = .next trap))

/-! ### Engines -/

/-- R247, R262, R272 to R278: with no claim standing on its ring core, AZERO zeroes its run of atiles, ARD reads one element for each
live thread, AWR writes one for each, ASCALE scales a row for each, and AGIDX writes entries of an index buffer; an atile that another
word or node holds makes the word wait, and one beyond the team's run makes it trap.

Where the manual leaves something open, the clauses take the model's choice: log entry 1. -/
def Obligations.AccumulatorWordsActOnTheirAtiles : Prop :=
  ∀ d a b s u team core, issueOf s = some u → TeamAt s u team core → u.f.hold = .ready →
    let same := fun (t : Machine.State) (except : Nat → Prop) =>
      AtilesOnly s t core ∧ ∀ k e, e < 1024 → ¬ except (1024 * k + e) → element t core k e = element s core k e
    let place := fun (x : Opnd) => team.atiles + scalar u x
    ((coreOf s core).claims = [] →
      (AtileOk team (sreg u.g (a.toNat - 192)) → scalar u a + scalar u b ≤ team.acc →
        ∃ t, exec (.azero a b) s = .next t ∧ t.groups = (finish s u).groups ∧
          same t (fun i => place a ≤ i / 1024 ∧ i / 1024 < place a + scalar u b) ∧
          ∀ k e, e < 1024 → place a ≤ k → k < place a + scalar u b → element t core k e = 0) ∧
      (AtileOk team (sreg u.g (a.toNat - 192)) → RegsOk u.g [(d, 1), (b, 1)] →
        (∀ l, lane u.f.lanes l = true → (val32 u.g b l).toNat < 1024) →
        ∃ t g', exec (.ard d a b) s = .next t ∧ t.groups = (finish (setGroup s u.key g') u).groups ∧ same t (fun _ => False) ∧
          WritesAll u d 1 (fun l => (element s core (place a) (val32 u.g b l).toNat).setWidth 64) g') ∧
      (AtileOk team (sreg u.g (d.toNat - 192)) → RegsOk u.g [(a, 1), (b, 1)] →
        (∀ l, lane u.f.lanes l = true → (val32 u.g a l).toNat < 1024) →
        ∃ t, exec (.awr d a b) s = .next t ∧ t.groups = (finish s u).groups ∧
          same t (fun i => ∃ l, lane u.f.lanes l = true ∧ i = 1024 * place d + (val32 u.g a l).toNat) ∧
          ∀ l, lane u.f.lanes l = true → (∀ k, lane u.f.lanes k = true → l < k → val32 u.g a k ≠ val32 u.g a l) →
            element t core (place d) (val32 u.g a l).toNat = val32 u.g b l) ∧
      (AtileOk team (sreg u.g (d.toNat - 192)) → RegsOk u.g [(a, 1), (b, 1)] →
        (∀ l, lane u.f.lanes l = true → (val32 u.g a l).toNat < 32) →
        ∃ t, exec (.ascale d a b) s = .next t ∧ t.groups = (finish s u).groups ∧
          same t (fun i => ∃ l, lane u.f.lanes l = true ∧ i / 32 = 32 * place d + (val32 u.g a l).toNat) ∧
          ∀ l, lane u.f.lanes l = true → (∀ k, lane u.f.lanes k = true → k ≠ l → val32 u.g a k ≠ val32 u.g a l) →
            ∀ c < 32, element t core (place d) (32 * (val32 u.g a l).toNat + c) =
              BitVec.ofNat 32 (roundFmt .f32 false .rne 0
                ((decodeFmt .f32 (element s core (place d) (32 * (val32 u.g a l).toNat + c)).toNat).mul
                  (decodeFmt .f32 (val32 u.g b l).toNat))))) ∧
    (0 < team.acc → scalar u a < 512 → RegsOk u.g [(b, 1)] → (∀ l, lane u.f.lanes l = true → scalar u a % 256 + l < 256) →
      ∃ ix, exec (.agidx a b) s = .next (finish (withTeam s u { team with index := ix }) u) ∧
        (∀ l, lane u.f.lanes l = true → tget 0 ix (scalar u a + l) = val32 u.g b l) ∧
        ∀ k, (∀ l, lane u.f.lanes l = true → k ≠ scalar u a + l) → tget 0 ix k = tget 0 team.index k) ∧
    (∀ c cs, (coreOf s core).claims = c :: cs → c.1 = place a → c.2 ≠ takerWord u.key (lowest u.f.lanes) →
      AtileOk team (sreg u.g (a.toNat - 192)) → RegsOk u.g [(d, 1), (b, 1)] →
      (∀ l, lane u.f.lanes l = true → (val32 u.g b l).toNat < 1024) →
      exec (.ard d a b) s = .next (holdUnit (askClaim s core (place a) (takerWord u.key (lowest u.f.lanes))) u (.claim 0))) ∧
    (∀ x, team.acc ≤ scalar u x % 65536 → RegsOk u.g [(d, 1), (a, 1), (b, 1)] →
      ∀ i ∈ [Instr.azero x b, .ard d x b, .awr x a b, .ascale x a b],
        exec i s = .next (raise s u (tileFault 273 1 (lowest u.f.lanes)))) ∧
    (team.acc = 0 → RegsOk u.g [(b, 1)] → exec (.agidx a b) s = .next (raise s u (tileFault 273 1 (lowest u.f.lanes))))

/-- R279 to R281: ALOAD and ASTORE whose operands pass their checks issue one tile transfer for the fragment: counted on SETB, in its
threads' open batches, and in line for its atile's claim; no register and no byte of memory changes.

Where the manual leaves something open, the clauses take the model's choice: log entries 29 and 46. -/
def Obligations.TileWordsIssueTheirTransfer : Prop :=
  ∀ d a b s u team core, issueOf s = some u → TeamAt s u team core → RoomOnB u → u.f.op = none →
    ∀ f ∈ [(Instr.aload d a b, 0, scalar u a, scalar u d), (.astore d a b, 1, scalar u d, scalar u a)],
      TileOk s u team f.2.2.1 f.2.2.2 (scalar u b) →
      ∃ t w g', exec f.1 s = .next t ∧ t.mem = s.mem ∧ t.nextTransfer = numberAfter s.nextTransfer ∧
        tfind t.transfers s.nextTransfer = some w ∧ w.number = s.nextTransfer ∧
        Issued s u w 1 core u.f.lanes [f.2.1, f.2.2.1, f.2.2.2, scalar u b, u.g.team] ∧
        (∀ n, n ≠ s.nextTransfer → tfind t.transfers n = tfind s.transfers n) ∧
        (team.atiles + f.2.2.2 % 65536, takerTile s.nextTransfer) ∈ (coreOf t core).claims ∧
        groupOf t u.key = some g' ∧ CountedOnB u g' ∧
        ∀ l, lane u.f.lanes l = true → s.nextTransfer ∈ (batchOf g' l).opened ∧ (batchOf g' l).sealed = (batchOf u.g l).sealed

/-- R219 to R222, R225: a copy word whose transfers pass every check, and find room, issues one transfer for each live thread in
ascending lanes, or one for the fragment where every operand is a scalar, numbered in order and counted as one operation on SETB; the
lowest lane whose operands meet a case of R222 makes it trap with nothing issued.

Where the manual leaves something open, the clauses take the model's choice: log entry 46. -/
def Obligations.CopyWordsIssueTheirTransfers : Prop :=
  ∀ d a b s u, issueOf s = some u → u.f.op = none → ∀ f ∈ copyForms d a b, RegsOk u.g (copyRegs d a b f.2.2) → ¬ (f.2.2 = true ∧ b = 255) →
    let ops := copyOperands u f.2.1 f.2.2 d a b
    let ls := copyLanes u d a b
    let bound := ((launchOfGroup s u.g).map recScratch).getD 0
    let fine := fun l => copyTrap bound (l, CopyOps.ofList (ops l)) = none
    let mask := fun l => if 192 ≤ d.toNat ∧ 192 ≤ a.toNat ∧ 192 ≤ b.toNat then u.f.lanes else laneBit l
    (RoomOnB u → copyEntries s (u.key / 128) + ls.length ≤ 128 → (∀ l ∈ ls, fine l ∧ (CopyOps.ofList (ops l)).total ≠ 0) →
      ∃ t g', exec f.1 s = .next t ∧ t.mem = s.mem ∧ t.nextTransfer = numberFrom s.nextTransfer ls.length ∧
        (∀ i l, ls[i]? = some l → ∃ w, tfind t.transfers (numberFrom s.nextTransfer i) = some w ∧
          w.number = numberFrom s.nextTransfer i ∧ Issued s u w 0 (u.key / 128) (mask l) (ops l)) ∧
        groupOf t u.key = some g' ∧ CountedOnB u g' ∧
        ∀ i l k, ls[i]? = some l → lane (mask l) k = true → numberFrom s.nextTransfer i ∈ (batchOf g' k).opened) ∧
    ∀ l ∈ ls, ∀ n, copyCase (CopyOps.ofList (ops l)) true = some n → (∀ k ∈ ls, k < l → fine k) →
      exec f.1 s = .next (raise s u { cls := 13, info0 := BitVec.ofNat 64 (causeCode 222 n), info1 := BitVec.ofNat 64 l })

/-- R240, R269 to R271: MPOST queues its records with the walker and is counted on SETB, MCFG sets the team's ring once the walker has
nothing left and every slot is empty, MQUERY writes a slot's or the team's status, and MCANCEL cancels what has not begun.

Where the manual leaves something open, the clauses take the model's choice: log entry 47. -/
def Obligations.TaskRingWordsAct : Prop :=
  ∀ d a b s u team core, issueOf s = some u → TeamAt s u team core → u.f.hold = .ready → u.f.op = none →
    (0 < slotsOf team → scalar u a < slotsOf team → scalar u b ≤ slotsOf team → 0 < scalar u b → RoomOnB u →
      ∃ t g' q p, exec (.mpost a b) s = .next t ∧ t.mem = s.mem ∧ t.transfers = s.transfers ∧ gangOf t u.g.gang = some q ∧
        q.teams[u.g.team]? = some { team with posts := team.posts ++ [p] } ∧ p.slot = scalar u a ∧ p.left = scalar u b ∧
        p.group = u.key ∧ p.lanes = u.f.lanes ∧ groupOf t u.key = some g' ∧ CountedOnB u g') ∧
    (slotsOf team = 0 → exec (.mpost a b) s = .next (raise s u (ringFault 240 1))) ∧
    (0 < slotsOf team → slotsOf team ≤ scalar u a → exec (.mpost a b) s = .next (raise s u (ringFault 240 2))) ∧
    (scalar u a < slotsOf team → slotsOf team < scalar u b → exec (.mpost a b) s = .next (raise s u (ringFault 240 3))) ∧
    (let log := scalar u b
     let bad := log = 1 ∨ log = 2 ∨ log = 3 ∨ 10 < log ∨
       (log ≠ 0 ∧ (scalar u a % 64 ≠ 0 ∨ ((launchOfGroup s u.g).map recScratch).getD 0 < scalar u a + 64 * 2 ^ log))
     (bad → exec (.mcfg a b) s = .next (raise s u (ringFault 269 0))) ∧
     (¬ bad → WalkerFree s u team →
       ((∀ x ∈ team.slots, x.2.state = 0) →
         exec (.mcfg a b) s = .next (finish (withTeam s u
           { team with ringBase := if log = 0 then 0 else scalar u a, ringLog := log, slots := [] }) u)) ∧
       ((∃ x ∈ team.slots, x.2.state ≠ 0) → exec (.mcfg a b) s = .next (holdUnit s u (.walker s.tick))))) ∧
    (RegsOk u.g [(d, 2)] → Plain s u →
      (scalar u a < 65536 → scalar u a < slotsOf team →
        ∃ g', exec (.mquery d a) s = .next (u.passed s g') ∧
          WritesAll u d 2 (fun _ => BitVec.ofNat 64 (slotReport s (tget Slot.reset team.slots (scalar u a)))) g') ∧
      (65536 ≤ scalar u a → scalar u a < 131072 →
        ∃ g', exec (.mquery d a) s = .next (u.passed s g') ∧ WritesAll u d 2 (fun _ => BitVec.ofNat 64 (teamReport team)) g') ∧
      ((131072 ≤ scalar u a ∨ scalar u a < 65536 ∧ slotsOf team ≤ scalar u a) →
        exec (.mquery d a) s = .next (raise s u (ringFault 270 0)))) ∧
    (WalkerFree s u team → scalar u a < slotsOf team → scalar u b ≤ slotsOf team →
      let idle := fun (x : Slot) => ¬ (x.state = 1 ∨ x.state = 2 ∨ x.phase = 1 ∨ x.phase = 3)
      let slot := fun (i : Nat) => tget Slot.reset team.slots ((scalar u a + i) % slotsOf team)
      ((∀ i < scalar u b, idle (slot i)) → exec (.mcancel d a b) s = .next (u.passed s (withScalar u.g d 0))) ∧
      (scalar u b = 1 → ¬ idle (slot 0) → (∀ i < 4, field (slot 0).record (4 + 2 * i) 2 < 32768) →
        field (slot 0).record 12 2 < 32768 → (slot 0).trans = none →
        ∃ t q x g', exec (.mcancel d a b) s = .next t ∧ gangOf t u.g.gang = some q ∧ q.teams[u.g.team]? = some x ∧
          tget Slot.reset x.slots (scalar u a) = 
            { Slot.reset with h := (slot 0).h, early := (slot 0).early, copied := (slot 0).copied } ∧
          groupOf t u.key = some g' ∧ sreg g' (d.toNat - 192) = 1 ∧ g'.v = u.g.v))

/-! ### Counters, batches and barriers -/

/-- R216 to R218, R231: KREAD and KREAD.clr write the counter's value and error flag, KADD adds, holds above 255 and stops at 0 with the
flag set, KBIND binds and gives the counter's target, KBIND.close unbinds once no accepted node targets it, and SEAL moves open batches
into sealed sets.

Where the manual leaves something open, the clauses take the model's choice: log entry 25. -/
def Obligations.CounterWordsAct : Prop :=
  ∀ d s u k, issueOf s = some u → k.toNat < u.g.counters.length →
    let c := counterOf u.g k.toNat
    let set := fun (c' : Counter) => setCounter u.g k.toNat c'
    (RegsOk u.g [(d, 1)] → Plain s u →
      (∃ g', exec (.kread d k) s = .next (u.passed s g') ∧
        WritesAll u d 1 (fun _ => BitVec.ofNat 64 (c.val + 256 * c.err.toNat)) g') ∧
      (∃ g', exec (.kreadClr d k) s = .next (u.passed s g') ∧ (counterOf g' k.toNat).err = false ∧
        WritesAll u d 1 (fun _ => BitVec.ofNat 64 (c.val + 256 * c.err.toNat)) { g' with counters := u.g.counters } ∧
        (counterOf g' k.toNat).val = c.val ∧ ∀ j, j ≠ k.toNat → counterOf g' j = counterOf u.g j)) ∧
    (∀ i : Byte, let v : Int := c.val + i.toInt
      (255 < v → exec (.kadd k i) s = .next (holdUnit s u (.kadd k.toNat))) ∧
      (v < 0 → exec (.kadd k i) s = .next (u.passed s (set { c with val := 0, err := true }))) ∧
      (0 ≤ v → v ≤ 255 → exec (.kadd k i) s = .next (u.passed s (set { c with val := v.toNat })))) ∧
    exec (.kbind d k) s = .next (u.passed s
      (withScalar (set { c with bound := true }) d (k.toNat + 16 * u.g.gid + 256 * u.g.team))) ∧
    (∀ q, gangOf s u.g.gang = some q →
      let targeted := ∃ t ∈ q.teams, ∃ x ∈ t.slots, x.2.state ≠ 0 ∧
        field x.2.record 12 2 ≥ 32768 ∧ field x.2.record 12 2 % 1024 = k.toNat + 16 * u.g.gid + 256 * u.g.team
      (targeted → u.g.gid < 16 → u.g.team < 4 → exec (.kbindClose k) s = .next (holdUnit s u (.kbindClose k.toNat))) ∧
      (¬ targeted → exec (.kbindClose k) s = .next (u.passed s (set { c with bound := false })))) ∧
    ∃ g', exec .seal s = .next (u.passed s g') ∧ { g' with batches := u.g.batches } = u.g ∧
      ∀ l, l < 64 → (batchOf g' l).covered = (batchOf u.g l).covered ∧
        (lane u.f.lanes l = false → batchOf g' l = batchOf u.g l) ∧
        (lane u.f.lanes l = true → (batchOf g' l).opened = [] ∧
          ∀ t, t ∈ (batchOf g' l).sealed ↔ t ∈ (batchOf u.g l).sealed ∨ t ∈ (batchOf u.g l).opened)

/-- R235, R236: BAR, BARA and BARW of either scope. The threads of a fragment that have not arrived yet arrive, in the group and in the
barrier's record; BAR then holds, BARA takes the generation and goes on; threads that have arrived already hold for the next instance;
BARW goes on once the generation of every thread has completed, and holds until then. After an arrival the gang's barriers are
looked at.

R233, R236, R237: a barrier instance that every live thread of its scope has arrived at completes: the generation rises by one, the
record and the arrivals are cleared, and the threads held in BAR pass it; with none complete and none deadlocked nothing changes.

R236, where each word completes: BAR and BAR.g as the last arrival, their fragment past the word and the generation one higher; BARA and
BARA.g where no barrier comes to completion or is deadlocked by the arrival, and as the last arrival; BARW and BARW.g where the generation of
every thread has completed.

Where the manual leaves something open, the clauses take the model's choice: log entries 26 and 27. -/
def Obligations.BarriersWaitAndComplete : Prop :=
  (
  ∀ s u, issueOf s = some u → ∀ scope : Bool,
    let gs := onGang s u scope
    let all := arrivals u.g gs ||| u.f.lanes
    let look := fun (s : Machine.State) => Host.Outcome.next (checkBarriers s u.g.gang)
    (u.f.lanes &&& arrivals u.g gs = 0 →
      exec (if scope then .barG else .bar) s = look (holdUnit (arrivedAt s u gs (withArrivals u.g gs all)) u (.bar gs true)) ∧
      ∀ d, RegsOk u.g [(d, 1)] → ∃ g',
        exec (if scope then .baraG d else .bara d) s = look (finish (arrivedAt s u gs g') u) ∧
        WritesAll u d 1 (fun _ => ((barrierOf s u.g gs).gen).setWidth 64) (withArrivals g' gs (arrivals u.g gs)) ∧
        arrivals g' gs = all) ∧
    (u.f.lanes &&& arrivals u.g gs = u.f.lanes → u.f.lanes ≠ 0 →
      exec (if scope then .barG else .bar) s = .next (holdUnit s u (.bar gs false)) ∧
      ∀ d, RegsOk u.g [(d, 1)] → exec (if scope then .baraG d else .bara d) s = .next (holdUnit s u (.bar gs false))) ∧
    ∀ a, RegsOk u.g [(a, 1)] →
      let done := ∀ l, lane u.f.lanes l = true → generationDone (barrierOf s u.g gs).gen (val32 u.g a l)
      (done → exec (if scope then .barwG a else .barw a) s = .next (finish s u)) ∧
      (¬ done → exec (if scope then .barwG a else .barw a) s =
        look (holdUnit s u (.barw gs (val32 u.g a (lowest u.f.lanes)).toNat)))) ∧
  (
  ∀ s uid q, gangOf s uid = some q →
    (BarriersQuiet s uid q → checkBarriers s uid = s) ∧
    ∀ team gs, team < q.teams.length → s.places = [] →
      let t := completeBarrier s uid team gs
      recordOf t uid team gs = ⟨(recordOf s uid team gs).gen + 1, 0, 0⟩ ∧
      (∀ k g, groupOf s k = some g → g.gang = uid → (gs = true ∨ g.team = team) →
        ∃ g', groupOf t k = some g' ∧ arrivals g' gs = 0 ∧ g'.issued = (if gs then g.issued else 0) ∧ g'.v = g.v ∧ g'.s = g.s ∧ g'.m = g.m ∧
          (∀ f ∈ g.frags, f.hold = .bar gs true → f.past 1 s.clock ∈ g'.frags) ∧
          (∀ f ∈ g.frags, (∀ x, f.hold ≠ .bar gs x) → f ∈ g'.frags) ∧
          ∀ l, lane (arrivals g gs) l = true → batchOf g' l = ⟨(batchOf g l).opened, [], []⟩) ∧
      (∀ k g, groupOf s k = some g → (g.gang ≠ uid ∨ gs = false ∧ g.team ≠ team) → groupOf t k = some g) ∧
      t.mem = s.mem) ∧
  (
  ∀ s u q, issueOf s = some u → gangOf s u.g.gang = some q → u.g.team < q.teams.length → s.places = [] →
    let gang := onGang s u true
    let done := fun (gs : Bool) (a : Opnd) => ∀ l, lane u.f.lanes l = true → generationDone (barrierOf s u.g gs).gen (val32 u.g a l)
    -- After the arrival `t` at a barrier, no other one of the gang has come to completion, and after that one's completion `r` none has.
    let last := fun (gs : Bool) (t r : Machine.State) =>
      let here := (if gs then 0 else u.g.team, gs)
      r = completeBarrier t u.g.gang here.1 gs ∧ barrierMet t u.g.gang here.1 gs = true ∧
        (∀ x ∈ barrierScopes q, x ≠ here → barrierMet t u.g.gang x.1 x.2 = false) ∧ BarriersQuiet r u.g.gang q
    let passes := fun (gs : Bool) (r : Machine.State) =>
      recordOf r u.g.gang u.g.team gs = ⟨(barrierOf s u.g gs).gen + 1, 0, 0⟩ ∧
      ∃ g', groupOf r u.key = some g' ∧ arrivals g' gs = 0 ∧
        ∃ f ∈ g'.frags, f.lanes = u.f.lanes ∧ f.hold = .ready ∧ (f.pc, f.clause) = afterWords u.f.clause u.f.pc 1
    let barHeld := fun (gs : Bool) => holdUnit (arrivedAt s u gs (withArrivals u.g gs (arrivals u.g gs ||| u.f.lanes))) u (.bar gs true)
    let bara := fun (gs : Bool) (i : Instr) (d : Opnd) => ∃ g',
      WritesAll u d 1 (fun _ => ((barrierOf s u.g gs).gen).setWidth 64) (withArrivals g' gs (arrivals u.g gs)) ∧
      arrivals g' gs = arrivals u.g gs ||| u.f.lanes ∧
      let t := finish (arrivedAt s u gs g') u
      (BarriersQuiet t u.g.gang q → exec i s = .next t) ∧ ∀ r, last gs t r → exec i s = .next r
    (u.f.lanes &&& arrivals u.g false = 0 →
      (∀ r, last false (barHeld false) r → exec .bar s = .next r ∧ passes false r) ∧
      ∀ d, RegsOk u.g [(d, 1)] → bara false (.bara d) d) ∧
    (u.f.lanes &&& arrivals u.g gang = 0 →
      (∀ r, last gang (barHeld gang) r → exec .barG s = .next r ∧ passes gang r) ∧
      ∀ d, RegsOk u.g [(d, 1)] → bara gang (.baraG d) d) ∧
    ∀ a, RegsOk u.g [(a, 1)] →
      (done false a → exec (.barw a) s = .next (finish s u)) ∧ (done gang a → exec (.barwG a) s = .next (finish s u)))

/-! ### Traps -/

/-- R407 to R412, R417, R422: a trap that a word raises is taken at the group rung where the context has a vector for its class, else,
or where the group is in trap mode already, at the gang rung, and at the context rung where the gang is in trap mode already. The
handler is the trapping fragment at the vector; the trap registers of its rung take the trap; no other register and no byte of memory
changes.

Where the manual leaves something open, the clauses take the model's choice: log entries 56 and 77. -/
def Obligations.TrapsEnterTheirHandlers : Prop :=
  ∀ s u l q (t₀ : Trap), issueOf s = some u → launchOfGroup s u.g = some l → gangOf s u.g.gang = some q →
    (traceOf s l.part).on = false → t₀.rung = 0 → t₀.byWord = true →
    let t : Trap := { t₀ with pix := if u.f.resumed ∧ u.f.first ≠ unperformed then u.f.pix else t₀.pix }
    let f : Frag := if u.f.resumed then u.f else { u.f with first := unperformed }
    TrapTaken (atTrap s u) { u with g := modFrag u.g u.f.lanes Frag.stops, f := f } l q t (raise s u t₀)

/-- R35, R36, R420, R421, R465: TRAP takes its trap with the operand of its lowest Active lane, BKPT makes class 22 pending, TRACE and
MARK leave their records on the core while the partition's trace is on, and the encodings that no instruction assigns take the
illegal-instruction trap, or the privileged-instruction trap for op 0x3D of a group that is not privileged.

Where the manual leaves something open, the clauses take the model's choice: log entries 16, 66 and 77. -/
def Obligations.TrapAndTraceWordsAct : Prop :=
  ∀ s u l, issueOf s = some u → launchOfGroup s u.g = some l →
    (∀ a (n : Byte), RegsOk u.g [(a, 1)] →
      (execLanes u none = 0 → exec (.trap a n) s = .next (finish s u)) ∧
      (execLanes u none ≠ 0 → exec (.trap a n) s = .next (raise s u
        { cls := 26 + n.toNat, info0 := if 192 ≤ a.toNat then sreg u.g (a.toNat - 192)
            else (vreg u.g a.toNat (lowest (execLanes u none))).setWidth 64 }))) ∧
    (∀ i : Byte, exec (.bkpt i) s = .next (u.passed s
      { u.g with pending := u.g.pending ++ [⟨22, 0, BitVec.ofNat 64 (256 + i.toNat), 0, none, some (u.f.lanes, none)⟩] })) ∧
    (∀ a (i : Byte), RegsOk u.g [(a, 1)] →
      let c := coreOf s (u.key / 128)
      let put := fun (rs : List (List Byte)) => setCore s (u.key / 128) { c with unwritten := c.unwritten ++ rs }
      let lanes := if 192 ≤ a.toNat then [lowest u.f.lanes] else lanesOf u.f.lanes
      let value := fun (x : Nat) => if 192 ≤ a.toNat then (sreg u.g (a.toNat - 192)).toNat else (vreg u.g a.toNat x).toNat
      ((traceOf s l.part).on = false →
        exec (.trace a i) s = .next (finish s u) ∧ exec (.mark i) s = .next (finish s u)) ∧
      ((traceOf s l.part).on = true → c.unwritten.length + lanes.length ≤ 64 → lanes ≠ [] →
        exec (.trace a i) s = .next (finish (put (lanes.map (fun x => traceBytes s u l 2 x i.toNat (value x)))) u)) ∧
      ((traceOf s l.part).on = true → c.unwritten.length < 64 →
        exec (.mark i) s = .next (finish (put [traceBytes s u l 1 (lowest u.f.lanes) i.toNat 0]) u)) ∧
      ((traceOf s l.part).on = true → 64 ≤ c.unwritten.length →
        exec (.mark i) s = .next (finish (setCore s (u.key / 128) { c with lost := c.lost + 1 }) u))) ∧
    ((baseWord u.words).toNat / 2 ^ 26 = 0x3D → recPriv l = false →
      exec .illegalEncoding s = .next (raise s u { cls := 5, info0 := (baseWord u.words).setWidth 64 })) ∧
    (∀ w c, decode u.words = .error (.illegalInstruction w c) → ((baseWord u.words).toNat / 2 ^ 26 ≠ 0x3D ∨ recPriv l = true) →
      exec .illegalEncoding s = .next (raise s u { cls := 0, info0 := w.setWidth 64, info1 := BitVec.ofNat 64 c }))

/-- R418, R421: TRET leaves the group's trap mode: mode 0 at the trapped word, mode 1 after it, mode 2 at the header that its scalar
names, and, for an engine's trap, modes 3 and 4 at the trapped place with the transfer resumed, or completed in error; outside a
handler, before every thread of the handler has come back together, or in a mode that does not suit the trap it is illegal.

Where the manual leaves something open, the clauses take the model's choice: log entries 17 and 46. -/
def Obligations.TrapReturnsLeaveTrapMode : Prop :=
  ∀ a s u q t, issueOf s = some u → gangOf s u.g.gang = some q →
    let words := [Instr.tret, .tretSkip, .tretTo a, .tretEres, .tretEabn]
    let resumed : Frag := ⟨u.f.lanes, t.pc, t.clause, .ready, s.clock, [], t.pix, !t.atHeader, t.first, t.op, s.clock, u.f.rest⟩
    (q.mode = none → u.g.mode = none → ∀ i ∈ words, exec i s = illegal s u 421 1) ∧
    (q.mode = none → u.g.mode = some t → u.f.lanes &&& t.lanes ≠ 0 → t.lanes &&& liveLanes u.g &&& ~~~u.f.lanes ≠ 0 →
      ∀ i ∈ words, exec i s = illegal s u 421 2) ∧
    (InGroupHandler s u q t →
      (t.cls = 14 ∨ t.cls = 16 → ∀ i ∈ [Instr.tret, .tretSkip, .tretTo a], exec i s = illegal s u 421 3) ∧
      (t.cls ≠ 14 → t.cls ≠ 16 → ∀ i ∈ [Instr.tretEres, .tretEabn], exec i s = illegal s u 421 3) ∧
      (t.cls = 22 ∨ t.cls = 23 ∨ t.atHeader = true → exec .tretSkip s = illegal s u 421 3) ∧
      (u.g.rdv = [] → t.op = none →
        (t.cls ≠ 14 → t.cls ≠ 16 →
          (∃ t', exec .tret s = .next t' ∧ LeftTo s t' u resumed) ∧
          (t.cls ≠ 22 → t.cls ≠ 23 → t.atHeader = false →
            let p := afterWords t.clause t.pc t.words
            ∃ t', exec .tretSkip s = .next t' ∧ LeftTo s t' u 
              ⟨u.f.lanes, p.1, p.2, .ready, s.clock, [], 0, false, 0, none, s.clock, u.f.rest⟩) ∧
          (∀ s', TargetsPass (whoGroup s u.key u.g) (stampOf s u.g) s [((scalar u a : Nat) : Int)] s' →
            { s' with tick := s.tick, fabric := { s'.fabric with asked := s.fabric.asked } } = s →
            ∃ t', exec (.tretTo a) s = .next t' ∧
              LeftTo s t' u ⟨u.f.lanes, scalar u a, none, .ready, s.clock, [], 0, false, 0, none, s.clock, u.f.rest⟩)) ∧
        (∀ n w, t.cls = 14 → t.engine = some n → tfind s.transfers n = some w → w.complete = none →
          (∃ t', exec .tretEres s = .next t' ∧ LeftTo s t' u resumed ∧
            tfind t'.transfers n = some { w with halted := false, freezes := false, restored := false,
                                                 renumbered := if w.restored then some s.nextTransfer else w.renumbered } ∧
            t'.nextTransfer = (if w.restored then nextNumber s.nextTransfer else s.nextTransfer)) ∧
          (w.op = none → w.kind ≠ 1 → w.node.isSome = true →
            ∃ t', exec .tretEabn s = .next t' ∧ LeftTo s t' u resumed ∧
              tfind t'.transfers n = some { w with complete := some s.clock, err := true, engine := none, halted := false, freezes := false })))) ∧
    (q.mode = some t → q.handler = some u.key → u.f.lanes &&& t.lanes ≠ 0 → t.lanes &&& liveLanes u.g &&& ~~~u.f.lanes = 0 →
      t.cls ≠ 14 → t.cls ≠ 16 → t.op = none → t.saved = [] →
      ∃ t' g', exec .tret s = .next (checkBarriers ((groupsOf t' u.g.gang).foldl (fun s g => checkRendezvous s g.1) t') u.g.gang) ∧
        gangOf t' u.g.gang = some { q with mode := none, handler := none } ∧ groupOf t' u.key = some g' ∧
        FragBecomes u resumed g' ∧ { g' with frags := u.g.frags } = u.g ∧
        (∀ k, k ≠ u.key → groupOf t' k = groupOf s k) ∧ t'.mem = s.mem)

/-! ### System words -/

/-- R334 to R336: once TLBINV or LPINV has completed, an access of a core that it acts on, every core or those of the issuing gang, uses no
value that a covered entry held before; other translations stay as they were. Until then they hold their fragment while a covered access is under way; another partition's context is a breach.

Where the manual leaves something open, the clauses take the model's choice: log entries 17 and 39. -/
def Obligations.InvalidationWordsRemoveTranslations : Prop :=
  ∀ a b s u l, SystemAt s u l a b →
    let sa := scalar u a
    let sb := scalar u b
    ∀ f ∈ invForms a b,
      let going := ∃ r ∈ s.requests, ∃ c, requestCtx s r = some c ∧ invCovers s l f.2.2 sa c ∧ invOn s u f.2.1 (requestCore s r)
      let own := f.2.2 = 2 ∨ ctxPart s (sa / 256 % 256) = l.part
      (¬ InvOk f.2.2 sa sb → exec f.1 s = illegal s u 334 0) ∧
      (InvOk f.2.2 sa sb → ¬ own → exec f.1 s = breach s u 9) ∧
      (InvOk f.2.2 sa sb → own → going → exec f.1 s = .next (holdUnit s u .word)) ∧
      (InvOk f.2.2 sa sb → own → ¬ going → s.places = [] →
        ∃ t, exec f.1 s = .next t ∧ OnlyPasses s u t ∧ t.mem = s.mem ∧ t.gangs = s.gangs ∧
          ∀ (w : Who) (covers : Option Nat → Bool), w.core < 49 → w.ctx < 256 →
            let hit := invOn s u f.2.1 w.core ∧ invCovers s l f.2.2 sa w.ctx ∧ covers (if f.2.2 = 0 then some sb else none) = true
            (hit → (∀ p ∈ s.mem.past, p.upto < s.mem.order) → ∀ dpa ma n, stillUsable t w (fun _ => covers) dpa ma n = []) ∧
            (¬ hit → sweptAt t w covers = sweptAt s w covers))

/-- R337, R338, R437: ITSET writes a frame's indirection entry, REGEN its regeneration entry and mark, ERRD reads a word of a bank, and
ERRCLR clears one that still reads as expected; operands that R337, R338 or R437 refuse are illegal, and another partition's frame or
core is a breach.

Where the manual leaves something open, the clauses take the model's choice: log entries 17 and 41. -/
def Obligations.TableAndBankWordsAct : Prop :=
  ∀ a b s u l, SystemAt s u l a b →
    let sa := scalar u a
    let sb := scalar u b
    let f := sa / 65536
    let e : Dword := BitVec.ofNat 64 sb
    let own := fun (x : Dword) => IndPart x = l.part ∨ IndPart x = 7
    (sa % 65536 ≠ 0 ∨ 2 ^ 41 ≤ sa → exec (.itset a b) s = illegal s u 337 0 ∧ exec (.regen a b) s = illegal s u 338 0) ∧
    (sa % 65536 = 0 → sa < 2 ^ 41 →
      (∀ n, itsetBad s.mem f e n → (∀ m < n, ¬ itsetBad s.mem f e m) → exec (.itset a b) s = illegal s u 337 n) ∧
      ((∀ n, ¬ itsetBad s.mem f e n) →
        (¬ (own (s.mem.entry f) ∧ own e) → exec (.itset a b) s = breach s u 9) ∧
        (own (s.mem.entry f) → own e → IndMoving (s.mem.entry f) = true → exec (.itset a b) s = .next (holdUnit s u .word)) ∧
        (own (s.mem.entry f) → own e → IndMoving (s.mem.entry f) = false →
          ∃ t, exec (.itset a b) s = .next t ∧ OnlyPasses s u t ∧ t.mem.entry f = e ∧ t.mem.regen = s.mem.regen ∧
            ∀ k, k ≠ f → t.mem.entry k = s.mem.entry k)) ∧
      (sb % 256 ≠ 0 ∨ 2 ^ 56 ≤ sb → exec (.regen a b) s = illegal s u 338 0) ∧
      (sb % 256 = 0 → sb < 2 ^ 56 →
        (IndPart (s.mem.entry f) ≠ l.part → exec (.regen a b) s = breach s u 9) ∧
        (IndPart (s.mem.entry f) = l.part → IndMoving (s.mem.entry f) = true → exec (.regen a b) s = .next (holdUnit s u .word)) ∧
        (IndPart (s.mem.entry f) = l.part → IndMoving (s.mem.entry f) = false →
          ∃ t, exec (.regen a b) s = .next t ∧ OnlyPasses s u t ∧
            tfind t.mem.regen f = (if sb = 0 then none else some (sb, l.ctx)) ∧ IndRegen (t.mem.entry f) = decide (sb ≠ 0) ∧
            IndFrame (t.mem.entry f) = IndFrame (s.mem.entry f) ∧ IndTierX (t.mem.entry f) = IndTierX (s.mem.entry f) ∧
            (∀ k, k ≠ f → t.mem.entry k = s.mem.entry k ∧ tfind t.mem.regen k = tfind s.mem.regen k)))) ∧
    (let unit := sa % 65536
     let mine := unit < 51 ∧ unitPart s unit = l.part
     (unitExists unit = false → exec (.errd a b) s = illegal s u 437 2 ∧ exec (.errclr a b) s = illegal s u 437 2) ∧
     (unitExists unit = true →
       (2 ^ 18 ≤ sa → exec (.errd a b) s = illegal s u 437 3) ∧
       (sa < 2 ^ 18 → unit < 4096 → ¬ mine → exec (.errd a b) s = breach s u 9) ∧
       (sa < 2 ^ 18 → 4096 ≤ unit ∨ mine →
         exec (.errd a b) s = gives s u b ((tget 0 s.banks unit).toNat / 2 ^ (64 * (sa / 65536)) % 2 ^ 64)) ∧
       (2 ^ 16 ≤ sa → exec (.errclr a b) s = illegal s u 437 4) ∧
       (sa < 2 ^ 16 → ¬ mine → exec (.errclr a b) s = breach s u 9) ∧
       (sa < 2 ^ 16 → mine →
         ((tget 0 s.banks unit).toNat % 2 ^ 64 ≠ sb → exec (.errclr a b) s = gives s u b 1) ∧
         ((tget 0 s.banks unit).toNat % 2 ^ 64 = sb → ∃ s', exec (.errclr a b) s = gives s' u b 0 ∧
           { s' with banks := s.banks } = s ∧ (∀ k, k ≠ unit → tget 0 s'.banks k = tget 0 s.banks k) ∧
           (tget 0 s'.banks unit).toNat = 2 ^ 48 * bankSeq (tget 0 s.banks unit)))))

/-- R298, R302, R303, R449: RBLD declares channels dead and sets the rebuild engine's rate and pause, SCRUB sets the patrol's period and
threshold, scrubs a frame and retires a row, and PSET reads PWRSTAT or records its request and waits for the step.

Where the manual leaves something open, the clauses take the model's choice: log entries 17, 43 and 71. -/
def Obligations.MaintenanceWordsAct : Prop :=
  ∀ a b s u l, SystemAt s u l a b →
    let sa := scalar u a
    let sb := scalar u b
    let rb := s.mem.rebuild
    let rate := fun (t : Machine.State) => t.mem.rebuild.rate = if sb = 0 then rb.rate else sb
    let dead := fun (i : Instr) (chans : List Nat) =>
      ∃ t, exec i s = .next t ∧ OnlyPasses s u t ∧ deadNow s t chans true ∧ rate t ∧ t.mem.cells = s.mem.cells
    (sa % 16 ≤ 4 →
      (sa < 2 ^ 13 → sa / 16 < 384 → sb ≤ 25 → dead (.rbldChannel a b) [sa / 16]) ∧
      (sa < 2 ^ 8 → sa / 16 < 12 → sb ≤ 25 → dead .rbldStack ((List.range 32).map (fun i => 32 * (sa / 16) + i))) ∧
      (sa < 16 → 0 < sb → sb ≤ 25 → exec .rbldRate s = .next (finish (withRebuild s { rb with rate := sb }) u)) ∧
      (sa < 16 → sb = 0 → exec .rbldPause s = .next (finish (withRebuild s { rb with paused := true }) u) ∧
        exec .rbldResume s = .next (finish (withRebuild s { rb with paused := false }) u) ∧ exec .rbldRate s = illegal s u 298 4) ∧
      (384 ≤ sa / 16 % 512 → exec (.rbldChannel a b) s = illegal s u 298 2) ∧
      (12 ≤ sa / 16 % 16 → exec .rbldStack s = illegal s u 298 2) ∧
      (16 ≤ sa → ∀ i ∈ [Instr.rbldRate, .rbldPause, .rbldResume], exec i s = illegal s u 298 3)) ∧
    (4 < sa % 16 → ∀ i ∈ [Instr.rbldChannel a b, .rbldStack, .rbldRate, .rbldPause, .rbldResume], exec i s = illegal s u 298 1) ∧
    (4 ≤ sa → ∀ i ∈ [Instr.scrubPeriod a b, .scrubFrame, .scrubRetire, .scrubThresh], exec i s = illegal s u 303 1) ∧
    (sa < 4 →
      (0 < sb → sb ≤ 168 → exec (.scrubPeriod a b) s = .next (finish { s with mem := { s.mem with period := sb } } u)) ∧
      (0 < sb → sb ≤ 65535 → exec .scrubThresh s = .next (finish { s with mem := { s.mem with thresh := sb } } u)) ∧
      (sb = 0 ∨ 168 < sb → exec (.scrubPeriod a b) s = illegal s u 303 2) ∧
      (sb = 0 ∨ 65535 < sb → exec .scrubThresh s = illegal s u 303 2) ∧
      (∀ base, resolveDpa s { whoLaunch (u.key / 128) l with regen := [] } false (sb / 65536 * 65536) = .ok base → s.mem.symErr = [] →
        s.mem.chans = [] → s.mem.inter = [] → exec .scrubFrame s = .next (finish s u)) ∧
      (12582911 < sb / 65536 → exec .scrubRetire s = illegal s u 303 3) ∧
      (sb / 65536 ≤ 12582911 → s.mem.symErr = [] → s.mem.chans = [] → s.mem.inter = [] → ∃ t, exec .scrubRetire s = .next t ∧ OnlyPasses s u t ∧
        let c := (s.mem.interWord (sb / 65536) 0).chan
        (t.mem.chan c).retired = min 255 ((s.mem.chan c).retired + 1) ∧
        (∀ k, k ≠ c → t.mem.chan k = s.mem.chan k) ∧
        let r := tget Row.reset t.mem.rows (rowKey s.mem (sb / 128) 0)
        r.corrected = 0 ∧ r.failed = 0)) ∧
    (32 ≤ sa → exec (.psetReq a b) s = illegal s u 449 2) ∧
    (0 < sa → sa < 16 → exec .pset s = illegal s u 449 3) ∧
    (sa = 0 → exec .pset s = gives s u b (pwrstat s)) ∧
    (16 ≤ sa → sa < 32 →
      let p : Power := { s.power with pktreq := sa % 16 }
      let asked := max p.pinreq (max p.pktreq p.portreq)
      (p.step ≠ asked → exec (.psetReq a b) s = .next (holdUnit { s with power := { p with moving := true } } u
        (.power (b.toNat - 192) u.words.length))) ∧
      (p.step = asked → ∃ s', exec (.psetReq a b) s = gives s' u b (pwrstat s') ∧ s'.power = { p with moving := false } ∧ s'.mem = s.mem ∧
        (NoPset s → { s' with power := s.power, packets := s.packets } = s) ∧ PsetsEnd s s'))

/-- R460, R461, R462, R466, R468, R469: BKSET and WPSET set a comparator from a descriptor and answer their result code, TRCFG starts and
stops the partition's trace, sets its bins and clears its counters, and CAPCTL sets the context's capture area; descriptors that the
rules refuse answer 2 with the unit off.

Where the manual leaves something open, the clauses take the model's choice: log entries 17 and 66. -/
def Obligations.DebugWordsSetTheirUnits : Prop :=
  ∀ a b s u l, SystemAt s u l a b →
    let sa := scalar u a
    let va := scalar u b
    let tr := traceOf s l.part
    (∀ d s', (va = 0 ∧ s' = s ∨ va % 32 = 0 ∧ 0 < va ∧ Reads s u va 32 d s') →
      (sa < 1024 → sa / 16 < 48 → corePart s (sa / 16) = l.part →
        let r := comparatorAfter (codeAt s (sa / 16) (sa % 16)) l.part va (codeDescOk d) d
        ∃ t, exec (.bkset a b) s = gives t u b r.2 ∧ codeAt t (sa / 16) (sa % 16) = r.1 ∧ t.groups = s'.groups ∧ t.mem = s.mem ∧
          ∀ c i, (c, i) ≠ (sa / 16, sa % 16) → codeAt t c i = codeAt s c i) ∧
      (sa < 4096 → sa % 64 < 8 → sa / 64 < 48 → corePart s (sa / 64) = l.part →
        let r := comparatorAfter (watchAt s (sa / 64) (sa % 64)) l.part va (dataDescOk false d) d
        ∃ t, exec (.wpset a b) s = gives t u b r.2 ∧ watchAt t (sa / 64) (sa % 64) = r.1 ∧ t.groups = s'.groups ∧ t.mem = s.mem ∧
          ∀ c i, (c, i) ≠ (sa / 64, sa % 64) → watchAt t c i = watchAt s c i) ∧
      (8 ≤ sa → sa < 40 →
        let r := comparatorAfter (tget Comparator.reset s.cxComps (sa - 8)) l.part va (dataDescOk true d) d
        ∃ t, exec (.wpset a b) s = gives t u b r.2 ∧ tget Comparator.reset t.cxComps (sa - 8) = r.1 ∧ t.groups = s'.groups ∧
          t.cores = s.cores ∧ t.mem = s.mem ∧
          ∀ i, i ≠ sa - 8 → tget Comparator.reset t.cxComps i = tget Comparator.reset s.cxComps i)) ∧
    (1024 ≤ sa → exec (.bkset a b) s = illegal s u 460 2) ∧
    (sa < 1024 → (48 ≤ sa / 16 ∨ corePart s (sa / 16) ≠ l.part) → exec (.bkset a b) s = breach s u 9) ∧
    (4096 ≤ sa → exec (.wpset a b) s = illegal s u 460 2) ∧
    (sa < 4096 → 39 < sa % 64 → exec (.wpset a b) s = illegal s u 460 3) ∧
    (4 ≤ sa → ∀ i ∈ [Instr.trcfgStart, .trcfgBins, .trcfgClear, .trcfgStop, .capctlOff, .capctlCapture, .capctlReplay],
      exec i s = illegal s u 460 2) ∧
    (sa < 4 →
      (va = 0 → exec .trcfgStop s = gives (withTrace s l.part { tr with on := false }) u b 0 ∧
        ∃ t, exec .trcfgClear s = gives t u b 0 ∧ t.groups = s.groups ∧ t.mem = s.mem ∧
          ∀ c < 48, coreOf t c = if corePart s c = l.part then { coreOf s c with bins := [], totals := [], counted := s.clock }
            else coreOf s c) ∧
      (va ≠ 0 → exec .trcfgStop s = illegal s u 466 4 ∧ exec .trcfgClear s = illegal s u 466 3) ∧
      (∀ d s', va % 16 = 0 → Reads s u va 16 d s' →
        let ok := field d 0 8 % 4096 = 0 ∧ 12 ≤ field d 8 1 ∧ field d 8 1 ≤ 30 ∧ zeroBytes d 13 16 = true
        (ok → ∃ t, exec .trcfgStart s = gives t u b 0 ∧
          t.traces = (withTrace s' l.part ⟨true, field d 0 8, field d 8 1, field d 9 4, 0, l.ctx, tr.bins⟩).traces ∧
          t.groups = s'.groups ∧ t.mem = s.mem ∧
          ∀ c < 48, coreOf t c = if corePart s c = l.part then { coreOf s c with sampled := s.clock } else coreOf s c) ∧
        (¬ ok → exec .trcfgStart s = gives (withTrace s' l.part { tr with on := false }) u b 2) ∧
        (sa ≠ 3 → va ≠ 0 → ∀ f ∈ [(Instr.capctlOff, 0), (.capctlCapture, 1), (.capctlReplay, 2)],
          exec f.1 s = if field d 0 8 % 65536 = 0 ∧ field d 8 8 % 4096 = 0
            then gives (withCapture s' l.ctx f.2 (field d 0 8) (field d 8 8)) u b 0 else gives (withCapture s' l.ctx 0 0 0) u b 2)) ∧
      (∀ d s', va % 16 = 0 → Reads s u va 1024 d s' →
        exec .trcfgBins s = gives (withTrace s' l.part
          { tr with bins := (List.range 64).map (fun i => (field d (16 * i) 8, field d (16 * i + 8) 8)) }) u b 0) ∧
      (sa ≠ 3 → va = 0 → ∀ i ∈ [Instr.capctlOff, .capctlCapture, .capctlReplay], exec i s = gives (withCapture s l.ctx 0 0 0) u b 0))

/-- R393, R394: LAUNCH reads a launch record, journals it and answers its sequence; a record that R385 refuses, or that asks for a
privilege that its launch has not, is journalled with status 1 and freezes the context. R395, R396: QPOST copies a packet into its
queue's ring and answers 0, or answers why it did not; QSTAT answers HEAD, TAIL and STATE, or all ones for a queue out of reach.

Where the manual leaves something open, the clauses take the model's choice: log entries 48 and 53. -/
def Obligations.PostingWordsAct : Prop :=
  ∀ d a b s u l, issueOf s = some u → launchOfGroup s u.g = some l →
    let addr := scalar u a
    let journal := journalOf s l.part
    let entry := fun (status : Nat) => leBytes 8 journal.nextSeq ++ leBytes 4 (65536 + 2 ^ 17 * l.ctx) ++ leBytes 4 0 ++ leBytes 1 1 ++
      leBytes 1 status ++ leBytes 6 0 ++ leBytes 8 s.clock
    let journalled := fun (t : Machine.State) (status : Nat) => (journalOf t l.part).nextSeq = journal.nextSeq + 1 ∧
      tfind (journalOf t l.part).entries ((journal.nextSeq - 1) % 32768) = some (entry status)
    (addr % 256 ≠ 0 → exec (.launch d a) s = misalignedWord s u addr) ∧
    (∀ bs s', addr % 256 = 0 → Reads s u addr 256 bs s' →
      let mayPriv := (field bs 0x33 1).testBit 2 = false ∨ recPriv l = true
      (launchRefused s' bs l.ctx l.part = none → mayPriv →
        ∃ t x, exec (.launch d a) s = gives t u d journal.nextSeq ∧ journalled t 0 ∧ t.groups = s'.groups ∧ t.gangs = s.gangs ∧
          launchOf t s.nextUid = some x ∧ x.record = bs ∧ x.ctx = l.ctx ∧ x.part = l.part ∧ x.seq = journal.nextSeq ∧ x.queue = 65536 ∧
          x.admitted = false ∧ (∀ k, k ≠ s.nextUid → launchOf t k = launchOf s k) ∧ t.mem.cells = s.mem.cells) ∧
      (∀ n, launchRefused s' bs l.ctx l.part = some (.byte n) ∨ launchRefused s' bs l.ctx l.part = none ∧ ¬ mayPriv ∧ n = 0x33 →
        ∃ t, exec (.launch d a) s = breach t u (256 + n) ∧ journalled t 1 ∧ t.launches = s.launches ∧ t.groups = s'.groups)) ∧
    (let q := scalar u a
     let x := queueOf s q
     let va := scalar u b
     (65536 ≤ q → exec (.qpost d a b) s = illegal s u 395 0 ∧ exec (.qstat d a) s = illegal s u 395 0) ∧
     (q < 65536 → Plain s u →
       (QueueReached s l q → exec (.qstat d a) s = gives s u d (queueSnapshot x)) ∧
       (¬ QueueReached s l q → exec (.qstat d a) s = gives s u d (2 ^ 64 - 1))) ∧
     (q < 65536 → va % 16 ≠ 0 → exec (.qpost d a b) s = misalignedWord s u va) ∧
     (q < 65536 → va % 16 = 0 → QueueForeign s l q → exec (.qpost d a b) s = breach s u 9) ∧
     (q < 65536 → va % 16 = 0 → ¬ QueueForeign s l q → ¬ QueueReached s l q → exec (.qpost d a b) s = gives s u d 3) ∧
     (q < 65536 → va % 16 = 0 → QueueReached s l q → ∀ head s₁, Reads s u va 16 head s₁ →
       let n := field head 2 2
       ((n < 16 ∨ 256 < n ∨ n % 16 ≠ 0) → exec (.qpost d a b) s = gives s₁ u d 4) ∧
       (16 ≤ n → n ≤ 256 → n % 16 = 0 → ∀ bs s₂, Reads s₁ u va n bs s₂ →
         (x.state ≠ 1 → exec (.qpost d a b) s = gives s₂ u d 2) ∧
         (x.state = 1 → 2 ^ x.log2n ≤ (x.tail - x.head).toNat → exec (.qpost d a b) s = gives s₂ u d 1) ∧
         (x.state = 1 → (x.tail - x.head).toNat < 2 ^ x.log2n → ∀ s₃,
           deviceStoreAll s₂ ⟨u.key / 128, x.ctx.toNat, ctxPart s₂ x.ctx.toNat, recPriv l, [], none⟩
             (x.rbase.toNat + 256 * (x.tail.toNat % 2 ^ x.log2n)) (pieces16 bs) = (s₃, .ok ()) →
           exec (.qpost d a b) s = gives (setQueue s₃ q { x with tail := x.tail + 1 }) u d 0))))

/-- R398, R399, R404, R405: QCTL creates a queue from its descriptor, or destroys one, with its unfinished launches under command 3,
and UNFREEZE releases the agent that it names; fields that the rules refuse are illegal, and another partition's queue or agent is a
breach.

Where the manual leaves something open, the clauses take the model's choice: log entries 17, 51 and 52. -/
def Obligations.QueueWordsAct : Prop :=
  ∀ a b s u l, SystemAt s u l a b →
    let sa := scalar u a
    let sb := scalar u b
    let q := sa % 65536
    let words := [Instr.qctlCreate a b, .qctlDestroy, .qctlDestroyKill]
    (2 ^ 18 ≤ sa → ∀ i ∈ words, exec i s = illegal s u 398 0) ∧
    (sa < 2 ^ 18 → QueueForeign s l q → ∀ i ∈ words, exec i s = breach s u 9) ∧
    (sa < 2 ^ 18 → ¬ QueueForeign s l q →
      (sa / 65536 % 2 = 0 → exec (.qctlCreate a b) s = .next (finish s u)) ∧
      (∀ d s', sa / 65536 % 2 = 1 → sb % 16 = 0 → Reads s u sb 16 d s' →
        (field d 1 1 ≠ l.ctx → exec (.qctlCreate a b) s = illegal s' u 398 0) ∧
        (field d 1 1 = l.ctx → (queueOf s q).state ≠ 0 → exec (.qctlCreate a b) s = .next (finish s' u)) ∧
        (field d 1 1 = l.ctx → (queueOf s q).state = 0 → ctxValid s' l.ctx = true → field d 8 8 % 256 = 0 →
          ∃ t, exec (.qctlCreate a b) s = .next (finish t u) ∧ queueOf t q = { queueTaken d with wait := (queueOf s q).wait } ∧
            (∀ k, k ≠ q → queueOf t k = queueOf s k) ∧ t.groups = s'.groups ∧ t.mem = s.mem) ∧
        (field d 1 1 = l.ctx → (queueOf s q).state = 0 → ctxValid s' l.ctx = false →
          ∃ t, exec (.qctlCreate a b) s = breach t u (256 + 1) ∧ queueOf t q = queueOf s q ∧ t.groups = s'.groups) ∧
        (field d 1 1 = l.ctx → (queueOf s q).state = 0 → ctxValid s' l.ctx = true → field d 8 8 % 256 ≠ 0 →
          ∃ t, exec (.qctlCreate a b) s = breach t u (256 + 8) ∧ queueOf t q = queueOf s q ∧ t.groups = s'.groups)) ∧
      ∀ f ∈ [(Instr.qctlDestroy, false), (.qctlDestroyKill, true)],
        (sb ≠ 0 → exec f.1 s = illegal s u 398 0) ∧
        (sb = 0 → (queueOf s q).state ≠ 1 → (queueOf s q).state ≠ 2 → exec f.1 s = .next (finish s u)) ∧
        (sb = 0 → ((queueOf s q).state = 1 ∨ (queueOf s q).state = 2) →
          ∃ t, exec f.1 s = .next (finish t u) ∧ QueueGoing s t q f.2 ∧ (f.2 = false → t.groups = s.groups ∧ t.gangs = s.gangs))) ∧
    (¬ AgentOk sa → exec (.unfreeze a) s = illegal s u 405 0) ∧
    (AgentOk sa → AgentForeign s l sa → exec (.unfreeze a) s = breach s u 9) ∧
    (AgentOk sa → ¬ AgentForeign s l sa →
      ∃ t, exec (.unfreeze a) s = .next (finish t u) ∧ AgentReleased s t sa ∧ t.groups = s.groups)

/-- R198, R200, R423 to R429, R455: SPMIG writes back a gang's dirty frames, and in mode 1 releases its unpinned ones; CTXSAVE asks every
group of a gang to stop and answers once the gang's save has ended; CTXLOAD restores a slot; HSTAKE asks for the takeover of a core;
CKGO starts the partition's checkpoint and answers once it has ended. Values that the rules refuse are illegal, and another
partition's gang or core is a breach.

Where the manual leaves something open, the clauses take the model's choice: log entries 17, 59, 60 and 70. -/
def Obligations.GangWordsAct : Prop :=
  ∀ a b s u l, SystemAt s u l a b →
    let sa := scalar u a
    let sb := scalar u b
    let me := askerOf s u
    (namedGang s sa = none → u.f.hold ≠ .word →
      exec (.spmigClean a b) s = illegal s u 200 1 ∧ exec .spmigEvict s = illegal s u 200 1 ∧
      (resultOf s u = none → s.saves = [] →
        exec (.ctxsave a b) s = illegal s u 200 1 ∧ exec .ctxsaveReplace s = illegal s u 200 1)) ∧
    (∀ uid q x, namedGang s sa = some (uid, q, x) → sa < 2 ^ 13 →
      (x.part ≠ l.part → exec (.spmigClean a b) s = illegal s u 200 2 ∧ exec .spmigEvict s = illegal s u 200 2) ∧
      (x.part = l.part → 1 < sb → exec (.spmigClean a b) s = illegal s u 200 4) ∧
      (x.part = l.part → ∀ s', cleanPages uid (pagesOf s uid) s = (s', true) →
        (sb = 0 → exec (.spmigClean a b) s = .next (finish s' u)) ∧
        (sb = 1 → exec .spmigEvict s = .next (finish (evictPages s' uid) u))) ∧
      (x.part = l.part → (∀ p, pageState q p = 2 → PageDirty (q.page p) = false) → q.fills = [] →
        s.places = [] → q.leaving = [] →
        (sb = 0 → exec (.spmigClean a b) s = .next (finish s u)) ∧
        (sb = 1 → ∃ t q', exec .spmigEvict s = .next (finish t u) ∧ gangOf t uid = some q' ∧
          ∀ p, pageState q p = 2 → PagePin (q.page p) = 0 → PageRes (q'.page p) = false ∨ firstLiveGroup s uid = none ∨
            ∃ key g x, groupOf t key = some g ∧ x ∈ g.pending ∧ x.cls = 11)) ∧
      (resultOf s u = none → s.saves = [] →
        (1 < sb → exec (.ctxsave a b) s = illegal s u 424 0) ∧
        (sb ≤ 1 → x.part ≠ l.part → exec (.ctxsave a b) s = breach s u 9 ∧ exec .ctxsaveReplace s = breach s u 9) ∧
        (sb ≤ 1 → x.part = l.part → inTrapMode s uid q = true →
          exec (.ctxsave a b) s = gives s u b 4 ∧ exec .ctxsaveReplace s = gives s u b 4) ∧
        (sb ≤ 1 → x.part = l.part → inTrapMode s uid q = false → (saveArea s x.ctx).base = 0 →
          exec (.ctxsave a b) s = gives s u b 1 ∧ exec .ctxsaveReplace s = gives s u b 1) ∧
        (sb ≤ 1 → x.part = l.part → inTrapMode s uid q = false → (saveArea s x.ctx).base ≠ 0 →
          ∀ j s', freeSlot s (whoCtx s x.ctx true) (saveArea s x.ctx) [] (List.range (saveArea s x.ctx).n) = (s', .slot j) →
          { s' with tick := s.tick, fabric := { s'.fabric with asked := s.fabric.asked } } = s →
          ∃ t, exec (.ctxsave a b) s = .next (holdUnit t u .word) ∧ exec .ctxsaveReplace s = .next (holdUnit t u .word) ∧
            AskedToStop s t uid ∧ t.saves = [⟨uid, j, sb, s.clock, some me, none⟩] ∧ t.mem = s.mem))) ∧
    (∀ v, resultOf s u = some v →
      exec (.ctxsave a b) s = gives (withoutResult s u) u b v.toNat ∧ exec .ctxsaveReplace s = gives (withoutResult s u) u b v.toNat ∧
      exec (.ckgo a b) s = gives (withoutResult s u) u b v.toNat) ∧
    (2 ^ 16 ≤ sa → exec (.ctxload a b) s = illegal s u 428 0) ∧
    (sa < 2 ^ 16 → (saveArea s l.ctx).n ≤ sa → exec (.ctxload a b) s = illegal s u 428 1) ∧
    (sa < 2 ^ 16 → sa < (saveArea s l.ctx).n → ∀ head s₁,
      deviceRead s (whoCtx s l.ctx true) ((saveArea s l.ctx).slot sa) 0x400 = (s₁, .ok head) →
      (field head 0 4 ≠ 2 → exec (.ctxload a b) s = illegal s₁ u 428 2) ∧
      (∀ lid x t, field head 0 4 = 2 → sb = 64 → unitsOf (field head 0x10 1) (field head 0x11 1) ≠ [] →
        s₁.launches.find? (fun y => y.2.ctx == l.ctx && y.2.seq == field head 8 8 && headerRecord head y.2.record == y.2.record &&
          y.2.saved.contains (field head 4 4, sa)) = some (lid, x) →
        restoreGang s₁ lid x (field head 4 4) sa (unitsOf (field head 0x10 1) (field head 0x11 1)) = (t, .done) →
        groupOf t u.key = some u.g → exec (.ctxload a b) s = gives t u b (65536 * sa))) ∧
    (let die := (s.dies[sa / 16]?).getD Die.reset
     (64 ≤ sa → u.f.hold ≠ .word → exec (.hstake a b) s = illegal s u 429 0) ∧
     (u.f.hold = .word → (coreOf s (sa % 64)).stopBy = none →
       exec (.hstake a b) s = gives s u b (if coreLive s (sa % 64) then 0 else 1)) ∧
     (u.f.hold = .word → (coreOf s (sa % 64)).stopBy ≠ none → exec (.hstake a b) s = .next (holdUnit s u .word)) ∧
     (sa < 64 → u.f.hold ≠ .word → (coreOf s sa).stopBy = none →
       (sa < 48 → corePart s sa ≠ l.part → exec (.hstake a b) s = breach s u 9) ∧
       ((48 ≤ sa ∨ corePart s sa = l.part ∧ coreLive s sa = false) → exec (.hstake a b) s = gives s u b 2) ∧
       (sa < 48 → corePart s sa = l.part → coreLive s sa = true → die.spused = true →
         ∃ t, exec (.hstake a b) s = gives t u b 1 ∧ coreLive t sa = false ∧ t.groups = s.groups) ∧
       (sa < 48 → corePart s sa = l.part → coreLive s sa = true → die.spused = false →
         ∃ t, exec (.hstake a b) s = .next (holdUnit t u .word) ∧ (coreOf t sa).stopBy = some s.clock ∧ t.dies = s.dies ∧
           ∀ k g, groupOf s k = some g → (∃ q, gangOf s g.gang = some q ∧ sa ∈ q.cores) →
             groupOf t k = some { g with stopping := true }))) ∧
    (resultOf s u = none → (checkpointOf s l.part).holder ≠ some me →
      (sa % 16 ≠ 0 → exec (.ckgo a b) s = misalignedWord s u sa) ∧
      (∀ bs s', sa % 16 = 0 → Reads s u sa 48 bs s' →
        let body := leBytes 16 0 ++ bs
        (ckRunning s l.part = true → exec (.ckgo a b) s = gives s' u b 2) ∧
        (ckRunning s l.part = false → checkpointBad body ≠ none → exec (.ckgo a b) s = gives s' u b 1) ∧
        (ckRunning s l.part = false → checkpointBad body = none → ∀ t,
          startCheckpoint s' l.part { Checkpoint.reset with holder := some me, body := body, ctx := l.ctx, priv := true } = (t, .started) →
          exec (.ckgo a b) s = .next (holdUnit t u .word) ∧ (checkpointOf t l.part).state = 1 ∧
            (checkpointOf t l.part).holder = some me ∧ (checkpointOf t l.part).units = 0))) ∧
    (resultOf s u = none → (checkpointOf s l.part).holder = some me → exec (.ckgo a b) s = .next (holdUnit s u .word))

/-! ### Headers and clocks -/

/-- R19, R20, R26, R162, R404, R410, R416: a header that is no header takes the illegal-clause trap; one with S = 1 sets %safe, stops
for a stop that has been asked for or a frozen context, and takes a pending trap; otherwise the fragment enters the clause once every
counter that WAIT selects reads 0, and waits until then.

Where the manual leaves something open, the clauses take the model's choice: log entries 57, 66 and 77. -/
def Obligations.HeadersEnterTheirClauses : Prop :=
  ∀ s u l q h, HeaderAt s u l q h →
    let now := fun (t : Machine.State) (g' : Group) (f' : Frag) => exec .clauseHeader s = .next t ∧ groupOf t u.key = some g' ∧
      (∀ f, f ∈ g'.frags ↔ f = f' ∨ (f ∈ u.g.frags ∧ f.lanes ≠ u.f.lanes)) ∧
      { g' with frags := u.g.frags, batches := u.g.batches, safe := u.g.safe } = u.g ∧
      (∀ k, k ≠ u.key → groupOf t k = groupOf s k) ∧ t.mem = s.mem ∧ t.gangs = s.gangs
    let age := if h.getLsbD 3 then s.clock else u.f.age
    let inside : Frag := { u.f with pc := u.f.pc + 4, clause := some ⟨u.f.pc, h⟩, hold := .ready, since := s.clock, probe := [], age := age }
    let enters := (WaitMet u.g h → ∃ t g', now t g' inside) ∧
      (¬ WaitMet u.g h → ∃ t g', now t g' ({ u.f with age := age }.holding (.clauseWait (h.extractLsb' 13 12).toNat) s.clock))
    let safe := fun (g' : Group) => ∀ x, lane u.f.lanes x = true →
      tget 0 g'.safe x = BitVec.ofNat 32 (codePos s (some l) u.f.pc).1
    (hdrOk h = false → ∃ s' u', groupOf s' u.key = some u'.g ∧ u'.key = u.key ∧ u'.f = u.f ∧ u'.words = u.words ∧
      exec .clauseHeader s = .next (raise s' u' { cls := 1, info0 := h.setWidth 64, atHeader := true })) ∧
    (hdrOk h = true → h.getLsbD 4 = false → enters) ∧
    (hdrOk h = true → h.getLsbD 4 = true → u.g.rdv = [] →
      (u.g.stopping = true → (∀ c ∈ (coreOf s (u.key / 128)).code, c.2.en = false) →
        ∃ t g', now t g' (u.f.holding .stopped s.clock) ∧ safe g') ∧
      (u.g.stopping = false → ((ctxOf s l.ctx).frozen = true ∨ q.halted ≠ none) → (∀ c ∈ (coreOf s (u.key / 128)).code, c.2.en = false) →
        ∃ t g', now t g' (u.f.holding .frozen s.clock) ∧ safe g') ∧
      (u.g.stopping = false → (ctxOf s l.ctx).frozen = false → q.halted = none → (∀ c ∈ (coreOf s (u.key / 128)).code, c.2.en = false) →
        ((∀ p ∈ u.g.pending, ¬ TakenAt u.f p) → enters) ∧
        (∀ p, u.g.pending = [p] → TakenAt u.f p → q.mode = none → u.g.mode = none → (ctxOf s l.ctx).attach = false →
          ∃ s' g', groupOf s' u.key = some g' ∧ g'.pending = [] ∧ safe g' ∧ s'.mem = s.mem ∧
            exec .clauseHeader s = .next (takeTrap s' u.key u.f.lanes 1
              ⟨p.cls, if p.cls = 22 ∧ 256 ≤ p.info1.toNat then BitVec.ofNat 64 (codePos s (some l) u.f.pc).1 else p.info0, p.info1, 0, true,
                p.engine, p.rung, true, false⟩))))

/-- R25, R60, R61, R65, R69, R159, R192, R414, R415: SLEEP and YIELD end; spin-lowering lapses; the team's urgent group is chosen
again; a rendezvous, a wait for registers, a held word, a wait for a frame and a rung's service that have run out of their clocks take
their trap, and none does before; a counted load writes what it owes and its counter goes down, as does a store's.

Where the manual leaves something open, the clauses take the model's choice: log entries 3, 22, 23, 28 and 56. -/
def Obligations.ClocksAndCountersMoveOn : Prop :=
  ∀ s : Machine.State,
    let key := s.input.key
    let sub := s.input.sub
    (∀ g f, groupOf s key = some g → fragAt g sub = some f →
      (∀ least most, f.hold = .sleep least most →
        exec .sleepExpire s = .next (if s.clock < least then s else readied s key g f)) ∧
      exec .yieldExpire s = .next (if f.rest = 0 ∨ s.clock < f.rest then s
        else setGroup s key (modFrag g f.lanes (fun f => { f with rest := 0, age := s.clock }))) ∧
      (TimedHold f.hold → FreeToGo s key g f → s.clock < f.since + 105000 → exec .holdTimeout s = .next s) ∧
      (TimedHold f.hold → FreeToGo s key g f → f.since + 105000 ≤ s.clock → ∀ s' ws, heldWords s key g f = (s', ws) →
        exec .holdTimeout s = .next (trapHeld s' key f ws.length
          { cls := 24, info0 := (if f.clause.isSome then baseWord ws else (ws.head?).getD 0).setWidth 64 })) ∧
      (∀ sva since, f.hold = .noFrame sva since →
        (s.clock < since + 16384 ∨ g.stopping = true → exec .scratchpadExhaustion s = .next s) ∧
        (since + 16384 ≤ s.clock → g.stopping = false → ∀ s' ws, heldWords s key g f = (s', ws) →
          exec .scratchpadExhaustion s = .next (trapHeld s' key f ws.length
            { cls := 12, info0 := BitVec.ofNat 64 sva, info1 := BitVec.ofNat 64 (exhaustedLane g f ws), rung := 1 })))) ∧
    (∀ g, groupOf s key = some g →
      (∃ g', exec .spinLowerExpire s = .next (setGroup s key g') ∧ { g' with spins := g.spins } = g ∧
        ∀ x ∈ g.spins, ∃ y ∈ g'.spins, { y with takings := x.takings, lowered := x.lowered } = x ∧
          (∀ c, x.lane = sub → x.lowered = some c → c + 4096 ≤ s.clock → y.lowered = none ∧ y.takings = 0) ∧
          ((x.lane ≠ sub ∨ ∀ c, x.lowered = some c → s.clock < c + 4096) → y = x)) ∧
      ∀ r, g.rdv.find? (fun r => r.addr == sub) = some r →
        (s.clock < r.since + 1048576 → exec .rendezvousBudgetExpire s = .next s) ∧
        (∀ q, r.since + 1048576 ≤ s.clock → gangOf s g.gang = some q → g.mode = none → q.mode = none → q.halted = none →
          q.climbed = none → ∃ s' g', groupOf s' key = some g' ∧ (∀ x, x ∈ g'.rdv ↔ x ∈ g.rdv ∧ x.addr ≠ sub) ∧ s'.mem = s.mem ∧
            exec .rendezvousBudgetExpire s = .next (takeTrap s' key r.arrived r.words
              { cls := 7, info0 := BitVec.ofNat 64 r.addr, info1 := r.arrived }))) ∧
    (∀ q team, gangOf s key = some q → q.teams[sub]? = some team →
      (∀ c, team.marked = some c → s.clock < c + 256 → exec .urgentRecompute s = .next s) ∧
      ((∀ c, team.marked = some c → c + 256 ≤ s.clock) → ∃ t x at', exec .urgentRecompute s = .next t ∧
        gangOf t key = some { q with teams := q.teams.set sub { team with urgent := x, marked := some at' } } ∧
        t.groups = s.groups ∧ (team.marked = none → at' = s.clock) ∧
        (∀ c, team.marked = some c → at' ≤ s.clock ∧ s.clock < at' + 256 ∧ ∃ n, at' = c + 256 * n) ∧
        let late := fun (y : Nat × Group) => y.2.team = sub ∧ groupArrived y.2 false = false
        (x = none → ∀ y ∈ groupsOf s key, ¬ late y) ∧
        ∀ n, x = some n → ∃ y ∈ groupsOf s key, late y ∧ y.2.gid = n ∧
          ∀ z ∈ groupsOf s key, late z → y.2.issued < z.2.issued ∨ (y.2.issued = z.2.issued ∧ n ≤ z.2.gid))) ∧
    (∀ q, gangOf s key = some q →
      (gangStarved s key = false → exec .allocationDeadlock s = .next (setGang s key { q with deadlock := none })) ∧
      (gangStarved s key = true →
        (q.deadlock = none → exec .allocationDeadlock s = .next (setGang s key { q with deadlock := some s.clock })) ∧
        (∀ c, q.deadlock = some c → s.clock < c + 16384 → exec .allocationDeadlock s = .next s) ∧
        (∀ c k g f n d words, q.deadlock = some c → c + 16384 ≤ s.clock → (groupsOf s key).head? = some (k, g) →
          g.frags.head? = some f → f.hold = .ralloc n d words →
          ∃ s', exec .allocationDeadlock s = .next (takeTrap s' k f.lanes words
              { cls := 18, info0 := BitVec.ofNat 64 n, info1 := BitVec.ofNat 64 g.held, rung := 1 }) ∧
            gangOf s' key = some { q with deadlock := none } ∧ s'.mem = s.mem ∧
            ∀ x ∈ q.cores, ∀ r ∈ (coreOf s' x).requests, ∀ y ∈ groupsOf s key, r.2.1 ≠ y.1))) ∧
    (∀ v, serviceAt s key sub = some v →
      let gone := withoutService s key sub
      let trap := fun (rung : Nat) => ({ cls := 25, info0 := BitVec.ofNat 64 v.cls, info1 := BitVec.ofNat 64 rung } : Trap)
      (s.clock < v.since + rungClocks key → exec .serviceTimeout s = .next s) ∧
      (v.since + rungClocks key ≤ s.clock →
        (∀ g q, key = 0 → groupOf s sub = some g → gangOf s g.gang = some q → exec .serviceTimeout s =
          .next (if DebugHalted q then s else takeGangTrap gone g.gang (trap 0))) ∧
        (∀ q ctx, key = 1 → gangOf s sub = some q → gangCtx s sub = some ctx → exec .serviceTimeout s =
          .next (if DebugHalted q then s else toContext gone sub ctx q.index ⟨25, (trap 1).info0, (trap 1).info1, 2, none, none⟩)) ∧
        (∀ q, key = 2 → gangOf s (sub / 256) = some q → exec .serviceTimeout s =
          .next (if DebugHalted q then s else { gone with services := gone.services ++ [{ v with rung := 3, since := s.clock, cls := 25 }] })) ∧
        (2 < key → ∃ t, exec .serviceTimeout s = .next t ∧ t.gangs = [] ∧ t.ctxs = [] ∧ t.cores = [] ∧
          t.warm = ⟨min 255 (s.warm.count + 1), 25, sub % 256, BitVec.ofNat 16 v.unit⟩))) ∧
    (∀ v, s.services.filter (fun v => v.rung = 3) = [v] →
      let later : Machine.State := { s with tick := s.tick + 1 }
      settleFirmware s = later ∨
        ∀ part, ctxPart s (v.key % 256) = part → ∃ t, settleFirmware s = t ∧ v ∉ t.services ∧
          (∀ k, gangPart s k = some part → gangOf t k = none) ∧
          ∀ n, (queueOf s n).state = 1 → ctxPart s (queueOf s n).ctx.toNat = part → (queueOf t n).state = 2) ∧
    (∀ o g k, tfind s.ops key = some o → groupOf s o.group = some g → o.counter = some k → o.issued = true → o.waits = 0 →
      k < g.counters.length → (counterOf g k).queue = [(key, false)] → 0 < (counterOf g k).val →
      (∀ j, j ≠ k → ∀ x ∈ (counterOf g j).queue, x.1 ≠ key) →
      let counted := fun (t : Machine.State) (g' : Group) => groupOf t o.group = some g' ∧ tfind t.ops key = none ∧
        counterOf g' k = { counterOf g k with val := (counterOf g k).val - 1, err := (counterOf g k).err || o.err, queue := [] } ∧
        (∀ j, j ≠ k → counterOf g' j = counterOf g j) ∧ t.mem = s.mem
      (o.load = true → (∀ w ∈ o.owed, w.group = o.group ∧ w.lane ≤ 64) → (o.owed.Pairwise (fun x y => (x.lane, x.reg) ≠ (y.lane, y.reg))) →
        ∃ t g', exec .countedLoadComplete s = .next t ∧ counted t g' ∧
          (∀ w ∈ o.owed, w.lane = 64 → sreg g' w.reg = w.value) ∧
          (∀ w ∈ o.owed, w.lane < 64 → w.reg < 8 * g.held → vreg g' w.reg w.lane = w.value.setWidth 32) ∧
          (∀ r x, x < 64 → (∀ w ∈ o.owed, w.lane = x → w.reg ≠ r) → vreg g' r x = vreg g r x)) ∧
      (o.load = false → (∀ r ∈ s.requests, r.group ≠ o.group) →
        ∃ t g', exec .storePerformed s = .next t ∧ counted t g' ∧ { g' with counters := g.counters } = g))

/-- R403 to R405, R412, R464, R379, R381, R399: what a host function's register writes do to queues, contexts, gangs and frozen agents
when they go through; a function that is frozen or unbound, and one outside its set, which freezes, is answered Unsupported Request.

Where the manual leaves something open, the clauses take the model's choice: log entries 3, 52, 59 and 64. -/
def Obligations.HostRegistersReachTheirPartition : Prop :=
  ∀ s : Machine.State,
    let k := s.input.key
    let fn := s.input.fn
    (∀ f ∈ hostForms s,
      (PortShut s f.2.2 → exec f.1 s = sends s (unsupported s f.2.1)) ∧
      (PortBreach s f.2.2 → ∃ t g, exec f.1 s = .next t ∧ t.funcs[fn]? = some g ∧ g.frozen = true ∧
        (∃ xs, t.sent = s.sent ++ xs ++ [unsupported s f.2.1]) ∧
        t.queues = s.queues ∧ t.gangs = s.gangs ∧ t.groups = s.groups ∧ t.ctxs = s.ctxs ∧ t.dies = s.dies ∧ t.mem = s.mem)) ∧
    (k < 65536 → PortOpen s (some (ctxPart s (queueOf s k).ctx.toNat)) →
      let x := queueOf s k
      (x.state ≠ 0 → exec .qcfgCreate s = .next s) ∧
      (x.state = 0 → ctxValid s x.ctx.toNat = true → x.rbase.toNat % 256 = 0 →
        exec .qcfgCreate s = .next (setQueue s k { x with state := 1, head := 0, tail := 0, kill := false })) ∧
      (x.state = 0 → (ctxValid s x.ctx.toNat = false ∨ x.rbase.toNat % 256 ≠ 0) →
        ∃ t, exec .qcfgCreate s = .next t ∧ t.queues = s.queues ∧ t.groups = s.groups) ∧
      (∀ f ∈ [(Instr.qcfgDestroy, false), (.qcfgDestroyKill, true)],
        (x.state ≠ 1 → x.state ≠ 2 → exec f.1 s = .next s) ∧
        ((x.state = 1 ∨ x.state = 2) → ∃ t, exec f.1 s = .next t ∧ QueueGoing s t k f.2)) ∧
      (x.state ≠ 1 → exec .doorbell s = .next s) ∧
      (x.state = 1 →
        let y : Queue := { x with tail := s.input.value.setWidth 32 }
        ((y.tail - y.head).toNat ≤ 2 ^ x.log2n → exec .doorbell s = .next (setQueue s k y)) ∧
        (2 ^ x.log2n < (y.tail - y.head).toNat →
          ∃ t, exec .doorbell s = .next t ∧ queueOf t k = { y with state := 2 } ∧ ∀ n, n ≠ k → queueOf t n = queueOf s n))) ∧
    (PortOpen s none →
      (¬ AgentOk s.input.value.toNat → exec .frzcmd s = .next s) ∧
      (AgentOk s.input.value.toNat → ∃ t, exec .frzcmd s = .next t ∧ AgentReleased s t s.input.value.toNat ∧ t.groups = s.groups)) ∧
    (k < 256 → PortOpen s (some (ctxPart s k)) →
      let c := ctxOf s k
      (∃ t, exec .ctxcmdKillAll s = .next t ∧ (∀ n, gangCtx s n = some k → gangOf t n = none) ∧ (ctxOf t k).pend = false) ∧
      (c.pend = false → exec .ctxcmdKillHeld s = .next s ∧ exec .ctxcmdRelease s = .next s) ∧
      (c.pend = true → (∃ t, exec .ctxcmdKillHeld s = .next t ∧ (∀ uid, c.held = some uid → gangOf t uid = none) ∧
          (c.more = [] → (ctxOf t k).pend = false) ∧
          ∀ cls index uid rest, c.more = (cls, index, uid) :: rest → (∀ x ∈ c.more, c.held ≠ some x.2.2) →
            (ctxOf t k).pend = true ∧ (ctxOf t k).cls = cls ∧ (ctxOf t k).gang = index ∧ (ctxOf t k).held = some uid) ∧
        (c.frozen = true → ∃ t, exec .ctxcmdRelease s = .next t ∧ AgentReleased s t (1 + 65536 * k))) ∧
      (c.halted = none → exec .dbgctlResumeDiscard s = .next s ∧ exec .dbgctlResumeDeliver s = .next s) ∧
      (∀ uid q h, c.halted = some uid → gangOf s uid = some q → q.halted = some h →
        (h.told = false → exec .dbgctlResumeDiscard s = .next s ∧ exec .dbgctlResumeDeliver s = .next s) ∧
        (h.told = true → ∃ s', (ctxOf s' k).halted = none ∧ gangOf s' uid = some { q with halted := none } ∧
          (∀ n g, groupOf s n = some g → ∃ g', groupOf s' n = some g' ∧ { g' with rdv := g.rdv } = g) ∧
          exec .dbgctlResumeDiscard s = .next s' ∧
          let t : Trap := ⟨h.trap.cls, h.trap.info0, h.trap.info1, 0, true, h.trap.engine, 0, true, false⟩
          (h.key = none → exec .dbgctlResumeDeliver s = .next (takeGangTrap s' uid t)) ∧
          ∀ n g f, h.key = some n → groupOf s n = some g → fragAt g h.lane = some f →
            exec .dbgctlResumeDeliver s = .next (takeTrap s' n f.lanes 1 t)))) ∧
    (∀ uid q l, namedGang s s.input.value.toNat = some (uid, q, l) → s.input.value.toNat < 2 ^ 13 → PortOpen s (some l.part) → s.saves = [] →
      ∀ f ∈ [(Instr.gsave, 0), (.gsaveReplace, 1)],
        let s₀ := setLatch s fn 0x490000 []
        let answer := fun (n : Nat) => exec f.1 s = .next { s₀ with results := tput s.results 0x490000 (BitVec.ofNat 64 n) }
        latchOf s₀ fn 0x490000 = [] ∧
        (inTrapMode s uid q = true → answer 4) ∧
        (inTrapMode s uid q = false → (saveArea s l.ctx).base = 0 → answer 1) ∧
        (inTrapMode s uid q = false → (saveArea s l.ctx).base ≠ 0 →
          ∀ j s', freeSlot s₀ (whoCtx s l.ctx true) (saveArea s l.ctx) [] (List.range (saveArea s l.ctx).n) = (s', .slot j) →
          { s' with tick := s.tick, fabric := { s'.fabric with asked := s.fabric.asked } } = s₀ →
          ∃ t, exec f.1 s = .next t ∧ AskedToStop s t uid ∧ t.saves = [⟨uid, j, f.2, s.clock, none, some fn⟩] ∧ t.mem = s.mem)) ∧
    (∀ c, s.input.value.toNat < 2 ^ 16 → PortOpen s (ownPart s) →
      (List.range 256).filter (fun c => ((ownPart s).isNone || ownPart s == some (ctxPart s c)) &&
        s.launches.any (fun l => l.2.ctx == c && l.2.saved.any (fun x => x.2 == s.input.value.toNat))) = c →
      let s₀ := setLatch s fn 0x490010 []
      latchOf s₀ fn 0x490010 = [] ∧ (c = [] → exec .gload s = .next s₀) ∧
      ∀ x t, c = [x] → loadSlot s₀ x (ctxPart s x) s.input.value.toNat s.input.value2.toNat = (t, .code 0) →
        exec .gload s = .next { t with results := tput t.results 0x490010 (BitVec.ofNat 64 (65536 * s.input.value.toNat)) })

/-- R13, R376, R403, R437, R458, R492: host writes to DIESTAT, ERRCLRH, ATTNONCE, FNBIND, IDCFG, CTXTAB and ETSTAT, a write where no
register takes one, a function's reset and its unmasked entries, inbound host writes, and completions of this device's requests.

Where the manual leaves something open, the clauses take the model's choice: log entries 3, 54, 68, 72 and 73. -/
def Obligations.HostPortEventsAct : Prop :=
  ∀ s : Machine.State,
    let k := s.input.key
    let v := s.input.value.toNat
    (PortOpen s none →
      (∀ d, s.dies[k]? = some d → k < 3 → ∀ f ∈ [(Instr.diestatPartlo, 0), (.diestatParthi, 1)],
        let old := if f.2 = 0 then d.partlo else d.parthi
        let set := fun (x : Die) => exec f.1 s = .next { s with dies := s.dies.set k x }
        ((d.fenced = true ∨ v % 8 = 6) → set { d with rej := true }) ∧
        (d.fenced = false → v % 8 ≠ 6 → v % 8 = old → exec f.1 s = .next s) ∧
        (d.fenced = false → v % 8 ≠ 6 → v % 8 ≠ old → HalfBusy s k f.2 old → set { d with rej := true }) ∧
        (d.fenced = false → v % 8 ≠ 6 → v % 8 ≠ old → ¬ HalfBusy s k f.2 old →
          set (if f.2 = 0 then { d with partlo := v % 8 } else { d with parthi := v % 8 }))) ∧
      (let unit := v % 65536
       (unitExists unit = true → (tget 0 s.banks unit).toNat % 2 ^ 64 = s.input.value2.toNat →
         ∃ t, exec .errclrh s = .next t ∧ tfind t.results 0x7F0000 = some 0 ∧
           (tget 0 t.banks unit).toNat = 2 ^ 48 * bankSeq (tget 0 s.banks unit) ∧
           ∀ j, j ≠ unit → tget 0 t.banks j = tget 0 s.banks j) ∧
       ((unitExists unit = false ∨ (tget 0 s.banks unit).toNat % 2 ^ 64 ≠ s.input.value2.toNat) →
         exec .errclrh s =
           .next { setLatch s s.input.fn 0x7F0000 [] with results := tput s.results 0x7F0000 1 }) ∧
       latchOf (setLatch s s.input.fn 0x7F0000 []) s.input.fn 0x7F0000 = []) ∧
      (s.input.data.length = 32 → exec .attnonce s = .next { s with identity :=
        { s.identity with nonce := s.input.data, report := [], ready := false, since := s.clock } }) ∧
      (s.input.data.length ≠ 32 → exec .attnonce s = .next s)) ∧
    ((s.identity.nonce = [] ∨ s.identity.ready = true) → exec .attestationReportReady s = .next s) ∧
    (s.identity.nonce ≠ [] → s.identity.ready = false →
      exec .attestationReportReady s = .next { s with identity :=
        { s.identity with report := reportBody s ++ signature114 (reportBody s), ready := true } }) ∧
    (PortOpen s (regPart s k) →
      let write := fun (t : Machine.State) => exec .controlRegisterWrite s = .next t
      (regAt k = none → s.input.sub = 4 ∨ s.input.sub = 8 → write s) ∧
      (s.input.sub = 8 →
        (∀ n f, k = 0x470100 + 8 * n → n < 6 → s.funcs[n + 1]? = some f →
          write { s with funcs := s.funcs.set (n + 1) { f with part := if v % 8 = 6 then 7 else v % 8 } }) ∧
        (k = 0x820000 → write { s with identity := { s.identity with devnum := v % 256 } }) ∧
        (k = 0x420000 → write { s with ctxtab := BitVec.ofNat 64 (v / 2 ^ 14 % 2 ^ 34 * 2 ^ 14) }) ∧
        (∀ n, k = 0x450000 + 8 * n → n < 128 →
          let x := tget Fibre.reset s.fibres n
          write { s with fibres := tset Fibre.reset s.fibres n { x with mode := v.testBit 16 } }) ∧
        (k = 0x410000 → v.testBit 11 = true →
          write { s with mem := { s.mem with rebuild := { s.mem.rebuild with nospare := false } } }))) ∧
    (∀ f, s.funcs[s.input.fn]? = some f →
      exec .functionReset s = .next { s with funcs := s.funcs.set s.input.fn { f with latch := [] } } ∧
      ((∀ r ∈ s.requests, ¬(r.kind = 1 ∧ r.peer = none ∧ r.sent = false)) → exec .msixEntryUnmask s = .next { s with
        funcs := s.funcs.set s.input.fn { f with masked := f.masked.filter (· ≠ k), waiting := f.waiting.filter (· ≠ k) },
        sent := s.sent ++ (if k ∈ f.waiting ∧ k ∈ f.masked then [.msix s.input.fn k] else []) })) ∧
    (let e := s.mem.entry (k / 65536)
     let n := s.input.data.length
     s.inbound = [] → k < 2 ^ 41 → 0 < n → k % 128 + n ≤ 128 → IndV e = true → IndDropped e = false → IndTierX e = false →
       s.mem.symErr = [] → s.mem.chans = [] → s.mem.inter = [] →
       ∃ t, exec .inboundHostWrite s = .next t ∧ t.groups = s.groups ∧ t.inbound = [] ∧
         ∀ x, t.mem.byte x = if 65536 * IndFrame e + k % 65536 ≤ x ∧ x < 65536 * IndFrame e + k % 65536 + n
           then (s.input.data[x - (65536 * IndFrame e + k % 65536)]?).getD 0 else s.mem.byte x) ∧
    (hostRequest s k = none → exec .hostLinkCompletion s = .next s ∧ (s.input.sub ≠ 1 → exec .hostLinkRequestFail s = .next s)) ∧
    (s.input.sub = 1 →
      (k ∉ s.mem.posted → exec .hostLinkRequestFail s = .next s) ∧
      (k ∈ s.mem.posted → ∃ t, exec .hostLinkRequestFail s = .next t ∧ (∀ i < 8, 8 * k + i ∈ t.mem.poison) ∧ k ∉ t.mem.posted ∧
        t.mem.cells = s.mem.cells ∧ ∃ e ∈ t.fresh, e.unit = 0x5000 ∧ e.cause = 0x31 ∧ e.sev = 3 ∧ e.addr = some (128 * k - 2 ^ 56))) ∧
    (∀ r, hostRequest s k = some r → s.input.sub ≠ 1 →
      let rest := s.requests.filter (fun x => x.tag ≠ r.tag)
      (r.kind = 3 → s.inbound = [] → r.addr % 128 = 0 → s.input.data.length = 128 →
        (∃ t, exec .hostLinkCompletion s = .next t ∧ t.requests = rest ∧ r.addr / 128 ∈ t.mem.xlines ∧
          t.mem.poison = s.mem.poison ∧ readBytes t.mem.cells r.addr 128 = s.input.data) ∧
        (∃ t, exec .hostLinkRequestFail s = .next t ∧ t.requests = rest ∧ r.addr / 128 ∈ t.mem.xlines ∧ t.mem.cells = s.mem.cells ∧
          ∀ i < 8, r.addr / 16 + i ∈ t.mem.poison)) ∧
      (r.kind = 4 → s.input.data.length = r.size →
        exec .hostLinkCompletion s = .next { s with requests := rest, buffer := s.buffer ++ [(0, r.addr, s.input.data, 0)] } ∧
        exec .hostLinkRequestFail s = .next { s with
          requests := rest, buffer := s.buffer ++ [(0, r.addr, List.replicate r.size 0, 2)] }) ∧
      (r.kind = 6 → ∃ t, exec .hostLinkCompletion s = .next t ∧ t.requests = rest ∧
        ∀ p, tfind s.packets r.word = some p → tfind t.packets r.word = some { p with status := some 2 }))

/-- R285, R371, R443 to R451, R457: the power step follows the highest of its three sources, telemetry takes its values, a falling PWRFAIL
writes the drain image, the management port answers, and the resets leave what they say.

Where the manual leaves something open, the clauses take the model's choice: log entries 3, 63, 68, 69, 70 and 71. -/
def Obligations.PowerAndManagementEventsAct : Prop :=
  ∀ s : Machine.State,
    let p := s.power
    let v := s.input.value.toNat
    (∃ t, exec .powerStepPins s = .next t ∧
      StepAsked s t { p with pinreq := v % 16, moving := decide (p.step ≠ max (v % 16) (max p.pktreq p.portreq)) }) ∧
    (∃ t, exec .powerStepSettle s = .next t ∧
      StepAsked s t { p with step := max p.pinreq (max p.pktreq p.portreq), moving := false }) ∧
    (s.clock < 1050000 * (s.mem.periods + 1) → exec .telemetryPeriodEnd s = .next s) ∧
    (1050000 * (s.mem.periods + 1) ≤ s.clock → ∃ t, exec .telemetryPeriodEnd s = .next t ∧
      t.power = { p with watts := v % 65536, temp := s.input.value2.toNat % 256 } ∧ t.mem.periods = s.mem.periods + 1 ∧
      t.mem.counts = [] ∧ (∀ c, (t.mem.chan c).fails = 0) ∧ t.groups = s.groups ∧
      t.mem.cells = s.mem.cells) ∧
    ((s.input.ok = false ∨ p.failed = true) → exec .powerFail s = .next s) ∧
    (s.input.ok = true → p.failed = false → ∃ t, exec .powerFail s = .next t ∧
      t.power = { p with failed := true, step := 0, pinreq := 0, pktreq := 0, portreq := 0, moving := false } ∧
      t.flash.writing = none ∧ t.flash.committed = s.flash.committed ∧
      t.flash.gen = (s.flash.gen + 1) % 2 ^ 32 ∧ (t.flash.areaA = s.flash.areaA ∨ t.flash.areaB = s.flash.areaB) ∧
      (∃ image, drainValid image = true ∧ drainGen image = t.flash.gen ∧
        (if newerArea s.flash = some true then t.flash.areaB else t.flash.areaA) =
          if s.input.sub = 1 then image.take (min s.input.key (image.length - 1)) else image) ∧
      (newerArea s.flash = some true → t.flash.areaA = s.flash.areaA) ∧ (newerArea s.flash = some false → t.flash.areaB = s.flash.areaB) ∧
      (∀ part, (checkpointOf t part).state ≠ 1 ∧ (checkpointOf t part).state ≠ 2)) ∧
    (∃ t, exec .coldReset s = .next t ∧ t.groups = [] ∧ t.gangs = [] ∧ t.launches = [] ∧ t.queues = [] ∧ t.cores = [] ∧ t.clock = 0 ∧
      t.dies = State.reset.dies ∧ t.banks = [] ∧ t.mem.cells = [] ∧ (t.mem.booted = true ↔ t.flash.running ≠ none) ∧
      (∀ i a, t.flash.running = some i → newerArea s.flash = some a →
        t.flash.report = some (a, drainGen (if a then s.flash.areaA else s.flash.areaB)) ∧
        if a then t.flash.areaA = s.flash.areaA ∧ t.flash.areaB = [] else t.flash.areaA = [] ∧ t.flash.areaB = s.flash.areaB) ∧
      (∀ i, t.flash.running = some i → ∃ x, s.flash.images[i]? = some x ∧ x.1 = true ∧ s.flash.minVer ≤ x.2 ∧
        ∀ j < i, ∀ y, s.flash.images[j]? = some y → y.1 = false ∨ y.2 < s.flash.minVer)) ∧
    (∃ t, exec .lossOfCx s = .next t ∧ t.gangs = [] ∧ t.cores = [] ∧ t.warm.count = min 255 (s.warm.count + 1) ∧ t.warm.unit = 0xFFFF ∧
      t.dies = s.dies ∧ t.flash = s.flash ∧ t.ctxtab = s.ctxtab) ∧
    exec .smbusArpAssign s = .next { s with power := { p with smbus := s.input.value.setWidth 7 } } ∧
    (let eid : Byte := s.input.value.setWidth 8
     exec .setEndpointId s = .next { s with
       power := { p with eid := eid }, sent := s.sent ++ [.management [0, 1, 0, 0, eid, 0]] }) ∧
    exec .getEndpointId s = sends s (.management [0, 2, 0, p.eid, 0, 0]) ∧
    (∃ t a b c d, exec .getMctpVersionSupport s = .next t ∧ t.sent = s.sent ++ [.management [0, 4, 0, 1, a, b, c, d]] ∧
      { t with sent := s.sent, tick := s.tick } = s) ∧
    exec .getMessageTypeSupport s = sends s (.management [0, 5, 0, 2, 0, 0x7F]) ∧
    (v % 256 = 0 → exec .getVendorDefinedMessageSupport s =
      sends s (.management ([0, 6, 0, 0xFF, 1] ++ (leBytes 4 Config.vendor.toNat).reverse ++ [0, 1]))) ∧
    (v % 256 ≠ 0 → exec .getVendorDefinedMessageSupport s = sends s (.management [0, 6, 2])) ∧
    (let r := s.input.request
     let answer := fun (command code : Nat) (data : List Byte) => sends s (vendorAnswer command r.tag code data)
     (∀ f ∈ [(Instr.readPowerStatus, 1, 0), (.setPortStepRequest, 2, 1), (.readErrorBank, 3, 3), (.startAttestationReport, 4, 32),
        (.readAttestationReport, 5, 3), (.readIdentityWindow, 6, 5)], ¬ RequestOk s f.2.2 → exec f.1 s = answer f.2.1 1 []) ∧
     (RequestOk s 0 → exec .readPowerStatus s = answer 1 0 (leBytes 8 (pwrstat s))) ∧
     (RequestOk s 1 →
       let x := field r.data 0 1
       (15 < x → exec .setPortStepRequest s = answer 2 2 []) ∧
       (x ≤ 15 → ∃ t, exec .setPortStepRequest s = .next t ∧ StepAsked { s with sent := t.sent } t
           { p with portreq := x, moving := decide (p.step ≠ max p.pinreq (max p.pktreq x)) } ∧
         t.sent = s.sent ++ [vendorAnswer 2 r.tag 0 (leBytes 8 (pwrstat t))])) ∧
     (RequestOk s 3 →
       let unit := field r.data 0 2
       let word := field r.data 2 1
       ((unitExists unit = false ∨ 3 < word) → exec .readErrorBank s = answer 3 2 []) ∧
       (unitExists unit = true → word ≤ 3 →
         exec .readErrorBank s = answer 3 0 (leBytes 8 ((tget 0 s.banks unit).toNat / 2 ^ (64 * word) % 2 ^ 64))) ∧
       (0 < word → word ≤ 48 →
         (s.identity.nonce ≠ [] → s.identity.ready = false → exec .readAttestationReport s = answer 5 3 []) ∧
         ((s.identity.nonce = [] ∨ s.identity.ready = true) →
           (s.identity.report.length ≤ unit → exec .readAttestationReport s = answer 5 2 []) ∧
           (unit < s.identity.report.length →
             exec .readAttestationReport s = answer 5 0 ((s.identity.report.drop unit).take word))))) ∧
     (RequestOk s 32 → exec .startAttestationReport s = .next { s with
       identity := { s.identity with nonce := r.data, report := [], ready := false, since := s.clock },
       sent := s.sent ++ [vendorAnswer 4 r.tag 0 []] }) ∧
     (RequestOk s 5 →
       let offset := field r.data 0 4
       let length := field r.data 4 1
       (0 < length → length ≤ 48 → offset < Config.identityWindow.length →
         exec .readIdentityWindow s = answer 6 0 ((Config.identityWindow.drop offset).take length)) ∧
       ((length = 0 ∨ 48 < length ∨ Config.identityWindow.length ≤ offset) → exec .readIdentityWindow s = answer 6 2 [])))

/-! ### Packets -/

/-- R379, R381, R383, R400, R401, R444, R453, R455: the packet at HEAD is fetched, checked, journalled and kept, and HEAD passes it; a
malformed packet and an overrun freeze the queue; each type starts in its order, has its effect, and completes with its status.

Where the manual leaves something open, the clauses take the model's choice: log entries 3, 48, 49, 51 and 70. -/
def Obligations.PacketsRunInOrder : Prop :=
  ∀ s : Machine.State,
    let k := s.input.key
    (let x := queueOf s k
     let ctx := x.ctx.toNat
     (¬ Fetches s k → exec .packetFetch s = .next s) ∧
     (Fetches s k → 2 ^ x.log2n < (x.tail - x.head).toNat →
       ∃ t, exec .packetFetch s = .next t ∧ queueOf t k = { x with state := 2 } ∧ t.packets = s.packets) ∧
     (∀ s' bs, Fetches s k → (x.tail - x.head).toNat ≤ 2 ^ x.log2n →
       loadMany s (whoCtx s ctx false) (x.rbase.toNat + 256 * (x.head.toNat % 2 ^ x.log2n)) 256 = (s', .ok bs) →
       s'.queues = s.queues → s'.packets = s.packets →
       (∀ n, packetBad bs x.privok = some n → exec .packetFetch s = .next (freezeQueue (refuseRegens s' k (· == x.head)) k (256 + n))) ∧
       (packetBad bs x.privok = none →
         let typ := field bs 0 1
         let part := ctxPart s' ctx
         let passed := { x with head := x.head + 1 }
         ((typ = 1 → launchRefused s' bs ctx part = none ∧ (bit (field bs 0x33 1) 2 = true → x.privok = true)) →
           ∃ t m, exec .packetFetch s = .next t ∧ queueOf m k = passed ∧ (∀ n, n ≠ k → queueOf m n = queueOf s n) ∧
             Journalled s' m part k ctx x.head.toNat typ 0 ∧
             PacketIs s m s'.nextUid ⟨k, x.head, part, (journalOf s' part).nextSeq, bs, false, none, none, false⟩ ∧
             m.power = s'.power ∧ (typ ≠ 4 → t = m) ∧
             (typ = 4 →
               let v := field bs 0x10 1
               StepAsked m t { m.power with
                 pktreq := v, moving := decide (m.power.step ≠ max m.power.pinreq (max v m.power.portreq)) })) ∧
         (typ = 1 → (launchRefused s' bs ctx part ≠ none ∨ bit (field bs 0x33 1) 2 = true ∧ x.privok = false) →
           ∃ t, exec .packetFetch s = .next t ∧ queueOf t k = { passed with state := 2 } ∧ t.packets = s.packets ∧
             Journalled s' t part k ctx x.head.toNat typ 1)))) ∧
    (∀ f ∈ [Instr.launchPacket, .copyPacket, .dependencyWaitGe, .dependencyWaitEq, .dependencyAtomicAdd, .dependencyStore, .markerPacket,
        .powerStepPacket, .checkpointPacket], (∀ p, tfind s.packets k = some p → ¬ PacketMay s k p) → exec f s = .next s) ∧
    (∀ p, tfind s.packets k = some p → PacketMay s k p →
      let ctx := (queueOf s p.queue).ctx.toNat
      let w := whoCtx s ctx false
      let va := field p.bytes 0x10 8
      let value := field p.bytes 0x18 8
      (typeOf p = 6 → ∃ t, exec .markerPacket s = .next t ∧ PacketIs s t k (begun p none (some 2)) ∧ { t with packets := s.packets } = s) ∧
      (typeOf p = 4 →
        ∃ t, exec .powerStepPacket s = .next t ∧ PacketIs s t k (begun p none p.status) ∧ { t with packets := s.packets } = s) ∧
      (typeOf p = 1 → ∃ t l, exec .launchPacket s = .next t ∧ launchOf t s.nextUid = some l ∧ PacketIs s t k (begun p (some s.nextUid) none) ∧
        (l.record, l.ctx, l.part, l.seq, l.queue, l.packet, l.admitted) = (p.bytes, ctx, p.part, p.seq, p.queue, k, false) ∧
        ∀ n, n ≠ s.nextUid → launchOf t n = launchOf s n) ∧
      (typeOf p = 2 →
        let core := s.input.sub
        let o := packetCopy p.bytes
        ((coreLive s core = false ∨ corePart s core ≠ p.part ∨ 128 ≤ copyEntries s core) → exec .copyPacket s = .next s) ∧
        (coreLive s core = true → corePart s core = p.part → copyEntries s core < 128 →
          ∃ t x, exec .copyPacket s = .next t ∧ tfind t.transfers s.nextTransfer = some x ∧ x.core = core ∧ x.ctx = ctx ∧
            x.packet = some k ∧ x.operands = o.list ∧ x.complete = (if o.total = 0 then some s.clock else none) ∧
            PacketIs s t k (begun p (some s.nextTransfer) none))) ∧
      (typeOf p = 3 →
        let op := field p.bytes 0x20 1
        (∀ f ∈ [(Instr.dependencyWaitGe, 0), (.dependencyWaitEq, 1)],
          (op = f.2 → ∃ t, exec f.1 s = .next t ∧ PacketIs s t k (begun p none none) ∧ { t with packets := s.packets } = s) ∧
          (op ≠ f.2 → exec f.1 s = .next s)) ∧
        (op ≠ 2 → exec .dependencyAtomicAdd s = .next s) ∧ (op ≠ 3 → exec .dependencyStore s = .next s) ∧
        (∀ t e dpa ma, op = 2 → translate s w .atomic false va = (t, .ok (e, .dev dpa ma)) → Sound t w.part → t.packets = s.packets →
          ∃ t', exec .dependencyAtomicAdd s = .next t' ∧ PacketIs s t' k (begun p none (some 2)) ∧
            BytesPut t t' ma (leBytes 8 (leNat (t.mem.bytesAt ma 8) + value))) ∧
        (∀ t e dpa ma, op = 3 → translate s w .store false va = (t, .ok (e, .dev dpa ma)) → Sound t w.part → t.packets = s.packets →
          ∃ t', exec .dependencyStore s = .next t' ∧ PacketIs s t' k (begun p none (some 2)) ∧ BytesPut t t' ma (leBytes 8 value)) ∧
        (∀ t e dev dpa, translate s w (if op = 2 then .atomic else .store) false va = (t, .ok (e, .peer dev dpa)) → t.packets = s.packets →
          ∀ f ∈ [(Instr.dependencyAtomicAdd, 2), (.dependencyStore, 3)], op = f.2 →
            ∃ t', exec f.1 s = .next t' ∧ PacketIs s t' k (begun p none none) ∧ t'.mem = t.mem)) ∧
      (typeOf p = 5 →
        let running := (checkpointOf s p.part).state = 1 ∨ (checkpointOf s p.part).state = 2
        (running → exec .checkpointPacket s = .next s) ∧
        (¬ running → ∀ t bs t', loadMany s w va (64 * field p.bytes 0x18 4) = (t, .ok bs) →
          (∀ e ∈ regionEntries (field p.bytes 0x18 4) bs, regionBad e = false) →
          (regionEntries (field p.bytes 0x18 4) bs).foldl (fun n e => n + regionBytes e) 0 ≤ field p.bytes 0x28 8 →
          ckStore t w p.part (field p.bytes 0x30 8 + 131072 * field p.bytes 0x1C 1) (leBytes 4 0) = (t', .ok ()) →
          t'.packets = s.packets → 64 ≤ p.bytes.length →
          ∃ t'', exec .checkpointPacket s = .next t'' ∧ PacketIs s t'' k (begun p none none) ∧
            let c := checkpointOf t'' p.part
            (c.state, c.slot, c.units, c.ckid, c.packet) = (1, field p.bytes 0x1C 1, 0, field p.bytes 0x38 8, some k) ∧
            c.body = p.bytes.take 64 ++ bs ∧ t''.mem = t'.mem))) ∧
    (∀ p, tfind s.packets k = some p →
      let w := whoCtx s (queueOf s p.queue).ctx.toNat false
      ((typeOf p ≠ 3 ∨ p.started = false ∨ p.status ≠ none ∨ 1 < field p.bytes 0x20 1 ∨ p.stopped = true) →
        exec .dependencyWaitMet s = .next s) ∧
      (∀ t bs, typeOf p = 3 → p.started = true → p.status = none → field p.bytes 0x20 1 ≤ 1 → p.stopped = false →
        loadBytes s w .load (field p.bytes 0x10 8) 8 = (t, .ok bs) → tfind t.packets k = some p →
        let met := if field p.bytes 0x20 1 = 0 then field p.bytes 0x18 8 ≤ leNat bs else leNat bs = field p.bytes 0x18 8
        (¬ met → exec .dependencyWaitMet s = .next t) ∧
        (met → ∃ t', exec .dependencyWaitMet s = .next t' ∧ PacketIs t t' k { p with status := some 2 } ∧
          { t' with packets := t.packets } = t)) ∧
      (StatusNone s p → exec .packetComplete s = .next s) ∧
      (∀ n, StatusIs s p n →
        let s' := journalStatus s p.part p.seq n
        (field p.bytes 8 8 = 0 → ∃ t, exec .packetComplete s = .next t ∧ tfind t.packets k = none ∧
          (∀ j, j ≠ k → tfind t.packets j = tfind s.packets j) ∧ t.mem = s.mem ∧
          ∀ e, tfind (journalOf s p.part).entries ((p.seq - 1) % 32768) = some e → field e 0 8 = p.seq →
            tfind (journalOf t p.part).entries ((p.seq - 1) % 32768) = some (e.take 0x11 ++ leBytes 1 n ++ e.drop 0x12)) ∧
        (field p.bytes 8 8 ≠ 0 → ∀ t y, deviceStore s' (whoCtx s' (queueOf s' p.queue).ctx.toNat false) (field p.bytes 8 8) (leBytes 8 p.seq) =
          (t, .ok y) → ∃ t', exec .packetComplete s = .next t' ∧ tfind t'.packets k = none ∧ t'.mem = t.mem))) ∧
    (tfind s.packets k = none → exec .dependencyWaitMet s = .next s ∧ exec .packetComplete s = .next s) ∧
    (let c := checkpointOf s k
     let ended := { c with state := 0, packet := none, holder := none, body := [], shard := [] }
     let done := fun (t t' : Machine.State) => checkpointOf t' k = ended ∧ t'.mem = t.mem ∧
       ∀ id p, c.packet = some id → tfind t.packets id = some p → tfind t'.packets id = some { p with status := some 2 }
     (ckPerformed s k = false → exec .checkpointComplete s = .next s) ∧
     (c.state ≠ 1 → c.state ≠ 2 → exec .checkpointComplete s = .next s) ∧
     (c.state = 2 → ckPerformed s k = true → ∃ t, exec .checkpointComplete s = .next t ∧ done s t) ∧
     (c.state = 1 → ckPerformed s k = true → ckTotal c ≤ c.units →
       let s' := setCheckpoint s k { c with state := 2 }
       ∀ t, ckStores s' (ckWho s' c) k (ckManifest c) (pieces16 (manifestBytes s' c)) = (t, .ok ()) →
         checkpointOf t k = { c with state := 2 } →
         (ckPerformed t k = false → exec .checkpointComplete s = .next t) ∧
         (ckPerformed t k = true → ∃ t', exec .checkpointComplete s = .next t' ∧ done t t')))

/-! ### Launches -/

/-- R78, R340, R386 to R392, R424, R429, R442: a round admits launches, a die's placer places gangs, a gang that has waited becomes
blocking, groups retire and launches complete with their status, and the limits of a regeneration, a save and a takeover run out.

Where the manual leaves something open, the clauses take the model's choice: log entries 3, 29, 41, 50, 59 and 60. -/
def Obligations.LaunchesRunTheirGangs : Prop :=
  ∀ s : Machine.State,
    let k := s.input.key
    (∃ t, exec .admissionRound s = .next t ∧ { t with launches := s.launches } = s ∧
      (∀ uid l, launchOf s uid = some l → ∃ l', launchOf t uid = some l' ∧
        { l' with admitted := l.admitted, order := l.order, stamp := l.stamp, unplaced := l.unplaced } = l) ∧
      (∀ uid l, launchOf s uid = some l → Waits k l → (∀ x ∈ s.launches, Waits k x.2 → x.2.queue = l.queue → x.1 = uid) →
        0 < weightOf s l.queue → l.killed = false → ∃ n, launchOf t uid = some { l with
          admitted := true, order := n, stamp := s.mem.order, unplaced := (List.range (recGangs l)).map (fun i => (i, s.clock)) })) ∧
    (placerOrder s k = [] → exec .diePlacement s = .next s) ∧
    (∀ lid l i, placerOrder s k = [(lid, l)] → launchOf s lid = some l → Chosen s k lid l i →
      (blockedBy s k lid l i = true → exec .diePlacement s = .next s) ∧
      (blockedBy s k lid l i = false → wholeCoop l = false → (∀ x ∈ l.saved, x.1 ≠ i) →
        let found := placeFirst s lid l i (freshGroups l) [] (unitsOf k (recShape l))
        (found = none → exec .diePlacement s = .next s) ∧
        (found ≠ none → recScratch l = 0 → ∃ t, exec .diePlacement s = .next t ∧ PlacedAs s t k lid l i s.nextUid ∧
          launchOf t lid = some { l with unplaced := l.unplaced.filter (·.1 ≠ i), urgent := removeNat i l.urgent,
                                         saved := l.saved, blocking := removeNat i l.blocking } ∧
          (∀ n g, groupOf s n = some g → groupOf t n = some g) ∧ t.mem = s.mem))) ∧
    (∀ l, launchOf s k = some l →
      let late := ∃ x ∈ l.unplaced, x.1 = s.input.sub ∧ x.2 + 1050000 ≤ s.clock
      (late → ∃ t l', exec .gangBlocking s = .next t ∧ launchOf t k = some l' ∧ { l' with blocking := l.blocking } = l ∧
        { t with launches := s.launches } = s ∧
        ∀ i, i ∈ l'.blocking ↔ if recCoop l then ∃ x ∈ l.unplaced, x.1 = i else i = s.input.sub ∨ i ∈ l.blocking) ∧
      (¬ late → exec .gangBlocking s = .next s) ∧
      let ended := (l.admitted = true ∨ l.destroyed = true) ∧ (recGangs l ≤ l.done ∨ l.destroyed = true) ∧ ∀ q ∈ s.gangs, q.2.launch ≠ k
      let n := if l.destroyed then 4 else if l.killed then 3 else 2
      (¬ ended → exec .launchComplete s = .next s) ∧
      (ended → ∃ t, exec .launchComplete s = .next t ∧ launchOf t k = none ∧ (∀ j, j ≠ k → launchOf t j = launchOf s j) ∧
        (l.queue ≠ 65536 → ∀ p, tfind s.packets l.packet = some p → PacketIs s t l.packet { p with status := some n }) ∧
        (l.queue = 65536 → ∀ e, tfind (journalOf s l.part).entries ((l.seq - 1) % 32768) = some e → field e 0 8 = l.seq →
          tfind (journalOf t l.part).entries ((l.seq - 1) % 32768) = some (e.take 0x11 ++ leBytes 1 n ++ e.drop 0x12)))) ∧
    (launchOf s k = none → exec .gangBlocking s = .next s ∧ exec .launchComplete s = .next s) ∧
    (groupOf s k = none → exec .groupRetire s = .next s) ∧
    (∀ g, groupOf s k = some g →
      ((¬ GroupOver s k g ∨ ∃ v ∈ s.saves, v.gang = g.gang) → exec .groupRetire s = .next s) ∧
      (GroupOver s k g → (∀ v ∈ s.saves, v.gang ≠ g.gang) →
        let retired := fun (t : Machine.State) => exec .groupRetire s = .next t ∧ groupOf t k = none ∧
          ∀ n, n ≠ k → groupOf t n = groupOf s n
        ((∃ x ∈ s.groups, x.1 ≠ k ∧ x.2.gang = g.gang) → ∃ t, retired t ∧ t.launches = s.launches ∧
          ∀ n, gangOf s n ≠ none → gangOf t n ≠ none) ∧
        (∀ q l, (∀ x ∈ s.groups, x.1 ≠ k → x.2.gang ≠ g.gang) → gangOf s g.gang = some q → launchOf s q.launch = some l →
          ∃ t, retired t ∧ gangOf t g.gang = none ∧ launchOf t q.launch = some { l with done := l.done + 1 }))) ∧
    (let r := regenOf s.mem k
     ((r = none ∨ ∃ x, r = some x ∧ (x.failed = true ∨ x.posted = none ∨ s.clock < x.since + 105000000)) → exec .regenTimeout s = .next s) ∧
     (∀ x, r = some x → x.failed = false → x.posted ≠ none → x.since + 105000000 ≤ s.clock → ∃ t y, exec .regenTimeout s = .next t ∧
       regenOf t.mem k = some y ∧ y.failed = true ∧ t.mem.ind = s.mem.ind ∧ t.groups = s.groups)) ∧
    (let v := s.saves.find? (·.gang == k)
     (v = none → exec .ctxsaveStopTimeout s = .next s) ∧
     (∀ x, v = some x → (s.clock < x.since + 1050000 ∨ gangStopped s k = true) → exec .ctxsaveStopTimeout s = .next s) ∧
     (∀ x, v = some x → x.since + 1050000 ≤ s.clock → gangStopped s k = false → (x.asker ≠ none ∨ x.fn ≠ none) →
       ∃ t, exec .ctxsaveStopTimeout s = .next t ∧ t.saves = s.saves.filter (·.gang ≠ k) ∧ t.gangs = s.gangs ∧ t.mem = s.mem ∧
         (∀ n g, groupOf s n = some g → g.gang = k → groupOf t n = some (goingOn s g)) ∧
         (x.asker = none → tfind t.results 0x490000 = some 2))) ∧
    (let due := k < 48 ∧ (coreOf s k).stopBy = none ∧ takeoverDue s (unitCore s k) = true
     let quiet := ∀ c ∈ s.cores, c.2.stopBy = none
     let none' := ∀ x ∈ s.gangs, k ∉ x.2.cores
     (¬ due → exec .hotSpareTakeover s = .next s) ∧
     (due → quiet → coreLive s k = false → exec .hotSpareTakeover s = .next s) ∧
     (∀ d, due → quiet → s.dies[k / 16]? = some d → coreLive s k = true →
       (d.spused = true → none' → ∃ t, exec .hotSpareTakeover s = .next t ∧ t.groups = s.groups ∧
         t.dies = s.dies.set (k / 16) { d with live := d.live &&& ~~~(BitVec.ofNat 16 (2 ^ (k % 16))) }) ∧
       (d.spused = false → none' → ∃ t, exec .hotSpareTakeover s = .next t ∧ t.groups = s.groups ∧ (coreOf t k).stopBy = none ∧
         t.dies = s.dies.set (k / 16) { d with spused := true, spfor := k % 16 }) ∧
       (d.spused = false → (∃ x ∈ s.gangs, k ∈ x.2.cores ∧ gangAtRest s x.1 = false) →
         ∃ t, exec .hotSpareTakeover s = .next t ∧ t.dies = s.dies ∧ (coreOf t k).stopBy = some s.clock ∧
           ∀ x ∈ s.gangs, k ∈ x.2.cores → ∀ n g, groupOf s n = some g → g.gang = x.1 → groupOf t n = some { g with stopping := true })) ∧
     let by' := (coreOf s k).stopBy
     ((by' = none ∨ coreLive s k = false ∨ ∃ c, by' = some c ∧ s.clock < c + 1050000) → exec .takeoverStopTimeout s = .next s) ∧
     (∀ c d x l, by' = some c → c + 1050000 ≤ s.clock → OnlyTaken s k → s.dies[k / 16]? = some d → d.spused = false → coreLive s k = true →
       s.upsets = [] → s.gangs.filter (fun x => x.2.cores.contains k && !gangAtRest s x.1) = [x] → gangOf s x.1 = some x.2 →
       launchOf s x.2.launch = some l → recRestart l = true → l.destroyed = false → tget 0 l.again x.2.index < 3 →
       ∃ t, exec .takeoverStopTimeout s = .next t ∧ gangOf t x.1 = none ∧ (coreOf t k).stopBy = none ∧
         t.dies = s.dies.set (k / 16) { d with spused := true, spfor := k % 16 } ∧
         launchOf t x.2.launch = some { l with
           unplaced := l.unplaced ++ [(x.2.index, s.clock)], urgent := insertNat x.2.index l.urgent,
           again := tset 0 l.again x.2.index (tget 0 l.again x.2.index + 1) }))

/-! ### Memory, pages and debug -/

/-- R294 to R298, R300 to R303, R308: lines are written back and scrubbed, rows are refreshed and retired, dead channels are rebuilt frame
by frame, and hot pages move, each with what readers see of memory.

R435: a single-bit error of SRAM is corrected and recorded, a double-bit error marks a dirty frame unit, and one of a register is consumed
by the first word that reads it, with no lane at or above the one that reads it performed.

R186, R191, R193, R440, R441, R460, R463, R466 to R468: a fill and a victim's write-back finish, a clone is compared, a late watch
report arrives, and trace records and samples are made and written.

Where the manual leaves something open, the clauses take the model's choice: log entries 3, 40, 42, 43, 44 and 66. -/
def Obligations.MemoryAndPagesWork : Prop :=
  (
  ∀ s : Machine.State,
    let k := s.input.key
    let flat := s.mem.symErr = [] ∧ s.mem.chans = [] ∧ s.mem.inter = []
    (128 * k < 2 ^ 56 → flat → ∃ t, exec .lineWriteback s = .next t ∧ (∀ x, x ∈ t.mem.dirty ↔ x ∈ s.mem.dirty ∧ x / 8 ≠ k) ∧
      t.mem.cells = s.mem.cells ∧ t.mem.symErr = [] ∧ t.mem.poison = s.mem.poison) ∧
    (2 ^ 56 ≤ 128 * k →
      (k ∉ s.mem.xlines → exec .lineWriteback s = .next s) ∧
      (k ∈ s.mem.xlines → s.places = [] → ∃ t, exec .lineWriteback s = .next t ∧ (k ∈ t.mem.posted ↔ k ∈ s.mem.posted ∨ s.mem.dirtyOf k ≠ []) ∧ (∀ x, x ∈ t.mem.xlines ↔ x ∈ s.mem.xlines ∧ x ≠ k) ∧
        (∀ x, x ∈ t.mem.dirty ↔ x ∈ s.mem.dirty ∧ x / 8 ≠ k) ∧ (∀ c, c ∈ t.mem.cells ↔ c ∈ s.mem.cells ∧ c.1 / 128 ≠ k) ∧
        ∃ xs, t.sent = s.sent ++ xs ∧ ∀ i < 8, 8 * k + i ∈ s.mem.dirty →
          Sent.hostWrite (128 * k + 16 * i - 2 ^ 56) (readBytes s.mem.cells (128 * k + 16 * i) 16) (s.mem.poison.contains (8 * k + i)) false ∈ xs)) ∧
    (512 * 12890572 ≤ k → exec .patrolScrubLine s = .next s) ∧
    (∀ (i : Nat) (e : SymErr), k < 512 * 12890572 → s.mem.chans = [] → s.mem.inter = [] → i < 10 → tfind s.mem.symErr (10 * k + i) = some e → e.fails = true →
      (∀ j < 10, j ≠ i → tfind s.mem.symErr (10 * k + j) = none) →
      ∃ t, exec .patrolScrubLine s = .next t ∧ t.mem.passPos = k / 512 ∧ (∀ j < 10, tfind t.mem.symErr (10 * k + j) = none) ∧
        (∀ j, j / 10 ≠ k → tfind t.mem.symErr j = tfind s.mem.symErr j) ∧ t.mem.cells = s.mem.cells ∧ t.mem.poison = s.mem.poison) ∧
    (∀ a b c : Nat, k < 512 * 12890572 → a < b → b < c → c < 10 →
      (∀ i ∈ [a, b, c], ∃ e : SymErr, tfind s.mem.symErr (10 * k + i) = some e ∧ e.fails = true) →
      ∃ t, exec .patrolScrubLine s = .next t ∧ t.mem.passPos = k / 512 ∧ t.mem.cells = s.mem.cells ∧ t.mem.symErr = s.mem.symErr ∧
        ∀ x, x ∈ t.mem.poison ↔ x ∈ s.mem.poison ∨ x / 8 = k) ∧
    (let p := s.input.row
     let key := fun (r : Nat) => p.chan * 2 ^ 32 + p.bank * 2 ^ 24 + r
     let row := tget Row.reset s.mem.rows (key p.row)
     (∃ t, exec .refresh s = .next t ∧ tget Row.reset t.mem.rows (key p.row) = { row with acts := 0 } ∧
       (∀ j, j ≠ key p.row → tget Row.reset t.mem.rows j = tget Row.reset s.mem.rows j) ∧
       { t with mem := { t.mem with rows := s.mem.rows } } = s) ∧
     (row.acts < 8192 → exec .targetedRefresh s = .next s) ∧
     (8192 ≤ row.acts → ∃ t, exec .targetedRefresh s = .next t ∧ { t with mem := { t.mem with rows := s.mem.rows } } = s ∧
       ∀ r, (r + 2 = p.row ∨ r + 1 = p.row ∨ r = p.row + 1 ∨ r = p.row + 2) → (tget Row.reset t.mem.rows (key r)).acts = 0) ∧
     (row.corrected < s.mem.thresh → row.failed < 3 → exec .rowRetire s = .next s) ∧
     ((s.mem.thresh ≤ row.corrected ∨ 3 ≤ row.failed) →
       (p.spare = true → ∃ t, exec .rowRetire s = .next t ∧
         t.mem.chan p.chan = { s.mem.chan p.chan with retired := min 255 ((s.mem.chan p.chan).retired + 1) } ∧
         tget Row.reset t.mem.rows (key p.row) = { row with corrected := 0, failed := 0, line := 0 } ∧ t.mem.inter = s.mem.inter ∧
         t.mem.cells = s.mem.cells) ∧
       (p.spare = false → ∃ t, exec .rowRetire s = .next t ∧
         ∀ f i l, f < 12890572 → i < 10 → l < 512 → (s.mem.interWord f i).chan = p.chan → (s.mem.interWord f i).region < 366210 →
           (s.mem.interWord f i).st ≠ 2 →
           Config.rowOf p.chan (512 * (s.mem.interWord f i).region + l) % 2 ^ 32 = p.bank * 2 ^ 24 + p.row → p.bank * 2 ^ 24 + p.row < 2 ^ 32 →
           ((∃ c r, tfind t.mem.inter (10 * f + i) = some ⟨c, r, 0⟩ ∧ (c, r) ∈ t.mem.spareUsed) ∨ t.mem.rebuild.nospare = true)))) ∧
    (let dies := fun (i : Instr) => ∃ t, exec i s = .next t ∧ t.mem.chan k = { s.mem.chan k with state := 1, bysw := false } ∧
       t.mem.rebuild.queue = s.mem.rebuild.queue ++ [k] ∧ t.mem.cells = s.mem.cells ∧ t.groups = s.groups
     let out := (s.mem.chan k).state ≠ 0 ∨ 384 ≤ k
     ((s.input.ok = true ∨ out) → exec .phyRecalibration s = .next s) ∧ (s.input.ok = false → ¬ out → dies .phyRecalibration) ∧
     ((out ∨ s.input.sub ≠ 0 ∧ (s.mem.chan k).fails ≤ 64) → exec .channelDead s = .next s) ∧
     (¬ out → (s.input.sub = 0 ∨ 64 < (s.mem.chan k).fails) → dies .channelDead)) ∧
    (let rb := s.mem.rebuild
     ((rb.paused = true ∨ rb.active = none ∧ rb.queue = []) → exec .rebuildFrame s = .next s) ∧
     (∀ c rest, rb.paused = false → rb.active = none → rb.queue = c :: rest → ∃ t, exec .rebuildFrame s = .next t ∧
       t.mem.rebuild = { rb with queue := rest, active := some c, frames := 0, nextFrame := 0 } ∧
       t.mem.chan c = { s.mem.chan c with state := 2 } ∧ t.mem.cells = s.mem.cells) ∧
     (∀ c w, rb.paused = false → rb.active = some c → rb.work = some w →
       (s.input.value = 0 → exec .rebuildFrame s = .next s) ∧
       (s.input.value = 1 → w.line < 512 → ∃ t, exec .rebuildFrame s = .next t ∧
         t.mem.rebuild = { rb with work := some { w with line := w.line + 1 } } ∧ t.mem.inter = s.mem.inter ∧ t.mem.cells = s.mem.cells ∧
         ∀ j, j ≠ 10 * (512 * w.frame + w.line) + w.pos → tfind t.mem.symErr j = tfind s.mem.symErr j) ∧
       (s.input.value ≠ 0 → 512 ≤ w.line → ∃ t, exec .rebuildFrame s = .next t ∧
         t.mem.rebuild = { rb with work := none, frames := rb.frames + 1 } ∧
         tfind t.mem.inter (10 * w.frame + w.pos) = some ⟨w.chan, w.region, 0⟩ ∧ t.mem.cells = s.mem.cells)) ∧
     (∀ c, rb.paused = false → rb.active = some c → rb.work = none →
       let next := nextNamed s.mem c (12890572 - rb.nextFrame) rb.nextFrame
       (next = none → ∃ t, exec .rebuildFrame s = .next t ∧ t.mem.rebuild = { rb with active := none } ∧
         t.mem.chan c = { s.mem.chan c with state := 3 } ∧ t.mem.cells = s.mem.cells) ∧
       (∀ f i, next = some (f, i) →
         (chooseSpare s.mem f = none → ∃ t, exec .rebuildFrame s = .next t ∧
           t.mem.rebuild = { rb with nextFrame := f + 1, nospare := true } ∧ t.mem.inter = s.mem.inter) ∧
         (∀ c' r, chooseSpare s.mem f = some (c', r) → ∃ t, exec .rebuildFrame s = .next t ∧
           t.mem.rebuild = { rb with nextFrame := f + 1, work := some ⟨f, i, c', r, 0⟩ } ∧
           tfind t.mem.inter (10 * f + i) = some { s.mem.interWord f i with st := 2 } ∧ (c', r) ∈ t.mem.spareUsed ∧
           t.mem.cells = s.mem.cells)))) ∧
    (let m := s.mem.moves.find? (fun x => x.frame == k)
     let e := s.mem.entry k
     (m = none → exec .hotPageMove s = .next s) ∧
     (∀ x, m = some x →
       let taken := ∃ y ∈ s.mem.ind, y.1 ≠ k ∧ IndV y.2 = true ∧ IndTierX y.2 = x.tierX ∧ IndFrame y.2 = x.place ∧ IndDropped y.2 = false
       let absent := fun (l : Nat) => IndTierX e = true ∧ entryAddr e 0 / 128 ≤ l ∧ l < entryAddr e 0 / 128 + 512 ∧ l ∉ s.mem.xlines
       (taken → exec .hotPageMove s = .next s) ∧
       (∀ l, ¬ taken → absent l → ∃ t, exec .hotPageMove s = .next t ∧ t.mem = s.mem ∧ ∃ r ∈ t.requests, r.kind = 3 ∧ r.addr = 128 * l) ∧
       (¬ taken → (∀ l, ¬ absent l) → s.mem.wf = true → s.mem.symErr = [] → x.place < 2 ^ 40 → (x.tierX ≠ IndTierX e ∨ x.place ≠ IndFrame e) →
         ∃ t n, exec .hotPageMove s = .next t ∧ t.mem.entry k = n ∧ IndTierX n = x.tierX ∧ IndFrame n = x.place ∧ IndV n = IndV e ∧
           IndMoving n = false ∧ IndPart n = IndPart e ∧ (∀ y ∈ t.mem.moves, y.frame ≠ k) ∧
           ∀ o < 65536, t.mem.byte (entryAddr n o) = s.mem.byte (entryAddr e o))))) ∧
  (
  ∀ (s : Machine.State) (core offset synd : Nat),
    execUpset s (.single core offset synd) =
      recordEvent s { unit := unitCore s core, cause := 0x02, sev := 1, addr := some offset, synd := synd } ∧
    (∀ frame unit x, frameOf s core frame = some x → unit < 128 → ∃ t, execUpset s (.frameUnit core frame unit) = t ∧ t.mem = s.mem ∧
      t.groups = s.groups ∧ frameOf t core frame = some { x with marks := x.marks ||| BitVec.ofNat 128 (2 ^ unit) }) ∧
    (∀ u p d a b l, issueOf s = some u → isScalar a = false → execLanes u p = u.f.lanes → u.f.lanes ≠ 0 → lowest u.f.lanes = l →
      let x : Latent := ⟨.vreg u.key a.toNat l, offset, synd⟩
      s.upsets = [x] → runRow exec (.iadd p d a b) s = .next (consumeLatents s { s with cur := none } [x]))) ∧
  (
  ∀ s : Machine.State,
    let k := s.input.key
    let p := s.input.sub
    ((gangOf s k = none ∨ ∃ q, gangOf s k = some q ∧ ∀ x ∈ q.fills, x.page ≠ p) → exec .spFillDone s = .next s) ∧
    (∀ q l x f s1 s2, gangOf s k = some q → launchOf s q.launch = some l → q.fills.find? (fun f => f.page == p) = some x → x.frame = some f →
      PageMap (q.page p) = false →
      let e := pageEntry true true false false x.home f (PagePin (q.page p))
      areaState s (whoPager q l) (entryVa l q.index p) = (s1, .ready) → writeEntry s1 k p e = (s2, true) →
      (∀ g ∈ s2.groups, g.2.spills = []) → ∃ t q', exec .spFillDone s = .next t ∧ gangOf t k = some q' ∧ q'.page p = e ∧
        p ∉ q'.written ∧
        (∀ y ∈ q'.fills, y.page ≠ p) ∧ frameOf t ((q.cores[x.home]?).getD 0) f = some ⟨k, p, [], 0, s2.clock⟩ ∧ t.mem = s2.mem) ∧
    ((gangOf s k = none ∨ ∃ q, gangOf s k = some q ∧ p ∉ q.leaving) → exec .spWritebackDone s = .next s) ∧
    (∀ q s1 s2 s3 va, gangOf s k = some q → p ∈ q.leaving → evictionState s k p = (s1, .ready, va) → writeBack s1 k p = (s2, none) →
      releasePage s2 k p false = (s3, true) → ∃ t q', exec .spWritebackDone s = .next t ∧ gangOf t k = some q' ∧
        p ∉ q'.leaving ∧ PageRes (q'.page p) = false ∧
        ∀ u q2 x, gangOf s3 u = some q2 → x ∈ q2.fills → x.victim = some (k, p) →
          ∃ q3, gangOf t u = some q3 ∧ { x with frame := some (PageFrame (q.page p)), victim := none } ∈ q3.fills) ∧
    (groupOf s k = none → exec .cloneReplay s = .next s) ∧
    (∀ g, groupOf s k = some g →
      let core := k / 128
      let r := (coreOf s core).replay.find? (fun x => x.2 == k)
      (s.input.ok = true → r = none → exec .cloneReplay s = .next s) ∧
      (∀ x, s.input.ok = true → r = some x →
        exec .cloneReplay s = .next (setCore s core { coreOf s core with replay := (coreOf s core).replay.erase x })) ∧
      (s.input.ok = false → fragAt g p = none → exec .cloneReplay s = .next s) ∧
      (∀ f l, s.input.ok = false → fragAt g p = some f → launchOfGroup s g = some l →
        ((recCheck l = false ∨ mayIssue s k g f = false) → exec .cloneReplay s = .next s) ∧
        (recCheck l = true → mayIssue s k g f = true → ∀ s' i n, standsAt s k g f l = (s', some (i, n)) →
          (comparedKind i = none → exec .cloneReplay s = .next s') ∧
          ∀ kind, comparedKind i = some kind →
            let from' := if kind = 2 then f.lanes else activeOf g f.lanes (pfxOf i)
            (lane from' p = false → exec .cloneReplay s = .next s') ∧
            (lane from' p = true →
              let info := kind + 256 * p
              let t : Trap := { cls := 20, info0 := BitVec.ofNat 64 f.pc, info1 := BitVec.ofNat 64 info, rung := 1 }
              ∃ s'' e, s''.fresh = s'.fresh ++ [e] ∧ { s'' with fresh := s'.fresh } = s' ∧
                (e.unit, e.cause, e.sev, e.addr, e.synd, e.ctx) = (unitCore s' core, 0x22, 3, some f.pc, info, some l.ctx) ∧
                (takeoverDue s'' (unitCore s' core) = false → exec .cloneReplay s = .next (trapHeld s'' k f n t)) ∧
                (takeoverDue s'' (unitCore s' core) = true → ∃ t', exec .cloneReplay s = .next t' ∧
                  ∃ d ∈ t'.due, d.key = some k ∧ d.lanes = f.lanes ∧ d.words = n ∧ d.trap.cls = 20 ∧ d.trap.info1 = t.info1))))) ∧
    (s.reports = [] → exec .watchImpreciseReport s = .next s) ∧
    (∀ r rest, s.reports = r :: rest →
      let c := tget Comparator.reset s.cxComps r.comp
      let counted := fun (t : Machine.State) => t.reports = rest ∧ t.mem = s.mem ∧
        tget Comparator.reset t.cxComps r.comp = if c.en then { c with hits := min 0xFFFFFFFF (c.hits + 1), last := r.word } else c
      (r.gang = none → ∃ t, exec .watchImpreciseReport s = .next t ∧ counted t ∧ t.groups = s.groups) ∧
      (∀ uid key g, r.gang = some uid → r.group = some key → groupOf s key = some g → g.gang = uid → liveLanes g ≠ 0 →
        (∀ x ∈ g.pending, x.cls ≠ 23) → ∃ t, exec .watchImpreciseReport s = .next t ∧ counted t ∧
          groupOf t key = some { g with pending := g.pending ++ [⟨23, BitVec.ofNat 64 r.addr, r.word, 0, none, none⟩] })) ∧
    (let c := coreOf s k
     let x := traceOf s (corePart s k)
     let wrote := fun (t : Machine.State) => t.groups = s.groups ∧ traceOf t (corePart s k) = { x with count := (x.count + 1) % 2 ^ 48 }
     (c.unwritten = [] → c.lost = 0 → exec .traceRecordWrite s = .next s) ∧
     (c.unwritten = [] → c.lost ≠ 0 → ∃ t, exec .traceRecordWrite s = .next t ∧ wrote t ∧ (coreOf t k).lost = 0) ∧
     (∀ b rest, c.unwritten = b :: rest → ∃ t, exec .traceRecordWrite s = .next t ∧ wrote t ∧ (coreOf t k).unwritten = rest ∧
       let s' := setCore s k { c with unwritten := rest }
       ∀ s'' y, deviceStoreAll s' { whoCtx s' x.ctx true with core := k } (x.base + 32 * (x.count % (2 ^ x.log2 / 32)))
         [b.take 16, b.drop 16] = (s'', .ok y) → t.mem = s''.mem) ∧
     ((x.on = false ∨ x.sample = 0 ∨ s.clock < c.sampled + x.sample) → exec .traceSample s = .next s) ∧
     (x.on = true → x.sample ≠ 0 → c.sampled + x.sample ≤ s.clock →
       let s' := setCore s k { c with sampled := s.clock }
       (c.lastIssue = none → exec .traceSample s = .next s') ∧
       ∀ key ln, c.lastIssue = some (key, ln) →
       (groupOf s key = none → exec .traceSample s = .next s') ∧
       (∀ g f l, groupOf s key = some g → fragAt g ln = some f → launchOfGroup s g = some l → (traceOf s l.part).on = true →
         (coreOf s (key / 128)).unwritten.length < 64 →
         let place := codePos s (some l) f.pc
         exec .traceSample s = .next (setCore s' (key / 128) { coreOf s' (key / 128) with unwritten := (coreOf s' (key / 128)).unwritten ++
           [leBytes 1 3 ++ leBytes 1 (key / 128) ++ leBytes 1 (key % 128) ++ leBytes 1 ln ++ leBytes 4 place.1 ++
             leBytes 2 (min 65535 place.2) ++ leBytes 2 0 ++ leBytes 4 l.seq ++ leBytes 8 s.clock ++ leBytes 8 0] })))))

/-! ### Engines -/

/-- R223 to R225, R241, R242, R245, R254 to R257, R262, R266, R279, R350: copy engines take transfers in turn and move their units, engine
writes reach their places, the walker accepts records and issues nodes, and nodes and transfers complete.

Where the manual leaves something open, the clauses take the model's choice: log entries 3, 30, 31 and 47. -/
def Obligations.EnginesMoveTheirWork : Prop :=
  ∀ s : Machine.State,
    let k := s.input.key
    (let e := s.input.sub % 2
     let work := engineWork s k e
     let mayTake := engineTakes s k (4 + e) = true ∧ ¬ (copyNodeReady s k = true ∧ (coreOf s k).turn % 2 = 0)
     (work = none → (¬ mayTake ∨ nextTransfer s k = none) → exec .copyTransferStart s = .next s) ∧
     (∀ n x, work = none → mayTake → nextTransfer s k = some (n, x) → tfind s.transfers n = some x → s.input.value = 0 →
       ∃ t, exec .copyTransferStart s = .next t ∧ tfind t.transfers n = some { x with engine := some e } ∧
         (coreOf t k).turn = 2 * (match x.group with | none => 128 | some key => key % 128)) ∧
     (work ≠ none → corePart s k = 7 → exec .copyTransferStart s = .next s) ∧
     (∀ n x s1 s2 bs y dpa ma, work = some n → tfind s.transfers n = some x → s.input.value = 1 → x.number = n → x.engine = some e →
       x.halted = false → x.complete = none → corePart s k ≠ 7 →
       let o := CopyOps.ofList x.operands
       let u := x.progress
       let w := whoTransfer s x
       u < o.total → o.form = 0 → o.ssp = 0 → o.dsp = 0 →
       engineRead s w x.anchor (o.src + o.sp * (u / o.len) + 16 * (u % o.len)) 16 = (s1, .ok (bs, false)) →
       translate s1 (whoTransfer s1 x) .store false (o.dst + o.dp * (u / o.len) + 16 * (u % o.len)) = (s2, .ok (y, .dev dpa ma)) →
       (hotOf s2.mem (whoTransfer s1 x).part).en = false → tfind s2.transfers n = some x → x.kind ≠ 1 →
       ∃ t, exec .copyTransferStart s = .next t ∧ tfind t.transfers n = some { x with progress := u + 1, starved := none } ∧
         t.places = s2.places ++ [⟨n, u, .ma ma, bs, false, dpa, 8 * x.core + (4 + e), if x.core < 48 then x.core / 16 else 3⟩] ∧ t.mem = s2.mem)) ∧
    (tfind s.transfers k = none → exec .copyTransferComplete s = .next s ∧ exec .tileTransferComplete s = .next s) ∧
    (∀ x, tfind s.transfers k = some x →
      let copied := x.kind ≠ 1 ∧ x.complete = none ∧ x.halted = false ∧ (CopyOps.ofList x.operands).total ≤ x.progress ∧ NoneOpen s x.number
      let tiled := (TileOps.ofList x.operands).total ≤ x.progress ∧ NoneOpen s k
      let completes := fun (i : Instr) => ∃ t, exec i s = .next t ∧
        (∀ y, tfind t.transfers k = some y → y.complete = some s.clock ∧ y.err = x.err) ∧
        ((x.node ≠ none ∨ x.packet ≠ none) → tfind t.transfers k = some (ended s x)) ∧
        (∀ id, x.op = some id → CountedDown s t id) ∧ t.mem = s.mem
      (¬ copied → exec .copyTransferComplete s = .next s) ∧ (copied → completes .copyTransferComplete) ∧
      ((x.kind ≠ 1 ∨ x.complete ≠ none ∨ x.halted = true) → exec .tileTransferComplete s = .next s) ∧
      (x.kind = 1 → x.complete = none → x.halted = false → s.input.value = 0 →
        (¬ tiled → exec .tileTransferComplete s = .next s) ∧ (tiled → completes .tileTransferComplete))) ∧
    (let here := fun (p : Place) => p.transfer == k && p.unit == s.input.sub
     (s.places.filter here = [] → exec .engineWriteGlobalPlace s = .next s) ∧
     (∀ p, s.places.filter here = [p] →
       let after := ∃ x ∈ s.places, x.transfer = k ∧ x.loc = p.loc ∧ x.unit < s.input.sub
       (after → exec .engineWriteGlobalPlace s = .next s) ∧
       (∀ a, ¬ after → p.loc = .ma a → p.poison = false → s.mem.symErr = [] → s.mem.chans = [] → s.mem.inter = [] →
         ∃ t, exec .engineWriteGlobalPlace s = .next t ∧ BytesPut s t a p.bytes ∧ t.places = s.places.filter (fun x => !here x) ∧
           t.groups = s.groups))) ∧
    (let team := s.input.sub
     let j := s.input.sub2
     let core := ringCore s k team
     (teamOf s k team = none → exec .walkerAccept s = .next s ∧ exec .nodeCommit s = .next s ∧ exec .nodeComplete s = .next s) ∧
     (∀ x, teamOf s k team = some x →
       let z := slotOf x j
       let node := nodeBody z.record
       (x.posts = [] → exec .walkerAccept s = .next s) ∧
       (∀ p ps, x.posts = p :: ps →
         let busy := ringSize x = 0 ∨ (slotOf x p.slot).state ≠ 0 ∨ ∃ v ∈ s.saves, v.gang = k
         (busy → exec .walkerAccept s = .next s) ∧
         (∀ s1 bs, ¬ busy → readRecord s k core p (x.ringBase + 64 * p.slot) = (s1, .ok bs) → s1.gangs = s.gangs → s1.groups = s.groups →
           recordRefused bs (ringSize x) (scratchOfGang s1 k) x.acc = false →
           let r : Int := (field bs 1 1 : Int) - (slotOf x p.slot).h
           let accepted := fun (t : Machine.State) => exec .walkerAccept s = .next t ∧ ∃ y, teamOf t k team = some y ∧
             y.accepted = x.accepted + 1 ∧ (slotOf y p.slot).record = bs ∧ (slotOf y p.slot).state = (if 0 < r then 1 else 2) ∧
             (slotOf y p.slot).r = r ∧ (slotOf y p.slot).order = x.accepted + 1 ∧ (slotOf y p.slot).poster = p.group ∧
             y.posts = (if p.left = 1 then ps else { p with slot := (p.slot + 1) % ringSize x, left := p.left - 1, starved := none } :: ps) ∧
             ∀ i, i ≠ p.slot → slotOf y i = slotOf x i
           (targetOf s1 k bs = .none → 0 < p.left → ∃ t, accepted t) ∧
           (∀ key c g, targetOf s1 k bs = .counter key c → groupOf s key = some g →
             (255 ≤ (counterOf g c).val → exec .walkerAccept s = .next s1) ∧
             ((counterOf g c).val < 255 → c < g.counters.length → 1 < p.left → ∃ t g', accepted t ∧ groupOf t key = some g' ∧
               (counterOf g' c).val = (counterOf g c).val + 1)))) ∧
       ((z.state ≠ 3 ∨ z.phase ≠ 1) → exec .nodeCommit s = .next s) ∧
       (z.state = 3 → z.phase = 1 →
         let whole := z.latch.length = 2 * node.k * (node.m + node.n)
         (∀ c s1 out, ¬ whole → gathererOf s k core z = some c → gatherNode s c node z.index = (s1, .ok out) → teamOf s1 k team = some x →
           ∃ t y, exec .nodeCommit s = .next t ∧ teamOf t k team = some y ∧ slotOf y j = { z with latch := out, starved := none } ∧ t.mem = s1.mem) ∧
         (whole → Earlier x z → exec .nodeCommit s = .next s) ∧
         (whole → ¬ Earlier x z → (∀ a ∈ nodeAtiles x z, ∀ c ∈ (coreOf s core).claims, c.1 ≠ a) →
           ∃ t y, exec .nodeCommit s = .next t ∧ teamOf t k team = some y ∧ slotOf y j = { z with phase := 2 } ∧
             (∀ a ∈ nodeAtiles x z, holdsClaim t core a (takerNode k team j) = true) ∧ t.mem = s.mem) ∧
         (∀ a c, whole → ¬ Earlier x z → a ∈ nodeAtiles x z → (coreOf s core).claims.find? (fun c => c.1 == a) = some c →
           c.2 ≠ takerNode k team j → ∃ t, exec .nodeCommit s = .next t ∧ teamOf t k team = some x ∧ t.groups = s.groups)) ∧
       (z.trans.bind (tfind s.transfers) = none → (z.state ≠ 3 ∨ z.phase ≠ 2) → exec .nodeComplete s = .next s) ∧
       (∀ w, z.trans.bind (tfind s.transfers) = some w →
         ((z.state ≠ 3 ∨ w.complete = none) → exec .nodeComplete s = .next s) ∧
         (z.state = 3 → w.complete ≠ none → s.places = [] → ∃ t y, exec .nodeComplete s = .next t ∧ teamOf t k team = some y ∧
           (slotOf y j).state = 0 ∧ z.trans.bind (tfind t.transfers) = none ∧ t.mem = s.mem)) ∧
       (z.trans = none → z.state = 3 → z.phase = 2 → field z.record 0 1 % 4 = 2 →
         (∀ q l, s.input.ok = true → gangOf s k = some q → launchOf s q.launch = some l →
           ∃ t, exec .nodeComplete s = .next t ∧ gangOf t k = none) ∧
         (s.input.ok = false → node.m ≤ 32 → node.n ≤ 32 → ∃ t y, exec .nodeComplete s = .next t ∧ teamOf t k team = some y ∧
           (slotOf y j).state = 0 ∧ t.mem = s.mem ∧
           (∀ i < node.m, ∀ c < node.n, let e := 32 * i + c
             element t core (x.atiles + node.ct) e = nodeElement z.latch node i c
               (if node.acc then element s core (x.atiles + node.ct) e else 0)) ∧
           (∀ c gid team' key g, recTarget z.record = some (c, gid, team') → groupAt s k team' gid = some (key, g) → groupOf s key = some g →
             c < g.counters.length → ∃ g', groupOf t key = some g' ∧ counterOf g' c = (counterOf g c).dec z.err))))) ∧
    (nextNode s k = none → exec .walkerIssueNode s = .next s) ∧
    (∀ uid team j z x, nextNode s k = some (uid, team, j, z) → teamOf s uid team = some x →
      let node := nodeBody z.record
      let empty := node.m = 0 ∨ node.n = 0 ∨ (node.k = 0 ∧ node.acc = true)
      (field z.record 0 1 % 4 ≠ 2 → ∃ t y w, exec .walkerIssueNode s = .next t ∧ teamOf t uid team = some y ∧
        slotOf y j = { z with state := 3, trans := some s.nextTransfer, engine := (copyFree s k).map (· + 4) } ∧
        tfind t.transfers s.nextTransfer = some w ∧ w.kind = 0 ∧ w.core = k ∧ w.node = some (team, j) ∧ w.engine = copyFree s k ∧
        w.operands = (nodeCopy z.record).list ∧ w.complete = none ∧ t.mem = s.mem) ∧
      (field z.record 0 1 % 4 = 2 → empty → slotOf x j = z → z.trans = none → ∃ t y, exec .walkerIssueNode s = .next t ∧
        teamOf t uid team = some y ∧ (slotOf y j).state = 0 ∧ t.mem = s.mem) ∧
      (field z.record 0 1 % 4 = 2 → ¬ empty →
        let z' : Slot := { z with state := 3, phase := 1, engine := matrixFree s k }
        let x' : Team := { x with slots := tset Slot.reset x.slots j z' }
        ∀ s' q c s1 out, gangOf s uid = some q →
          s' = setGang (setCore s k { coreOf s k with walkTurn := 4 * uid + team }) uid { q with teams := q.teams.set team x' } →
          gathererOf s' uid k z' = some c → gatherNode s' c node z.index = (s1, .ok out) → teamOf s1 uid team = some x' →
          ∃ t y, exec .walkerIssueNode s = .next t ∧ teamOf t uid team = some y ∧ slotOf y j = { z' with latch := out, starved := none } ∧
            t.mem = s1.mem))

/-! ### Links -/

/-- R365 to R372, R432: a write goes out under its writer's next number with the writer's stamp; sweeps and writes carry numbers that raise
CT entries, requests are served once their stamps are met, a response raises seen entries, a die's removal takes its gangs and its
undelivered writes with it, and a resynchronisation starts a new epoch.

R373 to R378: a flit from a peer is refused or performed and answered; replies, refusals and timeouts end this device's own
requests; a flit leaves on one wavelength for its line, in service and of a mode that its peer takes, while its core and the optical die
have room; wavelengths go and fibres retrain.

Where the manual leaves something open, the clauses take the model's choice: log entries 3, 33, 34, 55, 61, 62, 83 and 84. -/
def Obligations.LevantAndEtesianCarry : Prop :=
  (
  ∀ s : Machine.State,
    let k := s.input.key
    let w := s.input.sub
    let first := (linkPackets s w k).head?
    (∀ epoch xs j, j < 4 → stampEntry (packStamp epoch xs) j = (xs[j]?).getD 0 % 2 ^ 14 ∧ stampEpoch (packStamp epoch xs) = epoch % 16) ∧
    (∀ v past a old marked dirty,
      let order := s.fabric.mark
      let n := (latest s v + 1) % 16384
      s.mem.past = past ++ [⟨.ma a, old, order, some v, marked, dirty⟩] → (∀ p ∈ past, p.upto < order) → s.mem.order = order + 1 →
      dieRemoved s v = false → tooFarBehind s v n = [] → v < 4 → (levantOf s v).seen.length = 4 →
      let t := postWrites s
      t.mem = s.mem ∧ t.numbers = s.numbers.set v n ∧ ∃ p, t.packetsLv = s.packetsLv ++ [p] ∧ p.writer = v ∧ p.die = 3 ∧
        p.number = n ∧ p.epoch = (levantOf s v).epoch ∧ p.sweep = false ∧ p.applied = false ∧ p.unit = a ∧ p.order = order ∧
        p.seq = linkSeq s v 3 ∧ ∀ j < 4, stampEntry p.stamp j = if j = v then n else (((levantOf s v).seen[j]?).getD 0) % 2 ^ 14) ∧
    ((4 ≤ k ∨ dieRemoved s k = true) → exec .levantSweep s = .next s) ∧
    (k < 4 → dieRemoved s k = false → ∃ t xs, exec .levantSweep s = .next t ∧
      { t with packetsLv := s.packetsLv, fabric := s.fabric } = s ∧ t.packetsLv = s.packetsLv ++ xs ∧ xs.map (·.die) = diesUp s ∧
      ∀ p ∈ xs, p.writer = k ∧ p.number = latest s k ∧ p.epoch = (levantOf s k).epoch ∧ p.sweep = true ∧ p.applied = false ∧
        p.seq = linkSeq s k p.die) ∧
    ((∀ p, first = some p → p.sweep = false) → exec .levantSweepArrival s = .next s) ∧
    ((∀ p, first = some p → p.sweep = true) → exec .levantWriteArrival s = .next s) ∧
    (∀ p x, first = some p → s.levant[k]? = some x →
      let i := if p.sweep then Instr.levantSweepArrival else .levantWriteArrival
      (p.epoch ≠ x.epoch → exec i s = .next { s with packetsLv := s.packetsLv.erase p }) ∧
      (p.epoch = x.epoch → ∃ t y, exec i s = .next t ∧ t.levant[k]? = some y ∧ PacketTaken s t p x y ∧
        y.seen = if p.sweep = true ∧ lvLe ((x.seen[w]?).getD 0) p.number = true then x.seen.set w p.number else x.seen)) ∧
    (let request := s.fabric.requests.find? (fun r => r.src == w)
     (request = none ∨ k ≠ 3 → exec .levantReadRequest s = .next s) ∧
     (∀ r x, request = some r → k = 3 → s.levant[3]? = some x →
      let taken := { s with fabric := { s.fabric with requests := s.fabric.requests.erase r } }
      let becomes := fun (y : Levant) => exec .levantReadRequest s = .next { taken with levant := s.levant.set 3 y }
      (stampEpoch r.stamp ≠ x.epoch → exec .levantReadRequest s = .next taken) ∧
      (stampEpoch r.stamp = x.epoch →
        (stampMet x r.stamp = true → becomes { x with served := x.served ++ [{ r with stamp := r.bytes }] }) ∧
        (stampMet x r.stamp = false → x.early.length < 96 →
          becomes { x with early := x.early ++ [r], ephigh := max x.ephigh (x.early.length + 1) }) ∧
        (stampMet x r.stamp = false → 96 ≤ x.early.length → exec .levantReadRequest s = .next s)))) ∧
    ((levantOf s w).served.find? (fun r => r.src == k) = none → exec .levantResponse s = .next s) ∧
    (∀ r h x, s.levant[w]? = some h → h.served.find? (fun r => r.src == k) = some r → k ≠ w → s.levant[k]? = some x →
      let taken := { s with levant := s.levant.set w { h with served := h.served.erase r } }
      (stampEpoch r.stamp ≠ x.epoch → exec .levantResponse s = .next taken) ∧
      (stampEpoch r.stamp = x.epoch → ∃ seen, seen.length = 4 ∧
        exec .levantResponse s = .next { taken with levant := taken.levant.set k { x with seen := seen } } ∧
        ∀ j < 4, let old := (x.seen[j]?).getD 0
          let new := stampEntry r.stamp j
          seen[j]? = some (if (j < 3 ∧ x.removed.getLsbD j = true) ∨ lvLe old new = false then old else new))) ∧
    (∀ (m : Mem) e unit, e.loc = .ma unit → e.writer ≠ none → e.bytes.length = 16 → m.symErr = [] →
      m.past.filter (fun p => p.loc == .ma unit && decide (e.upto ≤ p.upto)) = [e] →
      ∀ x, (m.unwrite unit e.upto).byte x = if unit ≤ x ∧ x < unit + 16 then (e.bytes[x - unit]?).getD 0 else m.byte x) ∧
    ((3 ≤ k ∨ dieRemoved s k = true) → exec .dieRemoval s = .next s) ∧
    (k < 3 → dieRemoved s k = false → ∃ t, exec .dieRemoval s = .next t ∧
      (∀ d, s.dies[k]? = some d → t.dies = s.dies.set k { d with fenced := true, live := 0 }) ∧
      (∀ x ∈ s.gangs, (∃ c ∈ x.2.cores, c / 16 = k) → gangOf t x.1 = none) ∧
      (∀ p ∈ t.packetsLv, p.writer ≠ k ∧ p.die ≠ k) ∧
      (∀ (i : Nat) (x : Levant), s.levant[i]? = some x → ∃ y : Levant, t.levant[i]? = some y ∧
        y.removed = x.removed ||| BitVec.ofNat 3 (2 ^ k) ∧
        y.lost = min (2 ^ 32 - 1) (x.lost + if i = k then 0 else ((undelivered s k).filter (fun p => p.die == i)).length + if i = 3 then (stray s k).length else 0)) ∧
      (∀ p ∈ t.places, p.writer = k → ∀ a, p.loc ≠ .ma a) ∧
      ∀ lid l e, launchOf s lid = some l → recRestart l = true → e < 3 → e ≠ k → dieRemoved s e = false → dieInPart s e l.part = true →
        ∃ l' e', launchOf t lid = some l' ∧ l'.done = l.done ∧ l'.killed = l.killed ∧ e' ≠ k ∧ dieInPart s e' l.part = true ∧
          l'.dieOf = l.dieOf.map (fun r => if r.2.2 = k then (r.1, r.2.1, e') else r)) ∧
    ((4 ≤ k ∨ 4 ≤ w ∨ k = w) → exec .levantResync s = .next s) ∧
    (k < 4 → w < 4 → k ≠ w → ∃ t, exec .levantResync s = .next t ∧
      let epoch := ((levantOf s 3).epoch + 1) % 16
      (s.input.ok = true →
        (∀ p ∈ t.packetsLv, p.epoch = epoch ∧ p.applied = false ∧ ∃ q ∈ s.packetsLv, p.seq = q.seq ∧ p.writer = q.writer ∧ p.die = q.die ∧
          p.sweep = q.sweep ∧ p.unit = q.unit ∧ p.order = q.order) ∧
        (∀ q ∈ s.packetsLv, q.applied = false → ∃ p ∈ t.packetsLv, p.seq = q.seq ∧ p.writer = q.writer ∧ p.die = q.die ∧ p.unit = q.unit) ∧
        ∀ (i : Nat) (x : Levant), s.levant[i]? = some x → ∃ y : Levant, t.levant[i]? = some y ∧ y.epoch = epoch ∧
          y.ct = [0, 0, 0, 0] ∧ y.seen = [0, 0, 0, 0] ∧ y.seqs = x.seqs ∧ y.early = [] ∧
          y.served.map (fun r => (r.src, r.line)) = (x.served ++ x.early).map (fun r => (r.src, r.line)) ∧
          y.resync = min 255 (x.resync + 1) ∧ y.removed = x.removed) ∧
      (s.input.ok = false → (min k w, max k w) ∈ t.fabric.lost))) ∧
  (
  ∀ s : Machine.State,
    let f := s.input.flit
    let n := 2 ^ (f.size.toNat % 16)
    (∀ x ∈ [(Instr.etesianRead, 1), (.etesianWrite, 2), (.etesianAtomic, 3)],
      (f.typ.toNat ≠ x.2 → exec x.1 s = .next s) ∧
      (f.typ.toNat = x.2 → portFrozen s f = true → wavesFor s f.src.toNat ≠ [] →
        ∃ t, exec x.1 s = .next t ∧ Replied s t f 6 1 [] ∧ { t with sent := s.sent, tick := s.tick } = s) ∧
      (∀ c, f.typ.toNat = x.2 → portFrozen s f = false → FlitRefused s f c → wavesFor s f.src.toNat ≠ [] →
        ∃ t, exec x.1 s = .next t ∧ Replied s t f 6 1 [] ∧ portFrozen t f = true ∧ t.mem = s.mem ∧ t.inbound = s.inbound)) ∧
    (∀ ma, FlitLands s f ma → wavesFor s f.src.toNat ≠ [] →
      let bs := (f.data ++ List.replicate n 0).take n
      let mask := f.size.toNat / 16
      let old := leNat (s.mem.bytesAt ma n)
      let new := atomNew (f.aop.toNat % 16) (f.aop.toNat / 16) old (field f.data 0 n) (field f.data 16 n)
      (f.typ = 1 → ∃ t, exec .etesianRead s = .next t ∧ Replied s t f 4 0 (s.mem.bytesAt ma n) ∧ t.mem = s.mem) ∧
      (f.typ = 2 → f.status ≠ 2 → ∃ t, exec .etesianWrite s = .next t ∧ Replied s t f 5 0 [] ∧
        BytesPut s t ma (if mask = 0 then bs else mergeNibbles mask bs (s.mem.bytesAt ma n))) ∧
      (f.typ = 3 → ∃ t, exec .etesianAtomic s = .next t ∧ Replied s t f 5 0 (leBytes n old) ∧ BytesPut s t ma (leBytes n new))) ∧
    (answered s f = none → exec .etesianReadData s = .next s ∧ exec .etesianCompletion s = .next s ∧ exec .etesianNack s = .next s) ∧
    (∀ r, answered s f = some r →
      let rest := others s r
      ((f.typ ≠ 4 ∨ r.kind ≠ 0 ∧ r.kind ≠ 4) → exec .etesianReadData s = .next s) ∧
      (f.typ ≠ 5 → exec .etesianCompletion s = .next s) ∧ (f.typ ≠ 6 → exec .etesianNack s = .next s) ∧
      (f.typ = 4 → r.kind = 4 → exec .etesianReadData s = .next (buffered s r f.data f.status.toNat)) ∧
      (f.typ = 6 → r.kind = 4 → exec .etesianNack s = .next (buffered s r [] 1)) ∧
      (∀ x ∈ [(Instr.etesianReadData, (4 : BitVec 8), 0), (.etesianCompletion, 5, 2)], f.typ = x.2.1 → r.kind = x.2.2 →
        (∀ id o, f.status ≠ 2 → r.op = some id → r.log = none → tfind s.ops id = some o → o.acquire = false → 1 < o.waits →
          let v := loadValue r.signed r.size (leNat (f.data.take r.size))
          let xs := if r.regs = 0 then [] else owedOf r.group (BitVec.ofNat 8 r.reg) r.regs r.lane r.lane v
          exec x.1 s = .next { s with
            requests := rest, ops := tput s.ops id { o with waits := o.waits - 1, owed := o.owed ++ xs } }) ∧
        (∀ g q l, f.status = 2 → r.lane < 64 → groupOf s r.group = some g → gangOf s g.gang = some q → launchOf s q.launch = some l →
          ∃ t, exec x.1 s = .next t ∧ gangOf t g.gang = none)) ∧
      (f.typ = 5 → r.kind = 1 →
        (r.op = none → exec .etesianCompletion s = .next { s with requests := rest }) ∧
        (∀ id o, r.op = some id → tfind s.ops id = some o → 1 < o.waits →
          exec .etesianCompletion s = .next { s with requests := rest, ops := tput s.ops id { o with waits := o.waits - 1 } })) ∧
      (f.typ = 5 → r.kind = 5 → r.reg ≠ 1 → exec .etesianCompletion s = .next { s with requests := rest }) ∧
      (∀ p, tfind s.packets r.word = some p →
        (f.typ = 5 → (r.kind = 5 ∧ r.reg = 1 ∨ r.kind = 6) → ∃ t, exec .etesianCompletion s = .next t ∧ t.requests = rest ∧
          PacketIs s t r.word { p with status := some (if r.kind = 6 ∧ f.status = 2 then 3 else 2) }) ∧
        (f.typ = 6 → (r.kind = 5 ∧ r.reg = 1 ∨ r.kind = 6) → ∃ t, exec .etesianNack s = .next t ∧ t.requests = rest ∧
          PacketIs s t r.word { p with started := false, work := none, status := none, stopped := true } ∧
          ((queueOf s p.queue).state = 1 → (queueOf t p.queue).state = 2))) ∧
      (f.typ = 6 → r.kind = 5 → r.reg = 2 → ∃ t, exec .etesianNack s = .next t ∧ (checkpointOf t r.word).state = 3) ∧
      (∀ x, f.typ = 6 → r.kind = 5 → r.reg = 0 → tfind s.transfers r.word = some x → x.number = r.word → x.kind ≠ 2 → x.complete = none →
        x.halted = false → ∃ t y, exec .etesianNack s = .next t ∧ tfind t.transfers r.word = some y ∧ y.halted = true ∧
          y.progress = min x.progress r.lane) ∧
      (∀ id o, f.typ = 6 → r.kind ≤ 2 → r.op = some id → tfind s.ops id = some o → o.sure = true → exec .etesianNack s = .next s) ∧
      (f.typ = 6 → r.kind ≤ 2 → (∀ id o, r.op = some id → tfind s.ops id = some o → o.sure = false) →
        (∀ x ∈ s.requests, (x.tag = r.tag → x = r) ∧ x.refused = false) →
        let lower := ∃ x ∈ s.requests, x.op = r.op ∧ x.peer ≠ none ∧ x.lane < r.lane
        (lower → exec .etesianNack s = .next
          { s with requests := s.requests.map (fun x => if x.tag = r.tag then { x with refused := true } else x) }) ∧
        (r.op = none → ¬ lower → exec .etesianNack s = .next { s with requests := rest }) ∧
        (∀ id g h m, r.op = some id → ¬ lower → groupOf s r.group = some g → g.frags.find? (heldFor id) = some h → h.hold = .scoped id m →
          FreeToGo s r.group g h → ∃ s' g' h', groupOf s' r.group = some g' ∧ h' ∈ g'.frags ∧ h'.lanes = h.lanes ∧ h'.pix = r.lane ∧
            h'.resumed = true ∧ s'.mem = s.mem ∧ exec .etesianNack s = .next (takeTrap s' r.group h.lanes m
              ⟨9, BitVec.ofNat 64 r.va, BitVec.ofNat 64 (11 + 256 * (requestKind r).code), r.lane, false, none, 0, false, true⟩)))) ∧
    (let r := s.requests.find? (fun r => r.tag == s.input.key && r.peer.isSome && !r.refused)
     (r = none → exec .peerReplyTimeout s = .next s) ∧
     (∀ x dev, r = some x → x.peer = some dev →
       let old := tget peerReset s.peers dev
       (x.sent = false → wavesFor s dev ≠ [] → exec .peerReplyTimeout s = .next s) ∧
       (s.clock < x.issuedAt + 1050 * (old.toNat / 2 ^ 32 % 2 ^ 16) → exec .peerReplyTimeout s = .next s) ∧
       (x.issuedAt + 1050 * (old.toNat / 2 ^ 32 % 2 ^ 16) ≤ s.clock → x.sent = true ∨ wavesFor s dev = [] → ∃ t, exec .peerReplyTimeout s = .next t ∧
         tget peerReset t.peers dev = (old &&& ~~~1) ||| 0x40 ∧ ∀ y ∈ t.requests, y.tag ≠ s.input.key))) ∧
    (let k := s.input.key
     let x := tget Fibre.reset s.fibres k
     let i := s.input.sub
     let resent := fun (waves : Nat → Prop) (t : Machine.State) => t.requests.length = s.requests.length ∧
       ∀ (j : Nat) (r : Request), s.requests[j]? = some r → ∃ r', t.requests[j]? = some r' ∧ { r' with issuedAt := r.issuedAt } = r ∧
         (r.sent = true → (∃ v, r.wave = some v ∧ waves v) → r'.issuedAt = s.clock)
     (128 ≤ k → exec .wavelengthOutOfService s = .next s ∧ exec .fibreRetrain s = .next s) ∧
     (16 ≤ i → exec .wavelengthOutOfService s = .next s) ∧
     (k < 128 → i < 16 → ∃ t, exec .wavelengthOutOfService s = .next t ∧
       { t with fibres := s.fibres, requests := s.requests } = s ∧
       (s.input.ok = true → resent (fun v => v = 16 * k + i) t ∧ t.fibres = s.fibres) ∧
       (s.input.ok = false → s.input.value = 0 → resent (fun v => v = 16 * k + i) t ∧
         t.fibres = tset Fibre.reset s.fibres k { x with up := x.up &&& ~~~(BitVec.ofNat 16 (2 ^ i)) }) ∧
       (s.input.ok = false → s.input.value ≠ 0 → resent (fun v => v / 16 = k) t ∧
         t.fibres = tset Fibre.reset s.fibres k { x with up := 0, light := false })) ∧
     (k < 128 → exec .fibreRetrain s = .next { s with
       fibres := tset Fibre.reset s.fibres k
         { x with up := if s.input.ok then s.input.value.setWidth 16 else 0, light := s.input.ok, trained := x.mode } })) ∧
    (∀ dev line v, waveFor s dev line = some v →
      (upNow s (v / 16)).getLsbD (v % 16) = true ∧
      ((tget peerReset s.peers dev).getLsbD 1 = true → (tget Fibre.reset s.fibres (v / 16)).trained = true) ∧
      ∀ r ∈ s.requests, r.peer = some dev → r.sent = true → r.addr / 128 = line → r.wave = some v) ∧
    (∀ (r : Request) dev v, r.peer = some dev → departsOn s r = some v → waveFor s dev (r.addr / 128) = some v ∧
      (requestCore s r < 48 → ((flitsOut s).filter (fun x => requestCore s x == requestCore s r)).length < 512) ∧
      ((flitsOut s).filter (fun x => x.wave.map (· / 512) == some (v / 512))).length < 8192))

/-! ### The package as a whole -/

/-- R18 to R22, R30, R34 to R36, R58: a step that issues a fragment runs the row that the words at its pc decode to. The clock and
what is due between steps come first (`between`, with the ends of telemetry periods, R295), the fragment's header or unit is fetched, a unit that decodes, may stand where it
stands and obeys its prefix rules is run: S[a] and S[b] tell the rows of a shared system word apart (`select`), exec runs the row, and
what the word issued and changed is counted (`afterWord`). A step that decodes a header runs the clause's first word too, if the clause is
entered and the word may issue. A step that takes an event runs the event's row with what it carries, and a step that takes an error
of the hardware lets it come about; a write of the host to a function's MSI-X Enable, or of an entry's mask, takes it (R403), and a
request to the management port with a command that it does not serve is answered (R448). A fragment that has issued no word of its clause
goes back to its header for another that has reached it (R57). Where others' accesses are to stand between the lanes of a memory word, the step issues in the same
way, and the word breaks off there (R344). Rows are run so where no word of SRAM holds an error that waits to be read (R435).

Where the manual leaves something open, the clauses take the model's choice: log entries 1, 2, 8 and 76. -/
def Obligations.StepsRunTheDecodedRow : Prop :=
  ∀ (s : Machine.State) (rest : List Action), s.power.failed = false →
    let s' := between { s with agenda := rest }
    let s₀ := { endDuePeriods s' with cur := none }
    (∀ i x, s.agenda = .event i x :: rest → i ≠ .telemetryPeriodEnd → s₀.upsets = [] → step s = exec i { s₀ with input := x }) ∧
    (∀ x, s.agenda = .event .telemetryPeriodEnd x :: rest → s'.upsets = [] →
      step s = exec .telemetryPeriodEnd { s' with cur := none, input := x }) ∧
    (∀ x, s.agenda = .upset x :: rest → step s = .next (execUpset s₀ x)) ∧
    (∀ key ln upto t, s.agenda = .part key ln upto :: rest →
      step { s with agenda := .issue key ln :: rest, cut := some upto } = .next t → step s = .next { t with cut := none }) ∧
    (∀ fn on f, s.agenda = .pci (.msixEnable fn on) :: rest → s₀.funcs[fn]? = some f →
      step s = .next { s₀ with funcs := s₀.funcs.set fn { f with msixOn := on } }) ∧
    (∀ fn e f, s.agenda = .pci (.maskEntry fn e) :: rest → s₀.funcs[fn]? = some f →
      step s = .next { s₀ with funcs := s₀.funcs.set fn { f with masked := insertNat e f.masked } }) ∧
    (∀ n r, s.agenda = .message true n r :: rest → (n = 0 ∨ 6 < n) →
      step s = .next { s₀ with sent := s₀.sent ++ [vendorAnswer n r.tag (if r.onePacket = true ∧ r.zero = 0 then 5 else 1) []] }) ∧
    (∀ n r, s.agenda = .message false n r :: rest → n ∉ [1, 2, 4, 5, 6] →
      step s = .next { s₀ with sent := s₀.sent ++ [.management (leBytes 1 0 ++ leBytes 1 n ++ leBytes 1 5)] }) ∧
    (∀ key ln g f l b, s.agenda = .issue key ln :: rest → backToHeader s₀ key ln = b → groupOf b key = some g → fragAt g ln = some f →
      launchOfGroup b g = some l → mayIssue b key g f = true →
      let w := whoGroup b key g
      (∀ s₁ h t, f.clause = none → fetchWord b w l.stamp f.pc = (s₁, .ok h) →
        let s₂ := { s₁ with cur := some ⟨key, f.lanes, f.pc, [h], none⟩ }
        s₂.upsets = [] → afterWord s₂ .clauseHeader (exec .clauseHeader s₂) = .next t →
        (entersClause t key ln f.pc = false → step s = .next t) ∧
        (entersClause t key ln f.pc = true → UnitRuns { t with cur := none } key ln (step s))) ∧
      (f.clause ≠ none → UnitRuns b key ln (step s)))

/-- R36: a system word of an unprivileged launch takes the illegal-encoding row whatever else is wrong with it; else one that does
not decode takes it; else a unit that may not stand where it stands raises the illegal-clause trap at its word; else a unit that
breaks its prefix rules raises the illegal-prefix trap. None of them names a register before that.

Where the manual leaves something open, the clauses take the model's choice: log entry 76. -/
def Obligations.UnitsAreCheckedInOrder : Prop :=
  ∀ (priv : Bool) (g : Group) (c : Clause) (pc : Nat) (ws : List Word),
    let first := ws.headD 0
    let badClause : Trap := { cls := 1, info0 := c.word.setWidth 64, info1 := BitVec.ofNat 64 ((pc - c.head) / 4) }
    let badPfx : Trap := { cls := 2, info0 := first.setWidth 64 }
    (majorOf (baseWord ws) = 0x3D → priv = false → chooseRow priv g c pc ws = .ok .illegalEncoding) ∧
    (∀ w n, (majorOf (baseWord ws) = 0x3D → priv = true) → decode ws = .error (.illegalInstruction w n) →
      chooseRow priv g c pc ws = .ok .illegalEncoding) ∧
    (∀ i r, (majorOf (baseWord ws) = 0x3D → priv = true) → decode ws = .ok (i, r) →
      (clauseAllows c pc ws = false → chooseRow priv g c pc ws = .error badClause) ∧
      (clauseAllows c pc ws = true → pfxOk i = false → chooseRow priv g c pc ws = .error badPfx)) ∧
    (∀ p, (majorOf (baseWord ws) = 0x3D → priv = true) → decode ws = .error (.illegalPrefix p) →
      chooseRow priv g c pc ws = .error (if clauseAllows c pc ws then badPfx else badClause))

/-- R67: NOP has no effect but to pass; it may stand in a clause of any class and in any position, and not after a prefix. -/
def Obligations.NopHasNoEffect : Prop :=
  (∀ s u, issueOf s = some u → exec .nop s = .next (finish s u)) ∧
  (∀ ws, decode (0 :: ws) = .ok (.nop, ws)) ∧
  (∀ priv g c pc, chooseRow priv g c pc [0] = .ok .nop) ∧
  ∀ (q : Word) ws, isPfxWord q = true → decode (q :: 0 :: ws) = .error (.illegalPrefix q)

/-- R29, R32 to R35: words that the manual writes out decode to the rows that it says they are, and fields that no row uses make a
word illegal. -/
def Obligations.DecodingReadsTheManualsWords : Prop :=
  (∀ x ∈ ([(0xD4020001, .rdsr 2 1), (0xD500C30B, .wrsr 195 0x0B), (0x7A03FFFE, .moviSx none 3 0xFFFE), (0xA1040200, .ldsW none 4 2 0),
      (0xA5030208, .stsW none 3 2 8), (0xBCCACCCE, .cpy 202 204 206), (0xB000C4C5, .mpost 196 197), (0xC50300FE, .kadd 3 0xFE),
      (0x8201C810, .ldW none 1 200 0x10), (0x9008CC01, .stQ none 8 204 1), (0x04FFFFF0, .bra 0xFFFFF0), (0xCCC4CA00, .launch 196 202),
      (0xD000C402, .trap 196 2), (0xF408D4D5, .ctxsave 212 213), (0xD8000003, .bkpt 3), (0x0E000000, .ret)] : List (Word × Instr)),
    ∀ rest, decode (x.1 :: rest) = .ok (x.2, rest)) ∧
  (∀ w ∈ ([0x06000000, 0x07000000, 0x0E000001, 0xD3000000] : List Word), ∀ rest, ∃ n,
    decode (w :: rest) = .error (.illegalInstruction w n))

/-- R29, R32 to R35 (the model's encoder is written from the same tables): decoding the words of a well-formed unit gives that unit
with every operand, and leaves the words after it. -/
def Obligations.EncodedUnitsDecodeToThemselves : Prop :=
  ∀ (i : Instr) (rest : List Word), i.isWord = true → i.WellFormed → decode (encode i ++ rest) = .ok (i, rest)

/-- The canonical form of device memory (the model's own): every step of the package keeps the listed bytes in rising order with
none that an unlisted address reads as.

Where the manual leaves something open, the clauses take the model's choice: log entry 10. -/
def Obligations.StepsKeepMemoryCanonical : Prop :=
  ∀ s t : Machine.State, MemoryWf s → step s = .next t → MemoryWf t

/-- R137: TANH and EX2 lie within 2 ulp of the exact result, LG2 within 2 ulp outside [0.5, 2] and within 2^−22 inside, and SIN and COS within
2^−22 for every finite operand, with exact argument reduction.

Where the manual leaves something open, the clauses take the model's choice: log entry 13. -/
def Obligations.SpecialFunctionsMeetTheirBounds : Prop :=
  ∀ (w : Word) (q : Rat) (z : Bool), decodeFmt .f32 w.toNat = .num q z →
    LiesWithinTwoUlp (tanhOf w) (Real.tanh q) ∧
    (-150 < q → q < 128 → LiesWithinTwoUlp (ex2Of w) ((2 : ℝ) ^ (q : ℝ))) ∧
    (0 < q → (q < 1 / 2 ∨ 2 < q) → LiesWithinTwoUlp (lg2Of w) (Real.logb 2 q)) ∧
    (1 / 2 ≤ q → q ≤ 2 → LiesWithin (lg2Of w) (Real.logb 2 q) ((2 : ℝ) ^ (-22 : ℤ))) ∧
    LiesWithin (sinOf w) (Real.sin q) ((2 : ℝ) ^ (-22 : ℤ)) ∧
    LiesWithin (cosOf w) (Real.cos q) ((2 : ℝ) ^ (-22 : ℤ))

/-- R12, R13, R153, R285, R298, R303, R306, R307, R376, R379, R401 to R403, R447: what hardware reset leaves, for the values that
the manual gives. With them, device memory right after reset has the model's canonical form.

Where the manual leaves something open, the clauses take the model's choice: log entry 10. -/
def Obligations.ResetLeavesTheStatedValues : Prop :=
  let s := State.reset
  MemoryWf s ∧
  (s.groups, s.gangs, s.launches, s.packets, s.clock) = ([], [], [], [], 0) ∧
  (∀ d < 3, s.dies[d]? = some Die.reset) ∧ (Die.reset.partlo, Die.reset.parthi, Die.reset.live, Die.reset.rej) = (0, 0, 0xFFFF, false) ∧
  (∀ c, let x := coreOf s c; (x.empty, x.b1, x.b2, x.b3) = (true, 0, 0, 0)) ∧
  (∀ f, IndV (s.mem.entry f) = false) ∧
  (s.mem.period, s.mem.thresh, s.mem.rebuild.rate, s.mem.llcway) = (24, 16, 5, List.replicate 8 0xFFFFFF) ∧
  (∀ q, (queueOf s q).state = 0 ∧ (queueOf s q).head = 0 ∧ (queueOf s q).tail = 0) ∧
  (∀ p, (journalOf s p).nextSeq = 1) ∧
  s.banks = [] ∧
  (s.power.step, s.power.pinreq, s.power.pktreq, s.power.portreq) = (0, 0, 0, 0)

/-- No rule of the manual stops the package: a step answers a next state, unless the agenda asks for a row of the code as if it were
an event, which the model turns away by name; and no step is refused.

Where the manual leaves something open, the clauses take the model's choice: log entries 3 and 4. -/
def Obligations.NoStepStopsThePackage : Prop :=
  ∀ s : Machine.State, (∃ t, step s = .next t) ∨
    step s = .fault .noIssuingUnit ∧ ∃ i x rest, s.agenda = .event i x :: rest ∧ ofCode i = true
end

