-- ==== Sys2Proof/Laws/Table.lean ====
section
/-!
SUPPORT. Laws of the sparse table: a read after a write, and the canonical form.
-/
namespace Sys2Proof

variable {α : Type}

/-! ### Read after write -/

@[simp] theorem tfind_nil (k : Nat) : tfind ([] : Table α) k = none := rfl

theorem tfind_tput (t : Table α) (k k' : Nat) (x : α) :
    tfind (tput t k x) k' = if k' = k then some x else tfind t k' := by
  induction t with
  | nil => simp only [tput, tfind]; split <;> split <;> first | rfl | omega
  | cons p t ih =>
    obtain ⟨j, v⟩ := p
    unfold tput
    split
    · subst j; simp only [tfind]; split <;> split <;> first | rfl | omega
    · split
      · by_cases h : k' = k
        · simp [tfind, h]
        · simp only [tfind, if_neg (Ne.symm h), if_neg h]
      · simp only [tfind, ih]; split <;> split <;> first | rfl | omega

@[simp] theorem tfind_tput_same (t : Table α) (k : Nat) (x : α) : tfind (tput t k x) k = some x := by
  simp [tfind_tput]

@[simp] theorem tfind_tput_ne (t : Table α) {k k' : Nat} (x : α) (h : k' ≠ k) : tfind (tput t k x) k' = tfind t k' := by
  simp [tfind_tput, h]

theorem tfind_tdel (t : Table α) (k k' : Nat) : tfind (tdel t k) k' = if k' = k then none else tfind t k' := by
  induction t with
  | nil => simp [tdel]
  | cons p t ih =>
    obtain ⟨j, v⟩ := p
    unfold tdel
    split
    · subst j; rw [ih]; by_cases h : k' = k
      · simp [h]
      · simp only [tfind, if_neg (Ne.symm h), if_neg h]
    · simp only [tfind, ih]; split <;> split <;> first | rfl | omega

theorem tget_tput (d : α) (t : Table α) (k k' : Nat) (x : α) :
    tget d (tput t k x) k' = if k' = k then x else tget d t k' := by
  unfold tget; rw [tfind_tput]; split <;> simp

theorem tget_tset [DecidableEq α] (d : α) (t : Table α) (k k' : Nat) (x : α) :
    tget d (tset d t k x) k' = if k' = k then x else tget d t k' := by
  unfold tset
  split
  · unfold tget; rw [tfind_tdel]; subst_vars; split <;> simp
  · exact tget_tput d t k k' x

@[simp] theorem tget_tset_same [DecidableEq α] (d : α) (t : Table α) (k : Nat) (x : α) : tget d (tset d t k x) k = x := by
  simp [tget_tset]

@[simp] theorem tget_tset_ne [DecidableEq α] (d : α) (t : Table α) {k k' : Nat} (x : α) (h : k' ≠ k) :
    tget d (tset d t k x) k' = tget d t k' := by
  simp [tget_tset, h]

/-! ### The canonical form -/

theorem twfFrom_mono [DecidableEq α] (d : α) {lo lo' : Nat} (h : lo' ≤ lo) (t : Table α) :
    twfFrom d lo t = true → twfFrom d lo' t = true := by
  cases t with
  | nil => simp [twfFrom]
  | cons p t =>
    obtain ⟨j, v⟩ := p
    simp only [twfFrom, Bool.and_eq_true, decide_eq_true_eq]
    rintro ⟨⟨h1, h2⟩, h3⟩
    exact ⟨⟨by omega, h2⟩, h3⟩

theorem twfFrom_tput [DecidableEq α] (d : α) (lo k : Nat) (x : α) (hx : x ≠ d) (hk : lo ≤ k) (t : Table α)
    (h : twfFrom d lo t = true) : twfFrom d lo (tput t k x) = true := by
  induction t generalizing lo with
  | nil => simp [tput, twfFrom, hx, hk]
  | cons p t ih =>
    obtain ⟨j, v⟩ := p
    simp only [twfFrom, Bool.and_eq_true, decide_eq_true_eq] at h
    obtain ⟨⟨h1, h2⟩, h3⟩ := h
    unfold tput
    split
    · subst j; simp [twfFrom, hx, hk, h3]
    · split
      · simp only [twfFrom, Bool.and_eq_true, decide_eq_true_eq]
        exact ⟨⟨hk, hx⟩, ⟨by omega, h2⟩, h3⟩
      · simp only [twfFrom, Bool.and_eq_true, decide_eq_true_eq]
        exact ⟨⟨h1, h2⟩, ih (j + 1) (by omega) h3⟩

theorem twfFrom_tdel [DecidableEq α] (d : α) (lo k : Nat) (t : Table α) (h : twfFrom d lo t = true) :
    twfFrom d lo (tdel t k) = true := by
  induction t generalizing lo with
  | nil => simp [tdel, twfFrom]
  | cons p t ih =>
    obtain ⟨j, v⟩ := p
    simp only [twfFrom, Bool.and_eq_true, decide_eq_true_eq] at h
    obtain ⟨⟨h1, h2⟩, h3⟩ := h
    unfold tdel
    split
    · exact ih lo (twfFrom_mono d (by omega) t h3)
    · simp only [twfFrom, Bool.and_eq_true, decide_eq_true_eq]
      exact ⟨⟨h1, h2⟩, ih (j + 1) h3⟩

theorem twf_tset [DecidableEq α] (d : α) (t : Table α) (k : Nat) (x : α) (h : twf d t = true) : twf d (tset d t k x) = true := by
  unfold tset
  split
  · exact twfFrom_tdel d 0 k t h
  · rename_i hx; exact twfFrom_tput d 0 k x hx (Nat.zero_le k) t h

theorem twf_writeBytes (t : Table Byte) (a : Nat) (bs : List Byte) (h : twf (0 : Byte) t = true) :
    twf (0 : Byte) (writeBytes t a bs) = true := by
  induction bs generalizing t a with
  | nil => exact h
  | cons b bs ih => exact ih (tset 0 t a b) (a + 1) (twf_tset 0 t a b h)

/-! ### Bytes -/

theorem tget_writeBytes (t : Table Byte) (a k : Nat) (bs : List Byte) :
    tget 0 (writeBytes t a bs) k = if a ≤ k ∧ k < a + bs.length then bs.getD (k - a) 0 else tget 0 t k := by
  induction bs generalizing t a with
  | nil => rw [if_neg (fun h => Nat.not_lt.mpr h.1 h.2)]; rfl
  | cons b bs ih =>
    simp only [writeBytes, ih, List.length_cons]
    by_cases h1 : k = a
    · subst h1; rw [if_neg (by omega), if_pos (by omega), tget_tset, if_pos rfl]; simp
    · by_cases h2 : a + 1 ≤ k ∧ k < a + 1 + bs.length
      · obtain ⟨n, rfl⟩ : ∃ n, k = a + 1 + n := ⟨k - (a + 1), by omega⟩
        have e1 : a + 1 + n - (a + 1) = n := by omega
        have e2 : a + 1 + n - a = n + 1 := by omega
        rw [if_pos h2, if_pos (by omega), e1, e2]; simp
      · rw [if_neg h2, if_neg (by omega), tget_tset, if_neg h1]

theorem readBytes_length (t : Table Byte) (a n : Nat) : (readBytes t a n).length = n := by
  induction n generalizing a with
  | zero => rfl
  | succ n ih => simp [readBytes, ih]

theorem leBytes_length (n x : Nat) : (leBytes n x).length = n := by
  induction n generalizing x with
  | zero => rfl
  | succ n ih => simp [leBytes, ih]

/-- A number of at most so many bytes is what its bytes stand for. -/
theorem leNat_leBytes (n x : Nat) : leNat (leBytes n x) = x % 256 ^ n := by
  induction n generalizing x with
  | zero => simp [leBytes, leNat, Nat.mod_one]
  | succ n ih =>
    have h : x % 256 ^ (n + 1) = x % 256 + 256 * (x / 256 % 256 ^ n) := by
      rw [Nat.pow_succ, Nat.mul_comm (256 ^ n) 256, Nat.mod_mul]
    simp only [leBytes, leNat, ih, BitVec.toNat_ofNat, h]

/-- A read of just the bytes written. -/
theorem readBytes_writeBytes (t : Table Byte) (a : Nat) (bs : List Byte) : readBytes (writeBytes t a bs) a bs.length = bs := by
  have key : ∀ (n k : Nat), k + n = bs.length → readBytes (writeBytes t a bs) (a + k) n = bs.drop k := by
    intro n
    induction n with
    | zero => intro k hk; simp only [readBytes]; exact (List.drop_of_length_le (by omega)).symm
    | succ n ih =>
      intro k hk
      have hlt : k < bs.length := by omega
      simp only [readBytes]
      rw [tget_writeBytes, if_pos (by omega), Nat.add_assoc, ih (k + 1) (by omega), List.drop_eq_getElem_cons hlt]
      simp [hlt]
  simpa using key bs.length 0 (by omega)

end Sys2Proof
end

