-- ==== Sys2Proof/Laws/Fabric.lean ====
section
/-!
SUPPORT. Laws of Levant's traffic: an arrival changes nothing but what Levant keeps, and nothing happens where every write has arrived.
-/
namespace Sys2Proof.Machine

open Sys2Proof

/-- Nothing but what Levant keeps differs. -/
def OnlyLevant (s t : State) : Prop := { t with levant := s.levant, packetsLv := s.packetsLv, fabric := s.fabric } = s

theorem OnlyLevant.refl (s : State) : OnlyLevant s s := rfl

theorem OnlyLevant.trans {s t u : State} (h : OnlyLevant s t) (h' : OnlyLevant t u) : OnlyLevant s u := by
  unfold OnlyLevant at *
  rw [← h, ← h']

theorem OnlyLevant.mem {s t : State} (h : OnlyLevant s t) : t.mem = s.mem := by
  unfold OnlyLevant at h
  rw [← h]

theorem onlyLevant_setLevant (s : State) (die : Nat) (x : Levant) : OnlyLevant s (setLevant s die x) := rfl

theorem onlyLevant_setCt (s : State) (die w n : Nat) : OnlyLevant s (setCt s die w n) := rfl

theorem onlyLevant_raiseSeen (s : State) (die w n : Nat) : OnlyLevant s (raiseSeen s die w n) := by
  unfold raiseSeen
  dsimp only
  split <;> rfl

/-- All that the arrival of a packet changes is what Levant keeps. -/
theorem onlyLevant_arrivePacket (s : State) (p : LvPacket) : OnlyLevant s (arrivePacket s p) := by
  have noted : OnlyLevant s (noteSeq (deliverCopy s p) p) :=
    OnlyLevant.trans (t := deliverCopy s p) rfl (onlyLevant_setLevant _ _ _)
  unfold arrivePacket
  dsimp only
  split
  · rfl
  · generalize noteSeq (deliverCopy s p) p = t at noted ⊢
    have stamped : ∀ c : Bool, OnlyLevant t (if c then t else stampLine t p) := fun c => by cases c <;> rfl
    have done := fun c => (noted.trans (stamped c)).trans (onlyLevant_setCt _ p.die p.writer p.number)
    split
    · exact (done _).trans (onlyLevant_raiseSeen _ _ _ _)
    · exact done _

theorem onlyLevant_foldl {α : Type} (f : State → α → State) (hf : ∀ s a, OnlyLevant s (f s a)) :
    ∀ (xs : List α) (s : State), OnlyLevant s (xs.foldl f s)
  | [], s => OnlyLevant.refl s
  | a :: xs, s => (hf s a).trans (onlyLevant_foldl f hf xs (f s a))

theorem onlyLevant_deliverThrough (s : State) (p : LvPacket) : OnlyLevant s (deliverThrough s p) :=
  onlyLevant_foldl _ onlyLevant_arrivePacket _ _

/-- All that an access's arrivals change is what Levant keeps. -/
theorem onlyLevant_deliverFor (s : State) (die : Nat) (sectors : Nat → Bool) : OnlyLevant s (deliverFor s die sectors) :=
  onlyLevant_foldl _ onlyLevant_deliverThrough _ _

/-- Where every write has arrived, an access waits for none. -/
theorem deliverFor_arrived {s : State} (h : ∀ p ∈ s.packetsLv, p.sweep = true ∨ p.applied = true) (die : Nat) (sectors : Nat → Bool) :
    deliverFor s die sectors = s := by
  have none : s.packetsLv.filter (fun p => !p.applied && !p.sweep && p.writer != die && sectors (p.unit / 16)) = [] := by
    rw [List.filter_eq_nil_iff]
    intro p hp
    rcases h p hp with h | h <;> simp [h]
  unfold deliverFor
  rw [none]
  rfl

end Sys2Proof.Machine
end

