-- ==== Sys2Proof/Laws/State.lean ====
section
/-!
SUPPORT. Laws of the state's named updates: each field after an update that leaves it alone.
-/
namespace Sys2Proof.Machine

open Sys2Proof

/-! ### One entry of a table of the package -/

@[simp] theorem setGroup_clock (s : State) (k : Nat) (x : Group) : (setGroup s k x).clock = s.clock := rfl
@[simp] theorem setGroup_tick (s : State) (k : Nat) (x : Group) : (setGroup s k x).tick = s.tick := rfl
@[simp] theorem setGroup_agenda (s : State) (k : Nat) (x : Group) : (setGroup s k x).agenda = s.agenda := rfl
@[simp] theorem setGroup_input (s : State) (k : Nat) (x : Group) : (setGroup s k x).input = s.input := rfl
@[simp] theorem setGroup_cur (s : State) (k : Nat) (x : Group) : (setGroup s k x).cur = s.cur := rfl
@[simp] theorem setGroup_sent (s : State) (k : Nat) (x : Group) : (setGroup s k x).sent = s.sent := rfl
@[simp] theorem setGroup_gangs (s : State) (k : Nat) (x : Group) : (setGroup s k x).gangs = s.gangs := rfl
@[simp] theorem setGroup_launches (s : State) (k : Nat) (x : Group) : (setGroup s k x).launches = s.launches := rfl
@[simp] theorem setGroup_nextUid (s : State) (k : Nat) (x : Group) : (setGroup s k x).nextUid = s.nextUid := rfl
@[simp] theorem setGroup_kernels (s : State) (k : Nat) (x : Group) : (setGroup s k x).kernels = s.kernels := rfl
@[simp] theorem setGroup_queues (s : State) (k : Nat) (x : Group) : (setGroup s k x).queues = s.queues := rfl
@[simp] theorem setGroup_packets (s : State) (k : Nat) (x : Group) : (setGroup s k x).packets = s.packets := rfl
@[simp] theorem setGroup_journals (s : State) (k : Nat) (x : Group) : (setGroup s k x).journals = s.journals := rfl
@[simp] theorem setGroup_ctxs (s : State) (k : Nat) (x : Group) : (setGroup s k x).ctxs = s.ctxs := rfl
@[simp] theorem setGroup_ctxtab (s : State) (k : Nat) (x : Group) : (setGroup s k x).ctxtab = s.ctxtab := rfl
@[simp] theorem setGroup_cores (s : State) (k : Nat) (x : Group) : (setGroup s k x).cores = s.cores := rfl
@[simp] theorem setGroup_dies (s : State) (k : Nat) (x : Group) : (setGroup s k x).dies = s.dies := rfl
@[simp] theorem setGroup_ops (s : State) (k : Nat) (x : Group) : (setGroup s k x).ops = s.ops := rfl
@[simp] theorem setGroup_nextOp (s : State) (k : Nat) (x : Group) : (setGroup s k x).nextOp = s.nextOp := rfl
@[simp] theorem setGroup_requests (s : State) (k : Nat) (x : Group) : (setGroup s k x).requests = s.requests := rfl
@[simp] theorem setGroup_nextTag (s : State) (k : Nat) (x : Group) : (setGroup s k x).nextTag = s.nextTag := rfl
@[simp] theorem setGroup_inbound (s : State) (k : Nat) (x : Group) : (setGroup s k x).inbound = s.inbound := rfl
@[simp] theorem setGroup_buffer (s : State) (k : Nat) (x : Group) : (setGroup s k x).buffer = s.buffer := rfl
@[simp] theorem setGroup_transfers (s : State) (k : Nat) (x : Group) : (setGroup s k x).transfers = s.transfers := rfl
@[simp] theorem setGroup_nextTransfer (s : State) (k : Nat) (x : Group) : (setGroup s k x).nextTransfer = s.nextTransfer := rfl
@[simp] theorem setGroup_places (s : State) (k : Nat) (x : Group) : (setGroup s k x).places = s.places := rfl
@[simp] theorem setGroup_swept (s : State) (k : Nat) (x : Group) : (setGroup s k x).swept = s.swept := rfl
@[simp] theorem setGroup_mem (s : State) (k : Nat) (x : Group) : (setGroup s k x).mem = s.mem := rfl
@[simp] theorem setGroup_banks (s : State) (k : Nat) (x : Group) : (setGroup s k x).banks = s.banks := rfl
@[simp] theorem setGroup_events (s : State) (k : Nat) (x : Group) : (setGroup s k x).events = s.events := rfl
@[simp] theorem setGroup_levant (s : State) (k : Nat) (x : Group) : (setGroup s k x).levant = s.levant := rfl
@[simp] theorem setGroup_packetsLv (s : State) (k : Nat) (x : Group) : (setGroup s k x).packetsLv = s.packetsLv := rfl
@[simp] theorem setGroup_numbers (s : State) (k : Nat) (x : Group) : (setGroup s k x).numbers = s.numbers := rfl
@[simp] theorem setGroup_fabric (s : State) (k : Nat) (x : Group) : (setGroup s k x).fabric = s.fabric := rfl
@[simp] theorem setGroup_peers (s : State) (k : Nat) (x : Group) : (setGroup s k x).peers = s.peers := rfl
@[simp] theorem setGroup_fibres (s : State) (k : Nat) (x : Group) : (setGroup s k x).fibres = s.fibres := rfl
@[simp] theorem setGroup_funcs (s : State) (k : Nat) (x : Group) : (setGroup s k x).funcs = s.funcs := rfl
@[simp] theorem setGroup_power (s : State) (k : Nat) (x : Group) : (setGroup s k x).power = s.power := rfl
@[simp] theorem setGroup_flash (s : State) (k : Nat) (x : Group) : (setGroup s k x).flash = s.flash := rfl
@[simp] theorem setGroup_checkpoints (s : State) (k : Nat) (x : Group) : (setGroup s k x).checkpoints = s.checkpoints := rfl
@[simp] theorem setGroup_identity (s : State) (k : Nat) (x : Group) : (setGroup s k x).identity = s.identity := rfl
@[simp] theorem setGroup_traces (s : State) (k : Nat) (x : Group) : (setGroup s k x).traces = s.traces := rfl
@[simp] theorem setGroup_services (s : State) (k : Nat) (x : Group) : (setGroup s k x).services = s.services := rfl
@[simp] theorem setGroup_cxComps (s : State) (k : Nat) (x : Group) : (setGroup s k x).cxComps = s.cxComps := rfl
@[simp] theorem setGroup_reports (s : State) (k : Nat) (x : Group) : (setGroup s k x).reports = s.reports := rfl
@[simp] theorem setGroup_saves (s : State) (k : Nat) (x : Group) : (setGroup s k x).saves = s.saves := rfl
@[simp] theorem setGroup_kept (s : State) (k : Nat) (x : Group) : (setGroup s k x).kept = s.kept := rfl
@[simp] theorem setGroup_results (s : State) (k : Nat) (x : Group) : (setGroup s k x).results = s.results := rfl
@[simp] theorem setGroup_warm (s : State) (k : Nat) (x : Group) : (setGroup s k x).warm = s.warm := rfl
@[simp] theorem setGroup_upsets (s : State) (k : Nat) (x : Group) : (setGroup s k x).upsets = s.upsets := rfl
@[simp] theorem setGroup_fresh (s : State) (k : Nat) (x : Group) : (setGroup s k x).fresh = s.fresh := rfl
@[simp] theorem setGroup_due (s : State) (k : Nat) (x : Group) : (setGroup s k x).due = s.due := rfl
@[simp] theorem setGroup_calls (s : State) (k : Nat) (x : Group) : (setGroup s k x).calls = s.calls := rfl
@[simp] theorem setGroup_cut (s : State) (k : Nat) (x : Group) : (setGroup s k x).cut = s.cut := rfl

@[simp] theorem setGang_clock (s : State) (k : Nat) (x : Gang) : (setGang s k x).clock = s.clock := rfl
@[simp] theorem setGang_tick (s : State) (k : Nat) (x : Gang) : (setGang s k x).tick = s.tick := rfl
@[simp] theorem setGang_agenda (s : State) (k : Nat) (x : Gang) : (setGang s k x).agenda = s.agenda := rfl
@[simp] theorem setGang_input (s : State) (k : Nat) (x : Gang) : (setGang s k x).input = s.input := rfl
@[simp] theorem setGang_cur (s : State) (k : Nat) (x : Gang) : (setGang s k x).cur = s.cur := rfl
@[simp] theorem setGang_sent (s : State) (k : Nat) (x : Gang) : (setGang s k x).sent = s.sent := rfl
@[simp] theorem setGang_groups (s : State) (k : Nat) (x : Gang) : (setGang s k x).groups = s.groups := rfl
@[simp] theorem setGang_launches (s : State) (k : Nat) (x : Gang) : (setGang s k x).launches = s.launches := rfl
@[simp] theorem setGang_nextUid (s : State) (k : Nat) (x : Gang) : (setGang s k x).nextUid = s.nextUid := rfl
@[simp] theorem setGang_kernels (s : State) (k : Nat) (x : Gang) : (setGang s k x).kernels = s.kernels := rfl
@[simp] theorem setGang_queues (s : State) (k : Nat) (x : Gang) : (setGang s k x).queues = s.queues := rfl
@[simp] theorem setGang_packets (s : State) (k : Nat) (x : Gang) : (setGang s k x).packets = s.packets := rfl
@[simp] theorem setGang_journals (s : State) (k : Nat) (x : Gang) : (setGang s k x).journals = s.journals := rfl
@[simp] theorem setGang_ctxs (s : State) (k : Nat) (x : Gang) : (setGang s k x).ctxs = s.ctxs := rfl
@[simp] theorem setGang_ctxtab (s : State) (k : Nat) (x : Gang) : (setGang s k x).ctxtab = s.ctxtab := rfl
@[simp] theorem setGang_cores (s : State) (k : Nat) (x : Gang) : (setGang s k x).cores = s.cores := rfl
@[simp] theorem setGang_dies (s : State) (k : Nat) (x : Gang) : (setGang s k x).dies = s.dies := rfl
@[simp] theorem setGang_ops (s : State) (k : Nat) (x : Gang) : (setGang s k x).ops = s.ops := rfl
@[simp] theorem setGang_nextOp (s : State) (k : Nat) (x : Gang) : (setGang s k x).nextOp = s.nextOp := rfl
@[simp] theorem setGang_requests (s : State) (k : Nat) (x : Gang) : (setGang s k x).requests = s.requests := rfl
@[simp] theorem setGang_nextTag (s : State) (k : Nat) (x : Gang) : (setGang s k x).nextTag = s.nextTag := rfl
@[simp] theorem setGang_inbound (s : State) (k : Nat) (x : Gang) : (setGang s k x).inbound = s.inbound := rfl
@[simp] theorem setGang_buffer (s : State) (k : Nat) (x : Gang) : (setGang s k x).buffer = s.buffer := rfl
@[simp] theorem setGang_transfers (s : State) (k : Nat) (x : Gang) : (setGang s k x).transfers = s.transfers := rfl
@[simp] theorem setGang_nextTransfer (s : State) (k : Nat) (x : Gang) : (setGang s k x).nextTransfer = s.nextTransfer := rfl
@[simp] theorem setGang_places (s : State) (k : Nat) (x : Gang) : (setGang s k x).places = s.places := rfl
@[simp] theorem setGang_swept (s : State) (k : Nat) (x : Gang) : (setGang s k x).swept = s.swept := rfl
@[simp] theorem setGang_mem (s : State) (k : Nat) (x : Gang) : (setGang s k x).mem = s.mem := rfl
@[simp] theorem setGang_banks (s : State) (k : Nat) (x : Gang) : (setGang s k x).banks = s.banks := rfl
@[simp] theorem setGang_events (s : State) (k : Nat) (x : Gang) : (setGang s k x).events = s.events := rfl
@[simp] theorem setGang_levant (s : State) (k : Nat) (x : Gang) : (setGang s k x).levant = s.levant := rfl
@[simp] theorem setGang_packetsLv (s : State) (k : Nat) (x : Gang) : (setGang s k x).packetsLv = s.packetsLv := rfl
@[simp] theorem setGang_numbers (s : State) (k : Nat) (x : Gang) : (setGang s k x).numbers = s.numbers := rfl
@[simp] theorem setGang_fabric (s : State) (k : Nat) (x : Gang) : (setGang s k x).fabric = s.fabric := rfl
@[simp] theorem setGang_peers (s : State) (k : Nat) (x : Gang) : (setGang s k x).peers = s.peers := rfl
@[simp] theorem setGang_fibres (s : State) (k : Nat) (x : Gang) : (setGang s k x).fibres = s.fibres := rfl
@[simp] theorem setGang_funcs (s : State) (k : Nat) (x : Gang) : (setGang s k x).funcs = s.funcs := rfl
@[simp] theorem setGang_power (s : State) (k : Nat) (x : Gang) : (setGang s k x).power = s.power := rfl
@[simp] theorem setGang_flash (s : State) (k : Nat) (x : Gang) : (setGang s k x).flash = s.flash := rfl
@[simp] theorem setGang_checkpoints (s : State) (k : Nat) (x : Gang) : (setGang s k x).checkpoints = s.checkpoints := rfl
@[simp] theorem setGang_identity (s : State) (k : Nat) (x : Gang) : (setGang s k x).identity = s.identity := rfl
@[simp] theorem setGang_traces (s : State) (k : Nat) (x : Gang) : (setGang s k x).traces = s.traces := rfl
@[simp] theorem setGang_services (s : State) (k : Nat) (x : Gang) : (setGang s k x).services = s.services := rfl
@[simp] theorem setGang_cxComps (s : State) (k : Nat) (x : Gang) : (setGang s k x).cxComps = s.cxComps := rfl
@[simp] theorem setGang_reports (s : State) (k : Nat) (x : Gang) : (setGang s k x).reports = s.reports := rfl
@[simp] theorem setGang_saves (s : State) (k : Nat) (x : Gang) : (setGang s k x).saves = s.saves := rfl
@[simp] theorem setGang_kept (s : State) (k : Nat) (x : Gang) : (setGang s k x).kept = s.kept := rfl
@[simp] theorem setGang_results (s : State) (k : Nat) (x : Gang) : (setGang s k x).results = s.results := rfl
@[simp] theorem setGang_warm (s : State) (k : Nat) (x : Gang) : (setGang s k x).warm = s.warm := rfl
@[simp] theorem setGang_upsets (s : State) (k : Nat) (x : Gang) : (setGang s k x).upsets = s.upsets := rfl
@[simp] theorem setGang_fresh (s : State) (k : Nat) (x : Gang) : (setGang s k x).fresh = s.fresh := rfl
@[simp] theorem setGang_due (s : State) (k : Nat) (x : Gang) : (setGang s k x).due = s.due := rfl
@[simp] theorem setGang_calls (s : State) (k : Nat) (x : Gang) : (setGang s k x).calls = s.calls := rfl
@[simp] theorem setGang_cut (s : State) (k : Nat) (x : Gang) : (setGang s k x).cut = s.cut := rfl

@[simp] theorem setLaunch_clock (s : State) (k : Nat) (x : Launch) : (setLaunch s k x).clock = s.clock := rfl
@[simp] theorem setLaunch_tick (s : State) (k : Nat) (x : Launch) : (setLaunch s k x).tick = s.tick := rfl
@[simp] theorem setLaunch_agenda (s : State) (k : Nat) (x : Launch) : (setLaunch s k x).agenda = s.agenda := rfl
@[simp] theorem setLaunch_input (s : State) (k : Nat) (x : Launch) : (setLaunch s k x).input = s.input := rfl
@[simp] theorem setLaunch_cur (s : State) (k : Nat) (x : Launch) : (setLaunch s k x).cur = s.cur := rfl
@[simp] theorem setLaunch_sent (s : State) (k : Nat) (x : Launch) : (setLaunch s k x).sent = s.sent := rfl
@[simp] theorem setLaunch_groups (s : State) (k : Nat) (x : Launch) : (setLaunch s k x).groups = s.groups := rfl
@[simp] theorem setLaunch_gangs (s : State) (k : Nat) (x : Launch) : (setLaunch s k x).gangs = s.gangs := rfl
@[simp] theorem setLaunch_nextUid (s : State) (k : Nat) (x : Launch) : (setLaunch s k x).nextUid = s.nextUid := rfl
@[simp] theorem setLaunch_kernels (s : State) (k : Nat) (x : Launch) : (setLaunch s k x).kernels = s.kernels := rfl
@[simp] theorem setLaunch_queues (s : State) (k : Nat) (x : Launch) : (setLaunch s k x).queues = s.queues := rfl
@[simp] theorem setLaunch_packets (s : State) (k : Nat) (x : Launch) : (setLaunch s k x).packets = s.packets := rfl
@[simp] theorem setLaunch_journals (s : State) (k : Nat) (x : Launch) : (setLaunch s k x).journals = s.journals := rfl
@[simp] theorem setLaunch_ctxs (s : State) (k : Nat) (x : Launch) : (setLaunch s k x).ctxs = s.ctxs := rfl
@[simp] theorem setLaunch_ctxtab (s : State) (k : Nat) (x : Launch) : (setLaunch s k x).ctxtab = s.ctxtab := rfl
@[simp] theorem setLaunch_cores (s : State) (k : Nat) (x : Launch) : (setLaunch s k x).cores = s.cores := rfl
@[simp] theorem setLaunch_dies (s : State) (k : Nat) (x : Launch) : (setLaunch s k x).dies = s.dies := rfl
@[simp] theorem setLaunch_ops (s : State) (k : Nat) (x : Launch) : (setLaunch s k x).ops = s.ops := rfl
@[simp] theorem setLaunch_nextOp (s : State) (k : Nat) (x : Launch) : (setLaunch s k x).nextOp = s.nextOp := rfl
@[simp] theorem setLaunch_requests (s : State) (k : Nat) (x : Launch) : (setLaunch s k x).requests = s.requests := rfl
@[simp] theorem setLaunch_nextTag (s : State) (k : Nat) (x : Launch) : (setLaunch s k x).nextTag = s.nextTag := rfl
@[simp] theorem setLaunch_inbound (s : State) (k : Nat) (x : Launch) : (setLaunch s k x).inbound = s.inbound := rfl
@[simp] theorem setLaunch_buffer (s : State) (k : Nat) (x : Launch) : (setLaunch s k x).buffer = s.buffer := rfl
@[simp] theorem setLaunch_transfers (s : State) (k : Nat) (x : Launch) : (setLaunch s k x).transfers = s.transfers := rfl
@[simp] theorem setLaunch_nextTransfer (s : State) (k : Nat) (x : Launch) : (setLaunch s k x).nextTransfer = s.nextTransfer := rfl
@[simp] theorem setLaunch_places (s : State) (k : Nat) (x : Launch) : (setLaunch s k x).places = s.places := rfl
@[simp] theorem setLaunch_swept (s : State) (k : Nat) (x : Launch) : (setLaunch s k x).swept = s.swept := rfl
@[simp] theorem setLaunch_mem (s : State) (k : Nat) (x : Launch) : (setLaunch s k x).mem = s.mem := rfl
@[simp] theorem setLaunch_banks (s : State) (k : Nat) (x : Launch) : (setLaunch s k x).banks = s.banks := rfl
@[simp] theorem setLaunch_events (s : State) (k : Nat) (x : Launch) : (setLaunch s k x).events = s.events := rfl
@[simp] theorem setLaunch_levant (s : State) (k : Nat) (x : Launch) : (setLaunch s k x).levant = s.levant := rfl
@[simp] theorem setLaunch_packetsLv (s : State) (k : Nat) (x : Launch) : (setLaunch s k x).packetsLv = s.packetsLv := rfl
@[simp] theorem setLaunch_numbers (s : State) (k : Nat) (x : Launch) : (setLaunch s k x).numbers = s.numbers := rfl
@[simp] theorem setLaunch_fabric (s : State) (k : Nat) (x : Launch) : (setLaunch s k x).fabric = s.fabric := rfl
@[simp] theorem setLaunch_peers (s : State) (k : Nat) (x : Launch) : (setLaunch s k x).peers = s.peers := rfl
@[simp] theorem setLaunch_fibres (s : State) (k : Nat) (x : Launch) : (setLaunch s k x).fibres = s.fibres := rfl
@[simp] theorem setLaunch_funcs (s : State) (k : Nat) (x : Launch) : (setLaunch s k x).funcs = s.funcs := rfl
@[simp] theorem setLaunch_power (s : State) (k : Nat) (x : Launch) : (setLaunch s k x).power = s.power := rfl
@[simp] theorem setLaunch_flash (s : State) (k : Nat) (x : Launch) : (setLaunch s k x).flash = s.flash := rfl
@[simp] theorem setLaunch_checkpoints (s : State) (k : Nat) (x : Launch) : (setLaunch s k x).checkpoints = s.checkpoints := rfl
@[simp] theorem setLaunch_identity (s : State) (k : Nat) (x : Launch) : (setLaunch s k x).identity = s.identity := rfl
@[simp] theorem setLaunch_traces (s : State) (k : Nat) (x : Launch) : (setLaunch s k x).traces = s.traces := rfl
@[simp] theorem setLaunch_services (s : State) (k : Nat) (x : Launch) : (setLaunch s k x).services = s.services := rfl
@[simp] theorem setLaunch_cxComps (s : State) (k : Nat) (x : Launch) : (setLaunch s k x).cxComps = s.cxComps := rfl
@[simp] theorem setLaunch_reports (s : State) (k : Nat) (x : Launch) : (setLaunch s k x).reports = s.reports := rfl
@[simp] theorem setLaunch_saves (s : State) (k : Nat) (x : Launch) : (setLaunch s k x).saves = s.saves := rfl
@[simp] theorem setLaunch_kept (s : State) (k : Nat) (x : Launch) : (setLaunch s k x).kept = s.kept := rfl
@[simp] theorem setLaunch_results (s : State) (k : Nat) (x : Launch) : (setLaunch s k x).results = s.results := rfl
@[simp] theorem setLaunch_warm (s : State) (k : Nat) (x : Launch) : (setLaunch s k x).warm = s.warm := rfl
@[simp] theorem setLaunch_upsets (s : State) (k : Nat) (x : Launch) : (setLaunch s k x).upsets = s.upsets := rfl
@[simp] theorem setLaunch_fresh (s : State) (k : Nat) (x : Launch) : (setLaunch s k x).fresh = s.fresh := rfl
@[simp] theorem setLaunch_due (s : State) (k : Nat) (x : Launch) : (setLaunch s k x).due = s.due := rfl
@[simp] theorem setLaunch_calls (s : State) (k : Nat) (x : Launch) : (setLaunch s k x).calls = s.calls := rfl
@[simp] theorem setLaunch_cut (s : State) (k : Nat) (x : Launch) : (setLaunch s k x).cut = s.cut := rfl

@[simp] theorem setCtx_clock (s : State) (k : Nat) (x : Ctx) : (setCtx s k x).clock = s.clock := rfl
@[simp] theorem setCtx_tick (s : State) (k : Nat) (x : Ctx) : (setCtx s k x).tick = s.tick := rfl
@[simp] theorem setCtx_agenda (s : State) (k : Nat) (x : Ctx) : (setCtx s k x).agenda = s.agenda := rfl
@[simp] theorem setCtx_input (s : State) (k : Nat) (x : Ctx) : (setCtx s k x).input = s.input := rfl
@[simp] theorem setCtx_cur (s : State) (k : Nat) (x : Ctx) : (setCtx s k x).cur = s.cur := rfl
@[simp] theorem setCtx_sent (s : State) (k : Nat) (x : Ctx) : (setCtx s k x).sent = s.sent := rfl
@[simp] theorem setCtx_groups (s : State) (k : Nat) (x : Ctx) : (setCtx s k x).groups = s.groups := rfl
@[simp] theorem setCtx_gangs (s : State) (k : Nat) (x : Ctx) : (setCtx s k x).gangs = s.gangs := rfl
@[simp] theorem setCtx_launches (s : State) (k : Nat) (x : Ctx) : (setCtx s k x).launches = s.launches := rfl
@[simp] theorem setCtx_nextUid (s : State) (k : Nat) (x : Ctx) : (setCtx s k x).nextUid = s.nextUid := rfl
@[simp] theorem setCtx_kernels (s : State) (k : Nat) (x : Ctx) : (setCtx s k x).kernels = s.kernels := rfl
@[simp] theorem setCtx_queues (s : State) (k : Nat) (x : Ctx) : (setCtx s k x).queues = s.queues := rfl
@[simp] theorem setCtx_packets (s : State) (k : Nat) (x : Ctx) : (setCtx s k x).packets = s.packets := rfl
@[simp] theorem setCtx_journals (s : State) (k : Nat) (x : Ctx) : (setCtx s k x).journals = s.journals := rfl
@[simp] theorem setCtx_ctxtab (s : State) (k : Nat) (x : Ctx) : (setCtx s k x).ctxtab = s.ctxtab := rfl
@[simp] theorem setCtx_cores (s : State) (k : Nat) (x : Ctx) : (setCtx s k x).cores = s.cores := rfl
@[simp] theorem setCtx_dies (s : State) (k : Nat) (x : Ctx) : (setCtx s k x).dies = s.dies := rfl
@[simp] theorem setCtx_ops (s : State) (k : Nat) (x : Ctx) : (setCtx s k x).ops = s.ops := rfl
@[simp] theorem setCtx_nextOp (s : State) (k : Nat) (x : Ctx) : (setCtx s k x).nextOp = s.nextOp := rfl
@[simp] theorem setCtx_requests (s : State) (k : Nat) (x : Ctx) : (setCtx s k x).requests = s.requests := rfl
@[simp] theorem setCtx_nextTag (s : State) (k : Nat) (x : Ctx) : (setCtx s k x).nextTag = s.nextTag := rfl
@[simp] theorem setCtx_inbound (s : State) (k : Nat) (x : Ctx) : (setCtx s k x).inbound = s.inbound := rfl
@[simp] theorem setCtx_buffer (s : State) (k : Nat) (x : Ctx) : (setCtx s k x).buffer = s.buffer := rfl
@[simp] theorem setCtx_transfers (s : State) (k : Nat) (x : Ctx) : (setCtx s k x).transfers = s.transfers := rfl
@[simp] theorem setCtx_nextTransfer (s : State) (k : Nat) (x : Ctx) : (setCtx s k x).nextTransfer = s.nextTransfer := rfl
@[simp] theorem setCtx_places (s : State) (k : Nat) (x : Ctx) : (setCtx s k x).places = s.places := rfl
@[simp] theorem setCtx_swept (s : State) (k : Nat) (x : Ctx) : (setCtx s k x).swept = s.swept := rfl
@[simp] theorem setCtx_mem (s : State) (k : Nat) (x : Ctx) : (setCtx s k x).mem = s.mem := rfl
@[simp] theorem setCtx_banks (s : State) (k : Nat) (x : Ctx) : (setCtx s k x).banks = s.banks := rfl
@[simp] theorem setCtx_events (s : State) (k : Nat) (x : Ctx) : (setCtx s k x).events = s.events := rfl
@[simp] theorem setCtx_levant (s : State) (k : Nat) (x : Ctx) : (setCtx s k x).levant = s.levant := rfl
@[simp] theorem setCtx_packetsLv (s : State) (k : Nat) (x : Ctx) : (setCtx s k x).packetsLv = s.packetsLv := rfl
@[simp] theorem setCtx_numbers (s : State) (k : Nat) (x : Ctx) : (setCtx s k x).numbers = s.numbers := rfl
@[simp] theorem setCtx_fabric (s : State) (k : Nat) (x : Ctx) : (setCtx s k x).fabric = s.fabric := rfl
@[simp] theorem setCtx_peers (s : State) (k : Nat) (x : Ctx) : (setCtx s k x).peers = s.peers := rfl
@[simp] theorem setCtx_fibres (s : State) (k : Nat) (x : Ctx) : (setCtx s k x).fibres = s.fibres := rfl
@[simp] theorem setCtx_funcs (s : State) (k : Nat) (x : Ctx) : (setCtx s k x).funcs = s.funcs := rfl
@[simp] theorem setCtx_power (s : State) (k : Nat) (x : Ctx) : (setCtx s k x).power = s.power := rfl
@[simp] theorem setCtx_flash (s : State) (k : Nat) (x : Ctx) : (setCtx s k x).flash = s.flash := rfl
@[simp] theorem setCtx_checkpoints (s : State) (k : Nat) (x : Ctx) : (setCtx s k x).checkpoints = s.checkpoints := rfl
@[simp] theorem setCtx_identity (s : State) (k : Nat) (x : Ctx) : (setCtx s k x).identity = s.identity := rfl
@[simp] theorem setCtx_traces (s : State) (k : Nat) (x : Ctx) : (setCtx s k x).traces = s.traces := rfl
@[simp] theorem setCtx_services (s : State) (k : Nat) (x : Ctx) : (setCtx s k x).services = s.services := rfl
@[simp] theorem setCtx_cxComps (s : State) (k : Nat) (x : Ctx) : (setCtx s k x).cxComps = s.cxComps := rfl
@[simp] theorem setCtx_reports (s : State) (k : Nat) (x : Ctx) : (setCtx s k x).reports = s.reports := rfl
@[simp] theorem setCtx_saves (s : State) (k : Nat) (x : Ctx) : (setCtx s k x).saves = s.saves := rfl
@[simp] theorem setCtx_kept (s : State) (k : Nat) (x : Ctx) : (setCtx s k x).kept = s.kept := rfl
@[simp] theorem setCtx_results (s : State) (k : Nat) (x : Ctx) : (setCtx s k x).results = s.results := rfl
@[simp] theorem setCtx_warm (s : State) (k : Nat) (x : Ctx) : (setCtx s k x).warm = s.warm := rfl
@[simp] theorem setCtx_upsets (s : State) (k : Nat) (x : Ctx) : (setCtx s k x).upsets = s.upsets := rfl
@[simp] theorem setCtx_fresh (s : State) (k : Nat) (x : Ctx) : (setCtx s k x).fresh = s.fresh := rfl
@[simp] theorem setCtx_due (s : State) (k : Nat) (x : Ctx) : (setCtx s k x).due = s.due := rfl
@[simp] theorem setCtx_calls (s : State) (k : Nat) (x : Ctx) : (setCtx s k x).calls = s.calls := rfl
@[simp] theorem setCtx_cut (s : State) (k : Nat) (x : Ctx) : (setCtx s k x).cut = s.cut := rfl

@[simp] theorem setCore_clock (s : State) (k : Nat) (x : Core) : (setCore s k x).clock = s.clock := rfl
@[simp] theorem setCore_tick (s : State) (k : Nat) (x : Core) : (setCore s k x).tick = s.tick := rfl
@[simp] theorem setCore_agenda (s : State) (k : Nat) (x : Core) : (setCore s k x).agenda = s.agenda := rfl
@[simp] theorem setCore_input (s : State) (k : Nat) (x : Core) : (setCore s k x).input = s.input := rfl
@[simp] theorem setCore_cur (s : State) (k : Nat) (x : Core) : (setCore s k x).cur = s.cur := rfl
@[simp] theorem setCore_sent (s : State) (k : Nat) (x : Core) : (setCore s k x).sent = s.sent := rfl
@[simp] theorem setCore_groups (s : State) (k : Nat) (x : Core) : (setCore s k x).groups = s.groups := rfl
@[simp] theorem setCore_gangs (s : State) (k : Nat) (x : Core) : (setCore s k x).gangs = s.gangs := rfl
@[simp] theorem setCore_launches (s : State) (k : Nat) (x : Core) : (setCore s k x).launches = s.launches := rfl
@[simp] theorem setCore_nextUid (s : State) (k : Nat) (x : Core) : (setCore s k x).nextUid = s.nextUid := rfl
@[simp] theorem setCore_kernels (s : State) (k : Nat) (x : Core) : (setCore s k x).kernels = s.kernels := rfl
@[simp] theorem setCore_queues (s : State) (k : Nat) (x : Core) : (setCore s k x).queues = s.queues := rfl
@[simp] theorem setCore_packets (s : State) (k : Nat) (x : Core) : (setCore s k x).packets = s.packets := rfl
@[simp] theorem setCore_journals (s : State) (k : Nat) (x : Core) : (setCore s k x).journals = s.journals := rfl
@[simp] theorem setCore_ctxs (s : State) (k : Nat) (x : Core) : (setCore s k x).ctxs = s.ctxs := rfl
@[simp] theorem setCore_ctxtab (s : State) (k : Nat) (x : Core) : (setCore s k x).ctxtab = s.ctxtab := rfl
@[simp] theorem setCore_dies (s : State) (k : Nat) (x : Core) : (setCore s k x).dies = s.dies := rfl
@[simp] theorem setCore_ops (s : State) (k : Nat) (x : Core) : (setCore s k x).ops = s.ops := rfl
@[simp] theorem setCore_nextOp (s : State) (k : Nat) (x : Core) : (setCore s k x).nextOp = s.nextOp := rfl
@[simp] theorem setCore_requests (s : State) (k : Nat) (x : Core) : (setCore s k x).requests = s.requests := rfl
@[simp] theorem setCore_nextTag (s : State) (k : Nat) (x : Core) : (setCore s k x).nextTag = s.nextTag := rfl
@[simp] theorem setCore_inbound (s : State) (k : Nat) (x : Core) : (setCore s k x).inbound = s.inbound := rfl
@[simp] theorem setCore_buffer (s : State) (k : Nat) (x : Core) : (setCore s k x).buffer = s.buffer := rfl
@[simp] theorem setCore_transfers (s : State) (k : Nat) (x : Core) : (setCore s k x).transfers = s.transfers := rfl
@[simp] theorem setCore_nextTransfer (s : State) (k : Nat) (x : Core) : (setCore s k x).nextTransfer = s.nextTransfer := rfl
@[simp] theorem setCore_places (s : State) (k : Nat) (x : Core) : (setCore s k x).places = s.places := rfl
@[simp] theorem setCore_swept (s : State) (k : Nat) (x : Core) : (setCore s k x).swept = s.swept := rfl
@[simp] theorem setCore_mem (s : State) (k : Nat) (x : Core) : (setCore s k x).mem = s.mem := rfl
@[simp] theorem setCore_banks (s : State) (k : Nat) (x : Core) : (setCore s k x).banks = s.banks := rfl
@[simp] theorem setCore_events (s : State) (k : Nat) (x : Core) : (setCore s k x).events = s.events := rfl
@[simp] theorem setCore_levant (s : State) (k : Nat) (x : Core) : (setCore s k x).levant = s.levant := rfl
@[simp] theorem setCore_packetsLv (s : State) (k : Nat) (x : Core) : (setCore s k x).packetsLv = s.packetsLv := rfl
@[simp] theorem setCore_numbers (s : State) (k : Nat) (x : Core) : (setCore s k x).numbers = s.numbers := rfl
@[simp] theorem setCore_fabric (s : State) (k : Nat) (x : Core) : (setCore s k x).fabric = s.fabric := rfl
@[simp] theorem setCore_peers (s : State) (k : Nat) (x : Core) : (setCore s k x).peers = s.peers := rfl
@[simp] theorem setCore_fibres (s : State) (k : Nat) (x : Core) : (setCore s k x).fibres = s.fibres := rfl
@[simp] theorem setCore_funcs (s : State) (k : Nat) (x : Core) : (setCore s k x).funcs = s.funcs := rfl
@[simp] theorem setCore_power (s : State) (k : Nat) (x : Core) : (setCore s k x).power = s.power := rfl
@[simp] theorem setCore_flash (s : State) (k : Nat) (x : Core) : (setCore s k x).flash = s.flash := rfl
@[simp] theorem setCore_checkpoints (s : State) (k : Nat) (x : Core) : (setCore s k x).checkpoints = s.checkpoints := rfl
@[simp] theorem setCore_identity (s : State) (k : Nat) (x : Core) : (setCore s k x).identity = s.identity := rfl
@[simp] theorem setCore_traces (s : State) (k : Nat) (x : Core) : (setCore s k x).traces = s.traces := rfl
@[simp] theorem setCore_services (s : State) (k : Nat) (x : Core) : (setCore s k x).services = s.services := rfl
@[simp] theorem setCore_cxComps (s : State) (k : Nat) (x : Core) : (setCore s k x).cxComps = s.cxComps := rfl
@[simp] theorem setCore_reports (s : State) (k : Nat) (x : Core) : (setCore s k x).reports = s.reports := rfl
@[simp] theorem setCore_saves (s : State) (k : Nat) (x : Core) : (setCore s k x).saves = s.saves := rfl
@[simp] theorem setCore_kept (s : State) (k : Nat) (x : Core) : (setCore s k x).kept = s.kept := rfl
@[simp] theorem setCore_results (s : State) (k : Nat) (x : Core) : (setCore s k x).results = s.results := rfl
@[simp] theorem setCore_warm (s : State) (k : Nat) (x : Core) : (setCore s k x).warm = s.warm := rfl
@[simp] theorem setCore_upsets (s : State) (k : Nat) (x : Core) : (setCore s k x).upsets = s.upsets := rfl
@[simp] theorem setCore_fresh (s : State) (k : Nat) (x : Core) : (setCore s k x).fresh = s.fresh := rfl
@[simp] theorem setCore_due (s : State) (k : Nat) (x : Core) : (setCore s k x).due = s.due := rfl
@[simp] theorem setCore_calls (s : State) (k : Nat) (x : Core) : (setCore s k x).calls = s.calls := rfl
@[simp] theorem setCore_cut (s : State) (k : Nat) (x : Core) : (setCore s k x).cut = s.cut := rfl

/-! ### A group through the group table -/

@[simp] theorem modGroup_clock (s : State) (k : Nat) (h : Group → Group) : (modGroup s k h).clock = s.clock := by unfold modGroup; split <;> rfl
@[simp] theorem modGroup_tick (s : State) (k : Nat) (h : Group → Group) : (modGroup s k h).tick = s.tick := by unfold modGroup; split <;> rfl
@[simp] theorem modGroup_agenda (s : State) (k : Nat) (h : Group → Group) : (modGroup s k h).agenda = s.agenda := by unfold modGroup; split <;> rfl
@[simp] theorem modGroup_input (s : State) (k : Nat) (h : Group → Group) : (modGroup s k h).input = s.input := by unfold modGroup; split <;> rfl
@[simp] theorem modGroup_cur (s : State) (k : Nat) (h : Group → Group) : (modGroup s k h).cur = s.cur := by unfold modGroup; split <;> rfl
@[simp] theorem modGroup_sent (s : State) (k : Nat) (h : Group → Group) : (modGroup s k h).sent = s.sent := by unfold modGroup; split <;> rfl
@[simp] theorem modGroup_gangs (s : State) (k : Nat) (h : Group → Group) : (modGroup s k h).gangs = s.gangs := by unfold modGroup; split <;> rfl
@[simp] theorem modGroup_launches (s : State) (k : Nat) (h : Group → Group) : (modGroup s k h).launches = s.launches := by unfold modGroup; split <;> rfl
@[simp] theorem modGroup_nextUid (s : State) (k : Nat) (h : Group → Group) : (modGroup s k h).nextUid = s.nextUid := by unfold modGroup; split <;> rfl
@[simp] theorem modGroup_kernels (s : State) (k : Nat) (h : Group → Group) : (modGroup s k h).kernels = s.kernels := by unfold modGroup; split <;> rfl
@[simp] theorem modGroup_queues (s : State) (k : Nat) (h : Group → Group) : (modGroup s k h).queues = s.queues := by unfold modGroup; split <;> rfl
@[simp] theorem modGroup_packets (s : State) (k : Nat) (h : Group → Group) : (modGroup s k h).packets = s.packets := by unfold modGroup; split <;> rfl
@[simp] theorem modGroup_journals (s : State) (k : Nat) (h : Group → Group) : (modGroup s k h).journals = s.journals := by unfold modGroup; split <;> rfl
@[simp] theorem modGroup_ctxs (s : State) (k : Nat) (h : Group → Group) : (modGroup s k h).ctxs = s.ctxs := by unfold modGroup; split <;> rfl
@[simp] theorem modGroup_ctxtab (s : State) (k : Nat) (h : Group → Group) : (modGroup s k h).ctxtab = s.ctxtab := by unfold modGroup; split <;> rfl
@[simp] theorem modGroup_cores (s : State) (k : Nat) (h : Group → Group) : (modGroup s k h).cores = s.cores := by unfold modGroup; split <;> rfl
@[simp] theorem modGroup_dies (s : State) (k : Nat) (h : Group → Group) : (modGroup s k h).dies = s.dies := by unfold modGroup; split <;> rfl
@[simp] theorem modGroup_ops (s : State) (k : Nat) (h : Group → Group) : (modGroup s k h).ops = s.ops := by unfold modGroup; split <;> rfl
@[simp] theorem modGroup_nextOp (s : State) (k : Nat) (h : Group → Group) : (modGroup s k h).nextOp = s.nextOp := by unfold modGroup; split <;> rfl
@[simp] theorem modGroup_requests (s : State) (k : Nat) (h : Group → Group) : (modGroup s k h).requests = s.requests := by unfold modGroup; split <;> rfl
@[simp] theorem modGroup_nextTag (s : State) (k : Nat) (h : Group → Group) : (modGroup s k h).nextTag = s.nextTag := by unfold modGroup; split <;> rfl
@[simp] theorem modGroup_inbound (s : State) (k : Nat) (h : Group → Group) : (modGroup s k h).inbound = s.inbound := by unfold modGroup; split <;> rfl
@[simp] theorem modGroup_buffer (s : State) (k : Nat) (h : Group → Group) : (modGroup s k h).buffer = s.buffer := by unfold modGroup; split <;> rfl
@[simp] theorem modGroup_transfers (s : State) (k : Nat) (h : Group → Group) : (modGroup s k h).transfers = s.transfers := by unfold modGroup; split <;> rfl
@[simp] theorem modGroup_nextTransfer (s : State) (k : Nat) (h : Group → Group) : (modGroup s k h).nextTransfer = s.nextTransfer := by unfold modGroup; split <;> rfl
@[simp] theorem modGroup_places (s : State) (k : Nat) (h : Group → Group) : (modGroup s k h).places = s.places := by unfold modGroup; split <;> rfl
@[simp] theorem modGroup_swept (s : State) (k : Nat) (h : Group → Group) : (modGroup s k h).swept = s.swept := by unfold modGroup; split <;> rfl
@[simp] theorem modGroup_mem (s : State) (k : Nat) (h : Group → Group) : (modGroup s k h).mem = s.mem := by unfold modGroup; split <;> rfl
@[simp] theorem modGroup_banks (s : State) (k : Nat) (h : Group → Group) : (modGroup s k h).banks = s.banks := by unfold modGroup; split <;> rfl
@[simp] theorem modGroup_events (s : State) (k : Nat) (h : Group → Group) : (modGroup s k h).events = s.events := by unfold modGroup; split <;> rfl
@[simp] theorem modGroup_levant (s : State) (k : Nat) (h : Group → Group) : (modGroup s k h).levant = s.levant := by unfold modGroup; split <;> rfl
@[simp] theorem modGroup_packetsLv (s : State) (k : Nat) (h : Group → Group) : (modGroup s k h).packetsLv = s.packetsLv := by unfold modGroup; split <;> rfl
@[simp] theorem modGroup_numbers (s : State) (k : Nat) (h : Group → Group) : (modGroup s k h).numbers = s.numbers := by unfold modGroup; split <;> rfl
@[simp] theorem modGroup_fabric (s : State) (k : Nat) (h : Group → Group) : (modGroup s k h).fabric = s.fabric := by unfold modGroup; split <;> rfl
@[simp] theorem modGroup_peers (s : State) (k : Nat) (h : Group → Group) : (modGroup s k h).peers = s.peers := by unfold modGroup; split <;> rfl
@[simp] theorem modGroup_fibres (s : State) (k : Nat) (h : Group → Group) : (modGroup s k h).fibres = s.fibres := by unfold modGroup; split <;> rfl
@[simp] theorem modGroup_funcs (s : State) (k : Nat) (h : Group → Group) : (modGroup s k h).funcs = s.funcs := by unfold modGroup; split <;> rfl
@[simp] theorem modGroup_power (s : State) (k : Nat) (h : Group → Group) : (modGroup s k h).power = s.power := by unfold modGroup; split <;> rfl
@[simp] theorem modGroup_flash (s : State) (k : Nat) (h : Group → Group) : (modGroup s k h).flash = s.flash := by unfold modGroup; split <;> rfl
@[simp] theorem modGroup_checkpoints (s : State) (k : Nat) (h : Group → Group) : (modGroup s k h).checkpoints = s.checkpoints := by unfold modGroup; split <;> rfl
@[simp] theorem modGroup_identity (s : State) (k : Nat) (h : Group → Group) : (modGroup s k h).identity = s.identity := by unfold modGroup; split <;> rfl
@[simp] theorem modGroup_traces (s : State) (k : Nat) (h : Group → Group) : (modGroup s k h).traces = s.traces := by unfold modGroup; split <;> rfl
@[simp] theorem modGroup_services (s : State) (k : Nat) (h : Group → Group) : (modGroup s k h).services = s.services := by unfold modGroup; split <;> rfl
@[simp] theorem modGroup_cxComps (s : State) (k : Nat) (h : Group → Group) : (modGroup s k h).cxComps = s.cxComps := by unfold modGroup; split <;> rfl
@[simp] theorem modGroup_reports (s : State) (k : Nat) (h : Group → Group) : (modGroup s k h).reports = s.reports := by unfold modGroup; split <;> rfl
@[simp] theorem modGroup_saves (s : State) (k : Nat) (h : Group → Group) : (modGroup s k h).saves = s.saves := by unfold modGroup; split <;> rfl
@[simp] theorem modGroup_kept (s : State) (k : Nat) (h : Group → Group) : (modGroup s k h).kept = s.kept := by unfold modGroup; split <;> rfl
@[simp] theorem modGroup_results (s : State) (k : Nat) (h : Group → Group) : (modGroup s k h).results = s.results := by unfold modGroup; split <;> rfl
@[simp] theorem modGroup_warm (s : State) (k : Nat) (h : Group → Group) : (modGroup s k h).warm = s.warm := by unfold modGroup; split <;> rfl
@[simp] theorem modGroup_upsets (s : State) (k : Nat) (h : Group → Group) : (modGroup s k h).upsets = s.upsets := by unfold modGroup; split <;> rfl
@[simp] theorem modGroup_fresh (s : State) (k : Nat) (h : Group → Group) : (modGroup s k h).fresh = s.fresh := by unfold modGroup; split <;> rfl
@[simp] theorem modGroup_due (s : State) (k : Nat) (h : Group → Group) : (modGroup s k h).due = s.due := by unfold modGroup; split <;> rfl
@[simp] theorem modGroup_calls (s : State) (k : Nat) (h : Group → Group) : (modGroup s k h).calls = s.calls := by unfold modGroup; split <;> rfl
@[simp] theorem modGroup_cut (s : State) (k : Nat) (h : Group → Group) : (modGroup s k h).cut = s.cut := by unfold modGroup; split <;> rfl

@[simp] theorem finish_clock (s : State) (u : Issue) : (finish s u).clock = s.clock := by unfold finish; split <;> rfl
@[simp] theorem finish_tick (s : State) (u : Issue) : (finish s u).tick = s.tick := by unfold finish; split <;> rfl
@[simp] theorem finish_agenda (s : State) (u : Issue) : (finish s u).agenda = s.agenda := by unfold finish; split <;> rfl
@[simp] theorem finish_input (s : State) (u : Issue) : (finish s u).input = s.input := by unfold finish; split <;> rfl
@[simp] theorem finish_cur (s : State) (u : Issue) : (finish s u).cur = s.cur := by unfold finish; split <;> rfl
@[simp] theorem finish_sent (s : State) (u : Issue) : (finish s u).sent = s.sent := by unfold finish; split <;> rfl
@[simp] theorem finish_gangs (s : State) (u : Issue) : (finish s u).gangs = s.gangs := by unfold finish; split <;> rfl
@[simp] theorem finish_launches (s : State) (u : Issue) : (finish s u).launches = s.launches := by unfold finish; split <;> rfl
@[simp] theorem finish_nextUid (s : State) (u : Issue) : (finish s u).nextUid = s.nextUid := by unfold finish; split <;> rfl
@[simp] theorem finish_kernels (s : State) (u : Issue) : (finish s u).kernels = s.kernels := by unfold finish; split <;> rfl
@[simp] theorem finish_queues (s : State) (u : Issue) : (finish s u).queues = s.queues := by unfold finish; split <;> rfl
@[simp] theorem finish_packets (s : State) (u : Issue) : (finish s u).packets = s.packets := by unfold finish; split <;> rfl
@[simp] theorem finish_journals (s : State) (u : Issue) : (finish s u).journals = s.journals := by unfold finish; split <;> rfl
@[simp] theorem finish_ctxs (s : State) (u : Issue) : (finish s u).ctxs = s.ctxs := by unfold finish; split <;> rfl
@[simp] theorem finish_ctxtab (s : State) (u : Issue) : (finish s u).ctxtab = s.ctxtab := by unfold finish; split <;> rfl
@[simp] theorem finish_cores (s : State) (u : Issue) : (finish s u).cores = s.cores := by unfold finish; split <;> rfl
@[simp] theorem finish_dies (s : State) (u : Issue) : (finish s u).dies = s.dies := by unfold finish; split <;> rfl
@[simp] theorem finish_ops (s : State) (u : Issue) : (finish s u).ops = s.ops := by unfold finish; split <;> rfl
@[simp] theorem finish_nextOp (s : State) (u : Issue) : (finish s u).nextOp = s.nextOp := by unfold finish; split <;> rfl
@[simp] theorem finish_requests (s : State) (u : Issue) : (finish s u).requests = s.requests := by unfold finish; split <;> rfl
@[simp] theorem finish_nextTag (s : State) (u : Issue) : (finish s u).nextTag = s.nextTag := by unfold finish; split <;> rfl
@[simp] theorem finish_inbound (s : State) (u : Issue) : (finish s u).inbound = s.inbound := by unfold finish; split <;> rfl
@[simp] theorem finish_buffer (s : State) (u : Issue) : (finish s u).buffer = s.buffer := by unfold finish; split <;> rfl
@[simp] theorem finish_transfers (s : State) (u : Issue) : (finish s u).transfers = s.transfers := by unfold finish; split <;> rfl
@[simp] theorem finish_nextTransfer (s : State) (u : Issue) : (finish s u).nextTransfer = s.nextTransfer := by unfold finish; split <;> rfl
@[simp] theorem finish_places (s : State) (u : Issue) : (finish s u).places = s.places := by unfold finish; split <;> rfl
@[simp] theorem finish_swept (s : State) (u : Issue) : (finish s u).swept = s.swept := by unfold finish; split <;> rfl
@[simp] theorem finish_mem (s : State) (u : Issue) : (finish s u).mem = s.mem := by unfold finish; split <;> rfl
@[simp] theorem finish_banks (s : State) (u : Issue) : (finish s u).banks = s.banks := by unfold finish; split <;> rfl
@[simp] theorem finish_events (s : State) (u : Issue) : (finish s u).events = s.events := by unfold finish; split <;> rfl
@[simp] theorem finish_levant (s : State) (u : Issue) : (finish s u).levant = s.levant := by unfold finish; split <;> rfl
@[simp] theorem finish_packetsLv (s : State) (u : Issue) : (finish s u).packetsLv = s.packetsLv := by unfold finish; split <;> rfl
@[simp] theorem finish_numbers (s : State) (u : Issue) : (finish s u).numbers = s.numbers := by unfold finish; split <;> rfl
@[simp] theorem finish_fabric (s : State) (u : Issue) : (finish s u).fabric = s.fabric := by unfold finish; split <;> rfl
@[simp] theorem finish_peers (s : State) (u : Issue) : (finish s u).peers = s.peers := by unfold finish; split <;> rfl
@[simp] theorem finish_fibres (s : State) (u : Issue) : (finish s u).fibres = s.fibres := by unfold finish; split <;> rfl
@[simp] theorem finish_funcs (s : State) (u : Issue) : (finish s u).funcs = s.funcs := by unfold finish; split <;> rfl
@[simp] theorem finish_power (s : State) (u : Issue) : (finish s u).power = s.power := by unfold finish; split <;> rfl
@[simp] theorem finish_flash (s : State) (u : Issue) : (finish s u).flash = s.flash := by unfold finish; split <;> rfl
@[simp] theorem finish_checkpoints (s : State) (u : Issue) : (finish s u).checkpoints = s.checkpoints := by unfold finish; split <;> rfl
@[simp] theorem finish_identity (s : State) (u : Issue) : (finish s u).identity = s.identity := by unfold finish; split <;> rfl
@[simp] theorem finish_traces (s : State) (u : Issue) : (finish s u).traces = s.traces := by unfold finish; split <;> rfl
@[simp] theorem finish_services (s : State) (u : Issue) : (finish s u).services = s.services := by unfold finish; split <;> rfl
@[simp] theorem finish_cxComps (s : State) (u : Issue) : (finish s u).cxComps = s.cxComps := by unfold finish; split <;> rfl
@[simp] theorem finish_reports (s : State) (u : Issue) : (finish s u).reports = s.reports := by unfold finish; split <;> rfl
@[simp] theorem finish_saves (s : State) (u : Issue) : (finish s u).saves = s.saves := by unfold finish; split <;> rfl
@[simp] theorem finish_kept (s : State) (u : Issue) : (finish s u).kept = s.kept := by unfold finish; split <;> rfl
@[simp] theorem finish_results (s : State) (u : Issue) : (finish s u).results = s.results := by unfold finish; split <;> rfl
@[simp] theorem finish_warm (s : State) (u : Issue) : (finish s u).warm = s.warm := by unfold finish; split <;> rfl
@[simp] theorem finish_upsets (s : State) (u : Issue) : (finish s u).upsets = s.upsets := by unfold finish; split <;> rfl
@[simp] theorem finish_fresh (s : State) (u : Issue) : (finish s u).fresh = s.fresh := by unfold finish; split <;> rfl
@[simp] theorem finish_due (s : State) (u : Issue) : (finish s u).due = s.due := by unfold finish; split <;> rfl
@[simp] theorem finish_calls (s : State) (u : Issue) : (finish s u).calls = s.calls := by unfold finish; split <;> rfl
@[simp] theorem finish_cut (s : State) (u : Issue) : (finish s u).cut = s.cut := by unfold finish; split <;> rfl

@[simp] theorem holdUnit_clock (s : State) (u : Issue) (h : Hold) : (holdUnit s u h).clock = s.clock := by unfold holdUnit; split <;> rfl
@[simp] theorem holdUnit_tick (s : State) (u : Issue) (h : Hold) : (holdUnit s u h).tick = s.tick := by unfold holdUnit; split <;> rfl
@[simp] theorem holdUnit_agenda (s : State) (u : Issue) (h : Hold) : (holdUnit s u h).agenda = s.agenda := by unfold holdUnit; split <;> rfl
@[simp] theorem holdUnit_input (s : State) (u : Issue) (h : Hold) : (holdUnit s u h).input = s.input := by unfold holdUnit; split <;> rfl
@[simp] theorem holdUnit_cur (s : State) (u : Issue) (h : Hold) : (holdUnit s u h).cur = s.cur := by unfold holdUnit; split <;> rfl
@[simp] theorem holdUnit_sent (s : State) (u : Issue) (h : Hold) : (holdUnit s u h).sent = s.sent := by unfold holdUnit; split <;> rfl
@[simp] theorem holdUnit_gangs (s : State) (u : Issue) (h : Hold) : (holdUnit s u h).gangs = s.gangs := by unfold holdUnit; split <;> rfl
@[simp] theorem holdUnit_launches (s : State) (u : Issue) (h : Hold) : (holdUnit s u h).launches = s.launches := by unfold holdUnit; split <;> rfl
@[simp] theorem holdUnit_nextUid (s : State) (u : Issue) (h : Hold) : (holdUnit s u h).nextUid = s.nextUid := by unfold holdUnit; split <;> rfl
@[simp] theorem holdUnit_kernels (s : State) (u : Issue) (h : Hold) : (holdUnit s u h).kernels = s.kernels := by unfold holdUnit; split <;> rfl
@[simp] theorem holdUnit_queues (s : State) (u : Issue) (h : Hold) : (holdUnit s u h).queues = s.queues := by unfold holdUnit; split <;> rfl
@[simp] theorem holdUnit_packets (s : State) (u : Issue) (h : Hold) : (holdUnit s u h).packets = s.packets := by unfold holdUnit; split <;> rfl
@[simp] theorem holdUnit_journals (s : State) (u : Issue) (h : Hold) : (holdUnit s u h).journals = s.journals := by unfold holdUnit; split <;> rfl
@[simp] theorem holdUnit_ctxs (s : State) (u : Issue) (h : Hold) : (holdUnit s u h).ctxs = s.ctxs := by unfold holdUnit; split <;> rfl
@[simp] theorem holdUnit_ctxtab (s : State) (u : Issue) (h : Hold) : (holdUnit s u h).ctxtab = s.ctxtab := by unfold holdUnit; split <;> rfl
@[simp] theorem holdUnit_cores (s : State) (u : Issue) (h : Hold) : (holdUnit s u h).cores = s.cores := by unfold holdUnit; split <;> rfl
@[simp] theorem holdUnit_dies (s : State) (u : Issue) (h : Hold) : (holdUnit s u h).dies = s.dies := by unfold holdUnit; split <;> rfl
@[simp] theorem holdUnit_ops (s : State) (u : Issue) (h : Hold) : (holdUnit s u h).ops = s.ops := by unfold holdUnit; split <;> rfl
@[simp] theorem holdUnit_nextOp (s : State) (u : Issue) (h : Hold) : (holdUnit s u h).nextOp = s.nextOp := by unfold holdUnit; split <;> rfl
@[simp] theorem holdUnit_requests (s : State) (u : Issue) (h : Hold) : (holdUnit s u h).requests = s.requests := by unfold holdUnit; split <;> rfl
@[simp] theorem holdUnit_nextTag (s : State) (u : Issue) (h : Hold) : (holdUnit s u h).nextTag = s.nextTag := by unfold holdUnit; split <;> rfl
@[simp] theorem holdUnit_inbound (s : State) (u : Issue) (h : Hold) : (holdUnit s u h).inbound = s.inbound := by unfold holdUnit; split <;> rfl
@[simp] theorem holdUnit_buffer (s : State) (u : Issue) (h : Hold) : (holdUnit s u h).buffer = s.buffer := by unfold holdUnit; split <;> rfl
@[simp] theorem holdUnit_transfers (s : State) (u : Issue) (h : Hold) : (holdUnit s u h).transfers = s.transfers := by unfold holdUnit; split <;> rfl
@[simp] theorem holdUnit_nextTransfer (s : State) (u : Issue) (h : Hold) : (holdUnit s u h).nextTransfer = s.nextTransfer := by unfold holdUnit; split <;> rfl
@[simp] theorem holdUnit_places (s : State) (u : Issue) (h : Hold) : (holdUnit s u h).places = s.places := by unfold holdUnit; split <;> rfl
@[simp] theorem holdUnit_swept (s : State) (u : Issue) (h : Hold) : (holdUnit s u h).swept = s.swept := by unfold holdUnit; split <;> rfl
@[simp] theorem holdUnit_mem (s : State) (u : Issue) (h : Hold) : (holdUnit s u h).mem = s.mem := by unfold holdUnit; split <;> rfl
@[simp] theorem holdUnit_banks (s : State) (u : Issue) (h : Hold) : (holdUnit s u h).banks = s.banks := by unfold holdUnit; split <;> rfl
@[simp] theorem holdUnit_events (s : State) (u : Issue) (h : Hold) : (holdUnit s u h).events = s.events := by unfold holdUnit; split <;> rfl
@[simp] theorem holdUnit_levant (s : State) (u : Issue) (h : Hold) : (holdUnit s u h).levant = s.levant := by unfold holdUnit; split <;> rfl
@[simp] theorem holdUnit_packetsLv (s : State) (u : Issue) (h : Hold) : (holdUnit s u h).packetsLv = s.packetsLv := by unfold holdUnit; split <;> rfl
@[simp] theorem holdUnit_numbers (s : State) (u : Issue) (h : Hold) : (holdUnit s u h).numbers = s.numbers := by unfold holdUnit; split <;> rfl
@[simp] theorem holdUnit_fabric (s : State) (u : Issue) (h : Hold) : (holdUnit s u h).fabric = s.fabric := by unfold holdUnit; split <;> rfl
@[simp] theorem holdUnit_peers (s : State) (u : Issue) (h : Hold) : (holdUnit s u h).peers = s.peers := by unfold holdUnit; split <;> rfl
@[simp] theorem holdUnit_fibres (s : State) (u : Issue) (h : Hold) : (holdUnit s u h).fibres = s.fibres := by unfold holdUnit; split <;> rfl
@[simp] theorem holdUnit_funcs (s : State) (u : Issue) (h : Hold) : (holdUnit s u h).funcs = s.funcs := by unfold holdUnit; split <;> rfl
@[simp] theorem holdUnit_power (s : State) (u : Issue) (h : Hold) : (holdUnit s u h).power = s.power := by unfold holdUnit; split <;> rfl
@[simp] theorem holdUnit_flash (s : State) (u : Issue) (h : Hold) : (holdUnit s u h).flash = s.flash := by unfold holdUnit; split <;> rfl
@[simp] theorem holdUnit_checkpoints (s : State) (u : Issue) (h : Hold) : (holdUnit s u h).checkpoints = s.checkpoints := by unfold holdUnit; split <;> rfl
@[simp] theorem holdUnit_identity (s : State) (u : Issue) (h : Hold) : (holdUnit s u h).identity = s.identity := by unfold holdUnit; split <;> rfl
@[simp] theorem holdUnit_traces (s : State) (u : Issue) (h : Hold) : (holdUnit s u h).traces = s.traces := by unfold holdUnit; split <;> rfl
@[simp] theorem holdUnit_services (s : State) (u : Issue) (h : Hold) : (holdUnit s u h).services = s.services := by unfold holdUnit; split <;> rfl
@[simp] theorem holdUnit_cxComps (s : State) (u : Issue) (h : Hold) : (holdUnit s u h).cxComps = s.cxComps := by unfold holdUnit; split <;> rfl
@[simp] theorem holdUnit_reports (s : State) (u : Issue) (h : Hold) : (holdUnit s u h).reports = s.reports := by unfold holdUnit; split <;> rfl
@[simp] theorem holdUnit_saves (s : State) (u : Issue) (h : Hold) : (holdUnit s u h).saves = s.saves := by unfold holdUnit; split <;> rfl
@[simp] theorem holdUnit_kept (s : State) (u : Issue) (h : Hold) : (holdUnit s u h).kept = s.kept := by unfold holdUnit; split <;> rfl
@[simp] theorem holdUnit_results (s : State) (u : Issue) (h : Hold) : (holdUnit s u h).results = s.results := by unfold holdUnit; split <;> rfl
@[simp] theorem holdUnit_warm (s : State) (u : Issue) (h : Hold) : (holdUnit s u h).warm = s.warm := by unfold holdUnit; split <;> rfl
@[simp] theorem holdUnit_upsets (s : State) (u : Issue) (h : Hold) : (holdUnit s u h).upsets = s.upsets := by unfold holdUnit; split <;> rfl
@[simp] theorem holdUnit_fresh (s : State) (u : Issue) (h : Hold) : (holdUnit s u h).fresh = s.fresh := by unfold holdUnit; split <;> rfl
@[simp] theorem holdUnit_due (s : State) (u : Issue) (h : Hold) : (holdUnit s u h).due = s.due := by unfold holdUnit; split <;> rfl
@[simp] theorem holdUnit_calls (s : State) (u : Issue) (h : Hold) : (holdUnit s u h).calls = s.calls := by unfold holdUnit; split <;> rfl
@[simp] theorem holdUnit_cut (s : State) (u : Issue) (h : Hold) : (holdUnit s u h).cut = s.cut := by unfold holdUnit; split <;> rfl

/-! ### Registers of a group -/

@[simp] theorem setVreg_gang (g : Group) (r l : Nat) (x : Word) : (setVreg g r l x).gang = g.gang := rfl
@[simp] theorem setVreg_team (g : Group) (r l : Nat) (x : Word) : (setVreg g r l x).team = g.team := rfl
@[simp] theorem setVreg_gid (g : Group) (r l : Nat) (x : Word) : (setVreg g r l x).gid = g.gid := rfl
@[simp] theorem setVreg_width (g : Group) (r l : Nat) (x : Word) : (setVreg g r l x).width = g.width := rfl
@[simp] theorem setVreg_quarter (g : Group) (r l : Nat) (x : Word) : (setVreg g r l x).quarter = g.quarter := rfl
@[simp] theorem setVreg_base (g : Group) (r l : Nat) (x : Word) : (setVreg g r l x).base = g.base := rfl
@[simp] theorem setVreg_created (g : Group) (r l : Nat) (x : Word) : (setVreg g r l x).created = g.created := rfl
@[simp] theorem setVreg_exited (g : Group) (r l : Nat) (x : Word) : (setVreg g r l x).exited = g.exited := rfl
@[simp] theorem setVreg_frags (g : Group) (r l : Nat) (x : Word) : (setVreg g r l x).frags = g.frags := rfl
@[simp] theorem setVreg_held (g : Group) (r l : Nat) (x : Word) : (setVreg g r l x).held = g.held := rfl
@[simp] theorem setVreg_regs (g : Group) (r l : Nat) (x : Word) : (setVreg g r l x).regs = g.regs := rfl
@[simp] theorem setVreg_s (g : Group) (r l : Nat) (x : Word) : (setVreg g r l x).s = g.s := rfl
@[simp] theorem setVreg_m (g : Group) (r l : Nat) (x : Word) : (setVreg g r l x).m = g.m := rfl
@[simp] theorem setVreg_counters (g : Group) (r l : Nat) (x : Word) : (setVreg g r l x).counters = g.counters := rfl
@[simp] theorem setVreg_round (g : Group) (r l : Nat) (x : Word) : (setVreg g r l x).round = g.round := rfl
@[simp] theorem setVreg_rstack (g : Group) (r l : Nat) (x : Word) : (setVreg g r l x).rstack = g.rstack := rfl
@[simp] theorem setVreg_bcur (g : Group) (r l : Nat) (x : Word) : (setVreg g r l x).bcur = g.bcur := rfl
@[simp] theorem setVreg_rng (g : Group) (r l : Nat) (x : Word) : (setVreg g r l x).rng = g.rng := rfl
@[simp] theorem setVreg_safe (g : Group) (r l : Nat) (x : Word) : (setVreg g r l x).safe = g.safe := rfl
@[simp] theorem setVreg_arrTeam (g : Group) (r l : Nat) (x : Word) : (setVreg g r l x).arrTeam = g.arrTeam := rfl
@[simp] theorem setVreg_arrGang (g : Group) (r l : Nat) (x : Word) : (setVreg g r l x).arrGang = g.arrGang := rfl
@[simp] theorem setVreg_regsTrap (g : Group) (r l : Nat) (x : Word) : (setVreg g r l x).regsTrap = g.regsTrap := rfl
@[simp] theorem setVreg_mode (g : Group) (r l : Nat) (x : Word) : (setVreg g r l x).mode = g.mode := rfl
@[simp] theorem setVreg_pending (g : Group) (r l : Nat) (x : Word) : (setVreg g r l x).pending = g.pending := rfl
@[simp] theorem setVreg_rdv (g : Group) (r l : Nat) (x : Word) : (setVreg g r l x).rdv = g.rdv := rfl
@[simp] theorem setVreg_batches (g : Group) (r l : Nat) (x : Word) : (setVreg g r l x).batches = g.batches := rfl
@[simp] theorem setVreg_anchors (g : Group) (r l : Nat) (x : Word) : (setVreg g r l x).anchors = g.anchors := rfl
@[simp] theorem setVreg_spills (g : Group) (r l : Nat) (x : Word) : (setVreg g r l x).spills = g.spills := rfl
@[simp] theorem setVreg_spins (g : Group) (r l : Nat) (x : Word) : (setVreg g r l x).spins = g.spins := rfl
@[simp] theorem setVreg_issued (g : Group) (r l : Nat) (x : Word) : (setVreg g r l x).issued = g.issued := rfl
@[simp] theorem setVreg_fenced (g : Group) (r l : Nat) (x : Word) : (setVreg g r l x).fenced = g.fenced := rfl
@[simp] theorem setVreg_stopping (g : Group) (r l : Nat) (x : Word) : (setVreg g r l x).stopping = g.stopping := rfl
@[simp] theorem setVreg_capPos (g : Group) (r l : Nat) (x : Word) : (setVreg g r l x).capPos = g.capPos := rfl

@[simp] theorem setSreg_gang (g : Group) (r : Nat) (x : Dword) : (setSreg g r x).gang = g.gang := rfl
@[simp] theorem setSreg_team (g : Group) (r : Nat) (x : Dword) : (setSreg g r x).team = g.team := rfl
@[simp] theorem setSreg_gid (g : Group) (r : Nat) (x : Dword) : (setSreg g r x).gid = g.gid := rfl
@[simp] theorem setSreg_width (g : Group) (r : Nat) (x : Dword) : (setSreg g r x).width = g.width := rfl
@[simp] theorem setSreg_quarter (g : Group) (r : Nat) (x : Dword) : (setSreg g r x).quarter = g.quarter := rfl
@[simp] theorem setSreg_base (g : Group) (r : Nat) (x : Dword) : (setSreg g r x).base = g.base := rfl
@[simp] theorem setSreg_created (g : Group) (r : Nat) (x : Dword) : (setSreg g r x).created = g.created := rfl
@[simp] theorem setSreg_exited (g : Group) (r : Nat) (x : Dword) : (setSreg g r x).exited = g.exited := rfl
@[simp] theorem setSreg_frags (g : Group) (r : Nat) (x : Dword) : (setSreg g r x).frags = g.frags := rfl
@[simp] theorem setSreg_held (g : Group) (r : Nat) (x : Dword) : (setSreg g r x).held = g.held := rfl
@[simp] theorem setSreg_regs (g : Group) (r : Nat) (x : Dword) : (setSreg g r x).regs = g.regs := rfl
@[simp] theorem setSreg_v (g : Group) (r : Nat) (x : Dword) : (setSreg g r x).v = g.v := rfl
@[simp] theorem setSreg_m (g : Group) (r : Nat) (x : Dword) : (setSreg g r x).m = g.m := rfl
@[simp] theorem setSreg_counters (g : Group) (r : Nat) (x : Dword) : (setSreg g r x).counters = g.counters := rfl
@[simp] theorem setSreg_round (g : Group) (r : Nat) (x : Dword) : (setSreg g r x).round = g.round := rfl
@[simp] theorem setSreg_rstack (g : Group) (r : Nat) (x : Dword) : (setSreg g r x).rstack = g.rstack := rfl
@[simp] theorem setSreg_bcur (g : Group) (r : Nat) (x : Dword) : (setSreg g r x).bcur = g.bcur := rfl
@[simp] theorem setSreg_rng (g : Group) (r : Nat) (x : Dword) : (setSreg g r x).rng = g.rng := rfl
@[simp] theorem setSreg_safe (g : Group) (r : Nat) (x : Dword) : (setSreg g r x).safe = g.safe := rfl
@[simp] theorem setSreg_arrTeam (g : Group) (r : Nat) (x : Dword) : (setSreg g r x).arrTeam = g.arrTeam := rfl
@[simp] theorem setSreg_arrGang (g : Group) (r : Nat) (x : Dword) : (setSreg g r x).arrGang = g.arrGang := rfl
@[simp] theorem setSreg_regsTrap (g : Group) (r : Nat) (x : Dword) : (setSreg g r x).regsTrap = g.regsTrap := rfl
@[simp] theorem setSreg_mode (g : Group) (r : Nat) (x : Dword) : (setSreg g r x).mode = g.mode := rfl
@[simp] theorem setSreg_pending (g : Group) (r : Nat) (x : Dword) : (setSreg g r x).pending = g.pending := rfl
@[simp] theorem setSreg_rdv (g : Group) (r : Nat) (x : Dword) : (setSreg g r x).rdv = g.rdv := rfl
@[simp] theorem setSreg_batches (g : Group) (r : Nat) (x : Dword) : (setSreg g r x).batches = g.batches := rfl
@[simp] theorem setSreg_anchors (g : Group) (r : Nat) (x : Dword) : (setSreg g r x).anchors = g.anchors := rfl
@[simp] theorem setSreg_spills (g : Group) (r : Nat) (x : Dword) : (setSreg g r x).spills = g.spills := rfl
@[simp] theorem setSreg_spins (g : Group) (r : Nat) (x : Dword) : (setSreg g r x).spins = g.spins := rfl
@[simp] theorem setSreg_issued (g : Group) (r : Nat) (x : Dword) : (setSreg g r x).issued = g.issued := rfl
@[simp] theorem setSreg_fenced (g : Group) (r : Nat) (x : Dword) : (setSreg g r x).fenced = g.fenced := rfl
@[simp] theorem setSreg_stopping (g : Group) (r : Nat) (x : Dword) : (setSreg g r x).stopping = g.stopping := rfl
@[simp] theorem setSreg_capPos (g : Group) (r : Nat) (x : Dword) : (setSreg g r x).capPos = g.capPos := rfl

@[simp] theorem setMask_gang (g : Group) (r : Nat) (x : Dword) : (setMask g r x).gang = g.gang := rfl
@[simp] theorem setMask_team (g : Group) (r : Nat) (x : Dword) : (setMask g r x).team = g.team := rfl
@[simp] theorem setMask_gid (g : Group) (r : Nat) (x : Dword) : (setMask g r x).gid = g.gid := rfl
@[simp] theorem setMask_width (g : Group) (r : Nat) (x : Dword) : (setMask g r x).width = g.width := rfl
@[simp] theorem setMask_quarter (g : Group) (r : Nat) (x : Dword) : (setMask g r x).quarter = g.quarter := rfl
@[simp] theorem setMask_base (g : Group) (r : Nat) (x : Dword) : (setMask g r x).base = g.base := rfl
@[simp] theorem setMask_created (g : Group) (r : Nat) (x : Dword) : (setMask g r x).created = g.created := rfl
@[simp] theorem setMask_exited (g : Group) (r : Nat) (x : Dword) : (setMask g r x).exited = g.exited := rfl
@[simp] theorem setMask_frags (g : Group) (r : Nat) (x : Dword) : (setMask g r x).frags = g.frags := rfl
@[simp] theorem setMask_held (g : Group) (r : Nat) (x : Dword) : (setMask g r x).held = g.held := rfl
@[simp] theorem setMask_regs (g : Group) (r : Nat) (x : Dword) : (setMask g r x).regs = g.regs := rfl
@[simp] theorem setMask_v (g : Group) (r : Nat) (x : Dword) : (setMask g r x).v = g.v := rfl
@[simp] theorem setMask_s (g : Group) (r : Nat) (x : Dword) : (setMask g r x).s = g.s := rfl
@[simp] theorem setMask_counters (g : Group) (r : Nat) (x : Dword) : (setMask g r x).counters = g.counters := rfl
@[simp] theorem setMask_round (g : Group) (r : Nat) (x : Dword) : (setMask g r x).round = g.round := rfl
@[simp] theorem setMask_rstack (g : Group) (r : Nat) (x : Dword) : (setMask g r x).rstack = g.rstack := rfl
@[simp] theorem setMask_bcur (g : Group) (r : Nat) (x : Dword) : (setMask g r x).bcur = g.bcur := rfl
@[simp] theorem setMask_rng (g : Group) (r : Nat) (x : Dword) : (setMask g r x).rng = g.rng := rfl
@[simp] theorem setMask_safe (g : Group) (r : Nat) (x : Dword) : (setMask g r x).safe = g.safe := rfl
@[simp] theorem setMask_arrTeam (g : Group) (r : Nat) (x : Dword) : (setMask g r x).arrTeam = g.arrTeam := rfl
@[simp] theorem setMask_arrGang (g : Group) (r : Nat) (x : Dword) : (setMask g r x).arrGang = g.arrGang := rfl
@[simp] theorem setMask_regsTrap (g : Group) (r : Nat) (x : Dword) : (setMask g r x).regsTrap = g.regsTrap := rfl
@[simp] theorem setMask_mode (g : Group) (r : Nat) (x : Dword) : (setMask g r x).mode = g.mode := rfl
@[simp] theorem setMask_pending (g : Group) (r : Nat) (x : Dword) : (setMask g r x).pending = g.pending := rfl
@[simp] theorem setMask_rdv (g : Group) (r : Nat) (x : Dword) : (setMask g r x).rdv = g.rdv := rfl
@[simp] theorem setMask_batches (g : Group) (r : Nat) (x : Dword) : (setMask g r x).batches = g.batches := rfl
@[simp] theorem setMask_anchors (g : Group) (r : Nat) (x : Dword) : (setMask g r x).anchors = g.anchors := rfl
@[simp] theorem setMask_spills (g : Group) (r : Nat) (x : Dword) : (setMask g r x).spills = g.spills := rfl
@[simp] theorem setMask_spins (g : Group) (r : Nat) (x : Dword) : (setMask g r x).spins = g.spins := rfl
@[simp] theorem setMask_issued (g : Group) (r : Nat) (x : Dword) : (setMask g r x).issued = g.issued := rfl
@[simp] theorem setMask_fenced (g : Group) (r : Nat) (x : Dword) : (setMask g r x).fenced = g.fenced := rfl
@[simp] theorem setMask_stopping (g : Group) (r : Nat) (x : Dword) : (setMask g r x).stopping = g.stopping := rfl
@[simp] theorem setMask_capPos (g : Group) (r : Nat) (x : Dword) : (setMask g r x).capPos = g.capPos := rfl

@[simp] theorem setCounter_gang (g : Group) (r : Nat) (x : Counter) : (setCounter g r x).gang = g.gang := rfl
@[simp] theorem setCounter_team (g : Group) (r : Nat) (x : Counter) : (setCounter g r x).team = g.team := rfl
@[simp] theorem setCounter_gid (g : Group) (r : Nat) (x : Counter) : (setCounter g r x).gid = g.gid := rfl
@[simp] theorem setCounter_width (g : Group) (r : Nat) (x : Counter) : (setCounter g r x).width = g.width := rfl
@[simp] theorem setCounter_quarter (g : Group) (r : Nat) (x : Counter) : (setCounter g r x).quarter = g.quarter := rfl
@[simp] theorem setCounter_base (g : Group) (r : Nat) (x : Counter) : (setCounter g r x).base = g.base := rfl
@[simp] theorem setCounter_created (g : Group) (r : Nat) (x : Counter) : (setCounter g r x).created = g.created := rfl
@[simp] theorem setCounter_exited (g : Group) (r : Nat) (x : Counter) : (setCounter g r x).exited = g.exited := rfl
@[simp] theorem setCounter_frags (g : Group) (r : Nat) (x : Counter) : (setCounter g r x).frags = g.frags := rfl
@[simp] theorem setCounter_held (g : Group) (r : Nat) (x : Counter) : (setCounter g r x).held = g.held := rfl
@[simp] theorem setCounter_regs (g : Group) (r : Nat) (x : Counter) : (setCounter g r x).regs = g.regs := rfl
@[simp] theorem setCounter_v (g : Group) (r : Nat) (x : Counter) : (setCounter g r x).v = g.v := rfl
@[simp] theorem setCounter_s (g : Group) (r : Nat) (x : Counter) : (setCounter g r x).s = g.s := rfl
@[simp] theorem setCounter_m (g : Group) (r : Nat) (x : Counter) : (setCounter g r x).m = g.m := rfl
@[simp] theorem setCounter_round (g : Group) (r : Nat) (x : Counter) : (setCounter g r x).round = g.round := rfl
@[simp] theorem setCounter_rstack (g : Group) (r : Nat) (x : Counter) : (setCounter g r x).rstack = g.rstack := rfl
@[simp] theorem setCounter_bcur (g : Group) (r : Nat) (x : Counter) : (setCounter g r x).bcur = g.bcur := rfl
@[simp] theorem setCounter_rng (g : Group) (r : Nat) (x : Counter) : (setCounter g r x).rng = g.rng := rfl
@[simp] theorem setCounter_safe (g : Group) (r : Nat) (x : Counter) : (setCounter g r x).safe = g.safe := rfl
@[simp] theorem setCounter_arrTeam (g : Group) (r : Nat) (x : Counter) : (setCounter g r x).arrTeam = g.arrTeam := rfl
@[simp] theorem setCounter_arrGang (g : Group) (r : Nat) (x : Counter) : (setCounter g r x).arrGang = g.arrGang := rfl
@[simp] theorem setCounter_regsTrap (g : Group) (r : Nat) (x : Counter) : (setCounter g r x).regsTrap = g.regsTrap := rfl
@[simp] theorem setCounter_mode (g : Group) (r : Nat) (x : Counter) : (setCounter g r x).mode = g.mode := rfl
@[simp] theorem setCounter_pending (g : Group) (r : Nat) (x : Counter) : (setCounter g r x).pending = g.pending := rfl
@[simp] theorem setCounter_rdv (g : Group) (r : Nat) (x : Counter) : (setCounter g r x).rdv = g.rdv := rfl
@[simp] theorem setCounter_batches (g : Group) (r : Nat) (x : Counter) : (setCounter g r x).batches = g.batches := rfl
@[simp] theorem setCounter_anchors (g : Group) (r : Nat) (x : Counter) : (setCounter g r x).anchors = g.anchors := rfl
@[simp] theorem setCounter_spills (g : Group) (r : Nat) (x : Counter) : (setCounter g r x).spills = g.spills := rfl
@[simp] theorem setCounter_spins (g : Group) (r : Nat) (x : Counter) : (setCounter g r x).spins = g.spins := rfl
@[simp] theorem setCounter_issued (g : Group) (r : Nat) (x : Counter) : (setCounter g r x).issued = g.issued := rfl
@[simp] theorem setCounter_fenced (g : Group) (r : Nat) (x : Counter) : (setCounter g r x).fenced = g.fenced := rfl
@[simp] theorem setCounter_stopping (g : Group) (r : Nat) (x : Counter) : (setCounter g r x).stopping = g.stopping := rfl
@[simp] theorem setCounter_capPos (g : Group) (r : Nat) (x : Counter) : (setCounter g r x).capPos = g.capPos := rfl

@[simp] theorem setRng_gang (g : Group) (l : Nat) (x : Word) : (setRng g l x).gang = g.gang := by cases g; rfl
@[simp] theorem setRng_team (g : Group) (l : Nat) (x : Word) : (setRng g l x).team = g.team := by cases g; rfl
@[simp] theorem setRng_gid (g : Group) (l : Nat) (x : Word) : (setRng g l x).gid = g.gid := by cases g; rfl
@[simp] theorem setRng_width (g : Group) (l : Nat) (x : Word) : (setRng g l x).width = g.width := by cases g; rfl
@[simp] theorem setRng_quarter (g : Group) (l : Nat) (x : Word) : (setRng g l x).quarter = g.quarter := by cases g; rfl
@[simp] theorem setRng_base (g : Group) (l : Nat) (x : Word) : (setRng g l x).base = g.base := by cases g; rfl
@[simp] theorem setRng_created (g : Group) (l : Nat) (x : Word) : (setRng g l x).created = g.created := by cases g; rfl
@[simp] theorem setRng_exited (g : Group) (l : Nat) (x : Word) : (setRng g l x).exited = g.exited := by cases g; rfl
@[simp] theorem setRng_frags (g : Group) (l : Nat) (x : Word) : (setRng g l x).frags = g.frags := by cases g; rfl
@[simp] theorem setRng_held (g : Group) (l : Nat) (x : Word) : (setRng g l x).held = g.held := by cases g; rfl
@[simp] theorem setRng_regs (g : Group) (l : Nat) (x : Word) : (setRng g l x).regs = g.regs := by cases g; rfl
@[simp] theorem setRng_v (g : Group) (l : Nat) (x : Word) : (setRng g l x).v = g.v := by cases g; rfl
@[simp] theorem setRng_s (g : Group) (l : Nat) (x : Word) : (setRng g l x).s = g.s := by cases g; rfl
@[simp] theorem setRng_m (g : Group) (l : Nat) (x : Word) : (setRng g l x).m = g.m := by cases g; rfl
@[simp] theorem setRng_counters (g : Group) (l : Nat) (x : Word) : (setRng g l x).counters = g.counters := by cases g; rfl
@[simp] theorem setRng_round (g : Group) (l : Nat) (x : Word) : (setRng g l x).round = g.round := by cases g; rfl
@[simp] theorem setRng_rstack (g : Group) (l : Nat) (x : Word) : (setRng g l x).rstack = g.rstack := by cases g; rfl
@[simp] theorem setRng_bcur (g : Group) (l : Nat) (x : Word) : (setRng g l x).bcur = g.bcur := by cases g; rfl
@[simp] theorem setRng_safe (g : Group) (l : Nat) (x : Word) : (setRng g l x).safe = g.safe := by cases g; rfl
@[simp] theorem setRng_arrTeam (g : Group) (l : Nat) (x : Word) : (setRng g l x).arrTeam = g.arrTeam := by cases g; rfl
@[simp] theorem setRng_arrGang (g : Group) (l : Nat) (x : Word) : (setRng g l x).arrGang = g.arrGang := by cases g; rfl
@[simp] theorem setRng_regsTrap (g : Group) (l : Nat) (x : Word) : (setRng g l x).regsTrap = g.regsTrap := by cases g; rfl
@[simp] theorem setRng_mode (g : Group) (l : Nat) (x : Word) : (setRng g l x).mode = g.mode := by cases g; rfl
@[simp] theorem setRng_pending (g : Group) (l : Nat) (x : Word) : (setRng g l x).pending = g.pending := by cases g; rfl
@[simp] theorem setRng_rdv (g : Group) (l : Nat) (x : Word) : (setRng g l x).rdv = g.rdv := by cases g; rfl
@[simp] theorem setRng_batches (g : Group) (l : Nat) (x : Word) : (setRng g l x).batches = g.batches := by cases g; rfl
@[simp] theorem setRng_anchors (g : Group) (l : Nat) (x : Word) : (setRng g l x).anchors = g.anchors := by cases g; rfl
@[simp] theorem setRng_spills (g : Group) (l : Nat) (x : Word) : (setRng g l x).spills = g.spills := by cases g; rfl
@[simp] theorem setRng_spins (g : Group) (l : Nat) (x : Word) : (setRng g l x).spins = g.spins := by cases g; rfl
@[simp] theorem setRng_issued (g : Group) (l : Nat) (x : Word) : (setRng g l x).issued = g.issued := by cases g; rfl
@[simp] theorem setRng_fenced (g : Group) (l : Nat) (x : Word) : (setRng g l x).fenced = g.fenced := by cases g; rfl
@[simp] theorem setRng_stopping (g : Group) (l : Nat) (x : Word) : (setRng g l x).stopping = g.stopping := by cases g; rfl
@[simp] theorem setRng_capPos (g : Group) (l : Nat) (x : Word) : (setRng g l x).capPos = g.capPos := by cases g; rfl

@[simp] theorem modFrag_gang (g : Group) (m : Dword) (h : Frag → Frag) : (modFrag g m h).gang = g.gang := rfl
@[simp] theorem modFrag_team (g : Group) (m : Dword) (h : Frag → Frag) : (modFrag g m h).team = g.team := rfl
@[simp] theorem modFrag_gid (g : Group) (m : Dword) (h : Frag → Frag) : (modFrag g m h).gid = g.gid := rfl
@[simp] theorem modFrag_width (g : Group) (m : Dword) (h : Frag → Frag) : (modFrag g m h).width = g.width := rfl
@[simp] theorem modFrag_quarter (g : Group) (m : Dword) (h : Frag → Frag) : (modFrag g m h).quarter = g.quarter := rfl
@[simp] theorem modFrag_base (g : Group) (m : Dword) (h : Frag → Frag) : (modFrag g m h).base = g.base := rfl
@[simp] theorem modFrag_created (g : Group) (m : Dword) (h : Frag → Frag) : (modFrag g m h).created = g.created := rfl
@[simp] theorem modFrag_exited (g : Group) (m : Dword) (h : Frag → Frag) : (modFrag g m h).exited = g.exited := rfl
@[simp] theorem modFrag_held (g : Group) (m : Dword) (h : Frag → Frag) : (modFrag g m h).held = g.held := rfl
@[simp] theorem modFrag_regs (g : Group) (m : Dword) (h : Frag → Frag) : (modFrag g m h).regs = g.regs := rfl
@[simp] theorem modFrag_v (g : Group) (m : Dword) (h : Frag → Frag) : (modFrag g m h).v = g.v := rfl
@[simp] theorem modFrag_s (g : Group) (m : Dword) (h : Frag → Frag) : (modFrag g m h).s = g.s := rfl
@[simp] theorem modFrag_m (g : Group) (m : Dword) (h : Frag → Frag) : (modFrag g m h).m = g.m := rfl
@[simp] theorem modFrag_counters (g : Group) (m : Dword) (h : Frag → Frag) : (modFrag g m h).counters = g.counters := rfl
@[simp] theorem modFrag_round (g : Group) (m : Dword) (h : Frag → Frag) : (modFrag g m h).round = g.round := rfl
@[simp] theorem modFrag_rstack (g : Group) (m : Dword) (h : Frag → Frag) : (modFrag g m h).rstack = g.rstack := rfl
@[simp] theorem modFrag_bcur (g : Group) (m : Dword) (h : Frag → Frag) : (modFrag g m h).bcur = g.bcur := rfl
@[simp] theorem modFrag_rng (g : Group) (m : Dword) (h : Frag → Frag) : (modFrag g m h).rng = g.rng := rfl
@[simp] theorem modFrag_safe (g : Group) (m : Dword) (h : Frag → Frag) : (modFrag g m h).safe = g.safe := rfl
@[simp] theorem modFrag_arrTeam (g : Group) (m : Dword) (h : Frag → Frag) : (modFrag g m h).arrTeam = g.arrTeam := rfl
@[simp] theorem modFrag_arrGang (g : Group) (m : Dword) (h : Frag → Frag) : (modFrag g m h).arrGang = g.arrGang := rfl
@[simp] theorem modFrag_regsTrap (g : Group) (m : Dword) (h : Frag → Frag) : (modFrag g m h).regsTrap = g.regsTrap := rfl
@[simp] theorem modFrag_mode (g : Group) (m : Dword) (h : Frag → Frag) : (modFrag g m h).mode = g.mode := rfl
@[simp] theorem modFrag_pending (g : Group) (m : Dword) (h : Frag → Frag) : (modFrag g m h).pending = g.pending := rfl
@[simp] theorem modFrag_rdv (g : Group) (m : Dword) (h : Frag → Frag) : (modFrag g m h).rdv = g.rdv := rfl
@[simp] theorem modFrag_batches (g : Group) (m : Dword) (h : Frag → Frag) : (modFrag g m h).batches = g.batches := rfl
@[simp] theorem modFrag_anchors (g : Group) (m : Dword) (h : Frag → Frag) : (modFrag g m h).anchors = g.anchors := rfl
@[simp] theorem modFrag_spills (g : Group) (m : Dword) (h : Frag → Frag) : (modFrag g m h).spills = g.spills := rfl
@[simp] theorem modFrag_spins (g : Group) (m : Dword) (h : Frag → Frag) : (modFrag g m h).spins = g.spins := rfl
@[simp] theorem modFrag_issued (g : Group) (m : Dword) (h : Frag → Frag) : (modFrag g m h).issued = g.issued := rfl
@[simp] theorem modFrag_fenced (g : Group) (m : Dword) (h : Frag → Frag) : (modFrag g m h).fenced = g.fenced := rfl
@[simp] theorem modFrag_stopping (g : Group) (m : Dword) (h : Frag → Frag) : (modFrag g m h).stopping = g.stopping := rfl
@[simp] theorem modFrag_capPos (g : Group) (m : Dword) (h : Frag → Frag) : (modFrag g m h).capPos = g.capPos := rfl

@[simp] theorem putFrags_gang (g : Group) (m : Dword) (fs : List Frag) : (putFrags g m fs).gang = g.gang := rfl
@[simp] theorem putFrags_team (g : Group) (m : Dword) (fs : List Frag) : (putFrags g m fs).team = g.team := rfl
@[simp] theorem putFrags_gid (g : Group) (m : Dword) (fs : List Frag) : (putFrags g m fs).gid = g.gid := rfl
@[simp] theorem putFrags_width (g : Group) (m : Dword) (fs : List Frag) : (putFrags g m fs).width = g.width := rfl
@[simp] theorem putFrags_quarter (g : Group) (m : Dword) (fs : List Frag) : (putFrags g m fs).quarter = g.quarter := rfl
@[simp] theorem putFrags_base (g : Group) (m : Dword) (fs : List Frag) : (putFrags g m fs).base = g.base := rfl
@[simp] theorem putFrags_created (g : Group) (m : Dword) (fs : List Frag) : (putFrags g m fs).created = g.created := rfl
@[simp] theorem putFrags_exited (g : Group) (m : Dword) (fs : List Frag) : (putFrags g m fs).exited = g.exited := rfl
@[simp] theorem putFrags_held (g : Group) (m : Dword) (fs : List Frag) : (putFrags g m fs).held = g.held := rfl
@[simp] theorem putFrags_regs (g : Group) (m : Dword) (fs : List Frag) : (putFrags g m fs).regs = g.regs := rfl
@[simp] theorem putFrags_v (g : Group) (m : Dword) (fs : List Frag) : (putFrags g m fs).v = g.v := rfl
@[simp] theorem putFrags_s (g : Group) (m : Dword) (fs : List Frag) : (putFrags g m fs).s = g.s := rfl
@[simp] theorem putFrags_m (g : Group) (m : Dword) (fs : List Frag) : (putFrags g m fs).m = g.m := rfl
@[simp] theorem putFrags_counters (g : Group) (m : Dword) (fs : List Frag) : (putFrags g m fs).counters = g.counters := rfl
@[simp] theorem putFrags_round (g : Group) (m : Dword) (fs : List Frag) : (putFrags g m fs).round = g.round := rfl
@[simp] theorem putFrags_rstack (g : Group) (m : Dword) (fs : List Frag) : (putFrags g m fs).rstack = g.rstack := rfl
@[simp] theorem putFrags_bcur (g : Group) (m : Dword) (fs : List Frag) : (putFrags g m fs).bcur = g.bcur := rfl
@[simp] theorem putFrags_rng (g : Group) (m : Dword) (fs : List Frag) : (putFrags g m fs).rng = g.rng := rfl
@[simp] theorem putFrags_safe (g : Group) (m : Dword) (fs : List Frag) : (putFrags g m fs).safe = g.safe := rfl
@[simp] theorem putFrags_arrTeam (g : Group) (m : Dword) (fs : List Frag) : (putFrags g m fs).arrTeam = g.arrTeam := rfl
@[simp] theorem putFrags_arrGang (g : Group) (m : Dword) (fs : List Frag) : (putFrags g m fs).arrGang = g.arrGang := rfl
@[simp] theorem putFrags_regsTrap (g : Group) (m : Dword) (fs : List Frag) : (putFrags g m fs).regsTrap = g.regsTrap := rfl
@[simp] theorem putFrags_mode (g : Group) (m : Dword) (fs : List Frag) : (putFrags g m fs).mode = g.mode := rfl
@[simp] theorem putFrags_pending (g : Group) (m : Dword) (fs : List Frag) : (putFrags g m fs).pending = g.pending := rfl
@[simp] theorem putFrags_rdv (g : Group) (m : Dword) (fs : List Frag) : (putFrags g m fs).rdv = g.rdv := rfl
@[simp] theorem putFrags_batches (g : Group) (m : Dword) (fs : List Frag) : (putFrags g m fs).batches = g.batches := rfl
@[simp] theorem putFrags_anchors (g : Group) (m : Dword) (fs : List Frag) : (putFrags g m fs).anchors = g.anchors := rfl
@[simp] theorem putFrags_spills (g : Group) (m : Dword) (fs : List Frag) : (putFrags g m fs).spills = g.spills := rfl
@[simp] theorem putFrags_spins (g : Group) (m : Dword) (fs : List Frag) : (putFrags g m fs).spins = g.spins := rfl
@[simp] theorem putFrags_issued (g : Group) (m : Dword) (fs : List Frag) : (putFrags g m fs).issued = g.issued := rfl
@[simp] theorem putFrags_fenced (g : Group) (m : Dword) (fs : List Frag) : (putFrags g m fs).fenced = g.fenced := rfl
@[simp] theorem putFrags_stopping (g : Group) (m : Dword) (fs : List Frag) : (putFrags g m fs).stopping = g.stopping := rfl
@[simp] theorem putFrags_capPos (g : Group) (m : Dword) (fs : List Frag) : (putFrags g m fs).capPos = g.capPos := rfl

/-! ### A fragment that waits -/

@[simp] theorem holding_lanes (f : Frag) (h : Hold) (c : Nat) : (f.holding h c).lanes = f.lanes := by unfold Frag.holding; split <;> rfl
@[simp] theorem holding_pc (f : Frag) (h : Hold) (c : Nat) : (f.holding h c).pc = f.pc := by unfold Frag.holding; split <;> rfl
@[simp] theorem holding_clause (f : Frag) (h : Hold) (c : Nat) : (f.holding h c).clause = f.clause := by unfold Frag.holding; split <;> rfl
@[simp] theorem holding_pix (f : Frag) (h : Hold) (c : Nat) : (f.holding h c).pix = f.pix := by unfold Frag.holding; split <;> rfl
@[simp] theorem holding_resumed (f : Frag) (h : Hold) (c : Nat) : (f.holding h c).resumed = f.resumed := by unfold Frag.holding; split <;> rfl
@[simp] theorem holding_first (f : Frag) (h : Hold) (c : Nat) : (f.holding h c).first = f.first := by unfold Frag.holding; split <;> rfl
@[simp] theorem holding_op (f : Frag) (h : Hold) (c : Nat) : (f.holding h c).op = f.op := by unfold Frag.holding; split <;> rfl
@[simp] theorem holding_age (f : Frag) (h : Hold) (c : Nat) : (f.holding h c).age = f.age := by unfold Frag.holding; split <;> rfl

end Sys2Proof.Machine
end

