-- ==== Sys2Proof/Laws/Lane.lean ====
section
/-!
SUPPORT. Laws of the operations over groups and lanes: reading a register after a write, and one lemma for each shared
operation of the lane words, which says all that it does.
-/
namespace Sys2Proof.Machine

open Sys2Proof

/-! ### Groups -/

@[simp] theorem groupOf_setGroup (s : State) (k : Nat) (g : Group) : groupOf (setGroup s k g) k = some g := by
  simp [groupOf, setGroup]

theorem groupOf_setGroup_ne (s : State) {k k' : Nat} (g : Group) (h : k' ≠ k) : groupOf (setGroup s k g) k' = groupOf s k' := by
  simp [groupOf, setGroup, h]

/-- What an issuing unit stands for. -/
theorem issueOf_some {s : State} {u : Issue} (h : issueOf s = some u) :
    groupOf s u.key = some u.g ∧ u.f ∈ u.g.frags ∧ s.cur.isSome := by
  unfold issueOf at h
  split at h
  · cases h
  · rename_i c hc
    split at h
    · cases h
    · rename_i g hg
      split at h
      · cases h
      · rename_i f hf
        cases h
        exact ⟨hg, List.mem_of_find?_eq_some hf, by simp [hc]⟩

theorem withIssue_eq {s : State} {u : Issue} (h : issueOf s = some u) (k : Issue → Out) : withIssue s k = k u := by
  simp [withIssue, h]

theorem badReg_none {g : Group} {rs : List (Opnd × Nat)} (h : RegsOk g rs) : badReg g rs = none := by
  induction rs with
  | nil => rfl
  | cons r rs ih =>
    obtain ⟨x, n⟩ := r
    have h0 := h (x, n) (by simp)
    have h1 := ih (fun r hr => h r (by simp [hr]))
    simp only [badReg, isScalar, h1]
    simp only at h0
    by_cases hx : 192 ≤ x.toNat
    · rw [if_pos hx] at h0; simp [hx]; omega
    · rw [if_neg hx] at h0; simp [hx, h0.1]; omega

theorem withRegs_eq {s : State} {u : Issue} (h : issueOf s = some u) {rs : List (Opnd × Nat)} (hr : RegsOk u.g rs)
    (k : Issue → Out) : withRegs s rs k = k u := by
  simp [withRegs, withIssue_eq h, badReg_none hr]

/-! ### Registers -/

theorem vreg_setVreg (g : Group) (r l r' l' : Nat) (x : Word) (h : l < 64) (h' : l' < 64) :
    vreg (setVreg g r l x) r' l' = if r' = r ∧ l' = l then x else vreg g r' l' := by
  unfold vreg setVreg
  simp only [tget_tset]
  by_cases e : r' = r ∧ l' = l
  · simp [e]
  · rw [if_neg e, if_neg (by omega)]

theorem sreg_setSreg (g : Group) (r r' : Nat) (x : Dword) : sreg (setSreg g r x) r' = if r' = r then x else sreg g r' := by
  unfold sreg setSreg; simp only [tget_tset]

@[simp] theorem sreg_setVreg (g : Group) (r l k : Nat) (x : Word) : sreg (setVreg g r l x) k = sreg g k := rfl
@[simp] theorem vreg_setSreg (g : Group) (r k l : Nat) (x : Dword) : vreg (setSreg g r x) k l = vreg g k l := rfl

theorem rngOf_setRng (g : Group) (l l' : Nat) (x : Word) : rngOf (setRng g l x) l' = if l' = l then x else rngOf g l' := by
  by_cases h : l' = l
  · subst h; unfold rngOf setRng; simp
  · unfold rngOf setRng; simp only [if_neg h]
    unfold tset; split
    · simp only [tget, tfind_tdel, if_neg h]
    · simp only [tget, tfind_tput, if_neg h]

theorem mem_lanesOf {m : Dword} {l : Nat} : l ∈ lanesOf m ↔ lane m l = true ∧ l < 64 := by
  simp [lanesOf, and_comm]

theorem lane_lt {m : Dword} {l : Nat} (h : lane m l = true) : l < 64 := by
  unfold lane at h; exact BitVec.lt_of_getLsbD h

theorem nodup_lanesOf (m : Dword) : (lanesOf m).Nodup := by
  unfold lanesOf; exact List.nodup_range.filter _

theorem lanesOf_eq_nil {m : Dword} : lanesOf m = [] ↔ m = 0 := by
  constructor
  · intro h
    apply BitVec.eq_of_getLsbD_eq
    intro i hi
    have : i ∉ lanesOf m := by simp [h]
    rw [mem_lanesOf] at this
    simp only [lane] at this
    simp
    cases hm : m.getLsbD i <;> simp_all
  · rintro rfl; simp [lanesOf, lane]

/-! ### Words over lanes -/

theorem putReg_vreg (g : Group) (d : Opnd) (n l : Nat) (x : Dword) (hn : n = 1 ∨ n = 2) (hl : l < 64) (r l' : Nat)
    (hl' : l' < 64) :
    vreg (putReg g d n l x) r l' =
      if l' = l ∧ d.toNat ≤ r ∧ r < d.toNat + n then (x >>> (32 * (r - d.toNat))).setWidth 32 else vreg g r l' := by
  unfold putReg
  rcases hn with rfl | rfl
  · simp only [show ¬ (1 = 2) by decide, if_false]
    rw [vreg_setVreg _ _ _ _ _ _ hl hl']
    by_cases h : r = d.toNat ∧ l' = l
    · obtain ⟨rfl, rfl⟩ := h; rw [if_pos ⟨rfl, rfl⟩, if_pos (by omega)]; simp
    · rw [if_neg h, if_neg (by omega)]
  · simp only [if_true]
    rw [vreg_setVreg _ _ _ _ _ _ hl hl', vreg_setVreg _ _ _ _ _ _ hl hl']
    by_cases h : r = d.toNat + 1 ∧ l' = l
    · obtain ⟨rfl, rfl⟩ := h
      rw [if_pos ⟨rfl, rfl⟩, if_pos (by omega)]
      have : d.toNat + 1 - d.toNat = 1 := by omega
      rw [this]
    · rw [if_neg h]
      by_cases h2 : r = d.toNat ∧ l' = l
      · obtain ⟨rfl, rfl⟩ := h2; rw [if_pos ⟨rfl, rfl⟩, if_pos (by omega)]; simp
      · rw [if_neg h2, if_neg (by omega)]

theorem putReg_only (g : Group) (d : Opnd) (n l : Nat) (x : Dword) : ∃ v, putReg g d n l x = { g with v := v } := by
  unfold putReg; split
  · exact ⟨_, rfl⟩
  · exact ⟨_, rfl⟩

/-- A fold of group updates that only change vector registers. -/
theorem foldl_only (ls : List Nat) (f : Group → Nat → Group) (hf : ∀ g l, ∃ v, f g l = { g with v := v }) (g : Group) :
    ∃ v, ls.foldl f g = { g with v := v } := by
  induction ls generalizing g with
  | nil => exact ⟨g.v, rfl⟩
  | cons l ls ih =>
    obtain ⟨v, hv⟩ := hf g l
    obtain ⟨w, hw⟩ := ih (f g l)
    exact ⟨w, by rw [List.foldl_cons, hw, hv]⟩

theorem foldl_vreg (ls : List Nat) (f : Group → Nat → Group) (val : Nat → Nat → Word → Word)
    (hf : ∀ g l r l', l < 64 → l' < 64 → vreg (f g l) r l' = if l' = l then val l r (vreg g r l') else vreg g r l')
    (hnd : ls.Nodup) (hls : ∀ l ∈ ls, l < 64) (g : Group) (r l' : Nat) (hl' : l' < 64) :
    vreg (ls.foldl f g) r l' = if l' ∈ ls then val l' r (vreg g r l') else vreg g r l' := by
  induction ls generalizing g with
  | nil => simp
  | cons l ls ih =>
    rw [List.nodup_cons] at hnd
    rw [List.foldl_cons, ih hnd.2 (fun x hx => hls x (by simp [hx])), hf g l r l' (hls l (by simp)) hl']
    by_cases h : l' = l
    · subst h; simp [hnd.1]
    · simp [h]

theorem writeVec_writes (u : Issue) (p : Option Pfx) (d : Opnd) (n : Nat) (hn : n = 1 ∨ n = 2) (f : Nat → Dword) :
    Writes u p d n f (writeVec u.g d n u.f.lanes (execLanes u p) (zOf p) f) ∧
    ∃ v s, writeVec u.g d n u.f.lanes (execLanes u p) (zOf p) f = { u.g with v := v, s := s } := by
  unfold writeVec
  by_cases hd : isScalar d = true
  · rw [if_pos hd]
    have hd' : 192 ≤ d.toNat := by simpa [isScalar] using hd
    cases hl : lanesOf (execLanes u p) with
    | nil =>
      have h0 := lanesOf_eq_nil.mp hl
      constructor
      · constructor
        · intro r l _; exact (if_pos (Or.inl hd')).symm
        · intro r; exact (if_neg (fun h => h.2.2 h0)).symm
      · exact ⟨u.g.v, u.g.s, rfl⟩
    | cons l ls =>
      have h0 : execLanes u p ≠ 0 := by intro h; rw [lanesOf_eq_nil.mpr h] at hl; cases hl
      constructor
      · constructor
        · intro r l' _; exact (if_pos (Or.inl hd')).symm
        · intro r
          rw [sreg_setSreg]
          have hlow : lowest (execLanes u p) = l := by simp [lowest, hl]
          rw [hlow]
          by_cases h : r = d.toNat - 192
          · rw [if_pos (show r = scalarNo d from h), if_pos ⟨hd', h, h0⟩]
          · rw [if_neg (show ¬ r = scalarNo d from h), if_neg (fun x => h x.2.1)]
      · exact ⟨u.g.v, _, rfl⟩
  · rw [if_neg hd]
    have hd' : ¬ 192 ≤ d.toNat := by simpa [isScalar] using hd
    have hcase : ∀ (g : Group) (l : Nat), ∃ v, (if lane (execLanes u p) l then putReg g d n l (f l)
        else if zOf p then putReg g d n l 0 else g) = { g with v := v } := by
      intro g l; split
      · exact putReg_only ..
      · split
        · exact putReg_only ..
        · exact ⟨g.v, rfl⟩
    obtain ⟨v, hv⟩ := foldl_only (lanesOf u.f.lanes) _ hcase u.g
    refine ⟨⟨fun r l hl => ?_, fun r => ?_⟩, v, u.g.s, by rw [hv]⟩
    · rw [foldl_vreg (lanesOf u.f.lanes) _
        (fun l r w => if d.toNat ≤ r ∧ r < d.toNat + n then (if lane (execLanes u p) l then (f l >>> (32 * (r - d.toNat))).setWidth 32
          else if zOf p then 0 else w) else w) ?_ (nodup_lanesOf _) (fun l h => (mem_lanesOf.mp h).2) u.g r l hl]
      · by_cases hm : lane u.f.lanes l = true
        · rw [if_pos (mem_lanesOf.mpr ⟨hm, hl⟩)]
          by_cases hr : d.toNat ≤ r ∧ r < d.toNat + n
          · have hc : ¬ (192 ≤ d.toNat ∨ lane u.f.lanes l = false ∨ r < d.toNat ∨ d.toNat + n ≤ r) := by
              rintro (h | h | h | h)
              · exact hd' h
              · rw [hm] at h; cases h
              · omega
              · omega
            rw [if_pos hr, if_neg hc]
          · rw [if_neg hr, if_pos (by omega)]
        · rw [if_neg (fun h => hm (mem_lanesOf.mp h).1), if_pos (by simp at hm; simp [hm])]
      · intro g l r l' h1 h2
        split
        · rename_i ha
          rw [putReg_vreg _ _ _ _ _ hn h1 _ _ h2]
          by_cases e : l' = l
          · subst e; simp
          · simp [e]
        · rename_i ha
          split
          · rename_i hz
            rw [putReg_vreg _ _ _ _ _ hn h1 _ _ h2]
            by_cases e : l' = l
            · subst e; simp
            · simp [e]
          · rename_i hz
            by_cases e : l' = l
            · subst e; simp
            · simp [e]
    · rw [hv]
      have : ¬ (192 ≤ d.toNat ∧ r = d.toNat - 192 ∧ execLanes u p ≠ 0) := fun h => hd' h.1
      rw [if_neg this]; rfl

theorem foldl_setRng (m : Dword) (adv : Nat → Word) (g : Group) :
    (∃ r, (lanesOf m).foldl (fun h l => setRng h l (adv l)) g = { g with rng := r }) ∧
    ∀ l, l < 64 → rngOf ((lanesOf m).foldl (fun h l => setRng h l (adv l)) g) l = if lane m l then adv l else rngOf g l := by
  have key : ∀ (ls : List Nat), ls.Nodup → ∀ g : Group,
      (∃ r, ls.foldl (fun h l => setRng h l (adv l)) g = { g with rng := r }) ∧
      ∀ l, rngOf (ls.foldl (fun h l => setRng h l (adv l)) g) l = if l ∈ ls then adv l else rngOf g l := by
    intro ls
    induction ls with
    | nil => intro _ g; exact ⟨⟨g.rng, rfl⟩, fun l => by simp⟩
    | cons a ls ih =>
      intro hnd g
      rw [List.nodup_cons] at hnd
      obtain ⟨⟨r, hr⟩, h2⟩ := ih hnd.2 (setRng g a (adv a))
      refine ⟨⟨r, by rw [List.foldl_cons, hr]; cases g; rfl⟩, fun l => ?_⟩
      rw [List.foldl_cons, h2, rngOf_setRng]
      by_cases h : l = a
      · subst h; simp [hnd.1]
      · simp [h]
  obtain ⟨h1, h2⟩ := key (lanesOf m) (nodup_lanesOf m) g
  refine ⟨h1, fun l hl => ?_⟩
  rw [h2 l]
  by_cases h : lane m l = true
  · rw [if_pos (mem_lanesOf.mpr ⟨h, hl⟩), if_pos h]
  · rw [if_neg (fun x => h (mem_lanesOf.mp x).1), if_neg h]

theorem rngOf_regs (g : Group) (v : Table Word) (s : Table Dword) (l : Nat) : rngOf { g with v := v, s := s } l = rngOf g l := rfl
theorem vreg_rng (g : Group) (t : Table Word) (r l : Nat) : vreg { g with rng := t } r l = vreg g r l := rfl
theorem sreg_rng (g : Group) (t : Table Word) (r : Nat) : sreg { g with rng := t } r = sreg g r := rfl

/-- A lane word whose registers are allowed runs to its result. -/
theorem laneOp_runs {s : State} {u : Issue} (h : issueOf s = some u) {p : Option Pfx} {d : Opnd} {n : Nat} (hn : n = 1 ∨ n = 2)
    {srcs : List (Opnd × Nat)} (hr : RegsOk u.g ((d, n) :: srcs)) (val : Group → Nat → Word → Dword × Word) :
    ∃ g', laneOp s p d n srcs val = .next (u.passed s g') ∧
      Writes u p d n (fun l => (val u.g l (rngOf u.g l)).1) g' ∧
      Draws u p (fun l x => (val u.g l x).2) g' ∧ OnlyRegs u.g g' := by
  unfold laneOp
  rw [withRegs_eq h hr]
  obtain ⟨hw, v, sc, he⟩ := writeVec_writes u p d n hn (fun l => (val u.g l (rngOf u.g l)).1)
  obtain ⟨⟨r, hr1⟩, hr2⟩ := foldl_setRng (execLanes u p) (fun l => (val u.g l (rngOf u.g l)).2)
    (writeVec u.g d n u.f.lanes (execLanes u p) (zOf p) (fun l => (val u.g l (rngOf u.g l)).1))
  refine ⟨_, rfl, ?_, ?_, ?_⟩
  · rw [hr1]; exact hw
  · intro l hl; rw [hr2 l hl]; rw [he]; split <;> rfl
  · rw [hr1, he]; rfl

theorem pureOp_runs {s : State} {u : Issue} (h : issueOf s = some u) {p : Option Pfx} {d : Opnd} {n : Nat} (hn : n = 1 ∨ n = 2)
    {srcs : List (Opnd × Nat)} (hr : RegsOk u.g ((d, n) :: srcs)) (val : Group → Nat → Nat) :
    ∃ g', pureOp s p d n srcs val = .next (u.passed s g') ∧
      Writes u p d n (fun l => BitVec.ofNat 64 (val u.g l)) g' ∧ Draws u p (fun _ x => x) g' ∧ OnlyRegs u.g g' :=
  laneOp_runs h hn hr _

end Sys2Proof.Machine
end

