-- ==== Sys2Proof/Laws/Memory.lean ====
section
/-!
SUPPORT. Laws of device memory: every operation over it keeps its canonical form, and what a byte reads as after a store.
-/
namespace Sys2Proof

theorem twfFrom_filter {α : Type} [DecidableEq α] (d : α) (p : Nat × α → Bool) (t : Table α) (lo : Nat)
    (h : twfFrom d lo t = true) : twfFrom d lo (t.filter p) = true := by
  induction t generalizing lo with
  | nil => rfl
  | cons x t ih =>
    simp only [twfFrom, Bool.and_eq_true, decide_eq_true_eq] at h
    rw [List.filter_cons]
    split
    · simp only [twfFrom, Bool.and_eq_true, decide_eq_true_eq]
      exact ⟨h.1, ih _ h.2⟩
    · exact ih lo (twfFrom_mono d (by omega) t h.2)

theorem twf_filter {α : Type} [DecidableEq α] (d : α) (p : Nat × α → Bool) (t : Table α) (h : twf d t = true) :
    twf d (t.filter p) = true := twfFrom_filter d p t 0 h

/-- A property that each step of a fold keeps holds after it. -/
theorem foldl_keeps {α β : Type} (P : β → Prop) (f : β → α → β) (xs : List α) (b : β) (h : P b) (hf : ∀ b a, P b → P (f b a)) :
    P (xs.foldl f b) := by
  induction xs generalizing b with
  | nil => exact h
  | cons x xs ih => exact ih (f b x) (hf b x h)

namespace Machine

/-- Memory after hardware reset has its canonical form. -/
theorem wf_reset : Mem.reset.wf = true := rfl

/-- Whatever changes other fields than the bytes keeps the canonical form. -/
theorem wf_of_cells {m n : Mem} (h : m.wf = true) (hc : n.cells = m.cells) : n.wf = true := by
  unfold Mem.wf at *; rw [hc]; exact h

theorem wf_setEntry {m : Mem} (f : Nat) (e : Dword) (h : m.wf = true) : (m.setEntry f e).wf = true := wf_of_cells h rfl

theorem wf_cleanSymbols {m : Mem} (line : Nat) (h : m.wf = true) : (m.cleanSymbols line).wf = true := wf_of_cells h rfl

theorem wf_xorSector {m : Mem} (x : Nat) (d : BitVec 128) (h : m.wf = true) : (m.xorSector x d).wf = true := by
  unfold Mem.xorSector
  split
  · exact h
  · exact twf_writeBytes _ _ _ h

theorem wf_decodeAll {m : Mem} (line : Nat) (h : m.wf = true) : (m.decodeAll line).1.wf = true := by
  unfold Mem.decodeAll
  dsimp only
  split
  · exact wf_of_cells h rfl
  · split
    · exact h
    · refine wf_cleanSymbols line (foldl_keeps (fun m => m.wf = true) _ _ m h fun m i hm => ?_)
      split
      · exact hm
      · exact wf_xorSector _ _ hm

theorem wf_fetchSectors {m : Mem} (line : Nat) (need : List Nat) (h : m.wf = true) : (m.fetchSectors line need).1.wf = true := by
  unfold Mem.fetchSectors
  dsimp only
  split
  · exact h
  · split
    · exact h
    · exact wf_decodeAll line h

theorem wf_fetch {m : Mem} (addr n : Nat) (h : m.wf = true) : (m.fetch addr n).1.wf = true := by
  unfold Mem.fetch
  split
  · exact h
  · exact foldl_keeps (fun (a : Mem × List (Nat × Decoded)) => a.1.wf = true) _ _ _ h fun a x ha => wf_fetchSectors _ _ ha

theorem wf_remember {m : Mem} (w addr n : Nat) (h : m.wf = true) : (m.remember w addr n).wf = true := wf_of_cells h rfl

theorem wf_absorb {m : Mem} (addr n : Nat) (h : m.wf = true) : (m.absorb addr n).wf = true := by
  unfold Mem.absorb
  split
  · exact h
  · exact foldl_keeps (fun m => Mem.wf m = true) _ _ _ h fun m x hm => wf_xorSector _ _ hm

theorem wf_store {m : Mem} (w addr : Nat) (bs : List Byte) (h : m.wf = true) : (m.store w addr bs).wf = true :=
  twf_writeBytes _ _ _ (wf_absorb _ _ (wf_remember _ _ _ h))

/-- A write that is lost leaves the canonical form. -/
theorem wf_unwrite {m : Mem} (unit order : Nat) (h : m.wf = true) : (m.unwrite unit order).wf = true := by
  unfold Mem.unwrite
  split
  · exact h
  · dsimp only
    split
    · exact h
    · exact twf_writeBytes _ _ _ h

theorem wf_ite {c : Prop} [Decidable c] {a b : Mem × Decoded} (ha : a.1.wf = true) (hb : b.1.wf = true) :
    (if c then a else b).1.wf = true := by
  split
  · exact ha
  · exact hb

theorem wf_deltaWrite {m : Mem} (line : Nat) (held : List Nat) (erased : Nat → Bool) (free : Nat → BitVec 128) (h : m.wf = true) :
    (m.deltaWrite line held erased free).wf = true := wf_of_cells h rfl

theorem wf_writeback {m : Mem} (line : Nat) (free : Nat → BitVec 128) (h : m.wf = true) : (m.writeback line free).1.wf = true := by
  have clean : (m.decodeAll line).1.wf = true := wf_decodeAll line h
  have clear : ∀ n : Mem, n.wf = true → ({ n with dirty := n.dirty.filter (fun x => x / 8 != line) } : Mem).wf = true :=
    fun _ hn => hn
  have marks : ∀ (n : Mem) (p : List Nat), n.wf = true → ({ n with poison := p } : Mem).wf = true := fun _ _ hn => hn
  unfold Mem.writeback
  generalize m.decodeAll line = r at clean ⊢
  refine wf_ite h (wf_ite (clear _ h) (wf_ite ?_ (wf_ite (clear _ (wf_deltaWrite _ _ _ _ h)) ?_)))
  · dsimp only
    split
    · refine clear _ ?_
      split
      · exact wf_deltaWrite _ _ _ _ (marks _ _ clean)
      · exact wf_cleanSymbols _ (marks _ _ clean)
    · exact clear _ (wf_cleanSymbols _ clean)
  refine clear _ (wf_cleanSymbols _ ?_)
  exact foldl_keeps (fun m => Mem.wf m = true) _ _ m h fun _ _ hm => wf_xorSector _ _ hm

theorem wf_zeroMa {m : Mem} (f : Nat) (h : m.wf = true) : (zeroMa m f).wf = true := twf_filter _ _ _ h

theorem wf_copyFrame {m : Mem} (src dst : Nat) (h : m.wf = true) : (copyFrame m src dst).wf = true := by
  have key : ∀ bs : Table Byte, twf (0 : Byte) (bs.foldl (fun t c => tset 0 t (dst + (c.1 - src)) c.2)
      (m.cells.filter (fun c => !(dst ≤ c.1 && c.1 < dst + 65536)))) = true := fun bs =>
    foldl_keeps (fun t => twf (0 : Byte) t = true) _ bs _ (twf_filter _ _ _ h) fun _ _ ht => twf_tset _ _ _ _ ht
  unfold Mem.wf copyFrame
  exact key _

theorem wf_forgetLines {m : Mem} (src : Nat) (h : m.wf = true) : (forgetLines m src).wf = true := by
  unfold forgetLines
  split
  · exact h
  · exact twf_filter _ _ _ h

theorem wf_noteSymbol {m : Mem} (line i : Nat) (a b : Bool) (h : m.wf = true) : (noteSymbol m line i a b).wf = true := by
  unfold noteSymbol
  dsimp only
  split
  · exact h
  · exact wf_of_cells h rfl

theorem wf_noteSymbols {m : Mem} (old : Mem) (line : Nat) (d : Decoded) (h : m.wf = true) : (noteSymbols m old line d).wf = true := by
  unfold noteSymbols
  exact foldl_keeps (fun m => Mem.wf m = true) _ _ _ h fun m i hm => wf_noteSymbol _ _ _ _ hm

theorem flushHost_mem (s : State) : (flushHost s).mem = s.mem := by
  unfold flushHost
  simp only []
  split <;> rfl

theorem msixEntry_mem (s : State) (f n : Nat) : (msixEntry s f n).mem = s.mem := by
  unfold msixEntry
  split
  · rfl
  · split
    · rfl
    · simp only [flushHost_mem]

theorem foldl_mem {α : Type} (f : State → α → State) (xs : List α) (s : State) (hf : ∀ s a, (f s a).mem = s.mem) :
    (xs.foldl f s).mem = s.mem := by
  induction xs generalizing s with
  | nil => rfl
  | cons x xs ih => rw [List.foldl_cons, ih, hf]

theorem msix_mem (s : State) (p : Nat) (e : Bool) : (msix s p e).mem = s.mem := by
  unfold msix
  dsimp only
  split
  · exact msixEntry_mem _ _ _
  · exact foldl_mem _ _ _ fun _ _ => msixEntry_mem _ _ _

/-- An event changes nothing of device memory, and neither does writing it to its bank. -/
theorem recordEvent_mem (s : State) (e : Event) : (recordEvent s e).mem = s.mem := rfl

theorem writeEvent_mem (s : State) (e : Event) : (writeEvent s e).mem = s.mem := by
  unfold writeEvent
  dsimp only
  split
  · split
    · exact msix_mem _ _ _
    · exact foldl_mem _ _ _ fun _ _ => msix_mem _ _ _
  · rfl

theorem wf_recordDecoded {s : State} (old : Mem) (line : Nat) (d : Decoded) (h : s.mem.wf = true) :
    (recordDecoded s old line d).mem.wf = true := by
  have notes := wf_noteSymbols (m := s.mem) old line d h
  unfold recordDecoded
  generalize noteSymbols s.mem old line d = m at notes ⊢
  cases d with
  | sound => exact h
  | corrected x => dsimp only; rw [recordEvent_mem]; exact notes
  | poisoned x => dsimp only; rw [recordEvent_mem]; exact notes

theorem wf_noteActivations {s : State} (line : Nat) (h : s.mem.wf = true) : (noteActivations s line).mem.wf = true := by
  unfold noteActivations
  split
  · exact h
  · exact wf_of_cells h rfl

theorem wf_recordFetched {s : State} (old : Mem) (line : Nat) (d : Decoded) (h : s.mem.wf = true) :
    (recordFetched s old line d).mem.wf = true := by
  unfold recordFetched
  split
  · exact h
  · exact wf_noteActivations _ (wf_recordDecoded _ _ _ h)

/-- A fetch keeps the canonical form. -/
theorem wf_fetchLines {s : State} (die addr n : Nat) (h : s.mem.wf = true) : (fetchLines s die addr n).mem.wf = true := by
  unfold fetchLines
  generalize hs : deliverFor s die (sectorsOf addr n).contains = t
  have fetched := wf_fetch (m := t.mem) addr n (by rw [← hs, (onlyLevant_deliverFor _ _ _).mem]; exact h)
  dsimp only
  generalize t.mem.fetch addr n = r at fetched ⊢
  exact foldl_keeps (fun t : State => t.mem.wf = true) (fun s x => recordFetched s t.mem x.1 x.2) r.2 { t with mem := r.1 } fetched
    fun s x ht => wf_recordFetched t.mem x.1 x.2 ht

theorem wf_followMove {s : State} (src dst : Nat) (h : s.mem.wf = true) : (followMove s src dst).mem.wf = true := wf_of_cells h rfl

theorem wf_readFrame {s : State} (src : Nat) (h : s.mem.wf = true) : (readFrame s src).mem.wf = true := by
  unfold readFrame
  split
  · exact h
  · exact wf_absorb _ _ (wf_fetchLines _ _ _ h)

theorem wf_moveFrame {s : State} (f : Nat) (tierX : Bool) (place : Nat) (h : s.mem.wf = true) :
    (moveFrame s f tierX place).mem.wf = true := by
  have read := wf_readFrame (entryAddr (s.mem.entry f) 0) h
  unfold moveFrame
  exact wf_followMove _ _ (wf_setEntry _ _ (wf_forgetLines _ (wf_copyFrame _ _ read)))

/-! ### The interleave layout and the inner check -/

theorem allBelow_spec {p : Nat → Bool} : ∀ {n : Nat}, allBelow n p = true → ∀ x < n, p x = true
  | 0, _, _, hx => absurd hx (Nat.not_lt_zero _)
  | n + 1, h, x, hx => by
    rw [allBelow, Bool.and_eq_true] at h
    rcases Nat.lt_succ_iff_lt_or_eq.mp hx with hx | rfl
    · exact allBelow_spec h.2 x hx
    · exact h.1

/-- Every position of an entry lies on a channel of the package, in a region below the spare. -/
theorem firmwareLayout_bounds {x : Nat} (hx : x < 10 * interFrames) :
    (firmwareLayout x).1 < 384 ∧ (firmwareLayout x).2 < spareLow := by
  unfold firmwareLayout
  split
  · rename_i h
    have := allBelow_spec h x hx
    simp only [Bool.and_eq_true, decide_eq_true_eq] at this
    exact this.1
  · unfold plainLayout interFrames spareLow at *
    dsimp only
    omega

/-- Two positions of one entry lie on two stacks, and no region holds two positions (R288, R289). -/
theorem firmwareLayout_distinct {x y : Nat} (hx : x < 10 * interFrames) (hy : y < x) :
    firmwareLayout y ≠ firmwareLayout x ∧ (y / 10 = x / 10 → (firmwareLayout y).1 / 32 ≠ (firmwareLayout x).1 / 32) := by
  unfold firmwareLayout
  split
  · rename_i h
    have := allBelow_spec h x hx
    simp only [Bool.and_eq_true] at this
    have := allBelow_spec this.2 y hy
    simp only [Bool.and_eq_true, Bool.not_eq_true', Bool.and_eq_false_iff, beq_eq_false_iff_ne] at this
    refine ⟨fun e => ?_, fun e => this.2.resolve_left (fun h => h e)⟩
    rw [e] at this
    exact this.1.elim (fun h => h rfl) (fun h => h rfl)
  · unfold plainLayout interFrames at *
    refine ⟨fun e => ?_, fun e => ?_⟩
    · rw [Prod.mk.injEq] at e; omega
    · have stack : ∀ m n : Nat, (32 * (m % 12) + n % 32) / 32 = m % 12 := fun m n => by omega
      dsimp only
      rw [stack, stack]
      omega

/-- The inner check is linear in the symbol bytes and the register: what a difference changes does not depend on the rest. -/
theorem crcBit_xor (c d : BitVec 16) : crcBit (c ^^^ d) = crcBit c ^^^ crcBit d := by
  unfold crcBit
  rw [BitVec.msb_xor]
  cases c.msb <;> cases d.msb <;> simp [BitVec.shiftLeft_xor_distrib]
  · exact BitVec.xor_assoc _ _ _
  · rw [BitVec.xor_assoc, BitVec.xor_assoc, BitVec.xor_comm (d <<< 1)]
  · rw [BitVec.xor_comm (d <<< 1), ← BitVec.xor_assoc, BitVec.xor_assoc (c <<< 1), BitVec.xor_self, BitVec.xor_zero]

/-! ### Bytes after a store -/

/-- Without symbol errors a byte reads as listed. -/
theorem byte_clean {m : Mem} (h : m.symErr = []) (a : Nat) : m.byte a = tget 0 m.cells a := by
  unfold Mem.byte
  split
  · rfl
  · simp [Mem.readDiff, h, symByte, bits]

theorem remember_cells (m : Mem) (w a n : Nat) : (m.remember w a n).cells = m.cells := rfl

theorem remember_symErr (m : Mem) (w a n : Nat) : (m.remember w a n).symErr = m.symErr := rfl

/-- A store without symbol errors writes its bytes and leaves every other byte. -/
theorem byte_store {m : Mem} (h : m.symErr = []) (w a : Nat) (bs : List Byte) (x : Nat) :
    (m.store w a bs).byte x = if a ≤ x ∧ x < a + bs.length then bs.getD (x - a) 0 else m.byte x := by
  have hr : (m.remember w a bs.length).symErr = [] := by rw [remember_symErr, h]
  have ha : (m.remember w a bs.length).absorb a bs.length = m.remember w a bs.length := by
    unfold Mem.absorb; simp [hr]
  have hs : (m.store w a bs).symErr = [] := by unfold Mem.store; simp only [ha, hr]
  rw [byte_clean hs, byte_clean h]
  have hc : (m.store w a bs).cells = writeBytes m.cells a bs := by
    unfold Mem.store; simp only [ha, remember_cells]
  rw [hc, tget_writeBytes]

end Machine
end Sys2Proof
end

