-- ==== Sys2Proof/Machine/ControlRead.lean ====
section
/-!
DEFINITION. Host reads of the device control space: every register and window at its offset with the fields that its map gives it, which
function may read what (R403), and the answer to a read (R404, R492). No row of the table reads: a read changes nothing of the package but
a function that reads outside its set, which freezes.
-/
namespace Sys2Proof.Machine

open Sys2Proof

/-! ### What registers read as -/

/-- POOLCFG of a core (R153). -/
def poolcfg (c : Core) : Nat :=
  (if c.empty then 0 else c.b1 % 64 + 2 ^ 8 * (c.b2 % 64) + 2 ^ 16 * (c.b3 % 64)) + 2 ^ 24 * c.empty.toNat + 2 ^ 25 * c.switch.toNat

/-- SPSTAT of a core (R192). -/
def spstat (s : State) (core : Nat) : Nat :=
  let c := coreOf s core
  frameCount c % 2 ^ 11 + 2 ^ 16 * ((frameCount c - c.frames.length) % 2 ^ 11) + 2 ^ 32 * (pinnedFrames s core % 2 ^ 11) +
    2 ^ 48 * c.fetch.toNat

/-- CHSTAT of a channel (R295). -/
def chstat (c : Chan) : Nat := c.state % 4 + 4 * c.bysw.toNat + 2 ^ 8 * min 0xFFFF c.cecnt + 2 ^ 24 * min 255 c.retired

/-- RBSTAT (R298). -/
def rbstat (r : Rebuild) : Nat :=
  (r.active.getD 0) % 512 + 2 ^ 9 * r.active.isSome.toNat + 2 ^ 10 * r.paused.toNat + 2 ^ 11 * r.nospare.toNat + 2 ^ 16 * (r.rate % 32) +
    2 ^ 24 * (r.frames % 2 ^ 19) + 2 ^ 48 * (r.queue.length % 512)

/-- SCRUBCFG (R303). -/
def scrubcfg (m : Mem) : Nat := m.period % 256 + 2 ^ 16 * (m.thresh % 2 ^ 16) + 2 ^ 32 * (m.passPos % 2 ^ 24)

/-- LLCWAY (R306): eight masks of 24 ways. -/
def llcwayImage (m : Mem) : Nat := m.llcway.foldr (fun x n => x.toNat + 2 ^ 24 * n) 0

/-- LVSTAT of a die (R372). -/
def lvstat (x : Levant) : Nat :=
  x.epoch % 16 + 2 ^ 4 * x.removed.toNat + 2 ^ 8 * (x.ephigh % 128) + 2 ^ 16 * min 255 x.resync + 2 ^ 24 * min (2 ^ 32 - 1) x.lost

/-- ETSTAT of a fibre (R378). -/
def etstat (x : Fibre) : Nat := x.up.toNat + 2 ^ 16 * x.mode.toNat + 2 ^ 17 * x.light.toNat + 2 ^ 32 * x.corr.toNat

/-- CTXCMD of a context (R412); CMD reads 0. -/
def ctxcmd (c : Ctx) : Nat := if c.pend then 4 + 2 ^ 8 * (c.cls % 32) + 2 ^ 16 * (c.gang % 2 ^ 24) else 0

/-- DBGCTL of a context (R464); CMD reads 0. -/
def dbgctl (s : State) (c : Ctx) : Nat :=
  let halted := (c.halted.bind (gangOf s)).filter Gang.isHalted
  c.attach.toNat + 2 * halted.isSome.toNat + 2 ^ 8 * ((halted.map (·.index)).getD 0 % 2 ^ 24)

/-- WRSTAT (R443). -/
def wrstat (x : WarmStatus) : Nat := x.count % 256 + 2 ^ 8 * (x.cls % 32) + 2 ^ 16 * (x.ctx % 256) + 2 ^ 32 * x.unit.toNat

/-- WPSTAT of a comparator (R463). -/
def wpstat (c : Comparator) : Nat := c.hits % 2 ^ 32 + 2 ^ 32 * (c.part % 8) + 2 ^ 35 * c.en.toNat + 2 ^ 64 * c.last.toNat

/-- IDCFG (R458). -/
def idcfg (s : State) : Nat := s.identity.devnum % 256 + 2 ^ 32 * Config.vendor.toNat

/-- A word of an interleave entry (R288). -/
def interImage (x : Inter) : Nat := x.chan % 512 + 2 ^ 9 * (x.region % 2 ^ 19) + 2 ^ 28 * (x.st % 4)

/-- A counter of a bin, of 64 bins with four states (R468). -/
def binImage (c : Core) (k : Nat) : Nat := tget 0 c.bins k % 2 ^ 48

/-- A total of a quarter, five states to each. Idle are the lanes that no word has driven, of 64 in every clock that is counted (R63). -/
def totalImage (s : State) (c : Core) (k : Nat) : Nat :=
  let at0 := fun (i : Nat) => tget 0 c.totals (4 * (k / 5) + i) % 2 ^ 48
  if k % 5 = 4 then (64 * (s.clock - c.counted) + 4 * 2 ^ 48 - (at0 0 + at0 1 + at0 2 + at0 3)) % 2 ^ 48 else at0 (k % 5)

/-! ### Where they stand -/

/-- A run of registers, or a window: base, count, distance, bytes of each, whether every function reads it, and the value at each
place. -/
structure View where
  base   : Nat
  count  : Nat
  stride : Nat
  width  : Nat
  anyFn  : Bool
  val    : Nat → Nat

/-- Registers of the cores, of memory and of the links. -/
def coreViews (s : State) : List View :=
  [⟨0x100000, 3, 0x100, 4, true, fun i => diestat ((s.dies[i]?).getD Die.reset)⟩,
   ⟨0x200000, 48, 0x100, 4, true, fun i => poolcfg (coreOf s i)⟩,
   ⟨0x300000, 48, 0x100, 8, true, fun i => spstat s i⟩,
   ⟨0x400000, 384, 4, 4, true, fun i => chstat (s.mem.chan i)⟩,
   ⟨0x410000, 1, 8, 8, true, fun _ => rbstat s.mem.rebuild⟩,
   ⟨0x410100, 1, 24, 24, false, fun _ => llcwayImage s.mem⟩,
   ⟨0x410200, 6, 0x20, 24, false, fun i => (hotOf s.mem i).toNat⟩,
   ⟨0x410400, 1, 8, 8, true, fun _ => scrubcfg s.mem⟩,
   ⟨0x420000, 1, 8, 8, false, fun _ => s.ctxtab.toNat⟩,
   ⟨0x430000, 4, 0x100, 8, true, fun i => lvstat (levantOf s i)⟩,
   ⟨0x440000, 256, 8, 8, false, fun i => (tget peerReset s.peers i).toNat⟩,
   ⟨0x450000, 128, 8, 8, true, fun i => etstat { fibreOf s i with up := upNow s i }⟩]

/-- Registers of the packet processor and of the host functions; write-only ones read 0 (R2). -/
def hostViews (s : State) : List View :=
  let result := fun (key : Nat) => 2 ^ 64 * (tget 0 s.results key).toNat
  [⟨0x460000, 6, 0x100, 8, false, fun i => (journalOf s i).nextSeq % 2 ^ 48⟩,
   ⟨0x470000, 1, 8, 8, false, fun _ => 0⟩,
   ⟨0x470100, 6, 8, 8, false, fun i => ((s.funcs[i + 1]?).map (·.part)).getD 7 % 8⟩,
   ⟨0x480000, 256, 8, 8, false, fun i => ctxcmd (ctxOf s i)⟩,
   ⟨0x490000, 1, 16, 16, true, fun _ => result GSAVE_AT⟩,
   ⟨0x490010, 1, 16, 16, true, fun _ => result GLOAD_AT⟩,
   ⟨0x500000, 65536, 16, 16, false, fun i => qcfgImage (queueOf s i)⟩,
   ⟨0x600000, 65536, 8, 8, false, fun _ => 0⟩]

/-- Error banks, warm resets, power, checkpoints and identity; banks of units that do not exist are no banks. -/
def serviceViews (s : State) : List View :=
  [⟨0x700000, 0x6001, 32, 32, true, fun i => (tget 0 s.banks i).toNat⟩,
   ⟨0x7F0000, 1, 16, 16, false, fun _ => (tget 0 s.results ERRCLRH_AT).toNat % 2⟩,
   ⟨0x7F0100, 1, 8, 8, true, fun _ => wrstat s.warm⟩,
   ⟨0x800000, 1, 8, 8, true, fun _ => pwrstat s⟩,
   ⟨0x810000, 6, 0x20, 16, false, fun i => ckstat (checkpointOf s i)⟩,
   ⟨0x820000, 1, 8, 8, true, fun _ => idcfg s⟩,
   ⟨0x820100, 1, 32, 32, false, fun _ => 0⟩,
   ⟨0x821000, 1, 0x1000, min 0x1000 Config.identityWindow.length, true, fun _ => leNat Config.identityWindow⟩,
   ⟨0x822000, 1, 0x1000, min 0x1000 s.identity.report.length, true, fun _ => leNat s.identity.report⟩]

/-- Debug registers and counters, and the windows to the tables and the journals. -/
def debugViews (s : State) : List View :=
  [⟨0x900000, 256, 8, 8, false, fun i => dbgctl s (ctxOf s i)⟩,
   ⟨0x914000, 32, 16, 16, false, fun i => wpstat (tget Comparator.reset s.cxComps i)⟩,
   ⟨0x930000, 6, 8, 8, false, fun i => (traceOf s i).count % 2 ^ 48⟩] ++
  (List.range 48).flatMap (fun c =>
    [⟨0x910000 + 0x100 * c, 8, 16, 16, false, fun i => wpstat (tget Comparator.reset (coreOf s c).data i)⟩,
     ⟨0x940000 + 0x1000 * c, 256, 8, 8, false, fun i => binImage (coreOf s c) i⟩,
     ⟨0x940000 + 0x1000 * c + 0x800, 20, 8, 8, false, fun i => totalImage s (coreOf s c) i⟩]) ++
  [⟨0x800000000, 2 ^ 25, 8, 8, true, fun i => (s.mem.entry i).toNat⟩,
   ⟨0x900000000, 12890572 * 10, 4, 4, true, fun i => interImage (s.mem.interWord (i / 10) (i % 10))⟩,
   ⟨0xA00000000, 6 * 32768, 32, 32, false, fun i =>
     leNat ((tfind (journalOf s (i / 32768)).entries (i % 32768)).getD [])⟩]

/-- The register or window that holds an offset, and the place of the offset in it. -/
def viewAt (s : State) (o : Nat) : Option (View × Nat × Nat) :=
  (coreViews s ++ hostViews s ++ serviceViews s ++ debugViews s).findSome? (fun v =>
    if v.base ≤ o && o < v.base + v.count * v.stride && (o - v.base) % v.stride < v.width
    then some (v, (o - v.base) / v.stride, (o - v.base) % v.stride) else none)

/-- The byte that stands at an offset, if a register or a window stands there. -/
def controlByte (s : State) (o : Nat) : Option Byte :=
  (viewAt s o).map (fun v => BitVec.ofNat 8 (bits (v.1.val v.2.1) (8 * v.2.2) 8))

/-! ### Reading -/

/-- The reach of a function's read: package-wide registers are read through every bound function, the others as they are written. -/
def readReach (s : State) (fn o : Nat) : Reach :=
  match viewAt s o with
  | some (v, _) => reach s fn (if v.anyFn then (s.funcs[fn]?).map (·.part) else regPart s o)
  | none => reach s fn none

/-- The bytes from an offset on; where nothing stands, a free byte. -/
def controlBytes (s : State) (o n : Nat) : List Byte :=
  (List.range n).map (fun i => (controlByte s (o + i)).getD (BitVec.ofNat 8 (Config.freeChoice (s.tick + i))))

/-- A function reads `n` bytes of the control space: they are answered, eight at a time, or the read ends in Unsupported Request. -/
def State.readControl (s : State) (fn o n : Nat) : State :=
  match readReach s fn o with
  | .allowed =>
    { s with
      tick := s.tick + n
      sent := s.sent ++ (List.range ((n + 7) / 8)).map (fun i =>
        .control fn (o + 8 * i) (BitVec.ofNat 64 (leNat (((controlBytes s o n).drop (8 * i)).take 8)))) }
  | .unsupported => { s with sent := s.sent ++ [.unsupported fn o] }
  | .violation => let s := freezeFn s fn 9; { s with sent := s.sent ++ [.unsupported fn o] }

end Sys2Proof.Machine
end

