-- ==== Sys2Proof/Machine/Object.lean ====
section
/-!
DEFINITION. The Imsen object as its loader takes it (R38 to R43): the header, the section table, the counts of sections, the
relocations, kernel descriptors and safe-point rows, and what a loaded object leaves with the package: the bytes of its sections at
the addresses that the loader chose, and its kernels' safe points, by which code locations are reported (R42).
-/
namespace Sys2Proof.Machine

open Sys2Proof

/-! ### Sections (R38, R39) -/

/-- A section: its type, LINK, ALIGN and contents. -/
structure Section where
  typ   : Nat
  link  : Nat
  align : Nat
  bytes : List Byte
deriving DecidableEq, Repr, Inhabited

/-- Why an object is rejected, or does not link. -/
inductive ObjectError where
  /-- MAGIC, VMAJ, a section beyond the file, a type outside those listed, or an ALIGN below its type's least (R38). -/
  | header
  /-- The counts of R39. -/
  | counts
  /-- A relocation that the loader rejects (R39). -/
  | relocation (index : Nat)
  /-- A relocation whose result does not fit its field, or is no multiple of 4 (R38, R39). -/
  | link (index : Nat)
  /-- An extern that no linked object defines, by its object and index (R39). -/
  | undefined (object index : Nat)
  /-- A global symbol that two linked objects define (R39). -/
  | twice (name : List Byte)
  /-- A section whose base is not aligned as its ALIGN and its type ask (R38, R43). -/
  | placement (sec : Nat)
  /-- A kernel descriptor beyond the safe-point rows, or rows that break R41 (R40, R41). -/
  | kernel (index : Nat)
deriving DecidableEq, Repr, Inhabited

/-- Bytes `off` to `off + n - 1`, none where they run past the end. -/
def slice? (bs : List Byte) (off n : Nat) : Option (List Byte) :=
  if off + n ≤ bs.length then some ((bs.drop off).take n) else none

/-- The entries of `n` bytes that a section's contents hold. -/
def entriesOf (n : Nat) (bs : List Byte) : List (List Byte) :=
  (List.range (bs.length / n)).map (fun i => (bs.drop (n * i)).take n)

/-- Types that a loader takes: 1 to 8, and notes. -/
def sectionTypeOk (t : Nat) : Bool := (1 ≤ t && t ≤ 8) || (0x100 ≤ t && t ≤ 0x1FF)

/-- The least ALIGN of a section of a type (R38). -/
def leastAlign (t : Nat) : Nat := if t = 1 then 2 else if 5 ≤ t && t ≤ 8 then 3 else 0

/-- Entry `i` of the section table, with its contents.

DESIGN CHOICE (log entry 77): a nonzero reserved word, contents that run past the file (of a note too) and an ALIGN below its type's
least reject the object; R38 states them of an object and names only MAGIC, VMAJ and the types as grounds. -/
def sectionAt (file : List Byte) (secoff i : Nat) : Option Section :=
  match slice? file (secoff + 32 * i) 32 with
  | none => none
  | some e =>
    match slice? file (field e 8 8) (field e 16 8) with
    | none => none
    | some bs =>
      if sectionTypeOk (field e 0 4) && field e 28 4 == 0 && leastAlign (field e 0 4) ≤ field e 24 4 then some ⟨field e 0 4, field e 4 4, field e 24 4, bs⟩ else none

/-- The sections from entry `i` on. -/
def sectionsFrom (file : List Byte) (secoff : Nat) : Nat → Nat → Option (List Section)
  | _, 0 => some []
  | i, n + 1 =>
    match sectionAt file secoff i, sectionsFrom file secoff (i + 1) n with
    | some x, some xs => some (x :: xs)
    | _, _ => none

/-- The sections of an object file: exactly one code section, one string section, which STRSEC names,
and at most one symbol section. -/
def parseObject (file : List Byte) : Except ObjectError (List Section) :=
  if file.length < 64 || field file 0 4 != 0x4E534D49 || field file 4 2 != 1 then .error .header
  else
    match sectionsFrom file (field file 16 8) 0 (min (field file 8 4) file.length) with
    | none => .error .header
    | some xs =>
      let count := fun (t : Nat) => (xs.filter (fun x => x.typ == t)).length
      if count 1 == 1 && count 4 == 1 && decide (count 3 ≤ 1) && (xs[field file 12 4]?).map (·.typ) == some 4 &&
          xs.length == field file 8 4 then .ok xs
      else .error .counts

/-! ### Relocations (R38, R39) -/

/-- A number that fits a signed field of `w` bits, as that field holds it. -/
def signedField (w : Nat) (x : Int) : Option Nat :=
  if -(2 ^ (w - 1) : Int) ≤ x ∧ x < 2 ^ (w - 1) then some (x % 2 ^ w).toNat else none

/-- A word offset: a difference that is a multiple of 4. -/
def wordOffset (w : Nat) (x : Int) : Option Nat := if x % 4 = 0 then signedField w (x / 4) else none

/-- Bytes of a list replaced from an offset on. -/
def patch (bs : List Byte) (off : Nat) (new : List Byte) : List Byte := bs.take off ++ new ++ bs.drop (off + new.length)

/-- What a relocation of type `t` writes over the bytes `old` at address `p`, for a target `x`. -/
def relocated (t : Nat) (old : List Byte) (x p : Int) : Option (List Byte) :=
  let w := leNat old
  match t with
  | 1 => if 0 ≤ x ∧ x < 2 ^ 64 then some (leBytes 8 x.toNat) else none
  | 2 => (wordOffset 24 (x - p)).map (fun o => leBytes 4 (w / 2 ^ 24 * 2 ^ 24 + o))
  | 3 => (wordOffset 16 (x - p)).map (fun o => leBytes 4 (w / 2 ^ 16 * 2 ^ 16 + o))
  | _ => (wordOffset 32 (x - (p - 4))).map (leBytes 4)

/-! ### Symbols and linking (R39) -/

/-- The bytes of a string up to its zero byte. -/
def cString : List Byte → List Byte
  | [] => []
  | b :: bs => if b = 0 then [] else b :: cString bs

/-- A symbol: its name, the index of the section that defines it (0 where undefined), its offset there, SIZE, BIND and KIND. -/
structure ObjSymbol where
  name  : List Byte
  sect  : Nat
  value : Nat
  size  : Nat
  bind  : Nat
  kind  : Nat
deriving DecidableEq, Repr, Inhabited

/-- The symbols of an object by index; entry 0 names none. -/
def symbolsOf (xs : List Section) : List ObjSymbol :=
  let strings := ((xs.find? (fun x => x.typ == 4)).map (·.bytes)).getD []
  (((xs.find? (fun x => x.typ == 3)).map (fun x => entriesOf 24 x.bytes)).getD []).map (fun e =>
    ⟨cString (strings.drop (field e 0 4)), field e 4 4, field e 8 8, field e 16 4, field e 20 1, field e 21 1⟩)

/-- The global symbols that an object defines, with the object's number and their own index. -/
def globalsOf (objs : List (List Section)) : List (Nat × ObjSymbol) :=
  (List.range objs.length).flatMap (fun o => (((objs[o]?).map symbolsOf).getD []).filterMap (fun y =>
    if y.bind = 1 && y.sect != 0 then some (o, y) else none))

/-- The final address of a symbol of object `o`: that of the object which defines it, where it is undefined (R39). -/
def symbolAddr (objs : List (List Section)) (base : Nat → Nat → Nat) (o : Nat) (y : ObjSymbol) : Option Nat :=
  if y.sect != 0 then some (base o y.sect + y.value)
  else ((globalsOf objs).find? (fun g => g.2.name == y.name)).map (fun g => base g.1 g.2.sect + g.2.value)

/-- A name that two linked objects define as global. -/
def definedTwice (objs : List (List Section)) : Option (List Byte) :=
  let gs := globalsOf objs
  (gs.find? (fun g => gs.any (fun h => h.1 != g.1 && h.2.name == g.2.name))).map (·.2.name)

/-- An extern that no linked object defines: its object and its index. -/
def undefinedSymbol (objs : List (List Section)) (base : Nat → Nat → Nat) : Option (Nat × Nat) :=
  (List.range objs.length).findSome? (fun o =>
    let ys := ((objs[o]?).map symbolsOf).getD []
    ((List.range ys.length).find? (fun i => i != 0 && (((ys[i]?).map (symbolAddr objs base o)).getD none).isNone)).map (fun i => (o, i)))

/-- One relocation entry of object `o` applied to the section `sec` that it patches, in the object's sections. -/
def relocate (objs : List (List Section)) (base : Nat → Nat → Nat) (o : Nat) (xs : List Section) (sec i : Nat) (e : List Byte) :
    Except ObjectError (List Section) :=
  let off := field e 0 8
  let sym := field e 8 4
  let t := field e 12 4
  let a : Int := ((BitVec.ofNat 64 (field e 16 8) : Dword)).toInt
  let symbols := symbolsOf xs
  match xs[sec]? with
  | none => .error (.relocation i)
  | some x =>
    if sym = 0 || symbols.length ≤ sym || t = 0 || 4 < t || !(x.typ == 1 || x.typ == 2) then .error (.relocation i)
    else
      match slice? x.bytes off (if t = 1 then 8 else 4), (symbols[sym]?).bind (symbolAddr objs base o) with
      | none, _ => .error (.relocation i)
      | _, none => .error (.undefined o sym)
      | some old, some y =>
        match relocated t old ((y : Int) + a) ((base o sec : Int) + (off : Int)) with
        | none => .error (.link i)
        | some new => .ok (xs.set sec { x with bytes := patch x.bytes off new })

/-- Every relocation of every relocation section of object `o`, in order. -/
def relocateAll (objs : List (List Section)) (base : Nat → Nat → Nat) (o : Nat) (xs : List Section) :
    Except ObjectError (List Section) :=
  let all := xs.flatMap (fun x => if x.typ == 5 then (entriesOf 24 x.bytes).map (fun e => (x.link, e)) else [])
  (all.foldl (fun (acc : Except ObjectError (List Section × Nat)) e =>
    match acc with
    | .error r => .error r
    | .ok (ys, i) => (relocate objs base o ys e.1 i e.2).map (fun zs => (zs, i + 1))) (.ok (xs, 0))).map (·.1)

/-! ### Kernels (R40, R41) -/

/-- The kernel descriptors of an object, 64 bytes each. -/
def kernelsOf (xs : List Section) : List (List Byte) := xs.flatMap (fun x => if x.typ == 8 then entriesOf 64 x.bytes else [])

/-- A safe-point row from its 56 bytes. -/
def safeRow (r : List Byte) : SafeRow :=
  ⟨field r 0 4, field r 4 4, field r 8 8, field r 0x10 24, field r 0x28 8, field r 0x30 1, field r 0x32 2⟩

/-- The safe-point rows of an object.

DESIGN CHOICE (log entry 77): with several safe-point sections SPFIRST counts through their rows in the order of the sections. -/
def safeRowsOf (xs : List Section) : List SafeRow :=
  xs.flatMap (fun x => if x.typ == 6 then (entriesOf 56 x.bytes).map safeRow else [])

/-- A kernel's rows: ORD is each row's place, the addresses rise, and the first is the entry header (R41). -/
def rowsOk (entry : Nat) (rows : List SafeRow) : Bool :=
  rows.map (·.ord) == List.range rows.length && (rows.head?).map (·.addr) == some entry &&
  (rows.zip (rows.drop 1)).all (fun p => decide (p.1.addr < p.2.addr)) && rows.all (fun r => r.addr % 4 == 0)

/-- The safe-point rows of a kernel. -/
def safePoints (xs : List Section) (k : List Byte) : Option (List SafeRow) :=
  let rows := safeRowsOf xs
  if field k 0x20 4 + field k 0x24 4 ≤ rows.length then
    let mine := (rows.drop (field k 0x20 4)).take (field k 0x24 4)
    if rowsOk (field k 8 8) mine then some mine else none
  else none

/-- The fields of a launch record that the launcher takes from a kernel descriptor (R40): ENTRY, WIDTH to B3, SCRATCH, ACC and the
flags check and restartable; CBASE is where the code section stands. -/
def launchFields (k : List Byte) (cbase : Nat) (record : List Byte) : List Byte :=
  let r := patch (patch record 0x10 (leBytes 8 cbase)) 0x18 ((k.drop 8).take 8)
  let r := patch (patch r 0x20 ((k.drop 0x10).take 8)) 0x28 ((k.drop 0x18).take 4)
  patch (patch r 0x2C ((k.drop 0x1C).take 2)) 0x33 (leBytes 1 (field record 0x33 1 / 4 * 4 + field k 4 4 % 4))

/-! ### Loading -/

/-- What loaded objects are: the bytes to store, by address, their kernels, and their symbols with the addresses that they have. -/
structure Loaded where
  bytes   : List (Nat × List Byte)
  kernels : List Kernel
  symbols : List (ObjSymbol × Nat)
deriving DecidableEq, Repr, Inhabited

def Loaded.append (a b : Loaded) : Loaded := ⟨a.bytes ++ b.bytes, a.kernels ++ b.kernels, a.symbols ++ b.symbols⟩

/-- Sections of which bytes are loaded: code, data and target tables. -/
def loadedType (t : Nat) : Bool := t == 1 || t == 2 || t == 7

/-- A loaded section that does not stand where its ALIGN asks, a target table at no multiple of 8 (R38, R43). -/
def misplaced (base : Nat → Nat) (xs : List Section) : Option Nat :=
  (List.range xs.length).find? (fun i => ((xs[i]?).map (fun x =>
    loadedType x.typ && base i % 2 ^ (max x.align (if x.typ = 7 then 3 else 0)) != 0)).getD false)

/-- Object `o` of those that are linked is loaded for a context, its section `i` at the address `base o i`: code at CBASE, data and
target tables where the loader chose. Note sections and the tables of the object itself are not loaded. -/
def loadLinked (objs : List (List Section)) (ctx : Nat) (base : Nat → Nat → Nat) (o : Nat) (xs : List Section) :
    Except ObjectError Loaded :=
  match misplaced (base o) xs, relocateAll objs base o xs with
  | some i, _ => .error (.placement i)
  | none, .error r => .error r
  | none, .ok ys =>
    let cbase := base o (ys.findIdx (fun x => x.typ == 1))
    let points := (kernelsOf ys).map (safePoints ys)
    if points.all Option.isSome then
      .ok ⟨(List.range ys.length).filterMap (fun i => (ys[i]?).bind (fun x =>
            if loadedType x.typ then some (base o i, x.bytes) else none)),
          points.map (fun p => ⟨ctx, cbase, p.getD []⟩),
          ((symbolsOf ys).drop 1).filterMap (fun y => (symbolAddr objs base o y).map (fun a => (y, a)))⟩
    else .error (.kernel (points.findIdx Option.isNone))

/-- The files as objects, or the first error. -/
def parseAll : List (List Byte) → Except ObjectError (List (List Section))
  | [] => .ok []
  | f :: fs =>
    match parseObject f, parseAll fs with
    | .error r, _ => .error r
    | .ok _, .error r => .error r
    | .ok x, .ok xs => .ok (x :: xs)

/-- Objects are linked and loaded together. -/
def loadObjects (files : List (List Byte)) (ctx : Nat) (base : Nat → Nat → Nat) : Except ObjectError Loaded :=
  match parseAll files with
  | .error r => .error r
  | .ok objs =>
    match definedTwice objs, undefinedSymbol objs base with
    | some n, _ => .error (.twice n)
    | none, some x => .error (.undefined x.1 x.2)
    | none, none =>
      (List.range objs.length).foldl (fun acc o =>
        match acc, loadLinked objs ctx base o ((objs[o]?).getD []) with
        | .error r, _ => .error r
        | .ok _, .error r => .error r
        | .ok a, .ok b => .ok (a.append b)) (.ok ⟨[], [], []⟩)

/-- One object by itself. -/
def loadObject (file : List Byte) (ctx : Nat) (base : Nat → Nat) : Except ObjectError Loaded :=
  loadObjects [file] ctx (fun _ => base)

/-- The package knows the kernels of a loaded object. Its bytes reach memory by the stores of whoever loads it. -/
def State.withKernels (s : State) (o : Loaded) : State := { s with kernels := s.kernels ++ o.kernels }

end Sys2Proof.Machine
end

