-- ==== Sys2Proof/Tests/Decoding.lean ====
section
/-!
SUPPORT. Decoding tests: for every row of the table that has a word of its own, a word put together from its bits in the opcode table
(R29, R34, R35), with fields that differ from each other, decodes to the row and to those fields.
-/
namespace Sys2Proof.Tests

open Sys2Proof

set_option Elab.async false

/-- Each word decodes to the unit beside it, and leaves no word. -/
def DecodesAs (xs : List (List Word × Instr)) : Prop := ∀ x ∈ xs, (decode x.1).toOption = some (x.2, [])

theorem test_decode_miscellaneous_and_branches : DecodesAs [
    ([0x00000000], .nop), ([0x01040005], .waitlt 4 5), ([0x02000000], .yield), ([0x03000005], .sleep 5),
     ([0x04FEDCB8], .bra 0xfedcb8), ([0x05FEDCB8], .call 0xfedcb8), ([0x08059ABC], .brAny 5 0x9abc),
     ([0x080D9ABC], .brAnySplit 5 0x9abc), ([0x09059ABC], .brAll 5 0x9abc), ([0x0A059ABC], .brNone 5 0x9abc),
     ([0x0A0D9ABC], .brNoneSplit 5 0x9abc), ([0x0B039ABC], .brSz 3 0x9abc), ([0x0C0008CC], .brxTable 8 204),
     ([0x0C010800], .brxAddress 8), ([0x0D0008CC], .callxTable 8 204), ([0x0D010800], .callxAddress 8), ([0x0E000000], .ret),
     ([0x0F000600], .join 6)] := by
  unfold DecodesAs; decide +kernel

theorem test_decode_threads_and_rendezvous : DecodesAs [
    ([0x10000000], .exit), ([0x11040000], .elect none 4), ([0x11040100], .electGroup none 4), ([0x11040200], .electTeam none 4),
     ([0x12040600], .rdv none 4 6), ([0x13030602], .voteBallot none 3 6 2), ([0x130B0602], .voteAny none 3 6 2),
     ([0x13130602], .voteAll none 3 6 2), ([0x131B0602], .voteUni none 3 6 2)] := by
  unfold DecodesAs; decide +kernel

theorem test_decode_integer_arithmetic : DecodesAs [
    ([0x1404080C], .iadd none 4 8 12), ([0x1504080C], .isub none 4 8 12), ([0x1604080C], .imin none 4 8 12),
     ([0x1704080C], .imax none 4 8 12), ([0x1804080C], .iminN none 4 8 12), ([0x1904080C], .imaxN none 4 8 12),
     ([0x1A040800], .iabs none 4 8), ([0x1B040800], .ineg none 4 8), ([0x1C04080C], .imul none 4 8 12),
     ([0x1D04080C], .imulh none 4 8 12), ([0x1E04080C], .imulhN none 4 8 12), ([0x1F04080C], .imad none 4 8 12)] := by
  unfold DecodesAs; decide +kernel

theorem test_decode_bits_and_shifts : DecodesAs [
    ([0x2004080C], .and none 4 8 12), ([0x2104080C], .or none 4 8 12), ([0x2204080C], .xor none 4 8 12),
     ([0x2304080C], .andn none 4 8 12), ([0x2404080C], .shl none 4 8 12), ([0x2504080C], .shr none 4 8 12),
     ([0x2604080C], .sha none 4 8 12), ([0x2704080C], .rol none 4 8 12), ([0x28040800], .popc none 4 8),
     ([0x29040800], .clz none 4 8), ([0x2A040800], .ctz none 4 8), ([0x2B040800], .brev none 4 8), ([0x2C04080C], .bfx none 4 8 12),
     ([0x2D04080C], .bfxN none 4 8 12), ([0x2E04080C], .bfi none 4 8 12), ([0x2F04080C], .logic3 none 4 8 12)] := by
  unfold DecodesAs; decide +kernel

theorem test_decode_compares_and_immediates : DecodesAs [
    ([0x3015080C], .icmpI32 none 2 5 8 12), ([0x3115080C], .icmpN32 none 2 5 8 12), ([0x3215080C], .icmpI64 none 2 5 8 12),
     ([0x3315080C], .icmpN64 none 2 5 8 12), ([0x34040845], .iaddi none 4 8 69), ([0x35040845], .andi none 4 8 69),
     ([0x36040845], .ori none 4 8 69), ([0x37040845], .xori none 4 8 69)] := by
  unfold DecodesAs; decide +kernel

theorem test_decode_addresses_and_pairs : DecodesAs [
    ([0x3804080C], .lea1 none 4 8 12), ([0x3904080C], .lea4 none 4 8 12), ([0x3A04080C], .lea16 none 4 8 12),
     ([0x3B04080C], .aadd none 4 8 12), ([0x3C04080C], .iadd64 none 4 8 12), ([0x3D04080C], .isub64 none 4 8 12),
     ([0x3E04080C], .imul64 none 4 8 12), ([0x3F04080C], .shl64 none 4 8 12)] := by
  unfold DecodesAs; decide +kernel

theorem test_decode_float_arithmetic : DecodesAs [
    ([0x4004080C], .fadd none 4 8 12), ([0x4104080C], .fsub none 4 8 12), ([0x4204080C], .fmul none 4 8 12),
     ([0x4304080C], .fma none 4 8 12), ([0x4404080C], .fmin none 4 8 12), ([0x4504080C], .fmax none 4 8 12),
     ([0x46040800], .fabs none 4 8), ([0x47040800], .fneg none 4 8), ([0x4815080C], .fcmp none 2 5 8 12),
     ([0x49040800], .fclass none 4 8), ([0x4A040800], .frnd none 4 8), ([0x4B040800], .ffrac none 4 8)] := by
  unfold DecodesAs; decide +kernel

theorem test_decode_special_functions : DecodesAs [
    ([0x4C040800], .rcp none 4 8), ([0x4D040800], .rsq none 4 8), ([0x4E040800], .sqrt none 4 8), ([0x4F040800], .tanh none 4 8),
     ([0x50040800], .ex2 none 4 8), ([0x51040800], .lg2 none 4 8), ([0x52040800], .sin none 4 8), ([0x53040800], .cos none 4 8)] := by
  unfold DecodesAs; decide +kernel

theorem test_decode_packed_and_dot_products : DecodesAs [
    ([0x5404080C], .hadd2 none 4 8 12), ([0x5504080C], .hmul2 none 4 8 12), ([0x5604080C], .hfma2 none 4 8 12),
     ([0x5704080C], .hmax2 none 4 8 12), ([0x5804080C], .dot4I8 none 4 8 12), ([0x5904080C], .dot8H4 none 4 8 12),
     ([0x5A04080C], .dot2Bf16 none 4 8 12), ([0x5B04080C], .dot2F16 none 4 8 12)] := by
  unfold DecodesAs; decide +kernel

theorem test_decode_conversions : DecodesAs [
    ([0x5C040800], .f2i none 4 8), ([0x5D040800], .i2f none 4 8), ([0x5E040800], .f2f none 4 8), ([0x5F04080C], .f2fPk none 4 8 12),
     ([0x6004080C], .qnt none 4 8 12), ([0x6104080C], .dqnt none 4 8 12), ([0x6204080C], .packn none 4 8 12),
     ([0x63040800], .unpackn none 4 8)] := by
  unfold DecodesAs; decide +kernel

theorem test_decode_cross_lane : DecodesAs [
    ([0x6404080C], .xget none 4 8 12), ([0x6504080C], .xput none 4 8 12), ([0x6604080C], .xbcast none 4 8 12),
     ([0x6704080C], .xquad none 4 8 12), ([0x68040806], .xred none 4 8 6), ([0x69040806], .xscan none 4 8 6),
     ([0x69040816], .xscanExcl none 4 8 6), ([0x6A040801], .xminloc none 4 8 1), ([0x6B040801], .xmaxloc none 4 8 1)] := by
  unfold DecodesAs; decide +kernel

theorem test_decode_masks : DecodesAs [
    ([0x6C150602], .mlop none 2 5 6 2), ([0x6D040600], .mpop none 4 6), ([0x6D040601], .mpopBelow none 4 6),
     ([0x6DC40602], .mpopBits none 196 6), ([0x6E040600], .mfirst none 4 6), ([0x6E040601], .mfirstLast none 4 6),
     ([0x6F04C800], .mset none 4 200), ([0x6F040801], .msetNz none 4 8)] := by
  unfold DecodesAs; decide +kernel

theorem test_decode_bit_streams_and_moves : DecodesAs [
    ([0x7004080C], .bsr none 4 8 12), ([0x7100000C], .bsinit none 12), ([0x72040000], .bspos none 4),
     ([0x7300080C], .bsref none 8 12), ([0x74040800], .mov none 4 8), ([0x7504080C], .sel none 4 8 12),
     ([0x76040800], .movs none 4 8), ([0x7704080C], .movv none 4 8 12), ([0x78048765], .moviLo none 4 0x8765),
     ([0x79048765], .moviHi none 4 0x8765), ([0x7A048765], .moviSx none 4 0x8765), ([0x7B048765], .moviBf none 4 0x8765)] := by
  unfold DecodesAs; decide +kernel

theorem test_decode_register_pool : DecodesAs [
    ([0x7CC40005], .rallocWait none 196 5), ([0x7DC40005], .rallocTry none 196 5), ([0x7EC40005], .rfree none 196 5),
     ([0x7FC40000], .rquery none 196)] := by
  unfold DecodesAs; decide +kernel

theorem test_decode_loads : DecodesAs [
    ([0x8004080C], .ldB none 4 8 12), ([0x8104080C], .ldH none 4 8 12), ([0x8204080C], .ldW none 4 8 12),
     ([0x8304080C], .ldD none 4 8 12), ([0x8404080C], .ldQ none 4 8 12), ([0x8504080C], .ldBs none 4 8 12),
     ([0x8604080C], .ldHs none 4 8 12), ([0x87C4C80C], .ldu none 196 200 12), ([0x88040800], .lde none 4 8),
     ([0x8900080C], .pref none 8 12), ([0x8901080C], .prefLlc none 8 12), ([0x8A04080C], .ldAcq none 4 8 12),
     ([0x8B04080C], .ldNt none 4 8 12)] := by
  unfold DecodesAs; decide +kernel

theorem test_decode_stores : DecodesAs [
    ([0x8C04080C], .stB none 4 8 12), ([0x8D04080C], .stH none 4 8 12), ([0x8E04080C], .stW none 4 8 12),
     ([0x8F04080C], .stD none 4 8 12), ([0x9004080C], .stQ none 4 8 12), ([0x9104080C], .stn none 4 8 12),
     ([0x92040800], .ste none 4 8), ([0x9304080C], .stRel none 4 8 12)] := by
  unfold DecodesAs; decide +kernel

theorem test_decode_atomics : DecodesAs [
    ([0x9404080C], .atomAdd none 4 8 12), ([0x9504080C], .atomMin none 4 8 12), ([0x9604080C], .atomMax none 4 8 12),
     ([0x9704080C], .atomExch none 4 8 12), ([0x9804080C], .atomAnd none 4 8 12), ([0x9904080C], .atomOr none 4 8 12),
     ([0x9A04080C], .atomXor none 4 8 12), ([0x9B04080C], .atomCas none 4 8 12), ([0x9C04080C], .atomFadd none 4 8 12),
     ([0x9D04080C], .atomFadd2 none 4 8 12), ([0x9E04080C], .atomFmin none 4 8 12), ([0x9F04080C], .atomFmax none 4 8 12)] := by
  unfold DecodesAs; decide +kernel

theorem test_decode_scratchpad : DecodesAs [
    ([0xA004080C], .ldsH none 4 8 12), ([0xA104080C], .ldsW none 4 8 12), ([0xA204080C], .ldsD none 4 8 12),
     ([0xA304080C], .ldsQ none 4 8 12), ([0xA404080C], .stsH none 4 8 12), ([0xA504080C], .stsW none 4 8 12),
     ([0xA604080C], .stsD none 4 8 12), ([0xA704080C], .stsQ none 4 8 12), ([0xA804080C], .atomsAdd none 4 8 12),
     ([0xA904080C], .atomsExch none 4 8 12), ([0xAA04080C], .atomsCas none 4 8 12), ([0xAB04080C], .atomsFadd none 4 8 12)] := by
  unfold DecodesAs; decide +kernel

theorem test_decode_mapping_and_rings : DecodesAs [
    ([0xACC4C845], .spmap none 196 200 1 5), ([0xADC4C805], .spunmap none 196 200 5), ([0xAE040800], .spquery none 4 8),
     ([0xAFC4C805], .sppin none 196 200 5), ([0xAFC4C885], .sppinUn none 196 200 5), ([0xB000C8CC], .mpost 200 204),
     ([0xB100C8CC], .mcfg 200 204), ([0xB2C4C800], .mquery 196 200), ([0xB3C4C8CC], .mcancel 196 200 204)] := by
  unfold DecodesAs; decide +kernel

theorem test_decode_accumulators_and_copies : DecodesAs [
    ([0xB400C8CC], .azero 200 204), ([0xB504C80C], .ard 4 200 12), ([0xB6C4080C], .awr 196 8 12), ([0xB7C4080C], .ascale 196 8 12),
     ([0xB8C4C8CC], .aload 196 200 204), ([0xB9C4C8CC], .astore 196 200 204), ([0xBA00C8CC], .agidx 200 204),
     ([0xBC04080C], .cpy 4 8 12), ([0xBD04080C], .cpy2 4 8 12), ([0xBE04080C], .cpyg 4 8 12), ([0xBF04080C], .cpyx 4 8 12)] := by
  unfold DecodesAs; decide +kernel

theorem test_decode_barriers_and_counters : DecodesAs [
    ([0xC0000000], .bar), ([0xC1000000], .barG), ([0xC2040000], .bara 4), ([0xC2040001], .baraG 4), ([0xC3000800], .barw 8),
     ([0xC3000801], .barwG 8), ([0xC4040009], .kread 4 9), ([0xC4040019], .kreadClr 4 9), ([0xC5090045], .kadd 9 69),
     ([0xC6C40009], .kbind 196 9), ([0xC6000019], .kbindClose 9), ([0xC7000000], .seal)] := by
  unfold DecodesAs; decide +kernel

theorem test_decode_fences_and_posting : DecodesAs [
    ([0xC8000000], .fencePeer), ([0xC9000000], .fenceHost), ([0xCA000001], .fenceAsyncRel), ([0xCA000002], .fenceAsyncAcq),
     ([0xCA000003], .fenceAsync), ([0xCB000000], .fenceIo), ([0xCCC4C800], .launch 196 200), ([0xCDC4C8CC], .qpost 196 200 204),
     ([0xCEC4C800], .qstat 196 200)] := by
  unfold DecodesAs; decide +kernel

theorem test_decode_traps_and_special_registers : DecodesAs [
    ([0xD0000805], .trap 8 5), ([0xD1000000], .tret), ([0xD1000001], .tretSkip), ([0xD100C802], .tretTo 200),
     ([0xD1000003], .tretEres), ([0xD1000004], .tretEabn), ([0xD2040003], .rdtr 4 3), ([0xD4040005], .rdsr 4 5),
     ([0xD500080C], .wrsr 8 12), ([0xD8000002], .bkpt 2), ([0xD9000801], .trace 8 1), ([0xDA000001], .mark 1)] := by
  unfold DecodesAs; decide +kernel

theorem test_decode_system : DecodesAs [
    ([0xF400C8CC], .tlbinvPage 200 204), ([0xF401C8CC], .lpinvPage 200 204), ([0xF402C8CC], .itset 200 204),
     ([0xF403C8CC], .regen 200 204), ([0xF404C8CC], .errd 200 204), ([0xF405C8CC], .errclr 200 204),
     ([0xF406C8CC], .psetReq 200 204), ([0xF407C8CC], .ckgo 200 204), ([0xF408C8CC], .ctxsave 200 204),
     ([0xF409C8CC], .ctxload 200 204), ([0xF40AC8CC], .spmigClean 200 204), ([0xF40BC8CC], .qctlCreate 200 204),
     ([0xF40CC800], .unfreeze 200), ([0xF40DC8CC], .hstake 200 204), ([0xF40EC8CC], .rbldChannel 200 204),
     ([0xF40FC8CC], .scrubPeriod 200 204), ([0xF410C8CC], .wpset 200 204), ([0xF411C8CC], .bkset 200 204)] := by
  unfold DecodesAs; decide +kernel

/-- Units of two and three words: a literal (R33), a prefix (R32), and both. The first three stand in the manual's own listings. -/
theorem test_decode_longer_units : DecodesAs [
    ([0xFC010000, 0x3FC00000], .movl none 1 0x3FC00000),
    ([0xF8080C00, 0x43040102], .fma (some ⟨0, false, false, true, 1, 1, false, 0⟩) 4 1 2),
    ([0xF8002496, 0x2F010203], .logic3 (some ⟨0x96, false, false, true, 4, 0, false, 0⟩) 1 2 3),
    ([0xFD040800, 0x12345678], .addl none 4 8 0x12345678), ([0xFE040800, 0x12345678], .andl none 4 8 0x12345678),
    ([0xFF000000, 0xFFFFFFFC], .brl 0xFFFFFFFC),
    ([0xFA800000, 0xFC010000, 0x00000007], .movl (some ⟨0, false, false, false, 0, 0, false, 5⟩) 1 7),
    ([0xF8000010, 0x60040800], .qntScale (some ⟨0x10, false, false, false, 0, 0, false, 0⟩) 4 8),
    ([0xF8000381, 0x14040809], .iadd (some ⟨0x81, true, true, false, 0, 0, false, 0⟩) 4 8 9)] := by
  unfold DecodesAs; decide +kernel

/-- Words that the manual writes out. -/
theorem test_decode_words_of_the_manual : DecodesAs ([
    ([0xD4020001], .rdsr 2 1), ([0xD500C30B], .wrsr 195 0x0B), ([0x7A03FFFE], .moviSx none 3 0xFFFE), ([0x6C430102], .mlop none 8 3 1 2),
    ([0xA1040200], .ldsW none 4 2 0), ([0xA5030208], .stsW none 3 2 8), ([0xC50300FE], .kadd 3 0xFE), ([0xBCCACCCE], .cpy 202 204 206),
    ([0xB000C4C5], .mpost 196 197), ([0xB100C4C5], .mcfg 196 197), ([0xB2C6C700], .mquery 198 199), ([0xB3C6C7C8], .mcancel 198 199 200),
    ([0x8201C810], .ldW none 1 200 16), ([0x9008CC01], .stQ none 8 204 1)] ++ [
    ([0xF400D4D5], .tlbinvPage 212 213), ([0xF409D6D7], .ctxload 214 215), ([0xF40CD400], .unfreeze 212), ([0xCCC4CA00], .launch 196 202),
    ([0xCDC4CACB], .qpost 196 202 203), ([0xCEC4CA00], .qstat 196 202), ([0xD000C402], .trap 196 2), ([0xD100CA02], .tretTo 202),
    ([0xD2C60001], .rdtr 198 1), ([0xD8000003], .bkpt 3), ([0xD900C409], .trace 196 9), ([0xDA000005], .mark 5),
    ([0x04FFFFF0], .bra 0xFFFFF0), ([0x10000000], .exit)]) := by
  unfold DecodesAs; decide +kernel

/-- The rows that share a system word, told apart by S[a] and S[b] (R200, R298, R303, R334, R335, R398, R424, R449, R466, R469). -/
theorem test_rows_of_one_system_word : ∀ x ∈ ([(.tlbinvPage 212 213, 1, 0, .tlbinvContext), (.tlbinvPage 212 213, 2, 0, .tlbinvPartition),
    (.lpinvPage 212 213, 1, 0, .lpinvContext), (.lpinvPage 212 213, 2, 0, .lpinvPartition), (.psetReq 212 213, 0, 0, .pset),
    (.ctxsave 212 213, 0, 1, .ctxsaveReplace), (.spmigClean 212 213, 0, 1, .spmigEvict), (.qctlCreate 212 213, 0x20000, 0, .qctlDestroy),
    (.qctlCreate 212 213, 0x30000, 0, .qctlDestroyKill), (.rbldChannel 212 213, 1, 0, .rbldStack)] ++ [
    (.rbldChannel 212 213, 2, 0, .rbldRate), (.rbldChannel 212 213, 3, 0, .rbldPause), (.rbldChannel 212 213, 4, 0, .rbldResume),
    (.scrubPeriod 212 213, 1, 0, .scrubFrame), (.scrubPeriod 212 213, 2, 0, .scrubRetire), (.scrubPeriod 212 213, 3, 0, .scrubThresh),
    (.trcfgStart, 1, 0, .trcfgBins), (.trcfgStart, 2, 0, .trcfgClear), (.trcfgStart, 3, 0, .trcfgStop), (.capctlOff, 1, 0, .capctlCapture),
    (.capctlOff, 2, 0, .capctlReplay)] : List (Instr × Dword × Dword × Instr)), select x.2.1 x.2.2.1 x.1 = x.2.2.2 := by
  decide +kernel


end Sys2Proof.Tests
end

