-- ==== Sys2Proof/Tests/Slice0.lean ====
section
/-!
SUPPORT. Tests of single checks and single words: ill-formed units that WellFormed refuses, and results that the manual's tables,
worked examples and listings state, or that follow from a rule by hand.
-/
namespace Sys2Proof.Tests

open Sys2Proof
open Sys2Proof.Machine

set_option Elab.async false

/-! ### Well-formed units (R30, R32, R114) -/

def pfx (aux : BitVec 8 := 0) (nega sat cv : Bool := false) (c : Opnd := 0) (rm : BitVec 3 := 0) (z : Bool := false)
    (mask : BitVec 3 := 0) : Option Pfx := some ⟨aux, nega, sat, cv, c, rm, z, mask⟩

/-- Counter fields above 11, mask fields above 7, scalars that are no scalars (R30 and the words' own rules). -/
theorem test_fields_are_checked : ∀ i ∈ ([.waitlt 12 1, .waitlt 3 0, .kread 4 12, .kadd 12 1, .kbindClose 12, .join 8, .rdv none 8 1,
    .rdv none 1 8, .voteAny none 1 8 1, .mlop none 6 1 8 1, .mpop none 4 8] ++ [.brxTable 4 5, .ldu none 4 200 0, .mset none 1 4,
    .mpopBits none 4 1, .spmap none 4 200 0 1, .mpost 4 196, .mquery 4 6, .azero 4 196, .aload 4 196 197, .launch 196 4, .qstat 4 196] ++
    [.tlbinvPage 4 212, .errd 212 4, .ctxsave 4 212, .unfreeze 4, .bkset 4 212, .tretTo 4, .kbind 4 3, .psetReq 4 212] : List Instr),
    ¬ i.WellFormed := by decide +kernel

/-- Values of used fields that a rule refuses: conditions, block counts, register numbers, trap numbers (R126, R134, R156, R163). -/
theorem test_values_are_checked : ∀ i ∈ ([.icmpI32 none 6 1 4 5, .icmpN64 none 7 1 4 6, .fcmp none 8 1 4 5, .rallocWait none 196 0,
    .rallocTry none 196 25, .rfree none 196 24, .rallocWait none 4 1, .trap 4 6, .rdtr 4 16, .rdsr 4 0x0E, .wrsr 4 0x0A, .wrsr 4 0x0E] :
    List Instr), ¬ i.WellFormed := by decide +kernel

/-- Prefix fields that a base does not take, a fourth operand that is missing or refused, and aux values that it leaves undefined
(R32, R114). -/
theorem test_prefixes_are_checked : ∀ i ∈ ([.iadd (pfx (rm := 1)) 4 5 6, .iadd (pfx (aux := 1)) 4 5 6, .iadd (pfx (cv := true)) 4 5 6,
    .iadd (pfx (c := 5)) 4 5 6, .iadd (pfx (aux := 2)) 4 5 6, .imad none 4 5 6, .logic3 none 4 5 6, .fadd (pfx (rm := 7)) 4 5 6,
    .and (pfx (sat := true)) 4 5 6, .imin (pfx (nega := true)) 4 5 6, .fabs (pfx (aux := 0x80)) 4 5] ++
    [.f2f (pfx (aux := 7)) 4 5, .f2fPk none 4 5 6, .f2fPk (pfx (aux := 9)) 4 5 6, .qnt (pfx (aux := 5)) 4 5 6, .stW (pfx (z := true)) 4 6 0,
    .mset (pfx (mask := 1)) 1 200, .mset (pfx (z := true)) 1 200, .atomCas none 4 6 8, .rsq (pfx (rm := 1)) 4 5] : List Instr),
    ¬ i.WellFormed := by decide +kernel

/-- The same units with the fields mended. -/
theorem test_well_formed_units : ∀ i ∈ ([.waitlt 11 1, .kread 4 11, .join 7, .iadd (pfx (aux := 1) (sat := true)) 4 5 6,
    .imad (pfx (cv := true)) 4 5 6, .fadd (pfx (rm := 6)) 4 5 6, .f2fPk (pfx (aux := 11)) 4 5 6, .qnt (pfx (aux := 4)) 4 5 6,
    .stW (pfx (mask := 2)) 4 6 0, .mset none 1 200, .atomCas (pfx (cv := true)) 4 6 8, .rallocWait none 196 24, .trap 4 5, .rdsr 4 0x0D,
    .fcmp none 7 1 4 5] : List Instr), i.WellFormed := by decide +kernel

/-- What the decoder says of words that R33, R35 and R32 refuse: unassigned cells, a prefix with no base, a prefix after a prefix, a
prefix before a word that takes none, a literal-major word with no literal, and no word at all. -/
theorem test_refused_words : ∀ x ∈ ([([0x06000000], .illegalInstruction 0x06000000 35), ([0xDC000000], .illegalInstruction 0xDC000000 35),
    ([0xF4140000], .illegalInstruction 0xF4140000 35), ([0x00000001], .illegalInstruction 0x00000001 30), ([0xF8000000], .illegalPrefix 0xF8000000),
    ([0xF8000000, 0xF8000000], .illegalPrefix 0xF8000000), ([0xF8000000, 0], .illegalPrefix 0xF8000000),
    ([0xFC010000], .missingLiteral 0xFC010000), ([], .truncated)] :
    List (List Word × Reject)), (match decode x.1 with | .error e => some e | .ok _ => none) = some x.2 := by decide +kernel

/-! ### Lane words -/

/-- One thread of one group at a unit of one word, with its vector registers, scalars and masks. -/
def one (v : List (Nat × Word)) (sc : List (Nat × Dword) := []) (m : List (Nat × Dword) := []) : State :=
  let s := placeWord State.reset 32 0
  { s with
    groups := s.groups.map (fun x => (x.1, { x.2 with
      v := v.foldl (fun t y => tset 0 t (64 * y.1) y.2) [], s := sc.foldl (fun t y => tset 0 t y.1 y.2) [],
      m := m.foldl (fun t y => tset 0 t y.1 y.2) [], created := 1, frags := x.2.frags.map (fun f => { f with lanes := 1 }) }))
    cur := some ⟨0, 1, 0x8004, [0], some ⟨0x8000, wordHeader [0]⟩⟩ }

/-- A vector register of the thread after a word, a scalar, a mask. -/
def vAfter (i : Instr) (s : State) (r : Nat) : Option Word :=
  match exec i s with | .next t => (groupOf t 0).map (fun g => vreg g r 0) | _ => none
def sAfter (i : Instr) (s : State) (r : Nat) : Option Dword :=
  match exec i s with | .next t => (groupOf t 0).map (fun g => sreg g r) | _ => none
def mAfter (i : Instr) (s : State) (r : Nat) : Option Dword :=
  match exec i s with | .next t => (groupOf t 0).map (fun g => maskReg g r) | _ => none

/-- The integer saturation cases of R119's table. -/
theorem test_iadd_wraps : vAfter (.iadd none 3 1 2) (one [(1, 0xFFFFFFF0), (2, 0x20)]) 3 = some 0x10 := by decide +kernel
theorem test_iadd_saturates : vAfter (.iadd (pfx (aux := 1) (sat := true)) 3 1 2) (one [(1, 0xFFFFFFF0), (2, 0x20)]) 3 = some 0xFFFFFFFF := by
  decide +kernel
theorem test_isub_saturates_unsigned : vAfter (.isub (pfx (aux := 1) (sat := true)) 3 1 2) (one [(1, 3), (2, 5)]) 3 = some 0 := by
  decide +kernel
theorem test_isub_saturates_signed : vAfter (.isub (pfx (sat := true)) 1 1 2) (one [(1, 0x80000000), (2, 1)]) 1 = some 0x80000000 := by
  decide +kernel
theorem test_iabs_wraps : vAfter (.iabs none 2 1) (one [(1, 0x80000000)]) 2 = some 0x80000000 := by decide +kernel
theorem test_ineg_saturates : vAfter (.ineg (pfx (sat := true)) 2 1) (one [(1, 0x80000000)]) 2 = some 0x7FFFFFFF := by decide +kernel

/-- High halves, shifts by the width and beyond, counts of zero, cut fields (R120, R122 to R124, by hand). -/
theorem test_imulh : vAfter (.imulh none 3 1 2) (one [(1, 0xFFFFFFFF), (2, 2)]) 3 = some 0xFFFFFFFF := by decide +kernel
theorem test_imulhN : vAfter (.imulhN none 3 1 2) (one [(1, 0xFFFFFFFF), (2, 2)]) 3 = some 1 := by decide +kernel
theorem test_shl_by_the_width : vAfter (.shl none 3 1 2) (one [(1, 1), (2, 32)]) 3 = some 0 := by decide +kernel
theorem test_sha_by_a_large_count : vAfter (.sha none 3 1 2) (one [(1, 0x80000000), (2, 0x80000001)]) 3 = some 0xFFFFFFFF := by decide +kernel
theorem test_rol_modulo_the_width : vAfter (.rol none 3 1 2) (one [(1, 0x80000001), (2, 33)]) 3 = some 3 := by decide +kernel
theorem test_clz_of_zero : vAfter (.clz none 3 1) (one [(1, 0)]) 3 = some 32 := by decide +kernel
theorem test_bfx_sign_extends : vAfter (.bfx none 3 1 2) (one [(1, 0xF0), (2, 0x404)]) 3 = some 0xFFFFFFFF := by decide +kernel
theorem test_bfx_cut_at_bit_31 : vAfter (.bfx none 3 1 2) (one [(1, 0xF0000000), (2, 0x81C)]) 3 = some 0xF := by decide +kernel
theorem test_bfi : vAfter (.bfi (pfx (cv := true) (c := 4)) 3 1 2) (one [(1, 0xAB), (2, 0x808), (4, 0xFFFFFFFF)]) 3 = some 0xFFFFABFF := by
  decide +kernel

/-- LOGIC3's tables (R125): odd parity, and b where a is 1, c elsewhere. -/
theorem test_logic3_parity : vAfter (.logic3 (pfx (aux := 0x96) (cv := true) (c := 4)) 5 1 2)
    (one [(1, 0xF0F0F0F0), (2, 0xCCCCCCCC), (4, 0xAAAAAAAA)]) 5 = some 0x96969696 := by decide +kernel
theorem test_logic3_choice : vAfter (.logic3 (pfx (aux := 0xCA) (cv := true) (c := 4)) 5 1 2)
    (one [(1, 0xFFFF0000), (2, 0x12345678), (4, 0x9ABCDEF0)]) 5 = some 0x1234DEF0 := by decide +kernel

/-- One rounding against two, of R132's table. -/
theorem test_fma_rounds_once : vAfter (.fma (pfx (cv := true) (c := 3)) 4 1 2)
    (one [(1, 0x3F800800), (2, 0x3F800800), (3, 0xBF800000)]) 4 = some 0x3A000400 := by decide +kernel
theorem test_fmul_rounds : vAfter (.fmul none 4 1 2) (one [(1, 0x3F800800), (2, 0x3F800800)]) 4 = some 0x3F801000 := by decide +kernel
/-- R133: −0 is less than +0, and one NaN gives the other operand. -/
theorem test_fmin_of_zeros : vAfter (.fmin none 3 1 2) (one [(1, 0), (2, 0x80000000)]) 3 = some 0x80000000 := by decide +kernel
theorem test_fmax_of_a_nan : vAfter (.fmax none 3 1 2) (one [(1, 0x7FC00001), (2, 1)]) 3 = some 1 := by decide +kernel
/-- R136's own values of FFRAC for −2^−30. -/
theorem test_ffrac_rne : vAfter (.ffrac none 2 1) (one [(1, 0xB0800000)]) 2 = some 0x3F800000 := by decide +kernel
theorem test_ffrac_rtz : vAfter (.ffrac (pfx (rm := 1)) 2 1) (one [(1, 0xB0800000)]) 2 = some 0x3F7FFFFF := by decide +kernel
/-- R137's special values. -/
theorem test_rcp_of_minus_zero : vAfter (.rcp none 2 1) (one [(1, 0x80000000)]) 2 = some 0xFF800000 := by decide +kernel
theorem test_ex2_of_an_integer : vAfter (.ex2 none 2 1) (one [(1, 0x40400000)]) 2 = some 0x41000000 := by decide +kernel
theorem test_lg2_of_zero : vAfter (.lg2 none 2 1) (one [(1, 0)]) 2 = some 0xFF800000 := by decide +kernel
theorem test_rsq_of_minus_zero : vAfter (.rsq none 2 1) (one [(1, 0x80000000)]) 2 = some 0xFF800000 := by decide +kernel

/-- R140, R143, R145, R151, by hand. -/
theorem test_dot4 : vAfter (.dot4I8 (pfx (cv := true) (c := 3)) 4 1 2) (one [(1, 0xFF020304), (2, 0x05FFFF01), (3, 10)]) 4 = some 4 := by
  decide +kernel
theorem test_f2i_of_a_nan : vAfter (.f2i none 2 1) (one [(1, 0x7FC00000)]) 2 = some 0 := by decide +kernel
theorem test_f2i_rounds_ties_to_even : vAfter (.f2i none 2 1) (one [(1, 0x40200000)]) 2 = some 2 := by decide +kernel
theorem test_f2f_e4m3_tie_at_464 : vAfter (.f2f (pfx (aux := 3)) 2 1) (one [(1, 0x43E80000)]) 2 = some 0x7E := by decide +kernel
theorem test_packn_saturates : vAfter (.packn (pfx (sat := true)) 3 1 2) (one [(1, 0x7F80F901), (2, 0x00000007)]) 3 = some 0x00077891 := by
  decide +kernel

/-- The quantisation round trip that the manual lists, word by word (R148 to R150). -/
theorem test_qnt_scale : vAfter (.qntScale (pfx (aux := 0x10)) 3 1) (one [(1, 0x447A0000)]) 3 = some 0x81 := by decide +kernel
theorem test_qnt_rne : vAfter (.qnt none 5 2 3) (one [(2, 0x40533333), (3, 0x81)]) 5 = some 0x35 := by decide +kernel
theorem test_qnt_rup : vAfter (.qnt (pfx (rm := 3)) 6 2 3) (one [(2, 0x40533333), (3, 0x81)]) 6 = some 0x36 := by decide +kernel
theorem test_dqnt : vAfter (.dqnt none 7 4 3) (one [(4, 0x78), (3, 0x81)]) 7 = some 0x44800000 := by decide +kernel

/-- A scalar destination takes the zero-extended result (R112), a mask a bit for each Active lane (R126, R134), and R168's own form. -/
theorem test_iadd_to_a_scalar : sAfter (.iadd none 196 1 2) (one [(1, 0xFFFFFFFF), (2, 0xFFFFFFFF)] [(4, 0xFFFFFFFFFFFFFFFF)]) 4 = some 0xFFFFFFFE := by
  decide +kernel
theorem test_icmp_is_signed : mAfter (.icmpI32 none 2 3 1 2) (one [(1, 0xFFFFFFFF), (2, 0)]) 3 = some 1 := by decide +kernel
theorem test_icmpN_is_unsigned : mAfter (.icmpN32 none 2 3 1 2) (one [(1, 0xFFFFFFFF), (2, 0)] [] [(3, 1)]) 3 = some 0 := by decide +kernel
theorem test_fcmp_unordered_is_not_equal : mAfter (.fcmp none 1 3 1 2) (one [(1, 0x7FC00000), (2, 0)]) 3 = some 1 := by decide +kernel
theorem test_mlop_and : mAfter (.mlop none 8 3 1 2) (one [] [] [(1, 1), (2, 1)]) 3 = some 1 := by decide +kernel

/-! ### One step -/

/-- A step from reset with a unit placed runs it: the MOVL that the manual lists writes 1.5 to v1 (R33, R130). -/
theorem test_step_runs_the_placed_unit :
    (match step (State.reset.withFetchWord 64 0x3FC00000FC010000) with
     | .next t => (groupOf t 0).map (fun g => (vreg g 1 0, vreg g 1 15, vreg g 1 16))
     | _ => none) = some (0x3FC00000, 0x3FC00000, 0) := by decide +kernel

/-- An illegal word of the placed unit is met by a trap, not by a stop. -/
theorem test_step_traps_on_an_illegal_word : (match step (State.reset.withFetchWord 32 0x06000000) with | .next _ => true | _ => false) = true := by
  decide +kernel

end Sys2Proof.Tests
end

