-- ==== Sys2Proof/Tests/WitnessTools.lean ====
section
/-!
SUPPORT. What the witnesses are built with: a package in which one fragment issues a unit, and small facts that turn what can be
computed of it into the form in which the statements say it.
-/
namespace Sys2Proof.Tests

open Sys2Proof
open Sys2Proof.Machine

set_option Elab.async false

/-- A table from its entries. -/
def rowsOf {α : Type} [DecidableEq α] (d : α) (xs : List (Nat × α)) : Table α := xs.foldl (fun t y => tset d t y.1 y.2) []

/-- What a witness chooses of the placed package: the words at issue, the clause's header, the fragment's lanes and place, the lanes
created, registers of lane 0, scalars, masks. -/
structure Pick where
  ws      : List Word := [0]
  head    : Word := wordHeader [0]
  lanes   : Dword := 1
  created : Dword := 1
  v       : List (Nat × Word) := []
  sc      : List (Nat × Dword) := []
  m       : List (Nat × Dword) := []

/-- The placed package, with one fragment of the group in slot 0 of core 0 issuing. -/
@[irreducible] def Pick.at (p : Pick) : State :=
  let s := placeWord State.reset 32 0
  { s with
    agenda := []
    groups := s.groups.map (fun x => (x.1, { x.2 with
      v := rowsOf 0 (p.v.map (fun y => (64 * y.1, y.2))), s := rowsOf 0 p.sc, m := rowsOf 0 p.m, created := p.created,
      frags := x.2.frags.map (fun f => { f with lanes := p.lanes, clause := some ⟨0x8000, p.head⟩ }) }))
    cur := some ⟨0, p.lanes, 0x8004, p.ws, some ⟨0x8000, p.head⟩⟩ }

/-- The package with its group, gang or launch changed. -/
@[irreducible] def withGroup (s : State) (f : Group → Group) : State := { s with groups := s.groups.map (fun x => (x.1, f x.2)) }
@[irreducible] def withGang (s : State) (f : Gang → Gang) : State := { s with gangs := s.gangs.map (fun x => (x.1, f x.2)) }
@[irreducible] def withLaunch (s : State) (f : Launch → Launch) : State := { s with launches := s.launches.map (fun x => (x.1, f x.2)) }

/-- Bytes put into device memory. -/
@[irreducible] def withBytes (s : State) (a : Nat) (bs : List Byte) : State := { s with mem := { s.mem with cells := writeBytes s.mem.cells a bs } }

/-- The unit that a package issues. -/
def unitOf (s : State) : Issue := (issueOf s).getD default

theorem issue_unit {s : State} (h : (issueOf s).isSome = true) : issueOf s = some (unitOf s) := by
  unfold unitOf
  cases hi : issueOf s with
  | none => rw [hi] at h; cases h
  | some u => rfl

/-- What holds of each lane of a set below 64 holds of each lane of it. -/
theorem each_lane {P : Nat → Prop} {m : Dword} (h : ∀ l < 64, lane m l = true → P l) : ∀ l, lane m l = true → P l :=
  fun l hl => h l (lane_lt hl) hl

theorem ok_of {α β ε : Type} {x : α × Except ε β} {v : β} (h : x.2.toOption = some v) : x = (x.1, .ok v) := by
  obtain ⟨a, b⟩ := x
  cases b with
  | error e => simp [Except.toOption] at h
  | ok c => simp [Except.toOption] at h; simp [h]

/-- Whether an access has reached device memory. -/
def reachesDevice (x : State × XResult (Dword × Dest)) : Bool :=
  match x.2 with
  | .ok (_, .dev _ _) => true
  | _ => false

/-- The machine address that it has reached. -/
def reached (x : State × XResult (Dword × Dest)) : Nat :=
  match x.2 with
  | .ok (_, .dev _ ma) => ma
  | _ => 0

theorem device_of {x : State × XResult (Dword × Dest)} (h : reachesDevice x = true) :
    ∃ e dpa, x = (x.1, .ok (e, .dev dpa (reached x))) := by
  obtain ⟨a, b⟩ := x
  unfold reachesDevice at h
  split at h
  · rename_i e dpa ma hb
    exact ⟨e, dpa, by simp only at hb; subst hb; rfl⟩
  · cases h

/-- One lane whose address reaches device memory gives what a load, a store and an atomic of it ask for. -/
theorem one_load {u : Issue} {w : Who} {n : Nat} {acq : Bool} {va : Nat → Nat} {s : State} {l : Nat}
    (h : reachesDevice (translate s w .load false (va l)) = true) : ∃ x s', LoadsFind u w n acq va x s [l] s' := by
  obtain ⟨e, dpa, hx⟩ := device_of h
  exact ⟨fun _ => _, _, _, e, dpa, _, hx, rfl, rfl⟩

theorem one_store {u : Issue} {w : Who} {va : Nat → Nat} {bs : State → Nat → List Byte} {s : State} {l : Nat}
    (h : reachesDevice (translate s w .store false (va l)) = true) :
    ∃ s', StoresGo u w va (fun _ => reached (translate s w .store false (va l))) bs s [l] s' := by
  obtain ⟨e, dpa, hx⟩ := device_of h
  exact ⟨_, _, e, dpa, hx, rfl⟩

theorem one_atomic {u : Issue} {w : Who} {n : Nat} {va : Nat → Nat} {new : Nat → Nat → Nat} {s : State} {l : Nat}
    (h : reachesDevice (translate s w .atomic false (va l)) = true) : ∃ ma old s', AtomicsGo u w n va ma old new s [l] s' := by
  obtain ⟨e, dpa, hx⟩ := device_of h
  exact ⟨fun _ => _, fun _ => _, _, _, e, dpa, hx, rfl, rfl⟩

/-- A target whose word a branch may reach passes. -/
theorem one_target_at {w : Who} {stamp : Nat} {s : State} {t : Nat}
    (ht : t < 2 ^ 56) (h4 : t % 4 = 0) (h : ((fetchWord s w stamp t).2.toOption.map targetWordOk) = some true) :
    TargetsPass w stamp s [(t : Int)] (fetchWord s w stamp t).1 := by
  cases hx : (fetchWord s w stamp t).2.toOption with
  | none => simp [hx] at h
  | some v =>
    refine ⟨by omega, by omega, by omega, v, (fetchWord s w stamp t).1, ?_, ?_, rfl⟩
    · exact ok_of hx
    · simpa [hx] using h

theorem one_target {w : Who} {stamp : Nat} {s : State} {t : Nat}
    (ht : t < 2 ^ 56) (h4 : t % 4 = 0) (h : ((fetchWord s w stamp t).2.toOption.map targetWordOk) = some true) :
    ∃ s', TargetsPass w stamp s [(t : Int)] s' := ⟨_, one_target_at ht h4 h⟩

/-! ### The gang and the launch of the unit -/

/-- The number of the placed gang. -/
def unitGang : Nat := State.reset.nextUid + 1

/-- A launch record with bytes put at an offset. -/
def recordWith (l : Launch) (off : Nat) (bs : List Byte) : Launch :=
  { l with record := l.record.take off ++ bs ++ l.record.drop (off + bs.length) }

def gangHere (s : State) : Gang := (gangOf s (unitOf s).g.gang).getD default

theorem gang_here {s : State} (h : (gangOf s (unitOf s).g.gang).isSome = true) : gangOf s (unitOf s).g.gang = some (gangHere s) := by
  unfold gangHere
  cases hg : gangOf s (unitOf s).g.gang with
  | none => rw [hg] at h; cases h
  | some u => rfl

def launchHere (s : State) : Launch := (launchOfGroup s (unitOf s).g).getD (newLaunch [] 0 0 0 0 0 0)

end Sys2Proof.Tests
end

