-- ==== Sys2Proof/Tests/WitnessEngines.lean ====
section
/-!
SUPPORT. Witnesses of the statements about accumulator memory, tile transfers, copies, task rings, counters and barriers: for the
hypotheses of each, a package and operands that meet all of them together.
-/
namespace Sys2Proof.Tests

open Sys2Proof
open Sys2Proof.Machine

set_option Elab.async false

/-- The placed package with its one team changed. -/
@[irreducible] def teamed (f : Team → Team) (p : Pick) : State := withGang p.at (fun q => { q with teams := q.teams.map f })

def teamHere (s : State) : Team := ((gangHere s).teams[(unitOf s).g.team]?).getD default
def coreHere (s : State) : Nat := ringCore s (unitOf s).g.gang (unitOf s).g.team

theorem team_here {s : State} (h : (gangOf s (unitOf s).g.gang).isSome = true) (h2 : ((gangHere s).teams[(unitOf s).g.team]?).isSome = true) :
    TeamAt s (unitOf s) (teamHere s) (coreHere s) := by
  refine ⟨gangHere s, gang_here h, ?_, rfl⟩
  unfold teamHere
  cases hg : (gangHere s).teams[(unitOf s).g.team]? with
  | none => rw [hg] at h2; cases h2
  | some t => rfl

/-! ### Accumulators and tiles -/

/-- A team of two atiles; scalars s4 to s7 hold 1, 1, 0 and 511, and v4 to v7 hold elements, rows and values. -/
@[irreducible] def tiled : State := teamed (fun t => { t with acc := 2 }) { v := [(4, 1023), (5, 31), (6, 7)], sc := [(4, 1), (5, 1), (6, 2), (7, 511)] }

/-- AccumulatorWordsActOnTheirAtiles: the last atile, element, row and index buffer of each range. -/
theorem witness_accumulators : let u := unitOf tiled
    issueOf tiled = some u ∧ TeamAt tiled u (teamHere tiled) (coreHere tiled) ∧ u.f.hold = .ready ∧ (coreOf tiled (coreHere tiled)).claims = [] ∧
      AtileOk (teamHere tiled) (sreg u.g 4) ∧ scalar u 196 + scalar u 197 ≤ (teamHere tiled).acc ∧ RegsOk u.g [(8, 1), (4, 1)] ∧
      (∀ l, lane u.f.lanes l = true → (val32 u.g 4 l).toNat < 1024) ∧ (∀ l, lane u.f.lanes l = true → (val32 u.g 5 l).toNat < 32) ∧
      RegsOk u.g [(5, 1), (6, 1)] ∧ scalar u 199 < 512 ∧ (∀ l, lane u.f.lanes l = true → scalar u 199 % 256 + l < 256) ∧
      (teamHere tiled).acc ≤ scalar u 198 % 65536 ∧ 0 < (teamHere tiled).acc := by
  refine ⟨issue_unit (by decide +kernel), team_here (by decide +kernel) (by decide +kernel), by decide +kernel, by decide +kernel,
    by unfold AtileOk; decide +kernel, by decide +kernel, by unfold RegsOk; decide +kernel, each_lane (by decide +kernel),
    each_lane (by decide +kernel), by unfold RegsOk; decide +kernel, by decide +kernel, ?_, by decide +kernel, by decide +kernel⟩
  exact each_lane (by decide +kernel)

/-- An atile that a node holds. -/
theorem witness_atile_held : let s := setCore tiled 0 { coreOf tiled 0 with claims := [(1, 7)] }
    let u := unitOf s
    issueOf s = some u ∧ TeamAt s u (teamHere s) (coreHere s) ∧ u.f.hold = .ready ∧ (coreOf s (coreHere s)).claims = [(1, 7)] ∧
      1 = (teamHere s).atiles + scalar u 196 ∧ 7 ≠ takerWord u.key (lowest u.f.lanes) ∧ AtileOk (teamHere s) (sreg u.g 4) := by
  refine ⟨issue_unit (by decide +kernel), team_here (by decide +kernel) (by decide +kernel), ?_⟩; unfold AtileOk; decide +kernel

/-- TileWordsIssueTheirTransfer: a tile of 32 rows and 32 columns into the last atile, from a pitch that just holds a row. -/
theorem witness_tiles :
    let s := teamed (fun t => { t with acc := 2 }) { sc := [(4, 0x9000), (5, 1), (6, 32 + 64 * 32 + 65536 * 8)] }
    let u := unitOf s
    issueOf s = some u ∧ TeamAt s u (teamHere s) (coreHere s) ∧ u.f.op = none ∧ RoomOnB u ∧ TileOk s u (teamHere s) (scalar u 196) (scalar u 197) (scalar u 198) := by
  refine ⟨issue_unit (by decide +kernel), team_here (by decide +kernel) (by decide +kernel), by decide +kernel, ?_, by unfold TileOk; decide +kernel⟩
  intro k hk
  have : clauseSetB (unitOf (teamed (fun t => { t with acc := 2 }) { sc := [(4, 0x9000), (5, 1), (6, 32 + 64 * 32 + 65536 * 8)] })).f = none := by
    decide +kernel
  rw [this] at hk; cases hk

/-! ### Copies -/

/-- A copy of one 16-byte unit between two global addresses, all operands scalars. -/
@[irreducible] def copying : State := Pick.at { v := [(4, 0x9001)], sc := [(8, 0x9000), (9, 0xA000), (10, 1), (11, 0x9001)] }

/-- CopyWordsIssueTheirTransfers: operands that pass, and a source that meets a case of R222. -/
theorem witness_copies : let u := unitOf copying
    let o := copyOperands u 0 false 200 201 202
    issueOf copying = some u ∧ u.f.op = none ∧ RegsOk u.g (copyRegs 200 201 202 false) ∧ ¬ ((false : Bool) = true ∧ (202 : Opnd) = 255) ∧
      copyEntries copying (u.key / 128) + (copyLanes u 200 201 202).length ≤ 128 ∧
      (∀ l ∈ copyLanes u 200 201 202, copyTrap (((launchOfGroup copying u.g).map recScratch).getD 0) (l, CopyOps.ofList (o l)) = none ∧
        (CopyOps.ofList (o l)).total ≠ 0) ∧
      (∃ l ∈ copyLanes u 200 203 202, ∃ n, copyCase (CopyOps.ofList (copyOperands u 0 false 200 203 202 l)) true = some n ∧
        ∀ k ∈ copyLanes u 200 203 202, ¬ k < l) := by
  refine ⟨issue_unit (by decide +kernel), by decide +kernel, by unfold RegsOk; decide +kernel, by decide, by decide +kernel, by decide +kernel, 0,
    by decide +kernel, ?_⟩
  refine ⟨((copyCase (CopyOps.ofList (copyOperands (unitOf copying) 0 false 200 203 202 0)) true).getD 0), by decide +kernel, by decide +kernel⟩

theorem witness_copies_room : RoomOnB (unitOf copying) := by
  intro k hk
  have : clauseSetB (unitOf copying).f = none := by decide +kernel
  rw [this] at hk; cases hk

/-! ### Task rings -/

/-- A team with a ring of 16 slots, of which slot 0 is as given. -/
@[irreducible] def ringed (slot : Slot) (sc : List (Nat × Dword)) : State :=
  withLaunch (teamed (fun t => { t with ringLog := 4, ringBase := 0, slots := tset Slot.reset t.slots 0 slot }) { sc := sc })
    (fun l => recordWith l 0x28 (leBytes 4 4096))

/-- TaskRingWordsAct: one record posted in the last slot; a slot and a count just beyond the ring; a team without a ring. -/
theorem witness_posts : let s := ringed Slot.reset [(4, 15), (5, 16), (6, 17), (7, 1), (8, 0)]
    let u := unitOf s
    let t := teamed id { sc := [(4, 15)] }
    issueOf s = some u ∧ TeamAt s u (teamHere s) (coreHere s) ∧ u.f.hold = .ready ∧ u.f.op = none ∧ 0 < slotsOf (teamHere s) ∧
      scalar u 196 < slotsOf (teamHere s) ∧ scalar u 197 ≤ slotsOf (teamHere s) ∧ 0 < scalar u 197 ∧ slotsOf (teamHere s) ≤ scalar u 197 ∧
      slotsOf (teamHere s) < scalar u 198 ∧ issueOf t = some (unitOf t) ∧ TeamAt t (unitOf t) (teamHere t) (coreHere t) ∧
      slotsOf (teamHere t) = 0 := by
  refine ⟨issue_unit (by decide +kernel), team_here (by decide +kernel) (by decide +kernel), by decide +kernel, by decide +kernel, by decide +kernel,
    by decide +kernel, by decide +kernel, by decide +kernel, by decide +kernel, by decide +kernel, issue_unit (by decide +kernel),
    team_here (by decide +kernel) (by decide +kernel), by decide +kernel⟩

theorem witness_posts_room : RoomOnB (unitOf (ringed Slot.reset [(4, 15), (5, 16), (6, 17), (7, 1), (8, 0)])) := by
  intro k hk
  have : clauseSetB (unitOf (ringed Slot.reset [(4, 15), (5, 16), (6, 17), (7, 1), (8, 0)])).f = none := by decide +kernel
  rw [this] at hk; cases hk

/-- MCFG: a log of 10 at address 0 is too large for SCRATCH 4096, one of 6 fits exactly, 1 and 11 are no logs; every slot empty, and one that
is not. -/
theorem witness_ring_settings : let s := ringed Slot.reset [(4, 0), (5, 6), (6, 1), (7, 11), (8, 10)]
    let u := unitOf s
    let size := ((launchOfGroup s u.g).map recScratch).getD 0
    let t := ringed { Slot.reset with state := 1 } [(4, 0), (5, 6)]
    issueOf s = some u ∧ WalkerFree s u (teamHere s) ∧ (∀ x ∈ (teamHere s).slots, x.2.state = 0) ∧
      (scalar u 197 = 6 ∧ scalar u 196 % 64 = 0 ∧ ¬ size < scalar u 196 + 64 * 2 ^ scalar u 197) ∧ scalar u 198 = 1 ∧ 10 < scalar u 199 ∧
      size < scalar u 196 + 64 * 2 ^ scalar u 200 ∧ issueOf t = some (unitOf t) ∧ WalkerFree t (unitOf t) (teamHere t) ∧
      ∃ x ∈ (teamHere t).slots, x.2.state ≠ 0 := by
  refine ⟨issue_unit (by decide +kernel), ⟨by decide +kernel, ?_⟩, by decide +kernel, by decide +kernel, by decide +kernel, by decide +kernel,
    by decide +kernel, issue_unit (by decide +kernel), ⟨by decide +kernel, ?_⟩, by decide +kernel⟩
  · have h : ∀ x ∈ (ringed Slot.reset [(4, 0), (5, 6), (6, 1), (7, 11), (8, 10)]).groups, ∀ f ∈ x.2.frags, f.hold = .ready := by decide +kernel
    intro x hx _ _ f hf t; rw [h x hx f hf]; exact fun h => by cases h
  · have h : ∀ x ∈ (ringed { Slot.reset with state := 1 } [(4, 0), (5, 6)]).groups, ∀ f ∈ x.2.frags, f.hold = .ready := by decide +kernel
    intro x hx _ _ f hf t; rw [h x hx f hf]; exact fun h => by cases h

/-- MQUERY of the last slot, of the team, and beyond both. -/
theorem witness_queries : let s := ringed Slot.reset [(4, 15), (5, 65536), (6, 131071), (7, 131072), (8, 16)]
    let u := unitOf s
    issueOf s = some u ∧ RegsOk u.g [(4, 2)] ∧ Plain s u ∧ scalar u 196 < 65536 ∧ scalar u 196 < slotsOf (teamHere s) ∧ 65536 ≤ scalar u 197 ∧
      scalar u 198 < 131072 ∧ 131072 ≤ scalar u 199 ∧ (scalar u 200 < 65536 ∧ slotsOf (teamHere s) ≤ scalar u 200) := by
  refine ⟨issue_unit (by decide +kernel), ?_⟩; unfold RegsOk Plain; decide +kernel

/-- MCANCEL of one slot that is idle, and of one that is pending with no target and no counted neighbours. -/
theorem witness_cancels : let idle := fun (x : Slot) => ¬ (x.state = 1 ∨ x.state = 2 ∨ x.phase = 1 ∨ x.phase = 3)
    let s := ringed Slot.reset [(4, 0), (5, 1)]
    let t := ringed { Slot.reset with state := 2, record := List.replicate 64 0 } [(4, 0), (5, 1)]
    let slot := tget Slot.reset (teamHere t).slots 0
    scalar (unitOf s) 196 < slotsOf (teamHere s) ∧ scalar (unitOf s) 197 ≤ slotsOf (teamHere s) ∧
      (∀ i < scalar (unitOf s) 197, idle (tget Slot.reset (teamHere s).slots ((scalar (unitOf s) 196 + i) % slotsOf (teamHere s)))) ∧
      scalar (unitOf t) 197 = 1 ∧ ¬ idle slot ∧ (∀ i < 4, field slot.record (4 + 2 * i) 2 < 32768) ∧ field slot.record 12 2 < 32768 ∧
      slot.trans = none := by
  decide +kernel

/-! ### Counters and barriers -/

/-- CounterWordsAct: sums of 256, 255, 0 and below; a counter that a node of the gang targets, and one that none does. -/
theorem witness_counters :
    let s := withGroup (Pick.at {}) (fun g => setCounter g 11 { counterOf g 11 with val := 127 })
    let u := unitOf s
    let r := List.replicate 12 0 ++ leBytes 2 (32768 + 11)
    let t := withGang s (fun q => { q with teams := q.teams.map (fun x => { x with slots := [(0, { Slot.reset with state := 1, record := r })] }) })
    issueOf s = some u ∧ (11 : BitVec 4).toNat < u.g.counters.length ∧ RegsOk u.g [(4, 1)] ∧ Plain s u ∧
      (255 : Int) < 129 + (127 : Byte).toInt ∧ ((counterOf u.g 11).val : Int) + (-128 : Byte).toInt < 0 ∧
      (0 : Int) ≤ (counterOf u.g 11).val + (-127 : Byte).toInt ∧ ((counterOf u.g 11).val : Int) + (127 : Byte).toInt ≤ 255 ∧
      gangOf s u.g.gang = some (gangHere s) ∧
      (¬ ∃ x ∈ (gangHere s).teams, ∃ y ∈ x.slots, y.2.state ≠ 0 ∧ field y.2.record 12 2 ≥ 32768 ∧
        field y.2.record 12 2 % 1024 = 11 + 16 * u.g.gid + 256 * u.g.team) ∧
      gangOf t (unitOf t).g.gang = some (gangHere t) ∧ (unitOf t).g.gid < 16 ∧ (unitOf t).g.team < 4 ∧
      ∃ x ∈ (gangHere t).teams, ∃ y ∈ x.slots, y.2.state ≠ 0 ∧ field y.2.record 12 2 ≥ 32768 ∧
        field y.2.record 12 2 % 1024 = 11 + 16 * (unitOf t).g.gid + 256 * (unitOf t).g.team := by
  refine ⟨issue_unit (by decide +kernel), ?_⟩; unfold RegsOk Plain; decide +kernel

theorem witness_counter_above : let s := withGroup (Pick.at {}) (fun g => setCounter g 11 { counterOf g 11 with val := 129 })
    issueOf s = some (unitOf s) ∧ (255 : Int) < ((counterOf (unitOf s).g 11).val : Int) + (127 : Byte).toInt :=
  ⟨issue_unit (by decide +kernel), by decide +kernel⟩

/-- BarriersWaitAndComplete: threads that have not arrived, threads that have; generations 1 and 2^31 beyond, and 0 and 2^31 + 1 beyond. -/
theorem witness_barrier_words : ∀ scope : Bool,
    let s := Pick.at { v := [(4, 0xFFFFFFFF), (5, 0x80000000), (6, 0), (7, 0x7FFFFFFF)] }
    let u := unitOf s
    let t := withGroup s (fun g => { g with arrTeam := 1, arrGang := 1 })
    issueOf s = some u ∧ u.f.lanes &&& arrivals u.g (onGang s u scope) = 0 ∧ RegsOk u.g [(4, 1)] ∧ issueOf t = some (unitOf t) ∧
      (unitOf t).f.lanes &&& arrivals (unitOf t).g (onGang t (unitOf t) scope) = (unitOf t).f.lanes ∧ (unitOf t).f.lanes ≠ 0 ∧
      generationDone (barrierOf s u.g (onGang s u scope)).gen (val32 u.g 4 0) ∧
      generationDone (barrierOf s u.g (onGang s u scope)).gen (val32 u.g 5 0) ∧
      ¬ generationDone (barrierOf s u.g (onGang s u scope)).gen (val32 u.g 6 0) ∧
      ¬ generationDone (barrierOf s u.g (onGang s u scope)).gen (val32 u.g 7 0) := by
  intro scope
  refine ⟨issue_unit (by decide +kernel), by revert scope; decide +kernel, by unfold RegsOk; decide +kernel, issue_unit (by decide +kernel), ?_⟩
  unfold generationDone; revert scope; decide +kernel

/-- Barriers of a gang of one team: none met or stuck, and places in which one completes. -/
theorem witness_barriers : let s := Pick.at {}
    gangOf s (unitOf s).g.gang = some (gangHere s) ∧ (gangHere s).teams.length = 1 ∧ s.places = [] ∧
      BarriersQuiet s (unitOf s).g.gang (gangHere s) ∧
      groupOf s 0 = some (unitOf s).g ∧ (unitOf s).g.gang = (unitOf s).g.gang ∧ 0 < (gangHere s).teams.length := by
  unfold BarriersQuiet; decide +kernel

/-- BarriersWaitAndComplete: the last arrival at the only barrier, with BAR and with BARA into scalar 192. -/
theorem witness_last_arrival : let s := Pick.at {}
    let u := unitOf s
    let q := gangHere s
    let g' := withArrivals u.g false u.f.lanes
    let t := holdUnit (arrivedAt s u false g') u (.bar false true)
    let r := completeBarrier t u.g.gang 0 false
    let t' := finish (arrivedAt s u false g') u
    issueOf s = some u ∧ gangOf s u.g.gang = some q ∧ u.g.team < q.teams.length ∧ s.places = [] ∧ onGang s u true = false ∧
      u.f.lanes &&& arrivals u.g false = 0 ∧ RegsOk u.g [(192, 1)] ∧ barrierScopes q = [(0, false)] ∧ u.g.team = 0 ∧
      barrierMet t u.g.gang 0 false = true ∧ BarriersQuiet r u.g.gang q ∧
      barrierMet t' u.g.gang 0 false = true ∧ BarriersQuiet (completeBarrier t' u.g.gang 0 false) u.g.gang q := by
  refine ⟨issue_unit (by decide +kernel), by decide +kernel, by decide +kernel, by decide +kernel, by decide +kernel, by decide +kernel,
    by unfold RegsOk; decide +kernel, by decide +kernel, by decide +kernel, by decide +kernel, by unfold BarriersQuiet; decide +kernel,
    by decide +kernel, by unfold BarriersQuiet; decide +kernel⟩

/-- BarriersWaitAndComplete: an arrival with another live thread still to come leaves the barriers quiet. -/
theorem witness_early_arrival : let s := Pick.at { created := 3 }
    let u := unitOf s
    BarriersQuiet (finish (arrivedAt s u false (withArrivals u.g false u.f.lanes)) u) u.g.gang (gangHere s) := by
  unfold BarriersQuiet; decide +kernel

end Sys2Proof.Tests
end

