-- ==== Sys2Proof/Tests/WitnessSystem.lean ====
section
/-!
SUPPORT. Witnesses of the statements about traps, returns from them, and system words: for the hypotheses of each, a package and
operands that meet all of them together.
-/
namespace Sys2Proof.Tests

open Sys2Proof
open Sys2Proof.Machine

set_option Elab.async false

theorem launch_here {s : State} (h : (launchOfGroup s (unitOf s).g).isSome = true) : launchOfGroup s (unitOf s).g = some (launchHere s) := by
  unfold launchHere
  cases hg : launchOfGroup s (unitOf s).g with
  | none => rw [hg] at h; cases h
  | some l => rfl

/-! ### Traps -/

/-- A context whose vectors of class 26 lead to the header at 0x8000: the table at 0xA000, named in the context record. -/
@[irreducible] def vectored (s : State) : State := withBytes (withBytes s 0x20 (leBytes 8 0xA000)) (0xA000 + 16 * 26) (leBytes 8 0x8000 ++ leBytes 8 0x8000)

/-- A read that changes nothing but what it has looked at. -/
def settles (s s' : State) (key : Nat) : Bool :=
  decide ({ s' with tick := s.tick, fabric := { s'.fabric with asked := s.fabric.asked }, groups := s.groups } = s ∧
    s'.groups = (modGroup s key (fun g => { g with
      anchors := ((groupOf s' key).map (·.anchors)).getD [] })).groups)

theorem settled {s s' : State} {key : Nat} (h : settles s s' key = true) : OnlyRead s s' key := ⟨(of_decide_eq_true h).1, _, (of_decide_eq_true h).2⟩

/-- What a read of the vector of class 26 answers for the lowest lane of the unit, from a package that its trap has reached. -/
def vectorAt (s x : State) (rung : Nat) : State × VectorRead :=
  vectorOf x ((whoLaunch ((unitOf s).key / 128) (launchHere s)).ofThread (unitOf s).key (lowest (unitOf s).f.lanes)) (launchHere s).stamp 26 rung

theorem vector_is {s x : State} {rung v : Nat} (h : (vectorAt s x rung).2 = .found v)
    (h1 : settles x (vectorAt s x rung).1 (unitOf s).key = true) : VectorIs x (unitOf s) (launchHere s) 26 rung v (vectorAt s x rung).1 :=
  ⟨Prod.ext rfl h, settled h1⟩

/-- TrapsEnterTheirHandlers: a vector at the group rung; the group in trap mode already, with a vector at the gang rung. -/
theorem witness_traps :
    let s := vectored (Pick.at {})
    let m := withGroup s (fun g => { g with mode := some default })
    issueOf s = some (unitOf s) ∧ launchOfGroup s (unitOf s).g = some (launchHere s) ∧ gangOf s (unitOf s).g.gang = some (gangHere s) ∧
      (traceOf s (launchHere s).part).on = false ∧ (gangHere s).mode = none ∧ (unitOf s).g.mode = none ∧
      (∃ s', VectorIs (atTrap s (unitOf s)) (unitOf s) (launchHere s) 26 0 0x8000 s') ∧
      issueOf m = some (unitOf m) ∧ (unitOf m).g.mode ≠ none ∧ ∃ s', VectorIs (atTrap m (unitOf m)) (unitOf m) (launchHere m) 26 1 0x8000 s' := by
  refine ⟨issue_unit (by decide +kernel), launch_here (by decide +kernel), gang_here (by decide +kernel), by decide +kernel, by decide +kernel,
    by decide +kernel, ⟨_, vector_is (by decide +kernel) (by decide +kernel)⟩, issue_unit (by decide +kernel), by decide +kernel,
    _, vector_is (by decide +kernel) (by decide +kernel)⟩

/-- TrapsEnterTheirHandlers: no vector at the group rung and one at the gang rung; the gang in trap mode already. -/
theorem witness_traps_climb :
    let s := withBytes (vectored (Pick.at {})) (0xA000 + 16 * 26) (leBytes 8 0)
    let t := withGang (Pick.at {}) (fun q => { q with mode := some default })
    let a := atTrap s (unitOf s)
    issueOf s = some (unitOf s) ∧ (unitOf s).g.mode = none ∧ (vectorAt s a 0).2 = .absent ∧ OnlyRead a (vectorAt s a 0).1 (unitOf s).key ∧
      (∃ s', VectorIs (vectorAt s a 0).1 (unitOf s) (launchHere s) 26 1 0x8000 s') ∧
      issueOf t = some (unitOf t) ∧ gangOf t (unitOf t).g.gang = some (gangHere t) ∧ (gangHere t).mode ≠ none ∧
      (ctxOf t (launchHere t).ctx).pend = false := by
  refine ⟨issue_unit (by decide +kernel), by decide +kernel, by decide +kernel, settled (by decide +kernel), ⟨_, vector_is (by decide +kernel) (by decide +kernel)⟩, issue_unit (by decide +kernel), gang_here (by decide +kernel), by decide +kernel, by decide +kernel⟩

/-- TrapAndTraceWordsAct: no Active lane is possible only under a prefix, which TRAP does not take, so its first clause needs a fragment
with no lane; a trace that is off, on with room for 64 records, and full; an op 0x3D word without privilege; a word that no row assigns. -/
theorem witness_trap_and_trace_words :
    let s := Pick.at {}
    let on := fun (n : Nat) => { setCore s 0 { coreOf s 0 with unwritten := List.replicate n [] } with
      traces := tset Trace.reset s.traces 0 { Trace.reset with on := true } }
    issueOf s = some (unitOf s) ∧ launchOfGroup s (unitOf s).g = some (launchHere s) ∧ RegsOk (unitOf s).g [(4, 1)] ∧
      execLanes (unitOf s) none ≠ 0 ∧ (traceOf s (launchHere s).part).on = false ∧
      issueOf (on 63) = some (unitOf (on 63)) ∧ (traceOf (on 63) (launchHere (on 63)).part).on = true ∧
      (coreOf (on 63) ((unitOf (on 63)).key / 128)).unwritten.length + (lanesOf (unitOf (on 63)).f.lanes).length ≤ 64 ∧
      issueOf (on 64) = some (unitOf (on 64)) ∧ (traceOf (on 64) (launchHere (on 64)).part).on = true ∧
      64 ≤ (coreOf (on 64) ((unitOf (on 64)).key / 128)).unwritten.length := by
  refine ⟨issue_unit (by decide +kernel), launch_here (by decide +kernel), by unfold RegsOk; decide +kernel, by decide +kernel, by decide +kernel,
    issue_unit (by decide +kernel), by decide +kernel, by decide +kernel, issue_unit (by decide +kernel), by decide +kernel, by decide +kernel⟩

theorem witness_trap_of_no_lane : let s := Pick.at { lanes := 0 }
    issueOf s = some (unitOf s) ∧ launchOfGroup s (unitOf s).g = some (launchHere s) ∧ execLanes (unitOf s) none = 0 :=
  ⟨issue_unit (by decide +kernel), launch_here (by decide +kernel), by decide +kernel⟩

theorem witness_illegal_words :
    let s := withLaunch (Pick.at { ws := [0xF4000000] }) (fun l => recordWith l 0x33 [0])
    let t := Pick.at { ws := [0xDC000000] }
    issueOf s = some (unitOf s) ∧ (baseWord (unitOf s).words).toNat / 2 ^ 26 = 0x3D ∧ launchOfGroup s (unitOf s).g = some (launchHere s) ∧
      recPriv (launchHere s) = false ∧ issueOf t = some (unitOf t) ∧
      (match decode (unitOf t).words with | .error e => some e | .ok _ => none) = some (.illegalInstruction 0xDC000000 35) ∧
      (baseWord (unitOf t).words).toNat / 2 ^ 26 ≠ 0x3D := by
  refine ⟨issue_unit (by decide +kernel), by decide +kernel, launch_here (by decide +kernel), by decide +kernel, issue_unit (by decide +kernel),
    by decide +kernel, by decide +kernel⟩

/-- A group in trap mode of a class, whose handler is the fragment that issues. -/
@[irreducible] def handling (cls : Nat) (atHeader : Bool) (sc : List (Nat × Dword)) : State :=
  let s := withGroup (Pick.at { sc := sc }) (fun g => { g with
    mode := some { (default : TrapMode) with cls := cls, lanes := 1, pc := 0x8004, clause := some ⟨0x8000, wordHeader [0]⟩, words := 1, atHeader := atHeader, engine := some 9 } })
  { s with transfers := [(9, { (default : Transfer) with number := 9, halted := true, node := some (0, 0) })] }

def modeHere (s : State) : TrapMode := ((unitOf s).g.mode).getD default

theorem in_handler {s : State} (h : (gangOf s (unitOf s).g.gang).isSome = true) (h1 : (gangHere s).mode = none)
    (h2 : (unitOf s).g.mode = some (modeHere s)) (h3 : (unitOf s).f.lanes &&& (modeHere s).lanes ≠ 0)
    (h4 : (modeHere s).lanes &&& liveLanes (unitOf s).g &&& ~~~(unitOf s).f.lanes = 0) :
    InGroupHandler s (unitOf s) (gangHere s) (modeHere s) := ⟨gang_here h, h1, h2, h3, h4⟩

/-- TrapReturnsLeaveTrapMode: outside any handler; a handler of a class that neither an engine nor a stop raised, at a word and at a
header; one of class 14 with its halted transfer; threads of the handler that are elsewhere; the gang's handler. -/
theorem witness_trap_returns :
    let out := Pick.at {}
    let s := handling 26 false [(10, 0x8000)]
    let t := handling 26 true []
    let e := handling 14 false []
    issueOf out = some (unitOf out) ∧ (gangHere out).mode = none ∧ (unitOf out).g.mode = none ∧
      issueOf s = some (unitOf s) ∧ InGroupHandler s (unitOf s) (gangHere s) (modeHere s) ∧ (modeHere s).cls = 26 ∧ (unitOf s).g.rdv = [] ∧
      (modeHere s).op = none ∧ (modeHere s).atHeader = false ∧
      (∃ s', TargetsPass (whoGroup s (unitOf s).key (unitOf s).g) (stampOf s (unitOf s).g) s [((0x8000 : Nat) : Int)] s' ∧
        { s' with tick := s.tick, fabric := { s'.fabric with asked := s.fabric.asked } } = s) ∧ scalar (unitOf s) 202 = 0x8000 ∧
      issueOf t = some (unitOf t) ∧ InGroupHandler t (unitOf t) (gangHere t) (modeHere t) ∧ (modeHere t).atHeader = true ∧
      issueOf e = some (unitOf e) ∧ InGroupHandler e (unitOf e) (gangHere e) (modeHere e) ∧ (modeHere e).cls = 14 ∧ (modeHere e).engine = some 9 ∧
      ∃ w, tfind e.transfers 9 = some w ∧ w.complete = none ∧ w.op = none ∧ w.kind ≠ 1 ∧ w.node.isSome = true := by
  refine ⟨issue_unit (by decide +kernel), by decide +kernel, by decide +kernel,
    issue_unit (by decide +kernel), in_handler (by decide +kernel) (by decide +kernel) (by decide +kernel) (by decide +kernel) (by decide +kernel),
    by decide +kernel, by decide +kernel, by decide +kernel, by decide +kernel, ⟨_, one_target_at (by decide) (by decide) (by decide +kernel), by decide +kernel⟩,
    by decide +kernel, issue_unit (by decide +kernel),
    in_handler (by decide +kernel) (by decide +kernel) (by decide +kernel) (by decide +kernel) (by decide +kernel), by decide +kernel,
    issue_unit (by decide +kernel), in_handler (by decide +kernel) (by decide +kernel) (by decide +kernel) (by decide +kernel) (by decide +kernel),
    by decide +kernel, by decide +kernel,
    { (default : Transfer) with number := 9, halted := true, node := some (0, 0) }, by decide +kernel, by decide +kernel, by decide +kernel,
    by decide +kernel, by decide +kernel⟩

theorem witness_other_trap_returns :
    let m : TrapMode := { (default : TrapMode) with cls := 26, lanes := 3, pc := 0x8004 }
    let s := withGroup (Pick.at { created := 3 }) (fun g => { g with mode := some m })
    let t := withGang (Pick.at {}) (fun q => { q with mode := some { m with lanes := 1 }, handler := some 0 })
    issueOf s = some (unitOf s) ∧ gangOf s (unitOf s).g.gang = some (gangHere s) ∧ (gangHere s).mode = none ∧ (unitOf s).g.mode = some m ∧
      (unitOf s).f.lanes &&& m.lanes ≠ 0 ∧ m.lanes &&& liveLanes (unitOf s).g &&& ~~~(unitOf s).f.lanes ≠ 0 ∧
      issueOf t = some (unitOf t) ∧ gangOf t (unitOf t).g.gang = some (gangHere t) ∧ (gangHere t).mode = some { m with lanes := 1 } ∧
      (gangHere t).handler = some (unitOf t).key ∧ (unitOf t).f.lanes &&& 1 ≠ 0 ∧ (1 : Dword) &&& liveLanes (unitOf t).g &&& ~~~(unitOf t).f.lanes = 0 ∧
      m.op = none ∧ m.saved = [] := by
  refine ⟨issue_unit (by decide +kernel), gang_here (by decide +kernel), by decide +kernel, by decide +kernel, by decide +kernel, by decide +kernel,
    issue_unit (by decide +kernel), gang_here (by decide +kernel), by decide +kernel, by decide +kernel, by decide +kernel, by decide +kernel,
    by decide +kernel, by decide +kernel⟩

/-! ### System words -/

/-- A system word whose fields are s20 and s21, with their values. -/
@[irreducible] def system (sa sb : Nat) : State :=
  Pick.at { ws := [0xF400D4D5], sc := [(20, BitVec.ofNat 64 sa), (21, BitVec.ofNat 64 sb)] }

theorem system_at {s : State} (h : (issueOf s).isSome = true) (h1 : (launchOfGroup s (unitOf s).g).isSome = true)
    (h2 : systemFields s = (212, 213)) : SystemAt s (unitOf s) (launchHere s) 212 213 := ⟨issue_unit h, launch_here h1, h2⟩

/-- The values that a system word of these witnesses takes. -/
def Scalars (s : State) (sa sb : Nat) : Prop := SystemAt s (unitOf s) (launchHere s) 212 213 ∧ scalar (unitOf s) 212 = sa ∧ scalar (unitOf s) 213 = sb

theorem scalars {s : State} {sa sb : Nat} (h : (issueOf s).isSome = true ∧ (launchOfGroup s (unitOf s).g).isSome = true ∧
    systemFields s = (212, 213) ∧ scalar (unitOf s) 212 = sa ∧ scalar (unitOf s) 213 = sb) : Scalars s sa sb :=
  ⟨system_at h.1 h.2.1 h.2.2.1, h.2.2.2⟩

/-- Every system word of the statements below: SystemAt is met with the operands at the ends of the ranges that the rules give. -/
theorem witness_system_words : ∀ x ∈ [(0, 2 ^ 56 - 1), (1, 0), (2, 0), (3, 0), (0xFF00, 0), (0x10000, 0), (2 ^ 41 - 65536, 2 ^ 52 - 1)] ++
    [(2 ^ 41, 0), (2 ^ 18 - 1, 0), (2 ^ 16 - 1, 1), (383 * 16, 25), (384 * 16, 0), (11 * 16 + 1, 0), (2, 1), (2, 26), (3, 0), (4, 0), (15, 0)] ++
    [(0, 168), (0, 169), (3, 65535), (3, 65536), (16, 0), (31, 0), (32, 0), (1023, 0), (1024, 0), (2, 0), (63, 0), (64, 0)],
    Scalars (system x.1 x.2) x.1 x.2 := by
  intro x hx
  refine scalars ?_
  revert x; decide +kernel

/-- InvalidationWordsRemoveTranslations: the operands of each MODE, ones that it refuses, and another partition's context. -/
theorem witness_invalidations :
    InvOk 0 0 (2 ^ 56 - 1) ∧ InvOk 1 0x0001 0 ∧ InvOk 2 2 0 ∧ ¬ InvOk 0 0x10000 0 ∧ ¬ InvOk 1 1 1 ∧ ¬ InvOk 2 3 0 ∧
      ctxPart (system 0 0) 0 = (launchHere (system 0 0)).part ∧ ctxPart (system 0xFF00 0) (0xFF00 / 256 % 256) ≠ 8 ∧
      (system 0 0).places = [] ∧ (system 0 0).requests = [] := by
  refine ⟨by simp [InvOk], by simp [InvOk], by simp [InvOk], by simp [InvOk], by simp [InvOk], by simp [InvOk], ?_⟩
  decide +kernel

/-- TableAndBankWordsAct: an entry that every place of R337's list takes, one for each place that it does not, a frame of the launch's
partition and one of none; banks that exist, of a core of the partition and of a channel, and one that does not. -/
theorem witness_tables_and_banks :
    let m := (system 0 0).mem
    let own := fun (x : Dword) => IndPart x = (launchHere (system 0 0)).part ∨ IndPart x = 7
    (∀ n < 6, ¬ itsetBad m 5 (indEntry true false false false false false 0 12582911) n) ∧ itsetBad m 5 0x40 1 ∧ itsetBad m 5 0x10 2 ∧
      itsetBad m 5 0x600 3 ∧ itsetBad m 5 (indEntry true false false false false false 0 12582912) 4 ∧
      itsetBad m 5 (indEntry true false false false false false 0 0) 5 ∧ own (m.entry 0) ∧ IndMoving (m.entry 0) = false ∧
      IndPart (m.entry 0) = (launchHere (system 0 0)).part ∧ ¬ own (indEntry true false false false false false 1 0) ∧
      unitExists 50 = true ∧ unitExists 51 = false ∧ unitExists (4096 + 383) = true ∧ unitExists 0xFFFF = false ∧
      unitPart (system 0 0) 0 = (launchHere (system 0 0)).part ∧ (tget 0 (system 0 0).banks 0).toNat % 2 ^ 64 = 0 := by
  refine ⟨?_, by simp [itsetBad], by simp only [itsetBad]; decide +kernel, by simp only [itsetBad]; decide +kernel, ?_⟩
  · intro n hn
    match n, hn with
    | 0, _ => simp only [itsetBad]; decide +kernel
    | 1, _ => simp only [itsetBad]; decide +kernel
    | 2, _ => simp only [itsetBad]; decide +kernel
    | 3, _ => simp only [itsetBad]; decide +kernel
    | 4, _ => simp only [itsetBad]; decide +kernel
    | 5, _ => simp only [itsetBad]; decide +kernel
  · refine ⟨by simp only [itsetBad]; decide +kernel, by simp only [itsetBad]; decide +kernel, ?_⟩
    decide +kernel

/-- MaintenanceWordsAct: memory without symbol errors, dead channels or moved symbols, a frame that resolves, and a power step that is
already in force. -/
theorem witness_maintenance :
    let s := system 1 0
    let r := resolveDpa s { whoLaunch ((unitOf s).key / 128) (launchHere s) with regen := [] } false 0
    r.toOption = some 0 ∧ s.mem.symErr = [] ∧ s.mem.chans = [] ∧ s.mem.inter = [] ∧ (unitOf s).f.hold ≠ .word ∧
      s.power.step = max s.power.pinreq (max s.power.pktreq s.power.portreq) ∧ NoPset s ∧ s.power.step ≠ 31 % 16 := by
  have h : NoPset (system 1 0) := by
    have h1 : ∀ x ∈ (system 1 0).groups, ∀ f ∈ x.2.frags, f.hold = .ready := by decide +kernel
    have h2 : ∀ q ∈ (system 1 0).gangs, q.2.mode = none := by decide +kernel
    refine ⟨fun x hx f hf d w he => ?_, fun q hq m hm => ?_⟩
    · rw [h1 x hx f hf] at he; cases he
    · rw [h2 q hq] at hm; cases hm
  refine ⟨?_, ?_, ?_, ?_, ?_, ?_, h, ?_⟩ <;> decide +kernel

/-- The same word, held. -/
@[irreducible] def systemHeld (sa sb : Nat) : State :=
  withGroup (system sa sb) (fun g => { g with frags := g.frags.map (fun f => { f with hold := .word }) })

theorem witness_held_words : Scalars (systemHeld 16 0) 16 0 ∧ (unitOf (systemHeld 16 0)).f.hold = .word ∧
    Scalars (systemHeld 47 0) 47 0 ∧ (coreOf (systemHeld 47 0) (47 % 64)).stopBy = none := by
  refine ⟨scalars (by decide +kernel), by decide +kernel, scalars (by decide +kernel), by decide +kernel⟩

/-- A read of the words' operands that finds bytes and changes nothing besides what the core has cached. -/
theorem reads_of {s : State} {va n : Nat} {bs : List Byte}
    (h : (loadMany s ((whoGroup s (unitOf s).key (unitOf s).g).ofThread (unitOf s).key (lowest (unitOf s).f.lanes)) va n).2.toOption = some bs)
    (h2 : settles s (loadMany s ((whoGroup s (unitOf s).key (unitOf s).g).ofThread (unitOf s).key (lowest (unitOf s).f.lanes)) va n).1 (unitOf s).key = true) :
    Reads s (unitOf s) va n bs (loadMany s ((whoGroup s (unitOf s).key (unitOf s).g).ofThread (unitOf s).key (lowest (unitOf s).f.lanes)) va n).1 :=
  ⟨ok_of h, settled h2⟩

/-- DebugWordsSetTheirUnits: descriptors of zeros at 0x9000 of each size that the words read, and a core of the launch's partition. -/
theorem witness_debug_words : ∀ n ∈ [16, 32, 1024], let s := system 0 0x9000
    (∃ s', Reads s (unitOf s) 0x9000 n (List.replicate n 0) s') ∧ 0x9000 % 32 = 0 ∧ corePart s (1023 / 16 % 48) = (launchHere s).part ∧
      corePart s 0 = (launchHere s).part ∧ corePart s 48 ≠ (launchHere s).part := by
  intro n hn
  refine ⟨⟨_, reads_of (by revert n; decide +kernel) (by revert n; decide +kernel)⟩, by decide, by decide +kernel, by decide +kernel,
    by decide +kernel⟩

end Sys2Proof.Tests
end

