-- ==== Sys2Proof/Tests/WitnessQueues.lean ====
section
/-!
SUPPORT. Witnesses of the statements about the words that post launches and packets, that act on queues and that act on gangs.
-/
namespace Sys2Proof.Tests

open Sys2Proof
open Sys2Proof.Machine

set_option Elab.async false

/-- The context record at DPA 0 with its V byte set, so that context 0 is valid. -/
@[irreducible] def validCtx (s : State) : State := withBytes s 0x11 [1]

/-- LAUNCH and QPOST: registers s10 and s11, and bytes at 0x9000. -/
@[irreducible] def posting (sa sb : Nat) (bs : List Byte) : State :=
  withBytes (validCtx (Pick.at { ws := [0xCCC4CA00], sc := [(10, BitVec.ofNat 64 sa), (11, BitVec.ofNat 64 sb)] })) 0x9000 bs

/-- The package with a queue. -/
@[irreducible] def withQueue (s : State) (q : Nat) (x : Queue) : State := setQueue s q x

/-- PostingWordsAct, LAUNCH: a record that is valid, one whose FORMAT is wrong, and one that asks for privilege, all at 0x9000; an address
that is not a multiple of 256. -/
theorem witness_launch_word :
    let s := posting 0x9000 0 wordRecord
    let bad := posting 0x9000 0 (leBytes 1 9 ++ wordRecord.drop 1)
    let m := posting 0x9080 0 wordRecord
    issueOf s = some (unitOf s) ∧ launchOfGroup s (unitOf s).g = some (launchHere s) ∧ scalar (unitOf s) 202 % 256 = 0 ∧
      (∃ s', Reads s (unitOf s) 0x9000 256 wordRecord s' ∧ launchRefused s' wordRecord (launchHere s).ctx (launchHere s).part = none) ∧
      (field wordRecord 0x33 1).testBit 2 = true ∧ recPriv (launchHere s) = true ∧
      issueOf bad = some (unitOf bad) ∧
      (∃ s', Reads bad (unitOf bad) 0x9000 256 (leBytes 1 9 ++ wordRecord.drop 1) s' ∧
        launchRefused s' (leBytes 1 9 ++ wordRecord.drop 1) (launchHere bad).ctx (launchHere bad).part = some (.byte 0)) ∧
      issueOf m = some (unitOf m) ∧ scalar (unitOf m) 202 % 256 ≠ 0 := by
  refine ⟨issue_unit (by decide +kernel), launch_here (by decide +kernel), by decide +kernel,
    ⟨_, reads_of (by decide +kernel) (by decide +kernel), by decide +kernel⟩, by decide +kernel, by decide +kernel,
    issue_unit (by decide +kernel), ⟨_, reads_of (by decide +kernel) (by decide +kernel), by decide +kernel⟩,
    issue_unit (by decide +kernel), by decide +kernel⟩

/-- A marker packet of 64 bytes, and a queue of context 0 whose ring stands at 0xC000. -/
def marker : List Byte := leBytes 1 6 ++ leBytes 1 0 ++ leBytes 2 64 ++ leBytes 60 0
def ring (state head tail : Nat) : Queue :=
  { Queue.reset with state := state, head := BitVec.ofNat 32 head, tail := BitVec.ofNat 32 tail, rbase := 0xC000 }

/-- PostingWordsAct, QPOST and QSTAT: a queue with room, one that is full, one that is frozen, one that is off; a packet of 8 bytes; a
queue that another partition's context runs; numbers and addresses out of range. -/
theorem witness_queue_posts :
    let s := withQueue (posting 5 0x9000 marker) 5 (ring 1 0 15)
    let u := unitOf s
    let w : Who := ⟨u.key / 128, (queueOf s 5).ctx.toNat, ctxPart s (queueOf s 5).ctx.toNat, recPriv (launchHere s), [], none⟩
    let x := loadMany s ((whoGroup s u.key u.g).ofThread u.key (lowest u.f.lanes)) 0x9000 16
    let y := loadMany x.1 ((whoGroup s u.key u.g).ofThread u.key (lowest u.f.lanes)) 0x9000 64
    issueOf s = some u ∧ launchOfGroup s u.g = some (launchHere s) ∧ scalar u 202 = 5 ∧ scalar u 203 = 0x9000 ∧ Plain s u ∧
      QueueReached s (launchHere s) 5 ∧ ¬ QueueForeign s (launchHere s) 5 ∧
      Reads s u 0x9000 16 (marker.take 16) x.1 ∧ field (marker.take 16) 2 2 = 64 ∧
      (y.2.toOption = some marker ∧ settles x.1 y.1 u.key = true) ∧ (queueOf s 5).state = 1 ∧
      ((queueOf s 5).tail - (queueOf s 5).head).toNat < 2 ^ (queueOf s 5).log2n ∧
      (deviceStoreAll y.1 w (0xC000 + 256 * 15) (pieces16 marker)).2.toOption = some () ∧
      (let full := ring 1 0 16; 2 ^ full.log2n ≤ (full.tail - full.head).toNat) ∧ (ring 2 0 0).state ≠ 1 ∧
      (let o := posting 65535 0x9008 []; QueueReached o (launchHere o) 65535 ∧ scalar (unitOf o) 202 = 65535 ∧ scalar (unitOf o) 203 % 16 ≠ 0) ∧
      (let o := posting 65536 0x9000 []; scalar (unitOf o) 202 = 65536 ∧ issueOf o = some (unitOf o)) ∧
      (let f := withQueue (posting 5 0x9000 marker) 5 { ring 1 0 0 with ctx := 1 }
       let g := withBytes f 0x50 [1]
       QueueForeign g (launchHere g) 5 ∧ ¬ QueueReached g (launchHere g) 5) := by
  refine ⟨issue_unit (by decide +kernel), launch_here (by decide +kernel), by decide +kernel, by decide +kernel,
    by unfold Plain; decide +kernel, by unfold QueueReached; decide +kernel, by unfold QueueForeign; decide +kernel,
    reads_of (by decide +kernel) (by decide +kernel), by decide +kernel, by decide +kernel, by decide +kernel, by decide +kernel,
    by decide +kernel, by decide, by decide, ?_, ?_, ?_⟩
  · unfold QueueReached; decide +kernel
  · exact ⟨by decide +kernel, issue_unit (by decide +kernel)⟩
  · unfold QueueForeign QueueReached; decide +kernel

/-! ### QCTL and UNFREEZE -/

/-- A descriptor of a queue of a context with its ring at an address. -/
def descriptor (ctx base : Nat) : List Byte := leBytes 1 0 ++ leBytes 1 ctx ++ leBytes 1 4 ++ leBytes 5 0 ++ leBytes 8 base

@[irreducible] def queueWord (sa sb : Nat) (d : List Byte) (x : Queue) : State :=
  withQueue (withBytes (validCtx (system sa sb)) 0x9000 d) 5 x

/-- QueueWordsAct, QCTL: a queue that is created, one that runs already, one whose ring is misplaced, one of another context, and one that is
already being destroyed. -/
theorem witness_queue_words :
    let create := queueWord 0x10005 0x9000 (descriptor 0 0xC000) (ring 0 0 0)
    let runs := queueWord 0x10005 0x9000 (descriptor 0 0xC000) (ring 1 0 0)
    let base := queueWord 0x10005 0x9000 (descriptor 0 0xC080) (ring 0 0 0)
    let other := queueWord 0x10005 0x9000 (descriptor 1 0xC000) (ring 0 0 0)
    let going := queueWord 5 0 [] (ring 2 0 0)
    (∀ x ∈ [(create, 0x10005, 0x9000), (runs, 0x10005, 0x9000), (base, 0x10005, 0x9000), (other, 0x10005, 0x9000), (going, 5, 0)],
      Scalars x.1 x.2.1 x.2.2) ∧
      (∀ x ∈ [create, runs, base, other, going], ¬ QueueForeign x (launchHere x) 5) ∧
      (∃ s', Reads create (unitOf create) 0x9000 16 (descriptor 0 0xC000) s' ∧ ctxValid s' 0 = true) ∧ (queueOf create 5).state = 0 ∧
      (∃ s', Reads runs (unitOf runs) 0x9000 16 (descriptor 0 0xC000) s') ∧ (queueOf runs 5).state ≠ 0 ∧
      (∃ s', Reads base (unitOf base) 0x9000 16 (descriptor 0 0xC080) s' ∧ ctxValid s' 0 = true) ∧ field (descriptor 0 0xC080) 8 8 % 256 ≠ 0 ∧
      (∃ s', Reads other (unitOf other) 0x9000 16 (descriptor 1 0xC000) s') ∧ field (descriptor 1 0xC000) 1 1 ≠ (launchHere other).ctx ∧
      (launchHere create).ctx = 0 ∧ (queueOf going 5).state = 2 := by
  refine ⟨?_, ?_, ⟨_, reads_of (by decide +kernel) (by decide +kernel), by decide +kernel⟩, by decide +kernel,
    ⟨_, reads_of (by decide +kernel) (by decide +kernel)⟩, by decide +kernel,
    ⟨_, reads_of (by decide +kernel) (by decide +kernel), by decide +kernel⟩, by decide +kernel,
    ⟨_, reads_of (by decide +kernel) (by decide +kernel)⟩, by decide +kernel, by decide +kernel, by decide +kernel⟩
  · intro x hx
    simp only [List.mem_cons, List.not_mem_nil, or_false] at hx
    rcases hx with rfl | rfl | rfl | rfl | rfl <;> exact scalars (by decide +kernel)
  · intro x hx
    simp only [List.mem_cons, List.not_mem_nil, or_false] at hx
    rcases hx with rfl | rfl | rfl | rfl | rfl <;> (unfold QueueForeign; decide +kernel)

/-- QueueWordsAct, UNFREEZE: an agent of each kind at the end of its range, the first value past it, and agents of the launch's partition and not. -/
theorem witness_unfreeze :
    (∀ x ∈ [0xFFFF0000, 0x00FF0001, 0x00060002, 383 * 65536 + 5 * 65536 * 0 + 3], x < 2 ^ 32) ∧ AgentOk 0xFFFF0000 ∧ AgentOk 0x00FF0001 ∧
      ¬ AgentOk 0x01000001 ∧ AgentOk 0x00060002 ∧ ¬ AgentOk 0x00070002 ∧ AgentOk (381 * 65536 + 3) ∧ ¬ AgentOk (382 * 65536 + 3) ∧
      ¬ AgentOk 0x10 ∧ ¬ AgentOk (2 ^ 32) ∧
      (let s := system 0 0; ¬ AgentForeign s (launchHere s) 1 ∧ ¬ AgentForeign s (launchHere s) 3 ∧ AgentForeign s (launchHere s) 2) := by
  refine ⟨by decide, by simp [AgentOk], by simp [AgentOk], by simp [AgentOk], by simp [AgentOk], by simp [AgentOk], by simp [AgentOk],
    by simp [AgentOk], by simp [AgentOk], by simp [AgentOk], ?_, ?_, ?_⟩
  · show ¬ (_ ≠ _); decide +kernel
  · show ¬ (_ ≠ _); decide +kernel
  · show _ ≠ _; decide +kernel

/-! ### Gangs -/

def namedHere (s : State) (v : Nat) : Nat × Gang × Launch := (namedGang s v).getD default

theorem named_here {s : State} {v : Nat} (h : (namedGang s v).isSome = true) :
    namedGang s v = some ((namedHere s v).1, (namedHere s v).2.1, (namedHere s v).2.2) := by
  unfold namedHere
  cases hg : namedGang s v with
  | none => rw [hg] at h; cases h
  | some x => rfl

/-- A second gang, of a launch of partition 1, in slot 1 of core 0. -/
@[irreducible] def twoGangs (s : State) : State :=
  { s with
    groups := s.groups ++ [(1, { (unitOf s).g with gang := 1000 })]
    gangs := s.gangs ++ [(1000, { gangHere s with launch := 1001 })]
    launches := s.launches ++ [(1001, { launchHere s with part := 1 })] }

/-- A package in which nothing but the clock of its draws and what it has asked for differs. -/
def quiet (s s' : State) : Bool := decide ({ s' with tick := s.tick, fabric := { s'.fabric with asked := s.fabric.asked } } = s)

/-- GangWordsAct, SPMIG and CTXSAVE: a gang of the launch's partition, one of another, none; a gang in trap mode; a context without a save
area, and one with an area of a free slot at 0x10000; a result that has been left. -/
theorem witness_gang_words :
    let s := system 0 1
    let two := twoGangs (system 0x40 1)
    let trap := withGang (system 0 1) (fun q => { q with mode := some default })
    let area := (withBytes s 0x28 (leBytes 8 0xC000 ++ leBytes 4 1 ++ leBytes 1 12))
    let x := freeSlot area (whoCtx area 0 true) (saveArea area 0) [] (List.range (saveArea area 0).n)
    let r := { s with results := tput s.results (resultKey (askerOf s (unitOf s))) 3 }
    Scalars s 0 1 ∧ namedGang s 1 = none ∧ namedGang s 0 = some ((namedHere s 0).1, (namedHere s 0).2.1, (namedHere s 0).2.2) ∧
      (namedHere s 0).2.2.part = (launchHere s).part ∧ resultOf s (unitOf s) = none ∧ s.saves = [] ∧
      pagesOf s (namedHere s 0).1 = [] ∧ (namedHere s 0).2.1.fills = [] ∧ (namedHere s 0).2.1.pages = [] ∧ s.places = [] ∧
      inTrapMode s (namedHere s 0).1 (namedHere s 0).2.1 = false ∧ (saveArea s (namedHere s 0).2.2.ctx).base = 0 ∧
      Scalars two 0x40 1 ∧ (namedHere two 0x40).1 = 1000 ∧ (namedHere two 0x40).2.2.part ≠ (launchHere two).part ∧
      Scalars trap 0 1 ∧ inTrapMode trap (namedHere trap 0).1 (namedHere trap 0).2.1 = true ∧
      Scalars area 0 1 ∧ (saveArea area 0).base ≠ 0 ∧ x.2 = .slot 0 ∧ quiet area x.1 = true ∧
      Scalars r 0 1 ∧ resultOf r (unitOf r) = some 3 := by
  refine ⟨scalars (by decide +kernel), by decide +kernel, named_here (by decide +kernel), ?_⟩
  refine ⟨by decide +kernel, by decide +kernel, by decide +kernel, by decide +kernel, by decide +kernel, by decide +kernel,
    by decide +kernel, by decide +kernel, by decide +kernel, scalars (by decide +kernel), by decide +kernel, by decide +kernel,
    scalars (by decide +kernel), by decide +kernel, scalars (by decide +kernel), by decide +kernel, by decide +kernel, by decide +kernel,
    scalars (by decide +kernel), by decide +kernel⟩

/-- GangWordsAct, HSTAKE and CKGO: a core in service whose die has its spare, one whose spare is used, one out of service, one past the
last; a checkpoint's descriptor at 0x9000 with one region at 0xA000, and one that breaks its limits. -/
theorem witness_takeover_and_checkpoint :
    let s := system 47 0
    let used := { s with dies := s.dies.map (fun d => { d with spused := true }) }
    let dead := { s with dies := s.dies.map (fun d => { d with live := 0 }) }
    let bs := leBytes 8 0xA000 ++ leBytes 4 1 ++ leBytes 2 0 ++ leBytes 2 1 ++ leBytes 8 0 ++ leBytes 8 4096 ++ leBytes 8 0xC000 ++ leBytes 8 7
    let region := leBytes 8 0x9000 ++ leBytes 8 0 ++ leBytes 2 16 ++ leBytes 1 1 ++ leBytes 5 0 ++ leBytes 16 0 ++ leBytes 4 1 ++ leBytes 20 0
    let ck := withBytes (withBytes (system 0x9000 0) 0x9000 bs) 0xA000 region
    let rd := loadMany ck ((whoGroup ck (unitOf ck).key (unitOf ck).g).ofThread (unitOf ck).key (lowest (unitOf ck).f.lanes)) 0x9000 48
    let st := startCheckpoint rd.1 0 { Checkpoint.reset with holder := some (askerOf ck (unitOf ck)), body := leBytes 16 0 ++ bs, ctx := 0, priv := true }
    Scalars s 47 0 ∧ (unitOf s).f.hold ≠ .word ∧ (coreOf s 47).stopBy = none ∧ corePart s 47 = (launchHere s).part ∧ coreLive s 47 = true ∧
      ((s.dies[47 / 16]?).getD Die.reset).spused = false ∧
      Scalars used 47 0 ∧ ((used.dies[47 / 16]?).getD Die.reset).spused = true ∧ coreLive used 47 = true ∧
      Scalars dead 47 0 ∧ coreLive dead 47 = false ∧
      Scalars ck 0x9000 0 ∧ resultOf ck (unitOf ck) = none ∧ (checkpointOf ck 0).holder ≠ some (askerOf ck (unitOf ck)) ∧
      (rd.2.toOption = some bs ∧ settles ck rd.1 (unitOf ck).key = true) ∧ ckRunning ck 0 = false ∧ checkpointBad (leBytes 16 0 ++ bs) = none ∧
      st.2 = .started ∧ checkpointBad (leBytes 64 0) ≠ none := by
  refine ⟨scalars (by decide +kernel), by decide +kernel, by decide +kernel, by decide +kernel, by decide +kernel, by decide +kernel,
    scalars (by decide +kernel), by decide +kernel, by decide +kernel, scalars (by decide +kernel), by decide +kernel,
    scalars (by decide +kernel), ?_⟩
  decide +kernel

end Sys2Proof.Tests
end

