-- ==== Sys2Proof/Tests/WitnessEvents.lean ====
section
/-!
SUPPORT. Witnesses of the statements about headers, clocks, the host and management ports, packets and launches.
-/
namespace Sys2Proof.Tests

open Sys2Proof
open Sys2Proof.Machine

set_option Elab.async false

/-- The placed package with its fragment changed, and with what an event carries. -/
@[irreducible] def waiting (f : Frag → Frag) (p : Pick := {}) : State := withGroup p.at (fun g => { g with frags := g.frags.map f })
@[irreducible] def told (s : State) (x : Input) : State := { s with input := x }

def holdAt (h : Hold) (clock : Nat) : State := { waiting (fun f => { f with hold := h, since := 7 }) with clock := clock }

/-- A fragment whose yield ends at clock 10. -/
def yielded (clock : Nat) : State := { waiting (fun f => { f with rest := 10 }) with clock := clock }

/-! ### Headers and clocks -/

/-- The package at a header word, of which the fragment stands outside its clause. -/
@[irreducible] def atHeader (h : Word) : State :=
  { waiting (fun f => { f with clause := none, pc := 0x8000 }) with cur := some ⟨0, 1, 0x8000, [h], none⟩ }

/-- HeadersEnterTheirClauses: no header, one without WAIT, one that waits for the last counter, and a safe point with no stop, with a
stop asked for, with a frozen context and with one pending trap. -/
theorem witness_headers :
    let good : Word := 0x10000005
    let waits : Word := 0x11000005
    let safe : Word := 0x10000015
    let one := withGroup (atHeader waits) (fun g => setCounter g 11 { counterOf g 11 with val := 1 })
    let stops := withGroup (atHeader safe) (fun g => { g with stopping := true })
    let ice := { atHeader safe with ctxs := [(0, { Ctx.reset with frozen := true })] }
    let p : Pending := ⟨22, 256, 256, 0, none, some (1, some 0x8000)⟩
    let traps := withGroup (atHeader safe) (fun g => { g with pending := [p] })
    (∀ x ∈ ([(atHeader 0, 0), (atHeader good, good), (one, waits), (atHeader safe, safe), (stops, safe), (ice, safe), (traps, safe)] : List (State × Word)),
      HeaderAt x.1 (unitOf x.1) (launchHere x.1) (gangHere x.1) x.2) ∧
    hdrOk 0 = false ∧ hdrOk good = true ∧ hdrOk waits = true ∧ hdrOk safe = true ∧ good.getLsbD 4 = false ∧ safe.getLsbD 4 = true ∧
    WaitMet (unitOf (atHeader good)).g good ∧ ¬ WaitMet (unitOf one).g waits ∧
    (∀ s ∈ [atHeader safe, stops, ice, traps], (unitOf s).g.rdv = [] ∧ ∀ c ∈ (coreOf s 0).code, c.2.en = false) ∧
    (unitOf stops).g.stopping = true ∧ (unitOf ice).g.stopping = false ∧ (ctxOf ice (launchHere ice).ctx).frozen = true ∧
    (unitOf traps).g.pending = [p] ∧ TakenAt (unitOf traps).f p ∧ (gangHere traps).mode = none ∧ (unitOf traps).g.mode = none ∧
    (ctxOf traps (launchHere traps).ctx).attach = false ∧
    ¬ TakenAt (unitOf traps).f ⟨22, 256, 256, 0, none, some (1, some 0x8004)⟩ := by
  refine ⟨?_, ?_⟩
  · intro x hx
    simp only [List.mem_cons, List.not_mem_nil, or_false] at hx
    rcases hx with rfl | rfl | rfl | rfl | rfl | rfl | rfl <;>
      exact ⟨issue_unit (by decide +kernel), by decide +kernel, launch_here (by decide +kernel), gang_here (by decide +kernel),
        by decide +kernel, by decide +kernel, by decide +kernel⟩
  · refine ⟨by decide +kernel, by decide +kernel, by decide +kernel, by decide +kernel, by decide +kernel, by decide +kernel,
      by unfold WaitMet; decide +kernel, by unfold WaitMet; decide +kernel, by decide +kernel, by decide +kernel, by decide +kernel,
      by decide +kernel, by decide +kernel, fun m a h => ?_, by decide +kernel, by decide +kernel, by decide +kernel, fun h => ?_⟩
    · cases h; exact ⟨by decide +kernel, fun pc h => by cases h; decide +kernel⟩
    · exact absurd ((h 1 (some 0x8004) rfl).2 0x8004 rfl) (by decide +kernel)

/-- ClocksAndCountersMoveOn: a sleep in its last clock and after it, a yield in its last clock and after it, a hold in its last clock and after it, a word without
a frame, and a fragment whose spin-lowering ends. -/
theorem witness_hold_clocks :
    (∀ x ∈ [holdAt (.sleep 10 20) 9, holdAt (.sleep 10 20) 10, yielded 9, yielded 10, holdAt (.kadd 11) 105006,
        holdAt (.kadd 11) 105007, holdAt (.noFrame 4095 9) 16392, holdAt (.noFrame 4095 9) 16393],
      x.input.key = 0 ∧ groupOf x 0 = some (unitOf x).g ∧ fragAt (unitOf x).g 0 = some (unitOf x).f ∧
        trapAllows 0 (unitOf x).g (gangHere x) (unitOf x).f = true ∧ (gangHere x).halted = none ∧ (gangHere x).climbed = none ∧
        (unitOf x).g.stopping = false) ∧
    TimedHold (.kadd 11) ∧ (unitOf (holdAt (.kadd 11) 105007)).f.since + 105000 = 105007 ∧
    (unitOf (yielded 9)).f.rest = 10 ∧
    (let s := withGroup (told { holdAt .ready 5000 with clock := 5000 } { sub := 0 }) (fun g => { g with spins := [⟨0, 0x8004, 64, true, [], some 904, 0x8000, true, []⟩] })
     groupOf s 0 = some (unitOf s).g ∧ (unitOf s).g.spins.map (·.lowered) = [some 904] ∧ 904 + 4096 ≤ s.clock) := by
  refine ⟨by decide +kernel, .inr (.inr (.inr (.inr (.inr (.inl ⟨_, rfl⟩))))), by decide +kernel, by decide +kernel, by decide +kernel⟩

/-- ClocksAndCountersMoveOn: a rendezvous in its last clock and after it; the team's urgent group; a gang that all waits for registers, for
no time, for less and for as long as it may. -/
theorem witness_gang_clocks :
    let r : Rendezvous := ⟨.voteAny none 0 4 4, 1, 0x8004, 3, 3, 1, 1, [], [], [], 5⟩
    let met := withGroup (told (Pick.at { created := 3 }) { sub := 0x8004 }) (fun g => { g with rdv := [r] })
    let starved := fun (d : Option Nat) (c : Nat) => withGang { told (waiting (fun f => { f with hold := .ralloc 1 5 1 })) { key := unitGang } with clock := c }
      (fun q => { q with deadlock := d })
    let team := told (Pick.at {}) { key := unitGang, sub := 0 }
    let marked := fun (c : Nat) => withGang { team with clock := c } (fun q => { q with teams := q.teams.map (fun x => { x with marked := some 5 }) })
    (groupOf met 0 = some (unitOf met).g ∧ (unitOf met).g.rdv.find? (fun r => r.addr == 0x8004) = some r ∧ gangOf met (unitOf met).g.gang = some (gangHere met) ∧
      (unitOf met).g.mode = none ∧ (gangHere met).mode = none ∧ (gangHere met).halted = none ∧ (gangHere met).climbed = none ∧
      { met with clock := 1048580 }.clock < r.since + 1048576 ∧ r.since + 1048576 ≤ { met with clock := 1048581 }.clock) ∧
    (gangOf team unitGang = some (gangHere team) ∧ 0 < (gangHere team).teams.length ∧ groupArrived (unitOf team).g false = false) ∧
    (∀ c ∈ [260, 261], ((gangHere (marked c)).teams[0]?).map (·.marked) = some (some 5)) ∧ (marked 260).clock < 5 + 256 ∧ 5 + 256 ≤ (marked 261).clock ∧
    gangStarved team unitGang = false ∧
    (∀ x ∈ [starved none 0, starved (some 5) 16388, starved (some 5) 16389], gangStarved x unitGang = true ∧
      gangOf x unitGang = some (gangHere x) ∧ (groupsOf x unitGang).head? = some (0, (unitOf x).g) ∧
      (unitOf x).g.frags.head? = some (unitOf x).f ∧ (unitOf x).f.hold = .ralloc 1 5 1) ∧
    (starved (some 5) 16389).clock = 5 + 16384 := by
  decide +kernel

/-- ClocksAndCountersMoveOn: a service of each rung in its last clock and after it; a counted load and a counted store whose parts have
all happened. -/
theorem witness_services_and_operations :
    let serves := fun (rung key clock : Nat) =>
      { told (Pick.at {}) { key := rung, sub := key } with clock := clock, services := [⟨rung, key, 5, 9, 0xFFFF⟩] }
    let owes : Owed := ⟨0, 0, 7, 9, 0⟩
    let op := fun (load : Bool) => { withGroup (told (Pick.at {}) { key := 1 }) (fun g =>
        setCounter g 11 { counterOf g 11 with val := 1, queue := [(1, false)] }) with
      ops := [(1, (⟨0, some 11, load, if load then [owes] else [], 0, true, false, false, false⟩ : Op))] }
    (∀ x ∈ [(0, 0, 105004), (0, 0, 105005), (1, unitGang, 1050004), (1, unitGang, 1050005), (2, 256 * unitGang, 10500004), (2, 256 * unitGang, 10500005), (3, 0, 21000005)],
      serviceAt (serves x.1 x.2.1 x.2.2) x.1 x.2.1 = some ⟨x.1, x.2.1, 5, 9, 0xFFFF⟩ ∧ (groupOf (serves x.1 x.2.1 x.2.2) 0).isSome = true ∧
        (gangHere (serves x.1 x.2.1 x.2.2)).halted = none ∧ gangCtx (serves x.1 x.2.1 x.2.2) unitGang = some 0) ∧
    (∀ v ∈ (serves 3 0 5).services.filter (fun v => v.rung = 3), v = ⟨3, 0, 5, 9, 0xFFFF⟩) ∧ ((serves 3 0 5).services.filter (fun v => v.rung = 3)).length = 1 ∧
    (gangOf (serves 2 (256 * unitGang) 5) (256 * unitGang / 256)).isSome = true ∧
    5 + rungClocks 0 = 105005 ∧ 5 + rungClocks 1 = 1050005 ∧ 5 + rungClocks 2 = 10500005 ∧ 5 + rungClocks 3 = 21000005 ∧
    ∀ load : Bool, let s := op load
      ∃ o, tfind s.ops 1 = some o ∧ o.load = load ∧ groupOf s o.group = some (unitOf s).g ∧ o.counter = some 11 ∧ o.issued = true ∧ o.waits = 0 ∧
        11 < (unitOf s).g.counters.length ∧ (counterOf (unitOf s).g 11).queue = [(1, false)] ∧ 0 < (counterOf (unitOf s).g 11).val ∧
        (∀ j < 11, (counterOf (unitOf s).g j).queue = []) ∧ (∀ w ∈ o.owed, w.group = o.group ∧ w.lane ≤ 64 ∧ w.reg < 8 * (unitOf s).g.held) ∧
        o.owed.Pairwise (fun x y => (x.lane, x.reg) ≠ (y.lane, y.reg)) ∧ s.requests = [] := by
  refine ⟨by decide +kernel, by decide +kernel, by decide +kernel, by decide +kernel, by decide, by decide, by decide, by decide, fun load => ?_⟩
  cases load
  · exact ⟨⟨0, some 11, false, [], 0, true, false, false, false⟩, by decide +kernel⟩
  · exact ⟨⟨0, some 11, true, [⟨0, 0, 7, 9, 0⟩], 0, true, false, false, false⟩, by decide +kernel⟩

/-! ### Host functions and the management port -/

/-- The placed package with functions 1 and 2 bound to partition 5, of which 2 is frozen, and with what an event carries. -/
@[irreducible] def bound (s : State) (x : Input) : State :=
  { s with input := x, funcs := [Func.reset 16, { Func.reset 2 with part := 5 }, { Func.reset 2 with part := 5, frozen := true }, Func.reset 2] }

/-- HostRegistersReachTheirPartition, HostPortEventsAct: functions that are frozen, unbound and outside their set, PF0, and a function
that reaches a register of its partition. -/
theorem witness_ports :
    let s := fun (fn : Nat) => bound (Pick.at {}) { fn := fn }
    let five := bound { Pick.at {} with ctxs := [(1, Ctx.reset)] } { fn := 1, key := 0x460500 }
    PortShut (s 2) (some 5) ∧ PortShut (s 3) none ∧ PortShut (s 7) none ∧ PortBreach (s 1) none ∧ PortBreach (s 1) (some (ctxPart (s 1) 0)) ∧
      ¬ PortBreach (s 0) none ∧ PortOpen (s 0) none ∧ PortOpen (s 0) (some (ctxPart (s 0) 0)) ∧ PortOpen five (regPart five 0x460500) ∧
      hostForms (s 0) ≠ [] ∧ (hostForms (bound (Pick.at {}) { key := 65536 })).length = 5 := by
  refine ⟨?_, ?_, ?_, ?_⟩
  · intro f h
    have : some f = some { Func.reset 2 with part := 5, frozen := true } := by rw [← h]; decide +kernel
    cases this; exact .inr ⟨rfl, .inr rfl⟩
  · intro f h
    have : some f = some (Func.reset 2) := by rw [← h]; decide +kernel
    cases this; exact .inl ⟨by decide +kernel, rfl⟩
  · intro f h
    have : (some f : Option Func) = none := by rw [← h]; decide +kernel
    cases this
  · refine ⟨⟨by decide +kernel, { Func.reset 2 with part := 5 }, by decide +kernel⟩, ⟨by decide +kernel, { Func.reset 2 with part := 5 }, by decide +kernel⟩,
      fun h => absurd h.1 (by decide +kernel), ⟨Func.reset 16, by decide +kernel⟩, ⟨Func.reset 16, by decide +kernel⟩,
      ⟨{ Func.reset 2 with part := 5 }, by decide +kernel⟩, by decide +kernel⟩

/-- HostRegistersReachTheirPartition: the last queue off, on, with a misplaced ring, of no valid context, full and too full by the tail that
is written; contexts with a trap, and with a halted gang and group; gangs named with and without trap mode and save area. -/
theorem witness_host_registers :
    let q := fun (x : Queue) (tail : Nat) => told (withQueue (validCtx (Pick.at {})) 65535 x) { key := 65535, value := BitVec.ofNat 64 tail }
    let held := { Pick.at {} with ctxs := [(0, { Ctx.reset with pend := true, frozen := true, held := some unitGang })] }
    let halt : Halt := ⟨some 0, 0, ⟨22, 0, 0, 0, none, none⟩, { (default : TrapRegs) with tclass := 22 }, true, 0⟩
    let stops := withGang { Pick.at {} with ctxs := [(0, { Ctx.reset with halted := some unitGang })] } (fun q => { q with halted := some halt })
    let two := { Pick.at {} with ctxs := [(0, { Ctx.reset with pend := true, frozen := true, held := some unitGang, more := [(9, 1, unitGang + 7)] })] }
    let asked := withGang { Pick.at {} with ctxs := [(0, { Ctx.reset with halted := some unitGang })] } (fun q => { q with halted := some { halt with told := false } })
    let gang := Pick.at {}
    let trap := withGang gang (fun q => { q with mode := some default })
    let area := withBytes gang 0x28 (leBytes 8 0xC000 ++ leBytes 4 1 ++ leBytes 1 12)
    let x := freeSlot (setLatch area 0 0x490000 []) (whoCtx area 0 true) (saveArea area 0) [] (List.range (saveArea area 0).n)
    let off := q (ring 0 0 0) 0
    let on := q (ring 1 0xFFFFFFFF 0) 15
    (queueOf off 65535).state = 0 ∧ ctxValid off (queueOf off 65535).ctx.toNat = true ∧ (queueOf off 65535).rbase.toNat % 256 = 0 ∧
    (queueOf on 65535).state = 1 ∧ (on.input.value.setWidth 32 - (queueOf on 65535).head).toNat = 2 ^ (queueOf on 65535).log2n ∧
    2 ^ (queueOf on 65535).log2n < ((16 : BitVec 32) - (queueOf on 65535).head).toNat ∧
    (queueOf (q { ring 0 0 0 with rbase := 0xC001 } 0) 65535).rbase.toNat % 256 ≠ 0 ∧ ctxValid (q (ring 0 0 0) 0) 1 = false ∧
    (ctxOf held 0).pend = true ∧ (ctxOf held 0).held = some unitGang ∧ (ctxOf held 0).frozen = true ∧ gangCtx held unitGang = some 0 ∧
    (ctxOf held 0).more = [] ∧ (ctxOf two 0).more = [(9, 1, unitGang + 7)] ∧ (∀ x ∈ (ctxOf two 0).more, (ctxOf two 0).held ≠ some x.2.2) ∧
    gangOf asked unitGang = some (gangHere asked) ∧ ((gangHere asked).halted.map (·.told)) = some false ∧
    (ctxOf stops 0).halted = some unitGang ∧ gangOf stops unitGang = some (gangHere stops) ∧ (gangHere stops).halted = some halt ∧
    groupOf stops 0 = some (unitOf stops).g ∧ fragAt (unitOf stops).g 0 = some (unitOf stops).f ∧
    (namedGang gang 0).isSome = true ∧ gang.saves = [] ∧ inTrapMode gang unitGang (gangHere gang) = false ∧ (saveArea gang 0).base = 0 ∧
    inTrapMode trap unitGang (gangHere trap) = true ∧ (saveArea area 0).base ≠ 0 ∧ x.2 = .slot 0 ∧ quiet (setLatch area 0 0x490000 []) x.1 = true := by
  decide +kernel

/-- HostPortEventsAct: a fenced die and the free one; a half that runs a gang; a bank whose first word is named; nonces; registers that a
write reaches; masked and unmasked entries; a host write up to the end of its line; a read of each kind that the link owes. -/
theorem witness_host_port :
    let s := bound (Pick.at {}) {}
    let dies := { s with dies := [Die.reset, { Die.reset with fenced := true }, Die.reset] }
    let busy := ({ Die.reset with partlo := 0 } : Die)
    let req := fun (kind : Nat) => { (default : Request) with tag := 5, kind := kind, addr := 2 ^ 56 + 128, size := 16, word := 9, sent := true }
    let owes := fun (kind : Nat) => told { s with requests := [req kind] } { key := 5 }
    let posted := told { s with mem := { s.mem with posted := [2 ^ 49 + 3] } } { key := 2 ^ 49 + 3, sub := 1 }
    (dies.dies[1]?).map (·.fenced) = some true ∧ (dies.dies[2]?).map (·.fenced) = some false ∧ (5 : Nat) % 8 ≠ 6 ∧
    (gangHere s).cores = [0] ∧ busy.partlo ≠ 1 ∧
    unitExists 0x6000 = true ∧ unitExists 0x6001 = false ∧ (tget 0 s.banks 0x6000).toNat % 2 ^ 64 = 0 ∧
    (List.replicate 32 (0 : Byte)).length = 32 ∧ s.identity.nonce = [] ∧ s.identity.ready = false ∧
    regAt 0x470008 = none ∧ regPart s 0x470008 = none ∧ (∀ o ∈ [0x470128, 0x820000, 0x420000, 0x4503F8, 0x410000], (regAt o).isSome = true ∧ regPart s o = none) ∧
    (s.funcs[3]?).isSome = true ∧ (∀ r ∈ s.requests, ¬(r.kind = 1 ∧ r.peer = none ∧ r.sent = false)) ∧
    (let e := s.mem.entry (0x807F / 65536); s.inbound = [] ∧ 0x807F % 128 + 1 = 128 ∧ IndV e = true ∧ IndDropped e = false ∧ IndTierX e = false ∧
      s.mem.symErr = [] ∧ s.mem.chans = [] ∧ s.mem.inter = []) ∧
    hostRequest s 5 = none ∧ (∀ k ∈ [3, 4, 6], hostRequest (owes k) 5 = some (req k)) ∧ (2 ^ 56 + 128) % 128 = 0 ∧
    posted.input.sub = 1 ∧ posted.input.key ∈ posted.mem.posted ∧ tget 0 posted.banks 0x5000 = 0 := by
  decide +kernel

/-- HostPortEventsAct: a half-die on which a gang is resident may not change partition, and one that runs none may. -/
theorem witness_halves : let s := bound (Pick.at {}) {}; HalfBusy s 0 0 0 ∧ ¬ HalfBusy s 2 1 0 := by
  refine ⟨.inl ⟨(unitGang, gangHere (bound (Pick.at {}) {})), by decide +kernel⟩, ?_⟩
  unfold HalfBusy; decide +kernel

/-- PowerAndManagementEventsAct: telemetry before its period ends and at its end; power that has failed and that fails; drain areas of which
the first and the second is newer, and none; images that boot and that do not; requests of each length, at the ends of their ranges. -/
theorem witness_power_and_management :
    let s := Pick.at {}
    let data := fun (bs : List Byte) => told s { request := ⟨1, 0, bs, true⟩ }
    let flash := fun (a b : List Byte) => { Flash.reset with areaA := a, areaB := b }
    { s with clock := 1049999 }.clock < 1050000 * (s.mem.periods + 1) ∧ 1050000 * (s.mem.periods + 1) ≤ { s with clock := 1050000 }.clock ∧
    s.power.failed = false ∧ newerArea (flash [] []) = none ∧
    (∀ n ∈ [0, 1, 3, 5, 32], (data (List.replicate n 15)).input.request.data.length = n ∧ (data (List.replicate n 15)).input.request.onePacket = true ∧
      (data (List.replicate n 15)).input.request.zero = 0) ∧
    field [0, 0x60, 3] 0 2 = 0x6000 ∧ unitExists 0x6000 = true ∧ field [0, 0x60, 3] 2 1 = 3 ∧ field [0, 0, 48] 2 1 = 48 ∧
    { Identity.reset with nonce := [1] }.nonce ≠ [] := by
  decide +kernel

/-- PowerAndManagementEventsAct: a drain area that holds a valid image, as the first and as the second. -/
theorem witness_drain_areas : let body := leBytes 4 0x4E494144 ++ leBytes 60 1
    let area := body ++ digest64 body
    newerArea { Flash.reset with areaA := area } = some true ∧ newerArea { Flash.reset with areaB := area } = some false := by
  intro body area
  have hl : (digest64 body).length = 64 := by simp [digest64]
  have hb : body.length = 64 := by decide
  have hv : drainValid area = true := by
    have hd : area.drop (area.length - 64) = digest64 body := by simp [area, hl, hb]
    have ht : area.take (area.length - 64) = body := by simp [area, hl, hb]
    have hf : field area 0 4 = 0x4E494144 := by simp [area, body, field, leBytes]; decide
    simp [drainValid, hd, ht, hf]; simp [area, hl, hb]
  have he : drainValid [] = false := by decide
  simp [newerArea, hv, he, Flash.reset]

/-! ### Packets -/

/-- Queue 5 with its ring at 0xC000, some bytes there, and what an event carries. -/
@[irreducible] def ringing (x : Queue) (bs : List Byte) : State :=
  told (withQueue (withBytes (validCtx (Pick.at {})) 0xC000 bs) 5 x) { key := 5 }

def fetched (s : State) : State × Except (XBad × Nat) (List Byte) := loadMany s (whoCtx s 0 false) 0xC000 256

/-- PacketsRunInOrder: a queue with nothing to fetch, one whose ring is overrun, and the packets at HEAD: a marker, one of no type, a launch,
one of a FORMAT that there is not, and one that asks for privilege. -/
theorem witness_packet_fetch :
    let pad := fun (bs : List Byte) => bs ++ List.replicate (256 - bs.length) 0
    let short := pad (leBytes 4 0x100006)
    let of := fun (bs : List Byte) => ringing (ring 1 0 16) bs
    ¬ Fetches (of []) 6 ∧ Fetches (of []) 5 ∧ ((queueOf (of []) 5).tail - (queueOf (of []) 5).head).toNat = 2 ^ (queueOf (of []) 5).log2n ∧
    Fetches (ringing (ring 1 0 17) []) 5 ∧ 2 ^ (ring 1 0 17).log2n < ((ring 1 0 17).tail - (ring 1 0 17).head).toNat ∧
    packetBad (pad (leBytes 4 0x200004 ++ leBytes 12 0 ++ leBytes 1 9)) true = none ∧
    (∀ bs ∈ [short, pad (leBytes 4 0x200004 ++ leBytes 12 0 ++ leBytes 1 9), pad [7], wordRecord, leBytes 1 1 ++ leBytes 2 0 ++ wordRecord.drop 3], (fetched (of bs)).2.toOption = some bs ∧
      (fetched (of bs)).1.queues = (of bs).queues ∧ (fetched (of bs)).1.packets = (of bs).packets) ∧
    packetBad short false = none ∧ field short 0 1 ≠ 1 ∧ packetBad (pad [7]) false = some 0 ∧ packetBad wordRecord false = none ∧
    launchRefused (fetched (of wordRecord)).1 wordRecord 0 0 = none ∧ bit (field wordRecord 0x33 1) 2 = true ∧ (ring 1 0 16).privok = false := by
  unfold Fetches; decide +kernel

/-- A packet of queue 5 of a type, with its bytes from 0x10 on. -/
def packetWith (typ : Nat) (bs : List Byte) (started : Bool) (status : Option Nat) : Packet :=
  ⟨5, 0, 0, 1, leBytes 1 typ ++ leBytes 15 0 ++ bs, started, status, none, false⟩

@[irreducible] def withPacket (p : Packet) : State := told { ringing (ring 1 0 0) [] with packets := [(9, p)] } { key := 9 }

/-- A packet that stands alone may start. -/
theorem may_alone {s : State} {id : Nat} {p : Packet} (h : s.packets.map (·.1) = [id] ∧ p.started = false ∧ p.stopped = false ∧
    (queueOf s p.queue).state = 1) : PacketMay s id p := by
  obtain ⟨h1, h2, h3, h4⟩ := h
  refine ⟨h2, h3, .inl h4, fun y hy _ hlt => ?_⟩
  have := List.mem_map_of_mem (f := (·.1)) hy
  rw [h1] at this; simp at this; omega

/-- PacketsRunInOrder: packets of each type that may start, with their operands; a dependency that has started and whose word is there;
a packet that has completed. -/
theorem witness_packets :
    let dep := fun (op : Nat) => withPacket (packetWith 3 (leBytes 8 0x9000 ++ leBytes 8 0 ++ leBytes 1 op ++ leBytes 15 0) false none)
    let began := fun (op : Nat) => withPacket (packetWith 3 (leBytes 8 0x9000 ++ leBytes 8 0 ++ leBytes 1 op ++ leBytes 15 0) true none)
    let copy := told { withPacket (packetWith 2 (leBytes 48 0) false none) with gangs := [] } { key := 9, sub := 0 }
    let w := fun (s : State) => whoCtx s 0 false
    let done := packetWith 6 [] true (some 2)
    (∀ typ ∈ [1, 2, 3, 4, 5, 6], let p := packetWith typ (leBytes 48 0) false none
      tfind (withPacket p).packets 9 = some p ∧ PacketMay (withPacket p) 9 p ∧ typeOf p = typ) ∧
    ¬ PacketMay (withPacket done) 9 done ∧
    (coreLive copy 0 = true ∧ corePart copy 0 = 0 ∧ copyEntries copy 0 < 128) ∧
    (reachesDevice (translate (dep 2) (w (dep 2)) .atomic false 0x9000) = true ∧
      Sound (translate (dep 2) (w (dep 2)) .atomic false 0x9000).1 (w (dep 2)).part ∧
      (translate (dep 2) (w (dep 2)) .atomic false 0x9000).1.packets = (dep 2).packets) ∧
    (reachesDevice (translate (dep 3) (w (dep 3)) .store false 0x9000) = true ∧
      Sound (translate (dep 3) (w (dep 3)) .store false 0x9000).1 (w (dep 3)).part ∧
      (translate (dep 3) (w (dep 3)) .store false 0x9000).1.packets = (dep 3).packets) ∧
    (∀ op ∈ [0, 1], (loadBytes (began op) (w (began op)) .load 0x9000 8).2.toOption = some (leBytes 8 0) ∧
      tfind (loadBytes (began op) (w (began op)) .load 0x9000 8).1.packets 9 = tfind (began op).packets 9) ∧
    StatusIs (withPacket done) done 2 ∧ field done.bytes 8 8 = 0 ∧ StatusNone (withPacket (packetWith 6 [] true none)) (packetWith 6 [] true none) := by
  refine ⟨?_, fun h => absurd h.1 (by decide +kernel), by decide +kernel, by unfold Sound; decide +kernel, by unfold Sound; decide +kernel,
    by decide +kernel, .inl ⟨rfl, fun _ => rfl⟩, by decide +kernel, ?_⟩
  · intro typ ht
    exact ⟨by revert typ; decide +kernel, may_alone (by revert typ; decide +kernel), by revert typ; decide +kernel⟩
  rintro n (h | ⟨-, h, -⟩)
  · cases h.1
  · exact absurd h (by decide)

/-- PacketsRunInOrder: a checkpoint packet with one region, whose MAGIC can be written; a checkpoint whose last unit has been written, and one
whose writes have all been performed. -/
theorem witness_checkpoint_packet :
    let region := leBytes 8 0x9000 ++ leBytes 8 0 ++ leBytes 2 16 ++ leBytes 1 1 ++ leBytes 5 0 ++ leBytes 16 0 ++ leBytes 4 1 ++ leBytes 20 0
    let p := packetWith 5 (leBytes 8 0xA000 ++ leBytes 4 1 ++ leBytes 4 0 ++ leBytes 8 0 ++ leBytes 8 16 ++ leBytes 8 0xC000 ++ leBytes 8 7) false none
    let s := withBytes (withPacket p) 0xA000 region
    let w := whoCtx s 0 false
    let r := loadMany s w 0xA000 64
    let m := ckStore r.1 w 0 0xC000 (leBytes 4 0)
    let ck := fun (state : Nat) => told { ringing (ring 1 0 0) [] with checkpoints := [(0, { Checkpoint.reset with state := state })] } { key := 0 }
    PacketMay s 9 p ∧ (checkpointOf s 0).state = 0 ∧ r.2.toOption = some region ∧ regionBad region = false ∧
    (regionEntries 1 region).foldl (fun n e => n + regionBytes e) 0 ≤ 16 ∧ m.2.toOption = some () ∧ m.1.packets = s.packets ∧ p.bytes.length = 64 ∧
    (∀ n ∈ [1, 2], (checkpointOf (ck n) 0).state = n ∧ ckPerformed (ck n) 0 = true) ∧ ckTotal (checkpointOf (ck 1) 0) ≤ (checkpointOf (ck 1) 0).units := by
  refine ⟨may_alone (by decide +kernel), ?_⟩
  decide +kernel

/-! ### Launches -/

/-- The placed launch with nothing resident, one gang of it to be placed on die 0 since clock 5, and what an event carries. -/
@[irreducible] def launched (f : Launch → Launch) (x : Input) (clock : Nat) : State :=
  { told (withLaunch (Pick.at {}) (fun l => f { l with unplaced := [(0, 5)], dieOf := [(0, 1, 0)], queue := 65536, seq := 1 })) x with
    groups := [], gangs := [], cores := [], clock := clock }

def theLaunch (s : State) : Launch := (launchOf s 1).getD (newLaunch [] 0 0 0 0 0 0)

/-- LaunchesRunTheirGangs: a launch that waits for admission; a gang that its die's placer takes, with room and without; a gang in its last
clock before it blocks and after it; launches that have ended in each way. -/
theorem witness_launches :
    let s := launched id {} 0
    let waits := launched (fun l => { l with admitted := false, unplaced := [] }) {} 0
    let full := { s with dies := s.dies.map (fun d => { d with live := 0 }) }
    let before := launched id { key := 1, sub := 0 } 1050004
    let late := launched id { key := 1, sub := 0 } 1050005
    let gone := launched (fun l => { l with unplaced := [], done := 1 }) { key := 1 } 0
    Waits 0 (theLaunch waits) ∧ launchOf waits 1 = some (theLaunch waits) ∧ waits.launches.length = 1 ∧ 0 < weightOf waits 65536 ∧
      (theLaunch waits).killed = false ∧
    placerOrder s 1 = [] ∧ placerOrder s 0 = [(1, theLaunch s)] ∧ launchOf s 1 = some (theLaunch s) ∧ Chosen s 0 1 (theLaunch s) 0 ∧
    blockedBy s 0 1 (theLaunch s) 0 = false ∧ wholeCoop (theLaunch s) = false ∧ (theLaunch s).saved = [] ∧ recScratch (theLaunch s) = 0 ∧
    (placeFirst s 1 (theLaunch s) 0 (freshGroups (theLaunch s)) [] (unitsOf 0 (recShape (theLaunch s)))).isSome = true ∧
    (placeFirst full 1 (theLaunch full) 0 (freshGroups (theLaunch full)) [] (unitsOf 0 (recShape (theLaunch full)))).isSome = false ∧
    ¬ (∃ x ∈ (theLaunch before).unplaced, x.1 = 0 ∧ x.2 + 1050000 ≤ before.clock) ∧
    (∃ x ∈ (theLaunch late).unplaced, x.1 = 0 ∧ x.2 + 1050000 ≤ late.clock) ∧
    (theLaunch gone).admitted = true ∧ recGangs (theLaunch gone) ≤ (theLaunch gone).done ∧ gone.gangs = [] ∧ (theLaunch gone).queue = 65536 := by
  unfold Waits Chosen; decide +kernel

/-- LaunchesRunTheirGangs: a group that is over, with the gang's other group there and without; a regeneration in its last clock and after it;
a save whose gang has not stopped, in its last clock and after it; a core that is to be taken over, while a gang runs on it, while none
does, and with the die's spare used; a takeover in its last clock and after it. -/
theorem witness_limits :
    let gone := fun (more : List (Nat × Group)) =>
      let s := withGroup (Pick.at {}) (fun g => { g with exited := g.created })
      told { s with groups := s.groups ++ more } {}
    let regen := fun (clock : Nat) => let s := Pick.at {}
      told { s with clock := clock, mem := { s.mem with services := [⟨7, 0, some (5, 0), none, 5, 0, false⟩] } } { key := 7 }
    let save := fun (clock : Nat) => told { Pick.at {} with clock := clock, saves := [⟨unitGang, 0, 0, 5, none, some 1⟩] } { key := unitGang }
    let due := fun (k : Nat) => told { Pick.at {} with events := [1, 2].map (fun n => ({ unit := k + k / 16, cause := 0x25, sev := 1, synd := n } : Event)) } { key := k }
    let taken := fun (clock : Nat) => setCore { withLaunch (Pick.at {}) (fun l => recordWith l 0x33 (leBytes 1 6)) with clock := clock } 0 { coreOf (Pick.at {}) 0 with stopBy := some 5 }
    GroupOver (gone []) 0 (unitOf (gone [])).g ∧ groupOf (gone []) 0 = some (unitOf (gone [])).g ∧ (gone []).saves = [] ∧
    GroupOver (gone [(1, (unitOf (Pick.at {})).g)]) 0 (unitOf (gone [])).g ∧
    ((regenOf (regen 105000004).mem 7).map (·.since)) = some 5 ∧ (regen 105000004).clock < 5 + 105000000 ∧ 5 + 105000000 ≤ (regen 105000005).clock ∧
    (save 1050004).saves.find? (·.gang == unitGang) = some ⟨unitGang, 0, 0, 5, none, some 1⟩ ∧ gangStopped (save 1050005) unitGang = false ∧
    (∀ k ∈ [0, 47], (coreOf (due k) k).stopBy = none ∧ takeoverDue (due k) (unitCore (due k) k) = true ∧ coreLive (due k) k = true ∧
      (∀ c ∈ (due k).cores, c.2.stopBy = none)) ∧
    (∀ x ∈ (due 47).gangs, 47 ∉ x.2.cores) ∧ (∃ x ∈ (due 0).gangs, 0 ∈ x.2.cores ∧ gangAtRest (due 0) x.1 = false) ∧
    (let s := taken 1050005
     s.upsets = [] ∧ (coreOf s 0).stopBy = some 5 ∧ 5 + 1050000 ≤ s.clock ∧ OnlyTaken s 0 ∧ coreLive s 0 = true ∧
       s.gangs.filter (fun x => x.2.cores.contains 0 && !gangAtRest s x.1) = [(unitGang, gangHere s)] ∧ recRestart (launchHere s) = true ∧
       (launchHere s).destroyed = false ∧ tget 0 (launchHere s).again (gangHere s).index < 3) := by
  refine ⟨?_, by decide +kernel, by decide +kernel, ?_, ?_⟩
  · refine ⟨by decide +kernel, by decide +kernel, by decide +kernel, by decide +kernel, by decide +kernel, by decide +kernel, by decide +kernel, ?_⟩
    intro q hq
    have : some q = some (gangHere (Pick.at {})) := by rw [← hq]; decide +kernel
    cases this; decide +kernel
  · refine ⟨by decide +kernel, by decide +kernel, by decide +kernel, by decide +kernel, by decide +kernel, by decide +kernel, by decide +kernel, ?_⟩
    intro q hq
    have : some q = some (gangHere (Pick.at {})) := by rw [← hq]; decide +kernel
    cases this; decide +kernel
  · unfold OnlyTaken; decide +kernel

end Sys2Proof.Tests
end

