-- ==== Sys2Proof/Tests/WitnessScratch.lean ====
section
/-!
SUPPORT. Witnesses of the statements about scratchpad words: a gang with a scratchpad of two pages, of which the first, the second or both
stand in frames of its core.
-/
namespace Sys2Proof.Tests

open Sys2Proof
open Sys2Proof.Machine

set_option Elab.async false

/-- A gang with SCRATCH 4096, its backing area at 1 MiB, pages as given, there and in its table in memory, and frames 0 and 1 of core 0
taken by its pages 0 and 1. -/
@[irreducible] def paged (pages : List (Nat × Dword)) (p : Pick) : State :=
  let s := withLaunch (withGang p.at (fun q => { q with pages := rowsOf 0 pages }))
    (fun l => recordWith (recordWith l 0x28 (leBytes 4 4096)) 0x38 (leBytes 8 0x100000))
  let s := { s with mem := s.mem.setEntry 16 (indEntry true false false false false false 0 16) }
  let s := { s with mem := s.mem.store 0 0x100000 (pages.flatMap (fun e => leBytes 8 e.2.toNat)) }
  setCore s 0 { coreOf s 0 with b2 := 8, frames := [(0, ⟨unitGang, 0, [], 0, 1⟩), (1, ⟨unitGang, 1, [], 0, 1⟩)] }

/-- Both pages resident and clean, the second pinned `n` times. -/
def twoPages (n : Nat) : List (Nat × Dword) := [(0, pageEntry true true true false 0 0 0), (1, pageEntry true true true false 0 1 n)]

/-- One thread at SVA 4092, the last word below SCRATCH. -/
@[irreducible] def lastWord : State := paged (twoPages 0) { v := [(2, 4092), (3, 4080), (8, 7)] }

theorem calm_lastWord : ScratchCalm lastWord (unitOf lastWord) := by unfold ScratchCalm Plain; decide +kernel

/-- A page that stands in a frame, by what can be computed of it. -/
theorem here_of {s : State} {u : Issue} {sva core f : Nat} {x : Frame} {q : Gang} (h : gangOf s u.g.gang = some q)
    (h2 : (launchOf s q.launch).isSome = true ∧ pageState q (sva / 2048) = 2 ∧ tfind q.failed (sva / 2048) = none ∧
      (launchOf s q.launch).map (fun l => tableHere s q l (sva / 2048)) = some true ∧
      pageFrame q (sva / 2048) = some (core, f) ∧ frameOf s core f = some x) : HereAt s u sva core f x := by
  obtain ⟨hl, h3, h4, h5, h6⟩ := h2
  obtain ⟨l, hl⟩ := Option.isSome_iff_exists.1 hl
  exact ⟨q, l, h, hl, h3, h4, by simpa [hl] using h5, h6⟩

/-- ScratchpadLoadsReadTheirFrames, ScratchpadStoresWriteTheirFrames: the last word and the last quad below SCRATCH. -/
theorem witness_scratchpad_accesses : let u := unitOf lastWord
    issueOf lastWord = some u ∧ Fresh u ∧ ScratchCalm lastWord u ∧ RegsOk u.g [(4, 1), (2, 1)] ∧ RegsOk u.g [(4, 4), (3, 1)] ∧
      execLanes u none ≠ 0 ∧ SvaOk lastWord u none 4 (svaAt u 2 0 4) ∧ SvaOk lastWord u none 16 (svaAt u 3 0 16) ∧
      clauseSetA u.f = none ∧ (∀ c, clauseSetB u.f = some c → (counterOf u.g c).val < 255) ∧
      (∀ l, lane (execLanes u none) l = true → HereAt lastWord u (svaAt u 2 0 4 l) 0 1 ⟨unitGang, 1, [], 0, 1⟩ ∧
        Unmarked ⟨unitGang, 1, [], 0, 1⟩ (svaAt u 2 0 4 l % 2048) 4) ∧
      (∀ l, lane (execLanes u none) l = true → (⟨unitGang, 1, [], 0, 1⟩ : Frame).marks = 0 ∧
        ∃ home frame pin, home < 4 ∧ frame < 2048 ∧ pin < 16 ∧
          entryOf lastWord u (svaAt u 2 0 4 l / 2048) = pageEntry true true true false home frame pin) := by
  have hb : clauseSetB (unitOf lastWord).f = none := by decide +kernel
  refine ⟨issue_unit (by decide +kernel), by unfold Fresh; decide +kernel, calm_lastWord, by unfold RegsOk; decide +kernel,
    by unfold RegsOk; decide +kernel, by decide +kernel, each_lane (by decide +kernel), each_lane (by decide +kernel), by decide +kernel,
    (by rw [hb]; exact fun k hk => (by cases hk)), ?_, ?_⟩
  · intro l hl
    have : l ∈ lanesOf (execLanes (unitOf lastWord) none) := mem_lanesOf.2 ⟨hl, lane_lt hl⟩
    have he : lanesOf (execLanes (unitOf lastWord) none) = [0] := by decide +kernel
    rw [he] at this; simp only [List.mem_singleton] at this; subst this
    refine ⟨here_of (gang_here (by decide +kernel)) (by decide +kernel), ?_⟩
    unfold Unmarked; decide +kernel
  · intro l hl
    have : l ∈ lanesOf (execLanes (unitOf lastWord) none) := mem_lanesOf.2 ⟨hl, lane_lt hl⟩
    have he : lanesOf (execLanes (unitOf lastWord) none) = [0] := by decide +kernel
    rw [he] at this; simp only [List.mem_singleton] at this; subst this
    exact ⟨by decide +kernel, 0, 1, 0, by decide, by decide, by decide, by decide +kernel⟩

/-- A counted scratchpad load, with room on its counter. -/
theorem witness_counted_scratchpad_load :
    let s := paged (twoPages 0) { head := 0x48000005 + 2 ^ 9 * 11 + 2 ^ 5 * 10, v := [(2, 4092)] }
    let u := unitOf s
    issueOf s = some u ∧ clauseSetA u.f = some 11 ∧ (counterOf u.g 11).val < 255 ∧ clauseSetB u.f = some 10 ∧ (counterOf u.g 10).val < 255 := by
  refine ⟨issue_unit (by decide +kernel), ?_⟩; decide +kernel

/-- One lane of a scratchpad atomic whose page stands in a frame. -/
theorem one_scratchpad_atomic {u : Issue} {n : Nat} {va : Nat → Nat} {new : Nat → Nat → Nat} {s : State} {l core f : Nat} {x : Frame}
    (h : HereAt s u (va l) core f x) (hm : Unmarked x (va l % 2048) n) : ∃ old s', ScratchAtomicsGo u n va old new s [l] s' :=
  ⟨fun _ => _, _, core, f, x, h, hm, rfl, rfl⟩

@[irreducible] def lastWordCounted : State := counted lastWord (unitOf lastWord) none true

@[irreducible] def lastWordStored : State := counted lastWord (unitOf lastWord) none false

/-- ScratchpadStoresWriteTheirFrames: the lanes in order. -/
theorem witness_scratchpad_store_lanes : let u := unitOf lastWord
    ∀ bs, ScratchStoresGo u (svaAt u 2 0 4) bs (counted lastWord u none false) (lanesOf (execLanes u none)) := by
  intro u bs
  have he : lanesOf (execLanes (unitOf lastWord) none) = [0] := by decide +kernel
  have hs : counted lastWord (unitOf lastWord) none false = lastWordStored := by unfold lastWordStored; rfl
  have hg : gangOf lastWordStored (unitOf lastWord).g.gang = some (gangHere lastWord) := by decide +kernel
  have h1 : HereAt lastWordStored (unitOf lastWord) (svaAt (unitOf lastWord) 2 0 4 0) 0 1 ⟨unitGang, 1, [], 0, 1⟩ := by
    refine here_of hg ?_
    decide +kernel
  rw [he, hs]
  exact ⟨⟨_, _, _, h1⟩, trivial⟩

/-- ScratchpadAtomicsReadAndWriteOnce. -/
theorem witness_scratchpad_atomics : let u := unitOf lastWord
    RegsOk u.g ([(4, 1), (2, 1), (8, 1)] ++ (if (pfxGet none).cv then [(cOf none, 1)] else [])) ∧
      ∀ new, ∃ old s', ScratchAtomicsGo u 4 (svaAt u 2 0 4) old new (counted lastWord u none true) (lanesOf (execLanes u none)) s' := by
  refine ⟨by unfold RegsOk; decide +kernel, fun new => ?_⟩
  have he : lanesOf (execLanes (unitOf lastWord) none) = [0] := by decide +kernel
  have hs : counted lastWord (unitOf lastWord) none true = lastWordCounted := by unfold lastWordCounted; rfl
  have hg : gangOf lastWordCounted (unitOf lastWord).g.gang = some (gangHere lastWord) := by decide +kernel
  rw [he, hs]
  have h1 : HereAt lastWordCounted (unitOf lastWord) (svaAt (unitOf lastWord) 2 0 4 0) 0 1 ⟨unitGang, 1, [], 0, 1⟩ := by
    refine here_of hg ?_
    decide +kernel
  have h2 : Unmarked ⟨unitGang, 1, [], 0, 1⟩ (svaAt (unitOf lastWord) 2 0 4 0 % 2048) 4 := by
    unfold Unmarked; decide +kernel
  have h3 := one_scratchpad_atomic (new := new) h1 h2
  exact h3

/-- ScratchpadAddressesAreChecked: SCRATCH itself, and an address that is one byte off. -/
theorem witness_scratchpad_traps : ∀ x ∈ [4096, 4093], let s := paged (twoPages 0) { v := [(2, BitVec.ofNat 32 x)] }
    let u := unitOf s
    issueOf s = some u ∧ lane (execLanes u none) 0 = true ∧ RegsOk u.g [(4, 1), (2, 1)] ∧
      ¬ (svaAt u 2 0 4 0 < ((launchOfGroup s u.g).map recScratch).getD 0 ∧ svaAt u 2 0 4 0 % 4 = 0) := by
  intro x hx
  refine ⟨issue_unit (by revert x; decide +kernel), by revert x; decide +kernel, by unfold RegsOk; revert x; decide +kernel, by revert x; decide +kernel⟩

/-! ### Mapping words -/

/-- MappingWordsMapPagesAndReport: no Active lane; two resident pages up to SCRATCH; a range that ends beyond it, and a start that is no page's. -/
theorem witness_mapping_words :
    let off : Option Pfx := some ⟨0, false, false, false, 0, 0, false, 1⟩
    let s := paged (twoPages 3) { sc := [(8, 0), (9, 2048), (10, 2047)] }
    let u := unitOf s
    issueOf s = some u ∧ execLanes u off = 0 ∧ u.f.resumed = false ∧ execLanes u none ≠ 0 ∧ PagesOk s u 200 0 ((1 : BitVec 6).toNat + 1) ∧
      (0 : BitVec 2).toNat < ((gangOf s u.g.gang).map (·.cores.length)).getD 1 ∧
      (∀ i ≤ (1 : BitVec 6).toNat, ∃ core f x, HereAt s u (2048 * (0 + i)) core f x) ∧
      PagesOk s u 201 1 ((0 : BitVec 8).toNat + 1) ∧ (∀ i ≤ (0 : BitVec 8).toNat, (entryOf s u (1 + i)).extractLsb' 20 4 ≠ 0) ∧
      ((launchOfGroup s u.g).map recScratch).getD 0 < (sreg u.g 9).toNat + 2048 * ((1 : BitVec 6).toNat + 1) ∧ (sreg u.g 10).toNat % 2048 ≠ 0 := by
  refine ⟨issue_unit (by decide +kernel), by decide +kernel, by decide +kernel, by decide +kernel, by unfold PagesOk; decide +kernel,
    by decide +kernel, ?_, by unfold PagesOk; decide +kernel, ?_, by decide +kernel, by decide +kernel⟩
  · intro i hi
    have : i = 0 ∨ i = 1 := by have : (1 : BitVec 6).toNat = 1 := rfl; omega
    rcases this with rfl | rfl
    · exact ⟨0, 0, ⟨unitGang, 0, [], 0, 1⟩, here_of (gang_here (by decide +kernel)) (by decide +kernel)⟩
    · exact ⟨0, 1, ⟨unitGang, 1, [], 0, 1⟩, here_of (gang_here (by decide +kernel)) (by decide +kernel)⟩
  · intro i hi
    have : i = 0 := by have : (0 : BitVec 8).toNat = 0 := rfl; omega
    subst this; decide +kernel

/-- MappingWordsMapPagesAndReport: SPUNMAP of an unpinned resident page whose entry can be written; SPPIN and SPPIN.un of it, from a count of 0 and of 15. -/
theorem witness_unmap_and_pin : ∀ n ∈ [0, 14, 15], let s := paged (twoPages n) { sc := [(9, 2048)] }
    let u := unitOf s
    issueOf s = some u ∧ u.f.resumed = false ∧ execLanes u none ≠ 0 ∧ PagesOk s u 201 1 1 ∧
      HereAt s u (2048 * 1) 0 1 ⟨unitGang, 1, [], 0, 1⟩ ∧ ((entryOf s u 1).extractLsb' 20 4).toNat = n ∧ s.places = [] ∧
      (∀ y ∈ s.groups, y.2.spills = []) ∧ pageState (gangHere s) 1 = 2 ∧
      pinnedFrames s 0 + 17 ≤ frameCount (coreOf s 0) ∧
      launchOfGroup s u.g = some (launchHere s) ∧
      (let r := areaState s (whoPager (gangHere s) (launchHere s)) (entryVa (launchHere s) (gangHere s).index 1)
       tfind (gangHere s).failed 1 = none ∧ tableHere s (gangHere s) (launchHere s) 1 = true ∧
       (writeEntry r.1 u.g.gang 1 0).2 = true ∧ r.2 = .ready ∧ ∀ m ∈ [1, 13, 15], (writeEntry r.1 u.g.gang 1 (pageEntry true true true false 0 1 m)).2 = true) := by
  intro n hn
  refine ⟨issue_unit (by revert n; decide +kernel), by revert n; decide +kernel, by revert n; decide +kernel,
    by unfold PagesOk; revert n; decide +kernel, here_of (gang_here (by revert n; decide +kernel)) (by revert n; decide +kernel), ?_⟩
  revert n; decide +kernel

end Sys2Proof.Tests
end

