-- ==== Sys2Proof/Tests/WitnessHardware.lean ====
section
/-!
SUPPORT. Witnesses of the statements about device memory, pages, engines and links, and about the step and the checks of a unit.
-/
namespace Sys2Proof.Tests

open Sys2Proof
open Sys2Proof.Machine

set_option Elab.async false

/-! ### The step and the checks of a unit -/

/-- The package with a unit placed, as the statements name its first step's parts. -/
def startOf (s : State) : State := { endDuePeriods (between { s with agenda := [] }) with cur := none }

/-- StepsRunTheDecodedRow: a unit inside its clause, a fragment at a header, and agendas of each other kind. -/
theorem witness_step :
    let s := placeWord State.reset 32 0
    let x := backToHeader (startOf s) 0 0
    let g := (groupOf x 0).getD default
    let f := (fragAt g 0).getD default
    let l := (launchOfGroup x g).getD (newLaunch [] 0 0 0 0 0 0)
    let w := fetchUnit x (whoGroup x 0 g) l.stamp 0x8008 3 f.pc
    let h := withGroup s (fun g => { g with frags := g.frags.map (fun f => { f with clause := none, pc := 0x8000 }) })
    let y := backToHeader (startOf h) 0 0
    let z := fetchWord y (whoGroup y 0 ((groupOf y 0).getD default)) l.stamp 0x8000
    s.power.failed = false ∧ s.agenda = [.issue 0 0] ∧ groupOf x 0 = some g ∧ fragAt g 0 = some f ∧ (launchOfGroup x g).isSome = true ∧
      mayIssue x 0 g f = true ∧ f.clause = some ⟨0x8000, wordHeader [0]⟩ ∧ w.2.toOption = some [0] ∧ (decode [0]).toOption = some (.nop, []) ∧
      clauseAllows ⟨0x8000, wordHeader [0]⟩ f.pc [0] = true ∧ w.1.upsets = [] ∧ x.upsets = [] ∧
      ((groupOf y 0).map (fun g => g.frags.map (fun f => f.clause.isNone && mayIssue y 0 g f))) = some [true] ∧
      z.2.toOption = some (wordHeader [0]) ∧ z.1.upsets = [] := by
  decide +kernel

/-- UnitsAreCheckedInOrder: a system word that may not run, an illegal word, one in a clause of another class, one with a prefix field that it
has no use for, and a prefix that no word takes. -/
theorem witness_unit_checks :
    let c : Clause := ⟨0x8000, wordHeader [0]⟩
    let ws : List Word := [0xF8000200, 0x8201C810]
    let d : Clause := ⟨0x8000, wordHeader ws⟩
    majorOf (baseWord [0xF4000000]) = 0x3D ∧ majorOf (baseWord [0]) ≠ 0x3D ∧
    (∃ w n, decode [0x06000000] = .error (.illegalInstruction w n)) ∧
    (∃ i r, decode [0x8201C810] = .ok (i, r)) ∧ clauseAllows c 0x8004 [0x8201C810] = false ∧
    (∃ i r, decode ws = .ok (i, r) ∧ pfxOk i = false) ∧ clauseAllows d 0x8004 ws = true ∧
    (∃ p, decode [0xF8000000, 0] = .error (.illegalPrefix p)) := by
  refine ⟨by decide, by decide, ⟨_, _, rfl⟩, ⟨_, _, rfl⟩, by decide +kernel, ⟨_, _, rfl, by decide +kernel⟩, by decide +kernel, ⟨_, rfl⟩⟩

/-! ### Device memory -/

/-- The placed package with its memory changed, and with what an event carries. -/
@[irreducible] def remembering (f : Mem → Mem) (x : Input) : State := let s := Pick.at {}; told { s with mem := f s.mem } x

/-- A stored symbol whose inner check fails. -/
def wrong : SymErr := ⟨0, 1⟩

/-- MemoryAndPagesWork: the last line of device memory and the first of tier X, held and not; a line with one wrong symbol and with three; rows
and channels at their limits. -/
theorem witness_memory_work :
    let k := 512 * 12890572 - 1
    let one := remembering (fun m => { m with symErr := [(10 * k + 9, wrong)] }) { key := k }
    let three := remembering (fun m => { m with symErr := [(10 * k, wrong), (10 * k + 1, wrong), (10 * k + 9, wrong)] }) { key := k }
    let x := remembering (fun m => { m with xlines := [2 ^ 49] }) { key := 2 ^ 49 }
    let row := fun (r : Row) => remembering (fun m => { m with rows := [(0, r)] }) {}
    let chan := fun (c : Chan) => remembering (fun m => { m with chans := [(383, c)] }) { key := 383, sub := 1 }
    128 * (2 ^ 49 - 1) < 2 ^ 56 ∧ 2 ^ 56 ≤ 128 * 2 ^ 49 ∧ 2 ^ 49 ∈ x.mem.xlines ∧ x.places = [] ∧ (Pick.at {}).mem.xlines = [] ∧
    k < 512 * 12890572 ∧ 512 * 12890572 ≤ k + 1 ∧ one.mem.chans = [] ∧ one.mem.inter = [] ∧ tfind one.mem.symErr (10 * k + 9) = some wrong ∧
    wrong.fails = true ∧ (∀ j < 10, j ≠ 9 → tfind one.mem.symErr (10 * k + j) = none) ∧
    (∀ i ∈ [0, 1, 9], tfind three.mem.symErr (10 * k + i) = some wrong) ∧
    (tget Row.reset (row ⟨8191, 15, 2, 0⟩).mem.rows 0).acts < 8192 ∧ 8192 ≤ (tget Row.reset (row ⟨8192, 15, 2, 0⟩).mem.rows 0).acts ∧
    (row ⟨0, 16, 0, 0⟩).mem.thresh ≤ (tget Row.reset (row ⟨0, 16, 0, 0⟩).mem.rows 0).corrected ∧
    (tget Row.reset (row ⟨0, 15, 2, 0⟩).mem.rows 0).corrected < (row ⟨0, 15, 2, 0⟩).mem.thresh ∧
    ((chan ⟨0, false, 0, 0, 65⟩).mem.chan 383).state = 0 ∧ 64 < ((chan ⟨0, false, 0, 0, 65⟩).mem.chan 383).fails ∧
    ((chan ⟨0, false, 0, 0, 64⟩).mem.chan 383).fails ≤ 64 ∧ ((chan ⟨1, false, 0, 0, 65⟩).mem.chan 383).state ≠ 0 := by
  decide +kernel

/-- MemoryAndPagesWork: a rebuild that is paused, idle, about to begin, within a frame and past its last line, at its last frame with and without a spare, and past it. -/
theorem witness_rebuild :
    let ten := (List.range 10).map (fun i => (10 * 12890571 + i, (⟨39 * i, 5, 0⟩ : Inter)))
    let rb := fun (r : Rebuild) => remembering (fun m => { m with rebuild := r, inter := ten }) {}
    let mid := fun (line : Nat) => rb { Rebuild.reset with active := some 0, work := some ⟨12890571, 0, 40, 366210, line⟩ }
    let at0 := rb { Rebuild.reset with active := some 0, nextFrame := 12890571 }
    (rb { Rebuild.reset with paused := true }).mem.rebuild.paused = true ∧ (rb Rebuild.reset).mem.rebuild.queue = [] ∧
    (rb { Rebuild.reset with queue := [0] }).mem.rebuild.queue = [0] ∧
    (∀ n ∈ [0, 511, 512], (mid n).mem.rebuild.active = some 0 ∧ (mid n).mem.rebuild.work = some ⟨12890571, 0, 40, 366210, n⟩ ∧
      (mid n).mem.rebuild.paused = false) ∧ at0.mem.rebuild.work = none ∧
    nextNamed at0.mem 0 (12890572 - 12890571) 12890571 = some (12890571, 0) ∧ (chooseSpare at0.mem 12890571).isSome = true ∧
    nextNamed at0.mem 0 (12890572 - 12890572) 12890572 = none := by
  decide +kernel

/-- MemoryAndPagesWork: a hot page that moves to a free frame, one whose place is taken, and one that comes from tier X with lines absent. -/
theorem witness_moves :
    let hot := fun (place : Nat) => remembering (fun m => ({ m with moves := [⟨0, false, place⟩] }).setEntry 1 (indEntry true false false false false false 0 1)) {}
    let x := remembering (fun m => ({ m with moves := [⟨0, false, 9⟩] }).setEntry 0 (indEntry true false false false true false 0 1)) {}
    let taken := fun (s : State) (place : Nat) => ∃ y ∈ s.mem.ind, y.1 ≠ 0 ∧ IndV y.2 = true ∧ IndTierX y.2 = false ∧ IndFrame y.2 = place ∧ IndDropped y.2 = false
    (hot 9).mem.moves.find? (fun x => x.frame == 0) = some ⟨0, false, 9⟩ ∧ taken (hot 1) 1 ∧ ¬ taken (hot 9) 9 ∧ (hot 9).mem.wf = true ∧
    (hot 9).mem.symErr = [] ∧ IndTierX ((hot 9).mem.entry 0) = false ∧ (9 : Nat) ≠ IndFrame ((hot 9).mem.entry 0) ∧ ¬ taken x 9 := by
  decide +kernel

/-- MemoryAndPagesWork: a register that holds an error and is read by the lowest lane; a unit of a frame. -/
theorem witness_upsets :
    let s := { Pick.at { v := [(4, 1), (5, 2)] } with upsets := [⟨.vreg 0 4 0, 0, 0⟩] }
    let f := paged (twoPages 0) {}
    issueOf s = some (unitOf s) ∧ isScalar 4 = false ∧ execLanes (unitOf s) none = (unitOf s).f.lanes ∧ (unitOf s).f.lanes ≠ 0 ∧
      lowest (unitOf s).f.lanes = 0 ∧ (unitOf s).key = 0 ∧ s.upsets = [⟨.vreg 0 4 0, 0, 0⟩] ∧ (frameOf f 0 1).isSome = true := by
  refine ⟨issue_unit (by decide +kernel), ?_⟩
  decide +kernel

/-! ### Pages and debug -/

/-- A gang whose page 0 is being filled into frame 2, and whose page 1 is dirty and leaves. -/
@[irreducible] def busyPages : State :=
  told (withGang (paged [(1, pageEntry true true true true 0 1 0)] {}) (fun q => { q with fills := [⟨0, 0, some 2, none⟩], leaving := [1] }))
    { key := unitGang, sub := 0 }

/-- MemoryAndPagesWork: a fill of a page that has never been mapped, and a write-back that can finish. -/
theorem witness_page_events :
    let s := busyPages
    let q := gangHere s
    let l := launchHere s
    let a := areaState s (whoPager q l) (entryVa l q.index 0)
    let e := pageEntry true true false false 0 2 (PagePin (q.page 0))
    let x := evictionState s unitGang 1
    let y := writeBack x.1 unitGang 1
    gangOf s unitGang = some q ∧ launchOf s q.launch = some l ∧ q.fills.find? (fun f => f.page == 0) = some ⟨0, 0, some 2, none⟩ ∧
      PageMap (q.page 0) = false ∧ a.2 = .ready ∧ (writeEntry a.1 unitGang 0 e).2 = true ∧ (∀ g ∈ (writeEntry a.1 unitGang 0 e).1.groups, g.2.spills = []) ∧
      1 ∈ q.leaving ∧ x.2.1 = .ready ∧ y.2 = none ∧ (releasePage y.1 unitGang 1 false).2 = true := by
  decide +kernel

/-- MemoryAndPagesWork: a clone in replay, a word that a clone may differ in; a watch report; a record that waits to be written, records that
were lost, and a fragment that is sampled. -/
theorem witness_debug_events :
    let s := withLaunch (Pick.at {}) (fun l => recordWith l 0x33 (leBytes 1 5))
    let c := withLaunch (withBytes (Pick.at { head := wordHeader [0x50000000] }) 0x8004 (leBytes 4 0x50000000)) (fun l => recordWith l 0x33 (leBytes 1 5))
    let d := standsAt c 0 (unitOf c).g (unitOf c).f (launchHere c)
    let r : Report := ⟨31, 0x9000, 1, some 0, some unitGang, 0⟩
    let core := fun (c : Core → Core) => let s := setCore s 0 (c (coreOf s 0)); { s with traces := [(0, { Trace.reset with on := true, base := 0x9000, sample := 1 })], clock := 9 }
    let b := leBytes 32 1
    let w := core (fun c => { c with unwritten := [b] })
    let x := core (fun c => { c with lastIssue := some (0, 0) })
    let g := (unitOf s).g
    let f := (unitOf s).f
    groupOf s 0 = some g ∧ fragAt g 0 = some f ∧ launchOfGroup s g = some (launchHere s) ∧ recCheck (launchHere s) = true ∧ f.clause ≠ none ∧
      (recCheck (launchHere c) = true ∧ mayIssue c 0 (unitOf c).g (unitOf c).f = true ∧ launchOfGroup c (unitOf c).g = some (launchHere c) ∧
        (d.2.bind (fun x => comparedKind x.1)) = some 0 ∧ lane (activeOf (unitOf c).g (unitOf c).f.lanes ((d.2.map (fun x => pfxOf x.1)).getD none)) 0 = true ∧
        (standsAt s 0 g f (launchHere s)).2.map (fun x => comparedKind x.1) = some none) ∧
      mayIssue s 0 g f = true ∧ ({ s with reports := [r] }).reports = [r] ∧ liveLanes g ≠ 0 ∧ g.gang = unitGang ∧ g.pending = [] ∧
      (coreOf w 0).unwritten = [b] ∧
      (deviceStoreAll (setCore w 0 { coreOf w 0 with unwritten := [] }) { whoCtx w 0 true with core := 0 } 0x9000 [b.take 16, b.drop 16]).2.toOption = some () ∧
      (coreOf (core (fun c => { c with lost := 1 })) 0).lost ≠ 0 ∧ (traceOf x (corePart x 0)).sample ≠ 0 ∧ (coreOf x 0).sampled + (traceOf x (corePart x 0)).sample ≤ x.clock ∧ (coreOf x 0).lastIssue = some (0, 0) ∧
      (traceOf x (launchHere x).part).on = true ∧ (coreOf x 0).unwritten.length < 64 := by
  decide +kernel

/-! ### Engines -/

/-- A copy of one 16-byte unit from 0x9000 to 0xA000, on an engine or not, and what an event carries. -/
@[irreducible] def moving (f : Transfer → Transfer) (x : Input) : State :=
  { told (Pick.at {}) x with nextTransfer := 4, transfers := [(3, f { (default : Transfer) with number := 3, group := some 0, gang := unitGang, lanes := 1, operands := [0xA000, 0x9000, 1, 1, 0, 0, 0, 0] })] }

def transferHere (s : State) : Transfer := (tfind s.transfers 3).getD default

/-- EnginesMoveTheirWork: a transfer that an engine takes, one whose unit it moves, transfers that complete, a tile transfer without units, and
a write that has not reached its place. -/
theorem witness_transfers :
    let s := moving id {}
    let m := moving (fun x => { x with engine := some 0 }) { value := 1 }
    let w := whoTransfer m (transferHere m)
    let r := engineRead m w (transferHere m).anchor 0x9000 16
    let t := translate r.1 (whoTransfer r.1 (transferHere m)) .store false 0xA000
    let o := CopyOps.ofList (transferHere m).operands
    let c := moving (fun x => { x with engine := some 0, progress := 1 }) { key := 3 }
    let away := { moving (fun x => { x with engine := some 0 }) {} with dies := [{ Die.reset with partlo := 7 }, Die.reset, Die.reset] }
    let tile := moving (fun x => { x with kind := 1, operands := [] }) { key := 3 }
    let p : Place := ⟨3, 0, .ma 0xA000, leBytes 16 7, false, 0xA000, 4, 0⟩
    let placed := told { s with places := [p] } { key := 3, sub := 0 }
    engineWork s 0 0 = none ∧ engineTakes s 0 4 = true ∧ copyNodeReady s 0 = false ∧ nextTransfer s 0 = some (3, transferHere s) ∧
    (∀ x ∈ [s, m, c, tile], tfind x.transfers 3 = some (transferHere x)) ∧
    engineWork m 0 0 = some 3 ∧ (transferHere m).number = 3 ∧ (transferHere m).engine = some 0 ∧ (transferHere m).halted = false ∧
      (transferHere m).complete = none ∧ corePart m 0 ≠ 7 ∧ corePart away 0 = 7 ∧ engineWork away 0 0 ≠ none ∧ (transferHere m).progress < o.total ∧ o.form = 0 ∧ o.ssp = 0 ∧ o.dsp = 0 ∧
      (match r.2 with | .ok (_, false) => true | _ => false) = true ∧ reachesDevice t = true ∧ (hotOf t.1.mem w.part).en = false ∧
      tfind t.1.transfers 3 = some (transferHere m) ∧
    ((transferHere c).kind ≠ 1 ∧ (transferHere c).complete = none ∧ (CopyOps.ofList (transferHere c).operands).total ≤ (transferHere c).progress ∧ c.requests = []) ∧
    ((transferHere tile).kind = 1 ∧ (TileOps.ofList (transferHere tile).operands).total ≤ (transferHere tile).progress ∧ tile.input.value = 0) ∧
    placed.places.filter (fun x => x.transfer == 3 && x.unit == 0) = [p] ∧ placed.mem.symErr = [] ∧ placed.mem.chans = [] ∧ placed.mem.inter = [] := by
  decide +kernel

/-- A compute record of M = N = K = 1 with both operands at scratchpad address 2048, into atile 0, and one with K = 0; a copy record of one unit. -/
def computeRecord (k : Nat) : List Byte :=
  leBytes 16 2 ++ leBytes 2 1 ++ leBytes 2 1 ++ leBytes 2 k ++ leBytes 1 0x12 ++ leBytes 1 0x12 ++ leBytes 8 0 ++ leBytes 8 2048 ++ leBytes 8 2048 ++ leBytes 16 0
def copyRecord : List Byte := leBytes 16 1 ++ leBytes 8 0xA000 ++ leBytes 8 0x9000 ++ leBytes 8 1 ++ leBytes 8 1 ++ leBytes 16 0

/-- A gang whose team has two atiles and a ring of 16 slots at scratchpad address 0, where page 0 holds a record, with slot 1 as given. -/
@[irreducible] def walking (slot : Slot) (posts : List Post) (bs : List Byte) : State :=
  let s := withGang (paged (twoPages 0) {}) (fun q => { q with teams := q.teams.map (fun t => { t with
    acc := 2, ringLog := 4, ringBase := 0, slots := tset Slot.reset t.slots 1 slot, posts := posts }) })
  let s := setCore s 0 { coreOf s 0 with frames := [(0, ⟨unitGang, 0, rowsOf 0 ((List.range bs.length).map (fun i => (i, bs[i]?.getD 0))), 0, 1⟩),
    (1, ⟨unitGang, 1, [], 0, 1⟩)] }
  told s { key := unitGang, sub := 0, sub2 := 1 }

def teamThere (s : State) : Team := (teamOf s unitGang 0).getD default

/-- EnginesMoveTheirWork: records that the walker takes, one and the last of several; nodes in each phase; nodes that are next to issue. -/
theorem witness_nodes :
    let post : Post := { op := none, slot := 0, left := 1, group := 0, gid := 0, lanes := 1, setb := 15, anchor := ⟨0, [], []⟩, stamp := 0, place := 0 }
    let s := walking Slot.reset [post] (computeRecord 1)
    let r := readRecord s unitGang 0 post 0
    let node := fun (phase : Nat) (latch : List Word) (state : Nat) (bs : List Byte) => walking { Slot.reset with state := state, phase := phase, record := bs, latch := latch, order := 1 } [] []
    let g := node 1 [] 3 (computeRecord 1)
    let z := slotOf (teamThere g) 1
    let c := (gathererOf g unitGang 0 z).getD default
    let x := gatherNode g c (nodeBody z.record) z.index
    let whole := node 1 [0, 0, 0, 0] 3 (computeRecord 1)
    let acc := node 2 [0, 0, 0, 0] 3 (computeRecord 1)
    let issues := fun (bs : List Byte) => told (node 0 [] 2 bs) { key := 0 }
    ringCore s unitGang 0 = 0 ∧ teamOf s unitGang 0 = some (teamThere s) ∧ (teamThere s).posts = [post] ∧ ringSize (teamThere s) = 16 ∧
      (slotOf (teamThere s) 0).state = 0 ∧ s.saves = [] ∧ r.2.toOption = some (computeRecord 1) ∧ r.1.gangs = s.gangs ∧ r.1.groups = s.groups ∧
      recordRefused (computeRecord 1) 16 (scratchOfGang r.1 unitGang) 2 = false ∧ targetOf r.1 unitGang (computeRecord 1) = .none ∧
    (∀ y ∈ [g, whole, acc], teamOf y unitGang 0 = some (teamThere y) ∧ (slotOf (teamThere y) 1).state = 3) ∧
    z.phase = 1 ∧ z.latch.length ≠ 2 * (nodeBody z.record).k * ((nodeBody z.record).m + (nodeBody z.record).n) ∧
      gathererOf g unitGang 0 z = some c ∧ x.2.toOption.isSome = true ∧ teamOf x.1 unitGang 0 = some (teamThere g) ∧
    (slotOf (teamThere whole) 1).latch.length = 4 ∧ (coreOf whole 0).claims = [] ∧ (∀ y ∈ (teamThere whole).slots, ¬ y.2.order < 1) ∧
    (slotOf (teamThere acc) 1).phase = 2 ∧ (slotOf (teamThere acc) 1).trans = none ∧ field (computeRecord 1) 0 1 % 4 = 2 ∧
      (nodeBody (computeRecord 1)).m ≤ 32 ∧ recTarget (computeRecord 1) = none ∧
    (∀ bs ∈ [computeRecord 1, computeRecord 0, copyRecord], nextNode (issues bs) 0 = some (unitGang, 0, 1, slotOf (teamThere (issues bs)) 1)) ∧
    field copyRecord 0 1 % 4 ≠ 2 ∧ nextNode g 0 = none := by
  decide +kernel

/-! ### Links -/

/-- The placed package with what Levant keeps changed, and with what an event carries. -/
@[irreducible] def linked (ps : List LvPacket) (x : Levant) (f : Fabric → Fabric) (y : Input) : State :=
  let s := told (Pick.at {}) y
  { s with packetsLv := ps, levant := [Levant.reset, Levant.reset, Levant.reset, x], fabric := f s.fabric }

/-- LevantAndEtesianCarry: a write that goes out, packets of each kind that arrive, of the present epoch and of another, requests that are met,
held and not taken, a response; a write that is undone; dies and links at the ends of their ranges. -/
theorem witness_levant :
    let past : Past := ⟨.ma 0x9000, leBytes 16 0, 0, some 0, false, false⟩
    let w := remembering (fun m => { m with past := [past], order := 1 }) {}
    let p := fun (sweep : Bool) (epoch : Nat) => (⟨0, 3, 1, epoch, sweep, packStamp epoch [1, 0, 0, 0], 0, 0x9000, 0, false⟩ : LvPacket)
    let a := fun (sweep : Bool) (epoch : Nat) => linked [p sweep epoch] Levant.reset id { key := 3, sub := 0 }
    let r := fun (epoch n : Nat) => (⟨0, 288, packStamp epoch [n, 0, 0, 0], packStamp epoch [0, 0, 0, 0]⟩ : LvRead)
    let q := fun (epoch n early : Nat) => linked [] { Levant.reset with early := List.replicate early (r 0 1) } (fun f => { f with requests := [r epoch n] }) { key := 3, sub := 0 }
    let z := linked [] { Levant.reset with served := [r 0 1] } id { key := 0, sub := 3 }
    w.mem.past = [past] ∧ w.fabric.mark = 0 ∧ w.mem.order = 0 + 1 ∧ dieRemoved w 0 = false ∧ tooFarBehind w 0 1 = [] ∧
      (levantOf w 0).seen.length = 4 ∧
    (∀ b : Bool, ∀ e ∈ [0, 1], (linkPackets (a b e) 0 3).head? = some (p b e) ∧ (a b e).levant[3]? = some Levant.reset) ∧
    (linkPackets (Pick.at {}) 0 3).head? = none ∧
    (∀ x ∈ [(0, 0, 0), (1, 0, 0), (0, 1, 95), (0, 1, 96)], (q x.1 x.2.1 x.2.2).fabric.requests.find? (fun y => y.src == 0) = some (r x.1 x.2.1) ∧
      stampEpoch (r x.1 x.2.1).stamp = x.1 ∧ (levantOf (q x.1 x.2.1 x.2.2) 3).early.length = x.2.2 ∧
      stampMet (levantOf (q x.1 x.2.1 x.2.2) 3) (r x.1 x.2.1).stamp = decide (x.2.1 = 0)) ∧
    (levantOf z 3).served.find? (fun y => y.src == 0) = some (r 0 1) ∧ z.levant[0]? = some Levant.reset ∧ stampEpoch (r 0 1).stamp = Levant.reset.epoch ∧
    (w.mem.past.filter (fun x => x.loc == .ma 0x9000 && decide (0 ≤ x.upto))) = [past] ∧ past.bytes.length = 16 ∧ w.mem.symErr = [] ∧
    dieRemoved w 2 = false ∧ dieRemoved w 3 = false ∧ w.dies[2]? = some Die.reset ∧ w.levant[3]? = some Levant.reset := by
  decide +kernel

/-- The placed package with a peer 7, open to each type of access to partition 0, wavelength 0 in service, one request, and what an event
carries. -/
@[irreducible] def peered (cfg : Dword) (rs : List Request) (x : Input) : State :=
  { told (Pick.at {}) x with peers := [(7, cfg)], fibres := [(0, { Fibre.reset with up := 1 })], requests := rs }

def openPeer : Dword := 0x000003E80000001D

/-- LevantAndEtesianCarry: flits from a frozen port, flits that a check refuses, and flits of each type that land on the last bytes of a line. -/
theorem witness_flits :
    let f := fun (typ : Byte) (aop : Byte) => ({ typ := typ, dst := 0, src := 7, size := 4, tag := 5, dpa := 0x9070, aop := aop, status := 0, data := leBytes 16 1 } : Flit)
    let s := fun (x : Flit) => peered openPeer [] { flit := x }
    let frozen := peered (openPeer ||| 0x20) [] { flit := f 1 0 }
    let shut := peered 0 [] { flit := f 1 0 }
    (∀ x ∈ [f 1 0, f 2 0, { f 3 0 with size := 2 }], portFrozen (s x) x = false ∧ flitFault (s x) x = none ∧ x.size.toNat % 16 ≤ 4 ∧
      landing (s x) (portOf (s x) x) x.dpa.toNat = (s x, .here 0x9070) ∧ wavesFor (s x) 7 ≠ [] ∧ (s x).inbound = [] ∧
      Sound (s x) (IndPart ((s x).mem.entry (x.dpa.toNat / 65536)))) ∧
    portFrozen frozen (f 1 0) = true ∧ wavesFor frozen 7 ≠ [] ∧ portFrozen shut (f 1 0) = false ∧ FlitRefused shut (f 1 0) 6 := by
  unfold FlitRefused Sound; decide +kernel

/-- LevantAndEtesianCarry: replies to requests of each kind, a nack above and below another lane's request, a reply that answers none, a
timeout's last clock and its end; the wavelength that a request leaves on. -/
theorem witness_replies :
    let r := fun (kind reg : Nat) (op : Option Nat) => { (default : Request) with tag := 5, kind := kind, peer := some 7, addr := 0x9000, size := 4, reg := reg, op := op, sent := true, wave := some 0, word := 3 }
    let f := fun (typ status : Byte) => ({ typ := typ, dst := 0, src := 7, size := 2, tag := 5, dpa := 0, aop := 0, status := status, data := leBytes 16 1 } : Flit)
    let s := fun (x : Request) (y : Flit) => peered openPeer [x] { flit := y, key := 5 }
    let op : Op := ⟨0, none, true, [], 2, true, false, false, false⟩
    let held := fun (x : Request) => { withGroup (s x (f 6 1)) (fun g => { g with frags := g.frags.map (fun f => { f with hold := .scoped 9 1 }) }) with ops := [(9, op)] }
    let h := held (r 0 4 (some 9))
    let waits := peered openPeer [{ r 0 4 none with sent := false }] {}
    (∀ x ∈ [r 0 4 (some 9), r 1 0 none, r 2 4 (some 9), r 4 0 none, r 5 0 none, r 5 1 none, r 5 2 none, r 6 0 none], answered (s x (f 4 0)) (f 4 0) = some x) ∧
    answered (s (r 0 4 none) { f 4 0 with tag := 6 }) { f 4 0 with tag := 6 } = none ∧
    (tfind h.ops 9 = some op ∧ 1 < op.waits ∧ op.acquire = false ∧ op.sure = false ∧ groupOf h 0 = some (unitOf h).g ∧
      (unitOf h).g.frags.find? (heldFor 9) = some (unitOf h).f ∧ (unitOf h).f.hold = .scoped 9 1 ∧
      trapAllows 0 (unitOf h).g (gangHere h) (unitOf h).f = true ∧ (gangHere h).halted = none ∧ (gangHere h).climbed = none ∧
      ¬ (∃ x ∈ h.requests, x.op = some 9 ∧ x.peer ≠ none ∧ x.lane < 0)) ∧
    (let x := s (r 0 4 none) (f 4 0)
     x.requests.find? (fun y => y.tag == 5 && y.peer.isSome && !y.refused) = some (r 0 4 none) ∧
       1050 * ((tget peerReset x.peers 7).toNat / 2 ^ 32 % 2 ^ 16) = 1050000 ∧ wavesFor x 7 = [0]) ∧
    wavesFor waits 7 = [0] ∧ drainingFor waits 7 = [] ∧ (flitsOut waits).length < 512 := by
  decide +kernel

theorem one_wave (b w : Nat) : cyclicFrom b [w] = some w := by
  unfold cyclicFrom
  by_cases h : b ≤ w <;> simp [List.find?, h, Option.orElse]

/-- LevantAndEtesianCarry: the only wavelength in service carries a flit, and a request leaves on it. -/
theorem witness_departure :
    let r := { (default : Request) with tag := 5, kind := 0, peer := some 7, addr := 0x9000, size := 4 }
    let s := peered openPeer [r] {}
    waveFor s 7 (0x9000 / 128) = some 0 ∧ departsOn s r = some 0 := by
  intro r s
  have h : waveFor s 7 (0x9000 / 128) = some 0 := by
    unfold waveFor
    dsimp only
    rw [show (drainingFor s 7).foldl (fun ws w => insertNat w ws) (wavesFor s 7) = [0] by decide +kernel, one_wave]
    decide +kernel
  refine ⟨h, ?_⟩
  unfold departsOn
  rw [show r.addr / 128 = 0x9000 / 128 from rfl]
  simp only [show r.peer = some 7 from rfl, h]
  decide +kernel

end Sys2Proof.Tests
end

