-- ==== Sys2Proof/Tests/WitnessMemory.lean ====
section
/-!
SUPPORT. Witnesses of the statements about memory words and fences: for the hypotheses of each, a package and operands that meet all
of them together.
-/
namespace Sys2Proof.Tests

open Sys2Proof
open Sys2Proof.Machine

set_option Elab.async false

/-- One thread whose pair v2:v3 holds an address, with data in v4 to v7. -/
def reaching (va : Word) : State := Pick.at { v := [(2, va), (4, 0x11223344), (5, 0xF0), (6, 3), (7, 4)] }

/-- The same thread in a clause that counts loads on counter 11 and stores on counter 10, with both at a value. -/
def counting (n : Nat) : State :=
  withGroup (Pick.at { head := 0x28000005 + 2 ^ 9 * 11 + 2 ^ 5 * 10, v := [(2, 0x9000), (5, 0xF0)] })
    (fun g => setCounter (setCounter g 11 { counterOf g 11 with val := n }) 10 { counterOf g 10 with val := n })

theorem calm_reaching : Calm (reaching 0x9000) (unitOf (reaching 0x9000)) := by unfold Calm Plain; decide +kernel
theorem calm_counting : ∀ n ∈ [254, 255], Calm (counting n) (unitOf (counting n)) := by unfold Calm Plain; decide +kernel

/-- LoadsWriteTheirRegisters: every form, and LDU, at an address of device memory. -/
theorem witness_loads : ∀ f ∈ loadForms none 4 2 0, let s := reaching 0x9000
    let u := unitOf s
    issueOf s = some u ∧ Fresh u ∧ Calm s u ∧ clauseSetA u.f = none ∧ RegsOk u.g [(4, f.2.2.1), (2, 2)] ∧ execLanes u none ≠ 0 ∧
      Aligned u none f.2.1 (addrOf u 2 0 f.2.1) ∧
      ∃ x s', LoadsFind u (whoGroup s u.key u.g) f.2.1 f.2.2.2.2 (addrOf u 2 0 f.2.1) x
        (if execLanes u none = 0 then s else counted s u none true) (lanesOf (execLanes u none)) s' := by
  intro f hf
  have hl : lanesOf (execLanes (unitOf (reaching 0x9000)) none) = [0] := by decide +kernel
  have h0 : execLanes (unitOf (reaching 0x9000)) none ≠ 0 := by decide +kernel
  have h : RegsOk (unitOf (reaching 0x9000)).g [(4, f.2.2.1), (2, 2)] ∧
      addrOf (unitOf (reaching 0x9000)) 2 0 f.2.1 0 % f.2.1 = 0 ∧
      reachesDevice (translate (counted (reaching 0x9000) (unitOf (reaching 0x9000)) none true)
        (whoGroup (reaching 0x9000) (unitOf (reaching 0x9000)).key (unitOf (reaching 0x9000)).g) .load false
        (addrOf (unitOf (reaching 0x9000)) 2 0 f.2.1 0)) = true := by
    revert f; unfold RegsOk; decide +kernel
  refine ⟨issue_unit (by decide +kernel), by unfold Fresh; decide +kernel, calm_reaching, by decide +kernel, h.1, h0, ?_, ?_⟩
  · intro l hl'
    have : l ∈ lanesOf (execLanes (unitOf (reaching 0x9000)) none) := mem_lanesOf.2 ⟨hl', lane_lt hl'⟩
    rw [hl] at this
    simp only [List.mem_singleton] at this
    subst this; exact h.2.1
  · rw [hl, if_neg h0]; exact one_load h.2.2

theorem witness_ldu : let s := Pick.at { sc := [(8, 0x9000)] }
    let u := unitOf s
    issueOf s = some u ∧ Fresh u ∧ Calm s u ∧ clauseSetA u.f = none ∧ 192 ≤ (196 : Opnd).toNat ∧ 192 ≤ (200 : Opnd).toNat ∧
      execLanes u none ≠ 0 ∧ Aligned u none 4 (addrOf u 200 0 4) ∧
      ∃ x s', LoadsFind u (whoGroup s u.key u.g) 4 false (addrOf u 200 0 4) x (counted s u none true) [lowest (execLanes u none)] s' := by
  refine ⟨issue_unit (by decide +kernel), by unfold Fresh; decide +kernel, by unfold Calm Plain; decide +kernel, by decide +kernel, by decide,
    by decide, by decide +kernel, each_lane (by decide +kernel), one_load (by decide +kernel)⟩

/-- CountedLoadsOweTheirRegisters: a counter below 255, and one that has no room. -/
theorem witness_counted_loads : ∀ n ∈ [254, 255], let s := counting n
    let u := unitOf s
    issueOf s = some u ∧ Fresh u ∧ Calm s u ∧ clauseSetA u.f = some 11 ∧ 11 < u.g.counters.length ∧ RegsOk u.g [(4, 1), (2, 2)] ∧
      Aligned u none 4 (addrOf u 2 0 4) ∧ execLanes u none ≠ 0 ∧ (counterOf u.g 11).val = n ∧
      ∃ x s', LoadsFind u (whoGroup s u.key u.g) 4 false (addrOf u 2 0 4) x (counted s u (some 11) true) (lanesOf (execLanes u none)) s' := by
  intro n hn
  have hl : lanesOf (execLanes (unitOf (counting n)) none) = [0] := by revert n; decide +kernel
  refine ⟨issue_unit (by revert n; decide +kernel), by unfold Fresh; revert n; decide +kernel, calm_counting n hn, by revert n; decide +kernel,
    by revert n; decide +kernel, by unfold RegsOk; revert n; decide +kernel, each_lane (by revert n; decide +kernel),
    by revert n; decide +kernel, by revert n; decide +kernel, ?_⟩
  rw [hl]; exact one_load (by revert n; decide +kernel)

/-- CountedLoadsOweTheirRegisters: LDU. -/
theorem witness_counted_ldu : let s := Pick.at { head := 0x28000005 + 2 ^ 9 * 11 + 2 ^ 5 * 10, sc := [(8, 0x9000)] }
    let u := unitOf s
    issueOf s = some u ∧ Fresh u ∧ Calm s u ∧ clauseSetA u.f = some 11 ∧ 11 < u.g.counters.length ∧ execLanes u none ≠ 0 ∧
      192 ≤ (196 : Opnd).toNat ∧ 192 ≤ (200 : Opnd).toNat ∧ Aligned u none 4 (addrOf u 200 0 4) ∧ (counterOf u.g 11).val < 255 ∧
      ∃ x s', LoadsFind u (whoGroup s u.key u.g) 4 false (addrOf u 200 0 4) x (counted s u (some 11) true) [lowest (execLanes u none)] s' := by
  refine ⟨issue_unit (by decide +kernel), by unfold Fresh; decide +kernel, by unfold Calm Plain; decide +kernel, by decide +kernel,
    by decide +kernel, by decide +kernel, by decide, by decide, each_lane (by decide +kernel), by decide +kernel, one_load (by decide +kernel)⟩

/-- One lane whose element is found. -/
theorem one_element {u : Issue} {w : Who} {k : Kind} {nib : Bool} {va : Nat → Nat} {after : Machine.State → Nat → Machine.State} {s : State} {l : Nat}
    (h : (elementAt s (w.ofThread u.key l) k nib (va l)).2.toOption.isSome = true) : ∃ x s', ElementsFound u w k nib va x after s [l] s' := by
  obtain ⟨v, hv⟩ := Option.isSome_iff_exists.1 h
  exact ⟨fun _ => v, _, _, ok_of hv, rfl⟩

/-- TypedElementsLoadAndStore: an element of a page of format code 1 with no geometry. -/
theorem witness_elements : let s := withBytes (reaching 0x9000) 0x3000 (leBytes 8 (0x7D + 2 ^ 44))
    let u := unitOf s
    issueOf s = some u ∧ Fresh u ∧ Calm s u ∧ clauseSetA u.f = none ∧ (∀ k, clauseSetB u.f = some k → (counterOf u.g k).val < 255) ∧
      RegsOk u.g [(4, 1), (2, 2)] ∧ execLanes u none ≠ 0 ∧
      (∀ after, ∃ x s', ElementsFound u (whoGroup s u.key u.g) .load ((pfxGet none).aux.getLsbD 0) (addrOf u 2 0 1) x after
        (counted s u none true) (lanesOf (execLanes u none)) s') ∧
      reachesDevice (translate s (whoGroup s u.key u.g) .store false (addrOf u 2 0 1 0)) = true ∧
      (elementAt (counted s u (clauseSetB u.f) false) ((whoGroup s u.key u.g).ofThread u.key 0) .store ((pfxGet none).aux.getLsbD 0)
        (addrOf u 2 0 1 0)).2.toOption.isSome = true := by
  have hl : lanesOf (execLanes (unitOf (withBytes (reaching 0x9000) 0x3000 (leBytes 8 (0x7D + 2 ^ 44)))) none) = [0] := by decide +kernel
  refine ⟨issue_unit (by decide +kernel), by unfold Fresh; decide +kernel, by unfold Calm Plain; decide +kernel, by decide +kernel, ?_,
    by unfold RegsOk; decide +kernel, by decide +kernel, ?_, by decide +kernel, by decide +kernel⟩
  · have : clauseSetB (unitOf (withBytes (reaching 0x9000) 0x3000 (leBytes 8 (0x7D + 2 ^ 44)))).f = none := by decide +kernel
    rw [this]; exact fun k hk => by cases hk
  · intro after; rw [hl]; exact one_element (by decide +kernel)

/-- CountedLoadsOweTheirRegisters: LDE. -/
theorem witness_counted_lde : let s := withBytes (counting 254) 0x3000 (leBytes 8 (0x7D + 2 ^ 44))
    let u := unitOf s
    issueOf s = some u ∧ Fresh u ∧ Calm s u ∧ clauseSetA u.f = some 11 ∧ RegsOk u.g [(4, 1), (2, 2)] ∧ (counterOf u.g 11).val < 255 ∧
      ∀ after, ∃ x s', ElementsFound u (whoGroup s u.key u.g) .load ((pfxGet none).aux.getLsbD 0) (addrOf u 2 0 1) x after
        (counted s u (some 11) true) (lanesOf (execLanes u none)) s' := by
  have hl : lanesOf (execLanes (unitOf (withBytes (counting 254) 0x3000 (leBytes 8 (0x7D + 2 ^ 44)))) none) = [0] := by decide +kernel
  refine ⟨issue_unit (by decide +kernel), by unfold Fresh; decide +kernel, by unfold Calm Plain; decide +kernel, by decide +kernel,
    by unfold RegsOk; decide +kernel, by decide +kernel, ?_⟩
  intro after; rw [hl]; exact one_element (by decide +kernel)

/-- TypedElementsLoadAndStore: a 4-bit element, whose address is that of its nibble. -/
theorem witness_nibble_element : let s := withBytes (reaching 0x12001) 0x3000 (leBytes 8 (0x7D + 2 ^ 44 * 6))
    let u := unitOf s
    issueOf s = some u ∧ Fresh u ∧ Calm s u ∧ lanesOf (execLanes u none) = [0] ∧
      ((elementAt (counted s u (clauseSetB u.f) false) ((whoGroup s u.key u.g).ofThread u.key 0) .store true (addrOf u 2 0 1 0)).2.toOption.map
        (fun x => (x.fmt.bits, x.ma, x.h))) = some (4, 0x9000, 1) := by
  refine ⟨issue_unit (by decide +kernel), by unfold Fresh; decide +kernel, by unfold Calm Plain; decide +kernel, by decide +kernel, by decide +kernel⟩

/-- StoresWriteTheirBytesOnly, NibbleStoresMerge: stores of one lane to device memory. -/
theorem witness_stores : let s := reaching 0x9000
    let u := unitOf s
    issueOf s = some u ∧ Fresh u ∧ Calm s u ∧ (∀ k, clauseSetB u.f = some k → (counterOf u.g k).val < 255) ∧ RegsOk u.g [(4, 4), (2, 2)] ∧
      RegsOk u.g [(4, 2), (2, 2)] ∧ Aligned u none 16 (addrOf u 2 0 16) ∧ Aligned u none 4 (addrOf u 2 0 4) ∧ execLanes u none ≠ 0 ∧
      (∃ ma s', StoresGo u (whoGroup s u.key u.g) (addrOf u 2 0 16) ma (fun _ l => storedBytes u 4 16 l) (counted s u (clauseSetB u.f) false)
        (lanesOf (execLanes u none)) s') ∧
      ∃ ma s', StoresGo u (whoGroup s u.key u.g) (addrOf u 2 0 4) ma (nibbleWord u 4 ma) (counted s u (clauseSetB u.f) false)
        (lanesOf (execLanes u none)) s' := by
  have hl : lanesOf (execLanes (unitOf (reaching 0x9000)) none) = [0] := by decide +kernel
  refine ⟨issue_unit (by decide +kernel), by unfold Fresh; decide +kernel, calm_reaching, ?_,
    by unfold RegsOk; decide +kernel, by unfold RegsOk; decide +kernel, each_lane (by decide +kernel), each_lane (by decide +kernel),
    by decide +kernel, ?_, ?_⟩
  · have : clauseSetB (unitOf (reaching 0x9000)).f = none := by decide +kernel
    rw [this]; exact fun k hk => by cases hk
  · rw [hl]; exact ⟨_, one_store (by decide +kernel)⟩
  · rw [hl]; exact ⟨_, one_store (by decide +kernel)⟩

/-- A package whose fragment of lanes 0 and 1 breaks its word off before lane 1. -/
def splitting : State := { Pick.at { lanes := 3, created := 3, v := [(2, 0x9000), (4, 0x11223344)] } with cut := some 1 }

/-- StoresWriteTheirBytesOnly: a store of lane 0 that breaks off before lane 1. -/
theorem witness_split_store : let s := splitting
    let u := unitOf s
    issueOf s = some u ∧ Fresh u ∧ Calm { s with cut := none } u ∧ RegsOk u.g [(4, 1), (2, 2)] ∧ Aligned u none 4 (addrOf u 2 0 4) ∧
      lane (execLanes u none) 1 = true ∧ (∀ j, lane (execLanes u none) j = true → 1 ≤ j → 1 ≤ j) ∧ lane (execLanes u none) 0 = true ∧
      ∃ ma s', StoresGo u (whoGroup s u.key u.g) (addrOf u 2 0 4) ma (fun _ l => storedBytes u 4 4 l)
        (counted s u (clauseSetB u.f) false) ((lanesOf (execLanes u none)).filter (· < 1)) s' := by
  have hl : (lanesOf (execLanes (unitOf splitting) none)).filter (· < 1) = [0] := by decide +kernel
  refine ⟨issue_unit (by decide +kernel), by unfold Fresh; decide +kernel, by unfold Calm Plain; decide +kernel, by unfold RegsOk; decide +kernel,
    each_lane (by decide +kernel), by decide +kernel, fun _ _ h => h, by decide +kernel, ?_⟩
  rw [hl]; exact ⟨_, one_store (by decide +kernel)⟩

/-- R344, R418: the fragment then stands at its word with lane 1 still to be performed, and passes it at its next issue. -/
theorem test_split_store :
    (let frags := fun (s : State) => ((groupOf s 0).map (·.frags)).getD []
     match exec (.stW none 4 2 0) splitting with
     | .next t => (frags t).map (fun f => ((match f.hold with | .between 0 _ => true | _ => false), f.pix, f.resumed, f.pc)) == [(true, 1, true, 0x8004)] &&
       (match exec (.stW none 4 2 0) { t with cut := none } with
        | .next t => (frags t).map (fun f => (f.hold == .ready, f.pix, f.resumed)) == [(true, 0, false)]
        | _ => false)
     | _ => false) = true := by decide +kernel

/-- ST.rel: nothing outstanding in any scope, and a sealed transfer that has not completed. -/
theorem witness_release : let s := reaching 0x9000
    let t : State := { withGroup s (fun g => { g with batches := [(0, ⟨[], [9], []⟩)] }) with
      transfers := [(9, { (default : Transfer) with number := 9, complete := none })] }
    let u := unitOf s
    let r := releaseScopes (whoGroup s u.key u.g) (addrOf u 2 0 4) s (lanesOf (execLanes u none))
    RegsOk u.g [(4, sizeSel none), (2, 2)] ∧ Aligned u none (4 * sizeSel none) (addrOf u 2 0 (4 * sizeSel none)) ∧ r.2 = [] ∧
      batchesDone r.1 u.g (execLanes u none) = true ∧ issueOf t = some (unitOf t) ∧ batchesDone t (unitOf t).g (execLanes (unitOf t) none) = false := by
  refine ⟨by unfold RegsOk; decide +kernel, each_lane (by decide +kernel), by decide +kernel, by decide +kernel, issue_unit (by decide +kernel),
    by decide +kernel⟩

/-- AtomicsReadAndWriteOnce: every operation, under a prefix where it needs one. -/
theorem witness_atomics : let s := reaching 0x9000
    let u := unitOf s
    issueOf s = some u ∧ Fresh u ∧ Calm s u ∧ clauseSetA u.f = none ∧ execLanes u none ≠ 0 ∧
      ∀ f ∈ atomicForms none 4 2 6, atomicBytes f.2 0 = 4 ∧ RegsOk u.g (atomicRegs none 4 2 6 4) ∧ Aligned u none 4 (addrOf u 2 0 4) ∧
        ∀ new, ∃ ma old s', AtomicsGo u (whoGroup s u.key u.g) 4 (addrOf u 2 0 4) ma old new (counted s u none true)
          (lanesOf (execLanes u none)) s' := by
  have hl : lanesOf (execLanes (unitOf (reaching 0x9000)) none) = [0] := by decide +kernel
  refine ⟨issue_unit (by decide +kernel), by unfold Fresh; decide +kernel, calm_reaching, by decide +kernel, by decide +kernel, ?_⟩
  intro f hf
  refine ⟨by revert f; decide +kernel, by unfold RegsOk; decide +kernel, each_lane (by decide +kernel), fun new => ?_⟩
  rw [hl]; exact one_atomic (by decide +kernel)

/-- PrefetchesChangeNothingVisible. -/
theorem witness_prefetch : let s := reaching 0x9000
    issueOf s = some (unitOf s) ∧ Calm s (unitOf s) ∧ RegsOk (unitOf s).g [(2, 2)] :=
  ⟨issue_unit (by decide +kernel), calm_reaching, by unfold RegsOk; decide +kernel⟩

/-! ### Apertures -/

/-- The thread whose page lies on device 3, which is present, or on the host, with remote atomics permitted. -/
def behind (peer : Bool) (s : State) : State :=
  { withBytes s 0x3000 (leBytes 8 (if peer then 0x17D + 2 ^ 44 * 3 + 2 ^ 52 else 0x27D + 2 ^ 59)) with peers := [(3, peerReset ||| 1)] }

/-- Whether a lane finds its address behind an aperture and makes a request there. -/
def asksThere (r : AskRow) (u : Issue) (w : Who) (id : Nat) (s : State) (l : Nat) : Bool :=
  match translate s w r.kind false (r.va l) with
  | (s₁, .ok (_, x)) =>
    (match x with
     | .dev _ _ => false
     | .peer _ _ => true
     | .host _ => (decide (r.kind = .store) || !s₁.requests.any (unsentBy u l)) && (decide (r.kind ≠ .atomic) || !(r.asks id s₁ l x).isEmpty)) &&
    (r.post ((r.asks id s₁ l x).foldl (fun s q => asked s u q) (r.pre s₁ l x)) l).requests.any (fun q => decide (q.op = some id))
  | _ => false

theorem one_ask {r : AskRow} {u : Issue} {w : Who} {id : Nat} {s : State} {l : Nat} (h : asksThere r u w id s l = true) :
    ∃ s', r.Goes u w id s [l] s' ∧ s'.requests.filter (fun q => q.op = some id) ≠ [] := by
  unfold asksThere at h
  split at h
  case h_2 => cases h
  case h_1 s₁ e x hx =>
    obtain ⟨hd, hr⟩ := Bool.and_eq_true_iff.1 h
    refine ⟨_, ⟨s₁, e, x, hx, ?_, ?_, ?_, rfl⟩, ?_⟩
    · intro dpa ma hh; subst hh; cases hd
    · intro a hh; subst hh
      simp only [Bool.and_eq_true, Bool.or_eq_true, decide_eq_true_eq, Bool.not_eq_true'] at hd
      exact hd.1
    · intro hk a hh; subst hh
      simp only [Bool.and_eq_true, Bool.or_eq_true, decide_eq_true_eq, Bool.not_eq_true', hk, ne_eq, not_true_eq_false, false_or] at hd
      intro hn
      have := hd.2
      rw [hn] at this
      cases this
    · obtain ⟨q, hq, hop⟩ := List.any_eq_true.1 hr
      exact List.ne_nil_of_mem (List.mem_filter.2 ⟨hq, hop⟩)

/-- What `AskRow.Runs` asks of a package, for a word of one lane. -/
def AskMet (r : AskRow) (s : State) : Prop :=
  let u := unitOf s
  issueOf s = some u ∧ Fresh u ∧ Calm s u ∧ RegsOk u.g r.regs ∧ Aligned u none r.size r.va ∧ execLanes u none ≠ 0 ∧
    (∀ k, r.counter = some k → (counterOf u.g k).val < 255) ∧
    ∃ s₀ s', r.ready s s₀ ∧ r.Goes u (whoGroup s u.key u.g) s₀.nextOp (counted s₀ u r.counter r.load) r.lanes s' ∧
      s'.requests.filter (fun q => q.op = some s₀.nextOp) ≠ []

/-- The thread with its page behind an aperture, in a clause that counts its word or not. -/
def outside (peer count : Bool) : State := behind peer (if count then counting 254 else reaching 0x9000)

theorem outside_met : ∀ p ∈ [true, false], ∀ c ∈ [true, false], let s := outside p c
    let u := unitOf s
    issueOf s = some u ∧ Fresh u ∧ Calm s u ∧ execLanes u none ≠ 0 ∧ lanesOf (execLanes u none) = [0] := by
  intro p hp c hc
  exact ⟨issue_unit (by revert p c; decide +kernel), by unfold Fresh; revert p c; decide +kernel,
    by unfold Calm Plain; revert p c; decide +kernel, by revert p c; decide +kernel, by revert p c; decide +kernel⟩

/-- A row whose one lane asks meets what its statement asks. -/
theorem ask_met {r : AskRow} {s s₀ : State} (hm : issueOf s = some (unitOf s) ∧ Fresh (unitOf s) ∧ Calm s (unitOf s) ∧
      execLanes (unitOf s) none ≠ 0 ∧ lanesOf (execLanes (unitOf s) none) = [0]) (hr : RegsOk (unitOf s).g r.regs) (ha : r.va 0 % r.size = 0)
    (hc : ((r.counter.map (fun k => decide ((counterOf (unitOf s).g k).val < 255))).getD true) = true) (hl : r.lanes = [0]) (h0 : r.ready s s₀)
    (hg : asksThere r (unitOf s) (whoGroup s (unitOf s).key (unitOf s).g) s₀.nextOp (counted s₀ (unitOf s) r.counter r.load) 0 = true) :
    AskMet r s := by
  obtain ⟨s', hs, hn⟩ := one_ask hg
  refine ⟨hm.1, hm.2.1, hm.2.2.1, hr, ?_, hm.2.2.2.1, ?_, s₀, s', h0, by rw [hl]; exact hs, hn⟩
  · intro l h
    have : l ∈ lanesOf (execLanes (unitOf s) none) := mem_lanesOf.2 ⟨h, lane_lt h⟩
    rw [hm.2.2.2.2, List.mem_singleton] at this
    subst this; exact ha
  · intro k hk
    rw [hk] at hc
    simpa using hc

/-- What of it can be computed. -/
abbrev AskSeen (r : AskRow) (s s₀ : State) : Prop :=
  RegsOk (unitOf s).g r.regs ∧ r.va 0 % r.size = 0 ∧
    ((r.counter.map (fun k => decide ((counterOf (unitOf s).g k).val < 255))).getD true) = true ∧ r.lanes = [0] ∧
    asksThere r (unitOf s) (whoGroup s (unitOf s).key (unitOf s).g) s₀.nextOp (counted s₀ (unitOf s) r.counter r.load) 0 = true

/-- LoadsWriteTheirRegisters: loads and LDU through both apertures, counted and not. -/
theorem witness_load_asks : ∀ p ∈ [true, false], ∀ c ∈ [true, false],
    ∀ r ∈ loadAskRows (unitOf (outside p c)) none 4 2 0, AskMet r (outside p c) := by
  have h : ∀ p ∈ [true, false], ∀ c ∈ [true, false], ∀ r ∈ loadAskRows (unitOf (outside p c)) none 4 2 0, AskSeen r (outside p c) (outside p c) := by
    unfold AskSeen RegsOk; decide +kernel
  intro p hp c hc r hr
  have hready : r.ready (outside p c) (outside p c) := by
    simp only [loadAskRows, List.mem_append, List.mem_map, List.mem_singleton] at hr
    rcases hr with ⟨f, _, rfl⟩ | rfl <;> rfl
  obtain ⟨h1, h2, h3, h4, h5⟩ := h p hp c hc r hr
  exact ask_met (outside_met p hp c hc) h1 h2 h3 h4 hready h5

/-- LoadsWriteTheirRegisters: a read of the host by a thread with a store to the host still to be transmitted. -/
theorem witness_host_read : let s : State := { outside false false with requests :=
      [{ plainRequest 1 none 0x9000 4 (leBytes 4 7) with tag := 1, word := 0x8000 }] }
    let u := unitOf s
    issueOf s = some u ∧ Fresh u ∧ Calm s u ∧ clauseSetA u.f = none ∧ RegsOk u.g [(4, 1), (2, 2)] ∧ Aligned u none 4 (addrOf u 2 0 4) ∧
      lanesOf (execLanes u none) = [0] ∧ s.requests.any (unsentBy u 0) = true ∧
      (match translate (counted s u none true) (whoGroup s u.key u.g) .load false (addrOf u 2 0 4 0) with
       | (_, .ok (_, .host h)) => h == 0x9000
       | _ => false) = true := by
  refine ⟨issue_unit (by decide +kernel), by unfold Fresh; decide +kernel, by unfold Calm Plain; decide +kernel, by decide +kernel,
    by unfold RegsOk; decide +kernel, each_lane (by decide +kernel), by decide +kernel, by decide +kernel, by decide +kernel⟩

/-- StoresWriteTheirBytesOnly, NibbleStoresMerge, AtomicsReadAndWriteOnce: stores, STN and atomics through both apertures, counted and not;
the host carries no atomic but add, exchange and compare and swap. -/
theorem witness_other_asks : ∀ p ∈ [true, false], ∀ c ∈ [true, false],
    (∀ r ∈ (storeAskRows (unitOf (outside p c)) none 4 2 0).take 5 ++ [nibbleAskRow (unitOf (outside p c)) none 4 2 0], AskMet r (outside p c)) ∧
    ∀ r ∈ (atomicAskRows (unitOf (outside p c)) none 4 2 6), p = true ∨ r.i ∈ [Instr.atomAdd none 4 2 6, .atomExch none 4 2 6, .atomCas none 4 2 6] →
      AskMet r (outside p c) := by
  have h : ∀ p ∈ [true, false], ∀ c ∈ [true, false],
      (∀ r ∈ (storeAskRows (unitOf (outside p c)) none 4 2 0).take 5 ++ [nibbleAskRow (unitOf (outside p c)) none 4 2 0],
        AskSeen r (outside p c) (outside p c)) ∧
      ∀ r ∈ atomicAskRows (unitOf (outside p c)) none 4 2 6,
        p = true ∨ r.i ∈ [Instr.atomAdd none 4 2 6, .atomExch none 4 2 6, .atomCas none 4 2 6] → AskSeen r (outside p c) (outside p c) := by
    unfold AskSeen RegsOk; decide +kernel
  intro p hp c hc
  refine ⟨fun r hr => ?_, fun r hr hi => ?_⟩
  · have hready : r.ready (outside p c) (outside p c) := by
      rcases List.mem_append.1 hr with hr | hr
      · simp only [storeAskRows, storeForms, List.map_cons, List.map_nil, List.cons_append, List.nil_append, List.take_succ_cons, List.take_zero,
          List.mem_cons, List.not_mem_nil, or_false] at hr
        rcases hr with rfl | rfl | rfl | rfl | rfl <;> rfl
      · rw [List.mem_singleton.1 hr]; rfl
    obtain ⟨h1, h2, h3, h4, h5⟩ := (h p hp c hc).1 r hr
    exact ask_met (outside_met p hp c hc) h1 h2 h3 h4 hready h5
  · have hready : r.ready (outside p c) (outside p c) := by
      simp only [atomicAskRows, List.mem_map] at hr
      obtain ⟨f, _, rfl⟩ := hr
      rfl
    obtain ⟨h1, h2, h3, h4, h5⟩ := (h p hp c hc).2 r hr hi
    exact ask_met (outside_met p hp c hc) h1 h2 h3 h4 hready h5

/-- StoresWriteTheirBytesOnly: a release through both apertures, whose scopes have nothing outstanding. -/
theorem witness_release_asks : ∀ p ∈ [true, false], ∀ c ∈ [true, false],
    ∀ r ∈ (storeAskRows (unitOf (outside p c)) none 4 2 0).drop 5, AskMet r (outside p c) := by
  have h : ∀ p ∈ [true, false], ∀ c ∈ [true, false], ∀ r ∈ (storeAskRows (unitOf (outside p c)) none 4 2 0).drop 5,
      let s := outside p c
      let u := unitOf s
      let x := releaseScopes (whoGroup s u.key u.g) (addrOf u 2 0 (4 * sizeSel none)) s (lanesOf (execLanes u none))
      AskSeen r s x.1 ∧ batchesDone x.1 u.g (execLanes u none) = true ∧ ∀ y ∈ x.2, scopeOpen x.1 u.key (laneBit y.1) y.2 = false := by
    unfold AskSeen RegsOk; decide +kernel
  intro p hp c hc r hr
  obtain ⟨⟨h1, h2, h3, h4, h5⟩, hb, hs⟩ := h p hp c hc r hr
  refine ask_met (outside_met p hp c hc) h1 h2 h3 h4 ?_ h5
  simp only [storeAskRows, storeForms, List.map_cons, List.map_nil, List.cons_append, List.nil_append, List.drop_succ_cons, List.drop_zero,
    List.mem_cons, List.not_mem_nil, or_false] at hr
  subst hr
  exact ⟨_, rfl, hb, hs⟩

/-! ### Failed accesses -/

/-- Why an access has failed. -/
def failure {α : Type} (x : State × XResult α) : Option XBad :=
  match x.2 with
  | .ok _ => none
  | .error b => some b

theorem error_of {α : Type} {x : State × XResult α} {b : XBad} (h : failure x = some b) : x = (x.1, .error b) := by
  obtain ⟨a, y⟩ := x
  cases y with
  | ok v => cases h
  | error e => simp only [failure, Option.some.injEq] at h; subst h; rfl

/-- FailedAccessesStopTheWord: a misaligned address, for the words of more than one byte. -/
theorem witness_misaligned : let s := reaching 0x9001
    let u := unitOf s
    issueOf s = some u ∧ u.asRead = u ∧ lane (execLanes u none) 0 = true ∧
      ∀ r ∈ failRows s u none 4 2 0, RegsOk u.g r.regs ∧ (r.size ≠ 1 → r.va 0 % r.size ≠ 0) := by
  refine ⟨issue_unit (by decide +kernel), by decide +kernel, by decide +kernel, by unfold RegsOk; decide +kernel⟩

/-- The thread at an address that no entry maps, in a clause that counts its word or not. -/
def astray (c : Bool) : State := withGroup (if c then counting 254 else reaching 0x9000) (fun g => { g with v := rowsOf 0 [(128, 0x40000000)] })

/-- A package in which nothing has been asked for yet, after the word has been counted. -/
abbrev countedAt (s : State) (load : Bool) : State :=
  let u := unitOf s
  counted s u (if load then clauseSetA u.f else clauseSetB u.f) load

/-- What its rows ask of it. -/
def FailMet (r : FailRow) (s : State) : Prop :=
  let u := unitOf s
  ∃ s₀ s₁ bad x kind, r.ready s s₀ ∧ r.fails (counted s₀ u (if r.load then clauseSetA u.f else clauseSetB u.f) r.load) 0 s₁ bad x kind ∧
    ∀ y ∈ s₁.requests, y.op ≠ some s₀.nextOp

theorem check_met {r : FailRow} {s : State} {k : Kind} {h : Bool} {b : XBad} (hr : r.ready s s)
    (hf : r.fails = checkFails (whoGroup s (unitOf s).key (unitOf s).g) k h r.va)
    (hx : failure (translate (countedAt s r.load) (whoGroup s (unitOf s).key (unitOf s).g) k false (r.va 0)) = some b ∧
      ∀ y ∈ (translate (countedAt s r.load) (whoGroup s (unitOf s).key (unitOf s).g) k false (r.va 0)).1.requests, y.op ≠ some s.nextOp) :
    FailMet r s :=
  ⟨s, _, b, r.va 0, k, hr, by rw [hf]; exact ⟨rfl, rfl, Or.inl (error_of hx.1)⟩, hx.2⟩

/-- FailedAccessesStopTheWord: every word at an address that no entry maps, counted and not. -/
theorem witness_failed_words : ∀ c ∈ [true, false], let s := astray c
    let u := unitOf s
    issueOf s = some u ∧ Fresh u ∧ execLanes u none ≠ 0 ∧ (launchOfGroup s u.g).isSome = true ∧ lanesOf (execLanes u none) = [0] ∧
      (∀ r ∈ failRows s u none 4 2 0, RegsOk u.g r.regs ∧ r.va 0 % r.size = 0 ∧
        (((if r.load then clauseSetA u.f else clauseSetB u.f).map (fun k => decide ((counterOf u.g k).val < 255))).getD true) = true) ∧
      ∀ r ∈ failRows s u none 4 2 0, FailMet r s := by
  have hx : ∀ c ∈ [true, false], ∀ k ∈ [(Kind.load, true), (.store, false), (.atomic, true)], ∀ n ∈ [0, 4],
      let x := translate (countedAt (astray c) k.2) (whoGroup (astray c) (unitOf (astray c)).key (unitOf (astray c)).g) k.1 false
        (addrOf (unitOf (astray c)) 2 0 n 0)
      failure x = some (.cause 2) ∧ ∀ y ∈ x.1.requests, y.op ≠ some (astray c).nextOp := by decide +kernel
  have hn : ∀ (u : Issue) (n : Nat), addrOf u 2 0 n 0 = addrOf u 2 0 4 0 := fun u n => by simp [addrOf]
  have he : ∀ c ∈ [true, false], ∀ k ∈ [(Kind.load, true), (.store, false)],
      let x := elementAt (countedAt (astray c) k.2) ((whoGroup (astray c) (unitOf (astray c)).key (unitOf (astray c)).g).ofThread (unitOf (astray c)).key 0)
        k.1 ((pfxGet none).aux.getLsbD 0) (addrOf (unitOf (astray c)) 2 0 1 0)
      x.2.toOption.isNone = true ∧ ∀ y ∈ x.1.requests, y.op ≠ some (astray c).nextOp := by decide +kernel
  have hrel : ∀ c ∈ [true, false], let s := astray c
      let u := unitOf s
      let x := releaseScopes (whoGroup s u.key u.g) (addrOf u 2 0 (4 * sizeSel none)) s (lanesOf (execLanes u none))
      s.places = [] ∧ batchesDone x.1 u.g (execLanes u none) = true ∧ x.2 = [] ∧
        (let y := translate (counted x.1 u (clauseSetB u.f) false) (whoGroup s u.key u.g) .store false (addrOf u 2 0 (4 * sizeSel none) 0)
         failure y = some (.cause 2) ∧ ∀ z ∈ y.1.requests, z.op ≠ some x.1.nextOp) := by decide +kernel
  intro c hc
  refine ⟨issue_unit (by revert c; decide +kernel), by unfold Fresh; revert c; decide +kernel, by revert c; decide +kernel,
    by revert c; decide +kernel, by revert c; decide +kernel, by unfold RegsOk; revert c; decide +kernel, ?_⟩
  intro r hr
  have typed : ∀ (i : Instr) (k : Kind) (load z : Bool), (k, load) ∈ [(Kind.load, true), (.store, false)] →
      FailMet ⟨i, 4, 1, [(4, 1), (2, 2)], 1, load, z, addrOf (unitOf (astray c)) 2 0 1,
        elementFails (unitOf (astray c)) (whoGroup (astray c) (unitOf (astray c)).key (unitOf (astray c)).g) k ((pfxGet none).aux.getLsbD 0)
          (addrOf (unitOf (astray c)) 2 0 1), fun s s₀ => s₀ = s⟩ (astray c) := by
    intro i k load z hk
    obtain ⟨h, hq⟩ := he c hc _ hk
    unfold FailMet elementFails
    generalize hx : elementAt _ _ _ _ _ = x at h hq
    obtain ⟨a, y⟩ := x
    cases y with
    | ok v => cases h
    | error e => exact ⟨_, a, e.1, e.2.1, e.2.2, rfl, hx, hq⟩
  simp only [failRows, List.mem_append, List.mem_map, List.mem_cons, List.not_mem_nil, or_false] at hr
  rcases hr with ((⟨f, hf, rfl⟩ | ⟨f, hf, rfl⟩) | ⟨f, hf, rfl⟩) | rfl | rfl | rfl | rfl | rfl
  · exact check_met (k := .load) rfl rfl (by simp only [hn]; exact hx c hc (.load, true) (by simp) 4 (by simp))
  · exact check_met (k := .store) rfl rfl (by simp only [hn]; exact hx c hc (.store, false) (by simp) 4 (by simp))
  · exact check_met (k := .atomic) rfl rfl (by simp only [hn]; exact hx c hc (.atomic, true) (by simp) 4 (by simp))
  · exact check_met (k := .load) rfl rfl (by simp only [hn]; exact hx c hc (.load, true) (by simp) 4 (by simp))
  · exact check_met (k := .store) rfl rfl (hx c hc (.store, false) (by simp) 4 (by simp))
  · obtain ⟨hp, hb, hs, hy, hq⟩ := hrel c hc
    exact ⟨_, _, .cause 2, _, .store, ⟨hp, hb, Prod.ext rfl hs⟩, ⟨rfl, rfl, Or.inl (error_of hy)⟩, hq⟩
  · exact typed _ .load true _ (by simp)
  · exact typed _ .store false _ (by simp)

/-- Packages whose one lane fails for another reason: a frame of no partition; a dropped frame through a leaf that does not permit its
regeneration, or does, in service, registered, and unregistered; a poisoned entry of the walk; and a tier X line that is not there. -/
def failing : List (State × XBad) :=
  let far := reaching 0x10000
  let dropped := fun (s : State) => { s with mem := s.mem.setEntry 1 (indEntry true false true true false false 0 1) }
  let regen := withBytes (dropped far) 0x3000 (leBytes 8 (0x7D + 2 ^ 58))
  [(far, .cause 9), (dropped far, .dropped 1 false),
   ({ regen with mem := { regen.mem with services := [⟨1, 0x10000, none, none, 0, 1, false⟩] } }, .dropped 1 true),
   ({ regen with mem := { regen.mem with services := [⟨1, 0x10000, none, none, 0, 1, true⟩] } }, .dropped 1 true),
   ({ regen with mem := { regen.mem with regen := [(1, (0x8000, 0))], hot := [{ HotCfg.reset with hframe := 8, hcount := 1 }] } }, .dropped 1 true), (regen, .dropped 1 true),
   (let s := reaching 0x9000; { s with mem := { s.mem with poison := [0x300] } }, .poison 0x9000),
   ({ far with mem := far.mem.setEntry 1 (indEntry true true false false false false 0 5) }, .wait ((hostBase + 5 * 65536) / 128))]

/-- FailedAccessesStopTheWord: each of these reasons. -/
theorem witness_failures : ∀ x ∈ failing, let u := unitOf x.1
    issueOf x.1 = some u ∧ Fresh u ∧ execLanes u none ≠ 0 ∧ (launchOfGroup x.1 u.g).isSome = true ∧ RegsOk u.g [(4, 1), (2, 2)] ∧
      failure (translate (counted x.1 u none true) (whoGroup x.1 u.key u.g) .load false (addrOf u 2 0 4 0)) = some x.2 := by
  intro x hx
  exact ⟨issue_unit (by revert x; decide +kernel), by unfold Fresh; revert x; decide +kernel, by revert x; decide +kernel, by revert x; decide +kernel,
    by unfold RegsOk; revert x; decide +kernel, by revert x; decide +kernel⟩

/-- FailedAccessesStopTheWord: a registered frame, of which a service may start, since its partition has a free frame. -/
theorem test_regen_may_start : ∀ x ∈ failing, (tfind x.1.mem.regen 1).isSome = true →
    regenDepth x.1 (whoGroup x.1 (unitOf x.1).key (unitOf x.1).g) ≤ 4 ∧ (freeMa x.1.mem 0).isSome = true := by
  decide +kernel

/-- FailedAccessesStopTheWord: lane 1 fails once lane 0 has been performed. -/
theorem witness_higher_lane_fails : let s := Pick.at { lanes := 3, created := 3, v := [(2, 0x9000)] }
    let s := withGroup s (fun g => { g with v := rowsOf 0 [(128, 0x9000), (129, 0x40000000)] })
    let u := unitOf s
    issueOf s = some u ∧ Fresh u ∧ Calm s u ∧ (launchOfGroup s u.g).isSome = true ∧ lane (execLanes u none) 1 = true ∧
      clauseSetA u.f = none ∧ clauseSetB u.f = none ∧ RegsOk u.g [(4, 1), (2, 2)] ∧ Aligned u none 4 (addrOf u 2 0 4) ∧
      (lanesOf (execLanes u none)).filter (· < 1) = [0] ∧
      ∀ k ∈ [Kind.load, .store], reachesDevice (translate (counted s u none (k = .load)) (whoGroup s u.key u.g) k false (addrOf u 2 0 4 0)) = true ∧
        failure (translate s (whoGroup s u.key u.g) k false (addrOf u 2 0 4 1)) = some (.cause 2) := by
  refine ⟨issue_unit (by decide +kernel), by unfold Fresh; decide +kernel, by unfold Calm Plain; decide +kernel, by decide +kernel,
    by decide +kernel, by decide +kernel, by decide +kernel, by unfold RegsOk; decide +kernel, each_lane (by decide +kernel), by decide +kernel,
    by decide +kernel⟩

/-- A request that a thread's aperture still owes. -/
def owing (peer : Option Nat) : State :=
  { Pick.at {} with requests := [⟨1, 1, peer, 0x9000, 4, [], 0, 0, 0, 0, 0, none, false, 0, 0, 0x9000, true, false, none, 0, false, none, none⟩] }

/-- FencesWaitForTheirScopes: nothing outstanding, something outstanding in each scope, and a sealed transfer that has not completed. -/
theorem witness_fences : let s := Pick.at {}
    let u := unitOf s
    let t : State := { withGroup s (fun g => { g with batches := [(0, ⟨[], [9], []⟩)] }) with
      transfers := [(9, { (default : Transfer) with number := 9, complete := none })] }
    issueOf s = some u ∧ s.places = [] ∧ scopeOpen s u.key u.f.lanes true = false ∧ scopeOpen s u.key u.f.lanes false = false ∧
      batchesDone s u.g u.f.lanes = true ∧ lane u.f.lanes 0 = true ∧
      issueOf t = some (unitOf t) ∧ t.places = [] ∧ batchesDone t (unitOf t).g (unitOf t).f.lanes = false ∧
      ∀ p ∈ [some 3, none], issueOf (owing p) = some (unitOf (owing p)) ∧ (owing p).places = [] ∧
        scopeOpen (owing p) (unitOf (owing p)).key (unitOf (owing p)).f.lanes p.isSome = true := by
  refine ⟨issue_unit (by decide +kernel), by decide +kernel, by decide +kernel, by decide +kernel, by decide +kernel, by decide +kernel,
    issue_unit (by decide +kernel), by decide +kernel, by decide +kernel, ?_⟩
  intro p hp
  exact ⟨issue_unit (by revert p; decide +kernel), by revert p; decide +kernel, by revert p; decide +kernel⟩

end Sys2Proof.Tests
end

