-- ==== Sys2Proof/Tests/WitnessWords.lean ====
section
/-!
SUPPORT. Witnesses of the statements about lane words, masks, control flow and the register pool: for the hypotheses of each, a
package and operands that meet all of them together.
-/
namespace Sys2Proof.Tests

open Sys2Proof
open Sys2Proof.Machine

set_option Elab.async false

/-! ### Lane words -/

/-- IntegerWordsGiveTheirResults, FloatAndConversionWordsGiveTheirResults: registers, pairs and scalars at the ends of the allocation. -/
theorem witness_lane_words : let s := Pick.at {}
    issueOf s = some (unitOf s) ∧ RegsOk (unitOf s).g [(191, 1), (0, 1), (255, 1)] ∧ RegsOk (unitOf s).g [(190, 2), (192, 2), (254, 2)] := by
  refine ⟨issue_unit (by decide +kernel), ?_, ?_⟩ <;> unfold RegsOk <;> decide +kernel

/-- FloatAndConversionWordsGiveTheirResults, SpecialFunctionsMeetTheirBounds: operands of every range that the clauses name. -/
theorem witness_special_operands : (decodeFmt .f32 0x7FC00000 = .nan) ∧
    ∀ x ∈ ([(0x3F800000, 1), (0x3F000000, 1 / 2), (0x40000000, 2), (0x40800000, 4), (0x3E800000, 1 / 4), (0xBF800000, -1), (0x39000000, 1 / 8192),
      (0x41180000, 19 / 2), (0xC1180000, -19 / 2), (0x43000000, 128), (0xC3160000, -150), (0xC3150000, -149), (0x42FE0000, 127)] : List (Nat × Rat)),
      decodeFmt .f32 x.1 = .num x.2 (decide (x.2 < 0)) := by decide +kernel

/-- The same, for the units of F2F.pk: a position that the format has. -/
theorem witness_pair_row : (Instr.f2fPk (some ⟨11, false, false, false, 0, 0, false, 0⟩) 4 5 6).WellFormed := by decide +kernel

/-- ForbiddenRegistersTrapAtTheWord: a register beyond the allocation, an odd pair, and a mask word that would write m0. -/
theorem witness_forbidden_registers :
    let s := withGroup (Pick.at {}) (fun g => { g with held := 1 })
    issueOf s = some (unitOf s) ∧ ¬ RegsOk (unitOf s).g [(8, 1), (0, 1), (0, 1)] ∧ ¬ RegsOk (unitOf s).g [(3, 2)] ∧
      (rowMask (.icmpI32 none 0 0 4 5) none 0 [(4, 1), (5, 1)] (fun _ _ => true)).m = 0 := by
  refine ⟨issue_unit (by decide +kernel), ?_, ?_, by decide⟩ <;> unfold RegsOk <;> decide +kernel

/-- MoveAndMaskWordsRun: an index that reaches the last register of the allocation, one that goes beyond it, a mask that may be
written, a stream whose destination stands before its quad or inside it. -/
theorem witness_moves_and_streams :
    let s := Pick.at { v := [(5, 183), (6, 184)] }
    let u := unitOf s
    issueOf s = some u ∧ RegsOk u.g [(4, 1), (8, 1), (5, 1)] ∧ (pfxGet none).aux.getLsbD 0 = false ∧ IndexOk u none 8 5 ∧
      ¬ IndexOk u none 8 6 ∧ (pfxGet (some ⟨1, false, false, false, 0, 0, false, 0⟩)).aux.getLsbD 0 = true ∧
      IndexOk u (some ⟨1, false, false, false, 0, 0, false, 0⟩) 8 5 ∧ (1 : BitVec 3) ≠ 0 ∧
      RegsOk u.g [(7, 1), (8, 4), (5, 1)] ∧ (7 : Opnd).toNat < (8 : Opnd).toNat ∧ RegsOk u.g [(11, 1), (8, 4), (5, 1)] ∧
      ((8 : Opnd).toNat ≤ (11 : Opnd).toNat ∧ (11 : Opnd).toNat < 12) ∧ RegsOk u.g [(8, 4), (6, 2)] ∧
      (1 : Opnd).setWidth 3 ≠ (0 : BitVec 3) := by
  refine ⟨issue_unit (by decide +kernel), ?_, by decide, ?_, ?_, by decide, ?_, by decide, ?_, by decide, ?_, by decide, ?_, by decide⟩
  all_goals first
    | (unfold RegsOk; decide +kernel)
    | (refine each_lane ?_; decide +kernel)
    | (intro h; exact absurd (h 0 (by decide +kernel)) (by decide +kernel))

/-- SpecialAndTrapRegistersReadAndWrite: the last special register, and a group that neither captures nor replays. -/
theorem witness_special_registers : let s := Pick.at {}
    issueOf s = some (unitOf s) ∧ (0x0D : Byte).toNat < 14 ∧ Plain s (unitOf s) ∧ RegsOk (unitOf s).g [(4, specialRegs 0x0D)] ∧
      RegsOk (unitOf s).g [(4, 2)] ∧ RegsOk (unitOf s).g [(4, 1)] := by
  refine ⟨issue_unit (by decide +kernel), by decide, ?_, ?_, ?_, ?_⟩ <;> first | (unfold Plain; decide +kernel) | (unfold RegsOk; decide +kernel)

/-- RegisterPoolWordsRunAndAreGranted: no Active lane; a request that fits and one that does not; one that can be met at once; a
release of blocks with nothing owed, one that a load owes, and one of too many. -/
theorem witness_register_pool_words :
    let off : Option Pfx := some ⟨0, false, false, false, 0, 0, false, 1⟩
    let s := withGroup (Pick.at {}) (fun g => { g with held := 1 })
    let u := unitOf s
    issueOf s = some u ∧ execLanes u off = 0 ∧ execLanes u none ≠ 0 ∧ u.g.held + (23 : Byte).toNat ≤ 24 ∧ 24 < u.g.held + (24 : Byte).toNat ∧
      Plain s u ∧ waitingRequests s u = [] ∧ (1 : Byte).toNat * (u.g.width / 16) ≤ freeGranules s (u.key / 128) u.g.quarter ∧
      0 < (1 : Byte).toNat ∧ (0 : Byte).toNat < u.g.held ∧ loadOwes s u.key (8 * (u.g.held - (0 : Byte).toNat)) = false ∧
      u.g.held ≤ (1 : Byte).toNat := by
  refine ⟨issue_unit (by decide +kernel), ?_⟩; unfold Plain; decide +kernel

theorem witness_register_release_waits :
    let s : State := { withGroup (Pick.at {}) (fun g => { g with held := 2 }) with
      ops := [(7, ⟨0, some 0, true, [⟨0, 0, 10, 5, 0⟩], 0, true, false, false, false⟩)] }
    let u := unitOf s
    issueOf s = some u ∧ execLanes u none ≠ 0 ∧ (1 : Byte).toNat < u.g.held ∧ loadOwes s u.key (8 * (u.g.held - (1 : Byte).toNat)) = true := by
  refine ⟨issue_unit (by decide +kernel), ?_⟩; decide +kernel

/-- The grant: the oldest request of quarter 0, with its fragment held, where blocks are free and where none are; and a group that holds all
it may. -/
@[irreducible] def granting (b1 : Nat) (held : Nat := 1) : State :=
  let s := withGroup (Pick.at {}) (fun g => { g with held := held, frags := g.frags.map (fun f => { f with hold := .ralloc 1 4 1 }) })
  setCore s 0 { coreOf s 0 with requests := [(0, 0, 0, 1)], b1 := b1 }

theorem witness_register_pool_grant : ∀ x ∈ [(0, false), (4, true)], let s := granting x.1
    ((coreOf s s.input.key).requests.filter (fun y => y.1 = s.input.sub)).head? = some (0, 0, 0, 1) ∧
      ((groupOf s 0).bind (fun g => fragAt g 0)).map (·.hold) = some (.ralloc 1 4 1) ∧ (0 : Nat) < 1 ∧
      (groupOf s 0).map (fun g => decide (1 * (g.width / 16) ≤ freeGranules s s.input.key 0)) = some x.2 := by
  decide +kernel

theorem witness_register_pool_grant_too_many : let s := granting 4 24
    ((coreOf s s.input.key).requests.filter (fun y => y.1 = s.input.sub)).head? = some (0, 0, 0, 1) ∧
      ((groupOf s 0).bind (fun g => fragAt g 0)).map (·.hold) = some (.ralloc 1 4 1) ∧ (groupOf s 0).map (·.held) = some 24 := by
  decide +kernel

/-! ### Control -/

/-- WordsPassOrWait: a counter below the number waited for, and one that has reached it; a number of 1 and up. -/
theorem witness_waits : let s := withGroup (Pick.at {}) (fun g => setCounter g 11 { counterOf g 11 with val := 3 })
    issueOf s = some (unitOf s) ∧ (1 : Byte) ≠ 0 ∧ (counterOf (unitOf s).g (11 : Byte).toNat).val < (4 : Byte).toNat ∧
      (3 : Byte).toNat ≤ (counterOf (unitOf s).g (11 : Byte).toNat).val := by
  refine ⟨issue_unit (by decide +kernel), ?_⟩; decide +kernel

/-- BranchesSendTheirThreads, CallsPushAndReturnsPop: a branch back to the header of its clause, whose target passes. -/
theorem witness_branch_passes : let s := Pick.at {}
    let u := unitOf s
    issueOf s = some u ∧ RegsOk u.g (branchRegs (.bra 0xFFFFFF)) ∧
      (∃ s₁, TargetsPass (whoGroup s u.key u.g) (stampOf s u.g) s (targetsTaken u (fun _ => some ((u.f.pc : Int) + 4 * (0xFFFFFF : BitVec 24).toInt))) s₁) ∧
      ∀ l, lane u.f.lanes l = true → (stackOf u.g l).length < 16 := by
  refine ⟨issue_unit (by decide +kernel), fun r hr => (by cases hr), ?_, each_lane (by decide +kernel)⟩
  have h : targetsTaken (unitOf (Pick.at {})) (fun _ => some (((unitOf (Pick.at {})).f.pc : Int) + 4 * (0xFFFFFF : BitVec 24).toInt)) =
    [((0x8000 : Nat) : Int)] := by decide +kernel
  rw [h]
  exact one_target (by decide) (by decide) (by decide +kernel)

/-- A table of one entry at 0x9000 that leads to the header at CBASE, 0x8000. -/
@[irreducible] def tabled : State := withBytes (Pick.at { v := [(4, 0)], sc := [(5, 0x9000)] }) 0x9000 (leBytes 8 1 ++ leBytes 8 0)

theorem witness_branch_table :
    let u := unitOf tabled
    let table := (sreg u.g ((197 : Opnd).toNat - 192)).toNat
    issueOf tabled = some u ∧ RegsOk u.g [((4 : Opnd), 1)] ∧ table % 8 = 0 ∧ u.f.lanes ≠ 0 ∧
      ∃ s₁ ts, TableGives (whoGroup tabled u.key u.g) u.key (stampOf tabled u.g) (((launchOfGroup tabled u.g).map recCbase).getD 0) table
          (fun l => (val32 u.g 4 l).toNat) tabled [] (lanesOf u.f.lanes) s₁ ts ∧
        ts = [(0, ((0x8000 : Nat) : Int))] := by
  let u := unitOf tabled
  let w := whoGroup tabled u.key u.g
  let tab := (sreg u.g ((197 : Opnd).toNat - 192)).toNat
  let r₁ := loadBytes tabled (w.ofThread u.key 0) .load tab 4
  let r₂ := loadBytes r₁.1 (w.ofThread u.key 0) .load (tab + 8 + 8 * (val32 u.g 4 0).toNat) 8
  obtain ⟨s₃, hp⟩ : ∃ s₃, TargetsPass w (stampOf tabled u.g) r₂.1 [((0x8000 : Nat) : Int)] s₃ :=
    one_target (by decide) (by decide) (by decide +kernel)
  refine ⟨issue_unit (by decide +kernel), by unfold RegsOk; decide +kernel, by decide +kernel, by decide +kernel, s₃, [(0, ((0x8000 : Nat) : Int))], ?_, rfl⟩
  have hl : lanesOf (unitOf tabled).f.lanes = [0] := by decide +kernel
  rw [hl]
  have ht : ((((launchOfGroup tabled u.g).map recCbase).getD 0 + leNat (leBytes 8 0) : Nat) : Int) = ((0x8000 : Nat) : Int) := by
    decide +kernel
  refine ⟨r₁.1, r₂.1, s₃, leBytes 4 1, leBytes 8 0, [], ?_, by decide +kernel, ?_, ?_, ⟨rfl, rfl⟩, ?_⟩
  · exact ok_of (x := r₁) (by decide +kernel)
  · exact ok_of (x := r₂) (by decide +kernel)
  · simp only [List.not_mem_nil, if_false]; rw [ht]; exact hp
  · rw [ht]

/-- Targets that are refused: 2^56, one that is no multiple of 4, one below 0, and the address of a word that is no header; a table that
is not 8-aligned, and an index at the table's count. -/
theorem witness_refused_targets :
    let s := Pick.at { v := [(4, 0), (5, 0x1000000), (6, 0x8002), (7, 0), (8, 0x8004), (9, 0)] }
    let u := unitOf s
    issueOf s = some u ∧ lane u.f.lanes 0 = true ∧ RegsOk u.g [((4 : Opnd), 2)] ∧ (val64 u.g 4 0).toNat = 2 ^ 56 ∧
      (val64 u.g 6 0).toNat % 4 ≠ 0 ∧ (u.f.pc : Int) + 4 * (0x800000 : BitVec 24).toInt < 0 ∧ (val64 u.g 8 0).toNat = 0x8004 ∧
      ∃ h s₁, fetchWord s (whoGroup s u.key u.g) (stampOf s u.g) 0x8004 = (s₁, .ok h) ∧ targetWordOk h = false := by
  refine ⟨issue_unit (by decide +kernel), by decide +kernel, by unfold RegsOk; decide +kernel, by decide +kernel, by decide +kernel,
    by decide +kernel, by decide +kernel, 0, _, ok_of (by decide +kernel), by decide⟩

theorem witness_refused_tables :
    let s := Pick.at { v := [(4, 1)], sc := [(5, 0x9000), (6, 0x9004)] }
    let t := withBytes s 0x9000 (leBytes 8 1)
    let u := unitOf t
    issueOf t = some u ∧ RegsOk u.g [((4 : Opnd), 1)] ∧ u.f.lanes ≠ 0 ∧ (sreg u.g 6).toNat % 8 ≠ 0 ∧ (sreg u.g 5).toNat % 8 = 0 ∧
      ∃ s₁ count, loadBytes t ((whoGroup t u.key u.g).ofThread u.key (lowest u.f.lanes)) .load (sreg u.g 5).toNat 4 = (s₁, .ok count) ∧
        leNat count ≤ (val32 u.g 4 (lowest u.f.lanes)).toNat := by
  refine ⟨issue_unit (by decide +kernel), by unfold RegsOk; decide +kernel, by decide +kernel, by decide +kernel, by decide +kernel, _,
    leBytes 4 1, ok_of (by decide +kernel), by decide +kernel⟩

/-- A full return stack, a stack with an address to return to, and an empty one. -/
theorem witness_return_stacks :
    let full := withGroup (Pick.at {}) (fun g => { g with rstack := [(0, List.replicate 16 0x8000)] })
    let s := withGroup (Pick.at {}) (fun g => { g with rstack := [(0, [0x8000])] })
    issueOf full = some (unitOf full) ∧ 16 ≤ (stackOf (unitOf full).g 0).length ∧ lane (unitOf full).f.lanes 0 = true ∧
      issueOf s = some (unitOf s) ∧ (∀ l, lane (unitOf s).f.lanes l = true → stackOf (unitOf s).g l ≠ []) ∧
      (∃ s₁, TargetsPass (whoGroup s (unitOf s).key (unitOf s).g) (stampOf s (unitOf s).g) s
        (targetsTaken (unitOf s) (fun l => (stackOf (unitOf s).g l).head?.map (fun (x : Nat) => (x : Int)))) s₁) ∧
      stackOf (unitOf (Pick.at {})).g 0 = [] := by
  refine ⟨issue_unit (by decide +kernel), by decide +kernel, by decide +kernel, issue_unit (by decide +kernel), each_lane (by decide +kernel), ?_,
    by decide +kernel⟩
  have h : targetsTaken (unitOf (withGroup (Pick.at {}) (fun g => { g with rstack := [(0, [0x8000])] })))
      (fun l => (stackOf (unitOf (withGroup (Pick.at {}) (fun g => { g with rstack := [(0, [0x8000])] }))).g l).head?.map (fun (x : Nat) => (x : Int))) =
    [((0x8000 : Nat) : Int)] := by decide +kernel
  rw [h]
  exact one_target (by decide) (by decide) (by decide +kernel)

/-- RendezvousWordsMeetOrWait: a fragment that is all the live members of m0; members that are still awaited; a thread outside the
members that m1 names. -/
theorem witness_rendezvous :
    let s := Pick.at {}
    let t := Pick.at { created := 3 }
    let u := unitOf t
    issueOf s = some (unitOf s) ∧ Alone (unitOf s) (0 : Opnd).toNat ∧ (1 : BitVec 3) ≠ 0 ∧ RegsOk (unitOf s).g [(4, 1), (5, 1), (6, 1)] ∧
      (4 : Opnd).toNat < 192 ∧ issueOf t = some u ∧ u.g.rdv = [] ∧ u.f.lanes &&& ~~~(maskReg u.g 1 &&& liveLanes u.g) ≠ 0 ∧
      u.f.lanes &&& ~~~(maskReg u.g 0 &&& liveLanes u.g) = 0 ∧ lane (maskReg u.g 0 &&& liveLanes u.g) 1 = true ∧ lane u.f.lanes 1 = false ∧
      ∀ f ∈ u.g.frags, ∀ x, f.hold = .rendezvous x → lane f.lanes 1 = false := by
  refine ⟨issue_unit (by decide +kernel), ⟨by decide +kernel, by decide +kernel, by decide +kernel, by decide +kernel, by decide +kernel⟩,
    by decide, by unfold RegsOk; decide +kernel, by decide, issue_unit (by decide +kernel), by decide +kernel, by decide +kernel,
    by decide +kernel, by decide +kernel, by decide +kernel, ?_⟩
  have h : ∀ f ∈ (unitOf (Pick.at { created := 3 })).g.frags, lane f.lanes 1 = false := by decide +kernel
  exact fun f hf _ _ => h f hf

/-- A fragment of lane 0 at a word at which lane 1 waits already, in an instance of it that both are members of. -/
@[irreducible] def meeting (i : Instr) : State :=
  withGroup (Pick.at { created := 3, v := [(4, 7), (5, 1)] }) (fun g => { g with
    frags := g.frags ++ g.frags.map (fun f => { f with lanes := 2, hold := .rendezvous 0x8004 })
    rdv := [⟨i, 1, 0x8004, 3, 3, 2, 2, [(1, 9)], [(1, 0)], [(1, 0)], 0⟩] })

/-- RendezvousWordsMeetOrWait: every rendezvous word of a fragment outside the members of m1 and inside those of m0 (JOIN and VOTE name the
mask by an operand, the others by aux). -/
theorem witness_rendezvous_members :
    let s := Pick.at { created := 3 }
    let u := unitOf s
    let out : Option Pfx := some ⟨1, false, false, false, 0, 0, false, 0⟩
    issueOf s = some u ∧ (∀ x ∈ otherInstances u, StillOpen u x) ∧
      (∀ w ∈ meetWords u out 4 1 1 1 0 0, u.f.lanes &&& ~~~(instanceMet s u w).members ≠ 0) ∧
      ∀ w ∈ meetWords u none 4 0 0 1 0 0, RegsOk u.g w.regs ∧ u.f.lanes &&& ~~~(instanceMet s u w).members = 0 ∧
        lane (awaitedBy u.g (afterArrival s u w)) 1 = true ∧ lane u.f.lanes 1 = false ∧ ∀ f ∈ u.g.frags, lane f.lanes 1 = false := by
  have h : otherInstances (unitOf (Pick.at { created := 3 })) = [] := by decide +kernel
  refine ⟨issue_unit (by decide +kernel), fun x hx => (by rw [h] at hx; cases hx), by decide +kernel, ?_⟩
  unfold RegsOk; decide +kernel

/-- RendezvousWordsMeetOrWait: the arrival of lane 0 completes the instance of each word. -/
theorem witness_rendezvous_completes : ∀ k < 15,
    let u₀ := unitOf (meeting .nop)
    let s := meeting (((meetWords u₀ none 4 0 0 1 0 0)[k]?).map (·.i) |>.getD .nop)
    let u := unitOf s
    issueOf s = some u ∧ otherInstances u = [] ∧ ExitedHaveLoaded s u ∧ u.f.lanes ≠ 0 ∧
      ∀ w ∈ (meetWords u none 4 0 0 1 0 0)[k]?, u.f.lanes &&& ~~~(instanceMet s u w).members = 0 ∧ awaitedBy u.g (afterArrival s u w) = 0 ∧
        ∀ r ∈ u.g.rdv, r.addr = u.f.pc ∧ r.row = w.i ∧ r.words = u.words.length ∧ r.active &&& ~~~r.arrived = 0 ∧
          (∀ x ∈ r.opA, x.2.toNat < 2 ^ 32) ∧ ∀ f ∈ u.g.frags, f.pc = u.f.pc ∧ f.clause = u.f.clause := by
  intro k hk
  refine ⟨issue_unit (by revert k; decide +kernel), by revert k; decide +kernel, by unfold ExitedHaveLoaded; revert k; decide +kernel,
    by revert k; decide +kernel, by revert k; decide +kernel⟩

/-- ExitEndsTheThreads. -/
theorem witness_exit : let s := Pick.at { created := 3 }
    let u := unitOf s
    issueOf s = some u ∧ u.g.rdv = [] ∧ (∀ x ∈ s.groups, x.2.gang = u.g.gang → x.2.arrTeam = 0 ∧ x.2.arrGang = 0) ∧
      liveLanes u.g &&& ~~~u.f.lanes ≠ 0 := by
  refine ⟨issue_unit (by decide +kernel), ?_⟩; decide +kernel

/-- ExitEndsTheThreads: the last threads of the group. -/
theorem witness_exit_last : let s := Pick.at {}
    let u := unitOf s
    issueOf s = some u ∧ u.g.rdv = [] ∧ (∀ x ∈ s.groups, x.2.gang = u.g.gang → x.2.arrTeam = 0 ∧ x.2.arrGang = 0) ∧
      liveLanes u.g &&& ~~~u.f.lanes = 0 ∧ u.g.pending = [] := by
  refine ⟨issue_unit (by decide +kernel), ?_⟩; decide +kernel

end Sys2Proof.Tests
end

/-!
SUPPORT. Laws of a host function's accesses (R403, R404, R492), of inbound host writes (R462) and of the host link's completions
(R287), and the statements about the package and its resources that follow from them.
-/
namespace Sys2Proof.Machine

open Sys2Proof

/-! ### Reset -/

/-- Settles O59: the tables of the reset state are empty, so that each entry reads as its reset column. -/
theorem resetLeavesTheStatedValues : Obligations.ResetLeavesTheStatedValues := by
  have dies : ∀ d < 3, State.reset.dies[d]? = some Die.reset := by decide
  have unmapped : ∀ f, IndV (State.reset.mem.entry f) = false := fun f => by
    have unbooted : State.reset.mem.entry f = 0 := rfl
    rw [unbooted]; rfl
  exact ⟨wf_reset, rfl, dies, rfl, fun _ => rfl, unmapped, rfl, fun _ => ⟨rfl, rfl, rfl⟩, fun _ => rfl, rfl, rfl⟩

/-! ### Lists and sectors -/

theorem bne_eq_decide_ne (x y : Nat) : (x != y) = decide (x ≠ y) := by simp [bne, BEq.beq]

theorem mem_insertNat {x y : Nat} {xs : List Nat} : y ∈ insertNat x xs ↔ y = x ∨ y ∈ xs := by
  induction xs with
  | nil => simp [insertNat]
  | cons z zs ih =>
    unfold insertNat
    split
    · subst z; simp
    · split
      · simp
      · simp only [List.mem_cons, ih]; tauto

theorem not_mem_removeNat (x : Nat) (xs : List Nat) : x ∉ removeNat x xs := by simp [removeNat]

theorem mem_addPoison {y : Nat} {sectors p : List Nat} : y ∈ addPoison sectors p ↔ y ∈ sectors ∨ y ∈ p := by
  unfold addPoison
  induction sectors generalizing p with
  | nil => simp
  | cons x xs ih => simp only [List.foldl_cons, ih, mem_insertNat, List.mem_cons]; tauto

/-- A line that starts at a boundary has eight sectors. -/
theorem mem_sectorsOf_line {a i : Nat} (ha : a % 128 = 0) (hi : i < 8) : a / 16 + i ∈ sectorsOf a 128 := by
  unfold sectorsOf
  rw [if_neg (by decide)]
  exact List.mem_map.mpr ⟨i, List.mem_range.mpr (by omega), rfl⟩

/-- Padding takes nothing from a list that is as long as asked. -/
theorem take_padded {α : Type} {xs : List α} {n : Nat} (h : xs.length = n) (m : Nat) (x : α) :
    (xs ++ List.replicate m x).take n = xs := by
  rw [← h, List.take_left]

/-! ### Accesses of a host function -/

/-- A function that reaches a register acts on it. -/
theorem hostAct_open {s : State} {part : Option Nat} (h : PortOpen s part) (o : Nat) (act : State → Out) :
    hostAct s o part act = act s := by
  obtain ⟨f, hf, frozen, own⟩ := h
  have allowed : reach s s.input.fn part = .allowed := by
    unfold reach
    rcases own with zero | ⟨bound, same⟩
    · rw [hf]; simp [zero, frozen]
    · rw [hf]; simp [bound, same, frozen]
  unfold hostAct
  dsimp only
  rw [allowed]

/-- A latch that is used up holds nothing. -/
theorem latchOf_setLatch_nil (s : State) (fn key : Nat) : latchOf (setLatch s fn key []) fn key = [] := by
  unfold latchOf setLatch
  split
  · next h => simp [h]
  · next f h =>
    have hlt : fn < s.funcs.length := (List.getElem?_eq_some_iff.mp h).1
    simp [hlt]

@[simp] theorem setLatch_input (s : State) (fn key : Nat) (xs : List (Nat × Byte)) : (setLatch s fn key xs).input = s.input := by
  unfold setLatch; split <;> rfl

@[simp] theorem setLatch_banks (s : State) (fn key : Nat) (xs : List (Nat × Byte)) : (setLatch s fn key xs).banks = s.banks := by
  unfold setLatch; split <;> rfl

@[simp] theorem setLatch_results (s : State) (fn key : Nat) (xs : List (Nat × Byte)) : (setLatch s fn key xs).results = s.results := by
  unfold setLatch; split <;> rfl

/-! ### DIESTAT (R13) -/

theorem halfBusy_iff (s : State) (die half part : Nat) : halfBusy s die half part = true ↔ HalfBusy s die half part := by
  unfold halfBusy HalfBusy
  simp

/-- What a write of one half's partition does to a die. -/
theorem movePart_die {s : State} {die : Nat} {d : Die} (hd : s.dies[die]? = some d) (half v : Nat) :
    let old := if half = 0 then d.partlo else d.parthi
    ((d.fenced = true ∨ v = 6) → movePart s die half v = setDie s die { d with rej := true }) ∧
    (d.fenced = false → v ≠ 6 → v = old → movePart s die half v = s) ∧
    (d.fenced = false → v ≠ 6 → v ≠ old → HalfBusy s die half old → movePart s die half v = setDie s die { d with rej := true }) ∧
    (d.fenced = false → v ≠ 6 → v ≠ old → ¬ HalfBusy s die half old →
      movePart s die half v = setDie s die (if half = 0 then { d with partlo := v } else { d with parthi := v })) := by
  intro old
  have moved : movePart s die half v =
      if d.fenced || v = 6 then setDie s die { d with rej := true }
      else if v = old then s
      else if halfBusy s die half old then setDie s die { d with rej := true }
      else setDie s die (if half = 0 then { d with partlo := v } else { d with parthi := v }) := by
    unfold movePart; rw [hd]
  rw [moved]
  refine ⟨fun h => ?_, fun hf h6 hv => ?_, fun hf h6 hv hb => ?_, fun hf h6 hv hb => ?_⟩
  · rw [if_pos (by simpa using h)]
  · rw [if_neg (by simp [hf, h6]), if_pos hv]
  · rw [if_neg (by simp [hf, h6]), if_neg hv, if_pos ((halfBusy_iff ..).mpr hb)]
  · rw [if_neg (by simp [hf, h6]), if_neg hv, if_neg (fun h => hb ((halfBusy_iff ..).mp h))]

/-- PF0's write of a die's half moves its partition, or is turned down. -/
theorem diestatOp_open {s : State} (h : PortOpen s none) (hk : s.input.key < 3) (half : Nat) :
    diestatOp s half = .next (movePart s s.input.key half (s.input.value.toNat % 8)) := by
  unfold diestatOp
  dsimp only
  rw [if_neg (by omega), hostAct_open h]

/-! ### ERRCLRH (R437) -/

theorem execErrclrh_open {s : State} (h : PortOpen s none) : exec .errclrh s =
    (let t := setLatch s s.input.fn ERRCLRH_AT []
     let unit := s.input.value.toNat % 65536
     let r := if unitExists unit then clearBank t unit s.input.value2.toNat else (t, false)
     .next { r.1 with results := tput r.1.results ERRCLRH_AT (BitVec.ofNat 64 (!r.2).toNat) }) := by
  change execErrclrh s = _
  unfold execErrclrh latchedAct
  rw [hostAct_open h]
  simp only [setLatch_input]

/-- The first word of a bank. -/
theorem bankWord_zero (b : Bank) : bankWord b 0 = b.toNat % 2 ^ 64 := by simp [bankWord, bits]

/-- A bank that still reads as expected is cleared but for its sequence number. -/
theorem clearBank_expected {s : State} {unit expected : Nat} (h : (tget 0 s.banks unit).toNat % 2 ^ 64 = expected) :
    clearBank s unit expected =
      ({ s with banks := tset 0 s.banks unit (BitVec.ofNat 256 (2 ^ 48 * bankSeq (tget 0 s.banks unit))) }, true) := by
  unfold clearBank
  exact if_pos ((bankWord_zero _).trans h)

/-- A bank that has changed since stays. -/
theorem clearBank_changed {s : State} {unit expected : Nat} (h : (tget 0 s.banks unit).toNat % 2 ^ 64 ≠ expected) :
    clearBank s unit expected = (s, false) := by
  unfold clearBank
  exact if_neg fun e => h ((bankWord_zero _).symm.trans e)

theorem toNat_clearedBank (b : Bank) : (BitVec.ofNat 256 (2 ^ 48 * bankSeq b)).toNat = 2 ^ 48 * bankSeq b := by
  have seq : bankSeq b < 2 ^ 16 := Nat.mod_lt _ (by decide)
  rw [BitVec.toNat_ofNat]
  exact Nat.mod_eq_of_lt (by omega)

theorem errclrh_clears {s : State} (h : PortOpen s none) (hu : unitExists (s.input.value.toNat % 65536) = true)
    (hw : (tget 0 s.banks (s.input.value.toNat % 65536)).toNat % 2 ^ 64 = s.input.value2.toNat) :
    ∃ t, exec .errclrh s = .next t ∧ tfind t.results 0x7F0000 = some 0 ∧
      (tget 0 t.banks (s.input.value.toNat % 65536)).toNat = 2 ^ 48 * bankSeq (tget 0 s.banks (s.input.value.toNat % 65536)) ∧
      ∀ j, j ≠ s.input.value.toNat % 65536 → tget 0 t.banks j = tget 0 s.banks j := by
  refine ⟨_, execErrclrh_open h, ?_⟩
  rw [if_pos hu, clearBank_expected (by simpa using hw)]
  simp only [setLatch_banks, tget_tset_same]
  exact ⟨tfind_tput_same .., toNat_clearedBank _, fun j hj => tget_tset_ne _ _ _ hj⟩

theorem errclrh_leaves {s : State} (h : PortOpen s none) (hu : unitExists (s.input.value.toNat % 65536) = false ∨
      (tget 0 s.banks (s.input.value.toNat % 65536)).toNat % 2 ^ 64 ≠ s.input.value2.toNat) :
    exec .errclrh s = .next { setLatch s s.input.fn 0x7F0000 [] with results := tput s.results 0x7F0000 1 } := by
  have kept : (if unitExists (s.input.value.toNat % 65536) then
        clearBank (setLatch s s.input.fn ERRCLRH_AT []) (s.input.value.toNat % 65536) s.input.value2.toNat
      else (setLatch s s.input.fn ERRCLRH_AT [], false)) = (setLatch s s.input.fn ERRCLRH_AT [], false) := by
    rcases hu with hu | hw
    · rw [if_neg (by simp [hu])]
    · rw [clearBank_changed (by simpa using hw), ite_self]
  rw [execErrclrh_open h]
  dsimp only
  rw [kept, setLatch_results]
  rfl

/-! ### Attestation (R458) -/

theorem attnonce_open {s : State} (h : PortOpen s none) :
    exec .attnonce s = if s.input.data.length = 32 then .next (startReport s s.input.data) else .next s := by
  change execAttnonce s = _
  unfold execAttnonce
  rw [hostAct_open h]

theorem reportReady_idle {s : State} (h : s.identity.nonce = [] ∨ s.identity.ready = true) :
    exec .attestationReportReady s = .next s := by
  change execAttestationReportReady s = _
  unfold execAttestationReportReady
  exact if_pos (by simpa using h)

theorem reportReady_signs {s : State} (hn : s.identity.nonce ≠ []) (hr : s.identity.ready = false) :
    exec .attestationReportReady s = .next { s with identity :=
      { s.identity with report := reportBody s ++ signature114 (reportBody s), ready := true } } := by
  change execAttestationReportReady s = _
  unfold execAttestationReportReady
  exact if_neg (by simp [hn, hr])

/-! ### Control-space registers (R492) -/

/-- A host write of 64 bits to the whole of a register. -/
def wholeWrite (v : Nat) : RegWrite := ⟨0, leBytes 8 v⟩

theorem wholeWrite_byte_zero (v : Nat) : (wholeWrite v).byte 0 = some (BitVec.ofNat 8 v) := rfl

theorem wholeWrite_byte_two (v : Nat) : (wholeWrite v).byte 2 = some (BitVec.ofNat 8 (v / 256 / 256)) := rfl

/-- A write of the whole register leaves nothing of what it held. -/
theorem wholeWrite_merged {v : Nat} (hv : v < 2 ^ 64) (old : Nat) : (wholeWrite v).merged 8 old = v := by
  have bytes : (wholeWrite v).merged 8 old = leNat (leBytes 8 v) := rfl
  rw [bytes, leNat_leBytes]
  exact Nat.mod_eq_of_lt hv

/-- A write where no register stands has no effect. -/
theorem controlRegisterWrite_nowhere {s : State} (h : PortOpen s (regPart s s.input.key)) (hr : regAt s.input.key = none) :
    exec .controlRegisterWrite s = .next s := by
  change execControlRegisterWrite s = _
  unfold execControlRegisterWrite
  dsimp only
  rw [hostAct_open h, hr]
  exact ite_self _

/-- A write of 64 bits acts on the register of 64 bits that stands at its offset. -/
theorem controlRegisterWrite_whole {s : State} (h : PortOpen s (regPart s s.input.key)) (hn : s.input.sub = 8) {o : Nat} {r : Reg}
    (ho : s.input.key = o) (hr : regAt o = some (r, 0, 8)) :
    exec .controlRegisterWrite s = writeReg s s.input.fn r (wholeWrite s.input.value.toNat) := by
  subst ho
  have sized : accessSize s.input.key 8 = true := by simp [accessSize, hr]
  have bytes : (leBytes 8 s.input.value.toNat ++ s.input.data ++ List.replicate 24 0).take 8 = leBytes 8 s.input.value.toNat := by
    rw [List.append_assoc]
    exact List.take_left' (leBytes_length 8 _)
  change execControlRegisterWrite s = _
  unfold execControlRegisterWrite
  dsimp only
  rw [hostAct_open h, hn, sized, bytes, hr]
  rfl

theorem regAt_fnbind : ∀ n < 6, regAt (0x470100 + 8 * n) = some (.fnbind (n + 1), 0, 8) := by decide

theorem regAt_etstat : ∀ n < 128, regAt (0x450000 + 8 * n) = some (.etstat n, 0, 8) := by decide

theorem writeReg_fnbind {s : State} {n : Nat} {f : Func} (hf : s.funcs[n]? = some f) (fn v : Nat) :
    writeReg s fn (.fnbind n) (wholeWrite v) =
      .next { s with funcs := s.funcs.set n { f with part := if v % 8 = 6 then 7 else v % 8 } } := by
  have low : (BitVec.ofNat 8 v).toNat % 8 = v % 8 := by rw [BitVec.toNat_ofNat]; omega
  unfold writeReg
  dsimp only
  rw [wholeWrite_byte_zero, hf]
  simp only [low]

theorem writeReg_idcfg (s : State) (fn v : Nat) :
    writeReg s fn .idcfg (wholeWrite v) = .next { s with identity := { s.identity with devnum := v % 256 } } := by
  unfold writeReg
  dsimp only
  rw [wholeWrite_byte_zero]
  simp only [BitVec.toNat_ofNat]

theorem writeReg_ctxtab {v : Nat} (hv : v < 2 ^ 64) (s : State) (fn : Nat) :
    writeReg s fn .ctxtab (wholeWrite v) = .next { s with ctxtab := BitVec.ofNat 64 (v / 2 ^ 14 % 2 ^ 34 * 2 ^ 14) } := by
  unfold writeReg
  dsimp only
  rw [wholeWrite_merged hv]
  rfl

theorem writeReg_etstat (s : State) (fn n v : Nat) :
    writeReg s fn (.etstat n) (wholeWrite v) = .next { s with
      fibres := tset Fibre.reset s.fibres n { tget Fibre.reset s.fibres n with mode := v.testBit 16 } } := by
  have mode : (BitVec.ofNat 8 (v / 256 / 256)).getLsbD 0 = v.testBit 16 := by
    rw [BitVec.getLsbD_ofNat, Nat.div_div_eq_div_mul]
    simp [Nat.testBit_div_two_pow v (i := 0) (n := 16)]
  unfold writeReg
  dsimp only
  rw [wholeWrite_byte_two]
  dsimp only
  rw [mode]
  rfl

theorem writeReg_rbstat {v : Nat} (hv : v < 2 ^ 64) (h : v.testBit 11 = true) (s : State) (fn : Nat) :
    writeReg s fn .rbstat (wholeWrite v) =
      .next { s with mem := { s.mem with rebuild := { s.mem.rebuild with nospare := false } } } := by
  have clears : bit ((wholeWrite v).value 8) 11 = true := by
    unfold RegWrite.value
    rw [wholeWrite_merged hv]
    simpa [bit, Nat.testBit_eq_decide_div_mod_eq] using h
  unfold writeReg
  dsimp only
  rw [if_pos clears]

/-! ### A function's reset and its MSI-X table (R403, R492) -/

theorem functionReset_eq {s : State} {f : Func} (hf : s.funcs[s.input.fn]? = some f) :
    exec .functionReset s = .next { s with funcs := s.funcs.set s.input.fn { f with latch := [] } } := by
  change execFunctionReset s = _
  unfold execFunctionReset
  rw [hf]

/-- Where no store to the host waits to be transmitted, none goes out. -/
theorem flushHost_idle {s : State} (h : ∀ r ∈ s.requests, ¬(r.kind = 1 ∧ r.peer = none ∧ r.sent = false)) : flushHost s = s := by
  have none : s.requests.filter (fun r => r.kind == 1 && r.peer.isNone && !r.sent) = [] := by
    rw [List.filter_eq_nil_iff]
    intro r hr hw
    exact h r hr (by simpa [and_assoc] using hw)
  unfold flushHost
  dsimp only
  rw [none]
  rfl

theorem msixEntryUnmask_eq {s : State} {f : Func} (hf : s.funcs[s.input.fn]? = some f)
    (h : ∀ r ∈ s.requests, ¬(r.kind = 1 ∧ r.peer = none ∧ r.sent = false)) :
    let k := s.input.key
    exec .msixEntryUnmask s = .next { s with
      funcs := s.funcs.set s.input.fn { f with masked := f.masked.filter (· ≠ k), waiting := f.waiting.filter (· ≠ k) },
      sent := s.sent ++ (if k ∈ f.waiting ∧ k ∈ f.masked then [.msix s.input.fn k] else []) } := by
  intro k
  change execMsixEntryUnmask s = _
  unfold execMsixEntryUnmask
  dsimp only
  rw [hf]
  dsimp only
  rw [flushHost_idle h, ite_self]
  simp [k, bne_eq_decide_ne]

/-! ### Inbound host writes (R462) -/

theorem OnlyLevant.groups {s t : State} (h : OnlyLevant s t) : t.groups = s.groups := by
  unfold OnlyLevant at h
  rw [← h]

/-- The tracker's count of an access changes nothing but its own counts and the draw. -/
theorem noteFrame_only (s : State) (part dpa : Nat) (sure : Bool) :
    ∃ n c, noteFrame s part dpa sure = { s with tick := n, mem := { s.mem with counts := c } } := by
  unfold noteFrame
  dsimp only
  split
  · split
    · exact ⟨_, _, rfl⟩
    · exact ⟨s.tick + 1, s.mem.counts, rfl⟩
  · exact ⟨s.tick, s.mem.counts, rfl⟩

/-- Memory whose symbols are all sound gives a fetch nothing to decode: all that changes is what Levant keeps. -/
theorem fetchLines_sound {s : State} (hs : s.mem.symErr = []) (hc : s.mem.chans = []) (hi : s.mem.inter = []) (die a n : Nat) :
    OnlyLevant s (fetchLines s die a n) := by
  have arrived := onlyLevant_deliverFor s die (sectorsOf a n).contains
  unfold fetchLines
  generalize deliverFor s die (sectorsOf a n).contains = t at arrived ⊢
  have nothing : t.mem.fetch a n = (t.mem, []) := by
    unfold Mem.fetch
    simp [arrived.mem, hs, hc, hi]
  dsimp only
  rw [nothing]
  exact arrived

/-- A store to memory whose symbols are all sound. -/
theorem storeLocal_sound {s : State} (hs : s.mem.symErr = []) (hc : s.mem.chans = []) (hi : s.mem.inter = []) (w a : Nat)
    (bs : List Byte) : ∃ t, OnlyLevant s t ∧ storeLocal s w a bs = { t with mem := s.mem.store w a bs } := by
  unfold storeLocal
  dsimp only
  split
  · exact ⟨s, .refl s, rfl⟩
  · have only := fetchLines_sound hs hc hi w a bs.length
    exact ⟨_, only, by rw [only.mem]⟩

/-- The place of an offset in a frame of tier H, which lies below every tier X line. -/
theorem entryAddr_tierH {e : Dword} (h : IndTierX e = false) (offset : Nat) : entryAddr e offset = 65536 * IndFrame e + offset := by
  simp [entryAddr, h]

theorem entryAddr_lt_hostBase {e : Dword} (h : IndTierX e = false) {offset : Nat} (ho : offset < 65536) : entryAddr e offset < hostBase := by
  have frame : IndFrame e < 2 ^ 40 := Nat.mod_lt _ (by decide)
  rw [entryAddr_tierH h]
  unfold hostBase
  omega

/-- A host write lands in a frame of tier H that is backed. -/
theorem landing_tierH {s : State} {dpa : Nat} (hd : dpa < 2 ^ 41) (hv : IndV (s.mem.entry (dpa / 65536)) = true)
    (hr : IndDropped (s.mem.entry (dpa / 65536)) = false) (hx : IndTierX (s.mem.entry (dpa / 65536)) = false) :
    landing s none dpa = (s, .here (65536 * IndFrame (s.mem.entry (dpa / 65536)) + dpa % 65536)) := by
  have present : s.mem.present (entryAddr (s.mem.entry (dpa / 65536)) (dpa % 65536)) = true := by
    simp [Mem.present, entryAddr_lt_hostBase hx (Nat.mod_lt dpa (by decide : 0 < 65536))]
  unfold landing
  dsimp only
  rw [if_neg (by simpa [hv] using hd), if_neg (by simp [hr]), if_pos present, entryAddr_tierH hx]

/-- The flit that a host write within one line comes as. -/
def hostFlit (dpa : Nat) (bs : List Byte) : Flit :=
  { typ := 0, dst := 0, src := 0, size := 0, tag := 0, dpa := BitVec.ofNat 48 dpa, aop := 0, status := 0, data := bs }

theorem hostFlit_dpa {dpa : Nat} (h : dpa < 2 ^ 41) (bs : List Byte) : (hostFlit dpa bs).dpa.toNat = dpa := by
  change (BitVec.ofNat 48 dpa).toNat = dpa
  rw [BitVec.toNat_ofNat]
  exact Nat.mod_eq_of_lt (by omega)

/-- A host write within one line comes as one flit. -/
theorem inboundHostWrite_line {s : State} (h₀ : s.inbound = []) (hk : s.input.key < 2 ^ 41) (hn : 0 < s.input.data.length)
    (hl : s.input.key % 128 + s.input.data.length ≤ 128) :
    exec .inboundHostWrite s = .next (serveInbound { s with inbound := [hostFlit s.input.key s.input.data] }) := by
  have whole : s.input.data.take (128 - s.input.key % 128) = s.input.data := List.take_of_length_le (by omega)
  have rest : (s.input.data.length - (128 - s.input.key % 128) + 127) / 128 = 0 := by omega
  have nonempty : s.input.data ≠ [] := List.ne_nil_of_length_pos hn
  change execInboundHostWrite s = _
  unfold execInboundHostWrite
  dsimp only
  rw [whole, rest, h₀, List.range_zero, List.map_nil, List.filter_cons_of_pos (by simpa [nonempty] using hk)]
  rfl

/-- A host write's flit stores its bytes: what changes beside memory are Levant's records, the draw, the tracker's counts and the
comparators' reports. -/
theorem performInbound_host {s : State} (hs : s.mem.symErr = []) (hc : s.mem.chans = []) (hi : s.mem.inter = []) (dpa : Nat)
    (bs : List Byte) (ma : Nat) :
    let t := performInbound s (hostFlit dpa bs) ma
    t.groups = s.groups ∧ ∃ c, t.mem = ({ s.mem with counts := c } : Mem).store 3 ma bs := by
  intro t
  obtain ⟨n, c, noted⟩ := noteFrame_only s (IndPart (s.mem.entry ((hostFlit dpa bs).dpa.toNat / 65536))) (hostFlit dpa bs).dpa.toNat true
  obtain ⟨x, only, stored⟩ := storeLocal_sound (s := { s with tick := n, mem := { s.mem with counts := c } }) hs hc hi 3 ma bs
  have bytes : (bs ++ List.replicate bs.length 0).take bs.length = bs := take_padded rfl _ _
  have eq : t = watchCx { x with mem := ({ s.mem with counts := c } : Mem).store 3 ma bs } 5 0x100
      ((maskedBytes 0 bs.length).map (· + (hostFlit dpa bs).dpa.toNat)) none none := by
    change inboundWrite (noteFrame s _ _ true) (hostFlit dpa bs) ma = _
    rw [noted]
    change watchCx (storeLocal _ 3 ma ((bs ++ List.replicate bs.length 0).take bs.length)) 5 0x100 _ none none = _
    rw [bytes, stored]
    rfl
  have groups : x.groups = s.groups := only.groups
  rw [eq]
  exact ⟨groups, c, rfl⟩

/-- A host write of bytes within one line of a backed frame of tier H. -/
theorem inboundHostWrite_acts {s : State} (h₀ : s.inbound = []) (hk : s.input.key < 2 ^ 41) (hn : 0 < s.input.data.length)
    (hl : s.input.key % 128 + s.input.data.length ≤ 128) (hv : IndV (s.mem.entry (s.input.key / 65536)) = true)
    (hr : IndDropped (s.mem.entry (s.input.key / 65536)) = false) (hx : IndTierX (s.mem.entry (s.input.key / 65536)) = false)
    (hs : s.mem.symErr = []) (hc : s.mem.chans = []) (hi : s.mem.inter = []) :
    let ma := 65536 * IndFrame (s.mem.entry (s.input.key / 65536)) + s.input.key % 65536
    ∃ t, exec .inboundHostWrite s = .next t ∧ t.groups = s.groups ∧ t.inbound = [] ∧
      ∀ x, t.mem.byte x = if ma ≤ x ∧ x < ma + s.input.data.length then (s.input.data[x - ma]?).getD 0 else s.mem.byte x := by
  intro ma
  let f := hostFlit s.input.key s.input.data
  let s₀ : State := { s with inbound := [f] }
  obtain ⟨groups, c, mem⟩ := performInbound_host (s := s₀) hs hc hi s.input.key s.input.data ma
  have lands : landing s₀ (portOf s₀ f) f.dpa.toNat = (s₀, .here ma) := by
    rw [hostFlit_dpa hk]
    exact landing_tierH (s := s₀) hk hv hr hx
  have served : serveInbound s₀ = { performInbound s₀ f ma with inbound := [] } := by
    change ({ (serveFrom [f] [] s₀).1 with inbound := (serveFrom [f] [] s₀).2 } : State) = _
    have one : serveFrom [f] [] s₀ = (performInbound s₀ f ma, []) := by
      unfold serveFrom
      dsimp only
      rw [lands]
      rfl
    rw [one]
  refine ⟨_, (inboundHostWrite_line h₀ hk hn hl).trans (congrArg _ served), groups, rfl, fun x => ?_⟩
  change (performInbound s₀ f ma).mem.byte x = _
  rw [mem, byte_store (m := { s.mem with counts := c }) hs, List.getD_eq_getElem?_getD]
  rfl

/-! ### Completions of this device's requests (R287, R352) -/

/-- Where no request of the device bears the tag, nothing is completed. -/
theorem hostLink_unasked {s : State} (h : hostRequest s s.input.key = none) :
    exec .hostLinkCompletion s = .next s ∧ (s.input.sub ≠ 1 → exec .hostLinkRequestFail s = .next s) := by
  change execHostLinkCompletion s = _ ∧ (_ → execHostLinkRequestFail s = _)
  unfold execHostLinkCompletion execHostLinkRequestFail
  rw [h]
  exact ⟨rfl, fun hsub => if_neg hsub⟩

/-- The requests after one of them has been answered. -/
theorem dropRequest_eq (s : State) (r : Request) :
    dropRequest s r = { s with requests := s.requests.filter (fun x => x.tag ≠ r.tag) } := by
  unfold dropRequest
  simp only [bne_eq_decide_ne]

theorem fillHostLine_requests (s : State) (r : Request) (bs : List Byte) (poisoned : Bool) :
    (fillHostLine s r bs poisoned).requests = s.requests.filter (fun x => x.tag ≠ r.tag) := by
  change (dropRequest s r).requests = _
  rw [dropRequest_eq]

/-- Where no access from outside waits for memory, none is served. -/
theorem serveInbound_none {s : State} (h : s.inbound = []) : serveInbound s = s := by
  unfold serveInbound
  rw [h]
  rfl

/-- A write-back that fails: a line that was sent is poisoned, and its loss is recorded. -/
theorem hostLinkRequestFail_posted {s : State} (hsub : s.input.sub = 1) (h : s.input.key ∈ s.mem.posted) :
    ∃ t, exec .hostLinkRequestFail s = .next t ∧ (∀ i < 8, 8 * s.input.key + i ∈ t.mem.poison) ∧ s.input.key ∉ t.mem.posted ∧
      t.mem.cells = s.mem.cells ∧
      ∃ e ∈ t.fresh, e.unit = 0x5000 ∧ e.cause = 0x31 ∧ e.sev = 3 ∧ e.addr = some (128 * s.input.key - 2 ^ 56) := by
  have fails : exec .hostLinkRequestFail s = .next (losePosted s s.input.key) := by
    change execHostLinkRequestFail s = _
    unfold execHostLinkRequestFail
    rw [if_pos hsub, if_pos (by simpa using h)]
  refine ⟨_, fails, fun i hi => ?_, not_mem_removeNat _ _, rfl, ?_⟩
  · exact mem_addPoison.mpr (.inl (List.mem_map.mpr ⟨i, List.mem_range.mpr hi, rfl⟩))
  · unfold losePosted recordEvent
    exact ⟨_, List.mem_append_left _ (List.mem_append_right _ (List.mem_singleton.mpr rfl)), rfl, rfl, rfl, rfl⟩

theorem hostLinkRequestFail_unposted {s : State} (hsub : s.input.sub = 1) (h : s.input.key ∉ s.mem.posted) :
    exec .hostLinkRequestFail s = .next s := by
  change execHostLinkRequestFail s = _
  unfold execHostLinkRequestFail
  rw [if_pos hsub, if_neg (by simpa using h)]

/-- A request of the device to the host is to no peer. -/
theorem peer_of_hostRequest {s : State} {k : Nat} {r : Request} (h : hostRequest s k = some r) : r.peer = none := by
  have := List.find?_some h
  simp only [Bool.and_eq_true, Option.isNone_iff_eq_none] at this
  exact this.1.2

section Completions

variable {s : State} {r : Request} (h : hostRequest s s.input.key = some r)
include h

/-- A tier X line's read completes: the line comes in, whole. -/
theorem hostLinkCompletion_line (hk : r.kind = 3) (hi : s.inbound = []) (hd : s.input.data.length = 128) :
    ∃ t, exec .hostLinkCompletion s = .next t ∧ t.requests = s.requests.filter (fun x => x.tag ≠ r.tag) ∧ r.addr / 128 ∈ t.mem.xlines ∧
      t.mem.poison = s.mem.poison ∧ readBytes t.mem.cells r.addr 128 = s.input.data := by
  have fills : exec .hostLinkCompletion s = .next (fillHostLine s r s.input.data false) := by
    change execHostLinkCompletion s = _
    unfold execHostLinkCompletion
    rw [h]
    simp only [hk]
    exact congrArg _ (serveInbound_none (s := fillHostLine s r s.input.data false) hi)
  refine ⟨_, fills, fillHostLine_requests _ _ _ _, mem_insertNat.mpr (.inl rfl), rfl, ?_⟩
  change readBytes (writeBytes s.mem.cells r.addr ((s.input.data ++ List.replicate 128 0).take 128)) r.addr 128 = _
  rw [take_padded hd]
  conv_lhs => rw [← hd]
  exact readBytes_writeBytes _ _ _

/-- A tier X line's read fails: the line comes in poisoned. -/
theorem hostLinkRequestFail_line (hsub : s.input.sub ≠ 1) (hk : r.kind = 3) (hi : s.inbound = []) (ha : r.addr % 128 = 0) :
    ∃ t, exec .hostLinkRequestFail s = .next t ∧ t.requests = s.requests.filter (fun x => x.tag ≠ r.tag) ∧ r.addr / 128 ∈ t.mem.xlines ∧
      t.mem.cells = s.mem.cells ∧ ∀ i < 8, r.addr / 16 + i ∈ t.mem.poison := by
  let e : Event := { unit := unitHostPort, cause := 0x11, sev := 2, addr := some (r.addr - hostBase), synd := s.input.value.toNat }
  have fills : exec .hostLinkRequestFail s = .next (fillHostLine (recordEvent s e) r [] true) := by
    change execHostLinkRequestFail s = _
    unfold execHostLinkRequestFail
    rw [if_neg hsub, h]
    simp only [hk]
    exact congrArg _ (serveInbound_none (s := fillHostLine (recordEvent s e) r [] true) hi)
  exact ⟨_, fills, fillHostLine_requests _ _ _ _, mem_insertNat.mpr (.inl rfl), rfl,
    fun i hi => mem_addPoison.mpr (.inl (mem_sectorsOf_line ha hi))⟩

/-- What an answered read leaves for the agent that waits for its bytes. -/
theorem toBuffer_host {bs : List Byte} (status : Nat) (hb : (bs ++ List.replicate r.size 0).take r.size = bs) :
    toBuffer s r bs status = { s with
      requests := s.requests.filter (fun x => x.tag ≠ r.tag), buffer := s.buffer ++ [(0, r.addr, bs, status)] } := by
  have key : bufferKey r = 0 := by unfold bufferKey; rw [peer_of_hostRequest h]
  unfold toBuffer
  rw [dropRequest_eq, hb, key]

theorem hostLinkCompletion_buffer (hk : r.kind = 4) (hd : s.input.data.length = r.size) :
    exec .hostLinkCompletion s = .next { s with
      requests := s.requests.filter (fun x => x.tag ≠ r.tag), buffer := s.buffer ++ [(0, r.addr, s.input.data, 0)] } := by
  rw [← toBuffer_host h 0 (take_padded hd _ _)]
  change execHostLinkCompletion s = _
  unfold execHostLinkCompletion
  rw [h]
  simp only [hk]

theorem hostLinkRequestFail_buffer (hsub : s.input.sub ≠ 1) (hk : r.kind = 4) :
    exec .hostLinkRequestFail s = .next { s with
      requests := s.requests.filter (fun x => x.tag ≠ r.tag), buffer := s.buffer ++ [(0, r.addr, List.replicate r.size 0, 2)] } := by
  have zeros : toBuffer s r (List.replicate r.size 0) 2 = toBuffer s r [] 2 := by
    unfold toBuffer
    rw [take_padded List.length_replicate, List.nil_append, List.take_of_length_le (Nat.le_of_eq List.length_replicate)]
  rw [← toBuffer_host h 2 (take_padded List.length_replicate _ _), zeros]
  change execHostLinkRequestFail s = _
  unfold execHostLinkRequestFail
  rw [if_neg hsub, h]
  simp only [hk]

/-- An atomic of the packet processor has been performed. -/
theorem hostLinkCompletion_packet (hk : r.kind = 6) :
    ∃ t, exec .hostLinkCompletion s = .next t ∧ t.requests = s.requests.filter (fun x => x.tag ≠ r.tag) ∧
      ∀ p, tfind s.packets r.word = some p → tfind t.packets r.word = some { p with status := some 2 } := by
  have answers : exec .hostLinkCompletion s = .next (modPacket (dropRequest s r) r.word (fun p => { p with status := some 2 })) := by
    change execHostLinkCompletion s = _
    unfold execHostLinkCompletion
    rw [h]
    simp only [hk]
    unfold writeAnswered
    rw [if_pos (by simp [hk])]
  refine ⟨_, answers, by rw [dropRequest_eq]; rfl, fun p hp => ?_⟩
  change tfind (tmod s.packets r.word _) r.word = _
  unfold tmod
  rw [hp]
  exact tfind_tput_same _ _ _

end Completions

/-! ### Host writes, events and completions together -/

/-- Settles O45: every clause is the law of its event, and the registers' clauses that of the one register at their offset. -/
theorem hostPortEventsAct : Obligations.HostPortEventsAct := by
  intro s k v
  have hv : v < 2 ^ 64 := s.input.value.isLt
  refine ⟨fun h => ⟨fun d hd hk f hf => ?_, ?_, fun hn => ?_, fun hn => ?_⟩, reportReady_idle, reportReady_signs,
    fun h => ⟨fun hr _ => controlRegisterWrite_nowhere h hr, fun hn => ⟨fun n f hk hlt hf => ?_, fun hk => ?_, fun hk => ?_,
      fun n hk hlt => ?_, fun hk hb => ?_⟩⟩,
    fun f hf => ⟨functionReset_eq hf, msixEntryUnmask_eq hf⟩, inboundHostWrite_acts, hostLink_unasked,
    fun hsub => ⟨hostLinkRequestFail_unposted hsub, hostLinkRequestFail_posted hsub⟩,
    fun r hr hsub => ⟨fun hk hi ha hd => ⟨hostLinkCompletion_line hr hk hi hd, hostLinkRequestFail_line hr hsub hk hi ha⟩,
      fun hk hd => ⟨hostLinkCompletion_buffer hr hk hd, hostLinkRequestFail_buffer hr hsub hk⟩, hostLinkCompletion_packet hr⟩⟩
  · have moves : exec f.1 s = .next (movePart s k f.2 (v % 8)) := by
      obtain rfl | rfl := by simpa using hf
      · exact diestatOp_open h hk 0
      · exact diestatOp_open h hk 1
    obtain ⟨rejected, same, busy, moved⟩ := movePart_die hd f.2 (v % 8)
    exact ⟨fun hr => moves.trans (congrArg _ (rejected hr)), fun hf h6 hs => moves.trans (congrArg _ (same hf h6 hs)),
      fun hf h6 hs hb => moves.trans (congrArg _ (busy hf h6 hs hb)), fun hf h6 hs hb => moves.trans (congrArg _ (moved hf h6 hs hb))⟩
  · exact ⟨errclrh_clears h, errclrh_leaves h, latchOf_setLatch_nil _ _ _⟩
  · exact (attnonce_open h).trans (if_pos hn)
  · exact (attnonce_open h).trans (if_neg hn)
  · exact (controlRegisterWrite_whole h hn hk (regAt_fnbind n hlt)).trans (writeReg_fnbind hf _ _)
  · exact (controlRegisterWrite_whole h hn (r := .idcfg) hk rfl).trans (writeReg_idcfg _ _ _)
  · exact (controlRegisterWrite_whole h hn (r := .ctxtab) hk rfl).trans (writeReg_ctxtab hv _ _)
  · exact (controlRegisterWrite_whole h hn hk (regAt_etstat n hlt)).trans (writeReg_etstat _ _ _ _)
  · exact (controlRegisterWrite_whole h hn (r := .rbstat) hk rfl).trans (writeReg_rbstat hv hb _ _)

end Sys2Proof.Machine

/-!
SUPPORT. Laws of the decoder and the encoder (R29 to R35): the fields of a word put together from its bytes, the row that a base word
names, and the statement that decoding reads back what encoding wrote.
-/
namespace Sys2Proof

/-! ### Fields of a word -/

/-- Words put side by side stand for the sum of their shifted values. -/
theorem toNat_append_add {m n : Nat} (x : BitVec m) (y : BitVec n) : (x ++ y).toNat = x.toNat * 2 ^ n + y.toNat := by
  rw [BitVec.toNat_append, ← Nat.shiftLeft_add_eq_or_of_lt y.isLt, Nat.shiftLeft_eq]

theorem toNat_wordOf (op d a b : Byte) :
    (wordOf op d a b).toNat = op.toNat * 2 ^ 24 + d.toNat * 2 ^ 16 + a.toNat * 2 ^ 8 + b.toNat := by
  unfold wordOf
  simp only [toNat_append_add]
  omega

theorem toNat_wordOfPfx (p : Pfx) :
    (wordOfPfx p).toNat = 0x3E * 2 ^ 26 + p.mask.toNat * 2 ^ 23 + p.z.toNat * 2 ^ 22 + p.rm.toNat * 2 ^ 19 + p.c.toNat * 2 ^ 11 +
      p.cv.toNat * 2 ^ 10 + p.sat.toNat * 2 ^ 9 + p.nega.toNat * 2 ^ 8 + p.aux.toNat := by
  unfold wordOfPfx
  simp only [toNat_append_add, BitVec.toNat_ofBool]
  norm_num
  omega

theorem getLsbD_eq_bit {n : Nat} (x : BitVec n) (i : Nat) : x.getLsbD i = bit x.toNat i := by
  unfold bit
  rw [BitVec.getLsbD, Nat.testBit_eq_decide_div_mod_eq]
  rfl

theorem toNat_extractLsb' {n : Nat} (x : BitVec n) (lo k : Nat) : (x.extractLsb' lo k).toNat = bits x.toNat lo k := by
  unfold bits; rw [BitVec.extractLsb'_toNat, Nat.shiftRight_eq_div_pow]

theorem bit_of_toNat {x i : Nat} {z : Bool} (h : x / 2 ^ i % 2 = z.toNat) : bit x i = z := by
  unfold bit
  rw [h]
  cases z <;> rfl

@[simp] theorem isPfxWord_wordOfPfx (q : Pfx) : isPfxWord (wordOfPfx q) = true := by
  have top : majorOf (wordOfPfx q) = 0x3E := by
    have := q.z.toNat_le; have := q.cv.toNat_le; have := q.sat.toNat_le; have := q.nega.toNat_le
    unfold majorOf bits
    rw [toNat_wordOfPfx]
    omega
  simp [isPfxWord, top]

@[simp] theorem pfxOfWord_wordOfPfx (q : Pfx) : pfxOfWord (wordOfPfx q) = q := by
  have hz := q.z.toNat_le; have hcv := q.cv.toNat_le; have hsat := q.sat.toNat_le; have hnega := q.nega.toNat_le
  unfold pfxOfWord
  simp only [getLsbD_eq_bit]
  cases q with | mk aux nega sat cv c rm z mask =>
  congr 1
  case e_nega | e_sat | e_cv | e_z => apply bit_of_toNat; rw [toNat_wordOfPfx]; dsimp only at *; omega
  all_goals
    apply BitVec.eq_of_toNat_eq
    rw [toNat_extractLsb', bits, toNat_wordOfPfx]
    dsimp only at *
    omega

@[simp] theorem majorOf_wordOf (op d a b : Byte) : majorOf (wordOf op d a b) = op.toNat / 4 := by
  unfold majorOf bits; rw [toNat_wordOf]; omega

@[simp] theorem fnOf_wordOf (op d a b : Byte) : fnOf (wordOf op d a b) = op.toNat % 4 := by
  unfold fnOf bits; rw [toNat_wordOf]; omega

@[simp] theorem bits_sub_wordOf (op d a b : Byte) : bits (wordOf op d a b).toNat 16 10 = op.toNat % 4 * 256 + d.toNat := by
  unfold bits; rw [toNat_wordOf]; omega

@[simp] theorem byteD_wordOf (op d a b : Byte) : byteD (wordOf op d a b) = d := by
  unfold byteD; apply BitVec.eq_of_toNat_eq; rw [toNat_extractLsb', bits, toNat_wordOf]; omega

@[simp] theorem byteA_wordOf (op d a b : Byte) : byteA (wordOf op d a b) = a := by
  unfold byteA; apply BitVec.eq_of_toNat_eq; rw [toNat_extractLsb', bits, toNat_wordOf]; omega

@[simp] theorem byteB_wordOf (op d a b : Byte) : byteB (wordOf op d a b) = b := by
  unfold byteB; apply BitVec.eq_of_toNat_eq; rw [toNat_extractLsb', bits, toNat_wordOf]; omega

/-! ### A field and the bits above it in one byte -/

/-- The bytes of a 16-bit and of a 24-bit field, put together again. -/
@[simp] theorem bytes_join_16 (x : BitVec 16) : x.extractLsb' 8 8 ++ x.extractLsb' 0 8 = x := by
  apply BitVec.eq_of_toNat_eq; simp only [toNat_append_add, toNat_extractLsb', bits]; omega

@[simp] theorem bytes_join_24 (x : BitVec 24) : x.extractLsb' 16 8 ++ x.extractLsb' 8 8 ++ x.extractLsb' 0 8 = x := by
  apply BitVec.eq_of_toNat_eq; simp only [toNat_append_add, toNat_extractLsb', bits]; omega


/-- A field of `n` bits below another one in a byte. -/
theorem low_of_append {m n : Nat} (x : BitVec m) (y : BitVec n) : (x ++ y).extractLsb' 0 n = y := by
  apply BitVec.eq_of_toNat_eq
  rw [toNat_extractLsb', bits, toNat_append_add]
  simp [Nat.mod_eq_of_lt y.isLt]

theorem high_of_append {m n : Nat} (x : BitVec m) (y : BitVec n) : (x ++ y).extractLsb' n m = x := by
  apply BitVec.eq_of_toNat_eq
  rw [toNat_extractLsb', bits, toNat_append_add, Nat.mul_comm, Nat.mul_add_div (Nat.two_pow_pos n), Nat.div_eq_of_lt y.isLt]
  simp [Nat.mod_eq_of_lt x.isLt]

/-- Bytes of a selector of 5 bits over a mask (R72, R170), of 4 over a number (R175, R217), of 6 over a type (R176), of 2 over a page
count (R206), and of a condition over a mask (R126, R134, R168): the selector that decoding tests, and the fields that it reads. -/
theorem mask_byte (x : BitVec 5) (y : BitVec 3) : (x ++ y) &&& 0xF8#8 = x ++ 0#3 ∧ (x ++ y : Byte).extractLsb' 0 3 = y :=
  ⟨by revert x y; decide, low_of_append x y⟩

theorem number_byte (x y : BitVec 4) : (x ++ y) &&& 0xF0#8 = x ++ 0#4 ∧ (x ++ y : Byte).extractLsb' 0 4 = y :=
  ⟨by revert x y; decide, low_of_append x y⟩

theorem type_byte (x : BitVec 6) (y : BitVec 2) : (x ++ y) &&& 0xFC#8 = x ++ 0#2 ∧ (x ++ y : Byte).extractLsb' 0 2 = y :=
  ⟨by revert x y; decide, low_of_append x y⟩

theorem pages_byte (x : BitVec 2) (y : BitVec 6) : (x ++ y) &&& 0xC0#8 = x ++ 0#6 ∧ (x ++ y : Byte).extractLsb' 0 6 = y ∧
    (x ++ y : Byte).extractLsb' 6 2 = x :=
  ⟨by revert x y; decide, low_of_append x y, high_of_append x y⟩

theorem compare_byte (c m : BitVec 3) : (0#2 ++ c ++ m) &&& 0xC0#8 = 0#8 ∧ (0#2 ++ c ++ m : Byte).extractLsb' 3 3 = c ∧
    (0#2 ++ c ++ m : Byte).extractLsb' 0 3 = m := by
  revert c m; decide

theorem condition_byte (c : BitVec 4) (m : BitVec 3) : (0#1 ++ c ++ m) &&& 0x80#8 = 0#8 ∧ (0#1 ++ c ++ m : Byte).extractLsb' 3 4 = c ∧
    (0#1 ++ c ++ m : Byte).extractLsb' 0 3 = m := by
  revert c m; decide

/-! ### Rows and their base words -/

/-- A system word is decoded by its sub-op alone (R35). -/
theorem decodeBase_system (p : Option Pfx) {w : Word} (h : majorOf w = 0x3D) :
    decodeBase p w = decodeSystem (bits w.toNat 16 10) (byteA w) (byteB w) := by
  unfold decodeBase; rw [h]; rfl

/-- The row has a base word of its own, which the decoder reads back under the row's leading word. -/
def HasBase (i : Instr) : Prop :=
  ∃ w, encode i = withPfx (pfxOf i) w ∧ isPfxWord w = false ∧ isLiteralWord w = false ∧ decodeBase (pfxOf i) w = some i

/-- Whether a row takes a literal (R33). -/
def takesLiteral : Instr → Bool
  | .brl .. | .movl .. | .addl .. | .andl .. => true
  | _ => false

/-- A row whose words are its leading word and the base word of these four bytes. -/
theorem hasBase_of_bytes {i : Instr} (op d a b : Byte) (words : encode i = withPfx (pfxOf i) (wordOf op d a b)) (plain : op.toNat / 4 < 0x3E)
    (row : ∀ w, majorOf w = op.toNat / 4 → fnOf w = op.toNat % 4 → bits w.toNat 16 10 = op.toNat % 4 * 256 + d.toNat →
      byteD w = d → byteA w = a → byteB w = b → decodeBase (pfxOf i) w = some i) : HasBase i :=
  ⟨_, words, by simp [isPfxWord]; omega, by simp [isLiteralWord]; omega, row _ (by simp) (by simp) (by simp) (by simp) (by simp) (by simp)⟩

/-- aux[4] of a well-formed QNT tells its two forms apart (R148). -/
theorem qnt_form {p : Option Pfx} {d a b : Opnd} (wf : (Instr.qnt p d a b).WellFormed) : auxBit p 4 = false := by
  have fields : need (!auxBit p 4) 30 = none := Option.isNone_iff_eq_none.mp (Bool.and_eq_true_iff.mp wf).1
  cases h : auxBit p 4 with
  | false => rfl
  | true => simp [need, h] at fields

theorem qntScale_form {p : Option Pfx} {d a : Opnd} (wf : (Instr.qntScale p d a).WellFormed) : auxBit p 4 = true := by
  have keys : pfxOk (.qntScale p d a) = true := (Bool.and_eq_true_iff.mp wf).2
  have defined : ((p.getD Pfx.plain).aux.toNat % 128 / 16 == 1 && decide ((p.getD Pfx.plain).aux.toNat % 128 % 8 ≤ 4)) = true :=
    (Bool.and_eq_true_iff.mp keys).2
  cases p with
  | none => cases defined
  | some q =>
    simp only [Option.getD_some, Bool.and_eq_true, beq_iff_eq, decide_eq_true_eq] at defined
    simp only [auxBit, Option.map_some, Option.getD_some, bit, beq_iff_eq]
    omega

/-- Every row of the code but those that take a literal has its base word: its bytes name the row, and carry its fields. -/
theorem hasBase {i : Instr} (word : i.isWord = true) (short : takesLiteral i = false) (wf : i.WellFormed) : HasBase i := by
  cases i
  -- Events and selected rows have no word, and literals are left out.
  all_goals try exact absurd word Bool.false_ne_true
  all_goals try exact absurd short.symm Bool.false_ne_true
  all_goals refine hasBase_of_bytes _ _ _ _ rfl (by decide) (fun w hm hf hs hd ha hb => ?_)
  case tlbinvPage | lpinvPage | itset | regen | errd | errclr | psetReq | ckgo | ctxsave | ctxload | spmigClean | qctlCreate | unfreeze |
      hstake | rbldChannel | scrubPeriod | wpset | bkset =>
    rw [decodeBase_system _ hm, hs, ha, hb]
    simp [decodeSystem]
  all_goals
    unfold decodeBase
    rw [hm, hf, hd, ha, hb]
  case bra | call => exact congrArg _ (congrArg _ (bytes_join_24 _))
  case brSz | moviLo | moviHi | moviSx | moviBf => exact congrArg _ (congrArg _ (bytes_join_16 _))
  case brAny | brAnySplit | brAll | brNone | brNoneSplit =>
    change decode02 _ none _ _ _ = _
    simp [decode02, mask_byte, bytes_join_16]
  case voteBallot p _ _ _ | voteAny p _ _ _ | voteAll p _ _ _ | voteUni p _ _ _ =>
    change decode04 _ p _ _ _ = _
    simp [decode04, mask_byte]
  case mset p _ _ | msetNz p _ _ =>
    change decode1B _ p _ _ _ = _
    simp [decode1B, mask_byte]
  case icmpI32 p _ _ _ _ | icmpN32 p _ _ _ _ | icmpI64 p _ _ _ _ | icmpN64 p _ _ _ _ =>
    change decode0C _ p _ _ _ = _
    simp [decode0C, compare_byte]
  case fcmp p _ _ _ _ =>
    change decode12 _ p _ _ _ = _
    simp [decode12, condition_byte]
  case mlop p _ _ _ _ =>
    change decode1B _ p _ _ _ = _
    simp [decode1B, condition_byte]
  case xred p _ _ _ | xscan p _ _ _ | xscanExcl p _ _ _ | xminloc p _ _ _ | xmaxloc p _ _ _ =>
    change decode1A _ p _ _ _ = _
    simp [decode1A, number_byte, type_byte]
  case spmap p _ _ _ _ | sppin p _ _ _ | sppinUn p _ _ _ =>
    change decode2B _ p _ _ _ = _
    simp [decode2B, pages_byte]
  case kread | kreadClr | kadd | kbind | kbindClose =>
    change decode31 _ none _ _ _ = _
    simp [decode31, number_byte]
  case tretTo a =>
    change decode34 _ none _ _ _ = _
    simp [decode34]
  case qnt p d a b =>
    change (decode18 _ p _ _ _).map scaleForm = _
    simp [decode18, scaleForm, qnt_form wf]
  case qntScale p d a =>
    change (decode18 _ p _ _ _).map scaleForm = _
    simp [decode18, scaleForm, qntScale_form wf]
  all_goals rfl

/-! ### Units -/

/-- A base word after its leading word is read as a unit. -/
theorem decode_base {p : Option Pfx} {w : Word} {i : Instr} (rest : List Word) (notPfx : isPfxWord w = false)
    (notLiteral : isLiteralWord w = false) (base : checkBase p w = .ok i) : decode (withPfx p w ++ rest) = .ok (i, rest) := by
  cases p <;> simp [withPfx, decode, decodeAfter, notPfx, notLiteral, base, Except.map]

/-- A literal pair after its leading word is read as a unit. -/
theorem decode_literal {p : Option Pfx} {w : Word} {i : Instr} (l : Word) (rest : List Word) (notPfx : isPfxWord w = false)
    (literal : isLiteralWord w = true) (pair : decodeLiteral p w l = .ok i) : decode (withPfx p w ++ l :: rest) = .ok (i, rest) := by
  cases p <;> simp [withPfx, decode, decodeAfter, notPfx, literal, pair, Except.map]

/-- The row that a base word names passes the checks of its own fields and carries the leading word. -/
theorem checkBase_ok {w : Word} {i : Instr} (fields : wordFault i = none) (row : decodeBase (pfxOf i) w = some i) :
    checkBase (pfxOf i) w = .ok i := by
  unfold checkBase
  rw [row]
  simp only [fields]
  cases pfxOf i <;> simp

/-- A row that takes a literal is read back from its pair. -/
theorem decode_encode_literal {i : Instr} (rest : List Word) (long : takesLiteral i = true) : decode (encode i ++ rest) = .ok (i, rest) := by
  cases i
  case brl l => exact decode_literal (p := none) l rest (by simp [isPfxWord]) (by simp [isLiteralWord]) (by simp [decodeLiteral])
  case movl p d l | addl p d _ l | andl p d _ l =>
    refine (congrArg decode (List.append_assoc _ [l] rest)).trans
      (decode_literal (p := p) l rest (by simp [isPfxWord]) (by simp [isLiteralWord]) (by simp [decodeLiteral]))
  all_goals exact absurd long Bool.false_ne_true

/-- Settles O56: a literal pair is read back as it is, and every other unit by its base word. -/
theorem encodedUnitsDecodeToThemselves : Obligations.EncodedUnitsDecodeToThemselves := by
  intro i rest word wf
  cases short : takesLiteral i with
  | true => exact decode_encode_literal rest short
  | false =>
    obtain ⟨w, words, notPfx, notLiteral, row⟩ := hasBase word short wf
    have fields : wordFault i = none := Option.isNone_iff_eq_none.mp (Bool.and_eq_true_iff.mp wf).1
    rw [words]
    exact decode_base rest notPfx notLiteral (checkBase_ok fields row)

end Sys2Proof

/-!
SUPPORT. Laws of a step around the row that it runs (R18 to R22, R36, R58): the check of a unit in its order, the issue of a fragment, and
what the head of the agenda brings about.
-/
namespace Sys2Proof.Machine

open Sys2Proof

/-! ### Words of the manual (R29, R35) -/

/-- A word of which no row of the table is made is illegal, whatever follows. -/
theorem decode_unassigned {w : Word} (rest : List Word) (notPfx : isPfxWord w = false) (notLiteral : isLiteralWord w = false)
    (none_row : decodeBase none w = none) : decode (w :: rest) = .error (.illegalInstruction w (cellFault w)) := by
  simp [decode, decodeAfter, notPfx, notLiteral, checkBase, none_row, Except.map]

/-- Settles O55: the words are the encodings of their rows, which decoding reads back; the others are of no row. -/
theorem decodingReadsTheManualsWords : Obligations.DecodingReadsTheManualsWords := by
  refine ⟨fun x hx rest => ?_, fun w hw rest => ⟨cellFault w, ?_⟩⟩
  · have encoded : encode x.2 = [x.1] ∧ x.2.isWord = true ∧ x.2.WellFormed := by
      revert x; decide +kernel
    obtain ⟨word, own, wf⟩ := encoded
    simpa [word] using encodedUnitsDecodeToThemselves x.2 rest own wf
  · obtain rfl | rfl | rfl | rfl := by simpa using hw
    all_goals exact decode_unassigned rest (by decide) (by decide) (by decide +kernel)

/-! ### The checks of a unit (R36) -/

/-- A word that is no system word of an unprivileged launch passes the first check. -/
theorem not_barred {priv : Bool} {w : Word} (may : majorOf w = 0x3D → priv = true) : (majorOf w == 0x3D && !priv) = false := by
  cases priv with
  | true => exact Bool.and_false _
  | false => simpa using fun h => Bool.false_ne_true (may h)

section Choice

variable {priv : Bool} {ws : List Word} (g : Group) (c : Clause) (pc : Nat)

theorem chooseRow_barred (system : majorOf (baseWord ws) = 0x3D) (unprivileged : priv = false) :
    chooseRow priv g c pc ws = .ok .illegalEncoding := by
  unfold chooseRow
  simp [system, unprivileged]

variable (may : majorOf (baseWord ws) = 0x3D → priv = true)
include may

theorem chooseRow_illegal {w : Word} {n : Nat} (hd : decode ws = .error (.illegalInstruction w n)) :
    chooseRow priv g c pc ws = .ok .illegalEncoding := by
  unfold chooseRow
  simp [not_barred may, hd]

theorem chooseRow_badPrefix {p : Word} (hd : decode ws = .error (.illegalPrefix p)) :
    chooseRow priv g c pc ws = .error (if clauseAllows c pc ws then { cls := 2, info0 := (ws.headD 0).setWidth 64 }
      else { cls := 1, info0 := c.word.setWidth 64, info1 := BitVec.ofNat 64 ((pc - c.head) / 4) }) := by
  unfold chooseRow
  cases clauseAllows c pc ws <;> simp [not_barred may, hd]

theorem chooseRow_misplaced {i : Instr} {r : List Word} (hd : decode ws = .ok (i, r)) (ha : clauseAllows c pc ws = false) :
    chooseRow priv g c pc ws = .error { cls := 1, info0 := c.word.setWidth 64, info1 := BitVec.ofNat 64 ((pc - c.head) / 4) } := by
  unfold chooseRow
  simp [not_barred may, hd, ha]

theorem chooseRow_badFields {i : Instr} {r : List Word} (hd : decode ws = .ok (i, r)) (ha : clauseAllows c pc ws = true)
    (hp : pfxOk i = false) : chooseRow priv g c pc ws = .error { cls := 2, info0 := (ws.headD 0).setWidth 64 } := by
  unfold chooseRow
  simp [not_barred may, hd, ha, hp]

/-- A unit that passes every check runs the row that it decodes to, told apart by its scalars where rows share a word. -/
theorem chooseRow_runs {i : Instr} {r : List Word} (hd : decode ws = .ok (i, r)) (ha : clauseAllows c pc ws = true) (hp : pfxOk i = true) :
    chooseRow priv g c pc ws = .ok (select (systemScalars g (baseWord ws)).1 (systemScalars g (baseWord ws)).2 i) := by
  unfold chooseRow
  simp [not_barred may, hd, ha, hp]

end Choice

/-- Settles O53: one equation of the choice for each check that a unit fails. -/
theorem unitsAreCheckedInOrder : Obligations.UnitsAreCheckedInOrder := fun _ g c pc _ =>
  ⟨chooseRow_barred g c pc, fun _ _ may hd => chooseRow_illegal g c pc may hd,
    fun _ _ may hd => ⟨chooseRow_misplaced g c pc may hd, chooseRow_badFields g c pc may hd⟩,
    fun _ may hd => chooseRow_badPrefix g c pc may hd⟩

/-! ### The issue of a fragment (R22, R58) -/

/-- With no error of SRAM waiting to be read, a row runs by its meaning (R435). -/
theorem runRow_clean (run : Instr → State → Out) (i : Instr) {s : State} (clean : s.upsets = []) : runRow run i s = run i s := by
  simp [runRow, clean]

section Issue

variable {s s₁ : State} {key ln : Nat} {g : Group} {f : Frag} {l : Launch} (hg : groupOf s key = some g) (hf : fragAt g ln = some f)
  (hl : launchOfGroup s g = some l) (may : mayIssue s key g f = true)
include hg hf hl may

/-- A fragment outside any clause that has fetched its header decodes it. -/
theorem beginIssue_header {h : Word} (outside : f.clause = none) (fetched : fetchWord s (whoGroup s key g) l.stamp f.pc = (s₁, .ok h)) :
    beginIssue s key ln = ({ s₁ with cur := some ⟨key, f.lanes, f.pc, [h], none⟩ }, .run .clauseHeader) := by
  unfold beginIssue
  simp [hg, hf, hl, may, outside, fetched]

/-- A fragment in a clause that has fetched its unit runs the row chosen for it. -/
theorem beginIssue_unit {c : Clause} {ws : List Word} {i : Instr} (inside : f.clause = some c)
    (fetched : unitWords s (whoGroup s key g) l.stamp c f = (s₁, .ok ws)) (chosen : chooseRow (recPriv l) g c f.pc ws = .ok i) :
    beginIssue s key ln = ({ s₁ with cur := some ⟨key, f.lanes, f.pc, ws, some c⟩ }, .run i) := by
  unfold beginIssue
  simp [hg, hf, hl, may, inside, fetched, chosen]

end Issue

/-- A unit that is issued runs its decoded row and is counted. -/
theorem issueUnit_runs (s : State) (key ln : Nat) : UnitRuns s key ln (issueUnit (runRow exec) s key ln) := by
  intro g f l c s₁ ws i r hg hf hl may inside fetched hd wf ha priv x j s₂ clean
  obtain ⟨-, fields⟩ := Bool.and_eq_true_iff.mp wf
  unfold issueUnit
  rw [beginIssue_unit hg hf hl may inside fetched (chooseRow_runs g c f.pc priv hd ha fields)]
  exact congrArg (afterWord s₂ j) (runRow_clean exec j clean)

/-- A fragment that issues in a clause issues one unit. -/
theorem issueOnce_inside {run : Instr → State → Out} {s : State} {key ln : Nat} {g : Group} {f : Frag}
    (hg : groupOf (backToHeader s key ln) key = some g) (hf : fragAt g ln = some f) (inside : f.clause ≠ none) :
    issueOnce run s key ln = issueUnit run (backToHeader s key ln) key ln := by
  have stands : f.clause.isNone = false := Option.isNone_eq_false_iff.mpr (Option.isSome_iff_ne_none.mpr inside)
  unfold issueOnce
  simp only [hg, Option.bind_some, hf, Option.map_some, stands]
  cases issueUnit run (backToHeader s key ln) key ln <;> rfl

/-- A fragment that issues at a header goes on to the first word of the clause that it enters. -/
theorem issueOnce_header {run : Instr → State → Out} {s t : State} {key ln : Nat} {g : Group} {f : Frag}
    (hg : groupOf (backToHeader s key ln) key = some g) (hf : fragAt g ln = some f) (outside : f.clause = none)
    (header : issueUnit run (backToHeader s key ln) key ln = .next t) :
    issueOnce run s key ln = if entersClause t key ln f.pc then issueUnit run { t with cur := none } key ln else .next t := by
  unfold issueOnce
  simp only [hg, Option.bind_some, hf, Option.map_some, outside, Option.isNone_none, header]

/-! ### The head of the agenda -/

/-- The state in which what a step takes off its agenda comes about. -/
def stepStart (s : State) (rest : List Action) : State := { endDuePeriods (between { s with agenda := rest }) with cur := none }

section Agenda

variable {s : State} {rest : List Action} (on : s.power.failed = false)
include on

theorem nextAction_head {a : Action} (h : s.agenda = a :: rest) : nextAction s = ({ s with agenda := rest }, some a) := by
  unfold nextAction
  simp [h, actsNow, on]

theorem step_event {i : Instr} {x : Input} (h : s.agenda = .event i x :: rest) :
    step s = runRow exec i { beforeEvent i { s with agenda := rest } with cur := none, input := x } := by
  unfold step
  rw [nextAction_head on h]

theorem step_issue {key ln : Nat} (h : s.agenda = .issue key ln :: rest) :
    step s = issueOnce (runRow exec) (stepStart s rest) key ln := by
  unfold step
  rw [nextAction_head on h]
  rfl

theorem step_part {key ln upto : Nat} (h : s.agenda = .part key ln upto :: rest) :
    step s = issuePart (issueOnce (runRow exec)) (stepStart { s with cut := some upto } rest) key ln := by
  unfold step
  rw [nextAction_head on h]
  rfl

theorem step_upset {x : Upset} (h : s.agenda = .upset x :: rest) : step s = .next (execUpset (stepStart s rest) x) := by
  unfold step
  rw [nextAction_head on h]
  rfl

theorem step_pci {w : PciWrite} (h : s.agenda = .pci w :: rest) : step s = .next (execPci (stepStart s rest) w) := by
  unfold step
  rw [nextAction_head on h]
  rfl

theorem step_message {vendor : Bool} {n : Nat} {r : MgmtRequest} (h : s.agenda = .message vendor n r :: rest) :
    step s = .next (answerUnserved (stepStart s rest) vendor n r) := by
  unfold step
  rw [nextAction_head on h]
  rfl

/-- Every row but that of a telemetry period's end runs where the periods that are due have ended (R295). -/
theorem step_event_clean {i : Instr} {x : Input} (h : s.agenda = .event i x :: rest) (hi : i ≠ .telemetryPeriodEnd)
    (clean : (stepStart s rest).upsets = []) : step s = exec i { stepStart s rest with input := x } := by
  have before : beforeEvent i { s with agenda := rest } = endDuePeriods (between { s with agenda := rest }) := by
    unfold beforeEvent
    split
    · exact absurd rfl hi
    · rfl
  rw [step_event on h, before]
  exact runRow_clean exec i clean

/-- A word that breaks off between its lanes issues as any other, and leaves no mark of where it was to break off (R344). -/
theorem step_part_issue {key ln upto : Nat} {t : State} (h : s.agenda = .part key ln upto :: rest)
    (issued : step { s with agenda := .issue key ln :: rest, cut := some upto } = .next t) : step s = .next { t with cut := none } := by
  have whole : issueOnce (runRow exec) (stepStart { s with cut := some upto } rest) key ln = .next t :=
    (step_issue (s := { s with agenda := .issue key ln :: rest, cut := some upto }) on rfl).symm.trans issued
  rw [step_part on h]
  unfold issuePart
  rw [whole]

end Agenda

/-! ### Writes and requests that no row takes (R403, R448) -/

theorem modify_eq_set {α : Type} {xs : List α} {n : Nat} {x : α} (h : xs[n]? = some x) (k : α → α) : xs.modify n k = xs.set n (k x) := by
  rw [List.modify_eq_set_getElem?, h]
  rfl

theorem execPci_enable {s : State} {fn : Nat} {f : Func} (hf : s.funcs[fn]? = some f) (on : Bool) :
    execPci s (.msixEnable fn on) = { s with funcs := s.funcs.set fn { f with msixOn := on } } :=
  congrArg (fun fs => { s with funcs := fs }) (modify_eq_set hf _)

theorem execPci_mask {s : State} {fn : Nat} {f : Func} (hf : s.funcs[fn]? = some f) (e : Nat) :
    execPci s (.maskEntry fn e) = { s with funcs := s.funcs.set fn { f with masked := insertNat e f.masked } } :=
  congrArg (fun fs => { s with funcs := fs }) (modify_eq_set hf _)

theorem answerUnserved_vendor (s : State) {n : Nat} (r : MgmtRequest) (unserved : n = 0 ∨ 6 < n) :
    answerUnserved s true n r =
      { s with sent := s.sent ++ [vendorAnswer n r.tag (if r.onePacket = true ∧ r.zero = 0 then 5 else 1) []] } := by
  have other : (decide (1 ≤ n) && decide (n ≤ 6)) = false := by simp; omega
  have code : (if !r.onePacket || r.zero != 0 then 1 else 5) = if r.onePacket = true ∧ r.zero = 0 then 5 else 1 := by
    cases r.onePacket <;> by_cases hz : r.zero = 0 <;> simp [hz]
  unfold answerUnserved
  rw [if_pos rfl, other, code]
  rfl

theorem answerUnserved_control (s : State) {n : Nat} (r : MgmtRequest) (unserved : n ∉ [1, 2, 4, 5, 6]) :
    answerUnserved s false n r = { s with sent := s.sent ++ [.management (leBytes 1 0 ++ leBytes 1 n ++ leBytes 1 5)] } := by
  have other : [1, 2, 4, 5, 6].contains n = false := by simpa using unserved
  unfold answerUnserved
  rw [if_neg Bool.false_ne_true, other]
  exact congrArg (fun bs => { s with sent := s.sent ++ [Sent.management bs] }) (List.append_nil _)

/-- Settles O52: what stands at the head of the agenda comes about from the state that the clock leaves; an issue is that of the
fragment's unit, after its header where it stands at one. -/
theorem stepsRunTheDecodedRow : Obligations.StepsRunTheDecodedRow := by
  intro s rest on s' s₀
  refine ⟨fun i x h hi clean => step_event_clean on h hi clean, fun x h clean => ?_, fun x h => step_upset on h,
    fun key ln upto t h issued => step_part_issue on h issued, fun fn en f h hf => ?_, fun fn e f h hf => ?_, fun n r h hn => ?_,
    fun n r h hn => ?_, fun key ln g f l b h hb hg hf hl may => ⟨?_, fun inside => ?_⟩⟩
  · rw [step_event on h]
    exact runRow_clean exec _ clean
  · rw [step_pci on h]; exact congrArg _ (execPci_enable hf en)
  · rw [step_pci on h]; exact congrArg _ (execPci_mask hf e)
  · rw [step_message on h]; exact congrArg _ (answerUnserved_vendor _ r hn)
  · rw [step_message on h]; exact congrArg _ (answerUnserved_control _ r hn)
  · intro s₁ hd t outside fetched s₂ clean ran
    subst hb
    have header : issueUnit (runRow exec) (backToHeader s₀ key ln) key ln = .next t := by
      unfold issueUnit
      rw [beginIssue_header hg hf hl may outside fetched]
      exact (congrArg (afterWord s₂ .clauseHeader) (runRow_clean exec _ clean)).trans ran
    have stepped := (step_issue on h).trans (issueOnce_header hg hf outside header)
    refine ⟨fun stays => ?_, fun enters => ?_⟩
    · rw [stepped, stays]; rfl
    · rw [stepped, enters]; exact issueUnit_runs _ key ln
  · subst hb
    rw [(step_issue on h).trans (issueOnce_inside hg hf inside)]
    exact issueUnit_runs _ key ln

end Sys2Proof.Machine

/-!
SUPPORT. Laws of the register check that lane words make before anything else (R31): which register of a word's list it names, and that
every word of the tables makes it.
-/
namespace Sys2Proof.Machine

open Sys2Proof

/-! ### The check -/

/-- The check of one register of a list. -/
theorem badReg_singleton (g : Group) (y : Opnd × Nat) : badReg g [y] = none ↔ RegsOk g [y] := by
  obtain ⟨x, n⟩ := y
  by_cases hx : 192 ≤ x.toNat
  · simp [badReg, RegsOk, isScalar, hx]
  · simp [badReg, RegsOk, isScalar, hx]

theorem badReg_cons (g : Group) (y : Opnd × Nat) (rs : List (Opnd × Nat)) :
    badReg g (y :: rs) = if badReg g [y] = none then badReg g rs else some y.1.toNat := by
  have bad : ∀ c : Bool, (if c then some y.1.toNat else badReg g rs) =
      if (if c then some y.1.toNat else badReg g []) = none then badReg g rs else some y.1.toNat := by
    intro c
    cases c with
    | false => rfl
    | true => exact (if_neg (Option.some_ne_none _)).symm
  rw [badReg, badReg]
  simpa using bad (if isScalar y.1 then decide (4 ≤ y.2) else y.1.toNat % y.2 != 0 || decide (8 * g.held < y.1.toNat + y.2))

theorem regsOk_cons (g : Group) (y : Opnd × Nat) (rs : List (Opnd × Nat)) : RegsOk g (y :: rs) ↔ RegsOk g [y] ∧ RegsOk g rs := by
  simp [RegsOk]

/-- A list that R31 does not allow has a register that it does not allow, and the check names that one. -/
theorem badReg_some {g : Group} {rs : List (Opnd × Nat)} (h : ¬ RegsOk g rs) :
    ∃ y ∈ rs, ¬ RegsOk g [y] ∧ badReg g rs = some y.1.toNat := by
  induction rs with
  | nil => exact absurd (fun _ hr => absurd hr List.not_mem_nil) h
  | cons y rs ih =>
    rw [badReg_cons]
    by_cases hy : RegsOk g [y]
    · obtain ⟨z, hz, bad, found⟩ := ih (fun ok => h ((regsOk_cons g y rs).mpr ⟨hy, ok⟩))
      exact ⟨z, List.mem_cons_of_mem _ hz, bad, by rw [if_pos ((badReg_singleton g y).mpr hy), found]⟩
    · exact ⟨y, List.mem_cons_self, hy, by rw [if_neg (fun ok => hy ((badReg_singleton g y).mp ok))]⟩

/-- A word that names a register its group may not name takes the trap of that register. -/
theorem withRegs_forbidden {s : State} {u : Issue} (h : issueOf s = some u) {rs : List (Opnd × Nat)} (bad : ¬ RegsOk u.g rs)
    (k : Issue → Out) : ∃ y ∈ rs, ¬ RegsOk u.g [y] ∧ withRegs s rs k = .next (raise s u (registerTrap u y.1.toNat)) := by
  obtain ⟨y, hy, not_ok, found⟩ := badReg_some bad
  exact ⟨y, hy, not_ok, by unfold withRegs; rw [withIssue_eq h, found]⟩

/-- A mask word that would write m0 takes the trap of register 0. -/
theorem maskOp_m0 {s : State} {u : Issue} (h : issueOf s = some u) (p : Option Pfx) (srcs : List (Opnd × Nat)) (val : Group → Nat → Bool) :
    maskOp s p 0 srcs val = .next (raise s u (registerTrap u 0)) := by
  unfold maskOp
  rw [withIssue_eq h, if_pos rfl]

/-! ### The words that make it -/

/-- A lane word checks its registers, its destination first, before anything else. -/
def ChecksRegs (r : LaneRow) : Prop := ∀ s, ∃ k, exec r.i s = withRegs s ((r.d, r.n) :: r.srcs) k

/-- A mask word writes its mask by the operation that refuses m0. -/
def WritesMask (r : MaskRow) : Prop := ∀ s, ∃ val, exec r.i s = maskOp s r.p r.m r.srcs val

section Tables

variable (p : Option Pfx) (d a b : Opnd)

/-- Every lane word of the tables checks the registers that its row names, in that order. -/
theorem integerRows_check (i : Byte) (x : Word) : ∀ r ∈ arithRows p d a b i x ++ bitsRows p d a b i x ++ wideRows p d a b, ChecksRegs r := by
  simp only [arithRows, bitsRows, wideRows, List.forall_mem_append, List.forall_mem_cons, List.not_mem_nil, false_imp_iff, implies_true,
    and_true]
  and_intros
  all_goals exact fun _ => ⟨_, rfl⟩

theorem floatingRows_check : ∀ r ∈ floatRows p d a b ++ specialRows p d a ++ packedRows p d a b, ChecksRegs r := by
  simp only [floatRows, specialRows, packedRows, List.forall_mem_append, List.forall_mem_cons, List.not_mem_nil, false_imp_iff,
    implies_true, and_true]
  and_intros
  all_goals exact fun _ => ⟨_, rfl⟩

theorem convertAndMoveRows_check (j : BitVec 16) :
    ∀ r ∈ convertRows p d a b ++ moveRows p d a b j ++ [pairRow p d a b], ChecksRegs r := by
  simp only [convertRows, moveRows, List.forall_mem_append, List.forall_mem_cons, List.not_mem_nil, false_imp_iff, implies_true, and_true]
  and_intros
  all_goals exact fun _ => ⟨_, rfl⟩

end Tables

theorem compareRows_write (p : Option Pfx) (a b : Opnd) (c m : BitVec 3) (f : BitVec 4) : ∀ r ∈ compareRows p c m f a b, WritesMask r := by
  simp only [compareRows, List.forall_mem_cons, List.not_mem_nil, false_imp_iff, implies_true, and_true]
  and_intros
  · exact fun s => ⟨_, Eq.refl (execIcmpI32 p c m a b s)⟩
  · exact fun s => ⟨_, Eq.refl (execIcmpN32 p c m a b s)⟩
  · exact fun s => ⟨_, Eq.refl (execIcmpI64 p c m a b s)⟩
  · exact fun s => ⟨_, Eq.refl (execIcmpN64 p c m a b s)⟩
  · exact fun s => ⟨_, Eq.refl (execFcmp p f m a b s)⟩
  · exact fun s => ⟨_, Eq.refl (execMlop p f m a b s)⟩
  · exact fun s => ⟨_, Eq.refl (execMsetNz p m a s)⟩

/-- Settles O4: every lane word of the tables makes the check, and every mask word refuses m0. -/
theorem forbiddenRegistersTrapAtTheWord : Obligations.ForbiddenRegistersTrapAtTheWord := by
  refine ⟨fun p d a b i x j r hr s u h bad => ?_, fun p c m f a b r hr s u h m0 => ?_⟩
  · have checks : ChecksRegs r := by
      have tables := List.forall_mem_append.mpr ⟨integerRows_check p d a b i x,
        List.forall_mem_append.mpr ⟨floatingRows_check p d a b, convertAndMoveRows_check p d a b j⟩⟩
      exact tables r (by simpa [List.append_assoc] using hr)
    obtain ⟨k, word⟩ := checks s
    rw [word]
    exact withRegs_forbidden h bad k
  · obtain ⟨val, word⟩ := compareRows_write p a b c m f r hr s
    rw [word, m0]
    exact maskOp_m0 h r.p r.srcs val

end Sys2Proof.Machine


/-!
SUPPORT. Laws of the group and of its fragments that every word of the code moves by (R18), and the words that pass or wait
(R67 to R69).
-/
namespace Sys2Proof

/-- A second write at a key is the one that stands. -/
theorem tput_tput {α : Type} (t : Table α) (k : Nat) (x y : α) : tput (tput t k x) k y = tput t k y := by
  induction t with
  | nil => simp [tput]
  | cons p t ih =>
    obtain ⟨j, v⟩ := p
    by_cases same : j = k
    · simp [tput, same]
    · by_cases before : k < j
      · simp [tput, same, before]
      · simp [tput, same, before, ih]

end Sys2Proof

namespace Sys2Proof.Machine

open Sys2Proof

/-! ### Groups -/

@[simp] theorem setGroup_setGroup (s : State) (k : Nat) (g h : Group) : setGroup (setGroup s k g) k h = setGroup s k h := by
  simp only [setGroup, tput_tput]

theorem modGroup_eq {s : State} {k : Nat} {g : Group} (h : groupOf s k = some g) (f : Group → Group) :
    modGroup s k f = setGroup s k (f g) := by
  simp only [modGroup, h]

theorem finish_eq {s : State} {u : Issue} {g : Group} (h : groupOf s u.key = some g) :
    finish s u = setGroup s u.key (modFrag g u.f.lanes (fun f => f.past u.words.length s.clock)) := by
  simp only [finish, h]

theorem holdUnit_eq {s : State} {u : Issue} {g : Group} (h : groupOf s u.key = some g) (w : Hold) :
    holdUnit s u w = setGroup s u.key (modFrag g u.f.lanes (fun f => f.holding w s.clock)) := by
  simp only [holdUnit, h]

/-- A unit that issues stands in its group. -/
theorem groupOf_issue {s : State} {u : Issue} (h : issueOf s = some u) : groupOf s u.key = some u.g := (issueOf_some h).1

theorem frag_mem_issue {s : State} {u : Issue} (h : issueOf s = some u) : u.f ∈ u.g.frags := (issueOf_some h).2.1

/-! ### Fragments -/

theorem mem_modFrag {g : Group} {m : Dword} {h : Frag → Frag} {f : Frag} :
    f ∈ (modFrag g m h).frags ↔ ∃ a ∈ g.frags, (if a.lanes == m then h a else a) = f := by
  simp only [modFrag, List.mem_map]

/-- The fragment of the lanes is changed. -/
theorem mem_modFrag_same {g : Group} {f : Frag} (hf : f ∈ g.frags) (h : Frag → Frag) :
    h f ∈ (modFrag g f.lanes h).frags :=
  mem_modFrag.mpr ⟨f, hf, by simp⟩

/-- Fragments of other lanes stay. -/
theorem mem_modFrag_other {g : Group} {m : Dword} {h : Frag → Frag} (keeps : ∀ f, (h f).lanes = f.lanes) {f : Frag}
    (hf : f.lanes ≠ m) : f ∈ (modFrag g m h).frags ↔ f ∈ g.frags := by
  rw [mem_modFrag]
  constructor
  · rintro ⟨a, ha, e⟩
    split at e
    · next hm =>
      refine absurd ?_ hf
      rw [← e, keeps a]
      simpa using hm
    · exact e ▸ ha
  · exact fun hf' => ⟨f, hf', by simp [hf]⟩

/-- Where a fragment stands once its word is completed (R18). -/
theorem past_place (f : Frag) (n clock : Nat) :
    match f.clause with
    | none => (f.past n clock).pc = f.pc + 4 * n ∧ (f.past n clock).clause = none
    | some c => if f.pc + 4 * n < c.head + 4 + 4 * hdrCount c.word
        then (f.past n clock).pc = f.pc + 4 * n ∧ (f.past n clock).clause = some c
        else (f.past n clock).pc = c.head + 4 + 4 * hdrCount c.word ∧ (f.past n clock).clause = none := by
  unfold Frag.past afterWords
  cases f.clause with
  | none => exact ⟨rfl, rfl⟩
  | some c =>
    dsimp only
    split <;> exact ⟨rfl, rfl⟩

/-! ### What a wait covers (R232) -/

theorem batchOf_setBatch (g : Group) (l l' : Nat) (b : Batch) :
    batchOf (setBatch g l b) l' = if l' = l then b else batchOf g l' := tget_tset ..

theorem mem_foldl_insertNat {t : Nat} {ts c : List Nat} :
    t ∈ ts.foldl (fun c t => insertNat t c) c ↔ t ∈ c ∨ t ∈ ts := by
  have h := @mem_addPoison t ts c
  rw [addPoison] at h
  rw [h, or_comm]

/-- A wait's end covers its transfers for the lanes of the mask, and changes nothing else. -/
theorem coverFor_covers (g : Group) (m : Dword) (ts : List Nat) :
    (∃ b, coverFor g m ts = { g with batches := b }) ∧
    ∀ l, l < 64 → (batchOf (coverFor g m ts) l).opened = (batchOf g l).opened ∧
      (batchOf (coverFor g m ts) l).sealed = (batchOf g l).sealed ∧
      ∀ t, t ∈ (batchOf (coverFor g m ts) l).covered ↔ t ∈ (batchOf g l).covered ∨ (lane m l = true ∧ t ∈ ts) := by
  have each : ∀ (ls : List Nat) (g : Group),
      let g' := ls.foldl (fun h l => setBatch h l
        { batchOf h l with covered := ts.foldl (fun c t => insertNat t c) (batchOf h l).covered }) g
      (∃ b, g' = { g with batches := b }) ∧
      ∀ l, (batchOf g' l).opened = (batchOf g l).opened ∧ (batchOf g' l).sealed = (batchOf g l).sealed ∧
        ∀ t, t ∈ (batchOf g' l).covered ↔ t ∈ (batchOf g l).covered ∨ (l ∈ ls ∧ t ∈ ts) := by
    intro ls
    induction ls with
    | nil => exact fun g => ⟨⟨g.batches, rfl⟩, fun l => ⟨rfl, rfl, fun t => by simp⟩⟩
    | cons a ls ih =>
      intro g
      obtain ⟨⟨b, hb⟩, covers⟩ := ih (setBatch g a
        { batchOf g a with covered := ts.foldl (fun c t => insertNat t c) (batchOf g a).covered })
      refine ⟨⟨b, by rw [List.foldl_cons, hb]; rfl⟩, fun l => ?_⟩
      obtain ⟨ho, hs, hc⟩ := covers l
      rw [List.foldl_cons]
      rw [ho, hs]
      simp only [hc, batchOf_setBatch]
      by_cases h : l = a
      · subst h
        simp only [if_true, mem_foldl_insertNat, List.mem_cons]
        exact ⟨trivial, trivial, fun t => by tauto⟩
      · simp [h]
  unfold coverFor
  split
  · next h =>
    have none : ts = [] := by simpa using h
    exact ⟨⟨g.batches, rfl⟩, fun l _ => ⟨rfl, rfl, fun t => by simp [none]⟩⟩
  · obtain ⟨same, covers⟩ := each (lanesOf m) g
    refine ⟨same, fun l hl => ?_⟩
    obtain ⟨ho, hs, hc⟩ := covers l
    exact ⟨ho, hs, fun t => by rw [hc t, mem_lanesOf]; simp [hl]⟩

/-! ### Words that wait or do nothing -/

/-- A word that passes and then changes its fragment once more. -/
theorem modGroup_finish {s : State} {u : Issue} (h : issueOf s = some u) (f : Frag → Frag) :
    modGroup (finish s u) u.key (fun g => modFrag g u.f.lanes f) =
      setGroup s u.key (modFrag (modFrag u.g u.f.lanes (fun f => f.past u.words.length s.clock)) u.f.lanes f) := by
  rw [finish_eq (groupOf_issue h), modGroup_eq (groupOf_setGroup ..), setGroup_setGroup]

/-- Settles O7. -/
theorem wordsPassOrWait : Obligations.WordsPassOrWait := by
  refine ⟨?_, ?_⟩
  · intro s u h stop next
    refine ⟨_, u.f.past u.words.length s.clock, finish_eq (groupOf_issue h), rfl, fun f hf => ?_,
      mem_modFrag_same (frag_mem_issue h) _, rfl, rfl, rfl, rfl, past_place u.f u.words.length s.clock⟩
    exact mem_modFrag_other (g := u.g) (h := fun f => f.past u.words.length s.clock) (fun _ => rfl) hf
  · intro s u h passedThen
    refine ⟨withIssue_eq h _, ?_, ?_, ?_, ?_⟩
    · exact (withIssue_eq h _).trans (congrArg _ (modGroup_finish h _))
    · exact withIssue_eq h _
    · intro n hn
      refine (withIssue_eq h _).trans ?_
      rw [if_neg hn]
      exact congrArg _ (modGroup_finish h _)
    · intro k n
      refine ⟨fun below => ?_, fun above => (withIssue_eq h _).trans (if_neg (by omega))⟩
      obtain ⟨⟨b, hb⟩, covers⟩ := coverFor_covers u.g u.f.lanes (shownComplete s u.key u.g k.toNat n.toNat)
      refine ⟨_, ?_, ?_, covers⟩
      · refine (withIssue_eq h _).trans ?_
        rw [if_pos below, coverWait, modGroup_eq (groupOf_issue h)]
        rfl
      · rw [hb]

end Sys2Proof.Machine


/-!
SUPPORT. What reads of device memory leave of the package (R292, R332, R370): they move memory's own state, what Levant has under way,
the events of the clock, the draws and the replies' buffer, and a thread's own load notes its access. Everything else stays.
-/
namespace Sys2Proof.Machine

open Sys2Proof

/-- The package with what reads of memory move set aside. -/
def unread (s : State) : State :=
  { s with tick := 0, mem := Mem.reset, fabric := Fabric.reset, packetsLv := [], levant := [], fresh := [], buffer := [] }

theorem foldl_unread {α : Type} (f : State → α → State) (hf : ∀ s a, unread (f s a) = unread s) (xs : List α) (s : State) :
    unread (xs.foldl f s) = unread s := by
  induction xs generalizing s with
  | nil => rfl
  | cons x xs ih => rw [List.foldl_cons, ih, hf]

/-- What reads leave alone in particular. -/
theorem groups_of_unread {s t : State} (h : unread t = unread s) : t.groups = s.groups := by
  have same : (unread t).groups = (unread s).groups := by rw [h]
  exact same

theorem groupOf_of_unread {s t : State} (h : unread t = unread s) (k : Nat) : groupOf t k = groupOf s k := by
  simp only [groupOf, groups_of_unread h]

/-! ### Draws and Levant -/

@[simp] theorem unread_draw {α : Type} (s : State) (xs : List α) (x : α) : unread (draw s xs x).1 = unread s := by
  cases xs <;> rfl

/-- The package that a read answers with. -/
theorem unread_of_eq {α : Type} {s t : State} {p : State × α} {r : α} (h : p = (t, r)) (hp : unread p.1 = unread s) :
    unread t = unread s := by
  subst h
  exact hp

@[simp] theorem unread_setLevant (s : State) (die : Nat) (x : Levant) : unread (setLevant s die x) = unread s := rfl

@[simp] theorem unread_noteSeq (s : State) (p : LvPacket) : unread (noteSeq s p) = unread s := rfl

@[simp] theorem unread_deliverCopy (s : State) (p : LvPacket) : unread (deliverCopy s p) = unread s := rfl

@[simp] theorem unread_stampLine (s : State) (p : LvPacket) : unread (stampLine s p) = unread s := rfl

@[simp] theorem unread_setCt (s : State) (die w n : Nat) : unread (setCt s die w n) = unread s := rfl

@[simp] theorem unread_raiseSeen (s : State) (die w n : Nat) : unread (raiseSeen s die w n) = unread s := by
  unfold raiseSeen
  dsimp only
  split <;> rfl

@[simp] theorem unread_arrivePacket (s : State) (p : LvPacket) : unread (arrivePacket s p) = unread s := by
  unfold arrivePacket
  dsimp only
  split
  · rfl
  · split <;> split <;> simp only [unread_raiseSeen, unread_setCt, unread_stampLine, unread_noteSeq, unread_deliverCopy]

@[simp] theorem unread_deliverThrough (s : State) (p : LvPacket) : unread (deliverThrough s p) = unread s :=
  foldl_unread arrivePacket unread_arrivePacket _ s

@[simp] theorem unread_deliverFor (s : State) (die : Nat) (sectors : Nat → Bool) : unread (deliverFor s die sectors) = unread s :=
  foldl_unread deliverThrough unread_deliverThrough _ s

/-! ### Fetches -/

@[simp] theorem unread_setMem (s : State) (m : Mem) : unread { s with mem := m } = unread s := rfl

@[simp] theorem unread_recordEvent (s : State) (e : Event) : unread (recordEvent s e) = unread s := rfl

@[simp] theorem unread_noteActivations (s : State) (line : Nat) : unread (noteActivations s line) = unread s := by
  unfold noteActivations
  split
  · rfl
  · exact unread_setMem s _

@[simp] theorem unread_recordDecoded (s : State) (old : Mem) (line : Nat) (d : Decoded) :
    unread (recordDecoded s old line d) = unread s := by
  cases d with
  | sound => rfl
  | corrected x => exact (unread_recordEvent ..).trans (unread_setMem s _)
  | poisoned x => exact (unread_recordEvent ..).trans (unread_setMem s _)

@[simp] theorem unread_recordFetched (s : State) (old : Mem) (line : Nat) (d : Decoded) :
    unread (recordFetched s old line d) = unread s := by
  cases d with
  | sound => rfl
  | corrected x => exact (unread_noteActivations ..).trans (unread_recordDecoded ..)
  | poisoned x => exact (unread_noteActivations ..).trans (unread_recordDecoded ..)

@[simp] theorem unread_fetchLines (s : State) (die addr n : Nat) : unread (fetchLines s die addr n) = unread s := by
  unfold fetchLines
  dsimp only
  rw [foldl_unread _ fun _ _ => unread_recordFetched ..]
  exact unread_deliverFor ..

@[simp] theorem unread_noteReads (s : State) (core addr n : Nat) : unread (noteReads s core addr n) = unread s :=
  foldl_unread (fun s line => noteRead s (writerOf core) line) (fun _ _ => rfl) _ _

/-! ### Translation -/

@[simp] theorem unread_readTable (s : State) (w : Who) (covers : Nat → Option Nat → Bool) (others : State → Nat → List Nat)
    (dpa n : Nat) : unread (readTable s w covers others dpa n).1 = unread s := by
  unfold readTable
  dsimp only
  split
  · rfl
  · split
    · rfl
    · split
      · simp
      · simp

@[simp] theorem unread_walkFrom (w : Who) (va level : Nat) (s : State) (table : Nat) :
    unread (walkFrom w va level s table).1 = unread s := by
  induction level generalizing s table with
  | zero => rfl
  | succ level ih =>
    unfold walkFrom
    dsimp only
    split
    · next h => exact unread_of_eq h (unread_readTable ..)
    · next t x h =>
      have read : unread t = unread s := unread_of_eq h (unread_readTable ..)
      split
      · exact read
      · split
        · exact read
        · split
          · split
            · exact read
            · rw [ih, read]
          · exact read

@[simp] theorem unread_walk (s : State) (w : Who) (va : Nat) : unread (walk s w va).1 = unread s := by
  unfold walk
  split
  · next h => exact unread_of_eq h (unread_readTable ..)
  · next t x h =>
    have read : unread t = unread s := unread_of_eq h (unread_readTable ..)
    split
    · exact read
    · rw [unread_walkFrom, read]

@[simp] theorem unread_leafOf (s : State) (w : Who) (k : Kind) (typed : Bool) (va : Nat) :
    unread (leafOf s w k typed va).1 = unread s := by
  unfold leafOf
  split
  · rfl
  · split
    · next h => exact unread_of_eq h (unread_walk ..)
    · next h => split <;> exact unread_of_eq h (unread_walk ..)

@[simp] theorem unread_translate (s : State) (w : Who) (k : Kind) (typed : Bool) (va : Nat) :
    unread (translate s w k typed va).1 = unread s := by
  unfold translate
  split
  · next h => exact unread_of_eq h (unread_leafOf ..)
  · next h => split <;> exact unread_of_eq h (unread_leafOf ..)

/-- A translation, whatever it gives, leaves what reads leave. -/
theorem unread_of_translate {s t : State} {w : Who} {k : Kind} {typed : Bool} {va : Nat} {r : XResult (Dword × Dest)}
    (h : translate s w k typed va = (t, r)) : unread t = unread s :=
  unread_of_eq h (unread_translate ..)

/-! ### Accesses of a thread -/

/-- The group at a key is as given, but for the accesses that its threads have noted. -/
def Noted (s : State) (key : Nat) (g : Group) : Prop := ∃ a, groupOf s key = some { g with anchors := a }

theorem noted_self {s : State} {key : Nat} {g : Group} (h : groupOf s key = some g) : Noted s key g := ⟨g.anchors, h⟩

theorem noted_of_unread {s t : State} {key : Nat} {g : Group} (h : unread t = unread s) (hs : Noted s key g) : Noted t key g := by
  obtain ⟨a, ha⟩ := hs
  exact ⟨a, (groupOf_of_unread h key).trans ha⟩

theorem noted_noteLoad {s : State} {key : Nat} {g : Group} (hs : Noted s key g) (l : Nat) (loc : Loc) (off n : Nat) :
    Noted (noteLoad s key l loc off n) key g := by
  obtain ⟨a, ha⟩ := hs
  exact ⟨_, by rw [noteLoad, modGroup_eq ha, groupOf_setGroup]; rfl⟩

theorem noted_noteThread {s : State} {key : Nat} {g : Group} (hs : Noted s key g) {w : Who}
    (hw : ∀ k ln, w.thread = some (k, ln) → k = key) (ma n : Nat) : Noted (noteThread s w ma n) key g := by
  unfold noteThread
  split
  · exact hs
  · next k ln h =>
    cases hw k ln h
    exact noted_noteLoad hs ..

/-- A load for a thread of a group, or for no thread, only notes its access there. -/
theorem noted_loadBytes {s : State} {key : Nat} {g : Group} (hs : Noted s key g) {w : Who}
    (hw : ∀ k ln, w.thread = some (k, ln) → k = key) (kind : Kind) (va n : Nat) : Noted (loadBytes s w kind va n).1 key g := by
  unfold loadBytes
  split
  · next h => exact noted_of_unread (unread_of_translate h) hs
  · next t e dpa ma h =>
    have noted := noted_noteThread (noted_of_unread ((unread_noteReads _ w.core ma n).trans
      ((unread_fetchLines t (writerOf w.core) ma n).trans (unread_of_translate h))) hs) hw ma n
    dsimp only
    split
    · split <;> exact noted
    · split <;> exact noted
  · next h =>
    have noted := noted_of_unread (unread_of_translate h) hs
    split <;> exact noted
  · next h =>
    have noted := noted_of_unread (unread_of_translate h) hs
    split <;> exact noted

/-- A fetch of a code word is no thread's access. -/
theorem noted_fetchWord {s : State} {key : Nat} {g : Group} (hs : Noted s key g) {w : Who} (hw : w.thread = none) (stamp va : Nat) :
    Noted (fetchWord s w stamp va).1 key g := by
  unfold fetchWord
  split
  · next t e dpa ma h =>
    have noted := noted_of_unread ((unread_noteReads _ w.core ma 4).trans
      ((unread_fetchLines t (writerOf w.core) ma 4).trans (unread_of_translate h))) hs
    dsimp only
    split
    · exact noted
    · exact noted_of_unread (unread_draw ..) noted
  · next t e h =>
    have loaded := noted_loadBytes (noted_of_unread (unread_of_translate h) hs) (w := w) (by simp [hw]) .fetch va 4
    split
    · next h' => rw [h'] at loaded; exact loaded
    · next h' => rw [h'] at loaded; exact loaded
  · next h => exact noted_of_unread (unread_of_translate h) hs

end Sys2Proof.Machine


/-!
SUPPORT. Branches (R23, R24, R56, R70 to R76): the distinct targets of a fragment's threads, their check, the fragments that the threads
become, and the table that BRX and CALLX read.
-/
namespace Sys2Proof

/-! ### Lanes -/

theorem lane_laneBit (l k : Nat) (hl : l < 64) : lane (laneBit l) k = decide (k = l) := by
  unfold lane laneBit
  rw [BitVec.getLsbD_ofNat, Nat.testBit_two_pow]
  by_cases h : k = l
  · simp [h, hl]
  · simp [h, Ne.symm h]

/-- A mask holds the lanes that a predicate names. -/
theorem lane_maskOf (p : Nat → Bool) (k : Nat) : lane (maskOf p) k = (decide (k < 64) && p k) := by
  have each : ∀ (ls : List Nat), (∀ l ∈ ls, l < 64) → ∀ m : Dword,
      lane (ls.foldl (fun m l => if p l then m ||| laneBit l else m) m) k = (lane m k || (decide (k ∈ ls) && p k)) := by
    intro ls
    induction ls with
    | nil => simp
    | cons a ls ih =>
      intro hls m
      rw [List.foldl_cons, ih fun l hl => hls l (by simp [hl])]
      have bit := lane_laneBit a k (hls a (by simp))
      by_cases pa : p a = true
      · rw [if_pos pa]
        have or : lane (m ||| laneBit a) k = (lane m k || lane (laneBit a) k) := by simp [lane]
        rw [or, bit]
        by_cases h : k = a
        · subst h; simp [pa]
        · simp [h]
      · rw [if_neg pa]
        by_cases h : k = a
        · subst h; simp [pa]
        · simp [h]
  unfold maskOf
  rw [each _ fun l hl => List.mem_range.mp hl]
  simp [lane]

theorem lane_and (m n : Dword) (l : Nat) : lane (m &&& n) l = (lane m l && lane n l) := by simp [lane]

theorem lane_of_and_eq_zero {m n : Dword} (h : m &&& n = 0) {l : Nat} (hn : lane n l = true) : lane m l = false := by
  have none : lane (m &&& n) l = false := by simp [h, lane]
  rw [lane_and, hn] at none
  simpa using none

theorem eq_zero_of_lanes {m : Dword} (h : ∀ l, lane m l = false) : m = 0 := by
  apply BitVec.eq_of_getLsbD_eq
  intro i _
  simpa [lane] using h i

theorem pairwise_lanesOf (m : Dword) : (lanesOf m).Pairwise (· < ·) := List.pairwise_lt_range.filter _

/-- A mask that holds a lane holds a lowest one. -/
theorem lanesOf_eq_cons {m : Dword} (h : m ≠ 0) : ∃ ls, lanesOf m = lowest m :: ls := by
  cases e : lanesOf m with
  | nil => exact absurd (Machine.lanesOf_eq_nil.mp e) h
  | cons l ls => exact ⟨ls, by simp [lowest, e]⟩

theorem filterMap_first {α : Type} {f : Nat → Option α} {ls : List Nat} (sorted : ls.Pairwise (· < ·)) {l : Nat} (hl : l ∈ ls) {x : α}
    (hx : f l = some x) (below : ∀ k ∈ ls, k < l → f k = none) : ∃ more, ls.filterMap f = x :: more := by
  induction ls with
  | nil => cases hl
  | cons a ls ih =>
    rw [List.pairwise_cons] at sorted
    obtain ⟨first, sorted⟩ := sorted
    rcases List.mem_cons.mp hl with rfl | hl
    · exact ⟨ls.filterMap f, List.filterMap_cons_some hx⟩
    · rw [List.filterMap_cons_none (below a (by simp) (first l hl))]
      exact ih sorted hl fun k hk => below k (by simp [hk])

end Sys2Proof

namespace Sys2Proof.Machine

open Sys2Proof

/-! ### Distinct targets -/

theorem any_target (acc : List (Nat × Int)) (t : Int) : acc.any (fun y => y.2 == t) = decide (t ∈ acc.map (·.2)) := by
  rw [Bool.eq_iff_iff, decide_eq_true_iff, List.any_eq_true, List.mem_map]
  exact exists_congr fun y => and_congr_right fun _ => beq_iff_eq

theorem distinctTargets_from (ts acc : List (Nat × Int)) :
    ∃ more, ts.foldl (fun acc x => if acc.any (fun y => y.2 == x.2) then acc else acc ++ [x]) acc = acc ++ more ∧
      (∀ x ∈ more, x ∈ ts) ∧
      more.map (·.2) = ((ts.map (·.2)).filter (fun t => !decide (t ∈ acc.map (·.2)))).eraseDups := by
  induction ts generalizing acc with
  | nil => exact ⟨[], by simp⟩
  | cons x ts ih =>
    rw [List.foldl_cons]
    simp only [any_target]
    by_cases seen : x.2 ∈ acc.map (·.2)
    · obtain ⟨more, folded, sub, targets⟩ := ih acc
      simp only [any_target] at folded
      refine ⟨more, by rw [if_pos (by simpa using seen), folded], fun y hy => by simp [sub y hy], ?_⟩
      rw [targets, List.map_cons, List.filter_cons_of_neg (by simpa using seen)]
    · obtain ⟨more, folded, sub, targets⟩ := ih (acc ++ [x])
      simp only [any_target] at folded
      refine ⟨x :: more, by rw [if_neg (by simpa using seen), folded]; simp, fun y hy => ?_, ?_⟩
      · rcases List.mem_cons.mp hy with rfl | hy
        · simp
        · simp [sub y hy]
      · rw [List.map_cons, targets, List.map_cons, List.filter_cons_of_pos (by simpa using seen), List.eraseDups_cons,
          List.filter_filter]
        congr 3
        funext t
        have either : t ∈ (acc ++ [x]).map (·.2) ↔ t = x.2 ∨ t ∈ acc.map (·.2) := by
          rw [List.map_append, List.mem_append, or_comm]
          simp
        rw [decide_eq_decide.mpr either, Bool.decide_or, Bool.not_or]
        rfl

theorem map_distinctTargets (ts : List (Nat × Int)) : (distinctTargets ts).map (·.2) = (ts.map (·.2)).eraseDups := by
  obtain ⟨more, folded, -, targets⟩ := distinctTargets_from ts []
  rw [distinctTargets, folded, List.nil_append, targets]
  simp

theorem mem_of_mem_distinctTargets {ts : List (Nat × Int)} {x : Nat × Int} (h : x ∈ distinctTargets ts) : x ∈ ts := by
  obtain ⟨more, folded, sub, -⟩ := distinctTargets_from ts []
  rw [distinctTargets, folded, List.nil_append] at h
  exact sub x h

/-- Every target is among the distinct ones. -/
theorem exists_mem_distinctTargets {ts : List (Nat × Int)} {x : Nat × Int} (h : x ∈ ts) : ∃ y ∈ distinctTargets ts, y.2 = x.2 := by
  have target : x.2 ∈ (distinctTargets ts).map (·.2) := by
    rw [map_distinctTargets, List.mem_eraseDups]
    exact List.mem_map_of_mem h
  simpa using List.mem_map.mp target

theorem distinctTargets_cons (x : Nat × Int) (ts : List (Nat × Int)) : ∃ more, distinctTargets (x :: ts) = x :: more := by
  obtain ⟨more, folded, -⟩ := distinctTargets_from ts [x]
  exact ⟨more, folded⟩

/-! ### The check of R24 -/

/-- Targets that pass are all checked. -/
theorem checkTargets_pass {w : Who} {stamp : Nat} {s s₁ : State} {ts : List (Nat × Int)}
    (h : TargetsPass w stamp s (ts.map (·.2)) s₁) : checkTargets w stamp s ts = (s₁, none) := by
  induction ts generalizing s with
  | nil => cases h; rfl
  | cons x ts ih =>
    obtain ⟨l, t⟩ := x
    obtain ⟨low, high, aligned, word, s₂, fetched, header, rest⟩ := h
    unfold checkTargets
    dsimp only at low high aligned fetched
    rw [if_neg (by simp; omega), fetched]
    simp only [header, if_true]
    exact ih rest

theorem noted_of_targetsPass {w : Who} {stamp : Nat} {s s₁ : State} {ts : List Int} {key : Nat} {g : Group} (hw : w.thread = none)
    (h : TargetsPass w stamp s ts s₁) (hs : Noted s key g) : Noted s₁ key g := by
  induction ts generalizing s with
  | nil => cases h; exact hs
  | cons t ts ih =>
    obtain ⟨-, -, -, word, s₂, fetched, -, rest⟩ := h
    refine ih rest ?_
    have noted := noted_fetchWord hs hw stamp t.toNat
    rwa [fetched] at noted

/-- A target that is no canonical multiple of 4 is not fetched. -/
theorem checkTargets_illegal {w : Who} {stamp : Nat} {s : State} {l : Nat} {t : Int} {ts : List (Nat × Int)}
    (h : t < 0 ∨ 2 ^ 56 ≤ t ∨ t % 4 ≠ 0) : checkTargets w stamp s ((l, t) :: ts) = (s, some (.illegal l t)) := by
  unfold checkTargets
  rw [if_pos (by simp; omega)]

/-- A target whose word is no header that a branch may reach. -/
theorem checkTargets_noHeader {w : Who} {stamp : Nat} {s s₁ : State} {l : Nat} {t : Int} {ts : List (Nat × Int)} {word : Word}
    (low : 0 ≤ t) (high : t < 2 ^ 56) (aligned : t % 4 = 0) (fetched : fetchWord s w stamp t.toNat = (s₁, .ok word))
    (header : targetWordOk word = false) : checkTargets w stamp s ((l, t) :: ts) = (s₁, some (.illegal l t)) := by
  unfold checkTargets
  rw [if_neg (by simp; omega), fetched]
  simp [header]

theorem whoGroup_thread (s : State) (key : Nat) (g : Group) : (whoGroup s key g).thread = none := by
  unfold whoGroup
  split <;> rfl

/-! ### Where the threads go (R56) -/

/-- The fragment that the threads which go to a target become. -/
def sentFrag (u : Issue) (place : Nat → Nat) (clock : Nat) (t : Int) : Frag :=
  { u.f.moved t.toNat clock with lanes := maskOf (fun l => lane u.f.lanes l && (place l : Int) == t) }

/-- The targets of a fragment's threads, each once, with the lowest lane that takes it. -/
def sentTargets (u : Issue) (place : Nat → Nat) : List (Nat × Int) :=
  distinctTargets ((lanesOf u.f.lanes).map (fun l => (l, (place l : Int))))

theorem lane_sentFrag (u : Issue) (place : Nat → Nat) (clock : Nat) (t : Int) (k : Nat) :
    lane (sentFrag u place clock t).lanes k = (lane u.f.lanes k && decide ((place k : Int) = t)) := by
  change lane (maskOf _) k = _
  rw [lane_maskOf]
  by_cases hk : lane u.f.lanes k = true
  · have := lane_lt hk
    simp only [this, hk, decide_true, Bool.true_and]
    rfl
  · simp [hk]

/-- Each target is one that some thread takes. -/
theorem exists_lane_of_sentTargets {u : Issue} {place : Nat → Nat} {x : Nat × Int} (h : x ∈ sentTargets u place) :
    ∃ l, lane u.f.lanes l = true ∧ (place l : Int) = x.2 := by
  obtain ⟨l, hl, rfl⟩ := List.mem_map.mp (mem_of_mem_distinctTargets h)
  exact ⟨l, (mem_lanesOf.mp hl).1, rfl⟩

/-- Each thread's target is there. -/
theorem exists_sentTarget {u : Issue} (place : Nat → Nat) {l : Nat} (h : lane u.f.lanes l = true) :
    ∃ x ∈ sentTargets u place, x.2 = (place l : Int) :=
  exists_mem_distinctTargets (List.mem_map_of_mem (f := fun l => (l, (place l : Int))) (mem_lanesOf.mpr ⟨h, lane_lt h⟩))

/-- The fragments of a group whose threads have gone: one for each place, and those of other threads. -/
theorem sends_of_frags {u : Issue} {place : Nat → Nat} {clock : Nat} {g' : Group}
    (h : g'.frags = u.g.frags.filter (fun f => f.lanes &&& u.f.lanes == 0) ++
      (sentTargets u place).map (fun x => sentFrag u place clock x.2)) : Sends u place g' := by
  refine ⟨fun l hl => ?_, fun f hf => ?_, fun f hf => ?_⟩
  · have others : (u.g.frags.filter (fun f => f.lanes &&& u.f.lanes == 0)).find? (fun f => lane f.lanes l) = none := by
      rw [List.find?_eq_none]
      intro f hf
      rw [lane_of_and_eq_zero (by simpa using (List.mem_filter.mp hf).2) hl]
      simp
    obtain ⟨x, hx, target⟩ := exists_sentTarget place hl
    have found : (((sentTargets u place).map (fun x => sentFrag u place clock x.2)).find? (fun f => lane f.lanes l)).isSome := by
      rw [List.find?_isSome]
      exact ⟨_, List.mem_map_of_mem hx, by rw [lane_sentFrag, hl, target]; simp⟩
    obtain ⟨f', hf'⟩ := Option.isSome_iff_exists.mp found
    obtain ⟨y, -, rfl⟩ := List.mem_map.mp (List.mem_of_find?_eq_some hf')
    have stands := List.find?_some hf'
    rw [lane_sentFrag, hl, Bool.true_and, decide_eq_true_iff] at stands
    refine ⟨sentFrag u place clock y.2, ?_, ?_, rfl, rfl, fun k => ?_⟩
    · unfold fragAt
      rw [h, List.find?_append, others, Option.none_or, hf']
    · change y.2.toNat = place l
      rw [← stands, Int.toNat_natCast]
    · rw [lane_sentFrag, ← stands]
      simp
  · rw [h, List.mem_append, List.mem_filter]
    constructor
    · rintro (⟨hf', -⟩ | hf')
      · exact hf'
      · obtain ⟨x, hx, rfl⟩ := List.mem_map.mp hf'
        obtain ⟨l, hl, target⟩ := exists_lane_of_sentTargets hx
        have gone := lane_of_and_eq_zero hf hl
        rw [lane_sentFrag, hl, target] at gone
        simp at gone
    · exact fun hf' => Or.inl ⟨hf', by simp [hf]⟩
  · rw [h, List.mem_append, List.mem_filter] at hf
    rcases hf with ⟨-, apart⟩ | hf
    · exact Or.inl (by simpa using apart)
    · obtain ⟨x, -, rfl⟩ := List.mem_map.mp hf
      refine Or.inr (eq_zero_of_lanes fun l => ?_)
      rw [lane_and, lane_sentFrag]
      by_cases hl : lane u.f.lanes l = true
      · have out : lane (~~~u.f.lanes) l = false := by
          have := lane_lt hl
          unfold lane at hl ⊢
          simp [hl]
        simp [out]
      · simp [hl]

/-- A taken branch is noted for spin detection alone (R61). -/
theorem noteBranch_setGroup (s : State) (k : Nat) (g : Group) (m : Dword) (pc target : Nat) :
    ∃ xs, noteBranch (setGroup s k g) k m pc target = setGroup s k { g with spins := xs } := by
  unfold noteBranch
  rw [modGroup_eq (groupOf_setGroup ..), setGroup_setGroup]
  split
  · exact ⟨g.spins, rfl⟩
  · dsimp only
    split
    · split <;> exact ⟨_, rfl⟩
    · exact ⟨_, rfl⟩

theorem foldl_noteBranch (s : State) (k : Nat) (took : Nat × Int → Bool) (mask : Nat × Int → Dword) (pc : Nat)
    (ts : List (Nat × Int)) (g : Group) :
    ∃ xs, ts.foldl (fun s x => if took x then noteBranch s k (mask x) pc x.2.toNat else s) (setGroup s k g) =
      setGroup s k { g with spins := xs } := by
  induction ts generalizing g with
  | nil => exact ⟨g.spins, rfl⟩
  | cons x ts ih =>
    rw [List.foldl_cons]
    split
    · obtain ⟨xs, noted⟩ := noteBranch_setGroup s k g (mask x) pc x.2.toNat
      rw [noted]
      exact ih { g with spins := xs }
    · exact ih g

/-- The threads of a fragment go where each is sent. -/
theorem sendThreads_sends {s : State} {u : Issue} {g : Group} (h : groupOf s u.key = some g) (same : g.frags = u.g.frags)
    (next : Nat → Option Int) :
    ∃ fs xs, sendThreads s u (fun l => (next l).map Int.toNat) = setGroup s u.key { g with frags := fs, spins := xs } ∧
      Sends u (placeAfter u next) { g with frags := fs, spins := xs } := by
  have place : (fun l => ((next l).map Int.toNat).getD (afterWords u.f.clause u.f.pc u.words.length).1) = placeAfter u next := by
    funext l
    unfold placeAfter
    cases next l <;> rfl
  unfold sendThreads
  simp only [congrFun place]
  rw [modGroup_eq h]
  obtain ⟨xs, noted⟩ := foldl_noteBranch s u.key (fun x => ((next x.1).map Int.toNat).isSome)
    (fun x => (sentFrag u (placeAfter u next) s.clock x.2).lanes) u.f.pc (sentTargets u (placeAfter u next))
    (putFrags g u.f.lanes ((sentTargets u (placeAfter u next)).map (fun x => sentFrag u (placeAfter u next) s.clock x.2)))
  refine ⟨_, xs, noted, sends_of_frags (clock := s.clock) ?_⟩
  rw [← same]
  rfl

/-- A branch whose targets have passed runs. -/
theorem takeBranch_runs {i : Instr} {s s₁ : State} {u : Issue} {next : Nat → Option Int}
    (runs : exec i s = .next (takeBranch id s₁ u next)) (noted : Noted s₁ u.key u.g) : BranchRuns i s s₁ u next (fun _ x => x) := by
  obtain ⟨a, ha⟩ := noted
  have kept : groupOf (modGroup s₁ u.key id) u.key = some { u.g with anchors := a } := by
    rw [modGroup_eq ha, groupOf_setGroup]; rfl
  obtain ⟨fs, xs, sent, sends⟩ := sendThreads_sends kept rfl next
  refine ⟨_, ?_, sends, fun l _ => by rw [ite_self]; rfl, _, ha, rfl, rfl⟩
  rw [runs, takeBranch, sent, modGroup_eq ha, setGroup_setGroup]

/-! ### Direct, conditional and indirect branches (R70 to R76) -/

theorem signed_toNat {n : Nat} (x : BitVec n) : signed n x.toNat = x.toInt := by
  unfold signed
  rw [Nat.mod_eq_of_lt x.isLt, BitVec.toInt_eq_toNat_cond]
  push_cast
  rfl

theorem offsetTarget_eq (u : Issue) {n : Nat} (o : BitVec n) : offsetTarget u n o.toNat = (u.f.pc : Int) + 4 * o.toInt := by
  rw [offsetTarget, signed_toNat]

theorem branchOp_congr (s : State) (u : Issue) {next next' : Nat → Option Int} (h : ∀ l, next l = next' l) (pre : Group → Group) :
    branchOp s u next pre = branchOp s u next' pre := by
  rw [funext h]

/-- Each branch with its targets in the word or in registers is the branch of its row. -/
theorem exec_branchRow {s : State} {u : Issue} (h : issueOf s = some u) {m : BitVec 3} {r a : Opnd} {o : BitVec 16} {o24 : BitVec 24}
    {x : Word} {b : Instr × (Nat → Option Int)} (hb : b ∈ branchRows u m r a o o24 x) (ok : RegsOk u.g (branchRegs b.1)) :
    exec b.1 s = .next (branchOp s u b.2 id) := by
  simp only [branchRows, List.mem_cons, List.not_mem_nil, or_false] at hb
  have whole : ∀ (c : Bool) (p : Prop) [Decidable p], (c = true ↔ p) →
      (if c then some (offsetTarget u 16 o.toNat) else none) = if p then some ((u.f.pc : Int) + 4 * o.toInt) else none := by
    intro c p _ same
    simp only [same, offsetTarget_eq]
  rcases hb with rfl | rfl | rfl | rfl | rfl | rfl | rfl | rfl | rfl
  · exact (withIssue_eq h _).trans (congrArg Host.Outcome.next (branchOp_congr s u (fun _ => by rw [offsetTarget_eq]) id))
  · exact (withIssue_eq h _).trans (congrArg Host.Outcome.next (branchOp_congr s u (fun _ => by rw [offsetTarget_eq]) id))
  · refine (withIssue_eq h _).trans (congrArg Host.Outcome.next (branchOp_congr s u (fun _ => ?_) id))
    rw [whole _ (u.f.lanes &&& maskReg u.g m.toNat ≠ 0) (by simp)]
    simp only [ite_not]
  · exact (withIssue_eq h _).trans (congrArg Host.Outcome.next (branchOp_congr s u (fun _ => whole _ _ (by simp)) id))
  · exact (withIssue_eq h _).trans (congrArg Host.Outcome.next (branchOp_congr s u (fun _ => whole _ _ (by simp)) id))
  · exact (withIssue_eq h _).trans (congrArg Host.Outcome.next (branchOp_congr s u (fun _ => whole _ _ Iff.rfl) id))
  · refine (withIssue_eq h _).trans (congrArg Host.Outcome.next (branchOp_congr s u (fun l => ?_) id))
    rw [whole _ (¬ lane (maskReg u.g m.toNat) l = true) (by simp)]
    simp only [ite_not]
  · refine (withRegs_eq h ok _).trans (congrArg Host.Outcome.next (branchOp_congr s u (fun l => whole _ _ ?_) id))
    unfold isScalar scalarNo
    by_cases scalar : 192 ≤ r.toNat <;> simp [scalar]
  · exact (withRegs_eq h ok _)

theorem exec_callRow {s : State} {u : Issue} (h : issueOf s = some u) {a : Opnd} {o : BitVec 24}
    {b : Instr × (Nat → Option Int)} (hb : b ∈ callRows u a o) (ok : RegsOk u.g (branchRegs b.1)) :
    exec b.1 s = .next (callOp s u b.2) := by
  simp only [callRows, List.mem_cons, List.not_mem_nil, or_false] at hb
  rcases hb with rfl | rfl
  · refine (withIssue_eq h _).trans ?_
    rw [offsetTarget_eq]
  · exact withRegs_eq h ok _

/-- The targets that a branch checks are those that its threads take. -/
theorem map_taken (u : Issue) (next : Nat → Option Int) :
    (distinctTargets ((lanesOf u.f.lanes).filterMap (fun l => (next l).map (fun t => (l, t))))).map (·.2) = targetsTaken u next := by
  rw [map_distinctTargets, List.map_filterMap, targetsTaken]
  congr 2
  funext l
  cases next l <;> rfl

theorem branchOp_pass {s s₁ : State} {u : Issue} {next : Nat → Option Int} (pre : Group → Group)
    (h : TargetsPass (whoGroup s u.key u.g) (stampOf s u.g) s (targetsTaken u next) s₁) :
    branchOp s u next pre = takeBranch pre s₁ u next := by
  unfold branchOp
  dsimp only
  rw [checkTargets_pass (by rw [map_taken]; exact h)]

/-- The first target that a branch or call checks is its lowest lane's. -/
theorem taken_first {u : Issue} {next : Nat → Option Int} {l : Nat} {t : Int} (hl : lane u.f.lanes l = true) (ht : next l = some t)
    (below : ∀ k < l, lane u.f.lanes k = true → next k = none) :
    ∃ more, distinctTargets ((lanesOf u.f.lanes).filterMap (fun l => (next l).map (fun t => (l, t)))) = (l, t) :: more := by
  obtain ⟨more, first⟩ := filterMap_first (f := fun l => (next l).map (fun t => (l, t))) (pairwise_lanesOf u.f.lanes)
    (mem_lanesOf.mpr ⟨hl, lane_lt hl⟩) (x := (l, t)) (by simp [ht])
    (fun k hk hkl => by simp [below k hkl (mem_lanesOf.mp hk).1])
  rw [first]
  exact distinctTargets_cons _ _

/-- A branch or call of a row whose first target fails the check of R24. -/
theorem exec_row_illegal {s s₁ : State} {u : Issue} (h : issueOf s = some u) {m : BitVec 3} {r a : Opnd} {o : BitVec 16}
    {o24 : BitVec 24} {x : Word} {b : Instr × (Nat → Option Int)} (hb : b ∈ branchRows u m r a o o24 x ++ callRows u a o24)
    (ok : RegsOk u.g (branchRegs b.1)) {l : Nat} {t : Int} (hl : lane u.f.lanes l = true) (ht : b.2 l = some t)
    (below : ∀ k < l, lane u.f.lanes k = true → b.2 k = none)
    (bad : ∀ more, checkTargets (whoGroup s u.key u.g) (stampOf s u.g) s ((l, t) :: more) = (s₁, some (.illegal l t))) :
    exec b.1 s = .next (raise s₁ u { cls := 4, info0 := BitVec.ofInt 64 t, info1 := BitVec.ofNat 64 l }) := by
  obtain ⟨more, first⟩ := taken_first hl ht below
  rcases List.mem_append.mp hb with hb | hb
  · rw [exec_branchRow h hb ok]
    unfold branchOp
    dsimp only
    rw [first, bad]
    rfl
  · rw [exec_callRow h hb ok]
    unfold callOp
    dsimp only
    rw [first, bad]
    rfl

/-! ### Branch tables (R75) -/

theorem tableTargets_gives {w : Who} {key stamp cbase table : Nat} {index : Nat → Nat} {s s₁ : State} {seen : List Int}
    {ls : List Nat} {ts : List (Nat × Int)} (h : TableGives w key stamp cbase table index s seen ls s₁ ts) :
    tableTargets w key stamp cbase table index s seen ls = (s₁, .ok ts) := by
  induction ls generalizing s seen ts with
  | nil =>
    obtain ⟨rfl, rfl⟩ := h
    rfl
  | cons l ls ih =>
    obtain ⟨t₁, t₂, t₃, count, entry, more, counted, within, read, pass, rest, rfl⟩ := h
    have target : readBranchTable s (w.ofThread key l) cbase table (index l) = (t₂, .target (cbase + leNat entry : Nat)) := by
      unfold readBranchTable
      rw [counted]
      dsimp only
      rw [if_neg (by omega), read]
    have checked : checkTargets w stamp t₂
        (if seen.contains ((cbase + leNat entry : Nat) : Int) then [] else [(l, ((cbase + leNat entry : Nat) : Int))]) = (t₃, none) := by
      refine checkTargets_pass ?_
      rw [List.contains_eq_mem]
      split at pass <;> simp_all
    unfold tableTargets
    rw [target]
    dsimp only
    rw [checked]
    dsimp only
    rw [ih rest]

theorem noted_of_tableGives {w : Who} {key stamp cbase table : Nat} {index : Nat → Nat} {s s₁ : State} {seen : List Int}
    {ls : List Nat} {ts : List (Nat × Int)} {g : Group} (hw : w.thread = none)
    (h : TableGives w key stamp cbase table index s seen ls s₁ ts) (hs : Noted s key g) : Noted s₁ key g := by
  induction ls generalizing s seen ts with
  | nil =>
    obtain ⟨rfl, -⟩ := h
    exact hs
  | cons l ls ih =>
    obtain ⟨t₁, t₂, t₃, count, entry, more, counted, -, read, pass, rest, -⟩ := h
    have own : ∀ k ln, (w.ofThread key l).thread = some (k, ln) → k = key := by
      intro k ln e
      cases e
      rfl
    have first := noted_loadBytes hs own .load table 4
    rw [counted] at first
    have second := noted_loadBytes first own .load (table + 8 + 8 * index l) 8
    rw [read] at second
    exact ih rest (noted_of_targetsPass hw pass second)

/-- BRX in table mode sends each lane where its table says. -/
theorem exec_brxTable {s s₁ : State} {u : Issue} (h : issueOf s = some u) {a b : Opnd} (ok : RegsOk u.g [(a, 1)])
    {ts : List (Nat × Int)} (aligned : (sreg u.g (b.toNat - 192)).toNat % 8 = 0)
    (gives : TableGives (whoGroup s u.key u.g) u.key (stampOf s u.g) (((launchOfGroup s u.g).map recCbase).getD 0)
      (sreg u.g (b.toNat - 192)).toNat (fun l => (val32 u.g a l).toNat) s [] (lanesOf u.f.lanes) s₁ ts) :
    exec (.brxTable a b) s = .next (takeBranch id s₁ u (fun l => (ts.find? (fun x => x.1 = l)).map (·.2))) := by
  change tableBranch s a b (takeBranch id) = _
  unfold tableBranch
  rw [withRegs_eq h ok]
  dsimp only
  rw [if_neg (by rw [bne_iff_ne, not_not]; exact aligned)]
  have read := tableTargets_gives gives
  change tableTargets _ _ _ _ (sreg u.g (scalarNo b)).toNat (nat32 u.g a) _ _ _ = _ at read
  rw [read]
  rfl

/-- BRX and CALLX through a table that does not go through at the lowest lane. -/
theorem exec_table_bad {s s₁ : State} {u : Issue} {a b : Opnd}
    (bad : ∀ go : State → Issue → (Nat → Option Int) → State, tableBranch s a b go = .next (raise s₁ u
      { cls := 4, info0 := BitVec.ofNat 64 (sreg u.g (b.toNat - 192)).toNat, info1 := BitVec.ofNat 64 (lowest u.f.lanes) })) :
    ∀ i ∈ [Instr.brxTable a b, .callxTable a b], exec i s = .next (raise s₁ u
      { cls := 4, info0 := BitVec.ofNat 64 (sreg u.g (b.toNat - 192)).toNat, info1 := BitVec.ofNat 64 (lowest u.f.lanes) }) := by
  intro i hi
  simp only [List.mem_cons, List.not_mem_nil, or_false] at hi
  rcases hi with rfl | rfl
  · exact bad _
  · exact bad _

/-- Settles O8. -/
theorem branchesSendTheirThreads : Obligations.BranchesSendTheirThreads := by
  refine ⟨⟨?_, ?_⟩, ?_, ?_⟩
  · intro m r a o o24 x s u s₁ h b hb ok pass
    refine takeBranch_runs ?_ (noted_of_targetsPass (whoGroup_thread ..) pass (noted_self (groupOf_issue h)))
    rw [exec_branchRow h hb ok, branchOp_pass id pass]
  · intro a b s u s₁ ts h ok table next aligned gives
    exact takeBranch_runs (exec_brxTable h ok aligned gives)
      (noted_of_tableGives (whoGroup_thread ..) gives (noted_self (groupOf_issue h)))
  · intro m r a o o24 x s u t l h b hb ok hl ht below
    refine ⟨fun bad => exec_row_illegal h hb ok hl ht below fun _ => checkTargets_illegal bad, ?_⟩
    intro word s₁ low high aligned fetched header
    exact exec_row_illegal h hb ok hl ht below fun _ => checkTargets_noHeader low high aligned fetched header
  · intro a b s u h ok some table bad
    refine ⟨fun unaligned => exec_table_bad fun go => ?_, ?_⟩
    · unfold tableBranch
      rw [withRegs_eq h ok]
      exact if_pos (bne_iff_ne.mpr unaligned)
    · intro s₁ count aligned counted beyond
      refine exec_table_bad fun go => ?_
      obtain ⟨ls, lanes⟩ := lanesOf_eq_cons some
      unfold tableBranch
      rw [withRegs_eq h ok]
      dsimp only
      rw [if_neg (by rw [bne_iff_ne, not_not]; exact aligned), lanes]
      have range : ∀ cbase, readBranchTable s ((whoGroup s u.key u.g).ofThread u.key (lowest u.f.lanes)) cbase
          (sreg u.g (scalarNo b)).toNat (nat32 u.g a (lowest u.f.lanes)) = (s₁, .range) := by
        intro cbase
        unfold readBranchTable
        change loadBytes s _ .load (sreg u.g (scalarNo b)).toNat 4 = _ at counted
        rw [counted]
        exact if_pos beyond
      unfold tableTargets
      rw [range]
      rfl

end Sys2Proof.Machine


/-!
SUPPORT. Trace records on a core (R465, R467), and the words that trap, trace and mark (R420, R421, R465), with the encodings that no
instruction assigns (R35, R36).
-/
namespace Sys2Proof.Machine

open Sys2Proof

/-! ### Trace records -/

/-- A core whose unwritten records are these. -/
def recording (c : Core) (rs : List (List Byte)) : Core := { c with unwritten := rs }

/-- A core with a record that waits is not as it was at reset. -/
theorem recording_ne_reset (c : Core) (rs : List (List Byte)) (b : List Byte) : recording c (rs ++ [b]) ≠ Core.reset := by
  intro e
  have none : rs ++ [b] = [] := congrArg (fun c : Core => c.unwritten) e
  simp at none

theorem coreOf_setCore (s : State) (k : Nat) (c : Core) : coreOf (setCore s k c) k = c := tget_tset_same ..

theorem setCore_setCore (s : State) (k : Nat) {c c' : Core} (h : c ≠ Core.reset) (h' : c' ≠ Core.reset) :
    setCore (setCore s k c) k c' = setCore s k c' := by
  simp only [setCore, tset, if_neg h, if_neg h', tput_tput]

/-- The package where a core's unwritten records are these. -/
def withRecords (s : State) (core : Nat) (rs : List (List Byte)) : State := setCore s core (recording (coreOf s core) rs)

theorem coreOf_withRecords (s : State) (core : Nat) (rs : List (List Byte)) :
    coreOf (withRecords s core rs) core = recording (coreOf s core) rs := coreOf_setCore ..

/-- A second change of a core's records is the one that stands. -/
theorem withRecords_withRecords (s : State) (core : Nat) (rs : List (List Byte)) (b : List Byte) (more : List (List Byte)) (b' : List Byte) :
    withRecords (withRecords s core (rs ++ [b])) core (more ++ [b']) = withRecords s core (more ++ [b']) := by
  unfold withRecords
  rw [coreOf_setCore, setCore_setCore _ _ (recording_ne_reset _ _ _) (recording_ne_reset _ _ _)]
  rfl

/-- The launch, the trace and the code positions of a package that differs in its cores alone. -/
theorem traceRecord_on {s : State} {u : Issue} {l : Launch} (hg : groupOf s u.key = some u.g) (hl : launchOfGroup s u.g = some l)
    (on : (traceOf s l.part).on = true) (typ ln arg : Nat) (data : Dword) :
    traceRecord s u.key typ ln u.f.pc arg data =
      setCore s (u.key / 128) (if (coreOf s (u.key / 128)).unwritten.length < 64
        then { coreOf s (u.key / 128) with
          unwritten := (coreOf s (u.key / 128)).unwritten ++ [traceBytes s u l typ ln arg data.toNat] }
        else { coreOf s (u.key / 128) with lost := (coreOf s (u.key / 128)).lost + 1 }) := by
  unfold traceRecord
  rw [hg]
  dsimp only
  rw [hl]
  dsimp only
  rw [on]
  rfl

theorem traceRecord_off {s : State} {u : Issue} {l : Launch} (hg : groupOf s u.key = some u.g) (hl : launchOfGroup s u.g = some l)
    (off : (traceOf s l.part).on = false) (typ ln pc arg : Nat) (data : Dword) :
    traceRecord s u.key typ ln pc arg data = s := by
  unfold traceRecord
  rw [hg]
  dsimp only
  rw [hl]
  dsimp only
  rw [off]
  rfl

/-- A record that finds room. -/
theorem traceRecord_room {s : State} {u : Issue} {l : Launch} (hg : groupOf s u.key = some u.g) (hl : launchOfGroup s u.g = some l)
    (on : (traceOf s l.part).on = true) (room : (coreOf s (u.key / 128)).unwritten.length < 64) (typ ln arg : Nat) (data : Dword) :
    traceRecord s u.key typ ln u.f.pc arg data =
      withRecords s (u.key / 128) ((coreOf s (u.key / 128)).unwritten ++ [traceBytes s u l typ ln arg data.toNat]) := by
  rw [traceRecord_on hg hl on, if_pos room]
  rfl

/-- The records of several lanes, where there is room for all. -/
theorem foldl_traceRecord {u : Issue} {l : Launch} (typ arg : Nat) (value : Nat → Dword) (ls : List Nat) (nonempty : ls ≠ []) {s : State}
    (hg : groupOf s u.key = some u.g) (hl : launchOfGroup s u.g = some l) (on : (traceOf s l.part).on = true)
    (room : (coreOf s (u.key / 128)).unwritten.length + ls.length ≤ 64) :
    ls.foldl (fun s x => traceRecord s u.key typ x u.f.pc arg (value x)) s =
      withRecords s (u.key / 128) ((coreOf s (u.key / 128)).unwritten ++
        ls.map (fun x => traceBytes s u l typ x arg (value x).toNat)) := by
  induction ls generalizing s with
  | nil => exact absurd rfl nonempty
  | cons x ls ih =>
    rw [List.length_cons] at room
    rw [List.foldl_cons, traceRecord_room hg hl on (by omega)]
    by_cases last : ls = []
    · subst last
      rfl
    · have now : (coreOf (withRecords s (u.key / 128) ((coreOf s (u.key / 128)).unwritten ++
          [traceBytes s u l typ x arg (value x).toNat])) (u.key / 128)).unwritten =
          (coreOf s (u.key / 128)).unwritten ++ [traceBytes s u l typ x arg (value x).toNat] := by
        rw [coreOf_withRecords]
        rfl
      have rest := ih last (s := withRecords s (u.key / 128) ((coreOf s (u.key / 128)).unwritten ++
        [traceBytes s u l typ x arg (value x).toNat])) hg hl on (by rw [now, List.length_append, List.length_singleton]; omega)
      rw [rest, now]
      obtain ⟨front, back, rfl⟩ := (List.eq_nil_or_concat' ls).resolve_left last
      simp only [List.map_append, List.map_cons, List.map_nil, ← List.append_assoc]
      rw [withRecords_withRecords]
      simp only [List.append_assoc, List.cons_append, List.nil_append]
      rfl

/-! ### The words -/

theorem ite_isScalar {α : Type} (a : Opnd) (x y : α) : (if isScalar a then x else y) = if 192 ≤ a.toNat then x else y := by
  unfold isScalar
  by_cases scalar : 192 ≤ a.toNat <;> simp [scalar]

theorem execTrap_eq {s : State} {u : Issue} (h : issueOf s = some u) {a : Opnd} (ok : RegsOk u.g [(a, 1)]) (n : Byte) :
    exec (.trap a n) s = if execLanes u none = 0 then .next (finish s u) else .next (raise s u
      { cls := 26 + n.toNat, info0 := if 192 ≤ a.toNat then sreg u.g (a.toNat - 192)
          else (vreg u.g a.toNat (lowest (execLanes u none))).setWidth 64 }) := by
  have run : exec (.trap a n) s = execTrap a n s := rfl
  rw [run]
  refine (withRegs_eq h ok _).trans ?_
  dsimp only
  rw [ite_isScalar]
  rfl

theorem addPending_eq {s : State} {key : Nat} {g : Group} (h : groupOf s key = some g) {p : Pending} (other : p.cls ≠ 23) :
    addPending s key p = setGroup s key { g with pending := g.pending ++ [p] } := by
  rw [addPending, modGroup_eq h, if_neg (by simp [other])]

/-- Op 0x3D, as the base word's top bits. -/
theorem majorOf_system_iff (w : Word) : (majorOf w == 0x3D) = true ↔ w.toNat / 2 ^ 26 = 0x3D := by
  have major : majorOf w = w.toNat / 2 ^ 26 := by
    unfold majorOf bits
    omega
  rw [major, beq_iff_eq]

/-- Settles O33. -/
theorem trapAndTraceWordsAct : Obligations.TrapAndTraceWordsAct := by
  intro s u l h hl
  have hg := groupOf_issue h
  refine ⟨?_, ?_, ?_, ?_, ?_⟩
  · intro a n ok
    have run := execTrap_eq h ok n
    exact ⟨fun none => run.trans (if_pos none), fun some => run.trans (if_neg some)⟩
  · intro i
    refine (withIssue_eq h _).trans ?_
    rw [addPending_eq hg (by simp)]
    rfl
  · intro a i ok c put lanes value
    refine ⟨fun off => ⟨?_, ?_⟩, fun on room some => ?_, fun on room => ?_, fun on full => ?_⟩
    · refine (withRegs_eq h ok _).trans ?_
      have same : ∀ ls : List Nat, ls.foldl (fun s x => traceRecord s u.key 2 x u.f.pc i.toNat ((vreg u.g a.toNat x).setWidth 64)) s = s := by
        intro ls
        induction ls with
        | nil => rfl
        | cons x ls ih => rw [List.foldl_cons, traceRecord_off hg hl off, ih]
      dsimp only
      rw [same, traceRecord_off hg hl off, ite_self]
    · refine (withIssue_eq h _).trans ?_
      rw [traceRecord_off hg hl off]
    · refine (withRegs_eq h ok _).trans ?_
      by_cases scalar : 192 ≤ a.toNat
      · have one : lanes = [lowest u.f.lanes] := if_pos scalar
        have val : ∀ x, value x = (sreg u.g (scalarNo a)).toNat := fun x => if_pos scalar
        rw [one] at room
        dsimp only
        rw [ite_isScalar, if_pos scalar, traceRecord_room hg hl on (by simpa using room), one]
        simp only [List.map_cons, List.map_nil, val]
        rfl
      · have all : lanes = lanesOf u.f.lanes := if_neg scalar
        have val : ∀ x, value x = ((vreg u.g a.toNat x).setWidth 64).toNat := fun x => by
          rw [BitVec.toNat_setWidth_of_le (by decide)]
          exact if_neg scalar
        rw [all] at room some ⊢
        dsimp only
        rw [ite_isScalar, if_neg scalar,
          foldl_traceRecord 2 i.toNat (fun x => (vreg u.g a.toNat x).setWidth 64) _ some hg hl on room]
        simp only [val]
        rfl
    · refine (withIssue_eq h _).trans ?_
      rw [traceRecord_room hg hl on room]
      rfl
    · refine (withIssue_eq h _).trans ?_
      rw [traceRecord_on hg hl on, if_neg (Nat.not_lt.mpr full)]
  · intro system user
    refine (withIssue_eq h _).trans ?_
    dsimp only
    rw [hl, (majorOf_system_iff _).mpr system]
    exact if_pos (by simp [user])
  · intro w c illegal allowed
    refine (withIssue_eq h _).trans ?_
    dsimp only
    rw [hl, illegal]
    refine if_neg ?_
    rw [Bool.and_eq_true, majorOf_system_iff]
    rintro ⟨system, user⟩
    rcases allowed with other | priv
    · exact other system
    · simp [priv] at user

end Sys2Proof.Machine


/-!
SUPPORT. Clause headers (R19, R20, R26, R57): a fragment that stands alone at its header, the wait for the counters that WAIT selects, and
what a safe point does.
-/
namespace Sys2Proof.Machine

open Sys2Proof

/-! ### Fields of a header -/

theorem bit_toNat {w : Nat} (h : BitVec w) (i : Nat) : bit h.toNat i = h.getLsbD i := by
  unfold bit
  rw [BitVec.getLsbD, Nat.testBit_eq_decide_div_mod_eq]
  rfl

theorem hdrWait_eq (h : Word) : hdrWait h = (h.extractLsb' 13 12).toNat := by
  rw [BitVec.extractLsb'_toNat, Nat.shiftRight_eq_div_pow]
  rfl

theorem bit_hdrWait (h : Word) {k : Nat} (hk : k < 12) : bit (hdrWait h) k = h.getLsbD (13 + k) := by
  rw [hdrWait_eq, bit_toNat, BitVec.getLsbD_extractLsb']
  simp [hk]

/-- The counters that WAIT selects, as the model lists them. -/
theorem waits_iff (g : Group) (h : Word) :
    (waitSet h).any (fun k => (counterOf g k).val != 0) = true ↔ ¬ WaitMet g h := by
  rw [List.any_eq_true]
  unfold WaitMet waitSet
  push Not
  constructor
  · rintro ⟨k, hk, val⟩
    obtain ⟨below, selected⟩ := List.mem_filter.mp hk
    have small := List.mem_range.mp below
    exact ⟨k, small, by rwa [bit_hdrWait h small] at selected, by simpa using val⟩
  · rintro ⟨k, small, selected, val⟩
    exact ⟨k, List.mem_filter.mpr ⟨List.mem_range.mpr small, by rwa [bit_hdrWait h small]⟩, by simpa using val⟩

/-! ### A fragment alone at its header (R57) -/

/-- The group whose fragment has met its header with nothing to join it. -/
def metAlone (u : Issue) : Group := putFrags u.g u.f.lanes [u.f]

theorem frags_metAlone (u : Issue) : (metAlone u).frags = u.g.frags.filter (fun f => f.lanes &&& u.f.lanes == 0) ++ [u.f] := rfl

theorem foldl_or_lanes {m : Dword} {fs : List Frag} (h : ∀ f ∈ fs, f.lanes = m) : fs.foldl (fun m f => m ||| f.lanes) m = m := by
  induction fs with
  | nil => rfl
  | cons f fs ih =>
    rw [List.foldl_cons, h f (by simp), BitVec.or_self]
    exact ih fun f hf => h f (by simp [hf])

theorem mergeAt_alone {s : State} {u : Issue} {q : Gang} (hq : gangOf s u.g.gang = some q)
    (alone : ∀ f ∈ u.g.frags, joinsAt u.f.pc s.clock f = true → f = u.f) : mergeAt s u = setGroup s u.key (metAlone u) := by
  unfold mergeAt
  rw [hq]
  dsimp only
  rw [foldl_or_lanes]
  · rfl
  · intro f hf
    obtain ⟨mem, joins⟩ := List.mem_filter.mp hf
    rw [Bool.and_eq_true] at joins
    rw [alone f mem joins.1]

/-- Among the fragments, only the one that issues is of its lanes. -/
theorem find_metAlone {u : Issue} (some : u.f.lanes ≠ 0) :
    (metAlone u).frags.find? (fun f => f.lanes &&& u.f.lanes != 0) = .some u.f := by
  have others : (u.g.frags.filter (fun f => f.lanes &&& u.f.lanes == 0)).find? (fun f => f.lanes &&& u.f.lanes != 0) = none := by
    rw [List.find?_eq_none]
    intro f hf
    simpa using (List.mem_filter.mp hf).2
  rw [frags_metAlone, List.find?_append, others, Option.none_or, List.find?_cons_of_pos (by simpa using some)]

/-- What becomes of the fragment, and of no other. -/
theorem mem_modFrag_metAlone {u : Issue} (some : u.f.lanes ≠ 0) (apart : ∀ f ∈ u.g.frags, f.lanes &&& u.f.lanes ≠ 0 → f = u.f)
    {g : Group} (same : g.frags = (metAlone u).frags) (F : Frag → Frag) (f : Frag) :
    f ∈ (modFrag g u.f.lanes F).frags ↔ f = F u.f ∨ (f ∈ u.g.frags ∧ f.lanes ≠ u.f.lanes) := by
  have out : ∀ f ∈ u.g.frags, (f.lanes &&& u.f.lanes = 0 ↔ f.lanes ≠ u.f.lanes) := by
    intro f hf
    constructor
    · intro zero e
      rw [e, BitVec.and_self] at zero
      exact some zero
    · intro ne
      by_contra meets
      exact ne (by rw [apart f hf meets])
  rw [mem_modFrag, same, frags_metAlone]
  simp only [List.mem_append, List.mem_filter, List.mem_singleton, beq_iff_eq]
  constructor
  · rintro ⟨a, ⟨ha, zero⟩ | rfl, e⟩
    · have ne := (out a ha).mp zero
      rw [if_neg ne] at e
      exact Or.inr (e ▸ ⟨ha, ne⟩)
    · rw [if_pos rfl] at e
      exact Or.inl e.symm
  · rintro (rfl | ⟨ha, ne⟩)
    · exact ⟨u.f, Or.inr rfl, if_pos rfl⟩
    · exact ⟨f, Or.inl ⟨ha, (out f ha).mpr ne⟩, if_neg ne⟩

/-- What a header does once its fragment has met it. -/
theorem exec_clauseHeader {s : State} {u : Issue} {l : Launch} {q : Gang} {h : Word} (at' : HeaderAt s u l q h) :
    exec .clauseHeader s =
      if !hdrOk h then .next (raise (setGroup s u.key (metAlone u)) { u with g := metAlone u }
        { cls := 1, info0 := h.setWidth 64, atHeader := true })
      else if hdrStop h then .next (safeHeader (setGroup s u.key (metAlone u)) { u with g := metAlone u } h false)
      else .next (enterClause (setGroup s u.key (metAlone u)) { u with g := metAlone u } h) := by
  obtain ⟨hu, words, -, hq, some, -, alone⟩ := at'
  refine (withIssue_eq hu _).trans ?_
  dsimp only
  rw [mergeAt_alone hq alone, groupOf_setGroup]
  dsimp only
  rw [find_metAlone some, words]
  simp only [bne_self_eq_false]
  rfl

/-! ### Entering a clause (R26) -/

theorem modFrag_modFrag (g : Group) (m : Dword) (F G : Frag → Frag) (keeps : ∀ f, (F f).lanes = f.lanes) :
    modFrag (modFrag g m F) m G = modFrag g m (fun f => G (F f)) := by
  unfold modFrag
  simp only [List.map_map]
  congr 1
  refine List.map_congr_left fun f _ => ?_
  by_cases h : f.lanes == m
  · have e : f.lanes = m := by simpa using h
    simp [e, keeps]
  · have e : f.lanes ≠ m := by simpa using h
    simp [e]

theorem modFrag_self (g : Group) (m : Dword) : modFrag g m (fun f => f) = g := by
  unfold modFrag
  simp

/-- A fragment whose header has the yield bit starts its age again (R59). -/
def headerAge (h : Word) (clock : Nat) (f : Frag) : Frag := { f with age := if h.getLsbD 3 then clock else f.age }

/-- A fragment that has entered its clause. -/
def entered (h : Word) (clock : Nat) (f : Frag) : Frag :=
  { f with pc := f.pc + 4, clause := some ⟨f.pc, h⟩, hold := .ready, since := clock, probe := [] }

/-- The ends of a header's waits cover their transfers in turn. -/
theorem foldl_coverWait (key : Nat) (m : Dword) (ks : List Nat) (s : State) (g : Group) :
    ∃ b, ks.foldl (fun s k => coverWait s key m k 1) (setGroup s key g) = setGroup s key { g with batches := b } := by
  induction ks generalizing g with
  | nil => exact ⟨g.batches, rfl⟩
  | cons k ks ih =>
    obtain ⟨⟨b, covered⟩, -⟩ := coverFor_covers g m (shownComplete (setGroup s key g) key g k 1)
    rw [List.foldl_cons, coverWait, modGroup_eq (groupOf_setGroup ..), setGroup_setGroup, covered]
    exact ih _

theorem enterClause_eq (s : State) (u : Issue) (g : Group) (h : Word) :
    (¬ WaitMet g h → enterClause (setGroup s u.key g) u h =
      setGroup s u.key (modFrag g u.f.lanes (fun f => (headerAge h s.clock f).holding (.clauseWait (h.extractLsb' 13 12).toNat) s.clock))) ∧
    (WaitMet g h → ∃ b, enterClause (setGroup s u.key g) u h = setGroup s u.key
      (modFrag { g with batches := b } u.f.lanes (fun f => entered h s.clock (headerAge h s.clock f)))) := by
  have aged : (if hdrYield h then modGroup (setGroup s u.key g) u.key (fun g => modFrag g u.f.lanes (fun f => { f with age := s.clock }))
      else setGroup s u.key g) = setGroup s u.key (modFrag g u.f.lanes (headerAge h s.clock)) := by
    unfold hdrYield headerAge
    rw [bit_toNat]
    split
    · rw [modGroup_eq (groupOf_setGroup ..), setGroup_setGroup]
    · exact congrArg (setGroup s u.key) (modFrag_self g u.f.lanes).symm
  have keeps : ∀ f, (headerAge h s.clock f).lanes = f.lanes := fun _ => rfl
  unfold enterClause
  rw [groupOf_setGroup]
  simp only [setGroup_clock, aged]
  refine ⟨fun waits => ?_, fun met => ?_⟩
  · rw [if_pos ((waits_iff g h).mpr waits), holdUnit_eq (groupOf_setGroup ..), setGroup_setGroup, modFrag_modFrag _ _ _ _ keeps, hdrWait_eq]
    rfl
  · rw [if_neg fun waits => (waits_iff g h).mp waits met]
    obtain ⟨b, covered⟩ := foldl_coverWait u.key u.f.lanes (waitSet h) s (modFrag g u.f.lanes (headerAge h s.clock))
    refine ⟨b, ?_⟩
    rw [covered, modGroup_eq (groupOf_setGroup ..), setGroup_setGroup]
    exact congrArg (setGroup s u.key) (modFrag_modFrag { g with batches := b } _ _ _ keeps)

/-! ### Safe points (R20, R410, R416, R461, R464) -/

/-- The lanes of a fragment report a safe point. -/
theorem tget_foldl_safe (m : Dword) (x : Word) (t : Table Word) {l : Nat} (hl : lane m l = true) :
    tget 0 ((lanesOf m).foldl (fun t l => tset 0 t l x) t) l = x := by
  have each : ∀ (ls : List Nat) (t : Table Word), tget 0 (ls.foldl (fun t l => tset 0 t l x) t) l = if l ∈ ls then x else tget 0 t l := by
    intro ls
    induction ls with
    | nil => simp
    | cons a ls ih =>
      intro t
      rw [List.foldl_cons, ih, tget_tset]
      by_cases h : l = a
      · simp [h]
      · simp [h]
  rw [each, if_pos (mem_lanesOf.mpr ⟨hl, lane_lt hl⟩)]

/-- No comparator that is not enabled hits. -/
theorem breakIndex_none {s : State} {key : Nat} (off : ∀ c ∈ (coreOf s (key / 128)).code, c.2.en = false) (l : Launch) (g : Group)
    (f : Frag) (ord : Nat) : breakIndex s key l g f ord = none := by
  have listed : ∀ (t : Table Comparator) (i : Nat), (∀ c ∈ t, c.2.en = false) → (tget Comparator.reset t i).en = false := by
    intro t i ht
    induction t with
    | nil => rfl
    | cons c t ih =>
      obtain ⟨j, c⟩ := c
      have rest := ih fun c hc => ht c (by simp [hc])
      unfold tget tfind
      split
      · exact ht (j, c) (by simp)
      · exact rest
  unfold breakIndex
  rw [List.find?_eq_none]
  intro i _
  have en := listed (coreOf s (coreOfKey key)).code i off
  unfold breakHits
  simp [en]

theorem noteBreak_none {s : State} {u : Issue} (off : ∀ c ∈ (coreOf s (u.key / 128)).code, c.2.en = false) (l : Launch) (ord : Nat) :
    noteBreak s u l ord = s := by
  unfold noteBreak
  rw [breakIndex_none off]

/-- A group whose threads of a fragment report the safe point of a number. -/
def reporting (g : Group) (m : Dword) (ord : Nat) : Group :=
  { g with safe := (lanesOf m).foldl (fun t x => tset 0 t x (BitVec.ofNat 32 ord)) g.safe }

/-- What a fragment does at a safe point. -/
def actAt (t : State) (u : Issue) (l : Launch) (h : Word) : SafePoint → State
  | .stop => holdUnit t u .stopped
  | .freeze => holdUnit t u .frozen
  | .take p => takePending t u l p
  | .go => enterClause t u h

/-- The package where the fragment that issues has reported a safe point. -/
def reported (s : State) (u : Issue) (ord : Nat) : State := setGroup s u.key (reporting u.g u.f.lanes ord)

/-- A safe point at which no breakpoint is set. -/
theorem safeHeader_eq {s : State} {u : Issue} {l : Launch} {q : Gang} (hl : launchOfGroup s u.g = some l)
    (hq : gangOf s u.g.gang = some q) (off : ∀ c ∈ (coreOf s (u.key / 128)).code, c.2.en = false) (h : Word) :
    safeHeader (setGroup s u.key u.g) u h false = actAt (reported s u (codePos s (some l) u.f.pc).1) u l h
      (safePoint (reported s u (codePos s (some l) u.f.pc).1) l (reporting u.g u.f.lanes (codePos s (some l) u.f.pc).1) q u.f
        (codePos s (some l) u.f.pc).1) := by
  have launch : launchOfGroup (setGroup s u.key u.g) u.g = some l := hl
  have gang : gangOf (setGroup s u.key u.g) u.g.gang = some q := hq
  have pos : codePos (setGroup s u.key u.g) (some l) u.f.pc = codePos s (some l) u.f.pc := rfl
  have quiet : ∀ g ord, noteBreak (setGroup s u.key g) u l ord = setGroup s u.key g := fun g ord =>
    noteBreak_none (s := setGroup s u.key g) off l ord
  unfold safeHeader
  rw [launch, gang]
  dsimp only
  rw [modGroup_eq (groupOf_setGroup ..), setGroup_setGroup, pos]
  simp only [quiet, ite_self]
  rw [groupOf_setGroup]
  change _ = actAt _ u l h (safePoint (reported s u _) l (reporting u.g u.f.lanes _) q u.f _)
  unfold actAt
  rfl

theorem takenHere_iff (f : Frag) (p : Pending) : takenHere f p = true ↔ TakenAt f p := by
  unfold takenHere TakenAt
  cases p.place with
  | none => simp
  | some x =>
    obtain ⟨m, pc⟩ := x
    cases pc with
    | none => simp
    | some pc => simp

theorem awaited_none {g : Group} (closed : g.rdv = []) (f : Frag) : awaited g f = false := by
  unfold awaited
  rw [closed]
  rfl

section
variable {s : State} {l : Launch} {g : Group} {q : Gang} {f : Frag} {ord : Nat} (closed : g.rdv = [])
include closed

theorem safePoint_stops (stopping : g.stopping = true) : safePoint s l g q f ord = .stop := by
  unfold safePoint
  rw [awaited_none closed, stopping]
  rfl

theorem safePoint_freezes (running : g.stopping = false) (held : (ctxOf s l.ctx).frozen = true ∨ q.halted ≠ none) :
    safePoint s l g q f ord = .freeze := by
  unfold safePoint
  rw [awaited_none closed, running, if_neg (by simp), if_pos]
  rw [← Option.isSome_iff_ne_none] at held
  simpa using held

variable (running : g.stopping = false) (thawed : (ctxOf s l.ctx).frozen = false) (free : q.halted = none)
include running thawed free

theorem safePoint_unheld : safePoint s l g q f ord = match nextPending (deliverable s l g q f) with
    | none => .go
    | some p => .take (if p.cls == 22 then atOrdinal ord p else p) := by
  unfold safePoint
  rw [awaited_none closed, running, thawed, free]
  rfl

theorem safePoint_goes (clear : ∀ p ∈ g.pending, ¬ TakenAt f p) : safePoint s l g q f ord = .go := by
  have none : deliverable s l g q f = [] := by
    unfold deliverable
    split
    · rfl
    · rw [List.filter_eq_nil_iff]
      intro p hp
      have out : takenHere f p = false := by
        rw [Bool.eq_false_iff, Ne, takenHere_iff]
        exact clear p hp
      simp [out]
  rw [safePoint_unheld closed running thawed free, none]
  rfl

theorem safePoint_takes {p : Pending} (pending : g.pending = [p]) (taken : TakenAt f p) (gangFree : q.mode = none) (groupFree : g.mode = none)
    (detached : (ctxOf s l.ctx).attach = false) :
    safePoint s l g q f ord = .take (if p.cls == 22 then atOrdinal ord p else p) := by
  have one : deliverable s l g q f = [p] := by
    unfold deliverable debugClass
    rw [gangFree, groupFree, pending, detached]
    simp [(takenHere_iff f p).mpr taken, awaited_none closed]
  rw [safePoint_unheld closed running thawed free, one]
  rfl

end

/-- The pending trap of BKPT carries its ordinal; every other stays. -/
theorem atOrdinal_fields (ord : Nat) (p : Pending) :
    (if p.cls == 22 then atOrdinal ord p else p) =
      { p with info0 := if p.cls = 22 ∧ 256 ≤ p.info1.toNat then BitVec.ofNat 64 ord else p.info0 } := by
  obtain ⟨cls, info0, info1, rung, engine, place⟩ := p
  unfold atOrdinal
  by_cases class22 : cls = 22
  · subst class22
    by_cases word : 256 ≤ info1.toNat
    · simp [word]
    · simp [word]
  · simp [class22]

/-- The only pending trap is taken, where no debugger is attached. -/
theorem takePending_only {s : State} {u : Issue} {g : Group} {l : Launch} {p : Pending} (x : Dword)
    (pending : g.pending = [p]) (detached : (ctxOf s l.ctx).attach = false) :
    takePending (setGroup s u.key g) u l { p with info0 := x } = takeTrap (setGroup s u.key { g with pending := [] }) u.key u.f.lanes 1
      ⟨p.cls, x, p.info1, 0, true, p.engine, p.rung, true, false⟩ := by
  have away : (ctxOf (setGroup s u.key { g with pending := [] }) l.ctx).attach = false := detached
  unfold takePending
  rw [modGroup_eq (groupOf_setGroup ..), setGroup_setGroup, pending]
  simp only [beq_self_eq_true, Bool.and_self, List.find?_cons_of_pos, List.erase_cons_head]
  unfold debugClass
  rw [away, Bool.and_false, if_neg (by decide)]

/-- What a header leaves where its fragment alone has changed. -/
theorem header_leaves {s : State} {u : Issue} {l : Launch} {q : Gang} {h : Word} (at' : HeaderAt s u l q h) {g : Group}
    (same : g.frags = (metAlone u).frags) (rest : { g with frags := u.g.frags, batches := u.g.batches, safe := u.g.safe } = u.g)
    {F : Frag → Frag} (runs : exec .clauseHeader s = .next (setGroup s u.key (modFrag g u.f.lanes F))) :
    ∃ t g', (exec .clauseHeader s = .next t ∧ groupOf t u.key = some g' ∧
      (∀ f, f ∈ g'.frags ↔ f = F u.f ∨ (f ∈ u.g.frags ∧ f.lanes ≠ u.f.lanes)) ∧
      { g' with frags := u.g.frags, batches := u.g.batches, safe := u.g.safe } = u.g ∧
      (∀ k, k ≠ u.key → groupOf t k = groupOf s k) ∧ t.mem = s.mem ∧ t.gangs = s.gangs) ∧ g'.safe = g.safe := by
  obtain ⟨-, -, -, -, some, apart, -⟩ := at'
  exact ⟨_, _, ⟨runs, groupOf_setGroup .., mem_modFrag_metAlone some apart same F, rest,
    fun k hk => groupOf_setGroup_ne s _ hk, rfl, rfl⟩, rfl⟩

/-- A header's fragment enters its clause, or waits for the counters that WAIT selects. -/
theorem header_enters {s : State} {u : Issue} {l : Launch} {q : Gang} {h : Word} (at' : HeaderAt s u l q h) {g : Group}
    (same : g.frags = (metAlone u).frags) (rest : { g with frags := u.g.frags, batches := u.g.batches, safe := u.g.safe } = u.g)
    (runs : exec .clauseHeader s = .next (enterClause (setGroup s u.key g) { u with g := metAlone u } h)) :
    (WaitMet u.g h → ∃ t g', exec .clauseHeader s = .next t ∧ groupOf t u.key = some g' ∧
      (∀ f, f ∈ g'.frags ↔ f = entered h s.clock (headerAge h s.clock u.f) ∨ (f ∈ u.g.frags ∧ f.lanes ≠ u.f.lanes)) ∧
      { g' with frags := u.g.frags, batches := u.g.batches, safe := u.g.safe } = u.g ∧
      (∀ k, k ≠ u.key → groupOf t k = groupOf s k) ∧ t.mem = s.mem ∧ t.gangs = s.gangs) ∧
    (¬ WaitMet u.g h → ∃ t g', exec .clauseHeader s = .next t ∧ groupOf t u.key = some g' ∧
      (∀ f, f ∈ g'.frags ↔ f = (headerAge h s.clock u.f).holding (.clauseWait (h.extractLsb' 13 12).toNat) s.clock ∨
        (f ∈ u.g.frags ∧ f.lanes ≠ u.f.lanes)) ∧
      { g' with frags := u.g.frags, batches := u.g.batches, safe := u.g.safe } = u.g ∧
      (∀ k, k ≠ u.key → groupOf t k = groupOf s k) ∧ t.mem = s.mem ∧ t.gangs = s.gangs) := by
  have counters : WaitMet g h ↔ WaitMet u.g h := by
    rw [← rest]
    exact Iff.rfl
  obtain ⟨waits, enters⟩ := enterClause_eq s { u with g := metAlone u } g h
  refine ⟨fun met => ?_, fun unmet => ?_⟩
  · obtain ⟨b, entry⟩ := enters (counters.mpr met)
    obtain ⟨t, g', now, -⟩ := header_leaves (g := { g with batches := b }) at' same rest (runs.trans (congrArg _ entry))
    exact ⟨t, g', now⟩
  · obtain ⟨t, g', now, -⟩ := header_leaves at' same rest (runs.trans (congrArg _ (waits fun met => unmet (counters.mp met))))
    exact ⟨t, g', now⟩

/-- The group whose fragment has reported the safe point of its header, with nothing to join it. -/
def atSafePoint (s : State) (u : Issue) (l : Launch) : Group := reporting (metAlone u) u.f.lanes (codePos s (some l) u.f.pc).1

/-- A header with S = 1 does what its safe point decides. -/
theorem header_safe {s : State} {u : Issue} {l : Launch} {q : Gang} {h : Word} (at' : HeaderAt s u l q h) (ok : hdrOk h = true)
    (safeBit : h.getLsbD 4 = true) (off : ∀ c ∈ (coreOf s (u.key / 128)).code, c.2.en = false) {d : SafePoint}
    (decides : safePoint (setGroup s u.key (atSafePoint s u l)) l (atSafePoint s u l) q u.f (codePos s (some l) u.f.pc).1 = d) :
    exec .clauseHeader s = .next (actAt (setGroup s u.key (atSafePoint s u l)) { u with g := metAlone u } l h d) := by
  have runs := exec_clauseHeader at'
  obtain ⟨-, -, hl, hq, -⟩ := at'
  have stopBit : hdrStop h = h.getLsbD 4 := bit_toNat h 4
  rw [if_neg (by simp [ok]), if_pos (by rw [stopBit]; exact safeBit)] at runs
  rw [← decides]
  exact runs.trans (congrArg _ (safeHeader_eq (u := { u with g := metAlone u }) hl hq off h))

/-- Settles O42. -/
theorem headersEnterTheirClauses : Obligations.HeadersEnterTheirClauses := by
  intro s u l q h at' now age inside enters safe
  have runs := exec_clauseHeader at'
  have stopBit : hdrStop h = h.getLsbD 4 := bit_toNat h 4
  refine ⟨?_, ?_, ?_⟩
  · intro bad
    rw [if_pos (by simp [bad])] at runs
    exact ⟨_, { u with g := metAlone u }, groupOf_setGroup .., rfl, rfl, rfl, runs⟩
  · intro ok plain
    rw [if_neg (by simp [ok]), if_neg (by rw [stopBit, plain]; decide)] at runs
    exact header_enters at' rfl rfl runs
  · intro ok safeBit closed
    have reports : safe (atSafePoint s u l) := fun x hx => tget_foldl_safe _ _ _ hx
    refine ⟨fun stopping off => ?_, fun running held off => ?_, fun running thawed free off => ⟨fun clear => ?_, ?_⟩⟩
    · have stops := header_safe at' ok safeBit off (safePoint_stops closed stopping)
      obtain ⟨t, g', left, same⟩ := header_leaves at' (g := atSafePoint s u l) rfl rfl
        (stops.trans (congrArg _ ((holdUnit_eq (groupOf_setGroup ..) _).trans (setGroup_setGroup ..))))
      exact ⟨t, g', left, fun x hx => (congrArg (fun m => tget 0 m x) same).trans (reports x hx)⟩
    · have freezes := header_safe at' ok safeBit off (safePoint_freezes closed running held)
      obtain ⟨t, g', left, same⟩ := header_leaves at' (g := atSafePoint s u l) rfl rfl
        (freezes.trans (congrArg _ ((holdUnit_eq (groupOf_setGroup ..) _).trans (setGroup_setGroup ..))))
      exact ⟨t, g', left, fun x hx => (congrArg (fun m => tget 0 m x) same).trans (reports x hx)⟩
    · exact header_enters at' (g := atSafePoint s u l) rfl rfl
        (header_safe at' ok safeBit off (safePoint_goes closed running thawed free clear))
    · intro p pending taken gangFree groupFree detached
      have takes := header_safe at' ok safeBit off
        (safePoint_takes closed running thawed free pending taken gangFree groupFree detached)
      rw [atOrdinal_fields] at takes
      exact ⟨_, { atSafePoint s u l with pending := [] }, groupOf_setGroup .., rfl, reports, rfl, takes.trans (congrArg _
        (takePending_only (u := { u with g := metAlone u }) (g := atSafePoint s u l) _ pending detached))⟩

end Sys2Proof.Machine


/-!
SUPPORT. Holds, waits and rungs that run out at their clocks (R60, R61, R65, R69, R159, R192, R414, R415).
-/
namespace Sys2Proof.Machine

open Sys2Proof

/-! ### Holds of a fragment (R69, R192, R415) -/

theorem timedHold_iff (h : Hold) : timedHold h = true ↔ TimedHold h := by
  unfold TimedHold
  cases h <;> simp [timedHold]

theorem inputFrag_eq {s : State} {g : Group} {f : Frag} (hg : groupOf s s.input.key = some g) (hf : fragAt g s.input.sub = some f) :
    inputFrag s = some (g, f) := by
  simp only [inputFrag, hg, hf, Option.map_some]

theorem isHalted_iff (q : Gang) : q.isHalted = true ↔ DebugHalted q := by
  unfold Gang.isHalted DebugHalted
  cases q.halted <;> simp

section
variable {s : State} {g : Group} {f : Frag} (hg : groupOf s s.input.key = some g) (hf : fragAt g s.input.sub = some f)
include hg hf

theorem execSleepExpire_eq {least most : Nat} (sleeps : f.hold = .sleep least most) :
    exec .sleepExpire s = .next (if s.clock < least then s else readied s s.input.key g f) := by
  change execSleepExpire s = _
  unfold execSleepExpire
  rw [hg]
  dsimp only
  rw [hf]
  dsimp only
  rw [sleeps]
  rfl

theorem execYieldExpire_eq : exec .yieldExpire s = .next (if f.rest = 0 ∨ s.clock < f.rest then s
    else setGroup s s.input.key (modFrag g f.lanes (fun f => { f with rest := 0, age := s.clock }))) := by
  change execYieldExpire s = _
  unfold execYieldExpire
  rw [hg]
  dsimp only
  rw [hf]
  simp only [Bool.or_eq_true, decide_eq_true_eq]

theorem execHoldTimeout_eq (timed : TimedHold f.hold) (free : FreeToGo s s.input.key g f) :
    exec .holdTimeout s = if s.clock < f.since + 105000 then .next s
      else .next (trapHeld (heldWords s s.input.key g f).1 s.input.key f (heldWords s s.input.key g f).2.length
        { cls := 24, info0 := (if f.clause.isSome then baseWord (heldWords s s.input.key g f).2
            else ((heldWords s s.input.key g f).2.head?).getD 0).setWidth 64 }) := by
  obtain ⟨q, hq, allowed, running, settled⟩ := free
  have unhalted : q.isHalted = false := by simp [Gang.isHalted, running]
  change execHoldTimeout s = _
  unfold execHoldTimeout
  rw [inputFrag_eq hg hf]
  dsimp only
  rw [(timedHold_iff _).mpr timed, hq]
  simp only [Option.map_some, Option.getD_some, allowed, unhalted, settled, Option.isNone_none, Bool.not_true, Bool.not_false,
    Bool.and_self, Bool.false_or, holdLimit]
  by_cases early : s.clock < f.since + 105000 <;> simp [early]

theorem execScratchpadExhaustion_eq {sva since : Nat} (waits : f.hold = .noFrame sva since) :
    exec .scratchpadExhaustion s = if s.clock < since + 16384 ∨ g.stopping = true then .next s
      else .next (trapHeld (heldWords s s.input.key g f).1 s.input.key f (heldWords s s.input.key g f).2.length
        { cls := 12, info0 := BitVec.ofNat 64 sva,
          info1 := BitVec.ofNat 64 (exhaustedLane g f (heldWords s s.input.key g f).2), rung := 1 }) := by
  change execScratchpadExhaustion s = _
  unfold execScratchpadExhaustion
  rw [inputFrag_eq hg hf]
  dsimp only
  rw [waits]
  simp only [Bool.or_eq_true, decide_eq_true_eq]

end

/-! ### Spin-lowering (R61) -/

/-- A spin record of a lane whose lowering has lasted its clocks. -/
def lapses (lane clock : Nat) (x : Spin) : Bool := x.lane == lane && x.lowered.any (fun c => decide (c + spinClocks ≤ clock))

/-- What becomes of a spin record once its lowering may have lapsed. -/
def lapsed (lane clock : Nat) (x : Spin) : Spin := if lapses lane clock x then { x with takings := 0, lowered := none } else x

theorem lapsed_keeps (lane clock : Nat) (x : Spin) :
    { lapsed lane clock x with takings := x.takings, lowered := x.lowered } = x := by
  unfold lapsed
  cases lapses lane clock x <;> rfl

theorem lapsed_ended {lane clock : Nat} {x : Spin} {c : Nat} (here : x.lane = lane) (lowered : x.lowered = some c)
    (ended : c + 4096 ≤ clock) : (lapsed lane clock x).lowered = none ∧ (lapsed lane clock x).takings = 0 := by
  have lapse : lapses lane clock x = true := by simp [lapses, here, lowered, spinClocks, ended]
  rw [lapsed, if_pos lapse]
  exact ⟨rfl, rfl⟩

theorem lapsed_else {lane clock : Nat} {x : Spin} (stays : x.lane ≠ lane ∨ ∀ c, x.lowered = some c → clock < c + 4096) :
    lapsed lane clock x = x := by
  have kept : lapses lane clock x = false := by
    unfold lapses
    rcases stays with other | within
    · simp [other]
    · cases lowered : x.lowered with
      | none => simp
      | some c =>
        have := within c lowered
        have fresh : ¬ c + spinClocks ≤ clock := by unfold spinClocks; omega
        simp [fresh]
  rw [lapsed, if_neg (by simp [kept])]

theorem execSpinLowerExpire_eq {s : State} {g : Group} (hg : groupOf s s.input.key = some g) :
    exec .spinLowerExpire s =
      .next (setGroup s s.input.key { g with spins := g.spins.map (lapsed s.input.sub s.clock) }) := by
  change execSpinLowerExpire s = _
  unfold execSpinLowerExpire
  rw [modGroup_eq hg]
  refine congrArg (fun f => Host.Outcome.next (setGroup s s.input.key { g with spins := g.spins.map f })) (funext fun x => ?_)
  unfold lapsed lapses
  cases x.lowered <;> rfl

/-! ### The rendezvous budget (R65) -/

theorem fuseWaiters_rdv (g : Group) (r : Rendezvous) : (fuseWaiters g r).rdv = g.rdv := by
  unfold fuseWaiters
  split <;> rfl

theorem execRendezvousBudgetExpire_early {s : State} {g : Group} (hg : groupOf s s.input.key = some g) {r : Rendezvous}
    (hr : g.rdv.find? (fun r => r.addr == s.input.sub) = some r) (early : s.clock < r.since + 1048576) :
    exec .rendezvousBudgetExpire s = .next s := by
  change execRendezvousBudgetExpire s = _
  unfold execRendezvousBudgetExpire
  rw [hg]
  dsimp only
  rw [hr]
  exact if_pos (by simp [rendezvousBudget, early])

theorem execRendezvousBudgetExpire_over {s : State} {g : Group} {q : Gang} (hg : groupOf s s.input.key = some g)
    (hq : gangOf s g.gang = some q) {r : Rendezvous} (hr : g.rdv.find? (fun r => r.addr == s.input.sub) = some r)
    (ended : r.since + 1048576 ≤ s.clock) (groupFree : g.mode = none) (gangFree : q.mode = none) (running : q.halted = none)
    (settled : q.climbed = none) : exec .rendezvousBudgetExpire s = .next (breakRendezvous s s.input.key r) := by
  have unhalted : q.isHalted = false := by simp [Gang.isHalted, running]
  have notYet : ¬ s.clock < r.since + rendezvousBudget := by unfold rendezvousBudget; omega
  change execRendezvousBudgetExpire s = _
  unfold execRendezvousBudgetExpire
  rw [hg]
  dsimp only
  rw [hr, hq]
  exact if_neg (by simp [groupFree, gangFree, unhalted, settled, notYet])

/-- A rendezvous that is broken is closed, and its threads take the trap. -/
theorem breakRendezvous_closes {s : State} {key : Nat} {g : Group} (hg : groupOf s key = some g) (r : Rendezvous) :
    ∃ s' g', groupOf s' key = some g' ∧ (∀ x, x ∈ g'.rdv ↔ x ∈ g.rdv ∧ x.addr ≠ r.addr) ∧ s'.mem = s.mem ∧
      breakRendezvous s key r = takeTrap s' key r.arrived r.words { cls := 7, info0 := BitVec.ofNat 64 r.addr, info1 := r.arrived } := by
  unfold breakRendezvous
  rw [modGroup_eq hg]
  refine ⟨_, _, groupOf_setGroup .., fun x => ?_, rfl, rfl⟩
  change x ∈ (fuseWaiters _ r).rdv ↔ _
  rw [fuseWaiters_rdv, List.mem_filter, bne_iff_ne]

/-! ### The urgent group of a team (R60) -/

/-- The order in which late groups are urgent: fewer words issued, then the lower %gid. -/
def moreUrgent (x y : Nat × Group) : Prop :=
  x.2.issued < y.2.issued ∨ (x.2.issued = y.2.issued ∧ x.2.gid ≤ y.2.gid)

/-- The group that the choice has come to. -/
def urgentOf (b : Option (Nat × Group)) (x : Nat × Group) : Option (Nat × Group) :=
  match b with
  | none => some x
  | some y => if x.2.issued < y.2.issued || (x.2.issued = y.2.issued && x.2.gid < y.2.gid) then some x else some y

theorem foldl_urgentOf (xs : List (Nat × Group)) (b : Option (Nat × Group)) :
    match xs.foldl urgentOf b with
    | none => b = none ∧ xs = []
    | some m => (b = some m ∨ m ∈ xs) ∧ (∀ x ∈ xs, moreUrgent m x) ∧ ∀ y, b = some y → moreUrgent m y := by
  induction xs generalizing b with
  | nil =>
    cases b with
    | none => exact ⟨rfl, rfl⟩
    | some m => exact ⟨.inl rfl, by simp, fun y e => by cases e; exact .inr ⟨rfl, Nat.le_refl _⟩⟩
  | cons x xs ih =>
    rw [List.foldl_cons]
    have rest := ih (urgentOf b x)
    cases e : xs.foldl urgentOf (urgentOf b x) with
    | none =>
      rw [e] at rest
      obtain ⟨none, -⟩ := rest
      cases b with
      | none => cases none
      | some y =>
        unfold urgentOf at none
        dsimp only at none
        split at none <;> cases none
    | some m =>
      rw [e] at rest
      obtain ⟨origin, least, before⟩ := rest
      cases b with
      | none =>
        refine ⟨.inr ?_, ?_, fun y e => by cases e⟩
        · rcases origin with first | later
          · cases first; simp
          · simp [later]
        · intro z hz
          rcases List.mem_cons.mp hz with rfl | hz
          · exact before _ rfl
          · exact least z hz
      | some y =>
        by_cases ahead : x.2.issued < y.2.issued ∨ (x.2.issued = y.2.issued ∧ x.2.gid < y.2.gid)
        · have chosen : urgentOf (some y) x = some x := if_pos (by simpa using ahead)
          rw [chosen] at origin before
          have mx := before x rfl
          refine ⟨.inr ?_, ?_, fun z e => ?_⟩
          · rcases origin with first | later
            · cases first; simp
            · simp [later]
          · intro z hz
            rcases List.mem_cons.mp hz with rfl | hz
            · exact mx
            · exact least z hz
          · cases e
            unfold moreUrgent at mx ⊢
            omega
        · have chosen : urgentOf (some y) x = some y := if_neg (by simpa using ahead)
          rw [chosen] at origin before
          have my := before y rfl
          refine ⟨?_, ?_, fun z e => by cases e; exact my⟩
          · rcases origin with first | later
            · exact .inl first
            · exact .inr (by simp [later])
          · intro z hz
            rcases List.mem_cons.mp hz with rfl | hz
            · unfold moreUrgent at my ⊢
              omega
            · exact least z hz

/-- The late groups of a team of a gang. -/
def lateGroups (s : State) (uid team : Nat) : List (Nat × Group) :=
  (groupsOf s uid).filter (fun x => x.2.team == team && !groupArrived x.2 false)

theorem mem_lateGroups {s : State} {uid team : Nat} {y : Nat × Group} :
    y ∈ lateGroups s uid team ↔ y ∈ groupsOf s uid ∧ y.2.team = team ∧ groupArrived y.2 false = false := by
  simp [lateGroups]

theorem urgentGroup_eq (s : State) (uid team : Nat) :
    urgentGroup s uid team = ((lateGroups s uid team).foldl urgentOf none).map (·.2.gid) := rfl

/-- The team's urgent group is the late one that has issued least, and no group where none is late. -/
theorem urgentGroup_least (s : State) (uid team : Nat) :
    (urgentGroup s uid team = none → ∀ y ∈ groupsOf s uid, ¬ (y.2.team = team ∧ groupArrived y.2 false = false)) ∧
    ∀ n, urgentGroup s uid team = some n → ∃ y ∈ groupsOf s uid, (y.2.team = team ∧ groupArrived y.2 false = false) ∧ y.2.gid = n ∧
      ∀ z ∈ groupsOf s uid, (z.2.team = team ∧ groupArrived z.2 false = false) →
        y.2.issued < z.2.issued ∨ (y.2.issued = z.2.issued ∧ n ≤ z.2.gid) := by
  have choice := foldl_urgentOf (lateGroups s uid team) none
  rw [urgentGroup_eq]
  cases e : (lateGroups s uid team).foldl urgentOf none with
  | none =>
    rw [e] at choice
    obtain ⟨-, none⟩ := choice
    refine ⟨fun _ y hy late => ?_, fun n h => by cases h⟩
    have mem := mem_lateGroups.mpr ⟨hy, late⟩
    simp [none] at mem
  | some m =>
    rw [e] at choice
    obtain ⟨origin, least, -⟩ := choice
    refine ⟨fun h => (by cases h), fun n h => ?_⟩
    cases h
    rcases origin with first | mem
    · cases first
    · obtain ⟨hm, late⟩ := mem_lateGroups.mp mem
      exact ⟨m, hm, late, rfl, fun z hz lz => least z (mem_lateGroups.mpr ⟨hz, lz⟩)⟩

theorem execUrgentRecompute_early {s : State} {q : Gang} {team : Team} (hq : gangOf s s.input.key = some q)
    (ht : q.teams[s.input.sub]? = some team) {c : Nat} (marked : team.marked = some c) (early : s.clock < c + 256) :
    exec .urgentRecompute s = .next s := by
  change execUrgentRecompute s = _
  unfold execUrgentRecompute
  rw [hq]
  simp only [Option.bind_some, ht, urgentDue, marked, Option.all_some]
  rw [if_neg (by simp; omega)]

/-- The clock at which a team's urgent group is marked, in steps of 256 from when it was last. -/
def markedAt (team : Team) (clock : Nat) : Nat :=
  match team.marked with
  | some c => c + 256 * ((clock - c) / 256)
  | none => clock

theorem markedAt_none {team : Team} (unmarked : team.marked = none) (clock : Nat) : markedAt team clock = clock := by
  simp only [markedAt, unmarked]

theorem markedAt_some {team : Team} {clock : Nat} (due : ∀ c, team.marked = some c → c + 256 ≤ clock) {c : Nat}
    (marked : team.marked = some c) :
    markedAt team clock ≤ clock ∧ clock < markedAt team clock + 256 ∧ ∃ n, markedAt team clock = c + 256 * n := by
  have past := due c marked
  simp only [markedAt, marked]
  exact ⟨by omega, by omega, _, rfl⟩

theorem execUrgentRecompute_due {s : State} {q : Gang} {team : Team} (hq : gangOf s s.input.key = some q)
    (ht : q.teams[s.input.sub]? = some team) (due : ∀ c, team.marked = some c → c + 256 ≤ s.clock) :
    exec .urgentRecompute s = .next (setGang s s.input.key { q with
      teams := q.teams.set s.input.sub
        { team with urgent := urgentGroup s s.input.key s.input.sub, marked := some (markedAt team s.clock) } }) := by
  have now : urgentDue s team = true := by
    unfold urgentDue
    cases e : team.marked with
    | none => rfl
    | some c => simpa using due c e
  have here : teamOf s s.input.key s.input.sub = some team := by
    rw [teamOf, hq]
    exact ht
  change execUrgentRecompute s = _
  unfold execUrgentRecompute
  rw [hq]
  simp only [Option.bind_some, ht, now, if_true]
  unfold markUrgent modTeam setTeam markedAt
  rw [here]
  dsimp only
  rw [hq]
  cases e : team.marked <;> rfl

end Sys2Proof.Machine


/-!
SUPPORT. The rungs above the gang (R159, R413, R414): a gang that starves for registers, the service of a rung, the partition rung and
the warm reset.
-/
namespace Sys2Proof.Machine

open Sys2Proof

/-! ### Folds -/

/-- What each step of a fold leaves alone. -/
theorem foldl_same {α β γ : Type} (proj : β → γ) (f : β → α → β) (hf : ∀ b a, proj (f b a) = proj b) (xs : List α) (b : β) :
    proj (xs.foldl f b) = proj b := by
  induction xs generalizing b with
  | nil => rfl
  | cons x xs ih => rw [List.foldl_cons, ih, hf]

/-- A property that each step of a fold over a list's members keeps. -/
theorem foldl_keeps_mem {α β : Type} (P : β → Prop) (f : β → α → β) (xs : List α) (b : β) (h : P b)
    (hf : ∀ b, ∀ a ∈ xs, P b → P (f b a)) : P (xs.foldl f b) := by
  induction xs generalizing b with
  | nil => exact h
  | cons x xs ih => exact ih (f b x) (hf b x (by simp) h) fun b a ha => hf b a (by simp [ha])

/-! ### Allocation-deadlock (R159) -/

theorem coreOf_setCore_ne (s : State) {k k' : Nat} (c : Core) (h : k' ≠ k) : coreOf (setCore s k c) k' = coreOf s k' :=
  tget_tset_ne _ _ _ h

/-- The requests of some cores that name none of some groups. -/
def withdrawRequests (keys : List Nat) (s : State) (core : Nat) : State :=
  setCore s core { coreOf s core with requests := (coreOf s core).requests.filter (fun r => !keys.contains r.2.1) }

theorem withdrawRequests_withdraws (keys : List Nat) (cs : List Nat) (s : State) (x : Nat)
    (h : x ∈ cs ∨ ∀ r ∈ (coreOf s x).requests, r.2.1 ∉ keys) :
    ∀ r ∈ (coreOf (cs.foldl (withdrawRequests keys) s) x).requests, r.2.1 ∉ keys := by
  induction cs generalizing s with
  | nil => exact h.resolve_left (by simp)
  | cons c cs ih =>
    rw [List.foldl_cons]
    refine ih _ ?_
    by_cases here : x = c
    · subst here
      refine Or.inr fun r hr => ?_
      unfold withdrawRequests at hr
      rw [coreOf_setCore] at hr
      simpa using (List.mem_filter.mp hr).2
    · rcases h with listed | clear
      · exact Or.inl ((List.mem_cons.mp listed).resolve_left here)
      · refine Or.inr ?_
        unfold withdrawRequests
        rw [coreOf_setCore_ne _ _ here]
        exact clear

/-- The gang goes on from its wait for blocks: its requests and its mark are gone, and its fragments issue again. -/
def deadlockEnded (s : State) (uid : Nat) (q : Gang) : State :=
  ((groupsOf s uid).map (·.1)).foldl (fun t k => modGroup t k (fun g =>
      { g with frags := g.frags.map (fun f => f.holding .ready t.clock) }))
    (setGang (q.cores.foldl (withdrawRequests ((groupsOf s uid).map (·.1))) s) uid { q with deadlock := none })

theorem deadlockEnded_keeps (s : State) (uid : Nat) (q : Gang) :
    gangOf (deadlockEnded s uid q) uid = some { q with deadlock := none } ∧ (deadlockEnded s uid q).mem = s.mem ∧
    ∀ x ∈ q.cores, ∀ r ∈ (coreOf (deadlockEnded s uid q) x).requests, ∀ y ∈ groupsOf s uid, r.2.1 ≠ y.1 := by
  have gangs : (deadlockEnded s uid q).gangs = _ := foldl_same (fun s : State => s.gangs) _ (fun t k => modGroup_gangs t k _) _ _
  have cores : (deadlockEnded s uid q).cores = _ := foldl_same (fun s : State => s.cores) _ (fun t k => modGroup_cores t k _) _ _
  have mem : (deadlockEnded s uid q).mem = _ := foldl_same (fun s : State => s.mem) _ (fun t k => modGroup_mem t k _) _ _
  refine ⟨?_, ?_, fun x hx r hr y hy e => ?_⟩
  · rw [gangOf, gangs]
    exact tfind_tput_same ..
  · rw [mem]
    exact foldl_same (fun s : State => s.mem) (withdrawRequests _) (fun _ _ => rfl) q.cores s
  · have same : coreOf (deadlockEnded s uid q) x = coreOf (q.cores.foldl (withdrawRequests ((groupsOf s uid).map (·.1))) s) x := by
      rw [coreOf, cores]
      rfl
    rw [same] at hr
    refine withdrawRequests_withdraws _ q.cores s x (.inl hx) r hr ?_
    rw [e]
    exact List.mem_map_of_mem hy

theorem execAllocationDeadlock_ended {s : State} {q : Gang} {c k n d words : Nat} {g : Group} {f : Frag}
    (hq : gangOf s s.input.key = some q) (starved : gangStarved s s.input.key = true) (marked : q.deadlock = some c)
    (ended : c + 16384 ≤ s.clock) (first : (groupsOf s s.input.key).head? = some (k, g)) (leads : g.frags.head? = some f)
    (waits : f.hold = .ralloc n d words) :
    exec .allocationDeadlock s = .next (takeTrap (deadlockEnded s s.input.key q) k f.lanes words
      { cls := 18, info0 := BitVec.ofNat 64 n, info1 := BitVec.ofNat 64 g.held, rung := 1 }) := by
  obtain ⟨gs, groups⟩ := List.head?_eq_some_iff.mp first
  obtain ⟨fs, frags⟩ := List.head?_eq_some_iff.mp leads
  change execAllocationDeadlock s = _
  unfold execAllocationDeadlock
  dsimp only
  rw [hq]
  dsimp only
  rw [if_neg (by simp [starved]), marked]
  dsimp only
  rw [if_neg (by omega)]
  unfold deadlockEnded
  rw [groups]
  simp only [List.flatMap_cons, frags, List.filterMap_cons, waits, List.cons_append]
  rfl

/-! ### Operations that know no gang (R443) -/

/-- No gang is resident, and WRSTAT reads as told. -/
def Emptied (w : WarmStatus) (s : State) : Prop := s.gangs = [] ∧ s.warm = w

theorem emptied_ite {w : WarmStatus} {c : Prop} [Decidable c] {s t : State} (hs : Emptied w s) (ht : Emptied w t) :
    Emptied w (if c then s else t) := by
  split
  · exact hs
  · exact ht

theorem emptied_foldl {α : Type} {w : WarmStatus} {s : State} (h : Emptied w s) (f : State → α → State) (xs : List α)
    (hf : ∀ s, ∀ a ∈ xs, Emptied w s → Emptied w (f s a)) : Emptied w (xs.foldl f s) := foldl_keeps_mem _ f xs s h hf

theorem emptied_of_unread {w : WarmStatus} {s t : State} (h : unread t = unread s) (hs : Emptied w s) : Emptied w t := by
  have gangs : (unread t).gangs = (unread s).gangs := by rw [h]
  have warm : (unread t).warm = (unread s).warm := by rw [h]
  exact ⟨gangs.trans hs.1, warm.trans hs.2⟩

theorem emptied_modGroup {w : WarmStatus} {s : State} (h : Emptied w s) (k : Nat) (f : Group → Group) : Emptied w (modGroup s k f) := by
  unfold Emptied
  rwa [modGroup_gangs, modGroup_warm]

theorem emptied_exhaustLaunch {w : WarmStatus} {s : State} (h : Emptied w s) (uid : Nat) : Emptied w (exhaustLaunch s uid) := by
  unfold exhaustLaunch
  split
  · exact h
  · exact h

theorem emptied_postResult {w : WarmStatus} {s : State} (h : Emptied w s) (a : Asker) (code : Nat) : Emptied w (postResult s a code) := by
  unfold postResult
  split
  · exact h
  · dsimp only
    split <;> split <;> exact h

theorem emptied_endCheckpoint {w : WarmStatus} {s : State} (h : Emptied w s) (part : Nat) (ok : Bool) :
    Emptied w (endCheckpoint s part ok none) := by
  unfold endCheckpoint
  dsimp only
  split
  · exact h
  · refine emptied_postResult ?_ _ _
    exact h
  · exact h

/-! ### Parts of an operation (R25) -/

theorem emptied_landOwed {w : WarmStatus} {s : State} (h : Emptied w s) (o : Owed) : Emptied w (landOwed s o) := emptied_modGroup h _ _

theorem emptied_landLate {w : WarmStatus} {s : State} (h : Emptied w s) (o : Owed) : Emptied w (landLate s o) := by
  have landed := emptied_landOwed h o
  unfold landLate
  dsimp only
  split
  · split
    · exact landed
    · exact landed
  · exact landed

theorem emptied_landAll {w : WarmStatus} {s : State} (h : Emptied w s) (id : Nat) : Emptied w (landAll s id) := by
  unfold landAll
  split
  · exact h
  · next o _ => exact emptied_foldl h landLate o.owed fun s x _ hs => emptied_landLate hs x

theorem emptied_opHappened {w : WarmStatus} {s : State} (h : Emptied w s) (id : Nat) : Emptied w (opHappened s id) := by
  unfold opHappened
  split
  · exact h
  · dsimp only
    split
    · exact h
    · exact emptied_modGroup h _ _

theorem emptied_partHappened {w : WarmStatus} {s : State} (h : Emptied w s) (id : Nat) (err : Bool) :
    Emptied w (partHappened s id err) := by
  have passed : ∀ s : State, Emptied w s → Emptied w (passScoped s id) := by
    intro s h
    unfold passScoped
    split
    · exact h
    · dsimp only
      split
      · exact emptied_opHappened (emptied_landAll (emptied_modGroup h _ _) id) id
      · exact emptied_modGroup h _ _
  have woken : ∀ s : State, Emptied w s → Emptied w (wakeScoped s id) := by
    intro s h
    unfold wakeScoped
    split
    · exact h
    · exact emptied_modGroup h _ _
  unfold partHappened
  dsimp only
  split
  · exact h
  · split
    · exact h
    · split
      · exact passed _ h
      · exact woken _ h

theorem emptied_loseRequest {w : WarmStatus} {s : State} (h : Emptied w s) (r : Request) : Emptied w (loseRequest s r) := by
  unfold loseRequest
  dsimp only
  split
  · split
    · exact h
    · refine emptied_partHappened ?_ _ _
      exact h
  · refine emptied_ite h (emptied_ite h (emptied_ite (emptied_endCheckpoint ?_ _ _) h))
    exact h
  · exact h
  · exact h

/-! ### Write-backs -/

theorem emptied_storeLocal {w : WarmStatus} {s : State} (h : Emptied w s) (writer ma : Nat) (bs : List Byte) :
    Emptied w (storeLocal s writer ma bs) := by
  unfold storeLocal
  dsimp only
  split
  · exact h
  · exact emptied_of_unread (unread_fetchLines ..) h

theorem emptied_noteCovered {w : WarmStatus} {s : State} (h : Emptied w s) (p : Place) : Emptied w (noteCovered s p) := by
  obtain ⟨none, warm⟩ := h
  refine ⟨?_, warm⟩
  unfold noteCovered
  rw [none]
  rfl

/-- An engine write that stands at a machine address reaches memory. -/
theorem emptied_applyPlace {w : WarmStatus} {s : State} (h : Emptied w s) {p : Place} {base n : Nat} (within : placeWithin base n p = true) :
    Emptied w (applyPlace s p) := by
  unfold applyPlace
  cases at' : p.loc with
  | ma a =>
    dsimp only
    split <;> exact emptied_storeLocal h _ _ _
  | _ => simp [placeWithin, at'] at within

theorem emptied_dropHostLine {w : WarmStatus} {s : State} (h : Emptied w s) (line : Nat) : Emptied w (dropHostLine s line) := by
  have applied : Emptied w (applyPlaces s (placeWithin (128 * line) 128)) := by
    unfold applyPlaces
    dsimp only
    refine foldl_keeps_mem (Emptied w) _ _ _ h fun t p hp ht => ?_
    exact emptied_noteCovered (emptied_applyPlace ht (List.mem_filter.mp hp).2) p
  exact applied

theorem emptied_writebackLine {w : WarmStatus} {s : State} (h : Emptied w s) (line : Nat) : Emptied w (writebackLine s line) := by
  unfold writebackLine
  split
  · split
    · exact emptied_dropHostLine h line
    · exact h
  · dsimp only
    exact emptied_of_unread (unread_recordDecoded ..) h

/-! ### A gang that goes (R430) -/

theorem tfind_eq_none_iff {α : Type} (t : Table α) (k : Nat) : tfind t k = none ↔ ∀ x ∈ t, x.1 ≠ k := by
  induction t with
  | nil => simp
  | cons p t ih =>
    obtain ⟨j, v⟩ := p
    by_cases h : j = k
    · simp [tfind, h]
    · simp [tfind, h, ih]

theorem mem_tdel {α : Type} {t : Table α} {k : Nat} {x : Nat × α} (h : x ∈ tdel t k) : x.1 ≠ k ∧ x ∈ t := by
  induction t with
  | nil => cases h
  | cons p t ih =>
    obtain ⟨j, v⟩ := p
    unfold tdel at h
    split at h
    · obtain ⟨ne, mem⟩ := ih h
      exact ⟨ne, by simp [mem]⟩
    · next ne =>
      rcases List.mem_cons.mp h with rfl | mem
      · exact ⟨ne, by simp⟩
      · obtain ⟨ne, mem⟩ := ih mem
        exact ⟨ne, by simp [mem]⟩

/-- Nothing of WRSTAT, the queues, memory, the context table, the clock's events or the gangs differs, and no service has been asked
for. -/
structure Apart (s t : State) : Prop where
  warm : t.warm = s.warm
  queues : t.queues = s.queues
  mem : t.mem = s.mem
  ctxtab : t.ctxtab = s.ctxtab
  fresh : t.fresh = s.fresh
  gangs : t.gangs = s.gangs
  services : ∀ v ∈ t.services, v ∈ s.services

theorem Apart.refl (s : State) : Apart s s := ⟨rfl, rfl, rfl, rfl, rfl, rfl, fun _ h => h⟩

theorem Apart.trans {s t r : State} (h : Apart s t) (h' : Apart t r) : Apart s r :=
  ⟨h'.warm.trans h.warm, h'.queues.trans h.queues, h'.mem.trans h.mem, h'.ctxtab.trans h.ctxtab, h'.fresh.trans h.fresh,
    h'.gangs.trans h.gangs,
    fun v hv => h.services v (h'.services v hv)⟩

theorem apart_foldl {α : Type} (f : State → α → State) (hf : ∀ s a, Apart s (f s a)) (xs : List α) (s : State) :
    Apart s (xs.foldl f s) :=
  foldl_keeps (fun t => Apart s t) f xs s (.refl s) fun t a ht => ht.trans (hf t a)

theorem apart_setCore (s : State) (k : Nat) (c : Core) : Apart s (setCore s k c) := ⟨rfl, rfl, rfl, rfl, rfl, rfl, fun _ h => h⟩

theorem apart_forgetHeld (s : State) (uid : Nat) : Apart s (forgetHeld s uid) := by
  unfold forgetHeld
  refine apart_foldl _ (fun t c => ?_) _ s
  exact ⟨rfl, rfl, rfl, rfl, rfl, rfl, fun v hv => List.mem_of_mem_filter hv⟩

theorem apart_dropGangClaims (s : State) (uid : Nat) (keys : List Nat) : Apart s (dropGangClaims s uid keys) := by
  unfold dropGangClaims
  split
  · exact .refl s
  · refine apart_foldl _ (fun t c => ?_) _ s
    dsimp only
    split
    · exact .refl t
    · exact apart_setCore ..

theorem apart_dropGroup (s : State) (key : Nat) : Apart s (dropGroup s key) :=
  ⟨rfl, rfl, rfl, rfl, rfl, rfl, fun _ h => List.mem_of_mem_filter h⟩

theorem apart_vacateCore (s : State) (core : Nat) : Apart s (vacateCore s core) := by
  unfold vacateCore
  split
  · exact .refl s
  · exact apart_setCore ..

/-- A gang, and perhaps more, is gone, and no other has come: nothing of WRSTAT, the queues, memory, the context table or
the clock's events differs, and no service has been asked for. -/
structure LosesGang (uid : Nat) (s t : State) : Prop where
  warm : t.warm = s.warm
  queues : t.queues = s.queues
  mem : t.mem = s.mem
  ctxtab : t.ctxtab = s.ctxtab
  fresh : t.fresh = s.fresh
  gangs : ∀ x ∈ t.gangs, x.1 ≠ uid ∧ ∃ y ∈ s.gangs, y.1 = x.1
  services : ∀ v ∈ t.services, v ∈ s.services

theorem LosesGang.trans_apart {uid : Nat} {s t r : State} (h : LosesGang uid s t) (h' : Apart t r) : LosesGang uid s r :=
  ⟨h'.warm.trans h.warm, h'.queues.trans h.queues, h'.mem.trans h.mem, h'.ctxtab.trans h.ctxtab,
    h'.fresh.trans h.fresh, fun x hx => h.gangs x (h'.gangs ▸ hx), fun v hv => h.services v (h'.services v hv)⟩

theorem gone_dropGang (s : State) (uid : Nat) : LosesGang uid s (dropGang s uid) := by
  unfold dropGang
  split
  · next none => exact ⟨rfl, rfl, rfl, rfl, rfl, fun x hx => ⟨(tfind_eq_none_iff _ _).mp none x hx, x, hx, rfl⟩, fun _ h => h⟩
  · next q _ =>
    dsimp only
    refine LosesGang.trans_apart ?_ (apart_foldl vacateCore apart_vacateCore q.cores _)
    generalize cleared : List.foldl _ (List.foldl _ _ _) _ = t
    have apart : Apart s t := by
      rw [← cleared]
      refine Apart.trans ?_ (apart_foldl _ (fun _ _ => apart_setCore ..) _ _)
      refine Apart.trans ?_ (apart_foldl _ (fun _ _ => apart_dropGroup ..) _ _)
      refine Apart.trans ?_ (apart_dropGangClaims ..)
      refine Apart.trans ?_ (apart_forgetHeld ..)
      exact ⟨rfl, rfl, rfl, rfl, rfl, rfl, fun _ h => h⟩
    refine ⟨apart.warm, apart.queues, apart.mem, apart.ctxtab, apart.fresh, fun x hx => ?_,
      fun v hv => apart.services v (List.mem_of_mem_filter hv)⟩
    obtain ⟨y, hy, rfl⟩ := List.mem_map.mp hx
    obtain ⟨ne, mem⟩ := mem_tdel hy
    exact ⟨ne, y, apart.gangs ▸ mem, rfl⟩

/-- The gangs of a list that go one after another. -/
theorem gone_foldl {f : State → Nat × Gang → State} (hf : ∀ s a, LosesGang a.1 s (f s a)) (xs : List (Nat × Gang)) (s : State) :
    (xs.foldl f s).warm = s.warm ∧ (xs.foldl f s).queues = s.queues ∧ (xs.foldl f s).mem = s.mem ∧ (xs.foldl f s).ctxtab = s.ctxtab ∧
    (∀ x ∈ (xs.foldl f s).gangs, (∀ a ∈ xs, x.1 ≠ a.1) ∧ ∃ y ∈ s.gangs, y.1 = x.1) ∧
    ∀ v ∈ (xs.foldl f s).services, v ∈ s.services := by
  induction xs generalizing s with
  | nil => exact ⟨rfl, rfl, rfl, rfl, fun x hx => ⟨by simp, x, hx, rfl⟩, fun _ h => h⟩
  | cons a xs ih =>
    rw [List.foldl_cons]
    obtain ⟨warm, queues, mem, ctxtab, gangs, services⟩ := ih (f s a)
    have first := hf s a
    refine ⟨warm.trans first.warm, queues.trans first.queues, mem.trans first.mem, ctxtab.trans first.ctxtab, fun x hx => ?_,
      fun v hv => first.services v (services v hv)⟩
    obtain ⟨others, y, hy, same⟩ := gangs x hx
    obtain ⟨ne, z, hz, origin⟩ := first.gangs y hy
    refine ⟨fun b hb => ?_, z, hz, origin.trans same⟩
    rcases List.mem_cons.mp hb with rfl | hb
    · rw [← same]
      exact ne
    · exact others b hb

/-! ### The warm reset (R443) -/

theorem apart_relaunchGang (s : State) (launch index : Nat) : Apart s (relaunchGang s launch index) := by
  unfold relaunchGang
  cases launchOf s launch with
  | none => exact .refl s
  | some l => exact ⟨rfl, rfl, rfl, rfl, rfl, rfl, fun _ h => h⟩

theorem apart_exhaustLaunch (s : State) (uid : Nat) : Apart s (exhaustLaunch s uid) := by
  unfold exhaustLaunch
  cases launchOf s uid with
  | none => exact .refl s
  | some l => exact ⟨rfl, rfl, rfl, rfl, rfl, rfl, fun _ h => h⟩

/-- No gang is left where each of them has gone. -/
theorem gangs_nil_of_lost {s t : State} (h : ∀ x ∈ t.gangs, (∀ a ∈ s.gangs, x.1 ≠ a.1) ∧ ∃ y ∈ s.gangs, y.1 = x.1) :
    t.gangs = [] := by
  rw [List.eq_nil_iff_forall_not_mem]
  intro x hx
  obtain ⟨away, y, hy, same⟩ := h x hx
  exact away y hy same.symm

theorem emptied_loseGangs (s : State) (touched : List Nat) : Emptied s.warm (loseGangs s touched) := by
  unfold loseGangs
  dsimp only
  refine foldl_keeps (Emptied s.warm) _ _ _ ?_ fun t x ht => emptied_exhaustLaunch ht x.1
  refine (fun lost => ⟨gangs_nil_of_lost lost.2.2.2.2.1, lost.1⟩) (gone_foldl (fun t q => ?_) s.gangs s)
  cases launchOf (dropGang t q.1) q.2.launch with
  | none => exact gone_dropGang t q.1
  | some l =>
    dsimp only
    split
    · exact (gone_dropGang t q.1).trans_apart (apart_relaunchGang ..)
    · exact gone_dropGang t q.1

theorem warmReset_resets (s : State) (cls ctx : Nat) (climbed : Option Nat) (unit : BitVec 16) :
    (warmReset s cls ctx climbed unit).gangs = [] ∧ (warmReset s cls ctx climbed unit).ctxs = [] ∧
    (warmReset s cls ctx climbed unit).cores = [] ∧
    (warmReset s cls ctx climbed unit).warm = ⟨min 255 (s.warm.count + 1), cls % 32, ctx % 256, unit⟩ := by
  unfold warmReset
  dsimp only
  generalize done : writebackAll _ = t
  have emptied : Emptied s.warm t := by
    rw [← done]
    unfold writebackAll
    refine foldl_keeps (Emptied s.warm) _ _ _ ?_ fun t x ht => emptied_writebackLine ht x
    refine foldl_keeps (Emptied s.warm) _ _ _ ?_ fun t r ht => emptied_ite (emptied_loseRequest ht r) ht
    refine foldl_keeps (Emptied s.warm) _ _ _ ?_ fun t c ht => emptied_endCheckpoint ht c.1 false
    exact emptied_loseGangs s _
  obtain ⟨none, warm⟩ := emptied
  exact ⟨none, rfl, rfl, by rw [warm]⟩

/-! ### The partition rung (R413) -/

theorem apart_msix (s : State) (part : Nat) (err : Bool) : Apart s (msix s part err) := by
  have flushed : ∀ s : State, Apart s (flushHost s) := by
    intro s
    unfold flushHost
    dsimp only
    split
    · exact .refl s
    · exact ⟨rfl, rfl, rfl, rfl, rfl, rfl, fun _ h => h⟩
  have entry : ∀ (s : State) (fn n : Nat), Apart s (msixEntry s fn n) := by
    intro s fn n
    unfold msixEntry
    split
    · exact .refl s
    · split
      · exact ⟨rfl, rfl, rfl, rfl, rfl, rfl, fun _ h => h⟩
      · refine Apart.trans (flushed s) ?_
        exact ⟨rfl, rfl, rfl, rfl, rfl, rfl, fun _ h => h⟩
  unfold msix
  dsimp only
  split
  · exact entry ..
  · exact apart_foldl _ (fun s n => entry s n _) _ s

theorem gone_killGang (s : State) (uid : Nat) (again : Bool) : LosesGang uid s (killGang s uid again).1 := by
  unfold killGang
  cases none : gangOf s uid with
  | none => exact ⟨rfl, rfl, rfl, rfl, rfl, fun x hx => ⟨(tfind_eq_none_iff _ _).mp none x hx, x, hx, rfl⟩, fun _ h => h⟩
  | some q =>
    dsimp only
    cases launchOf (dropGang s uid) q.launch with
    | none => exact gone_dropGang s uid
    | some l =>
      dsimp only
      split
      · exact (gone_dropGang s uid).trans_apart (apart_relaunchGang ..)
      · refine (gone_dropGang s uid).trans_apart ?_
        unfold launchEnd
        cases launchOf (dropGang s uid) q.launch with
        | none => exact .refl _
        | some l => exact ⟨rfl, rfl, rfl, rfl, rfl, rfl, fun _ h => h⟩

theorem tfind_map {α : Type} (f : Nat × α → α) (t : Table α) (k : Nat) :
    tfind (t.map (fun x => (x.1, f x))) k = (tfind t k).map (fun v => f (k, v)) := by
  induction t with
  | nil => rfl
  | cons p t ih =>
    obtain ⟨j, v⟩ := p
    by_cases h : j = k
    · subst h; simp [tfind]
    · simp [tfind, h, ih]

theorem ctxPart_same {s t : State} (mem : t.mem = s.mem) (ctxtab : t.ctxtab = s.ctxtab) (ctx : Nat) : ctxPart t ctx = ctxPart s ctx := by
  unfold ctxPart peekDpa
  rw [mem, ctxtab]

/-- The partition's gangs are gone and its queues are stopped, and nothing has asked for a service. -/
theorem partitionRung_stops (s : State) (part : Nat) :
    (∀ v ∈ (partitionRung s part).services, v ∈ s.services) ∧
    (∀ k, gangPart s k = some part → gangOf (partitionRung s part) k = none) ∧
    ∀ n, (queueOf s n).state = 1 → ctxPart s (queueOf s n).ctx.toNat = part → (queueOf (partitionRung s part) n).state = 2 := by
  unfold partitionRung
  dsimp only
  generalize killed : List.foldl _ s _ = t
  have lost := gone_foldl (f := fun s q => (killGang s q.1 false).1) (fun t q => gone_killGang t q.1 false)
    (s.gangs.filter (fun q => ((gangCtx s q.1).map (ctxPart s)) == some part)) s
  rw [killed] at lost
  obtain ⟨-, queues, mem, ctxtab, gangs, services⟩ := lost
  generalize ended : msix _ part true = r
  have apart : Apart { t with queues := t.queues.map (fun q =>
      (q.1, if q.2.state = 1 && ctxPart t q.2.ctx.toNat = part then { q.2 with state := 2 } else q.2)) } r := by
    rw [← ended]
    refine Apart.trans ?_ (apart_msix _ part true)
    refine apart_foldl _ (fun s l => ?_) _ _
    refine Apart.trans ?_ (apart_exhaustLaunch _ l.1)
    exact ⟨rfl, rfl, rfl, rfl, rfl, rfl, fun _ h => h⟩
  refine ⟨fun v hv => services v (apart.services v hv), fun k hk => ?_, fun n running own => ?_⟩
  · rw [gangOf, tfind_eq_none_iff, apart.gangs]
    rintro x hx rfl
    obtain ⟨away, y, hy, same⟩ := gangs x hx
    refine away y (List.mem_filter.mpr ⟨hy, ?_⟩) same.symm
    rw [same, beq_iff_eq]
    exact hk
  · unfold queueOf tget at running own ⊢
    rw [apart.queues]
    dsimp only
    rw [tfind_map (fun x : Nat × Queue => if x.2.state = 1 && ctxPart t x.2.ctx.toNat = part then { x.2 with state := 2 } else x.2),
      queues]
    cases listed : tfind s.queues n with
    | none =>
      rw [listed] at running
      cases running
    | some x =>
      rw [listed] at running own
      have stopped : (x.state = 1 && ctxPart t x.ctx.toNat = part) = true := by
        rw [ctxPart_same mem ctxtab]
        simpa using And.intro running own
      exact congrArg Queue.state (if_pos stopped)

/-- Firmware at the partition rung acts for the one service there, or not yet. -/
theorem settleFirmware_one {s : State} {v : Service} (one : s.services.filter (fun v => v.rung = 3) = [v]) :
    settleFirmware s = { s with tick := s.tick + 1 } ∨
      settleFirmware s = partitionRung { s with tick := s.tick + 1, services := s.services.filter (· != v) } (ctxPart s (v.key % 256)) := by
  have same : s.services.filter (fun v => v.rung == 3) = [v] := one
  unfold settleFirmware
  rw [same]
  simp only [List.foldl_cons, List.foldl_nil]
  split
  · exact .inr rfl
  · exact .inl rfl

/-! ### Service times (R414) -/

theorem serviceLimit_eq (rung : Nat) : serviceLimit rung = rungClocks rung := by
  match rung with
  | 0 => rfl
  | 1 => rfl
  | 2 => rfl
  | n + 3 => rfl

section
variable {s : State} {v : Service} (hv : serviceAt s s.input.key s.input.sub = some v)
include hv

theorem execServiceTimeout_early (early : s.clock < v.since + rungClocks s.input.key) : exec .serviceTimeout s = .next s := by
  unfold serviceAt at hv
  change execServiceTimeout s = _
  unfold execServiceTimeout
  dsimp only
  rw [hv]
  dsimp only
  rw [serviceLimit_eq, if_pos early]

variable (ended : v.since + rungClocks s.input.key ≤ s.clock)
include ended

theorem execServiceTimeout_group (rung : s.input.key = 0) {g : Group} (hg : groupOf s s.input.sub = some g) {q : Gang}
    (hq : gangOf s g.gang = some q) : exec .serviceTimeout s = .next (if DebugHalted q then s
      else takeGangTrap (withoutService s s.input.key s.input.sub) g.gang
        { cls := 25, info0 := BitVec.ofNat 64 v.cls, info1 := BitVec.ofNat 64 0 }) := by
  unfold serviceAt at hv
  change execServiceTimeout s = _
  unfold execServiceTimeout
  dsimp only
  rw [hv]
  dsimp only
  rw [serviceLimit_eq, if_neg (by omega), rung, hg]
  simp only [hq, Option.map_some, Option.getD_some, isHalted_iff]
  split <;> rfl

theorem execServiceTimeout_gang (rung : s.input.key = 1) {q : Gang} (hq : gangOf s s.input.sub = some q) {ctx : Nat}
    (hctx : gangCtx s s.input.sub = some ctx) : exec .serviceTimeout s = .next (if DebugHalted q then s
      else toContext (withoutService s s.input.key s.input.sub) s.input.sub ctx q.index
        ⟨25, BitVec.ofNat 64 v.cls, BitVec.ofNat 64 1, 2, none, none⟩) := by
  unfold serviceAt at hv
  change execServiceTimeout s = _
  unfold execServiceTimeout
  dsimp only
  rw [hv]
  dsimp only
  rw [serviceLimit_eq, if_neg (by omega), rung, hq, hctx]
  simp only [isHalted_iff]
  split <;> rfl

theorem execServiceTimeout_context (rung : s.input.key = 2) {q : Gang} (hq : gangOf s (s.input.sub / 256) = some q) :
    exec .serviceTimeout s = .next (if DebugHalted q then s else
      { withoutService s s.input.key s.input.sub with
        services := (withoutService s s.input.key s.input.sub).services ++ [{ v with rung := 3, since := s.clock, cls := 25 }] }) := by
  unfold serviceAt at hv
  change execServiceTimeout s = _
  unfold execServiceTimeout
  dsimp only
  rw [hv]
  dsimp only
  rw [serviceLimit_eq, if_neg (by omega), rung]
  change (if ((gangOf s (s.input.sub / 256)).map Gang.isHalted).getD false then _ else _) = _
  simp only [hq, Option.map_some, Option.getD_some, isHalted_iff]
  split <;> rfl

theorem execServiceTimeout_partition (rung : 2 < s.input.key) :
    exec .serviceTimeout s = .next (warmReset (withoutService s s.input.key s.input.sub) 25 (s.input.sub % 256)
      (some (s.input.sub % 256)) (BitVec.ofNat 16 v.unit)) := by
  unfold serviceAt at hv
  change execServiceTimeout s = _
  unfold execServiceTimeout
  dsimp only
  rw [hv]
  dsimp only
  rw [serviceLimit_eq, if_neg (by omega)]
  obtain ⟨n, rung⟩ : ∃ n, s.input.key = n + 3 := ⟨s.input.key - 3, by omega⟩
  rw [rung]
  rfl

end

end Sys2Proof.Machine

/-!
SUPPORT. Counted operations (R25, R27): the values that a load owes land, and an operation whose event has happened lowers its
counter and is forgotten; and the settlement of O43, with the gang's and the services' clocks.
-/
namespace Sys2Proof.Machine

open Sys2Proof

/-! ### Values that a load owes (R27) -/

/-- A group in which the value that a load owes stands. -/
def landed (g : Group) (w : Owed) : Group :=
  if w.lane = 64 then setSreg g w.reg w.value
  else if 8 * g.held ≤ w.reg then g
  else setVreg g w.reg w.lane (w.value.setWidth 32)

theorem sreg_landed (g : Group) (w : Owed) (r : Nat) :
    sreg (landed g w) r = if w.lane = 64 ∧ r = w.reg then w.value else sreg g r := by
  unfold landed
  by_cases scalar : w.lane = 64
  · simp [scalar, sreg_setSreg]
  · rw [if_neg scalar, if_neg fun at64 : w.lane = 64 ∧ r = w.reg => scalar at64.1]
    split <;> rfl

theorem vreg_landed (g : Group) {w : Owed} (hw : w.lane ≤ 64) (r : Nat) {x : Nat} (hx : x < 64) :
    vreg (landed g w) r x = if w.lane = x ∧ w.reg = r ∧ w.reg < 8 * g.held then w.value.setWidth 32 else vreg g r x := by
  unfold landed
  by_cases scalar : w.lane = 64
  · rw [if_pos scalar, if_neg (by omega)]
    rfl
  · rw [if_neg scalar]
    by_cases beyond : 8 * g.held ≤ w.reg
    · rw [if_pos beyond, if_neg (by omega)]
    · rw [if_neg beyond, vreg_setVreg g w.reg w.lane r x _ (by omega) hx]
      refine if_congr ⟨?_, ?_⟩ rfl rfl
      · rintro ⟨rfl, rfl⟩
        exact ⟨rfl, rfl, by omega⟩
      · rintro ⟨rfl, rfl, -⟩
        exact ⟨rfl, rfl⟩

/-- A group as it was but for register values and spinning. -/
structure SaveRegs (g h : Group) : Prop where
  held : h.held = g.held
  counters : h.counters = g.counters

/-- A state as it was but for register values and spinning of one group. -/
structure Lands (key : Nat) (s t : State) (g h : Group) : Prop where
  group : groupOf t key = some h
  saves : SaveRegs g h
  rest : { t with groups := s.groups } = s

theorem saveRegs_landed (g : Group) (w : Owed) : SaveRegs g (landed g w) := by
  unfold landed
  split
  · exact ⟨rfl, rfl⟩
  · split <;> exact ⟨rfl, rfl⟩

/-- One value lands: the registers take it, and spinning may end. -/
theorem landLate_lands {s : State} {g : Group} {w : Owed} (hg : groupOf s w.group = some g) :
    ∃ sp, Lands w.group s (landLate s w) g { landed g w with spins := sp } := by
  have one : landOwed s w = setGroup s w.group (landed g w) := modGroup_eq hg _
  have saves := saveRegs_landed g w
  unfold landLate
  dsimp only
  rw [one, hg, groupOf_setGroup]
  dsimp only
  split
  · exact ⟨(landed g w).spins, groupOf_setGroup .., ⟨saves.held, saves.counters⟩, rfl⟩
  · rw [setGroup_setGroup]
    exact ⟨_, groupOf_setGroup .., ⟨saves.held, saves.counters⟩, rfl⟩

theorem Lands.trans {key : Nat} {s t r : State} {g h i : Group} (a : Lands key s t g h) (b : Lands key t r h i) :
    Lands key s r g i where
  group := b.group
  saves := ⟨b.saves.held.trans a.saves.held, b.saves.counters.trans a.saves.counters⟩
  rest := by
    have ha := a.rest
    rw [← b.rest] at ha
    exact ha

theorem Lands.ops {key : Nat} {s t : State} {g h : Group} (a : Lands key s t g h) : t.ops = s.ops := by
  have same := congrArg State.ops a.rest
  exact same

theorem Lands.mem {key : Nat} {s t : State} {g h : Group} (a : Lands key s t g h) : t.mem = s.mem := by
  have same := congrArg State.mem a.rest
  exact same

/-- What stands in a group's registers once values have landed. -/
structure Landed (ws : List Owed) (g h : Group) : Prop where
  scalar : ∀ w ∈ ws, w.lane = 64 → sreg h w.reg = w.value
  scalarKept : ∀ r, (∀ w ∈ ws, w.lane = 64 → w.reg ≠ r) → sreg h r = sreg g r
  vector : ∀ w ∈ ws, w.lane < 64 → w.reg < 8 * g.held → vreg h w.reg w.lane = w.value.setWidth 32
  vectorKept : ∀ r x, x < 64 → (∀ w ∈ ws, w.lane = x → w.reg ≠ r) → vreg h r x = vreg g r x

/-- Values of different registers all land. -/
theorem foldl_landLate {key : Nat} (ws : List Owed) (own : ∀ w ∈ ws, w.group = key ∧ w.lane ≤ 64)
    (apart : ws.Pairwise (fun x y => (x.lane, x.reg) ≠ (y.lane, y.reg))) {s : State} {g : Group} (hg : groupOf s key = some g) :
    ∃ h, Lands key s (ws.foldl landLate s) g h ∧ Landed ws g h := by
  induction ws generalizing s g with
  | nil => exact ⟨g, ⟨hg, ⟨rfl, rfl⟩, rfl⟩, by simp, fun _ _ => rfl, by simp, fun _ _ _ _ => rfl⟩
  | cons w ws ih =>
    obtain ⟨rfl, lane⟩ := own w (by simp)
    obtain ⟨others, apart⟩ := List.pairwise_cons.mp apart
    obtain ⟨sp, first⟩ := landLate_lands (w := w) hg
    obtain ⟨h, later, stands⟩ := ih (fun v hv => own v (by simp [hv])) apart first.group
    obtain ⟨scalar, scalarKept, vector, vectorKept⟩ := stands
    have held : (landed g w).held = g.held := (saveRegs_landed g w).held
    refine ⟨h, first.trans later, ?_, ?_, ?_, ?_⟩
    · intro v hv at64
      rcases List.mem_cons.mp hv with rfl | hv
      · rw [scalarKept _ fun z hz z64 e => others z hz (by rw [at64, z64, e])]
        exact (sreg_landed g v v.reg).trans (if_pos ⟨at64, rfl⟩)
      · exact scalar v hv at64
    · intro r clear
      rw [scalarKept _ fun z hz => clear z (by simp [hz])]
      refine (sreg_landed g w r).trans (if_neg ?_)
      rintro ⟨at64, rfl⟩
      exact clear w (by simp) at64 rfl
    · intro v hv in64 within
      rcases List.mem_cons.mp hv with rfl | hv
      · rw [vectorKept _ _ in64 fun z hz zl e => others z hz (by rw [zl, e])]
        exact (vreg_landed g lane v.reg in64).trans (if_pos ⟨rfl, rfl, within⟩)
      · exact vector v hv in64 (by rw [show Group.held _ = g.held from held]; exact within)
    · intro r x hx clear
      rw [vectorKept _ _ hx fun z hz => clear z (by simp [hz])]
      refine (vreg_landed g lane r hx).trans (if_neg ?_)
      rintro ⟨here, same, -⟩
      exact clear w (by simp) here same

/-! ### Events of counted operations (R25, R215) -/

theorem counterOf_setCounter {g : Group} {k : Nat} (hk : k < g.counters.length) (c : Counter) (j : Nat) :
    counterOf (setCounter g k c) j = if j = k then c else counterOf g j := by
  unfold counterOf setCounter
  by_cases here : j = k
  · subst here
    simp [hk]
  · simp [here, Ne.symm here]

/-- What the last event of an operation leaves in its counter, where it is the only operation there. -/
def lowered (c : Counter) (err : Bool) : Counter := { c with val := c.val - 1, err := c.err || err, queue := [] }

/-- The one operation of a counter happens: the counter goes down, and the operation is forgotten. -/
theorem opHappened_lowers {s : State} {id k : Nat} {o : Op} {g : Group} (ho : tfind s.ops id = some o)
    (hg : groupOf s o.group = some g) (counter : o.counter = some k) (hk : k < g.counters.length)
    (only : (counterOf g k).queue = [(id, false)]) (above : 0 < (counterOf g k).val)
    (nowhere : ∀ j, j ≠ k → ∀ x ∈ (counterOf g j).queue, x.1 ≠ id) :
    groupOf (opHappened s id) o.group = some (setCounter g k (lowered (counterOf g k) o.err)) ∧
    tfind (opHappened s id).ops id = none ∧ (opHappened s id).mem = s.mem := by
  have drained : drainQueue s (counterOf g k) ((counterOf g k).queue.map (fun q => if q.1 == id then (id, true) else q)) =
      lowered (counterOf g k) o.err := by
    rw [only]
    simp only [List.map_cons, List.map_nil, beq_self_eq_true, if_true, drainQueue, ho, Option.map_some, Option.getD_some,
      Counter.dec, if_neg (Nat.ne_of_gt above), lowered]
  have event : opHappened s id = pruneOps (setGroup s o.group (setCounter g k (lowered (counterOf g k) o.err))) o.group id := by
    unfold opHappened
    rw [ho]
    dsimp only
    rw [counter]
    dsimp only
    rw [modGroup_eq hg, drained]
  rw [event]
  refine ⟨groupOf_setGroup .., ?_, rfl⟩
  rw [tfind_eq_none_iff]
  intro x hx
  have kept := (List.mem_filter.mp hx).2
  rintro rfl
  rw [groupOf_setGroup] at kept
  simp only [bne_self_eq_false, Bool.false_and, Bool.false_or, List.any_eq_true, beq_iff_eq] at kept
  obtain ⟨c, hc, q, hq, same⟩ := kept
  obtain ⟨j, hj⟩ := List.mem_iff_getElem?.mp hc
  have there : counterOf (setCounter g k (lowered (counterOf g k) o.err)) j = c := by rw [counterOf, hj, Option.getD_some]
  rw [counterOf_setCounter hk] at there
  rw [← there] at hq
  split at hq
  · cases hq
  · next elsewhere => exact nowhere j elsewhere q hq same

theorem transmit_same {s : State} {p : Request → Bool} (clear : ∀ r ∈ s.requests, p r = false) : transmit s p = s := by
  have out : s.requests.filter (fun r => r.kind == 1 && r.peer.isNone && !r.sent && p r) = [] := by
    rw [List.filter_eq_nil_iff]
    intro r hr
    simp [clear r hr]
  have all : s.requests.filter (fun r => !(r.kind == 1 && r.peer.isNone && !r.sent && p r)) = s.requests := by
    rw [List.filter_eq_self]
    intro r hr
    simp [clear r hr]
  unfold transmit
  simp only [out, all, List.map_nil, List.append_nil, List.foldl_nil]

/-- What a counted load owes lands, and it owes nothing after that. -/
theorem landAll_lands {s : State} {id : Nat} {o : Op} {g : Group} (ho : tfind s.ops id = some o) (hg : groupOf s o.group = some g)
    (own : ∀ w ∈ o.owed, w.group = o.group ∧ w.lane ≤ 64)
    (apart : o.owed.Pairwise (fun x y => (x.lane, x.reg) ≠ (y.lane, y.reg))) :
    ∃ h, groupOf (landAll s id) o.group = some h ∧ h.counters = g.counters ∧ (landAll s id).mem = s.mem ∧
      tfind (landAll s id).ops id = some { o with owed := [] } ∧ Landed o.owed g h := by
  obtain ⟨h, lands, stands⟩ := foldl_landLate o.owed own apart hg
  refine ⟨h, ?_, lands.saves.counters, ?_, ?_, stands⟩
  · simp only [landAll, ho]
    exact lands.group
  · simp only [landAll, ho]
    exact lands.mem
  · simp only [landAll, ho, lands.ops, tmod, tfind_tput_same]

theorem execCountedLoadComplete_eq {s : State} {o : Op} {k : Nat} (ho : tfind s.ops s.input.key = some o) (load : o.load = true)
    (issued : o.issued = true) (waits : o.waits = 0) (counter : o.counter = some k) :
    exec .countedLoadComplete s = .next (opHappened (landAll s s.input.key) s.input.key) := by
  change execCountedLoadComplete s = _
  unfold execCountedLoadComplete
  dsimp only
  rw [ho]
  dsimp only
  rw [if_pos (by simp [load, issued, waits, counter])]

theorem execStorePerformed_eq {s : State} {o : Op} {k : Nat} (ho : tfind s.ops s.input.key = some o) (load : o.load = false)
    (issued : o.issued = true) (waits : o.waits = 0) (counter : o.counter = some k) (clear : ∀ r ∈ s.requests, r.group ≠ o.group) :
    exec .storePerformed s = .next (opHappened s s.input.key) := by
  change execStorePerformed s = _
  unfold execStorePerformed
  dsimp only
  rw [ho]
  dsimp only
  rw [if_neg (by simp [load, issued]), transmit_same (fun r hr => by simp [clear r hr]), ho]
  dsimp only
  rw [if_pos (by simp [waits, counter])]

/-! ### Allocation-deadlock, before it is over (R159) -/

theorem execAllocationDeadlock_fed {s : State} {q : Gang} (hq : gangOf s s.input.key = some q)
    (fed : gangStarved s s.input.key = false) :
    exec .allocationDeadlock s = .next (setGang s s.input.key { q with deadlock := none }) := by
  change execAllocationDeadlock s = _
  unfold execAllocationDeadlock
  dsimp only
  rw [hq]
  dsimp only
  rw [if_pos (by simp [fed])]

theorem execAllocationDeadlock_begins {s : State} {q : Gang} (hq : gangOf s s.input.key = some q)
    (starved : gangStarved s s.input.key = true) (unmarked : q.deadlock = none) :
    exec .allocationDeadlock s = .next (setGang s s.input.key { q with deadlock := some s.clock }) := by
  change execAllocationDeadlock s = _
  unfold execAllocationDeadlock
  dsimp only
  rw [hq]
  dsimp only
  rw [if_neg (by simp [starved]), unmarked]

theorem execAllocationDeadlock_early {s : State} {q : Gang} {c : Nat} (hq : gangOf s s.input.key = some q)
    (starved : gangStarved s s.input.key = true) (marked : q.deadlock = some c) (early : s.clock < c + 16384) :
    exec .allocationDeadlock s = .next s := by
  change execAllocationDeadlock s = _
  unfold execAllocationDeadlock
  dsimp only
  rw [hq]
  dsimp only
  rw [if_neg (by simp [starved]), marked]
  dsimp only
  rw [if_pos early]

/-- A counted load that has all its values completes. -/
theorem execCountedLoadComplete_completes {s : State} {o : Op} {g : Group} {k : Nat} (ho : tfind s.ops s.input.key = some o)
    (hg : groupOf s o.group = some g) (counter : o.counter = some k) (issued : o.issued = true) (waits : o.waits = 0)
    (hk : k < g.counters.length) (only : (counterOf g k).queue = [(s.input.key, false)]) (above : 0 < (counterOf g k).val)
    (nowhere : ∀ j, j ≠ k → ∀ x ∈ (counterOf g j).queue, x.1 ≠ s.input.key) (load : o.load = true)
    (own : ∀ w ∈ o.owed, w.group = o.group ∧ w.lane ≤ 64)
    (apart : o.owed.Pairwise (fun x y => (x.lane, x.reg) ≠ (y.lane, y.reg))) :
    ∃ t h, exec .countedLoadComplete s = .next t ∧
      groupOf t o.group = some (setCounter h k (lowered (counterOf g k) o.err)) ∧ tfind t.ops s.input.key = none ∧
      t.mem = s.mem ∧ h.counters = g.counters ∧ Landed o.owed g h := by
  obtain ⟨h, group, counters, mem, ops, stands⟩ := landAll_lands ho hg own apart
  have same : ∀ j, counterOf h j = counterOf g j := fun j => by rw [counterOf, counters]; rfl
  have happened := opHappened_lowers (o := { o with owed := [] }) ops group counter (by rw [counters]; exact hk)
    (by rw [same]; exact only) (by rw [same]; exact above) (fun j hj => by rw [same]; exact nowhere j hj)
  rw [same] at happened
  obtain ⟨after, gone, rest⟩ := happened
  exact ⟨_, h, execCountedLoadComplete_eq ho load issued waits counter, after, gone, rest.trans mem, counters, stands⟩

end Sys2Proof.Machine

namespace Sys2Proof

open Machine

/-- Settles O43: each clock's end by its equation above, a counted operation's by what its values and its counter become. -/
theorem clocksAndCountersMoveOn : Obligations.ClocksAndCountersMoveOn := by
  intro s
  refine ⟨?_, ?_, ?_, ?_, ?_, ?_, ?_⟩
  · intro g f hg hf
    refine ⟨fun least most sleeps => execSleepExpire_eq hg hf sleeps, execYieldExpire_eq hg hf, ?_, ?_, ?_⟩
    · intro timed free early
      rw [execHoldTimeout_eq hg hf timed free, if_pos early]
    · intro timed free ended s' ws held
      rw [execHoldTimeout_eq hg hf timed free, if_neg (by omega), held]
    · intro sva since waits
      refine ⟨fun early => ?_, fun ended going s' ws held => ?_⟩
      · rw [execScratchpadExhaustion_eq hg hf waits, if_pos early]
      · rw [execScratchpadExhaustion_eq hg hf waits, if_neg (by simp [going, ended]), held]
  · intro g hg
    refine ⟨⟨_, execSpinLowerExpire_eq hg, rfl, fun x hx => ⟨lapsed s.input.sub s.clock x, List.mem_map_of_mem hx,
      lapsed_keeps .., fun c here low ended => lapsed_ended here low ended, fun stays => lapsed_else stays⟩⟩, ?_⟩
    intro r hr
    refine ⟨execRendezvousBudgetExpire_early hg hr, fun q ended hq free gangFree running settled => ?_⟩
    obtain ⟨s', g', group, rdv, mem, eq⟩ := breakRendezvous_closes hg r
    have at_r : r.addr = s.input.sub := by simpa using List.find?_some hr
    refine ⟨s', g', group, fun x => at_r ▸ rdv x, mem, ?_⟩
    rw [execRendezvousBudgetExpire_over hg hq hr ended free gangFree running settled, eq]
  · intro q team hq ht
    refine ⟨fun c marked early => execUrgentRecompute_early hq ht marked early, fun due => ?_⟩
    obtain ⟨idle, choice⟩ := urgentGroup_least s s.input.key s.input.sub
    exact ⟨_, _, _, execUrgentRecompute_due hq ht due, tfind_tput_same .., rfl, fun unmarked => markedAt_none unmarked _,
      fun c marked => markedAt_some due marked, idle, choice⟩
  · intro q hq
    refine ⟨execAllocationDeadlock_fed hq, fun starved => ⟨execAllocationDeadlock_begins hq starved,
      fun c marked early => execAllocationDeadlock_early hq starved marked early, ?_⟩⟩
    intro c k g f n d words marked ended first leads waits
    obtain ⟨gang, mem, withdrawn⟩ := deadlockEnded_keeps s s.input.key q
    exact ⟨_, execAllocationDeadlock_ended hq starved marked ended first leads waits, gang, mem, withdrawn⟩
  · intro v hv
    refine ⟨execServiceTimeout_early hv, fun ended => ⟨?_, ?_, ?_, ?_⟩⟩
    · exact fun g q rung hg hq => execServiceTimeout_group hv ended rung hg hq
    · exact fun q ctx rung hq hctx => execServiceTimeout_gang hv ended rung hq hctx
    · exact fun q rung hq => execServiceTimeout_context hv ended rung hq
    · intro rung
      obtain ⟨gangs, ctxs, cores, warm⟩ := warmReset_resets (withoutService s s.input.key s.input.sub) 25 (s.input.sub % 256)
        (some (s.input.sub % 256)) (BitVec.ofNat 16 v.unit)
      refine ⟨_, execServiceTimeout_partition hv ended rung, gangs, ctxs, cores, ?_⟩
      rw [warm, Nat.mod_mod]
      rfl
  · intro v one
    rcases settleFirmware_one one with later | acts
    · exact .inl later
    · refine .inr fun part own => ⟨_, acts, ?_⟩
      obtain ⟨services, gangs, queues⟩ := partitionRung_stops
        { s with tick := s.tick + 1, services := s.services.filter (· != v) } (ctxPart s (v.key % 256))
      rw [← own]
      exact ⟨fun hv => by simpa using services v hv, gangs, queues⟩
  · intro o g k ho hg counter issued waits hk only above nowhere
    have others : ∀ (h : Group) j, h.counters = g.counters → j ≠ k →
        counterOf (setCounter h k (lowered (counterOf g k) o.err)) j = counterOf g j := fun h j same hj => by
      rw [counterOf_setCounter (by rw [same]; exact hk), if_neg hj, counterOf, same]
      rfl
    have itself : ∀ h : Group, h.counters = g.counters →
        counterOf (setCounter h k (lowered (counterOf g k) o.err)) k = lowered (counterOf g k) o.err := fun h same => by
      rw [counterOf_setCounter (by rw [same]; exact hk), if_pos rfl]
    refine ⟨fun load own apart => ?_, fun store clear => ?_⟩
    · obtain ⟨t, h, runs, group, gone, mem, counters, stands⟩ :=
        execCountedLoadComplete_completes ho hg counter issued waits hk only above nowhere load own apart
      exact ⟨t, _, runs, ⟨group, gone, itself h counters, fun j hj => others h j counters hj, mem⟩,
        stands.scalar, stands.vector, stands.vectorKept⟩
    · obtain ⟨group, gone, mem⟩ := opHappened_lowers ho hg counter hk only above nowhere
      exact ⟨_, _, execStorePerformed_eq ho store issued waits counter clear,
        ⟨group, gone, itself g rfl, fun j hj => others g j rfl hj, mem⟩, rfl⟩

end Sys2Proof


/-!
SUPPORT. Accesses to device memory that holds no error while every write has arrived (R292, R347): a fetch changes nothing, and what a
read changes is the draws, the list of the lines asked for, the replies' buffer, and the accesses noted of a thread.
-/
namespace Sys2Proof.Machine

open Sys2Proof

/-! ### Memory without errors -/

/-- Memory with no error, dead channel or moved frame, which every write has reached. -/
structure Quiet (s : State) : Prop where
  symErr : s.mem.symErr = []
  chans : s.mem.chans = []
  inter : s.mem.inter = []
  arrived : Arrived s

theorem fetchLines_quiet {s : State} (quiet : Quiet s) (die a n : Nat) : fetchLines s die a n = s := by
  have nothing : s.mem.fetch a n = (s.mem, []) := by simp [Mem.fetch, quiet.symErr, quiet.chans, quiet.inter]
  unfold fetchLines
  dsimp only
  rw [deliverFor_arrived quiet.arrived, nothing]
  rfl

theorem fetchGrain_quiet {s : State} (quiet : Quiet s) (die line : Nat) (need : List Nat) : fetchGrain s die line need = s := by
  have nothing : s.mem.fetchSectors line need = (s.mem, .sound) := by
    simp [Mem.fetchSectors, quiet.symErr, quiet.chans, quiet.inter]
  unfold fetchGrain
  dsimp only
  rw [deliverFor_arrived quiet.arrived, nothing]
  split <;> rfl

theorem storeLocal_quiet {s : State} (quiet : Quiet s) (w ma : Nat) (bs : List Byte) :
    storeLocal s w ma bs = { s with mem := s.mem.store w ma bs } := by
  unfold storeLocal
  simp only [fetchLines_quiet quiet, ite_self]

/-! ### What a read changes -/

/-- Nothing differs but draws, the lines asked for, the buffer, and the groups. -/
def ReadsOnly (s t : State) : Prop :=
  { t with tick := s.tick, fabric := { t.fabric with asked := s.fabric.asked }, buffer := s.buffer, groups := s.groups } = s

theorem ReadsOnly.refl (s : State) : ReadsOnly s s := rfl

theorem ReadsOnly.trans {s t r : State} (a : ReadsOnly s t) (b : ReadsOnly t r) : ReadsOnly s r := by
  unfold ReadsOnly at a b ⊢
  rw [← a, ← b]

theorem ReadsOnly.mem {s t : State} (h : ReadsOnly s t) : t.mem = s.mem := by
  have same := congrArg State.mem h
  exact same

theorem ReadsOnly.quiet {s t : State} (h : ReadsOnly s t) (quiet : Quiet s) : Quiet t := by
  have levant : t.packetsLv = s.packetsLv := by
    have same := congrArg State.packetsLv h
    exact same
  obtain ⟨symErr, chans, inter, arrived⟩ := quiet
  refine ⟨?_, ?_, ?_, ?_⟩
  · rw [h.mem, symErr]
  · rw [h.mem, chans]
  · rw [h.mem, inter]
  · unfold Arrived
    rw [levant]
    exact arrived

/-- The package that a read answers with. -/
theorem readsOnly_of_eq {α : Type} {s t : State} {p : State × α} {r : α} (h : p = (t, r)) (hp : ReadsOnly s p.1) : ReadsOnly s t := by
  subst h
  exact hp

theorem readsOnly_draw {α : Type} (s : State) (xs : List α) (x : α) : ReadsOnly s (draw s xs x).1 := by
  cases xs <;> rfl

theorem readsOnly_noteReads (s : State) (core addr n : Nat) : ReadsOnly s (noteReads s core addr n) :=
  foldl_keeps (ReadsOnly s) _ _ _ (.refl s) fun _ _ h => h.trans rfl

theorem readsOnly_modGroup (s : State) (k : Nat) (h : Group → Group) : ReadsOnly s (modGroup s k h) := by
  unfold modGroup
  split <;> rfl

theorem readsOnly_noteLoad (s : State) (k l : Nat) (loc : Loc) (off n : Nat) : ReadsOnly s (noteLoad s k l loc off n) :=
  readsOnly_modGroup ..

theorem readsOnly_noteThread (s : State) (w : Who) (ma n : Nat) : ReadsOnly s (noteThread s w ma n) := by
  unfold noteThread
  split
  · rfl
  · exact readsOnly_noteLoad ..

/-! ### Translation -/

theorem readsOnly_readTable {s : State} (quiet : Quiet s) (w : Who) (covers : Nat → Option Nat → Bool)
    (others : State → Nat → List Nat) (dpa n : Nat) : ReadsOnly s (readTable s w covers others dpa n).1 := by
  unfold readTable
  dsimp only
  split
  · rfl
  · split
    · rfl
    · rw [fetchLines_quiet quiet]
      split
      · exact readsOnly_noteReads ..
      · exact (readsOnly_noteReads ..).trans (readsOnly_draw ..)

theorem readsOnly_walkFrom (w : Who) (va level : Nat) {s : State} (quiet : Quiet s) (table : Nat) :
    ReadsOnly s (walkFrom w va level s table).1 := by
  induction level generalizing s table with
  | zero => rfl
  | succ level ih =>
    unfold walkFrom
    dsimp only
    split
    · next h => exact readsOnly_of_eq h (readsOnly_readTable quiet ..)
    · next t x h =>
      have read : ReadsOnly s t := readsOnly_of_eq h (readsOnly_readTable quiet ..)
      split
      · exact read
      · split
        · exact read
        · split
          · split
            · exact read
            · exact read.trans (ih (read.quiet quiet) _)
          · exact read

theorem readsOnly_walk {s : State} (quiet : Quiet s) (w : Who) (va : Nat) : ReadsOnly s (walk s w va).1 := by
  unfold walk
  split
  · next h => exact readsOnly_of_eq h (readsOnly_readTable quiet ..)
  · next t x h =>
    have read : ReadsOnly s t := readsOnly_of_eq h (readsOnly_readTable quiet ..)
    split
    · exact read
    · exact read.trans (readsOnly_walkFrom w va _ (read.quiet quiet) _)

theorem readsOnly_leafOf {s : State} (quiet : Quiet s) (w : Who) (k : Kind) (typed : Bool) (va : Nat) :
    ReadsOnly s (leafOf s w k typed va).1 := by
  unfold leafOf
  split
  · rfl
  · split
    · next h => exact readsOnly_of_eq h (readsOnly_walk quiet ..)
    · next h => split <;> exact readsOnly_of_eq h (readsOnly_walk quiet ..)

theorem readsOnly_translate {s : State} (quiet : Quiet s) (w : Who) (k : Kind) (typed : Bool) (va : Nat) :
    ReadsOnly s (translate s w k typed va).1 := by
  unfold translate
  split
  · next h => exact readsOnly_of_eq h (readsOnly_leafOf quiet ..)
  · next h => split <;> exact readsOnly_of_eq h (readsOnly_leafOf quiet ..)

/-! ### Loads of a thread and typed elements -/

theorem readsOnly_loadBytes {s : State} (quiet : Quiet s) (w : Who) (k : Kind) (va n : Nat) :
    ReadsOnly s (loadBytes s w k va n).1 := by
  unfold loadBytes
  split
  · next h => exact readsOnly_of_eq h (readsOnly_translate quiet ..)
  · next t e dpa ma h =>
    have read : ReadsOnly s t := readsOnly_of_eq h (readsOnly_translate quiet ..)
    dsimp only
    rw [fetchLines_quiet (read.quiet quiet)]
    have noted := (read.trans (readsOnly_noteReads t w.core ma n)).trans (readsOnly_noteThread _ w ma n)
    split
    · split <;> exact noted
    · split <;> exact noted
  · next h =>
    have read := readsOnly_of_eq h (readsOnly_translate quiet ..)
    split
    · exact read.trans rfl
    · exact read
  · next h =>
    have read := readsOnly_of_eq h (readsOnly_translate quiet ..)
    split
    · exact read.trans rfl
    · exact read

theorem readsOnly_readDescriptor {s : State} (quiet : Quiet s) (w : Who) (sci : Nat) : ReadsOnly s (readDescriptor s w sci).1 := by
  unfold readDescriptor readCtxWord
  split
  · next h => exact readsOnly_of_eq h (readsOnly_readTable quiet ..)
  · next t table h =>
    have read : ReadsOnly s t := readsOnly_of_eq h (readsOnly_readTable quiet ..)
    split
    · exact read
    · exact read.trans (readsOnly_readTable (read.quiet quiet) ..)

theorem unread_readDescriptor (s : State) (w : Who) (sci : Nat) : unread (readDescriptor s w sci).1 = unread s := by
  unfold readDescriptor readCtxWord
  split
  · next h => exact unread_of_eq h (unread_readTable ..)
  · next t table h =>
    have read : unread t = unread s := unread_of_eq h (unread_readTable ..)
    split
    · exact read
    · exact (unread_readTable ..).trans read

theorem elementScale_keeps {P : State → Prop} {t : State} {w : Who} (kept : P t)
    (load : ∀ va n, P (loadBytes t w .load va n).1) (k : Kind) (e : Dword) (f : Fmt) (va h desc : Nat) :
    P (elementScale t w k e f va h desc).1 := by
  unfold elementScale
  dsimp only
  split
  · exact kept
  · have loaded := load (scaleAddr desc (LeafGeom e) f va h).1 (if (scaleAddr desc (LeafGeom e) f va h).2 then 1 else 4)
    split
    · next failed => rw [failed] at loaded; exact loaded
    · next found => rw [found] at loaded; exact loaded

/-- What the reads of tables and the load of the scale keep, a typed element's access keeps. -/
theorem elementAt_keeps {P : State → Prop} {s : State} {w : Who} (k : Kind) (nib : Bool) (addr : Nat)
    (leaf : ∀ va, P (leafOf s w k true va).1) (descriptor : ∀ t sci, P t → P (readDescriptor t w sci).1)
    (load : ∀ t va n, P t → P (loadBytes t w .load va n).1) : P (elementAt s w k nib addr).1 := by
  unfold elementAt
  dsimp only
  generalize (if nib = true then addr / 2 else addr) = va
  generalize (if nib = true then addr % 2 else 0) = h
  have read := leaf va
  split
  · next failed => rw [failed] at read; exact read
  · next t e found =>
    rw [found] at read
    cases fmtOfCode (LeafFmt e) with
    | none => exact read
    | some f =>
      dsimp only
      generalize ((f.bits == 4) != nib || va % ((f.bits + 7) / 8) != 0) = refused
      cases refused with
      | true => exact read
      | false =>
        rw [if_neg Bool.false_ne_true]
        have described : P (if LeafGeom e = 0 then (t, Except.ok 0) else readDescriptor t w (LeafSci e)).1 := by
          split
          · exact read
          · exact descriptor t _ read
        split
        · next failed => rw [failed] at described; exact described
        · next t' desc given =>
          rw [given] at described
          generalize (LeafGeom e != 0 && !descriptorOk desc va) = unfit
          cases unfit with
          | true => exact described
          | false =>
            rw [if_neg Bool.false_ne_true]
            split
            · exact described
            · have scaled := elementScale_keeps described (fun va n => load t' va n described) k e f va h desc
              split
              · next failed => rw [failed] at scaled; exact scaled
              · next scale => rw [scale] at scaled; exact scaled
            · exact described

theorem readsOnly_elementAt {s : State} (quiet : Quiet s) (w : Who) (k : Kind) (nib : Bool) (addr : Nat) :
    ReadsOnly s (elementAt s w k nib addr).1 :=
  elementAt_keeps (P := ReadsOnly s) k nib addr (readsOnly_leafOf quiet w k true)
    (fun _ sci read => read.trans (readsOnly_readDescriptor (read.quiet quiet) w sci))
    (fun _ va n read => read.trans (readsOnly_loadBytes (read.quiet quiet) w .load va n))

/-- A thread's typed access only notes its loads in its group. -/
theorem noted_elementAt {s : State} {key : Nat} {g : Group} (hs : Noted s key g) {w : Who}
    (hw : ∀ k ln, w.thread = some (k, ln) → k = key) (k : Kind) (nib : Bool) (addr : Nat) :
    Noted (elementAt s w k nib addr).1 key g :=
  elementAt_keeps (P := fun t => Noted t key g) k nib addr (fun _ => noted_of_unread (unread_leafOf ..) hs)
    (fun _ sci noted => noted_of_unread (unread_readDescriptor _ w sci) noted)
    (fun _ va n noted => noted_loadBytes noted hw .load va n)

/-! ### The package between the lanes of a word -/

/-- A group's entry is where a write of it would put it. -/
def Placed (s : State) (key : Nat) : Prop := ∀ g, groupOf s key = some g → setGroup s key g = s

theorem groupOf_of_groups {s t : State} (same : t.groups = s.groups) (key : Nat) : groupOf t key = groupOf s key := by
  rw [groupOf, same, groupOf]

theorem placed_setGroup (s : State) (key : Nat) (g : Group) : Placed (setGroup s key g) key := by
  intro g' here
  rw [groupOf_setGroup] at here
  cases here
  exact setGroup_setGroup ..

/-- The package as lanes' accesses have left it: memory is quiet, and the word's group is as given but for its threads' accesses and
draws. -/
structure Going (s : State) (key : Nat) (g : Group) (t : State) : Prop where
  others : { t with tick := s.tick, fabric := { t.fabric with asked := s.fabric.asked }, buffer := s.buffer,
                    groups := s.groups, mem := s.mem } = s
  quiet : Quiet t
  clean : t.mem.poison = []
  hot : t.mem.hot = s.mem.hot
  group : ∃ a r, groupOf t key = some { g with anchors := a, rng := r }

section
variable {s t : State} {key : Nat} {g : Group} (h : Going s key g t)
include h

theorem Going.ops : t.ops = s.ops := by
  have same := congrArg State.ops h.others
  exact same

theorem Going.requests : t.requests = s.requests := by
  have same := congrArg State.requests h.others
  exact same

theorem Going.places : t.places = s.places := by
  have same := congrArg State.places h.others
  exact same

theorem Going.cores : t.cores = s.cores := by
  have same := congrArg State.cores h.others
  exact same

theorem Going.captureMode_eq (g' : Group) : captureMode t g' = captureMode s g' := by
  have gangs := congrArg State.gangs h.others
  have launches := congrArg State.launches h.others
  have ctxs := congrArg State.ctxs h.others
  dsimp only at gangs launches ctxs
  unfold captureMode launchOfGroup gangOf launchOf ctxOf
  rw [gangs, launches, ctxs]

theorem Going.reads {r : State} (read : ReadsOnly t r) (noted : ∀ g, Noted t key g → Noted r key g) : Going s key g r := by
  obtain ⟨others, quiet, clean, hot, a, rng, group⟩ := h
  obtain ⟨b, after⟩ := noted { g with rng := rng } ⟨a, group⟩
  refine ⟨?_, read.quiet quiet, read.mem ▸ clean, read.mem ▸ hot, b, rng, after⟩
  rw [← others, ← read]

theorem Going.translate {w : Who} {k : Kind} {typed : Bool} {va : Nat} {r : State} {x : XResult (Dword × Dest)}
    (e : Machine.translate t w k typed va = (r, x)) : Going s key g r :=
  h.reads (readsOnly_of_eq e (readsOnly_translate h.quiet ..)) fun _ noted => noted_of_unread (unread_of_translate e) noted

theorem Going.elementAt {w : Who} (hw : ∀ k ln, w.thread = some (k, ln) → k = key) {k : Kind} {nib : Bool} {addr : Nat} {r : State}
    {x : TypedResult Element} (e : Machine.elementAt t w k nib addr = (r, x)) : Going s key g r := by
  refine h.reads (readsOnly_of_eq e (readsOnly_elementAt h.quiet ..)) fun g noted => ?_
  have after := noted_elementAt noted hw k nib addr
  rw [e] at after
  exact after

/-- A group's threads note accesses, or draw. -/
theorem Going.modGroup {f : Group → Group} (keeps : ∀ g', ∃ a r, f g' = { g' with anchors := a, rng := r }) :
    Going s key g (modGroup t key f) := by
  obtain ⟨others, quiet, clean, hot, a, r, group⟩ := h
  rw [modGroup_eq group]
  obtain ⟨b, q, same⟩ := keeps { g with anchors := a, rng := r }
  exact ⟨others, ⟨quiet.symErr, quiet.chans, quiet.inter, quiet.arrived⟩, clean, hot, b, q, by rw [groupOf_setGroup, same]⟩

theorem Going.noteLoad (l : Nat) (loc : Loc) (off n : Nat) : Going s key g (noteLoad t key l loc off n) :=
  h.modGroup fun g' => ⟨_, g'.rng, rfl⟩

theorem Going.noteAcquire (l : Nat) : Going s key g (noteAcquire t key l) :=
  h.modGroup fun g' => ⟨_, g'.rng, rfl⟩

theorem Going.noteWrite (l : Nat) : Going s key g (noteWrite t key l) :=
  h.modGroup fun g' => ⟨_, g'.rng, rfl⟩

/-- The group's entry is where its next change puts it. -/
theorem Going.placed (f : Group → Group) : Placed (Machine.modGroup t key f) key := by
  obtain ⟨a, r, group⟩ := h.group
  rw [modGroup_eq group]
  exact placed_setGroup _ _ _

end

/-! ### What a lane's access meets there -/

/-- What the accesses of a word's lanes find throughout: no engine write on its way, no frame tracked, and neither capture nor replay. -/
structure Unhindered (s : State) (g : Group) (part : Nat) : Prop where
  places : s.places = []
  tracked : (hotOf s.mem part).en = false
  plain : captureMode s g = 0

section
variable {s t : State} {key part : Nat} {g : Group} (free : Unhindered s g part) (h : Going s key g t)
include free h

theorem noteFrame_going (dpa : Nat) (sure : Bool) : noteFrame t part dpa sure = t := by
  have tracked : (hotOf t.mem part).en = false := by
    rw [hotOf, h.hot]
    exact free.tracked
  simp [noteFrame, tracked]

theorem coveredBytes_going (ln : Nat) (loc : Loc) (off n : Nat) : coveredBytes t key ln loc off n = none := by
  simp [coveredBytes, coveredUnit, h.places, free.places]

theorem placeCovered_going (ln : Nat) (loc : Loc) : placeCovered t key ln loc = t := by
  simp [placeCovered, h.places, free.places]

theorem captured_going (ln : Nat) (on : Bool) (kind : Captured) (size : Nat)
    (k : State → State × Except (AccessOutcome × Nat) Nat) : captured t key ln on kind size k = k t := by
  obtain ⟨a, r, group⟩ := h.group
  have mode : captureMode t { g with anchors := a, rng := r } = 0 := by
    rw [h.captureMode_eq]
    exact free.plain
  unfold captured
  rw [group]
  simp only [mode, ite_self]

end

theorem marked_clean {m : Mem} (clean : m.poison = []) (a n : Nat) : m.marked a n = false := by simp [Mem.marked, clean]

theorem fetchFor_quiet {s : State} (quiet : Quiet s) (die va ma : Nat) (runs : List (Nat × Nat)) : fetchFor s die va ma runs = s :=
  fetchGrain_quiet quiet ..

/-- A sign-extended value, as the register takes it (R311). -/
theorem loadValue_eq (sgn : Bool) (n x : Nat) : loadValue sgn n x = extendLoad sgn n x := by
  unfold loadValue extendLoad
  cases sgn with
  | false => rfl
  | true =>
    have value : signed (8 * n) x = (BitVec.ofNat (8 * n) x).toInt := by
      rw [← signed_toNat, BitVec.toNat_ofNat]
      unfold signed
      simp only [Nat.mod_mod]
    rw [if_pos rfl, if_pos rfl, value, BitVec.signExtend, BitVec.toNat_ofInt]
    rfl

/-! ### Aux bits -/

theorem auxRegs_eq (p : Option Pfx) : auxRegs p = sizeSel p := by
  unfold auxRegs sizeSel auxOf
  rw [BitVec.extractLsb'_toNat, Nat.shiftRight_zero, Nat.mod_mod_of_dvd _ (by decide)]

theorem bit_auxOf (p : Option Pfx) : bit (auxOf p) 0 = (pfxGet p).aux.getLsbD 0 := by
  unfold bit auxOf BitVec.getLsbD Nat.testBit
  rw [Nat.pow_zero, Nat.div_one, Nat.mod_mod_of_dvd _ (by decide), Nat.shiftRight_zero, Nat.land_comm, Nat.and_one_is_mod]
  cases Nat.mod_two_eq_zero_or_one (pfxGet p).aux.toNat with
  | inl e => rw [e]; rfl
  | inr e => rw [e]; rfl

/-! ### Loads of lanes -/

/-- A lane of a load that reaches device memory gives the bytes there, and notes its access. -/
theorem loadLane_reaches {s t r : State} {u : Issue} {w : Who} (free : Unhindered s u.g w.part) {g : Group} (same : g.gang = u.g.gang)
    (h : Going s u.key g t) {va dpa ma : Nat} {e : Dword} (found : translate t w .load false va = (r, .ok (e, .dev dpa ma)))
    (d : Opnd) (regs n : Nat) (sgn acq : Bool) (runs : List (Nat × Nat)) (id first l : Nat) :
    loadLane u w d regs n sgn acq runs va id first t l =
      (noteLoad (if acq then noteAcquire r u.key l else r) u.key l (.ma (16 * (ma / 16))) (ma % 16) n,
        .ok ⟨some (extendLoad sgn n (leNat ((List.range n).map (fun i => r.mem.byte (ma + i))))), false, bytesFrom va n⟩) ∧
    Going s u.key g (noteLoad (if acq then noteAcquire r u.key l else r) u.key l (.ma (16 * (ma / 16))) (ma % 16) n) := by
  have plain : Unhindered s g w.part := ⟨free.places, free.tracked, by
    rw [← free.plain]
    unfold captureMode launchOfGroup
    rw [same]⟩
  have there := h.translate found
  have acquired : Going s u.key g (if acq then noteAcquire r u.key l else r) := by
    split
    · exact there.noteAcquire l
    · exact there
  have after := acquired.noteLoad l (.ma (16 * (ma / 16))) (ma % 16) n
  have bytes : (noteLoad (if acq then noteAcquire r u.key l else r) u.key l (.ma (16 * (ma / 16))) (ma % 16) n).mem = r.mem := by
    rw [(readsOnly_noteLoad ..).mem]
    split
    · exact (readsOnly_modGroup ..).mem
    · rfl
  refine ⟨?_, after⟩
  unfold loadLane
  rw [found]
  dsimp only
  rw [captured_going plain after, noteFrame_going plain after, fetchFor_quiet after.quiet, coveredBytes_going plain after]
  dsimp only
  rw [marked_clean after.clean, if_neg Bool.false_ne_true, Mem.bytesAt, bytes]
  dsimp only
  rw [loadValue_eq]

theorem Going.whoGroup_eq {s t : State} {key : Nat} {g : Group} (h : Going s key g t) (k : Nat) (g' : Group) :
    whoGroup t k g' = whoGroup s k g' := by
  have gangs := congrArg State.gangs h.others
  have launches := congrArg State.launches h.others
  dsimp only at gangs launches
  unfold whoGroup launchOfGroup gangOf launchOf
  rw [gangs, launches]

/-- The lanes of a load that reach device memory are all performed. -/
theorem runLanes_loads {s : State} {u : Issue} {w : Who} (who : whoGroup s u.key u.g = w) (free : Unhindered s u.g w.part)
    {g : Group} (same : g.gang = u.g.gang)
    {n : Nat} {acq : Bool} {va x : Nat → Nat} (d : Opnd) (regs : Nat) (sgn : Bool) (runs : Nat → List (Nat × Nat)) (id first : Nat)
    (ls : List Nat) {t s' : State} (h : Going s u.key g t) (found : LoadsFind u w n acq va x t ls s') :
    runLanes (fun t l => loadLane u (whoGroup t u.key u.g) d regs n sgn acq (runs l) (va l) id first t l) t ls =
      (s', ls.map (fun l => (l, ⟨some (extendLoad sgn n (x l)), false, bytesFrom (va l) n⟩)), none) ∧
    Going s u.key g s' ∧ (Placed t u.key → Placed s' u.key) := by
  induction ls generalizing t with
  | nil =>
    cases found
    exact ⟨rfl, h, fun placed => placed⟩
  | cons l ls ih =>
    obtain ⟨r, e, dpa, ma, reaches, value, rest⟩ := found
    obtain ⟨lane, after⟩ := loadLane_reaches free same h reaches d regs n sgn acq (runs l) id first l
    obtain ⟨run, going, placed⟩ := ih after rest
    refine ⟨?_, going, fun _ => placed ?_⟩
    · rw [runLanes, h.whoGroup_eq, who, lane]
      dsimp only
      rw [run, List.map_cons, value]
    · have there := h.translate reaches
      split
      · exact (there.noteAcquire l).placed _
      · exact there.placed _

/-! ### Typed loads of lanes -/

theorem pattern_eq (x : Element) (v : Nat) : x.pattern v = if x.fmt.bits = 4 then v / 16 ^ x.h % 16 else v := by
  simp only [Element.pattern, bits, Nat.pow_mul, show (2 : Nat) ^ 4 = 16 from rfl]

/-- A lane of LDE that finds its element gives its value, notes its access and draws. -/
theorem ldeLane_finds {s t r : State} {u : Issue} {p : Option Pfx} {a : Opnd} {w : Who} (who : whoGroup s u.key u.g = w)
    (free : Unhindered s u.g w.part) {g : Group} (same : g.gang = u.g.gang) (h : Going s u.key g t)
    {x : Nat → Element} {l : Nat}
    (found : elementAt t (w.ofThread u.key l) .load ((pfxGet p).aux.getLsbD 0) (addrOf u a 0 1 l) = (r, .ok (x l)))
    (memory : t.mem = s.mem) :
    ldeLane u p a t l = (elementLoaded u p x r l, .ok ⟨some (elementValue s u p x l), false, bytesFrom (x l).va (x l).size⟩) ∧
    Going s u.key g (elementLoaded u p x r l) ∧ (elementLoaded u p x r l).mem = s.mem ∧ Placed (elementLoaded u p x r l) u.key := by
  have plain : Unhindered s g w.part := ⟨free.places, free.tracked, by
    rw [← free.plain]
    unfold captureMode launchOfGroup
    rw [same]⟩
  have there : Going s u.key g r := h.elementAt (by rintro k ln ⟨⟩; rfl) found
  have read : r.mem = s.mem := (readsOnly_of_eq found (readsOnly_elementAt h.quiet ..)).mem.trans memory
  have after := there.noteLoad l (.ma (16 * ((x l).ma / 16))) ((x l).ma % 16) (x l).size
  have bytes : (noteLoad r u.key l (.ma (16 * ((x l).ma / 16))) ((x l).ma % 16) (x l).size).mem = s.mem :=
    (readsOnly_noteLoad ..).mem.trans read
  refine ⟨?_, after.modGroup fun g' => ⟨g'.anchors, _, rfl⟩, (readsOnly_modGroup ..).mem.trans bytes, after.placed _⟩
  have address : (val64 u.g a l).toNat = addrOf u a 0 1 l := by simp [addrOf]
  unfold ldeLane
  dsimp only
  rw [h.whoGroup_eq, who, bit_auxOf, address, found]
  dsimp only
  rw [captured_going plain after]
  rw [noteFrame_going (part := (w.ofThread u.key l).part) plain after, fetchFor_quiet after.quiet,
    coveredBytes_going plain after]
  dsimp only
  rw [marked_clean after.clean, if_neg Bool.false_ne_true, Mem.bytesAt, bytes, pattern_eq]
  rfl

/-- The lanes of LDE that find their elements are all performed. -/
theorem runLanes_elements {s : State} {u : Issue} {p : Option Pfx} {a : Opnd} {w : Who} (who : whoGroup s u.key u.g = w)
    (free : Unhindered s u.g w.part) {g : Group} (same : g.gang = u.g.gang) {x : Nat → Element}
    (ls : List Nat) {t s' : State} (h : Going s u.key g t) (memory : t.mem = s.mem)
    (found : ElementsFound u w .load ((pfxGet p).aux.getLsbD 0) (addrOf u a 0 1) x (elementLoaded u p x) t ls s') :
    runLanes (ldeLane u p a) t ls =
      (s', ls.map (fun l => (l, ⟨some (elementValue s u p x l), false, bytesFrom (x l).va (x l).size⟩)), none) ∧
    Going s u.key g s' ∧ (Placed t u.key → Placed s' u.key) := by
  induction ls generalizing t with
  | nil =>
    cases found
    exact ⟨rfl, h, fun placed => placed⟩
  | cons l ls ih =>
    obtain ⟨r, reaches, rest⟩ := found
    obtain ⟨lane, after, kept, there⟩ := ldeLane_finds who free same h reaches memory
    obtain ⟨run, going, placed⟩ := ih after kept rest
    refine ⟨?_, going, fun _ => placed there⟩
    rw [runLanes, lane]
    dsimp only
    rw [run, List.map_cons]

/-! ### A counted operation begins (R25) -/

/-- The group once an operation has been counted. -/
def countedGroup (u : Issue) (c id : Nat) : Group :=
  setCounter u.g c { counterOf u.g c with
    val := (counterOf u.g c).val + 1
    queue := (counterOf u.g c).queue ++ [(id, false)]
    recent := (id :: (counterOf u.g c).recent).take 255 }

/-- A load's operation as it begins. -/
def begun (key : Nat) (c : Option Nat) (load : Bool) : Op := ⟨key, c, load, [], 0, false, false, false, false⟩

theorem counted_some {s : State} {u : Issue} (hg : groupOf s u.key = some u.g) (c : Nat) (load : Bool) :
    counted s u (some c) load = setGroup { s with nextOp := s.nextOp + 1, ops := tput s.ops s.nextOp (begun u.key (some c) load) }
      u.key (countedGroup u c s.nextOp) := by
  unfold counted countOp
  dsimp only
  refine (modGroup_eq (g := u.g) ?_ _).trans rfl
  exact hg

/-- An operation takes the next number. -/
theorem countOp_id (s : State) (key : Nat) (c : Option Nat) (load : Bool) (waits : Nat) (owed : List Owed) :
    (countOp s key c load waits owed).2 = s.nextOp := by
  cases c <;> rfl

/-- The package with an operation as given. -/
def putOp (s : State) (id : Nat) (o : Op) : State := { s with ops := tput s.ops id o }

theorem modOp_eq {s : State} {id : Nat} {o : Op} (h : tfind s.ops id = some o) (f : Op → Op) :
    { s with ops := tmod s.ops id f } = putOp s id (f o) := by
  simp only [tmod, h]
  rfl

@[simp] theorem tfind_putOp (s : State) (id : Nat) (o : Op) : tfind (putOp s id o).ops id = some o := tfind_tput_same ..

@[simp] theorem putOp_putOp (s : State) (id : Nat) (o o' : Op) : putOp (putOp s id o) id o' = putOp s id o' := by
  simp only [putOp, tput_tput]

/-! ### The word of a load (R25, R311) -/

/-- What a load's word tells the spin detection of its group. -/
theorem noteSeen_told {s : State} {u : Issue} (placed : Placed s u.key) (d : Opnd) (ln pc : Nat) (vs : List (Nat × Dword)) :
    Told u d s (if isScalar d then noteSeen s u.key ln pc vs else s) := by
  by_cases scalar : 192 ≤ d.toNat
  · rw [if_pos (show isScalar d = true from by simpa [isScalar] using scalar)]
    unfold Told
    simp only [if_pos scalar]
    cases here : groupOf s u.key with
    | none => exact ⟨[], by rw [noteSeen, here, modGroup, here]⟩
    | some g =>
      simp only [modGroup_eq here]
      unfold noteSeen
      rw [here]
      dsimp only
      split
      · exact ⟨g.spins, (placed g here).symm⟩
      · exact ⟨_, rfl⟩
  · rw [if_neg (show ¬ isScalar d = true from by simpa [isScalar] using scalar)]
    exact ⟨[], by rw [if_neg scalar]⟩

/-- Nothing but groups and operations has changed, and the group only in its spins, where the detection has been told. -/
theorem told_keeps {u : Issue} {d : Opnd} {s t : State} (told : Told u d s t) :
    { t with groups := s.groups } = s ∧ ∀ g, groupOf s u.key = some g → ∃ xs, groupOf t u.key = some { g with spins := xs } := by
  obtain ⟨xs, rfl⟩ := told
  split
  · refine ⟨?_, fun g here => ⟨xs, ?_⟩⟩
    · unfold modGroup
      split <;> rfl
    · rw [modGroup_eq here, groupOf_setGroup]
  · exact ⟨rfl, fun g here => ⟨g.spins, here⟩⟩

/-- No comparator of the core watches data: no report is made. -/
theorem watch_off {s : State} {u : Issue} (off : (coreOf s (u.key / 128)).data.filter (fun c => c.2.en) = []) (kind : Nat)
    (rs : List (Nat × LaneRes)) : watch s u kind rs = s := by
  unfold watch
  dsimp only
  rw [if_pos]
  rw [show coreOfKey u.key = u.key / 128 from rfl, off]
  rfl

/-- The register writes that a word owes once its lanes have been performed: zeros under z, and the lanes' values. -/
def owedBy (u : Issue) (k : LaneWord) (first : Nat) (rs : List (Nat × LaneRes)) : List Owed :=
  zeroedLanes u k ++ if k.load then rs.flatMap (fun x => match x.2.value with
    | none => []
    | some v => owedOf u.key k.d k.n first x.1 v) else []

/-- The spin detection of the group is told what a scalar is to take (R61). -/
def spinsTold (s : State) (u : Issue) (k : LaneWord) (rs : List (Nat × LaneRes)) : State :=
  if k.load && isScalar k.d then noteSeen s u.key (lowest u.f.lanes) u.f.pc
    (rs.filterMap (fun x => x.2.value.map (fun v => (x.1, BitVec.ofNat 64 v)))) else s

/-- An operation of a word that acquires does. -/
def acquires (s : State) (k : LaneWord) (id : Nat) : State :=
  if k.acquire then { s with ops := tmod s.ops id (fun o => { o with acquire := true }) } else s

/-- What the lanes that a word has performed leave of the package: a comparator's report, the spin detection told, the registers given
or owed, the parts that are still to happen, and whether they acquire. -/
def afterLanes (s : State) (u : Issue) (k : LaneWord) (id first : Nat) (rs : List (Nat × LaneRes)) : State :=
  let t := spinsTold (watch s u k.kind rs) u k rs
  acquires (addWaits (giveOwed t id (k.counter.isSome || peerOpen t id) (owedBy u k first rs)) id (rs.filter (fun x => x.2.sent)).length)
    k id

section
variable {s s' : State} {u : Issue} {k : LaneWord} {f : Nat → Nat → State → Nat → LaneOut} (act : execLanes u k.p ≠ 0)
  (noOp : u.f.op = none) (room : counterFull u.g k.counter = none) {rs : List (Nat × LaneRes)}
include act noOp room

/-- A word that issues for the first time, and all of whose lanes are performed. -/
theorem laneWord_done (whole : s.cut = none)
    (run : runLanes (f s.nextOp (scalarLane u k.p)) (counted s u k.counter k.load) (lanesOf (accessLanes u k)) = (s', rs, none)) :
    laneWord s u k f = .next (endLanes (afterLanes s' u k s.nextOp (scalarLane u k.p) rs) u k s.nextOp) := by
  have all : splitLanes s k (lanesOf (accessLanes u k)) = (lanesOf (accessLanes u k), none) := by rw [splitLanes, whole]
  unfold laneWord
  rw [if_neg act, noOp, room]
  dsimp only
  rw [countOp_id, show (countOp s u.key k.counter k.load 0 []).1 = counted s u k.counter k.load from rfl, all]
  dsimp only
  rw [run]
  rfl

/-- A word that issues for the first time, and one of whose lanes fails, with nothing of a lower lane still to be answered. -/
theorem laneWord_fails {l va : Nat} {o : AccessOutcome}
    (run : runLanes (f s.nextOp (scalarLane u k.p)) (counted s u k.counter k.load) (splitLanes s k (lanesOf (accessLanes u k))).1 =
      (s', rs, some (l, o, va)))
    (closed : lowerOpen (afterLanes s' u k s.nextOp (scalarLane u k.p) rs) k s.nextOp = false) :
    laneWord s u k f = .next (takeOutcome (afterLanes s' u k s.nextOp (scalarLane u k.p) rs) u.key u.f.lanes u.words.length o va l l
      (scalarLane u k.p) (some s.nextOp)) := by
  unfold laneWord
  rw [if_neg act, noOp, room]
  dsimp only
  rw [countOp_id, show (countOp s u.key k.counter k.load 0 []).1 = counted s u k.counter k.load from rfl, run]
  have answered : ¬ lowerOpen (afterLanes s' u k s.nextOp (scalarLane u k.p) rs) k s.nextOp = true := by
    rw [closed]
    exact Bool.false_ne_true
  exact if_neg answered

end

/-- No request belongs to an operation. -/
def Unasked (s : State) (id : Nat) : Prop := ∀ r ∈ s.requests, r.op ≠ some id

/-- No peer has been asked anything for an operation that no request belongs to. -/
theorem peerOpen_unasked {s : State} {id : Nat} (mine : Unasked s id) : peerOpen s id = false := by
  unfold peerOpen
  rw [List.any_eq_false]
  intro r hr
  simp [mine r hr]

theorem goesOn_unasked {s : State} {id : Nat} (mine : Unasked s id) (k : LaneWord) :
    goesOn s k id = (s, k.counter.isSome && !k.acquire) := by
  simp [goesOn, peerOpen_unasked mine]

theorem giveOwed_counted {s : State} {id : Nat} {o : Op} (ops : tfind s.ops id = some o) (xs : List Owed) :
    giveOwed s id true xs = putOp s id { o with owed := o.owed ++ xs } := modOp_eq ops _

theorem addWaits_eq {s : State} {id : Nat} {o : Op} (ops : tfind s.ops id = some o) (n : Nat) :
    addWaits s id n = putOp s id { o with waits := o.waits + n } := modOp_eq ops _

theorem acquires_putOp (s : State) (id : Nat) (o : Op) (k : LaneWord) :
    acquires (putOp s id o) k id = putOp s id { o with acquire := k.acquire || o.acquire } := by
  unfold acquires
  cases k.acquire with
  | true => rw [if_pos rfl, modOp_eq (tfind_putOp ..), putOp_putOp, Bool.true_or]
  | false => rfl

/-- An operation with nothing to wait for is issued, and its fragment passes on: its counter counts it. -/
theorem endLanes_counted {s : State} {u : Issue} {k : LaneWord} {id c : Nat} {o : Op} (ops : tfind s.ops id = some o)
    (waits : o.waits = 0) (counter : k.counter = some c) (mine : Unasked s id) :
    endLanes s u k id = finish (putOp s id { o with issued := true }) u := by
  unfold endLanes
  rw [modOp_eq ops]
  dsimp only
  rw [goesOn_unasked (s := putOp s id _) mine, tfind_putOp, counter, Option.map_some, Option.getD_some]
  dsimp only
  rw [waits]
  rfl

theorem finish_putOp (s : State) (u : Issue) (id : Nat) (o : Op) : finish (putOp s id o) u = putOp (finish s u) id o := by
  unfold finish
  change (match groupOf s u.key with | none => _ | some g => _) = _
  cases groupOf s u.key <;> rfl

theorem finish_only (s : State) (u : Issue) : { finish s u with groups := s.groups } = s := by
  unfold finish
  cases groupOf s u.key <;> rfl

theorem onlyGroupsAndOps_finish {s t : State} (only : { t with groups := s.groups } = s) (u : Issue) (id : Nat) (o : Op) :
    OnlyGroupsAndOps s (putOp (finish t u) id o) := by
  calc { putOp (finish t u) id o with groups := s.groups, ops := s.ops }
    _ = { { finish t u with groups := t.groups } with groups := s.groups, ops := s.ops } := rfl
    _ = { { t with groups := s.groups } with ops := s.ops } := by rw [finish_only]
    _ = s := by rw [only]

/-- A load on a counter that has room, all of whose lanes have been performed, owes its registers and passes. -/
theorem laneWord_owes {s s' : State} {u : Issue} (fresh : Fresh u) (whole : s.cut = none) (alone : Unasked s s.nextOp)
    {k : LaneWord} {c : Nat} (load : k.load = true) (counter : k.counter = some c)
    (room : (counterOf u.g c).val < 255) (act : execLanes u k.p ≠ 0) {f : Nat → Nat → State → Nat → LaneOut}
    {rs : List (Nat × LaneRes)}
    (run : runLanes (f s.nextOp (lowest (execLanes u k.p))) (counted s u (some c) true) (lanesOf (accessLanes u k)) = (s', rs, none))
    (here : ∀ x ∈ rs, x.2.sent = false)
    (off : (coreOf s' (u.key / 128)).data.filter (fun c => c.2.en) = []) (placed : Placed s' u.key)
    (ops : tfind s'.ops s.nextOp = some (begun u.key (some c) true)) (requests : s'.requests = s.requests) :
    ∃ t s'', laneWord s u k f = .next t ∧ Told u k.d s' s'' ∧ t.groups = (finish s'' u).groups ∧ OnlyGroupsAndOps s' t ∧
      tfind t.ops s.nextOp =
        some ⟨u.key, some c, true, owedBy u k (lowest (execLanes u k.p)) rs, 0, true, false, k.acquire, false⟩ := by
  obtain ⟨resumed, noOp, -⟩ := fresh
  have first : scalarLane u k.p = lowest (execLanes u k.p) := by simp [scalarLane, Frag.fresh, resumed]
  have notFull : counterFull u.g k.counter = none := by
    rw [counter, counterFull, if_neg (by omega)]
  have none_sent : rs.filter (fun x => x.2.sent) = [] := by
    rw [List.filter_eq_nil_iff]
    intro x hx
    simp [here x hx]
  have told : Told u k.d s' (spinsTold s' u k rs) := by
    unfold spinsTold
    rw [load, Bool.true_and]
    exact noteSeen_told placed ..
  rw [laneWord_done act noOp notFull whole (by rw [first, counter, load]; exact run), first]
  unfold afterLanes
  rw [watch_off off]
  generalize spinsTold s' u k rs = s'' at told ⊢
  obtain ⟨only, -⟩ := told_keeps told
  have ops' : tfind s''.ops s.nextOp = some (begun u.key (some c) true) := by
    have same := congrArg State.ops only
    dsimp only at same
    rw [same, ops]
  have mine : Unasked s'' s.nextOp := by
    have same := congrArg State.requests only
    dsimp only at same
    unfold Unasked
    rw [same, requests]
    exact alone
  dsimp only
  rw [counter, Option.isSome_some, Bool.true_or, giveOwed_counted ops', none_sent, addWaits_eq (tfind_putOp ..), putOp_putOp,
    acquires_putOp, endLanes_counted (tfind_putOp ..) rfl counter mine, putOp_putOp, finish_putOp]
  refine ⟨_, s'', rfl, told, rfl, ?_, ?_⟩
  · exact onlyGroupsAndOps_finish only ..
  · rw [tfind_putOp]
    simp only [begun, List.nil_append, Bool.or_false]
    rfl

/-! ### Where a memory word begins -/

/-- The word's group once its operation has been counted, if its clause counts it. -/
def groupCounted (u : Issue) (c : Option Nat) (id : Nat) : Group :=
  match c with
  | none => u.g
  | some c => countedGroup u c id

section
variable {s : State} {u : Issue} (hi : issueOf s = some u) (calm : Calm s u)
include hi calm

theorem going_counted (c : Option Nat) (load : Bool) :
    Going (counted s u c load) u.key (groupCounted u c s.nextOp) (counted s u c load) := by
  obtain ⟨symErr, chans, inter, poison, arrived, -⟩ := calm
  have group := groupOf_issue hi
  cases c with
  | none => exact ⟨rfl, ⟨symErr, chans, inter, arrived⟩, poison, rfl, _, _, group⟩
  | some c =>
    rw [counted_some group]
    exact ⟨rfl, ⟨symErr, chans, inter, arrived⟩, poison, rfl, _, _, groupOf_setGroup ..⟩

theorem unhindered_counted (c : Option Nat) (load : Bool) :
    Unhindered (counted s u c load) u.g (whoGroup s u.key u.g).part := by
  obtain ⟨-, -, -, -, -, tracked, places, -, plain, -⟩ := calm
  cases c with
  | none => exact ⟨places, tracked, plain⟩
  | some c =>
    rw [counted_some (groupOf_issue hi)]
    exact ⟨places, tracked, plain⟩

omit calm in
theorem whoGroup_counted (c : Option Nat) (load : Bool) : whoGroup (counted s u c load) u.key u.g = whoGroup s u.key u.g := by
  cases c with
  | none => rfl
  | some c =>
    rw [counted_some (groupOf_issue hi)]
    rfl

omit calm in
theorem counted_mem (c : Option Nat) (load : Bool) : (counted s u c load).mem = s.mem := by
  cases c with
  | none => rfl
  | some c =>
    rw [counted_some (groupOf_issue hi)]
    rfl

end

theorem groupCounted_gang (u : Issue) (c : Option Nat) (id : Nat) : (groupCounted u c id).gang = u.g.gang := by
  cases c <;> rfl

/-- A word whose registers are allowed reads its operands as they are. -/
theorem withReads_eq {s : State} {u : Issue} (hi : issueOf s = some u) (asRead : u.asRead = u) {regs : List (Opnd × Nat)}
    (ok : RegsOk u.g regs) (k : Issue → Out) : withReads s regs k = k u := by
  rw [withReads, withRegs_eq hi ok, asRead]

theorem alignTrap_none {u : Issue} {p : Option Pfx} {size : Nat} {addr : Nat → Nat} (aligned : Aligned u p size addr) :
    alignTrap u p size addr = none := by
  have found : (lanesOf (execLanes u p)).find? (fun l => addr l % size != 0) = none := by
    rw [List.find?_eq_none]
    intro l hl
    simp [aligned l (mem_lanesOf.mp hl).1]
  rw [alignTrap, found, Option.map_none]

theorem alignedWord_passes {s : State} {u : Issue} (hi : issueOf s = some u) (asRead : u.asRead = u) {regs : List (Opnd × Nat)}
    (ok : RegsOk u.g regs) {p : Option Pfx} {size : Nat} {addr : Group → Nat → Nat} (aligned : Aligned u p size (addr u.g))
    (k : Issue → Out) : alignedWord s p regs size addr k = k u := by
  rw [alignedWord, withReads_eq hi asRead ok, alignTrap_none aligned]

/-! ### Load forms (R310, R311) -/

theorem exec_loadForms {p : Option Pfx} {d a b : Opnd} {f : Instr × Nat × Nat × Bool × Bool} (hf : f ∈ loadForms p d a b)
    (s : State) : exec f.1 s = ldWord s p d a b f.2.1 f.2.2.1 f.2.2.2.1 f.2.2.2.2 := by
  simp only [loadForms, List.mem_cons, List.not_mem_nil, or_false] at hf
  rcases hf with rfl | rfl | rfl | rfl | rfl | rfl | rfl | rfl | rfl
  case _ => rfl
  case _ => rfl
  case _ => rfl
  case _ => rfl
  case _ => rfl
  case _ => rfl
  case _ => rfl
  case _ => exact congrArg (fun n => ldWord s p d a b (4 * n) n false false) (auxRegs_eq p)
  case _ => exact congrArg (fun n => ldWord s p d a b (4 * n) n false true) (auxRegs_eq p)

/-! ### Counted loads (R25, R27) -/

/-- The word has passed with its counter raised, and owes what it has loaded; `s'` is the package as its lanes have left it. -/
def Owes (s : State) (u : Issue) (c : Nat) (d : Opnd) (o : Out) (s' : State) (acquire : Bool) (owed : List Owed) : Prop :=
  ∃ t s'', o = .next t ∧ Told u d s' s'' ∧ t.groups = (finish s'' u).groups ∧ OnlyGroupsAndOps s' t ∧
    (∃ g', groupOf t u.key = some g' ∧ (counterOf g' c).val = (counterOf u.g c).val + 1 ∧ g'.v = u.g.v ∧ g'.s = u.g.s) ∧
    tfind t.ops s.nextOp = some ⟨u.key, some c, true, owed, 0, true, false, acquire, false⟩

/-- A load on a counter that has room, all of whose lanes have been performed. -/
theorem owes_of_run {s s' : State} {u : Issue} (hi : issueOf s = some u) (fresh : Fresh u) (calm : Calm s u) {k : LaneWord} {c : Nat}
    (load : k.load = true) (counter : k.counter = some c) (hc : c < u.g.counters.length) (room : (counterOf u.g c).val < 255)
    (act : execLanes u k.p ≠ 0) {f : Nat → Nat → State → Nat → LaneOut} {rs : List (Nat × LaneRes)}
    (run : runLanes (f s.nextOp (lowest (execLanes u k.p))) (counted s u (some c) true) (lanesOf (accessLanes u k)) = (s', rs, none))
    (here : ∀ x ∈ rs, x.2.sent = false)
    (going : Going (counted s u (some c) true) u.key (countedGroup u c s.nextOp) s') (placed : Placed s' u.key) :
    Owes s u c k.d (laneWord s u k f) s' k.acquire (owedBy u k (lowest (execLanes u k.p)) rs) := by
  obtain ⟨-, -, -, -, -, -, -, off, -, alone, whole⟩ := calm
  have same := counted_some (groupOf_issue hi) c true
  have requests : s'.requests = s.requests := by
    rw [going.requests, same]
    rfl
  have ops : tfind s'.ops s.nextOp = some (begun u.key (some c) true) := by
    rw [going.ops, same]
    exact tfind_tput_same ..
  have quiet : (coreOf s' (u.key / 128)).data.filter (fun c => c.2.en) = [] := by
    rw [coreOf, going.cores, same]
    exact off
  obtain ⟨t, s'', runs, told, groups, only, owed⟩ :=
    laneWord_owes fresh whole alone load counter room act run here quiet placed ops requests
  refine ⟨t, s'', runs, told, groups, only, ?_, owed⟩
  obtain ⟨a, r, group⟩ := going.group
  obtain ⟨xs, after⟩ := (told_keeps told).2 _ group
  rw [finish_eq after] at groups
  refine ⟨_, (groupOf_of_groups groups u.key).trans (groupOf_setGroup ..), ?_, rfl, rfl⟩
  exact congrArg Counter.val ((counterOf_setCounter hc _ c).trans (if_pos rfl))

/-- A counter at 255 holds the fragment at the word (R216). -/
theorem laneWord_full {s : State} {u : Issue} (noOp : u.f.op = none) {k : LaneWord} {c : Nat} (counter : k.counter = some c)
    (full : 255 ≤ (counterOf u.g c).val) (act : execLanes u k.p ≠ 0) (f : Nat → Nat → State → Nat → LaneOut) :
    laneWord s u k f = .next (holdUnit s u .unit) := by
  have stops : counterFull u.g k.counter = some c := by rw [counter, counterFull, if_pos full]
  unfold laneWord
  rw [if_neg act, noOp, stops]

/-! ### Values owed -/

theorem zeroedLanes_eq {u : Issue} (fresh : u.f.resumed = false) {k : LaneWord} (load : k.load = true) :
    zeroedLanes u k = if k.z = true ∧ k.d.toNat < 192
      then (lanesOf (u.f.lanes &&& ~~~(execLanes u k.p))).flatMap (fun l => owedOf u.key k.d k.n 64 l 0) else [] := by
  have new : u.f.fresh = true := by simp [Frag.fresh, fresh]
  have scalar : isScalar k.d = !decide (k.d.toNat < 192) := by
    unfold isScalar
    rw [← decide_not]
    exact decide_eq_decide.mpr not_lt.symm
  unfold zeroedLanes
  rw [load, new, scalar]
  by_cases z : k.z = true <;> by_cases vector : k.d.toNat < 192 <;> simp [z, vector]

/-- What a load of the lanes of a word owes. -/
theorem owedBy_loads {u : Issue} (fresh : u.f.resumed = false) {k : LaneWord} (load : k.load = true) (x : Nat → Nat)
    (bytes : Nat → List Nat) (ls : List Nat) :
    owedBy u k (lowest (execLanes u k.p)) (ls.map (fun l => (l, ⟨some (x l), false, bytes l⟩))) =
      (if k.z = true ∧ k.d.toNat < 192
        then (lanesOf (u.f.lanes &&& ~~~(execLanes u k.p))).flatMap (fun l => owedOf u.key k.d k.n 64 l 0) else []) ++
      ls.flatMap (fun l => owedOf u.key k.d k.n (lowest (execLanes u k.p)) l (x l)) := by
  rw [owedBy, zeroedLanes_eq fresh load, if_pos load, List.flatMap_map]

end Sys2Proof.Machine


/-!
SUPPORT. Counted loads (R25, R27): LD in every form, LDU and LDE, whose registers are owed until they complete; and the settlement of O13.
-/
namespace Sys2Proof.Machine

open Sys2Proof

/-! ### The settlement of O13 -/

/-- What a load of a form is as a memory word. -/
def loadKind (u : Issue) (p : Option Pfx) (d : Opnd) (n : Nat) (acquire : Bool) : LaneWord :=
  { p := p, counter := clauseSetA u.f, load := true, kind := 2, d := d, n := n, z := zOf p, acquire := acquire }

/-- What LDU is as a memory word. -/
def uniformKind (u : Issue) (p : Option Pfx) (d : Opnd) : LaneWord :=
  { p := p, counter := clauseSetA u.f, load := true, kind := 2, d := d, n := 1, single := true }

section
variable {s s' : State} {u : Issue} {c : Nat} {p : Option Pfx} (hi : issueOf s = some u) (fresh : Fresh u)
  (counter : clauseSetA u.f = some c) (act : execLanes u p ≠ 0)
include hi fresh counter act

/-- Lanes of a counted word give their values, which its registers are owed. -/
theorem owes_of_values (calm : Calm s u) (hc : c < u.g.counters.length) (room : (counterOf u.g c).val < 255) {k : LaneWord}
    (hp : k.p = p) (load : k.load = true) (hk : k.counter = clauseSetA u.f) {f : Nat → Nat → State → Nat → LaneOut} {x : Nat → Nat}
    {bytes : Nat → List Nat} {ls : List Nat} (lanes : lanesOf (accessLanes u k) = ls)
    (run : runLanes (f s.nextOp (lowest (execLanes u p))) (counted s u (some c) true) ls =
        (s', ls.map (fun l => (l, ⟨some (x l), false, bytes l⟩)), none) ∧
      Going (counted s u (some c) true) u.key (groupCounted u (some c) s.nextOp) s' ∧
      (Placed (counted s u (some c) true) u.key → Placed s' u.key)) :
    Owes s u c k.d (laneWord s u k f) s' k.acquire
      ((if k.z = true ∧ k.d.toNat < 192
        then (lanesOf (u.f.lanes &&& ~~~(execLanes u p))).flatMap (fun l => owedOf u.key k.d k.n 64 l 0) else []) ++
      ls.flatMap (fun l => owedOf u.key k.d k.n (lowest (execLanes u p)) l (x l))) := by
  subst hp lanes
  obtain ⟨run, going, placed⟩ := run
  rw [← owedBy_loads fresh.1 load x bytes]
  refine owes_of_run hi fresh calm load (hk.trans counter) hc room act run ?_ going (placed ?_)
  · intro y hy
    obtain ⟨l, -, rfl⟩ := List.mem_map.mp hy
    rfl
  · rw [counted_some (groupOf_issue hi)]
    exact placed_setGroup _ _ _

/-- A load of a form, counted. -/
theorem ldWord_owes (calm : Calm s u) (hc : c < u.g.counters.length) (room : (counterOf u.g c).val < 255) {d a b : Opnd}
    {n regs : Nat} {sgn acq : Bool} {x : Nat → Nat} (ok : RegsOk u.g [(d, regs), (a, 2)]) (aligned : Aligned u p n (addrOf u a b n))
    (found : LoadsFind u (whoGroup s u.key u.g) n acq (addrOf u a b n) x (counted s u (some c) true) (lanesOf (execLanes u p)) s') :
    Owes s u c d (ldWord s p d a b n regs sgn acq) s' acq
      (loadOwed u p (zOf p) d regs (fun l => extendLoad sgn n (x l))) := by
  rw [ldWord, alignedWord_passes hi fresh.2.2 ok aligned]
  exact owes_of_values hi fresh counter act calm hc room (k := loadKind u p d regs acq) rfl rfl rfl rfl
    (runLanes_loads (whoGroup_counted hi (some c) true) (unhindered_counted hi calm (some c) true)
      (groupCounted_gang u (some c) s.nextOp) d regs sgn (fun _ => wordRuns u p n (laneAddr u.g a b n)) s.nextOp
      (lowest (execLanes u p)) _ (going_counted hi calm (some c) true) found)

theorem ldWord_full {d a b : Opnd} {n regs : Nat} {sgn acq : Bool} (ok : RegsOk u.g [(d, regs), (a, 2)])
    (aligned : Aligned u p n (addrOf u a b n)) (full : 255 ≤ (counterOf u.g c).val) :
    ldWord s p d a b n regs sgn acq = .next (holdUnit s u .unit) := by
  rw [ldWord, alignedWord_passes hi fresh.2.2 ok aligned]
  exact laneWord_full fresh.2.1 counter full act _

/-- LDE, counted. -/
theorem lde_owes (calm : Calm s u) (hc : c < u.g.counters.length) (room : (counterOf u.g c).val < 255) {d a : Opnd}
    {e : Nat → Element} (ok : RegsOk u.g [(d, 1), (a, 2)])
    (found : ElementsFound u (whoGroup s u.key u.g) .load ((pfxGet p).aux.getLsbD 0) (addrOf u a 0 1) e (elementLoaded u p e)
      (counted s u (some c) true) (lanesOf (execLanes u p)) s') :
    Owes s u c d (exec (.lde p d a) s) s' false (loadOwed u p (zOf p) d 1 (elementValue s u p e)) := by
  have values : elementValue (counted s u (some c) true) u p e = elementValue s u p e := by
    unfold elementValue elementNow
    rw [counted_mem hi]
  have run := runLanes_elements (whoGroup_counted hi (some c) true) (p := p) (a := a)
    (unhindered_counted hi calm (some c) true) (groupCounted_gang u (some c) s.nextOp) _ (going_counted hi calm (some c) true) rfl found
  rw [values] at run
  change Owes s u c d (execLde p d a s) s' false _
  rw [execLde, withReads_eq hi fresh.2.2 ok]
  exact owes_of_values hi fresh counter act calm hc room (k := loadKind u p d 1 false) rfl rfl rfl rfl run

theorem lde_full {d a : Opnd} (ok : RegsOk u.g [(d, 1), (a, 2)]) (full : 255 ≤ (counterOf u.g c).val) :
    exec (.lde p d a) s = .next (holdUnit s u .unit) := by
  change execLde p d a s = _
  rw [execLde, withReads_eq hi fresh.2.2 ok]
  exact laneWord_full fresh.2.1 counter full act _

end

/-- The size of LDU's access, as its aux bit has it. -/
theorem uniformBytes_eq (p : Option Pfx) : 4 * 2 ^ (auxOf p % 2) = if (pfxGet p).aux.getLsbD 0 then 8 else 4 := by
  rw [← bit_auxOf]
  unfold bit
  rw [Nat.pow_zero, Nat.div_one]
  cases Nat.mod_two_eq_zero_or_one (auxOf p) with
  | inl e => rw [e]; rfl
  | inr e => rw [e]; rfl

theorem lane_lowest {m : Dword} (act : m ≠ 0) : lane m (lowest m) = true := by
  obtain ⟨ls, same⟩ := lanesOf_eq_cons act
  exact (mem_lanesOf.mp (same ▸ List.mem_cons_self)).1

theorem lanesOf_laneBit {l : Nat} (hl : l < 64) : lanesOf (laneBit l) = [l] := by
  have only : lanesOf (laneBit l) = (List.range 64).filter (fun k => k == l) := by
    refine List.filter_congr fun k _ => ?_
    rw [lane_laneBit l k hl]
    rfl
  rw [only, List.filter_beq, List.count_eq_one_of_mem List.nodup_range (List.mem_range.mpr hl)]
  rfl

/-- LDU reads for its lowest Active lane. -/
theorem lanesOf_uniform {u : Issue} {p : Option Pfx} (act : execLanes u p ≠ 0) (d : Opnd) :
    lanesOf (accessLanes u (uniformKind u p d)) = [lowest (execLanes u p)] := by
  have single : accessLanes u (uniformKind u p d) = laneBit (lowest (execLanes u p)) := if_neg act
  rw [single, lanesOf_laneBit (lane_lt (lane_lowest act))]

section
variable {s s' : State} {u : Issue} {c : Nat} {p : Option Pfx} (hi : issueOf s = some u) (fresh : Fresh u)
  (counter : clauseSetA u.f = some c) (act : execLanes u p ≠ 0) {d a b : Opnd} {n : Nat}
  (size : n = if (pfxGet p).aux.getLsbD 0 then 8 else 4) (scalarTo : 192 ≤ d.toNat) (scalarFrom : 192 ≤ a.toNat)
  (aligned : Aligned u p n (addrOf u a b n))
include hi fresh counter act size scalarTo scalarFrom aligned

omit counter act in
/-- LDU on scalars is the word of one access. -/
theorem execLdu_eq : exec (.ldu p d a b) s = laneWord s u (uniformKind u p d) (fun id first s l =>
    loadLane u (whoGroup s u.key u.g) d 1 n false false [(laneAddr u.g a b n l, n)] (laneAddr u.g a b n l) id first s l) := by
  have ok : RegsOk u.g [(d, 1), (a, 1)] := by
    intro r hr
    rcases List.mem_pair.mp hr with rfl | rfl
    · exact (if_pos scalarTo).mpr (show 1 < 4 by decide)
    · exact (if_pos scalarFrom).mpr (show 1 < 4 by decide)
  rw [← uniformBytes_eq] at size
  change execLdu p d a b s = _
  unfold execLdu
  dsimp only
  rw [← size, alignedWord_passes hi fresh.2.2 ok aligned]
  rfl

/-- LDU, counted. -/
theorem ldu_owes (calm : Calm s u) (hc : c < u.g.counters.length) (room : (counterOf u.g c).val < 255) {x : Nat → Nat}
    (found : LoadsFind u (whoGroup s u.key u.g) n false (addrOf u a b n) x (counted s u (some c) true) [lowest (execLanes u p)] s') :
    Owes s u c d (exec (.ldu p d a b) s) s' false
      [⟨u.key, 64, d.toNat - 192, BitVec.ofNat 64 (x (lowest (execLanes u p))), lowest (execLanes u p)⟩] := by
  rw [execLdu_eq hi fresh size scalarTo scalarFrom aligned]
  have owes := owes_of_values hi fresh counter act calm hc room (k := uniformKind u p d) rfl rfl rfl
    (f := fun id first s l =>
      loadLane u (whoGroup s u.key u.g) d 1 n false false [(laneAddr u.g a b n l, n)] (laneAddr u.g a b n l) id first s l)
    (lanesOf_uniform act d) (runLanes_loads (whoGroup_counted hi (some c) true) (unhindered_counted hi calm (some c) true)
      (groupCounted_gang u (some c) s.nextOp) d 1 false (fun l => [(laneAddr u.g a b n l, n)]) s.nextOp (lowest (execLanes u p)) _
      (going_counted hi calm (some c) true) found)
  have owed : owedOf u.key d 1 (lowest (execLanes u p)) (lowest (execLanes u p)) (extendLoad false n (x (lowest (execLanes u p)))) =
      [⟨u.key, 64, d.toNat - 192, BitVec.ofNat 64 (x (lowest (execLanes u p))), lowest (execLanes u p)⟩] := by
    rw [owedOf, if_pos (show isScalar d = true from decide_eq_true scalarTo), if_pos rfl]
    rfl
  rw [if_neg (fun z => Nat.not_lt.mpr scalarTo z.2), List.nil_append, List.flatMap_singleton] at owes
  exact owed ▸ owes

theorem ldu_full (full : 255 ≤ (counterOf u.g c).val) : exec (.ldu p d a b) s = .next (holdUnit s u .unit) := by
  rw [execLdu_eq hi fresh size scalarTo scalarFrom aligned]
  exact laneWord_full fresh.2.1 counter full act _

end

end Sys2Proof.Machine

namespace Sys2Proof

open Machine

/-- Settles O13: each form is the word of a load, whose lanes give what their loads find, and a counter at 255 holds it. -/
theorem countedLoadsOweTheirRegisters : Obligations.CountedLoadsOweTheirRegisters := by
  intro p d a b s u s' x k hi fresh calm counter hk act
  refine ⟨fun f hf ok aligned => ⟨fun room found => ?_, fun full => ?_⟩,
    fun scalarTo scalarFrom aligned => ⟨fun room found => ?_, fun full => ?_⟩, fun e ok => ⟨fun room found => ?_, fun full => ?_⟩⟩
  · change Owes s u k d (exec f.1 s) s' _ _
    rw [exec_loadForms hf]
    exact ldWord_owes hi fresh counter act calm hk room ok aligned found
  · rw [exec_loadForms hf]
    exact ldWord_full hi fresh counter act ok aligned full
  · exact ldu_owes hi fresh counter act rfl scalarTo scalarFrom aligned calm hk room found
  · exact ldu_full hi fresh counter act rfl scalarTo scalarFrom aligned full
  · exact lde_owes hi fresh counter act calm hk room ok found
  · exact lde_full hi fresh counter act ok full

end Sys2Proof


/-!
SUPPORT. The trap of a word, taken at a rung (R407 to R412, R417, R422): the handler, the trap registers, and the climb to the context
rung.
-/
namespace Sys2Proof.Machine

open Sys2Proof

/-! ### The fragment of a unit -/

/-- The unit's fragment is the first of its lanes, in place of which another stands. -/
theorem find_modFrag {g : Group} {f : Frag} (here : g.frags.find? (fun x => x.lanes == f.lanes) = some f) {h : Frag → Frag}
    (keeps : (h f).lanes = f.lanes) :
    (modFrag g f.lanes h).frags.find? (fun x => x.lanes == f.lanes) = some (h f) := by
  unfold modFrag
  dsimp only
  generalize g.frags = fs at here
  induction fs with
  | nil => cases here
  | cons a fs ih =>
    rw [List.map_cons, List.find?_cons]
    rw [List.find?_cons] at here
    by_cases same : (a.lanes == f.lanes) = true
    · rw [same] at here
      cases here
      simp [keeps]
    · rw [Bool.not_eq_true] at same
      rw [same] at here
      rw [if_neg (by simp [same]), same]
      exact ih here

theorem fragBecomes_modFrag {u : Issue} {g : Group} (frags : g.frags = u.g.frags) (h : Frag → Frag) :
    FragBecomes u (h u.f) (modFrag g u.f.lanes h) := by
  refine ⟨h, rfl, ?_⟩
  simp only [modFrag, frags, beq_iff_eq]

theorem find_issue {s : State} {u : Issue} (hi : issueOf s = some u) :
    u.g.frags.find? (fun x => x.lanes == u.f.lanes) = some u.f := by
  unfold issueOf at hi
  split at hi
  · cases hi
  · split at hi
    · cases hi
    · split at hi
      · cases hi
      · next found =>
        cases hi
        have same := List.find?_some found
        rw [beq_iff_eq] at same
        dsimp only
        rw [same]
        exact found

/-! ### What the read of a vector leaves (R408) -/

/-- What a trap looks at differs only in the accesses that the group's threads have noted. -/
structure ReadFor (key : Nat) (s s' : State) : Prop where
  gangs : s'.gangs = s.gangs
  launches : s'.launches = s.launches
  kernels : s'.kernels = s.kernels
  mem : s'.mem = s.mem
  ctxs : s'.ctxs = s.ctxs
  traces : s'.traces = s.traces
  group : ∀ g, groupOf s key = some g → ∃ looked, groupOf s' key = some { g with anchors := looked }
  others : ∀ k, k ≠ key → groupOf s' k = groupOf s k

theorem ReadFor.refl (key : Nat) (s : State) : ReadFor key s s :=
  ⟨rfl, rfl, rfl, rfl, rfl, rfl, fun g here => ⟨g.anchors, here⟩, fun _ _ => rfl⟩

theorem ReadFor.trans {key : Nat} {s t r : State} (a : ReadFor key s t) (b : ReadFor key t r) : ReadFor key s r where
  gangs := b.gangs.trans a.gangs
  launches := b.launches.trans a.launches
  kernels := b.kernels.trans a.kernels
  mem := b.mem.trans a.mem
  ctxs := b.ctxs.trans a.ctxs
  traces := b.traces.trans a.traces
  group g here := by
    obtain ⟨looked, there⟩ := a.group g here
    obtain ⟨again, after⟩ := b.group _ there
    exact ⟨again, after⟩
  others k other := (b.others k other).trans (a.others k other)

theorem readFor_of_onlyRead {key : Nat} {s s' : State} {g : Group} (here : groupOf s key = some g) (read : OnlyRead s s' key) :
    ReadFor key s s' := by
  obtain ⟨same, looked, groups⟩ := read
  rw [modGroup_eq here] at groups
  refine ⟨?_, ?_, ?_, ?_, ?_, ?_, fun g' there => ?_, fun k other => ?_⟩
  · have e := congrArg State.gangs same; exact e
  · have e := congrArg State.launches same; exact e
  · have e := congrArg State.kernels same; exact e
  · have e := congrArg State.mem same; exact e
  · have e := congrArg State.ctxs same; exact e
  · have e := congrArg State.traces same; exact e
  · rw [here] at there
    cases there
    exact ⟨looked, (groupOf_of_groups groups key).trans (groupOf_setGroup ..)⟩
  · exact (groupOf_of_groups groups k).trans (groupOf_setGroup_ne _ _ other)

section
variable {s s' : State} {key : Nat} (read : ReadFor key s s')
include read

theorem ReadFor.launchOfGroup_eq (g : Group) : launchOfGroup s' g = launchOfGroup s g := by
  unfold launchOfGroup gangOf launchOf
  rw [read.gangs, read.launches]

/-- The trap registers are written from the package as the vector's read has left it. -/
theorem ReadFor.trapRegs_eq (u : Issue) (t : Trap) (rung : Nat) : trapRegs s' u.key u.g u.f t rung = trapRegsNow s u t rung := by
  have place : posOfGroup s' u.g u.f.pc = codePos s (launchOfGroup s u.g) u.f.pc := by
    unfold posOfGroup codePos
    rw [read.launchOfGroup_eq, read.kernels]
  have async : 256 * (asyncClass t.cls).toNat = if t.cls = 14 ∨ t.cls = 16 ∨ t.cls = 22 ∨ t.cls = 23 then 256 else 0 := by
    unfold asyncClass
    split
    · next yes => rcases yes with yes | yes | yes | yes <;> simp [yes]
    · next no =>
      obtain ⟨a, b, c, d⟩ : t.cls ≠ 14 ∧ t.cls ≠ 16 ∧ t.cls ≠ 22 ∧ t.cls ≠ 23 := by tauto
      simp [a, b, c, d]
  unfold trapRegs trapRegsNow
  dsimp only
  rw [place, async]
  rfl

/-- No record is made of a trap while the partition's trace is off. -/
theorem ReadFor.trapRecord_off {g : Group} (here : groupOf s key = some g) {l : Launch} (launch : launchOfGroup s g = some l)
    (off : (traceOf s l.part).on = false) (ln pc : Nat) (t : Trap) : trapRecord s' key ln pc t = s' := by
  obtain ⟨looked, group⟩ := read.group g here
  have same : launchOfGroup s' { g with anchors := looked } = some l := (read.launchOfGroup_eq _).trans launch
  have quiet : (traceOf s' l.part).on = false := by
    rw [traceOf, read.traces]
    exact off
  unfold trapRecord traceRecord
  rw [group]
  dsimp only
  rw [same]
  dsimp only
  rw [quiet]
  rfl

end

/-! ### The context rung (R412) -/

theorem ctxOf_setCtx (s : State) (ctx : Nat) (c : Ctx) : ctxOf (setCtx s ctx c) ctx = c := tget_tset_same ..

theorem toContext_groups (s : State) (uid ctx index : Nat) (p : Pending) : (toContext s uid ctx index p).groups = s.groups := by
  unfold toContext
  dsimp only
  split <;> rfl

theorem toContext_mem (s : State) (uid ctx index : Nat) (p : Pending) : (toContext s uid ctx index p).mem = s.mem := by
  unfold toContext
  dsimp only
  split <;> rfl

theorem toContext_gang {s : State} {uid : Nat} {q : Gang} (gang : gangOf s uid = some q) (ctx index : Nat) (p : Pending) :
    gangOf (toContext s uid ctx index p) uid = some { q with climbed := some p } := by
  have frozen : ∀ t : State, gangOf (freezeCtx { s with tick := s.tick + 1 } ctx (Config.freeChoice s.tick) (some index)) uid = some q :=
    fun _ => gang
  unfold toContext
  dsimp only
  rw [frozen s]
  exact tfind_tput_same ..

theorem ctxOf_freezeCtx (s : State) (ctx synd : Nat) (gang : Option Nat) :
    ctxOf (freezeCtx s ctx synd gang) ctx = { ctxOf s ctx with frozen := true } := ctxOf_setCtx ..

/-- The context as a trap that waits at its rung leaves it. -/
def toldOf (c : Ctx) (p : Pending) (index uid : Nat) : Ctx :=
  if c.pend then { c with more := c.more ++ [(p.cls, index, uid)] }
  else { c with pend := true, cls := p.cls, gang := index, held := some uid }

/-- The context is frozen, and tells of the trap where it tells of none yet. -/
theorem toContext_ctx (s : State) (uid ctx index : Nat) (p : Pending) :
    (ctxOf (toContext s uid ctx index p) ctx).frozen = true ∧ (ctxOf (toContext s uid ctx index p) ctx).pend = true ∧
    ((ctxOf s ctx).pend = false →
      (ctxOf (toContext s uid ctx index p) ctx).cls = p.cls ∧ (ctxOf (toContext s uid ctx index p) ctx).gang = index) := by
  have after : ctxOf (toContext s uid ctx index p) ctx = toldOf { ctxOf s ctx with frozen := true } p index uid := by
    have now : ctxOf (freezeCtx { s with tick := s.tick + 1 } ctx (Config.freeChoice s.tick) (some index)) ctx =
        { ctxOf s ctx with frozen := true } := ctxOf_freezeCtx ..
    rw [← now]
    unfold toContext
    dsimp only
    split <;> exact tget_tset_same ..
  rw [after, toldOf]
  cases waits : (ctxOf s ctx).pend with
  | true => exact ⟨rfl, rfl, fun no => nomatch no⟩
  | false => exact ⟨rfl, rfl, fun _ => ⟨rfl, rfl⟩⟩

/-! ### The trap is taken (R407 to R412) -/

/-- The handler's fragment, in place of the trapping one. -/
theorem handler_becomes {u : Issue} {g : Group} (frags : g.frags = u.g.frags) (v pix clock : Nat) :
    ∃ f', HandlerAt u.f v pix f' ∧ FragBecomes u f' (modFrag g u.f.lanes (fun f => toHandler f v pix clock)) :=
  ⟨toHandler u.f v pix clock, ⟨rfl, rfl, rfl, rfl, rfl, rfl⟩, fragBecomes_modFrag frags (fun f => toHandler f v pix clock)⟩

section
variable {s : State} {u : Issue} {l : Launch} {q : Gang} (group : groupOf s u.key = some u.g)
  (first : u.g.frags.find? (fun x => x.lanes == u.f.lanes) = some u.f) (launch : launchOfGroup s u.g = some l)
  (gang : gangOf s u.g.gang = some q) (off : (traceOf s l.part).on = false) {t : Trap} (word : t.byWord = true) (low : t.rung = 0)
include group first launch gang word low

include off in
omit word in
/-- The group's own vector. -/
theorem takeTrap_group {v : Nat} {s' : State} (alone : q.mode = none) (ready : u.g.mode = none)
    (vector : vectorOf s ((whoLaunch (u.key / 128) l).ofThread u.key (lowest u.f.lanes)) l.stamp t.cls 0 = (s', .found v))
    {looked : Table Anchor} (read : ReadFor u.key s s') (there : groupOf s' u.key = some { u.g with anchors := looked }) :
    ∃ services, takeTrap s u.key u.f.lanes u.words.length t =
      { setGroup s' u.key { modFrag { u.g with anchors := looked } u.f.lanes (fun f => toHandler f v t.pix s'.clock) with
          regsTrap := trapRegsNow s u t 0, mode := some (trapMode s' u.f u.words.length t) } with services := services } := by
  have rung : t.rung + (u.g.mode.isSome || q.mode.isSome).toNat = 0 := by
    rw [low, alone, ready]
    rfl
  refine ⟨s'.services ++ [⟨0, u.key, s'.clock, t.cls, 0xFFFF⟩], ?_⟩
  unfold takeTrap
  rw [group]
  dsimp only
  rw [first, gang, launch]
  dsimp only
  rw [if_pos rung, show coreOfKey u.key = u.key / 128 from rfl, vector]
  dsimp only
  rw [read.trapRecord_off group launch off, modGroup_eq there, read.trapRegs_eq]
  rfl

include off in
/-- The gang's vector, where the group has none or is in trap mode. -/
theorem takeTrap_gang {v : Nat} {s₁ s' : State} (alone : q.mode = none)
    (absent : u.g.mode ≠ none ∧ s₁ = s ∨ u.g.mode = none ∧
      vectorOf s ((whoLaunch (u.key / 128) l).ofThread u.key (lowest u.f.lanes)) l.stamp t.cls 0 = (s₁, .absent))
    (vector : vectorOf s₁ ((whoLaunch (u.key / 128) l).ofThread u.key (lowest u.f.lanes)) l.stamp t.cls 1 = (s', .found v))
    {looked : Table Anchor} (read : ReadFor u.key s s') (there : groupOf s' u.key = some { u.g with anchors := looked }) :
    ∃ services, takeTrap s u.key u.f.lanes u.words.length t =
      { setGang (setGroup s' u.key (modFrag { u.g with anchors := looked } u.f.lanes (fun f => toHandler f v t.pix s'.clock)))
          u.g.gang { q with regsTrap := trapRegsNow s u t 1, mode := some (trapMode s' u.f u.words.length t), handler := some u.key }
        with services := services } := by
  have below : (q.mode.isNone && decide (t.rung + (u.g.mode.isSome || q.mode.isSome).toNat ≤ 1)) = true := by
    rw [low, alone]
    cases u.g.mode <;> rfl
  have none' : (if t.rung + (u.g.mode.isSome || q.mode.isSome).toNat = 0
      then vectorOf s ((whoLaunch (u.key / 128) l).ofThread u.key (lowest u.f.lanes)) l.stamp t.cls 0 else (s, .absent)) =
      (s₁, VectorRead.absent) := by
    rcases absent with ⟨busy, rfl⟩ | ⟨ready, empty⟩
    · obtain ⟨m, mode⟩ := Option.ne_none_iff_exists'.mp busy
      rw [if_neg (by rw [low, mode]; simp)]
    · rw [if_pos (by rw [low, alone, ready]; rfl), empty]
  refine ⟨s'.services ++ [⟨1, u.g.gang, s'.clock, t.cls, 0xFFFF⟩], ?_⟩
  unfold takeTrap
  rw [group]
  dsimp only
  rw [first, gang, launch]
  dsimp only
  rw [show coreOfKey u.key = u.key / 128 from rfl, none']
  dsimp only
  rw [word, if_neg (by decide), below, if_pos rfl, vector]
  dsimp only
  rw [read.trapRecord_off group launch off, modGroup_eq there, ← read.trapRegs_eq]
  rfl

omit low in
include off in
/-- No vector of the gang's is left: the trap waits at the context rung. -/
theorem takeTrap_context (busy : q.mode ≠ none) :
    takeTrap s u.key u.f.lanes u.words.length t = toContext (setGroup s u.key (modFrag u.g u.f.lanes (fun f =>
      { f with hold := .ready, since := s.clock, probe := [], pix := t.pix, resumed := !t.atHeader }))) u.g.gang l.ctx q.index
      t.climbed := by
  obtain ⟨m, mode⟩ := Option.ne_none_iff_exists'.mp busy
  have above : ¬ t.rung + (u.g.mode.isSome || q.mode.isSome).toNat = 0 := by
    rw [mode]
    simp
  have beyond : (q.mode.isNone && decide (t.rung + (u.g.mode.isSome || q.mode.isSome).toNat ≤ 1)) = false := by
    rw [mode]
    rfl
  unfold takeTrap
  rw [group]
  dsimp only
  rw [first, gang, launch]
  dsimp only
  rw [if_neg above]
  dsimp only
  rw [word, if_neg (by decide), beyond, if_neg (by decide)]
  dsimp only
  rw [(ReadFor.refl u.key s).trapRecord_off group launch off, modGroup_eq group]

include off in
/-- The trap of a word, whose partition's trace is off, is taken. -/
theorem takeTrap_taken : TrapTaken s u l q t (takeTrap s u.key u.f.lanes u.words.length t) := by
  refine ⟨fun v s' alone ready vector => ?_, fun v s₁ s' alone absent vector => ?_, fun busy => ?_⟩
  · obtain ⟨vector, read⟩ := vector
    have read := readFor_of_onlyRead group read
    obtain ⟨looked, there⟩ := read.group u.g group
    obtain ⟨services, taken⟩ := takeTrap_group group first launch gang off low alone ready vector read there
    rw [taken]
    refine ⟨_, _, groupOf_setGroup .., handler_becomes rfl .., rfl, rfl, ⟨rfl, rfl, rfl, rfl, rfl, rfl, rfl, rfl, rfl, rfl⟩, rfl,
      fun k other => ?_, read.gangs, read.mem, read.ctxs⟩
    exact (groupOf_setGroup_ne _ _ other).trans (read.others k other)
  · obtain ⟨vector, second⟩ := vector
    have initial : ReadFor u.key s s₁ := by
      rcases absent with ⟨-, rfl⟩ | ⟨-, only, -⟩
      · exact .refl ..
      · exact readFor_of_onlyRead group only
    obtain ⟨a, between⟩ := initial.group u.g group
    have read := initial.trans (readFor_of_onlyRead between second)
    obtain ⟨looked, there⟩ := read.group u.g group
    obtain ⟨services, taken⟩ := takeTrap_gang group first launch gang off word low alone
      (absent.imp id fun x => ⟨x.1, x.2.2⟩) vector read there
    rw [taken]
    refine ⟨_, _, groupOf_setGroup .., handler_becomes rfl .., rfl, tfind_tput_same .., ⟨rfl, rfl, rfl, rfl, rfl, rfl, rfl, rfl, rfl, rfl⟩,
      fun k other => ?_, read.mem, read.ctxs⟩
    exact (groupOf_setGroup_ne _ _ other).trans (read.others k other)
  · rw [takeTrap_context group first launch gang off word busy]
    obtain ⟨frozen, pend, told⟩ := toContext_ctx (setGroup s u.key (modFrag u.g u.f.lanes (fun f =>
      { f with hold := .ready, since := s.clock, probe := [], pix := t.pix, resumed := !t.atHeader }))) u.g.gang l.ctx q.index t.climbed
    refine ⟨_, (groupOf_of_groups (toContext_groups ..) _).trans (groupOf_setGroup ..), rfl, frozen, pend, ?_, told,
      toContext_mem ..⟩
    exact toContext_gang (s := setGroup s u.key _) gang l.ctx q.index t.climbed

end

end Sys2Proof.Machine


/-!
SUPPORT. A failed check takes its outcome (R327 to R329, R339, R438): the fragment stops at its word, and the trap, the freeze, the
service, the consumption or the wait comes about.
-/
namespace Sys2Proof.Machine

open Sys2Proof

/-! ### The fragment stops -/

/-- A package differs from another only in a group, which is given, and in the operations that are counted. -/
structure Leaves (s t : State) (key : Nat) (g : Group) : Prop where
  group : groupOf t key = some g
  others : ∀ h, setGroup t key h = { setGroup s key h with ops := t.ops }

section
variable {s t : State} {key : Nat} {g : Group} (left : Leaves s t key g)
include left

theorem Leaves.gangs : t.gangs = s.gangs := by
  have same := congrArg State.gangs (left.others g)
  exact same

theorem Leaves.launches : t.launches = s.launches := by
  have same := congrArg State.launches (left.others g)
  exact same

theorem Leaves.mem : t.mem = s.mem := by
  have same := congrArg State.mem (left.others g)
  exact same

theorem Leaves.clock : t.clock = s.clock := by
  have same := congrArg State.clock (left.others g)
  exact same

theorem Leaves.launchOfGroup_eq (g' : Group) : launchOfGroup t g' = launchOfGroup s g' := by
  unfold launchOfGroup gangOf launchOf
  rw [left.gangs, left.launches]

end

/-- A fragment stopped at a lane. -/
def stopOf (clock l first id : Nat) (h : Hold) (f : Frag) : Frag :=
  { f.holding h clock with pix := l, resumed := true, first := if f.fresh then first else f.first, op := f.op <|> some id }

/-- The unit's group with its fragment stopped at a lane. -/
def stoppedGroup (u : Issue) (g : Group) (clock l first id : Nat) (h : Hold) : Group :=
  modFrag g u.f.lanes (stopOf clock l first id h)

section
variable {s t : State} {u : Issue} {g : Group} (group : groupOf t u.key = some g) (frags : g.frags = u.g.frags)
  (clock : t.clock = s.clock) (resumed : u.f.resumed = false) (noOp : u.f.op = none) (l first id : Nat) (h : Hold)

include group clock in
theorem stopFrag_eq : stopFrag t u.key u.f.lanes l first (some id) h =
    setGroup t u.key (stoppedGroup u g s.clock l first id h) := by
  rw [stopFrag, modGroup_eq group, clock]
  rfl

include resumed noOp in
/-- What the stop makes of the unit's own fragment. -/
theorem stopOf_fragment : stopOf s.clock l first id h u.f = stoppedAt s u l first id h := by
  have new : u.f.fresh = true := by simp [Frag.fresh, resumed]
  rw [stopOf, noOp, new]
  rfl

include frags resumed noOp in
theorem stoppedGroup_becomes : FragBecomes u (stoppedAt s u l first id h) (stoppedGroup u g s.clock l first id h) := by
  rw [← stopOf_fragment resumed noOp]
  exact fragBecomes_modFrag frags (stopOf s.clock l first id h)

include resumed noOp in
theorem find_stoppedGroup (first' : g.frags.find? (fun x => x.lanes == u.f.lanes) = some u.f) :
    (stoppedGroup u g s.clock l first id h).frags.find? (fun x => x.lanes == u.f.lanes) = some (stoppedAt s u l first id h) := by
  rw [← stopOf_fragment resumed noOp]
  refine find_modFrag first' ?_
  unfold stopOf Frag.holding
  split <;> rfl

include group frags clock resumed noOp in
/-- The unit's fragment stands stopped wherever nothing touches its group after the stop. -/
theorem stands_stopFrag {r : State} (same : r.groups = (stopFrag t u.key u.f.lanes l first (some id) h).groups) :
    ∃ g', groupOf r u.key = some g' ∧ FragBecomes u (stoppedAt s u l first id h) g' ∧ { g' with frags := g.frags } = g := by
  rw [stopFrag_eq group clock] at same
  exact ⟨_, (groupOf_of_groups same _).trans (groupOf_setGroup ..), stoppedGroup_becomes frags resumed noOp .., rfl⟩

end

/-! ### What freezes, asks and consumes leaves -/

theorem freezeCtx_groups (s : State) (ctx synd : Nat) (gang : Option Nat) : (freezeCtx s ctx synd gang).groups = s.groups := rfl

/-- The record of a context that freezes (R434). -/
theorem freezeCtx_event (s : State) (ctx synd : Nat) (gang : Option Nat) :
    ∃ e ∈ (freezeCtx s ctx synd gang).fresh, e.cause = 0x13 ∧ e.addr = some (0x10000 + ctx) ∧ e.synd = synd :=
  ⟨_, List.mem_append_right _ (List.mem_singleton_self _), rfl, by rw [Nat.one_mul], rfl⟩

/-- What is asked for stands among the requests. -/
theorem sendRequest_asks (s : State) {r : Request} (asks : r.kind ≠ 5) (mask status : Nat) :
    ∃ x ∈ (sendRequest s r mask status).requests, x.kind = r.kind ∧ x.peer = r.peer ∧ x.addr = r.addr ∧ x.size = r.size := by
  have none5 : (r.kind == 5) = false := beq_eq_false_iff_ne.mpr asks
  unfold sendRequest
  dsimp only
  rw [none5, Bool.and_false, if_neg Bool.false_ne_true]
  exact ⟨_, List.mem_append_right _ (List.mem_singleton_self _), rfl, rfl, rfl, rfl⟩

theorem askLine_groups (s : State) (line : Nat) : (askLine s line).groups = s.groups := by
  unfold askLine
  split <;> rfl

/-- A line of tier X that is asked for has been asked for. -/
theorem askLine_asks (s : State) (line : Nat) : ∃ r ∈ (askLine s line).requests, r.kind = 3 ∧ r.addr = 128 * line := by
  unfold askLine
  split
  · next asked =>
    obtain ⟨r, hr, same⟩ := List.any_eq_true.mp asked
    simp only [Bool.and_eq_true, beq_iff_eq] at same
    exact ⟨r, hr, same⟩
  · obtain ⟨r, hr, kind, -, place, -⟩ := sendRequest_asks s (r := plainRequest 3 none (128 * line) 128 []) (show 3 ≠ 5 by decide) 0 0
    exact ⟨r, hr, kind, place⟩

theorem askBytes_groups (s : State) (core : Nat) (peer : Option Nat) (addr n : Nat) : (askBytes s core peer addr n).groups = s.groups := by
  unfold askBytes
  split <;> rfl

theorem askBytes_asks (s : State) (core : Nat) (peer : Option Nat) (addr n : Nat) :
    ∃ r ∈ (askBytes s core peer addr n).requests, r.kind = 4 ∧ r.peer = peer ∧ r.addr = addr ∧ r.size = n := by
  unfold askBytes
  split
  · next asked =>
    obtain ⟨r, hr, same⟩ := List.any_eq_true.mp asked
    simp only [Bool.and_eq_true, beq_iff_eq] at same
    obtain ⟨⟨⟨kind, whom⟩, place⟩, size⟩ := same
    exact ⟨r, hr, kind, whom, place, size⟩
  · exact sendRequest_asks s (r := { plainRequest 4 peer addr n [] with reg := 3, lane := core }) (show 4 ≠ 5 by decide) 0 0

/-! ### A gang that consumes an error is gone (R438) -/

theorem toContext_gone {s : State} {uid : Nat} (gone : gangOf s uid = none) (ctx index : Nat) (p : Pending) :
    gangOf (toContext s uid ctx index p) uid = none := by
  have still : gangOf (freezeCtx { s with tick := s.tick + 1 } ctx (Config.freeChoice s.tick) (some index)) uid = none := gone
  unfold toContext
  dsimp only
  rw [still]
  exact gone

theorem mem_fresh_toContext {s : State} {e : Event} (he : e ∈ s.fresh) (uid ctx index : Nat) (p : Pending) :
    e ∈ (toContext s uid ctx index p).fresh := by
  unfold toContext
  dsimp only
  split <;> exact List.mem_append_left _ he

theorem LosesGang.gone {uid : Nat} {s t : State} (lost : LosesGang uid s t) : gangOf t uid = none :=
  (tfind_eq_none_iff _ _).mpr fun x hx => (lost.gangs x hx).1

/-- The gang that consumes an error leaves its unit, and the error is recorded. -/
theorem consume_consumes {s : State} {uid : Nat} {q : Gang} {l : Launch} (gang : gangOf s uid = some q)
    (launch : launchOf s q.launch = some l) (e : Event) :
    gangOf (consume s uid e) uid = none ∧
    ∃ x ∈ (consume s uid e).fresh, x.cause = e.cause ∧ x.sev = e.sev ∧ x.addr = e.addr ∧ x.synd = e.synd := by
  have lost := gone_killGang (recordEvent s e) uid true
  have recorded : ∃ x ∈ (killGang (recordEvent s e) uid true).1.fresh,
      x.cause = e.cause ∧ x.sev = e.sev ∧ x.addr = e.addr ∧ x.synd = e.synd := by
    rw [lost.fresh]
    exact ⟨_, List.mem_append_right _ (List.mem_singleton_self _), rfl, rfl, rfl, rfl⟩
  have here : gangOf (recordEvent s e) uid = some q := gang
  have started : launchOf (recordEvent s e) q.launch = some l := launch
  unfold consume
  dsimp only
  rw [here]
  dsimp only
  rw [started]
  dsimp only
  split
  · next killed =>
    rw [killed] at lost recorded
    exact ⟨lost.gone, recorded⟩
  · next killed =>
    rw [killed] at lost recorded
    obtain ⟨x, hx, same⟩ := recorded
    exact ⟨toContext_gone lost.gone .., x, mem_fresh_toContext hx .., same⟩

/-! ### What Levant and fetches leave of the services (R339) -/

theorem foldl_services {α : Type} (f : Mem → α → Mem) (hf : ∀ m a, (f m a).services = m.services) (xs : List α) (m : Mem) :
    (xs.foldl f m).services = m.services := by
  induction xs generalizing m with
  | nil => rfl
  | cons x xs ih => rw [List.foldl_cons, ih, hf]

theorem foldl_memServices {α : Type} (f : State → α → State) (hf : ∀ s a, (f s a).mem.services = s.mem.services) (xs : List α)
    (s : State) : (xs.foldl f s).mem.services = s.mem.services := by
  induction xs generalizing s with
  | nil => rfl
  | cons x xs ih => rw [List.foldl_cons, ih, hf]

theorem mem_raiseSeen (s : State) (die w n : Nat) : (raiseSeen s die w n).mem = s.mem := by
  unfold raiseSeen
  dsimp only
  split <;> rfl

theorem mem_setCt (s : State) (die w n : Nat) : (setCt s die w n).mem = s.mem := rfl

theorem mem_stampLine (s : State) (p : LvPacket) : (stampLine s p).mem = s.mem := rfl

theorem mem_noteSeq (s : State) (p : LvPacket) : (noteSeq s p).mem = s.mem := rfl

theorem mem_deliverCopy (s : State) (p : LvPacket) : (deliverCopy s p).mem = s.mem := rfl

theorem mem_arrivePacket (s : State) (p : LvPacket) : (arrivePacket s p).mem = s.mem := by
  unfold arrivePacket
  dsimp only
  split
  · rfl
  · split <;> split <;> simp only [mem_raiseSeen, mem_setCt, mem_stampLine, mem_noteSeq, mem_deliverCopy]

theorem services_deliverFor (s : State) (die : Nat) (sectors : Nat → Bool) : (deliverFor s die sectors).mem.services = s.mem.services :=
  foldl_memServices deliverThrough
    (fun t _ => foldl_memServices arrivePacket (fun t p => congrArg Mem.services (mem_arrivePacket t p)) _ t) _ s

theorem services_xorSector (m : Mem) (sector : Nat) (d : BitVec 128) : (m.xorSector sector d).services = m.services := by
  unfold Mem.xorSector
  split <;> rfl

theorem services_decodeAll (m : Mem) (line : Nat) : (m.decodeAll line).1.services = m.services := by
  unfold Mem.decodeAll
  dsimp only
  split
  · rfl
  · split
    · rfl
    · refine (foldl_services _ (fun t i => ?_) _ m :)
      split
      · rfl
      · exact services_xorSector ..

theorem services_fetchSectors (m : Mem) (line : Nat) (need : List Nat) : (m.fetchSectors line need).1.services = m.services := by
  unfold Mem.fetchSectors
  split
  · rfl
  · dsimp only
    split
    · rfl
    · exact services_decodeAll ..

theorem services_fetch (m : Mem) (addr n : Nat) : (m.fetch addr n).1.services = m.services := by
  unfold Mem.fetch
  split
  · rfl
  · exact foldl_keeps (fun x : Mem × List (Nat × Decoded) => x.1.services = m.services) _ _ _ rfl
      fun x y h => (services_fetchSectors ..).trans h

theorem services_noteSymbol (m : Mem) (line pos : Nat) (failed corrected : Bool) :
    (noteSymbol m line pos failed corrected).services = m.services := by
  unfold noteSymbol
  dsimp only
  split <;> rfl

theorem services_noteSymbols (m old : Mem) (line : Nat) (d : Decoded) : (noteSymbols m old line d).services = m.services :=
  foldl_services _ (fun _ _ => services_noteSymbol ..) _ m

theorem services_recordDecoded (s : State) (old : Mem) (line : Nat) (d : Decoded) :
    (recordDecoded s old line d).mem.services = s.mem.services := by
  cases d with
  | sound => rfl
  | corrected x => exact services_noteSymbols s.mem old line (.corrected x)
  | poisoned x => exact services_noteSymbols s.mem old line (.poisoned x)

theorem services_noteActivations (s : State) (line : Nat) : (noteActivations s line).mem.services = s.mem.services := by
  unfold noteActivations
  split <;> rfl

theorem services_recordFetched (s : State) (old : Mem) (line : Nat) (d : Decoded) :
    (recordFetched s old line d).mem.services = s.mem.services := by
  have noted := (services_noteActivations (recordDecoded s old line d) line).trans (services_recordDecoded s old line d)
  cases d with
  | sound => rfl
  | corrected x => exact noted
  | poisoned x => exact noted

theorem services_fetchLines (s : State) (die addr n : Nat) : (fetchLines s die addr n).mem.services = s.mem.services := by
  unfold fetchLines
  dsimp only
  rw [foldl_memServices _ fun _ _ => services_recordFetched ..]
  exact (services_fetch ..).trans (services_deliverFor ..)

theorem services_absorb (m : Mem) (addr n : Nat) : (m.absorb addr n).services = m.services := by
  unfold Mem.absorb
  split
  · rfl
  · exact foldl_services _ (fun m x => services_xorSector ..) _ m

theorem services_storeLocal (s : State) (w ma : Nat) (bs : List Byte) : (storeLocal s w ma bs).mem.services = s.mem.services := by
  unfold storeLocal
  dsimp only
  refine (services_absorb ..).trans ?_
  split
  · rfl
  · exact services_fetchLines ..

/-! ### Services of dropped frames (R339, R340) -/

/-- Groups, the clock and the frames that services stand for do not differ. -/
structure Serves (s t : State) : Prop where
  groups : t.groups = s.groups
  clock : t.clock = s.clock
  frames : t.mem.services.map Regen.frame = s.mem.services.map Regen.frame

theorem Serves.refl (s : State) : Serves s s := ⟨rfl, rfl, rfl⟩

theorem Serves.trans {s t r : State} (a : Serves s t) (b : Serves t r) : Serves s r :=
  ⟨b.groups.trans a.groups, b.clock.trans a.clock, b.frames.trans a.frames⟩

theorem serves_of_eq {α : Type} {s t : State} {p : State × α} {r : α} (h : p = (t, r)) (hp : Serves s p.1) : Serves s t := by
  subst h
  exact hp

theorem serves_of_unread {s t : State} (read : unread t = unread s) (services : t.mem.services = s.mem.services) : Serves s t := by
  have clock := congrArg State.clock read
  exact ⟨groups_of_unread read, clock, by rw [services]⟩

theorem serves_draw {α : Type} (s : State) (xs : List α) (x : α) : Serves s (draw s xs x).1 := by
  cases xs <;> exact ⟨rfl, rfl, rfl⟩

theorem serves_noteReads (s : State) (core addr n : Nat) : Serves s (noteReads s core addr n) :=
  foldl_keeps (Serves s) _ _ _ (.refl s) fun _ _ h => h.trans ⟨rfl, rfl, rfl⟩

theorem serves_fetchLines (s : State) (die addr n : Nat) : Serves s (fetchLines s die addr n) :=
  serves_of_unread (unread_fetchLines ..) (services_fetchLines ..)

theorem serves_readTable (s : State) (w : Who) (covers : Nat → Option Nat → Bool) (others : State → Nat → List Nat) (dpa n : Nat) :
    Serves s (readTable s w covers others dpa n).1 := by
  unfold readTable
  dsimp only
  split
  · exact .refl s
  · split
    · exact .refl s
    · have read := (serves_fetchLines s (writerOf w.core) (entryAddr (s.mem.entry (dpa / 65536)) (dpa % 65536)) n).trans
        (serves_noteReads _ w.core (entryAddr (s.mem.entry (dpa / 65536)) (dpa % 65536)) n)
      split
      · exact read
      · exact read.trans (serves_draw ..)

theorem serves_walkFrom (w : Who) (va level : Nat) (s : State) (table : Nat) : Serves s (walkFrom w va level s table).1 := by
  induction level generalizing s table with
  | zero => exact .refl s
  | succ level ih =>
    unfold walkFrom
    dsimp only
    split
    · next h => exact serves_of_eq h (serves_readTable ..)
    · next t x h =>
      have read : Serves s t := serves_of_eq h (serves_readTable ..)
      split
      · exact read
      · split
        · exact read
        · split
          · split
            · exact read
            · exact read.trans (ih ..)
          · exact read

theorem serves_walk (s : State) (w : Who) (va : Nat) : Serves s (walk s w va).1 := by
  unfold walk
  split
  · next h => exact serves_of_eq h (serves_readTable ..)
  · next t x h =>
    have read : Serves s t := serves_of_eq h (serves_readTable ..)
    split
    · exact read
    · exact read.trans (serves_walkFrom ..)

theorem serves_translate (s : State) (w : Who) (k : Kind) (typed : Bool) (va : Nat) : Serves s (translate s w k typed va).1 := by
  have leaf : Serves s (leafOf s w k typed va).1 := by
    unfold leafOf
    split
    · exact .refl s
    · split
      · next h => exact serves_of_eq h (serves_walk ..)
      · next h => split <;> exact serves_of_eq h (serves_walk ..)
  unfold translate
  split
  · next h => exact serves_of_eq h leaf
  · next h => split <;> exact serves_of_eq h leaf

/-- A load of an agent that is no thread. -/
theorem serves_loadBytes (s : State) {w : Who} (agent : w.thread = none) (k : Kind) (va n : Nat) :
    Serves s (loadBytes s w k va n).1 := by
  have alone : ∀ (t : State) (ma : Nat), noteThread t w ma n = t := by
    intro t ma
    unfold noteThread
    rw [agent]
  unfold loadBytes
  split
  · next h => exact serves_of_eq h (serves_translate ..)
  · next t e dpa ma h =>
    have read : Serves s t := serves_of_eq h (serves_translate ..)
    dsimp only
    rw [alone]
    have noted := (read.trans (serves_fetchLines t (writerOf w.core) ma n)).trans (serves_noteReads _ w.core ma n)
    split
    · split <;> exact noted
    · split <;> exact noted
  · next h =>
    have read := serves_of_eq h (serves_translate ..)
    split
    · exact read.trans ⟨rfl, rfl, rfl⟩
    · exact read
  · next h =>
    have read := serves_of_eq h (serves_translate ..)
    split
    · exact read.trans ⟨rfl, rfl, rfl⟩
    · exact read

theorem serves_loadPieces (s : State) {w : Who} (agent : w.thread = none) (ps : List (Nat × Nat)) :
    Serves s (loadPieces s w ps).1 := by
  induction ps generalizing s with
  | nil => exact .refl s
  | cons p ps ih =>
    unfold loadPieces
    split
    · next h => exact (serves_of_eq h (serves_loadBytes s agent ..)).trans ⟨rfl, rfl, rfl⟩
    · next t bs h =>
      have first : Serves s t := serves_of_eq h (serves_loadBytes s agent ..)
      have rest := first.trans (ih t)
      split
      · next h' => rw [h'] at rest; exact rest.trans ⟨rfl, rfl, rfl⟩
      · next h' => rw [h'] at rest; exact rest

theorem serves_storeLocal (s : State) (w ma : Nat) (bs : List Byte) : Serves s (storeLocal s w ma bs) := by
  have fetched : Serves s (if (ma % 16 == 0 && bs.length % 16 == 0) = true then s else fetchLines s w ma bs.length) := by
    split
    · exact .refl s
    · exact serves_fetchLines ..
  exact ⟨fetched.groups, fetched.clock, by rw [services_storeLocal]⟩

theorem serves_deviceStore (s : State) (w : Who) (va : Nat) (bs : List Byte) : Serves s (deviceStore s w va bs).1 := by
  unfold deviceStore deviceStoreMarked
  dsimp only
  split
  · next h => exact serves_of_eq h (serves_translate ..)
  · next h => exact (serves_of_eq h (serves_translate ..)).trans (serves_storeLocal ..)
  · next h => exact (serves_of_eq h (serves_translate ..)).trans ⟨rfl, rfl, rfl⟩
  · next h => exact (serves_of_eq h (serves_translate ..)).trans ⟨rfl, rfl, rfl⟩

theorem serves_deviceStoreAll (w : Who) (bs : List (List Byte)) (s : State) (va : Nat) : Serves s (deviceStoreAll s w va bs).1 := by
  induction bs generalizing s va with
  | nil => exact .refl s
  | cons b bs ih =>
    unfold deviceStoreAll
    split
    · next h => exact serves_of_eq h (serves_deviceStore ..)
    · next h => exact (serves_of_eq h (serves_deviceStore ..)).trans (ih ..)

theorem serves_ringPost (s : State) (w : Who) (q : Nat) (bytes : List Byte) : Serves s (ringPost s w q bytes).1 := by
  unfold ringPost
  dsimp only
  split
  · exact .refl s
  · split
    · exact .refl s
    · split
      · next h => exact serves_of_eq h (serves_deviceStoreAll ..)
      · next h => exact (serves_of_eq h (serves_deviceStoreAll ..)).trans ⟨rfl, rfl, rfl⟩

theorem serves_askLine (s : State) (line : Nat) : Serves s (askLine s line) := by
  unfold askLine
  split <;> exact ⟨rfl, rfl, rfl⟩

theorem serves_askBytes (s : State) (core : Nat) (peer : Option Nat) (addr n : Nat) : Serves s (askBytes s core peer addr n) := by
  unfold askBytes
  split <;> exact ⟨rfl, rfl, rfl⟩

theorem serves_postRegen (s : State) (f : Nat) : Serves s (postRegen s f) := by
  have asks : ∀ (t : State) (b : XBad), Serves t (match b with
      | .wait line => askLine t line
      | .ask peer a n => askBytes t 48 peer a n
      | _ => t) := by
    intro t b
    cases b with
    | wait line => exact serves_askLine t line
    | ask peer a n => exact serves_askBytes t 48 peer a n
    | cause n => exact .refl t
    | dropped f rg => exact .refl t
    | poison a => exact .refl t
  unfold postRegen
  split
  · dsimp only
    split
    · exact .refl s
    · split
      · next h => exact (serves_of_eq h (serves_loadPieces s rfl _)).trans (asks ..)
      · next h =>
        have loaded := serves_of_eq h (serves_loadPieces s rfl _)
        split
        · next h' =>
          refine (loaded.trans (serves_of_eq h' (serves_ringPost ..))).trans ⟨rfl, rfl, ?_⟩
          dsimp only
          rw [List.map_map]
          refine List.map_congr_left fun x _ => ?_
          rw [Function.comp_apply]
          split <;> rfl
        · next h' => exact (loaded.trans (serves_of_eq h' (serves_ringPost ..))).trans (asks ..)
        · next h' => exact loaded.trans (serves_of_eq h' (serves_ringPost ..))
  · exact .refl s

end Sys2Proof.Machine


/-!
SUPPORT. The outcome of a failed check, as each reason has it (R327 to R329, R339, R438).
-/
namespace Sys2Proof.Machine

open Sys2Proof

/-! ### Where a service begins (R339) -/

/-- A service that an access starts stands among the services, and nothing touches the groups. -/
theorem startRegen_starts {s : State} {w : Who} {f va : Nat} (none' : regenOf s.mem f = none)
    (registered : (tfind s.mem.regen f).isSome = true) (shallow : regenDepth s w ≤ 4) (free : (freeMa s.mem w.part).isSome = true) :
    ∃ t, startRegen s w f va true = (t, true) ∧ t.groups = s.groups ∧ t.clock = s.clock ∧ ∃ r ∈ t.mem.services, r.frame = f := by
  obtain ⟨e, entry⟩ := Option.isSome_iff_exists.mp registered
  obtain ⟨x, found⟩ := Option.isSome_iff_exists.mp free
  have deep : (!true || decide (4 < regenDepth s w)) = false := by simpa using shallow
  unfold startRegen
  rw [none', entry]
  dsimp only
  rw [deep, if_neg Bool.false_ne_true, takeMaFrame, found]
  dsimp only
  refine ⟨_, rfl, ?_⟩
  rw [← List.mem_map, (serves_postRegen _ f).groups, (serves_postRegen _ f).clock, (serves_postRegen _ f).frames]
  refine ⟨rfl, rfl, List.mem_map.mpr ?_⟩
  exact ⟨_, List.mem_append_right _ (List.mem_singleton_self _), rfl⟩

/-! ### Each outcome at the word -/

section
variable {s t : State} {u : Issue} {g : Group} {L : Launch} {l first id : Nat}

/-- Where the unit's fragment stands stopped: FailsAs' words for it. -/
def StandsAt (s : State) (u : Issue) (l first id : Nat) (g : Group) (t : State) (h : Hold) : Prop :=
  ∃ g', groupOf t u.key = some g' ∧ FragBecomes u (stoppedAt s u l first id h) g' ∧ { g' with frags := g.frags } = g

/-- The context has frozen with the fragment standing at its word, and a record tells of it. -/
def FreezesAt (s : State) (u : Issue) (L : Launch) (l first id : Nat) (g : Group) (t : State) (n : Nat) : Prop :=
  StandsAt s u l first id g t .frozen ∧ (ctxOf t L.ctx).frozen = true ∧
  ∃ e ∈ t.fresh, e.cause = 0x13 ∧ e.addr = some (0x10000 + L.ctx) ∧ e.synd = n

variable (group : groupOf t u.key = some g) (frags : g.frags = u.g.frags) (clock : t.clock = s.clock) (resumed : u.f.resumed = false)
  (noOp : u.f.op = none)
include group frags clock resumed noOp

theorem freezesAt_freezeCtx (n : Nat) (gang : Option Nat) :
    FreezesAt s u L l first id g (freezeCtx (stopFrag t u.key u.f.lanes l first (some id) .frozen) L.ctx n gang) n := by
  refine ⟨stands_stopFrag group frags clock resumed noOp _ _ _ _ (freezeCtx_groups ..), ?_, freezeCtx_event ..⟩
  rw [ctxOf_freezeCtx]

end

section
variable {s t : State} {u : Issue} {g : Group} {L : Launch} {l first id : Nat} (left : Leaves s t u.key g)
  (frags : g.frags = u.g.frags) (gang : g.gang = u.g.gang) (launch : launchOfGroup s u.g = some L) (resumed : u.f.resumed = false)
  (noOp : u.f.op = none)

include left gang launch in
theorem Leaves.launched : launchOfGroup t g = some L := by
  rw [left.launchOfGroup_eq, launchOfGroup, gang]
  exact launch

include left gang launch in
theorem Leaves.whoGroup_eq : whoGroup t u.key g = whoGroup s u.key u.g := by
  unfold whoGroup
  rw [left.launched gang launch, launch]

include left frags gang launch resumed noOp

/-- A translation fault is trapped at the word. -/
theorem takeOutcome_trap (first' : u.g.frags.find? (fun x => x.lanes == u.f.lanes) = some u.f) {q : Gang}
    (inGang : gangOf s u.g.gang = some q) (off : (traceOf s L.part).on = false) {tr : Trap} (word : tr.byWord = true) (low : tr.rung = 0)
    (at' : tr.pix = l) (x : Nat) :
    ∃ g' ops, FragBecomes u (stoppedAt s u l first id .ready) g' ∧ { g' with frags := g.frags } = g ∧
      TrapTaken { setGroup s u.key g' with ops := ops } { u with g := g', f := stoppedAt s u l first id .ready } L q tr
        (takeOutcome t u.key u.f.lanes u.words.length (.trap tr) x l l first (some id)) := by
  refine ⟨stoppedGroup u g s.clock l first id .ready, t.ops, stoppedGroup_becomes frags resumed noOp .., rfl, ?_⟩
  have stopped : takeOutcome t u.key u.f.lanes u.words.length (.trap tr) x l l first (some id) =
      takeTrap { setGroup s u.key (stoppedGroup u g s.clock l first id .ready) with ops := t.ops } u.key u.f.lanes u.words.length tr := by
    unfold takeOutcome
    rw [left.group]
    dsimp only
    rw [left.launched gang launch]
    dsimp only
    rw [stopFrag_eq left.group left.clock, left.others, ← at']
  have lanes : (stoppedAt s u l first id .ready).lanes = u.f.lanes := by
    rw [← stopOf_fragment resumed noOp]
    unfold stopOf Frag.holding
    split <;> rfl
  rw [stopped]
  have taken := takeTrap_taken (s := { setGroup s u.key (stoppedGroup u g s.clock l first id .ready) with ops := t.ops })
    (u := { u with g := stoppedGroup u g s.clock l first id .ready, f := stoppedAt s u l first id .ready }) (l := L) (q := q) (t := tr)
    (groupOf_setGroup ..) ?_ ?_ ?_ off word low
  · dsimp only at taken
    rw [lanes] at taken
    exact taken
  · dsimp only
    rw [lanes]
    exact find_stoppedGroup resumed noOp _ _ _ _ (frags ▸ first')
  · change launchOfGroup s (stoppedGroup u g s.clock l first id .ready) = some L
    rw [← launch, launchOfGroup, launchOfGroup, ← gang]
    rfl
  · change gangOf s g.gang = some q
    rw [gang, inGang]

/-- Another cause freezes the context. -/
theorem takeOutcome_freeze (n x : Nat) : FreezesAt s u L l first id g
    (takeOutcome t u.key u.f.lanes u.words.length (.freeze n) x l l first (some id)) n := by
  unfold takeOutcome
  rw [left.group]
  dsimp only
  rw [left.launched gang launch]
  exact freezesAt_freezeCtx left.group frags left.clock resumed noOp ..

/-- An access to a dropped frame that is not served, or no longer, freezes the context. -/
theorem takeOutcome_unserved {f x : Nat} {rg : Bool} {r : State}
    (starts : startRegen t (whoGroup s u.key u.g) f x rg = (r, false)) (groups : r.groups = t.groups) (clock : r.clock = t.clock) :
    FreezesAt s u L l first id g (takeOutcome t u.key u.f.lanes u.words.length (.regen f rg) x l l first (some id)) 10 := by
  unfold takeOutcome
  rw [left.group]
  dsimp only
  rw [left.launched gang launch]
  dsimp only
  rw [left.whoGroup_eq gang launch, starts]
  exact freezesAt_freezeCtx ((groupOf_of_groups groups _).trans left.group) frags (clock.trans left.clock) resumed noOp ..

/-- An access to a dropped frame that is served holds its fragment. -/
theorem takeOutcome_served {f x : Nat} {rg : Bool} {r : State}
    (starts : startRegen t (whoGroup s u.key u.g) f x rg = (r, true)) (groups : r.groups = t.groups) (clock : r.clock = t.clock) :
    StandsAt s u l first id g (takeOutcome t u.key u.f.lanes u.words.length (.regen f rg) x l l first (some id)) (.regen f) ∧
    (takeOutcome t u.key u.f.lanes u.words.length (.regen f rg) x l l first (some id)).mem = r.mem := by
  have group := (groupOf_of_groups groups u.key).trans left.group
  have stopped : takeOutcome t u.key u.f.lanes u.words.length (.regen f rg) x l l first (some id) =
      stopFrag r u.key u.f.lanes l first (some id) (.regen f) := by
    unfold takeOutcome
    rw [left.group]
    dsimp only
    rw [left.launched gang launch]
    dsimp only
    rw [left.whoGroup_eq gang launch, starts]
  rw [stopped]
  refine ⟨stands_stopFrag group frags (clock.trans left.clock) resumed noOp _ _ _ _ rfl, ?_⟩
  rw [stopFrag, modGroup_eq group]
  rfl

omit frags resumed noOp in
/-- The gang that consumes poison of a table is gone. -/
theorem takeOutcome_consume (a x : Nat) :
    gangOf (takeOutcome t u.key u.f.lanes u.words.length (.consume a) x l l first (some id)) u.g.gang = none ∧
    ∃ e ∈ (takeOutcome t u.key u.f.lanes u.words.length (.consume a) x l l first (some id)).fresh,
      e.cause = 0x20 ∧ e.sev = 3 ∧ e.addr = some a ∧ e.synd = l := by
  have launched := left.launched gang launch
  unfold takeOutcome
  rw [left.group]
  dsimp only
  rw [launched]
  dsimp only
  unfold launchOfGroup at launched
  split at launched
  · cases launched
  · next q inGang =>
    rw [← gang]
    exact consume_consumes inGang launched (poisonEvent t u.key g a l)

/-- A line of tier X is asked for, and waited for. -/
theorem takeOutcome_wait (line x : Nat) :
    StandsAt s u l first id g (takeOutcome t u.key u.f.lanes u.words.length (.wait line) x l l first (some id)) (.hostLine line) ∧
    ∃ r ∈ (takeOutcome t u.key u.f.lanes u.words.length (.wait line) x l l first (some id)).requests,
      r.kind = 3 ∧ r.addr = 128 * line := by
  unfold takeOutcome
  rw [left.group]
  dsimp only
  rw [left.launched gang launch]
  exact ⟨stands_stopFrag left.group frags left.clock resumed noOp _ _ _ _ (askLine_groups ..), askLine_asks ..⟩

/-- Bytes behind an aperture are asked for, and waited for. -/
theorem takeOutcome_ask (peer : Option Nat) (y n x : Nat) :
    StandsAt s u l first id g (takeOutcome t u.key u.f.lanes u.words.length (.ask peer y n) x l l first (some id)) .bytes ∧
    ∃ r ∈ (takeOutcome t u.key u.f.lanes u.words.length (.ask peer y n) x l l first (some id)).requests,
      r.kind = 4 ∧ r.peer = peer ∧ r.addr = y ∧ r.size = n := by
  unfold takeOutcome
  rw [left.group]
  dsimp only
  rw [left.launched gang launch]
  exact ⟨stands_stopFrag left.group frags left.clock resumed noOp _ _ _ _ (askBytes_groups ..), askBytes_asks ..⟩

/-- A dropped frame (R339): the fragment holds for its service, or the context freezes. -/
theorem takeOutcome_dropped (f x : Nat) (rg : Bool) (kind : Kind) :
    FailsAs s u L l first id (.dropped f rg) x kind g
      (takeOutcome t u.key u.f.lanes u.words.length (.regen f rg) x l l first (some id)) := by
  have agent : (whoGroup s u.key u.g).part = L.part := by
    unfold whoGroup
    rw [launch]
    rfl
  have fails : ∀ {r : State}, startRegen t (whoGroup s u.key u.g) f x rg = (r, false) → r.groups = t.groups → r.clock = t.clock →
      FreezesAt s u L l first id g (takeOutcome t u.key u.f.lanes u.words.length (.regen f rg) x l l first (some id)) 10 :=
    fun starts groups clock => takeOutcome_unserved left frags gang launch resumed noOp starts groups clock
  unfold FailsAs
  dsimp only
  rw [← left.mem]
  cases service : regenOf t.mem f with
  | some r =>
    dsimp only
    split
    · next open' =>
      obtain ⟨rfl, sound⟩ := open'
      refine (takeOutcome_served left frags gang launch resumed noOp (r := t) ?_ rfl rfl).1
      rw [startRegen, service]
      dsimp only
      rw [sound]
      rfl
    · next shut =>
      cases failed : r.failed with
      | true =>
        refine fails (r := t) ?_ rfl rfl
        rw [startRegen, service]
        dsimp only
        rw [failed]
        rfl
      | false =>
        have rg' : rg = false := by
          rw [← Bool.not_eq_true]
          exact fun yes => shut ⟨yes, failed⟩
        refine fails (r := failRegen t f) ?_ rfl rfl
        rw [startRegen, service]
        dsimp only
        rw [failed, rg']
        rfl
  | none =>
    dsimp only
    refine ⟨fun why => ?_, fun rg' registered shallow free => ?_⟩
    · refine fails (r := failRegen t f) ?_ rfl rfl
      rw [startRegen, service]
      dsimp only
      cases entry : tfind t.mem.regen f with
      | none => rfl
      | some e =>
        have closed : (!rg || decide (4 < regenDepth t (whoGroup s u.key u.g))) = true := by
          rcases why with no | no | no
          · rw [no]
            rfl
          · rw [entry] at no
            cases no
          · rw [regenDepth, ← left.mem] at no
            rw [Bool.or_eq_true, decide_eq_true_eq]
            exact Or.inr (Nat.lt_of_not_le no)
        dsimp only
        rw [closed, if_pos rfl]
    · subst rg'
      rw [regenDepth, ← left.mem] at shallow
      rw [← agent] at free
      obtain ⟨r, starts, groups, clock, served⟩ := startRegen_starts (va := x) service registered shallow free
      obtain ⟨stands, mem⟩ := takeOutcome_served left frags gang launch resumed noOp starts groups clock
      exact ⟨stands, mem ▸ served⟩

/-- A failed check takes its outcome. -/
theorem takeOutcome_fails (first' : u.g.frags.find? (fun x => x.lanes == u.f.lanes) = some u.f) (bad : XBad) (x : Nat) (kind : Kind) :
    FailsAs s u L l first id bad x kind g
      (takeOutcome t u.key u.f.lanes u.words.length (outcomeOf bad x kind l) x l l first (some id)) := by
  cases bad with
  | cause n =>
    have fault : translationFault n = true ↔ n = 1 ∨ n = 2 ∨ n = 5 ∨ n = 7 ∨ n = 8 ∨ n = 11 := by
      simp [translationFault, or_assoc]
    unfold outcomeOf FailsAs
    dsimp only
    by_cases yes : n = 1 ∨ n = 2 ∨ n = 5 ∨ n = 7 ∨ n = 8 ∨ n = 11
    · rw [if_pos yes, if_pos (fault.mpr yes)]
      intro q inGang off
      exact takeOutcome_trap left frags gang launch resumed noOp first' inGang off
        (tr := { cls := 9, info0 := BitVec.ofNat 64 x, info1 := BitVec.ofNat 64 (n + 256 * kind.code), pix := l }) rfl rfl rfl x
    · rw [if_neg yes, if_neg (yes ∘ fault.mp)]
      exact takeOutcome_freeze left frags gang launch resumed noOp n x
  | dropped f rg => exact takeOutcome_dropped left frags gang launch resumed noOp f x rg kind
  | poison a => exact takeOutcome_consume left gang launch a x
  | wait line => exact takeOutcome_wait left frags gang launch resumed noOp line x
  | ask peer y n => exact takeOutcome_ask left frags gang launch resumed noOp peer y n x

end

end Sys2Proof.Machine


/-!
SUPPORT. What the lanes of a memory word that stops have given its registers (R112, R328): the lanes below their values, and lanes that are
not Active zeros.
-/
namespace Sys2Proof.Machine

open Sys2Proof

/-! ### Values that land at once -/

theorem Leaves.refl {s : State} {key : Nat} {g : Group} (here : groupOf s key = some g) : Leaves s s key g := ⟨here, fun _ => rfl⟩

theorem Leaves.setGroup {s t : State} {key : Nat} {g : Group} (left : Leaves s t key g) (g' : Group) :
    Leaves s (setGroup t key g') key g' :=
  ⟨groupOf_setGroup .., fun h => (setGroup_setGroup ..).trans (left.others h)⟩

theorem Leaves.putOp {s t : State} {key : Nat} {g : Group} (left : Leaves s t key g) (id : Nat) (o : Op) :
    Leaves s (putOp t id o) key g := by
  refine ⟨left.group, fun h => ?_⟩
  have same := congrArg (fun x : State => { x with ops := (Machine.putOp t id o).ops }) (left.others h)
  exact same

/-- What values leave in a group that lands them. -/
theorem foldl_landOwed {s : State} {key : Nat} (ws : List Owed) (own : ∀ w ∈ ws, w.group = key) {t : State} {g : Group}
    (left : Leaves s t key g) :
    Leaves s (ws.foldl landOwed t) key (ws.foldl landed g) ∧ (ws.foldl landOwed t).ops = t.ops := by
  induction ws generalizing t g with
  | nil => exact ⟨left, rfl⟩
  | cons w ws ih =>
    obtain rfl := own w List.mem_cons_self
    have one : landOwed t w = Machine.setGroup t w.group (landed g w) := modGroup_eq left.group _
    rw [List.foldl_cons, List.foldl_cons, one]
    exact ih (fun v hv => own v (List.mem_cons_of_mem _ hv)) (left.setGroup _)

theorem landed_keeps (g : Group) (w : Owed) : { landed g w with v := g.v, s := g.s } = g := by
  unfold landed
  split
  · rfl
  · split <;> rfl

/-- Nothing of a group but its registers takes what lands. -/
theorem foldl_landed_keeps (ws : List Owed) (g : Group) : { ws.foldl landed g with v := g.v, s := g.s } = g := by
  induction ws generalizing g with
  | nil => rfl
  | cons w ws ih =>
    have rest := congrArg (fun h : Group => { h with v := g.v, s := g.s }) (ih (landed g w))
    exact rest.trans (landed_keeps g w)

theorem held_foldl_landed (ws : List Owed) (g : Group) : (ws.foldl landed g).held = g.held := by
  have same := congrArg Group.held (foldl_landed_keeps ws g)
  exact same

/-! ### What a lane's value writes -/

section
variable {d : Opnd} (vector : d.toNat < 192) (n first : Nat)
include vector

theorem owedOf_vector (key l v : Nat) : owedOf key d n first l v =
    (List.range n).map (fun i => ⟨key, l, d.toNat + i, BitVec.ofNat 64 (bits v (32 * i) 32), l⟩) :=
  if_neg (by simpa [isScalar] using vector)

/-- A lane's registers take its value. -/
theorem vreg_landVector {g : Group} (key : Nat) {l : Nat} (hl : l < 64) (v : Nat) (fits : d.toNat + n ≤ 8 * g.held) (r k : Nat) (hk : k < 64) :
    vreg ((owedOf key d n first l v).foldl landed g) r k =
      if k = l ∧ d.toNat ≤ r ∧ r < d.toNat + n then BitVec.ofNat 32 (v / 2 ^ (32 * (r - d.toNat))) else vreg g r k := by
  rw [owedOf_vector vector]
  induction n with
  | zero => rw [if_neg (by omega)]; rfl
  | succ n ih =>
    rw [List.range_succ, List.map_append, List.foldl_append, List.map_singleton, List.foldl_cons, List.foldl_nil]
    refine (vreg_landed _ (Nat.le_of_lt hl) r hk).trans ?_
    rw [held_foldl_landed]
    dsimp only
    by_cases here : l = k ∧ d.toNat + n = r
    · obtain ⟨rfl, rfl⟩ := here
      rw [if_pos ⟨rfl, rfl, by omega⟩, if_pos ⟨rfl, by omega, by omega⟩, show d.toNat + n - d.toNat = n by omega]
      apply BitVec.eq_of_toNat_eq
      simp only [bits, BitVec.toNat_setWidth, BitVec.toNat_ofNat]
      rw [Nat.mod_eq_of_lt (Nat.lt_trans (Nat.mod_lt _ (by decide)) (by decide : 2 ^ 32 < 2 ^ 64)), Nat.mod_mod]
    · rw [if_neg (fun yes => here ⟨yes.1, yes.2.1⟩), ih (by omega)]
      refine if_congr ?_ rfl rfl
      constructor
      · rintro ⟨a, b, c⟩
        exact ⟨a, b, by omega⟩
      · rintro ⟨rfl, b, c⟩
        refine ⟨rfl, b, ?_⟩
        by_contra beyond
        exact here ⟨rfl, by omega⟩

/-- The registers of lanes take their values. -/
theorem vreg_landVectors (key : Nat) (v : Nat → Nat) (ls : List Nat) (small : ∀ l ∈ ls, l < 64) {g : Group}
    (fits : d.toNat + n ≤ 8 * g.held) (r k : Nat) (hk : k < 64) :
    vreg ((ls.flatMap (fun l => owedOf key d n first l (v l))).foldl landed g) r k =
      if k ∈ ls ∧ d.toNat ≤ r ∧ r < d.toNat + n then BitVec.ofNat 32 (v k / 2 ^ (32 * (r - d.toNat))) else vreg g r k := by
  induction ls generalizing g with
  | nil => rw [if_neg (by simp)]; rfl
  | cons l ls ih =>
    rw [List.flatMap_cons, List.foldl_append,
      ih (fun x hx => small x (List.mem_cons_of_mem _ hx)) (by rw [held_foldl_landed]; exact fits),
      vreg_landVector vector n first key (small l List.mem_cons_self) _ fits r k hk]
    by_cases at' : d.toNat ≤ r ∧ r < d.toNat + n
    · by_cases later : k ∈ ls
      · rw [if_pos ⟨later, at'⟩, if_pos ⟨List.mem_cons_of_mem _ later, at'⟩]
      · by_cases here : k = l
        · subst here
          rw [if_neg (fun yes => later yes.1), if_pos ⟨rfl, at'⟩, if_pos ⟨List.mem_cons_self, at'⟩]
        · rw [if_neg (fun yes => later yes.1), if_neg (fun yes => here yes.1),
            if_neg (fun yes => (List.mem_cons.mp yes.1).elim here later)]
    · rw [if_neg (fun yes => at' yes.2), if_neg (fun yes => at' yes.2), if_neg (fun yes => at' yes.2)]

/-- Values of lanes leave scalars as they are. -/
theorem s_landVectors (key : Nat) (v : Nat → Nat) (ls : List Nat) (small : ∀ l ∈ ls, l < 64) (g : Group) :
    ((ls.flatMap (fun l => owedOf key d n first l (v l))).foldl landed g).s = g.s := by
  refine foldl_keeps_mem (fun h : Group => h.s = g.s) landed _ g rfl fun h w hw same => ?_
  obtain ⟨l, hl, hw⟩ := List.mem_flatMap.mp hw
  rw [owedOf_vector vector] at hw
  obtain ⟨i, -, rfl⟩ := List.mem_map.mp hw
  unfold landed
  rw [if_neg (Nat.ne_of_lt (small l hl))]
  split
  · exact same
  · exact same

end

section
variable {d : Opnd} (scalar : 192 ≤ d.toNat) (n first : Nat)
include scalar

theorem owedOf_scalar (key l v : Nat) :
    owedOf key d n first l v = if l = first then [⟨key, 64, scalarNo d, BitVec.ofNat 64 v, l⟩] else [] :=
  if_pos (by simpa [isScalar] using scalar)

/-- A scalar takes the value of the lane that it is given. -/
theorem landScalar (key : Nat) (v : Nat → Nat) (ls : List Nat) (g : Group) :
    (∀ r, sreg ((ls.flatMap (fun l => owedOf key d n first l (v l))).foldl landed g) r =
      if first ∈ ls ∧ r = d.toNat - 192 then BitVec.ofNat 64 (v first) else sreg g r) ∧
    ((ls.flatMap (fun l => owedOf key d n first l (v l))).foldl landed g).v = g.v := by
  induction ls generalizing g with
  | nil => exact ⟨fun r => by rw [if_neg (by simp)]; rfl, rfl⟩
  | cons l ls ih =>
    rw [List.flatMap_cons, List.foldl_append, owedOf_scalar scalar]
    by_cases here : l = first
    · subst here
      rw [if_pos rfl, List.foldl_cons, List.foldl_nil]
      obtain ⟨later, same⟩ := ih (setSreg g (scalarNo d) (BitVec.ofNat 64 (v l)))
      refine ⟨fun r => ?_, same⟩
      refine (later r).trans ?_
      rw [sreg_setSreg]
      by_cases at' : r = d.toNat - 192
      · rw [if_pos (show r = scalarNo d from at'), ite_self, if_pos ⟨List.mem_cons_self, at'⟩]
      · rw [if_neg (fun yes => at' yes.2), if_neg (show ¬ r = scalarNo d from at'), if_neg (fun yes => at' yes.2)]
    · rw [if_neg here, List.foldl_nil]
      obtain ⟨later, same⟩ := ih g
      refine ⟨fun r => (later r).trans (if_congr ?_ rfl rfl), same⟩
      rw [List.mem_cons, or_iff_right (Ne.symm here)]

end

/-! ### What a word that stops has written -/

/-- A word that owes nothing of the lanes below has written nothing. -/
theorem writesBelow_nothing {u : Issue} {p : Option Pfx} {l : Nat} (none' : ∀ k, lane (execLanes u p) k = true → ¬ k < l)
    (act : execLanes u p ≠ 0) (d : Opnd) (n : Nat) (x : Nat → Nat) (g : Group) {xs : List Spin} (spins : d.toNat < 192 → xs = g.spins) :
    WritesBelow u p false d n x l g { g with spins := xs } := by
  refine ⟨fun r k _ => ?_, fun r => ?_, spins, rfl⟩
  · split
    · rfl
    · split
      · next yes =>
        rw [if_neg (none' k yes)]
        rfl
      · rfl
  · rw [if_neg fun yes => none' _ (lane_lowest act) yes.2.2]
    rfl

/-- The lanes of a word below one, in order. -/
def lanesBelow (u : Issue) (p : Option Pfx) (l : Nat) : List Nat := (lanesOf (execLanes u p)).filter (· < l)

theorem mem_lanesBelow {u : Issue} {p : Option Pfx} {l k : Nat} :
    k ∈ lanesBelow u p l ↔ lane (execLanes u p) k = true ∧ k < 64 ∧ k < l := by
  simp [lanesBelow, List.mem_filter, mem_lanesOf, and_assoc]

/-- The zeros of lanes that are not Active (R112). -/
def zerosOwed (u : Issue) (k : LaneWord) : List Owed :=
  if k.z = true ∧ k.d.toNat < 192
    then (lanesOf (u.f.lanes &&& ~~~(execLanes u k.p))).flatMap (fun l => owedOf u.key k.d k.n 64 l 0) else []

theorem landZeros {u : Issue} {k : LaneWord} (vector : k.d.toNat < 192) {g : Group} (fits : k.d.toNat + k.n ≤ 8 * g.held) :
    (∀ r i, i < 64 → vreg ((zerosOwed u k).foldl landed g) r i =
      if k.z = true ∧ lane u.f.lanes i = true ∧ lane (execLanes u k.p) i = false ∧ k.d.toNat ≤ r ∧ r < k.d.toNat + k.n then 0
      else vreg g r i) ∧
    ((zerosOwed u k).foldl landed g).s = g.s := by
  unfold zerosOwed
  by_cases z : k.z = true
  · rw [if_pos ⟨z, vector⟩]
    have small : ∀ l ∈ lanesOf (u.f.lanes &&& ~~~(execLanes u k.p)), l < 64 := fun l hl => (mem_lanesOf.mp hl).2
    refine ⟨fun r i hi => ?_, s_landVectors vector k.n 64 u.key (fun _ => 0) _ small g⟩
    rw [vreg_landVectors vector k.n 64 u.key (fun _ => 0) _ small fits r i hi]
    refine if_congr ?_ (by rw [Nat.zero_div]; rfl) rfl
    have idle : i ∈ lanesOf (u.f.lanes &&& ~~~(execLanes u k.p)) ↔ lane u.f.lanes i = true ∧ lane (execLanes u k.p) i = false := by
      rw [mem_lanesOf, lane_and]
      simp [lane, hi]
    rw [idle]
    simp [z, and_assoc]
  · rw [if_neg (fun yes => z yes.1)]
    exact ⟨fun r i _ => by rw [if_neg (fun yes => z yes.1)]; rfl, rfl⟩

section
variable {u : Issue} {k : LaneWord} {g : Group} (x : Nat → Nat) (l : Nat)

/-- What lands of a load whose lanes below one have been performed. -/
def valuesBelow (u : Issue) (k : LaneWord) (x : Nat → Nat) (l : Nat) : List Owed :=
  (lanesBelow u k.p l).flatMap (fun i => owedOf u.key k.d k.n (lowest (execLanes u k.p)) i (x i))

theorem vreg_stopsBelow (vector : k.d.toNat < 192) (fits : k.d.toNat + k.n ≤ 8 * g.held) {r i : Nat} (hi : i < 64) :
    vreg ((valuesBelow u k x l).foldl landed ((zerosOwed u k).foldl landed g)) r i =
      if lane u.f.lanes i = false ∨ r < k.d.toNat ∨ k.d.toNat + k.n ≤ r then vreg g r i
      else if lane (execLanes u k.p) i then
        (if i < l then BitVec.ofNat 32 (x i / 2 ^ (32 * (r - k.d.toNat))) else vreg g r i)
      else if k.z then 0 else vreg g r i := by
  have small : ∀ i ∈ lanesBelow u k.p l, i < 64 := fun i hi => (mem_lanesBelow.mp hi).2.1
  have active : lane (execLanes u k.p) i = true → lane u.f.lanes i = true := fun yes => by
    unfold execLanes activeOf at yes
    dsimp only at yes
    split at yes <;> simp only [lane_and, Bool.and_eq_true] at yes
    · exact yes.1.1
    · exact yes.1
  unfold valuesBelow
  rw [vreg_landVectors vector k.n _ u.key x _ small (by rw [held_foldl_landed]; exact fits) r i hi,
    (landZeros vector fits).1 r i hi]
  by_cases within : k.d.toNat ≤ r ∧ r < k.d.toNat + k.n
  · have inside : ¬ (r < k.d.toNat ∨ k.d.toNat + k.n ≤ r) := by omega
    simp only [mem_lanesBelow, hi, within, inside, true_and, and_true, or_false]
    cases act : lane (execLanes u k.p) i with
    | true => simp [active act]
    | false =>
      cases lane u.f.lanes i with
      | true => simp
      | false => simp
  · rw [if_neg (fun yes => within yes.2), if_neg (fun yes => within yes.2.2.2), if_pos (by omega)]

theorem sreg_stopsBelow (scalar : 192 ≤ k.d.toNat) (act : execLanes u k.p ≠ 0) (r : Nat) :
    sreg ((valuesBelow u k x l).foldl landed g) r =
      if r = k.d.toNat - 192 ∧ lowest (execLanes u k.p) < l then BitVec.ofNat 64 (x (lowest (execLanes u k.p))) else sreg g r := by
  refine ((landScalar scalar k.n _ u.key x _ g).1 r).trans (if_congr ?_ rfl rfl)
  have low := lane_lowest act
  rw [mem_lanesBelow, and_comm]
  simp [low, lane_lt low]

/-- What has landed of a load that stops at a lane. -/
theorem writesBelow_values (act : execLanes u k.p ≠ 0) (fits : k.d.toNat < 192 → k.d.toNat + k.n ≤ 8 * g.held) :
    WritesBelow u k.p k.z k.d k.n x l g ((zerosOwed u k ++ valuesBelow u k x l).foldl landed g) := by
  have rest := foldl_landed_keeps (zerosOwed u k ++ valuesBelow u k x l) g
  have spins := congrArg Group.spins rest
  refine ⟨fun r i hi => ?_, fun r => ?_, fun _ => spins, congrArg (fun h : Group => { h with spins := g.spins }) rest⟩
  · rw [List.foldl_append]
    by_cases vector : k.d.toNat < 192
    · rw [vreg_stopsBelow x l vector (fits vector) hi]
      exact if_congr (or_iff_right (Nat.not_le.mpr vector)).symm rfl rfl
    · have none' : zerosOwed u k = [] := if_neg (fun yes => vector yes.2)
      rw [if_pos (Or.inl (Nat.not_lt.mp vector)), none', List.foldl_nil, vreg,
        show ((valuesBelow u k x l).foldl landed g).v = g.v from (landScalar (Nat.not_lt.mp vector) k.n _ u.key x _ g).2]
      rfl
  · rw [List.foldl_append]
    by_cases vector : k.d.toNat < 192
    · have small : ∀ i ∈ lanesBelow u k.p l, i < 64 := fun i hi => (mem_lanesBelow.mp hi).2.1
      rw [if_neg (fun yes => Nat.not_le.mpr vector yes.1), sreg, valuesBelow, s_landVectors vector _ _ _ _ _ small,
        (landZeros vector (fits vector)).2]
      rfl
    · have none' : zerosOwed u k = [] := if_neg (fun yes => vector yes.2)
      rw [none', List.foldl_nil, sreg_stopsBelow x l (Nat.not_lt.mp vector) act]
      exact if_congr (by simp [Nat.not_lt.mp vector]) rfl rfl

end

/-- The spin detection may have been told what a scalar takes. -/
theorem writesBelow_told {u : Issue} {p : Option Pfx} {z : Bool} {d : Opnd} {n l : Nat} {x : Nat → Nat} {g g' : Group} {xs : List Spin}
    (spins : d.toNat < 192 → xs = g.spins) (writes : WritesBelow u p z d n x l { g with spins := xs } g') :
    WritesBelow u p z d n x l g g' := by
  obtain ⟨vectors, scalars, same, rest⟩ := writes
  exact ⟨vectors, scalars, fun vector => (same vector).trans (spins vector), congrArg (fun h : Group => { h with spins := g.spins }) rest⟩

/-- A load that gives its registers at once has given those of the lanes below, and zeros under z. -/
theorem writesBelow_owed {u : Issue} (resumed : u.f.resumed = false) {k : LaneWord} (load : k.load = true)
    (act : execLanes u k.p ≠ 0) {g : Group} (fits : k.d.toNat < 192 → k.d.toNat + k.n ≤ 8 * g.held) (x : Nat → Nat)
    (bytes : Nat → List Nat) (l : Nat) {xs : List Spin} (spins : k.d.toNat < 192 → xs = g.spins) :
    WritesBelow u k.p k.z k.d k.n x l g
      ((owedBy u k (lowest (execLanes u k.p)) ((lanesBelow u k.p l).map (fun i => (i, ⟨some (x i), false, bytes i⟩)))).foldl landed
        { g with spins := xs }) := by
  rw [owedBy_loads resumed load]
  exact writesBelow_told spins (writesBelow_values x l act fits)

end Sys2Proof.Machine


/-!
SUPPORT. A memory word one of whose lanes fails its check (R328): what it has given stands, and the check's outcome is taken.
-/
namespace Sys2Proof.Machine

open Sys2Proof

/-! ### What the performed lanes leave where one fails -/

theorem leaves_spinsTold {s : State} {u : Issue} {g : Group} (here : groupOf s u.key = some g) (k : LaneWord) (rs : List (Nat × LaneRes)) :
    ∃ xs, Leaves s (spinsTold s u k rs) u.key { g with spins := xs } ∧ (spinsTold s u k rs).ops = s.ops ∧
      (spinsTold s u k rs).requests = s.requests ∧ ((k.load = true → k.d.toNat < 192) → xs = g.spins) := by
  unfold spinsTold
  split
  · next told =>
    have scalar : k.load = true ∧ 192 ≤ k.d.toNat := by simpa [isScalar] using told
    have never : (k.load = true → k.d.toNat < 192) → ∀ xs, xs = g.spins := fun no => absurd (no scalar.1) (Nat.not_lt.mpr scalar.2)
    unfold noteSeen
    rw [here]
    dsimp only
    split
    · exact ⟨g.spins, .refl here, rfl, rfl, fun _ => rfl⟩
    · exact ⟨_, (Leaves.refl here).setGroup _, rfl, rfl, fun no => never no _⟩
  · exact ⟨g.spins, .refl here, rfl, rfl, fun _ => rfl⟩

theorem owedBy_own {u : Issue} {k : LaneWord} {first : Nat} {rs : List (Nat × LaneRes)} : ∀ w ∈ owedBy u k first rs, w.group = u.key := by
  have own : ∀ first l v, ∀ w ∈ owedOf u.key k.d k.n first l v, w.group = u.key := by
    intro first l v w hw
    unfold owedOf at hw
    split at hw
    · split at hw
      · rw [List.mem_singleton.mp hw]
      · cases hw
    · obtain ⟨i, -, rfl⟩ := List.mem_map.mp hw
      rfl
  intro w hw
  rcases List.mem_append.mp hw with zero | value
  · unfold zeroedLanes at zero
    split at zero
    · cases zero
    · obtain ⟨l, -, hl⟩ := List.mem_flatMap.mp zero
      exact own _ _ _ w hl
  · split at value
    · obtain ⟨x, -, hx⟩ := List.mem_flatMap.mp value
      split at hx
      · cases hx
      · exact own _ _ _ w hx
    · cases value

/-- The group's registers as a word that stops leaves them: given at once, or owed where a counter counts the word. -/
def givenBy (u : Issue) (k : LaneWord) (first : Nat) (rs : List (Nat × LaneRes)) (g : Group) : Group :=
  if k.counter.isSome then g else (owedBy u k first rs).foldl landed g

/-- The registers are given, or owed. -/
theorem leaves_giveOwed {s t : State} {u : Issue} {g : Group} (left : Leaves s t u.key g) {k : LaneWord} {id first : Nat}
    {rs : List (Nat × LaneRes)} (ops : tfind t.ops id = some (begun u.key k.counter k.load)) (mine : Unasked t id) :
    ∃ o, Leaves s (giveOwed t id (k.counter.isSome || peerOpen t id) (owedBy u k first rs)) u.key (givenBy u k first rs g) ∧
      tfind (giveOwed t id (k.counter.isSome || peerOpen t id) (owedBy u k first rs)).ops id = some o ∧ o.waits = 0 := by
  rw [peerOpen_unasked mine, Bool.or_false]
  unfold givenBy
  cases k.counter.isSome with
  | true =>
    rw [giveOwed_counted ops]
    exact ⟨_, left.putOp .., tfind_putOp .., rfl⟩
  | false =>
    obtain ⟨landed, same⟩ := foldl_landOwed (owedBy u k first rs) owedBy_own left
    exact ⟨_, landed, (congrArg (tfind · id) same).trans ops, rfl⟩

theorem afterLanes_leaves {s : State} {u : Issue} {g : Group} (here : groupOf s u.key = some g) {k : LaneWord} {id first : Nat}
    {rs : List (Nat × LaneRes)} (quiet : watch s u k.kind rs = s) (own : ∀ x ∈ rs, x.2.sent = false)
    (ops : tfind s.ops id = some (begun u.key k.counter k.load)) (mine : Unasked s id) :
    ∃ xs, Leaves s (afterLanes s u k id first rs) u.key (givenBy u k first rs { g with spins := xs }) ∧
      lowerOpen (afterLanes s u k id first rs) k id = false ∧ ((k.load = true → k.d.toNat < 192) → xs = g.spins) := by
  obtain ⟨xs, told, toldOps, requests, spins⟩ := leaves_spinsTold here k rs
  have none_sent : rs.filter (fun x => x.2.sent) = [] := by
    rw [List.filter_eq_nil_iff]
    intro x hx
    simp [own x hx]
  obtain ⟨o, given, entry, waits⟩ := leaves_giveOwed (first := first) (rs := rs) told ((congrArg (tfind · id) toldOps).trans ops)
    (fun r hr => mine r (requests ▸ hr))
  have after : afterLanes s u k id first rs = putOp (giveOwed (spinsTold s u k rs) id
      (k.counter.isSome || peerOpen (spinsTold s u k rs) id) (owedBy u k first rs)) id { o with acquire := k.acquire || o.acquire } := by
    unfold afterLanes
    dsimp only
    rw [quiet, none_sent, addWaits_eq entry, acquires_putOp]
    rfl
  rw [after]
  refine ⟨xs, given.putOp .., ?_, spins⟩
  unfold lowerOpen
  rw [tfind_putOp, Option.map_some, Option.getD_some]
  dsimp only
  rw [waits]
  rfl

/-! ### The word -/

/-- A lane whose outcome is that of a failed check: the word stops there, and the outcome is taken. -/
theorem laneWord_stops {s s' : State} {u : Issue} (first' : u.g.frags.find? (fun x => x.lanes == u.f.lanes) = some u.f)
    (resumed : u.f.resumed = false) (noOp : u.f.op = none) {k : LaneWord} (act : execLanes u k.p ≠ 0)
    (room : counterFull u.g k.counter = none) {f : Nat → Nat → State → Nat → LaneOut} {rs : List (Nat × LaneRes)} {l x : Nat}
    {bad : XBad} {kind : Kind} {g : Group} {L : Launch}
    (run : runLanes (f s.nextOp (lowest (execLanes u k.p))) (counted s u k.counter k.load)
      (splitLanes s k (lanesOf (accessLanes u k))).1 = (s', rs, some (l, outcomeOf bad x kind l, x)))
    (here : groupOf s' u.key = some g) (frags : g.frags = u.g.frags) (gang : g.gang = u.g.gang)
    (launch : launchOfGroup s' u.g = some L) (ops : tfind s'.ops s.nextOp = some (begun u.key k.counter k.load))
    (mine : Unasked s' s.nextOp) (quiet : watch s' u k.kind rs = s') (own : ∀ x ∈ rs, x.2.sent = false) :
    ∃ t xs, laneWord s u k f = .next t ∧ ((k.load = true → k.d.toNat < 192) → xs = g.spins) ∧
      FailsAs s' u L l (lowest (execLanes u k.p)) s.nextOp bad x kind
        (givenBy u k (lowest (execLanes u k.p)) rs { g with spins := xs }) t := by
  have first : scalarLane u k.p = lowest (execLanes u k.p) := by simp [scalarLane, Frag.fresh, resumed]
  obtain ⟨xs, left, closed, spins⟩ := afterLanes_leaves (first := lowest (execLanes u k.p)) here quiet own ops mine
  have kept : ∀ h : Group, (givenBy u k (lowest (execLanes u k.p)) rs h).frags = h.frags ∧
      (givenBy u k (lowest (execLanes u k.p)) rs h).gang = h.gang := by
    intro h
    unfold givenBy
    split
    · exact ⟨rfl, rfl⟩
    · have rest := foldl_landed_keeps (owedBy u k (lowest (execLanes u k.p)) rs) h
      have sameFrags := congrArg Group.frags rest
      have sameGang := congrArg Group.gang rest
      exact ⟨sameFrags, sameGang⟩
  have stops := laneWord_fails act noOp room (f := f) (by rw [first]; exact run) (by rw [first]; exact closed)
  rw [first] at stops
  exact ⟨_, xs, stops, spins, takeOutcome_fails left ((kept _).1.trans frags) ((kept _).2.trans gang) launch resumed noOp first' bad x kind⟩

end Sys2Proof.Machine


/-!
SUPPORT. The memory words whose lanes' checks may fail (R311, R327): what each is, and what a failed check leaves.
-/
namespace Sys2Proof.Machine

open Sys2Proof

/-! ### What a check leaves (R332) -/

/-- Nothing that stays through reads differs but the groups. -/
def Stays (s t : State) : Prop := { unread t with groups := s.groups } = unread s

theorem Stays.refl (s : State) : Stays s s := rfl

theorem stays_of_unread {s t : State} (read : unread t = unread s) : Stays s t := by
  unfold Stays
  rw [read]
  rfl

theorem Stays.trans {s t r : State} (a : Stays s t) (b : Stays t r) : Stays s r := by
  unfold Stays at a b ⊢
  rw [← a, ← b]

theorem stays_of_eq {α : Type} {s t : State} {p : State × α} {r : α} (h : p = (t, r)) (hp : Stays s p.1) : Stays s t := by
  subst h
  exact hp

section
variable {s t : State} (stays : Stays s t)
include stays

theorem Stays.ops : t.ops = s.ops := by
  have same := congrArg State.ops stays
  exact same

theorem Stays.launchOfGroup_eq (g : Group) : launchOfGroup t g = launchOfGroup s g := by
  have gangs := congrArg State.gangs stays
  have launches := congrArg State.launches stays
  dsimp only [unread] at gangs launches
  unfold launchOfGroup gangOf launchOf
  rw [gangs, launches]

end

theorem stays_noteThread (s : State) (w : Who) (ma n : Nat) : Stays s (noteThread s w ma n) := by
  unfold noteThread
  split
  · exact .refl s
  · unfold noteLoad modGroup
    split <;> rfl

theorem stays_loadBytes (s : State) (w : Who) (k : Kind) (va n : Nat) : Stays s (loadBytes s w k va n).1 := by
  unfold loadBytes
  split
  · next h => exact stays_of_unread (unread_of_translate h)
  · next t e dpa ma h =>
    have read : Stays s (noteThread (noteReads (fetchLines t (writerOf w.core) ma n) w.core ma n) w ma n) :=
      (stays_of_unread ((unread_noteReads ..).trans ((unread_fetchLines ..).trans (unread_of_translate h)))).trans (stays_noteThread ..)
    dsimp only
    split
    · split <;> exact read
    · split <;> exact read
  · next h =>
    have read := stays_of_unread (unread_of_translate h)
    split
    · exact read.trans rfl
    · exact read
  · next h =>
    have read := stays_of_unread (unread_of_translate h)
    split
    · exact read.trans rfl
    · exact read

theorem stays_elementAt (s : State) (w : Who) (k : Kind) (nib : Bool) (addr : Nat) : Stays s (elementAt s w k nib addr).1 :=
  elementAt_keeps (P := Stays s) k nib addr (fun _ => stays_of_unread (unread_leafOf ..))
    (fun _ sci stays => stays.trans (stays_of_unread (unread_readDescriptor _ w sci)))
    (fun _ va n stays => stays.trans (stays_loadBytes _ w .load va n))

/-- A check has left the package as it was, but for reads and the accesses of the group's threads. -/
structure Checked (s : State) (key : Nat) (t : State) : Prop where
  stays : Stays s t
  noted : ∀ g, groupOf s key = some g → ∃ a, groupOf t key = some { g with anchors := a }

theorem checked_of_unread {s t : State} (key : Nat) (read : unread t = unread s) : Checked s key t :=
  ⟨stays_of_unread read, fun _ here => noted_of_unread read (noted_self here)⟩

theorem checked_of_checkFails {w : Who} {k : Kind} {noHost : Bool} {va : Nat → Nat} {s t : State} {l x : Nat} {bad : XBad} {kind : Kind}
    (key : Nat) (fails : checkFails w k noHost va s l t bad x kind) : Checked s key t := by
  obtain ⟨-, -, failed | ⟨-, -, e, h, found⟩⟩ := fails
  · exact checked_of_unread key (unread_of_translate failed)
  · exact checked_of_unread key (unread_of_translate found)

theorem checked_of_elementFails {u : Issue} {w : Who} {k : Kind} {nib : Bool} {va : Nat → Nat} {s t : State} {l x : Nat} {bad : XBad}
    {kind : Kind} (fails : elementFails u w k nib va s l t bad x kind) : Checked s u.key t := by
  refine ⟨stays_of_eq fails (stays_elementAt ..), fun g here => ?_⟩
  have noted := noted_elementAt (noted_self here) (w := w.ofThread u.key l) (by rintro k ln ⟨⟩; rfl) k nib (va l)
  rw [fails] at noted
  exact noted

/-! ### A lane whose check fails -/

section
variable {u : Issue} {w : Who} {s t : State} {l x : Nat} {bad : XBad} {kind : Kind}

theorem loadLane_fails {va : Nat → Nat} (fails : checkFails w .load false va s l t bad x kind) (d : Opnd) (regs n : Nat) (sgn acq : Bool)
    (runs : List (Nat × Nat)) (id first : Nat) :
    loadLane u w d regs n sgn acq runs (va l) id first s l = (t, .error (outcomeOf bad x kind l, x)) := by
  obtain ⟨rfl, rfl, failed | ⟨no, -⟩⟩ := fails
  · unfold loadLane
    rw [failed]
    rfl
  · cases no

theorem storeLane_fails {va : Nat → Nat} (fails : checkFails w .store false va s l t bad x kind) (p : Option Pfx) (bs : List Byte)
    (nib : Option Nat) (rel : Bool) (id : Nat) :
    storeLane u p w bs nib rel va id s l = (t, .error (outcomeOf bad x kind l, x)) := by
  obtain ⟨rfl, rfl, failed | ⟨no, -⟩⟩ := fails
  · unfold storeLane
    dsimp only
    rw [failed]
    rfl
  · cases no

theorem atomLane_fails {va : Nat → Nat} {op : Nat} (who : whoGroup s u.key u.g = w)
    (fails : checkFails w .atomic (decide (op ≠ 0 ∧ op ≠ 3 ∧ op ≠ 7)) va s l t bad x kind) (ty : Nat) (d b c : Opnd)
    (runs : List (Nat × Nat)) (id first : Nat) :
    atomLane u op ty d b c runs (va l) id first s l = (t, .error (outcomeOf bad x kind l, x)) := by
  obtain ⟨rfl, rfl, failed | ⟨device, rfl, e, h, found⟩⟩ := fails
  · unfold atomLane
    dsimp only
    rw [who, failed]
    rfl
  · obtain ⟨add, exch, cas⟩ := of_decide_eq_true device
    have cannot : (decide (op = 0) || decide (op = 3) || decide (op = 7)) = false := by simp [add, exch, cas]
    unfold atomLane
    dsimp only
    rw [who, found]
    dsimp only
    rw [cannot]
    rfl

theorem ldeLane_fails {p : Option Pfx} {a : Opnd} (who : whoGroup s u.key u.g = w)
    (fails : elementFails u w .load ((pfxGet p).aux.getLsbD 0) (addrOf u a 0 1) s l t bad x kind) :
    ldeLane u p a s l = (t, .error (outcomeOf bad x kind l, x)) := by
  have address : (val64 u.g a l).toNat = addrOf u a 0 1 l := by simp [addrOf]
  unfold elementFails at fails
  unfold ldeLane
  dsimp only
  rw [who, bit_auxOf, address, fails]
  rfl

theorem steLane_fails {p : Option Pfx} {d a : Opnd} (who : whoGroup s u.key u.g = w)
    (fails : elementFails u w .store ((pfxGet p).aux.getLsbD 0) (addrOf u a 0 1) s l t bad x kind) :
    steLane u p d a s l = (t, .error (outcomeOf bad x kind l, x)) := by
  have address : (val64 u.g a l).toNat = addrOf u a 0 1 l := by simp [addrOf]
  unfold elementFails at fails
  unfold steLane
  dsimp only
  rw [who, bit_auxOf, address, fails]
  rfl

end

/-! ### The word that each row is -/

/-- The word of a row: its predicate, its counter, its registers, and its lanes, the lowest of which is the lowest Active one; and a failed
check of a lane is the outcome at the lane. -/
structure WordOf (w : Who) (u : Issue) (p : Option Pfx) (r : FailRow) (k : LaneWord) (f : Nat → Nat → State → Nat → LaneOut) : Prop where
  pfx : k.p = p
  counter : k.counter = if r.load then clauseSetA u.f else clauseSetB u.f
  load : k.load = r.load
  d : k.d = r.d
  n : k.n = r.n
  z : k.z = r.z
  silent : r.load = false → r.z = false
  lanes : execLanes u p ≠ 0 → ∃ ls, lanesOf (accessLanes u k) = lowest (execLanes u p) :: ls ∧ ∀ x ∈ ls, lowest (execLanes u p) ≤ x
  fails : ∀ id first s l t bad x kind, whoGroup s u.key u.g = w → r.fails s l t bad x kind →
    f id first s l = (t, .error (outcomeOf bad x kind l, x)) ∧ Checked s u.key t

/-- A row's word checks its registers and its alignment, and is then run as a memory word of what it has looked at before its lanes. -/
def RowRuns (s : State) (u : Issue) (p : Option Pfx) (r : FailRow) : Prop :=
  ∃ addr K, exec r.i s = alignedWord s p r.regs r.size addr K ∧ addr u.g = r.va ∧
    ∀ s₀, r.ready s s₀ → unread s₀ = unread s ∧ ∃ k f, K u = laneWord s₀ u k f ∧ WordOf (whoGroup s u.key u.g) u p r k f

theorem lowest_le {m : Dword} {l : Nat} (here : lane m l = true) : lowest m ≤ l := by
  have mem : l ∈ lanesOf m := mem_lanesOf.mpr ⟨here, lane_lt here⟩
  have sorted : (lanesOf m).Pairwise (· < ·) := List.pairwise_lt_range.filter _
  unfold lowest
  cases same : lanesOf m with
  | nil => rw [same] at mem; cases mem
  | cons a as =>
    rw [same] at mem sorted
    rcases List.mem_cons.mp mem with rfl | later
    · exact Nat.le_refl _
    · exact Nat.le_of_lt ((List.pairwise_cons.mp sorted).1 l later)

/-- The lanes of a word that accesses for each. -/
theorem lanes_each {u : Issue} {k : LaneWord} {p : Option Pfx} (each : k.single = false) (pfx : k.p = p) (act : execLanes u p ≠ 0) :
    ∃ ls, lanesOf (accessLanes u k) = lowest (execLanes u p) :: ls ∧ ∀ x ∈ ls, lowest (execLanes u p) ≤ x := by
  subst pfx
  have all : accessLanes u k = execLanes u k.p := by
    unfold accessLanes
    dsimp only
    rw [each]
    rfl
  obtain ⟨ls, same⟩ := lanesOf_eq_cons act
  refine ⟨ls, by rw [all, same], fun x hx => lowest_le (mem_lanesOf.mp (same ▸ List.mem_cons_of_mem _ hx)).1⟩

/-- What a store is as a memory word. -/
def storeKind (u : Issue) (p : Option Pfx) (d : Opnd) (n : Nat) : LaneWord :=
  { p := p, counter := clauseSetB u.f, load := false, kind := 0, d := d, n := n }

/-- What an atomic is as a memory word. -/
def atomicKind (u : Issue) (p : Option Pfx) (d : Opnd) (n : Nat) : LaneWord :=
  { p := p, counter := clauseSetA u.f, load := true, kind := 1, d := d, n := n }

section
variable {s : State} {u : Issue} {p : Option Pfx} {d a b : Opnd}

theorem rowRuns_ld {f : Instr × Nat × Nat × Bool × Bool} (hf : f ∈ loadForms p d a b) :
    RowRuns s u p ⟨f.1, d, f.2.2.1, [(d, f.2.2.1), (a, 2)], f.2.1, true, zOf p, addrOf u a b f.2.1,
      checkFails (whoGroup s u.key u.g) .load false (addrOf u a b f.2.1), fun s s₀ => s₀ = s⟩ := by
  refine ⟨_, _, exec_loadForms hf s, rfl, ?_⟩
  rintro s₀ rfl
  refine ⟨rfl, loadKind u p d f.2.2.1 f.2.2.2.2, _, rfl, rfl, rfl, rfl, rfl, rfl, rfl, nofun, lanes_each rfl rfl, ?_⟩
  intro id first t l t' bad x kind who fails
  rw [who]
  exact ⟨loadLane_fails fails .., checked_of_checkFails _ fails⟩

theorem exec_storeForms {f : Instr × Nat × Nat} (hf : f ∈ storeForms p d a b) (s : State) :
    exec f.1 s = stWord s p d a b f.2.1 f.2.2 := by
  simp only [storeForms, List.mem_cons, List.not_mem_nil, or_false] at hf
  rcases hf with rfl | rfl | rfl | rfl | rfl
  case _ => rfl
  case _ => rfl
  case _ => rfl
  case _ => rfl
  case _ => rfl

theorem rowRuns_st {f : Instr × Nat × Nat} (hf : f ∈ storeForms p d a b) :
    RowRuns s u p ⟨f.1, d, f.2.2, [(d, f.2.2), (a, 2)], f.2.1, false, false, addrOf u a b f.2.1,
      checkFails (whoGroup s u.key u.g) .store false (addrOf u a b f.2.1), fun s s₀ => s₀ = s⟩ := by
  refine ⟨_, _, exec_storeForms hf s, rfl, ?_⟩
  rintro s₀ rfl
  refine ⟨rfl, storeKind u p d f.2.2, _, rfl, rfl, rfl, rfl, rfl, rfl, rfl, fun _ => rfl, lanes_each rfl rfl, ?_⟩
  intro id first t l t' bad x kind who fails
  rw [who]
  exact ⟨storeLane_fails fails .., checked_of_checkFails _ fails⟩

theorem atomicBytes_eq (op : Nat) (small : op < 12) (ty : BitVec 8) : atomicBytes op ty = atomBytes op ty.toNat := by
  have one : ty = 1 ↔ ty.toNat = 1 := ⟨fun h => by rw [h]; rfl, fun h => BitVec.eq_of_toNat_eq h⟩
  have odd : ty.getLsbD 0 = true ↔ ty.toNat % 2 = 1 := by
    rw [BitVec.getLsbD, Nat.testBit_zero, decide_eq_true_eq]
  unfold atomicBytes
  simp only [one, odd]
  interval_cases op <;> rfl

theorem exec_atomicForms {f : Instr × Nat} (hf : f ∈ atomicForms p d a b) (s : State) :
    f.2 < 12 ∧ exec f.1 s = atomWord s p d a b f.2 := by
  simp only [atomicForms, List.mem_cons, List.not_mem_nil, or_false] at hf
  rcases hf with rfl | rfl | rfl | rfl | rfl | rfl | rfl | rfl | rfl | rfl | rfl | rfl
  case _ => exact ⟨by norm_num, rfl⟩
  case _ => exact ⟨by norm_num, rfl⟩
  case _ => exact ⟨by norm_num, rfl⟩
  case _ => exact ⟨by norm_num, rfl⟩
  case _ => exact ⟨by norm_num, rfl⟩
  case _ => exact ⟨by norm_num, rfl⟩
  case _ => exact ⟨by norm_num, rfl⟩
  case _ => exact ⟨by norm_num, rfl⟩
  case _ => exact ⟨by norm_num, rfl⟩
  case _ => exact ⟨by norm_num, rfl⟩
  case _ => exact ⟨by norm_num, rfl⟩
  case _ => exact ⟨by norm_num, rfl⟩

theorem rowRuns_atom {f : Instr × Nat} (hf : f ∈ atomicForms p d a b) {n : Nat} (size : n = atomicBytes f.2 (pfxGet p).aux) :
    RowRuns s u p ⟨f.1, d, n / 4, atomicRegs p d a b n, n, true, false, addrOf u a 0 n,
      checkFails (whoGroup s u.key u.g) .atomic (decide (f.2 ≠ 0 ∧ f.2 ≠ 3 ∧ f.2 ≠ 7)) (addrOf u a 0 n), fun s s₀ => s₀ = s⟩ := by
  obtain ⟨small, word⟩ := exec_atomicForms hf s
  rw [atomicBytes_eq f.2 small] at size
  subst size
  refine ⟨fun g l => laneAddr g a 0 (atomBytes f.2 (aux8Of p)) l, _, word, rfl, ?_⟩
  rintro s₀ rfl
  refine ⟨rfl, atomicKind u p d (atomBytes f.2 (aux8Of p) / 4), _, rfl, rfl, rfl, rfl, rfl, rfl, rfl, nofun, lanes_each rfl rfl, ?_⟩
  intro id first t l t' bad x kind who fails
  exact ⟨atomLane_fails who fails .., checked_of_checkFails _ fails⟩

theorem rowRuns_ldu {n : Nat} (size : n = if (pfxGet p).aux.getLsbD 0 then 8 else 4) :
    RowRuns s u p ⟨.ldu p d a b, d, 1, [(d, 1), (a, 1)], n, true, false, addrOf u a b n,
      checkFails (whoGroup s u.key u.g) .load false (addrOf u a b n), fun s s₀ => s₀ = s⟩ := by
  rw [← uniformBytes_eq] at size
  subst size
  have word : exec (.ldu p d a b) s = execLdu p d a b s := rfl
  refine ⟨fun g l => laneAddr g a b (4 * 2 ^ (auxOf p % 2)) l, _, word, rfl, ?_⟩
  rintro s₀ rfl
  refine ⟨rfl, uniformKind u p d, _, rfl, rfl, rfl, rfl, rfl, rfl, rfl, nofun, fun act => ⟨[], lanesOf_uniform act d, nofun⟩, ?_⟩
  intro id first t l t' bad x kind who fails
  rw [who]
  exact ⟨loadLane_fails fails .., checked_of_checkFails _ fails⟩

theorem rowRuns_stn : RowRuns s u p ⟨.stn p d a b, d, 2, [(d, 2), (a, 2)], 4, false, false, addrOf u a b 4,
    checkFails (whoGroup s u.key u.g) .store false (addrOf u a b 4), fun s s₀ => s₀ = s⟩ := by
  have word : exec (.stn p d a b) s = execStn p d a b s := rfl
  refine ⟨fun g l => laneAddr g a b 4 l, _, word, rfl, ?_⟩
  rintro s₀ rfl
  refine ⟨rfl, storeKind u p d 2, _, rfl, rfl, rfl, rfl, rfl, rfl, rfl, fun _ => rfl, lanes_each rfl rfl, ?_⟩
  intro id first t l t' bad x kind who fails
  rw [who]
  exact ⟨storeLane_fails fails .., checked_of_checkFails _ fails⟩

/-- A word that checks its registers only has nothing to align. -/
theorem withReads_aligned (s : State) (p : Option Pfx) (regs : List (Opnd × Nat)) (addr : Group → Nat → Nat) (K : Issue → Out) :
    withReads s regs K = alignedWord s p regs 1 addr K := by
  have none' : ∀ u, alignTrap u p 1 (addr u.g) = none := fun u => alignTrap_none fun l _ => Nat.mod_one _
  unfold alignedWord
  simp only [none']

theorem rowRuns_lde : RowRuns s u p ⟨.lde p d a, d, 1, [(d, 1), (a, 2)], 1, true, zOf p, addrOf u a 0 1,
    elementFails u (whoGroup s u.key u.g) .load ((pfxGet p).aux.getLsbD 0) (addrOf u a 0 1), fun s s₀ => s₀ = s⟩ := by
  have word : exec (.lde p d a) s = execLde p d a s := rfl
  refine ⟨fun g l => laneAddr g a 0 1 l, _, word.trans (withReads_aligned ..), rfl, ?_⟩
  rintro s₀ rfl
  refine ⟨rfl, loadKind u p d 1 false, _, rfl, rfl, rfl, rfl, rfl, rfl, rfl, nofun, lanes_each rfl rfl, ?_⟩
  intro id first t l t' bad x kind who fails
  exact ⟨ldeLane_fails who fails, checked_of_elementFails fails⟩

theorem rowRuns_ste : RowRuns s u p ⟨.ste p d a, d, 1, [(d, 1), (a, 2)], 1, false, false, addrOf u a 0 1,
    elementFails u (whoGroup s u.key u.g) .store ((pfxGet p).aux.getLsbD 0) (addrOf u a 0 1), fun s s₀ => s₀ = s⟩ := by
  have word : exec (.ste p d a) s = execSte p d a s := rfl
  refine ⟨fun g l => laneAddr g a 0 1 l, _, word.trans (withReads_aligned ..), rfl, ?_⟩
  rintro s₀ rfl
  refine ⟨rfl, storeKind u p d 1, _, rfl, rfl, rfl, rfl, rfl, rfl, rfl, fun _ => rfl, lanes_each rfl rfl, ?_⟩
  intro id first t l t' bad x kind who fails
  exact ⟨steLane_fails who fails, checked_of_elementFails fails⟩

theorem unread_releaseScopes (w : Who) (addr : Nat → Nat) (ls : List Nat) (s : State) :
    unread (releaseScopes w addr s ls).1 = unread s := by
  induction ls generalizing s with
  | nil => rfl
  | cons l ls ih => exact (ih _).trans (unread_translate ..)

theorem releasePlaces_none {s : State} (places : s.places = []) (g : Group) (m : Dword) : releasePlaces s g m = s := by
  unfold releasePlaces applyPlaces
  rw [places]
  dsimp only [List.filter_nil, List.foldl_nil]
  rw [← places]

theorem rowRuns_stRel {n regs : Nat} (count : regs = sizeSel p) (size : n = 4 * regs) :
    RowRuns s u p ⟨.stRel p d a b, d, regs, [(d, regs), (a, 2)], n, false, false, addrOf u a b n,
      checkFails (whoGroup s u.key u.g) .store false (addrOf u a b n),
      fun t s₀ => t.places = [] ∧ batchesDone s₀ u.g (execLanes u p) = true ∧
        releaseScopes (whoGroup s u.key u.g) (addrOf u a b n) t (lanesOf (execLanes u p)) = (s₀, [])⟩ := by
  rw [← auxRegs_eq] at count
  subst count size
  have word : exec (.stRel p d a b) s = execStRel p d a b s := rfl
  refine ⟨fun g l => laneAddr g a b (4 * auxRegs p) l, _, word, rfl, ?_⟩
  rintro s₀ ⟨places, batches, scopes⟩
  have read : unread s₀ = unread s := unread_of_eq scopes (unread_releaseScopes ..)
  have still : s₀.places = [] := by
    have same := congrArg State.places read
    exact Eq.trans same places
  have looked : releaseScopes (whoGroup s u.key u.g) (laneAddr u.g a b (4 * 2 ^ (auxOf p % 4))) s (lanesOf (execLanes u p)) =
      (s₀, []) := scopes
  have met : releaseMet s₀ u (execLanes u p) [] = true := by simp [releaseMet, batches]
  refine ⟨read, storeKind u p d (auxRegs p), fun id _ t l => storeLane u p (whoGroup t u.key u.g)
    (storeData u.g d (4 * auxRegs p) l) none true (laneAddr u.g a b (4 * auxRegs p)) id t l, ?_, rfl, rfl, rfl, rfl, rfl, rfl,
    fun _ => rfl, lanes_each rfl rfl, ?_⟩
  · dsimp only
    rw [looked]
    dsimp only
    rw [met, if_pos rfl, releasePlaces_none still]
    rfl
  · intro id first t l t' bad x kind who fails
    rw [who]
    exact ⟨storeLane_fails fails .., checked_of_checkFails _ fails⟩

/-- Every row is a memory word. -/
theorem rowRuns_failRows {r : FailRow} (hr : r ∈ failRows s u p d a b) : RowRuns s u p r := by
  unfold failRows at hr
  dsimp only at hr
  simp only [List.mem_append, List.mem_map, List.mem_cons, List.not_mem_nil, or_false] at hr
  rcases hr with ((⟨f, hf, rfl⟩ | ⟨f, hf, rfl⟩) | ⟨f, hf, rfl⟩) | rfl | rfl | rfl | rfl | rfl
  · exact rowRuns_ld hf
  · exact rowRuns_st hf
  · exact rowRuns_atom hf rfl
  · exact rowRuns_ldu rfl
  · exact rowRuns_stn
  · exact rowRuns_stRel rfl rfl
  · exact rowRuns_lde
  · exact rowRuns_ste

end

end Sys2Proof.Machine


/-!
SUPPORT. The first two parts of O19: the lowest misaligned lane's trap, and the lowest lane whose check fails.
-/
namespace Sys2Proof.Machine

open Sys2Proof

/-! ### The lowest misaligned lane (R311) -/

theorem find_lanesOf {m : Dword} {q : Nat → Bool} {l : Nat} (here : lane m l = true) (yes : q l = true)
    (least : ∀ k < l, lane m k = true → q k = false) : (lanesOf m).find? q = some l := by
  rw [List.find?_eq_some_iff_append]
  have sorted : (lanesOf m).Pairwise (· < ·) := List.pairwise_lt_range.filter _
  obtain ⟨as, bs, same⟩ := List.append_of_mem (mem_lanesOf.mpr ⟨here, lane_lt here⟩)
  refine ⟨yes, as, bs, same, fun k hk => ?_⟩
  rw [same, List.pairwise_append] at sorted
  have lower : k < l := sorted.2.2 k hk l List.mem_cons_self
  have there : k ∈ lanesOf m := by
    rw [same]
    exact List.mem_append_left _ hk
  rw [least k lower (mem_lanesOf.mp there).1]
  rfl

theorem alignTrap_misaligned {u : Issue} {p : Option Pfx} {size l : Nat} {va : Nat → Nat} (here : lane (execLanes u p) l = true)
    (bad : va l % size ≠ 0) (least : ∀ k < l, lane (execLanes u p) k = true → va k % size = 0) :
    alignTrap u p size va = some (misaligned u (va l) l) := by
  rw [alignTrap, find_lanesOf here (by simpa using bad) (fun k hk yes => by simp [least k hk yes])]
  rfl

/-- A word whose lowest misaligned lane is given traps there. -/
theorem rowRuns_misaligned {s : State} {u : Issue} {p : Option Pfx} {r : FailRow} {l : Nat} (hi : issueOf s = some u)
    (asRead : u.asRead = u) (runs : RowRuns s u p r) (ok : RegsOk u.g r.regs) (here : lane (execLanes u p) l = true)
    (bad : r.va l % r.size ≠ 0) (least : ∀ k < l, lane (execLanes u p) k = true → r.va k % r.size = 0) :
    exec r.i s = .next (raise s u (misaligned u (r.va l) l)) := by
  obtain ⟨addr, K, word, address, -⟩ := runs
  rw [word, alignedWord, withReads_eq hi asRead ok, address, alignTrap_misaligned here bad least]

/-! ### The lowest lane whose check fails (R328) -/

/-- A word that is to break off between two lanes still begins with its first. -/
theorem splitLanes_cons {s : State} {k : LaneWord} {l : Nat} {ls : List Nat} (least : ∀ x ∈ ls, l ≤ x) :
    ∃ rest, (splitLanes s k (l :: ls)).1 = l :: rest := by
  unfold splitLanes
  split
  · exact ⟨ls, rfl⟩
  · next c _ =>
    split
    · exact ⟨ls, rfl⟩
    · next breaks =>
      have under : l < c := by
        by_contra no
        refine breaks ?_
        rw [Bool.or_eq_true, List.all_eq_true]
        refine Or.inr fun x hx => decide_eq_true ?_
        rcases List.mem_cons.mp hx with rfl | hx
        · exact Nat.le_of_not_lt no
        · exact Nat.le_trans (Nat.le_of_not_lt no) (least x hx)
      exact ⟨ls.filter (· < c), List.filter_cons_of_pos (p := fun x => decide (x < c)) (decide_eq_true under)⟩

theorem watch_nothing (s : State) (u : Issue) (kind : Nat) : watch s u kind [] = s := by
  unfold watch
  dsimp only
  split
  · rfl
  · split <;> rfl

theorem counted_begun {s : State} {u : Issue} (hg : groupOf s u.key = some u.g) (c : Option Nat) (load : Bool) :
    groupOf (counted s u c load) u.key = some (groupCounted u c s.nextOp) ∧
    tfind (counted s u c load).ops s.nextOp = some (begun u.key c load) ∧
    ∀ g, launchOfGroup (counted s u c load) g = launchOfGroup s g := by
  cases c with
  | none => exact ⟨hg, tfind_tput_same .., fun _ => rfl⟩
  | some c =>
    rw [counted_some hg]
    exact ⟨groupOf_setGroup .., tfind_tput_same .., fun _ => rfl⟩

theorem groupCounted_keeps (u : Issue) (c : Option Nat) (id : Nat) :
    (groupCounted u c id).frags = u.g.frags ∧ (groupCounted u c id).held = u.g.held := by
  cases c <;> exact ⟨rfl, rfl⟩

theorem whoGroup_of_launch {s t : State} (same : ∀ g, launchOfGroup t g = launchOfGroup s g) (key : Nat) (g : Group) :
    whoGroup t key g = whoGroup s key g := by
  unfold whoGroup
  rw [same]

theorem lanesBelow_lowest (u : Issue) (p : Option Pfx) : lanesBelow u p (lowest (execLanes u p)) = [] := by
  rw [List.eq_nil_iff_forall_not_mem]
  intro k hk
  obtain ⟨here, -, less⟩ := mem_lanesBelow.mp hk
  exact Nat.not_lt.mpr (lowest_le here) less

/-- What a word that fails at its lowest lane has written: zeros under z, where no counter counts it. -/
theorem writesBelow_first {u : Issue} (resumed : u.f.resumed = false) {k : LaneWord} (act : execLanes u k.p ≠ 0) {g : Group}
    (fits : k.d.toNat < 192 → k.d.toNat + k.n ≤ 8 * g.held) (silent : k.load = false → k.z = false) {xs : List Spin}
    (spins : (k.load = true → k.d.toNat < 192) → xs = g.spins) :
    WritesBelow u k.p (k.z && k.counter.isNone) k.d k.n (fun _ => 0) (lowest (execLanes u k.p)) g
      (givenBy u k (lowest (execLanes u k.p)) [] { g with spins := xs }) := by
  have none' : ∀ i, lane (execLanes u k.p) i = true → ¬ i < lowest (execLanes u k.p) := fun i here => Nat.not_lt.mpr (lowest_le here)
  have kept : k.d.toNat < 192 → xs = g.spins := fun vector => spins fun _ => vector
  unfold givenBy
  cases counter : k.counter with
  | some c =>
    rw [Option.isNone_some, Bool.and_false]
    exact writesBelow_nothing none' act k.d k.n _ g kept
  | none =>
    rw [Option.isNone_none, Bool.and_true]
    cases load : k.load with
    | true =>
      have owed := writesBelow_owed resumed load act fits (fun _ => 0) (fun _ => []) (lowest (execLanes u k.p)) kept
      rw [lanesBelow_lowest] at owed
      exact owed
    | false =>
      have nothing : owedBy u k (lowest (execLanes u k.p)) [] = [] := by simp [owedBy, zeroedLanes, load]
      rw [silent load, nothing]
      exact writesBelow_nothing none' act k.d k.n _ g kept

/-- A word that fails at its lowest lane: the second part of O19. -/
theorem rowRuns_fails {s s₀ s₁ : State} {u : Issue} {p : Option Pfx} {r : FailRow} {L : Launch} {bad : XBad} {x : Nat} {kind : Kind}
    (hi : issueOf s = some u) (fresh : Fresh u) (act : execLanes u p ≠ 0) (launch : launchOfGroup s u.g = some L)
    (runs : RowRuns s u p r) (dest : (r.d, r.n) ∈ r.regs) (ok : RegsOk u.g r.regs) (aligned : Aligned u p r.size r.va)
    (ready : r.ready s s₀)
    (room : ∀ k, (if r.load then clauseSetA u.f else clauseSetB u.f) = some k → (counterOf u.g k).val < 255)
    (fails : r.fails (counted s₀ u (if r.load then clauseSetA u.f else clauseSetB u.f) r.load) (lowest (execLanes u p)) s₁ bad x kind)
    (mine : Unasked s₁ s₀.nextOp) :
    ∃ t g₁ g₂, exec r.i s = .next t ∧ groupOf s₁ u.key = some g₁ ∧ g₁.frags = u.g.frags ∧
      WritesBelow u p (r.z && (if r.load then clauseSetA u.f else clauseSetB u.f).isNone) r.d r.n (fun _ => 0)
        (lowest (execLanes u p)) g₁ g₂ ∧
      FailsAs s₁ u L (lowest (execLanes u p)) (lowest (execLanes u p)) s₀.nextOp bad x kind g₂ t := by
  obtain ⟨resumed, noOp, asRead⟩ := fresh
  obtain ⟨addr, K, word, address, run⟩ := runs
  obtain ⟨read, k, f, isWord, ofRow⟩ := run s₀ ready
  obtain ⟨rfl, counter, load, d, n, z, silent, lanes, lane⟩ := ofRow
  rw [← counter] at room fails ⊢
  rw [← load] at fails
  rw [← d, ← n] at dest
  have there : groupOf s₀ u.key = some u.g := (groupOf_of_unread read u.key).trans (groupOf_issue hi)
  have same₀ : ∀ g, launchOfGroup s₀ g = launchOfGroup s g := (stays_of_unread read).launchOfGroup_eq
  obtain ⟨here, ops, same⟩ := counted_begun there k.counter k.load
  obtain ⟨failed, checked⟩ := lane s₀.nextOp (lowest (execLanes u k.p)) _ _ _ _ _ _
    (whoGroup_of_launch (fun g => (same g).trans (same₀ g)) ..) fails
  obtain ⟨a, group⟩ := checked.noted _ here
  obtain ⟨frags, held⟩ := groupCounted_keeps u k.counter s₀.nextOp
  obtain ⟨ls, first, least⟩ := lanes act
  obtain ⟨rest, split⟩ := splitLanes_cons (s := s₀) (k := k) least
  have notFull : counterFull u.g k.counter = none := by
    cases clause : k.counter with
    | none => rfl
    | some c => exact if_neg (Nat.not_le.mpr (room c clause))
  have stops : runLanes (f s₀.nextOp (lowest (execLanes u k.p))) (counted s₀ u k.counter k.load)
      (splitLanes s₀ k (lanesOf (accessLanes u k))).1 =
      (s₁, [], some (lowest (execLanes u k.p), outcomeOf bad x kind (lowest (execLanes u k.p)), x)) := by
    rw [first, split, runLanes, failed]
  obtain ⟨t, xs, issued, spins, outcome⟩ := laneWord_stops (L := L) (find_issue hi) resumed noOp act notFull stops group frags
    (groupCounted_gang ..) ((checked.stays.launchOfGroup_eq _).trans ((same _).trans ((same₀ _).trans launch)))
    ((congrArg (tfind · s₀.nextOp) checked.stays.ops).trans ops) mine (watch_nothing ..) nofun
  have fits : k.d.toNat < 192 → k.d.toNat + k.n ≤ 8 * (groupCounted u k.counter s₀.nextOp).held := by
    intro vector
    have allowed := ok _ dest
    rw [if_neg (Nat.not_le.mpr vector)] at allowed
    rw [held]
    exact allowed.2
  refine ⟨t, _, _, ?_, group, frags, ?_, outcome⟩
  · rw [word, alignedWord_passes hi asRead ok (by rw [address]; exact aligned), isWord, issued]
  · rw [← d, ← n, ← z]
    exact writesBelow_first (g := { groupCounted u k.counter s₀.nextOp with anchors := a }) resumed act fits
      (by rw [load, z]; exact silent) spins

theorem mem_regs_failRows {s : State} {u : Issue} {p : Option Pfx} {d a b : Opnd} {r : FailRow} (hr : r ∈ failRows s u p d a b) :
    (r.d, r.n) ∈ r.regs := by
  unfold failRows at hr
  dsimp only at hr
  simp only [List.mem_append, List.mem_map, List.mem_cons, List.not_mem_nil, or_false] at hr
  rcases hr with ((⟨f, hf, rfl⟩ | ⟨f, hf, rfl⟩) | ⟨f, hf, rfl⟩) | rfl | rfl | rfl | rfl | rfl <;> exact List.mem_cons_self

end Sys2Proof.Machine


/-!
SUPPORT. The lanes of a load or store below one that fails its check (R328); and the settlement of O19.
-/
namespace Sys2Proof.Machine

open Sys2Proof

/-! ### Bytes that a store takes (R311) -/

theorem leBytes_append (n m x : Nat) : leBytes (n + m) x = leBytes n x ++ leBytes m (x / 256 ^ n) := by
  induction n generalizing x with
  | zero => rw [Nat.zero_add, Nat.pow_zero, Nat.div_one]; rfl
  | succ n ih =>
    rw [Nat.succ_add, leBytes, leBytes, ih, List.cons_append, Nat.div_div_eq_div_mul, Nat.pow_succ, Nat.mul_comm]

theorem leBytes_mod (n x : Nat) : leBytes n (x % 256 ^ n) = leBytes n x := by
  induction n generalizing x with
  | zero => rfl
  | succ n ih =>
    have low : BitVec.ofNat 8 (x % 256 ^ (n + 1)) = BitVec.ofNat 8 x := by
      apply BitVec.eq_of_toNat_eq
      rw [BitVec.toNat_ofNat, BitVec.toNat_ofNat, Nat.mod_mod_of_dvd _ (show 2 ^ 8 ∣ 256 ^ (n + 1) from Dvd.intro_left _ rfl)]
    have high : x % 256 ^ (n + 1) / 256 = x / 256 % 256 ^ n := by
      rw [Nat.pow_succ, Nat.mul_comm, Nat.mod_mul_right_div_self]
    rw [leBytes, leBytes, low, high, ih]

/-- A register below the rest of a value gives the value's first four bytes. -/
theorem leBytes_word (m hi : Nat) (lo : Word) : leBytes (4 + m) (hi * 2 ^ 32 + lo.toNat) = leBytes 4 lo.toNat ++ leBytes m hi := by
  have small := lo.isLt
  have first : (hi * 2 ^ 32 + lo.toNat) % 256 ^ 4 = lo.toNat := by omega
  have rest : (hi * 2 ^ 32 + lo.toNat) / 256 ^ 4 = hi := by omega
  rw [leBytes_append, rest, ← leBytes_mod 4 (hi * 2 ^ 32 + lo.toNat), first]

theorem toNat_append_word {n : Nat} (x : BitVec n) (y : Word) : (x ++ y).toNat = x.toNat * 2 ^ 32 + y.toNat := by
  rw [BitVec.toNat_append, ← Nat.shiftLeft_add_eq_or_of_lt y.isLt, Nat.shiftLeft_eq]

/-- The four registers of a quad, as bytes. -/
theorem leBytes_streamOf (g : Group) (d : Opnd) (l : Nat) :
    leBytes 16 (streamOf g d l).toNat = (List.range 4).flatMap (fun i => leBytes 4 (vreg g (d.toNat + i) l).toNat) := by
  rw [streamOf, toNat_append_word, toNat_append_word, toNat_append_word]
  calc leBytes 16 _
    _ = leBytes 4 (vreg g d.toNat l).toNat ++ (leBytes 4 (vreg g (d.toNat + 1) l).toNat ++ (leBytes 4 (vreg g (d.toNat + 2) l).toNat ++
          leBytes 4 (vreg g (d.toNat + 3) l).toNat)) := by
      rw [leBytes_word 12, leBytes_word 8, leBytes_word 4]
    _ = _ := by simp [List.range_succ]

theorem storeData_eq {p : Option Pfx} {d a b : Opnd} {f : Instr × Nat × Nat} (hf : f ∈ storeForms p d a b) (u : Issue) (l : Nat) :
    storeData u.g d f.2.1 l = storedBytes u d f.2.1 l ∧ (storedBytes u d f.2.1 l).length = f.2.1 ∧ 0 < f.2.1 := by
  simp only [storeForms, List.mem_cons, List.not_mem_nil, or_false] at hf
  rcases hf with rfl | rfl | rfl | rfl | rfl
  case _ => exact ⟨rfl, leBytes_length .., by norm_num⟩
  case _ => exact ⟨rfl, leBytes_length .., by norm_num⟩
  case _ => exact ⟨rfl, leBytes_length .., by norm_num⟩
  case _ => exact ⟨rfl, leBytes_length .., by norm_num⟩
  case _ => exact ⟨(leBytes_streamOf u.g d l).symm, leBytes_length .., by norm_num⟩

/-! ### Stores of lanes -/

/-- A store to memory without errors or poison leaves it so. -/
theorem store_keeps {m : Mem} (symErr : m.symErr = []) (clean : m.poison = []) (w a : Nat) (bs : List Byte) :
    (m.store w a bs).symErr = [] ∧ (m.store w a bs).poison = [] ∧ (m.store w a bs).chans = m.chans ∧
      (m.store w a bs).inter = m.inter ∧ (m.store w a bs).hot = m.hot := by
  have absorbed : (m.remember w a bs.length).absorb a bs.length = m.remember w a bs.length := by
    unfold Mem.absorb
    rw [show (m.remember w a bs.length).symErr = [] from symErr]
    rfl
  unfold Mem.store
  dsimp only
  rw [absorbed]
  refine ⟨symErr, ?_, rfl, rfl, rfl⟩
  rw [show (m.remember w a bs.length).poison = [] from clean]
  rfl

theorem Going.store {s t : State} {key : Nat} {g : Group} (h : Going s key g t) (w a : Nat) (bs : List Byte) :
    Going s key g { t with mem := t.mem.store w a bs } := by
  obtain ⟨others, quiet, clean, hot, group⟩ := h
  obtain ⟨symErr, poison, chans, inter, same⟩ := store_keeps quiet.symErr clean w a bs
  exact ⟨others, ⟨symErr, chans.trans quiet.chans, inter.trans quiet.inter, quiet.arrived⟩, poison, same.trans hot, group⟩

/-- A lane of a store that reaches device memory writes its bytes there. -/
theorem storeLane_reaches {s t r : State} {u : Issue} {w : Who} (free : Unhindered s u.g w.part) {g : Group} (same : g.gang = u.g.gang)
    (h : Going s u.key g t) {va : Nat → Nat} {l dpa ma : Nat} {e : Dword}
    (found : translate t w .store false (va l) = (r, .ok (e, .dev dpa ma))) (p : Option Pfx) (bs : List Byte) (rel : Bool) (id : Nat) :
    storeLane u p w bs none rel va id t l =
      (noteWrite { r with mem := r.mem.store (writerOf w.core) ma bs } u.key l, .ok ⟨none, false, bytesFrom (va l) bs.length⟩) ∧
    Going s u.key g (noteWrite { r with mem := r.mem.store (writerOf w.core) ma bs } u.key l) := by
  have plain : Unhindered s g w.part := ⟨free.places, free.tracked, by
    rw [← free.plain]
    unfold captureMode launchOfGroup
    rw [same]⟩
  have there := h.translate found
  refine ⟨?_, (there.store ..).noteWrite l⟩
  unfold storeLane fetchOnce
  dsimp only
  rw [found]
  dsimp only
  rw [noteFrame_going plain there, placeCovered_going plain there, fetchFor_quiet there.quiet, ite_self, storeLocal_quiet there.quiet]

/-- The lanes of a store that reach device memory are all performed. -/
theorem runLanes_stores {s : State} {u : Issue} {w : Who} (who : whoGroup s u.key u.g = w) (free : Unhindered s u.g w.part)
    {g : Group} (same : g.gang = u.g.gang) {va ma : Nat → Nat} (p : Option Pfx) {data bytes : Nat → List Byte} (rel : Bool) (id : Nat)
    (taken : ∀ l, data l = bytes l ∧ bytes l ≠ [])
    (ls : List Nat) {t s' : State} (h : Going s u.key g t) (found : StoresGo u w va ma (fun _ l => bytes l) t ls s') :
    runLanes (fun t l => storeLane u p (whoGroup t u.key u.g) (data l) none rel va id t l) t ls =
      (s', ls.map (fun l => (l, ⟨none, false, bytesFrom (va l) (bytes l).length⟩)), none) ∧ Going s u.key g s' := by
  induction ls generalizing t with
  | nil =>
    cases found
    exact ⟨rfl, h⟩
  | cons l ls ih =>
    obtain ⟨r, e, dpa, reaches, rest⟩ := found
    obtain ⟨same', some'⟩ := taken l
    dsimp only at rest
    rw [if_neg some'] at rest
    obtain ⟨lane, after⟩ := storeLane_reaches free same h reaches p (bytes l) rel id
    obtain ⟨run, going⟩ := ih after rest
    refine ⟨?_, going⟩
    rw [runLanes, h.whoGroup_eq, who, same', lane]
    dsimp only
    rw [run, List.map_cons]

/-! ### A higher lane that fails (R328) -/

theorem runLanes_append {f : State → Nat → LaneOut} {s s' t : State} {ls : List Nat} {rs : List (Nat × LaneRes)} {l : Nat}
    {o : AccessOutcome × Nat} (rest : List Nat) (run : runLanes f s ls = (s', rs, none)) (fails : f s' l = (t, .error o)) :
    runLanes f s (ls ++ l :: rest) = (t, rs, some (l, o)) := by
  induction ls generalizing s rs with
  | nil =>
    cases run
    rw [List.nil_append, runLanes, fails]
  | cons a ls ih =>
    rw [runLanes] at run
    rw [List.cons_append, runLanes]
    split at run
    · cases run
    · dsimp only at run ⊢
      generalize later : runLanes f _ ls = x at run
      obtain ⟨y, ys, z⟩ := x
      cases run
      rw [ih later]

/-- The lanes of a word are those below one, the lane, and those above it. -/
theorem lanesOf_split {u : Issue} {p : Option Pfx} {l : Nat} (here : lane (execLanes u p) l = true) :
    ∃ rest, lanesOf (execLanes u p) = lanesBelow u p l ++ l :: rest := by
  have sorted : (lanesOf (execLanes u p)).Pairwise (· < ·) := List.pairwise_lt_range.filter _
  obtain ⟨as, bs, same⟩ := List.append_of_mem (mem_lanesOf.mpr ⟨here, lane_lt here⟩)
  refine ⟨bs, ?_⟩
  rw [same, List.pairwise_append, List.pairwise_cons] at sorted
  obtain ⟨-, ⟨above, -⟩, under⟩ := sorted
  have first : as.filter (· < l) = as := List.filter_eq_self.mpr fun k hk => decide_eq_true (under k hk l List.mem_cons_self)
  have last : (l :: bs).filter (· < l) = [] := by
    rw [List.filter_eq_nil_iff]
    intro k hk
    rw [decide_eq_true_eq, Nat.not_lt]
    rcases List.mem_cons.mp hk with rfl | hk
    · exact Nat.le_refl _
    · exact Nat.le_of_lt (above k hk)
  rw [lanesBelow, same, List.filter_append, first, last, List.append_nil]

theorem Going.launchOfGroup_eq {s t : State} {key : Nat} {g : Group} (h : Going s key g t) (g' : Group) :
    launchOfGroup t g' = launchOfGroup s g' := by
  have gangs := congrArg State.gangs h.others
  have launches := congrArg State.launches h.others
  dsimp only at gangs launches
  unfold launchOfGroup gangOf launchOf
  rw [gangs, launches]

/-- A word whose lanes below one have been performed, and whose lane fails there. -/
theorem laneWord_higher {s s' s₁ : State} {u : Issue} {L : Launch} {bad : XBad} {l x : Nat} {kind : Kind} (hi : issueOf s = some u)
    (fresh : Fresh u) (calm : Calm s u) (launch : launchOfGroup s u.g = some L) {k : LaneWord} (here : lane (execLanes u k.p) l = true)
    (each : k.single = false) (room : ∀ c, k.counter = some c → (counterOf u.g c).val < 255) {f : Nat → Nat → State → Nat → LaneOut}
    {rs : List (Nat × LaneRes)}
    (run : runLanes (f s.nextOp (lowest (execLanes u k.p))) (counted s u k.counter k.load) (lanesBelow u k.p l) = (s', rs, none))
    (fails : f s.nextOp (lowest (execLanes u k.p)) s' l = (s₁, .error (outcomeOf bad x kind l, x)))
    (going : Going (counted s u k.counter k.load) u.key (groupCounted u k.counter s.nextOp) s₁) (mine : Unasked s₁ s.nextOp)
    (own : ∀ y ∈ rs, y.2.sent = false) :
    ∃ t g xs, laneWord s u k f = .next t ∧ groupOf s₁ u.key = some g ∧ g.frags = u.g.frags ∧ g.held = u.g.held ∧
      ((k.load = true → k.d.toNat < 192) → xs = g.spins) ∧
      FailsAs s₁ u L l (lowest (execLanes u k.p)) s.nextOp bad x kind
        (givenBy u k (lowest (execLanes u k.p)) rs { g with spins := xs }) t := by
  obtain ⟨resumed, noOp, -⟩ := fresh
  have act : execLanes u k.p ≠ 0 := by
    intro none'
    rw [none'] at here
    simp [lane] at here
  obtain ⟨-, -, -, -, -, -, -, off, -, -, whole⟩ := calm
  obtain ⟨-, ops, same⟩ := counted_begun (groupOf_issue hi) k.counter k.load
  obtain ⟨a, q, group⟩ := going.group
  obtain ⟨frags, held⟩ := groupCounted_keeps u k.counter s.nextOp
  obtain ⟨rest, lanes⟩ := lanesOf_split here
  have all : (splitLanes s k (lanesOf (accessLanes u k))).1 = lanesBelow u k.p l ++ l :: rest := by
    have active : accessLanes u k = execLanes u k.p := by
      unfold accessLanes
      dsimp only
      rw [each]
      rfl
    rw [splitLanes, whole, active, lanes]
  have notFull : counterFull u.g k.counter = none := by
    cases clause : k.counter with
    | none => rfl
    | some c => exact if_neg (Nat.not_le.mpr (room c clause))
  have cores : (counted s u k.counter k.load).cores = s.cores := by
    cases k.counter with
    | none => rfl
    | some c =>
      rw [counted_some (groupOf_issue hi)]
      rfl
  have quiet : watch s₁ u k.kind rs = s₁ := by
    refine watch_off ?_ _ _
    rw [coreOf, going.cores, cores]
    exact off
  obtain ⟨t, xs, issued, spins, outcome⟩ := laneWord_stops (L := L) (find_issue hi) resumed noOp act notFull
    (by rw [all]; exact runLanes_append rest run fails) group frags (groupCounted_gang ..)
    ((going.launchOfGroup_eq _).trans ((same _).trans launch)) ((congrArg (tfind · s.nextOp) going.ops).trans ops) mine quiet own
  exact ⟨t, _, xs, issued, group, frags, held, spins, outcome⟩

section
variable {s s' s₁ : State} {u : Issue} {p : Option Pfx} {d a b : Opnd} {L : Launch} {bad : XBad} {v : Nat → Nat} {l : Nat}
  (hi : issueOf s = some u) (fresh : Fresh u) (calm : Calm s u) (launch : launchOfGroup s u.g = some L)
  (here : lane (execLanes u p) l = true) (mine : Unasked s₁ s.nextOp)
include hi fresh calm launch here mine

/-- A load that fails at a higher lane has given the lanes below their values. -/
theorem load_fails {f : Instr × Nat × Nat × Bool × Bool} (hf : f ∈ loadForms p d a b) (uncounted : clauseSetA u.f = none)
    (ok : RegsOk u.g [(d, f.2.2.1), (a, 2)]) (aligned : Aligned u p f.2.1 (addrOf u a b f.2.1))
    (found : LoadsFind u (whoGroup s u.key u.g) f.2.1 f.2.2.2.2 (addrOf u a b f.2.1) v (counted s u none true) (lanesBelow u p l) s')
    (failed : translate s' (whoGroup s u.key u.g) .load false (addrOf u a b f.2.1 l) = (s₁, .error bad)) :
    ∃ t g₁ g₂, exec f.1 s = .next t ∧ groupOf s₁ u.key = some g₁ ∧ g₁.frags = u.g.frags ∧
      WritesBelow u p (zOf p) d f.2.2.1 (fun k => extendLoad f.2.2.2.1 f.2.1 (v k)) l g₁ g₂ ∧
      FailsAs s₁ u L l (lowest (execLanes u p)) s.nextOp bad (addrOf u a b f.2.1 l) .load g₂ t := by
  have word : exec f.1 s = laneWord s u (loadKind u p d f.2.2.1 f.2.2.2.2) (fun id first t l =>
      loadLane u (whoGroup t u.key u.g) d f.2.2.1 f.2.1 f.2.2.2.1 f.2.2.2.2 (wordRuns u p f.2.1 (laneAddr u.g a b f.2.1))
        (addrOf u a b f.2.1 l) id first t l) := by
    rw [exec_loadForms hf, ldWord, alignedWord_passes hi fresh.2.2 ok aligned]
    rfl
  obtain ⟨run, going, -⟩ := runLanes_loads (whoGroup_counted hi none true) (unhindered_counted hi calm none true)
    (groupCounted_gang u none s.nextOp) d f.2.2.1 f.2.2.2.1 (fun _ => wordRuns u p f.2.1 (laneAddr u.g a b f.2.1)) s.nextOp
    (lowest (execLanes u p)) _ (going_counted hi calm none true) found
  have who := (going.whoGroup_eq u.key u.g).trans (whoGroup_counted hi none true)
  obtain ⟨t, g, xs, issued, group, frags, held, spins, outcome⟩ := laneWord_higher (k := loadKind u p d f.2.2.1 f.2.2.2.2)
    (x := addrOf u a b f.2.1 l) (kind := .load) (bad := bad) (s₁ := s₁) hi fresh calm launch here rfl
    (fun c hc => by rw [loadKind, uncounted] at hc; cases hc)
    (f := fun id first t l => loadLane u (whoGroup t u.key u.g) d f.2.2.1 f.2.1 f.2.2.2.1 f.2.2.2.2
      (wordRuns u p f.2.1 (laneAddr u.g a b f.2.1)) (addrOf u a b f.2.1 l) id first t l)
    (by rw [loadKind, uncounted]; exact run)
    (by rw [who]; exact loadLane_fails ⟨rfl, rfl, .inl failed⟩ ..)
    (by rw [loadKind, uncounted]; exact going.translate failed) mine (fun y hy => by
      obtain ⟨i, -, rfl⟩ := List.mem_map.mp hy
      rfl)
  refine ⟨t, g, _, word.trans issued, group, frags, ?_, outcome⟩
  have given : ∀ rs h, givenBy u (loadKind u p d f.2.2.1 f.2.2.2.2) (lowest (execLanes u p)) rs h =
      (owedBy u (loadKind u p d f.2.2.1 f.2.2.2.2) (lowest (execLanes u p)) rs).foldl landed h := by
    intro rs h
    rw [givenBy, loadKind, uncounted]
    rfl
  have act : execLanes u p ≠ 0 := by
    intro none'
    rw [none'] at here
    simp [lane] at here
  have fits : d.toNat < 192 → d.toNat + f.2.2.1 ≤ 8 * g.held := by
    intro vector
    have allowed := ok (d, f.2.2.1) List.mem_cons_self
    rw [if_neg (Nat.not_le.mpr vector)] at allowed
    rw [held]
    exact allowed.2
  change WritesBelow u p (zOf p) d f.2.2.1 _ l g (givenBy u (loadKind u p d f.2.2.1 f.2.2.2.2) (lowest (execLanes u p)) _ _)
  rw [given]
  exact writesBelow_owed (k := loadKind u p d f.2.2.1 f.2.2.2.2) fresh.1 rfl act fits _ _ l fun vector => spins fun _ => vector

/-- A store that fails at a higher lane has given no register anything. -/
theorem store_fails {ma : Nat → Nat} {f : Instr × Nat × Nat} (hf : f ∈ storeForms p d a b)
    (room : ∀ k, clauseSetB u.f = some k → (counterOf u.g k).val < 255) (ok : RegsOk u.g [(d, f.2.2), (a, 2)])
    (aligned : Aligned u p f.2.1 (addrOf u a b f.2.1))
    (found : StoresGo u (whoGroup s u.key u.g) (addrOf u a b f.2.1) ma (fun _ k => storedBytes u d f.2.1 k)
      (counted s u (clauseSetB u.f) false) (lanesBelow u p l) s')
    (failed : translate s' (whoGroup s u.key u.g) .store false (addrOf u a b f.2.1 l) = (s₁, .error bad)) :
    ∃ t g₁, exec f.1 s = .next t ∧ groupOf s₁ u.key = some g₁ ∧ g₁.frags = u.g.frags ∧
      FailsAs s₁ u L l (lowest (execLanes u p)) s.nextOp bad (addrOf u a b f.2.1 l) .store g₁ t := by
  have word : exec f.1 s = laneWord s u (storeKind u p d f.2.2) (fun id _ t l =>
      storeLane u p (whoGroup t u.key u.g) (storeData u.g d f.2.1 l) none false (addrOf u a b f.2.1) id t l) := by
    rw [exec_storeForms hf, stWord, alignedWord_passes hi fresh.2.2 ok aligned]
    rfl
  have taken : ∀ l, storeData u.g d f.2.1 l = storedBytes u d f.2.1 l ∧ storedBytes u d f.2.1 l ≠ [] := by
    intro l
    obtain ⟨same, long, some'⟩ := storeData_eq hf u l
    exact ⟨same, List.ne_nil_of_length_pos (by rw [long]; exact some')⟩
  obtain ⟨run, going⟩ := runLanes_stores (whoGroup_counted hi (clauseSetB u.f) false) (unhindered_counted hi calm (clauseSetB u.f) false)
    (groupCounted_gang u (clauseSetB u.f) s.nextOp) p false s.nextOp taken _ (going_counted hi calm (clauseSetB u.f) false) found
  have who := (going.whoGroup_eq u.key u.g).trans (whoGroup_counted hi (clauseSetB u.f) false)
  obtain ⟨t, g, xs, issued, group, frags, held, spins, outcome⟩ := laneWord_higher (k := storeKind u p d f.2.2)
    (x := addrOf u a b f.2.1 l) (kind := .store) (bad := bad) (s₁ := s₁) hi fresh calm launch here rfl room
    (f := fun id _ t l =>
      storeLane u p (whoGroup t u.key u.g) (storeData u.g d f.2.1 l) none false (addrOf u a b f.2.1) id t l)
    run (by rw [who]; exact storeLane_fails ⟨rfl, rfl, .inl failed⟩ ..) (going.translate failed) mine (fun y hy => by
      obtain ⟨i, -, rfl⟩ := List.mem_map.mp hy
      rfl)
  refine ⟨t, g, word.trans issued, group, frags, ?_⟩
  have nothing : givenBy u (storeKind u p d f.2.2) (lowest (execLanes u p)) ((lanesBelow u p l).map (fun l =>
      (l, ⟨none, false, bytesFrom (addrOf u a b f.2.1 l) (storedBytes u d f.2.1 l).length⟩))) { g with spins := xs } = g := by
    have none' : ∀ rs, owedBy u (storeKind u p d f.2.2) (lowest (execLanes u p)) rs = [] := fun _ => rfl
    rw [givenBy, none', spins nofun]
    exact ite_self _
  rw [← nothing]
  exact outcome

end

end Sys2Proof.Machine

namespace Sys2Proof

open Machine

/-- Settles O19: every row is a memory word that checks its registers and its alignment, and where a lane's check fails, what the lanes
below have given stands, and the check's outcome is taken. -/
theorem failedAccessesStopTheWord : Obligations.FailedAccessesStopTheWord := by
  refine ⟨fun p d a b s u l hi asRead here r hr ok bad least => ?_, fun p d a b s s₀ s₁ u L bad x kind hi fresh act launch r hr ok
    aligned ready room fails mine => ?_, fun p d a b s s' s₁ u L bad v l hi fresh calm launch here => ⟨?_, ?_⟩⟩
  · exact rowRuns_misaligned hi asRead (rowRuns_failRows hr) ok here bad least
  · exact rowRuns_fails hi fresh act launch (rowRuns_failRows hr) (mem_regs_failRows hr) ok aligned ready room fails mine
  · intro f hf uncounted ok aligned found failed mine
    exact load_fails hi fresh calm launch here mine hf uncounted ok aligned found failed
  · intro f hf room ok aligned found failed mine
    exact store_fails hi fresh calm launch here mine hf room ok aligned found failed

end Sys2Proof

/-!
SUPPORT. NOP (R67): it passes the check of its class wherever it stands, and no PFX word may stand before it.
-/
namespace Sys2Proof.Machine

open Sys2Proof

theorem toNat_getLsbD (w : Word) (i : Nat) : (w.getLsbD i).toNat = w.toNat / 2 ^ i % 2 := by
  rw [getLsbD_eq_bit, bit]
  rcases Nat.mod_two_eq_zero_or_one (w.toNat / 2 ^ i) with h | h <;> simp [h]

/-- A PFX word holds nothing but the fields that it is read as (R32). -/
theorem wordOfPfx_pfxOfWord {q : Word} (h : isPfxWord q = true) : wordOfPfx (pfxOfWord q) = q := by
  have top : q.toNat / 2 ^ 26 % 64 = 0x3E := by simpa [isPfxWord, majorOf, bits] using h
  apply BitVec.eq_of_toNat_eq
  rw [toNat_wordOfPfx, pfxOfWord]
  simp only [toNat_getLsbD, toNat_extractLsb', bits]
  omega

theorem checkBase_nop_prefixed (q : Pfx) : checkBase (some q) 0 = .error (.illegalPrefix (wordOfPfx q)) := rfl

/-- Settles O54: NOP is of no class and is no control word, so that every clause allows it in every position. -/
theorem nopHasNoEffect : Obligations.NopHasNoEffect := by
  refine ⟨fun s u h => withIssue_eq h _, fun ws => rfl, fun priv g c pc => ?_, fun q ws h => ?_⟩
  · exact chooseRow_runs (i := .nop) (r := []) g c pc (fun h => absurd h (by decide)) rfl rfl rfl
  · have second : decodeAfter (some (pfxOfWord q)) (0 :: ws) = .error (.illegalPrefix (wordOfPfx (pfxOfWord q))) := rfl
    rw [decode, if_pos h, second, wordOfPfx_pfxOfWord h]

end Sys2Proof.Machine

/-!
SUPPORT. Calls and RET (R71, R76): the return stacks that a call pushes on and RET pops.
-/
namespace Sys2Proof.Machine

open Sys2Proof

/-! ### Return stacks -/

theorem stackOf_setStack (g : Group) (l k : Nat) (x : List Nat) : stackOf (setStack g l x) k = if k = l then x else stackOf g k :=
  tget_tset ..

/-- Each lane of a list changes its own stack, once. -/
theorem foldl_setStack (next : List Nat → List Nat) (ls : List Nat) (once : ls.Nodup) (g : Group) :
    (∃ r, ls.foldl (fun h l => setStack h l (next (stackOf h l))) g = { g with rstack := r }) ∧
    ∀ k, stackOf (ls.foldl (fun h l => setStack h l (next (stackOf h l))) g) k =
      if k ∈ ls then next (stackOf g k) else stackOf g k := by
  induction ls generalizing g with
  | nil => exact ⟨⟨g.rstack, rfl⟩, fun k => by simp⟩
  | cons a ls ih =>
    obtain ⟨fresh, once⟩ := List.nodup_cons.mp once
    obtain ⟨⟨r, only⟩, each⟩ := ih once (setStack g a (next (stackOf g a)))
    refine ⟨⟨r, by rw [List.foldl_cons, only]; rfl⟩, fun k => ?_⟩
    rw [List.foldl_cons, each k, stackOf_setStack]
    by_cases h : k = a
    · subst h; simp [fresh]
    · simp [h]

/-- The stacks of a fragment's threads change, and nothing else of the group. -/
theorem foldl_setStack_lanes (next : List Nat → List Nat) (m : Dword) (g : Group) :
    ∃ r, (lanesOf m).foldl (fun h l => setStack h l (next (stackOf h l))) g = { g with rstack := r } ∧
      ∀ l, l < 64 → stackOf { g with rstack := r } l = if lane m l then next (stackOf g l) else stackOf g l := by
  obtain ⟨⟨r, only⟩, each⟩ := foldl_setStack next (lanesOf m) (nodup_lanesOf m) g
  refine ⟨r, only, fun l hl => ?_⟩
  have stack := each l
  rw [only] at stack
  simpa [mem_lanesOf, hl] using stack

/-! ### Branches that change the stacks -/

/-- A branch that goes through after every thread of its fragment has changed its stack. -/
theorem takeBranch_stacks {i : Instr} {s s₁ : State} {u : Issue} {next : Nat → Option Int} (stack : List Nat → List Nat)
    (runs : exec i s = .next (takeBranch
      (fun g => (lanesOf u.f.lanes).foldl (fun h l => setStack h l (stack (stackOf h l))) g) s₁ u next))
    (noted : Noted s₁ u.key u.g) : BranchRuns i s s₁ u next (fun _ x => stack x) := by
  obtain ⟨a, ha⟩ := noted
  obtain ⟨r, only, each⟩ := foldl_setStack_lanes stack u.f.lanes { u.g with anchors := a }
  rw [takeBranch, modGroup_eq ha, only] at runs
  obtain ⟨fs, xs, sent, sends⟩ := sendThreads_sends (s := setGroup s₁ u.key { u.g with anchors := a, rstack := r })
    (groupOf_setGroup ..) rfl next
  exact ⟨_, by rw [runs, sent, setGroup_setGroup], sends, each, _, ha, rfl, rfl⟩

/-! ### Calls -/

/-- The lowest thread that a check of the stacks finds. -/
theorem find_lane_some {m : Dword} {bad : Nat → Bool} {l : Nat} (hl : lane m l = true) (found : bad l = true)
    (below : ∀ k < l, lane m k = true → bad k = false) : (lanesOf m).find? bad = some l := by
  have first := List.find?_eq_some_iff_getElem (xs := lanesOf m) (p := bad) (b := l)
  rw [first]
  obtain ⟨i, hi, at_i⟩ := List.getElem_of_mem (mem_lanesOf.mpr ⟨hl, lane_lt hl⟩)
  refine ⟨found, i, hi, at_i, fun j hj => ?_⟩
  have before := List.pairwise_iff_getElem.mp (pairwise_lanesOf m) j i (by omega) hi hj
  rw [at_i] at before
  simp [below _ before (mem_lanesOf.mp (List.getElem_mem _)).1]

theorem find_lane_none {m : Dword} {bad : Nat → Bool} (none' : ∀ l, lane m l = true → bad l = false) :
    (lanesOf m).find? bad = none := by
  rw [List.find?_eq_none]
  intro l hl
  simp [none' l (mem_lanesOf.mp hl).1]

theorem callOp_pass {s s₁ : State} {u : Issue} {next : Nat → Option Int}
    (h : TargetsPass (whoGroup s u.key u.g) (stampOf s u.g) s (targetsTaken u next) s₁) : callOp s u next = takeCall s₁ u next := by
  unfold callOp
  dsimp only
  rw [checkTargets_pass (by rw [map_taken]; exact h)]

/-- A call with room on every stack pushes its return address there. -/
theorem takeCall_runs {i : Instr} {s s₁ : State} {u : Issue} {next : Nat → Option Int}
    (runs : exec i s = .next (takeCall s₁ u next)) (room : ∀ l, lane u.f.lanes l = true → (stackOf u.g l).length < 16)
    (noted : Noted s₁ u.key u.g) : BranchRuns i s s₁ u next (fun _ x => returnAddress u :: x) := by
  have room' : fullStack u = none := find_lane_none fun l hl => decide_eq_false (by have := room l hl; omega)
  rw [takeCall, room'] at runs
  exact takeBranch_stacks (fun x => returnAddress u :: x) runs noted

theorem takeCall_full {s : State} {u : Issue} {next : Nat → Option Int} {l : Nat} (hl : lane u.f.lanes l = true)
    (full : 16 ≤ (stackOf u.g l).length) (below : ∀ k < l, lane u.f.lanes k = true → (stackOf u.g k).length < 16) :
    takeCall s u next = raise s u { cls := 6, info0 := 0, info1 := BitVec.ofNat 64 l } := by
  have full' : fullStack u = some l :=
    find_lane_some hl (decide_eq_true full) fun k hk hkl => decide_eq_false (by have := below k hk hkl; omega)
  rw [takeCall, full']

/-- CALLX in table mode calls what its table says for each lane. -/
theorem exec_callxTable {s s₁ : State} {u : Issue} (h : issueOf s = some u) {a b : Opnd} (ok : RegsOk u.g [(a, 1)])
    {ts : List (Nat × Int)} (aligned : (sreg u.g (b.toNat - 192)).toNat % 8 = 0)
    (gives : TableGives (whoGroup s u.key u.g) u.key (stampOf s u.g) (((launchOfGroup s u.g).map recCbase).getD 0)
      (sreg u.g (b.toNat - 192)).toNat (fun l => (val32 u.g a l).toNat) s [] (lanesOf u.f.lanes) s₁ ts) :
    exec (.callxTable a b) s = .next (takeCall s₁ u (fun l => (ts.find? (fun x => x.1 = l)).map (·.2))) := by
  change tableBranch s a b takeCall = _
  unfold tableBranch
  rw [withRegs_eq h ok]
  dsimp only
  rw [if_neg (by rw [bne_iff_ne, not_not]; exact aligned)]
  have read := tableTargets_gives gives
  change tableTargets _ _ _ _ (sreg u.g (scalarNo b)).toNat (nat32 u.g a) _ _ _ = _ at read
  rw [read]
  rfl

/-! ### RET -/

theorem exec_ret_pops {s s₁ : State} {u : Issue} (h : issueOf s = some u) (some' : ∀ l, lane u.f.lanes l = true → stackOf u.g l ≠ [])
    (pass : TargetsPass (whoGroup s u.key u.g) (stampOf s u.g) s
      (targetsTaken u (fun l => (stackOf u.g l).head?.map (fun (x : Nat) => (x : Int)))) s₁) :
    exec .ret s = .next (takeBranch (fun g => (lanesOf u.f.lanes).foldl (fun h l => setStack h l (stackOf h l).tail) g) s₁ u
      (fun l => (stackOf u.g l).head?.map (fun (x : Nat) => (x : Int)))) := by
  refine (withIssue_eq h _).trans ?_
  rw [find_lane_none fun l hl => by simpa using some' l hl]
  exact congrArg _ (branchOp_pass _ pass)

theorem exec_ret_empty {s : State} {u : Issue} (h : issueOf s = some u) {l : Nat} (hl : lane u.f.lanes l = true)
    (empty : stackOf u.g l = []) (below : ∀ k < l, lane u.f.lanes k = true → stackOf u.g k ≠ []) :
    exec .ret s = .next (raise s u { cls := 6, info0 := 1, info1 := BitVec.ofNat 64 l }) := by
  refine (withIssue_eq h _).trans ?_
  rw [find_lane_some hl (by simp [empty]) fun k hk hkl => by simpa using below k hk hkl]

/-- Settles O9. -/
theorem callsPushAndReturnsPop : Obligations.CallsPushAndReturnsPop := by
  refine ⟨?_, ?_, ?_⟩
  · intro a o s u s₁ h b hb ok pass
    have called := exec_callRow h hb ok
    rw [callOp_pass pass] at called
    refine ⟨fun room => takeCall_runs called room (noted_of_targetsPass (whoGroup_thread ..) pass (noted_self (groupOf_issue h))),
      fun l hl full below => ?_⟩
    rw [called, takeCall_full hl full below]
  · intro a b s u s₁ ts h ok table next aligned gives room
    exact takeCall_runs (exec_callxTable h ok aligned gives) room
      (noted_of_tableGives (whoGroup_thread ..) gives (noted_self (groupOf_issue h)))
  · intro s u s₁ h next
    refine ⟨fun some' pass => ?_, fun l hl empty below => exec_ret_empty h hl empty below⟩
    exact takeBranch_stacks List.tail (exec_ret_pops h some' pass)
      (noted_of_targetsPass (whoGroup_thread ..) pass (noted_self (groupOf_issue h)))

end Sys2Proof.Machine

/-!
SUPPORT. EXIT (R78, R236): what the checks of rendezvous and of barriers leave where none is open, and the arrival of a group whose last
threads exit.
-/
namespace Sys2Proof

theorem mem_of_tfind {α : Type} {t : Table α} {k : Nat} {x : α} (h : tfind t k = some x) : (k, x) ∈ t := by
  induction t with
  | nil => cases h
  | cons y t ih =>
    obtain ⟨j, v⟩ := y
    rw [tfind] at h
    split at h
    · next same => cases h; simp [same]
    · exact List.mem_cons_of_mem _ (ih h)

theorem mem_tput {α : Type} {t : Table α} {k : Nat} {x : α} {y : Nat × α} (h : y ∈ tput t k x) : y = (k, x) ∨ y ∈ t := by
  induction t with
  | nil => simpa [tput] using h
  | cons z t ih =>
    unfold tput at h
    split at h
    · rcases List.mem_cons.mp h with rfl | h <;> simp [*]
    · split at h
      · rcases List.mem_cons.mp h with rfl | h <;> simp [*]
      · rcases List.mem_cons.mp h with rfl | h
        · simp
        · rcases ih h with rfl | h <;> simp [*]

end Sys2Proof

namespace Sys2Proof.Machine

open Sys2Proof

theorem mem_groups_of_groupOf {s : State} {k : Nat} {g : Group} (h : groupOf s k = some g) : (k, g) ∈ s.groups := mem_of_tfind h

/-! ### Rendezvous -/

/-- Where no rendezvous of the group has come to completion and none is stuck, the check of them does nothing (R65). -/
theorem checkRendezvous_quiet {s : State} {key : Nat} {g : Group} (hg : groupOf s key = some g)
    (unmet : ∀ r ∈ g.rdv, rendezvousMet g r = false) (free : ∀ r ∈ g.rdv, rendezvousStuck g r = false) :
    checkRendezvous s key = s := by
  have none_met : g.rdv.filter (fun r => rendezvousMet g r && !exitedOwed s key g r) = [] := by
    rw [List.filter_eq_nil_iff]
    intro r hr
    simp [unmet r hr]
  have none_stuck : g.rdv.filter (rendezvousStuck g) = [] := by
    rw [List.filter_eq_nil_iff]
    intro r hr
    simp [free r hr]
  unfold checkRendezvous
  simp only [hg, none_met, List.foldl_nil, none_stuck]
  exact ite_self s

/-! ### Barriers -/

/-- No thread of a gang has arrived at a barrier. -/
def NoneArrived (s : State) (uid : Nat) : Prop := ∀ x ∈ s.groups, x.2.gang = uid → x.2.arrTeam = 0 ∧ x.2.arrGang = 0

theorem arrivedBits_none {s : State} {uid : Nat} (h : NoneArrived s uid) {team : Nat} {gs : Bool} {x : Nat × Group}
    (hx : x ∈ scopeGroups s uid team gs) : arrivedBits x.2 gs = 0 := by
  have inGang := (List.mem_filter.mp (List.mem_filter.mp hx).1)
  obtain ⟨atTeam, atGang⟩ := h x inGang.1 (by simpa using inGang.2)
  cases gs
  · exact atTeam
  · exact atGang

/-- A rendezvous at which no thread has arrived is neither complete nor deadlocked. -/
theorem barriers_closed {s : State} {uid : Nat} (h : NoneArrived s uid) (team : Nat) (gs : Bool) :
    barrierMet s uid team gs = false ∧ barrierStuck s uid team gs = false := by
  have nobody : (scopeGroups s uid team gs).any (fun x => arrivedBits x.2 gs != 0) = false := by
    rw [List.any_eq_false]
    intro x hx
    simp [arrivedBits_none h hx]
  unfold barrierMet barrierStuck
  dsimp only
  rw [nobody]
  simp

theorem checkBarriers_closed {s : State} {uid : Nat} (h : NoneArrived s uid) : checkBarriers s uid = s := by
  unfold checkBarriers
  split
  · rfl
  · next q hq =>
    have passes : ∀ xs : List (Nat × Bool),
        xs.foldl (fun s x => if barrierMet s uid x.1 x.2 then completeBarrier s uid x.1 x.2 else s) s = s := by
      intro xs
      induction xs with
      | nil => rfl
      | cons x xs ih => rw [List.foldl_cons, (barriers_closed h x.1 x.2).1]; exact ih
    have none_stuck : (barrierScopes q).filter (fun x => barrierStuck s uid x.1 x.2) = [] := by
      rw [List.filter_eq_nil_iff]
      intro x _
      simp [(barriers_closed h x.1 x.2).2]
    dsimp only
    rw [passes, none_stuck]
    exact ite_self s

theorem setBarrier_groups (s : State) (uid team : Nat) (gs : Bool) (b : Barrier) : (setBarrier s uid team gs b).groups = s.groups := by
  unfold setBarrier
  split
  · rfl
  · split
    · rfl
    · split <;> rfl

theorem gangOf_setGang (s : State) (k j : Nat) (q : Gang) : gangOf (setGang s k q) j = if j = k then some q else gangOf s j :=
  tfind_tput ..

/-- A barrier's record changes nothing of how many teams its gang has. -/
theorem setBarrier_teams (s : State) (uid team : Nat) (gs : Bool) (b : Barrier) :
    (gangOf (setBarrier s uid team gs b) uid).map (fun q => q.teams.length) = (gangOf s uid).map (fun q => q.teams.length) := by
  unfold setBarrier
  split
  · rfl
  · next q hq =>
    split
    · simp [gangOf_setGang, hq]
    · split
      · rfl
      · simp [gangOf_setGang, hq]

/-! ### Threads that have exited -/

/-- The group once a unit's threads have exited. -/
def exitedOf (u : Issue) : Group := putFrags { u.g with exited := u.g.exited ||| u.f.lanes } u.f.lanes []

theorem liveLanes_exitedOf (u : Issue) : liveLanes (exitedOf u) = liveLanes u.g &&& ~~~u.f.lanes := by
  change u.g.created &&& ~~~(u.g.exited ||| u.f.lanes) = u.g.created &&& ~~~u.g.exited &&& ~~~u.f.lanes
  rw [BitVec.not_or, BitVec.and_assoc]

/-- The exit of threads adds no arrival at a barrier. -/
theorem noneArrived_exit {s t : State} {u : Issue} (h : issueOf s = some u) (none' : NoneArrived s u.g.gang)
    (groups : t.groups = (setGroup s u.key (exitedOf u)).groups) : NoneArrived t u.g.gang := by
  intro x hx gang
  rw [groups] at hx
  rcases mem_tput hx with rfl | hx
  · exact none' (u.key, u.g) (mem_groups_of_groupOf (groupOf_issue h)) gang
  · exact none' x hx gang

/-- The checks after an exit, where no rendezvous is open and no barrier has been arrived at. -/
theorem exit_checks {s t : State} {u : Issue} (h : issueOf s = some u) (closed : u.g.rdv = []) (none' : NoneArrived s u.g.gang)
    (groups : t.groups = (setGroup s u.key (exitedOf u)).groups) :
    checkBarriers (checkRendezvous t u.key) u.g.gang = t := by
  have here : groupOf t u.key = some (exitedOf u) := by
    rw [groupOf, groups]; exact groupOf_setGroup ..
  have noInstance : (exitedOf u).rdv = [] := closed
  rw [checkRendezvous_quiet here (by simp [noInstance]) (by simp [noInstance])]
  exact checkBarriers_closed (noneArrived_exit h none' groups)

/-- No trap is delivered at the gang rung where threads of the group live on or no trap is pending (R410). -/
theorem flushPending_none {s : State} {key : Nat} {g : Group} (hg : groupOf s key = some g) (twice : tput s.groups key g = s.groups)
    (h : liveLanes g ≠ 0 ∨ g.pending = []) : flushPending s key = s := by
  unfold flushPending
  rw [hg]
  dsimp only
  by_cases live : liveLanes g = 0
  · have none' : g.pending = [] := h.resolve_left (not_not.mpr live)
    have same : ({ g with pending := [] } : Group) = g := by rw [← none']
    rw [if_neg (by simp [live]), same, none']
    simp only [List.foldl_nil, setGroup, twice]
  · rw [if_pos (by simpa using live)]

theorem flushPending_exit {s t : State} {u : Issue} (groups : t.groups = (setGroup s u.key (exitedOf u)).groups)
    (h : liveLanes u.g &&& ~~~u.f.lanes ≠ 0 ∨ u.g.pending = []) : flushPending t u.key = t := by
  refine flushPending_none (g := exitedOf u) ?_ ?_ (by rw [liveLanes_exitedOf]; exact h)
  · rw [groupOf, groups]; exact groupOf_setGroup ..
  · rw [groups]; exact tput_tput ..

theorem exitArrival_live {s : State} {u : Issue} {gs : Bool} (live : liveLanes u.g &&& ~~~u.f.lanes ≠ 0)
    (none' : u.g.arrTeam = 0 ∧ u.g.arrGang = 0) : exitArrival s (exitedOf u) gs = s := by
  have nobody : arrivedBits (exitedOf u) gs = 0 := by
    cases gs
    · exact none'.1
    · exact none'.2
  refine if_neg ?_
  have late : liveLanes (exitedOf u) &&& ~~~(0 : Dword) ≠ 0 := by
    rw [liveLanes_exitedOf, show ~~~(0 : Dword) = BitVec.allOnes 64 from BitVec.not_zero, BitVec.and_allOnes]
    exact live
  rw [groupArrived, nobody]
  simpa using late

theorem exitArrival_last (s : State) {u : Issue} (gs : Bool) (last : liveLanes u.g &&& ~~~u.f.lanes = 0) :
    exitArrival s (exitedOf u) gs = countedAt s u gs (exitedOf u) := by
  have all : liveLanes (exitedOf u) = 0 := (liveLanes_exitedOf u).trans last
  have arrived : groupArrived (exitedOf u) gs = true := by simp [groupArrived, all]
  have noneLate : liveLanes (exitedOf u) &&& ~~~(arrivals (exitedOf u) gs) = 0 := by rw [all]; exact BitVec.zero_and
  unfold exitArrival countArrival countedAt
  dsimp only
  rw [arrived, if_pos rfl, if_pos rfl, if_pos noneLate]
  rfl

theorem gangBarrier_exit (t : State) (u : Issue) : gangBarrier t (exitedOf u) true = onGang t u true := by
  unfold gangBarrier onGang
  change (true && match gangOf t u.g.gang with | none => false | some q => decide (1 < q.teams.length)) = _
  cases gangOf t u.g.gang <;> rfl

theorem onGang_countedAt (t : State) (u : Issue) (gs : Bool) (g' : Group) : onGang (countedAt t u gs g') u true = onGang t u true := by
  unfold onGang countedAt
  have teams := setBarrier_teams t u.g.gang u.g.team gs
  have more : ∀ o : Option Gang, o.map (fun q => decide (1 < q.teams.length)) =
      (o.map (fun q => q.teams.length)).map (fun n => decide (1 < n)) := fun o => by cases o <;> rfl
  dsimp only
  rw [more, more, teams]

theorem countedAt_groups (s : State) (u : Issue) (gs : Bool) (g' : Group) : (countedAt s u gs g').groups = s.groups :=
  setBarrier_groups ..

theorem exec_exit {s : State} {u : Issue} (h : issueOf s = some u) :
    exec .exit s = .next (
      let t := exitArrival (setGroup s u.key (exitedOf u)) (exitedOf u) false
      let t := if gangBarrier t (exitedOf u) true then exitArrival t (exitedOf u) true else t
      flushPending (checkBarriers (checkRendezvous t u.key) u.g.gang) u.key) := withIssue_eq h _

/-- Settles O11. -/
theorem exitEndsTheThreads : Obligations.ExitEndsTheThreads := by
  intro s u h closed none'
  have own : u.g.arrTeam = 0 ∧ u.g.arrGang = 0 := none' (u.key, u.g) (mem_groups_of_groupOf (groupOf_issue h)) rfl
  refine ⟨exitedOf u, rfl, rfl, fun f => ?_, fun live => ?_, fun last pending => ?_⟩
  · simp [exitedOf, putFrags]
  · rw [exec_exit h]
    simp only [exitArrival_live live own, ite_self]
    rw [exit_checks h closed none' rfl, flushPending_exit rfl (.inl live)]
  · have atTeam : exitArrival (setGroup s u.key (exitedOf u)) (exitedOf u) false = arrivedAt s u false (exitedOf u) :=
      exitArrival_last _ _ last
    have same : onGang (arrivedAt s u false (exitedOf u)) u true = onGang s u true := onGang_countedAt ..
    rw [exec_exit h]
    dsimp only
    rw [atTeam, gangBarrier_exit, same, exitArrival_last _ _ last]
    have groups : (if onGang s u true then countedAt (arrivedAt s u false (exitedOf u)) u true (exitedOf u)
        else arrivedAt s u false (exitedOf u)).groups = (setGroup s u.key (exitedOf u)).groups := by
      split <;> simp only [arrivedAt, countedAt_groups]
    rw [exit_checks h closed none' groups, flushPending_exit groups (.inr pending)]

end Sys2Proof.Machine

/-!
SUPPORT. Words that write a mask (R126, R134, R168, R170): the one operation that writes a bit for each lane, and the conditions that its
words put there.
-/
namespace Sys2Proof

theorem lane_below (w : Nat) {l : Nat} (hl : l < 64) : lane (below w) l = decide (l < w) := by
  unfold lane below
  rw [BitVec.getLsbD_ofNat, Nat.testBit_two_pow_sub_one]
  simp [hl]

theorem lane_or (m n : Dword) (l : Nat) : lane (m ||| n) l = (lane m l || lane n l) := by simp [lane]

theorem lane_not (m : Dword) {l : Nat} (hl : l < 64) : lane (~~~m) l = !lane m l := by simp [lane, hl]

end Sys2Proof

namespace Sys2Proof.Machine

open Sys2Proof

/-! ### Masks of a group -/

theorem maskReg_setMask (g : Group) {m : Nat} (hm : m ≠ 0) (x : Dword) (k : Nat) :
    maskReg (setMask g m x) k = if k = m then x &&& below g.width else maskReg g k := by
  unfold maskReg
  change (if k = 0 then below g.width else tget 0 (tset 0 g.m m (x &&& below g.width)) k &&& below g.width) = _
  rw [tget_tset]
  by_cases same : k = m
  · rw [if_neg (same ▸ hm), if_pos same, if_pos same, BitVec.and_assoc, BitVec.and_self]
  · rw [if_neg same, if_neg same]

theorem lane_maskReg (g : Group) (m : Nat) {l : Nat} (hl : l < 64) : lane (maskReg g m) l = (lane (maskReg g m) l && decide (l < g.width)) := by
  unfold maskReg
  split
  · simp [lane_below, hl]
  · simp [lane_and, lane_below, hl]

/-- A word executes lanes of its own fragment alone. -/
theorem lane_of_execLanes {u : Issue} {p : Option Pfx} {l : Nat} (h : lane (execLanes u p) l = true) : lane u.f.lanes l = true := by
  unfold execLanes activeOf at h
  dsimp only at h
  split at h <;> simp only [lane_and, Bool.and_eq_true] at h
  · exact h.1.1
  · exact h.1

/-- The mask that a mask word leaves (R112, R126). -/
theorem lane_writeMask (g : Group) {m : Nat} (hm : m ≠ 0) {lanes act : Dword} (sub : ∀ l, lane act l = true → lane lanes l = true)
    (z : Bool) (val : Nat → Bool) {l : Nat} (hl : l < 64) :
    lane (maskReg (writeMask g m lanes act z val) m) l =
      (decide (l < g.width) && (if lane act l then val l else if z && lane lanes l then false else lane (maskReg g m) l)) := by
  unfold writeMask
  rw [maskReg_setMask g hm, if_pos rfl, lane_and, lane_or, lane_below _ hl, lane_maskOf]
  have inside := sub l
  cases ha : lane act l <;> cases z <;> cases hn : lane lanes l <;> simp_all [lane_and, lane_not, Bool.and_comm]

theorem maskOp_eq {s : State} {u : Issue} (h : issueOf s = some u) {p : Option Pfx} {m : BitVec 3} (hm : m ≠ 0) {srcs : List (Opnd × Nat)}
    (ok : RegsOk u.g srcs) (val : Group → Nat → Bool) :
    maskOp s p m srcs val = .next (u.passed s (writeMask u.g m.toNat u.f.lanes (execLanes u p) (zOf p) (val u.g))) := by
  unfold maskOp
  rw [withIssue_eq h, if_neg hm, badReg_none ok]
  rfl

theorem toNat_ne_zero {w : Nat} {m : BitVec w} (h : m ≠ 0) : m.toNat ≠ 0 := fun z => h (BitVec.eq_of_toNat_eq (by simpa using z))

/-- A word that writes a bit for each lane runs to its result. -/
theorem maskRuns_of_maskOp {i : Instr} {s : State} {u : Issue} (h : issueOf s = some u) {p : Option Pfx} {m : BitVec 3} (hm : m ≠ 0)
    {srcs : List (Opnd × Nat)} (ok : RegsOk u.g srcs) {val : Group → Nat → Bool} (word : exec i s = maskOp s p m srcs val) :
    MaskRuns i s u p m.toNat (val u.g) := by
  have hm' := toNat_ne_zero hm
  exact ⟨_, word.trans (maskOp_eq h hm ok val), rfl, fun k hk => (maskReg_setMask u.g hm' _ k).trans (if_neg hk),
    fun l hl => lane_writeMask u.g hm' (fun _ => lane_of_execLanes) _ _ hl⟩

/-- A mask row runs where its word writes what the row says. -/
theorem maskRow_runs {r : MaskRow} {val : Group → Nat → Bool} (word : ∀ s, exec r.i s = maskOp s r.p r.m r.srcs val)
    (same : ∀ g l, val g l = r.bit g l) : r.Runs := by
  intro s u h hm ok
  obtain rfl : val = r.bit := funext fun g => funext fun l => same g l
  exact maskRuns_of_maskOp h hm ok (word s)

/-! ### Conditions -/

theorem intCondition_eq {w : Nat} (c : BitVec 3) (a b : BitVec w) (unsig : Bool) (x y : Int)
    (lt : (if unsig then a.ult b else a.slt b) = decide (x < y)) (gt : (if unsig then b.ult a else b.slt a) = decide (y < x))
    (eq : (a = b) ↔ x = y) : intCondition c.toNat x y = intCompare unsig c a b := by
  have eq' : (a == b) = decide (x = y) := by rw [Bool.eq_iff_iff]; simpa using eq
  have le : decide (x ≤ y) = !decide (y < x) := by rw [Bool.eq_iff_iff]; simp
  have ge : decide (y ≤ x) = !decide (x < y) := by rw [Bool.eq_iff_iff]; simp
  unfold intCompare intCondition
  simp only [lt, gt, bne, eq', le, ge, ne_eq, decide_not]
  obtain ⟨k⟩ := c
  fin_cases k <;> rfl

/-- The condition of a signed compare. -/
theorem intCondition_toInt {w : Nat} (c : BitVec 3) (a b : BitVec w) :
    intCondition c.toNat a.toInt b.toInt = intCompare false c a b :=
  intCondition_eq c a b false _ _ rfl rfl BitVec.toInt_inj.symm

/-- The condition of an unsigned compare. -/
theorem intCondition_toNat {w : Nat} (c : BitVec 3) (a b : BitVec w) :
    intCondition c.toNat (a.toNat : Int) (b.toNat : Int) = intCompare true c a b :=
  intCondition_eq c a b true _ _ (by simp [BitVec.ult]) (by simp [BitVec.ult]) (by rw [Int.natCast_inj, BitVec.toNat_inj])

/-- Of two values that are no NaN, the second is not less just where the first is less or equal. -/
theorem exactLt_total {x y : Exact} (hx : x.isNan = false) (hy : y.isNan = false) :
    (exactLt x y || exactEq x y) = !exactLt y x := by
  cases x with
  | nan => cases hx
  | inf n =>
    cases y with
    | nan => cases hy
    | inf m => cases n <;> cases m <;> rfl
    | num q z => cases n <;> rfl
  | num p v =>
    cases y with
    | nan => cases hy
    | inf m => cases m <;> rfl
    | num q z =>
      change (decide (p < q) || decide (p = q)) = !decide (q < p)
      rw [Bool.eq_iff_iff]
      simpa using (le_iff_lt_or_eq (a := p) (b := q)).symm

theorem exactEq_comm (x y : Exact) : exactEq x y = exactEq y x := by
  cases x <;> cases y <;> simp [exactEq, eq_comm, Bool.beq_comm]

/-- The condition of a floating compare (R134): the ones with equality are the others' opposites among numbers. -/
theorem floatCondition_eq (f : BitVec 4) (x y : Exact) : floatCondition f.toNat x y =
    (let un := x.isNan || y.isNan
     match f with
      | 0 => !un && exactEq x y
      | 1 => un || !exactEq x y
      | 2 => !un && exactLt x y
      | 3 => !un && !exactLt y x
      | 4 => !un && exactLt y x
      | 5 => !un && !exactLt x y
      | 6 => un
      | _ => !un) := by
  have le : (!(x.isNan || y.isNan) && (exactLt x y || exactEq x y)) = (!(x.isNan || y.isNan) && !exactLt y x) := by
    cases hx : x.isNan <;> cases hy : y.isNan <;> simp [exactLt_total, hx, hy]
  have ge : (!(x.isNan || y.isNan) && (exactLt y x || exactEq x y)) = (!(x.isNan || y.isNan) && !exactLt x y) := by
    cases hx : x.isNan <;> cases hy : y.isNan <;> simp [exactEq_comm x y, exactLt_total, hx, hy]
  unfold floatCondition
  dsimp only
  rw [← le, ← ge]
  simp only [← Bool.not_or, Bool.not_not]
  obtain ⟨k⟩ := f
  fin_cases k <;> rfl

/-! ### The words -/

/-- Every word of the compares and of the masks' words of bits runs to its result. -/
theorem compareRows_run (p : Option Pfx) (c m : BitVec 3) (f : BitVec 4) (a b : Opnd) : ∀ r ∈ compareRows p c m f a b, r.Runs := by
  simp only [compareRows, List.forall_mem_cons, List.not_mem_nil, false_imp_iff, implies_true, and_true]
  refine ⟨maskRow_runs (fun s => Eq.refl (execIcmpI32 p c m a b s)) fun g l => intCondition_toInt ..,
    maskRow_runs (fun s => Eq.refl (execIcmpN32 p c m a b s)) fun g l => intCondition_toNat ..,
    maskRow_runs (fun s => Eq.refl (execIcmpI64 p c m a b s)) fun g l => intCondition_toInt ..,
    maskRow_runs (fun s => Eq.refl (execIcmpN64 p c m a b s)) fun g l => intCondition_toNat ..,
    maskRow_runs (fun s => Eq.refl (execFcmp p f m a b s)) fun g l => floatCondition_eq ..,
    maskRow_runs (fun s => Eq.refl (execMlop p f m a b s)) fun g l => ?_,
    maskRow_runs (fun s => Eq.refl (execMsetNz p m a s)) fun g l => ?_⟩
  · dsimp only [rowMask]
    rw [getLsbD_eq_bit]
    cases lane (maskReg g a.toNat) l <;> cases lane (maskReg g b.toNat) l <;> rfl
  · change decide ((val32 g a l).toNat ≠ 0) = (val32 g a l != 0)
    rw [Bool.eq_iff_iff]
    simp [← BitVec.toNat_inj]

end Sys2Proof.Machine

/-!
SUPPORT. Moves and immediates (R165, R167), words that read a mask (R168, R169), MOVV (R166) and ELECT (R79).
-/
namespace Sys2Proof.Machine

open Sys2Proof

/-- A row whose word draws nothing runs where the word computes what the row says. -/
theorem laneRow_runs {r : LaneRow} (hn : r.n = 1 ∨ r.n = 2) (still : r.adv = fun _ _ x => x) {val : Group → Nat → Nat}
    (word : ∀ s, exec r.i s = pureOp s r.p r.d r.n r.srcs val) (same : ∀ g l, BitVec.ofNat 64 (val g l) = r.val g l) : r.Runs := by
  intro s u h ok
  obtain ⟨g', runs, writes, draws, only⟩ := pureOp_runs (p := r.p) h hn ok val
  exact ⟨g', (word s).trans runs, by simpa only [same] using writes, by rw [still]; exact draws, only⟩

/-! ### Values -/

theorem ofNat_nat32 (g : Group) (a : Opnd) (l : Nat) : BitVec.ofNat 64 (nat32 g a l) = (val32 g a l).setWidth 64 :=
  BitVec.ofNat_toNat ..

theorem auxOf_mask (p : Option Pfx) : auxOf p % 8 = ((pfxGet p).aux.extractLsb' 0 3).toNat := by
  rw [toNat_extractLsb', auxOf, bits]
  omega

/-- A destination with a halfword of it replaced, as MOVI's words compute it. -/
def halfInto (d : Opnd) (i : BitVec 16) (lo : Nat) (g : Group) (l : Nat) : Nat :=
  let old := if isScalar d then (sreg g (scalarNo d)).toNat else nat32 g d l
  old - bits old lo 16 * 2 ^ lo + i.toNat * 2 ^ lo

theorem toNat_oldOf (g : Group) (d : Opnd) (l : Nat) : (if isScalar d then (sreg g (scalarNo d)).toNat else nat32 g d l) =
    (if 192 ≤ d.toNat then sreg g (d.toNat - 192) else (vreg g d.toNat l).setWidth 64 : Dword).toNat := by
  unfold nat32 val32 isScalar scalarNo
  by_cases scalar : 192 ≤ d.toNat
  · simp [scalar]
  · have small : (vreg g d.toNat l).toNat % 2 ^ 64 = (vreg g d.toNat l).toNat := Nat.mod_eq_of_lt (by omega)
    simp only [scalar, decide_false, Bool.false_eq_true, if_false, BitVec.toNat_setWidth, small]

/-- A halfword put into a value. -/
theorem insert_low (x : Dword) (i : BitVec 16) :
    BitVec.ofNat 64 (x.toNat - bits x.toNat 0 16 * 2 ^ 0 + i.toNat * 2 ^ 0) = x.extractLsb' 16 48 ++ i := by
  apply BitVec.eq_of_toNat_eq
  rw [toNat_append_add, toNat_extractLsb', BitVec.toNat_ofNat, bits, bits]
  omega

theorem insert_high (x : Dword) (i : BitVec 16) :
    BitVec.ofNat 64 (x.toNat - bits x.toNat 16 16 * 2 ^ 16 + i.toNat * 2 ^ 16) = x.extractLsb' 32 32 ++ i ++ x.extractLsb' 0 16 := by
  apply BitVec.eq_of_toNat_eq
  rw [toNat_append_add, toNat_append_add, toNat_extractLsb', toNat_extractLsb', BitVec.toNat_ofNat, bits, bits, bits]
  omega

theorem ofNat_wrap (n w : Nat) (y : Int) : BitVec.ofNat w (wrap n y) = (BitVec.ofInt n y).setWidth w := by
  apply BitVec.eq_of_toNat_eq
  rw [BitVec.toNat_ofNat, BitVec.toNat_setWidth, BitVec.toNat_ofInt]
  rfl

theorem popBelow_eq (m : Dword) (l : Nat) : popBelow m l = (List.range (min l 64)).countP (lane m) := by
  have inside : (List.range 64).filter (fun i => decide (i < l)) = List.range (min l 64) := by
    have first : List.range 64 = List.range (min l 64) ++ (List.range (64 - min l 64)).map (min l 64 + ·) := by
      rw [← List.range_add]
      congr 1
      omega
    rw [first, List.filter_append, List.filter_eq_self.mpr (by simp; omega), List.filter_eq_nil_iff.mpr (by simp; omega), List.append_nil]
  unfold popBelow lanesOf
  rw [List.filter_filter, List.countP_eq_length_filter, ← inside, List.filter_filter]
  simp only [Bool.and_comm]

theorem ofNat_getD (o : Option Nat) : BitVec.ofNat 64 (o.getD 0xFFFFFFFF) = o.elim 0xFFFFFFFF (BitVec.ofNat 64) := by
  cases o <;> rfl

theorem moveRows_run (p : Option Pfx) (d a b : Opnd) (i : BitVec 16) : ∀ r ∈ moveRows p d a b i, r.Runs := by
  simp only [moveRows, List.forall_mem_cons, List.not_mem_nil, false_imp_iff, implies_true, and_true]
  refine ⟨laneRow_runs (.inl rfl) rfl (val := fun g l => nat32 g a l) (fun s => Eq.refl (execMov p d a s)) fun _ _ => ofNat_nat32 ..,
    laneRow_runs (.inl rfl) rfl (fun s => Eq.refl (execSel p d a b s)) fun g l => ?_,
    laneRow_runs (.inr rfl) rfl (fun s => Eq.refl (execMovs p d a s)) fun g l => ?_,
    laneRow_runs (.inl rfl) rfl (val := halfInto d i 0) (fun s => Eq.refl (execMoviLo p d i s)) fun g l => ?_,
    laneRow_runs (.inl rfl) rfl (val := halfInto d i 16) (fun s => Eq.refl (execMoviHi p d i s)) fun g l => ?_,
    laneRow_runs (.inl rfl) rfl (fun s => Eq.refl (execMoviSx p d i s)) fun g l => ?_,
    laneRow_runs (.inl rfl) rfl (fun s => Eq.refl (execMoviBf p d i s)) fun g l => ?_,
    laneRow_runs (.inl rfl) rfl (fun s => Eq.refl (execMpop p d a s)) fun g l => ?_,
    laneRow_runs (.inl rfl) rfl (fun s => Eq.refl (execMpopBelow p d a s)) fun g l => ?_,
    laneRow_runs (.inl rfl) rfl (fun s => Eq.refl (execMpopBits p d a s)) fun g l => ?_,
    laneRow_runs (.inl rfl) rfl (fun s => Eq.refl (execMfirst p d a s)) fun g l => ?_,
    laneRow_runs (.inl rfl) rfl (fun s => Eq.refl (execMfirstLast p d a s)) fun g l => ?_⟩
  · rw [auxOf_mask]
    dsimp only [row32]
    split <;> exact ofNat_nat32 ..
  · exact (BitVec.ofNat_toNat ..).trans (BitVec.setWidth_eq _)
  · dsimp only [halfInto]
    rw [toNat_oldOf]
    exact insert_low ..
  · dsimp only [halfInto]
    rw [toNat_oldOf]
    exact insert_high ..
  · dsimp only [isScalar]
    by_cases scalar : 192 ≤ d.toNat
    · simp only [scalar, decide_true, if_true, ofNat_wrap]
      exact BitVec.setWidth_eq _
    · simp only [scalar, decide_false, Bool.false_eq_true, if_false, ofNat_wrap]
      rfl
  · apply BitVec.eq_of_toNat_eq
    simp only [row32, BitVec.toNat_ofNat, BitVec.toNat_setWidth, toNat_append_add, BitVec.ofNat_eq_ofNat]
    omega
  · exact congrArg _ (popBelow_eq ..)
  · exact congrArg _ (popBelow_eq ..)
  · exact (BitVec.ofNat_toNat ..).trans (BitVec.setWidth_eq _)
  · rw [lanesOf, List.head?_filter]
    exact ofNat_getD _
  · rw [lanesOf, List.getLast?_eq_head?_reverse, ← List.filter_reverse, List.head?_filter]
    exact ofNat_getD _

/-! ### Indexed moves (R166) -/

/-- The register that an index reaches beyond the allocation. -/
theorem indexBad_none {u : Issue} {p : Option Pfx} {base b : Opnd} (ok : IndexOk u p base b) :
    indexBad u base b (execLanes u p) = none := by
  unfold indexBad
  rw [List.findSome?_eq_none_iff]
  intro l hl
  obtain ⟨held, named⟩ := ok l (mem_lanesOf.mp hl).1
  unfold indexed at held named
  unfold nat32
  rw [if_neg]
  simp only [Bool.or_eq_true, decide_eq_true_eq]
  omega

theorem indexBad_some {u : Issue} {p : Option Pfx} {base b : Opnd} (bad : ¬ IndexOk u p base b) :
    ∃ l, lane (execLanes u p) l = true ∧ indexBad u base b (execLanes u p) = some (indexed u base b l, l) := by
  cases found : indexBad u base b (execLanes u p) with
  | none =>
    refine absurd (fun l hl => ?_) bad
    have passes := List.findSome?_eq_none_iff.mp found l (mem_lanesOf.mpr ⟨hl, lane_lt hl⟩)
    unfold nat32 at passes
    unfold indexed
    simp only [ite_eq_right_iff, reduceCtorEq, imp_false, Bool.or_eq_true, decide_eq_true_eq] at passes
    omega
  | some x =>
    obtain ⟨l, hl, hit⟩ := List.exists_of_findSome?_eq_some found
    dsimp only at hit
    split at hit
    · cases hit
      exact ⟨l, (mem_lanesOf.mp hl).1, rfl⟩
    · cases hit

theorem exec_movv {s : State} {u : Issue} (h : issueOf s = some u) {p : Option Pfx} {d a b : Opnd}
    (ok : RegsOk u.g [(d, 1), (a, 1), (b, 1)]) :
    exec (.movv p d a b) s = match indexBad u (if (pfxGet p).aux.getLsbD 0 then d else a) b (execLanes u p) with
      | some (r, l) => .next (raise s u { cls := 3, info0 := BitVec.ofNat 64 r, info1 := BitVec.ofNat 64 l })
      | none =>
        if (pfxGet p).aux.getLsbD 0 then
          done s u ((lanesOf (execLanes u p)).foldl (fun h l => setVreg h (d.toNat + nat32 u.g b l) l (val32 u.g a l)) u.g)
        else
          done s u (writeVec u.g d 1 u.f.lanes (execLanes u p) (zOf p)
            (fun l => (vreg u.g (a.toNat + nat32 u.g b l) l).setWidth 64)) := by
  refine (withRegs_eq h ok _).trans ?_
  rw [bit_auxOf] <;> rfl

/-- A word that writes its destination from the group as it was, with no draw, runs to its result. -/
theorem laneRuns_writeVec {i : Instr} {s : State} {u : Issue} {p : Option Pfx} {d : Opnd} {n : Nat} (hn : n = 1 ∨ n = 2) {f : Nat → Dword}
    (word : exec i s = done s u (writeVec u.g d n u.f.lanes (execLanes u p) (zOf p) f)) : LaneRuns i s u p d n f (fun _ x => x) := by
  obtain ⟨writes, v, sc, only⟩ := writeVec_writes u p d n hn f
  refine ⟨_, word, writes, fun l _ => ?_, ?_⟩
  · rw [only, ite_self]; rfl
  · rw [only]; rfl

/-- Each lane writes a register of its own. -/
theorem foldl_setVreg_lanes (m : Dword) (r : Nat → Nat) (x : Nat → Word) (g : Group) :
    (∃ v, (lanesOf m).foldl (fun h l => setVreg h (r l) l (x l)) g = { g with v := v }) ∧
    ∀ k l, l < 64 → vreg ((lanesOf m).foldl (fun h l => setVreg h (r l) l (x l)) g) k l =
      if lane m l = true ∧ k = r l then x l else vreg g k l := by
  refine ⟨foldl_only _ _ (fun g l => ⟨_, rfl⟩) g, fun k l hl => ?_⟩
  rw [foldl_vreg (lanesOf m) _ (fun l k w => if k = r l then x l else w) (fun g l k l' h h' => ?_) (nodup_lanesOf m)
    (fun l h => (mem_lanesOf.mp h).2) g k l hl]
  · by_cases act : lane m l = true
    · simp [mem_lanesOf, act, hl]
    · simp [mem_lanesOf, act]
  · rw [vreg_setVreg _ _ _ _ _ _ h h']
    by_cases same : l' = l
    · subst same; simp
    · simp [same]

/-! ### A whole mask (R170) -/

theorem exec_mset {s : State} {u : Issue} (h : issueOf s = some u) (p : Option Pfx) {d : BitVec 3} (hd : d ≠ 0) (a : Opnd) :
    exec (.mset p d a) s = .next (u.passed s (setMask u.g d.toNat (sreg u.g (a.toNat - 192)))) :=
  (withIssue_eq h _).trans (if_neg hd)

/-! ### Election (R79) -/

theorem electOp_runs {i : Instr} {s : State} {u : Issue} (h : issueOf s = some u) {p : Option Pfx} {d : Opnd} (ok : RegsOk u.g [(d, 1)])
    {who : Issue → Nat → Bool} (word : exec i s = electOp s p d who) {f : Nat → Dword} (elects : ∀ l, (if who u l then 1 else 0) = f l) :
    LaneRuns i s u p d 1 f (fun _ x => x) := by
  refine laneRuns_writeVec (.inl rfl) (word.trans ((withRegs_eq h ok _).trans ?_))
  rw [funext elects]

/-- The lower of the number so far and a group's. -/
def lowerGid (b : Option Nat) (x : Nat × Group) : Option Nat := some (b.elim x.2.gid (min · x.2.gid))

theorem lowestGroup_eq (s : State) (uid team : Nat) : lowestGroup s uid team =
    ((groupsOf s uid).filter (fun x => x.2.team == team && liveLanes x.2 != 0)).foldl lowerGid none := by
  unfold lowestGroup
  congr 1
  funext b x
  cases b <;> rfl

theorem foldl_lowerGid (xs : List (Nat × Group)) (b : Option Nat) (n : Nat) : xs.foldl lowerGid b = some n ↔
    (b = some n ∨ ∃ x ∈ xs, x.2.gid = n) ∧ (∀ m, b = some m → n ≤ m) ∧ ∀ x ∈ xs, n ≤ x.2.gid := by
  induction xs generalizing b with
  | nil => cases b <;> simp; omega
  | cons x xs ih =>
    rw [List.foldl_cons, ih, lowerGid]
    cases b with
    | none => simp only [Option.elim_none, Option.some.injEq, reduceCtorEq, List.mem_cons, forall_eq', exists_eq_or_imp, forall_eq_or_imp]; tauto
    | some m =>
      simp only [Option.elim_some, Option.some.injEq, List.mem_cons, forall_eq', exists_eq_or_imp, forall_eq_or_imp, le_min_iff]
      rcases min_choice m x.2.gid with least | least <;> rw [least] <;> constructor <;> grind

/-- A group is its team's lowest with a live thread. -/
theorem lowestGroup_iff (s : State) (uid team gid : Nat) : lowestGroup s uid team = some gid ↔
    (∃ x ∈ s.groups, x.2.gang = uid ∧ x.2.team = team ∧ x.2.gid = gid ∧ liveLanes x.2 ≠ 0) ∧
    ∀ x ∈ s.groups, x.2.gang = uid → x.2.team = team → liveLanes x.2 ≠ 0 → gid ≤ x.2.gid := by
  have inTeam : ∀ x, x ∈ (groupsOf s uid).filter (fun x => x.2.team == team && liveLanes x.2 != 0) ↔
      x ∈ s.groups ∧ x.2.gang = uid ∧ x.2.team = team ∧ liveLanes x.2 ≠ 0 := by
    intro x
    simp only [groupsOf, List.mem_filter, Bool.and_eq_true, beq_iff_eq, bne_iff_ne]
    tauto
  rw [lowestGroup_eq, foldl_lowerGid]
  simp only [inTeam, reduceCtorEq, false_or, false_imp_iff, implies_true, true_and]
  constructor
  · rintro ⟨⟨x, ⟨hx, gang, team', live⟩, gid'⟩, least⟩
    exact ⟨⟨x, hx, gang, team', gid', live⟩, fun y hy g t l => least y ⟨hy, g, t, l⟩⟩
  · rintro ⟨⟨x, hx, gang, team', gid', live⟩, least⟩
    exact ⟨⟨x, ⟨hx, gang, team', live⟩, gid'⟩, fun y ⟨hy, g, t, l⟩ => least y hy g t l⟩

/-- The three forms of ELECT run to their results. -/
theorem elect_runs {s : State} {u : Issue} (h : issueOf s = some u) (p : Option Pfx) {d : Opnd} (ok : RegsOk u.g [(d, 1)]) :
    LaneRuns (.elect p d) s u p d 1 (fun l => if l = lowest (activeOf u.g u.f.lanes p) then 1 else 0) (fun _ x => x) ∧
    LaneRuns (.electGroup p d) s u p d 1 (fun l => if l = lowest (liveLanes u.g) then 1 else 0) (fun _ x => x) ∧
    LaneRuns (.electTeam p d) s u p d 1 (fun l =>
      if l = lowest (liveLanes u.g) ∧ (∃ x ∈ s.groups, x.2.gang = u.g.gang ∧ x.2.team = u.g.team ∧ x.2.gid = u.g.gid ∧ liveLanes x.2 ≠ 0) ∧
        (∀ x ∈ s.groups, x.2.gang = u.g.gang → x.2.team = u.g.team → liveLanes x.2 ≠ 0 → u.g.gid ≤ x.2.gid)
      then 1 else 0) (fun _ x => x) := by
  refine ⟨?_, ?_, ?_⟩
  · exact electOp_runs (i := .elect p d) h ok rfl fun l => by simp only [beq_iff_eq]
  · exact electOp_runs (i := .electGroup p d) h ok rfl fun l => by simp only [beq_iff_eq]
  · exact electOp_runs (i := .electTeam p d) h ok rfl fun l => by simp only [Bool.and_eq_true, beq_iff_eq, lowestGroup_iff, and_comm]

end Sys2Proof.Machine

/-!
SUPPORT. Bit streams (R177 to R180): the fields of %bcur and of a stream as numbers and as bit vectors, and the words, each of whose
lanes acts on its own registers and its own %bcur.
-/
namespace Sys2Proof

open Machine

/-! ### The fields of %bcur (R177) -/

theorem curOf_eq (c : Dword) : curOf c = Cur.bits c := (toNat_extractLsb' c 0 6).symm

theorem wordsOf_eq (c : Dword) : wordsOf c = (Cur.words c).toNat := (toNat_extractLsb' c 8 24).symm

theorem toNat_cur_mk (words : BitVec 24) (need : Bool) (cur : BitVec 6) :
    (Cur.mk words need cur).toNat = words.toNat * 256 + need.toNat * 64 + cur.toNat := by
  unfold Cur.mk
  simp only [toNat_append_add, BitVec.toNat_ofBool, BitVec.ofNat_eq_ofNat, BitVec.toNat_ofNat]
  omega

theorem bcurOf_eq (cur : Nat) (need : Bool) (words : Nat) :
    bcurOf cur need words = Cur.mk (BitVec.ofNat 24 words) need (BitVec.ofNat 6 cur) := by
  apply BitVec.eq_of_toNat_eq
  have := need.toNat_le
  rw [toNat_cur_mk, bcurOf]
  simp only [BitVec.toNat_ofNat]
  omega

theorem ofNat_toNat_same {n : Nat} (x : BitVec n) : BitVec.ofNat n x.toNat = x := by simp

/-! ### Fields of a stream (R179) -/

theorem quad_eq (g : Group) (q : Opnd) (l : Nat) : quad g q.toNat l = (streamOf g q l).toNat := by
  unfold quad streamOf
  simp only [toNat_append_add]
  omega

theorem streamField_eq (sx : Bool) (x : BitVec 128) (cur n : Nat) :
    BitVec.ofNat 64 (streamField sx x.toNat cur n) = (streamBits x cur n sx).setWidth 64 := by
  have field : x.toNat / 2 ^ cur % 2 ^ n = ((x >>> cur).setWidth n).toNat := by
    rw [BitVec.toNat_setWidth, BitVec.toNat_ushiftRight, Nat.shiftRight_eq_div_pow]
  have plain : BitVec.ofNat 64 (x.toNat / 2 ^ cur % 2 ^ n % 2 ^ 32) = (((x >>> cur).setWidth n).setWidth 32).setWidth 64 := by
    apply BitVec.eq_of_toNat_eq
    rw [field]
    simp
  unfold streamField streamBits
  dsimp only
  by_cases signs : sx = true ∧ n ≤ 32
  · rw [if_pos signs]
    by_cases empty : n = 0
    · subst empty
      simp [Nat.mod_one, BitVec.signExtend]
    · rw [if_pos (by simp [signs]; omega), field, signed_toNat, ofNat_wrap]
      rfl
  · rw [if_neg signs, if_neg (fun both => signs (by simp at both; tauto)), plain]

/-! ### Words that act lane by lane -/

/-- A lane's own registers and its %bcur. -/
def column (g : Group) (l : Nat) : (Nat → Word) × Dword := (fun r => vreg g r l, bcur g l)

/-- The group but for vector registers and %bcur. -/
def butColumns (g : Group) : Group := { g with v := [], bcur := [] }

theorem bcur_setBcur (g : Group) (l k : Nat) (c : Dword) : bcur (setBcur g l c) k = if k = l then c else bcur g k := tget_tset ..

/-- A word whose lanes each change their own column does so in every lane of its list. -/
theorem foldl_column {f : Group → Nat → Group} {F : Nat → (Nat → Word) × Dword → (Nat → Word) × Dword}
    (hf : ∀ g l k, l < 64 → k < 64 → column (f g l) k = if k = l then F l (column g l) else column g k)
    (m : Dword) (g : Group) {l : Nat} (hl : l < 64) :
    column ((lanesOf m).foldl f g) l = if lane m l then F l (column g l) else column g l := by
  have each : ∀ ls : List Nat, ls.Nodup → (∀ k ∈ ls, k < 64) → ∀ g : Group,
      column (ls.foldl f g) l = if l ∈ ls then F l (column g l) else column g l := by
    intro ls
    induction ls with
    | nil => simp
    | cons a ls ih =>
      intro once small g
      obtain ⟨fresh, once⟩ := List.nodup_cons.mp once
      rw [List.foldl_cons, ih once (fun k hk => small k (by simp [hk])), hf g a l (small a (by simp)) hl]
      by_cases h : l = a
      · subst h; simp [fresh]
      · simp [h]
  rw [each _ (nodup_lanesOf m) (fun k hk => (mem_lanesOf.mp hk).2) g]
  simp [mem_lanesOf, hl]

theorem butColumns_foldl {f : Group → Nat → Group} (hf : ∀ g l, butColumns (f g l) = butColumns g) (ls : List Nat) (g : Group) :
    butColumns (ls.foldl f g) = butColumns g := foldl_same butColumns f hf ls g

/-- Two groups that agree but for their columns agree once their columns are set alike. -/
theorem only_of_butColumns {g g' : Group} (h : butColumns g' = butColumns g) : { g' with v := g.v, bcur := g.bcur } = g :=
  congrArg (fun x => { x with v := g.v, bcur := g.bcur }) h

/-! ### BSR (R179) -/

/-- What a lane's column is after its stream has moved on by n bits. -/
def movedOn (q n : Nat) (c : (Nat → Word) × Dword) : (Nat → Word) × Dword :=
  if Cur.bits c.2 + n < 64 then (c.1, Cur.mk (Cur.words c.2) (Cur.need c.2) (BitVec.ofNat 6 (Cur.bits c.2 + n)))
  else (fun r => if r = q ∨ r = q + 1 then c.1 (r + 2) else c.1 r,
    Cur.mk (Cur.words c.2 + 1) true (BitVec.ofNat 6 (Cur.bits c.2 + n - 64)))

theorem column_advanceStream (g : Group) (q n l k : Nat) (hl : l < 64) (hk : k < 64) :
    column (advanceStream g q l n) k = if k = l then movedOn q n (column g l) else column g k := by
  have next : BitVec.ofNat 24 ((Cur.words (bcur g l)).toNat + 1) = Cur.words (bcur g l) + 1 := by
    apply BitVec.eq_of_toNat_eq
    simp
  unfold advanceStream movedOn
  dsimp only
  rw [curOf_eq, wordsOf_eq]
  by_cases within : Cur.bits (bcur g l) + n < 64
  · rw [if_pos within, bcurOf_eq, ofNat_toNat_same]
    unfold column
    rw [bcur_setBcur]
    by_cases same : k = l
    · subst same; rw [if_pos rfl, if_pos rfl, if_pos within]; rfl
    · rw [if_neg same, if_neg same]; rfl
  · rw [if_neg within, bcurOf_eq, next]
    unfold column
    rw [bcur_setBcur]
    have regs : ∀ r, vreg (setVreg (setVreg g q l (vreg g (q + 2) l)) (q + 1) l (vreg g (q + 3) l)) r k =
        if k = l then (if r = q ∨ r = q + 1 then vreg g (r + 2) l else vreg g r l) else vreg g r k := by
      intro r
      rw [vreg_setVreg _ _ _ _ _ _ hl hk, vreg_setVreg _ _ _ _ _ _ hl hk]
      by_cases same : k = l
      · subst same
        by_cases low : r = q
        · subst low; simp
        · by_cases high : r = q + 1
          · subst high; simp
          · simp [low, high]
      · simp [same]
    by_cases same : k = l
    · subst same
      rw [if_pos rfl, if_pos rfl, if_neg within]
      exact Prod.ext (funext fun r => (regs r).trans (if_pos rfl)) rfl
    · rw [if_neg same, if_neg same]
      exact Prod.ext (funext fun r => (regs r).trans (if_neg same)) rfl

theorem butColumns_advanceStream (g : Group) (q l n : Nat) : butColumns (advanceStream g q l n) = butColumns g := by
  have regs : ∀ (g : Group) (r l : Nat) (x : Word), butColumns (setVreg g r l x) = butColumns g := fun _ _ _ _ => rfl
  have cur : ∀ (g : Group) (l : Nat) (c : Dword), butColumns (setBcur g l c) = butColumns g := fun _ _ _ => rfl
  unfold advanceStream
  dsimp only
  split
  · exact cur ..
  · rw [cur, regs, regs]

/-- The length that BSR reads in a lane, and the field that it gives there. -/
def fieldLen (u : Issue) (b : Opnd) (l : Nat) : Nat := ((val32 u.g b l).extractLsb' 0 6).toNat
def fieldBits (u : Issue) (p : Option Pfx) (a b : Opnd) (l : Nat) : Word :=
  streamBits (streamOf u.g a l) (Cur.bits (bcur u.g l)) (fieldLen u b l) ((pfxGet p).aux.getLsbD 0)

/-- Whether BSR moves a lane's stream on, and whether the refill moves into its window. -/
def streamMoves (u : Issue) (p : Option Pfx) (l : Nat) : Bool := lane (execLanes u p) l && !(pfxGet p).aux.getLsbD 1
def streamWraps (u : Issue) (p : Option Pfx) (b : Opnd) (l : Nat) : Bool :=
  streamMoves u p l && decide (64 ≤ Cur.bits (bcur u.g l) + fieldLen u b l)

/-- The group after BSR has written its destination. -/
def fieldRead (u : Issue) (p : Option Pfx) (d a b : Opnd) : Group :=
  writeVec u.g d 1 u.f.lanes (execLanes u p) (zOf p) (fun l => (fieldBits u p a b l).setWidth 64)

/-- The group after BSR. -/
def streamRead (u : Issue) (p : Option Pfx) (d a b : Opnd) : Group :=
  if (pfxGet p).aux.getLsbD 1 then fieldRead u p d a b
  else (lanesOf (execLanes u p)).foldl (fun h l => advanceStream h a.toNat l (fieldLen u b l)) (fieldRead u p d a b)

theorem bit_auxOf_one (p : Option Pfx) : bit (auxOf p) 1 = (pfxGet p).aux.getLsbD 1 := by
  rw [getLsbD_eq_bit, bit, bit, auxOf]
  congr 1
  omega

theorem exec_bsr {s : State} {u : Issue} (h : issueOf s = some u) {p : Option Pfx} {d a b : Opnd}
    (ok : RegsOk u.g [(d, 1), (a, 4), (b, 1)]) :
    exec (.bsr p d a b) s = if inQuad d a then .next (raise s u (registerTrap u d.toNat)) else .next (u.passed s (streamRead u p d a b)) := by
  have len : ∀ l, nat32 u.g b l % 64 = fieldLen u b l := fun l => by
    rw [fieldLen, toNat_extractLsb', bits, nat32]; omega
  refine (withRegs_eq h ok _).trans ?_
  simp only [bit_auxOf, bit_auxOf_one, len, quad_eq, curOf_eq, streamField_eq]
  unfold streamRead fieldRead fieldBits
  rfl

theorem inQuad_iff (d a : Opnd) : inQuad d a = true ↔ d.toNat < 192 ∧ a.toNat ≤ d.toNat ∧ d.toNat < a.toNat + 4 := by
  simp [inQuad, isScalar, and_assoc]

section Read

variable (u : Issue) (p : Option Pfx) (d a b : Opnd)

theorem fieldRead_writes : Writes u p d 1 (fun l => (fieldBits u p a b l).setWidth 64) (fieldRead u p d a b) :=
  (writeVec_writes u p d 1 (.inl rfl) _).1

theorem fieldRead_only : ∃ v s, fieldRead u p d a b = { u.g with v := v, s := s } := (writeVec_writes u p d 1 (.inl rfl) _).2

theorem bcur_fieldRead (l : Nat) : bcur (fieldRead u p d a b) l = bcur u.g l := by
  obtain ⟨v, s, only⟩ := fieldRead_only u p d a b
  rw [only]
  rfl

theorem vreg_fieldRead (r : Nat) {l : Nat} (hl : l < 64) : vreg (fieldRead u p d a b) r l =
    if 192 > d.toNat ∧ r = d.toNat ∧ lane u.f.lanes l = true then
      (if lane (execLanes u p) l then fieldBits u p a b l else if zOf p then 0 else vreg u.g r l)
    else vreg u.g r l := by
  rw [(fieldRead_writes u p d a b).1 r l hl]
  by_cases here : 192 > d.toNat ∧ r = d.toNat ∧ lane u.f.lanes l = true
  · rw [if_pos here]
    obtain ⟨vector, rfl, inside⟩ := here
    rw [if_neg (by simp [inside]; omega)]
    simp
  · rw [if_pos ?_, if_neg here]
    cases inside : lane u.f.lanes l with
    | false => exact .inr (.inl rfl)
    | true => simp only [inside, and_true] at here; omega

/-- The column of a lane after BSR: moved on where the stream is, and else as the destination's write left it. -/
theorem column_streamRead {l : Nat} (hl : l < 64) : column (streamRead u p d a b) l =
    if streamMoves u p l then movedOn a.toNat (fieldLen u b l) (column (fieldRead u p d a b) l)
    else column (fieldRead u p d a b) l := by
  unfold streamRead streamMoves
  cases (pfxGet p).aux.getLsbD 1 with
  | true => rw [Bool.not_true, Bool.and_false]; rfl
  | false =>
    rw [Bool.not_false, Bool.and_true]
    exact foldl_column (F := fun l c => movedOn a.toNat (fieldLen u b l) c)
      (fun g l k hl hk => column_advanceStream g a.toNat (fieldLen u b l) l k hl hk) _ _ hl

theorem vreg_streamRead (r : Nat) {l : Nat} (hl : l < 64) : vreg (streamRead u p d a b) r l =
    if streamWraps u p b l = true ∧ (r = a.toNat ∨ r = a.toNat + 1) then vreg (fieldRead u p d a b) (r + 2) l
    else vreg (fieldRead u p d a b) r l := by
  refine (congrFun (congrArg Prod.fst (column_streamRead u p d a b hl)) r).trans ?_
  unfold streamWraps movedOn column
  rw [bcur_fieldRead]
  cases streamMoves u p l with
  | false => simp
  | true =>
    by_cases within : Cur.bits (bcur u.g l) + fieldLen u b l < 64
    · simp [within]
    · simp [within, Nat.not_lt.mp within]

theorem bcur_streamRead {l : Nat} (hl : l < 64) : bcur (streamRead u p d a b) l =
    if streamMoves u p l then
      (if streamWraps u p b l then Cur.mk (Cur.words (bcur u.g l) + 1) true (BitVec.ofNat 6 (Cur.bits (bcur u.g l) + fieldLen u b l - 64))
       else Cur.mk (Cur.words (bcur u.g l)) (Cur.need (bcur u.g l)) (BitVec.ofNat 6 (Cur.bits (bcur u.g l) + fieldLen u b l)))
    else bcur u.g l := by
  refine (congrArg Prod.snd (column_streamRead u p d a b hl)).trans ?_
  unfold streamWraps movedOn column
  rw [bcur_fieldRead]
  cases streamMoves u p l with
  | false => simp
  | true =>
    by_cases within : Cur.bits (bcur u.g l) + fieldLen u b l < 64
    · simp [within]
    · simp [within, Nat.not_lt.mp within]

theorem butColumns_streamRead : butColumns (streamRead u p d a b) = butColumns (fieldRead u p d a b) := by
  unfold streamRead
  split
  · rfl
  · exact butColumns_foldl (fun g l => butColumns_advanceStream ..) _ _

/-- BSR with its destination outside its quad leaves the group as R179 says. -/
theorem streamRead_reads (apart : 192 ≤ d.toNat ∨ d.toNat < a.toNat ∨ a.toNat + 4 ≤ d.toNat) :
    StreamRead u p d a b (streamRead u p d a b) := by
  have rest := butColumns_streamRead u p d a b
  refine ⟨fun r l hl => (vreg_streamRead u p d a b r hl).trans ?_, fun r => ?_, fun l hl => bcur_streamRead u p d a b hl, ?_⟩
  · change _ = if 192 > d.toNat ∧ r = d.toNat ∧ lane u.f.lanes l = true then
        (if lane (execLanes u p) l then fieldBits u p a b l else if zOf p then 0 else vreg u.g r l)
      else if streamWraps u p b l = true ∧ (r = a.toNat ∨ r = a.toNat + 1) then vreg u.g (r + 2) l else vreg u.g r l
    rw [vreg_fieldRead _ _ _ _ _ _ hl, vreg_fieldRead _ _ _ _ _ _ hl]
    by_cases inQuad : r = a.toNat ∨ r = a.toNat + 1
    · have low : ¬ (192 > d.toNat ∧ r = d.toNat ∧ lane u.f.lanes l = true) := by omega
      have high : ¬ (192 > d.toNat ∧ r + 2 = d.toNat ∧ lane u.f.lanes l = true) := by omega
      rw [if_neg low, if_neg high, if_neg low]
    · have not : ¬ (streamWraps u p b l = true ∧ (r = a.toNat ∨ r = a.toNat + 1)) := fun both => inQuad both.2
      rw [if_neg not, if_neg not]
  · have same : sreg (streamRead u p d a b) r = sreg (fieldRead u p d a b) r := by
      have scalars : (butColumns (streamRead u p d a b)).s = (butColumns (fieldRead u p d a b)).s := by rw [rest]
      exact congrArg (fun t => tget 0 t r) scalars
    exact same.trans ((fieldRead_writes u p d a b).2 r)
  · obtain ⟨v, s, only⟩ := fieldRead_only u p d a b
    rw [only] at rest
    exact congrArg (fun x : Group => { x with v := u.g.v, s := u.g.s, bcur := u.g.bcur }) rest

end Read

/-! ### BSINIT, BSPOS and BSREF (R178, R180) -/

/-- The %bcur that BSINIT starts a lane with. -/
def startCur (u : Issue) (b : Opnd) (l : Nat) : Dword := Cur.mk 0 false ((val32 u.g b l).extractLsb' 0 6)

/-- The group after BSINIT. -/
def streamStart (u : Issue) (p : Option Pfx) (b : Opnd) : Group :=
  (lanesOf (execLanes u p)).foldl (fun h l => setBcur h l (startCur u b l)) u.g

theorem exec_bsinit {s : State} {u : Issue} (h : issueOf s = some u) {p : Option Pfx} {b : Opnd} (ok : RegsOk u.g [(b, 1)]) :
    exec (.bsinit p b) s = .next (u.passed s (streamStart u p b)) := by
  have start : ∀ l, bcurOf (nat32 u.g b l) false 0 = startCur u b l := by
    intro l
    have low : BitVec.ofNat 6 (val32 u.g b l).toNat = (val32 u.g b l).extractLsb' 0 6 := rfl
    rw [bcurOf_eq, nat32, low]
    rfl
  refine (withRegs_eq h ok _).trans ?_
  simp only [start]
  rfl

theorem column_setBcur (g : Group) (l k : Nat) (c : Dword) :
    column (setBcur g l c) k = if k = l then ((column g l).1, c) else column g k := by
  unfold column
  rw [bcur_setBcur]
  by_cases same : k = l
  · subst same; rw [if_pos rfl, if_pos rfl]; rfl
  · rw [if_neg same, if_neg same]; rfl

theorem streamStart_starts (u : Issue) (p : Option Pfx) (b : Opnd) : StreamStart u p b (streamStart u p b) := by
  refine ⟨fun l hl => ?_, ?_⟩
  · have each := foldl_column (F := fun l c => (c.1, startCur u b l)) (fun g l k _ _ => column_setBcur g l k (startCur u b l))
      (execLanes u p) u.g hl
    refine (congrArg Prod.snd each).trans ?_
    split <;> rfl
  · exact foldl_same (fun g : Group => { g with bcur := u.g.bcur }) (fun h l => setBcur h l (startCur u b l)) (fun _ _ => rfl) _ u.g

/-- One lane of BSREF. -/
def refillLane (u : Issue) (a b : Opnd) (h : Group) (l : Nat) : Group :=
  if Cur.need (bcur u.g l) then setBcur (putReg h (a + 2) 2 l (val64 u.g b l)) l
    (Cur.mk (Cur.words (bcur u.g l)) false ((bcur u.g l).extractLsb' 0 6)) else h

theorem exec_bsref {s : State} {u : Issue} (h : issueOf s = some u) {p : Option Pfx} {a b : Opnd} (ok : RegsOk u.g [(a, 4), (b, 2)]) :
    exec (.bsref p a b) s = .next (u.passed s ((lanesOf (execLanes u p)).foldl (refillLane u a b) u.g)) := by
  have filled : ∀ l, bcurOf (curOf (bcur u.g l)) false (wordsOf (bcur u.g l)) =
      Cur.mk (Cur.words (bcur u.g l)) false ((bcur u.g l).extractLsb' 0 6) := by
    intro l
    rw [bcurOf_eq, wordsOf_eq, curOf_eq, ofNat_toNat_same, Cur.bits, ofNat_toNat_same]
  refine (withRegs_eq h ok _).trans ?_
  simp only [filled]
  rfl

/-- A lane's column once its refill has been loaded. -/
def refilled (u : Issue) (a b : Opnd) (l : Nat) (c : (Nat → Word) × Dword) : (Nat → Word) × Dword :=
  if Cur.need (bcur u.g l) then
    (fun r => if r = a.toNat + 2 then (val64 u.g b l).extractLsb' 0 32
      else if r = a.toNat + 3 then (val64 u.g b l).extractLsb' 32 32 else c.1 r,
     Cur.mk (Cur.words (bcur u.g l)) false ((bcur u.g l).extractLsb' 0 6))
  else c

/-- A pair of a lane takes the two halves of a value. -/
theorem vreg_putPair (g : Group) (d : Opnd) (l k : Nat) (x : Dword) (hl : l < 64) (hk : k < 64) (r : Nat) :
    vreg (putReg g d 2 l x) r k = if k = l then
      (if r = d.toNat then x.extractLsb' 0 32 else if r = d.toNat + 1 then x.extractLsb' 32 32 else vreg g r l) else vreg g r k := by
  rw [putReg_vreg _ _ _ _ _ (.inr rfl) hl _ _ hk]
  have low : (x >>> 0).setWidth 32 = x.extractLsb' 0 32 := by apply BitVec.eq_of_toNat_eq; simp
  have high : (x >>> 32).setWidth 32 = x.extractLsb' 32 32 := by apply BitVec.eq_of_toNat_eq; simp
  by_cases same : k = l
  · subst same
    by_cases first : r = d.toNat
    · subst first; simpa using low
    · by_cases second : r = d.toNat + 1
      · subst second; simpa using high
      · rw [if_neg (by omega), if_pos rfl, if_neg first, if_neg second]
  · rw [if_neg (by omega), if_neg same]

theorem column_refillLane (u : Issue) {a b : Opnd} (quad : (a + 2).toNat = a.toNat + 2) (g : Group) (l k : Nat) (hl : l < 64) (hk : k < 64) :
    column (refillLane u a b g l) k = if k = l then refilled u a b l (column g l) else column g k := by
  unfold refillLane refilled
  cases Cur.need (bcur u.g l) with
  | false => by_cases same : k = l <;> simp [same]
  | true =>
    have pair := vreg_putPair g (a + 2) l k (val64 u.g b l) hl hk
    rw [quad] at pair
    rw [if_pos rfl, if_pos rfl, column_setBcur]
    by_cases same : k = l
    · subst same
      rw [if_pos rfl, if_pos rfl]
      exact Prod.ext (funext fun r => (pair r).trans (if_pos rfl)) rfl
    · rw [if_neg same, if_neg same]
      obtain ⟨v, only⟩ := putReg_only g (a + 2) 2 l (val64 u.g b l)
      exact Prod.ext (funext fun r => (pair r).trans (if_neg same)) (by rw [only]; rfl)

theorem butColumns_refillLane (u : Issue) (a b : Opnd) (g : Group) (l : Nat) : butColumns (refillLane u a b g l) = butColumns g := by
  unfold refillLane
  split
  · obtain ⟨v, only⟩ := putReg_only g (a + 2) 2 l (val64 u.g b l)
    rw [only]
    rfl
  · rfl

theorem refill_refills (u : Issue) (p : Option Pfx) {a b : Opnd} (quad : (a + 2).toNat = a.toNat + 2) :
    StreamRefill u p a b ((lanesOf (execLanes u p)).foldl (refillLane u a b) u.g) := by
  have columns : ∀ l, l < 64 → column ((lanesOf (execLanes u p)).foldl (refillLane u a b) u.g) l =
      if lane (execLanes u p) l then refilled u a b l (column u.g l) else column u.g l :=
    fun l hl => foldl_column (column_refillLane u quad) _ _ hl
  refine ⟨fun r l hl => ?_, fun l hl => ?_, ?_⟩
  · refine (congrFun (congrArg Prod.fst (columns l hl)) r).trans ?_
    unfold refilled
    cases act : lane (execLanes u p) l with
    | false => simp [column, act]
    | true => cases need : Cur.need (bcur u.g l) <;> simp [column, act, need]
  · refine (congrArg Prod.snd (columns l hl)).trans ?_
    unfold refilled
    cases act : lane (execLanes u p) l with
    | false => simp [column, act]
    | true => cases need : Cur.need (bcur u.g l) <;> simp [column, act, need]
  · exact only_of_butColumns (butColumns_foldl (butColumns_refillLane u a b) _ u.g)

theorem exec_bspos_position {s : State} {u : Issue} (h : issueOf s = some u) {p : Option Pfx} {d : Opnd}
    (position : (pfxGet p).aux.getLsbD 0 = false) (ok : RegsOk u.g [(d, 1)]) :
    LaneRuns (.bspos p d) s u p d 1
      (fun l => (Cur.words (bcur u.g l) ++ (bcur u.g l).extractLsb' 0 6 : BitVec 30).setWidth 64) (fun _ x => x) := by
  have value : ∀ g l, BitVec.ofNat 64 ((64 * wordsOf (bcur g l) + curOf (bcur g l)) % 2 ^ 32) =
      (Cur.words (bcur g l) ++ (bcur g l).extractLsb' 0 6 : BitVec 30).setWidth 64 := by
    intro g l
    apply BitVec.eq_of_toNat_eq
    rw [wordsOf_eq, curOf_eq, Cur.bits, BitVec.toNat_ofNat, BitVec.toNat_setWidth, toNat_append_add]
    omega
  have word : exec (.bspos p d) s = pureOp s p d 1 [] (fun g l => (64 * wordsOf (bcur g l) + curOf (bcur g l)) % 2 ^ 32) :=
    if_neg (by rw [bit_auxOf, position]; exact Bool.false_ne_true)
  obtain ⟨g', runs, writes, draws, only⟩ := pureOp_runs (p := p) h (.inl rfl) ok
    (fun g l => (64 * wordsOf (bcur g l) + curOf (bcur g l)) % 2 ^ 32)
  exact ⟨g', word.trans runs, by simpa only [value] using writes, draws, only⟩

theorem exec_bspos_needs {s : State} {u : Issue} (h : issueOf s = some u) {p : Option Pfx} {d : Opnd}
    (needs : (pfxGet p).aux.getLsbD 0 = true) (hd : d.setWidth 3 ≠ (0 : BitVec 3)) :
    MaskRuns (.bspos p d) s u p (d.setWidth 3).toNat (fun l => Cur.need (bcur u.g l)) :=
  maskRuns_of_maskOp (val := fun g l => needOf (bcur g l)) h hd (srcs := []) (fun _ hr => absurd hr List.not_mem_nil)
    (if_pos (by rw [bit_auxOf, needs]))

/-- A quad's registers are numbered within the allocation. -/
theorem toNat_quad_add {g : Group} {a : Opnd} {rs : List (Opnd × Nat)} (ok : RegsOk g ((a, 4) :: rs)) : (a + 2).toNat = a.toNat + 2 := by
  have first := ok (a, 4) List.mem_cons_self
  dsimp only at first
  have vector : a.toNat < 192 := by
    by_contra scalar
    rw [if_pos (by omega)] at first
    omega
  rw [BitVec.toNat_add]
  change (a.toNat + 2) % 2 ^ 8 = _
  omega

end Sys2Proof

namespace Sys2Proof.Machine

open Sys2Proof

/-- Settles O2. -/
theorem moveAndMaskWordsRun : Obligations.MoveAndMaskWordsRun := by
  refine ⟨compareRows_run, moveRows_run, ⟨?_, ?_, ?_, ?_⟩, fun p d s u h ok => elect_runs h p ok, ?_, ?_, ?_, ?_, ?_⟩
  · intro p d a b s u h ok reads within
    refine laneRuns_writeVec (.inl rfl) ?_
    rw [exec_movv h ok, reads, if_neg Bool.false_ne_true, indexBad_none within]
    rfl
  · intro p d a b s u h ok writes within
    obtain ⟨⟨v, only⟩, regs⟩ := foldl_setVreg_lanes (execLanes u p) (indexed u d b) (val32 u.g a) u.g
    refine ⟨_, ?_, fun r l hl => regs r l hl, by rw [only]⟩
    rw [exec_movv h ok, writes, if_pos rfl, indexBad_none within]
    rfl
  · intro p d a b s u h ok beyond
    obtain ⟨l, act, bad⟩ := indexBad_some beyond
    refine ⟨l, act, ?_⟩
    rw [exec_movv h ok, bad]
  · intro p d a s u h hd
    have hd' := toNat_ne_zero hd
    exact ⟨_, exec_mset h p hd a, rfl, (maskReg_setMask u.g hd' _ _).trans (if_pos rfl),
      fun k hk => (maskReg_setMask u.g hd' _ k).trans (if_neg hk)⟩
  · intro p d a b s u h ok
    refine ⟨fun apart => ⟨_, ?_, streamRead_reads u p d a b apart⟩, fun inside => ?_⟩
    · rw [exec_bsr h ok, if_neg (fun inside => by have := (inQuad_iff d a).mp inside; omega)]
    · rw [exec_bsr h ok, if_pos ((inQuad_iff d a).mpr inside)]
  · exact fun p b s u h ok => ⟨_, exec_bsinit h ok, streamStart_starts u p b⟩
  · exact fun p a b s u h ok => ⟨_, exec_bsref h ok, refill_refills u p (toNat_quad_add ok)⟩
  · exact fun p d s u h position ok => exec_bspos_position h position ok
  · exact fun p d s u h needs hd => exec_bspos_needs h needs hd

end Sys2Proof.Machine

/-!
SUPPORT. A package in which a fragment resumes a cross-lane word above its lowest lane (R418), while the rendezvous takes every Active thread of
the fragment (R171).
-/
namespace Sys2Proof.Machine

open Sys2Proof

/-- A fragment of lanes 0 and 1 that resumes its word from %pix 1. -/
def resumedFrag : Frag :=
  { lanes := 3, pc := 0, clause := none, hold := .ready, since := 0, probe := [], pix := 1, resumed := true, first := 0, op := none, age := 0,
    rest := 0 }

/-- Its group of two threads, with 5 in v1 of lane 0 and 0 in v0. -/
def resumedGroup : Group := { (default : Group) with width := 16, created := 3, frags := [resumedFrag], held := 1, v := [(64, 5)] }

/-- The package in which the fragment issues XBCAST v0, v1, 0. -/
def resumedState : State := { State.reset with groups := [(0, resumedGroup)], cur := some ⟨0, 3, 0, [0], none⟩ }

/-- The unit of that package. -/
def resumedUnit : Issue := ⟨0, resumedGroup, resumedFrag, [0]⟩

/-- v0 of lane 0 of the group after a step. -/
def firstRegister : Out → Option Word
  | .next t => (groupOf t 0).map (fun g => vreg g 0 0)
  | _ => none

theorem alone_resumed : Alone resumedUnit ((pfxGet none).aux.extractLsb' 0 3).toNat := by
  refine ⟨rfl, rfl, by decide, by decide +kernel, fun f hf => ?_⟩
  obtain rfl : f = resumedFrag := List.mem_singleton.mp hf
  exact fun waits => Hold.noConfusion waits

theorem regsOk_resumed : RegsOk resumedGroup [(0, 1), (1, 1)] := by unfold RegsOk; decide +kernel

/-- The model's rendezvous gives lane 0 the value, though the word resumes above it. -/
theorem xbcast_resumed_writes : firstRegister (exec (.xbcast none 0 1 0) resumedState) = some 5 := by decide +kernel

/-- Refutes O10: a rendezvous writes every Active thread of its fragment, where the statement's `Writes` leaves out the lanes below %pix of a
fragment that resumes. -/
theorem not_rendezvousWordsMeetOrWait : ¬ Obligations.RendezvousWordsMeetOrWait := by
  rintro ⟨⟨-, -, -, cross, -⟩, -⟩
  obtain ⟨g', runs, -, ⟨vregs, -⟩, -⟩ := cross none 0 1 0 0 0 resumedState resumedUnit rfl alone_resumed _
    (List.mem_cons_of_mem _ List.mem_cons_self) regsOk_resumed
  have stated : vreg g' 0 0 = 0 := (vregs 0 0 (by decide)).trans (by decide +kernel)
  have written : firstRegister (exec (.xbcast none 0 1 0) resumedState) = some (vreg g' 0 0) := by
    rw [runs, firstRegister, resumedUnit, groupOf_setGroup]
    rfl
  rw [xbcast_resumed_writes, stated] at written
  exact absurd written (by decide)

end Sys2Proof.Machine

/-!
SUPPORT. A package whose table of cores lists core 0 twice, both times with the takeover that has run out: each listing ends the takeover once
(R11, R429).
-/
namespace Sys2Proof.Machine

open Sys2Proof

/-- A RESTART launch: FLAGS, at byte 0x33, is 2. -/
def restartLaunch : Launch := newLaunch (List.replicate 0x33 0 ++ [2]) 0 0 0 0 0 0

/-- Its gang on core 0, of no team. -/
def restartGang : Gang := newGang 1 0 restartLaunch [0] []

/-- A group of it, with a thread that runs. -/
def restartGroup : Group := { (default : Group) with gang := 1, width := 16, created := 1, frags := [fragAtHeader 1 0 0] }

/-- Core 0, asked at clock 0 to be taken over. -/
def takenCore : Core := { Core.reset with stopBy := some 0 }

/-- The package 1 ms after that, with core 0 listed twice. -/
def listedTwice : State := { State.reset with
  clock := 1050000, launches := [(1, restartLaunch)], gangs := [(1, restartGang)], groups := [(0, restartGroup)],
  cores := [(0, takenCore), (0, takenCore)] }

/-- The dies after a step. -/
def diesAfter : Out → List Die
  | .next t => t.dies
  | _ => []

/-- The second listing of core 0 fences it, since the first has taken the die's spare. -/
theorem listedTwice_fences : (diesAfter (exec .takeoverStopTimeout listedTwice)).map (·.live) = [0xFFFE, 0xFFFF, 0xFFFF] := by
  decide +kernel

theorem onlyTaken_listedTwice : OnlyTaken listedTwice 0 := by unfold OnlyTaken; decide +kernel

/-- Refutes O48: where core 0 is listed twice, `OnlyTaken` holds, but the takeover that the statement describes is ended a second time, and
the core leaves LIVE. -/
theorem not_launchesRunTheirGangs : ¬ Obligations.LaunchesRunTheirGangs := by
  intro h
  obtain ⟨-, -, -, -, -, -, -, -, -, takeover⟩ := h listedTwice
  obtain ⟨-, -, -, -, after⟩ := takeover
  obtain ⟨t, runs, -, -, dies, -⟩ := after 0 Die.reset (1, restartGang) restartLaunch rfl (by decide) onlyTaken_listedTwice rfl rfl
    (by decide +kernel) rfl (by decide +kernel) rfl rfl (by decide +kernel) rfl (by decide +kernel)
  have fenced := listedTwice_fences
  rw [runs, diesAfter, dies] at fenced
  exact absurd fenced (by decide +kernel)

end Sys2Proof.Machine

/-!
SUPPORT. A memory word all of whose lanes have been performed (R25, R27): it gives its registers, or owes them, and passes.
-/
namespace Sys2Proof.Machine

open Sys2Proof

/-! ### The word passes -/

theorem opHappened_uncounted {s : State} {id : Nat} {o : Op} (ops : tfind s.ops id = some o) (counter : o.counter = none) :
    opHappened s id = pruneOps s o.group id := by
  simp only [opHappened, ops, counter]

/-- A word that does not wait passes on, whether or not a counter counts it. -/
theorem endLanes_finishes {s : State} {u : Issue} {k : LaneWord} {id : Nat} {o : Op} (ops : tfind s.ops id = some o)
    (waits : o.waits = 0) (counter : o.counter = k.counter) (mine : Unasked s id) :
    ∃ after, endLanes s u k id = { finish s u with ops := after } := by
  cases clause : k.counter with
  | some c => exact ⟨_, (endLanes_counted ops waits clause mine).trans (finish_putOp ..)⟩
  | none =>
    have here : tfind (finish (putOp s id { o with issued := true }) u).ops id = some { o with issued := true } := by
      rw [finish_putOp, tfind_putOp]
    have passes : endLanes s u k id = opHappened (finish (putOp s id { o with issued := true }) u) id := by
      unfold endLanes
      rw [modOp_eq ops]
      dsimp only
      rw [goesOn_unasked (s := putOp s id _) mine, tfind_putOp, clause, Option.map_some, Option.getD_some]
      dsimp only
      rw [waits]
      rfl
    rw [passes, opHappened_uncounted here (counter.trans clause), finish_putOp]
    exact ⟨_, rfl⟩

/-- What differs only in a group and in the operations, once the fragment has passed. -/
theorem Leaves.passes {s t : State} {u : Issue} {g : Group} (left : Leaves s t u.key g) (after : Table Op) :
    (finish t u).groups = (finish (Machine.setGroup s u.key g) u).groups ∧
      OnlyGroupsAndOps s { finish t u with ops := after } := by
  have there : finish t u = { Machine.setGroup s u.key (modFrag g u.f.lanes (fun f => f.past u.words.length s.clock)) with ops := t.ops } := by
    rw [finish_eq left.group, left.others, left.clock]
  have here : finish (Machine.setGroup s u.key g) u =
      Machine.setGroup s u.key (modFrag g u.f.lanes (fun f => f.past u.words.length s.clock)) := by
    rw [finish_eq (groupOf_setGroup ..), setGroup_setGroup]
    rfl
  rw [there, here]
  exact ⟨rfl, rfl⟩

/-! ### What the word's operation is once its lanes have been performed -/

section
variable {s t : State} {u : Issue} {g : Group} {k : LaneWord} {id first : Nat} {rs : List (Nat × LaneRes)}

/-- Registers given or owed leave an operation as it is, but for what it owes. -/
theorem giveOwed_op (left : Leaves s t u.key g) {o : Op} (ops : tfind t.ops id = some o) (counted : Bool) :
    ∃ owed, tfind (giveOwed t id counted (owedBy u k first rs)).ops id = some { o with owed := owed } := by
  cases counted with
  | true => exact ⟨_, by rw [giveOwed_counted ops, tfind_putOp]⟩
  | false => exact ⟨o.owed, (congrArg (tfind · id) (foldl_landOwed _ owedBy_own left).2).trans ops⟩

theorem afterLanes_op (here : groupOf s u.key = some g) (quiet : watch s u k.kind rs = s) (own : ∀ x ∈ rs, x.2.sent = false)
    (ops : tfind s.ops id = some (begun u.key k.counter k.load)) :
    ∃ o, tfind (afterLanes s u k id first rs).ops id = some o ∧ o.waits = 0 ∧ o.counter = k.counter := by
  obtain ⟨xs, told, toldOps, -⟩ := leaves_spinsTold here k rs
  have none_sent : rs.filter (fun x => x.2.sent) = [] := by
    rw [List.filter_eq_nil_iff]
    intro x hx
    simp [own x hx]
  obtain ⟨owed, entry⟩ := giveOwed_op (k := k) (first := first) (rs := rs) told ((congrArg (tfind · id) toldOps).trans ops)
    (k.counter.isSome || peerOpen (spinsTold s u k rs) id)
  unfold afterLanes
  dsimp only
  rw [quiet, none_sent, addWaits_eq entry, acquires_putOp, tfind_putOp]
  exact ⟨_, rfl, rfl, rfl⟩

end

/-! ### The word -/

theorem counted_cores {s : State} {u : Issue} (hi : issueOf s = some u) (c : Option Nat) (load : Bool) :
    (counted s u c load).cores = s.cores := by
  cases c with
  | none => rfl
  | some c =>
    rw [counted_some (groupOf_issue hi)]
    rfl

theorem counted_requests {s : State} {u : Issue} (hi : issueOf s = some u) (c : Option Nat) (load : Bool) :
    (counted s u c load).requests = s.requests := by
  cases c with
  | none => rfl
  | some c =>
    rw [counted_some (groupOf_issue hi)]
    rfl

/-- A word that issues for the first time and all of whose lanes are performed passes; its group has what they give, and spin detection
may have been told. -/
theorem laneWord_passes {s s' : State} {u : Issue} (hi : issueOf s = some u) (fresh : Fresh u) (calm : Calm s u) {k : LaneWord}
    (act : execLanes u k.p ≠ 0) (room : ∀ c, k.counter = some c → (counterOf u.g c).val < 255) {f : Nat → Nat → State → Nat → LaneOut}
    {rs : List (Nat × LaneRes)}
    (run : runLanes (f s.nextOp (lowest (execLanes u k.p))) (counted s u k.counter k.load) (lanesOf (accessLanes u k)) = (s', rs, none))
    (own : ∀ x ∈ rs, x.2.sent = false) {g₀ g : Group} (going : Going (counted s u k.counter k.load) u.key g₀ s')
    (here : groupOf s' u.key = some g) :
    ∃ t xs, laneWord s u k f = .next t ∧ ((k.load = true → k.d.toNat < 192) → xs = g.spins) ∧
      t.groups = (finish (setGroup s' u.key (givenBy u k (lowest (execLanes u k.p)) rs { g with spins := xs })) u).groups ∧
      OnlyGroupsAndOps s' t := by
  obtain ⟨resumed, noOp, -⟩ := fresh
  obtain ⟨-, -, -, -, -, -, -, off, -, alone, whole⟩ := calm
  obtain ⟨-, begins, -⟩ := counted_begun (groupOf_issue hi) k.counter k.load
  have first : scalarLane u k.p = lowest (execLanes u k.p) := by simp [scalarLane, Frag.fresh, resumed]
  have notFull : counterFull u.g k.counter = none := by
    cases clause : k.counter with
    | none => rfl
    | some c => exact if_neg (Nat.not_le.mpr (room c clause))
  have quiet : watch s' u k.kind rs = s' := by
    refine watch_off ?_ _ _
    rw [coreOf, going.cores, counted_cores hi]
    exact off
  have ops : tfind s'.ops s.nextOp = some (begun u.key k.counter k.load) := (congrArg (tfind · s.nextOp) going.ops).trans begins
  have mine : Unasked s' s.nextOp := by
    unfold Unasked
    rw [going.requests, counted_requests hi]
    exact alone
  obtain ⟨xs, left, -, spins⟩ := afterLanes_leaves (first := lowest (execLanes u k.p)) here quiet own ops mine
  obtain ⟨o, entry, waits, counter⟩ := afterLanes_op (first := lowest (execLanes u k.p)) here quiet own ops
  have still : Unasked (afterLanes s' u k s.nextOp (lowest (execLanes u k.p)) rs) s.nextOp := by
    have same := congrArg State.requests (left.others g)
    unfold Unasked
    rw [show (afterLanes s' u k s.nextOp (lowest (execLanes u k.p)) rs).requests = s'.requests from same]
    exact mine
  obtain ⟨after, passes⟩ := endLanes_finishes (u := u) entry waits counter still
  obtain ⟨groups, only⟩ := left.passes after
  have issued := laneWord_done act noOp notFull whole (by rw [first]; exact run)
  rw [first, passes] at issued
  exact ⟨_, xs, issued, spins, groups, only⟩

end Sys2Proof.Machine

/-!
SUPPORT. LDE where its clause names no counter (R315): the generators of its lanes have drawn, and its registers take the elements' values.
-/
namespace Sys2Proof.Machine

open Sys2Proof

/-! ### Generators (R99, R100) -/

/-- A lane's generator once the lane has rounded. -/
def rolled (u : Issue) (p : Option Pfx) (l : Nat) : Word := (drawRng (modeOf u.g p) (rngOf u.g l)).2

theorem noted_setRng {s : State} {key : Nat} {g : Group} (hs : Noted s key g) (l : Nat) (x : Word) :
    Noted (modGroup s key (fun g => setRng g l x)) key (setRng g l x) := by
  obtain ⟨a, ha⟩ := hs
  exact ⟨a, by rw [modGroup_eq ha, groupOf_setGroup]; rfl⟩

/-- Lanes that find their elements have drawn, in order. -/
theorem noted_elements {u : Issue} {p : Option Pfx} {w : Who} {nib : Bool} {va : Nat → Nat} {x : Nat → Element} (ls : List Nat)
    {t s' : State} {g : Group} (found : ElementsFound u w .load nib va x (elementLoaded u p x) t ls s') (noted : Noted t u.key g) :
    Noted s' u.key (ls.foldl (fun h l => setRng h l (rolled u p l)) g) := by
  induction ls generalizing t g with
  | nil =>
    cases found
    exact noted
  | cons l ls ih =>
    obtain ⟨r, reaches, rest⟩ := found
    have there : Noted r u.key g := by
      have after := noted_elementAt noted (w := w.ofThread u.key l) (by rintro k ln ⟨⟩; rfl) .load nib (va l)
      rw [reaches] at after
      exact after
    exact ih rest (noted_setRng (noted_noteLoad there ..) l _)

/-- Lanes that find their elements only read. -/
theorem readsOnly_elements {u : Issue} {p : Option Pfx} {w : Who} {nib : Bool} {va : Nat → Nat} {x : Nat → Element} (ls : List Nat)
    {t s' : State} (quiet : Quiet t) (found : ElementsFound u w .load nib va x (elementLoaded u p x) t ls s') : ReadsOnly t s' := by
  induction ls generalizing t with
  | nil =>
    cases found
    rfl
  | cons l ls ih =>
    obtain ⟨r, reaches, rest⟩ := found
    have read : ReadsOnly t (elementLoaded u p x r l) :=
      ((readsOnly_of_eq reaches (readsOnly_elementAt quiet ..)).trans (readsOnly_noteLoad ..)).trans (readsOnly_modGroup ..)
    exact read.trans (ih (read.quiet quiet) rest)

/-! ### Registers -/

/-- All lanes of a word are below 64. -/
theorem lanesBelow_all (u : Issue) (p : Option Pfx) : lanesBelow u p 64 = lanesOf (execLanes u p) :=
  List.filter_eq_self.mpr fun _ hl => decide_eq_true (mem_lanesOf.mp hl).2

/-- A load that has written for every lane has written what a load writes. -/
theorem loadWrites_of_writesBelow {u : Issue} {p : Option Pfx} {z : Bool} {d : Opnd} {n : Nat} {x : Nat → Nat} {a : Table Anchor}
    {q : Table Word} {g' : Group} (act : execLanes u p ≠ 0) (writes : WritesBelow u p z d n x 64 { u.g with anchors := a, rng := q } g') :
    LoadWrites u p z d n x { g' with rng := u.g.rng } ∧ g'.rng = q := by
  obtain ⟨vectors, scalars, spins, rest⟩ := writes
  have generators := congrArg Group.rng rest
  refine ⟨⟨fun r l hl => ?_, fun r => ?_, spins, ?_⟩, generators⟩
  · refine (vectors r l hl).trans ?_
    rw [if_pos hl]
    rfl
  · refine (scalars r).trans (if_congr ?_ rfl rfl)
    exact ⟨fun ⟨scalar, this, _⟩ => ⟨scalar, this, act⟩, fun ⟨scalar, this, _⟩ => ⟨scalar, this, lane_lt (lane_lowest act)⟩⟩
  · exact congrArg (fun h : Group => { h with anchors := u.g.anchors, rng := u.g.rng, spins := u.g.spins }) rest

/-! ### The word -/

/-- LDE, not counted: the first part of O14. -/
theorem lde_loads {s s' : State} {u : Issue} {p : Option Pfx} {d a : Opnd} {x : Nat → Element} (hi : issueOf s = some u) (fresh : Fresh u)
    (calm : Calm s u) (uncounted : clauseSetA u.f = none) (ok : RegsOk u.g [(d, 1), (a, 2)]) (act : execLanes u p ≠ 0)
    (found : ElementsFound u (whoGroup s u.key u.g) .load ((pfxGet p).aux.getLsbD 0) (addrOf u a 0 1) x (elementLoaded u p x)
      (counted s u none true) (lanesOf (execLanes u p)) s') :
    ∃ t g', exec (.lde p d a) s = .next t ∧ t.groups = (finish (setGroup s' u.key g') u).groups ∧ OnlyGroupsAndOps s' t ∧
      LoadWrites u p (zOf p) d 1 (elementValue s u p x) { g' with rng := u.g.rng } ∧
      (∀ l, l < 64 → rngOf g' l = if lane (execLanes u p) l then (drawRng (modeOf u.g p) (rngOf u.g l)).2 else rngOf u.g l) ∧
      ∀ y, t.mem.byte y = s.mem.byte y := by
  have values : elementValue (counted s u none true) u p x = elementValue s u p x := by
    unfold elementValue elementNow
    rw [counted_mem hi]
  obtain ⟨run, going, -⟩ := runLanes_elements (whoGroup_counted hi none true) (p := p) (a := a) (unhindered_counted hi calm none true)
    (groupCounted_gang u none s.nextOp) _ (going_counted hi calm none true) rfl found
  rw [values] at run
  have memory : s'.mem = s.mem := (readsOnly_elements _ (going_counted hi calm none true).quiet found).mem
  obtain ⟨b, here⟩ := noted_elements _ found (noted_self (groupOf_issue hi : groupOf (counted s u none true) u.key = some u.g))
  obtain ⟨⟨q, generators⟩, each⟩ := foldl_setRng (execLanes u p) (rolled u p) u.g
  rw [generators] at here each
  have clause : (loadKind u p d 1 false).counter = none := uncounted
  have word : exec (.lde p d a) s = laneWord s u (loadKind u p d 1 false) (fun _ _ t l => ldeLane u p a t l) := by
    change execLde p d a s = _
    rw [execLde, withReads_eq hi fresh.2.2 ok]
    rfl
  obtain ⟨t, xs, issued, spins, groups, only⟩ := laneWord_passes (k := loadKind u p d 1 false) hi fresh calm act
    (fun c named => by cases uncounted.symm.trans named)
    (f := fun _ _ t l => ldeLane u p a t l) (by rw [clause]; exact run)
    (fun y hy => by
      obtain ⟨i, -, rfl⟩ := List.mem_map.mp hy
      rfl)
    (by rw [clause]; exact going) here
  have fits : d.toNat < 192 → d.toNat + 1 ≤ 8 * u.g.held := by
    intro vector
    have allowed := ok (d, 1) List.mem_cons_self
    rw [if_neg (Nat.not_le.mpr vector)] at allowed
    exact allowed.2
  -- Every lane is below 64: what a load that stops there has written is what the whole load writes.
  have writes := writesBelow_owed (k := loadKind u p d 1 false) (g := { u.g with anchors := b, rng := q }) fresh.1 rfl act fits
    (elementValue s u p x) (fun l => bytesFrom (x l).va (x l).size) 64 fun vector => spins fun _ => vector
  rw [show (loadKind u p d 1 false).p = p from rfl, lanesBelow_all] at writes
  obtain ⟨loads, same⟩ := loadWrites_of_writesBelow act writes
  refine ⟨t, _, word.trans issued, groups, only, ?_, ?_, ?_⟩
  · rw [givenBy, clause]
    exact loads
  · intro l hl
    refine Eq.trans ?_ (each l hl)
    rw [givenBy, clause]
    exact congrArg (fun r => tget (seedRng 0 l) r l) same
  · intro y
    have kept := congrArg State.mem only
    rw [show t.mem = s'.mem from kept, memory]

end Sys2Proof.Machine

/-!
SUPPORT. Memory after elements have been stored (R106, R346): each holds its pattern, and a 4-bit one keeps the other nibble of its byte.
-/
namespace Sys2Proof.Machine

open Sys2Proof

/-! ### Patterns of 4-bit formats (R88, R95, R96) -/

theorem bits_eq_four {f : Fmt} (four : f.bits = 4) : f = .e2m1 ∨ f = .h4 := by
  cases f <;> simp [Fmt.bits] at four ⊢

theorem withSign_lt (neg : Bool) {code : Nat} (small : code ≤ 7) : Fmt.e2m1.withSign neg code < 16 := by
  unfold Fmt.withSign Fmt.signBit
  cases neg with
  | true => exact (show 8 + code < 16 by omega)
  | false => exact (show code < 16 by omega)

theorem wrap_four_lt (y : Int) : wrap 4 y < 16 := by
  unfold wrap
  omega

/-- A value rounded to E2M1 has a pattern of 4 bits: the largest finite magnitude is the greatest. -/
theorem roundFmt_e2m1_lt (sat : Bool) (rm : Round) (draw : Nat) (x : Exact) : roundFmt .e2m1 sat rm draw x < 16 := by
  have past : ∀ neg, Fmt.e2m1.withSign neg Fmt.e2m1.maxCode < 16 := fun neg => withSign_lt neg (Nat.le_refl 7)
  have bounded : ∀ neg code, (if Fmt.e2m1.maxCode < code then Fmt.e2m1.withSign neg Fmt.e2m1.maxCode
      else Fmt.e2m1.withSign neg code) < 16 := by
    intro neg code
    split
    · exact past neg
    · next within => exact withSign_lt neg (Nat.le_of_not_lt within)
  cases x with
  | nan => exact (show 0 < 16 by decide)
  | inf n => simpa [roundFmt] using past _
  | num q z =>
    by_cases zero : q = 0
    · simpa [roundFmt, zero] using withSign_lt _ (Nat.zero_le 7)
    · simp only [roundFmt, zero, if_false, Fmt.hasInf, Bool.false_and, Bool.false_eq_true, beq_self_eq_true, Bool.or_true, if_true]
      exact bounded _ _

theorem roundFmt_h4_lt (sat : Bool) (rm : Round) (draw : Nat) (x : Exact) : roundFmt .h4 sat rm draw x < 16 := by
  cases x with
  | nan => exact (show 0 < 16 by decide)
  | inf n => cases n with
    | true => exact (show 8 < 16 by decide)
    | false => exact (show 7 < 16 by decide)
  | num q z => exact wrap_four_lt _

/-- What a typed store writes of a 4-bit element has 4 bits. -/
theorem storedPattern_lt {f : Fmt} (four : f.bits = 4) (sat : Bool) (rm : Round) (draw : Nat) (x scale : Exact) :
    storedPattern f sat rm draw x scale < 16 := by
  unfold storedPattern
  rcases bits_eq_four four with rfl | rfl
  · split
    · exact (show 0 < 16 by decide)
    · exact roundFmt_e2m1_lt ..
  · split
    · exact (show 0 < 16 by decide)
    · exact roundFmt_h4_lt ..

/-! ### An element's bytes -/

/-- The bytes that a store of an element's pattern writes: a 4-bit one merged with the other nibble of its byte. -/
def elementBytes (m : Mem) (x : Element) (v : Nat) : List Byte :=
  if x.fmt.bits = 4 then
    leBytes 1 ((m.byte x.ma).toNat - (m.byte x.ma).toNat / 16 ^ x.h % 16 * 16 ^ x.h + v * 16 ^ x.h)
  else leBytes x.size v

/-- Memory after an element's pattern has been stored. -/
def Mem.put (m : Mem) (w : Nat) (x : Element) (v : Nat) : Mem := m.store w x.ma (elementBytes m x v)

theorem size_four {x : Element} (four : x.fmt.bits = 4) : x.size = 1 := by
  rw [Element.size, four]

theorem elementBytes_length (m : Mem) (x : Element) (v : Nat) : (elementBytes m x v).length = x.size := by
  unfold elementBytes
  split
  · next four => rw [leBytes_length, size_four four]
  · exact leBytes_length ..

theorem storeElement_quiet {s : State} (quiet : Quiet s) (w : Nat) (x : Element) (v : Nat) :
    storeElement s w x v = { s with mem := s.mem.put w x v } := by
  have sixteen : (2 : Nat) ^ (4 * x.h) = 16 ^ x.h := Nat.pow_mul 2 4 x.h
  have byte : leNat (s.mem.bytesAt x.ma 1) = (s.mem.byte x.ma).toNat := by simp [Mem.bytesAt, leNat]
  unfold storeElement Mem.put elementBytes
  dsimp only
  rw [fetchLines_quiet quiet, byte, bits, sixteen]
  split <;> exact storeLocal_quiet quiet ..

/-- The pattern of an element that stands in memory. -/
def Mem.pattern (m : Mem) (x : Element) : Nat :=
  if x.fmt.bits = 4 then (m.byte x.ma).toNat / 16 ^ x.h % 16 else leNat (m.bytesAt x.ma x.size)

theorem elementNow_eq (s : State) (x : Element) : elementNow s x = s.mem.pattern x := by
  unfold elementNow Mem.pattern
  dsimp only
  split
  · next four => simp [size_four four, leNat]
  · rfl

/-! ### Memory after one store -/

section
variable {m : Mem} (sound : m.symErr = []) (w : Nat) (x : Element) (v : Nat)
include sound

theorem byte_put (y : Nat) : (m.put w x v).byte y =
    if x.ma ≤ y ∧ y < x.ma + x.size then (elementBytes m x v).getD (y - x.ma) 0 else m.byte y := by
  rw [Mem.put, byte_store sound, elementBytes_length]

theorem byte_put_outside {y : Nat} (outside : y < x.ma ∨ x.ma + x.size ≤ y) : (m.put w x v).byte y = m.byte y := by
  rw [byte_put sound, if_neg (by omega)]

/-- The bytes of an element, once it has been stored. -/
theorem bytesAt_put : (m.put w x v).bytesAt x.ma x.size = elementBytes m x v := by
  refine List.ext_getElem (by simp [Mem.bytesAt, elementBytes_length]) fun i hi hi' => ?_
  have within : i < x.size := by simpa [Mem.bytesAt] using hi
  simp only [Mem.bytesAt, List.getElem_map, List.getElem_range]
  rw [byte_put sound, if_pos (by omega), Nat.add_sub_cancel_left,
    List.getD_eq_getElem]

/-- The byte of a 4-bit element, once it has been stored. -/
theorem byte_put_four (four : x.fmt.bits = 4) : ((m.put w x v).byte x.ma).toNat =
    ((m.byte x.ma).toNat - (m.byte x.ma).toNat / 16 ^ x.h % 16 * 16 ^ x.h + v * 16 ^ x.h) % 256 := by
  rw [byte_put sound, if_pos ⟨Nat.le_refl _, by rw [size_four four]; exact Nat.lt_succ_self _⟩, Nat.sub_self, elementBytes, if_pos four]
  simp [leBytes]

/-- A stored element stands in memory with the bits of its format. -/
theorem pattern_put (nibble : x.h < 2) : (m.put w x v).pattern x = v % 2 ^ x.fmt.bits := by
  unfold Mem.pattern
  split
  · next four =>
    rw [byte_put_four sound w x v four, four]
    obtain zero | one : x.h = 0 ∨ x.h = 1 := by omega
    · rw [zero]
      omega
    · rw [one]
      omega
  · next wide =>
    rw [bytesAt_put sound, elementBytes, if_neg wide, leNat_leBytes]
    have bytes : 256 ^ x.size = 2 ^ x.fmt.bits := by
      unfold Element.size
      revert wide
      cases x.fmt <;> simp [Fmt.bits]
    rw [bytes]

/-- A store leaves an element that shares no bit with it. -/
theorem pattern_put_apart (nibble : x.h < 2) (small : x.fmt.bits = 4 → v < 16) {y : Element} (nibble' : y.h < 2)
    (apart : elementsApart y x) : (m.put w x v).pattern y = m.pattern y := by
  have clear : (y.ma + y.size ≤ x.ma ∨ x.ma + x.size ≤ y.ma) → (m.put w x v).pattern y = m.pattern y := by
    intro beside
    have same : ∀ i < y.size, (m.put w x v).byte (y.ma + i) = m.byte (y.ma + i) := fun i hi =>
      byte_put_outside sound w x v (by omega)
    unfold Mem.pattern
    split
    · next four => rw [show (m.put w x v).byte y.ma = m.byte y.ma from same 0 (by rw [size_four four]; exact Nat.one_pos)]
    · rw [Mem.bytesAt, Mem.bytesAt, List.map_congr_left fun i hi => same i (List.mem_range.mp hi)]
  rcases apart with below | above | ⟨four, four', same, other⟩
  · exact clear (.inl below)
  · exact clear (.inr above)
  · have byte := (m.byte x.ma).isLt
    have pattern := small four'
    unfold Mem.pattern
    rw [if_pos four, if_pos four, same, byte_put_four sound w x v four']
    obtain ⟨hx, hy⟩ | ⟨hx, hy⟩ : (x.h = 0 ∧ y.h = 1) ∨ (x.h = 1 ∧ y.h = 0) := by omega
    · rw [hx, hy]
      omega
    · rw [hx, hy]
      omega

end

/-! ### Memory after the stores of lanes -/

/-- Memory after lanes have stored their elements, in order. -/
def Mem.putAll (m : Mem) (w : Nat) (x : Nat → Element) (v : Nat → Nat) (ls : List Nat) : Mem :=
  ls.foldl (fun m l => m.put w (x l) (v l)) m

section
variable (w : Nat) (x : Nat → Element) (v : Nat → Nat)

theorem put_sound {m : Mem} (sound : m.symErr = [] ∧ m.poison = []) (l : Nat) :
    (m.put w (x l) (v l)).symErr = [] ∧ (m.put w (x l) (v l)).poison = [] := by
  obtain ⟨symErr, poison, -⟩ := store_keeps sound.1 sound.2 w (x l).ma (elementBytes m (x l) (v l))
  exact ⟨symErr, poison⟩

theorem byte_putAll (ls : List Nat) {m : Mem} (sound : m.symErr = [] ∧ m.poison = []) {y : Nat}
    (outside : ∀ l ∈ ls, y < (x l).ma ∨ (x l).ma + (x l).size ≤ y) : (m.putAll w x v ls).byte y = m.byte y := by
  induction ls generalizing m with
  | nil => rfl
  | cons l ls ih =>
    exact (ih (put_sound w x v sound l) fun k hk => outside k (List.mem_cons_of_mem _ hk)).trans
      (byte_put_outside sound.1 w (x l) (v l) (outside l List.mem_cons_self))

/-- Stores leave an element that shares no bit with any of theirs. -/
theorem pattern_putAll_apart (ls : List Nat) {m : Mem} (sound : m.symErr = [] ∧ m.poison = []) (nibbles : ∀ l ∈ ls, (x l).h < 2)
    (small : ∀ l, (x l).fmt.bits = 4 → v l < 16) {y : Element} (nibble : y.h < 2) (apart : ∀ l ∈ ls, elementsApart y (x l)) :
    (m.putAll w x v ls).pattern y = m.pattern y := by
  induction ls generalizing m with
  | nil => rfl
  | cons l ls ih =>
    exact (ih (put_sound w x v sound l) (fun k hk => nibbles k (List.mem_cons_of_mem _ hk))
      fun k hk => apart k (List.mem_cons_of_mem _ hk)).trans
      (pattern_put_apart sound.1 w (x l) (v l) (nibbles l List.mem_cons_self) (small l) nibble (apart l List.mem_cons_self))

/-- A lane's pattern stands where no later lane stores its bits. -/
theorem pattern_putAll (ls : List Nat) {m : Mem} (sound : m.symErr = [] ∧ m.poison = []) (sorted : ls.Pairwise (· < ·))
    (nibbles : ∀ l ∈ ls, (x l).h < 2) (small : ∀ l, (x l).fmt.bits = 4 → v l < 16) {l : Nat} (hl : l ∈ ls)
    (last : ∀ k ∈ ls, l < k → elementsApart (x l) (x k)) : (m.putAll w x v ls).pattern (x l) = v l % 2 ^ (x l).fmt.bits := by
  induction ls generalizing m with
  | nil => cases hl
  | cons j ls ih =>
    obtain ⟨above, sorted⟩ := List.pairwise_cons.mp sorted
    have later : ∀ k ∈ ls, (x k).h < 2 := fun k hk => nibbles k (List.mem_cons_of_mem _ hk)
    rcases List.mem_cons.mp hl with rfl | within
    · exact (pattern_putAll_apart w x v ls (put_sound w x v sound l) later small (nibbles l hl)
        fun k hk => last k (List.mem_cons_of_mem _ hk) (above k hk)).trans (pattern_put sound.1 w (x l) (v l) (nibbles l hl))
    · exact ih (put_sound w x v sound j) sorted later within fun k hk => last k (List.mem_cons_of_mem _ hk)

end

end Sys2Proof.Machine

/-!
SUPPORT. STE (R106, R315): its lanes store their elements, and the word passes; and the settlement of O14.
-/
namespace Sys2Proof.Machine

open Sys2Proof

/-! ### Elements that are found -/

/-- The nibble of an element is one of the two of its byte. -/
theorem elementAt_nibble {s t : State} {w : Who} {k : Kind} {nib : Bool} {addr : Nat} {x : Element}
    (found : elementAt s w k nib addr = (t, .ok x)) : x.h < 2 := by
  have half : (if nib = true then addr % 2 else 0) < 2 := by
    split
    · exact Nat.mod_lt _ (by decide)
    · exact (by decide)
  unfold elementAt at found
  dsimp only at found
  generalize (if nib = true then addr % 2 else 0) = h at half found
  generalize (if nib = true then addr / 2 else addr) = va at found
  -- Each check in turn (R327): only an element that passes all of them is found.
  split at found
  · cases found
  split at found
  · cases found
  split at found
  · cases found
  split at found
  · cases found
  split at found
  · cases found
  split at found
  · cases found
  · split at found
    · cases found
    · cases found
      exact half
  · cases found

theorem elementsFound_nibbles {u : Issue} {w : Who} {k : Kind} {nib : Bool} {va : Nat → Nat} {x : Nat → Element}
    {after : State → Nat → State} (ls : List Nat) {s s' : State} (found : ElementsFound u w k nib va x after s ls s') :
    ∀ l ∈ ls, (x l).h < 2 := by
  induction ls generalizing s with
  | nil => exact nofun
  | cons l ls ih =>
    obtain ⟨r, reaches, rest⟩ := found
    exact List.forall_mem_cons.mpr ⟨elementAt_nibble reaches, ih rest⟩

/-! ### Lanes of STE -/

/-- What a lane of STE draws: nothing where its scale leaves no quotient (R106). -/
def quotientDraw (u : Issue) (p : Option Pfx) (d : Opnd) (x : Nat → Element) (l : Nat) : Nat × Word :=
  if noQuotient (decodeFmt .f32 (val32 u.g d l).toNat) (x l).scale then (0, rngOf u.g l) else drawRng (modeOf u.g p) (rngOf u.g l)

/-- The pattern that a lane of STE stores. -/
def quotientPattern (u : Issue) (p : Option Pfx) (d : Opnd) (x : Nat → Element) (l : Nat) : Nat :=
  storedPattern (x l).fmt (satOf p) (modeOf u.g p) (quotientDraw u p d x l).1 (decodeFmt .f32 (val32 u.g d l).toNat) (x l).scale

/-- What an element's store leaves of the package. -/
def elementStored (u : Issue) (p : Option Pfx) (d : Opnd) (x : Nat → Element) (s : State) (l : Nat) : State :=
  modGroup (noteWrite (storeElement s (writerOf (u.key / 128)) (x l) (quotientPattern u p d x l)) u.key l) u.key
    (fun g => setRng g l (quotientDraw u p d x l).2)

theorem core_whoGroup (s : State) (key : Nat) (g : Group) : (whoGroup s key g).core = key / 128 := by
  unfold whoGroup
  split <;> rfl

/-- Groups of one gang are alike hindered. -/
theorem Unhindered.of_gang {s : State} {part : Nat} {g g' : Group} (free : Unhindered s g part) (same : g'.gang = g.gang) :
    Unhindered s g' part := by
  refine ⟨free.places, free.tracked, ?_⟩
  rw [← free.plain]
  unfold captureMode launchOfGroup
  rw [same]

section
variable {s t r s' : State} {u : Issue} {p : Option Pfx} {d a : Opnd} {w : Who} (who : whoGroup s u.key u.g = w)
  (free : Unhindered s u.g w.part) {g : Group} (same : g.gang = u.g.gang) (h : Going s u.key g t) {x : Nat → Element}
include who free same h

/-- A lane of STE that finds its element stores its pattern, and draws. -/
theorem steLane_finds {l : Nat}
    (found : elementAt t (w.ofThread u.key l) .store ((pfxGet p).aux.getLsbD 0) (addrOf u a 0 1 l) = (r, .ok (x l))) :
    steLane u p d a t l = (elementStored u p d x r l, .ok ⟨none, false, bytesFrom (x l).va (x l).size⟩) ∧
    Going s u.key g (elementStored u p d x r l) ∧
    (elementStored u p d x r l).mem = t.mem.put (writerOf (u.key / 128)) (x l) (quotientPattern u p d x l) := by
  have plain := free.of_gang same
  have there : Going s u.key g r := h.elementAt (by rintro k ln ⟨⟩; rfl) found
  have read : r.mem = t.mem := (readsOnly_of_eq found (readsOnly_elementAt h.quiet ..)).mem
  have stored := storeElement_quiet there.quiet (writerOf (u.key / 128)) (x l) (quotientPattern u p d x l)
  refine ⟨?_, ?_, ?_⟩
  · have address : (val64 u.g a l).toNat = addrOf u a 0 1 l := by simp [addrOf]
    have core : (w.ofThread u.key l).core = u.key / 128 := by rw [← who]; exact core_whoGroup ..
    unfold steLane
    dsimp only
    rw [h.whoGroup_eq, who, bit_auxOf, address, found]
    dsimp only
    rw [noteFrame_going (part := (w.ofThread u.key l).part) plain there, placeCovered_going plain there, fetchFor_quiet there.quiet,
      ite_self, core]
    rfl
  · unfold elementStored
    rw [stored]
    exact ((there.store ..).noteWrite l).modGroup fun g' => ⟨g'.anchors, _, rfl⟩
  · unfold elementStored noteWrite
    rw [(readsOnly_modGroup ..).mem, (readsOnly_modGroup ..).mem, stored, read]

/-- The lanes of STE that find their elements are all performed, and memory is as their stores leave it. -/
theorem runLanes_elementStores (ls : List Nat)
    (found : ElementsFound u w .store ((pfxGet p).aux.getLsbD 0) (addrOf u a 0 1) x (elementStored u p d x) t ls s') :
    runLanes (steLane u p d a) t ls = (s', ls.map (fun l => (l, ⟨none, false, bytesFrom (x l).va (x l).size⟩)), none) ∧
    Going s u.key g s' ∧ s'.mem = t.mem.putAll (writerOf (u.key / 128)) x (quotientPattern u p d x) ls := by
  induction ls generalizing t with
  | nil =>
    cases found
    exact ⟨rfl, h, rfl⟩
  | cons l ls ih =>
    obtain ⟨r, reaches, rest⟩ := found
    obtain ⟨lane, after, stored⟩ := steLane_finds who free same h (d := d) reaches
    obtain ⟨run, going, memory⟩ := ih after rest
    refine ⟨?_, going, ?_⟩
    · rw [runLanes, lane]
      dsimp only
      rw [run, List.map_cons]
    · rw [memory, stored]
      rfl

end

/-! ### The word -/

/-- STE, counted or not: the second part of O14. -/
theorem ste_stores {s s' : State} {u : Issue} {p : Option Pfx} {d a : Opnd} {x : Nat → Element} (hi : issueOf s = some u) (fresh : Fresh u)
    (calm : Calm s u) (room : ∀ k, clauseSetB u.f = some k → (counterOf u.g k).val < 255) (ok : RegsOk u.g [(d, 1), (a, 2)])
    (act : execLanes u p ≠ 0)
    (found : ElementsFound u (whoGroup s u.key u.g) .store ((pfxGet p).aux.getLsbD 0) (addrOf u a 0 1) x (elementStored u p d x)
      (counted s u (clauseSetB u.f) false) (lanesOf (execLanes u p)) s') :
    ∃ t, exec (.ste p d a) s = .next t ∧ t.groups = (finish s' u).groups ∧ OnlyGroupsAndOps s' t ∧
      t.mem = s.mem.putAll (writerOf (u.key / 128)) x (quotientPattern u p d x) (lanesOf (execLanes u p)) := by
  obtain ⟨run, going, memory⟩ := runLanes_elementStores (whoGroup_counted hi (clauseSetB u.f) false)
    (unhindered_counted hi calm (clauseSetB u.f) false) (groupCounted_gang u (clauseSetB u.f) s.nextOp)
    (going_counted hi calm (clauseSetB u.f) false) _ found
  rw [counted_mem hi] at memory
  have word : exec (.ste p d a) s = laneWord s u (storeKind u p d 1) (fun _ _ t l => steLane u p d a t l) := by
    change execSte p d a s = _
    rw [execSte, withReads_eq hi fresh.2.2 ok]
    rfl
  obtain ⟨b, q, here⟩ := going.group
  obtain ⟨t, xs, issued, spins, groups, only⟩ := laneWord_passes (k := storeKind u p d 1) hi fresh calm act room
    (f := fun _ _ t l => steLane u p d a t l) run
    (fun y hy => by
      obtain ⟨i, -, rfl⟩ := List.mem_map.mp hy
      rfl) going here
  have nothing : ∀ rs h, givenBy u (storeKind u p d 1) (lowest (execLanes u p)) rs h = h := fun rs h => ite_self _
  have kept := congrArg State.mem only
  refine ⟨t, word.trans issued, ?_, only, Eq.trans kept memory⟩
  rw [groups, show (storeKind u p d 1).p = p from rfl, nothing, spins nofun, finish_eq (groupOf_setGroup ..), finish_eq here,
    setGroup_setGroup]
  rfl

end Sys2Proof.Machine

namespace Sys2Proof

open Machine

/-- Settles O14: LDE by what its lanes find and draw, and STE by memory after its lanes' stores, in which each element stands that no later
lane's shares a bit with. -/
theorem typedElementsLoadAndStore : Obligations.TypedElementsLoadAndStore := by
  refine ⟨fun p d a s u s' x hi fresh calm uncounted ok act found => lde_loads hi fresh calm uncounted ok act found,
    fun p d a s u s' x hi fresh calm room ok act => ?_⟩
  intro value named dr pattern found
  obtain ⟨t, runs, groups, only, memory⟩ := ste_stores hi fresh calm room ok act found
  obtain ⟨symErr, -, -, poison, -⟩ := calm
  have nibbles := elementsFound_nibbles _ found
  have small : ∀ l, (x l).fmt.bits = 4 → quotientPattern u p d x l < 16 := fun l four => storedPattern_lt four ..
  have sorted : (lanesOf (execLanes u p)).Pairwise (· < ·) := List.pairwise_lt_range.filter _
  have active : ∀ {l}, l ∈ lanesOf (execLanes u p) → lane (execLanes u p) l = true := fun hl => (mem_lanesOf.mp hl).1
  refine ⟨t, runs, groups, only, fun y outside => ?_, fun l here => ⟨fun last => ?_, fun four h nibble apart => ?_⟩⟩
  · rw [memory]
    exact byte_putAll _ _ _ _ ⟨symErr, poison⟩ fun l hl => outside l (active hl)
  · rw [elementNow_eq, memory]
    exact pattern_putAll _ _ _ _ ⟨symErr, poison⟩ sorted nibbles small (mem_lanesOf.mpr ⟨here, lane_lt here⟩)
      fun k hk above => last k (active hk) above
  · rw [elementNow_eq, elementNow_eq, memory]
    exact pattern_putAll_apart _ _ _ _ ⟨symErr, poison⟩ nibbles small nibble fun k hk => apart k (active hk)

end Sys2Proof

/-!
SUPPORT. Numbers of FP32 (R84, R85, R89) and how a value is rounded to them (R92).
-/
namespace Sys2Proof.Machine

open Sys2Proof

/-! ### Powers of two -/

theorem pow2_eq (e : Int) : pow2 e = (2 : Rat) ^ e := by
  unfold pow2
  split
  · next nonneg =>
    obtain ⟨n, rfl⟩ := Int.eq_ofNat_of_zero_le nonneg
    simp
  · next negative =>
    obtain ⟨n, hn⟩ := Int.eq_ofNat_of_zero_le (show 0 ≤ -e by omega)
    obtain rfl : e = -n := by omega
    simp

theorem ratAbs_eq (q : Rat) : ratAbs q = |q| := by
  unfold ratAbs
  split
  · next negative => exact (abs_of_neg negative).symm
  · next nonneg => exact (abs_of_nonneg (not_lt.mp nonneg)).symm

/-- ⌊log2 a⌋ is the one power of two below a and not by half. -/
theorem intLog_eq {a : Rat} {e : Int} (lo : (2 : Rat) ^ e ≤ a) (hi : a < 2 ^ (e + 1)) : Int.log 2 a = e := by
  have pos : 0 < a := (zpow_pos two_pos e).trans_le lo
  have below : Int.log 2 a < e + 1 := (Int.lt_zpow_iff_log_lt one_lt_two pos).mp (by exact_mod_cast hi)
  have above : e ≤ Int.log 2 a := (Int.zpow_le_iff_le_log one_lt_two pos).mp (by exact_mod_cast lo)
  omega

theorem zpow_log_le {a : Rat} (pos : 0 < a) : (2 : Rat) ^ Int.log 2 a ≤ a := by
  exact_mod_cast Int.zpow_log_le_self one_lt_two pos

theorem lt_zpow_log (a : Rat) : a < (2 : Rat) ^ (Int.log 2 a + 1) := by
  exact_mod_cast Int.lt_zpow_succ_log_self (R := Rat) one_lt_two a

theorem natLog2_bounds {n : Nat} (h : n ≠ 0) : (2 : Rat) ^ (Nat.log2 n : Int) ≤ n ∧ (n : Rat) < 2 ^ ((Nat.log2 n : Int) + 1) := by
  refine ⟨?_, ?_⟩
  · rw [zpow_natCast]
    exact_mod_cast Nat.log2_self_le h
  · rw [zpow_add_one₀ two_ne_zero, zpow_natCast, ← pow_succ]
    exact_mod_cast Nat.lt_log2_self

theorem floorLog2_eq {a : Rat} (pos : 0 < a) : floorLog2 a = Int.log 2 a := by
  obtain ⟨numLo, numHi⟩ := natLog2_bounds (n := a.num.natAbs) (by simpa using pos.ne')
  obtain ⟨denLo, denHi⟩ := natLog2_bounds a.den_ne_zero
  have num : ((a.num.natAbs : Nat) : Rat) = a.num := by
    rw [Nat.cast_natAbs, abs_of_pos (Rat.num_pos.mpr pos)]
  have value : ((a.num.natAbs : Nat) : Rat) = a * a.den := by rw [num, Rat.mul_den_eq_num]
  have den : (0 : Rat) < a.den := by exact_mod_cast a.den_pos
  unfold floorLog2
  dsimp only
  generalize (Nat.log2 a.num.natAbs : Int) = i at numLo numHi ⊢
  generalize (Nat.log2 a.den : Int) = j at denLo denHi ⊢
  rw [value] at numLo numHi
  have upper : a < 2 ^ (i - j + 1) := by
    have step : a * 2 ^ j < 2 ^ (i - j + 1) * 2 ^ j := by
      rw [← zpow_add₀ two_ne_zero, show i - j + 1 + j = i + 1 by ring]
      exact (mul_le_mul_of_nonneg_left denLo pos.le).trans_lt numHi
    exact lt_of_mul_lt_mul_right step (zpow_pos two_pos j).le
  have lower : 2 ^ (i - j - 1) ≤ a := by
    have step : (2 : Rat) ^ (i - j - 1) * 2 ^ (j + 1) ≤ a * 2 ^ (j + 1) := by
      rw [← zpow_add₀ two_ne_zero, show i - j - 1 + (j + 1) = i by ring]
      exact numLo.trans (mul_le_mul_of_nonneg_left denHi.le pos.le)
    exact le_of_mul_le_mul_right step (zpow_pos two_pos (j + 1))
  rw [pow2_eq]
  split
  · next below => exact (intLog_eq lower (by rwa [sub_add_cancel])).symm
  · next above => exact (intLog_eq (not_lt.mp above) upper).symm

/-! ### Magnitudes of FP32 patterns (R84, R85) -/

/-- What the low 31 bits of an FP32 pattern stand for, with the exponents beyond the largest finite one read like the others. -/
def magnitude (c : Nat) : Rat :=
  if c / 2 ^ 23 = 0 then (c : Rat) * 2 ^ (-149 : Int) else ((2 ^ 23 + c % 2 ^ 23 : Nat) : Rat) * 2 ^ ((c / 2 ^ 23 : Nat) - 150 : Int)

/-- The grid of an exponent: j units from 2^23 to 2^24, or from 0 on for the least exponent, are 2^23 patterns and the next. -/
theorem magnitude_grid {E j : Nat} (top : j ≤ 2 ^ 24) (normal : 2 ^ 23 ≤ j ∨ E = 0) :
    magnitude (E * 2 ^ 23 + j) = j * 2 ^ (E - 149 : Int) := by
  unfold magnitude
  by_cases carry : j = 2 ^ 24
  · have e : (E * 2 ^ 23 + j) / 2 ^ 23 = E + 2 := by omega
    have m : (E * 2 ^ 23 + j) % 2 ^ 23 = 0 := by omega
    rw [e, m, if_neg (by omega), carry, show ((E + 2 : Nat) - 150 : Int) = (E - 149) + 1 by push_cast; ring,
      zpow_add_one₀ two_ne_zero]
    push_cast
    ring
  · by_cases small : j < 2 ^ 23
    · obtain rfl : E = 0 := by omega
      rw [if_pos (by omega), show 0 * 2 ^ 23 + j = j by omega]
      norm_num
    · have e : (E * 2 ^ 23 + j) / 2 ^ 23 = E + 1 := by omega
      have m : 2 ^ 23 + (E * 2 ^ 23 + j) % 2 ^ 23 = j := by omega
      rw [e, m, if_neg (by omega), show ((E + 1 : Nat) - 150 : Int) = E - 149 by push_cast; ring]

/-- Every pattern is on the grid of its exponent. -/
theorem exists_grid (c : Nat) : ∃ E j, c = E * 2 ^ 23 + j ∧ j < 2 ^ 24 ∧ (2 ^ 23 ≤ j ∨ E = 0) := by
  by_cases least : c < 2 ^ 23
  · exact ⟨0, c, by omega, by omega, .inr rfl⟩
  · exact ⟨c / 2 ^ 23 - 1, 2 ^ 23 + c % 2 ^ 23, by omega, by omega, .inl (by omega)⟩

theorem magnitude_lt_succ (c : Nat) : magnitude c < magnitude (c + 1) := by
  obtain ⟨E, j, rfl, small, normal⟩ := exists_grid c
  rw [magnitude_grid small.le normal, add_assoc, magnitude_grid (show j + 1 ≤ 2 ^ 24 from small) (by omega)]
  exact mul_lt_mul_of_pos_right (by exact_mod_cast Nat.lt_succ_self j) (zpow_pos two_pos _)

theorem magnitude_strictMono : StrictMono magnitude := strictMono_nat_of_lt_succ magnitude_lt_succ

@[simp] theorem magnitude_zero : magnitude 0 = 0 := by norm_num [magnitude]

theorem magnitude_nonneg (c : Nat) : 0 ≤ magnitude c := by
  rw [← magnitude_zero]
  exact magnitude_strictMono.monotone (Nat.zero_le c)

/-- The value of a finite pattern with its sign. -/
def signedBy (neg : Bool) (x : Rat) : Rat := if neg then -x else x

@[simp] theorem abs_signedBy (neg : Bool) (x : Rat) : |signedBy neg x| = |x| := by cases neg <;> simp [signedBy]

/-- What a code with a sign stands for: the numbers, then the infinity, then NaNs. -/
theorem decode_f32_code (neg : Bool) {c : Nat} (small : c < 2 ^ 31) : decodeFmt .f32 (Fmt.f32.withSign neg c) =
    if Fmt.f32.maxCode < c then (if c = Fmt.f32.maxCode + 1 then .inf neg else .nan) else .num (signedBy neg (magnitude c)) neg := by
  have code : Fmt.f32.withSign neg c % 2 ^ 32 = neg.toNat * 2 ^ 31 + c := by
    cases neg
    · change c % 2 ^ 32 = 0 * 2 ^ 31 + c
      omega
    · change (2 ^ 31 + c) % 2 ^ 32 = 1 * 2 ^ 31 + c
      omega
  have sign : bit (neg.toNat * 2 ^ 31 + c) 31 = neg := by
    apply bit_of_toNat
    have := neg.toNat_le
    omega
  have low : (neg.toNat * 2 ^ 31 + c) % 2 ^ 31 = c := by omega
  have inf : (Fmt.f32.hasInf && c == Fmt.f32.maxCode + 1) = decide (c = Fmt.f32.maxCode + 1) := by
    rw [show Fmt.f32.hasInf = true from rfl, Bool.true_and, Bool.eq_iff_iff, beq_iff_eq, decide_eq_true_eq]
  unfold decodeFmt
  dsimp only [Fmt.bits, Fmt.signBit, Fmt.mant, Fmt.bias]
  rw [code, sign, low, inf]
  simp only [decide_eq_true_eq, pow2_eq]
  congr 2
  unfold signedBy magnitude
  by_cases least : c / 2 ^ 23 = 0
  · rw [if_pos least, if_pos least, Nat.mod_eq_of_lt (by omega)]
    norm_num
  · rw [if_neg least, if_neg least, show ((c / 2 ^ 23 : Nat) : Int) - (127 : Nat) - (23 : Nat) = (c / 2 ^ 23 : Nat) - 150 by push_cast; ring]

theorem decode_f32 (neg : Bool) {c : Nat} (finite : c ≤ Fmt.f32.maxCode) :
    decodeFmt .f32 (Fmt.f32.withSign neg c) = .num (signedBy neg (magnitude c)) neg := by
  rw [decode_f32_code neg (finite.trans_lt (by decide)), if_neg (not_lt.mpr finite)]

/-- Every pattern is a code with a sign. -/
theorem exists_code {b : Nat} (small : b < 2 ^ 32) : ∃ neg, ∃ c < 2 ^ 31, b = Fmt.f32.withSign neg c := by
  by_cases neg : b < 2 ^ 31
  · exact ⟨false, b, neg, rfl⟩
  · refine ⟨true, b - 2 ^ 31, by omega, ?_⟩
    change b = 2 ^ 31 + (b - 2 ^ 31)
    omega

theorem decode_f32_mod (b : Nat) : decodeFmt .f32 b = decodeFmt .f32 (b % 2 ^ 32) := by
  unfold decodeFmt
  dsimp only [Fmt.bits]
  rw [Nat.mod_mod]

/-- A pattern that stands for a number is a finite code with a sign. -/
theorem decode_f32_num {b : Nat} {q : Rat} {z : Bool} (h : decodeFmt .f32 b = .num q z) :
    ∃ c ≤ Fmt.f32.maxCode, q = signedBy z (magnitude c) ∧ b % 2 ^ 32 = Fmt.f32.withSign z c := by
  obtain ⟨neg, c, small, code⟩ := exists_code (Nat.mod_lt b (show 0 < 2 ^ 32 by positivity))
  rw [decode_f32_mod, code, decode_f32_code neg small] at h
  split at h
  · split at h <;> cases h
  · next finite =>
    cases h
    exact ⟨c, not_lt.mp finite, rfl, code⟩


/-! ### Rounding to FP32 (R92) -/

/-- The exponent of the grid that a magnitude is rounded on. -/
def gridExp (a : Rat) : Int := max (Int.log 2 a) (-126)

/-- The distance of neighbours on that grid. -/
def unitOf32 (a : Rat) : Rat := 2 ^ (gridExp a - 23)

/-- How many whole units a magnitude has, and the pattern that stands for them. -/
def wholeUnits (a : Rat) : Nat := (a / unitOf32 a).floor.toNat
def lowCode (a : Rat) : Nat := (gridExp a + 126).toNat * 2 ^ 23 + wholeUnits a

theorem unitOf32_pos (a : Rat) : 0 < unitOf32 a := zpow_pos two_pos _

theorem wholeUnits_bounds {a : Rat} (nonneg : 0 ≤ a) : (wholeUnits a : Rat) ≤ a / unitOf32 a ∧ a / unitOf32 a < wholeUnits a + 1 := by
  have floorNonneg : 0 ≤ (a / unitOf32 a).floor := Rat.le_floor_iff.mpr (by simpa using div_nonneg nonneg (unitOf32_pos a).le)
  have cast : ((wholeUnits a : Nat) : Rat) = ((a / unitOf32 a).floor : Int) := by
    unfold wholeUnits
    exact_mod_cast congrArg (fun n : Int => (n : Rat)) (Int.toNat_of_nonneg floorNonneg)
  rw [cast]
  exact ⟨Rat.floor_le _, sub_lt_iff_lt_add.mp Rat.lt_floor⟩

theorem wholeUnits_lt {a : Rat} (pos : 0 < a) : wholeUnits a < 2 ^ 24 := by
  have lt : a / unitOf32 a < 2 ^ 24 := by
    rw [div_lt_iff₀ (unitOf32_pos a), unitOf32, ← zpow_natCast, ← zpow_add₀ two_ne_zero]
    refine (lt_zpow_log a).trans_le (zpow_le_zpow_right₀ one_le_two ?_)
    unfold gridExp
    push_cast
    omega
  exact_mod_cast (wholeUnits_bounds pos.le).1.trans_lt lt

theorem wholeUnits_normal {a : Rat} (pos : 0 < a) : 2 ^ 23 ≤ wholeUnits a ∨ (gridExp a + 126).toNat = 0 := by
  by_cases least : Int.log 2 a ≤ -126
  · exact .inr (by unfold gridExp; omega)
  · left
    have grid : gridExp a = Int.log 2 a := max_eq_left (by omega)
    have le : (2 : Rat) ^ 23 ≤ a / unitOf32 a := by
      rw [le_div_iff₀ (unitOf32_pos a), unitOf32, ← zpow_natCast, ← zpow_add₀ two_ne_zero, grid]
      refine le_trans (zpow_le_zpow_right₀ one_le_two ?_) (zpow_log_le pos)
      push_cast
      omega
    have : ((2 ^ 23 : Nat) : Rat) < ((wholeUnits a + 1 : Nat) : Rat) := by
      push_cast
      exact le.trans_lt (wholeUnits_bounds pos.le).2
    exact Nat.lt_succ_iff.mp (by exact_mod_cast this)

/-- The patterns around a magnitude: `i` units above its whole ones. -/
theorem magnitude_lowCode_add {a : Rat} (pos : 0 < a) {i : Nat} (next : i ≤ 1) :
    magnitude (lowCode a + i) = (wholeUnits a + i) * unitOf32 a := by
  have lt := wholeUnits_lt pos
  have grid : ((gridExp a + 126).toNat : Int) - 149 = gridExp a - 23 := by
    unfold gridExp
    omega
  rw [lowCode, add_assoc, magnitude_grid (by omega) ((wholeUnits_normal pos).imp_left (by omega)), grid, unitOf32]
  push_cast
  ring

theorem magnitude_lowCode {a : Rat} (pos : 0 < a) : magnitude (lowCode a) = wholeUnits a * unitOf32 a := by
  simpa using magnitude_lowCode_add pos (Nat.zero_le 1)

theorem magnitude_lowCode_le {a : Rat} (pos : 0 < a) : magnitude (lowCode a) ≤ a := by
  rw [magnitude_lowCode pos]
  exact (le_div_iff₀ (unitOf32_pos a)).mp (wholeUnits_bounds pos.le).1

theorem lt_magnitude_lowCode {a : Rat} (pos : 0 < a) : a < magnitude (lowCode a + 1) := by
  rw [magnitude_lowCode_add pos le_rfl, Nat.cast_one]
  exact (div_lt_iff₀ (unitOf32_pos a)).mp (wholeUnits_bounds pos.le).2

theorem lowCode_magnitude {c : Nat} (pos : 0 < magnitude c) : lowCode (magnitude c) = c := by
  have lower := magnitude_strictMono.le_iff_le.mp (magnitude_lowCode_le pos)
  have upper := magnitude_strictMono.lt_iff_lt.mp (lt_magnitude_lowCode pos)
  omega

/-- Whether the neighbour of larger magnitude is chosen. -/
def roundsOut (rm : Round) (draw : Nat) (neg : Bool) (k : Nat) (part : Rat) : Bool :=
  if neg then !(takesUpper rm draw true (k % 2 == 1) (1 - part)) else takesUpper rm draw false (k % 2 == 0) part

/-- The pattern that a magnitude is rounded to. -/
def roundedCode (rm : Round) (draw : Nat) (neg : Bool) (a : Rat) : Nat :=
  lowCode a + if magnitude (lowCode a) = a then 0 else if roundsOut rm draw neg (wholeUnits a) (a / unitOf32 a - wholeUnits a) then 1 else 0

theorem lowCode_le_of_le {a : Rat} (pos : 0 < a) {c : Nat} (within : a ≤ magnitude c) :
    lowCode a + (if magnitude (lowCode a) = a then 0 else 1) ≤ c := by
  split
  · rw [add_zero]
    exact magnitude_strictMono.le_iff_le.mp ((magnitude_lowCode_le pos).trans within)
  · next inexact =>
    exact Nat.succ_le_of_lt (magnitude_strictMono.lt_iff_lt.mp (((magnitude_lowCode_le pos).lt_of_ne inexact).trans_le within))

theorem roundedCode_le_of_le (rm : Round) (draw : Nat) (neg : Bool) {a : Rat} (pos : 0 < a) {c : Nat} (within : a ≤ magnitude c) :
    roundedCode rm draw neg a ≤ c := by
  have := lowCode_le_of_le pos within
  unfold roundedCode
  split_ifs at this ⊢ <;> omega

/-- A value that is no further than the largest finite one rounds to a pattern beside it. -/
theorem roundFmt_f32 (sat : Bool) (rm : Round) (draw : Nat) {q : Rat} (z : Bool) (nonzero : q ≠ 0)
    (within : |q| ≤ magnitude Fmt.f32.maxCode) :
    roundFmt .f32 sat rm draw (.num q z) = Fmt.f32.withSign (decide (q < 0)) (roundedCode rm draw (decide (q < 0)) |q|) := by
  have pos : 0 < |q| := abs_pos.mpr nonzero
  have neg : (Exact.num q z).isNeg = decide (q < 0) := by simp [Exact.isNeg, nonzero]
  have grid : max (floorLog2 |q|) (1 - ((Fmt.f32.bias : Nat) : Int)) = gridExp |q| := by rw [floorLog2_eq pos]; rfl
  have code : (gridExp |q| - (1 - ((Fmt.f32.bias : Nat) : Int))).toNat * 2 ^ Fmt.f32.mant = (gridExp |q| + 126).toNat * 2 ^ 23 := by
    congr 2
  have unit : (2 : Rat) ^ (gridExp |q| - ((Fmt.f32.mant : Nat) : Int)) = unitOf32 |q| := rfl
  have units : (|q| / unitOf32 |q|).floor.toNat = wholeUnits |q| := rfl
  have whole : ((wholeUnits |q| : Rat) = |q| / unitOf32 |q|) ↔ magnitude (lowCode |q|) = |q| := by
    rw [magnitude_lowCode pos, eq_div_iff (unitOf32_pos _).ne']
  have low : (gridExp |q| + 126).toNat * 2 ^ 23 + wholeUnits |q| = lowCode |q| := rfl
  have outwards : ∀ k part, (if decide (q < 0) = true then !(takesUpper rm draw true (k % 2 == 1) (1 - part))
      else takesUpper rm draw false (k % 2 == 0) part) = roundsOut rm draw (decide (q < 0)) k part := fun _ _ => rfl
  have below := lowCode_le_of_le pos within
  unfold roundFmt roundedCode
  simp only [nonzero, if_false, neg, ratAbs_eq, grid, pow2_eq, code, unit, units, whole, outwards]
  by_cases exact : magnitude (lowCode |q|) = |q|
  · rw [if_pos exact, add_zero] at below
    simp [exact, low, not_lt.mpr below, -Nat.reducePow]
  · rw [if_neg exact] at below
    have above : (gridExp |q| + 126).toNat * 2 ^ 23 + (wholeUnits |q| + 1) = lowCode |q| + 1 := by rw [← add_assoc, low]
    cases roundsOut rm draw (decide (q < 0)) (wholeUnits |q|) (|q| / unitOf32 |q| - wholeUnits |q|)
    · simp [exact, low, above, not_lt.mpr below, not_lt.mpr (Nat.le_of_succ_le below), -Nat.reducePow]
    · simp [exact, above, not_lt.mpr below, -Nat.reducePow]

/-- A number of FP32 is its own rounding. -/
theorem roundFmt_f32_exact (sat : Bool) (rm : Round) (draw : Nat) {q : Rat} (z : Bool) (nonzero : q ≠ 0) {c : Nat} (finite : c ≤ Fmt.f32.maxCode)
    (value : |q| = magnitude c) : roundFmt .f32 sat rm draw (.num q z) = Fmt.f32.withSign (decide (q < 0)) c := by
  have same : lowCode |q| = c := value ▸ lowCode_magnitude (value ▸ abs_pos.mpr nonzero)
  rw [roundFmt_f32 sat rm draw z nonzero (value ▸ magnitude_strictMono.monotone finite), roundedCode, same, if_pos value.symm, add_zero]

theorem decode_roundFmt_f32_exact (sat : Bool) (rm : Round) (draw : Nat) {q : Rat} (nonzero : q ≠ 0) {c : Nat} (finite : c ≤ Fmt.f32.maxCode)
    (value : |q| = magnitude c) : decodeFmt .f32 (roundFmt .f32 sat rm draw (.ofRat q)) = .num q (decide (q < 0)) := by
  rw [Exact.ofRat, roundFmt_f32_exact sat rm draw false nonzero finite value, decode_f32 _ finite, ← value, signedBy]
  congr 1
  by_cases negative : q < 0
  · simp [negative, abs_of_neg negative]
  · simp [negative, abs_of_nonneg (not_lt.mp negative)]

/-- To nearest: the chosen neighbour is half a unit away at most. -/
theorem roundsOut_rne (draw : Nat) (neg : Bool) (k : Nat) (part : Rat) :
    (roundsOut .rne draw neg k part = true → 1 / 2 ≤ part) ∧ (roundsOut .rne draw neg k part = false → part ≤ 1 / 2) := by
  have half : ∀ (even : Bool) (x : Rat), (takesUpper .rne draw neg even x = true → 1 / 2 ≤ x) ∧
      (takesUpper .rne draw neg even x = false → x ≤ 1 / 2) := by
    intro even x
    simp only [takesUpper, Bool.or_eq_true, Bool.or_eq_false_iff, decide_eq_true_eq, decide_eq_false_iff_not, Bool.and_eq_true]
    exact ⟨fun up => up.elim le_of_lt fun tie => tie.1.ge, fun down => not_lt.mp down.1⟩
  unfold roundsOut
  cases neg
  · exact half _ part
  · obtain ⟨up, down⟩ := half (k % 2 == 1) (1 - part)
    simp only [if_true, Bool.not_eq_true', Bool.not_eq_false']
    exact ⟨fun out => by linarith [down out], fun inw => by linarith [up inw]⟩

theorem magnitude_roundedCode_rne (draw : Nat) (neg : Bool) {a : Rat} (pos : 0 < a) :
    |magnitude (roundedCode .rne draw neg a) - a| ≤ unitOf32 a / 2 := by
  have unit := unitOf32_pos a
  have low := magnitude_lowCode_le pos
  have high := lt_magnitude_lowCode pos
  have step : magnitude (lowCode a + 1) = magnitude (lowCode a) + unitOf32 a := by
    rw [magnitude_lowCode_add pos le_rfl, magnitude_lowCode pos]
    push_cast
    ring
  have part : (a / unitOf32 a - wholeUnits a) * unitOf32 a = a - magnitude (lowCode a) := by
    rw [magnitude_lowCode pos, sub_mul, div_mul_cancel₀ _ unit.ne']
  obtain ⟨out, inw⟩ := roundsOut_rne draw neg (wholeUnits a) (a / unitOf32 a - wholeUnits a)
  unfold roundedCode
  rw [abs_le]
  split_ifs with exact up
  · rw [add_zero, exact]
    constructor <;> linarith
  · have := mul_le_mul_of_nonneg_right (out up) unit.le
    constructor <;> linarith
  · have := mul_le_mul_of_nonneg_right (inw (by simpa using up)) unit.le
    rw [add_zero]
    constructor <;> linarith

theorem roundFmt_f32_zero (sat : Bool) (rm : Round) (draw : Nat) (z : Bool) : roundFmt .f32 sat rm draw (.num 0 z) = Fmt.f32.withSign z 0 := by
  simp [roundFmt, Exact.isNeg]

theorem decode_roundFmt_f32_zero {sat : Bool} {rm : Round} {draw : Nat} : decodeFmt .f32 (roundFmt .f32 sat rm draw (.ofRat 0)) = .num 0 false := by
  rw [Exact.ofRat, roundFmt_f32_zero, decode_f32 false (Nat.zero_le _), magnitude_zero]
  rfl

/-- A value rounded to nearest is half a unit away at most. -/
theorem decode_roundFmt_rne {q : Rat} (within : |q| ≤ magnitude Fmt.f32.maxCode) :
    ∃ x z, decodeFmt .f32 (roundFmt .f32 false .rne 0 (.ofRat q)) = .num x z ∧ |x - q| ≤ unitOf32 |q| / 2 := by
  by_cases zero : q = 0
  · subst zero
    refine ⟨0, false, decode_roundFmt_f32_zero, by simpa using (half_pos (unitOf32_pos _)).le⟩
  · have pos := abs_pos.mpr zero
    have near := magnitude_roundedCode_rne 0 (decide (q < 0)) pos
    refine ⟨_, _, by rw [Exact.ofRat, roundFmt_f32 false .rne 0 false zero within, decode_f32 _ (roundedCode_le_of_le _ _ _ pos within)], ?_⟩
    unfold signedBy
    by_cases negative : q < 0
    · rw [abs_of_neg negative] at near ⊢
      rw [if_pos (by simpa using negative), ← abs_neg]
      convert near using 2
      ring
    · rw [abs_of_nonneg (not_lt.mp negative)] at near ⊢
      rwa [if_neg (by simpa using negative)]

/-! ### Numbers of FP32 -/

theorem abs_of_decode {b : Nat} {q : Rat} {z : Bool} (h : decodeFmt .f32 b = .num q z) : ∃ c ≤ Fmt.f32.maxCode, |q| = magnitude c := by
  obtain ⟨c, finite, rfl, -⟩ := decode_f32_num h
  exact ⟨c, finite, by rw [abs_signedBy, abs_of_nonneg (magnitude_nonneg c)]⟩

/-- Every number of FP32 is a multiple of the least one. -/
theorem exists_multiple {b : Nat} {q : Rat} {z : Bool} (h : decodeFmt .f32 b = .num q z) : ∃ n : ℤ, q = n * 2 ^ (-149 : ℤ) := by
  obtain ⟨c, -, rfl, -⟩ := decode_f32_num h
  obtain ⟨E, j, rfl, small, normal⟩ := exists_grid c
  have natural : magnitude (E * 2 ^ 23 + j) = ((j * 2 ^ E : ℕ) : ℤ) * 2 ^ (-149 : ℤ) := by
    rw [magnitude_grid small.le normal, sub_eq_add_neg, zpow_add₀ two_ne_zero]
    push_cast
    rw [zpow_natCast]
    ring
  rw [natural]
  generalize ((j * 2 ^ E : ℕ) : ℤ) = n
  cases z
  · exact ⟨n, rfl⟩
  · exact ⟨-n, by rw [Int.cast_neg, neg_mul]; rfl⟩

/-- A number of FP32 below one of its codes is at most the code before it. -/
theorem le_of_lt_magnitude {b : Nat} {q : Rat} {z : Bool} (h : decodeFmt .f32 b = .num q z) {c : Nat} (lt : |q| < magnitude (c + 1)) :
    |q| ≤ magnitude c := by
  obtain ⟨d, -, value⟩ := abs_of_decode h
  rw [value] at lt ⊢
  exact magnitude_strictMono.monotone (Nat.lt_succ_iff.mp (magnitude_strictMono.lt_iff_lt.mp lt))

theorem magnitude_maxCode : magnitude Fmt.f32.maxCode = 2 ^ 128 - 2 ^ 104 := by
  norm_num [magnitude, Fmt.maxCode]

/-- The powers of two of FP32. -/
theorem exists_code_zpow {n : ℤ} (low : -149 ≤ n) (high : n ≤ 127) : ∃ c ≤ Fmt.f32.maxCode, magnitude c = 2 ^ n := by
  by_cases normal : -126 ≤ n
  · refine ⟨(n + 126).toNat * 2 ^ 23 + 2 ^ 23, (show _ ≤ 0x7F7FFFFF by omega), ?_⟩
    rw [magnitude_grid (by norm_num) (.inl le_rfl), show ((n + 126).toNat : ℤ) - 149 = n - (23 : ℕ) by omega, zpow_sub₀ two_ne_zero]
    push_cast
    field_simp
  · have small : 2 ^ (n + 149).toNat ≤ 2 ^ 23 := Nat.pow_le_pow_right two_pos (by omega)
    refine ⟨0 * 2 ^ 23 + 2 ^ (n + 149).toNat, (show _ ≤ 0x7F7FFFFF by omega), ?_⟩
    rw [magnitude_grid (by omega) (.inr rfl)]
    push_cast
    rw [← zpow_natCast, ← zpow_add₀ two_ne_zero]
    congr 1
    omega

end Sys2Proof.Machine

/-!
SUPPORT. The bounds of R137, for the free result and for the rounded one.
-/
namespace Sys2Proof

open Sys2Proof.Machine

/-! ### Bounds of R137 -/

theorem ulpOf_eq {y : Rat} (nonzero : y ≠ 0) : ulpOf y = unitOf32 |y| := by
  rw [ulpOf, pow2_eq, ratAbs_eq, floorLog2_eq (abs_pos.mpr nonzero)]
  rfl

/-- The value with which a computed value of a known error answers lies within the bound, whether it is the free one or not. -/
theorem boundedResult_liesWithin {x : Word} {y err bound most : Rat} {exact limit : ℝ} (near : |(y : ℝ) - exact| ≤ err)
    (finite : |y| ≤ magnitude Fmt.f32.maxCode) (admitted : (bound : ℝ) ≤ limit) (rounded : ((unitOf32 |y| / 2 + err : Rat) : ℝ) ≤ limit) :
    LiesWithin (boundedResult x y err bound most) exact limit := by
  have through : ∀ v : Rat, |(v : ℝ) - exact| ≤ ((|v - y| + err : Rat) : ℝ) := by
    intro v
    push_cast
    calc |(v : ℝ) - exact| = |((v : ℝ) - y) + (y - exact)| := by rw [sub_add_sub_cancel]
      _ ≤ |(v : ℝ) - y| + |(y : ℝ) - exact| := abs_add_le _ _
      _ ≤ |(v : ℝ) - y| + err := by gcongr
  unfold boundedResult
  split
  · next within =>
    unfold withinOf at within
    split at within
    · next v z decoded =>
      rw [Bool.and_eq_true, decide_eq_true_eq, ratAbs_eq] at within
      exact ⟨v, z, decoded, (through v).trans ((Rat.cast_le.mpr within.1).trans admitted)⟩
    · cases within
  · obtain ⟨v, z, decoded, half⟩ := decode_roundFmt_rne finite
    exact ⟨v, z, decoded, (through v).trans ((Rat.cast_le.mpr (by gcongr)).trans rounded)⟩

theorem floor_logb_two {r : ℝ} (nonneg : 0 ≤ r) : ⌊Real.logb 2 r⌋ = Int.log 2 r := by
  exact_mod_cast Real.floor_logb_natCast (b := 2) nonneg

/-- The same for a bound of two ulp of the exact value, which the computed value's own ulp does not exceed. -/
theorem boundedResult_liesWithinTwoUlp {x : Word} {y err most : Rat} {exact : ℝ} (near : |(y : ℝ) - exact| ≤ err)
    (finite : |y| ≤ magnitude Fmt.f32.maxCode) (nonzero : y ≠ 0) (fine : err ≤ unitOf32 |y|)
    (cell : ∀ k : ℤ, |exact| < (2 : ℝ) ^ k → |(y : ℝ)| < 2 ^ k) :
    LiesWithinTwoUlp (boundedResult x y err (2 * ulpOf y) most) exact := by
  have log : Int.log 2 |y| ≤ ⌊Real.logb 2 |exact|⌋ := by
    rw [floor_logb_two (abs_nonneg exact)]
    have below := cell (Int.log 2 |exact| + 1) (by exact_mod_cast Int.lt_zpow_succ_log_self (R := ℝ) one_lt_two |exact|)
    have below' : |y| < ((2 : Nat) : Rat) ^ (Int.log 2 |exact| + 1) := by
      rw [← Rat.cast_lt (K := ℝ)]
      push_cast
      exact below
    exact Int.lt_add_one_iff.mp ((Int.lt_zpow_iff_log_lt one_lt_two (abs_pos.mpr nonzero)).mp below')
  have grid : ((unitOf32 |y| : Rat) : ℝ) ≤ 2 ^ (max ⌊Real.logb 2 |exact|⌋ (-126) - 23) := by
    unfold unitOf32 gridExp
    push_cast
    exact zpow_le_zpow_right₀ one_le_two (by omega)
  refine boundedResult_liesWithin near finite ?_ ?_
  · rw [ulpOf_eq nonzero]
    push_cast
    linarith
  · have := Rat.cast_le (K := ℝ).mpr fine
    have := Rat.cast_pos (K := ℝ).mpr (unitOf32_pos |y|)
    push_cast at *
    linarith

end Sys2Proof

/-!
SUPPORT. Fixed-point numbers and how far each operation on them leads from the value meant; ln 2.
-/
namespace Sys2Proof.Machine

open Sys2Proof

/-! ### Fixed-point numbers -/

/-- The units of one. -/
noncomputable def fixScale : ℝ := 2 ^ 160

theorem fixScale_pos : 0 < fixScale := by unfold fixScale; positivity

theorem cast_fixOne : ((fixOne : Int) : ℝ) = fixScale := by norm_num [fixOne, fixScale]

theorem cast_fixOne_rat : (((fixOne : Int) : Rat) : ℝ) = fixScale := by norm_num [fixOne, fixScale]

/-- A fixed-point number lies within n of its units of a value. -/
def Near (x : Int) (v n : ℝ) : Prop := |(x : ℝ) - v * fixScale| ≤ n

theorem Near.mono {x : Int} {v m n : ℝ} (h : Near x v m) (le : m ≤ n) : Near x v n := le_trans h le

theorem Near.nonneg {x : Int} {v n : ℝ} (h : Near x v n) : 0 ≤ n := (abs_nonneg _).trans h

/-- A value that is itself near the one meant. -/
theorem Near.trans {x : Int} {v w m n : ℝ} (h : Near x v m) (close : |v - w| * fixScale ≤ n) : Near x w (m + n) := by
  have split : (x : ℝ) - w * fixScale = (x - v * fixScale) + (v - w) * fixScale := by ring
  unfold Near
  rw [split]
  refine (abs_add_le _ _).trans (add_le_add h ?_)
  rwa [abs_mul, abs_of_pos fixScale_pos]

theorem cast_ofFix (x : Int) : ((ofFix x : Rat) : ℝ) = x / fixScale := by
  rw [ofFix, Rat.cast_div, cast_fixOne_rat, Rat.cast_intCast]

/-- A fixed-point number is the value that it stands for. -/
theorem near_ofFix (x : Int) : Near x (ofFix x : Rat) 0 := by
  rw [Near, cast_ofFix, div_mul_cancel₀ _ fixScale_pos.ne', sub_self, abs_zero]

theorem Near.abs_ofFix_sub {x : Int} {v n : ℝ} (h : Near x v n) : |((ofFix x : Rat) : ℝ) - v| ≤ n / fixScale := by
  have pos := fixScale_pos
  rw [cast_ofFix, le_div_iff₀ pos]
  calc |(x : ℝ) / fixScale - v| * fixScale = |((x : ℝ) / fixScale - v) * fixScale| := by rw [abs_mul, abs_of_pos pos]
    _ = |(x : ℝ) - v * fixScale| := by rw [sub_mul, div_mul_cancel₀ _ pos.ne']
    _ ≤ n := h

theorem near_fixOne : Near fixOne 1 0 := by rw [Near, cast_fixOne, one_mul, sub_self, abs_zero]

theorem toFix_bounds (q : Rat) : (toFix q : ℝ) ≤ q * fixScale ∧ (q : ℝ) * fixScale < toFix q + 1 := by
  have low : ((toFix q : Int) : Rat) ≤ q * (fixOne : Rat) := Rat.floor_le _
  have high : q * (fixOne : Rat) < ((toFix q : Int) : Rat) + 1 := sub_lt_iff_lt_add.mp Rat.lt_floor
  rw [← Rat.cast_le (K := ℝ), Rat.cast_mul, cast_fixOne_rat, Rat.cast_intCast] at low
  rw [← Rat.cast_lt (K := ℝ), Rat.cast_mul, cast_fixOne_rat, Rat.cast_add, Rat.cast_intCast, Rat.cast_one] at high
  exact ⟨low, high⟩

theorem near_toFix (q : Rat) : Near (toFix q) q 1 := by
  obtain ⟨low, high⟩ := toFix_bounds q
  unfold Near
  rw [abs_le]
  constructor <;> linarith

/-- The floor of a quotient is less than one below it. -/
theorem ediv_bounds (a : Int) {k : Int} (pos : 0 < k) : ((a / k : Int) : ℝ) ≤ a / k ∧ (a : ℝ) / k < (a / k : Int) + 1 := by
  have pos' : (0 : ℝ) < k := by exact_mod_cast pos
  rw [le_div_iff₀ pos', div_lt_iff₀ pos']
  have low := Int.ediv_mul_le a pos.ne'
  have high := Int.lt_ediv_add_one_mul_self a pos
  exact ⟨by exact_mod_cast low, by exact_mod_cast high⟩

theorem Near.ediv {a : Int} {v n : ℝ} (h : Near a v n) {k : Int} (pos : 0 < k) : Near (a / k) (v / k) (n / k + 1) := by
  obtain ⟨low, high⟩ := ediv_bounds a pos
  have pos' : (0 : ℝ) < k := by exact_mod_cast pos
  have scaled : |(a : ℝ) / k - v / k * fixScale| ≤ n / k := by
    rw [show (a : ℝ) / k - v / k * fixScale = (a - v * fixScale) / k by ring, abs_div, abs_of_pos pos']
    exact div_le_div_of_nonneg_right h pos'.le
  rw [abs_le] at scaled
  unfold Near
  rw [abs_le]
  constructor <;> linarith

theorem Near.add {a b : Int} {v w m n : ℝ} (ha : Near a v m) (hb : Near b w n) : Near (a + b) (v + w) (m + n) := by
  unfold Near at *
  push_cast
  rw [show (a : ℝ) + b - (v + w) * fixScale = (a - v * fixScale) + (b - w * fixScale) by ring]
  exact (abs_add_le _ _).trans (add_le_add ha hb)

theorem Near.sub {a b : Int} {v w m n : ℝ} (ha : Near a v m) (hb : Near b w n) : Near (a - b) (v - w) (m + n) := by
  unfold Near at *
  push_cast
  rw [show (a : ℝ) - b - (v - w) * fixScale = (a - v * fixScale) - (b - w * fixScale) by ring]
  exact (abs_sub _ _).trans (add_le_add ha hb)

theorem Near.mul {a b : Int} {v w m n : ℝ} (ha : Near a v m) (hb : Near b w n) (small : m * n ≤ fixScale) :
    Near (fixMul a b) (v * w) (|v| * n + m * |w| + 2) := by
  obtain ⟨low, high⟩ := ediv_bounds (a * b) (show 0 < fixOne by decide)
  have pos := fixScale_pos
  rw [cast_fixOne] at low high
  have product : ((a * b : Int) : ℝ) / fixScale - v * w * fixScale =
      v * (b - w * fixScale) + (a - v * fixScale) * w + (a - v * fixScale) * (b - w * fixScale) / fixScale := by
    push_cast
    field_simp
    ring
  have first : |v * (b - w * fixScale)| ≤ |v| * n := by rw [abs_mul]; gcongr; exact hb
  have second : |(a - v * fixScale) * w| ≤ m * |w| := by rw [abs_mul]; gcongr; exact ha
  have third : |(a - v * fixScale) * (b - w * fixScale) / fixScale| ≤ 1 := by
    rw [abs_div, abs_mul, abs_of_pos pos, div_le_one pos]
    exact (mul_le_mul ha hb (abs_nonneg _) ha.nonneg).trans small
  change |((a * b / fixOne : Int) : ℝ) - v * w * fixScale| ≤ _
  rw [abs_le] at first second third ⊢
  constructor <;> linarith

/-! ### ln 2 -/

/-- The partial sums of artanh x from both sides. -/
theorem artanh_sum_bounds {x : ℝ} (nonneg : 0 ≤ x) (lt : x < 1) (n : Nat) :
    0 ≤ Real.log ((1 + x) / (1 - x)) / 2 - ∑ i ∈ Finset.range n, x ^ (2 * i + 1) / (2 * i + 1) ∧
      Real.log ((1 + x) / (1 - x)) / 2 - ∑ i ∈ Finset.range n, x ^ (2 * i + 1) / (2 * i + 1) ≤ x ^ (2 * n + 1) / (1 - x ^ 2) := by
  have low := Real.sum_range_le_log_div nonneg lt n
  have high := Real.log_div_le_sum_range_add nonneg lt n
  constructor <;> linarith

theorem near_fixLn2 : Near fixLn2 (Real.log 2) 1 := by
  obtain ⟨low, high⟩ := artanh_sum_bounds (x := 1 / 3) (by norm_num) (by norm_num) 54
  rw [show ((1 : ℝ) + 1 / 3) / (1 - 1 / 3) = 2 by norm_num] at low high
  norm_num [Finset.sum_range_succ] at low high
  unfold Near fixLn2 fixScale
  rw [abs_le]
  constructor <;> push_cast <;> norm_num <;> linarith

end Sys2Proof.Machine

/-!
SUPPORT. EX2 (R137): the series of e^x, the computed power of two and its bound.
-/
namespace Sys2Proof.Machine

open Sys2Proof

/-! ### e^x -/

/-- The sum that `expTerms` computes. -/
noncomputable def expSeries (x : ℝ) : Nat → Nat → ℝ
  | 0, _ => 1
  | n + 1, k => 1 + x * expSeries x n (k + 1) / k

theorem expSeries_eq_sum (x : ℝ) (n k : Nat) :
    expSeries x n (k + 1) = ∑ i ∈ Finset.range (n + 1), x ^ i * k.factorial / (k + i).factorial := by
  induction n generalizing k with
  | zero => simp [expSeries, (Nat.factorial_pos k).ne']
  | succ n ih =>
    rw [expSeries, ih (k + 1), Finset.sum_range_succ' _ (n + 1), Finset.mul_sum, Finset.sum_div, add_comm]
    congr 1
    · refine Finset.sum_congr rfl fun i _ => ?_
      rw [show k + 1 + i = k + (i + 1) by ring, Nat.factorial_succ k]
      push_cast
      field_simp
      ring
    · simp [(Nat.factorial_pos k).ne']

theorem expSeries_near_exp {x : ℝ} (nonneg : 0 ≤ x) (le : x ≤ 1) : |expSeries x 48 1 - Real.exp x| * fixScale ≤ 1 := by
  have sum : expSeries x 48 1 = ∑ i ∈ Finset.range 49, x ^ i / i.factorial := by simp [expSeries_eq_sum x 48 0]
  have one : |x| ≤ 1 := (abs_of_nonneg nonneg).trans_le le
  have bound := Real.exp_bound one (show 0 < 49 by decide)
  have tail : (Nat.succ 49 : ℝ) / (Nat.factorial 49 * (49 : ℕ)) * fixScale ≤ 1 := by norm_num [Nat.factorial, fixScale]
  have power : |x| ^ 49 ≤ 1 := pow_le_one₀ (abs_nonneg x) one
  rw [abs_sub_comm, sum]
  exact (mul_le_mul_of_nonneg_right (bound.trans (mul_le_of_le_one_left (by positivity) power)) fixScale_pos.le).trans tail

theorem expSeries_bounds {x : ℝ} (nonneg : 0 ≤ x) (le : x ≤ 7 / 10) (n : Nat) {k : Nat} (pos : 1 ≤ k) :
    0 ≤ expSeries x n k ∧ expSeries x n k ≤ 10 / 3 := by
  induction n generalizing k with
  | zero => norm_num [expSeries]
  | succ n ih =>
    obtain ⟨low, high⟩ := ih (Nat.le_succ_of_le pos)
    have pos' : (1 : ℝ) ≤ k := by exact_mod_cast pos
    have step : x * expSeries x n (k + 1) / k ≤ 7 / 10 * (10 / 3) / 1 := by gcongr
    have : 0 ≤ x * expSeries x n (k + 1) / k := by positivity
    rw [expSeries]
    constructor <;> linarith

theorem expTerms_near {x : Int} {v : ℝ} (near : Near x v 4) (nonneg : 0 ≤ v) (le : v ≤ 7 / 10) (n : Nat) {k : Nat} (pos : 1 ≤ k) :
    Near (expTerms x n k) (expSeries v n k) 55 := by
  induction n generalizing k with
  | zero => exact near_fixOne.mono (by norm_num)
  | succ n ih =>
    obtain ⟨low, high⟩ := expSeries_bounds nonneg le n (Nat.le_succ_of_le pos)
    have pos' : (1 : ℝ) ≤ k := by exact_mod_cast pos
    have product := (near.mul (ih (Nat.le_succ_of_le pos)) (by norm_num [fixScale])).ediv (k := k) (by exact_mod_cast pos)
    have small : |v| * 55 + 4 * |expSeries v n (k + 1)| + 2 ≤ 54 := by
      rw [abs_of_nonneg nonneg, abs_of_nonneg low]
      linarith
    refine (near_fixOne.add product).mono ?_
    have : (|v| * 55 + 4 * |expSeries v n (k + 1)| + 2) / ((k : Int) : ℝ) ≤ 54 / 1 := by
      push_cast
      gcongr
    linarith

theorem fixMul_nonneg {a b : Int} (ha : 0 ≤ a) (hb : 0 ≤ b) : 0 ≤ fixMul a b := Int.ediv_nonneg (mul_nonneg ha hb) (by decide)

theorem fixOne_le_expTerms {x : Int} (nonneg : 0 ≤ x) (n : Nat) {k : Int} (pos : 0 ≤ k) : fixOne ≤ expTerms x n k := by
  induction n generalizing k with
  | zero => exact le_rfl
  | succ n ih =>
    have one : 0 ≤ fixOne := by decide
    exact le_add_of_nonneg_right (Int.ediv_nonneg (fixMul_nonneg nonneg (one.trans (ih (by omega)))) pos)

/-! ### 2^q -/

/-- The fraction that 2^q is computed of. -/
theorem fract_bounds (q : Rat) : 0 ≤ q - q.floor ∧ q - q.floor < 1 :=
  ⟨sub_nonneg.mpr (Rat.floor_le q), by linarith [Rat.lt_floor (x := q)]⟩

theorem log_two_bounds : (69 : ℝ) / 100 < Real.log 2 ∧ Real.log 2 < 7 / 10 :=
  ⟨by linarith [Real.log_two_gt_d9], by linarith [Real.log_two_lt_d9]⟩

theorem toFix_nonneg {q : Rat} (nonneg : 0 ≤ q) : 0 ≤ toFix q :=
  Rat.le_floor_iff.mpr (by simpa using mul_nonneg nonneg (by decide +kernel : (0 : Rat) ≤ fixOne))

/-- The computed power of a fraction. -/
theorem expTerms_near_two_rpow {f : Rat} (nonneg : 0 ≤ f) (lt : f < 1) :
    Near (expTerms (fixMul (toFix f) fixLn2) 48 1) ((2 : ℝ) ^ (f : ℝ)) 56 := by
  have nonneg' : (0 : ℝ) ≤ f := by exact_mod_cast nonneg
  have lt' : (f : ℝ) < 1 := by exact_mod_cast lt
  obtain ⟨logLow, logHigh⟩ := log_two_bounds
  have exponent : Near (fixMul (toFix f) fixLn2) (f * Real.log 2) 4 := by
    refine ((near_toFix f).mul near_fixLn2 (by norm_num [fixScale])).mono ?_
    rw [abs_of_nonneg nonneg', abs_of_pos (by linarith)]
    linarith
  have small : f * Real.log 2 ≤ 7 / 10 := by nlinarith
  have pos : 0 ≤ f * Real.log 2 := mul_nonneg nonneg' (by linarith)
  have power : (2 : ℝ) ^ (f : ℝ) = Real.exp (f * Real.log 2) := by rw [Real.rpow_def_of_pos two_pos, mul_comm]
  rw [power]
  have terms := expTerms_near exponent pos small 48 le_rfl
  rw [Nat.cast_one] at terms
  exact (terms.trans (expSeries_near_exp pos (by linarith))).mono (by norm_num)

theorem two_rpow_split (q : Rat) : (2 : ℝ) ^ (q : ℝ) = 2 ^ ((q - q.floor : Rat) : ℝ) * 2 ^ q.floor := by
  rw [← Real.rpow_intCast, ← Real.rpow_add two_pos]
  push_cast
  rw [sub_add_cancel]

theorem cast_zpow_two (e : ℤ) : (((2 : Rat) ^ e : Rat) : ℝ) = 2 ^ e := by push_cast; rfl

theorem exp2Value_near (q : Rat) : |(exp2Value q : ℝ) - 2 ^ (q : ℝ)| ≤ 2 ^ (q.floor - 154) := by
  obtain ⟨nonneg, lt⟩ := fract_bounds q
  have close := (expTerms_near_two_rpow nonneg lt).abs_ofFix_sub
  have power : (0 : ℝ) < 2 ^ q.floor := zpow_pos two_pos _
  rw [two_rpow_split, exp2Value, pow2_eq, Rat.cast_mul, cast_zpow_two, ← sub_mul, abs_mul, abs_of_pos power,
    show q.floor - 154 = -154 + q.floor by ring, zpow_add₀ two_ne_zero]
  refine mul_le_mul_of_nonneg_right (close.trans ?_) power.le
  norm_num [fixScale]

theorem two_zpow_le_exp2Value (q : Rat) : 2 ^ q.floor ≤ exp2Value q := by
  have one : (1 : Rat) ≤ ofFix (expTerms (fixMul (toFix (q - q.floor)) fixLn2) 48 1) := by
    have le := fixOne_le_expTerms (fixMul_nonneg (toFix_nonneg (fract_bounds q).1) (show 0 ≤ fixLn2 by decide)) 48 (k := 1) (by decide)
    rw [ofFix, one_le_div (by decide +kernel)]
    exact_mod_cast le
  rw [exp2Value, pow2_eq]
  exact le_mul_of_one_le_left (zpow_pos two_pos _).le one


/-! ### EX2 -/

theorem ex2Of_num {w : Word} {q : Rat} {z : Bool} (h : decodeFmt .f32 w.toNat = .num q z) :
    ex2Of w = if 128 ≤ q then 0x7F800000 else if q ≤ -150 then 0
      else if (q.floor : Rat) = q ∧ -149 ≤ q then roundFmt .f32 false .rne 0 (.ofRat (pow2 q.floor))
      else boundedResult (Config.ex2 w) (exp2Value q) (pow2 (q.floor - 154)) (2 * ulpOf (exp2Value q)) (pow2 128) := by
  simp only [ex2Of, h]

/-- How far 2^q stays below the next power of two. -/
theorem two_rpow_le (q : Rat) : (2 : ℝ) ^ (q : ℝ) ≤ 2 ^ (q.floor + 1) * (1 - (q.floor + 1 - q) / 2) := by
  obtain ⟨nonneg, lt⟩ := fract_bounds q
  have low : (0 : ℝ) ≤ q.floor + 1 - q := by exact_mod_cast (show (0 : Rat) ≤ q.floor + 1 - q by linarith)
  have high : (q.floor + 1 - q : ℝ) ≤ 1 := by exact_mod_cast (show (q.floor + 1 - q : Rat) ≤ 1 by linarith)
  have bernoulli := rpow_one_add_le_one_add_mul_self (s := -1 / 2) (by norm_num) low high
  have split : (2 : ℝ) ^ (q : ℝ) = 2 ^ (q.floor + 1) * (1 + -1 / 2) ^ (q.floor + 1 - q : ℝ) := by
    rw [show (1 : ℝ) + -1 / 2 = 2⁻¹ by norm_num, Real.inv_rpow zero_le_two, ← Real.rpow_neg zero_le_two, ← Real.rpow_intCast,
      ← Real.rpow_add two_pos]
    congr 1
    push_cast
    ring
  rw [split]
  refine mul_le_mul_of_nonneg_left (bernoulli.trans_eq ?_) (zpow_pos two_pos _).le
  ring

theorem exp2Value_le (q : Rat) : (exp2Value q : ℝ) ≤ 2 ^ (q.floor + 1) * (1 - (q.floor + 1 - q) / 2 + 2 ^ (-155 : ℤ)) := by
  have near := (abs_le.mp (exp2Value_near q)).2
  have err : (2 : ℝ) ^ (q.floor - 154) = 2 ^ (q.floor + 1) * 2 ^ (-155 : ℤ) := by
    rw [← zpow_add₀ two_ne_zero]
    congr 1
    ring
  rw [mul_add, ← err]
  linarith [two_rpow_le q]

/-- The part of an operand above its floor leaves at least a least number to the next integer. -/
theorem le_succ_floor_sub {b : Nat} {q : Rat} {z : Bool} (h : decodeFmt .f32 b = .num q z) : (2 : Rat) ^ (-149 : ℤ) ≤ q.floor + 1 - q := by
  obtain ⟨n, value⟩ := exists_multiple h
  have pos : (0 : Rat) < q.floor + 1 - q := by linarith [(fract_bounds q).2]
  have whole : q.floor + 1 - q = (((q.floor + 1) * 2 ^ 149 - n : ℤ) : Rat) * 2 ^ (-149 : ℤ) := by
    rw [Int.cast_sub, sub_mul, ← value]
    norm_num
    ring
  have unit : (0 : Rat) < 2 ^ (-149 : ℤ) := zpow_pos two_pos _
  rw [whole] at pos ⊢
  have one : (1 : ℤ) ≤ (q.floor + 1) * 2 ^ 149 - n := by exact_mod_cast (pos_iff_pos_of_mul_pos pos).mpr unit
  exact le_mul_of_one_le_left unit.le (by exact_mod_cast one)

theorem exp2Value_lt {b : Nat} {q : Rat} {z : Bool} (h : decodeFmt .f32 b = .num q z) : exp2Value q < 2 ^ (q.floor + 1) := by
  have le := exp2Value_le q
  have gap : ((2 : ℝ) ^ (-149 : ℤ)) ≤ q.floor + 1 - q := by
    have := (Rat.cast_le (K := ℝ)).mpr (le_succ_floor_sub h)
    rw [cast_zpow_two] at this
    push_cast at this
    exact this
  have power : (0 : ℝ) < 2 ^ (q.floor + 1) := zpow_pos two_pos _
  rw [← Rat.cast_lt (K := ℝ), cast_zpow_two]
  refine le.trans_lt (mul_lt_of_lt_one_right power ?_)
  norm_num at gap ⊢
  linarith

theorem exp2Value_finite {b : Nat} {q : Rat} {z : Bool} (h : decodeFmt .f32 b = .num q z) (lt : q < 128) :
    exp2Value q ≤ magnitude Fmt.f32.maxCode := by
  have floorLe : q.floor ≤ 127 := Int.lt_add_one_iff.mp (Rat.floor_lt_iff.mpr (by exact_mod_cast lt))
  rw [magnitude_maxCode]
  by_cases top : q.floor = 127
  · have low : 127 ≤ q := by
      have := Rat.floor_le q
      rw [top] at this
      exact_mod_cast this
    have gap : |q| ≤ magnitude (0x43000000 - 1) := by
      apply le_of_lt_magnitude h
      rw [abs_of_nonneg (by linarith)]
      refine lt.trans_eq ?_
      norm_num [magnitude]
    have gap' : (q : ℝ) ≤ 128 - 2 ^ (-17 : ℤ) := by
      rw [abs_of_nonneg (by linarith)] at gap
      have := (Rat.cast_le (K := ℝ)).mpr (gap.trans_eq (show _ = (128 - 2 ^ (-17 : ℤ) : Rat) by norm_num [magnitude]))
      rw [Rat.cast_sub, cast_zpow_two] at this
      exact_mod_cast this
    have le := exp2Value_le q
    rw [top] at le
    rw [← Rat.cast_le (K := ℝ)]
    refine le.trans ?_
    push_cast
    norm_num at gap' ⊢
    linarith
  · refine (exp2Value_lt h).le.trans ((zpow_le_zpow_right₀ one_le_two (show q.floor + 1 ≤ 127 by omega)).trans ?_)
    norm_num

theorem liesWithin_of_eq {v : Nat} {x : Rat} {z : Bool} {y limit : ℝ} (decoded : decodeFmt .f32 v = .num x z) (same : (x : ℝ) = y)
    (nonneg : 0 ≤ limit) : LiesWithin v y limit := ⟨x, z, decoded, by rwa [same, sub_self, abs_zero]⟩

theorem twoUlp_nonneg (y : ℝ) : 0 ≤ 2 * (2 : ℝ) ^ (max ⌊Real.logb 2 |y|⌋ (-126) - 23) := by positivity

theorem decode_ex2Of_int {w : Word} {q : Rat} {z : Bool} (h : decodeFmt .f32 w.toNat = .num q z) {n : ℤ} (int : q = n) (low : -149 ≤ n)
    (high : n ≤ 127) : decodeFmt .f32 (ex2Of w) = .num (2 ^ n) false := by
  obtain ⟨c, finite, value⟩ := exists_code_zpow low high
  have pos : (0 : Rat) < 2 ^ n := zpow_pos two_pos n
  have floor : q.floor = n := by rw [int, Rat.floor_intCast]
  have low' : (-149 : Rat) ≤ q := by rw [int]; exact_mod_cast low
  have high' : q < 128 := by rw [int]; exact_mod_cast Int.lt_add_one_iff.mpr high
  rw [ex2Of_num h, if_neg (not_le.mpr high'), if_neg (by linarith), if_pos ⟨by rw [floor, int], low'⟩, floor, pow2_eq,
    decode_roundFmt_f32_exact false .rne 0 pos.ne' finite (by rw [abs_of_pos pos, value])]
  simp [pos.le]

theorem ex2Of_liesWithin {w : Word} {q : Rat} {z : Bool} (h : decodeFmt .f32 w.toNat = .num q z) (low : -150 < q) (high : q < 128) :
    LiesWithinTwoUlp (ex2Of w) ((2 : ℝ) ^ (q : ℝ)) := by
  by_cases int : (q.floor : Rat) = q ∧ -149 ≤ q
  · have low' : -149 ≤ q.floor := by exact_mod_cast int.1.symm ▸ int.2
    have high' : q.floor < 128 := by exact_mod_cast int.1.symm ▸ high
    refine liesWithin_of_eq (decode_ex2Of_int h int.1.symm low' (Int.lt_add_one_iff.mp high')) ?_ (twoUlp_nonneg _)
    rw [cast_zpow_two, ← Real.rpow_intCast]
    congr 1
    exact_mod_cast congrArg (Rat.cast (K := ℝ)) int.1
  · have lower := two_zpow_le_exp2Value q
    have pos : 0 < exp2Value q := (zpow_pos two_pos _).trans_le lower
    rw [ex2Of_num h, if_neg (not_le.mpr high), if_neg (not_le.mpr low), if_neg int]
    refine boundedResult_liesWithinTwoUlp ?_ (by rw [abs_of_pos pos]; exact exp2Value_finite h high) pos.ne' ?_ ?_
    · rw [pow2_eq, cast_zpow_two]
      exact exp2Value_near q
    · have log : q.floor ≤ Int.log 2 (exp2Value q) := (Int.zpow_le_iff_le_log one_lt_two pos).mp (by exact_mod_cast lower)
      rw [pow2_eq, abs_of_pos pos, unitOf32, gridExp]
      exact zpow_le_zpow_right₀ one_le_two (by omega)
    · intro k below
      have lt : (q : ℝ) < k := by
        rw [abs_of_pos (by positivity), ← Real.rpow_intCast] at below
        exact (Real.rpow_lt_rpow_left_iff one_lt_two).mp below
      have next : q.floor + 1 ≤ k := Rat.floor_lt_iff.mpr (by exact_mod_cast lt)
      rw [abs_of_pos (by exact_mod_cast pos)]
      calc (exp2Value q : ℝ) < 2 ^ (q.floor + 1) := by rw [← cast_zpow_two]; exact_mod_cast exp2Value_lt h
        _ ≤ 2 ^ k := zpow_le_zpow_right₀ one_le_two next

end Sys2Proof.Machine

/-!
SUPPORT. LG2 (R137): the series of artanh x, the computed logarithm and its bounds.
-/
namespace Sys2Proof.Machine

open Sys2Proof

/-! ### artanh x -/

/-- The sum that `artanhTerms` computes. -/
noncomputable def artanhSeries (x : ℝ) : Nat → Nat → ℝ
  | 0, _ => 0
  | n + 1, k => 1 / k + x * artanhSeries x n (k + 2)

theorem artanhSeries_eq_sum (x : ℝ) (n k : Nat) : artanhSeries x n k = ∑ i ∈ Finset.range n, x ^ i / (k + 2 * i : ℕ) := by
  induction n generalizing k with
  | zero => rfl
  | succ n ih =>
    rw [artanhSeries, ih, Finset.sum_range_succ', Finset.mul_sum, add_comm]
    congr 1
    · refine Finset.sum_congr rfl fun i _ => ?_
      rw [show k + 2 + 2 * i = k + 2 * (i + 1) by ring, pow_succ']
      ring

theorem artanhSeries_bounds {x : ℝ} (nonneg : 0 ≤ x) (le : x ≤ 1 / 9) (n : Nat) {k : Nat} (pos : 1 ≤ k) :
    0 ≤ artanhSeries x n k ∧ artanhSeries x n k ≤ 9 / 8 := by
  induction n generalizing k with
  | zero => norm_num [artanhSeries]
  | succ n ih =>
    obtain ⟨low, high⟩ := ih (show 1 ≤ k + 2 by omega)
    have first : (1 : ℝ) / k ≤ 1 / 1 := by gcongr; exact_mod_cast pos
    have rest : x * artanhSeries x n (k + 2) ≤ 1 / 9 * (9 / 8) := by gcongr
    rw [artanhSeries]
    exact ⟨by positivity, by linarith⟩

theorem artanhTerms_near {z : Int} {v : ℝ} (near : Near z v 3) (nonneg : 0 ≤ v) (le : v ≤ 1 / 9) (n : Nat) {k : Nat} (pos : 1 ≤ k) :
    Near (artanhTerms z n k) (artanhSeries v n k) 8 := by
  induction n generalizing k with
  | zero => simp [Near, artanhTerms, artanhSeries]
  | succ n ih =>
    obtain ⟨low, high⟩ := artanhSeries_bounds nonneg le n (show 1 ≤ k + 2 by omega)
    have first := near_fixOne.ediv (k := k) (by exact_mod_cast pos)
    have rest := near.mul (ih (show 1 ≤ k + 2 by omega)) (by norm_num [fixScale])
    rw [abs_of_nonneg nonneg, abs_of_nonneg low] at rest
    exact (first.add rest).mono (by linarith [zero_div ((k : ℤ) : ℝ)])

/-- Its last sum, against the logarithm. -/
theorem artanhSeries_near {c : ℝ} (nonneg : 0 ≤ c) (third : c ≤ 1 / 3) :
    |c * artanhSeries (c * c) 64 1 - Real.log ((1 + c) / (1 - c)) / 2| * fixScale ≤ 1 / 2 := by
  have sum : c * artanhSeries (c * c) 64 1 = ∑ i ∈ Finset.range 64, c ^ (2 * i + 1) / (2 * i + 1) := by
    rw [artanhSeries_eq_sum, Finset.mul_sum]
    refine Finset.sum_congr rfl fun i _ => ?_
    push_cast
    rw [add_comm (1 : ℝ), pow_succ, pow_mul, sq]
    ring
  obtain ⟨low, high⟩ := artanh_sum_bounds nonneg (by linarith) 64
  have power : c ^ (2 * 64 + 1) ≤ (1 / 3) ^ (2 * 64 + 1) := pow_le_pow_left₀ nonneg third _
  have rest : c ^ (2 * 64 + 1) / (1 - c ^ 2) ≤ (1 / 3) ^ (2 * 64 + 1) / (1 - 1 / 9) :=
    div_le_div₀ (by positivity) power (by norm_num) (by nlinarith)
  rw [sum, abs_sub_comm, abs_of_nonneg low]
  refine (mul_le_mul_of_nonneg_right (high.trans rest) fixScale_pos.le).trans ?_
  norm_num [fixScale]

/-! ### log2 q -/

/-- A logarithm in fixed point, divided by ln 2. -/
theorem Near.div_ln2 {a : Int} {v n : ℝ} (h : Near a v n) (nonneg : 0 ≤ v) (le : v ≤ Real.log 2) :
    Near (a * fixOne / fixLn2) (v / Real.log 2) (3 / 2 * (n + 1) + 1) := by
  obtain ⟨logLow, logHigh⟩ := log_two_bounds
  have scale := fixScale_pos
  have ln2 := abs_le.mp near_fixLn2
  have positive : (0 : ℝ) < fixLn2 := by exact_mod_cast (show (0 : ℤ) < fixLn2 by decide)
  have large : fixScale ≤ 3 / 2 * fixLn2 := by norm_num [fixScale, fixLn2]
  obtain ⟨low, high⟩ := ediv_bounds (a * fixOne) (show 0 < fixLn2 by decide)
  rw [Int.cast_mul, cast_fixOne] at low high
  have error : |(a : ℝ) - v / Real.log 2 * fixLn2| ≤ n + 1 := by
    have split : (a : ℝ) - v / Real.log 2 * fixLn2 = (a - v * fixScale) - v / Real.log 2 * (fixLn2 - Real.log 2 * fixScale) := by
      field_simp
      ring
    have ratio : |v / Real.log 2| ≤ 1 := by
      rw [abs_of_nonneg (by positivity), div_le_one (by linarith)]
      exact le
    rw [split]
    refine (abs_sub _ _).trans (add_le_add h ?_)
    rw [abs_mul, ← one_mul (1 : ℝ)]
    exact mul_le_mul ratio near_fixLn2 (abs_nonneg _) zero_le_one
  have quotient : |(a : ℝ) * fixScale / fixLn2 - v / Real.log 2 * fixScale| ≤ 3 / 2 * (n + 1) := by
    have split : (a : ℝ) * fixScale / fixLn2 - v / Real.log 2 * fixScale = (a - v / Real.log 2 * fixLn2) * (fixScale / fixLn2) := by
      field_simp
    rw [split, abs_mul, abs_of_pos (div_pos scale positive), mul_comm]
    exact mul_le_mul ((div_le_iff₀ positive).mpr large) error (abs_nonneg _) (by norm_num)
  rw [abs_le] at quotient
  unfold Near
  rw [abs_le]
  constructor <;> linarith

/-- The logarithm of a significand as the model computes it. -/
def significandLog (m : Rat) : Int :=
  let z := toFix ((m - 1) / (m + 1))
  2 * fixMul z (artanhTerms (fixMul z z) 64 1) * fixOne / fixLn2

theorem significandLog_near {m : Rat} (low : 1 ≤ m) (high : m < 2) : Near (significandLog m) (Real.log m / Real.log 2) 24 := by
  have low' : (1 : ℝ) ≤ m := by exact_mod_cast low
  have high' : (m : ℝ) < 2 := by exact_mod_cast high
  have root := near_toFix ((m - 1) / (m + 1))
  push_cast at root
  unfold significandLog
  dsimp only
  generalize toFix ((m - 1) / (m + 1)) = z at root ⊢
  set c : ℝ := ((m : ℝ) - 1) / (m + 1) with hc
  have nonneg : 0 ≤ c := div_nonneg (by linarith) (by linarith)
  have third : c ≤ 1 / 3 := by
    rw [hc, div_le_div_iff₀ (by linarith) (by norm_num)]
    linarith
  have significand : (1 + c) / (1 - c) = m := by
    rw [hc]
    field_simp
    ring
  have square : Near (fixMul z z) (c * c) 3 := by
    refine (root.mul root (by norm_num [fixScale])).mono ?_
    rw [abs_of_nonneg nonneg]
    linarith
  have ninth : c * c ≤ 1 / 9 := by nlinarith
  obtain ⟨seriesLow, seriesHigh⟩ := artanhSeries_bounds (mul_self_nonneg c) ninth 64 le_rfl
  have half : Near (fixMul z (artanhTerms (fixMul z z) 64 1)) (c * artanhSeries (c * c) 64 1) 6 := by
    have terms := artanhTerms_near square (mul_self_nonneg c) ninth 64 le_rfl
    rw [Nat.cast_one] at terms
    refine (root.mul terms (by norm_num [fixScale])).mono ?_
    rw [abs_of_nonneg nonneg, abs_of_nonneg seriesLow]
    linarith
  have log : Near (2 * fixMul z (artanhTerms (fixMul z z) 64 1)) (Real.log m) 13 := by
    have tail := artanhSeries_near nonneg third
    have double := half.add half
    rw [significand] at tail
    rw [← two_mul, ← two_mul] at double
    refine (double.trans (n := 1) ?_).mono (by norm_num)
    rw [show 2 * (c * artanhSeries (c * c) 64 1) - Real.log m = 2 * (c * artanhSeries (c * c) 64 1 - Real.log m / 2) by ring, abs_mul, abs_two]
    linarith
  exact (log.div_ln2 (Real.log_nonneg low') (Real.log_le_log (by linarith) high'.le)).mono (by norm_num)

theorem log2Value_eq {q : Rat} (pos : 0 < q) : log2Value q = Int.log 2 q + ofFix (significandLog (q / 2 ^ Int.log 2 q)) := by
  unfold log2Value significandLog
  simp only [floorLog2_eq pos, pow2_eq]

/-- A number as a power of two and its significand. -/
theorem significand_bounds {q : Rat} (pos : 0 < q) : 1 ≤ q / 2 ^ Int.log 2 q ∧ q / 2 ^ Int.log 2 q < 2 := by
  have power : (0 : Rat) < 2 ^ Int.log 2 q := zpow_pos two_pos _
  rw [le_div_iff₀ power, div_lt_iff₀ power, one_mul, mul_comm, ← zpow_add_one₀ two_ne_zero]
  exact ⟨zpow_log_le pos, lt_zpow_log q⟩

theorem logb_split {q : Rat} (pos : 0 < q) :
    Real.logb 2 q = Int.log 2 q + Real.log ((q / 2 ^ Int.log 2 q : Rat) : ℝ) / Real.log 2 := by
  have power : (0 : ℝ) < 2 ^ Int.log 2 q := zpow_pos two_pos _
  have pos' : (0 : ℝ) < q := by exact_mod_cast pos
  have log := log_two_bounds.1
  rw [Rat.cast_div, cast_zpow_two, Real.log_div pos'.ne' power.ne', Real.log_zpow, Real.logb]
  field_simp
  ring

theorem log2Value_near {q : Rat} (pos : 0 < q) : |(log2Value q : ℝ) - Real.logb 2 q| ≤ 2 ^ (-150 : ℤ) := by
  obtain ⟨low, high⟩ := significand_bounds pos
  have near := (significandLog_near low high).abs_ofFix_sub
  rw [log2Value_eq pos, logb_split pos, Rat.cast_add, Rat.cast_intCast, add_sub_add_left_eq_sub]
  exact near.trans (by norm_num [fixScale])

/-- The significand of a number of FP32 that is no power of two keeps off 1 and 2. -/
theorem significand_of_decode {b : Nat} {q : Rat} {z : Bool} (h : decodeFmt .f32 b = .num q z) (pos : 0 < q) (other : (2 : Rat) ^ Int.log 2 q ≠ q) :
    1 + 2 ^ (-23 : ℤ) ≤ q / 2 ^ Int.log 2 q ∧ q / 2 ^ Int.log 2 q ≤ 2 - 2 ^ (-23 : ℤ) := by
  obtain ⟨c, -, value⟩ := abs_of_decode h
  obtain ⟨E, j, rfl, small, normal⟩ := exists_grid c
  rw [abs_of_pos pos, magnitude_grid small.le normal] at value
  have nonzero : j ≠ 0 := by
    rintro rfl
    simp [value] at pos
  obtain ⟨low, high⟩ := natLog2_bounds nonzero
  have top : Nat.log2 j ≤ 23 := by
    have := (Nat.log2_lt nonzero).mpr small
    omega
  have unit : (0 : Rat) < 2 ^ (E - 149 : ℤ) := zpow_pos two_pos _
  have log : Int.log 2 q = Nat.log2 j + (E - 149) := by
    apply intLog_eq
    · rw [zpow_add₀ two_ne_zero, value]
      exact mul_le_mul_of_nonneg_right low unit.le
    · rw [add_right_comm, zpow_add₀ two_ne_zero, value]
      exact mul_lt_mul_of_pos_right high unit
  have quotient : q / 2 ^ Int.log 2 q = j / 2 ^ Nat.log2 j := by
    rw [log, zpow_add₀ two_ne_zero, value, mul_div_mul_right _ _ unit.ne', zpow_natCast]
  have between : 2 ^ Nat.log2 j < j ∧ j < 2 ^ (Nat.log2 j + 1) := by
    refine ⟨lt_of_le_of_ne (Nat.log2_self_le nonzero) fun same => other ?_, Nat.lt_log2_self⟩
    rw [log, zpow_add₀ two_ne_zero, value, zpow_natCast]
    congr 1
    exact_mod_cast same
  have power : (0 : Rat) < 2 ^ Nat.log2 j := by positivity
  have gap : (2 : Rat) ^ (-23 : ℤ) * 2 ^ Nat.log2 j ≤ 1 := by
    rw [← zpow_natCast, ← zpow_add₀ two_ne_zero]
    exact zpow_le_one_of_nonpos₀ one_le_two (by omega)
  have first : ((2 : Rat) ^ Nat.log2 j + 1) ≤ j := by exact_mod_cast between.1
  have last : (j : Rat) + 1 ≤ 2 ^ Nat.log2 j * 2 := by
    rw [← pow_succ]
    exact_mod_cast between.2
  rw [quotient, le_div_iff₀ power, div_le_iff₀ power]
  constructor <;> linarith

/-- So its logarithm keeps off the integers. -/
theorem logb_of_decode {b : Nat} {q : Rat} {z : Bool} (h : decodeFmt .f32 b = .num q z) (pos : 0 < q) (other : (2 : Rat) ^ Int.log 2 q ≠ q) :
    Int.log 2 q + (2 : ℝ) ^ (-24 : ℤ) ≤ Real.logb 2 q ∧ Real.logb 2 q ≤ Int.log 2 q + 1 - (2 : ℝ) ^ (-24 : ℤ) := by
  obtain ⟨low, high⟩ := significand_of_decode h pos other
  obtain ⟨logLow, logHigh⟩ := log_two_bounds
  rw [logb_split pos]
  generalize q / 2 ^ Int.log 2 q = m at low high ⊢
  have low' : 1 + (2 : ℝ) ^ (-23 : ℤ) ≤ m := by
    have := (Rat.cast_le (K := ℝ)).mpr low
    rw [Rat.cast_add, cast_zpow_two] at this
    exact_mod_cast this
  have high' : (m : ℝ) ≤ 2 - (2 : ℝ) ^ (-23 : ℤ) := by
    have := (Rat.cast_le (K := ℝ)).mpr high
    rw [Rat.cast_sub, cast_zpow_two] at this
    exact_mod_cast this
  norm_num at low' high'
  have positive : (0 : ℝ) < m := by linarith
  have lower : (2 : ℝ) ^ (-24 : ℤ) ≤ Real.log m := by
    have := Real.one_sub_inv_le_log_of_pos (x := 1 + 1 / 8388608) (by norm_num)
    have := Real.log_le_log (by norm_num) low'
    norm_num at *
    linarith
  have upper : Real.log m ≤ Real.log 2 - (2 : ℝ) ^ (-24 : ℤ) := by
    have := Real.log_le_sub_one_of_pos (x := m / 2) (by linarith)
    rw [Real.log_div positive.ne' two_ne_zero] at this
    norm_num at *
    linarith
  constructor
  · rw [add_le_add_iff_left, le_div_iff₀ (by linarith)]
    norm_num at *
    linarith
  · rw [add_sub_assoc, add_le_add_iff_left, div_le_iff₀ (by linarith)]
    norm_num at *
    linarith

/-! ### LG2 -/

theorem lg2Of_num {w : Word} {q : Rat} {z : Bool} (h : decodeFmt .f32 w.toNat = .num q z) (pos : 0 < q) :
    lg2Of w = if (2 : Rat) ^ Int.log 2 q = q then roundFmt .f32 false .rne 0 (.ofRat (Int.log 2 q))
      else boundedResult (Config.lg2 w) (log2Value q) fixErr
        (if 1 / 2 ≤ q && q ≤ 2 then pow2 (-22) else 2 * ulpOf (log2Value q)) (pow2 128) := by
  simp only [lg2Of, h, floorLog2_eq pos, pow2_eq, if_neg pos.ne', if_neg (not_lt.mpr pos.le)]

/-- The integers of FP32. -/
theorem exists_code_nat {n : Nat} (lt : n < 2 ^ 24) : ∃ c ≤ Fmt.f32.maxCode, magnitude c = n := by
  by_cases zero : n = 0
  · exact ⟨0, Nat.zero_le _, by simp [zero]⟩
  · have top : Nat.log2 n ≤ 23 := by
      have := (Nat.log2_lt zero).mpr lt
      omega
    have low := Nat.log2_self_le zero
    have high : n < 2 ^ (Nat.log2 n + 1) := Nat.lt_log2_self
    have whole : 2 ^ Nat.log2 n * 2 ^ (23 - Nat.log2 n) = 2 ^ 23 := by rw [← pow_add]; congr 1; omega
    have next : 2 ^ (Nat.log2 n + 1) * 2 ^ (23 - Nat.log2 n) = 2 ^ 24 := by rw [← pow_add]; congr 1; omega
    have lower := Nat.mul_le_mul_right (2 ^ (23 - Nat.log2 n)) low
    have upper := Nat.mul_lt_mul_of_pos_right high (show 0 < 2 ^ (23 - Nat.log2 n) by positivity)
    rw [whole] at lower
    rw [next] at upper
    refine ⟨(Nat.log2 n + 126) * 2 ^ 23 + n * 2 ^ (23 - Nat.log2 n), (show _ ≤ 0x7F7FFFFF by omega), ?_⟩
    rw [magnitude_grid upper.le (.inl lower)]
    push_cast
    rw [mul_assoc, ← zpow_natCast, ← zpow_add₀ two_ne_zero]
    rw [show ((23 - Nat.log2 n : ℕ) : ℤ) + (((Nat.log2 n : ℕ) : ℤ) + 126 - 149) = 0 by omega, zpow_zero, mul_one]

theorem decode_roundFmt_int (n : ℤ) (small : n.natAbs < 2 ^ 24) :
    decodeFmt .f32 (roundFmt .f32 false .rne 0 (.ofRat n)) = .num n (decide (n < 0)) := by
  by_cases zero : n = 0
  · rw [zero, Int.cast_zero]
    exact decode_roundFmt_f32_zero
  · obtain ⟨c, finite, value⟩ := exists_code_nat small
    have nonzero : (n : Rat) ≠ 0 := by exact_mod_cast zero
    rw [decode_roundFmt_f32_exact false .rne 0 nonzero finite (by rw [value, Nat.cast_natAbs, Int.cast_abs])]
    simp

/-- The exponents of FP32's numbers. -/
theorem intLog_of_decode {b : Nat} {q : Rat} {z : Bool} (h : decodeFmt .f32 b = .num q z) (pos : 0 < q) : -149 ≤ Int.log 2 q ∧ Int.log 2 q ≤ 127 := by
  have low : (2 : Rat) ^ (-149 : ℤ) ≤ q := by
    obtain ⟨n, rfl⟩ := exists_multiple h
    have unit : (0 : Rat) < 2 ^ (-149 : ℤ) := zpow_pos two_pos _
    have one : (1 : ℤ) ≤ n := by exact_mod_cast (pos_iff_pos_of_mul_pos pos).mpr unit
    exact le_mul_of_one_le_left unit.le (by exact_mod_cast one)
  have high : q < 2 ^ (128 : ℤ) := by
    obtain ⟨c, finite, value⟩ := abs_of_decode h
    rw [← abs_of_pos pos, value]
    refine (magnitude_strictMono.monotone finite).trans_lt ?_
    rw [magnitude_maxCode]
    norm_num
  constructor
  · exact (Int.zpow_le_iff_le_log one_lt_two pos).mp (by exact_mod_cast low)
  · exact Int.lt_add_one_iff.mp ((Int.lt_zpow_iff_log_lt one_lt_two pos).mp (by exact_mod_cast high))

theorem decode_lg2Of_zpow {w : Word} {q : Rat} {z : Bool} (h : decodeFmt .f32 w.toNat = .num q z) (pos : 0 < q)
    (power : (2 : Rat) ^ Int.log 2 q = q) : decodeFmt .f32 (lg2Of w) = .num (Int.log 2 q) (decide (Int.log 2 q < 0)) := by
  obtain ⟨low, high⟩ := intLog_of_decode h pos
  rw [lg2Of_num h pos, if_pos power, decode_roundFmt_int _ (by omega)]

theorem logb_of_zpow {q : Rat} (power : (2 : Rat) ^ Int.log 2 q = q) : Real.logb 2 q = Int.log 2 q := by
  conv_lhs => rw [← power, cast_zpow_two]
  rw [← Real.rpow_intCast, Real.logb_rpow two_pos (by norm_num)]


theorem cast_fixErr : ((fixErr : Rat) : ℝ) = 2 ^ (-150 : ℤ) := by rw [fixErr, pow2_eq, cast_zpow_two]

/-- The model's error is less than every unit of FP32. -/
theorem fixErr_le_unit (a : Rat) : fixErr ≤ unitOf32 a := by
  rw [fixErr, pow2_eq, unitOf32]
  exact zpow_le_zpow_right₀ one_le_two (by unfold gridExp; omega)

theorem unitOf32_le {a : Rat} (nonneg : 0 ≤ a) {k : ℕ} (lt : a < 2 ^ (k + 1)) : unitOf32 a ≤ 2 ^ ((k : ℤ) - 23) := by
  have log : Int.log 2 a ≤ k := by
    rcases nonneg.eq_or_lt with rfl | pos
    · simp
    · exact Int.lt_add_one_iff.mp ((Int.lt_zpow_iff_log_lt one_lt_two pos).mp (by exact_mod_cast lt))
  rw [unitOf32, gridExp]
  exact zpow_le_zpow_right₀ one_le_two (by omega)

theorem le_magnitude_maxCode {a : Rat} (le : a ≤ 256) : a ≤ magnitude Fmt.f32.maxCode := by
  rw [magnitude_maxCode]
  refine le.trans ?_
  norm_num

/-- The computed logarithm stands between the same integers as the exact one. -/
theorem log2Value_bounds {b : Nat} {q : Rat} {z : Bool} (h : decodeFmt .f32 b = .num q z) (pos : 0 < q)
    (other : (2 : Rat) ^ Int.log 2 q ≠ q) : (Int.log 2 q : Rat) < log2Value q ∧ log2Value q < Int.log 2 q + 1 := by
  obtain ⟨low, high⟩ := logb_of_decode h pos other
  obtain ⟨near, near'⟩ := abs_le.mp (log2Value_near pos)
  have small : (2 : ℝ) ^ (-150 : ℤ) < 2 ^ (-24 : ℤ) := zpow_lt_zpow_right₀ one_lt_two (by norm_num)
  rw [← Rat.cast_lt (K := ℝ), ← Rat.cast_lt (K := ℝ)]
  push_cast
  constructor <;> linarith

/-- Away from 1, the computed logarithm stays below every power of two that the exact one stays below. -/
theorem log2Value_cell {b : Nat} {q : Rat} {z : Bool} (h : decodeFmt .f32 b = .num q z) (pos : 0 < q)
    (other : (2 : Rat) ^ Int.log 2 q ≠ q) (apart : 1 ≤ Int.log 2 q ∨ Int.log 2 q ≤ -2) {k : ℤ} (below : |Real.logb 2 q| < 2 ^ k) :
    |(log2Value q : ℝ)| < 2 ^ k := by
  obtain ⟨low, high⟩ := logb_of_decode h pos other
  obtain ⟨valueLow, valueHigh⟩ := log2Value_bounds h pos other
  rw [← Rat.cast_lt (K := ℝ)] at valueLow valueHigh
  push_cast at valueLow valueHigh
  have tiny : (0 : ℝ) < 2 ^ (-24 : ℤ) := zpow_pos two_pos _
  have one : (1 : ℝ) ≤ |Real.logb 2 q| := by
    rcases apart with above | beneath
    · have : (1 : ℝ) ≤ Int.log 2 q := by exact_mod_cast above
      exact le_abs.mpr (.inl (by linarith))
    · have : (Int.log 2 q : ℝ) ≤ -2 := by exact_mod_cast beneath
      exact le_abs.mpr (.inr (by linarith))
  have nonneg : 0 ≤ k := by
    by_contra negative
    exact absurd (one.trans_lt below) (not_lt.mpr (zpow_le_one_of_nonpos₀ one_le_two (by omega)))
  obtain ⟨n, rfl⟩ := Int.eq_ofNat_of_zero_le nonneg
  obtain ⟨left, right⟩ := abs_lt.mp below
  have whole : ((2 : ℝ) ^ ((n : ℕ) : ℤ)) = ((2 ^ n : ℤ) : ℝ) := by push_cast; rfl
  rw [whole] at left right ⊢
  have upper : Int.log 2 q + 1 ≤ (2 : ℤ) ^ n := by
    have : ((Int.log 2 q : ℤ) : ℝ) < ((2 ^ n : ℤ) : ℝ) := by linarith
    exact_mod_cast this
  have lower : -(2 : ℤ) ^ n ≤ Int.log 2 q := by
    have : ((-(2 ^ n) : ℤ) : ℝ) < ((Int.log 2 q + 1 : ℤ) : ℝ) := by
      push_cast at left ⊢
      linarith
    exact Int.lt_add_one_iff.mp (by exact_mod_cast this)
  have upper' : ((Int.log 2 q : ℤ) : ℝ) + 1 ≤ ((2 ^ n : ℤ) : ℝ) := by exact_mod_cast upper
  have lower' : -((2 ^ n : ℤ) : ℝ) ≤ ((Int.log 2 q : ℤ) : ℝ) := by exact_mod_cast lower
  exact abs_lt.mpr ⟨by linarith, by linarith⟩

theorem abs_log2Value_le {b : Nat} {q : Rat} {z : Bool} (h : decodeFmt .f32 b = .num q z) (pos : 0 < q)
    (other : (2 : Rat) ^ Int.log 2 q ≠ q) : |log2Value q| ≤ 256 := by
  obtain ⟨low, high⟩ := intLog_of_decode h pos
  obtain ⟨valueLow, valueHigh⟩ := log2Value_bounds h pos other
  have low' : (-149 : Rat) ≤ Int.log 2 q := by exact_mod_cast low
  have high' : (Int.log 2 q : Rat) ≤ 127 := by exact_mod_cast high
  exact abs_le.mpr ⟨by linarith, by linarith⟩

/-- A power of two has its exponent as result, whatever the bound. -/
theorem lg2Of_zpow_liesWithin {w : Word} {q : Rat} {z : Bool} (h : decodeFmt .f32 w.toNat = .num q z) (pos : 0 < q)
    (power : (2 : Rat) ^ Int.log 2 q = q) {limit : ℝ} (nonneg : 0 ≤ limit) : LiesWithin (lg2Of w) (Real.logb 2 q) limit :=
  liesWithin_of_eq (decode_lg2Of_zpow h pos power) (by rw [logb_of_zpow power]; push_cast; rfl) nonneg

theorem lg2Of_liesWithinTwoUlp {w : Word} {q : Rat} {z : Bool} (h : decodeFmt .f32 w.toNat = .num q z) (pos : 0 < q) (outside : q < 1 / 2 ∨ 2 < q) :
    LiesWithinTwoUlp (lg2Of w) (Real.logb 2 q) := by
  by_cases power : (2 : Rat) ^ Int.log 2 q = q
  · exact lg2Of_zpow_liesWithin h pos power (twoUlp_nonneg _)
  · have apart : 1 ≤ Int.log 2 q ∨ Int.log 2 q ≤ -2 := by
      rcases outside with beneath | above
      · have : Int.log 2 q < -1 := (Int.lt_zpow_iff_log_lt one_lt_two pos).mp (by norm_num at beneath ⊢; exact beneath)
        exact .inr (by omega)
      · exact .inl ((Int.zpow_le_iff_le_log one_lt_two pos).mp (by norm_num; exact above.le))
    have far : (1 / 2 ≤ q && q ≤ 2) = false := by
      rw [Bool.and_eq_false_iff, decide_eq_false_iff_not, decide_eq_false_iff_not, not_le, not_le]
      exact outside
    obtain ⟨valueLow, valueHigh⟩ := log2Value_bounds h pos power
    have nonzero : log2Value q ≠ 0 := by
      rcases apart with above | beneath
      · have : (1 : Rat) ≤ Int.log 2 q := by exact_mod_cast above
        linarith
      · have : (Int.log 2 q : Rat) ≤ -2 := by exact_mod_cast beneath
        linarith
    rw [lg2Of_num h pos, if_neg power, far, if_neg Bool.false_ne_true]
    exact boundedResult_liesWithinTwoUlp (by rw [cast_fixErr]; exact log2Value_near pos) (le_magnitude_maxCode (abs_log2Value_le h pos power))
      nonzero (fixErr_le_unit _) fun k => log2Value_cell h pos power apart

theorem lg2Of_liesWithin {w : Word} {q : Rat} {z : Bool} (h : decodeFmt .f32 w.toNat = .num q z) (low : 1 / 2 ≤ q) (high : q ≤ 2) :
    LiesWithin (lg2Of w) (Real.logb 2 q) ((2 : ℝ) ^ (-22 : ℤ)) := by
  have pos : 0 < q := by linarith
  by_cases power : (2 : Rat) ^ Int.log 2 q = q
  · exact lg2Of_zpow_liesWithin h pos power (zpow_pos two_pos _).le
  · have logLow : -1 ≤ Int.log 2 q := (Int.zpow_le_iff_le_log one_lt_two pos).mp (by norm_num at low ⊢; exact low)
    have logHigh : Int.log 2 q ≤ 0 := by
      have two : q ≠ 2 := by
        rintro rfl
        exact power (by rw [intLog_eq (e := 1) (by norm_num) (by norm_num)]; norm_num)
      have : Int.log 2 q < 1 := (Int.lt_zpow_iff_log_lt one_lt_two pos).mp (by simpa using lt_of_le_of_ne high two)
      omega
    obtain ⟨valueLow, valueHigh⟩ := log2Value_bounds h pos power
    have low' : (-1 : Rat) ≤ Int.log 2 q := by exact_mod_cast logLow
    have high' : (Int.log 2 q : Rat) ≤ 0 := by exact_mod_cast logHigh
    have small : |log2Value q| < 2 ^ (0 + 1) := abs_lt.mpr ⟨by norm_num; linarith, by norm_num; linarith⟩
    have inside : (1 / 2 ≤ q && q ≤ 2) = true := by
      rw [Bool.and_eq_true, decide_eq_true_eq, decide_eq_true_eq]
      exact ⟨low, high⟩
    have rounding : unitOf32 |log2Value q| / 2 + fixErr ≤ 2 ^ (-22 : ℤ) := by
      have := unitOf32_le (abs_nonneg _) small
      rw [fixErr, pow2_eq]
      norm_num at this ⊢
      linarith
    rw [lg2Of_num h pos, if_neg power, inside, if_pos rfl, pow2_eq]
    refine boundedResult_liesWithin (by rw [cast_fixErr]; exact log2Value_near pos) (le_magnitude_maxCode (abs_log2Value_le h pos power))
      (by rw [cast_zpow_two]) ?_
    rw [← cast_zpow_two]
    exact_mod_cast rounding

end Sys2Proof.Machine

/-!
SUPPORT. SIN and COS (R137): 2π, the series, the reduced argument and the bounds.
-/
namespace Sys2Proof.Machine

open Sys2Proof

/-! ### 2π -/

/-- The partial sums of arctan x from both sides. -/
theorem arctan_sum_bounds {x : ℝ} (nonneg : 0 ≤ x) (lt : x < 1) (n : Nat) :
    ∑ i ∈ Finset.range (2 * n), (-1) ^ i * (x ^ (2 * i + 1) / (2 * i + 1 : ℕ)) ≤ Real.arctan x ∧
      Real.arctan x ≤ (∑ i ∈ Finset.range (2 * n), (-1) ^ i * (x ^ (2 * i + 1) / (2 * i + 1 : ℕ))) + x ^ (4 * n + 1) / (4 * n + 1 : ℕ) := by
  have sum := (Real.hasSum_arctan (x := x) (by rwa [Real.norm_of_nonneg nonneg])).tendsto_sum_nat
  simp only [mul_div_assoc] at sum
  have falls : Antitone fun i : ℕ => x ^ (2 * i + 1) / ((2 * i + 1 : ℕ) : ℝ) := by
    intro i j le
    exact div_le_div₀ (by positivity) (pow_le_pow_of_le_one nonneg lt.le (by omega)) (by positivity) (by exact_mod_cast (by omega))
  refine ⟨falls.alternating_series_le_tendsto sum n, (falls.tendsto_le_alternating_series sum n).trans_eq ?_⟩
  rw [Finset.sum_range_succ, Even.neg_one_pow (even_two_mul n), one_mul, show 2 * (2 * n) = 4 * n by ring]

/-- The model's constant, by Machin's formula. -/
theorem twoPi_near : |(twoPi : ℝ) - 2 * Real.pi| ≤ 2 ^ (-150 : ℤ) * 2 ^ (-150 : ℤ) := by
  have machin := Real.four_mul_arctan_inv_5_sub_arctan_inv_239
  obtain ⟨low, high⟩ := arctan_sum_bounds (x := 5⁻¹) (by norm_num) (by norm_num) 34
  obtain ⟨low', high'⟩ := arctan_sum_bounds (x := 239⁻¹) (by norm_num) (by norm_num) 10
  have denominator : (((2 ^ 320 : ℕ) : ℚ) : ℝ) = 2 ^ 160 * 2 ^ 160 := by rw [Rat.cast_natCast, Nat.cast_pow, Nat.cast_ofNat, ← pow_add]
  rw [twoPi, Rat.cast_div, denominator]
  norm_num [Finset.sum_range_succ] at machin low high low' high' ⊢
  rw [abs_le]
  constructor <;> linarith


/-! ### sin x and cos x -/

/-- The sum that `waveTerms` computes. -/
noncomputable def waveSeries (x : ℝ) : Nat → Nat → ℝ
  | 0, _ => 1
  | n + 1, k => 1 - x * waveSeries x n (k + 2) / (k * (k + 1) : ℕ)

theorem waveSeries_eq_sum (x : ℝ) (n k : Nat) :
    waveSeries x n (k + 1) = ∑ i ∈ Finset.range (n + 1), (-x) ^ i * k.factorial / (k + 2 * i).factorial := by
  induction n generalizing k with
  | zero => simp [waveSeries, (Nat.factorial_pos k).ne']
  | succ n ih =>
    rw [waveSeries, show k + 1 + 2 = k + 2 + 1 by ring, ih (k + 2), Finset.sum_range_succ' _ (n + 1), Finset.mul_sum, Finset.sum_div,
      sub_eq_neg_add, ← Finset.sum_neg_distrib]
    congr 1
    · refine Finset.sum_congr rfl fun i _ => ?_
      rw [show k + 2 + 2 * i = k + 2 * (i + 1) by ring, Nat.factorial_succ (k + 1), Nat.factorial_succ k]
      push_cast
      field_simp
      ring
    · simp [(Nat.factorial_pos k).ne']

/-- The Taylor sums of e^(ix) are those of cos x and sin x. -/
theorem sum_exp_mul_I (x : ℝ) (n : Nat) : ∑ m ∈ Finset.range (2 * n), ((x : ℂ) * Complex.I) ^ m / m.factorial =
    (∑ i ∈ Finset.range n, (-(x ^ 2)) ^ i / (2 * i).factorial : ℝ) +
      (∑ i ∈ Finset.range n, x * (-(x ^ 2)) ^ i / (2 * i + 1).factorial : ℝ) * Complex.I := by
  induction n with
  | zero => simp
  | succ n ih =>
    have even : ((x : ℂ) * Complex.I) ^ (2 * n) = (-(x ^ 2)) ^ n := by rw [pow_mul, mul_pow, Complex.I_sq, mul_neg_one]
    have odd : ((x : ℂ) * Complex.I) ^ (2 * n + 1) = (-(x ^ 2)) ^ n * (x * Complex.I) := by rw [pow_succ, even]
    rw [show 2 * (n + 1) = 2 * n + 1 + 1 by ring, Finset.sum_range_succ, Finset.sum_range_succ, ih, Finset.sum_range_succ _ n,
      Finset.sum_range_succ _ n, odd, even]
    push_cast
    ring

/-- They are near cos x and sin x for every x that the reduction leaves. -/
theorem sum_cos_sin_near {x : ℝ} (nonneg : 0 ≤ x) (le : x ≤ 7) :
    |Real.cos x - ∑ i ∈ Finset.range 41, (-(x ^ 2)) ^ i / (2 * i).factorial| * fixScale ≤ 1 ∧
      |Real.sin x - ∑ i ∈ Finset.range 41, x * (-(x ^ 2)) ^ i / (2 * i + 1).factorial| * fixScale ≤ 1 := by
  have norm : ‖(x : ℂ) * Complex.I‖ = x := by rw [norm_mul, Complex.norm_I, mul_one, Complex.norm_real, Real.norm_of_nonneg nonneg]
  have bound := Complex.exp_bound' (x := (x : ℂ) * Complex.I) (n := 2 * 41) (by rw [norm]; norm_num; linarith)
  rw [norm, sum_exp_mul_I, Complex.exp_mul_I, ← Complex.ofReal_cos, ← Complex.ofReal_sin] at bound
  generalize (∑ i ∈ Finset.range 41, (-(x ^ 2)) ^ i / (2 * i).factorial : ℝ) = c at bound ⊢
  generalize (∑ i ∈ Finset.range 41, x * (-(x ^ 2)) ^ i / (2 * i + 1).factorial : ℝ) = d at bound ⊢
  have power : x ^ (2 * 41) ≤ 7 ^ (2 * 41) := pow_le_pow_left₀ nonneg le _
  have small : x ^ (2 * 41) / (2 * 41).factorial * 2 * fixScale ≤ 1 := by
    refine (mul_le_mul_of_nonneg_right (mul_le_mul_of_nonneg_right (div_le_div_of_nonneg_right power (Nat.cast_nonneg _)) zero_le_two)
      fixScale_pos.le).trans ?_
    norm_num [Nat.factorial, fixScale]
  have total := (mul_le_mul_of_nonneg_right bound fixScale_pos.le).trans small
  have re := Complex.abs_re_le_norm ((Real.cos x : ℂ) + Real.sin x * Complex.I - (c + d * Complex.I))
  have im := Complex.abs_im_le_norm ((Real.cos x : ℂ) + Real.sin x * Complex.I - (c + d * Complex.I))
  simp only [Complex.sub_re, Complex.add_re, Complex.mul_re, Complex.ofReal_re, Complex.ofReal_im, Complex.I_re, Complex.I_im, Complex.sub_im,
    Complex.add_im, Complex.mul_im, mul_zero, mul_one, sub_zero, add_zero, zero_add] at re im
  exact ⟨(mul_le_mul_of_nonneg_right re fixScale_pos.le).trans total, (mul_le_mul_of_nonneg_right im fixScale_pos.le).trans total⟩

/-- A partial sum within `n` units, of magnitude `b` at most. -/
def WaveNear (z : Int) (x : ℝ) (n k : Nat) (units most : ℝ) : Prop :=
  Near (waveTerms z n k) (waveSeries x n k) units ∧ |waveSeries x n k| ≤ most

theorem WaveNear.mono {z : Int} {x : ℝ} {n k : Nat} {units units' most most' : ℝ} (h : WaveNear z x n k units most) (le : units ≤ units')
    (le' : most ≤ most') : WaveNear z x n k units' most' := ⟨h.1.mono le, h.2.trans le'⟩

section
variable {z : Int} {x : ℝ} (near : Near z x 2) (nonneg : 0 ≤ x) (le : x ≤ 40)
include near nonneg le

theorem WaveNear.step {n k : Nat} {units most : ℝ} (pos : 1 ≤ k) (small : units ≤ 2 ^ 100) (h : WaveNear z x n (k + 2) units most) :
    WaveNear z x (n + 1) k ((40 * units + 2 * most + 2) / (k * (k + 1) : ℕ) + 1) (1 + 40 * most / (k * (k + 1) : ℕ)) := by
  obtain ⟨terms, bound⟩ := h
  have mostNonneg := (abs_nonneg _).trans bound
  have factor : 0 < k * (k + 1) := by positivity
  have factor' : (0 : ℝ) < (k * (k + 1) : ℕ) := by exact_mod_cast factor
  have quotient := (near.mul terms (by norm_num [fixScale] at small ⊢; linarith)).ediv (k := (k * (k + 1) : ℕ)) (by exact_mod_cast factor)
  rw [abs_of_nonneg nonneg, Int.cast_natCast] at quotient
  constructor
  · refine (near_fixOne.sub quotient).mono ?_
    rw [zero_add]
    have := terms.nonneg
    gcongr
  · rw [waveSeries]
    refine (abs_sub _ _).trans ?_
    rw [abs_one, abs_div, abs_mul, abs_of_nonneg nonneg, abs_of_pos factor']
    gcongr

/-- From k = 7 on neither the error nor the sum grows. -/
theorem waveNear_from_seven (n : Nat) {k : Nat} (from7 : 7 ≤ k) : WaveNear z x n k 5 4 := by
  induction n generalizing k with
  | zero => exact ⟨near_fixOne.mono (by norm_num), by norm_num [waveSeries]⟩
  | succ n ih =>
    have factor : (56 : ℝ) ≤ (k * (k + 1) : ℕ) := by exact_mod_cast Nat.mul_le_mul from7 (Nat.succ_le_succ from7)
    refine (WaveNear.step near nonneg le (by omega) (by norm_num) (ih (show 7 ≤ k + 2 by omega))).mono ?_ ?_
    · calc _ ≤ (40 * 5 + 2 * 4 + 2 : ℝ) / 56 + 1 := by gcongr
        _ ≤ 5 := by norm_num
    · calc _ ≤ 1 + (40 * 4 : ℝ) / 56 := by gcongr
        _ ≤ 4 := by norm_num

theorem waveTerms_cos_near : Near (waveTerms z 40 1) (waveSeries x 40 1) 607 := by
  have seven := waveNear_from_seven near nonneg le 37 (k := 7) le_rfl
  have five : WaveNear z x 38 5 8 7 := (WaveNear.step near nonneg le (by norm_num) (by norm_num) seven).mono (by norm_num) (by norm_num)
  have three : WaveNear z x 39 3 29 25 := (WaveNear.step near nonneg le (by norm_num) (by norm_num) five).mono (by norm_num) (by norm_num)
  have one : WaveNear z x 40 1 607 501 := (WaveNear.step near nonneg le (by norm_num) (by norm_num) three).mono (by norm_num) (by norm_num)
  exact one.1

theorem waveTerms_sin_near : WaveNear z x 40 2 99 75 := by
  have eight := waveNear_from_seven near nonneg le 37 (k := 8) (by norm_num)
  have six : WaveNear z x 38 6 6 5 := (WaveNear.step near nonneg le (by norm_num) (by norm_num) eight).mono (by norm_num) (by norm_num)
  have four : WaveNear z x 39 4 14 11 := (WaveNear.step near nonneg le (by norm_num) (by norm_num) six).mono (by norm_num) (by norm_num)
  exact (WaveNear.step near nonneg le (by norm_num) (by norm_num) four).mono (by norm_num) (by norm_num)

end


/-! ### The reduced argument -/

/-- An operand less the whole turns in it. -/
def reducedArg (q : Rat) : Rat := q - (q / twoPi).floor * twoPi

theorem twoPi_bounds : 6 < twoPi ∧ twoPi < 63 / 10 := by decide +kernel

theorem reducedArg_bounds (q : Rat) : 0 ≤ reducedArg q ∧ reducedArg q < 63 / 10 := by
  obtain ⟨low, high⟩ := twoPi_bounds
  have pos : 0 < twoPi := by linarith
  have below := (le_div_iff₀ pos).mp (Rat.floor_le (q / twoPi))
  have above := (div_lt_iff₀ pos).mp (sub_lt_iff_lt_add.mp (Rat.lt_floor (x := q / twoPi)))
  unfold reducedArg
  constructor <;> linarith

theorem abs_floor_le {q : Rat} (small : |q| < 2 ^ 128) : |((q / twoPi).floor : Rat)| ≤ 2 ^ 128 := by
  obtain ⟨low, high⟩ := twoPi_bounds
  have pos : 0 < twoPi := by linarith
  obtain ⟨left, right⟩ := abs_lt.mp small
  have below := Rat.floor_le (q / twoPi)
  have above := sub_lt_iff_lt_add.mp (Rat.lt_floor (x := q / twoPi))
  have quotient : |q / twoPi| ≤ 2 ^ 128 / 6 := by
    rw [abs_div, abs_of_pos pos]
    gcongr
  obtain ⟨left', right'⟩ := abs_le.mp quotient
  norm_num at left' right' ⊢
  exact abs_le.mpr ⟨by linarith, by linarith⟩

/-- The reduced argument is the operand up to whole turns. -/
theorem reducedArg_near {q : Rat} (small : |q| < 2 ^ 128) :
    |(reducedArg q : ℝ) - (q - (q / twoPi).floor * (2 * Real.pi))| * fixScale ≤ 1 := by
  have turns : |(((q / twoPi).floor : ℤ) : ℝ)| ≤ 2 ^ 128 := by exact_mod_cast (Rat.cast_le (K := ℝ)).mpr (abs_floor_le small)
  have difference : (reducedArg q : ℝ) - (q - (q / twoPi).floor * (2 * Real.pi)) = (q / twoPi).floor * (2 * Real.pi - twoPi) := by
    unfold reducedArg
    push_cast
    ring
  rw [difference, abs_mul, abs_sub_comm]
  calc _ ≤ (2 : ℝ) ^ 128 * (2 ^ (-150 : ℤ) * 2 ^ (-150 : ℤ)) * fixScale := by
        refine mul_le_mul_of_nonneg_right ?_ fixScale_pos.le
        exact mul_le_mul turns twoPi_near (abs_nonneg _) (by positivity)
    _ ≤ 1 := by norm_num [fixScale]

/-- The fixed-point argument of the series. -/
theorem toFix_reducedArg_bounds (q : Rat) : 0 ≤ ((ofFix (toFix (reducedArg q)) : Rat) : ℝ) ∧ ((ofFix (toFix (reducedArg q)) : Rat) : ℝ) ≤ 63 / 10 := by
  obtain ⟨low, high⟩ := reducedArg_bounds q
  have nonneg : (0 : ℝ) ≤ toFix (reducedArg q) := by exact_mod_cast toFix_nonneg low
  have le : (reducedArg q : ℝ) ≤ 63 / 10 := by
    have := (Rat.cast_le (K := ℝ)).mpr high.le
    push_cast at this
    exact this
  have below := (toFix_bounds (reducedArg q)).1
  rw [cast_ofFix, div_le_iff₀ fixScale_pos]
  exact ⟨div_nonneg nonneg fixScale_pos.le, below.trans (mul_le_mul_of_nonneg_right le fixScale_pos.le)⟩

theorem toFix_reducedArg_near {q : Rat} (small : |q| < 2 ^ 128) :
    |((ofFix (toFix (reducedArg q)) : Rat) : ℝ) - (q - (q / twoPi).floor * (2 * Real.pi))| * fixScale ≤ 2 := by
  have first := (near_toFix (reducedArg q)).abs_ofFix_sub
  rw [le_div_iff₀ fixScale_pos] at first
  have second := reducedArg_near small
  have through := abs_sub_le ((ofFix (toFix (reducedArg q)) : Rat) : ℝ) (reducedArg q) (q - (q / twoPi).floor * (2 * Real.pi))
  have := mul_le_mul_of_nonneg_right through fixScale_pos.le
  linarith

/-! ### The computed values -/

theorem square_near {r : Int} (low : 0 ≤ ((ofFix r : Rat) : ℝ)) (high : ((ofFix r : Rat) : ℝ) ≤ 63 / 10) :
    Near (fixMul r r) (((ofFix r : Rat) : ℝ) ^ 2) 2 ∧ ((ofFix r : Rat) : ℝ) ^ 2 ≤ 40 := by
  rw [sq]
  exact ⟨((near_ofFix r).mul (near_ofFix r) (by norm_num [fixScale])).mono (by norm_num), by nlinarith⟩

theorem cosValue_near {q : Rat} (small : |q| < 2 ^ 128) : |(cosValue q : ℝ) - Real.cos q| ≤ 2 ^ (-150 : ℤ) := by
  obtain ⟨low, high⟩ := toFix_reducedArg_bounds q
  have angle := toFix_reducedArg_near small
  have value : cosValue q = ofFix (waveTerms (fixMul (toFix (reducedArg q)) (toFix (reducedArg q))) 40 1) := rfl
  rw [value, ← Real.cos_sub_int_mul_two_pi (q : ℝ) (q / twoPi).floor]
  generalize toFix (reducedArg q) = r at low high angle ⊢
  obtain ⟨square, le⟩ := square_near low high
  generalize ((ofFix r : Rat) : ℝ) = x at low high angle square le
  have terms := waveTerms_cos_near square (sq_nonneg x) le
  have series := (sum_cos_sin_near low (by linarith)).1
  have sum : waveSeries (x ^ 2) 40 1 = ∑ i ∈ Finset.range 41, (-(x ^ 2)) ^ i / (2 * i).factorial := by simp [waveSeries_eq_sum _ 40 0]
  rw [abs_sub_comm, ← sum] at series
  have turned := (mul_le_mul_of_nonneg_right (Real.abs_cos_sub_cos_le x (q - (q / twoPi).floor * (2 * Real.pi))) fixScale_pos.le).trans angle
  refine ((terms.trans series).trans turned).abs_ofFix_sub.trans ?_
  norm_num [fixScale]

theorem sinValue_near {q : Rat} (small : |q| < 2 ^ 128) : |(sinValue q : ℝ) - Real.sin q| ≤ 2 ^ (-150 : ℤ) := by
  obtain ⟨low, high⟩ := toFix_reducedArg_bounds q
  have angle := toFix_reducedArg_near small
  have value : sinValue q = ofFix (fixMul (toFix (reducedArg q)) (waveTerms (fixMul (toFix (reducedArg q)) (toFix (reducedArg q))) 40 2)) := rfl
  rw [value, ← Real.sin_sub_int_mul_two_pi (q : ℝ) (q / twoPi).floor]
  generalize toFix (reducedArg q) = r at low high angle ⊢
  obtain ⟨square, le⟩ := square_near low high
  have self := near_ofFix r
  generalize ((ofFix r : Rat) : ℝ) = x at low high angle square le self
  obtain ⟨terms, bound⟩ := waveTerms_sin_near square (sq_nonneg x) le
  have product : Near (fixMul r (waveTerms (fixMul r r) 40 2)) (x * waveSeries (x ^ 2) 40 2) 626 := by
    refine (self.mul terms (by norm_num [fixScale])).mono ?_
    rw [abs_of_nonneg low]
    linarith
  have series := (sum_cos_sin_near low (by linarith)).2
  have sum : x * waveSeries (x ^ 2) 40 2 = ∑ i ∈ Finset.range 41, x * (-(x ^ 2)) ^ i / (2 * i + 1).factorial := by
    rw [waveSeries_eq_sum _ 40 1, Finset.mul_sum]
    refine Finset.sum_congr rfl fun i _ => ?_
    rw [Nat.factorial_one, Nat.cast_one, mul_one, add_comm 1, mul_div_assoc]
  rw [abs_sub_comm, ← sum] at series
  have turned := (mul_le_mul_of_nonneg_right (Real.abs_sin_sub_sin_le x (q - (q / twoPi).floor * (2 * Real.pi))) fixScale_pos.le).trans angle
  refine ((product.trans series).trans turned).abs_ofFix_sub.trans ?_
  norm_num [fixScale]

/-! ### SIN and COS -/

theorem abs_lt_of_decode {b : Nat} {q : Rat} {z : Bool} (h : decodeFmt .f32 b = .num q z) : |q| < 2 ^ 128 := by
  obtain ⟨c, finite, value⟩ := abs_of_decode h
  rw [value]
  refine (magnitude_strictMono.monotone finite).trans_lt ?_
  rw [magnitude_maxCode]
  norm_num

theorem sinOf_num {w : Word} {q : Rat} {z : Bool} (h : decodeFmt .f32 w.toNat = .num q z) :
    sinOf w = if |q| < 1 / 4096 then w.toNat else boundedResult (Config.sin w) (sinValue q) fixErr (pow2 (-22)) 1 := by
  simp only [sinOf, h, ratAbs_eq]

theorem cosOf_num {w : Word} {q : Rat} {z : Bool} (h : decodeFmt .f32 w.toNat = .num q z) :
    cosOf w = if q = 0 then 0x3F800000 else boundedResult (Config.cos w) (cosValue q) fixErr (pow2 (-22)) 1 := by
  simp only [cosOf, h]

/-- A value computed of one of magnitude 1 at most. -/
theorem abs_lt_two_of_near {y : Rat} {exact : ℝ} (near : |(y : ℝ) - exact| ≤ 2 ^ (-150 : ℤ)) (le : |exact| ≤ 1) : |y| < 2 ^ (0 + 1) := by
  have tiny : (2 : ℝ) ^ (-150 : ℤ) < 1 := by norm_num
  rw [← Rat.cast_lt (K := ℝ)]
  push_cast
  have := abs_sub_abs_le_abs_sub (y : ℝ) exact
  linarith

/-- Rounded or free, a value of magnitude 1 at most lies within the bound of SIN and COS. -/
theorem boundedResult_liesWithin_wave {x : Word} {y most : Rat} {exact : ℝ} (near : |(y : ℝ) - exact| ≤ 2 ^ (-150 : ℤ)) (le : |exact| ≤ 1) :
    LiesWithin (boundedResult x y fixErr (pow2 (-22)) most) exact ((2 : ℝ) ^ (-22 : ℤ)) := by
  have small := abs_lt_two_of_near near le
  have rounding : unitOf32 |y| / 2 + fixErr ≤ 2 ^ (-22 : ℤ) := by
    have := unitOf32_le (abs_nonneg _) small
    rw [fixErr, pow2_eq]
    norm_num at this ⊢
    linarith
  refine boundedResult_liesWithin (by rwa [cast_fixErr]) (le_magnitude_maxCode (small.le.trans (by norm_num))) (by rw [pow2_eq, cast_zpow_two]) ?_
  rw [← cast_zpow_two]
  exact_mod_cast rounding

theorem sin_near_self {x : ℝ} (small : |x| < 1 / 4096) : |x - Real.sin x| ≤ 2 ^ (-36 : ℤ) := by
  have bound := Real.sin_bound (x := x) (by linarith)
  have cube : |x ^ 3| ≤ (1 / 4096) ^ 3 := by
    rw [abs_pow]
    gcongr
  have fifth : |x| ^ 5 ≤ (1 / 4096) ^ 5 := by gcongr
  rw [abs_le] at bound cube ⊢
  norm_num at *
  constructor <;> linarith

theorem sinOf_liesWithin {w : Word} {q : Rat} {z : Bool} (h : decodeFmt .f32 w.toNat = .num q z) :
    LiesWithin (sinOf w) (Real.sin q) ((2 : ℝ) ^ (-22 : ℤ)) := by
  rw [sinOf_num h]
  split
  · next small =>
    have small' : |(q : ℝ)| < 1 / 4096 := by
      rw [← Rat.cast_lt (K := ℝ)] at small
      push_cast at small
      exact small
    exact ⟨q, z, h, (sin_near_self small').trans (zpow_le_zpow_right₀ one_le_two (by norm_num))⟩
  · exact boundedResult_liesWithin_wave (sinValue_near (abs_lt_of_decode h)) (Real.abs_sin_le_one _)

theorem cosOf_liesWithin {w : Word} {q : Rat} {z : Bool} (h : decodeFmt .f32 w.toNat = .num q z) :
    LiesWithin (cosOf w) (Real.cos q) ((2 : ℝ) ^ (-22 : ℤ)) := by
  rw [cosOf_num h]
  split
  · next zero =>
    exact liesWithin_of_eq (x := 1) (z := false) (by decide +kernel) (by simp [zero]) (by positivity)
  · exact boundedResult_liesWithin_wave (cosValue_near (abs_lt_of_decode h)) (Real.abs_cos_le_one _)

end Sys2Proof.Machine

/-!
SUPPORT. TANH (R137): the computed value, the powers of two between its values, and its bound; with it, the statement about the
bounds of R137.
-/
namespace Sys2Proof.Machine

open Sys2Proof

/-! ### tanh x -/

theorem tanh_eq_exp (x : ℝ) : Real.tanh x = (Real.exp (2 * x) - 1) / (Real.exp (2 * x) + 1) := by
  have pos := Real.exp_pos x
  rw [Real.tanh_eq, two_mul, Real.exp_add, Real.exp_neg]
  field_simp

theorem one_sub_tanh (x : ℝ) : 1 - Real.tanh x = 2 / (Real.exp (2 * x) + 1) := by
  have pos := Real.exp_pos (2 * x)
  rw [tanh_eq_exp, eq_div_iff (by positivity), sub_mul, div_mul_cancel₀ _ (by positivity)]
  ring

theorem tanh_mono {x y : ℝ} (le : x ≤ y) : Real.tanh x ≤ Real.tanh y := by
  have : 1 - Real.tanh y ≤ 1 - Real.tanh x := by
    rw [one_sub_tanh, one_sub_tanh]
    gcongr
  linarith

theorem tanh_nonneg {x : ℝ} (nonneg : 0 ≤ x) : 0 ≤ Real.tanh x := by simpa using tanh_mono nonneg

theorem abs_tanh (x : ℝ) : |Real.tanh x| = Real.tanh |x| := by
  rcases abs_cases x with ⟨same, sign⟩ | ⟨same, sign⟩
  · rw [same, abs_of_nonneg (tanh_nonneg sign)]
  · rw [same, Real.tanh_neg, abs_of_nonpos]
    have := tanh_nonneg (x := -x) (by linarith)
    rw [Real.tanh_neg] at this
    linarith

/-- Near 0, tanh x is x less a cube. -/
theorem sub_tanh_bounds {x : ℝ} (nonneg : 0 ≤ x) (small : x ≤ 1 / 4096) : 0 ≤ x - Real.tanh x ∧ x - Real.tanh x ≤ x ^ 3 / 2 := by
  have series := Real.exp_bound (x := 2 * x) (by rw [abs_of_nonneg] <;> linarith) (n := 4) (by norm_num)
  have pos := Real.exp_pos (2 * x)
  have one : 1 ≤ Real.exp (2 * x) := Real.one_le_exp (by linarith)
  have difference : x - Real.tanh x = (x * (Real.exp (2 * x) + 1) - (Real.exp (2 * x) - 1)) / (Real.exp (2 * x) + 1) := by
    rw [tanh_eq_exp]
    field_simp
  obtain ⟨rest, value⟩ : ∃ rest, Real.exp (2 * x) = 1 + 2 * x + 2 * x ^ 2 + 4 / 3 * x ^ 3 + rest := ⟨_, (add_sub_cancel _ _).symm⟩
  have bound : |(1 - x) * rest| ≤ 5 / 6 * x ^ 4 := by
    have : |rest| ≤ 5 / 6 * x ^ 4 := by
      rw [value, abs_of_nonneg (by linarith : 0 ≤ 2 * x)] at series
      norm_num [Finset.sum_range_succ, Nat.factorial] at series
      convert series using 1 <;> ring_nf
    rw [abs_mul]
    exact (mul_le_of_le_one_left (abs_nonneg _) (abs_le.mpr ⟨by linarith, by linarith⟩)).trans this
  have numerator : x * (Real.exp (2 * x) + 1) - (Real.exp (2 * x) - 1) = 2 / 3 * x ^ 3 + 4 / 3 * x ^ 4 - (1 - x) * rest := by
    rw [value]
    ring
  have fourth : x ^ 4 ≤ x ^ 3 * (1 / 4096) := by
    rw [pow_succ x 3]
    gcongr
  have cube : 0 ≤ x ^ 3 := by positivity
  have fourthNonneg : 0 ≤ x ^ 4 := by positivity
  obtain ⟨low, high⟩ := abs_le.mp bound
  rw [difference, numerator]
  constructor
  · exact div_nonneg (by linarith) (by linarith)
  · rw [div_le_iff₀ (by linarith)]
    have : x ^ 3 / 2 * 2 ≤ x ^ 3 / 2 * (Real.exp (2 * x) + 1) := by gcongr; linarith
    linarith

/-! ### The computed value -/

/-- tanh u of a magnitude as the model computes it. -/
def tanhMag (u : Rat) : Rat := (exp2Value (2 * u / ofFix fixLn2) - 1) / (exp2Value (2 * u / ofFix fixLn2) + 1)

theorem tanhValue_eq (q : Rat) : tanhValue q = signedBy (decide (q < 0)) (tanhMag |q|) := by
  simp only [tanhValue, ratAbs_eq, signedBy, decide_eq_true_eq]
  rfl

theorem abs_tanhValue (q : Rat) : |tanhValue q| = |tanhMag (|q|)| := by rw [tanhValue_eq, abs_signedBy]

/-- The exponent that tanh is computed from, over ln 2. -/
theorem exponent_near {u : Rat} (nonneg : 0 ≤ u) (le : u ≤ 19 / 2) :
    |((2 * u / ofFix fixLn2 : Rat) : ℝ) * Real.log 2 - 2 * u| ≤ 2 ^ (-155 : ℤ) := by
  have nonneg' : (0 : ℝ) ≤ u := by exact_mod_cast nonneg
  have le' : (u : ℝ) ≤ 19 / 2 := by
    have := (Rat.cast_le (K := ℝ)).mpr le
    push_cast at this
    exact this
  have scale : 1 / fixScale = 2 ^ (-160 : ℤ) := by norm_num [fixScale]
  have ln2 := near_fixLn2.abs_ofFix_sub
  rw [scale] at ln2
  have positive : (2 : ℝ) / 3 ≤ ofFix fixLn2 := by
    have := (abs_le.mp ln2).1
    have := log_two_bounds.1
    norm_num at *
    linarith
  have difference : ((2 * u / ofFix fixLn2 : Rat) : ℝ) * Real.log 2 - 2 * u = 2 * u / ofFix fixLn2 * (Real.log 2 - ofFix fixLn2) := by
    push_cast
    field_simp
  rw [difference, abs_mul, abs_sub_comm (Real.log 2), abs_of_nonneg (by positivity)]
  calc 2 * (u : ℝ) / ofFix fixLn2 * |(ofFix fixLn2 : ℝ) - Real.log 2| ≤ 2 * (19 / 2) / (2 / 3) * 2 ^ (-160 : ℤ) := by gcongr
    _ ≤ 2 ^ (-155 : ℤ) := by norm_num

/-- Its power of two is e^(2u) up to a factor near 1. -/
theorem exists_factor {u : Rat} (nonneg : 0 ≤ u) (le : u ≤ 19 / 2) :
    ∃ d : ℝ, (2 : ℝ) ^ ((2 * u / ofFix fixLn2 : Rat) : ℝ) = Real.exp (2 * u) * d ∧ |d - 1| ≤ 2 ^ (-154 : ℤ) := by
  have exponent := exponent_near nonneg le
  refine ⟨Real.exp (((2 * u / ofFix fixLn2 : Rat) : ℝ) * Real.log 2 - 2 * u), ?_, ?_⟩
  · rw [Real.rpow_def_of_pos two_pos, ← Real.exp_add]
    congr 1
    ring
  · refine (Real.abs_exp_sub_one_le (exponent.trans (by norm_num))).trans ?_
    norm_num at exponent ⊢
    linarith

/-- The exponential that tanh is computed from. -/
theorem exp2Value_near_exp {u : Rat} (nonneg : 0 ≤ u) (le : u ≤ 19 / 2) :
    |(exp2Value (2 * u / ofFix fixLn2) : ℝ) - Real.exp (2 * u)| ≤ Real.exp (2 * u) * 2 ^ (-152 : ℤ) := by
  obtain ⟨d, power, unit⟩ := exists_factor nonneg le
  have pos := Real.exp_pos (2 * u)
  have close := exp2Value_near (2 * u / ofFix fixLn2)
  have floor : (2 : ℝ) ^ (2 * u / ofFix fixLn2).floor ≤ 2 ^ ((2 * u / ofFix fixLn2 : Rat) : ℝ) := by
    rw [← Real.rpow_intCast]
    exact Real.rpow_le_rpow_of_exponent_le one_le_two (by exact_mod_cast Rat.floor_le (2 * u / ofFix fixLn2))
  have scaled : ∀ e : ℤ, (2 : ℝ) ^ (e - 154) = 2 ^ e * 2 ^ (-154 : ℤ) := fun e => by rw [sub_eq_add_neg, zpow_add₀ two_ne_zero]
  have double : d ≤ 2 := by
    have := (abs_le.mp unit).2
    norm_num at this ⊢
    linarith
  rw [power] at close floor
  rw [scaled] at close
  have first : (2 : ℝ) ^ (2 * u / ofFix fixLn2).floor * 2 ^ (-154 : ℤ) ≤ Real.exp (2 * u) * 2 * 2 ^ (-154 : ℤ) := by
    gcongr
    exact floor.trans (by gcongr)
  have second : |Real.exp (2 * u) * d - Real.exp (2 * u)| ≤ Real.exp (2 * u) * 2 ^ (-154 : ℤ) := by
    rw [← mul_sub_one, abs_mul, abs_of_pos pos]
    gcongr
  calc |(exp2Value (2 * u / ofFix fixLn2) : ℝ) - Real.exp (2 * u)|
      ≤ |(exp2Value (2 * u / ofFix fixLn2) : ℝ) - Real.exp (2 * u) * d| + |Real.exp (2 * u) * d - Real.exp (2 * u)| := abs_sub_le _ _ _
    _ ≤ Real.exp (2 * u) * 2 * 2 ^ (-154 : ℤ) + Real.exp (2 * u) * 2 ^ (-154 : ℤ) := add_le_add (close.trans first) second
    _ ≤ Real.exp (2 * u) * 2 ^ (-152 : ℤ) := by
      norm_num
      linarith

theorem one_le_exp2Value {a : Rat} (nonneg : 0 ≤ a) : 1 ≤ exp2Value a := by
  refine le_trans ?_ (two_zpow_le_exp2Value a)
  exact one_le_zpow₀ one_le_two (Rat.le_floor_iff.mpr (by simpa using nonneg))

theorem exponent_nonneg {u : Rat} (nonneg : 0 ≤ u) : 0 ≤ 2 * u / ofFix fixLn2 :=
  div_nonneg (by linarith) (by decide +kernel)

theorem tanhMag_near {u : Rat} (nonneg : 0 ≤ u) (le : u ≤ 19 / 2) : |(tanhMag u : ℝ) - Real.tanh u| ≤ 2 ^ (-150 : ℤ) := by
  have close := exp2Value_near_exp nonneg le
  have one : (1 : ℝ) ≤ exp2Value (2 * u / ofFix fixLn2) := by exact_mod_cast one_le_exp2Value (exponent_nonneg nonneg)
  have pos := Real.exp_pos (2 * u)
  rw [tanh_eq_exp, tanhMag]
  push_cast
  generalize (exp2Value (2 * u / ofFix fixLn2) : ℝ) = t at close one ⊢
  generalize Real.exp (2 * u) = e at close pos ⊢
  have difference : (t - 1) / (t + 1) - (e - 1) / (e + 1) = 2 * (t - e) / ((t + 1) * (e + 1)) := by
    field_simp
    ring
  have denominator : 0 < (t + 1) * (e + 1) := by positivity
  rw [difference, abs_div, abs_mul, abs_two, abs_of_pos denominator, div_le_iff₀ denominator]
  have grow : 2 * e ≤ (t + 1) * (e + 1) := by nlinarith
  have : (2 : ℝ) ^ (-152 : ℤ) * (2 * e) ≤ 2 ^ (-150 : ℤ) * ((t + 1) * (e + 1)) :=
    mul_le_mul (zpow_le_zpow_right₀ one_le_two (by norm_num)) grow (by linarith) (by positivity)
  linarith

theorem tanhValue_near {q : Rat} (le : |q| ≤ 19 / 2) : |(tanhValue q : ℝ) - Real.tanh q| ≤ 2 ^ (-150 : ℤ) := by
  have near := tanhMag_near (abs_nonneg q) le
  rw [tanhValue_eq, signedBy]
  by_cases negative : q < 0
  · rw [abs_of_neg negative, Rat.cast_neg, Real.tanh_neg, sub_neg_eq_add, ← abs_neg] at near
    rw [if_pos (by simpa using negative), abs_of_neg negative, Rat.cast_neg]
    convert near using 2
    ring
  · rw [abs_of_nonneg (not_lt.mp negative)] at near
    rwa [if_neg (by simpa using negative), abs_of_nonneg (not_lt.mp negative)]

theorem tanhMag_bounds {u : Rat} (nonneg : 0 ≤ u) : 0 ≤ tanhMag u ∧ tanhMag u < 1 := by
  have one := one_le_exp2Value (exponent_nonneg nonneg)
  unfold tanhMag
  generalize exp2Value (2 * u / ofFix fixLn2) = t at one ⊢
  rw [div_lt_one (by linarith)]
  exact ⟨div_nonneg (by linarith) (by linarith), by linarith⟩

/-! ### Powers of two between its values -/

/-- For each power of two below 1 that tanh reaches, the largest pattern at which tanh is less. -/
def tanhCuts : List (Nat × Nat) := [(1, 0x3F0C9F53), (2, 0x3E82C577), (3, 0x3E00AC48), (4, 0x3D802AC4), (5, 0x3D000AAC), (6, 0x3C8002AA),
  (7, 0x3C0000AA), (8, 0x3B80002A), (9, 0x3B00000A), (10, 0x3A800002), (11, 0x3A000000), (12, 0x39800000)]

/-- There tanh keeps far more off the power than the error of its computed value. -/
theorem tanhCuts_hold : ∀ x ∈ tanhCuts, x.2 + 1 < 0x41180000 ∧ tanhMag (decodeFmt .f32 x.2).real + 2 * pow2 (-150) < pow2 (-x.1) ∧
    pow2 (-x.1) + pow2 (-150) ≤ tanhMag (decodeFmt .f32 (x.2 + 1)).real := by decide +kernel


/-! ### TANH -/

theorem tanhOf_num {w : Word} {q : Rat} {z : Bool} (h : decodeFmt .f32 w.toNat = .num q z) :
    tanhOf w = if |q| < 1 / 4096 then w.toNat else if 19 / 2 ≤ |q| then Fmt.f32.withSign (decide (q < 0)) 0x3F800000
      else boundedResult (Config.tanh w) (tanhValue q) fixErr (2 * ulpOf (tanhValue q)) 1 := by
  simp only [tanhOf, h, ratAbs_eq]

/-- An ulp is no finer than 24 bits of the value. -/
theorem abs_mul_le_ulp (y : ℝ) : |y| * 2 ^ (-24 : ℤ) ≤ 2 ^ (max ⌊Real.logb 2 |y|⌋ (-126) - 23) := by
  have above : |y| ≤ (2 : ℝ) ^ (⌊Real.logb 2 |y|⌋ + 1) := by
    rw [floor_logb_two (abs_nonneg y)]
    exact_mod_cast (Int.lt_zpow_succ_log_self (R := ℝ) one_lt_two |y|).le
  calc |y| * 2 ^ (-24 : ℤ) ≤ 2 ^ (⌊Real.logb 2 |y|⌋ + 1) * 2 ^ (-24 : ℤ) := by gcongr
    _ = 2 ^ (⌊Real.logb 2 |y|⌋ - 23) := by
      rw [← zpow_add₀ two_ne_zero]
      congr 1
      ring
    _ ≤ 2 ^ (max ⌊Real.logb 2 |y|⌋ (-126) - 23) := zpow_le_zpow_right₀ one_le_two (by omega)

theorem cast_abs_lt {q r : Rat} (lt : |q| < r) : |(q : ℝ)| < r := by exact_mod_cast (Rat.cast_lt (K := ℝ)).mpr lt

theorem cast_le_abs {q r : Rat} (le : r ≤ |q|) : (r : ℝ) ≤ |(q : ℝ)| := by exact_mod_cast (Rat.cast_le (K := ℝ)).mpr le

/-- Below 2^−12 the operand is within 2 ulp of its hyperbolic tangent. -/
theorem small_liesWithin_tanh {w : Nat} {q : Rat} {z : Bool} (h : decodeFmt .f32 w = .num q z) (small : |q| < 1 / 4096) :
    LiesWithinTwoUlp w (Real.tanh q) := by
  have small' := cast_abs_lt small
  push_cast at small'
  obtain ⟨low, high⟩ := sub_tanh_bounds (abs_nonneg (q : ℝ)) small'.le
  have error : |(q : ℝ) - Real.tanh q| = |(q : ℝ)| - Real.tanh |(q : ℝ)| := by
    rcases abs_cases (q : ℝ) with ⟨same, sign⟩ | ⟨same, sign⟩
    · rw [same] at low ⊢
      exact abs_of_nonneg low
    · rw [same, Real.tanh_neg] at low ⊢
      rw [abs_of_nonpos] <;> linarith
  have ulp := abs_mul_le_ulp (Real.tanh q)
  rw [abs_tanh] at ulp
  refine ⟨q, z, h, ?_⟩
  rw [error, abs_tanh]
  generalize |(q : ℝ)| = x at small' low high ulp ⊢
  have nonneg : 0 ≤ x := by
    by_contra negative
    have := pow_pos (neg_pos.mpr (not_le.mp negative)) 3
    linarith [show (-x) ^ 3 = -(x ^ 3) by ring]
  have square : x ^ 2 ≤ 2 ^ (-24 : ℤ) := by
    calc x ^ 2 ≤ (1 / 4096) ^ 2 := by gcongr
      _ ≤ 2 ^ (-24 : ℤ) := by norm_num
  have cube : x ^ 3 ≤ x * 2 ^ (-24 : ℤ) := by
    rw [pow_succ']
    gcongr
  norm_num at *
  nlinarith

/-- From 9.5 on it is within 2 ulp of ±1. -/
theorem large_liesWithin_tanh {q : Rat} (large : 19 / 2 ≤ |q|) :
    LiesWithinTwoUlp (Fmt.f32.withSign (decide (q < 0)) 0x3F800000) (Real.tanh q) := by
  have large' := cast_le_abs large
  push_cast at large'
  have decoded := decode_f32 (decide (q < 0)) (show 0x3F800000 ≤ Fmt.f32.maxCode by decide)
  rw [show magnitude 0x3F800000 = 1 by norm_num [magnitude]] at decoded
  have power : (2 : ℝ) ^ 25 ≤ Real.exp (2 * |(q : ℝ)|) := by
    calc (2 : ℝ) ^ 25 ≤ (2.7182818283 : ℝ) ^ 19 := by norm_num
      _ ≤ Real.exp 1 ^ 19 := by gcongr; exact Real.exp_one_gt_d9.le
      _ = Real.exp 19 := by rw [← Real.exp_nat_mul]; norm_num
      _ ≤ Real.exp (2 * |(q : ℝ)|) := Real.exp_le_exp.mpr (by linarith)
  have below : 1 - Real.tanh |(q : ℝ)| ≤ 2 ^ (-24 : ℤ) := by
    rw [one_sub_tanh, div_le_iff₀ (by positivity)]
    norm_num at power ⊢
    linarith
  have error : |((signedBy (decide (q < 0)) 1 : Rat) : ℝ) - Real.tanh q| = 1 - Real.tanh |(q : ℝ)| := by
    have lt := Real.tanh_lt_one |(q : ℝ)|
    by_cases negative : q < 0
    · have negative' : (q : ℝ) < 0 := by exact_mod_cast negative
      rw [abs_of_neg negative', Real.tanh_neg] at lt ⊢
      rw [signedBy, if_pos (by simpa using negative)]
      push_cast
      rw [abs_of_nonpos] <;> linarith
    · have nonneg' : (0 : ℝ) ≤ q := by exact_mod_cast not_lt.mp negative
      rw [abs_of_nonneg nonneg'] at lt ⊢
      rw [signedBy, if_neg (by simpa using negative), Rat.cast_one]
      exact abs_of_nonneg (by linarith)
  have ulp := abs_mul_le_ulp (Real.tanh q)
  rw [abs_tanh] at ulp
  refine ⟨_, _, decoded, ?_⟩
  rw [error, abs_tanh]
  norm_num at *
  linarith

theorem real_decode_f32 {c : Nat} (finite : c ≤ Fmt.f32.maxCode) : (decodeFmt .f32 c).real = magnitude c := by
  rw [show c = Fmt.f32.withSign false c from rfl, decode_f32 false finite]
  rfl

theorem tanh_ge_of_ge {x : ℝ} (le : 1 / 4096 ≤ x) : (2 : ℝ) ^ (-13 : ℤ) ≤ Real.tanh x := by
  have cube := (sub_tanh_bounds (x := 1 / 4096) (by norm_num) le_rfl).2
  have mono := tanh_mono le
  norm_num at *
  linarith

theorem exists_tanhCut : ∀ j < 13, 1 ≤ j → ∃ x ∈ tanhCuts, x.1 = j := by decide

/-- Between the least exact value and 1, the computed tanh stays below every power of two that the exact one stays below. -/
theorem tanhMag_cell {b : Nat} {q : Rat} {z : Bool} (h : decodeFmt .f32 b = .num q z) (low : 1 / 4096 ≤ |q|) (high : |q| ≤ 19 / 2) {k : ℤ}
    (below : Real.tanh |(q : ℝ)| < 2 ^ k) : (tanhMag |q| : ℝ) < 2 ^ k := by
  have low' := cast_le_abs low
  push_cast at low'
  by_cases nonneg : 0 ≤ k
  · have one : (tanhMag |q| : ℝ) < 1 := by exact_mod_cast (tanhMag_bounds (abs_nonneg q)).2
    exact one.trans_le (one_le_zpow₀ one_le_two nonneg)
  · have least : (2 : ℝ) ^ (-13 : ℤ) ≤ Real.tanh |(q : ℝ)| := by
      have cube := (sub_tanh_bounds (x := 1 / 4096) (by norm_num) le_rfl).2
      have mono := tanh_mono low'
      norm_num at *
      linarith
    have near : -13 < k := (zpow_lt_zpow_iff_right₀ one_lt_two).mp (least.trans_lt below)
    obtain ⟨j, rfl⟩ : ∃ j : ℕ, k = -j := ⟨k.natAbs, by omega⟩
    obtain ⟨⟨i, c⟩, cut, same⟩ := exists_tanhCut j (by omega) (by omega)
    obtain rfl : i = j := same
    obtain ⟨top, left, right⟩ := tanhCuts_hold (i, c) cut
    dsimp only at top left right
    have finite : c + 1 ≤ Fmt.f32.maxCode := top.le.trans (by decide)
    rw [real_decode_f32 (Nat.le_of_succ_le finite), pow2_eq, pow2_eq, ← Rat.cast_lt (K := ℝ)] at left
    rw [real_decode_f32 finite, pow2_eq, pow2_eq, ← Rat.cast_le (K := ℝ)] at right
    have bound : magnitude (c + 1) ≤ 19 / 2 := by
      refine (magnitude_strictMono.monotone top.le).trans_eq ?_
      norm_num [magnitude]
    have upper := abs_le.mp (tanhMag_near (magnitude_nonneg (c + 1)) bound)
    have lt : |q| < magnitude (c + 1) := by
      by_contra above
      have mono := tanh_mono ((Rat.cast_le (K := ℝ)).mpr (not_lt.mp above))
      push_cast at right mono
      linarith
    have le := le_of_lt_magnitude h lt
    have lower := abs_le.mp (tanhMag_near (magnitude_nonneg c) ((magnitude_strictMono.monotone (Nat.le_succ c)).trans bound))
    have own := abs_le.mp (tanhMag_near (abs_nonneg q) high)
    have mono := tanh_mono ((Rat.cast_le (K := ℝ)).mpr le)
    push_cast at left mono own
    linarith

theorem tanhMag_ne_zero {q : Rat} (low : 1 / 4096 ≤ |q|) (high : |q| ≤ 19 / 2) : tanhMag |q| ≠ 0 := by
  intro zero
  have low' := cast_le_abs low
  push_cast at low'
  have least := tanh_ge_of_ge low'
  have near := (abs_le.mp (tanhMag_near (abs_nonneg q) high)).1
  rw [zero] at near
  push_cast at near
  norm_num at *
  linarith

theorem tanhOf_liesWithin {w : Word} {q : Rat} {z : Bool} (h : decodeFmt .f32 w.toNat = .num q z) :
    LiesWithinTwoUlp (tanhOf w) (Real.tanh q) := by
  rw [tanhOf_num h]
  split
  · next small => exact small_liesWithin_tanh h small
  · next apart =>
    split
    · next large => exact large_liesWithin_tanh large
    · next inside =>
      have low := not_lt.mp apart
      have high := (not_le.mp inside).le
      obtain ⟨nonneg, lt⟩ := tanhMag_bounds (abs_nonneg q)
      have value : |(tanhValue q : ℝ)| = tanhMag |q| := by
        have := abs_tanhValue q
        rw [abs_of_nonneg nonneg] at this
        exact_mod_cast congrArg (Rat.cast (K := ℝ)) this
      refine boundedResult_liesWithinTwoUlp (by rw [cast_fixErr]; exact tanhValue_near high) (le_magnitude_maxCode ?_) ?_ (fixErr_le_unit _) ?_
      · rw [abs_tanhValue, abs_of_nonneg nonneg]
        linarith
      · rw [← abs_ne_zero, abs_tanhValue, abs_of_nonneg nonneg]
        exact tanhMag_ne_zero low high
      · intro k below
        rw [abs_tanh] at below
        rw [value]
        exact tanhMag_cell h low high below

end Sys2Proof.Machine

namespace Sys2Proof

open Sys2Proof.Machine

/-- Settles O58, function by function. -/
theorem specialFunctionsMeetTheirBounds : Obligations.SpecialFunctionsMeetTheirBounds := by
  unfold Obligations.SpecialFunctionsMeetTheirBounds
  intro w q z decoded
  exact ⟨tanhOf_liesWithin decoded, ex2Of_liesWithin decoded, lg2Of_liesWithinTwoUlp decoded, lg2Of_liesWithin decoded, sinOf_liesWithin decoded,
    cosOf_liesWithin decoded⟩

end Sys2Proof

/-!
SUPPORT. Integer, bitwise, address and 64-bit words (R119 to R130).
-/
namespace Sys2Proof

/-! ### Bits of a number -/

theorem mod_two_pow_eq_sum (x n : Nat) : x % 2 ^ n = ∑ i ∈ Finset.range n, if x.testBit i then 2 ^ i else 0 := by
  induction n with
  | zero => simp [Nat.mod_one]
  | succ n ih =>
    rw [Finset.sum_range_succ, ← ih, Nat.mod_pow_succ, Nat.testBit_eq_decide_div_mod_eq]
    rcases Nat.mod_two_eq_zero_or_one (x / 2 ^ n) with low | low <;> simp [low]

theorem toNat_eq_sum {w : Nat} (x : BitVec w) : x.toNat = ∑ i ∈ Finset.range w, if x.getLsbD i then 2 ^ i else 0 :=
  (Nat.mod_eq_of_lt x.isLt).symm.trans (mod_two_pow_eq_sum x.toNat w)

/-- Powers added up for the indices that a condition selects. -/
theorem foldl_pow_eq_sum (p : Nat → Bool) (e : Nat → Nat) (n : Nat) :
    (List.range n).foldl (fun r i => if p i then r + 2 ^ e i else r) 0 = ∑ i ∈ Finset.range n, if p i then 2 ^ e i else 0 := by
  induction n with
  | zero => rfl
  | succ n ih =>
    rw [List.range_succ, List.foldl_append, ih, Finset.sum_range_succ]
    cases h : p n <;> simp [h]

/-! ### Leading zeros -/

theorem findIdx?_congr {α : Type} {p q : α → Bool} {xs : List α} (same : ∀ x ∈ xs, p x = q x) : xs.findIdx? p = xs.findIdx? q := by
  induction xs with
  | nil => rfl
  | cons x xs ih => rw [List.findIdx?_cons, List.findIdx?_cons, same x (by simp), ih fun y hy => same y (by simp [hy])]


theorem toNat_clzAuxRec {w : Nat} (x : BitVec w) {n : Nat} (lt : n < w) :
    (x.clzAuxRec n).toNat = (((List.range (n + 1)).reverse.findIdx? x.getLsbD).map (w - 1 - n + ·)).getD w := by
  have wide : w < 2 ^ w := Nat.lt_two_pow_self
  induction n with
  | zero =>
    rw [BitVec.clzAuxRec_zero]
    cases low : x.getLsbD 0
    · simp [List.findIdx?_cons, low, Nat.mod_eq_of_lt wide]
    · simp [List.findIdx?_cons, low, Nat.mod_eq_of_lt (show w - 1 < 2 ^ w by omega)]
  | succ n ih =>
    rw [BitVec.clzAuxRec_succ, List.range_succ, List.reverse_append, List.reverse_singleton, List.singleton_append, List.findIdx?_cons]
    cases top : x.getLsbD (n + 1)
    · rw [if_neg Bool.false_ne_true, if_neg Bool.false_ne_true, ih (by omega), Option.map_map]
      congr 2
      funext i
      simp only [Function.comp_apply]
      omega
    · rw [if_pos rfl, if_pos rfl, BitVec.toNat_ofNat, Nat.mod_eq_of_lt (by omega)]
      rfl

end Sys2Proof

namespace Sys2Proof.Machine

open Sys2Proof

/-! ### Exact integers and machine words -/

theorem wrap_eq (n : Nat) (y : Int) : wrap n y = (BitVec.ofInt n y).toNat := by
  rw [BitVec.toNat_ofInt]
  rfl

theorem satInt_eq (n : Nat) (unsig : Bool) (y : Int) : satInt n unsig y = clampTo n unsig y := by
  have positive : (0 : Int) < 2 ^ n := by positivity
  have positive' : (0 : Int) < 2 ^ (n - 1) := by positivity
  unfold satInt clampTo
  split_ifs <;> omega

theorem narrow_eq (n : Nat) (sat unsig : Bool) (y : Int) : narrow n sat unsig y = (narrowTo n sat unsig y).toNat := by
  rw [narrow, wrap_eq, satInt_eq]
  rfl

theorem unsigned_eq (p : Option Pfx) : unsigned p = unsignedSel p := by
  rw [unsignedSel, getLsbD_eq_bit, unsigned, auxOf, bit, bit]
  congr 1
  omega

theorem typed32_eq (g : Group) (p : Option Pfx) (x : Opnd) (l : Nat) : typed32 g p x l = valOf p (val32 g x l) := by
  unfold typed32 valOf
  rw [unsigned_eq]
  rfl

theorem opA_eq (g : Group) (p : Option Pfx) (a : Opnd) (l : Nat) : opA g p a l = signedA g p a l := by
  rw [opA, typed32_eq]
  rfl

theorem negB_eq (p : Option Pfx) : negB p = (pfxGet p).aux.getLsbD 7 := (getLsbD_eq_bit _ 7).symm

theorem opB_eq (g : Group) (p : Option Pfx) (b : Opnd) (l : Nat) : opB g p b l = signedB g p b l := by
  rw [opB, typed32_eq, negB_eq]
  rfl

theorem result32_eq (p : Option Pfx) (y : Int) : result32 p y = (sum32 p y).toNat := by
  rw [result32, narrow_eq, unsigned_eq]
  rfl

theorem ofInt_toInt_min (x y : Word) : wrap 32 (min x.toInt y.toInt) = (if x.slt y then x else y).toNat := by
  rw [wrap_eq, BitVec.slt]
  by_cases lt : x.toInt < y.toInt
  · rw [min_eq_left lt.le, if_pos (by simpa using lt), BitVec.ofInt_toInt]
  · rw [min_eq_right (not_lt.mp lt), if_neg (by simpa using lt), BitVec.ofInt_toInt]

theorem ofInt_toInt_max (x y : Word) : wrap 32 (max x.toInt y.toInt) = (if x.slt y then y else x).toNat := by
  rw [wrap_eq, BitVec.slt]
  by_cases lt : x.toInt < y.toInt
  · rw [max_eq_right lt.le, if_pos (by simpa using lt), BitVec.ofInt_toInt]
  · rw [max_eq_left (not_lt.mp lt), if_neg (by simpa using lt), BitVec.ofInt_toInt]

theorem toNat_min (x y : Word) : min x.toNat y.toNat = (if x.ult y then x else y).toNat := by
  rw [BitVec.ult]
  by_cases lt : x.toNat < y.toNat
  · rw [min_eq_left lt.le, if_pos (by simpa using lt)]
  · rw [min_eq_right (not_lt.mp lt), if_neg (by simpa using lt)]

theorem toNat_max (x y : Word) : max x.toNat y.toNat = (if x.ult y then y else x).toNat := by
  rw [BitVec.ult]
  by_cases lt : x.toNat < y.toNat
  · rw [max_eq_right lt.le, if_pos (by simpa using lt)]
  · rw [max_eq_left (not_lt.mp lt), if_neg (by simpa using lt)]

/-- The high halves of the products. -/
theorem imulh_eq (x y : Word) : wrap 32 (x.toInt * y.toInt / 4294967296) = ((x.signExtend 64 * y.signExtend 64).extractLsb' 32 32).toNat := by
  have product : x.signExtend 64 * y.signExtend 64 = BitVec.ofInt 64 (x.toInt * y.toInt) := (BitVec.ofInt_mul ..).symm
  rw [product, toNat_extractLsb', BitVec.toNat_ofInt, wrap, bits]
  generalize x.toInt * y.toInt = t
  push_cast
  omega

theorem imulhN_eq (x y : Word) : x.toNat * y.toNat / 4294967296 = ((x.setWidth 64 * y.setWidth 64).extractLsb' 32 32).toNat := by
  have small : x.toNat * y.toNat < 2 ^ 32 * 2 ^ 32 := Nat.mul_lt_mul'' x.isLt y.isLt
  have hx := x.isLt
  have hy := y.isLt
  rw [toNat_extractLsb', BitVec.toNat_mul, BitVec.toNat_setWidth, BitVec.toNat_setWidth, Nat.mod_eq_of_lt (show x.toNat < 2 ^ 64 by omega),
    Nat.mod_eq_of_lt (show y.toNat < 2 ^ 64 by omega), bits]
  generalize x.toNat * y.toNat = t at small ⊢
  omega

/-! ### Shifts and bit counts -/

theorem shiftLeft_eq {w : Nat} (x : BitVec w) (n : Nat) : shiftLeft w x.toNat n = (x <<< n).toNat := by
  rw [shiftLeft, BitVec.toNat_shiftLeft, Nat.shiftLeft_eq]
  split
  · next le =>
    obtain ⟨k, rfl⟩ := Nat.exists_eq_add_of_le le
    rw [pow_add, mul_left_comm, Nat.mul_mod_right]
  · rfl

theorem shiftRight_eq {w : Nat} (x : BitVec w) (n : Nat) : shiftRight w x.toNat n = (x >>> n).toNat := by
  rw [shiftRight, BitVec.toNat_ushiftRight, Nat.shiftRight_eq_div_pow]
  split
  · next le => exact (Nat.div_eq_of_lt (x.isLt.trans_le (Nat.pow_le_pow_right two_pos le))).symm
  · rfl

/-- A value shifted by its width or more leaves its sign alone. -/
theorem toInt_div_of_le {w : Nat} (x : BitVec w) {n : Nat} (le : w ≤ n) : x.toInt / 2 ^ n = if x.toInt < 0 then -1 else 0 := by
  have low := BitVec.le_two_mul_toInt (x := x)
  have high := BitVec.two_mul_toInt_lt (x := x)
  have power : (2 : Int) ^ w ≤ 2 ^ n := pow_le_pow_right₀ (by norm_num) le
  have positive : (0 : Int) < 2 ^ w := by positivity
  split
  · next negative => exact Int.ediv_eq_neg_one_of_neg_of_le negative (by omega)
  · next nonneg => exact Int.ediv_eq_zero_of_lt (by omega) (by omega)

theorem shiftArith_eq {w : Nat} (x : BitVec w) (n : Nat) : shiftArith w x.toNat n = (x.sshiftRight n).toNat := by
  rw [shiftArith, signed_toNat, wrap_eq, BitVec.sshiftRight_eq, Int.shiftRight_eq_div_pow]
  congr 2
  push_cast
  rcases Nat.le_total n w with le | le
  · rw [min_eq_left le]
  · rw [min_eq_right le, toInt_div_of_le x le_rfl, toInt_div_of_le x le]

theorem popCount_eq (x : Word) : popCount x.toNat = (BitVec.ofNat 32 ((List.range 32).countP fun i => x.getLsbD i)).toNat := by
  have small : (List.range 32).countP (fun i => x.getLsbD i) ≤ 32 := List.countP_le_length
  rw [BitVec.toNat_ofNat, Nat.mod_eq_of_lt (by omega), popCount, List.countP_eq_length_filter]
  simp only [getLsbD_eq_bit]

theorem leadingZeros_eq (x : Word) : leadingZeros x.toNat = x.clz.toNat := by
  have same : (bit x.toNat) = x.getLsbD := funext fun i => (getLsbD_eq_bit x i).symm
  rw [BitVec.clz, toNat_clzAuxRec x (by norm_num), leadingZeros, same]
  simp

theorem trailingZeros_eq (x : Word) : trailingZeros x.toNat = x.reverse.clz.toNat := by
  have mirrored : (List.range 32).reverse = (List.range 32).map (31 - ·) := by decide
  rw [← leadingZeros_eq, leadingZeros, mirrored, List.findIdx?_map, trailingZeros]
  congr 1
  refine findIdx?_congr fun i hi => ?_
  rw [List.mem_range] at hi
  rw [Function.comp_apply, ← getLsbD_eq_bit, ← getLsbD_eq_bit, BitVec.getLsbD_reverse, BitVec.getMsbD_eq_getLsbD]
  simp only [show 31 - i < 32 by omega, decide_true, Bool.true_and]
  congr 1
  omega

theorem reverseBits_eq (x : Word) : reverseBits x.toNat = x.reverse.toNat := by
  rw [reverseBits, foldl_pow_eq_sum (bit x.toNat) (fun i => 31 - i) 32, toNat_eq_sum x.reverse, ← Finset.sum_range_reflect]
  refine Finset.sum_congr rfl fun i hi => ?_
  rw [Finset.mem_range] at hi
  have place : 31 - (32 - 1 - i) = i := by omega
  have mirror : x.reverse.getLsbD i = x.getLsbD (32 - 1 - i) := by
    rw [BitVec.getLsbD_reverse, BitVec.getMsbD_eq_getLsbD]
    simp [hi]
  rw [mirror, place, getLsbD_eq_bit]


/-! ### Bit fields (R124) -/

theorem fieldPos_eq (b : Word) : fieldPos b.toNat = posOf b := (toNat_extractLsb' b 0 8).symm

theorem fieldLen_eq (b : Word) : fieldLen b.toNat = lenOf b := by
  unfold fieldLen lenOf
  rw [toNat_extractLsb']
  split <;> omega

theorem lenOf_le (b : Word) : lenOf b ≤ 32 := by
  unfold lenOf
  split <;> omega

theorem toNat_ones {n : Nat} (le : n ≤ 32) : (ones n).toNat = 2 ^ n - 1 := by
  have : 2 ^ n ≤ 2 ^ 32 := Nat.pow_le_pow_right two_pos le
  rw [ones, BitVec.toNat_ofNat]
  omega

theorem fieldOf_eq (a b : Word) : fieldOf a.toNat b.toNat = (a >>> posOf b).toNat % 2 ^ lenOf b := by
  rw [fieldOf, fieldPos_eq, fieldLen_eq, ← shiftRight_eq]
  rfl

theorem bfxN_eq (a b : Word) : fieldOf a.toNat b.toNat = ((a >>> posOf b) &&& ones (lenOf b)).toNat := by
  rw [fieldOf_eq, BitVec.toNat_and, toNat_ones (lenOf_le b), Nat.and_two_pow_sub_one_eq_mod]

theorem bfx_eq (a b : Word) : (if fieldLen b.toNat = 0 then 0 else wrap 32 (signed (fieldLen b.toNat) (fieldOf a.toNat b.toNat))) =
    (((a >>> posOf b).setWidth (lenOf b)).signExtend 32).toNat := by
  have field : signed (lenOf b) (fieldOf a.toNat b.toNat) = ((a >>> posOf b).setWidth (lenOf b)).toInt := by
    rw [fieldOf_eq, ← BitVec.toNat_setWidth, signed_toNat]
  rw [fieldLen_eq, field, wrap_eq]
  split
  · next zero =>
    rw [zero, BitVec.eq_nil ((a >>> posOf b).setWidth 0)]
    rfl
  · rfl

theorem bfi_eq (a b c : Word) : insertField a.toNat b.toNat c.toNat =
    (let m := ones (lenOf b) <<< posOf b
     (c &&& ~~~m) ||| (a <<< posOf b &&& m)).toNat := by
  have shifted : ∀ x : Word, x <<< posOf b = if 32 ≤ posOf b then 0 else BitVec.ofNat 32 (x.toNat * 2 ^ posOf b) := by
    intro x
    apply BitVec.eq_of_toNat_eq
    rw [← shiftLeft_eq, shiftLeft]
    split
    · rfl
    · rw [BitVec.toNat_ofNat]
  unfold insertField
  dsimp only
  rw [fieldPos_eq, fieldLen_eq, shifted (ones (lenOf b)), toNat_ones (lenOf_le b), BitVec.ofNat_toNat, BitVec.setWidth_eq]
  split
  · next far => simp
  · next near => rw [shifted a, if_neg near]

/-! ### LOGIC3 (R125) -/

theorem bits_one (x : Word) (i : Nat) : bits x.toNat i 1 = (x.getLsbD i).toNat := by
  rw [getLsbD_eq_bit, bits, bit, pow_one]
  rcases Nat.mod_two_eq_zero_or_one (x.toNat / 2 ^ i) with low | low <;> simp [low]

theorem getLsbD_minterm (table : BitVec 8) (k : Nat) (a b c : Word) {i : Nat} (hi : i < 32) : (minterm table k a b c).getLsbD i =
    (table.getLsbD k && (a.getLsbD i == k.testBit 2) && (b.getLsbD i == k.testBit 1) && (c.getLsbD i == k.testBit 0)) := by
  unfold minterm
  cases table.getLsbD k
  · simp
  · rw [if_pos rfl]
    cases k.testBit 2 <;> cases k.testBit 1 <;> cases k.testBit 0 <;> simp [hi]

theorem logic3_eq (table : BitVec 8) (a b c : Word) : logic3 table.toNat a.toNat b.toNat c.toNat =
    ((List.range 8).foldl (fun x k => x ||| minterm table k a b c) 0).toNat := by
  refine Eq.trans ?_ (toNat_eq_sum _).symm
  rw [logic3, foldl_pow_eq_sum (fun i => bit table.toNat (4 * bits a.toNat i 1 + 2 * bits b.toNat i 1 + bits c.toNat i 1)) (fun i => i) 32]
  refine Finset.sum_congr rfl fun i hi => ?_
  rw [Finset.mem_range] at hi
  congr 1
  rw [← getLsbD_eq_bit, bits_one, bits_one, bits_one]
  simp only [List.range, List.range.loop, List.foldl, BitVec.getLsbD_or, getLsbD_minterm _ _ _ _ _ hi]
  cases a.getLsbD i <;> cases b.getLsbD i <;> cases c.getLsbD i <;> simp [Nat.testBit]

/-! ### Addresses and 64-bit forms (R128, R129) -/

theorem typed64_eq (g : Group) (p : Option Pfx) (x : Opnd) (l : Nat) :
    (if unsigned p then (nat64 g x l : Int) else int64 g x l) = valOf64 p (val64 g x l) := by
  rw [unsigned_eq]
  rfl

theorem lea_eq (g : Group) (p : Option Pfx) (a b : Opnd) (l k : Nat) :
    wrap 64 (nat64 g a l + (if unsigned p then (nat32 g b l : Int) else int32 g b l) * k) =
      (val64 g a l + BitVec.ofInt 64 (k * valOf p (val32 g b l))).toNat := by
  have index : (if unsigned p then (nat32 g b l : Int) else int32 g b l) = valOf p (val32 g b l) := typed32_eq g p b l
  rw [index, wrap_eq, BitVec.ofInt_add, mul_comm, nat64, BitVec.ofInt_natCast, BitVec.ofNat_toNat, BitVec.setWidth_eq]

theorem aadd_eq (x : Dword) (y : Word) : x.toNat / 2 ^ 56 * 2 ^ 56 + wrap 56 (x.toNat % 2 ^ 56 + y.toInt) =
    (x.extractLsb' 56 8 ++ (x.setWidth 56 + y.signExtend 56)).toNat := by
  have sum : BitVec.ofInt 56 (x.toNat % 2 ^ 56 + y.toInt) = x.setWidth 56 + y.signExtend 56 := by
    rw [BitVec.ofInt_add]
    congr 1
    apply BitVec.eq_of_toNat_eq
    rw [BitVec.toNat_ofInt, BitVec.toNat_setWidth]
    omega
  have high := x.isLt
  rw [wrap_eq, sum, toNat_append_add, toNat_extractLsb', bits]
  omega

theorem shift64_eq (p : Option Pfx) (x : Dword) (c : Int) : shift64 (unsigned p) x.toNat c =
    (if 0 ≤ c then x <<< c.toNat else if unsignedSel p then x.sshiftRight (-c).toNat else x >>> (-c).toNat).toNat := by
  rw [shift64, unsigned_eq, shiftLeft_eq, shiftArith_eq, shiftRight_eq]
  split_ifs <;> rfl

/-! ### The words -/

/-- A row of 32-bit results runs where the word computes their numbers. -/
theorem row32_runs {i : Instr} {p : Option Pfx} {d : Opnd} {srcs : List (Opnd × Nat)} {res : Group → Nat → Word} {val : Group → Nat → Nat}
    (word : ∀ s, exec i s = pureOp s p d 1 srcs val) (same : ∀ g l, val g l = (res g l).toNat) : (row32 i p d srcs res).Runs :=
  laneRow_runs (.inl rfl) rfl word fun g l => by rw [same]; exact BitVec.ofNat_toNat ..

/-- The same for 64-bit results. -/
theorem row64_runs {i : Instr} {p : Option Pfx} {d : Opnd} {srcs : List (Opnd × Nat)} {res : Group → Nat → Dword} {val : Group → Nat → Nat}
    (word : ∀ s, exec i s = pureOp s p d 2 srcs val) (same : ∀ g l, val g l = (res g l).toNat) : (row64 i p d srcs res).Runs :=
  laneRow_runs (.inr rfl) rfl word fun g l => by rw [same]; exact (BitVec.ofNat_toNat ..).trans (BitVec.setWidth_eq _)

section
variable {i : Instr} {p : Option Pfx} {d a b : Opnd}

/-- The shapes of the words: over two registers, over one, bitwise, with an immediate, an address, a 64-bit sum. -/
theorem binary32_runs {res : Group → Nat → Word} {val : Group → Nat → Nat} (word : ∀ s, exec i s = binary32 s p d a b val)
    (same : ∀ g l, val g l = (res g l).toNat) : (row32 i p d [(a, 1), (b, 1)] res).Runs := row32_runs word same

theorem unary32_runs {res : Group → Nat → Word} {f : Nat → Nat} (word : ∀ s, exec i s = unary32 s p d a f)
    (same : ∀ g l, f (val32 g a l).toNat = (res g l).toNat) : (row32 i p d [(a, 1)] res).Runs := row32_runs word same

theorem logic32_runs {res : Group → Nat → Word} {f : Word → Word → Word} (word : ∀ s, exec i s = logic32 s p d a b f)
    (same : ∀ g l, f (val32 g a l) (val32 g b l) = res g l) : (row32 i p d [(a, 1), (b, 1)] res).Runs :=
  binary32_runs word fun g l => congrArg BitVec.toNat (same g l)

theorem logicImm_runs {res : Group → Nat → Word} {f : Word → Word → Word} {x : Word} (word : ∀ s, exec i s = logicImm s p d a x f)
    (same : ∀ g l, f (val32 g a l) x = res g l) : (row32 i p d [(a, 1)] res).Runs :=
  row32_runs word fun g l => congrArg BitVec.toNat (same g l)

theorem leaOp_runs {res : Group → Nat → Dword} {k : Nat} (word : ∀ s, exec i s = leaOp s p d a b k)
    (same : ∀ g l, val64 g a l + BitVec.ofInt 64 (k * valOf p (val32 g b l)) = res g l) : (row64 i p d [(a, 2), (b, 1)] res).Runs :=
  row64_runs word fun g l => (lea_eq g p a b l k).trans (congrArg BitVec.toNat (same g l))

theorem sum64_runs {res : Group → Nat → Dword} {f : Int → Int → Int} (word : ∀ s, exec i s = sum64 s p d a b f)
    (same : ∀ g l, narrowTo 64 (pfxGet p).sat (unsignedSel p) (f (valOf64 p (val64 g a l)) (valOf64 p (val64 g b l))) = res g l) :
    (row64 i p d [(a, 2), (b, 2)] res).Runs := by
  refine row64_runs word fun g l => ?_
  dsimp only
  rw [typed64_eq, typed64_eq, narrow_eq, unsigned_eq]
  exact congrArg BitVec.toNat (same g l)

end

theorem arithRows_run (p : Option Pfx) (d a b : Opnd) (i : Byte) (x : Word) : ∀ r ∈ arithRows p d a b i x, r.Runs := by
  simp only [arithRows, List.forall_mem_cons, List.not_mem_nil, false_imp_iff, implies_true, and_true]
  refine ⟨binary32_runs (fun s => Eq.refl (execIadd p d a b s)) fun g l => ?_,
    binary32_runs (fun s => Eq.refl (execIsub p d a b s)) fun g l => ?_,
    binary32_runs (fun s => Eq.refl (execImul p d a b s)) fun g l => ?_,
    row32_runs (fun s => Eq.refl (execImad p d a b s)) fun g l => ?_,
    binary32_runs (fun s => Eq.refl (execImin p d a b s)) fun g l => ofInt_toInt_min ..,
    binary32_runs (fun s => Eq.refl (execImax p d a b s)) fun g l => ofInt_toInt_max ..,
    binary32_runs (fun s => Eq.refl (execIminN p d a b s)) fun g l => toNat_min ..,
    binary32_runs (fun s => Eq.refl (execImaxN p d a b s)) fun g l => toNat_max ..,
    unary32_runs (fun s => Eq.refl (execIabs p d a s)) fun g l => ?_,
    unary32_runs (fun s => Eq.refl (execIneg p d a s)) fun g l => ?_,
    binary32_runs (fun s => Eq.refl (execImulh p d a b s)) fun g l => imulh_eq ..,
    binary32_runs (fun s => Eq.refl (execImulhN p d a b s)) fun g l => imulhN_eq ..,
    row32_runs (fun s => Eq.refl (execIaddi p d a i s)) fun g l => ?_,
    row32_runs (fun s => Eq.refl (execMovl p d x s)) fun g l => rfl,
    logicImm_runs (fun s => Eq.refl (execAddl p d a x s)) fun g l => rfl⟩
  · rw [result32_eq, opA_eq, opB_eq]
  · rw [result32_eq, opA_eq, opB_eq]
  · rw [result32_eq, opA_eq, opB_eq]
  · rw [result32_eq, opA_eq, opB_eq, typed32_eq]
  · rw [narrow_eq, signed_toNat]
    rfl
  · rw [narrow_eq, signed_toNat]
    rfl
  · rw [result32_eq, typed32_eq, unsigned_eq]
    rfl

theorem bitsRows_run (p : Option Pfx) (d a b : Opnd) (i : Byte) (x : Word) : ∀ r ∈ bitsRows p d a b i x, r.Runs := by
  simp only [bitsRows, List.forall_mem_cons, List.not_mem_nil, false_imp_iff, implies_true, and_true]
  exact ⟨logic32_runs (fun s => Eq.refl (execAnd p d a b s)) fun g l => rfl,
    logic32_runs (fun s => Eq.refl (execOr p d a b s)) fun g l => rfl,
    logic32_runs (fun s => Eq.refl (execXor p d a b s)) fun g l => rfl,
    logic32_runs (fun s => Eq.refl (execAndn p d a b s)) fun g l => rfl,
    logicImm_runs (fun s => Eq.refl (execAndi p d a i s)) fun g l => rfl,
    logicImm_runs (fun s => Eq.refl (execOri p d a i s)) fun g l => rfl,
    logicImm_runs (fun s => Eq.refl (execXori p d a i s)) fun g l => rfl,
    logicImm_runs (fun s => Eq.refl (execAndl p d a x s)) fun g l => rfl,
    binary32_runs (fun s => Eq.refl (execShl p d a b s)) fun g l => shiftLeft_eq ..,
    binary32_runs (fun s => Eq.refl (execShr p d a b s)) fun g l => shiftRight_eq ..,
    binary32_runs (fun s => Eq.refl (execSha p d a b s)) fun g l => shiftArith_eq ..,
    binary32_runs (fun s => Eq.refl (execRol p d a b s)) fun g l => congrArg BitVec.toNat BitVec.rotateLeft_mod_eq_rotateLeft,
    unary32_runs (fun s => Eq.refl (execPopc p d a s)) fun g l => popCount_eq _,
    unary32_runs (fun s => Eq.refl (execClz p d a s)) fun g l => leadingZeros_eq _,
    unary32_runs (fun s => Eq.refl (execCtz p d a s)) fun g l => trailingZeros_eq _,
    unary32_runs (fun s => Eq.refl (execBrev p d a s)) fun g l => reverseBits_eq _,
    binary32_runs (fun s => Eq.refl (execBfxN p d a b s)) fun g l => bfxN_eq ..,
    binary32_runs (fun s => Eq.refl (execBfx p d a b s)) fun g l => bfx_eq ..,
    row32_runs (fun s => Eq.refl (execBfi p d a b s)) fun g l => bfi_eq ..,
    row32_runs (fun s => Eq.refl (execLogic3 p d a b s)) fun g l => logic3_eq ..⟩

theorem wideRows_run (p : Option Pfx) (d a b : Opnd) : ∀ r ∈ wideRows p d a b, r.Runs := by
  simp only [wideRows, List.forall_mem_cons, List.not_mem_nil, false_imp_iff, implies_true, and_true]
  exact ⟨leaOp_runs (fun s => Eq.refl (execLea1 p d a b s)) fun g l => by rw [Nat.cast_one, one_mul],
    leaOp_runs (fun s => Eq.refl (execLea4 p d a b s)) fun g l => rfl,
    leaOp_runs (fun s => Eq.refl (execLea16 p d a b s)) fun g l => rfl,
    row64_runs (fun s => Eq.refl (execAadd p d a b s)) fun g l => aadd_eq ..,
    sum64_runs (fun s => Eq.refl (execIadd64 p d a b s)) fun g l => rfl,
    sum64_runs (fun s => Eq.refl (execIsub64 p d a b s)) fun g l => rfl,
    row64_runs (fun s => Eq.refl (execImul64 p d a b s)) fun g l => (BitVec.toNat_mul ..).symm,
    row64_runs (fun s => Eq.refl (execShl64 p d a b s)) fun g l => shift64_eq p (val64 g a l) (val32 g b l).toInt⟩

end Sys2Proof.Machine

namespace Sys2Proof

open Sys2Proof.Machine

/-- Settles O1, table by table: each word computes the number that its row's machine word stands for. -/
theorem integerWordsGiveTheirResults : Obligations.IntegerWordsGiveTheirResults := by
  unfold Obligations.IntegerWordsGiveTheirResults
  exact ⟨arithRows_run, bitsRows_run, wideRows_run⟩

end Sys2Proof

/-!
SUPPORT. The patterns a value rounds to, rows with a draw, and the FP32 words (R92, R132, R133, R135, R136).
-/
namespace Sys2Proof.Machine

open Sys2Proof

/-! ### Patterns fit their formats -/

theorem Fmt.maxCode_lt (f : Fmt) : f.maxCode < f.signBit ∧ (f.hasInf = true → f.maxCode + 1 < f.signBit) := by cases f <;> decide

theorem Fmt.nanCode_lt (f : Fmt) : f.nanCode < 2 ^ f.bits := by cases f <;> decide

theorem Fmt.two_signBit (f : Fmt) : 2 * f.signBit = 2 ^ f.bits := by cases f <;> rfl

theorem Fmt.withSign_lt (f : Fmt) (neg : Bool) {c : Nat} (lt : c < f.signBit) : f.withSign neg c < 2 ^ f.bits := by
  have double := f.two_signBit
  unfold Fmt.withSign
  split <;> omega

theorem wrap_lt (n : Nat) (y : Int) : wrap n y < 2 ^ n := by
  rw [wrap_eq]
  exact (BitVec.ofInt n y).isLt

theorem ite_lt {c : Prop} [Decidable c] {x y n : Nat} (yes : x < n) (no : ¬ c → y < n) : (if c then x else y) < n := by
  split
  · exact yes
  · next other => exact no other

/-- What a value rounds to has the bits of the format. -/
theorem roundFmt_lt (f : Fmt) (sat : Bool) (rm : Round) (draw : Nat) (x : Exact) : roundFmt f sat rm draw x < 2 ^ f.bits := by
  obtain ⟨finite, inf⟩ := f.maxCode_lt
  have code : ∀ neg c, ¬ f.maxCode < c → f.withSign neg c < 2 ^ f.bits := fun neg c le => f.withSign_lt neg ((not_lt.mp le).trans_lt finite)
  have past : ∀ neg toMax, (if (sat || toMax || f == .e2m1) = true then f.withSign neg f.maxCode
      else if f.hasInf = true then f.withSign neg (f.maxCode + 1) else f.nanCode) < 2 ^ f.bits := by
    intro neg toMax
    split
    · exact code neg _ (lt_irrefl _)
    · split
      · next has => exact f.withSign_lt neg (inf has)
      · exact f.nanCode_lt
  unfold roundFmt
  dsimp only
  split
  · exact f.nanCode_lt
  · split <;> decide
  · exact wrap_lt 4 _
  · split <;> decide
  · exact wrap_lt 8 _
  · split <;> decide
  · exact wrap_lt 32 _
  · exact past _ _
  · exact ite_lt (code _ _ (Nat.not_lt_zero _)) fun _ => ite_lt (past _ _) fun _ => ite_lt (past _ _) fun within => code _ _ within

theorem pickFloat_lt {f : Fmt} (max : Bool) {a b n : Nat} (ha : a < n) (hb : b < n) (hn : f.nanCode < n) : pickFloat f max a b < n := by
  unfold pickFloat
  dsimp only
  split_ifs <;> assumption

/-! ### Signs -/

/-- A bit above a number reversed. -/
theorem xor_two_pow {l w : Nat} (h : Nat) (lt : l < 2 ^ w) : (2 ^ w * h + l) ^^^ 2 ^ w = 2 ^ w * (h ^^^ 1) + l := by
  have power : ∀ i, (2 ^ w).testBit i = if i < w then false else (1 : Nat).testBit (i - w) := by
    intro i
    simpa using Nat.testBit_two_pow_mul_add 1 (show 0 < 2 ^ w by positivity) i
  apply Nat.eq_of_testBit_eq
  intro i
  rw [Nat.testBit_xor, Nat.testBit_two_pow_mul_add h lt, Nat.testBit_two_pow_mul_add (h ^^^ 1) lt, power]
  split
  · rw [Bool.xor_false]
  · rw [Nat.testBit_xor]

/-- The sign bit of a pattern reversed, as FMIN and its like compute it. -/
theorem toNat_xor_sign {w : Nat} (x : BitVec (w + 1)) :
    (x ^^^ BitVec.twoPow (w + 1) w).toNat = if bit x.toNat w then x.toNat - 2 ^ w else x.toNat + 2 ^ w := by
  have lt := x.isLt
  have split := Nat.div_add_mod x.toNat (2 ^ w)
  have small : x.toNat / 2 ^ w < 2 := Nat.div_lt_of_lt_mul (by rwa [pow_succ] at lt)
  have low := Nat.mod_lt x.toNat (show 0 < 2 ^ w by positivity)
  have reversed := xor_two_pow (x.toNat / 2 ^ w) low
  rw [split] at reversed
  rw [BitVec.toNat_xor, BitVec.toNat_twoPow, Nat.mod_eq_of_lt (Nat.pow_lt_pow_right one_lt_two (Nat.lt_succ_self w)), reversed, bit]
  generalize x.toNat / 2 ^ w = h at *
  interval_cases h
  · simp at split ⊢
    omega
  · simp at split ⊢
    omega

theorem flipSign_f32 (neg : Bool) (x : Word) : flipSign .f32 neg x.toNat = (signFlip neg x).toNat := by
  unfold flipSign signFlip
  change (if neg = true then if bit (x.toNat % 2 ^ 32) 31 = true then x.toNat % 2 ^ 32 - 2 ^ 31 else x.toNat % 2 ^ 32 + 2 ^ 31
    else x.toNat % 2 ^ 32) = _
  rw [Nat.mod_eq_of_lt x.isLt]
  cases neg
  · rfl
  · exact (toNat_xor_sign x).symm

/-- Half a register with the sign of its format reversed. -/
theorem flipSign_half {f : Fmt} (half : f.bits = 16) (neg : Bool) (x : BitVec 16) :
    flipSign f neg x.toNat = (x ^^^ if neg then 0x8000 else 0).toNat := by
  unfold flipSign Fmt.signBit
  rw [half, Nat.mod_eq_of_lt x.isLt]
  cases neg
  · simp
  · exact (toNat_xor_sign x).symm


/-! ### Sums and classes -/

/-- The exact sum of two terms. -/
theorem sumExact_pair (rdn : Bool) (x y : Exact) : sumExact rdn [x, y] = addExact rdn x y := by
  cases x with
  | nan => rfl
  | inf a =>
    cases y with
    | nan => simp [sumExact, addExact, Exact.isNan]
    | inf b => cases a <;> cases b <;> rfl
    | num q w => cases a <;> rfl
  | num p z =>
    cases y with
    | nan => simp [sumExact, addExact, Exact.isNan]
    | inf b => cases b <;> rfl
    | num q w =>
      have both : (Exact.num p z == .inf false) = false ∧ (Exact.num p z == .inf true) = false ∧ (Exact.num q w == .inf false) = false ∧
          (Exact.num q w == .inf true) = false := by simp
      obtain ⟨h1, h2, h3, h4⟩ := both
      simp only [sumExact, addExact, List.any_cons, List.any_nil, Exact.isNan, Exact.isInf, h1, h2, h3, h4, Bool.or_false, Bool.and_false,
        Bool.false_eq_true, if_false, List.foldl_cons, List.foldl_nil, Exact.real, zero_add, List.all_cons, List.all_nil, Bool.and_true]
      by_cases sum : p + q ≠ 0
      · rw [if_pos sum, if_pos sum]
      · rw [if_neg sum, if_neg sum]
        by_cases zero : p = 0
        · obtain rfl : q = 0 := by simpa [zero] using sum
          subst zero
          cases z <;> cases w <;> simp [Exact.isZero, Exact.isNeg]
        · simp [Exact.isZero, zero]

/-- The class of a code (R135): the exponent and the mantissa tell what the value does. -/
theorem classBit_eq (x : Word) : classBit x.toNat = classOf x := by
  obtain ⟨neg, c, small, code⟩ := exists_code x.isLt
  have value : x.toNat = neg.toNat * 2 ^ 31 + c := by
    rw [code]
    cases neg
    · change c = 0 * 2 ^ 31 + c
      omega
    · change 2 ^ 31 + c = 1 * 2 ^ 31 + c
      omega
  have sign : bit x.toNat 31 = neg := by
    apply bit_of_toNat
    rw [value]
    have := neg.toNat_le
    omega
  have exponent : bits x.toNat 23 8 = c / 2 ^ 23 := by
    rw [value, bits]
    omega
  have mantissa : bits x.toNat 0 23 = c % 2 ^ 23 := by
    rw [value, bits]
    omega
  have max : Fmt.f32.maxCode = 0x7F7FFFFF := rfl
  unfold classBit classOf
  dsimp only
  rw [sign, exponent, mantissa, code, decode_f32_code neg small, max]
  by_cases beyond : 0x7F7FFFFF < c
  · rw [if_pos beyond, if_pos (show c / 2 ^ 23 = 255 by omega)]
    by_cases inf : c = 0x7F7FFFFF + 1
    · rw [if_pos inf, if_neg (show ¬ c % 2 ^ 23 ≠ 0 by omega)]
    · rw [if_neg inf, if_pos (show c % 2 ^ 23 ≠ 0 by omega)]
  · rw [if_neg beyond, if_neg (show c / 2 ^ 23 ≠ 255 by omega)]
    have zero : signedBy neg (magnitude c) = 0 ↔ c = 0 := by
      rw [← abs_eq_zero, abs_signedBy, abs_eq_zero, ← magnitude_zero, magnitude_strictMono.injective.eq_iff]
    have least : ratAbs (signedBy neg (magnitude c)) < 1 / 2 ^ 126 ↔ c < 2 ^ 23 := by
      have normal : magnitude (2 ^ 23) = 1 / 2 ^ 126 := by norm_num [magnitude]
      rw [ratAbs_eq, abs_signedBy, abs_of_nonneg (magnitude_nonneg c), ← normal, magnitude_strictMono.lt_iff_lt]
    have negative : c ≠ 0 → (signedBy neg (magnitude c) < 0 ↔ neg = true) := by
      intro nonzero
      have pos : 0 < magnitude c := by
        rw [← magnitude_zero]
        exact magnitude_strictMono (Nat.pos_of_ne_zero nonzero)
      cases neg <;> simp [signedBy, pos, pos.le]
    simp only [zero, least]
    by_cases none : c = 0
    · subst none
      rfl
    · simp only [negative none, if_neg none]
      by_cases sub : c < 2 ^ 23
      · rw [if_pos (show c / 2 ^ 23 = 0 by omega), if_neg (show c % 2 ^ 23 ≠ 0 by omega), if_pos sub]
      · rw [if_neg (show c / 2 ^ 23 ≠ 0 by omega), if_neg sub]

theorem classOf_lt (x : Word) : classOf x < 32 := by
  rw [← classBit_eq]
  unfold classBit
  dsimp only
  split_ifs <;> decide

/-! ### Rows with a draw -/

theorem drawRng_snd (rm : Round) (x : Word) : (drawRng rm x).2 = if rm = .rsr then nextRng x else x := by
  unfold drawRng
  split <;> rfl

/-- A row runs where the word computes what the row says and moves the generator as it says. -/
theorem laneRow_draws {r : LaneRow} (hn : r.n = 1 ∨ r.n = 2) {val : Group → Nat → Word → Dword × Word}
    (word : ∀ s, exec r.i s = laneOp s r.p r.d r.n r.srcs val) (value : ∀ g l, (val g l (rngOf g l)).1 = r.val g l)
    (moves : ∀ g l x, (val g l x).2 = r.adv g l x) : r.Runs := by
  intro s u h ok
  obtain ⟨g', runs, writes, draws, only⟩ := laneOp_runs (p := r.p) h hn ok val
  exact ⟨g', (word s).trans runs, by simpa only [value] using writes, by simpa only [moves] using draws, only⟩

section
variable {i : Instr} {p : Option Pfx} {d a b : Opnd} {srcs : List (Opnd × Nat)}

theorem rowRound_runs {val exact : Group → Nat → Exact} (word : ∀ s, exec i s = roundOp s p d srcs val) (same : ∀ g l, val g l = exact g l) :
    (rowRound i p d srcs exact).Runs :=
  laneRow_draws (.inl rfl) word (fun g l => by rw [same]; rfl) fun g l x => drawRng_snd ..

theorem rowRoot_runs {named named' : Exact → Bool} {f f' : Exact → Exact} (word : ∀ s, exec i s = rootOp s p d a named f)
    (sameNamed : ∀ x, named x = named' x) (same : ∀ x, f x = f' x) : (rowRoot i p d a named' f').Runs := by
  refine laneRow_draws (.inl rfl) word (fun g l => ?_) fun g l x => ?_
  · dsimp only [rowRoot]
    rw [sameNamed, same]
    split <;> rfl
  · dsimp only [rowRoot]
    rw [sameNamed]
    cases named' (fltA g p a l)
    · simp [drawRng_snd]
    · simp

theorem specialOp_runs {f : Word → Nat} (word : ∀ s, exec i s = specialOp s p d a f) (small : ∀ w, f w < 2 ^ 32) :
    (row32 i p d [(a, 1)] fun g l => BitVec.ofNat 32 (f (flipped g p a l))).Runs := by
  refine row32_runs word fun g l => ?_
  rw [nat32, flipSign_f32, BitVec.ofNat_toNat, BitVec.setWidth_eq, BitVec.toNat_ofNat, Nat.mod_eq_of_lt (small _)]
  rfl

end

/-! ### FP32 words (R132, R133, R135, R136) -/

theorem signOp_abs (x : Word) : signOp (fun y => y % 2 ^ 31) x.toNat = (if (decodeFmt .f32 x.toNat).isNan then 0x7FC00000 else x &&& 0x7FFFFFFF).toNat := by
  unfold signOp
  split
  · rfl
  · exact (Nat.and_two_pow_sub_one_eq_mod x.toNat 31).symm

theorem signOp_neg (x : Word) : signOp (flipSign .f32 true) x.toNat = (if (decodeFmt .f32 x.toNat).isNan then 0x7FC00000 else x ^^^ 0x80000000).toNat := by
  unfold signOp
  split
  · rfl
  · exact flipSign_f32 true x

theorem toNat_pickFloat (max : Bool) (x y : Word) :
    pickFloat .f32 max x.toNat y.toNat = (BitVec.ofNat 32 (pickFloat .f32 max x.toNat y.toNat)).toNat := by
  rw [BitVec.toNat_ofNat, Nat.mod_eq_of_lt (pickFloat_lt max x.isLt y.isLt (by decide))]

theorem two_pow_classBit (x : Word) : 2 ^ classBit x.toNat = ((1 : Word) <<< classOf x).toNat := by
  have small : 2 ^ classOf x < 2 ^ 32 := Nat.pow_lt_pow_right one_lt_two (classOf_lt x)
  rw [classBit_eq, BitVec.toNat_shiftLeft, Nat.shiftLeft_eq, show (1 : Word).toNat = 1 from rfl, one_mul, Nat.mod_eq_of_lt small]

/-- A number's pattern is its sign and the magnitude's code, an infinity's its sign and the code above the numbers. -/
theorem sign_of_decode {x : Word} {q : Rat} {z : Bool} (h : decodeFmt .f32 x.toNat = .num q z) :
    BitVec.ofNat 64 (x.toNat / 2 ^ 31 * 2 ^ 31) = if z then 0x80000000 else 0 := by
  obtain ⟨c, finite, -, code⟩ := decode_f32_num h
  have small : c ≤ 0x7F7FFFFF := finite
  rw [Nat.mod_eq_of_lt x.isLt] at code
  rw [code]
  cases z
  · change BitVec.ofNat 64 (c / 2 ^ 31 * 2 ^ 31) = 0
    rw [Nat.div_eq_of_lt (by omega)]
    rfl
  · change BitVec.ofNat 64 ((2 ^ 31 + c) / 2 ^ 31 * 2 ^ 31) = 0x80000000
    rw [show (2 ^ 31 + c) / 2 ^ 31 = 1 by omega]
    rfl

theorem pattern_of_inf {x : Word} {n : Bool} (h : decodeFmt .f32 x.toNat = .inf n) :
    BitVec.ofNat 64 x.toNat = if n then 0xFF800000 else 0x7F800000 := by
  obtain ⟨neg, c, small, code⟩ := exists_code x.isLt
  rw [code, decode_f32_code neg small] at h
  split at h
  · split at h
    · next inf =>
      cases h
      rw [code, inf]
      cases n <;> rfl
    · cases h
  · cases h

/-- An integer is returned whatever the draw. -/
theorem roundInt_draw (rm : Round) (q : Rat) (r s : Nat × Word) : roundInt rm (if (q.floor : Rat) = q then r else s).1 q = roundInt rm s.1 q := by
  split
  · next whole => simp only [roundInt, if_pos whole]
  · rfl

theorem floatRows_run (p : Option Pfx) (d a b : Opnd) : ∀ r ∈ floatRows p d a b, r.Runs := by
  simp only [floatRows, List.forall_mem_cons, List.not_mem_nil, false_imp_iff, implies_true, and_true]
  refine ⟨rowRound_runs (fun s => Eq.refl (execFadd p d a b s)) fun g l => sumExact_pair ..,
    rowRound_runs (fun s => Eq.refl (execFsub p d a b s)) fun g l => sumExact_pair ..,
    rowRound_runs (fun s => Eq.refl (execFmul p d a b s)) fun g l => rfl,
    rowRound_runs (fun s => Eq.refl (execFma p d a b s)) fun g l => sumExact_pair ..,
    row32_runs (fun s => Eq.refl (execFmin p d a b s)) fun g l => ?_,
    row32_runs (fun s => Eq.refl (execFmax p d a b s)) fun g l => ?_,
    row32_runs (fun s => Eq.refl (execFabs p d a s)) fun g l => signOp_abs _,
    row32_runs (fun s => Eq.refl (execFneg p d a s)) fun g l => signOp_neg _,
    row32_runs (fun s => Eq.refl (execFclass p d a s)) fun g l => two_pow_classBit _,
    laneRow_draws (.inl rfl) (fun s => Eq.refl (execFrnd p d a s)) (fun g l => ?_) fun g l x => ?_,
    laneRow_draws (.inl rfl) (fun s => Eq.refl (execFfrac p d a s)) (fun g l => ?_) fun g l x => ?_⟩
  · rw [nat32, nat32, flipSign_f32, flipSign_f32]
    exact toNat_pickFloat ..
  · rw [nat32, nat32, flipSign_f32, flipSign_f32]
    exact toNat_pickFloat ..
  · cases h : decodeFmt .f32 (nat32 g a l) with
    | nan => simp only [float32, h]
    | inf n =>
      simp only [float32, h]
      exact pattern_of_inf (x := val32 g a l) h
    | num q z =>
      simp only [float32, h, roundInt_draw]
      rw [apply_ite (BitVec.ofNat 64), nat32, sign_of_decode (x := val32 g a l) h]
      rfl
  · cases h : decodeFmt .f32 (nat32 g a l) with
    | nan => simp only [float32, h]
    | inf n => simp only [float32, h]
    | num q z =>
      simp only [float32, h]
      split
      · next whole => simp [whole]
      · next part => simp [part, drawRng_snd]
  · dsimp only
    cases float32 g a l with
    | nan => rfl
    | inf n => rfl
    | num q z =>
      simp only [Bool.and_eq_true, decide_eq_true_eq]
      split <;> rfl
  · dsimp only
    cases float32 g a l with
    | nan => rfl
    | inf n => rfl
    | num q z =>
      by_cases zero : q = 0
      · cases z <;> simp [zero, drawRng_snd]
      · simp [zero, drawRng_snd]

end Sys2Proof.Machine

/-!
SUPPORT. The special functions' rows and the results that R137 names.
-/
namespace Sys2Proof.Machine

open Sys2Proof

/-! ### Special functions (R137) -/

theorem boundedResult_lt (x : Word) (y err bound most : Rat) : boundedResult x y err bound most < 2 ^ 32 :=
  ite_lt x.isLt fun _ => roundFmt_lt .f32 ..

theorem rsqOf_lt (w : Word) : rsqOf w < 2 ^ 32 := by
  unfold rsqOf
  split
  · decide
  · split <;> decide
  · refine ite_lt (ite_lt (by decide) fun _ => by decide) fun _ => ite_lt (by decide) fun _ => ?_
    exact ite_lt (roundFmt_lt .f32 ..) fun _ => roundFmt_lt .f32 ..

theorem tanhOf_lt (w : Word) : tanhOf w < 2 ^ 32 := by
  unfold tanhOf
  split
  · decide
  · exact Fmt.f32.withSign_lt _ (by decide)
  · exact ite_lt w.isLt fun _ => ite_lt (Fmt.f32.withSign_lt _ (by decide)) fun _ => boundedResult_lt ..

theorem ex2Of_lt (w : Word) : ex2Of w < 2 ^ 32 := by
  unfold ex2Of
  split
  · decide
  · split <;> decide
  · exact ite_lt (by decide) fun _ => ite_lt (by decide) fun _ => ite_lt (roundFmt_lt .f32 ..) fun _ => boundedResult_lt ..

theorem lg2Of_lt (w : Word) : lg2Of w < 2 ^ 32 := by
  unfold lg2Of
  split
  · decide
  · split <;> decide
  · exact ite_lt (by decide) fun _ => ite_lt (by decide) fun _ => ite_lt (roundFmt_lt .f32 ..) fun _ => boundedResult_lt ..

theorem sinOf_lt (w : Word) : sinOf w < 2 ^ 32 := by
  unfold sinOf
  split
  · exact ite_lt w.isLt fun _ => boundedResult_lt ..
  · decide

theorem cosOf_lt (w : Word) : cosOf w < 2 ^ 32 := by
  unfold cosOf
  split
  · exact ite_lt (by decide) fun _ => boundedResult_lt ..
  · decide

theorem specialRows_run (p : Option Pfx) (d a : Opnd) : ∀ r ∈ specialRows p d a, r.Runs := by
  simp only [specialRows, List.forall_mem_cons, List.not_mem_nil, false_imp_iff, implies_true, and_true]
  refine ⟨rowRoot_runs (fun s => Eq.refl (execRcp p d a s)) (fun x => ?_) fun x => rfl,
    rowRoot_runs (fun s => Eq.refl (execSqrt p d a s)) (fun x => ?_) fun x => rfl,
    specialOp_runs (fun s => Eq.refl (execRsq p d a s)) rsqOf_lt,
    specialOp_runs (fun s => Eq.refl (execTanh p d a s)) tanhOf_lt,
    specialOp_runs (fun s => Eq.refl (execEx2 p d a s)) ex2Of_lt,
    specialOp_runs (fun s => Eq.refl (execLg2 p d a s)) lg2Of_lt,
    specialOp_runs (fun s => Eq.refl (execSin p d a s)) sinOf_lt,
    specialOp_runs (fun s => Eq.refl (execCos p d a s)) cosOf_lt⟩
  · cases x <;> simp [Exact.isNan, Exact.isInf, Exact.isZero]
  · cases x with
    | nan => rfl
    | inf n => rfl
    | num q z =>
      by_cases negative : q < 0
      · simp [Exact.isInf, Exact.isZero, Exact.isNeg, sqrtExact, Exact.isNan, negative]
      · by_cases zero : q = 0 <;> simp [Exact.isInf, Exact.isZero, Exact.isNeg, sqrtExact, Exact.isNan, negative, zero]

/-- R137's results of NaN and of the infinities. -/
theorem specialOfNonFinite : SpecialOfNonFinite := by
  refine ⟨fun w nan => ?_, by decide +kernel, by decide +kernel⟩
  simp only [boundedFunctions, List.forall_mem_cons, List.not_mem_nil, false_imp_iff, implies_true, and_true]
  simp only [rsqOf, tanhOf, ex2Of, lg2Of, sinOf, cosOf, nan, and_self]

/-- A computed value beyond 1 by less than half a unit answers with a number of magnitude 1 at most. -/
theorem decode_boundedResult_one {x : Word} {y err bound : Rat} (near : |y| < 1 + 2 ^ (-25 : ℤ)) :
    ∃ v z, decodeFmt .f32 (boundedResult x y err bound 1) = .num v z ∧ |v| ≤ 1 := by
  unfold boundedResult
  split
  · next within =>
    unfold withinOf at within
    split at within
    · next v z decoded =>
      rw [Bool.and_eq_true, decide_eq_true_eq, decide_eq_true_eq, ratAbs_eq, ratAbs_eq] at within
      exact ⟨v, z, decoded, within.2⟩
    · cases within
  · have small : |y| < 2 ^ (0 + 1) := near.trans (by norm_num)
    obtain ⟨v, z, decoded, half⟩ := decode_roundFmt_rne (le_magnitude_maxCode (small.le.trans (by norm_num)))
    refine ⟨v, z, decoded, ?_⟩
    have unit := unitOf32_le (abs_nonneg y) small
    have one : magnitude 0x3F800000 = 1 := by norm_num [magnitude]
    rw [← one]
    refine le_of_lt_magnitude decoded ?_
    have next : magnitude (0x3F800000 + 1) = 1 + 2 ^ (-23 : ℤ) := by norm_num [magnitude]
    have through := abs_sub_abs_le_abs_sub v y
    rw [next]
    norm_num at *
    linarith


section
variable {w : Word} {q : Rat} {z : Bool} (h : decodeFmt .f32 w.toNat = .num q z)
include h

theorem rsqOf_neg (neg : q < 0) : rsqOf w = 0x7FC00000 := by
  simp only [rsqOf, h, if_neg neg.ne, if_pos neg]

theorem lg2Of_neg (neg : q < 0) : lg2Of w = 0x7FC00000 := by
  simp only [lg2Of, h, if_neg neg.ne, if_pos neg]

theorem tanhOf_small (small : |q| < 1 / 4096) : tanhOf w = w.toNat := by
  rw [tanhOf_num h, if_pos small]

theorem sinOf_small (small : |q| < 1 / 4096) : sinOf w = w.toNat := by
  rw [sinOf_num h, if_pos small]

theorem tanhOf_large (large : 19 / 2 ≤ |q|) : tanhOf w = Fmt.f32.withSign (decide (q < 0)) 0x3F800000 := by
  rw [tanhOf_num h, if_neg (by linarith), if_pos large]

theorem ex2Of_large (large : 128 ≤ q) : ex2Of w = 0x7F800000 := by
  rw [ex2Of_num h, if_pos large]

theorem ex2Of_small (small : q ≤ -150) : ex2Of w = 0 := by
  rw [ex2Of_num h, if_neg (by linarith), if_pos small]

theorem decode_lg2Of_power {n : ℤ} (power : q = (2 : Rat) ^ n) : ∃ y, decodeFmt .f32 (lg2Of w) = .num n y ∧ (n = 0 → y = false) := by
  have pos : 0 < q := power ▸ zpow_pos two_pos n
  have log : Int.log 2 q = n := power ▸ Int.log_zpow (R := Rat) one_lt_two n
  have decoded := decode_lg2Of_zpow h pos (by rw [log, power])
  rw [log] at decoded
  exact ⟨_, decoded, fun zero => by simp [zero]⟩

theorem decode_tanhOf : ∃ x y, decodeFmt .f32 (tanhOf w) = .num x y ∧ |x| ≤ 1 := by
  rw [tanhOf_num h]
  split
  · next small => exact ⟨q, z, h, by linarith⟩
  · split
    · have one : magnitude 0x3F800000 = 1 := by norm_num [magnitude]
      exact ⟨_, _, decode_f32 _ (by decide), by rw [abs_signedBy, one, abs_one]⟩
    · refine decode_boundedResult_one ?_
      obtain ⟨nonneg, lt⟩ := tanhMag_bounds (abs_nonneg q)
      rw [abs_tanhValue, abs_of_nonneg nonneg]
      exact lt.trans (by norm_num)

omit h in
/-- A value computed of one of magnitude 1 at most exceeds 1 by no more than its error. -/
theorem abs_lt_of_near {y : Rat} {exact : ℝ} (near : |(y : ℝ) - exact| ≤ 2 ^ (-150 : ℤ)) (le : |exact| ≤ 1) : |y| < 1 + 2 ^ (-25 : ℤ) := by
  have tiny : (2 : ℝ) ^ (-150 : ℤ) < 2 ^ (-25 : ℤ) := by norm_num
  rw [← Rat.cast_lt (K := ℝ)]
  push_cast
  have := abs_sub_abs_le_abs_sub (y : ℝ) exact
  linarith

theorem decode_sinOf : ∃ x y, decodeFmt .f32 (sinOf w) = .num x y ∧ |x| ≤ 1 := by
  rw [sinOf_num h]
  split
  · next small => exact ⟨q, z, h, by linarith⟩
  · exact decode_boundedResult_one (abs_lt_of_near (sinValue_near (abs_lt_of_decode h)) (Real.abs_sin_le_one _))

theorem decode_cosOf : ∃ x y, decodeFmt .f32 (cosOf w) = .num x y ∧ |x| ≤ 1 := by
  rw [cosOf_num h]
  split
  · exact ⟨1, false, by decide +kernel, by norm_num⟩
  · exact decode_boundedResult_one (abs_lt_of_near (cosValue_near (abs_lt_of_decode h)) (Real.abs_cos_le_one _))

end

/-- R137's results of the finite operands. -/
theorem specialOfFinite : SpecialOfFinite := by
  refine ⟨by decide +kernel, by decide +kernel, fun w q z h => ⟨fun neg => ⟨rsqOf_neg h neg, lg2Of_neg h neg⟩, fun low high => ?_, fun large => ?_,
    fun large => ?_, ex2Of_large h, ex2Of_small h, fun n int low high => decode_ex2Of_int h int low high, fun n => decode_lg2Of_power h, ?_⟩⟩
  · have small : |q| < 1 / 4096 := abs_lt.mpr ⟨by linarith, high⟩
    exact ⟨tanhOf_small h small, sinOf_small h small⟩
  · rw [tanhOf_large h (large.trans (le_abs_self q)), decide_eq_false (by linarith)]
    rfl
  · rw [tanhOf_large h (le_abs.mpr (.inr (by linarith))), decide_eq_true (by linarith)]
    rfl
  · simp only [List.forall_mem_cons, List.not_mem_nil, false_imp_iff, implies_true, and_true, ← abs_le]
    exact ⟨decode_tanhOf h, decode_sinOf h, decode_cosOf h⟩

end Sys2Proof.Machine

/-!
SUPPORT. The computed square root, and RSQ's result beside the exact one (R137).
-/
namespace Sys2Proof.Machine

open Sys2Proof

/-! ### Square roots -/

/-- The first bits of a square root of 300 bits. -/
def rootBits (n steps : Nat) : Nat :=
  (List.range steps).foldl (fun r i => let t := r + 2 ^ (299 - i); if t * t ≤ n then t else r) 0

theorem rootBits_succ (n i : Nat) : rootBits n (i + 1) =
    if (rootBits n i + 2 ^ (299 - i)) * (rootBits n i + 2 ^ (299 - i)) ≤ n then rootBits n i + 2 ^ (299 - i) else rootBits n i := by
  rw [rootBits, List.range_succ, List.foldl_append]
  rfl

theorem rootBits_bounds {n : Nat} (small : n < 2 ^ 600) : ∀ i ≤ 300, rootBits n i * rootBits n i ≤ n ∧
    n < (rootBits n i + 2 ^ (300 - i)) * (rootBits n i + 2 ^ (300 - i)) := by
  intro i
  induction i with
  | zero =>
    intro _
    refine ⟨Nat.zero_le n, small.trans_le ?_⟩
    rw [show rootBits n 0 = 0 from rfl, zero_add, ← pow_add]
  | succ i ih =>
    intro le
    obtain ⟨low, high⟩ := ih (by omega)
    rw [show 300 - i = 299 - i + 1 by omega, pow_succ] at high
    rw [rootBits_succ, show 300 - (i + 1) = 299 - i by omega]
    split
    · next fits => exact ⟨fits, by convert high using 2 <;> ring⟩
    · next past => exact ⟨low, not_le.mp past⟩

/-- The numbers in whole 2^−170 lie on the same side of the computed root as of the exact one. -/
theorem sqrtApprox_separates {v : Rat} (nonneg : 0 ≤ v) (small : v < 2 ^ 200) (k : Nat) :
    ((k : Rat) / 2 ^ 170 < sqrtApprox v → ((k : Rat) / 2 ^ 170) ^ 2 < v) ∧ (sqrtApprox v < k / 2 ^ 170 → v < ((k : Rat) / 2 ^ 170) ^ 2) := by
  obtain ⟨u, scale⟩ : ∃ u, u = v * ((4 ^ 170 : Nat) : Rat) := ⟨_, rfl⟩
  have scaled : sqrtApprox v = ((2 * rootBits u.floor.toNat 300 + if decide (((rootBits u.floor.toNat 300 * rootBits u.floor.toNat 300 : Nat) : Rat) = u)
      then 0 else 1 : Nat) : Rat) / ((2 ^ 171 : Nat) : Rat) := by
    rw [scale]
    rfl
  rw [show ((4 ^ 170 : Nat) : Rat) = 2 ^ 170 * 2 ^ 170 by rw [← mul_pow]; norm_num] at scale
  rw [show ((2 ^ 171 : Nat) : Rat) = 2 * 2 ^ 170 by norm_num] at scaled
  have nonneg' : 0 ≤ u := scale ▸ by positivity
  have whole : ((u.floor.toNat : Nat) : Rat) = u.floor := by
    exact_mod_cast Int.toNat_of_nonneg (Rat.le_floor_iff.mpr (by simpa using nonneg'))
  have floor : ((u.floor.toNat : Nat) : Rat) ≤ u := whole.trans_le (Rat.floor_le u)
  have above : u < ((u.floor.toNat + 1 : Nat) : Rat) := by
    push_cast
    rw [whole]
    exact sub_lt_iff_lt_add.mp Rat.lt_floor
  have bounded : u.floor.toNat < 2 ^ 600 := by
    have : ((u.floor.toNat : Nat) : Rat) < ((2 ^ 600 : Nat) : Rat) := by
      refine floor.trans_lt ?_
      calc u = v * (2 ^ 170 * 2 ^ 170) := scale
        _ < 2 ^ 200 * (2 ^ 170 * 2 ^ 170) := by gcongr
        _ ≤ 2 ^ 600 := by rw [← pow_add, ← pow_add]; exact pow_le_pow_right₀ one_le_two (by norm_num)
        _ = ((2 ^ 600 : Nat) : Rat) := by rw [Nat.cast_pow, Nat.cast_two]
    exact_mod_cast this
  obtain ⟨low, high⟩ := rootBits_bounds bounded 300 le_rfl
  generalize rootBits u.floor.toNat 300 = r at *
  have below : ((r * r : Nat) : Rat) ≤ u := le_trans (by exact_mod_cast low) floor
  have beyond : u < (((r + 1) * (r + 1) : Nat) : Rat) := above.trans_le (by exact_mod_cast high)
  obtain ⟨g, unit⟩ : ∃ g : Rat, g = 2 ^ 170 := ⟨_, rfl⟩
  have pos : 0 < g := unit ▸ by positivity
  rw [← unit] at scale scaled
  have square : v = u / (g * g) := by rw [scale, mul_div_cancel_right₀ _ (mul_pos pos pos).ne']
  have root : ((k : Rat) / g) ^ 2 = ((k * k : Nat) : Rat) / (g * g) := by
    push_cast
    ring
  have double : (k : Rat) / g = ((2 * k : Nat) : Rat) / (2 * g) := by
    push_cast
    rw [mul_div_mul_left _ _ two_ne_zero]
  rw [← unit, scaled, root, square, double]
  simp only [div_lt_div_iff_of_pos_right (mul_pos two_pos pos), div_lt_div_iff_of_pos_right (mul_pos pos pos), Nat.cast_lt, decide_eq_true_eq]
  split
  · next exact =>
    rw [← exact, Nat.cast_lt, Nat.cast_lt]
    exact ⟨fun lt => Nat.mul_self_lt_mul_self (by omega), fun lt => Nat.mul_self_lt_mul_self (by omega)⟩
  · next inexact =>
    refine ⟨fun lt => lt_of_le_of_lt ?_ (lt_of_le_of_ne below inexact), fun lt => beyond.trans_le ?_⟩
    · exact_mod_cast Nat.mul_self_le_mul_self (show k ≤ r by omega)
    · exact_mod_cast Nat.mul_self_le_mul_self (show r + 1 ≤ k by omega)

/-- A rounded magnitude is the magnitude itself or beside it. -/
theorem roundedCode_separates (rm : Round) (draw : Nat) (neg : Bool) {a : Rat} (pos : 0 < a) (c : Nat) :
    (roundedCode rm draw neg a < c → a < magnitude c) ∧ (c < roundedCode rm draw neg a → magnitude c < a) := by
  have low := magnitude_lowCode_le pos
  have high := lt_magnitude_lowCode pos
  have mono := fun {i j : Nat} => magnitude_strictMono.monotone (a := i) (b := j)
  unfold roundedCode
  constructor
  · intro lt
    exact high.trans_le (mono (by omega))
  · intro lt
    split_ifs at lt with exact up
    · rw [add_zero] at lt
      exact (magnitude_strictMono lt).trans_eq exact
    · exact (mono (by omega)).trans_lt (low.lt_of_ne exact)
    · rw [add_zero] at lt
      exact (magnitude_strictMono lt).trans_le low

/-- The numbers of FP32 lie on the same side of the computed root as of the exact one. -/
theorem sqrtApprox_separates_f32 {v : Rat} (nonneg : 0 ≤ v) (small : v < 2 ^ 200) {b : Nat} {x : Rat} {z : Bool}
    (h : decodeFmt .f32 b = .num x z) (nonneg' : 0 ≤ x) : (x < sqrtApprox v → x ^ 2 < v) ∧ (sqrtApprox v < x → v < x ^ 2) := by
  obtain ⟨n, rfl⟩ := exists_multiple h
  have unit : (0 : Rat) < 2 ^ (-149 : ℤ) := by positivity
  obtain ⟨m, rfl⟩ : ∃ m : ℕ, n = m := ⟨n.toNat, (Int.toNat_of_nonneg (by exact_mod_cast nonneg_of_mul_nonneg_left nonneg' unit)).symm⟩
  have grid : ((m : ℤ) : Rat) * 2 ^ (-149 : ℤ) = ((m * 2 ^ 21 : Nat) : Rat) / 2 ^ 170 := by
    push_cast
    norm_num
    ring
  rw [grid]
  exact sqrtApprox_separates nonneg small _

/-- A root of a value between 2^−130 and 2^150 lies between 2^−65 and 2^75. -/
theorem sqrtApprox_bounds {v : Rat} (low : 1 / 2 ^ 130 ≤ v) (high : v ≤ 2 ^ 150) : 1 / 2 ^ 65 ≤ sqrtApprox v ∧ sqrtApprox v ≤ 2 ^ 75 := by
  have nonneg : 0 ≤ v := le_trans (by positivity) low
  have small : v < 2 ^ 200 := high.trans_lt (by norm_num)
  have sides := fun {b : Nat} {x : Rat} {z : Bool} => sqrtApprox_separates_f32 (b := b) (x := x) (z := z) nonneg small
  have lower := (sides (b := 0x1F000000) (x := 1 / 2 ^ 65) (z := false) (by decide +kernel) (by norm_num)).2
  have upper := (sides (b := 0x65000000) (x := 2 ^ 75) (z := false) (by decide +kernel) (by norm_num)).1
  constructor
  · by_contra lt
    have := lower (not_le.mp lt)
    norm_num at *
    linarith
  · by_contra gt
    have := upper (not_le.mp gt)
    norm_num at *
    linarith

theorem rsqOf_pos {w : Word} {q : Rat} {z : Bool} (h : decodeFmt .f32 w.toNat = .num q z) (pos : 0 < q) :
    ∃ rm, rsqOf w = roundFmt .f32 false rm 0 (.num (sqrtApprox (1 / q)) false) := by
  simp only [rsqOf, h, if_neg pos.ne', if_neg (not_lt.mpr pos.le), Exact.ofRat]
  split
  · exact ⟨.rup, rfl⟩
  · exact ⟨.rdn, rfl⟩

/-- The inverse of a positive number of FP32. -/
theorem one_div_bounds {b : Nat} {q : Rat} {z : Bool} (h : decodeFmt .f32 b = .num q z) (pos : 0 < q) :
    1 / 2 ^ 130 ≤ 1 / q ∧ 1 / q ≤ 2 ^ 150 := by
  obtain ⟨low, high⟩ := intLog_of_decode h pos
  have least : (2 : Rat) ^ (-149 : ℤ) ≤ q := (zpow_le_zpow_right₀ one_le_two low).trans (zpow_log_le pos)
  have most : q < 2 ^ (128 : ℤ) := (lt_zpow_log q).trans_le (zpow_le_zpow_right₀ one_le_two (by omega))
  exact ⟨one_div_le_one_div_of_le pos (most.le.trans (by norm_num)),
    (one_div_le_one_div_of_le (by positivity) least).trans (by norm_num)⟩

theorem signedBy_false (x : Rat) : signedBy false x = x := rfl

/-- RSQ gives a code beside the computed root. -/
theorem exists_code_rsqOf {w : Word} {q : Rat} {z : Bool} (h : decodeFmt .f32 w.toNat = .num q z) (pos : 0 < q) :
    ∃ c ≤ Fmt.f32.maxCode, decodeFmt .f32 (rsqOf w) = .num (magnitude c) false ∧ 0 < magnitude c ∧
      ∀ c', (c < c' → sqrtApprox (1 / q) < magnitude c') ∧ (c' < c → magnitude c' < sqrtApprox (1 / q)) := by
  obtain ⟨rm, result⟩ := rsqOf_pos h pos
  obtain ⟨lower, upper⟩ := one_div_bounds h pos
  obtain ⟨low, high⟩ := sqrtApprox_bounds lower upper
  rw [result]
  generalize sqrtApprox (1 / q) = y at *
  have positive : 0 < y := lt_of_lt_of_le (by positivity) low
  have within : y ≤ magnitude Fmt.f32.maxCode := by
    rw [magnitude_maxCode]
    exact high.trans (by norm_num)
  have apart := roundedCode_separates rm 0 false positive
  have finite := roundedCode_le_of_le rm 0 false positive within
  rw [roundFmt_f32 false rm 0 false positive.ne' (by rwa [abs_of_pos positive]), abs_of_pos positive, decide_eq_false (not_lt.mpr positive.le)]
  generalize roundedCode rm 0 false y = c at *
  refine ⟨c, finite, by rw [decode_f32 false finite, signedBy_false], ?_, apart⟩
  rw [← magnitude_zero]
  refine magnitude_strictMono (Nat.pos_of_ne_zero fun zero => ?_)
  have small := (apart 1).1 (by rw [zero]; exact one_pos)
  have least : magnitude 1 = 2 ^ (-149 : ℤ) := by norm_num [magnitude]
  rw [least] at small
  norm_num at small low
  linarith

theorem rootsAreAdjacent : RootsAreAdjacent := by
  intro w q z h pos
  obtain ⟨c, -, decoded, positive, apart⟩ := exists_code_rsqOf h pos
  have inverse : 1 / q * q = 1 := one_div_mul_cancel pos.ne'
  refine ⟨magnitude c, false, decoded, positive, fun v x' y' h' => ?_⟩
  obtain ⟨c', -, value⟩ := abs_of_decode h'
  have sides := sqrtApprox_separates_f32 (one_div_nonneg.mpr pos.le) ((one_div_bounds h pos).2.trans_lt (by norm_num)) h'
  constructor
  · intro gt
    have nonneg : 0 ≤ x' := positive.le.trans gt.le
    rw [abs_of_nonneg nonneg] at value
    have beyond := (sides nonneg).2 (value ▸ (apart c').1 (magnitude_strictMono.lt_iff_lt.mp (value ▸ gt)))
    nlinarith
  · intro nonneg lt
    rw [abs_of_nonneg nonneg] at value
    have below := (sides nonneg).1 (value ▸ (apart c').2 (magnitude_strictMono.lt_iff_lt.mp (value ▸ lt)))
    nlinarith

end Sys2Proof.Machine

/-!
SUPPORT. Packed halves and dot products (R139 to R142).
-/
namespace Sys2Proof.Machine

open Sys2Proof

/-! ### Packed halves and dot products (R139 to R142) -/

theorem halfFmt_eq (p : Option Pfx) : (halfFmt p).bits = 16 := by
  unfold halfFmt
  split <;> rfl

/-- A bit of aux below the highest. -/
theorem bit_auxOf_of_lt (p : Option Pfx) {i : Nat} (hi : i < 7) : bit (auxOf p) i = (pfxGet p).aux.getLsbD i := by
  rw [getLsbD_eq_bit, auxOf, bit, bit]
  interval_cases i <;> (congr 1; omega)

theorem ofNat_halves {lo : Nat} (hlo : lo < 2 ^ 16) (hi : Nat) :
    BitVec.ofNat 64 (lo + 65536 * hi) = BitVec.ofNat 48 hi ++ BitVec.ofNat 16 lo := by
  apply BitVec.eq_of_toNat_eq
  rw [toNat_append_add, BitVec.toNat_ofNat, BitVec.toNat_ofNat, BitVec.toNat_ofNat]
  omega

/-- The second draw of a lane comes from the generator as the first leaves it. -/
theorem drawRng_twice (rm : Round) (x : Word) : (drawRng rm (drawRng rm x).2).1 = (drawRng rm (nextRng x)).1 ∧
    (drawRng rm (drawRng rm x).2).2 = if rm = .rsr then nextRng (nextRng x) else x := by
  by_cases random : rm = .rsr
  · simp [drawRng_snd, random]
  · simp [drawRng, random]

theorem half_eq (x : Word) (h : Nat) : half x.toNat h = (x.extractLsb' (16 * h) 16).toNat := (toNat_extractLsb' ..).symm

theorem halfA_eq (g : Group) (p : Option Pfx) (a : Opnd) (l h : Nat) : halfA g p a l h = halfSgnA g p a l h := by
  rw [halfA, nat32, half_eq]
  rfl

theorem halfB_eq (g : Group) (p : Option Pfx) (b : Opnd) (l h : Nat) : halfB g p b l h = halfSgnB g p b l h := by
  rw [halfB, nat32, half_eq, negB_eq]
  rfl

section
variable {i : Instr} {p : Option Pfx} {d : Opnd} {srcs : List (Opnd × Nat)}

theorem rowHalves_runs {val exact : Group → Nat → Nat → Exact} (word : ∀ s, exec i s = packedOp s p d srcs val)
    (same : ∀ g l h, val g l h = exact g l h) : (rowHalves i p d srcs exact).Runs := by
  obtain rfl : val = exact := by
    funext g l h
    exact same g l h
  refine laneRow_draws (.inl rfl) word (fun g l => ?_) fun g l x => (drawRng_twice ..).2
  have small := fun draw x => roundFmt_lt (halfFmt p) (satOf p) (modeOf g p) draw x
  simp only [halfFmt_eq] at small
  dsimp only [rowHalves]
  rw [(drawRng_twice ..).1]
  exact ofNat_halves (small _ _) _

end

theorem pickHalf_eq (f : Fmt) (bits : f.bits = 16) (c e : Bool) (x y : Word) (h : Nat) :
    pickFloat f true (flipSign f c (half x.toNat h)) (flipSign f e (half y.toNat h)) =
      (BitVec.ofNat 16 (pickFloat f true (x.extractLsb' (16 * h) 16 ^^^ if c then 0x8000 else 0).toNat
        (y.extractLsb' (16 * h) 16 ^^^ if e then 0x8000 else 0).toNat)).toNat := by
  have nan := f.nanCode_lt
  rw [bits] at nan
  rw [half_eq, half_eq, flipSign_half bits, flipSign_half bits, BitVec.toNat_ofNat,
    Nat.mod_eq_of_lt (pickFloat_lt true (BitVec.isLt _) (BitVec.isLt _) nan)]

theorem byteOf_eq (u : Bool) (x : Word) (j : Nat) :
    (if u then (bits x.toNat (8 * j) 8 : Int) else signed 8 (bits x.toNat (8 * j) 8)) = byteOf u x j := by
  rw [← toNat_extractLsb', signed_toNat]
  rfl

/-- The sum of DOT4, saturated or not. -/
theorem dot4_eq (sat : Bool) (y : Int) :
    wrap 32 (if sat then max (-2147483648) (min 2147483647 y) else y) = (narrowTo 32 sat false y).toNat := (narrow_eq 32 sat false y)

theorem dot2Op_runs {i : Instr} {f : Fmt} {p : Option Pfx} {d a b : Opnd} (word : ∀ s, exec i s = dot2Op s f p d a b) :
    (rowRound i p d ([(a, 1), (b, 1)] ++ cReg p) fun g l =>
      let term := fun h => elemProduct f p ((val32 g a l).extractLsb' (16 * h) 16).toNat ((val32 g b l).extractLsb' (16 * h) 16).toNat
      sumExact (rdnOf g p) [addend g p l, term 0, term 1]).Runs :=
  rowRound_runs word fun g l => by
    simp only [nat32, half_eq, negB_eq]
    rfl

theorem packedRows_run (p : Option Pfx) (d a b : Opnd) : ∀ r ∈ packedRows p d a b, r.Runs := by
  simp only [packedRows, List.forall_mem_cons, List.not_mem_nil, false_imp_iff, implies_true, and_true]
  refine ⟨rowHalves_runs (fun s => Eq.refl (execHadd2 p d a b s)) fun g l h => ?_,
    rowHalves_runs (fun s => Eq.refl (execHmul2 p d a b s)) fun g l h => ?_,
    rowHalves_runs (fun s => Eq.refl (execHfma2 p d a b s)) fun g l h => ?_,
    row32_runs (fun s => Eq.refl (execHmax2 p d a b s)) fun g l => ?_,
    row32_runs (fun s => Eq.refl (execDot4I8 p d a b s)) fun g l => ?_,
    rowRound_runs (fun s => Eq.refl (execDot8H4 p d a b s)) fun g l => ?_,
    dot2Op_runs fun s => Eq.refl (execDot2Bf16 p d a b s), dot2Op_runs fun s => Eq.refl (execDot2F16 p d a b s)⟩
  · rw [sumExact_pair, halfA_eq, halfB_eq]
  · rw [halfA_eq, halfB_eq]
  · rw [sumExact_pair, halfA_eq, halfB_eq, nat32, half_eq]
    rfl
  · simp only [nat32, pickHalf_eq _ (halfFmt_eq p), negB_eq, toNat_append_add]
    rw [Nat.add_comm, Nat.mul_comm]
    rfl
  · simp only [nat32, int32, byteOf_eq, bit_auxOf_of_lt p (show 0 < 7 by decide), bit_auxOf_of_lt p (show 1 < 7 by decide), dot4_eq]
    rfl
  · simp only [nat32, ← toNat_extractLsb', negB_eq]
    rfl

end Sys2Proof.Machine

/-!
SUPPORT. Conversions, block quantisation and nibbles (R143 to R151); with them, the statement about the floating words.
-/
namespace Sys2Proof.Machine

open Sys2Proof

/-! ### Conversions (R143 to R145) -/

theorem auxOf_eq (p : Option Pfx) : auxOf p = (auxBits p).toNat := by
  rw [auxBits, BitVec.toNat_setWidth]
  rfl

theorem auxOf_low (p : Option Pfx) : auxOf p % 8 = ((auxBits p).extractLsb' 0 3).toNat := by
  rw [auxOf_eq, toNat_extractLsb', bits]
  omega

theorem auxOf_high (p : Option Pfx) : auxOf p / 8 = ((auxBits p).extractLsb' 3 4).toNat := by
  have := (auxBits p).isLt
  rw [auxOf_eq, toNat_extractLsb', bits]
  omega

theorem bit_auxBits (p : Option Pfx) (i : Nat) : bit (auxOf p) i = (auxBits p).getLsbD i := by
  rw [auxOf_eq, getLsbD_eq_bit]

theorem intType_eq (t : Nat) : intType t = (typeWidth t, decide (t % 2 = 1)) := by
  unfold intType typeWidth
  congr 1
  grind

theorem typeWidth_cases (t : Nat) : (typeWidth t = 64 ∧ 6 ≤ t) ∨ ((typeWidth t = 32 ∨ typeWidth t = 16 ∨ typeWidth t = 8) ∧ t < 6) := by
  unfold typeWidth
  grind

/-- An integer as F2I puts it into its register or pair. -/
theorem ofNat_wrap_type (t : Nat) (y : Int) : BitVec.ofNat 64 (wrap (max (typeWidth t) 32) y) = extended t y := by
  rw [ofNat_wrap, extended]
  rcases typeWidth_cases t with ⟨wide, -⟩ | ⟨narrow, -⟩
  · rw [if_pos wide, wide]
    exact BitVec.setWidth_eq _
  · rw [if_neg (by omega), show max (typeWidth t) 32 = 32 by omega]

/-- An infinity saturates to an end of the type. -/
theorem satInt_inf (t : Nat) (u neg : Bool) : satInt (typeWidth t) u (if neg then -(2 ^ 64) else 2 ^ 64) =
    clampTo (typeWidth t) u (if neg then -(2 ^ 200) else 2 ^ 200) := by
  rw [satInt_eq]
  have widths : typeWidth t = 64 ∨ typeWidth t = 32 ∨ typeWidth t = 16 ∨ typeWidth t = 8 := by
    have := typeWidth_cases t
    tauto
  rcases widths with width | width | width | width <;> rw [width] <;> revert u neg <;> decide

/-- Val of an operand in an integer type. -/
theorem valType_eq (t : Nat) (g : Group) (a : Opnd) (l : Nat) :
    (let x := if 6 ≤ t then nat64 g a l else nat32 g a l
     if (intType t).2 then ((x % 2 ^ (intType t).1 : Nat) : Rat) else (signed (intType t).1 x : Rat)) = valType t g a l := by
  have narrowed : (if 6 ≤ t then nat64 g a l else nat32 g a l) =
      (if typeWidth t = 64 then val64 g a l else (val32 g a l).setWidth 64 : Dword).toNat := by
    rcases typeWidth_cases t with ⟨wide, ge⟩ | ⟨narrow, lt⟩
    · rw [if_pos ge, if_pos wide]
      rfl
    · rw [if_neg (by omega), if_neg (by omega), BitVec.toNat_setWidth, Nat.mod_eq_of_lt ((val32 g a l).isLt.trans (by norm_num))]
      rfl
  dsimp only
  rw [narrowed, intType_eq, valType]
  dsimp only
  generalize (if typeWidth t = 64 then val64 g a l else (val32 g a l).setWidth 64 : Dword) = x
  have value : signed (typeWidth t) x.toNat = (x.setWidth (typeWidth t)).toInt := by
    rw [← signed_toNat, BitVec.toNat_setWidth, signed, signed, Nat.mod_mod]
  rw [value]
  split
  · next odd => rw [if_pos (by simpa using odd), BitVec.toNat_setWidth]; push_cast; rfl
  · next even => rw [if_neg (by simpa using even)]

/-! ### Block quantisation (R147 to R150) -/

theorem blockFmt_eq (p : Option Pfx) : blockFmt (auxOf p % 8) = blockFmtOf p := by
  rw [auxOf_low]
  rfl

theorem scaleOf_eq (p : Option Pfx) (b : Word) : scaleOf (scaleE8m0 p) b.toNat = blockScaleOf p b := by
  have exponent : b.toNat % 256 = (b.extractLsb' 0 8).toNat := by
    rw [toNat_extractLsb', bits]
    omega
  have nan : (b.extractLsb' 0 8).toNat = 255 ↔ b.extractLsb' 0 8 = 0xFF := by
    rw [← BitVec.toNat_inj]
    rfl
  unfold scaleOf blockScaleOf scaleE8m0
  rw [bit_auxBits, exponent]
  cases (auxBits p).getLsbD 3
  · simp only [Bool.not_false, if_true, nan, Bool.false_eq_true, if_false]
  · rfl

/-- The scale of a block fits a register. -/
theorem blockScale_lt (f : Fmt) (e8m0 : Bool) (a : Exact) : blockScale f e8m0 a < 2 ^ 32 := by
  unfold blockScale
  split
  · split <;> decide
  · split <;> decide
  · dsimp only
    refine ite_lt ?_ fun _ => ite_lt (by decide) fun _ => roundFmt_lt .f32 ..
    cases found : (List.range 255).find? _ with
    | none => decide
    | some e =>
      have := List.mem_range.mp (List.mem_of_find?_eq_some found)
      exact this.trans (by norm_num)

/-- One quantised element (R149), as the row gives it. -/
theorem ofNat_quantise (f : Fmt) (sat : Bool) (rm : Round) (draw : Nat) (x scale : Exact) :
    BitVec.ofNat 64 (quantise f sat rm (if quantRounds f x scale then draw else 0) x scale) =
      if noQuotient x scale then (if f = .i8 then 0 else BitVec.ofNat 64 f.nanCode)
      else if f = .i8 then
        (match x.div scale with
         | .nan => 0
         | .inf n => if n then 0xFFFFFF81 else 0x7F
         | .num q _ => (BitVec.ofInt 32 (max (-127) (min 127 (roundInt rm draw q)))).setWidth 64)
      else BitVec.ofNat 64 (roundFmt f sat rm draw (x.div scale)) := by
  by_cases int : f = .i8
  · subst int
    unfold quantise quantRounds
    cases noQuotient x scale
    · cases x.div scale with
      | nan => rfl
      | inf n => cases n <;> rfl
      | num q z => exact ofNat_wrap ..
    · rfl
  · have float : quantise f sat rm (if quantRounds f x scale then draw else 0) x scale =
        if noQuotient x scale then f.nanCode else roundFmt f sat rm (if quantRounds f x scale then draw else 0) (x.div scale) := by
      unfold quantise
      split
      · exact absurd rfl int
      · rfl
    have rounds : quantRounds f x scale = !noQuotient x scale := by simp [quantRounds, int]
    rw [float, rounds, if_neg int, if_neg int]
    cases noQuotient x scale <;> rfl

theorem quantRounds_iff (f : Fmt) (x scale : Exact) :
    quantRounds f x scale = true ↔ noQuotient x scale = false ∧ (f = .i8 → finite (x.div scale)) := by
  unfold quantRounds finite
  by_cases int : f = .i8 <;> simp [int]

/-! ### Nibbles (R151) -/

theorem nibble_eq (sat : Bool) (x : Word) (j : Nat) :
    (if sat then wrap 4 (max (-8) (min 7 (signed 8 (bits x.toNat (8 * j) 8)))) else bits x.toNat (8 * j) 8 % 16) =
      (let y := x.extractLsb' (8 * j) 8
       if sat then BitVec.ofInt 4 (max (-8) (min 7 y.toInt)) else y.setWidth 4 : BitVec 4).toNat := by
  rw [← toNat_extractLsb', signed_toNat, wrap_eq]
  cases sat
  · exact (BitVec.toNat_setWidth 4 (x.extractLsb' (8 * j) 8)).symm
  · rfl

theorem unpacked_eq (sgn : Bool) (k : BitVec 4) :
    (if sgn then wrap 8 (signed 4 k.toNat) else k.toNat) = (if sgn then k.signExtend 8 else k.setWidth 8 : BitVec 8).toNat := by
  rw [signed_toNat, wrap_eq]
  cases sgn
  · revert k; decide
  · revert k; decide


theorem intRegs_cases (t : Nat) : intRegs t = 1 ∨ intRegs t = 2 := by
  unfold intRegs
  split
  · exact .inr rfl
  · exact .inl rfl

theorem range_four : List.range 4 = [0, 1, 2, 3] := rfl

/-- Two registers' nibbles and four bytes, put together. -/
theorem toNat_nibbles (x y : Nat → BitVec 4) :
    (List.range 4).foldl (fun r j => r + (x j).toNat * 2 ^ (4 * j) + (y j).toNat * 2 ^ (4 * j + 16)) 0 =
      (y 3 ++ y 2 ++ y 1 ++ y 0 ++ x 3 ++ x 2 ++ x 1 ++ x 0).toNat := by
  repeat rw [toNat_append_add]
  rw [range_four, List.foldl_cons, List.foldl_cons, List.foldl_cons, List.foldl_cons, List.foldl_nil]
  ring

theorem toNat_bytes (x : Nat → BitVec 8) :
    (List.range 4).foldl (fun r j => r + (x j).toNat * 2 ^ (8 * j)) 0 = (x 3 ++ x 2 ++ x 1 ++ x 0).toNat := by
  repeat rw [toNat_append_add]
  rw [range_four, List.foldl_cons, List.foldl_cons, List.foldl_cons, List.foldl_cons, List.foldl_nil]
  ring

/-- What a lane of F2I receives, and the generator after it. -/
def f2iLane (p : Option Pfx) (a : Opnd) (g : Group) (l : Nat) (x : Word) : Dword × Word :=
  let put := fun (y : Int) => extended (auxOf p) (satInt (typeWidth (auxOf p)) (auxOf p % 2 = 1) y)
  match float32 g a l with
  | .nan => (0, x)
  | .inf neg => (put (if neg then -(2 ^ 64) else 2 ^ 64), x)
  | .num q _ => (put (roundInt (modeOf g p) (drawRng (modeOf g p) x).1 q), (drawRng (modeOf g p) x).2)

theorem exec_f2i (p : Option Pfx) (d a : Opnd) (s : State) :
    exec (.f2i p d a) s = laneOp s p d (intRegs (auxOf p)) [(a, 1)] (f2iLane p a) := by
  change execF2i p d a s = _
  unfold execF2i
  simp only [intType_eq, ofNat_wrap_type]
  rfl

theorem convertRows_run (p : Option Pfx) (d a b : Opnd) : ∀ r ∈ convertRows p d a b, r.Runs := by
  simp only [convertRows, List.forall_mem_cons, List.not_mem_nil, false_imp_iff, implies_true, and_true]
  have regs : (if 6 ≤ (auxBits p).toNat then 2 else 1) = intRegs (auxOf p) := by
    rw [auxOf_eq]
    rfl
  rw [regs]
  refine ⟨laneRow_draws (intRegs_cases _) (exec_f2i p d a) (fun g l => ?_) fun g l x => ?_,
    rowRound_runs (fun s => Eq.refl (execI2f p d a s)) fun g l => ?_,
    laneRow_draws (.inl rfl) (fun s => Eq.refl (execF2f p d a s)) (fun g l => ?_) fun g l x => drawRng_snd ..,
    laneRow_draws (.inl rfl) (fun s => Eq.refl (execQnt p d a b s)) (fun g l => ?_) fun g l x => ?_,
    row32_runs (fun s => Eq.refl (execQntScale p d a s)) fun g l => ?_,
    rowRound_runs (fun s => Eq.refl (execDqnt p d a b s)) fun g l => ?_,
    row32_runs (fun s => Eq.refl (execPackn p d a b s)) fun g l => ?_,
    row32_runs (fun s => Eq.refl (execUnpackn p d a s)) fun g l => ?_⟩
  · rw [f2iLane, auxOf_eq]
    dsimp only
    cases float32 g a l with
    | nan => rfl
    | inf neg => exact congrArg (extended _) (satInt_inf ..)
    | num q z => exact congrArg (extended _) (satInt_eq ..)
  · rw [f2iLane]
    dsimp only
    cases float32 g a l with
    | nan => simp [finite, Exact.isNan]
    | inf n => simp [finite, Exact.isInf]
    | num q z => simp [finite, Exact.isNan, Exact.isInf, drawRng_snd]
  · rw [← auxOf_eq, ← valType_eq]
  · rw [auxOf_low, auxOf_high]
    rfl
  · simp only [blockFmt_eq, nat32, scaleOf_eq, apply_ite Prod.fst]
    exact ofNat_quantise ..
  · simp only [blockFmt_eq, nat32, scaleOf_eq, apply_ite Prod.snd, drawRng_snd, quantRounds_iff]
    grind
  · rw [blockFmt_eq, scaleE8m0, bit_auxBits, BitVec.toNat_ofNat, Nat.mod_eq_of_lt (blockScale_lt ..)]
  · rw [blockFmt_eq, nat32, nat32, scaleOf_eq]
  · simp only [nat32, nibble_eq]
    exact toNat_nibbles ..
  · simp only [nat32, bit_auxBits, ← toNat_extractLsb', unpacked_eq]
    rw [auxOf_eq, ← toNat_extractLsb']
    exact toNat_bytes fun j => _

/-! ### F2F.pk (R146) -/

/-- n bits of a register from bit lo on, replaced. -/
theorem toNat_replace (x : Word) {lo n v : Nat} (inside : lo + n ≤ 32) (small : v < 2 ^ n) :
    ((x &&& ~~~(ones n <<< lo)) ||| (BitVec.ofNat 32 v <<< lo)).toNat = x.toNat - bits x.toNat lo n * 2 ^ lo + v * 2 ^ lo := by
  have low := Nat.mod_lt x.toNat (show 0 < 2 ^ lo by positivity)
  have cut : x.toNat = 2 ^ (lo + n) * (x.toNat / 2 ^ (lo + n)) + (2 ^ lo * bits x.toNat lo n + x.toNat % 2 ^ lo) := by
    have outer := Nat.div_add_mod x.toNat (2 ^ lo)
    have inner := Nat.div_add_mod (x.toNat / 2 ^ lo) (2 ^ n)
    rw [Nat.div_div_eq_div_mul] at inner
    rw [bits, pow_add, mul_assoc, ← add_assoc, ← mul_add, inner, outer]
  have replaced : x.toNat - bits x.toNat lo n * 2 ^ lo + v * 2 ^ lo =
      2 ^ (lo + n) * (x.toNat / 2 ^ (lo + n)) + (2 ^ lo * v + x.toNat % 2 ^ lo) := by
    rw [Nat.mul_comm _ (2 ^ lo), Nat.mul_comm v]
    omega
  have within : 2 ^ lo * v + x.toNat % 2 ^ lo < 2 ^ (lo + n) := by
    rw [pow_add]
    calc 2 ^ lo * v + x.toNat % 2 ^ lo < 2 ^ lo * (v + 1) := by rw [mul_add, mul_one]; omega
      _ ≤ 2 ^ lo * 2 ^ n := Nat.mul_le_mul_left _ small
  rw [replaced]
  apply Nat.eq_of_testBit_eq
  intro i
  rw [Nat.testBit_two_pow_mul_add _ within, Nat.testBit_two_pow_mul_add _ low, Nat.testBit_mod_two_pow, Nat.testBit_div_two_pow]
  have mask : ∀ k, (ones n).getLsbD k = decide (k < n) := fun k => by
    rw [ones, BitVec.getLsbD_ofNat, Nat.testBit_two_pow_sub_one]
    simp
    omega
  have value : ∀ k, n ≤ k → v.testBit k = false := fun k le =>
    Nat.testBit_lt_two_pow (small.trans_le (Nat.pow_le_pow_right two_pos le))
  change BitVec.getLsbD _ i = _
  have read : x.toNat.testBit i = x.getLsbD i := rfl
  simp only [BitVec.getLsbD_or, BitVec.getLsbD_and, BitVec.getLsbD_not, BitVec.getLsbD_shiftLeft, BitVec.getLsbD_ofNat, mask]
  by_cases below : i < lo
  · have in32 : i < 32 := by omega
    have inPair : i < lo + n := by omega
    simp [below, in32, inPair, read]
  · by_cases inPair : i < lo + n
    · have in32 : i < 32 := by omega
      have field : i - lo < n := by omega
      simp [below, in32, inPair, field, show i - lo < 32 by omega]
    · have place : i - (lo + n) + (lo + n) = i := by omega
      have past : ¬ i - lo < n := by omega
      rw [value (i - lo) (not_lt.mp past)]
      by_cases in32 : i < 32
      · simp [below, in32, inPair, past, place, read]
      · simp [in32, inPair, place, read, BitVec.getLsbD_of_ge x i (not_lt.mp in32)]

/-- The element formats of F2F.pk and where their pairs stand. -/
theorem pair_inside {p : Option Pfx} {d a b : Opnd} (wf : (Instr.f2fPk p d a b).WellFormed) :
    2 * (auxOf p / 8) * (floatType (auxOf p % 8)).bits + 2 * (floatType (auxOf p % 8)).bits ≤ 32 := by
  have keys : pfxOk (.f2fPk p d a b) = true := (Bool.and_eq_true_iff.mp wf).2
  have defined : auxDefined (auxOf p) (satOf p) (.f2fPk p d a b) = true := (Bool.and_eq_true_iff.mp keys).2
  simp only [auxDefined, Bool.or_eq_true, Bool.and_eq_true, beq_iff_eq, decide_eq_true_eq] at defined
  generalize auxOf p % 8 = f at *
  generalize auxOf p / 8 = place at *
  obtain (⟨rfl | rfl, at0⟩ | ⟨rfl | rfl, at1⟩) | ⟨rfl | rfl, at3⟩ := defined <;> simp only [floatType, Fmt.bits] <;> omega

theorem pairRow_runs {p : Option Pfx} {d a b : Opnd} (wf : (Instr.f2fPk p d a b).WellFormed) : (pairRow p d a b).Runs := by
  refine laneRow_draws (.inl rfl) (fun s => Eq.refl (execF2fPk p d a b s)) (fun g l => ?_) fun g l x => (drawRng_twice ..).2
  have inside := pair_inside wf
  dsimp only [pairRow]
  rw [← auxOf_low, ← auxOf_high, (drawRng_twice ..).1]
  generalize floatType (auxOf p % 8) = f at *
  generalize 2 * (auxOf p / 8) * f.bits = lo at *
  have first := roundFmt_lt f (satOf p) (modeOf g p) (drawRng (modeOf g p) (rngOf g l)).1 (float32 g a l)
  have second := roundFmt_lt f (satOf p) (modeOf g p) (drawRng (modeOf g p) (nextRng (rngOf g l))).1 (float32 g b l)
  generalize roundFmt f (satOf p) (modeOf g p) (drawRng (modeOf g p) (rngOf g l)).1 (float32 g a l) = u at *
  generalize roundFmt f (satOf p) (modeOf g p) (drawRng (modeOf g p) (nextRng (rngOf g l))).1 (float32 g b l) = v at *
  have small : u + v * 2 ^ f.bits < 2 ^ (2 * f.bits) := by
    rw [two_mul, pow_add]
    calc u + v * 2 ^ f.bits < (v + 1) * 2 ^ f.bits := by rw [add_mul, one_mul]; omega
      _ ≤ 2 ^ f.bits * 2 ^ f.bits := Nat.mul_le_mul_right _ second
  rw [Nat.mul_comm (2 ^ f.bits) v, nat32, ← toNat_replace _ inside small]
  exact BitVec.ofNat_toNat ..

end Sys2Proof.Machine

namespace Sys2Proof

open Sys2Proof.Machine

/-- Settles O3: the rows word by word, then the results that R137 names and RSQ's neighbours. -/
theorem floatAndConversionWordsGiveTheirResults : Obligations.FloatAndConversionWordsGiveTheirResults := by
  unfold Obligations.FloatAndConversionWordsGiveTheirResults
  exact ⟨floatRows_run, ⟨specialRows_run, specialOfNonFinite, specialOfFinite, rootsAreAdjacent⟩, packedRows_run, convertRows_run,
    fun _ _ _ _ => pairRow_runs⟩

end Sys2Proof
